-- ==== Sys2Proof/Word.lean ====
section
/-! DEFINITION. The word types of the engine: bytes and the fixed widths its registers, entries and headers use (00_scope.md R7, R14). -/

namespace Sys2Proof

/-- One byte of engine memory, of a message or of a frame. -/
abbrev Byte := BitVec 8
/-- A string of bytes, byte 0 first (R7, R9). -/
abbrev Bytes := List Byte
/-- A 16-bit word. -/
abbrev W16 := BitVec 16
/-- A 32-bit word: CURSOR, FP32 encodings, most window registers. -/
abbrev W32 := BitVec 32
/-- A 64-bit word: STEP, counters, addresses in records. -/
abbrev W64 := BitVec 64
/-- A 128-bit word: RSIG, TSIG, DEBUG_NONCE. -/
abbrev W128 := BitVec 128
/-- The 640-bit word of an Erg register (05_exact_arithmetic.md R105). -/
abbrev W640 := BitVec 640

/-- One of the 12 pitches (01_architecture.md R22). -/
abbrev PitchId := Fin 12
/-- One of the eight host ports HP0 to HP7 (02 R32). -/
abbrev HostPort := Fin 8
/-- One of the 17 physical network ports EP0 to EP16; EP16 is the spare (02 R32). -/
abbrev NetPort := Fin 17
/-- One of the 136 switched cells (01 R29). -/
abbrev CellId := Fin 136

/-- Sparse data by key: keys strictly rising, no entry equal to the default. -/
abbrev Sparse (α : Type) := List (Nat × α)

end Sys2Proof
end

