-- ==== Sys2Proof/Syntax.lean ====
section
/-! DEFINITION. The commands of the block: one constructor of Instr per row of spec/opcode_table.json, in its order,
with the operands a sender gives it, and the operand types. A row's operands are what the spec says comes from outside
the state: bytes of a frame, a register write, a sensor reading, a test's outcome, a choice the engine may make. -/

namespace Sys2Proof

/-- One entry of a register flit (17_host_interface.md R358). -/
structure RegEntry where
  op   : BitVec 8
  addr : BitVec 48
  data : BitVec 64
  deriving DecidableEq, Repr

/-- A frame as it arrives on a physical port: every byte from the Ethernet destination address to the FCS (03 R68).
`decoderSlip` is true when the first decoder of the expander decodes it wrongly (09 R217). -/
structure Rx where
  port        : NetPort
  bytes       : Bytes
  decoderSlip : Bool := false
  deriving DecidableEq, Repr

/-- Why the power core holds the engine in reset (02 R49; 23 R491 BOOT record byte 28). -/
inductive RailCause | outOfRange | pwrgoodFell | sequencing
  deriving DecidableEq, Repr

/-- The data rates a host port may be trained at: 32 GT/s, and 16 GT/s for bring-up (02 R33). -/
inductive HostRate | gt32 | gt16
  deriving DecidableEq, Repr

/-- The memories whose ECC is counted and whose rows are tested (23 R482, R489, R491). -/
inductive EccMem | hbm | staging | erg | queueMemory
  deriving DecidableEq, Repr

/-- What a reset finds outside the die and in its self-tests (02 R50, R53; 21 R448, R449; 23 R482). -/
structure BootEnv where
  /-- fuse sensing passed its check (BOOT_ERROR 0x01) -/
  fusesOk      : Bool := true
  /-- the core PLL locked within 1 ms (0x02) -/
  pllLocked    : Bool := true
  /-- an SFDP table was read and the density is 64 MiB (0x03) -/
  sfdpOk       : Bool := true
  /-- the firmware complex's SRAM is sound or repaired (0x0A) -/
  firmwareSram : Bool := true
  /-- what another SPI agent programmed into bank A or B while PORST_N was low (R38); none: unchanged -/
  bankA        : Option Bytes := none
  bankB        : Option Bytes := none
  /-- mirror directory copies found invalid (R446) -/
  dirBadA      : Bool := false
  dirBadB      : Bool := false
  /-- pitches whose retained image fails its CRC (19 R422) -/
  imageBad     : BitVec 12 := 0
  /-- per host port, the modules whose lanes could be repaired at link training (R34) -/
  modules      : Vector (BitVec 4) 8 := Vector.replicate 8 15#4
  /-- per host port, the data rate its partner trains at (R33) -/
  rates        : Vector HostRate 8 := Vector.replicate 8 .gt32
  /-- physical slices whose logic fails boot BIST (23 R482) -/
  badSlices    : List (Fin 8 × Fin 9) := []
  /-- slices whose array has one failing PE (R482, R484) -/
  badPes       : List (Fin 8 × Fin 9) := []
  /-- outputs of the Sandgrain cores of slices in the boot test (13 R303); a slice that is not listed gave the vector -/
  sandgrain    : List (Fin 8 × Fin 9 × List W128) := []
  /-- SRAM rows that fail the march test, by an address in them (R482) -/
  badRows      : List (EccMem × Nat) := []
  /-- network ports with a decoder of their expander found wrong (R482) -/
  badDecoders  : List NetPort := []
  /-- lanes found failed by boot BIST (12 R280) -/
  badLanes     : List (NetPort × Fin 9 × Bool) := []
  /-- WRST_N was low as PORST_N rose (R52) -/
  wrstLow      : Bool := false
  deriving DecidableEq, Repr

/-- What BIST finds in one cell that leaves OFF (02 R50; 23 R482). -/
inductive CellBist
  | pass
  /-- the SRAM row that holds this address fails the march test -/
  | row (addr : Nat)
  | logic
  deriving DecidableEq, Repr

/-- What the power core and the ports read over one management epoch (12 R280, R281; 23 R479, R481). -/
structure EpochEnv where
  /-- slack of the eight margin replicas, ps -/
  slack       : List Int := [30, 30, 30, 30, 30, 30, 30, 30]
  /-- FEC symbol errors counted on lanes in the epoch: port, lane, transmit, count; a lane not listed had none (12 R280) -/
  symbols     : List (NetPort × Fin 9 × Bool × Nat) := []
  /-- FEC codewords corrected and uncorrectable, per port -/
  corrected   : List Nat := []
  uncorrected : List Nat := []
  deriving DecidableEq, Repr

/-- The rate at which a network port's link is up (12 R277, R281). -/
inductive LinkRate | down | r400 | r800
  deriving DecidableEq, Repr

/-- The two scheduler cores (21 R441). -/
inductive SchCore | a | b
  deriving DecidableEq, Repr

/-- The twelve firmware cores (21 R441). -/
inductive FwCore | sec | pwr | sch (c : SchCore) | cc (c : Fin 8)
  deriving DecidableEq, Repr

/-- What TAP HALT does to a core (22 R466). -/
inductive HaltAction | halt | step | resume | readRegisters
  deriving DecidableEq, Repr

/-- What TAP MEMRD may name (22 R466). -/
inductive DebugMem
  | staging | hbm | queueMemory | erg | flagRam | sharedSram | privateSram (c : FwCore)
  | rom | fuses | retainedStore | keyStorage
  deriving DecidableEq, Repr

/-- One item of the provisioning data (12 R280, R292; 18 R387; 22 R473, R475). The spec names the items, not their places. -/
inductive ProvItem
  | adminPorts (mask : BitVec 8)
  | lane8Wired (mask : BitVec 17)
  | retainEn (on : Bool)
  | drowseEn (on : Bool)
  | portMac (port : NetPort) (mac : BitVec 48)
  | ptpAddress (addr : BitVec 128)
  | servoPort (port : NetPort)
  | ptpDomain (domain : Fin 128)
  | raw (offset : Nat) (data : Bytes)
  | crc (value : W32)
  | complete (done : Bool)
  deriving DecidableEq, Repr

/-- A PTP message to the servo (12 R292): end-to-end delay mechanism, times and correctionField in units of 2^-16 ns. -/
inductive PtpMsg
  /-- a Sync: the domain, the master's time t1 and the correction -/
  | sync (domain : Fin 128) (origin correction : Int)
  /-- a Delay_Resp: the master's time t4 of the engine's Delay_Req, and the correction -/
  | delayResp (domain : Fin 128) (received correction : Int)
  deriving DecidableEq, Repr

/-- A write to a schedule register (21 R456). -/
inductive SchedWrite
  | campSlot (resource : Fin 32) (slot : Fin 64) (owner : Option PitchId)
  | pegEntry (p : PitchId) (index : Nat) (entry : W128)
  | windowBudget (p : PitchId) (entry : Nat) (port : Fin 16) (bytes : W32)
  | pitchState (p : PitchId) (code : Fin 8)
  | portMap (p : PitchId) (lp : Fin 16) (port : NetPort)
  | sliceMap (cluster : Fin 8) (logical : Fin 8) (physical : Fin 9)
  deriving DecidableEq, Repr

/-- The outcome of a tile's checks (08 R191 to R194). -/
inductive TileCheck
  | pass
  /-- a row or column checksum failed once; the replay passes -/
  | checksum
  /-- a residue check failed once; the replay passes -/
  | residue
  /-- an Erg bank refused n tail adds or spills by their residue; each is sent again and accepted -/
  | refused (n : Nat)
  /-- the replay fails too: the unit leaves service until UNIT_REPAIR. Whether the first and the second failure was of a
  residue, and not of a checksum -/
  | replayFails (first again : Bool)
  deriving DecidableEq, Repr

/-- The outcome of a block's residue checks in a stage of its slice (08 R192 to R194). -/
inductive BlockCheck
  | pass
  /-- a check failed once; the replay passes -/
  | residue
  /-- an Erg bank refused n tail adds or spills by their residue; each is sent again and accepted -/
  | refused (n : Nat)
  /-- the replay fails too: the slice leaves service until UNIT_REPAIR -/
  | replayFails
  deriving DecidableEq, Repr

/-- A word whose ECC is checked (23 R483; 16 R343): where it lies, the pitch the access is made for (none: the scrub's own
access), and what the check finds. -/
structure EccWord where
  mem       : EccMem
  addr      : Nat
  owner     : Option PitchId
  /-- true: a corrected error; false: a clean word -/
  corrected : Bool
  /-- this word ends a whole pass over the memory -/
  endsPass  : Bool := false
  deriving DecidableEq, Repr

/-- The commands of the block, one per row of spec/opcode_table.json. -/
inductive Instr
  /-- POWER_ON_RESET (R50). PORST_N low resets the whole die; on its rise the ROM boot and the other start-up stages run. -/
  | powerOnReset (env : BootEnv)
  /-- WARM_RESET (R50). WRST_N held low for at least 1 µs, or the INVASIVE debug reset, resets the die except always-on SRAM and fuses. -/
  | warmReset (env : BootEnv) (lowNs : Nat)
  /-- CELL_RESET (R50). A cell leaving OFF is reset and restored from the retained store. -/
  | cellReset (cell : CellId) (bist : CellBist)
  /-- PWR_WARN (R48). PWR_WARN_N falls; the engine writes the partial hour to the lifetime log and completes any flash write in progress. -/
  | pwrWarn
  /-- RAIL_FAULT (R49). A rail leaves its range, PWRGOOD falls or the power-up order is broken; the engine is held in reset with FAULT_N asserted. -/
  | railFault (cause : RailCause) (rail : Fin 8)
  /-- TAP_RESET (R39). TRST_N resets the test access port alone. -/
  | tapReset
  /-- DROOP_STRETCH (R45). A tripped droop detector stretches the CCLK period for up to 64 cycles and increments DROOP_STRETCH. -/
  | droopStretch (detector : Fin 16) (millivolts : Nat)
  /-- MGMT_EPOCH (R44). The 20-bit CCLK counter wraps; MGMT_TICK increments and the epoch-driven management work runs. -/
  | mgmtEpoch (env : EpochEnv)
  /-- THERMAL_SAMPLE (R479). The power core samples every thermal sensor and droop detector once per 65,536 CCLK. -/
  | thermalSample (quarters : List Int) (droops : List Nat)
  /-- ENGINE_READY (R54). Boot completes; ENGINE_READY rises and the latched doorbells and queued commands are acted on. -/
  | engineReady
  /-- MIRROR_JOURNAL_FINISH (R446). After ENGINE_READY, the security core finishes the home-sector writes of a journal left in COMPLETE. -/
  | mirrorJournalFinish
  /-- HOST_LINK_RETRAIN (R35). A host port retrains, replays its CHP retry buffer and pauses descriptor copies on that port. -/
  | hostLinkRetrain (port : HostPort) (modules : BitVec 4) (rate : HostRate)
  /-- PPS_IN_EDGE (R292). A rising edge of PTP_PPS_IN is timestamped against the PTP time base. -/
  | ppsInEdge
  /-- PPS_OUT_PULSE (R292). PTP_PPS_OUT pulses at each whole second of the time base. -/
  | ppsOutPulse
  /-- PTP_MESSAGE (R292). A PTP frame to the engine's PTP address reaches the firmware servo. -/
  | ptpMessage (port : NetPort) (msg : PtpMsg)
  /-- FLIT_CRC_ERROR (R357). A CHP receiver finds an FCRC error or an FSEQ gap; it sends LINK with NAK and discards flits until the replay. -/
  | flitCrcError (port : HostPort) (flit : Bytes)
  /-- LINK_NAK (R357). A LINK message with NAK is received, and the sender replays from the flit after ACK_FSEQ. -/
  | linkNak (port : HostPort) (ackFseq : BitVec 10)
  /-- STEP_SET (R56). A STEP_SET write starts a step, is held until the step completes, or is discarded with a DROP_CAUSE. -/
  | stepSet (port : HostPort) (p : PitchId) (value : W64)
  /-- CURSOR_SET (R57). A CURSOR_SET write raises CURSOR, or is discarded, and makes due pegs eligible to fire. -/
  | cursorSet (port : HostPort) (p : PitchId) (value : W32)
  /-- LOSS_IN (R312). A LOSS_IN write supplies the step's loss value, or is discarded outside its window. -/
  | lossIn (port : HostPort) (p : PitchId) (value : W32)
  /-- DB_CTRL (R367). A DB_CTRL write moves the host's pointer of the command or response queue, or is discarded. -/
  | dbCtrl (port : HostPort) (p : PitchId) (value : W32)
  /-- DB_WORK (R367). A DB_WORK write moves a work queue's tail, or is discarded. -/
  | dbWork (port : HostPort) (p : PitchId) (value : W32)
  /-- DB_CPL (R367). A DB_CPL write moves a completion-set queue's head, which may release held completion entries. -/
  | dbCpl (port : HostPort) (p : PitchId) (value : W32)
  /-- REGISTER_WRITE (R359). A write to a register that has no row of its own, such as a W1C or RW field, is applied in entry order. -/
  | registerWrite (port : HostPort) (entries : List RegEntry)
  /-- MEM_WR (R362). A host MEM_WR message is checked by the Pitch Partition Controller and written or discarded. -/
  | memWr (port : HostPort) (addr : BitVec 64) (data : Bytes)
  /-- MEM_RD (R362). A host MEM_RD message is checked and answered with MEM_RD_RESP. -/
  | memRd (port : HostPort) (tag : W16) (addr : BitVec 64) (len : Nat)
  /-- DMA_RD_RESP (R356). Host data requested by the engine arrives for a payload fetch or a descriptor copy. -/
  | dmaRdResp (port : HostPort) (status : Nat) (tag : W16) (data : Bytes)
  /-- SYS_HELLO (R388). sys.hello agrees the ZIA version and features. -/
  | sysHello (p : PitchId)
  /-- SYS_CAPS (R397). sys.caps returns the capability record. -/
  | sysCaps (p : PitchId)
  /-- PITCH_BIND (R410). pitch.bind checks the binding record and moves the pitch from UNBOUND to BOUND. -/
  | pitchBind (p : PitchId)
  /-- PITCH_RELEASE (R390). pitch.release frees the pitch's slots and allotments, destroys its keys and makes it UNBOUND. -/
  | pitchRelease (p : PitchId)
  /-- PITCH_START (R391). pitch.start checks its causes and schedules RUNNING for the next plan-period boundary. -/
  | pitchStart (p : PitchId)
  /-- PITCH_RUNNING (R405). At the plan-period boundary a started pitch enters RUNNING with its Erg registers restored and its collective state cleared. -/
  | pitchRunning (p : PitchId)
  /-- PITCH_STOP (R392). pitch.stop enters STOPPING and cuts off the current step. -/
  | pitchStop (p : PitchId)
  /-- PITCH_DRAIN (R392). pitch.drain lets the current step complete and then stops the pitch. -/
  | pitchDrain (p : PitchId)
  /-- CFG_BASE_LOAD (R393). cfg.base.load checks the form of a base record and replaces the pending base. -/
  | cfgBaseLoad (p : PitchId)
  /-- CFG_OVERLAY_PUT (R413). cfg.overlay.put checks the form of an overlay and replaces or deletes a pending overlay slot. -/
  | cfgOverlayPut (p : PitchId)
  /-- CFG_OVERLAY_SELECT (R416). cfg.overlay.select sets the pending overlay selection. -/
  | cfgOverlaySelect (p : PitchId)
  /-- CFG_COMMIT (R417). cfg.commit validates the pending configuration, computes the camp plan, mirrors it to flash and makes it effective. -/
  | cfgCommit (p : PitchId)
  /-- CAMP_PLAN_EFFECT (R27). A committed plan takes effect for all resources at the next plan-period boundary. -/
  | campPlanEffect
  /-- PEG_LOAD (R61). peg.load checks and loads the peg table and the window budget table. -/
  | pegLoad (p : PitchId)
  /-- LAYERMAP_LOAD (R309). layermap.load checks and loads the layer map. -/
  | layermapLoad (p : PitchId)
  /-- GROUP_JOIN (R426). group.join forms a membership, or prepares a spare's takeover. -/
  | groupJoin (p : PitchId)
  /-- GROUP_LEAVE (R395). group.leave on rank N − 1 proposes a LEAVE at the next step boundary. -/
  | groupLeave (p : PitchId)
  /-- GROUP_SPARE (R426). group.spare registers the pitch as a spare of a group. -/
  | groupSpare (p : PitchId)
  /-- CHECKPOINT_MARK (R326). checkpoint.mark arms a checkpoint for the current step, or writes one at once at a step boundary. -/
  | checkpointMark (p : PitchId)
  /-- SNAPSHOT_EXPORT (R330). snapshot.export arms or performs an export to one destination record. -/
  | snapshotExport (p : PitchId)
  /-- LOCKSTEP_PAIR (R349). lockstep.pair sets or ends a lock-step pairing, effective at the next pitch.start. -/
  | lockstepPair (p : PitchId)
  /-- KEY_INSTALL (R288). key.install unwraps a group secret and makes it CURRENT or PENDING. -/
  | keyInstall (p : PitchId)
  /-- TELEMETRY_READ (R396). telemetry.read writes a snapshot of counters of one class. -/
  | telemetryRead (p : PitchId)
  /-- HEALTH_LOG_READ (R490). health.log.read returns raw lifetime-log records. -/
  | healthLogRead (p : PitchId)
  /-- FW_STAGE (R398). fw.stage writes an image chunk to the inactive bank and verifies the image on its last chunk. -/
  | fwStage (p : PitchId)
  /-- FW_ACTIVATE (R401). fw.activate is checked and schedules the handover at the next epoch boundary. -/
  | fwActivate (p : PitchId)
  /-- FW_HANDOVER (R401). At the epoch boundary the old image writes the bivouac record and the new image adopts it, or the old image resumes. -/
  | fwHandover (adopts : Bool) (knowsDebug : Bool)
  /-- DEBUG_UNLOCK (R468). debug.unlock checks a token and grants a debug level, relocks, or enters RMA. -/
  | debugUnlock (p : PitchId)
  /-- INGEST_DESCRIPTOR (R131). A bucket ingest descriptor is checked and its copy begins, or it is refused. -/
  | ingestDescriptor (p : PitchId) (queue : Nat)
  /-- DISPATCH_DESCRIPTOR (R238). An expert dispatch descriptor is checked, and its entries are counted per expert. -/
  | dispatchDescriptor (p : PitchId) (queue : Nat)
  /-- COMBINE_DESCRIPTOR (R243). An expert combine descriptor is checked, and the filled slots are returned to their sources. -/
  | combineDescriptor (p : PitchId) (queue : Nat)
  /-- ONE_SIDED_DESCRIPTOR (R244). A one-sided descriptor is checked and cut into frames. -/
  | oneSidedDescriptor (p : PitchId) (queue : Nat)
  /-- DELTA_ENCODE (R321). A delta descriptor with OP ENCODE encodes a range of image blocks. -/
  | deltaEncode (p : PitchId) (queue : Nat)
  /-- DELTA_EXPAND (R322). A delta descriptor with OP EXPAND expands a range of image blocks. -/
  | deltaExpand (p : PitchId) (queue : Nat)
  /-- RESERVED_KIND_DESCRIPTOR (R369). A work descriptor with a reserved KIND is refused with E_RESERVED. -/
  | reservedKindDescriptor (p : PitchId) (queue : Nat)
  /-- START_STATS (R64). A fired START_STATS peg makes its bucket eligible for phase S. -/
  | startStats (p : PitchId) (fuse : Bool)
  /-- OPEN_WINDOW (R71). A fired OPEN_WINDOW peg ends any open window and opens the next one. -/
  | openWindow (p : PitchId)
  /-- CLOSE_WINDOW (R71). A fired CLOSE_WINDOW peg ends the open window. -/
  | closeWindow (p : PitchId)
  /-- BARRIER (R65). A fired BARRIER peg sets BARRIER_WAIT and, with group scope, sends an arrival toward the parent. -/
  | barrier (p : PitchId)
  /-- CHECKPOINT (R60). A fired CHECKPOINT peg marks the step to take a checkpoint as it completes. -/
  | checkpoint (p : PitchId)
  /-- EXPORT_SNAPSHOT (R60). A fired EXPORT_SNAPSHOT peg marks the step to export a snapshot as it completes. -/
  | exportSnapshot (p : PitchId)
  /-- END_STEP (R66). A fired END_STEP peg ends any open window and sets STEP_STATE to DRAINING. -/
  | endStep (p : PitchId)
  /-- CURSOR_STALL (R77). 4,096 epochs without cursor movement send ntc.cursor.stall. -/
  | cursorStall (p : PitchId)
  /-- STATS_BLOCK (R134). Phase S forms v, the block exponent, the sums of squares, the histogram and the symbol counts for one block. -/
  | statsBlock (p : PitchId) (bucket block : Nat) (check : BlockCheck)
  /-- SELECTION_PASS (R159). A later selection pass rereads v and extends the Seif lists. -/
  | selectionPass (p : PitchId) (bucket : Nat)
  /-- AGREEMENT_RECORD_READY (R228). A member's own agreement record is ready; it is combined with its children's records and sent up. -/
  | agreementRecordReady (p : PitchId) (bucket : Nat) (round : Nat)
  /-- AGREE_UP (R228). An AGREE_UP fragment from a child is received and combined. -/
  | agreeUp (rx : Rx)
  /-- AGREE_DOWN (R229). An AGREE_DOWN fragment is received, forwarded to the children, and the agreed record is applied once complete. -/
  | agreeDown (rx : Rx)
  /-- QUANTISE_BLOCK (R137). Phase Q quantises a block onto the wire grid, writes the member residual and packs the stream. -/
  | quantiseBlock (p : PitchId) (bucket block : Nat) (check : BlockCheck)
  /-- PACKER_RESUME (R208). A Packer that waited for a free pack-ring slot resumes. -/
  | packerResume (p : PitchId)
  /-- FRAME_TRANSMIT (R73). A frame begins in an owned transmit slot with a sequence number, encryption and check bits. -/
  | frameTransmit (p : PitchId) (port : NetPort)
  /-- CONTRIB_STREAM (R231). A contribution frame is received and its streams are added at memory with the block counts raised. -/
  | contribStream (rx : Rx)
  /-- RETRY (R232). A RETRY frame makes the member repeat phases Q, P and X for the block. -/
  | retry (rx : Rx)
  /-- REQUANTISE_BLOCK (R142). Phase G requantises a complete block for broadcast, writes the owner residual and sends the broadcast. -/
  | requantiseBlock (p : PitchId) (bucket block : Nat)
  /-- BCAST_STREAM (R144). A broadcast frame is received and its streams are placed over v. -/
  | bcastStream (rx : Rx)
  /-- OUTPUT_BLOCK (R145). Phase O converts a placed block and writes it to the host. -/
  | outputBlock (p : PitchId) (bucket block : Nat) (check : BlockCheck)
  /-- NORM_LOCAL_SEND (R235). Once its CLIP buckets allow it, the member reads NORM_LOCAL and sends NORM_UP. -/
  | normLocalSend (p : PitchId)
  /-- NORM_UP (R235). Rank 0 adds a received NORM_UP into NORM_GLOBAL and, after N arrivals, sends NORM_DOWN. -/
  | normUp (rx : Rx)
  /-- NORM_DOWN (R236). A NORM_DOWN frame gives the member the exact squared norm, which is forwarded and handed to the Training Guard. -/
  | normDown (rx : Rx)
  /-- FACTOR_SUM (R233). A FACTOR_SUM frame delivers a LOWRANK factor block's exact sums. -/
  | factorSum (rx : Rx)
  /-- PROJECT_STAGE (R179). LOWRANK stage 1 forms P_loc = M·Q. -/
  | projectStage (p : PitchId) (bucket : Nat)
  /-- FACTOR_EXCHANGE_QUANTISE (R180). A factor block is quantised with the agreed exponent and sent to its owner. -/
  | factorExchangeQuantise (p : PitchId) (bucket block : Nat)
  /-- ORTHONORMALISE_STAGE (R181). LOWRANK stage 3 orthonormalises P by modified Gram-Schmidt. -/
  | orthonormaliseStage (p : PitchId) (bucket : Nat)
  /-- BACK_PROJECT_STAGE (R182). LOWRANK stage 4 forms Q_loc = Mᵀ·P. -/
  | backProjectStage (p : PitchId) (bucket : Nat)
  /-- RECONSTRUCT_STAGE (R183). LOWRANK stage 6 writes the output, the member residual and the next Q. -/
  | reconstructStage (p : PitchId) (bucket : Nat)
  /-- ARRAY_TILE (R113). A projection tile accumulates its products and spills them into Erg. -/
  | arrayTile (p : PitchId) (bucket : Nat) (check : TileCheck)
  /-- UNIT_REPAIR (R194). A unit that failed its replay is repaired by a spare row or column, a rotation or a withdrawal. -/
  | unitRepair (cluster : Fin 8) (slice : Fin 9) (namedPe : Bool)
  /-- ERG_SAVE (R125). A STOPPING pitch's Erg registers are saved, and the pitch becomes STOPPED. -/
  | ergSave (p : PitchId)
  /-- FUSED_UPDATE_BLOCK (R316). The owner applies the fused optimiser update to a block's weights. -/
  | fusedUpdateBlock (p : PitchId) (bucket block : Nat)
  /-- STEP_COMPLETE (R66). All completion conditions hold; the guard updates run, ntc.step.done is sent and STEP_STATE becomes IDLE. -/
  | stepComplete (p : PitchId)
  /-- CHECKPOINT_WRITE (R325). A checkpoint is written to the target slot in the order STATE 1, sections, full header. -/
  | checkpointWrite (p : PitchId)
  /-- SNAPSHOT_EXPORT_WRITE (R330). A delta image of the weights is written to a snapshot destination. -/
  | snapshotExportWrite (p : PitchId) (dest : Fin 8)
  /-- SCAN_UP (R239). A SCAN_UP count record from a child is received and added. -/
  | scanUp (rx : Rx)
  /-- SCAN_DOWN (R239). A SCAN_DOWN record delivers P(k) and T; slots are assigned and forwarded to the children. -/
  | scanDown (rx : Rx)
  /-- MOE_TOKEN (R241). A MOE_TOKEN frame is received and its token written to its slot. -/
  | moeToken (rx : Rx)
  /-- MOE_RETURN (R243). A MOE_RETURN frame is received and the result of entry (t, j) is written. -/
  | moeReturn (rx : Rx)
  /-- DISPATCH_COMPLETE (R242). A dispatch completes once T has arrived, its entries are acknowledged and its slots are written. -/
  | dispatchComplete (p : PitchId) (exch : W16)
  /-- ONE_SIDED_WRITE (R263). A one-sided WRITE frame places its data in the one-sided region. -/
  | oneSidedWrite (rx : Rx)
  /-- ONE_SIDED_ADD_FX32 (R260). A one-sided ADD_FX32 frame adds i32 elements at memory. -/
  | oneSidedAddFx32 (rx : Rx)
  /-- ONE_SIDED_ADD_FX64 (R260). A one-sided ADD_FX64 frame adds i64 elements at memory. -/
  | oneSidedAddFx64 (rx : Rx)
  /-- ONE_SIDED_ADD_ERG640 (R260). A one-sided ADD_ERG640 frame adds 80-byte operands into Erg registers. -/
  | oneSidedAddErg640 (rx : Rx)
  /-- READ_REQ (R262). A READ_REQ frame is answered with a READ_RESP carrying the target's data. -/
  | readReq (rx : Rx)
  /-- READ_RESP (R262). A READ_RESP frame places read data, or a CAS64 old value, at the requester. -/
  | readResp (rx : Rx)
  /-- CAS64 (R261). A CAS64 frame performs compare-and-swap at memory and returns the old value. -/
  | cas64 (rx : Rx)
  /-- LOCKSTEP_RECORD (R352). A partner's lock-step record is received and compared with the pitch's own record. -/
  | lockstepRecord (rx : Rx)
  /-- BARRIER_ARRIVAL (R247). A BARRIER frame with DIR 0 from a child is counted toward the barrier. -/
  | barrierArrival (rx : Rx)
  /-- BARRIER_RELEASE (R346). A BARRIER frame with DIR 1 delivers RELEASE_TIME and is forwarded down the tree. -/
  | barrierRelease (rx : Rx)
  /-- BARRIER_RELEASE_TIME (R346). The first CCLK edge at or after RELEASE_TIME releases the group barrier. -/
  | barrierReleaseTime (p : PitchId)
  /-- PACKAGE_BARRIER_RELEASE (R345). Every pitch of the set has reached a scope-0 barrier with the same mask; all are released. -/
  | packageBarrierRelease (set : BitVec 12)
  /-- ACK (R270). An ACK retires frames, detects losses, takes an RTT sample and updates the rate. -/
  | ack (rx : Rx)
  /-- NACK (R269). A NACK is handled according to its reason: resend, retire or fault. -/
  | nack (rx : Rx)
  /-- FENCE (R434). A received FENCE with a higher CUR_EPOCH makes the pitch send QUERY. -/
  | fence (rx : Rx)
  /-- ACK_TIMER (R268). 3,000 CCLK after the first unacknowledged acceptance, an ACK is sent. -/
  | ackTimer (p : PitchId) (rank : W16)
  /-- RTO_EXPIRY (R270). A frame's RTO expires; the frame is declared lost and retransmitted. -/
  | rtoExpiry (p : PitchId) (rank : W16) (seq : Nat)
  /-- NON_CXT_FRAME (R255). A frame that is not CXT, or that fails parsing, goes to the network exception queue. -/
  | nonCxtFrame (rx : Rx)
  /-- MAC_CONTROL_FRAME (R277). A received MAC control frame is discarded and counted. -/
  | macControlFrame (rx : Rx)
  /-- BEAT (R428). A received BEAT counts as liveness, or is dropped as mismatched or stale. -/
  | beat (rx : Rx)
  /-- PROPOSE (R430). A PROPOSE makes the keeper pend the proposal, or makes a member answer with VOTE. -/
  | propose (rx : Rx)
  /-- VOTE (R430). The keeper counts a VOTE and commits once it has enough votes. -/
  | vote (rx : Rx)
  /-- COMMIT (R431). A COMMIT changes the membership record and EPOCH and restarts the channels. -/
  | commit (rx : Rx)
  /-- JOIN (R433). A spare's or grower's JOIN makes the keeper propose TAKEOVER or GROW. -/
  | join (rx : Rx)
  /-- QUERY (R434). A QUERY is answered with a RECORD, with STALE set when the querier is dead. -/
  | query (rx : Rx)
  /-- RECORD (R434). A RECORD is applied when newer, or fences the pitch when STALE is set. -/
  | record (rx : Rx)
  /-- DEATH_RULE (R429). 128 epochs without a counted BEAT make the member propose that rank DEAD. -/
  | deathRule (p : PitchId) (rank : W16)
  /-- PROPOSAL_TIMEOUT (R430). A proposal not committed within 256 epochs is abandoned, and accepted votes are released. -/
  | proposalTimeout (p : PitchId)
  /-- FENCE_QUERY_TIMEOUT (R434). No RECORD within 64 epochs of the first FENCE makes the pitch enter FENCED. -/
  | fenceQueryTimeout (p : PitchId)
  /-- NETWORK_PORT_RETRAIN (R280). A port with a failed lane retrains with lane 8 in its place. -/
  | networkPortRetrain (port : NetPort) (lane : Fin 9) (transmit : Bool)
  /-- PORT_REMAP (R282). At the next plan-period boundary, the logical ports of a failed port move to EP16 or to another port. -/
  | portRemap (port : NetPort)
  /-- ACQUIRE (R455). A scheduler core's ACQUIRE takes the lease when HOLDER is none. -/
  | acquire (core : SchCore)
  /-- RENEW (R455). HOLDER renews the lease with the current term. -/
  | renew (core : SchCore) (term : W32)
  /-- LEASE_RELEASE (R455). HOLDER releases the lease. -/
  | leaseRelease (core : SchCore) (term : W32)
  /-- LEASE_EXPIRY (R455). At the fourth epoch without an accepted renewal, HOLDER becomes none. -/
  | leaseExpiry
  /-- SCHEDULE_WRITE (R456). A write to a schedule register is accepted only from HOLDER with the current term. -/
  | scheduleWrite (core : SchCore) (term : W32) (write : SchedWrite)
  /-- SCHEDULER_TAKEOVER (R457). A core that sees its peer's liveness word unchanged for 4 epochs takes over the peer's command rings. -/
  | schedulerTakeover (core : SchCore)
  /-- CORE_RESTART (R488). A halted cluster control or scheduler core is reloaded and restarted by the security core. -/
  | coreRestart (core : FwCore)
  /-- EXCEPTION_ENTRY_LOG (R443). Firmware reads a network exception entry and adds it to the hour's summary. -/
  | exceptionEntryLog (p : PitchId)
  /-- EXTEST (R465). The TAP EXTEST instruction drives boundary scan where the security state allows it. -/
  | extest
  /-- IDCODE (R39). The TAP IDCODE instruction returns 0x1321_6963. -/
  | idcode
  /-- SAMPLE_PRELOAD (R39). The TAP SAMPLE/PRELOAD instruction samples the boundary where allowed. -/
  | samplePreload
  /-- TRACE (R466). The TAP TRACE instruction reads the control-plane trace, masked at OBSERVE. -/
  | trace
  /-- TELEM (R466). The TAP TELEM instruction reads telemetry classes through the TAP. -/
  | telem (cls : Nat) (scope : Nat) (index : Nat) (first count : Nat)
  /-- HALT (R466). The TAP HALT instruction halts, steps or resumes CC and SCH cores at INVASIVE. -/
  | halt (core : FwCore) (action : HaltAction)
  /-- MEMRD (R466). The TAP MEMRD instruction reads engine memories at INVASIVE. -/
  | memrd (target : DebugMem) (addr len : Nat)
  /-- DBG_RESET (R466). The TAP DBG_RESET instruction causes a warm reset with RESET_CAUSE 0x3. -/
  | dbgReset (env : BootEnv)
  /-- DBG_LEVEL (R466). The TAP DBG_LEVEL instruction sets the debug level directly in OPEN and RMA. -/
  | dbgLevel (level : Fin 3)
  /-- PROV_WRITE (R465). The TAP PROV_WRITE instruction writes provisioning data in OPEN. -/
  | provWrite (item : ProvItem)
  /-- PROV_SEAL (R462). The TAP PROV_SEAL instruction blows the SEAL fuse when provisioning is complete. -/
  | provSeal
  /-- BYPASS (R466). BYPASS, or a refused or reserved instruction, passes TDI to TDO through one bit. -/
  | bypass (ir : Byte) (tdi : Bool)
  /-- DEBUG_TOKEN_EXPIRY (R469). A debug session's epoch count runs out; the level returns to NONE and the state to SEALED. -/
  | debugTokenExpiry
  /-- DEBUG_NONCE_EXPIRY (R397). DEBUG_NONCE becomes invalid after 1,024 management epochs. -/
  | debugNonceExpiry
  /-- D_LOW_EXIT (R475). After 16 epochs clear of the thermal condition, the engine returns to D-RUN. -/
  | dLowExit
  /-- D_RETAIN_ENTRY (R475). After 64 idle epochs with RETAIN_EN set, the engine enters D-RETAIN. -/
  | dRetainEntry
  /-- CCLK_DIVIDER_CHANGE (R475). A change of CCLK divider takes effect at a plan-period boundary and TSIG is recomputed. -/
  | cclkDividerChange
  /-- SPARE_ROTATION (R483). At its scheduled epoch, a cluster control core requests rotation of the spare slice. -/
  | spareRotation (cluster : Fin 8)
  /-- ROTATION_EFFECT (R20). The rotation takes effect at the next slice-slot boundary, and the freed slice begins its BIST. -/
  | rotationEffect (cluster : Fin 8)
  /-- ROTATION_BIST_COMPLETE (R483). The freed slice's test ends; the slice becomes the spare, is tested again, or is retired. -/
  | rotationBistComplete (cluster : Fin 8) (sandgrain : List W128) (logicPass : Bool)
  /-- SCRUB_PASS (R483). The memory subsystem reads and checks words in the engine slots and writes back corrected ones. -/
  | scrubPass (word : EccWord)
  /-- HBM_SEGMENT_REMAP (R485). An HBM segment's contents are copied to a spare segment, with writes applied to both copies. -/
  | hbmSegmentRemap (stack : Fin 6) (segment : Nat)
  /-- HBM_REMAP_EFFECT (R485). The remap takes effect at the plan-period boundary after the copy ends. -/
  | hbmRemapEffect (stack : Fin 6)
  /-- UNCORRECTABLE_ECC (R341). An uncorrectable error in a pitch's data raises ntc.bucket.fault, and the pitch enters FAULTED. -/
  | uncorrectableEcc (p : PitchId) (mem : EccMem) (addr : Nat)
  /-- HOUR_RECORD (R491). At the end of each powered hour, an HOUR summary record is appended to the lifetime log. -/
  | hourRecord
  /-- RESERVED_COMMAND (R383). A command whose OPCODE is a reserved encoding is refused with E_RESERVED, after the SEQ check, and still yields a response. -/
  | reservedCommand (p : PitchId)
  /-- RESERVED_OPCODE_FRAME (R259). An authenticated DATA frame with a reserved opcode is answered with NACK reason OPCODE, and a CONTROL frame with one is dropped and counted in MISDIRECTED. -/
  | reservedOpcodeFrame (rx : Rx)
  /-- RESERVED_TARGET_FRAME (R226). A frame whose target block field is a reserved collective target is refused with NACK reason TARGET, which faults the sender's pitch or fails its one-sided descriptor. -/
  | reservedTargetFrame (rx : Rx)
  /-- FCS_FAILED_FRAME (R284). A received frame that fails its Ethernet FCS, exceeds 4,376 bytes or fails its IP or UDP checksum is discarded and counted in FCS_DROPS, OVERSIZE_DROPS or CSUM_DROPS. -/
  | fcsFailedFrame (rx : Rx)
  /-- CORE_HALT (R442). An uncorrectable ECC error in a firmware core's private SRAM halts that core; a halted scheduler core then loses the lease and its peer takes its command rings. -/
  | coreHalt (core : FwCore) (word : Nat)
  /-- NETWORK_LINK_CHANGE (R281). A network port's link goes down or comes back up at either rate, which starts or ends the 16-epoch count after which the port has failed. -/
  | networkLinkChange (port : NetPort) (link : LinkRate)
  deriving DecidableEq, Repr

end Sys2Proof
end

