-- ==== Sys2Proof/Decode.lean ====
section
/-! DEFINITION. The block decodes no instruction words: spec/opcode_table.json gives bits for none of its 174 rows. -/

namespace Sys2Proof

/-- The command that a word spells by the table's bits: no row gives bits, so no word spells one. -/
def decodeTableWord (_nbits _w : Nat) : Option Instr := none

end Sys2Proof
end

