-- ==== Sys2Proof/Config.lean ====
section
/-! DEFINITION. What an implementation fixes and the spec leaves open: opaque constants with no body. Nothing in Lean can evaluate one, so every statement holds for every choice (notes/assumptions 3 to 9). -/

namespace Sys2Proof.Config

/-- FREE VALUE. DEBUG_NONCE drawn by the security core (18_mailbox.md R397); the argument is State.free. Safe. -/
opaque freeNonce : Nat → BitVec 128

/-- FREE VALUE. What byte a host read of the bucket staging area of a RUNNING or STOPPING pitch returns
(01_architecture.md R495: undefined to the host); draw number, address. Safe. -/
opaque freeStagingByte : Nat → Nat → BitVec 8

/-- FREE VALUE. What a staged value becomes when the host writes into the bucket staging area of a RUNNING or
STOPPING pitch (R495: changes unspecified bytes of the pitch's own data); draw number, bucket, element, old value. Safe. -/
opaque freeStagedValue : Nat → Nat → Nat → BitVec 32 → BitVec 32

/-- FREE VALUE. The P-384 scalar derived from HKDF output: 21_firmware.md R451 says a key pair is derived and not how. Safe. -/
opaque deriveScalar : List (BitVec 8) → Nat

/-- FREE VALUE. How much wall time the stretch of a tripped droop detector adds, in 2^-16 ns (02_ports_clocks_reset.md R45: up
to 1/2 of the period for at most 64 cycles; the model reduces it into that range); draw number. Safe. -/
opaque freeStretch : Nat → Nat

/-- FREE VALUE. The bytes a certificate issued by SEC holds (R451 gives no format); the argument is the Alias scalar. Safe. -/
opaque aliasCertificate : Nat → List (BitVec 8)

/-- FREE VALUE. The bytes of the engine's boundary-scan capture (02 R39; no register layout is given). Safe. -/
opaque boundaryCapture : Nat → List (BitVec 8)

/-- FREE VALUE. A word of a firmware core's private SRAM, of Flag RAM or of shared SRAM read by TAP MEMRD
(22 R466): the spec gives the firmware's data no layout. Draw number, memory, address. Safe. -/
opaque firmwareWord : Nat → Nat → Nat → BitVec 8

/-- FREE VALUE. AREA of an ntc.lockstep.mismatch for which the spec names no area: entries differ and no difference bytes are
exchanged or none of them differ (16_determinism.md R353); draw number. Safe. -/
opaque freeArea : Nat → BitVec 8

/-- FREE VALUE. Which READ_REQ of its descriptor a request is: R262 (11_transport.md) makes TGT_OFFSET of the READ_RESP the byte
offset within the descriptor, 4,088 times this number, and no field of the READ_REQ frame tells the responder; draw number. Safe. -/
opaque freeReadIndex : Nat → Nat

/-- FREE VALUE. A byte of an accumulation buffer after a step has been cut off (06_bucket_pipeline.md R148: undefined); draw
number, address. Safe. -/
opaque freeAccByte : Nat → Nat → BitVec 8

/-- FREE VALUE. The value of a TLV of the bivouac record: R452 (21_firmware.md) names its content and gives no layout; draw number,
place of the TLV in the record. Safe. -/
opaque freeBivouac : Nat → Nat → List (BitVec 8)

/-- FREE VALUE. What a correction of the servo adds to the PTP time base, in 2^-16 ns: R292 and R293 (12_link_crypto.md) give no
control law; draw number. Safe. -/
opaque freeServoStep : Nat → Int

/-- FREE VALUE. The bytes of the control-plane trace that TAP TRACE reads: R466 (22_security_debug_power.md) names the events
and gives no layout; draw number, and whether the trace is masked. Safe. -/
opaque freeTrace : Nat → Bool → List (BitVec 8)

/-- FREE VALUE. The registers of a firmware core that TAP HALT reads: R466 names no register set; draw number. Safe. -/
opaque freeCoreRegisters : Nat → List (BitVec 64)

/-- FREE VALUE. Bucket (low word) and block (high word) of an ntc.bucket.fault with cause SEQ_EXHAUSTED, ECC or REPAIR: R399
(18_mailbox.md) gives the notice both fields, and no rule says what these causes name; draw number. Safe. -/
opaque freeFaultPlace : Nat → BitVec 64

/-- FREE VALUE. The index health.log.read reports as the newest valid record of a log that holds none (23_health_repair.md R493);
draw number. Safe. -/
opaque freeNewestRecord : Nat → BitVec 64

end Sys2Proof.Config
end

