-- ==== Sys2Proof/Machine/Bits.lean ====
section
/-! DEFINITION. Byte orders, bit fields and sparse tables (00 R7 to R9). -/

namespace Sys2Proof.Machine

/-- The low n bytes of v, least significant first (R7). -/
def leBytes : Nat → Nat → Bytes
  | 0, _ => []
  | n + 1, v => BitVec.ofNat 8 v :: leBytes n (v / 256)

/-- The low n bytes of v, most significant first (R8). -/
def beBytes (n v : Nat) : Bytes := (leBytes n v).reverse

/-- The number a little-endian byte string spells. -/
def leNat : Bytes → Nat
  | [] => 0
  | b :: bs => b.toNat + 256 * leNat bs

/-- The number a big-endian byte string spells. -/
def beNat (bs : Bytes) : Nat := bs.foldl (fun a b => a * 256 + b.toNat) 0

/-- n bytes of a string from byte `off`; short where the string ends. -/
def cut {α : Type} (xs : List α) (off n : Nat) : List α := (xs.drop off).take n

/-- The little-endian field of n bytes at byte `off`. -/
def leAt (bs : Bytes) (off n : Nat) : Nat := leNat (cut bs off n)
/-- The big-endian field of n bytes at byte `off`. -/
def beAt (bs : Bytes) (off n : Nat) : Nat := beNat (cut bs off n)

/-- Bits [hi:lo] of a number (R7). -/
def bitsOf (v hi lo : Nat) : Nat := (v >>> lo) % 2 ^ (hi + 1 - lo)
/-- Bit k of a number. -/
def bitOf (v k : Nat) : Bool := v.testBit k

/-- A string padded with zero bytes to n bytes, or cut to n. -/
def padTo (n : Nat) (bs : Bytes) : Bytes := (bs ++ List.replicate (n - bs.length) 0).take n

/-- The smallest multiple of m that is at least n. -/
def roundUp (n m : Nat) : Nat := (n + m - 1) / m * m
/-- n / m rounded up. -/
def divUp (n m : Nat) : Nat := (n + m - 1) / m

/-- b as 0 or 1. -/
def bit (b : Bool) : Nat := if b then 1 else 0

/-! ## Sparse tables -/

/-- The entry of key k, if listed. -/
def sfind {α : Type} : Sparse α → Nat → Option α
  | [], _ => none
  | (j, x) :: m, k => if j = k then some x else sfind m k

/-- The entry of key k, or the default. -/
def sget {α : Type} (m : Sparse α) (k : Nat) (d : α) : α := (sfind m k).getD d

/-- The table without key k. -/
def sdel {α : Type} (m : Sparse α) (k : Nat) : Sparse α := m.filter (fun e => e.1 ≠ k)

/-- The table with key k set to x, keys rising. -/
def sput {α : Type} : Sparse α → Nat → α → Sparse α
  | [], k, x => [(k, x)]
  | (j, y) :: m, k, x => if k < j then (k, x) :: (j, y) :: m else if k = j then (k, x) :: m else (j, y) :: sput m k x

/-- The table with key k set to x, dropping the entry where x is the default d. -/
def sset {α : Type} [DecidableEq α] (m : Sparse α) (k : Nat) (x d : α) : Sparse α := if x = d then sdel m k else sput m k x

/-! ## Lists -/

/-- Replace the first element that satisfies p. -/
def replaceFirst {α : Type} (p : α → Bool) (f : α → α) : List α → List α
  | [] => []
  | x :: xs => if p x then f x :: xs else x :: replaceFirst p f xs

/-- Replace the first element that satisfies p, or add x at the end. -/
def upsert {α : Type} (p : α → Bool) (f : α → α) (x : α) : List α → List α
  | [] => [x]
  | y :: ys => if p y then f y :: ys else y :: upsert p f x ys

/-- Insert into a list sorted by `le`, after its equals. -/
def insertBy {α : Type} (le : α → α → Bool) (x : α) : List α → List α
  | [] => [x]
  | y :: ys => if le y x then y :: insertBy le x ys else x :: y :: ys

/-- Sort by insertion; stable. -/
def sortBy {α : Type} (le : α → α → Bool) (xs : List α) : List α := xs.foldl (fun acc x => insertBy le x acc) []

/-- Add x to a list that holds no repeats. -/
def addNew {α : Type} [DecidableEq α] (x : α) (xs : List α) : List α := if x ∈ xs then xs else xs ++ [x]

/-- The list with entry k replaced, if it has one. -/
def setAt {α : Type} (xs : List α) (k : Nat) (x : α) : List α := xs.set k x

/-- Split into pieces of n; `fuel` bounds their number. -/
def chunksGo {α : Type} : Nat → Nat → List α → List (List α)
  | 0, _, _ => []
  | f + 1, n, xs => if xs.isEmpty then [] else xs.take n :: chunksGo f n (xs.drop n)

/-- Split into pieces of n, the last perhaps shorter. -/
def chunks {α : Type} (n : Nat) (xs : List α) : List (List α) := chunksGo xs.length (max n 1) xs

/-- The largest of a list, or d. -/
def maxOf (xs : List Nat) (d : Nat := 0) : Nat := xs.foldl max d
/-- The sum of a list. -/
def sumOf (xs : List Nat) : Nat := xs.foldl (· + ·) 0

/-! ## Bit strings -/

/-- The bits of a byte string in R9's order: bit k mod 8 of byte k / 8. -/
def bitsOfBytes (bs : Bytes) : List Bool := bs.flatMap (fun b => (List.range 8).map (fun k => b.getLsbD k))

/-- The number whose bit j is the j-th bit of the list. -/
def natOfBits : List Bool → Nat
  | [] => 0
  | b :: bs => bit b + 2 * natOfBits bs

/-- w bits of v, bit 0 first. -/
def bitsOfNat : Nat → Nat → List Bool
  | 0, _ => []
  | w + 1, v => (v % 2 = 1) :: bitsOfNat w (v / 2)

/-- The bytes a bit stream fills from bit 0 of byte 0 upward; the last byte is filled with zeros (R9). -/
def bytesOfBits (bs : List Bool) : Bytes := (chunks 8 bs).map (fun c => BitVec.ofNat 8 (natOfBits c))

/-- The lowest set bit of a non-zero number: its index. `fuel` bounds the search. -/
def ctzGo : Nat → Nat → Nat
  | 0, _ => 0
  | f + 1, n => if n % 2 = 1 then 0 else 1 + ctzGo f (n / 2)

/-- Index of the lowest set bit; 0 for 0. -/
def ctz (n : Nat) : Nat := if n = 0 then 0 else ctzGo (n.log2 + 1) n

/-- Indices below n of the set bits of v. -/
def onesOf (n v : Nat) : List Nat := (List.range n).filter (fun k => v.testBit k)

/-- How many bits below n of v are set. -/
def popcount (n v : Nat) : Nat := (onesOf n v).length

/-- ⌊log2⌋ of n, with 0 for 0 and 1. -/
def ilog2 (n : Nat) : Nat := n.log2
/-- ⌈log2⌉ of n. -/
def clog2 (n : Nat) : Nat := if n ≤ 1 then 0 else (n - 1).log2 + 1

/-- floor of the square root: one bit of the answer per unit of fuel. -/
def isqrtGo : Nat → Nat → Nat → Nat
  | 0, _, r => r
  | f + 1, n, r => let r' := r + 2 ^ f; isqrtGo f n (if r' * r' ≤ n then r' else r)

/-- ⌊√n⌋. -/
def isqrt (n : Nat) : Nat := isqrtGo (n.log2 / 2 + 1) n 0

end Sys2Proof.Machine
end

