-- ==== Sys2Proof/Machine/Crc.lean ====
section
/-! DEFINITION. The check codes: CRC-32C (09 R210), CRC-32 of Ethernet frames (12 R284) and CRC-64 (16 R350). -/

namespace Sys2Proof.Machine

/-- n shifts of a reflected CRC register with polynomial p. -/
def crcShift (p : Nat) : Nat → Nat → Nat
  | 0, r => r
  | n + 1, r => crcShift p n (if r % 2 = 1 then (r / 2) ^^^ p else r / 2)

/-- A reflected 32-bit CRC: initial value and final XOR all ones. -/
def crc32With (p : Nat) (bs : Bytes) : Nat :=
  (bs.foldl (fun r b => crcShift p 8 (r ^^^ b.toNat)) 0xFFFFFFFF) ^^^ 0xFFFFFFFF

/-- CRC-32C (RFC 3720): reflected Castagnoli polynomial. -/
def crc32c (bs : Bytes) : Nat := crc32With 0x82F63B78 bs
/-- CRC-32 of IEEE 802.3, the Ethernet FCS. -/
def crc32 (bs : Bytes) : Nat := crc32With 0xEDB88320 bs

/-- CRC-64 with the ECMA-182 polynomial, reflected, initial value and final XOR all ones (16 R350). -/
def crc64 (bs : Bytes) : Nat :=
  (bs.foldl (fun r b => crcShift 0xC96C5795D7870F42 8 (r ^^^ b.toNat)) (2 ^ 64 - 1)) ^^^ (2 ^ 64 - 1)

end Sys2Proof.Machine
end

