-- ==== Sys2Proof/Machine/Num.lean ====
section
/-! DEFINITION. Number formats, rounding and FP32 arithmetic (04_number_formats.md), block-scaled quantisation and the
stored residual pairs (05 R122 to R124). Exact values are an integer magnitude, a sign and a power of two. -/

namespace Sys2Proof.Machine

/-! ## Exact values and flags -/

/-- The value of an element before rounding: NaN, an infinity, or (−1)^neg × mag × 2^exp exactly. -/
inductive Val
  | nan
  | inf (neg : Bool)
  | fin (neg : Bool) (mag : Nat) (exp : Int)
  deriving DecidableEq, Repr

/-- True for a finite value. -/
def Val.isFin : Val → Bool
  | .fin .. => true
  | _ => false

/-- NUM_FLAGS bits in their order (R97): NV 0, DZ 1, OF 2, UF 3, NX 4, CLAMP 5. -/
def fNV : BitVec 6 := 1
def fDZ : BitVec 6 := 2
def fOF : BitVec 6 := 4
def fUF : BitVec 6 := 8
def fNX : BitVec 6 := 16
def fCLAMP : BitVec 6 := 32

/-- The rounding modes of R92. -/
inductive Mode | rne | rtz | sr
  deriving DecidableEq, Repr

/-- The mode of a 2-bit field; 3 is reserved and refused before it gets here (R92). -/
def modeOf (n : Nat) : Mode := if n = 1 then .rtz else if n = 2 then .sr else .rne

/-- 2^k for k that may be negative: 0 below zero. -/
def pow2 (k : Int) : Nat := if 0 ≤ k then 2 ^ k.toNat else 0

/-- mag × 2^k where that is an integer; bits below are lost. -/
def shiftI (mag : Nat) (k : Int) : Nat := if 0 ≤ k then mag <<< k.toNat else mag >>> (-k).toNat

/-- The rounding function of R92 on an exact magnitude whose target unit lies `shift` bits up: the rounded count of units,
and whether it differs from the exact value. A negative shift means that the value is a whole number of units. -/
def roundMag (mode : Mode) (rnd : Nat) (mag : Nat) (shift : Int) : Nat × Bool :=
  if shift ≤ 0 then (mag <<< (-shift).toNat, false)
  else
    let sh := shift.toNat
    let n := mag >>> sh
    let t := if 16 ≤ sh then (mag >>> (sh - 16)) % 65536 else (mag <<< (16 - sh)) % 65536
    let stk := 16 < sh && mag % 2 ^ (sh - 16) ≠ 0
    let n' := match mode with
      | .rne => if t > 0x8000 || (t = 0x8000 && (stk || n % 2 = 1)) then n + 1 else n
      | .rtz => n
      | .sr => n + (t + rnd % 65536) / 65536
    (n', mag % 2 ^ sh ≠ 0 || n' ≠ n)

/-! ## Floating formats (R80, R81) -/

/-- A row of the floating layouts of R80. -/
structure FloatFmt where
  ebits : Nat
  mbits : Nat
  bias  : Int
  hasInf : Bool
  /-- encoding of the largest finite value, sign bit clear -/
  maxCode : Nat
  /-- canonical NaN, where the format has one -/
  nan   : Option Nat
  deriving DecidableEq, Repr

def fp32 : FloatFmt := ⟨8, 23, 127, true, 0x7F7FFFFF, some 0x7FC00000⟩
def bf16 : FloatFmt := ⟨8, 7, 127, true, 0x7F7F, some 0x7FC0⟩
def fp16 : FloatFmt := ⟨5, 10, 15, true, 0x7BFF, some 0x7E00⟩
def e5m2 : FloatFmt := ⟨5, 2, 15, true, 0x7B, some 0x7E⟩
def e4m3 : FloatFmt := ⟨4, 3, 7, false, 0x7E, some 0x7F⟩
def e3m2 : FloatFmt := ⟨3, 2, 3, false, 0x1F, none⟩
def e2m3 : FloatFmt := ⟨2, 3, 1, false, 0x1F, none⟩
def e2m1 : FloatFmt := ⟨2, 1, 1, false, 0x7, none⟩

/-- The floating layout of an FMT code, if it has one. -/
def floatOf : Nat → Option FloatFmt
  | 0 => some fp32 | 1 => some bf16 | 2 => some fp16 | 3 => some e5m2 | 4 => some e4m3
  | 5 => some e3m2 | 6 => some e2m3 | 7 => some e2m1 | _ => none

/-- The value of a code (R80). E4M3 has a NaN in place of its top code; the FP6 and FP4 formats have neither. -/
def FloatFmt.decode (f : FloatFmt) (code : Nat) : Val :=
  let neg := bitOf code (f.ebits + f.mbits)
  let e := bitsOf code (f.ebits + f.mbits - 1) f.mbits
  let m := code % 2 ^ f.mbits
  if f.hasInf && e + 1 = 2 ^ f.ebits then (if m = 0 then .inf neg else .nan)
  else if f.nan.isSome && e + 1 = 2 ^ f.ebits && m + 1 = 2 ^ f.mbits then .nan
  else if e = 0 then .fin neg m (1 - f.bias - f.mbits)
  else .fin neg (m + 2 ^ f.mbits) (e - f.bias - f.mbits)

/-- The sign bit of a code. -/
def FloatFmt.signed (f : FloatFmt) (neg : Bool) (code : Nat) : Nat := bit neg * 2 ^ (f.ebits + f.mbits) + code

/-- The unit of the target at the exact value's own binade, and clamped to the subnormal unit. -/
def FloatFmt.units (f : FloatFmt) (mag : Nat) (exp : Int) : Int × Int :=
  let u : Int := mag.log2 + exp - f.mbits
  (u, max u (1 - f.bias - f.mbits))

/-- Does n × 2^u exceed the largest finite value? -/
def FloatFmt.tooBig (f : FloatFmt) (n : Nat) (u : Int) : Bool :=
  match f.decode f.maxCode with
  | .fin _ m e => if u ≥ e then m < n <<< (u - e).toNat else m <<< (e - u).toNat < n
  | _ => false

/-- Round an exact finite value to a floating format: code, flags and whether the range was exceeded (R92, R94, R95, R97). -/
def FloatFmt.roundFin (f : FloatFmt) (mode : Mode) (rnd : Nat) (neg : Bool) (mag : Nat) (exp : Int) :
    Nat × BitVec 6 × Bool :=
  if mag = 0 then (f.signed neg 0, 0, false)
  else
    let (uFree, u) := f.units mag exp
    let (n, inexact) := roundMag mode rnd mag (u - exp)
    let (nf, _) := roundMag mode rnd mag (uFree - exp)
    if f.tooBig n u then
      let code := if f.hasInf && mode ≠ .rtz then f.maxCode + 1 else f.maxCode
      (f.signed neg code, fOF ||| fNX, true)
    else
      -- the encoding of n units whose binade is u + mbits; a carry is an ordinary increment
      let code := if n < 2 ^ f.mbits then n else ((u + f.mbits + f.bias - 1).toNat <<< f.mbits) + n
      -- tininess after rounding: the value rounded with unbounded exponent lies below the smallest normal
      let tiny := uFree + f.mbits < 1 - f.bias && !(nf = 2 ^ (f.mbits + 1) && uFree + f.mbits + 1 = 1 - f.bias)
      let fl := (if inexact then fNX else 0) ||| (if inexact && tiny then fUF else 0)
      (f.signed neg code, fl, false)

/-- The code of a non-finite source (R96). -/
def FloatFmt.special (f : FloatFmt) : Val → Nat
  | .nan => f.nan.getD 0
  | .inf neg => f.signed neg (if f.hasInf then f.maxCode + 1 else f.maxCode)
  | .fin .. => 0

/-- Unscaled conversion of a value to a floating format: code, flags, and whether the source was non-finite (R94, R96). -/
def FloatFmt.convert (f : FloatFmt) (mode : Mode) (rnd : Nat) (v : Val) : Nat × BitVec 6 × Bool :=
  match v with
  | .fin neg mag exp => let (c, fl, _) := f.roundFin mode rnd neg mag exp; (c, fl, false)
  | v => (f.special v, fNV, true)

/-- The value of FP32 bits. -/
def val32 (w : W32) : Val := fp32.decode w.toNat
/-- FP32 bits of an exact value, rounded to nearest even, with the flags. -/
def round32 (neg : Bool) (mag : Nat) (exp : Int) : W32 × BitVec 6 :=
  let (c, fl, _) := fp32.roundFin .rne 0 neg mag exp
  (BitVec.ofNat 32 c, fl)
/-- The canonical NaN of FP32 (R81). -/
def nan32 : W32 := 0x7FC00000
/-- An FP32 infinity. -/
def inf32 (neg : Bool) : W32 := if neg then 0xFF800000 else 0x7F800000
/-- FP32 is finite. -/
def finite32 (w : W32) : Bool := (val32 w).isFin

/-! ## Exact sums -/

/-- A finite value as a signed integer at weight 2^e, for e at most its exponent. -/
def Val.toIntAt (v : Val) (e : Int) : Int :=
  match v with
  | .fin neg mag exp => let n : Int := (mag <<< (exp - e).toNat : Nat); if neg then -n else n
  | _ => 0

/-- The exponent of a finite value; 0 otherwise. -/
def Val.expo : Val → Int
  | .fin _ _ e => e
  | _ => 0

/-- The sign of a value; NaN is positive. -/
def Val.neg : Val → Bool
  | .fin n _ _ => n
  | .inf n => n
  | .nan => false

/-- A value with its sign changed. -/
def Val.negate : Val → Val
  | .fin n m e => .fin (!n) m e
  | .inf n => .inf (!n)
  | .nan => .nan

/-- The exact sum of several values, by the IEEE 754-2019 rules for a sum (05 R124; 04 R95): any NaN gives NaN, opposite
infinities give NaN and NV, an infinity gives itself; a sum of opposites is +0, and −0 only where every term is −0. -/
def sumVals (vs : List Val) : Val × BitVec 6 :=
  if vs.any (· = .nan) then (.nan, 0)
  else if vs.any (· = .inf true) && vs.any (· = .inf false) then (.nan, fNV)
  else if vs.any (· = .inf true) then (.inf true, 0)
  else if vs.any (· = .inf false) then (.inf false, 0)
  else
    let e := vs.foldl (fun a v => min a v.expo) (vs.headD (.fin false 0 0)).expo
    let n : Int := vs.foldl (fun a v => a + v.toIntAt e) 0
    if n = 0 then (.fin (vs.all Val.neg && !vs.isEmpty) 0 0, 0) else (.fin (n < 0) n.natAbs e, 0)

/-- FP32 bits of a value, rounded to nearest even. -/
def to32 (v : Val) : W32 × BitVec 6 :=
  match v with
  | .nan => (nan32, 0)
  | .inf n => (inf32 n, 0)
  | .fin n m e => round32 n m e

/-- Exact product of two values (R102): NaN for 0 × ∞ with NV. -/
def mulVals (a b : Val) : Val × BitVec 6 :=
  match a, b with
  | .nan, _ | _, .nan => (.nan, 0)
  | .inf n, .fin m mag _ => if mag = 0 then (.nan, fNV) else (.inf (n != m), 0)
  | .fin n mag _, .inf m => if mag = 0 then (.nan, fNV) else (.inf (n != m), 0)
  | .inf n, .inf m => (.inf (n != m), 0)
  | .fin n ma ea, .fin m mb eb => (.fin (n != m) (ma * mb) (ea + eb), 0)

/-! ## FP32 arithmetic (R103), rounded to nearest even -/

/-- Sum. -/
def add32 (a b : W32) : W32 × BitVec 6 :=
  let (v, f) := sumVals [val32 a, val32 b]
  let (r, g) := to32 v
  (r, f ||| g)

/-- Negation of the sign bit. -/
def neg32 (a : W32) : W32 := if val32 a = .nan then nan32 else a ^^^ 0x80000000
/-- Difference. -/
def sub32 (a b : W32) : W32 × BitVec 6 := add32 a (neg32 b)

/-- Product. -/
def mul32 (a b : W32) : W32 × BitVec 6 :=
  let (v, f) := mulVals (val32 a) (val32 b)
  let (r, g) := to32 v
  (r, f ||| g)

/-- The quotient of two magnitudes to 80 bits or more below the point, with a sticky bit last. -/
def divMag (a b : Nat) : Nat × Int :=
  let k := 80 + b.log2
  let n := a <<< k
  (2 * (n / b) + bit (n % b ≠ 0), -(k : Int) - 1)

/-- Quotient. -/
def div32 (a b : W32) : W32 × BitVec 6 :=
  match val32 a, val32 b with
  | .nan, _ | _, .nan => (nan32, 0)
  | .inf _, .inf _ => (nan32, fNV)
  | .inf n, .fin m _ _ => (inf32 (n != m), 0)
  | .fin n _ _, .inf m => (if n != m then 0x80000000 else 0, 0)
  | .fin n ma ea, .fin m mb eb =>
    if mb = 0 then (if ma = 0 then (nan32, fNV) else (inf32 (n != m), fDZ))
    else
      let (q, e) := divMag ma mb
      round32 (n != m) q (ea - eb + e)

/-- A magnitude scaled to an even exponent with enough bits for a root of 40 bits or more. -/
def rootArg (mag : Nat) (exp : Int) : Nat × Int :=
  let e := exp - 120
  let n := mag <<< 120
  if e % 2 = 0 then (n, e) else (2 * n, e - 1)

/-- Square root. -/
def sqrt32 (a : W32) : W32 × BitVec 6 :=
  match val32 a with
  | .nan => (nan32, 0)
  | .inf true => (nan32, fNV)
  | .inf false => (inf32 false, 0)
  | .fin n mag exp =>
    if mag = 0 then (a, 0)
    else if n then (nan32, fNV)
    else
      let (m, e) := rootArg mag exp
      let r := isqrt m
      round32 false (2 * r + bit (r * r ≠ m)) (e / 2 - 1)

/-- Reciprocal square root of a positive finite value mag × 2^exp, with a sticky bit last. -/
def rsqrtMag (mag : Nat) (exp : Int) : Nat × Int :=
  -- 1 / sqrt(m 2^e), e even: sqrt(2^(2k) / m) 2^(-k - e/2)
  let (m, e) := if exp % 2 = 0 then (mag, exp) else (2 * mag, exp - 1)
  let k := m.log2 + 80
  let q := 2 ^ (2 * k) / m
  let r := isqrt q
  (2 * r + bit (r * r * m ≠ 2 ^ (2 * k)), -(k : Int) - e / 2 - 1)

/-- Correctly rounded reciprocal square root. -/
def rsqrt32 (a : W32) : W32 × BitVec 6 :=
  match val32 a with
  | .nan => (nan32, 0)
  | .inf true => (nan32, fNV)
  | .inf false => (0, 0)
  | .fin n mag exp =>
    if mag = 0 then (inf32 n, fDZ)
    else if n then (nan32, fNV)
    else let (m, e) := rsqrtMag mag exp; round32 false m e

/-- a < b on FP32; false where either is NaN. -/
def lt32 (a b : W32) : Bool :=
  match val32 a, val32 b with
  | .nan, _ | _, .nan => false
  | .inf n, .inf m => n && !m
  | .inf n, .fin .. => n
  | .fin .., .inf m => !m
  | x, y => let e := min x.expo y.expo; x.toIntAt e < y.toIntAt e

/-- a ≤ b on FP32; false where either is NaN. -/
def le32 (a b : W32) : Bool := val32 a ≠ .nan && val32 b ≠ .nan && !lt32 b a

/-! ## Format tables (R79, R83, R86, R90) -/

/-- A code of R79 that is not reserved. -/
def fmtKnown (f : Nat) : Bool := f ≤ 0x12
/-- Host input or output: FP32, BF16, FP16 alone, the others as MX blocks (R86, R91). -/
def fmtHost (f : Nat) (mx : Bool) : Bool := if mx then f ∈ [3, 4, 5, 6, 7, 0x0A] else f ≤ 2
/-- Wire format (R86). -/
def fmtWire (f : Nat) : Bool := f ∈ [3, 4, 5, 6, 7, 8, 9, 0x0A, 0x0B, 0x0C, 0x0D, 0x0E]
/-- Broadcast format (R86). -/
def fmtBcast (f : Nat) : Bool := f ∈ [3, 4, 8, 9, 0x0A, 0x0B]
/-- Projection operand (R86). -/
def fmtProj (f : Nat) : Bool := f ≤ 8 || f = 0x0A || f = 0x0B
/-- Element bits of a format as stored or carried; TERN is counted per group of five (R79). -/
def fmtBits : Nat → Nat
  | 0 => 32 | 1 => 16 | 2 => 16 | 3 => 8 | 4 => 8 | 5 => 6 | 6 => 6 | 7 => 4 | 8 => 16 | 9 => 12
  | 0x0A => 8 | 0x0B => 4 | 0x0C => 2 | 0x0E => 1 | 0x0F => 32 | 0x10 => 64 | 0x11 => 640 | 0x12 => 8 | _ => 0

/-- Width of an INTn format; 0 for the others. INT2 and TERN take the second scaling of R88. -/
def intBits : Nat → Nat
  | 8 => 16 | 9 => 12 | 0x0A => 8 | 0x0B => 4 | _ => 0

/-- The largest normal exponent emax of the narrow floating formats (R80). -/
def fmtEmax : Nat → Int
  | 3 => 15 | 4 => 8 | 5 => 4 | 6 => 2 | 7 => 2 | _ => 0

/-- The exponent of the grid unit above E (R90): the unit is 2^(E + gridOff W). -/
def gridOff : Nat → Int
  | 8 => -14 | 9 => -10 | 0x0A => -6 | 0x0B => -2 | 3 => -31 | 4 => -17 | 5 => -8 | 6 => -5 | 7 => -3 | _ => 0

/-- Largest magnitude of an integer or trit code (R83). -/
def intMax : Nat → Nat
  | 8 => 32767 | 9 => 2047 | 0x0A => 127 | 0x0B => 7 | _ => 1

/-- Sums of this wire format are FX64 (R90). -/
def sumWide (w : Nat) : Bool := w = 3 || w = 4

/-- Two's complement of n bits. -/
def toTwos (n : Nat) (q : Int) : Nat := (q % (2 ^ n : Nat)).toNat
/-- The number an n-bit two's-complement code stands for. -/
def ofTwos (n : Nat) (c : Nat) : Int := if 2 ^ (n - 1) ≤ c % 2 ^ n then (c % 2 ^ n : Nat) - (2 ^ n : Nat) else (c % 2 ^ n : Nat)

/-- The element code of an integer, trit or sign value q (R83). -/
def codeOfInt (w : Nat) (q : Int) : Nat :=
  if w = 0x0D then (q + 1).toNat else if w = 0x0E then bit (q < 0) else if w = 0x0C then toTwos 2 q else toTwos (intBits w) q

/-- What a code of a wire or broadcast format is worth, in grid units (R83, R90). NaN and infinity codes give 0. -/
def codeUnits (w code : Nat) : Int :=
  if w = 0x0D then (code : Int) - 1
  else if w = 0x0E then (if code % 2 = 1 then -1 else 1)
  else if w = 0x0C then ofTwos 2 code
  else if intBits w ≠ 0 then ofTwos (intBits w) code
  else match floatOf w with
    | some f => match f.decode code with
      | .fin neg mag exp => let n : Int := (mag <<< (exp - (gridOff w + fmtEmax w)).toNat : Nat); if neg then -n else n
      | _ => 0
    | none => 0

/-- The code of a zero element (R83 padding; value zero). SGN1 has no zero. -/
def codeZero (w : Nat) : Nat := if w = 0x0D then 1 else 0

/-! ## Block-scaled quantisation (R87 to R91, R96) -/

/-- ⌊log2 |v|⌋ of a finite non-zero FP32 value (R87). -/
def exponent32 (w : W32) : Option Int :=
  match val32 w with
  | .fin _ mag exp => if mag = 0 then none else some (mag.log2 + exp)
  | _ => none

/-- The block exponent of R87 and whether it was taken as −127 (SCALE_FLOOR). -/
def blockExponent (vs : List W32) : Int × Bool :=
  let es := vs.filterMap exponent32
  match es with
  | [] => (-127, true)
  | e :: rest => let m := rest.foldl max e; if m < -127 then (-127, true) else (m, false)

/-- The result of quantising one element. -/
structure Quant where
  code   : Nat
  flags  : BitVec 6
  clamped : Bool
  nonfin : Bool
  deriving DecidableEq, Repr

/-- Quantise a value onto the grid of format w at block exponent e (R88, R89, R96, R101). -/
def quantise (w : Nat) (e : Int) (mode : Mode) (rnd : Nat) (v : Val) : Quant :=
  match v with
  | .fin neg mag exp =>
    if w = 0x0E then
      let exact := mag ≠ 0 && mag.log2 + exp = e && mag = 2 ^ mag.log2
      ⟨bit neg, if exact then 0 else fNX, false, false⟩
    else if intBits w ≠ 0 || w = 0x0C || w = 0x0D then
      let (n, inexact) := roundMag mode rnd mag (e + gridOff w - exp)
      if intMax w < n then ⟨codeOfInt w (if neg then -(intMax w : Int) else intMax w), fNX ||| fCLAMP, true, false⟩
      else ⟨codeOfInt w (if neg then -(n : Int) else n), if inexact then fNX else 0, false, false⟩
    else match floatOf w with
      | some f =>
        let (c, fl, ovf) := f.roundFin mode rnd neg mag (exp + fmtEmax w - e)
        if ovf then ⟨f.signed neg f.maxCode, fNX ||| fCLAMP, true, false⟩
        else ⟨c, fl &&& fNX, false, false⟩
      | none => ⟨0, 0, false, false⟩
  | v =>
    if w = 0x0E then ⟨bit v.neg, fNV, false, true⟩
    else match floatOf w with
      | some f => ⟨f.special v, fNV, false, true⟩
      | none => ⟨codeZero w, fNV, false, true⟩

/-- dequant: the exact value a code stands for at block exponent e (R88). -/
def dequant (w : Nat) (e : Int) (code : Nat) : Val :=
  let n := codeUnits w code
  -- a floating −0 keeps its sign (R95); the other formats have a single zero
  let neg : Bool := match floatOf w with | some f => bitOf code (f.ebits + f.mbits) | none => n < 0
  .fin neg n.natAbs (e + gridOff w)

/-- The value a code stands for where the format has infinities and NaN (broadcast E5M2 and E4M3). -/
def dequantFull (w : Nat) (e : Int) (code : Nat) : Val :=
  match floatOf w with
  | some f => match f.decode code with
    | .fin neg mag exp => .fin neg mag (exp + e - fmtEmax w)
    | v => v
  | none => dequant w e code

/-! ## Residual pairs (05 R122 to R124) -/

/-- Bytes of a residual: formats 0 RES2x16, 1 RES32, 2 RES64. -/
def resSize (fmt : Nat) : Nat := if fmt = 2 then 8 else 4

/-- Store an exact residual (R123): the little-endian word and the flags of the two roundings. -/
def resEncode (fmt : Nat) (d : Val) : Nat × BitVec 6 :=
  let f := if fmt = 0 then bf16 else fp32
  match d with
  | .fin neg mag exp =>
    let (c, fl, ovf) := f.roundFin .rne 0 neg mag exp
    let hi := if ovf then f.signed neg f.maxCode else c
    if fmt = 1 then (hi, fl)
    else
      let (rest, _) := sumVals [d, (f.decode hi).negate]
      let (lo, fl2, _) := match rest with
        | .fin n m e => f.roundFin .rne 0 n m e
        | _ => (0, 0, false)
      (hi + lo * 2 ^ (if fmt = 0 then 16 else 32), fl ||| fl2)
  | v => (f.special v, 0)

/-- The halves of a stored residual as values. -/
def resDecode (fmt : Nat) (word : Nat) : List Val :=
  if fmt = 0 then [bf16.decode (word % 65536), bf16.decode (word / 65536 % 65536)]
  else if fmt = 1 then [fp32.decode (word % 2 ^ 32)]
  else [fp32.decode (word % 2 ^ 32), fp32.decode (word / 2 ^ 32 % 2 ^ 32)]

end Sys2Proof.Machine
end

