-- ==== Sys2Proof/Machine/Exact.lean ====
section
/-! DEFINITION. Exact accumulation: ERG640 values, block accumulators, conversion out of Erg, MAX with index and the row
side output (05_exact_arithmetic.md). -/

namespace Sys2Proof.Machine

/-- x × 2^l as an ERG640 word (R105, R107): the integer x × 2^(l + 320) modulo 2^640. -/
def ergOf (x l : Int) : W640 :=
  let k := l + 320
  BitVec.ofInt 640 (if 0 ≤ k then x * (2 ^ k.toNat : Nat) else x / (2 ^ (-k).toNat : Nat))

/-- A finite value as an ERG640 word; non-finite values count nothing. -/
def ergOfVal (v : Val) : W640 :=
  match v with
  | .fin neg mag exp => ergOf (if neg then -(mag : Int) else mag) exp
  | _ => 0

/-- Add modulo 2^640 (R106). -/
def ergAdd (a b : W640) : W640 := a + b

/-- The 80 bytes of a register (R105). -/
def ergBytes (x : W640) : Bytes := leBytes 80 x.toNat
/-- The register 80 bytes spell. -/
def ergOfBytes (bs : Bytes) : W640 := BitVec.ofNat 640 (leNat bs)

/-- The sign and magnitude of a register. -/
def ergMag (x : W640) : Bool × Nat := (x.toInt < 0, x.toInt.natAbs)

/-- The exact value of a register. -/
def ergVal (x : W640) : Val := .fin (ergMag x).1 (ergMag x).2 (-320)

/-- The attempts of R116 from shift 64 k on: m, k, flags of the final attempt. -/
def convertGo : Nat → Nat → W640 → W32 × Nat × BitVec 6
  | 0, k, _ => (0, k, 0)
  | fuel + 1, k, x =>
    let (neg, mag) := ergMag x
    let (c, fl, ovf) := fp32.roundFin .rne 0 neg mag (-320 - 64 * k)
    if ovf && fuel ≠ 0 then convertGo fuel (k + 1) x else (BitVec.ofNat 32 c, k, fl)

/-- CONVERT to FP32 (R116): m, the k of the shift 64 k (which is also the number of repeats), and the flags. -/
def ergConvert (x : W640) : W32 × Nat × BitVec 6 := convertGo 5 0 x

/-! ## Block accumulators (R111 to R115) -/

/-- An exact product: a signed integer times 2^exp. -/
structure Product where
  sig : Int
  exp : Int
  deriving DecidableEq, Repr

/-- The weight of the lowest set bit of a non-zero product. -/
def Product.low (p : Product) : Int := p.exp + ctz p.sig.natAbs

/-- A block accumulator at work: its value, overflow bit, the tail adds it has sent and their number. -/
structure Bacc where
  x    : BitVec 128 := 0
  ovf  : Bool := false
  tail : W640 := 0
  tails : Nat := 0
  deriving DecidableEq, Repr

/-- Add one product to a window at lsb, after an attempt at lsbPrev (R112, R114). -/
def Bacc.add (lsb lsbPrev : Int) (a : Bacc) (p : Product) : Bacc :=
  if p.sig = 0 || p.low < lsbPrev then a
  else if p.low < lsb then { a with tail := ergAdd a.tail (ergOf p.sig p.exp), tails := a.tails + 1 }
  else
    let q := if lsb ≤ p.exp then p.sig * (2 ^ (p.exp - lsb).toNat : Nat) else p.sig / (2 ^ (lsb - p.exp).toNat : Nat)
    let t := a.x.toInt + q
    let out := t < -(2 ^ 127 : Int) || (2 ^ 127 : Int) ≤ t || q < -(2 ^ 127 : Int) || (2 ^ 127 : Int) ≤ q
    { a with x := BitVec.ofInt 128 t, ovf := a.ovf || out }

/-- The lowest weight a product can have (R107): nothing is skipped on a first attempt. -/
def lsbFloor : Int := -320

/-- Sum the products of several accumulators of one tile (R113, R114). Every accumulator spills unless one overflowed; then
all values are discarded and the tile is repeated with its window 8 bits higher. Answers the sum that each accumulator's
register gains, the tail adds counted and the repeats. -/
def tileGo : Nat → Int → Int → List (List Product) → List W640 × Nat × Nat
  | 0, _, _, ps => (ps.map (fun _ => 0), 0, 0)
  | fuel + 1, lsb, prev, ps =>
    let accs := ps.map (fun l => l.foldl (Bacc.add lsb prev) {})
    let tails := sumOf (accs.map Bacc.tails)
    if accs.any Bacc.ovf then
      let (rest, t, r) := tileGo fuel (lsb + 8) lsb ps
      (List.zipWith (fun (a : Bacc) b => ergAdd a.tail b) accs rest, tails + t, r + 1)
    else (accs.map (fun a => ergAdd a.tail (ergOf a.x.toInt lsb)), tails, 0)

/-- A tile whose operands have the declared exponents eA and eB: L = eA + eB − 113 (R111). -/
def tileSum (eA eB : Int) (ps : List (List Product)) : List W640 × Nat × Nat :=
  tileGo 80 (eA + eB - 113) lsbFloor ps

/-- The exact product of two finite values. -/
def productOf (a b : Val) : Product :=
  match a, b with
  | .fin n ma ea, .fin m mb eb => ⟨(if n != m then -1 else 1) * ((ma * mb : Nat) : Int), ea + eb⟩
  | _, _ => ⟨0, 0⟩

/-- The exact sum of squares of the finite values of a block, with its tail adds (R115). -/
def squareSum (eb : Int) (vs : List W32) : W640 × Nat :=
  let ps := vs.map (fun w => productOf (val32 w) (val32 w))
  let (sums, tails, _) := tileSum eb eb [ps]
  (sums.headD 0, tails)

/-! ## MAX with index (R119, R120) -/

/-- |a| < |b| on magnitudes of finite values. -/
def magLt (a b : Val) : Bool :=
  match a, b with
  | .fin _ ma ea, .fin _ mb eb => let e := min ea eb; ma <<< (ea - e).toNat < mb <<< (eb - e).toNat
  | .fin .., .inf _ => true
  | _, _ => false

/-- Value order on non-NaN values; +0 and −0 are equal. -/
def valLt (a b : Val) : Bool :=
  match a, b with
  | .nan, _ | _, .nan => false
  | .inf n, .inf m => n && !m
  | .inf n, .fin .. => n
  | .fin .., .inf m => !m
  | x, y => let e := min x.expo y.expo; x.toIntAt e < y.toIntAt e

/-- A candidate of a MAX by value: value and index. -/
def maxVal (best : Option (Val × Nat)) (v : Val) (i : Nat) : Option (Val × Nat) :=
  if v = .nan then best
  else match best with
    | none => some (v, i)
    | some (b, j) =>
      if valLt b v then some (v, i)
      else if valLt v b then best
      else if magLt b v || (!magLt v b && i < j) then some (v, i) else best

/-- The row side-output record (R121): 16 bytes from the values written, in column order; and the flags and repeats of
the sum's conversion. -/
def rowRecord (codes : List W32) (vals : List Val) : Bytes × BitVec 6 × Nat :=
  let fin := (vals.zip codes).zipIdx.filter (fun e => e.1.1.isFin)
  let best := fin.foldl (fun b e => maxVal b e.1.1 e.2) none
  let sum := fin.foldl (fun a e => ergAdd a (ergOfVal e.1.1)) 0
  let (m, k, fl) := ergConvert sum
  let nonf := vals.any (fun v => !v.isFin)
  let (mx, col) := match best with
    | some (v, i) => ((to32 v).1.toNat, i)
    | none => (nan32.toNat, 0xFFFFFFFF)
  (leBytes 4 mx ++ leBytes 4 col ++ leBytes 4 m.toNat ++ leBytes 4 (k % 8 + 8 * bit nonf), fl, k)

end Sys2Proof.Machine
end

