-- ==== Sys2Proof/Machine/State.lean ====
section
/-! DEFINITION. The state of the engine: every register, queue, table, buffer, counter, mode and pin the spec gives it, as
plain data, and the queue of commands that wait. Section numbers are files of spec/. -/

namespace Sys2Proof.Machine

/-- Reasons a command could stop the block. The spec lets no command of the block stop it: every refused command,
descriptor, frame or access has an answer or is dropped and counted. -/
inductive Fault
  /-- raised by no command; stands for "the block stopped". Safe: no meaning answers it. -/
  | stopped
  deriving DecidableEq, Repr

/-- Reasons a command has no meaning. -/
inductive Refusal
  /-- raised by an arm of exec whose meaning is not written. Safe: nothing is claimed of it. -/
  | notModelled (mnemonic : String)
  deriving DecidableEq, Repr

/-! ## Counters -/

/-- The 64-bit counters kept per pitch, in the order of their tables (03 R78, 04 R99, 05 R127, 06 R151, 07 R173, 08 R195,
09 R219, 10 R250, 11 R276, 12 R294, 14 R317, 15 R331, 16 R337 and R355, 17 R377, 20 R440; V_SPILL 01 R21). -/
inductive PCtr
  | timeWriteDrops | winDefer | winOversize | winOverrun | winDrain | cursorStalls | bucketFuse
  | qclamp | scaleFloor | nonfiniteConv
  | ergTailAdds | baccRepeats | ergOutRetry | ergSaves
  | vSpill | ingestRefused | nonfiniteBuckets | fxRetry | bcastRaise | bcastNonfinite
  | selShort | selPasses | seifMerges | threshExcess
  | lrQinit | lrDegenerate | arrayCheckFail | residueFail | tileReplays
  | packFixed | packClass | packZero | packRingStalls | decoderMismatch | streamDamaged | streamResent | deltaDamaged
  | memberRetries | collStale | moeDrops | moeBadRoute | moeOverflow | onesidedRefused | onesidedCas
  | retransmits | rtoExpired | dupDrops | oowDrops | chWindowFull | rtStoreFull | rateHolds | rateCuts
  | nackSent | nackReceived | misdirected | lenDrops | excPackets | excOverflow | fencedDrops | epochAhead
  | crcDrops | authFail | keyAhead | keyOldDrops | keyRotations
  | stepsSkipped | lsHalvings | lsDoublings | lsFloor | nonfiniteElems | normSpikes | lossSpikes
  | lossInvalid | lossWriteDrops | updNonfinite
  | deltaCoded | deltaRaw | deltaZero | ckptMarks | ckptRestores | snapExports
  | ndcBits | ndcTime | tsigChanges | eccFixes | barLate | barUnlocked | lsWindows | lsMismatches | lsWaits | lsUnchecked
  | dbDrops | cqFullWaits
  | hbMismatch | proposals | proposalsAbandoned | proposalsRefused | memberDeaths | rollbacks
  deriving DecidableEq, Repr

/-- Per-pitch counters: one value per PCtr, sparse by its index. -/
abbrev Counters := Sparse W64

/-! ## Configuration data -/

/-- The states of PITCH_STATE.STATE, in code order (17 R363). -/
inductive PitchMode | unbound | bound | configured | running | stopping | stopped | fenced | faulted
  deriving DecidableEq, Repr

/-- STEP_STATE (03 R55). -/
inductive StepState | idle | active | draining
  deriving DecidableEq, Repr

/-- A peg entry (03 R60). -/
structure Peg where
  position : W32
  action   : Byte
  arg0     : W32
  deriving DecidableEq, Repr

/-- A layer record (14 R309). -/
structure LayerRec where
  first   : Nat
  count   : Nat
  rowLen  : Nat
  normReg : Nat
  norms   : BitVec 4
  deriving DecidableEq, Repr

/-- One base field whose value differs from its factory value (19 R412, R414): id, INDEX, value. -/
structure Setting where
  id  : Nat
  idx : Nat
  val : Nat
  deriving DecidableEq, Repr

/-- One TLV of a configuration record (19 R412). -/
structure Tlv where
  id    : Nat
  crit  : Bool
  index : Nat
  value : Bytes
  deriving DecidableEq, Repr

/-- A whole set of settings: base fields in ascending (id, INDEX), bucket records, queue records of queues 2 to 1,279. -/
structure CfgImage where
  base    : List Setting := []
  buckets : List (BitVec 1024) := []
  queues  : Sparse W64 := []
  deriving DecidableEq, Repr

/-- The binding record (19 R410). -/
structure Binding where
  ports      : BitVec 8 := 0
  stagingMib : Nat := 0
  stagingOff : Nat := 0
  regions    : List (Nat × Nat) := []
  deriving DecidableEq, Repr

/-- The lock-step pairing record (16 R349). -/
structure Pairing where
  partner   : Nat
  mode      : Nat
  hold      : Bool
  winBlocks : Nat
  offset    : Nat
  deriving DecidableEq, Repr

/-! ## Membership and keys -/

/-- The membership record (20 R424, R425). role: 0 none, 1 member, 2 spare. -/
structure MemberRec where
  group  : W16 := 0
  rank   : W16 := 0xFFFF
  n      : Nat := 0
  epoch  : W32 := 0
  keeper : Nat := 0
  role   : Nat := 0
  rsig   : W128 := 0
  word   : W64 := 0
  atStep : W64 := 0
  vacant : List Nat := []
  deriving DecidableEq, Repr

/-- A proposal pending at the keeper (20 R430). -/
structure Proposal where
  compare  : W64
  swap     : W64
  atOrCk   : W64
  spare    : Option Nat
  accepts  : List (Nat × W64)
  age      : Nat
  deriving DecidableEq, Repr

/-- A group secret (12 R287). -/
structure Secret where
  key : Bytes
  gen : Byte
  deriving DecidableEq, Repr

structure Keys where
  current      : Option Secret := none
  pending      : Option Secret := none
  previous     : Option Secret := none
  activateStep : W64 := 0
  deriving DecidableEq, Repr

/-- A change that this pitch wants for itself: its subject and action, and the WORD and the rank it was last proposed with and to
(20 R436, R439). -/
structure Wish where
  subject : Nat
  action  : Nat
  sent    : Option (W64 × Nat) := none
  deriving DecidableEq, Repr

/-- The membership state of a pitch (20 R424 to R436). -/
structure Membership where
  record     : MemberRec := {}
  /-- proposals pending at this pitch as keeper: one, and a DEAD proposal beside a TAKEOVER or LEAVE (20 R439) -/
  proposals  : List Proposal := []
  /-- the swap word this member accepted, and its age in epochs -/
  accepted   : Option (W64 × Nat) := none
  /-- epochs since the last counted BEAT, by rank of the watch set -/
  silent     : Sparse Nat := []
  /-- epochs since the first FENCE that made the pitch send QUERY, and its CUR_EPOCH -/
  queryAge   : Option (Nat × W32) := none
  /-- a spare that takes over, or a pitch that may grow the group, has still to send JOIN; the value is the N it asks for -/
  joinDue    : Option Nat := none
  /-- a spare between group.join and the TAKEOVER commit: the EPOCH its group.join named -/
  joining    : Option W32 := none
  /-- the LEAVE or DEAD this pitch asks for itself -/
  wish       : Option Wish := none
  /-- CCLK of the last FENCE of a higher EPOCH, and its CUR_EPOCH (19 R409) -/
  fenceAt    : Option (Nat × W32) := none
  /-- it has been FENCED or FAULTED and may join only through group.spare (19 R408) -/
  spareOnly  : Bool := false
  /-- CK_STEP of the rollback that the latest TAKEOVER commit carried -/
  rollStep   : W64 := 0
  deriving DecidableEq, Repr

/-! ## Transport -/

/-- The channel-table entry of one remote rank (11 R264). -/
structure Channel where
  nextSeq    : Nat := 0
  una        : Nat := 0
  ctrlCount  : Nat := 0
  srtt       : Nat := 0
  rttvar     : Nat := 0
  hasRtt     : Bool := false
  rate       : Nat := 100000
  tokens     : Nat := 16384
  tokenAt    : Nat := 0
  rateAt     : Nat := 0
  lossInInterval : Bool := false
  deathEpoch : W32 := 0
  fenceTick  : Option W64 := none
  rcvNext    : Nat := 0
  unacked    : Nat := 0
  ackTimer   : Option Nat := none
  /-- the last frame accepted or duplicated, its port and the CCLK of its arrival -/
  lastTrig   : Option (Nat × NetPort × Nat) := none
  lastDupAck : Option Nat := none
  /-- ring of per-epoch minima of the RTT, newest first, at most 64; none where an epoch had no sample -/
  baseRtt    : List (Option Nat) := []
  /-- path weights that differ from 8, and credits that differ from 0, by ENT -/
  weights    : Sparse Nat := []
  credits    : Sparse Int := []
  /-- paths whose weight fell in this epoch -/
  decreased  : List Nat := []
  /-- accepted sequence numbers at or above rcvNext -/
  accepted   : List Nat := []
  deriving DecidableEq, Repr

/-- What retiring or refusing a frame concerns beside the frame. -/
inductive TxUse
  | stream | message
  | oneSided (job : Nat)
  | token (exch : W16)
  /-- of the combine read from this queue at this head -/
  | moeReturn (exch : W16) (wq : Nat) (head : W16)
  | snapshot (dest : Nat)
  | lockstep
  deriving DecidableEq, Repr

/-- A full-size slot of the pack ring (09 R208): its offset in the ring, its size, and the bytes of the stream it holds. -/
structure RingSlot where
  off  : Nat
  size : Nat
  len  : Nat
  deriving DecidableEq, Repr

/-- A DATA frame that waits to be sent or is outstanding (11 R253, R264, R266; 03 R69). `windowed` false: sent ahead of
windowed frames (R67). The plan key is R69's. -/
structure TxFrame where
  dst      : Nat
  opcode   : Byte
  bucket   : W32 := 0
  block    : W32 := 0
  offset   : W64 := 0
  payload  : Bytes
  ackNow   : Bool
  windowed : Bool
  planSeq  : Nat := 0
  planPhase : Nat := 0
  planBlock : Nat := 0
  planIdx  : Nat := 0
  /-- the pack-ring payload it carries (0: none) and the slots its streams hold -/
  ringId   : Nat := 0
  ring     : List RingSlot := []
  use      : TxUse := .message
  /-- the window R70 assigned; none: not yet, some none: the drain window -/
  window   : Option (Option Nat) := none
  /-- it has been counted in CH_WINDOW_FULL, in RT_STORE_FULL -/
  waitedSeq  : Bool := false
  waitedRoom : Bool := false
  deriving DecidableEq, Repr

/-- The record of an outstanding frame (11 R264). -/
structure OutFrame where
  frame   : TxFrame
  seq     : Nat
  sent    : Nat
  txCount : Nat
  port    : NetPort
  entropy : Nat
  /-- PATH_ID of its first transmission -/
  pathId  : Nat
  /-- offset of its record in the retransmit store; a plaintext that is not in the pack ring follows the record -/
  place   : Nat := 0
  /-- declared lost or refused as damaged: it waits for its resend -/
  lost    : Bool := false
  /-- its resend answers a STREAM_DAMAGED NACK (counted in STREAM_RESENT) -/
  damaged : Bool := false
  damages : Nat := 0
  deriving DecidableEq, Repr

/-- Windows of one logical port (03 R70 to R72). -/
structure LpWin where
  w       : Nat := 0
  used    : Nat := 0
  overran : List Nat := []
  /-- the window of the frame begun last, and the CCLK after its end -/
  last    : Option (Nat × Nat) := none
  deriving DecidableEq, Repr

/-- A finished stream that waits for a pack-ring slot (09 R208): run, block of the run, kind, bytes. -/
structure PackItem where
  run    : Nat
  block  : Nat
  kind   : Nat
  bytes  : Bytes
  deriving DecidableEq, Repr

/-- Transport state of a pitch. -/
structure Transport where
  channels : List (Nat × Channel) := []
  txq      : List TxFrame := []
  out      : List OutFrame := []
  lps      : Vector LpWin 16 := Vector.replicate 16 {}
  /-- OPEN_WINDOW pegs fired in the step, and whether a window is open -/
  opened   : Nat := 0
  /-- physical port map PM[lp] (12 R282) -/
  portMap  : Vector NetPort 16 := Vector.ofFn (fun i => i.castSucc)
  /-- the logical port each physical port served last -/
  lastLp   : Sparse Nat := []
  /-- CCLK at which the pitch's frame on each port ends -/
  busy     : Sparse Nat := []
  packWait : List PackItem := []
  nextRing : Nat := 1
  deriving DecidableEq, Repr

/-! ## The bucket pipeline -/

/-- An accepted ingest range (06 R130). -/
structure IngestRange where
  mb       : Nat
  wq       : Nat
  wqHead   : W16
  cookie   : W64
  offset   : Nat
  count    : Nat
  hostFmt  : Nat
  mx       : Bool
  unscale  : Int
  hostAddr : W64
  outAddr  : W64
  sideAddr : W64
  scaleAddr : W64
  /-- bytes of the elements and of the shared scales that have arrived, by offset -/
  data     : Sparse Byte := []
  scales   : Sparse Byte := []
  got      : Nat := 0
  /-- its elements have been written or added -/
  applied  : Bool := false
  deriving DecidableEq, Repr

/-- Phase I of one bucket (06 R131 to R133). -/
structure Ingest where
  bucket   : Nat
  openMb   : Nat := 0
  /-- LAST of the open micro-batch; none before its first descriptor -/
  mbLast   : Option Bool := none
  /-- accepted ranges whose micro-batch has not completed, in the order accepted -/
  ranges   : List IngestRange := []
  /-- the accepted descriptors of the open micro-batch cover the bucket -/
  mbDone   : Bool := false
  /-- phase I is complete -/
  complete : Bool := false
  /-- output ranges of the LAST micro-batch -/
  outs     : List IngestRange := []
  /-- staged g of a bucket with one micro-batch; where `home` is set it lies in the spill region instead (01 R21) -/
  g        : Sparse W32 := []
  home     : Bool := false
  deriving DecidableEq, Repr

/-- A Seif candidate: FP32 magnitude bits and offset in the bucket (07 R157). -/
structure Cand where
  mag    : Nat
  offset : Nat
  deriving DecidableEq, Repr

/-- Selection of one row or block: its range of offsets and its merged list (07 R156 to R160). -/
structure SelRow where
  lo   : Nat
  hi   : Nat
  list : List Cand
  taken : List Cand := []
  deriving DecidableEq, Repr

/-- A placed broadcast (06 R144): SCALE and one code per element, or none for the non-finite broadcast. -/
structure Placed where
  scale : Nat
  codes : List Nat
  deriving DecidableEq, Repr

/-- The Packer's open payload toward one rank, or toward every rank for a broadcast (09 R209). -/
structure OpenPayload where
  bucket  : Nat
  dest    : Nat
  kind    : Nat
  first   : Nat
  bytes   : Bytes
  ring    : List RingSlot
  deriving DecidableEq, Repr

/-- The LOWRANK stages of a bucket (08 R176). Factors lie in the work region; the warm-start Q in the Q region. -/
structure LrRun where
  stage  : Nat := 1
  /-- stage 1 uses the initial Q of R178 -/
  initQ  : Bool := false
  /-- tiles of the stage done so far -/
  tiles  : Nat := 0
  nf     : Bool := false
  /-- agreed exponent codes of the factor in exchange -/
  agreed : Option (List Nat) := none
  quantNext : Nat := 0
  attempts : Sparse Nat := []
  retry  : List Nat := []
  /-- factor blocks whose sums have arrived, and whether one of them was not finite -/
  arrived : List Nat := []
  bad    : Bool := false
  deriving DecidableEq, Repr

/-- One bucket of the running step, from its START_STATS on (06 R134 to R147). `parts` lists the buckets fused into it. -/
structure BucketRun where
  bucket   : Nat
  parts    : List Nat
  seq      : Nat
  spilled  : Bool := false
  /-- its v and its placed broadcasts lie in the spill region, and `v` is empty (01 R21) -/
  home     : Bool := false
  statNext : Nat := 0
  statsDone : Bool := false
  v        : Sparse W32 := []
  /-- E8M0 codes of the blocks' own exponents, and the NF bit -/
  codes    : List Nat := []
  nf       : Bool := false
  hist     : Sparse Nat := []
  symCount : List Nat := List.replicate 17 0
  lens     : List Nat := List.replicate 17 0
  rows     : List SelRow := []
  pass     : Nat := 0
  passesDone : Bool := false
  threshBin : Option Nat := none
  threshAll : Bool := false
  pgu      : List Nat := []
  /-- agreed records that have been applied: part, its codes, its NF -/
  agreed   : List (Nat × List Nat × Bool) := []
  quantNext : Nat := 0
  attempts : Sparse Nat := []
  retry    : List Nat := []
  /-- streams of phase P in their final attempt, kept for lock-step FULL mode -/
  streams  : List (Nat × Bytes) := []
  payloads : List OpenPayload := []
  gDone    : List Nat := []
  /-- finished broadcast streams that wait for an earlier owned block: block, bytes, slot -/
  bstreams : List (Nat × Bytes × RingSlot) := []
  bnext    : Nat := 0
  placed   : List (Nat × Placed) := []
  outDone  : List Nat := []
  /-- run offset of the first row whose side output has not been written -/
  sideDone : Nat := 0
  updDone  : List Nat := []
  lr       : Option LrRun := none
  deriving DecidableEq, Repr

/-- A completion record (10 R230). -/
structure CRec where
  count   : Nat := 0
  qmax    : Nat := 0
  attempt : Nat := 0
  scale   : Nat := 0
  deriving DecidableEq, Repr

/-! ## Collectives -/

/-- Fragments of a record on their way in, from one rank, in one direction (10 R227, R228, R239). -/
structure Assembly where
  src    : Nat
  bucket : Nat
  down   : Bool
  frags  : List (Nat × Bytes)
  /-- fragments still to come of a record whose header showed a stale STEP_LO (10 R248) -/
  stale  : Nat := 0
  deriving DecidableEq, Repr

/-- One agreement of a bucket (10 R228). -/
structure Agree where
  bucket : Nat
  round  : Nat
  stepLo : W16
  own    : Option Bytes := none
  kids   : List (Nat × Bytes) := []
  sent   : Bool := false
  agreed : Option Bytes := none
  deriving DecidableEq, Repr

/-- One expert exchange (10 R238 to R243). -/
structure Exchange where
  exch     : W16
  stepLo   : W16
  /-- dispatch fields; none until the member's own dispatch is accepted -/
  wq       : Nat := 0
  wqHead   : W16 := 0
  cookie   : W64 := 0
  k        : Nat := 0
  hostFmt  : Nat := 0
  tokens   : Nat := 0
  elems    : Nat := 0
  stride   : Nat := 0
  seq      : Nat := 0
  recvAddr : W64 := 0
  retAddr  : W64 := 0
  routes   : List Nat := []
  tokenData : Bytes := []
  own      : Option (List Nat) := none
  kids     : List (Nat × List Nat) := []
  sentUp   : Bool := false
  below    : Option (List Nat) := none
  totals   : Option (List Nat) := none
  /-- entries kept; frames they are sent in, and those acknowledged -/
  kept     : Nat := 0
  frames   : Nat := 0
  acked    : Nat := 0
  /-- fragments of slots: local, slot, code offset, codes; and slots wholly written: local, slot, source, j, t -/
  slotFrags : List (Nat × Nat × Nat × Nat) := []
  slots    : List (Nat × Nat × Nat × Nat × Nat) := []
  complete : Bool := false
  /-- fragments of results: t, j, code offset, codes; and entries wholly returned -/
  retFrags : List (Nat × Nat × Nat × Nat) := []
  returned : List (Nat × Nat) := []
  /-- combines in progress: work queue, head, cookie, frames to be acknowledged -/
  combines : List (Nat × W16 × W64 × Nat) := []
  deriving DecidableEq, Repr

/-- A one-sided descriptor in flight (10 R244). -/
structure OsJob where
  id      : Nat
  wq      : Nat
  wqHead  : W16
  cookie  : W64
  op      : Nat
  len     : Nat
  localAddr : W64
  dst     : Nat
  /-- frames to be acknowledged, or responses to come -/
  left    : Nat
  /-- sequence numbers of requests sent whose responses have not come -/
  reqs    : List Nat := []
  deriving DecidableEq, Repr

/-- A group barrier as this member sees it (10 R247, 16 R346). -/
structure GroupBarrier where
  stepLo  : W16
  ordinal : Nat
  fired   : Bool := false
  kids    : List Nat := []
  sentUp  : Bool := false
  release : Option (Nat × Nat) := none
  deriving DecidableEq, Repr

/-- Lock-step state of a step (16 R350 to R354). -/
structure Lockstep where
  digests  : List (Nat × Nat × W64) := []
  /-- offset of the own pair area in the one-sided region, as the partner's records show it -/
  base     : Option Nat := none
  /-- own closed records: window, bytes -/
  own      : List (Nat × Bytes) := []
  closed   : Nat := 0
  sent     : Nat := 0
  partner  : List (Nat × Bytes) := []
  compared : Nat := 0
  held     : Bool := false
  /-- phase O waits for room for a record -/
  waiting  : Bool := false
  /-- outputs held under LS_HOLD: window, port, address, bytes -/
  outputs  : List (Nat × HostPort × W64 × Bytes) := []
  /-- the step's last window has closed -/
  lastClosed : Bool := false
  /-- items 2 and 3 of R350 for the blocks of windows not yet compared: bucket, block, output, stream, residual -/
  bytes    : List (Nat × Nat × Bytes × Bytes × Bytes) := []
  /-- a mismatch waiting for the partner's difference area: window, bucket, block -/
  diff     : Option (Nat × Nat × Nat) := none
  /-- bytes of the own difference area that have arrived, as (offset, length) -/
  diffGot  : List (Nat × Nat) := []
  mismatched : Bool := false
  deriving DecidableEq, Repr

/-! ## The Training Guard -/

/-- Guard state: registers of 14 R305, the record of R313, and what the step has formed. -/
structure Guard where
  lsExp     : Int := 16
  clean     : W32 := 0
  lastVerdict : Nat := 0
  lossSet   : Bool := false
  clipped   : Bool := false
  lossIn    : W32 := 0
  updLr     : W32 := 0
  updBc2    : W32 := 0x3F800000
  lrLatched : W32 := 0
  bc2Latched : W32 := 0x3F800000
  lastNorm  : W32 := 0
  normEma   : W32 := 0
  normCount : W32 := 0
  lossEma   : W32 := 0
  lossCount : W32 := 0
  /-- loss scale in force in the step -/
  lsStep    : Int := 16
  nonfinite : Bool := false
  /-- NORM_DOWN value of the step -/
  norm      : Option W640 := none
  cf        : W32 := 0x3F800000
  normSent  : Bool := false
  /-- a NORM_DOWN value of the next step, held until that step begins (10 R248) -/
  normAhead : Option W640 := none
  normArrivals : Nat := 0
  verdict   : Option Nat := none
  /-- non-finite v counted per layer in the step -/
  layerNf   : Sparse Nat := []
  updNotified : Bool := false
  deriving DecidableEq, Repr

/-! ## Mailbox and queues -/

/-- Head and tail of one queue (17 R366). -/
structure QPtr where
  head : W16 := 0
  tail : W16 := 0
  deriving DecidableEq, Repr

/-- A cached response (18 R384). -/
structure Cached where
  seq    : W32
  opcode : W16
  entry  : Bytes
  deriving DecidableEq, Repr

/-- Why a command that has been read still owes its response (18 R392, R394, R395, R401; 19 R405). -/
inductive CmdWait | stop | drain | leave | ckptNow | snapNow (dest : Nat) | fwActivate | start
  deriving DecidableEq, Repr

/-- A command whose response is owed. -/
structure Owed where
  why    : CmdWait
  opcode : W16
  tag    : W16
  seq    : W32
  /-- FLAGS its response carries: HANDOVER where it waited for one (18 R380) -/
  flags  : Nat := 0
  deriving DecidableEq, Repr

structure Mailbox where
  nextSeq  : W32 := 0
  cache    : List Cached := []
  zia      : W16 := 1
  features : W64 := 0
  admin    : Bool := false
  lost     : Bool := false
  noticeCount : W32 := 0
  noticeDrops : W32 := 0
  owed     : List Owed := []
  /-- responses that wait for room in the ring -/
  waiting  : List Bytes := []
  /-- (tail, port): the host port of the DB_CTRL write that moved the tail to that value -/
  cmdPorts : List (W16 × HostPort) := []
  /-- host bytes fetched for the command at the head, or the address of a refused fetch -/
  fetched  : Sparse Byte := []
  fetchAsked : Bool := false
  fetchFailed : Option W64 := none
  /-- TERM in force as the command at the head began to wait for its host bytes (18 R404; 21 R457) -/
  term     : Option W32 := none
  /-- entries before this tail waited for a firmware handover (18 R401) -/
  handover : Option W16 := none
  /-- rate limits (18 R399) -/
  repairTold : List Nat := []
  thermalTold : Bool := false
  fencedTold : Bool := false
  lengthTick : Option W64 := none
  authTick : Option W64 := none
  nonfTold : Bool := false
  lsTold   : Bool := false
  deriving DecidableEq, Repr

/-- A host read the engine has asked for (17 R356). -/
inductive DmaUse
  | command (p : PitchId)
  | ingest (p : PitchId) (bucket mb rangeOff : Nat) (scales : Bool)
  /-- under the key of the descriptor, or of the export (notes/assumptions 35) -/
  | descriptor (p : PitchId) (key : Nat)
  deriving DecidableEq, Repr

/-- The read belongs to an ingest range of pitch p. -/
def DmaUse.isIngest (p : PitchId) : DmaUse → Bool
  | .ingest q _ _ _ _ => q = p
  | _ => false

/-- The read belongs to pitch p. -/
def DmaUse.isOf (p : PitchId) : DmaUse → Bool
  | .command q => q = p
  | .ingest q _ _ _ _ => q = p
  | .descriptor q _ => q = p

structure DmaReq where
  port  : HostPort
  tag   : W16
  addr  : W64
  len   : Nat
  /-- offset of the piece within the data it belongs to -/
  off   : Nat
  use   : DmaUse
  deriving DecidableEq, Repr

/-- A work descriptor that has been read and checked and waits for host bytes (17 R368): the key of its host reads, its queue, the
head after it, and its 64 bytes. -/
structure DescJob where
  key    : Nat
  wq     : Nat
  wqHead : W16
  desc   : Bytes
  deriving DecidableEq, Repr

/-- Queue state of a pitch (17 R365 to R374). -/
structure Queues where
  ptrs     : Sparse QPtr := []
  lastWq   : Nat := 1025
  held     : List (Nat × Bytes) := []
  jobs     : List DescJob := []
  /-- host bytes fetched for descriptors and exports, by key and host address; and the keys whose reads were refused -/
  fetched  : List (Nat × Nat × Byte) := []
  fetchBad : List Nat := []
  dbCause  : Nat := 0
  dbQueue  : Nat := 0
  deriving DecidableEq, Repr

/-! ## A pitch -/

/-- Time registers and step control (03 R55 to R66, R77). -/
structure PTime where
  step      : W64 := 0
  cursor    : W32 := 0
  state     : StepState := .idle
  barrier   : Option Bool := none
  windowOpen : Bool := false
  held      : Option W64 := none
  dropCause : Nat := 0
  nextPeg   : Nat := 0
  stillEpochs : Nat := 0
  stallSent : Bool := false
  barriers  : Nat := 0
  ckptArmed : Bool := false
  ckptDone  : Bool := false
  /-- the slot of a checkpoint that is being written, with STATE 1 (15 R325) -/
  ckptSlot  : Option Nat := none
  exports   : List Nat := []
  exportsDone : List Nat := []
  exportsFailed : List Nat := []
  /-- NDC_BITS and NDC_TIME as the step began -/
  ndcBits0  : W64 := 0
  ndcTime0  : W64 := 0
  ndcBitsStep : W32 := 0
  ndcTimeStep : W32 := 0
  drainPending : Bool := false
  boundary  : Bool := false
  /-- a step was cut off and none has begun since: staging is undefined (06 R148) -/
  cut       : Bool := false
  deriving DecidableEq, Repr

structure Pitch where
  mode      : PitchMode := .unbound
  binding   : Binding := {}
  /-- pending configuration (18 R393) -/
  pendBase  : List Tlv := []
  pendOverlays : Sparse Bytes := []
  pendSel   : Nat := 0xFF
  /-- committed base and overlays, effective configuration (19 R416) -/
  committed : Bool := false
  base      : CfgImage := {}
  overlays  : Sparse Bytes := []
  sel       : Nat := 0xFF
  eff       : CfgImage := {}
  /-- own camp-plan slots, one mask per resource in capability-record order: committed, and in effect -/
  plan      : Vector W64 32 := Vector.replicate 32 0
  planEff   : Vector W64 32 := Vector.replicate 32 0
  pegs      : List Peg := []
  budgets   : List (List Nat) := []
  pegsLoaded : Bool := false
  layers    : List LayerRec := []
  layersLoaded : Bool := false
  pairing   : Option Pairing := none
  rsig      : W128 := 0
  tsig      : W128 := 0
  fwNum     : W16 := 0
  startPending : Bool := false
  /-- CCLK at which it last entered RUNNING, and FAULTED from a state that fencing could leave (19 R409) -/
  startedAt : Option Nat := none
  faultedAt : Option Nat := none
  time      : PTime := {}
  numFlags  : BitVec 6 := 0
  degraded  : Bool := false
  counters  : Counters := []
  member    : Membership := {}
  keys      : Keys := {}
  tx        : Transport := {}
  ingests   : List Ingest := []
  runs      : List BucketRun := []
  agrees    : List Agree := []
  assemblies : List Assembly := []
  exchanges : List Exchange := []
  osJobs    : List OsJob := []
  nextJob   : Nat := 0
  gbars     : List GroupBarrier := []
  lock      : Lockstep := {}
  guard     : Guard := {}
  mail      : Mailbox := {}
  queues    : Queues := {}
  qValid    : List Nat := []
  ergSaved  : Bool := false
  ckSeq     : Nat := 0
  deriving DecidableEq, Repr

/-- The retained image of a pitch (19 R421), as the state it restores. -/
structure Retained where
  binding   : Binding := {}
  base      : CfgImage := {}
  overlays  : Sparse Bytes := []
  sel       : Nat := 0xFF
  eff       : CfgImage := {}
  plan      : Vector W64 32 := Vector.replicate 32 0
  pegs      : List Peg := []
  budgets   : List (List Nat) := []
  pegsLoaded : Bool := false
  layers    : List LayerRec := []
  layersLoaded : Bool := false
  member    : MemberRec := {}
  spareOnly : Bool := false
  pairing   : Option Pairing := none
  rsig      : W128 := 0
  fwNum     : W16 := 0
  nextSeq   : W32 := 0
  cache     : List Cached := []
  zia       : W16 := 1
  features  : W64 := 0
  admin     : Bool := false
  lsExp     : Int := 16
  clean     : W32 := 0
  normEma   : W32 := 0
  normCount : W32 := 0
  lossEma   : W32 := 0
  lossCount : W32 := 0
  boundary  : Bool := false
  qValid    : List Nat := []
  ckSeq     : Nat := 0
  deriving DecidableEq, Repr

/-! ## The engine beside its pitches -/

/-- A message from the engine to a host (17 R356, R358). -/
inductive HostMsg
  | regAnswer (answers : List (BitVec 8 × W64))
  | memRdResp (status : Nat) (tag : W16) (data : Bytes)
  | dmaRd (len : Nat) (tag : W16) (addr : W64)
  | dmaWr (addr : W64) (data : Bytes)
  | release (p : PitchId) (group : Bool) (stepLo : W16) (ordinal : Nat)
  | event (p : PitchId) (queue : Nat) (tail : W16)
  | link (ackFseq : BitVec 10) (nak : Bool)
  | replayed (flit : Bytes)
  deriving DecidableEq, Repr

structure HostOut where
  port : HostPort
  msg  : HostMsg
  deriving DecidableEq, Repr

/-- A frame the engine has begun on a network port: port, CCLK of its first byte, its bytes with the FCS. -/
structure NetOut where
  port  : NetPort
  start : Nat
  bytes : Bytes
  deriving DecidableEq, Repr

/-- A host port (02 R33 to R35; 17 R357). -/
structure HostPortSt where
  modules   : BitVec 4 := 15
  /-- the data rate it runs at (02 R33) -/
  rate      : HostRate := .gt32
  txFseq    : BitVec 10 := 0
  rxLast    : BitVec 10 := 1023
  discarding : Bool := false
  /-- payload bytes of the data flit that is being filled, and of the message that is arriving (17 R356) -/
  txPart    : Bytes := []
  rxPart    : Bytes := []
  /-- the retry buffer: the last flits sent, oldest first, at most 512 -/
  retry     : List Bytes := []
  flitRetries : W64 := 0
  deriving DecidableEq, Repr

/-- A physical network port (12 R277 to R282, R294). -/
structure NetPortSt where
  link      : LinkRate := .r800
  inService : Bool := true
  failed    : Bool := false
  downEpochs : Nat := 0
  badFecEpochs : Nat := 0
  /-- failed lanes by direction (transmit true), and whether lane 8 stands in -/
  failedTx  : List (Fin 9) := []
  failedRx  : List (Fin 9) := []
  sparedTx  : Option (Fin 9) := none
  sparedRx  : Option (Fin 9) := none
  laneGroup : Option Bool := none
  /-- EP16 only: the port it stands in for -/
  standsFor : Option NetPort := none
  replaced  : Bool := false
  decodersBad : Nat := 0
  /-- FEC symbol errors of the last epoch, by 2 × lane, + 1 to transmit (12 R280) -/
  symbols   : Sparse Nat := []
  fcsDrops : W64 := 0
  oversizeDrops : W64 := 0
  macCtrlDrops : W64 := 0
  csumDrops : W64 := 0
  fecCorrected : W64 := 0
  fecUncorrected : W64 := 0
  laneSpares : W64 := 0
  portFallbacks : W64 := 0
  deriving DecidableEq, Repr

/-- The slices of one cluster (01 R18, R20; 23 R483). -/
structure Cluster where
  /-- physical slice of logical slice k; none when it has left the active set -/
  map      : List (Option Nat) := (List.range 8).map some
  spare    : Option Nat := some 8
  lastFreed : Option Nat := none
  /-- a rotation requested: the slice to be freed -/
  rotation : Option Nat := none
  /-- STEP and NEXT_PEG of every pitch as the rotation was requested (01 R20) -/
  pegsThen : List (W64 × Nat) := []
  /-- MGMT_TICK of the last rotation requested -/
  rotatedAt : Option W64 := none
  /-- the freed slice under test, and the tests it has failed -/
  testing  : Option (Nat × Nat) := none
  retired  : List Nat := []
  /-- units held out of work by a failed replay (08 R194) -/
  broken   : List Nat := []
  /-- array rows and columns used as repairs: slice, count -/
  peRepairs : Sparse Nat := []
  deriving DecidableEq, Repr

/-- Scheduler lease (21 R455). -/
structure Lease where
  term    : W32 := 0
  holder  : Option SchCore := none
  renewAge : Nat := 0
  frozen  : Bool := false
  deriving DecidableEq, Repr

/-- A firmware staging session (18 R398). -/
structure Staging where
  owner : PitchId
  next  : Nat
  deriving DecidableEq, Repr

/-- Flag RAM and shared SRAM by word number, as far as their words are known, and the stores to shared SRAM that only their own
core sees yet, oldest first: core, word, value (21 R458, R459). -/
structure SharedMem where
  flag   : Sparse W32 := []
  sram   : Sparse W32 := []
  stores : List (FwCore × Nat × W32) := []
  deriving DecidableEq, Repr

/-- The firmware complex (21 R441 to R457). -/
structure Firmware where
  /-- cores halted by an uncorrectable word of their SRAM, with its word address (R442) -/
  halted   : List (FwCore × Nat) := []
  tapHalted : List FwCore := []
  lease    : Lease := {}
  /-- epochs for which the liveness word of SCH-A, SCH-B stood unchanged, and moved -/
  stillA   : Nat := 0
  stillB   : Nat := 0
  movedA   : Nat := 4
  movedB   : Nat := 4
  /-- rings of the west half served by SCH-B, of the east half by SCH-A -/
  takenWest : Bool := false
  takenEast : Bool := false
  staging  : Option Staging := none
  /-- pitches whose staging session a fw.activate ended -/
  aborted  : List PitchId := []
  /-- fw.activate accepted on a pitch; the handover comes at the next epoch boundary -/
  activating : Option PitchId := none
  /-- the bivouac record in shared SRAM during a handover (R452) -/
  bivouac  : Bytes := []
  /-- HEARTBEAT messages that wait for the new image: pitch, sender, EPOCH, payload -/
  messages : List (PitchId × Nat × Nat × Bytes) := []
  /-- the running image: version, FW_NUM, highest ZIA, ROLLBACK, header bytes 0 to 271, and whether it came from bank B -/
  imageVersion : W32 := 0
  fwNum    : W16 := 0
  zia      : W16 := 1
  imageRollback : Nat := 0
  imageHeader : Bytes := []
  bootBankB : Bool := false
  /-- network exception entries written that firmware has still to read, by pitch (R443) -/
  excUnread : Sparse Nat := []
  /-- Flag RAM and shared SRAM (21 R442, R458, R459) -/
  shared   : SharedMem := {}
  /-- private SRAMs (21 R442): bytes known, by 2^32 × number of the memory + address; any other byte is not known -/
  memory   : Sparse Byte := []
  /-- pointers of the engine-internal queues that differ from 0, by global index 15,360 to 16,383 (01 R22) -/
  queues   : Sparse QPtr := []
  deriving DecidableEq, Repr

/-- STATE in the header of the mirror journal (21 R446). -/
inductive Journal | none | complete | done
  deriving DecidableEq, Repr

/-- A valid copy of the mirror directory (21 R446). -/
structure DirCopy where
  seq     : Nat
  activeB : Bool
  staged  : Bool
  deriving DecidableEq, Repr

/-- The boot flash beside the provisioning data (21 R444 to R447). A bank holds the bytes programmed from its start; the rest of
it is erased and reads 0xFF. -/
structure Flash where
  bankA    : Bytes := []
  bankB    : Bytes := []
  /-- the two copies of the mirror directory; none: not valid -/
  dirA     : Option DirCopy := none
  dirB     : Option DirCopy := none
  /-- ACTIVE_BANK (true: B) and STAGED_VERIFIED as SEC holds them -/
  activeB  : Bool := false
  stagedVerified : Bool := false
  /-- the mirror images that the home sectors hold (R444) -/
  mirror   : Vector (Option Retained) 12 := Vector.replicate 12 none
  /-- the mirror journal: STATE and the commit number of its header, and the images that its sectors hold -/
  journal  : Journal := .none
  commits  : Nat := 0
  journaled : Vector (Option Retained) 12 := Vector.replicate 12 none
  log      : List Bytes := []
  deriving DecidableEq, Repr

/-- Fuses (21 R447, R450, R451; 22 R461; 23 R487). -/
structure Fuses where
  gradeG2  : Bool := false
  active   : Nat := 64
  imageKey0 : Bytes := List.replicate 48 0
  imageKey1 : Bytes := List.replicate 48 0
  debugKey0 : Bytes := List.replicate 48 0
  debugKey1 : Bytes := List.replicate 48 0
  /-- blown revocation fuses: (debug key, slot) -/
  revoked  : List (Bool × Nat) := []
  rollback : Nat := 0
  sealFuse : Bool := false
  rma      : Bool := false
  udsLock  : Bool := false
  uds      : Bytes := List.replicate 48 0
  repairEntries : List (Nat × Nat × Nat) := []
  deriving DecidableEq, Repr

/-- Provisioning data (21 R444; 12 R280, R292; 18 R387; 22 R473, R475). -/
structure Prov where
  adminPorts : BitVec 8 := 0xFF
  lane8Wired : BitVec 17 := 0
  retainEn : Bool := false
  drowseEn : Bool := false
  macs     : Sparse (BitVec 48) := []
  ptpAddress : BitVec 128 := 0
  servoPort : NetPort := 0
  ptpDomain : Fin 128 := 0
  raw      : Sparse Byte := []
  crc      : W32 := 0
  complete : Bool := false
  deriving DecidableEq, Repr

/-- Security core (21 R451; 22 R461 to R470; 18 R397). -/
structure Security where
  /-- the SEAL fuse as sensed at the last reset -/
  sealed   : Bool := false
  rma      : Bool := false
  /-- epochs left of a debug session of FIELD_DEBUG -/
  session  : Option Nat := none
  level    : Nat := 0
  nonce    : Option W128 := none
  nonceAge : Nat := 0
  deviceKey : Nat := 0
  wrapKey  : Nat := 0
  aliasKey : Nat := 0
  cdi      : Bytes := []
  aliasCert : Bytes := []
  /-- from the response of an RMA unlock to the next reset (22 R464) -/
  rmaLocked : Bool := false
  deriving DecidableEq, Repr

/-- The four cell power states (22 R471). -/
inductive CellPower | run | idle | drowse | off
  deriving DecidableEq, Repr

/-- Power core (02 R43 to R49; 22 R471 to R476; 23 R479 to R481). -/
structure Power where
  /-- device power state: 0 D-RUN, 1 D-LOW, 2 D-RETAIN -/
  device   : Nat := 0
  divider  : Nat := 2
  /-- the divider the thermal response or its end has called for -/
  callLow  : Bool := false
  clearEpochs : Nat := 0
  idleEpochs : Nat := 0
  cells    : Vector CellPower 136 := Vector.replicate 136 .run
  vddCore  : Nat := 750
  thermal  : Nat := 0
  slackHot : Bool := false
  /-- quarter degrees: current, highest since reset, highest of the epoch (empty before its first sample) -/
  temps    : List Int := List.replicate 40 0
  tempsMax : List Int := List.replicate 40 0
  tempsEpoch : List Int := []
  /-- the sensors have been sampled since reset -/
  sampled  : Bool := false
  slack    : List Int := List.replicate 8 0
  slackMin : List Int := List.replicate 8 0
  droopMax : List Nat := List.replicate 16 0
  droopStretch : W64 := 0
  tjMax    : Nat := 0
  railCause : Option (RailCause × Fin 8) := none
  faultN   : Bool := false
  thermtrip : Bool := false
  ppsOut   : Nat := 0
  /-- PWR_WARN_N has fallen since the last reset -/
  warned   : Bool := false
  deriving DecidableEq, Repr

/-- A soft repair in force (23 R484, R487): resource, cell, unit, power-on second at which it was made. -/
structure Repair where
  resource : Nat
  cell     : Nat
  unit     : Nat
  since    : Nat
  deriving DecidableEq, Repr

/-- Sums of the current powered hour (23 R491 HOUR). -/
structure Hour where
  start    : Nat := 0
  hottest  : Int := 0
  sum      : Int := 0
  samples  : Nat := 0
  /-- time at WARM or above, and in D-LOW, in units of 2^-16 ns -/
  warmTime : Nat := 0
  lowTime  : Nat := 0
  stretches : Nat := 0
  corrected : Nat := 0
  uncorrectable : Nat := 0
  catches  : Nat := 0
  mismatches : Nat := 0
  repairs  : Nat := 0
  slackMin : Option Int := none
  droop    : Nat := 0
  fec      : Nat := 0
  exceptions : Nat := 0
  suppressed : Nat := 0
  deriving DecidableEq, Repr

/-- Health, repair and log state (23). -/
structure Health where
  repairs  : List Repair := []
  made     : List Nat := List.replicate 9 0
  spares   : List Nat := [8, 144, 144, 48, 17, 1, 368, 18, 0]
  eccHbm   : W64 := 0
  eccSram  : W64 := 0
  eccFw    : W64 := 0
  eccBad   : W64 := 0
  residues : W64 := 0
  checksums : W64 := 0
  lsMismatches : W64 := 0
  scrubs   : W64 := 0
  suppressed : W64 := 0
  /-- lifetime-log records written since reset (R489) -/
  logWritten : W64 := 0
  posSeconds : Nat := 0
  /-- the part of a second that POS has not counted yet, in units of 2^-16 ns -/
  posFrac  : Nat := 0
  bootCount : Nat := 0
  hour     : Hour := {}
  /-- HBM segments being copied and in force: stack, segment, spare -/
  copying  : List (Nat × Nat × Nat) := []
  remapped : List (Nat × Nat × Nat) := []
  /-- HBM words corrected once; and in the current powered hour, SRAM rows corrected once and corrected errors by HBM segment,
  numbered 192 × stack + segment -/
  corrected : List Nat := []
  rowErrors : List (EccMem × Nat) := []
  segErrors : Sparse Nat := []
  /-- HBM segments whose remap is due -/
  due      : List Nat := []
  /-- repairs made before ENGINE_READY that no pitch has been told of: cell, resource, action (02 R34) -/
  untold   : List (Nat × Nat × Nat) := []
  /-- staging banks withdrawn, by cell (01 R19) -/
  withdrawn : List Nat := []
  deriving DecidableEq, Repr

/-- The PTP time base and servo (12 R292, R293). -/
structure Ptp where
  /-- the time base at CCLK 0, in units of 2^-16 ns; the count of CCLK since adds to it -/
  base     : Int := 0
  locked   : Bool := false
  /-- the last Sync: t1 with its correction, and t2, the time base at its message timestamp point -/
  sync     : Option (Int × Int) := none
  /-- Delay_Req messages sent: port, and t3, the transmit timestamp they carry; the last one waits for its Delay_Resp -/
  requests : List (NetPort × Int) := []
  waits    : Bool := false
  /-- the mean path delay that the last Delay_Resp gave -/
  delay    : Int := 0
  /-- offset estimates of the last 16 Sync intervals, newest first, in units of 2^-16 ns -/
  offsets  : List Int := []
  servo    : NetPort := 0
  /-- the time base at the last rising edge of PTP_PPS_IN, in units of 2^-16 ns -/
  lastIn   : Int := 0
  unlocks  : W64 := 0
  deriving DecidableEq, Repr

/-- What the TAP last captured (02 R39; 22 R466). -/
inductive TapOut
  | bypass (bit : Bool)
  | idcode (id : W32)
  | boundary (bytes : Bytes)
  | values (vs : List W64)
  | bytes (bs : Bytes)
  | none
  deriving DecidableEq, Repr

structure Tap where
  ir      : Byte := 1
  out     : TapOut := .none
  /-- EXTEST or SAMPLE/PRELOAD holds the pins -/
  pins    : Bool := false
  deriving DecidableEq, Repr

/-- Registers of the global status page that stand alone, and engine-wide counters (17 R364, R377; 11 R276). -/
structure Global where
  engineReady : Bool := false
  resetCause  : Nat := 1
  bootStage   : Nat := 0
  bootError   : Nat := 0
  mgmtTick    : W64 := 0
  stagingMib  : Nat := 144
  rxNoPitch   : W64 := 0
  regDenied   : W64 := 0
  regWriteDrops : W64 := 0
  memDenied   : W64 := 0
  deriving DecidableEq, Repr

/-- A doorbell write latched before ENGINE_READY (02 R54): port, pitch, register offset, value. -/
structure Latched where
  port  : HostPort
  pitch : PitchId
  reg   : Nat
  value : W32
  deriving DecidableEq, Repr

/-- The state of the block. `mem` holds queue memory, staging and HBM by engine address; `erg` the 16,384 registers;
`free` is the model's own: it numbers the free values drawn so far. -/
structure State where
  pitches  : Vector Pitch 12
  retained : Vector (Option Retained) 12
  mem      : List Host.Cell
  erg      : Sparse W640
  hostPorts : Vector HostPortSt 8
  netPorts : Vector NetPortSt 17
  clusters : Vector Cluster 8
  hostOut  : List HostOut
  netOut   : List NetOut
  dma      : List DmaReq
  dmaTag   : W16
  latched  : List Latched
  glob     : Global
  fw       : Firmware
  flash    : Flash
  fuses    : Fuses
  prov     : Prov
  sec      : Security
  power    : Power
  health   : Health
  ptp      : Ptp
  tap      : Tap
  /-- CCLK since the last power-on or warm reset -/
  cclk     : Nat
  /-- CCLK stopped and the die held in reset (02 R41, R49) -/
  held     : Bool
  free     : Nat
  pending  : List Instr
  deriving DecidableEq, Repr

/-- A pitch as it is while UNBOUND with factory values (19 R422); PKG_BAR_MASK's factory value depends on the pitch and
is supplied by the configuration reader. -/
def Pitch.factory : Pitch := {}

/-- The machine right after reset: every register at its Restore value, no boot stage run, nothing bound. -/
def State.reset : State where
  pitches  := Vector.replicate 12 {}
  retained := Vector.replicate 12 none
  mem      := []
  erg      := []
  hostPorts := Vector.replicate 8 { modules := 0 }
  netPorts := Vector.replicate 17 { link := .down, inService := false }
  clusters := Vector.replicate 8 {}
  hostOut  := []
  netOut   := []
  dma      := []
  dmaTag   := 0
  latched  := []
  glob     := {}
  fw       := {}
  flash    := {}
  fuses    := {}
  prov     := {}
  sec      := {}
  power    := {}
  health   := {}
  ptp      := {}
  tap      := {}
  cclk     := 0
  held     := false
  free     := 0
  pending  := []

end Sys2Proof.Machine
end

