-- ==== Sys2Proof/Machine/Ops.lean ====
section
/-! DEFINITION. The named operations over the state: memory, pitches, counters, time, Erg registers and outputs. -/

namespace Sys2Proof.Machine

/-! ## Memory (17 R361): queue memory, staging and HBM by engine address; an unlisted byte reads 0x00 (notes/assumptions 10) -/

/-- What an address that nothing has written reads as. DESIGN CHOICE (notes/assumptions 10). -/
def memEmpty : Byte := 0

/-- Strictly rising keys, no entry equal to the empty byte. -/
def cellsOk : List Host.Cell → Bool
  | [] => true
  | [c] => c.2 ≠ memEmpty
  | c :: d :: r => c.2 ≠ memEmpty && c.1 < d.1 && cellsOk (d :: r)

/-- The canonical form of memory. -/
abbrev Memory.wf (m : List Host.Cell) : Prop := cellsOk m = true

/-- Read one byte. -/
def memGet : List Host.Cell → Nat → Byte
  | [], _ => memEmpty
  | c :: m, a => if c.1 = a then c.2 else memGet m a

/-- The cells of a run of bytes from address a, leaving out bytes equal to the empty byte. -/
def cellsOf : Nat → Bytes → List Host.Cell
  | _, [] => []
  | a, b :: bs => if b = memEmpty then cellsOf (a + 1) bs else (a, b) :: cellsOf (a + 1) bs

/-- Write a run of bytes from address a. -/
def memPut (m : List Host.Cell) (a : Nat) (bs : Bytes) : List Host.Cell :=
  m.filter (fun c => c.1 < a) ++ cellsOf a bs ++ m.filter (fun c => a + bs.length ≤ c.1)

/-- Empty a range of n bytes from address a. -/
def memErase (m : List Host.Cell) (a n : Nat) : List Host.Cell :=
  m.filter (fun c => c.1 < a) ++ m.filter (fun c => a + n ≤ c.1)

/-- Read n bytes from address a. -/
def memRange (m : List Host.Cell) (a n : Nat) : Bytes :=
  let part := m.filter (fun c => a ≤ c.1 && c.1 < a + n)
  (List.range n).map (fun i => memGet part (a + i))

/-- One byte of the engine's memory. -/
def State.byte (s : State) (a : Nat) : Byte := memGet s.mem a
/-- n bytes of the engine's memory. -/
def State.read (s : State) (a n : Nat) : Bytes := memRange s.mem a n
/-- A little-endian number of n bytes. -/
def State.readLe (s : State) (a n : Nat) : Nat := leNat (s.read a n)
/-- Write bytes. -/
def State.write (s : State) (a : Nat) (bs : Bytes) : State := { s with mem := memPut s.mem a bs }
/-- Write zeros over a range. -/
def State.erase (s : State) (a n : Nat) : State := { s with mem := memErase s.mem a n }
/-- Empty several ranges. -/
def State.eraseAll (s : State) (rs : List (Nat × Nat)) : State := rs.foldl (fun s r => s.erase r.1 r.2) s

/-- The start of HBM, of staging and of the queue memory of pitch p (17 R361). -/
def hbmBase : Nat := 0x001000000000
def hbmEnd : Nat := 0x005800000000
def hbmPitchEnd : Nat := 0x005380000000
def stagingBase : Nat := 0x000800000000
def queueBase (p : Nat) : Nat := 0x01000000 + 0x400000 * p
def queueSize : Nat := 0x400000
def mib : Nat := 1048576

/-! ## The layout of the boot flash (21 R444) -/

/-- A region of the boot flash. -/
inductive FlashRegion
  | bank (isB : Bool)
  | directory | mirror | log | prov | journal | reserved
  deriving DecidableEq, Repr

/-- Its first byte address and its size. -/
def FlashRegion.range : FlashRegion → Nat × Nat
  | .bank false => (0x00000000, 16 * mib)
  | .bank true => (0x01000000, 16 * mib)
  | .directory => (0x02000000, 0x10000)
  | .mirror => (0x02010000, 4128768)
  | .log => (0x02400000, 8 * mib)
  | .prov => (0x02C00000, mib)
  | .journal => (0x02D00000, 0x10000 + 4128768)
  | .reserved => (0x03100000, 15 * mib)
/-- Its size in bytes. -/
def FlashRegion.size (r : FlashRegion) : Nat := r.range.2

/-- What the flash controller lets SEC program (21 R445): never the active bank or the reserved region, provisioning data in OPEN
alone. -/
def State.flashAllows (s : State) : FlashRegion → Bool
  | .bank isB => s.flash.activeB != isB
  | .prov => !s.sec.rma && !s.sec.sealed
  | .reserved => false
  | .directory | .mirror | .log | .journal => true
/-- SEC has a region programmed: `f` is the flash as that leaves it; the controller refuses what R445 does not allow. -/
def State.program (s : State) (r : FlashRegion) (f : Flash) : State := if s.flashAllows r then { s with flash := f } else s

/-! ## Pitches -/

/-- Pitch p. -/
def State.pitch (s : State) (p : PitchId) : Pitch := s.pitches[p]
/-- Replace pitch p. -/
def State.setPitch (s : State) (p : PitchId) (x : Pitch) : State := { s with pitches := s.pitches.set p x }
/-- Change pitch p. -/
def State.modPitch (s : State) (p : PitchId) (f : Pitch → Pitch) : State := s.setPitch p (f (s.pitch p))

/-- All pitches in ascending order. -/
def allPitches : List PitchId := List.finRange 12
/-- Run an operation for every pitch in ascending order. -/
def State.forPitches (s : State) (f : PitchId → State → State) : State := allPitches.foldl (fun s p => f p s) s

/-! ## Counters (03 R78 and the other counter tables; 16 R342, R343) -/

/-- Counters whose increments NDC_TIME counts (16 R343). -/
def countsTime : PCtr → Bool
  | .tileReplays | .decoderMismatch | .streamDamaged | .streamResent | .collStale | .retransmits | .rtoExpired
  | .dupDrops | .oowDrops | .chWindowFull | .rtStoreFull | .rateHolds | .epochAhead | .crcDrops | .authFail | .keyAhead
  | .keyOldDrops | .eccFixes | .barLate | .barUnlocked | .lsWaits => true
  | _ => false

/-- Counters whose increments NDC_BITS counts (16 R342). -/
def countsBits : PCtr → Bool
  | .bucketFuse | .onesidedCas => true
  | _ => false

/-- The value of a counter. -/
def Pitch.counter (x : Pitch) (c : PCtr) : W64 := sget x.counters c.ctorIdx 0
/-- Add n to one counter alone. -/
def Pitch.addOne (x : Pitch) (c : PCtr) (n : Nat) : Pitch :=
  { x with counters := sset x.counters c.ctorIdx (x.counter c + BitVec.ofNat 64 n) 0 }
/-- Add n to a counter, and to NDC_TIME or NDC_BITS where it counts there. -/
def Pitch.count (x : Pitch) (c : PCtr) (n : Nat := 1) : Pitch :=
  if n = 0 then x
  else
    let y := x.addOne c n
    if countsTime c then y.addOne .ndcTime n else if countsBits c then y.addOne .ndcBits n else y

/-- Add n to a counter of pitch p. -/
def State.count (s : State) (p : PitchId) (c : PCtr) (n : Nat := 1) : State := s.modPitch p (fun x => x.count c n)

/-! ## Time (01 R23; 02 R43, R44; 12 R292) -/

/-- CCLK of a management epoch. -/
def epochLen : Nat := 1048576
/-- CCLK of a plan period. -/
def planLen : Nat := 4096
/-- CCLK of a camp-plan slot. -/
def slotLen : Nat := 64

/-- Move CCLK forward to c, never back. -/
def State.advanceTo (s : State) (c : Nat) : State := { s with cclk := max s.cclk c }

/-- The next plan-period boundary, now included (notes/assumptions 12). -/
def State.planBoundary (s : State) : Nat := roundUp s.cclk planLen
/-- The CCLK of the wrap that MGMT_TICK counts next. -/
def State.epochBoundary (s : State) : Nat := (s.glob.mgmtTick.toNat + 1) * epochLen

/-- VCO multiplier of the grade (02 R43). -/
def State.vco (s : State) : Nat := if s.fuses.gradeG2 then 27 else 30

/-- The PTP time base now, in units of 2^-16 ns: CCLK has a period of 10 × divider / multiplier ns (02 R43). -/
def State.ptpNow (s : State) : Int :=
  s.ptp.base + ((s.cclk * 655360 * s.power.divider / s.vco : Nat) : Int)

/-- The PTP time base in whole ns, rounded up. -/
def State.ptpNs (s : State) : Nat := ((s.ptpNow + 65535) / 65536).toNat

/-- The first CCLK whose edge lies at or after a time base value of t ns. -/
def State.cclkAt (s : State) (t : Nat) : Nat :=
  let need := (t : Int) * 65536 - s.ptp.base
  divUp (need.toNat * s.vco) (655360 * s.power.divider)

/-! ## Erg registers (05 R108, R109) -/

/-- Physical register g. -/
def State.ergGet (s : State) (g : Nat) : W640 := sget s.erg g 0
/-- Replace physical register g. -/
def State.ergSet (s : State) (g : Nat) (v : W640) : State := { s with erg := sset s.erg g v 0 }
/-- Add to physical register g (R106). -/
def State.ergAddTo (s : State) (g : Nat) (v : W640) : State := s.ergSet g (ergAdd (s.ergGet g) v)
/-- Set n registers from g on to 0. -/
def State.ergClear (s : State) (g n : Nat) : State := { s with erg := s.erg.filter (fun e => e.1 < g || g + n ≤ e.1) }

/-! ## Outputs and free values -/

/-- The 16-byte header of an engine-to-host message (17 R356): MTYPE, STATUS or pitch byte, LEN, TAG, address. -/
def msgHeader (mtype second len tag addr : Nat) : Bytes :=
  leBytes 1 mtype ++ leBytes 1 second ++ leBytes 2 len ++ leBytes 2 tag ++ [0, 0] ++ leBytes 8 addr

/-- The bytes of an engine-to-host message on the data sub-channel. -/
def HostMsg.bytes : HostMsg → Bytes
  | .memRdResp status tag data => msgHeader 3 status data.length tag.toNat 0 ++ data
  | .dmaRd len tag addr => msgHeader 4 0 len tag.toNat addr.toNat
  | .dmaWr addr data => msgHeader 6 0 data.length 0 addr.toNat ++ data
  | .release p group lo ord => leBytes 16 (7 + p.val * 256 + bit group * 4096 + lo.toNat * 2 ^ 32 + ord * 2 ^ 48)
  | .event p q tail => msgHeader 8 p.val q tail.toNat 0
  -- ACK_FSEQ and NAK follow the MTYPE byte (notes/assumptions 30)
  | .link ack nak => leBytes 16 (0x0F + ack.toNat * 256 + bit nak * 2 ^ 18)
  | .regAnswer as => as.flatMap (fun a => [0, a.1] ++ leBytes 6 0 ++ leBytes 8 a.2.toNat)
  | .replayed flit => flit

/-- A CHP flit (17 R356). -/
def flitBytes (fseq : BitVec 10) (ftype : Nat) (payload : Bytes) : Bytes :=
  let b := leBytes 2 (fseq.toNat + 1024 * ftype) ++ padTo 250 payload
  b ++ leBytes 4 (crc32c b)

/-- Flits leave with the next sequence numbers and enter the retry buffer of 512 (17 R357). -/
def HostPortSt.emit (hp : HostPortSt) (ftype : Nat) (payloads : List Bytes) : HostPortSt :=
  let fs := payloads.zipIdx.map (fun e => flitBytes (hp.txFseq + BitVec.ofNat 10 e.2) ftype e.1)
  let kept := hp.retry ++ fs
  { hp with txFseq := hp.txFseq + BitVec.ofNat 10 fs.length, retry := kept.drop (kept.length - 512) }

/-- A message joins what a port sends: a register answer in a flit of its own, another message in the stream of the data flits,
back to back with the one before it; every flit that it fills leaves (17 R356, R358). -/
def HostPortSt.send (hp : HostPortSt) (m : HostMsg) : HostPortSt :=
  match m with
  | .replayed _ => hp
  | .regAnswer _ => hp.emit 1 [m.bytes]
  | m =>
    let stream := hp.txPart ++ m.bytes
    let whole := stream.length / 250
    { hp.emit 0 ((chunks 250 stream).take whole) with txPart := stream.drop (250 * whole) }

/-- The data flit that is being filled is padded with MTYPE 0x00 and leaves (17 R356). -/
def HostPortSt.flush (hp : HostPortSt) : HostPortSt := if hp.txPart.isEmpty then hp else { hp.emit 0 [hp.txPart] with txPart := [] }

/-- A port with no working module is down (02 R34). -/
def State.hostUp (s : State) (h : HostPort) : Bool := s.hostPorts[h].modules ≠ 0

/-- A message leaves on a host port that is up. -/
def State.sendHost (s : State) (h : HostPort) (m : HostMsg) : State :=
  if !s.hostUp h then s
  else { s with hostOut := s.hostOut ++ [⟨h, m⟩], hostPorts := s.hostPorts.set h (s.hostPorts[h].send m) }

/-- A message of `n` bytes, or a register flit, arrives on a host port: in flits of its own (notes/assumptions 99). It has no
effect where the port is down, or discards flits until the replay (02 R34; 17 R357). -/
def State.hostIn (s : State) (h : HostPort) (n : Nat) (f : State → State) : State :=
  let hp := s.hostPorts[h]
  if !s.hostUp h || hp.discarding then s
  else f { s with hostPorts := s.hostPorts.set h { hp with rxLast := hp.rxLast + BitVec.ofNat 10 (divUp n 250) } }

/-- CCLK runs: the core PLL has locked in this boot, and the die is not held (02 R44, R49, R53). -/
def State.clockRuns (s : State) : Bool := !s.held && decide (4 ≤ s.glob.bootStage)

/-- One cycle with no command waiting: CCLK advances while it runs, and data flits that are being filled leave (notes/assumptions
2, 99). -/
def idleTick (s : State) : State :=
  if s.clockRuns then { s with cclk := s.cclk + 1, hostPorts := s.hostPorts.map HostPortSt.flush } else s

/-- The host ports bound to a pitch, ascending. -/
def Pitch.ports (x : Pitch) : List HostPort := (List.finRange 8).filter (fun h => x.binding.ports.getLsbD h)

/-- A message leaves on every port bound to a pitch, in ascending order. -/
def State.sendBound (s : State) (p : PitchId) (m : HostMsg) : State :=
  (s.pitch p).ports.foldl (fun s h => s.sendHost h m) s

/-- Draw the next free value's number. -/
def State.draw (s : State) : Nat × State := (s.free, { s with free := s.free + 1 })

/-- The outcome of a command that ends in a state. -/
abbrev Result := Host.Outcome State Fault Refusal

/-- A command acts only while the die is not held in reset (02 R41, R49). -/
def live (s : State) (f : State → State) : Result := .next (if s.held then s else f s)

/-! ## Active slices and cells (01 R18, R29) -/

/-- Slices of a cluster that do work. -/
def Cluster.active (c : Cluster) : Nat := (c.map.filter Option.isSome).length

/-- Active slice count A, at most what the fuses allow. -/
def State.activeSlices (s : State) : Nat := min s.fuses.active (sumOf (s.clusters.toList.map Cluster.active))

/-- Cell of physical slice t of cluster c. -/
def sliceCell (c t : Nat) : Nat := 9 * c + t

end Sys2Proof.Machine
end

