-- ==== Sys2Proof/Machine/Sandgrain.lean ====
section
/-! DEFINITION. Sandgrain, the counter-based generator (13_sandgrain.md). -/

namespace Sys2Proof.Machine

/-- Rotations A and B of R295, by round. -/
def sandA : List Nat := [13, 7, 21, 9, 17, 5, 25, 11, 19, 3, 15, 23]
def sandB : List Nat := [8, 24, 12, 16, 4, 20, 28, 6, 14, 10, 18, 26]

/-- One round i of R295 on (x0, x1, x2, x3). -/
def sandRound (k : List W32) (x : W32 × W32 × W32 × W32) (i : Nat) : W32 × W32 × W32 × W32 :=
  let (x0, x1, x2, x3) := x
  let x0 := x0 + x1
  let x3 := (x3 ^^^ x0).rotateLeft (sandA.getD i 0)
  let x2 := x2 + x3
  let x1 := (x1 ^^^ x2).rotateLeft (sandB.getD i 0)
  (x0 + k.getD (i % 4) 0 + BitVec.ofNat 32 ((i + 1) * 0x9e3779b9), x1, x2 + k.getD ((i + 2) % 4) 0, x3)

/-- The 128-bit output y0 + 2^32 y1 + 2^64 y2 + 2^96 y3 (R295). -/
def sandgrain (k c : List W32) : Nat :=
  let (x0, x1, x2, x3) := (List.range 12).foldl (sandRound k) (c.getD 0 0, c.getD 1 0, c.getD 2 0, c.getD 3 0)
  (x0 + k.getD 0 0).toNat + (x1 + k.getD 1 0).toNat * 2 ^ 32 + (x2 + k.getD 2 0).toNat * 2 ^ 64
    + (x3 + k.getD 3 0).toNat * 2 ^ 96

/-- The key words of a seed given as the little-endian number of its 16 bytes (R296). -/
def sandKey (seed : Nat) : List W32 := (List.range 4).map (fun j => BitVec.ofNat 32 (seed / 2 ^ (32 * j)))

/-- The purposes the engine draws with (R300). -/
def purposeQ : Nat := 1
def purposeOwner : Nat := 2
def purposeRandk : Nat := 3
def purposeUpdate : Nat := 4
def purposeInit : Nat := 0x20

/-- sandgrain16 of R298 with draw number 0 (R297, R299). -/
def sandgrain16 (seed gen purpose idx step rank : Nat) : Nat :=
  let c : List W32 := [BitVec.ofNat 32 (idx / 8), BitVec.ofNat 32 (idx / 2 ^ 35 % 65536), BitVec.ofNat 32 step,
    BitVec.ofNat 32 (rank % 65536 + purpose % 256 * 65536 + gen % 256 * 2 ^ 24)]
  sandgrain (sandKey seed) c / 2 ^ (16 * (idx % 8)) % 65536

/-- The key and counter of the example of 13, which slice tests run (R303). -/
def sandVectorOutput : Nat := sandgrain [1, 2, 3, 4] [5, 0, 7, 0x00010003]

end Sys2Proof.Machine
end

