-- ==== Sys2Proof/Machine/Select.lean ====
section
/-! DEFINITION. Selection: Seif lists, thresholds, random-k, candidate lists and index sections (07_selection.md). -/

namespace Sys2Proof.Machine

/-- The candidate's value is a NaN. -/
def Cand.isNaN (a : Cand) : Bool := 0x7F800000 < a.mag

/-- The order of R154: larger magnitude, then lower offset; a NaN never precedes another value (05 R119, R120). -/
def Cand.precedes (a b : Cand) : Bool :=
  if a.isNaN = b.isNaN then b.mag < a.mag || (a.mag = b.mag && a.offset < b.offset) else b.isNaN

/-- Insert into a list kept in precedence order. -/
def seifInsert (c : Cand) : List Cand → List Cand
  | [] => [c]
  | e :: es => if c.precedes e then c :: e :: es else e :: seifInsert c es

/-- Offer a candidate (R157): zeros are refused (R155), so are candidates that do not follow the bound. -/
def seifOffer (cap : Nat) (bound : Option Cand) (s : List Cand) (c : Cand) : List Cand :=
  if c.mag = 0 then s
  else if (match bound with | some b => !b.precedes c | none => false) then s
  else (seifInsert c s).take cap

/-- Merge list b into list a (R157). -/
def seifMerge (cap : Nat) (bound : Option Cand) (a b : List Cand) : List Cand := b.foldl (seifOffer cap bound) a

/-- The candidate of one element: |v| as FP32 bits [30:0]. -/
def candOf (offset : Nat) (w : W32) : Cand := ⟨w.toNat % 2 ^ 31, offset⟩

/-- Capacity of pass p (R157). -/
def seifCap (k p : Nat) : Nat := min 64 (k - 64 * p)
/-- Number of passes of SEL_K (R159). -/
def selPassesOf (k : Nat) : Nat := divUp k 64

/-- The bin of a non-zero finite value (R161). -/
def threshBinOf (w : W32) : Nat := bitsOf w.toNat 30 20

/-- The target count of THRESH (R162). -/
def threshTarget (elements density : Nat) : Nat := max 1 (elements * density / 65536)

/-- Scan the bins from `b` downward until the count reaches the target (R162, R163): the bin and the count at and above it. -/
def threshScan (hist : Sparse Nat) (target : Nat) : Nat → Nat → Option (Nat × Nat)
  | 0, acc => let a := acc + sget hist 0 0; if target ≤ a then some (0, a) else none
  | b + 1, acc => let a := acc + sget hist (b + 1) 0; if target ≤ a then some (b + 1, a) else threshScan hist target b a

/-- RANDK's test of one element (R164). -/
def randkSelected (seed gen density idx step rank : Nat) (shared : Bool) (w : W32) : Bool :=
  w.toNat % 2 ^ 31 ≠ 0 && sandgrain16 seed gen purposeRandk idx step (if shared then 0 else rank) < density

/-- The 8-byte candidate entries of R165. -/
def candBytes (cs : List Cand) : Bytes := cs.flatMap (fun c => leBytes 4 c.mag ++ leBytes 4 c.offset)

/-- Candidates from their entries. -/
def candsOf (bs : Bytes) : List Cand := (chunks 8 bs).map (fun c => ⟨leAt c 0 4 % 2 ^ 31, leAt c 4 4⟩)

/-- Add one entry to a combination: per offset the larger MAG (R166). -/
def pguAdd (s : List Cand) (c : Cand) : List Cand :=
  match s.find? (fun e => e.offset = c.offset) with
  | some e => if e.mag < c.mag then seifInsert c (s.filter (fun e => e.offset ≠ c.offset)) else s
  | none => seifInsert c s

/-- Combine two candidate lists (R166). Entries of magnitude 0 count as any other key. -/
def pguCombine (k : Nat) (a b : List Cand) : List Cand := (b.foldl pguAdd a).take k

/-! ## Index sections (R170) -/

/-- The LIST form: gaps of ascending offsets in a block of 2^lg elements. -/
def listSection (lg : Nat) : Int → List Nat → List Bool
  | _, [] => []
  | prev, o :: os =>
    let g := ((o : Int) - prev - 1).toNat
    (if g ≤ 14 then bitsOfNat 4 g else bitsOfNat 4 15 ++ bitsOfNat lg g) ++ listSection lg o os

/-- The MAP form. -/
def mapSection (block : Nat) (os : List Nat) : List Bool := (List.range block).map (fun i => i ∈ os)

/-- The index section and whether it is a MAP: LIST when its length is below BLOCK (R170). -/
def indexSection (block : Nat) (os : List Nat) : List Bool × Bool :=
  if os.isEmpty then ([], false)
  else
    let l := listSection (clog2 block) (-1) os
    if l.length < block then (l, false) else (mapSection block os, true)

/-- Read n gaps; answers the offsets and the bits left, or none where an offset passes BLOCK − 1 or bits run out. -/
def readList (block : Nat) : Nat → Int → List Bool → Option (List Nat × List Bool)
  | 0, _, bs => some ([], bs)
  | n + 1, prev, bs =>
    if bs.length < 4 then none
    else
      let g4 := natOfBits (bs.take 4)
      let lg := clog2 block
      let esc := g4 = 15
      if esc && bs.length < 4 + lg then none
      else
        let g := if esc then natOfBits (cut bs 4 lg) else g4
        let o := (prev + 1 + g).toNat
        if block ≤ o then none
        else match readList block n o (bs.drop (if esc then 4 + lg else 4)) with
          | some (os, rest) => some (o :: os, rest)
          | none => none

/-- Read an index section of n offsets. -/
def readIndex (block n : Nat) (isMap : Bool) (bs : List Bool) : Option (List Nat × List Bool) :=
  if n = 0 then some ([], bs)
  else if isMap then
    if bs.length < block then none
    else
      let os := (List.range block).filter (fun i => bs.getD i false)
      if os.length = n then some (os, bs.drop block) else none
  else readList block n (-1) bs

end Sys2Proof.Machine
end

