-- ==== Sys2Proof/Machine/Stream.lean ====
section
/-! DEFINITION. Block streams: the class code, gradient streams, delta blocks and the stream checks (09_packing_expander.md). -/

namespace Sys2Proof.Machine

/-! ## The class code (R201 to R204) -/

/-- Zigzag of an integer code (R201). -/
def zigzag (q : Int) : Nat := if 0 ≤ q then (2 * q).toNat else (-2 * q - 1).toNat
/-- Its inverse. -/
def unzigzag (u : Nat) : Int := if u % 2 = 0 then (u / 2 : Nat) else -((u / 2 : Nat) : Int) - 1
/-- Class of a zigzag value: 0, or its bit length. -/
def classOf (u : Nat) : Nat := if u = 0 then 0 else u.log2 + 1

/-- Highest class of a format (R201); none where CLASS does not apply. -/
def classMax : Nat → Option Nat
  | 0x0A => some 8 | 9 => some 12 | 8 => some 16 | _ => none

/-- Longest codeword of class k (R202). -/
def classLim (k : Nat) : Nat := if k = 0 then 12 else min 12 (21 - k)

/-- 2^(12 − len) summed over classes with a codeword (R202). -/
def kraft (lens : List Nat) : Nat := sumOf (lens.map (fun l => if l = 0 then 0 else 2 ^ (12 - l)))

/-- The smallest l ≥ 1 with (cnt + 1) 2^l ≥ tot. -/
def lengthFor (cnt tot : Nat) : Nat → Nat → Nat
  | 0, l => l
  | f + 1, l => if ((cnt + 1) <<< l) < tot then lengthFor cnt tot f (l + 1) else l

/-- The class to lengthen: present, below its limit, fewest counts, ties to the larger class. -/
def lengthenPick (cnt lens : List Nat) : Option Nat :=
  (List.range 17).foldl (fun b k =>
    let l := lens.getD k 0
    if l = 0 || classLim k ≤ l then b
    else match b with
      | none => some k
      | some j => if cnt.getD k 0 ≤ cnt.getD j 0 then some k else b) none

/-- Lengthen codewords until the Kraft sum fits. -/
def lengthenGo (cnt : List Nat) : Nat → List Nat → List Nat
  | 0, lens => lens
  | f + 1, lens =>
    if kraft lens ≤ 4096 then lens
    else match lengthenPick cnt lens with
      | some k => lengthenGo cnt f (lens.set k (lens.getD k 0 + 1))
      | none => lens

/-- build_lengths of R204. -/
def buildLengths (cnt : List Nat) (kmax : Nat) : List Nat :=
  let tot := sumOf ((List.range (kmax + 1)).map (fun k => cnt.getD k 0 + 1))
  let lens := (List.range 17).map (fun k => if kmax < k then 0 else min (lengthFor (cnt.getD k 0) tot 64 1) (classLim k))
  lengthenGo cnt 204 lens

/-- Class counts of a list of zigzag values. -/
def classCounts (us : List Nat) : List Nat :=
  us.foldl (fun c u => let k := classOf u; c.set k (c.getD k 0 + 1)) (List.replicate 17 0)

/-- A codeword: class, length, code. -/
structure CodeWord where
  cls  : Nat
  len  : Nat
  code : Nat
  deriving DecidableEq, Repr

/-- The canonical codewords (R203), in ascending (length, class). -/
def codewords (lens : List Nat) : List CodeWord :=
  let order := (List.range 13).flatMap (fun l => if l = 0 then [] else
    ((List.range 17).filter (fun k => lens.getD k 0 = l)).map (fun k => (l, k)))
  (order.foldl (fun (a : List CodeWord × Nat × Nat) lk =>
    let (out, code, prev) := a
    let c := code <<< (lk.1 - prev)
    (out ++ [⟨lk.2, lk.1, c⟩], c + 1, lk.1)) ([], 0, 0)).1

/-- The bits of a codeword, its most significant bit first (R203). -/
def CodeWord.bits (w : CodeWord) : List Bool := (bitsOfNat w.len w.code).reverse

/-- The element code of a zigzag value (R201). -/
def classBits (ws : List CodeWord) (u : Nat) : List Bool :=
  let k := classOf u
  match ws.find? (fun w => w.cls = k) with
  | some w => w.bits ++ bitsOfNat (k - 1) u
  | none => []

/-- Read one codeword: bits are gathered most significant first until one matches. -/
def readCodeword (ws : List CodeWord) : Nat → Nat → Nat → List Bool → Option (Nat × List Bool)
  | 0, _, _, _ => none
  | _, _, _, [] => none
  | f + 1, acc, n, b :: bs =>
    let acc := acc * 2 + bit b
    match ws.find? (fun w => w.len = n + 1 && w.code = acc) with
    | some w => some (w.cls, bs)
    | none => readCodeword ws f acc (n + 1) bs

/-- Read n element codes as zigzag values. -/
def readClasses (ws : List CodeWord) : Nat → List Bool → Option (List Nat × List Bool)
  | 0, bs => some ([], bs)
  | n + 1, bs =>
    match readCodeword ws 12 0 0 bs with
    | none => none
    | some (k, bs) =>
      if bs.length < k - 1 then none
      else
        let u := if k = 0 then 0 else 2 ^ (k - 1) + natOfBits (bs.take (k - 1))
        match readClasses ws n (bs.drop (k - 1)) with
        | some (us, rest) => some (u :: us, rest)
        | none => none

/-- The 16 bytes of a table section (R202). -/
def tableBytes (lens : List Nat) : Bytes :=
  leBytes 16 ((List.range 17).foldl (fun a k => a + lens.getD k 0 * 16 ^ k) 0)

/-- The lengths of a table section, where it is valid under R202. -/
def tableOf (kmax : Nat) (bs : Bytes) : Option (List Nat) :=
  let v := leNat bs
  let lens := (List.range 17).map (fun k => v / 16 ^ k % 16)
  if v < 2 ^ 68 && (List.range 17).all (fun k => lens.getD k 0 ≤ classLim k && (k ≤ kmax || lens.getD k 0 = 0))
    && kraft lens ≤ 4096 then some lens else none

/-! ## Fixed codes (R199) -/

/-- Group size and width in bits of a format's codes (R199). -/
def groupOf (fmt : Nat) : Nat × Nat := if fmt = 9 then (2, 24) else if fmt = 0x0D then (5, 8) else (1, fmtBits fmt)

/-- The bits of one group of codes, padded with the padding code (R83). -/
def groupBits (fmt : Nat) (cs : List Nat) : List Bool :=
  if fmt = 9 then bitsOfNat 12 (cs.getD 0 0) ++ bitsOfNat 12 (cs.getD 1 0)
  else if fmt = 0x0D then bitsOfNat 8 ((List.range 5).foldl (fun a j => a + cs.getD j 1 * 3 ^ j) 0)
  else bitsOfNat (fmtBits fmt) (cs.getD 0 0)

/-- The FIXED bits of a list of codes. -/
def fixedBits (fmt : Nat) (cs : List Nat) : List Bool := (chunks (groupOf fmt).1 cs).flatMap (groupBits fmt)

/-- The codes of one group; none for a TERN byte of 243 to 255 (R83). -/
def groupCodes (fmt : Nat) (bs : List Bool) : Option (List Nat) :=
  if fmt = 9 then some [natOfBits (bs.take 12), natOfBits (bs.drop 12)]
  else if fmt = 0x0D then
    let v := natOfBits bs
    if 243 ≤ v then none else some ((List.range 5).map (fun j => v / 3 ^ j % 3))
  else some [natOfBits bs]

/-- Read whole groups. -/
def readGroups (fmt : Nat) : List (List Bool) → Option (List Nat)
  | [] => some []
  | g :: gs => match groupCodes fmt g, readGroups fmt gs with
    | some a, some b => some (a ++ b)
    | _, _ => none

/-- Length in bits of n FIXED codes. -/
def fixedLen (fmt n : Nat) : Nat := divUp n (groupOf fmt).1 * (groupOf fmt).2

/-- Read n FIXED codes from bits of exactly their length. -/
def readFixed (fmt n : Nat) (bs : List Bool) : Option (List Nat) :=
  if bs.length ≠ fixedLen fmt n then none
  else (readGroups fmt (chunks (groupOf fmt).2 bs)).map (fun cs => cs.take n)

/-! ## Gradient streams (R196 to R208) -/

def kindContrib : Nat := 1
def kindBcast : Nat := 2

/-- What a gradient stream says. -/
structure Stream where
  kind   : Nat
  fmt    : Nat
  block  : Nat
  sparse : Bool
  index  : Nat
  scale  : Nat
  qmax   : Nat
  /-- offsets carried: all of the block when dense -/
  offs   : List Nat
  codes  : List Nat
  /-- dense ZERO and the non-finite broadcast carry no codes -/
  zero   : Bool := false
  deriving DecidableEq, Repr

/-- BSZ of a block size (R196). -/
def bszOf (block : Nat) : Nat := block.log2 - 6

/-- Full-size slot of a stream (R208). -/
def slotSize (fmt block : Nat) (sparse : Bool) : Nat :=
  if sparse then 16 + 8 * divUp (block + fixedLen fmt block) 64
  -- the FIXED form with every code present (TERN and INT12 fill whole groups)
  else 16 + 8 * divUp (fixedLen fmt block) 64

/-- The header of R196. -/
def streamHeader (st : Stream) (coding : Nat) (isMap : Bool) (count bodyBits : Nat) : Bytes :=
  leBytes 16 (1 + st.kind * 2 ^ 4 + st.fmt * 2 ^ 8 + bszOf st.block * 2 ^ 13 + bit st.sparse * 2 ^ 15
    + coding * 2 ^ 16 + bit isMap * 2 ^ 18 + count * 2 ^ 20 + st.scale * 2 ^ 32 + bodyBits * 2 ^ 48
    + st.index * 2 ^ 64 + st.qmax * 2 ^ 96)

/-- A bit section padded to whole 8-byte words. -/
def sectionBytes (bs : List Bool) : Bytes := padTo (8 * divUp bs.length 64) (bytesOfBits bs)

/-- Zero value of a code: a floating −0 counts as zero too (R171). -/
def codeIsZero (fmt code : Nat) : Bool := fmt ≠ 0x0E && codeUnits fmt code = 0

/-- The stream's bytes and its CODING (R207): `lens` is the class table where the bucket's PACK_CODE is 1.
"Every code is 0" is read on the codes themselves, so that decoding gives them back. -/
def encodeStream (st : Stream) (lens : Option (List Nat)) : Bytes × Nat :=
  if st.scale = 0xFF then (streamHeader st 0 false 0 0, 0)
  else if st.sparse then
    let (idx, isMap) := indexSection st.block st.offs
    let body := idx ++ fixedBits st.fmt st.codes
    (streamHeader st 0 isMap st.offs.length body.length ++ sectionBytes body, 0)
  else if st.fmt ≠ 0x0E && st.codes.all (· = codeZero st.fmt) then (streamHeader st 2 false 0 0, 2)
  else
    let fixed := fixedBits st.fmt st.codes
    let plain := (streamHeader st 0 false st.block fixed.length ++ sectionBytes fixed, 0)
    match lens, classMax st.fmt with
    | some ls, some _ =>
      let ws := codewords ls
      let body := st.codes.flatMap (fun c => classBits ws (zigzag (ofTwos (intBits st.fmt) c)))
      let out := streamHeader st 1 false st.block body.length ++ tableBytes ls ++ sectionBytes body
      if out.length < plain.1.length then (out, 1) else plain
    | _, _ => plain

/-- What the bucket lets a stream be (R216). -/
structure StreamRule where
  kind   : Nat
  fmt    : Nat
  block  : Nat
  sparse : Bool
  blocks : Nat
  deriving DecidableEq, Repr

/-- Length of a stream by its header, in bytes (R196). -/
def streamLen (bs : Bytes) : Nat :=
  let v := leNat (bs.take 16)
  16 + (if bitsOf v 17 16 = 1 then 16 else 0) + 8 * divUp (bitsOf v 63 48) 64

/-- A code of a floating format that is finite (R216). -/
def codeFinite (fmt code : Nat) : Bool :=
  match floatOf fmt with
  | some f => (f.decode code).isFin
  | none => true

/-- The codes of a bit section: offsets and codes, consuming all its bits. -/
def readBody (r : StreamRule) (coding count : Nat) (isMap : Bool) (lens : Option (List Nat)) (bits : List Bool) :
    Option (List Nat × List Nat) :=
  if coding = 2 then some (List.range r.block, List.replicate r.block (codeZero r.fmt))
  else if coding = 1 then
    match lens with
    | none => none
    | some ls => match readClasses (codewords ls) r.block bits with
      | some (us, []) => some (List.range r.block, us.map (fun u => toTwos (intBits r.fmt) (unzigzag u)))
      | _ => none
  else if r.sparse then
    match readIndex r.block count isMap bits with
    | some (os, rest) => (readFixed r.fmt count rest).map (fun cs => (os, cs))
    | none => none
  else (readFixed r.fmt count bits).map (fun cs => ((List.range r.block).take count, cs))

/-- Decode one stream and test it (R216); none: damaged. -/
def decodeStream (r : StreamRule) (bs : Bytes) : Option Stream :=
  let v := leNat (bs.take 16)
  let coding := bitsOf v 17 16
  let sparse := bitOf v 15
  let count := bitsOf v 29 20
  let scale := bitsOf v 39 32
  let body := bitsOf v 63 48
  let index := bitsOf v 95 64
  let qmax := bitsOf v 127 96
  let headLen := if coding = 1 then 32 else 16
  let bits := bitsOfBytes (bs.drop headLen)
  let nonfin := scale = 0xFF
  let headOk := bs.length = streamLen bs && 16 ≤ bs.length && bitsOf v 3 0 = 1 && bitsOf v 7 4 = r.kind
    && bitsOf v 12 8 = r.fmt && bitsOf v 14 13 = bszOf r.block && coding ≠ 3 && !bitOf v 19 && bitsOf v 31 30 = 0
    && bitsOf v 47 40 = 0 && sparse = r.sparse && index < r.blocks
    -- R198
    && (coding = 0 || !sparse) && (sparse || !bitOf v 18) && (coding ≠ 2 || body = 0)
    && (!(sparse && count = 0) || (coding = 0 && body = 0))
    && (!nonfin || (r.kind = kindBcast && coding = 0 && count = 0 && body = 0))
    && (r.kind ≠ kindBcast || qmax = 0)
    -- count
    && (if coding = 2 then count = 0 else if sparse then count ≤ r.block else nonfin || count = r.block)
    -- padding
    && (bits.drop body).all (fun b => !b)
  if !headOk then none
  else if nonfin then some ⟨r.kind, r.fmt, r.block, sparse, index, scale, qmax, [], [], false⟩
  else
    let lens := match coding, classMax r.fmt with
      | 1, some kmax => tableOf kmax (cut bs 16 16)
      | _, _ => none
    match readBody r coding count (bitOf v 18) lens (bits.take body) with
    | none => none
    | some (os, cs) =>
      let mag := maxOf (cs.map (fun c => (codeUnits r.fmt c).natAbs))
      if cs.all (codeFinite r.fmt) && (r.kind ≠ kindContrib || mag = qmax)
        && (coding ≠ 1 || (classMax r.fmt).isSome) then
        some ⟨r.kind, r.fmt, r.block, sparse, index, scale, qmax, os, cs, coding = 2⟩
      else none

/-- Split a payload into streams by their headers; `fuel` bounds their number. -/
def splitStreams : Nat → Bytes → Option (List Bytes)
  | 0, bs => if bs.isEmpty then some [] else none
  | f + 1, bs =>
    if bs.isEmpty then some []
    else if bs.length < 16 then none
    else
      let n := streamLen bs
      if bs.length < n then none
      else (splitStreams f (bs.drop n)).map (fun r => bs.take n :: r)

/-- Strictly rising. -/
def rising : List Nat → Bool
  | a :: b :: r => a < b && rising (b :: r)
  | _ => true

/-- All that are present, or none. -/
def allSome {α : Type} : List (Option α) → Option (List α)
  | [] => some []
  | some x :: xs => (allSome xs).map (x :: ·)
  | none :: _ => none

/-- Decode a frame's payload as a whole (R216 Payload); none: damaged. -/
def decodePayload (r : StreamRule) (bs : Bytes) : Option (List Stream) :=
  match splitStreams 256 bs with
  | none => none
  | some parts =>
    match allSome (parts.map (decodeStream r)) with
    | none => none
    | some sts =>
      if !sts.isEmpty && rising (sts.map Stream.index) && sts.length * slotSize r.fmt r.block r.sparse ≤ 16384
      then some sts else none

/-! ## Delta blocks (R210, R211) -/

/-- A directory entry. -/
structure DirEntry where
  len  : Nat
  raw  : Bool
  zero : Bool
  crc  : Nat
  index : Nat
  deriving DecidableEq, Repr

/-- The 16 bytes of a directory entry. -/
def DirEntry.bytes (d : DirEntry) : Bytes :=
  leBytes 16 (d.len + bit d.raw * 2 ^ 16 + bit d.zero * 2 ^ 17 + d.crc * 2 ^ 32 + d.index * 2 ^ 64)

/-- Code one block of 2,048 values δ (i16 as 16-bit codes): slot bytes and entry (R211). `fmt` 1 BF16, 2 FP16. -/
def encodeDelta (fmt index : Nat) (ds : List Nat) : Bytes × DirEntry :=
  if ds.all (· = 0) then ([], ⟨0, false, true, 0, index⟩)
  else
    let us := ds.map (fun d => zigzag (ofTwos 16 d))
    let lens := buildLengths (classCounts us) 16
    let body := us.flatMap (classBits (codewords lens))
    let len := 32 + 8 * divUp body.length 64
    if len < 4096 then
      let hdr := leBytes 16 (1 + 3 * 2 ^ 4 + fmt * 2 ^ 8 + 2048 * 2 ^ 16 + body.length * 2 ^ 32 + index * 2 ^ 64)
      let slot := hdr ++ tableBytes lens ++ sectionBytes body
      (slot, ⟨len, false, false, crc32c slot, index⟩)
    else
      let slot := ds.flatMap (leBytes 2)
      (slot, ⟨4096, true, false, crc32c slot, index⟩)

/-- Decode one block from its entry and slot; none: damaged (R216 Delta). -/
def decodeDelta (fmt index : Nat) (entry slot : Bytes) : Option (List Nat) :=
  let v := leNat entry
  let len := bitsOf v 15 0
  let raw := bitOf v 16
  let zero := bitOf v 17
  let data := slot.take len
  if bitsOf v 31 18 ≠ 0 || bitsOf v 127 96 ≠ 0 || bitsOf v 95 64 ≠ index then none
  else if zero then (if !raw && len = 0 && bitsOf v 63 32 = 0 then some (List.replicate 2048 0) else none)
  else if crc32c data ≠ bitsOf v 63 32 || data.length ≠ len then none
  else if raw then (if len = 4096 then some ((chunks 2 data).map leNat) else none)
  else if len < 288 || 4088 < len || len % 8 ≠ 0 then none
  else
    let h := leNat (data.take 16)
    let body := bitsOf h 47 32
    let bits := bitsOfBytes (data.drop 32)
    if bitsOf h 3 0 ≠ 1 || bitsOf h 7 4 ≠ 3 || bitsOf h 12 8 ≠ fmt || bitsOf h 15 13 ≠ 0 || bitsOf h 31 16 ≠ 2048
      || bitsOf h 63 48 ≠ 0 || bitsOf h 95 64 ≠ index || bitsOf h 127 96 ≠ 0 || len ≠ 32 + 8 * divUp body 64
      || (bits.drop body).any id then none
    else match tableOf 16 (cut data 16 16) with
      | none => none
      | some lens => match readClasses (codewords lens) 2048 (bits.take body) with
        | some (us, []) => some (us.map (fun u => toTwos 16 (unzigzag u)))
        | _ => none

end Sys2Proof.Machine
end

