-- ==== Sys2Proof/Machine/Cfg.lean ====
section
/-! DEFINITION. Configuration data: the fields of a base, bucket records, queue records, records of TLVs and the effective
configuration (19 R412 to R416; 14 R304; 15 R329). -/

namespace Sys2Proof.Machine

/-! ## Base fields (19 R414, 14 R304) -/

/-- A row of the table of base fields: id, value bytes, number of INDEX values, factory value, reserved bits of the value. -/
structure FieldRow where
  id      : Nat
  bytes   : Nat
  count   : Nat := 1
  factory : Nat := 0
  rsv     : Nat := 0
  deriving DecidableEq, Repr

/-- Reserved bits of a snapshot destination record (15 R329). -/
def snapRsv : Nat := 0xFFFFFF * 2 ^ 8 + 0xFFFF * 2 ^ 48 + 0xFFFFFFFFFFFFFFFF * 2 ^ 448

/-- The base fields. -/
def baseFields : List FieldRow :=
  [⟨0x0001, 1, 1, 0, 0⟩, ⟨0x0002, 4, 1, 0, 0⟩, ⟨0x0003, 8, 1, 0, 0⟩, ⟨0x0004, 32, 1, 0, 0⟩, ⟨0x0005, 12, 1, 0, 0⟩,
   ⟨0x0006, 8, 1, 0, 0⟩, ⟨0x0007, 4, 1, 256, 0⟩, ⟨0x0008, 4, 1, 1, 0⟩, ⟨0x0009, 8, 1, 0, 0⟩, ⟨0x000A, 16, 1, 0, 0⟩,
   ⟨0x000B, 16, 1, 0, 0⟩, ⟨0x000C, 2, 1, 1279, 0⟩, ⟨0x000D, 4, 1, 65536, 0⟩, ⟨0x000E, 20, 1, 0, 0⟩,
   ⟨0x000F, 16, 1, 0, 0⟩, ⟨0x0010, 1, 1, 0, 0⟩, ⟨0x0011, 4, 1, 50000, 0⟩, ⟨0x0012, 2, 1, 0, 0xF000⟩, ⟨0x0013, 2, 1, 0, 0⟩,
   ⟨0x0014, 8, 1, 0, 0⟩, ⟨0x0015, 8, 1, 0, 0⟩, ⟨0x0016, 8, 1, 0, 0⟩, ⟨0x0017, 8, 1, 0, 0⟩, ⟨0x0018, 4, 1, 1024, 0⟩] ++
  [⟨0x0020, 2, 1, 50359, 0⟩, ⟨0x0021, 1, 1, 6, 0⟩, ⟨0x0022, 6, 1, 0, 0xFF00⟩, ⟨0x0023, 1, 1, 64, 0⟩, ⟨0x0024, 1, 1, 0, 0⟩,
   ⟨0x0025, 8, 1, 0, 0⟩, ⟨0x0026, 4, 1, 0, 0⟩, ⟨0x0027, 6, 17, 0, 0⟩, ⟨0x0100, 1, 1, 16, 0⟩, ⟨0x0101, 1, 1, 1, 0xFE⟩,
   ⟨0x0102, 4, 1, 2000, 0⟩, ⟨0x0103, 1, 1, 0, 0xFE⟩, ⟨0x0104, 1, 1, 0, 0xFE⟩, ⟨0x0105, 1, 1, 0, 0xFE⟩,
   ⟨0x0106, 4, 1, 0x30000, 0⟩, ⟨0x0107, 1, 1, 5, 0⟩, ⟨0x0108, 2, 1, 16, 0⟩, ⟨0x0109, 4, 1, 0x7F800000, 0⟩,
   ⟨0x010A, 1, 1, 0, 0xFC⟩, ⟨0x010B, 4, 1, 0x3F666666, 0⟩, ⟨0x010C, 4, 1, 0x3F7FBE77, 0⟩, ⟨0x010D, 4, 1, 0x35800000, 0⟩,
   ⟨0x010E, 4, 1, 0, 0⟩, ⟨0x010F, 8, 1, 0, 0⟩, ⟨0x0110, 8, 1, 0, 0⟩, ⟨0x0111, 8, 1, 0, 0⟩, ⟨0x0400, 64, 8, 0, snapRsv⟩]

/-- The row of a base field. -/
def fieldRow (id : Nat) : Option FieldRow := baseFields.find? (fun r => r.id = id)

/-- Factory value of a field for pitch p: PKG_BAR_MASK is the pitch's own bit (19 R414). -/
def factoryOf (p id : Nat) : Nat := if id = 0x0012 then 2 ^ p else match fieldRow id with | some r => r.factory | none => 0

/-- The value of a field under a list of settings. -/
def settingOf (p : Nat) (ss : List Setting) (id idx : Nat) : Nat :=
  match ss.find? (fun e => e.id = id && e.idx = idx) with
  | some e => e.val
  | none => factoryOf p id

/-- Set a field, keeping ascending (id, INDEX) and listing only values that differ from the factory's. -/
def settingPut (p : Nat) (ss : List Setting) (id idx val : Nat) : List Setting :=
  let rest := ss.filter (fun e => e.id ≠ id || e.idx ≠ idx)
  if val = factoryOf p id then rest
  else insertBy (fun a b => a.id < b.id || (a.id = b.id && a.idx ≤ b.idx)) ⟨id, idx, val⟩ rest

/-- A field of a pitch's effective configuration. -/
def Pitch.cfg (x : Pitch) (p : PitchId) (id : Nat) (idx : Nat := 0) : Nat := settingOf p.val x.eff.base id idx

/-! ## Bucket records (19 R415) -/

/-- The fields of a bucket record: id, high bit, low bit. -/
def bucketFields : List (Nat × Nat × Nat) :=
  [(0x0200, 31, 0), (0x0201, 33, 32), (0x0202, 36, 34), (0x0203, 41, 37), (0x0204, 46, 42), (0x0205, 48, 47), (0x0206, 50, 49),
   (0x0207, 52, 51), (0x0208, 57, 53), (0x0209, 58, 58), (0x020A, 59, 59), (0x020B, 60, 60), (0x020C, 61, 61), (0x020D, 62, 62),
   (0x020E, 79, 64), (0x020F, 95, 80), (0x0210, 127, 96), (0x0211, 191, 128), (0x0212, 255, 192), (0x0213, 319, 256)] ++
  [(0x0214, 383, 320), (0x0215, 447, 384), (0x0216, 450, 448), (0x0217, 455, 451), (0x0218, 511, 480), (0x0219, 575, 512),
   (0x021A, 639, 576), (0x021B, 655, 640), (0x021C, 671, 656)]

/-- The bits of a bucket field. -/
def bucketBits (id : Nat) : Option (Nat × Nat) := (bucketFields.find? (fun r => r.1 = id)).map Prod.snd

/-- A field of a bucket record. -/
def bfield (r : BitVec 1024) (hi lo : Nat) : Nat := bitsOf r.toNat hi lo
/-- The record with a field replaced. -/
def bfieldSet (r : BitVec 1024) (hi lo v : Nat) : BitVec 1024 :=
  BitVec.ofNat 1024 (r.toNat - bitsOf r.toNat hi lo * 2 ^ lo + v % 2 ^ (hi + 1 - lo) * 2 ^ lo)

def bElements (r : BitVec 1024) : Nat := bfield r 31 0
def bBlock (r : BitVec 1024) : Nat := 64 * 2 ^ bfield r 33 32
def bSelect (r : BitVec 1024) : Nat := bfield r 36 34
def bWire (r : BitVec 1024) : Nat := bfield r 41 37
def bBcast (r : BitVec 1024) : Nat := bfield r 46 42
def bQRound (r : BitVec 1024) : Nat := bfield r 48 47
def bGRound (r : BitVec 1024) : Nat := bfield r 50 49
def bResFmt (r : BitVec 1024) : Nat := bfield r 52 51
def bOutFmt (r : BitVec 1024) : Nat := bfield r 57 53
def bClip (r : BitVec 1024) : Bool := bitOf r.toNat 58
def bRowSide (r : BitVec 1024) : Bool := bitOf r.toNat 59
def bUpdate (r : BitVec 1024) : Bool := bitOf r.toNat 60
def bPackCode (r : BitVec 1024) : Bool := bitOf r.toNat 61
def bRandkShared (r : BitVec 1024) : Bool := bitOf r.toNat 62
def bSelK (r : BitVec 1024) : Nat := bfield r 79 64
def bDensity (r : BitVec 1024) : Nat := bfield r 95 80
def bDivisor (r : BitVec 1024) : Nat := bfield r 127 96
def bElemBase (r : BitVec 1024) : Nat := bfield r 191 128
def bResBase (r : BitVec 1024) : Nat := bfield r 255 192
def bOresBase (r : BitVec 1024) : Nat := bfield r 319 256
def bAccBase (r : BitVec 1024) : Nat := bfield r 383 320
def bRedBase (r : BitVec 1024) : Nat := bfield r 447 384
def bLrRank (r : BitVec 1024) : Nat := 2 ^ bfield r 450 448
def bLrOpfmt (r : BitVec 1024) : Nat := bfield r 455 451
def bLrN (r : BitVec 1024) : Nat := bfield r 511 480
def bLrQBase (r : BitVec 1024) : Nat := bfield r 575 512
def bLrWBase (r : BitVec 1024) : Nat := bfield r 639 576
def bLrErgBase (r : BitVec 1024) : Nat := bfield r 655 640
def bLrErgCount (r : BitVec 1024) : Nat := bfield r 671 656

/-- Blocks of a bucket (06 R128). -/
def bBlocks (r : BitVec 1024) : Nat := bElements r / bBlock r
/-- SELECT codes (07 R152). -/
def selDense : Nat := 0
def selTopkRow : Nat := 1
def selTopkBlock : Nat := 2
def selThresh : Nat := 3
def selRandk : Nat := 4
def selPgu : Nat := 5
def selLowrank : Nat := 6
/-- Streams of this bucket carry an index section (09 R216). -/
def bSparse (r : BitVec 1024) : Bool := bSelect r ≠ selDense && bSelect r ≠ selLowrank
/-- Rows m of a LOWRANK bucket (08 R174). -/
def bLrM (r : BitVec 1024) : Nat := bElements r / max 1 (bLrN r)
/-- Words of its two factors. -/
def bLrPWords (r : BitVec 1024) : Nat := bLrM r * bLrRank r
def bLrQWords (r : BitVec 1024) : Nat := bLrN r * bLrRank r

/-- Reserved bits of a bucket record (19 R415). -/
def bucketRsv : Nat := 2 ^ 63 + (2 ^ 24 - 1) * 2 ^ 456 + (2 ^ 352 - 1) * 2 ^ 672

/-- Bucket b of the effective configuration. -/
def Pitch.bucket (x : Pitch) (b : Nat) : Option (BitVec 1024) := x.eff.buckets[b]?
/-- The same, zero where there is none. -/
def Pitch.bucketD (x : Pitch) (b : Nat) : BitVec 1024 := x.eff.buckets.getD b 0

/-! ## Queue records (17 R365) -/

/-- The queue record of local queue q. -/
def Pitch.queueRec (x : Pitch) (q : Nat) : W64 := sget x.eff.queues q 0
/-- Reserved bits of a queue record. -/
def queueRsv : Nat := 0xC0 + 0xF800 + 0xF8000000 + 0xFFFF * 2 ^ 48
def qDepthLog (r : W64) : Nat := r.toNat % 16
def qExc (r : W64) : Bool := bitOf r.toNat 4
def qIrq (r : W64) : Bool := bitOf r.toNat 5
def qPort (r : W64) : Nat := bitsOf r.toNat 10 8
def qCq (r : W64) : Nat := bitsOf r.toNat 26 16
def qRingOff (r : W64) : Nat := bitsOf r.toNat 47 32

/-- Ring of a queue: offset in queue memory, depth, entry size; none where it is disabled (R365). -/
def Pitch.ring (x : Pitch) (q : Nat) : Option (Nat × Nat × Nat) :=
  if q = 0 then some (0, 256, 64)
  else if q = 1 then some (0x4000, 1024, 32)
  else
    let r := x.queueRec q
    if qDepthLog r = 0 then none else some (64 * qRingOff r, 2 ^ qDepthLog r, 64)

def isWorkQueue (q : Nat) : Bool := 2 ≤ q && q ≤ 1025
def isCplQueue (q : Nat) : Bool := 1026 ≤ q && q ≤ 1279

/-! ## Records of TLVs (R412, R413) -/

/-- A refusal: status code and DETAIL (18 R386). -/
structure Refuse where
  status : Nat
  detail : Nat
  deriving DecidableEq, Repr

def stOk : Nat := 0
def stMoeReturned : Nat := 1
def eReserved : Nat := 0x10
def eState : Nat := 0x11
def eOrder : Nat := 0x12
def eRange : Nat := 0x13
def eFormat : Nat := 0x14
def eConfig : Nat := 0x15
def eCapacity : Nat := 0x16
def ePegTable : Nat := 0x17
def ePacing : Nat := 0x18
def eAborted : Nat := 0x19
def eStream : Nat := 0x1A
def eCheckpoint : Nat := 0x1B
def eKey : Nat := 0x1C
def eSeq : Nat := 0x20
def eDenied : Nat := 0x21
def eVersion : Nat := 0x22
def eNotLeader : Nat := 0x23
def eBusy : Nat := 0x24
def eImage : Nat := 0x25
def eAuth : Nat := 0x26
def eMember : Nat := 0x27

/-- A check that passes or refuses. -/
abbrev Check := Option Refuse
/-- The first refusal of a list of checks. -/
def firstOf : List Check → Check
  | [] => none
  | some r :: _ => some r
  | none :: cs => firstOf cs
/-- Refuse where a condition fails. -/
def need (ok : Bool) (status detail : Nat) : Check := if ok then none else some ⟨status, detail⟩

/-- The lowest byte that holds a set bit. -/
def lowByte (v : Nat) : Nat := ctz v / 8
/-- The first non-zero byte of a string, by index. -/
def firstNonZero (bs : Bytes) : Option Nat := bs.findIdx? (· ≠ 0)

/-- Every TLV of a record from byte `at` on: its byte offset and TLV; none where it runs past the record. -/
def tlvsGo (bs : Bytes) : Nat → Nat → Option (List (Nat × Tlv))
  | 0, pos => if pos = bs.length then some [] else none
  | n + 1, pos =>
    if bs.length < pos + 8 then none
    else
      let len := leAt bs (pos + 2) 2
      let next := pos + 8 + roundUp len 8
      if bs.length < next then none
      else
        let t : Tlv := ⟨leAt bs pos 2 % 2 ^ 14, bitOf (leAt bs pos 2) 15, leAt bs (pos + 4) 4, cut bs (pos + 8) len⟩
        (tlvsGo bs n next).map ((pos, t) :: ·)

/-- Value width in bits of a known field of a record, with its reserved bits; none: unknown. -/
def tlvShape (id : Nat) : Option (Nat × Nat) :=
  match fieldRow id with
  | some r => some (r.bytes, r.rsv)
  | none => (bucketBits id).map (fun b => let w := b.1 + 1 - b.2; (divUp w 8, 2 ^ (8 * divUp w 8) - 2 ^ w))

/-- INDEX ranges of R413. -/
def tlvIndexOk (overlay : Bool) (id idx : Nat) : Bool :=
  match fieldRow id with
  | some r => idx < r.count
  | none => idx < 16384 || (overlay && idx = 0xFFFFFFFF)

/-- The checks on one TLV (R413), in their order. -/
def tlvCheck (overlay : Bool) (bs : Bytes) (pos : Nat) (t : Tlv) : Check :=
  let padded := cut bs (pos + 8 + t.value.length) (roundUp t.value.length 8 - t.value.length)
  let first := firstOf [need (!bitOf (leAt bs pos 2) 14) eReserved (pos + 1),
    match firstNonZero padded with | some k => some ⟨eReserved, pos + 8 + t.value.length + k⟩ | none => none]
  match first with
  | some r => some r
  | none =>
    match tlvShape t.id with
    | none => need (!t.crit) eConfig t.id
    | some (bytes, rsv) =>
      let bad := leNat t.value &&& rsv
      firstOf [need (t.value.length = bytes) eConfig t.id,
        need (if (bucketBits t.id).isSome then overlay else !(overlay && (t.id = 5 || t.id = 6))) eConfig t.id,
        need (tlvIndexOk overlay t.id t.index) eConfig t.id,
        need (bad = 0) eReserved (pos + 8 + lowByte bad)]

/-- Check the form of a record and read it: MODE and its TLVs without the unknown ones (R413). -/
def readRecord (overlay : Bool) (bs : Bytes) : Except Refuse (Nat × List Tlv) :=
  if bs.length < 8 || leAt bs 0 4 ≠ bs.length then .error ⟨eConfig, 0⟩
  else match tlvsGo bs (leAt bs 6 2) 8 with
    | none => .error ⟨eConfig, 0⟩
    | some ts =>
      let head := firstOf [need (overlay || leAt bs 4 1 = 0) eReserved 4, need (leAt bs 5 1 = 0) eReserved 5]
      match firstOf (head :: ts.map (fun e => tlvCheck overlay bs e.1 e.2)) with
      | some r => .error r
      | none => .ok (leAt bs 4 1, (ts.map Prod.snd).filter (fun t => (tlvShape t.id).isSome))

/-- Apply base TLVs in record order (R416 step 2). -/
def applyBase (p : Nat) (ss : List Setting) (ts : List Tlv) : List Setting :=
  ts.foldl (fun ss t => if (fieldRow t.id).isSome then settingPut p ss t.id t.index (leNat t.value) else ss) ss

/-- Apply one overlay bucket TLV to the records. -/
def patchBuckets (bs : List (BitVec 1024)) (t : Tlv) : List (BitVec 1024) :=
  match bucketBits t.id with
  | none => bs
  | some (hi, lo) => bs.zipIdx.map (fun e => if t.index = 0xFFFFFFFF || t.index = e.2 then bfieldSet e.1 hi lo (leNat t.value) else e.1)

/-- Bytes of a record with one TLV per setting: the committed base as the retained image holds it (R421). -/
def settingsSize (ss : List Setting) : Nat :=
  8 + sumOf (ss.map (fun e => 8 + roundUp (match fieldRow e.id with | some r => r.bytes | none => 0) 8))

/-! ## Composite fields -/

/-- The u8, u16, u32 or u64 part of a field value at byte `off`. -/
def partOf (v off n : Nat) : Nat := v / 256 ^ off % 256 ^ n

def Pitch.ergCount (x : Pitch) (p : PitchId) : Nat := partOf (x.cfg p 2) 0 2
def Pitch.ergBase (x : Pitch) (p : PitchId) : Nat := partOf (x.cfg p 2) 2 2
def Pitch.normLocal (x : Pitch) (p : PitchId) : Nat := partOf (x.cfg p 0xD) 0 2
def Pitch.normGlobal (x : Pitch) (p : PitchId) : Nat := partOf (x.cfg p 0xD) 2 2
def Pitch.seed (x : Pitch) (p : PitchId) : Nat := x.cfg p 0xF
def Pitch.gen (x : Pitch) (p : PitchId) : Nat := x.cfg p 0x10
def Pitch.relaxed (x : Pitch) (p : PitchId) : Bool := x.cfg p 1 = 1

/-- Logical Erg register k of a pitch as a physical register (05 R108). -/
def Pitch.erg (x : Pitch) (p : PitchId) (k : Nat) : Nat := x.ergBase p + k

/-- Slots wanted of resource r (19 R414 SHARES). -/
def sharesOf (v r : Nat) : Nat := partOf v r 1

/-- A signed field. -/
def signedOf (bytes v : Nat) : Int := ofTwos (8 * bytes) v

/-- Staging layout of an allotment (19 R418): completion table, pack ring, bucket staging area as offsets and sizes. -/
structure StagingLayout where
  start : Nat
  cplBytes : Nat
  ringBytes : Nat
  total : Nat
  deriving DecidableEq, Repr

/-- Bytes left for the bucket staging area. -/
def StagingLayout.area (l : StagingLayout) : Nat := l.total - l.cplBytes - l.ringBytes
/-- Address of the bucket staging area. -/
def StagingLayout.areaBase (l : StagingLayout) : Nat := l.start + l.cplBytes + l.ringBytes

/-- The layout that a configuration gives a binding. -/
def stagingLayout (p : Nat) (b : Binding) (img : CfgImage) : StagingLayout :=
  let tb := sumOf (img.buckets.map bBlocks)
  let minGroup := max 1 (settingOf p img.base 8 0)
  ⟨stagingBase + mib * b.stagingOff, roundUp (16 * divUp tb minGroup) 4096, 1024 * settingOf p img.base 7 0, mib * b.stagingMib⟩

/-- Does a bucket's v spill (01 R21)? -/
def Pitch.spills (x : Pitch) (p : PitchId) (elements : Nat) : Bool := (stagingLayout p.val x.binding x.eff).area < 4 * elements

end Sys2Proof.Machine
end

