-- ==== Sys2Proof/Machine/Flags.lean ====
section
/-! DEFINITION. The sticky flags and cause fields a command raises: NUM_FLAGS (04 R97, R98), DROP_CAUSE (03 R58) and
DB_STATUS (17 R367). -/

namespace Sys2Proof.Machine

/-- Raise flags of NUM_FLAGS. -/
def Pitch.raise (x : Pitch) (f : BitVec 6) : Pitch := { x with numFlags := x.numFlags ||| f }
/-- Raise flags of pitch p. -/
def State.raise (s : State) (p : PitchId) (f : BitVec 6) : State := if f = 0 then s else s.modPitch p (fun x => x.raise f)

/-- A W1C write to NUM_FLAGS (04 R97). -/
def Pitch.clearFlags (x : Pitch) (w : BitVec 6) : Pitch := { x with numFlags := x.numFlags &&& ~~~w }

/-- A discarded STEP_SET or CURSOR_SET write: DROP_CAUSE and TIME_WRITE_DROPS (03 R58). -/
def Pitch.dropTime (x : Pitch) (cause : Nat) : Pitch :=
  let y := x.count .timeWriteDrops
  { y with time := { y.time with dropCause := cause } }

/-- A discarded doorbell: DB_CAUSE, DB_QUEUE and DB_DROPS (17 R367). -/
def Pitch.dropDoorbell (x : Pitch) (cause queue : Nat) : Pitch :=
  let y := x.count .dbDrops
  { y with queues := { y.queues with dbCause := cause, dbQueue := queue } }

/-- Raise the flags of several roundings and count non-finite sources and clamps (04 R89, R96). -/
def Pitch.noteQuant (x : Pitch) (qs : List Quant) : Pitch :=
  let f := qs.foldl (fun a q => a ||| q.flags) 0
  ((x.raise f).count .qclamp (qs.filter Quant.clamped).length).count .nonfiniteConv (qs.filter Quant.nonfin).length

end Sys2Proof.Machine
end

