-- ==== Sys2Proof/Machine/Queue.lean ====
section
/-! DEFINITION. Rings and their pointers, completions, responses and notices (17 R365 to R371; 18 R378 to R384, R399, R400). -/

namespace Sys2Proof.Machine

/-! ## Pointers and rings -/

/-- Pointers of local queue q. -/
def Pitch.qptr (x : Pitch) (q : Nat) : QPtr := sget x.queues.ptrs q {}
/-- Set them. -/
def Pitch.setQptr (x : Pitch) (q : Nat) (v : QPtr) : Pitch := { x with queues := { x.queues with ptrs := sset x.queues.ptrs q v {} } }

/-- Entries in a ring between head and tail. -/
def QPtr.used (v : QPtr) : Nat := (v.tail - v.head).toNat

/-- Engine address of entry k of queue q (R366). -/
def Pitch.entryAddr (x : Pitch) (p : PitchId) (q : Nat) (k : W16) : Option Nat :=
  (x.ring q).map (fun r => queueBase p.val + r.1 + r.2.2 * (k.toNat % r.2.1))

/-- PHASE of entry k of a ring of depth d: 1 on the first pass, inverted on each wrap (R370, R381). -/
def phaseOf (d : Nat) (k : W16) : Bool := k.toNat / d % 2 = 0

/-- QPTR[q]: the pointer the engine owns (R366). -/
def Pitch.qptrReg (x : Pitch) (q : Nat) : Nat :=
  if (x.ring q).isNone then 0
  else if q = 1 || isCplQueue q then (x.qptr q).tail.toNat else (x.qptr q).head.toNat

/-- PITCH_STATE.STATE (17 R363). -/
def PitchMode.code : PitchMode → Nat
  | .unbound => 0 | .bound => 1 | .configured => 2 | .running => 3 | .stopping => 4 | .stopped => 5 | .fenced => 6 | .faulted => 7

/-- STEP_STATE (03 R55). -/
def StepState.code : StepState → Nat
  | .idle => 0 | .active => 1 | .draining => 2

/-- Any state except UNBOUND. -/
def Pitch.isBound (x : Pitch) : Bool := x.mode ≠ .unbound
/-- The pitch runs. -/
def Pitch.running (x : Pitch) : Bool := x.mode = .running

/-! ## Completions (17 R370, R371) -/

/-- A completion entry; PHASE and STEP are filled in as it is written. -/
def completionBytes (kind status wq : Nat) (head : W16) (detail : Nat) (cookie : W64) : Bytes :=
  leBytes 2 kind ++ leBytes 2 status ++ leBytes 2 wq ++ leBytes 2 head.toNat ++ leBytes 4 detail ++ leBytes 4 0
    ++ leBytes 8 0 ++ List.replicate 32 0 ++ leBytes 8 cookie.toNat

/-- Write one 64-byte entry at the tail of a completion-set ring that has room, then EVENT where IRQ is 1. `mk` gives its
bytes from PHASE. -/
def State.putEntry (s : State) (p : PitchId) (q : Nat) (mk : Bool → Bytes) : State :=
  let x := s.pitch p
  match x.ring q, x.entryAddr p q (x.qptr q).tail with
  | some r, some a =>
    let t := (x.qptr q).tail
    let s := (s.write a (mk (phaseOf r.2.1 t))).setPitch p (x.setQptr q { x.qptr q with tail := t + 1 })
    if qIrq (x.queueRec q) then s.sendBound p (.event p q (t + 1)) else s
  | _, _ => s

/-- Write a completion entry. -/
def State.writeCpl (s : State) (p : PitchId) (q : Nat) (e : Bytes) : State :=
  s.putEntry p q (fun ph =>
    [e.headD 0, BitVec.ofNat 8 (bit ph)] ++ cut e 2 14 ++ leBytes 8 (s.pitch p).time.step.toNat ++ e.drop 24)

/-- A ring has room for one more entry. -/
def Pitch.hasRoom (x : Pitch) (q : Nat) : Bool :=
  match x.ring q with
  | some r => (x.qptr q).used < r.2.1
  | none => false

/-- A completion: written at once, or held while its queue is full (R371). -/
def State.complete (s : State) (p : PitchId) (kind status wq : Nat) (head : W16) (detail : Nat) (cookie : W64) : State :=
  let x := s.pitch p
  let cq := qCq (x.queueRec wq)
  let e := completionBytes kind status wq head detail cookie
  if x.hasRoom cq && !(x.queues.held.any (fun h => h.1 = cq)) then s.writeCpl p cq e
  else if (x.ring cq).isNone then s
  else s.modPitch p (fun x =>
    let y := x.count .cqFullWaits
    { y with queues := { y.queues with held := y.queues.held ++ [(cq, e)] } })

/-- Write held entries of queue q while it has room, oldest first. -/
def flushHeldGo (p : PitchId) (q : Nat) : Nat → State → State
  | 0, s => s
  | n + 1, s =>
    let x := s.pitch p
    match x.queues.held.find? (fun h => h.1 = q) with
    | some h =>
      if x.hasRoom q then
        flushHeldGo p q n ((s.writeCpl p q h.2).modPitch p (fun y =>
          { y with queues := { y.queues with held := y.queues.held.erase h } }))
      else s
    | none => s

/-- Held completions written after the host has moved a head (R371). -/
def State.flushHeld (s : State) (p : PitchId) (q : Nat) : State := flushHeldGo p q (s.pitch p).queues.held.length s

/-! ## The response-and-notice ring -/

/-- Byte 3 of a response or notice: STATE and STEP_STATE (18 R380). -/
def Pitch.stateByte (x : Pitch) : Nat := x.mode.code + 16 * x.time.state.code

/-- Write one 32-byte entry with PHASE at the tail of the ring, which has room; FLAGS is byte 2. -/
def State.writeResp (s : State) (p : PitchId) (e : Bytes) : State :=
  let x := s.pitch p
  let t := (x.qptr 1).tail
  let flags := (e.getD 2 0).toNat % 128 + 128 * bit (phaseOf 1024 t)
  let body := e.take 2 ++ leBytes 1 flags ++ e.drop 3
  (s.write (queueBase p.val + 0x4000 + 32 * (t.toNat % 1024)) body).setPitch p (x.setQptr 1 { x.qptr 1 with tail := t + 1 })

/-- Free entries of the response ring. -/
def Pitch.respRoom (x : Pitch) : Nat := 1024 - (x.qptr 1).used

/-- Write a response, or keep it until the ring has room (18 R382). -/
def State.postResponse (s : State) (p : PitchId) (e : Bytes) : State :=
  let x := s.pitch p
  if x.respRoom = 0 || !x.mail.waiting.isEmpty then s.setPitch p { x with mail := { x.mail with waiting := x.mail.waiting ++ [e] } }
  else s.writeResp p e

/-- Write waiting responses while the ring has room. -/
def flushRespGo (p : PitchId) : Nat → State → State
  | 0, s => s
  | n + 1, s =>
    let x := s.pitch p
    match x.mail.waiting with
    | e :: rest =>
      if x.respRoom = 0 then s
      else flushRespGo p n ((s.setPitch p { x with mail := { x.mail with waiting := rest } }).writeResp p e)
    | [] => s

/-- Responses written after the host has moved the ring's head. -/
def State.flushResponses (s : State) (p : PitchId) : State := flushRespGo p (s.pitch p).mail.waiting.length s

/-- A suppressed notice: NOTICE_DROPS, and LOST on the next notice (18 R400). -/
def Pitch.dropNotice (x : Pitch) : Pitch :=
  { x with mail := { x.mail with
      lost := true
      noticeDrops := if x.mail.noticeDrops = 0xFFFFFFFF then x.mail.noticeDrops else x.mail.noticeDrops + 1 } }

/-- Raise a notice on a pitch; it is suppressed where it would leave fewer than two free entries (18 R381, R400). -/
def State.notice (s : State) (p : PitchId) (code : Nat) (args : Bytes) : State :=
  let x := s.pitch p
  if !x.isBound then s
  else if x.respRoom < 3 || !x.mail.waiting.isEmpty then s.setPitch p x.dropNotice
  else
    let n := x.mail.noticeCount + 1
    let e := leBytes 2 code ++ leBytes 1 (bit x.mail.lost) ++ leBytes 1 x.stateByte ++ leBytes 4 n.toNat
      ++ leBytes 8 x.time.step.toNat ++ padTo 16 args
    (s.setPitch p { x with mail := { x.mail with noticeCount := n, lost := false } }).writeResp p e

def ntcStepDone : Nat := 0x8001
def ntcBucketFault : Nat := 0x8002
def ntcLossScale : Nat := 0x8003
def ntcSpike : Nat := 0x8004
def ntcNonfinite : Nat := 0x8005
def ntcMemberDead : Nat := 0x8006
def ntcFenced : Nat := 0x8007
def ntcRepair : Nat := 0x8008
def ntcThermal : Nat := 0x8009
def ntcLockstep : Nat := 0x800A
def ntcCursorStall : Nat := 0x800B
def ntcHandover : Nat := 0x800C

/-- ntc.bucket.fault: bucket, block, cause (18 R399). -/
def State.bucketFault (s : State) (p : PitchId) (bucket block cause : Nat) : State :=
  s.notice p ntcBucketFault (leBytes 4 bucket ++ leBytes 4 block ++ leBytes 1 cause)

def bfStream : Nat := 1
def bfScale : Nat := 2
def bfLength : Nat := 3
def bfSeq : Nat := 4
def bfTarget : Nat := 5
def bfAuth : Nat := 6
def bfExport : Nat := 7
def bfEcc : Nat := 8
def bfRepair : Nat := 9

/-- ntc.bucket.fault of a fault whose bucket and block no rule names: both are free values. -/
def State.openFault (s : State) (p : PitchId) (cause : Nat) : State :=
  let (n, s) := s.draw
  s.bucketFault p (Config.freeFaultPlace n).toNat ((Config.freeFaultPlace n).toNat / 2 ^ 32) cause

/-- ntc.repair on a pitch, at most once per cell and management epoch: cell, resource, action (18 R399). -/
def State.repairNotice (s : State) (p : PitchId) (cell resource action : Nat) : State :=
  let x := s.pitch p
  if !x.isBound then s
  else if cell ∈ x.mail.repairTold then s.setPitch p x.dropNotice
  else (s.notice p ntcRepair (leBytes 2 cell ++ leBytes 1 resource ++ leBytes 1 action)).modPitch p (fun x =>
    { x with mail := { x.mail with repairTold := cell :: x.mail.repairTold } })

/-- ntc.repair on every bound pitch. -/
def State.repairAll (s : State) (cell resource action : Nat) : State :=
  s.forPitches (fun p s => s.repairNotice p cell resource action)

/-- ntc.loss.scale where LS_EXP is no longer `old` (14 R308). -/
def State.lossScaleNotice (s : State) (p : PitchId) (old : Int) : State :=
  let ls := (s.pitch p).guard.lsExp
  if ls = old then s else s.notice p ntcLossScale (leBytes 1 (toTwos 8 ls) ++ leBytes 1 (toTwos 8 old))

/-! ## Responses (18 R380, R384) -/

/-- A response entry without PHASE. -/
def responseBytes (x : Pitch) (opcode : W16) (flags : Nat) (seq : W32) (tag : W16) (r : Refuse) (result : Bytes) : Bytes :=
  leBytes 2 opcode.toNat ++ leBytes 1 flags ++ leBytes 1 x.stateByte ++ leBytes 4 seq.toNat ++ leBytes 2 tag.toNat
    ++ leBytes 2 r.status ++ leBytes 4 r.detail ++ padTo 16 result

/-- Answer a completed command: the response enters the cache of the last 64 (R384). -/
def State.respond (s : State) (p : PitchId) (opcode : W16) (flags : Nat) (seq : W32) (tag : W16) (r : Refuse) (result : Bytes) : State :=
  let x := s.pitch p
  let e := responseBytes x opcode flags seq tag r result
  let cache := (⟨seq, opcode, e⟩ :: x.mail.cache).take 64
  (s.setPitch p { x with mail := { x.mail with cache := cache } }).postResponse p e

/-- Answer every owed command of a kind with STATUS and RESULT given. -/
def State.answerOwed (s : State) (p : PitchId) (why : CmdWait) (r : Refuse) (result : Bytes) : State :=
  let x := s.pitch p
  let due := x.mail.owed.filter (fun o => o.why = why)
  let s := s.setPitch p { x with mail := { x.mail with owed := x.mail.owed.filter (fun o => o.why ≠ why) } }
  due.foldl (fun s o => s.respond p o.opcode o.flags o.seq o.tag r result) s

/-! ## Doorbells (17 R367) -/

/-- The queue set of each doorbell: 0 DB_CTRL, 1 DB_WORK, 2 DB_CPL. -/
def doorbellSet (d q : Nat) : Bool := if d = 0 then q ≤ 1 else if d = 1 then isWorkQueue q else isCplQueue q

/-- Move a submission queue's tail or refuse. -/
def submissionOk (d : Nat) (v : QPtr) (ptr : W16) : Bool :=
  (ptr - v.head).toNat ≤ d && (ptr - v.tail).toNat ≤ (ptr - v.head).toNat
/-- Move a completion queue's head or refuse. -/
def completionOk (v : QPtr) (ptr : W16) : Bool := (ptr - v.head).toNat ≤ (v.tail - v.head).toNat

/-- The command-ring tails and the ports that moved it, in order (18 R379). -/
def notePort (x : Pitch) (ptr : W16) (h : HostPort) : Pitch :=
  { x with mail := { x.mail with cmdPorts := x.mail.cmdPorts ++ [(ptr, h)] } }

/-- A doorbell write that reaches its pitch (R367). -/
def State.doorbell (s : State) (h : HostPort) (p : PitchId) (d : Nat) (w : W32) : State :=
  let x := s.pitch p
  let q := w.toNat % 2048
  let ptr : W16 := BitVec.ofNat 16 (w.toNat / 65536)
  let v := x.qptr q
  if !doorbellSet d q then s.setPitch p (x.dropDoorbell 1 q)
  else if !x.isBound && d ≠ 0 then s.setPitch p (x.dropDoorbell 4 q)
  else match x.ring q with
    | none => s.setPitch p (x.dropDoorbell 2 q)
    | some r =>
      if q = 1 || isCplQueue q then
        if ptr = v.head then s
        else if completionOk v ptr then
          let s := s.setPitch p (x.setQptr q { v with head := ptr })
          if q = 1 then s.flushResponses p else s.flushHeld p q
        else s.setPitch p (x.dropDoorbell 3 q)
      else if ptr = v.tail then s
      else if submissionOk r.2.1 v ptr then
        let y := x.setQptr q { v with tail := ptr }
        s.setPitch p (if q = 0 then notePort y ptr h else y)
      else s.setPitch p (x.dropDoorbell 3 q)


/-! ## The retained image (19 R421; 18 R385; 14 R305; 15 R326; 08 R178) -/

/-- NEXT_SEQ as the retained store holds it: the oldest command whose response is still owed has not completed (18 R385). -/
def Mailbox.retainedSeq (m : Mailbox) : W32 := match m.owed with | o :: _ => o.seq | [] => m.nextSeq

/-- The image of a pitch. -/
def Pitch.image (x : Pitch) : Retained :=
  { binding := x.binding, base := x.base, overlays := x.overlays, sel := x.sel, eff := x.eff, plan := x.plan
    pegs := x.pegs, budgets := x.budgets, pegsLoaded := x.pegsLoaded, layers := x.layers, layersLoaded := x.layersLoaded
    member := if x.mode = .fenced || x.mode = .faulted then {} else x.member.record
    spareOnly := x.mode = .fenced || x.mode = .faulted || x.member.spareOnly
    pairing := x.pairing, rsig := x.rsig, fwNum := x.fwNum, nextSeq := x.mail.retainedSeq, cache := x.mail.cache
    zia := x.mail.zia, features := x.mail.features, admin := x.mail.admin, lsExp := x.guard.lsExp, clean := x.guard.clean
    normEma := x.guard.normEma, normCount := x.guard.normCount, lossEma := x.guard.lossEma, lossCount := x.guard.lossCount
    boundary := x.time.boundary, qValid := x.qValid, ckSeq := x.ckSeq }

/-- The guard state record in a retained image (14 R313). -/
def Retained.withGuard (r : Retained) (lsExp : Int) (clean normEma normCount lossEma lossCount : W32) : Retained :=
  { r with lsExp := lsExp, clean := clean, normEma := normEma, normCount := normCount, lossEma := lossEma, lossCount := lossCount }

/-- The image a retained write stores: the guard state record stays as its own rule wrote it last (R421; 14 R305). -/
def Pitch.imageOver (x : Pitch) (old : Option Retained) : Retained :=
  match old with
  | some r => x.image.withGuard r.lsExp r.clean r.normEma r.normCount r.lossEma r.lossCount
  | none => x.image

/-- Steps 3 and 4 of a mirror write (21 R446): the home sectors are programmed from a journal in COMPLETE, and it becomes DONE. -/
def Flash.finishMirror (f : Flash) : Flash := if f.journal = .complete then { f with mirror := f.journaled, journal := .done } else f
/-- Steps 1 and 2 (21 R446): the changed sectors go into the journal, whose header then says COMPLETE. A write still in COMPLETE is
finished first; this one's home sectors are written by the next epoch boundary (notes/assumptions 45). -/
def Flash.writeMirror (f : Flash) (images : Vector (Option Retained) 12) : Flash :=
  { f.finishMirror with journaled := images, journal := .complete, commits := f.commits + 1 }
/-- The mirror as a power-on reads it: a journal in COMPLETE in place of the home sectors (21 R446). -/
def Flash.mirrorNow (f : Flash) : Vector (Option Retained) 12 := if f.journal = .complete then f.journaled else f.mirror

/-- A retained write with its flash mirror (R421; 21 R446). -/
def State.setRetained (s : State) (images : Vector (Option Retained) 12) : State :=
  (s.program .mirror (s.flash.writeMirror images)) |> fun s => { s with retained := images }

/-- A retained write of a pitch that has committed (R421). -/
def State.retain (s : State) (p : PitchId) : State :=
  let x := s.pitch p
  if x.committed then
    s.setRetained (s.retained.set p (some (x.imageOver s.retained[p])))
  else s

/-- Change the retained image of a pitch that has one (19 R421). -/
def State.modRetained (s : State) (p : PitchId) (f : Retained → Retained) : State :=
  s.setRetained (s.retained.set p (s.retained[p].map f))

/-- The guard state record goes to the retained store: at a step completion, a restore and a commit (14 R305, R313). -/
def State.retainGuard (s : State) (p : PitchId) : State :=
  let g := (s.pitch p).guard
  s.modRetained p (fun r => r.withGuard g.lsExp g.clean g.normEma g.normCount g.lossEma g.lossCount)

/-! ## Faults and fencing of a pitch (19 R405, R408) -/

/-- The cut-off of the running step: nothing of it goes on (06 R148; 19 R406). Descriptors of exchanges and one-sided
operations stay in flight until pitch.start or a rollback ends them (10 R249). Outstanding frames stay (19 R407). STEP_STATE is
DRAINING while a rank is vacant (20 R431). -/
def Pitch.cutOff (x : Pitch) : Pitch :=
  { x with
    time := { x.time with state := if x.member.record.vacant.isEmpty then .idle else .draining, barrier := none, windowOpen := false, held := none, ckptArmed := false, ckptSlot := none, exports := [],
                          drainPending := false }
    tx := { x.tx with txq := [], packWait := [] }
    ingests := [], runs := [], agrees := [], assemblies := [], gbars := []
    lock := { x.lock with outputs := [] } }

/-- Reads for ranges of a step that has ended are no longer waited for: their responses answer no request. -/
def State.dropIngestReads (s : State) (p : PitchId) : State := { s with dma := s.dma.filter (fun r => !r.use.isIngest p) }

/-- The running step is cut off: accumulation buffers and staging are undefined afterwards (06 R148). -/
def State.cutStep (s : State) (p : PitchId) : State :=
  let s := s.dropIngestReads p
  let x := s.pitch p
  if x.time.state = .idle then s.setPitch p x.cutOff
  else
    let (n, s) := s.draw
    let bufs := (x.eff.buckets.filter (fun r => bAccBase r ≠ 0)).map (fun r => (bAccBase r, 8 * bElements r))
    let s := bufs.foldl (fun s b => s.write b.1 ((List.range b.2).map (fun i => Config.freeAccByte n (b.1 + i)))) s
    s.modPitch p (fun x => let y := x.cutOff; { y with time := { y.time with cut := true } })

/-- A STEP_SET that waited for the step is discarded as the pitch leaves RUNNING (03 R58; 18 R392). -/
def Pitch.dropHeld (x : Pitch) : Pitch := if x.time.held.isSome then x.dropTime 2 else x

/-- Dispatch, combine and one-sided descriptors in flight complete with E_ABORTED at pitch.start and at a rollback (10 R249). -/
def State.abortDescriptors (s : State) (p : PitchId) : State :=
  let x := s.pitch p
  let s := x.exchanges.foldl (fun s e =>
    let s := if e.own.isSome && !(e.complete) then s.complete p 2 eAborted e.wq e.wqHead 0 e.cookie else s
    e.combines.foldl (fun s c => s.complete p 3 eAborted c.1 c.2.1 0 c.2.2.1) s) s
  let s := x.osJobs.foldl (fun s j => s.complete p 4 eAborted j.wq j.wqHead 0 j.cookie) s
  let mine := fun (j : DescJob) => (j.desc.headD 0).toNat ≠ 5
  let s := (x.queues.jobs.filter mine).foldl (fun s j =>
    s.complete p (j.desc.headD 0).toNat eAborted j.wq j.wqHead 0 (BitVec.ofNat 64 (leAt j.desc 56 8))) s
  s.modPitch p (fun x => { x with
    exchanges := [], osJobs := [], queues := { x.queues with jobs := x.queues.jobs.filter (fun j => !mine j) } })

/-- Commands whose event can no longer come end with E_STATE. -/
def State.answerBroken (s : State) (p : PitchId) : State :=
  let whys : List CmdWait := [.leave, .ckptNow, .start] ++ (List.range 8).map CmdWait.snapNow
  whys.foldl (fun s w => s.answerOwed p w ⟨eState, 0⟩ []) s

/-- Enter FAULTED (19 R405, R408): the pitch stops without a save, loses its group membership in the retained store, and
owed stop and drain commands answer OK with STATE 7 (R409). Other owed commands end with E_STATE. A STEP_SET that was held is
discarded (03 R58). -/
def State.faultPitch (s : State) (p : PitchId) : State :=
  let x := s.pitch p
  if x.mode ∈ [.bound, .configured, .running, .stopping, .stopped] then
    let s := ((s.modPitch p Pitch.dropHeld).cutStep p).modPitch p (fun x => { x with
      mode := .faulted, startPending := false, faultedAt := if x.mode = .bound then none else some s.cclk })
    let s := (s.answerOwed p .stop ⟨stOk, 0⟩ []).answerOwed p .drain ⟨stOk, 0⟩ []
    (s.answerBroken p).retain p
  else s

/-- Fencing acts on this pitch: it is CONFIGURED, RUNNING, STOPPING or STOPPED, or a fault took it from there in this CCLK (R405,
R409). -/
def Pitch.fencible (x : Pitch) (now : Nat) : Bool :=
  x.mode ∈ [.configured, .running, .stopping, .stopped] || (x.mode = .faulted && x.faultedAt = some now)

/-- Enter FENCED (20; 19 R408): as a fault, and the keys are destroyed (12 R291); ntc.fenced is raised once. -/
def State.fencePitch (s : State) (p : PitchId) (received : W32) : State :=
  let x := s.pitch p
  if x.fencible s.cclk then
    let s := ((s.modPitch p Pitch.dropHeld).cutStep p).modPitch p (fun x => { x with mode := .fenced, keys := {}, startPending := false })
    let s := (s.answerOwed p .stop ⟨stOk, 0⟩ []).answerOwed p .drain ⟨stOk, 0⟩ []
    let s := (s.answerBroken p).retain p
    if x.mail.fencedTold then s.modPitch p Pitch.dropNotice
    else (s.notice p ntcFenced (leBytes 4 received.toNat ++ leBytes 4 x.member.record.epoch.toNat)).modPitch p (fun x =>
      { x with mail := { x.mail with fencedTold := true } })
  else s

end Sys2Proof.Machine
end

