-- ==== Sys2Proof/Machine/Log.lean ====
section
/-! DEFINITION. The lifetime log (23 R490 to R493), repairs as they are reported (23 R486; 18 R399), and the security state
(22 R461). -/

namespace Sys2Proof.Machine

/-- Code of the security state (22 R461): RMA, a debug session in SEALED, SEALED, OPEN. -/
def State.secCode (s : State) : Nat := if s.sec.rma then 3 else if !s.sec.sealed then 0 else if s.sec.session.isSome then 2 else 1

/-! ## Records (R490 to R492) -/

def logHour : Nat := 1
def logBoot : Nat := 2
def logRepair : Nat := 3
def logThermal : Nat := 4
def logLease : Nat := 5
def logDebug : Nat := 6
def logSecurity : Nat := 7
def logCore : Nat := 8
def logRetained : Nat := 9
def logUncorrectable : Nat := 10
def logRma : Nat := 11

/-- Records the log holds. -/
def logRecords : Nat := FlashRegion.log.size / 64

/-- A record with its header and CRC (R491). -/
def State.logRecord (s : State) (type : Nat) (body : Bytes) : Bytes :=
  let r := leBytes 1 type ++ [1, 0, 0] ++ leBytes 4 s.health.posSeconds ++ leBytes 4 s.health.bootCount ++ leBytes 4 0
    ++ leBytes 8 s.glob.mgmtTick.toNat ++ padTo 36 body
  r ++ leBytes 4 (crc32c r)

/-- Append a record where one remains. -/
def State.logRaw (s : State) (type : Nat) (body : Bytes) : State :=
  if s.flash.log.length < logRecords then
    let s := s.program .log { s.flash with log := s.flash.log ++ [s.logRecord type body] }
    { s with health := { s.health with logWritten := s.health.logWritten + 1 } }
  else s

/-- An event record: written while at least 16,384 records remain, else counted as suppressed (R492). -/
def State.logEvent (s : State) (type : Nat) (body : Bytes) : State :=
  if s.flash.log.length + 16384 ≤ logRecords then s.logRaw type body
  else { s with health := { s.health with
      suppressed := s.health.suppressed + 1
      hour := { s.health.hour with suppressed := s.health.hour.suppressed + 1 } } }

/-! ## Firmware cores and the lease (21 R453, R456; 22 R466) -/

/-- A firmware core runs. -/
def State.coreRuns (s : State) (c : FwCore) : Bool := !s.fw.halted.any (fun h => h.1 = c) && c ∉ s.fw.tapHalted

/-- A write to a schedule register is accepted only while the lease has a holder (18 R404, 21 R456). -/
def State.leased (s : State) : Bool := s.fw.lease.holder.isSome

/-- HOLDER may write the slice mapping or the port map for a repair; requests wait during a handover. -/
def State.mayRepair (s : State) : Bool := s.leased && !s.fw.lease.frozen

/-- A cluster control core may have a repair or a rotation of its cluster made. -/
def State.clusterServes (s : State) (c : Fin 8) : Bool := s.mayRepair && s.coreRuns (.cc c)

/-! ## Repairs (R484, R486) -/

def actSoft : Nat := 1
def actFused : Nat := 2
def actRetired : Nat := 3
def actWithdrawn : Nat := 4
def actExhausted : Nat := 5

/-- A repair ends: it is counted, logged and told to every bound pitch; before ENGINE_READY it is told as that rises (02 R34). -/
def State.repairDone (s : State) (cell resource action unit left : Nat) : State :=
  let h := s.health
  let h := { h with
    made := setAt h.made (resource - 1) (h.made.getD (resource - 1) 0 + 1)
    hour := { h.hour with repairs := h.hour.repairs + 1 } }
  let s := ({ s with health := h }).logEvent logRepair
    (leBytes 2 cell ++ leBytes 1 resource ++ leBytes 1 action ++ leBytes 4 unit ++ leBytes 1 left)
  if s.glob.engineReady then s.repairAll cell resource action
  else { s with health := { s.health with untold := s.health.untold ++ [(cell, resource, action)] } }

/-- A soft repair is held (R484). A further fault on the same resource of the cell starts the time of R487 again. -/
def State.holdRepair (s : State) (resource cell unit : Nat) : State :=
  let now := s.health.posSeconds
  let old := s.health.repairs.map (fun r => if r.resource = resource && r.cell = cell then { r with since := now } else r)
  { s with health := { s.health with repairs := old ++ [⟨resource, cell, unit, now⟩] } }

/-- Take a spare of a resource in the engine's count (R489). -/
def State.takeSpare (s : State) (resource : Nat) : State :=
  { s with health := { s.health with spares := setAt s.health.spares (resource - 1) (s.health.spares.getD (resource - 1) 0 - 1) } }

/-- An exhausted unit faults a pitch that uses it: ntc.bucket.fault with cause REPAIR, then FAULTED (16 R341). -/
def State.repairFault (s : State) (p : PitchId) : State :=
  if (s.pitch p).isBound then (s.openFault p bfRepair).faultPitch p else s

end Sys2Proof.Machine
end

