-- ==== Sys2Proof/Machine/Operands.lean ====
section
/-! DEFINITION. The operand forms of commands: engine addresses and who may reach them (17 R360 to R362), pitch resources
(19 R411), camp-plan slots (01 R23, R25), logical ranks on the collective tree and block owners (10 R222, R224, R230),
layers (14 R309) and fused buckets (03 R75). -/

namespace Sys2Proof.Machine

/-! ## Address ranges -/

/-- Does [a, a + n) lie in a union of (start, size) intervals? The walk moves from interval to adjacent interval. -/
def coveredGo (is : List (Nat × Nat)) : Nat → Nat → Nat → Bool
  | 0, _, n => n = 0
  | f + 1, a, n =>
    if n = 0 then true
    else match is.find? (fun i => i.1 ≤ a && a < i.1 + i.2) with
      | none => false
      | some i => coveredGo is f (i.1 + i.2) (n - (i.1 + i.2 - a))

/-- The union of intervals covers n bytes from a. -/
def covered (is : List (Nat × Nat)) (a n : Nat) : Bool := coveredGo is (is.length + 1) a n

/-- The queue memory of a pitch as an interval. -/
def queueRange (p : PitchId) : Nat × Nat := (queueBase p.val, queueSize)
/-- Its staging allotment. -/
def Pitch.stagingRange (x : Pitch) : Nat × Nat := (stagingBase + mib * x.binding.stagingOff, mib * x.binding.stagingMib)
/-- Everything a host port bound to the pitch may reach on the data sub-channel (R362). -/
def Pitch.reach (x : Pitch) (p : PitchId) : List (Nat × Nat) := queueRange p :: x.stagingRange :: x.binding.regions

/-- A field's HBM range lies within the pitch's memory regions (19 R411). -/
def Pitch.inRegions (x : Pitch) (a n : Nat) : Bool := covered x.binding.regions a n

/-- The port is bound to the pitch. -/
def Pitch.boundTo (x : Pitch) (h : HostPort) : Bool := x.binding.ports.getLsbD h

/-- The pitch whose resources hold all n bytes at a, for an access from host port h (R362). -/
def State.accessor (s : State) (h : HostPort) (a n : Nat) : Option PitchId :=
  allPitches.find? (fun p =>
    let x := s.pitch p
    if x.isBound then x.boundTo h && covered (x.reach p) a n else covered [queueRange p] a n)

/-- The staging layout of the effective configuration (19 R418). -/
def Pitch.layout (x : Pitch) (p : PitchId) : StagingLayout := stagingLayout p.val x.binding x.eff

/-- Does the range meet the bucket staging area of a RUNNING or STOPPING pitch (01 R495), or of one whose step was cut off (06
R148)? -/
def Pitch.meetsArea (x : Pitch) (p : PitchId) (a n : Nat) : Bool :=
  let l := x.layout p
  (x.mode = .running || x.mode = .stopping || x.time.cut) && a < l.areaBase + l.area && l.areaBase < a + n

/-- A register window access from port h to pitch p is answered (R360, R54). -/
def State.windowOpen (s : State) (h : HostPort) (p : PitchId) : Bool :=
  !s.glob.engineReady || !(s.pitch p).isBound || (s.pitch p).boundTo h

/-! ## Camp-plan slots (01 R23 to R25; 19 R420) -/

/-- Resources in capability-record order: 0 slice slot, 1 to 8 Erg banks, 9 to 14 stacks, 15 to 31 network ports. -/
def resErg (b : Nat) : Nat := 1 + b
def resStack (m : Nat) : Nat := 9 + m
def resPort (n : Nat) : Nat := 15 + n

/-- Own slots of resource r now in effect. -/
def Pitch.slots (x : Pitch) (r : Nat) : W64 := x.planEff.toList.getD r 0

/-- Length in slots of the run of owned slots from slot k on, within one plan period (R25: slot 0 is never owned). -/
def runFrom (m : W64) : Nat → Nat → Nat
  | 0, _ => 0
  | f + 1, k => if k < 64 && m.getLsbD k then 1 + runFrom m f (k + 1) else 0

/-- The longest run of owned slots. -/
def longestRun (m : W64) : Nat := maxOf ((List.range 64).map (runFrom m 64))

/-- The first CCLK at or after c at which a frame of n CCLK may begin in owned slots of mask m (R25); none: no run is long enough. -/
def nextStart (m : W64) (c n : Nat) : Option Nat :=
  let base := c / planLen * planLen
  let tryAt := fun (t : Nat) =>
    let k := t % planLen / slotLen
    m.getLsbD k && t % planLen + n ≤ slotLen * (k + runFrom m 64 k)
  let cands := c :: ((List.range 128).map (fun k => base + slotLen * k)).filter (fun t => c < t)
  cands.find? tryAt

/-- The next CCLK of an engine slot at or after c (01 R24). -/
def engineSlot (c : Nat) : Nat := if c % planLen < slotLen then c else roundUp c planLen

/-- The pitch holds a slot of some stack, so that its reads, writes and adds of HBM are issued (01 R24). No rule says which
stack holds an address, so any one will do (notes/assumptions 97). -/
def Pitch.hasMemory (x : Pitch) : Bool := (List.range 6).any (fun m => x.slots (resStack m) ≠ 0#64)

/-- The pitch holds slots of the Erg bank of each of these logical registers (01 R24; 05 R108). -/
def Pitch.hasBanks (x : Pitch) (p : PitchId) (regs : List Nat) : Bool :=
  regs.all (fun k => x.slots (resErg (x.erg p k % 8)) ≠ 0#64)

/-- The next queue index that the engine as a whole gives queue q of pitch p (01 R22). -/
def globalQueue (p : PitchId) (q : Nat) : Nat := p.val * 1280 + q

/-- Engine-internal queues, and their memory, which no pitch reaches (01 R22; 17 R361). -/
def internalQueue (g : Nat) : Bool := 15360 ≤ g && g < 16384
def internalQueueRange : Nat × Nat := (0x04000000, queueSize)

/-! ## Slices (01 R18; 08 R192 to R194) -/

/-- The active slices in order: cluster and physical slice. -/
def State.activeList (s : State) : List (Nat × Nat) :=
  (s.clusters.toList.zipIdx.flatMap (fun c => c.1.map.filterMap (fun t => t.map (fun k => (c.2, k))))).take s.activeSlices

/-- The slice that tile or block number t goes to. -/
def State.tileSlice (s : State) (t : Nat) : Option (Nat × Nat) := s.activeList[t % max 1 s.activeSlices]?

/-- The slice of a tile or block may take work. -/
def State.sliceWorks (s : State) (t : Nat) : Bool :=
  match s.tileSlice t with
  | some (c, k) => k ∉ (s.clusters.toList.getD c {}).broken
  | none => false

/-- Count a failed check for the engine (23 R489, R491). -/
def State.countCatch (s : State) (residue : Bool) : State :=
  let h := s.health
  { s with health := { h with
      residues := if residue then h.residues + 1 else h.residues
      checksums := if residue then h.checksums else h.checksums + 1
      hour := { h.hour with catches := h.hour.catches + 1 } } }

/-- A slice leaves work until UNIT_REPAIR (R194). -/
def State.breakSlice (s : State) (c k : Nat) : State :=
  { s with clusters := Vector.ofFn (fun (i : Fin 8) =>
      if i.val = c then { s.clusters[i] with broken := addNew k s.clusters[i].broken } else s.clusters[i]) }

/-- The slice of tile or block t leaves work. -/
def State.breakUnit (s : State) (t : Nat) : State :=
  match s.tileSlice t with
  | some (c, k) => s.breakSlice c k
  | none => s

/-- Erg banks refused n tail adds or spills; sent again, they were accepted (R192, R193). -/
def State.refusedAdds (s : State) (p : PitchId) (n : Nat) : State :=
  (List.range n).foldl (fun s _ => s.countCatch true) (s.count p .residueFail n)

/-- Work on block j of a bucket in its slice, with the outcome of the block's checks. A failed block has no effect and is
replayed with the same bits; where the replay fails too, the slice leaves work (R193, R194). -/
def State.checkedBlock (s : State) (p : PitchId) (j : Nat) (check : BlockCheck) (work : State → State) : State :=
  if !s.sliceWorks j then s
  else match check with
    | .pass => work s
    | .residue => (((work s).count p .residueFail).count p .tileReplays).countCatch true
    | .refused n => (work s).refusedAdds p n
    | .replayFails => ((((s.count p .residueFail 2).count p .tileReplays).countCatch true).countCatch true).breakUnit j

/-! ## The collective tree (10 R222) -/

/-- Trailing zero hexadecimal digits of a rank; 4 for 0. -/
def tzHex (k : Nat) : Nat := if k = 0 then 4 else if k % 16 ≠ 0 then 0 else if k % 256 ≠ 0 then 1 else if k % 4096 ≠ 0 then 2 else 3

/-- The parent of a rank above 0. -/
def treeParent (k : Nat) : Nat := k - k % 16 ^ (tzHex k + 1)

/-- The children of rank k in ascending order, below n. -/
def treeChildren (n k : Nat) : List Nat :=
  ((List.range (tzHex k)).flatMap (fun j => (List.range 15).map (fun d => k + (d + 1) * 16 ^ j))).filter (fun c => c < n)

/-- Ranks of the subtree of rank k. -/
def subtreeEnd (n k : Nat) : Nat := min n (k + 16 ^ tzHex k)

/-- Own rank, N and the step's low half. A pitch in no group is rank 0 of a group of one. -/
def Pitch.rank (x : Pitch) : Nat := if x.member.record.role = 0 then 0 else x.member.record.rank.toNat
def Pitch.size (x : Pitch) : Nat := if x.member.record.role = 0 then 1 else x.member.record.n
def Pitch.stepLo (x : Pitch) : W16 := x.time.step.setWidth 16
def Pitch.children (x : Pitch) : List Nat := treeChildren x.size x.rank

/-! ## Blocks and owners (10 R224, R230) -/

/-- Blocks of the buckets before b. -/
def Pitch.bstart (x : Pitch) (b : Nat) : Nat := sumOf ((x.eff.buckets.take b).map bBlocks)
/-- Global number of block j of bucket b. -/
def Pitch.globalBlock (x : Pitch) (b j : Nat) : Nat := x.bstart b + j
/-- Its owner. -/
def Pitch.owner (x : Pitch) (b j : Nat) : Nat := x.globalBlock b j % max 1 x.size
/-- This member owns the block. -/
def Pitch.owns (x : Pitch) (b j : Nat) : Bool := x.owner b j = x.rank
/-- Shard slot of a block at its owner (14 R315). -/
def Pitch.shard (x : Pitch) (b j : Nat) : Nat := x.globalBlock b j / max 1 x.size
/-- Address of its completion record. -/
def Pitch.crecAddr (x : Pitch) (p : PitchId) (b j : Nat) : Nat := (x.layout p).start + 16 * x.shard b j

/-- Read a completion record (10 R230). -/
def State.crec (s : State) (p : PitchId) (b j : Nat) : CRec :=
  let v := s.readLe ((s.pitch p).crecAddr p b j) 16
  ⟨bitsOf v 31 0, bitsOf v 63 32, bitsOf v 71 64, bitsOf v 79 72⟩
/-- Write one. -/
def State.setCrec (s : State) (p : PitchId) (b j : Nat) (c : CRec) : State :=
  s.write ((s.pitch p).crecAddr p b j)
    (leBytes 4 c.count ++ leBytes 4 c.qmax ++ leBytes 1 c.attempt ++ leBytes 1 c.scale ++ List.replicate 6 0)

/-! ## Layers (14 R309) -/

/-- The layer that holds a logical element index, with its number. -/
def Pitch.layerOf (x : Pitch) (idx : Nat) : Option (Nat × LayerRec) :=
  (x.layers.zipIdx.find? (fun e => e.1.first ≤ idx && idx < e.1.first + e.1.count)).map (fun e => (e.2, e.1))

/-- Logical Erg register of norm `bit` (0 IN, 1 GRAD, 2 WEIGHT, 3 UPDATE) of a layer, where it is enabled. -/
def LayerRec.normErg (l : LayerRec) (b : Nat) : Option Nat :=
  if l.norms.getLsbD b then some (l.normReg + popcount b l.norms.toNat) else none

/-- Row length of the layer of an element (06, 07 R160, 05 R121). -/
def Pitch.rowLen (x : Pitch) (idx : Nat) : Nat := match x.layerOf idx with | some (_, l) => max 1 l.rowLen | none => 1

/-! ## Buckets and their parts (03 R75) -/

/-- The bucket and the block of it that block j of a run is. -/
def partBlock (x : Pitch) : List Nat → Nat → Nat × Nat
  | [], j => (0, j)
  | [b], j => (b, j)
  | b :: bs, j => let n := bBlocks (x.bucketD b); if j < n then (b, j) else partBlock x bs (j - n)

/-- Bucket and block of block j of a run. -/
def BucketRun.part (r : BucketRun) (x : Pitch) (j : Nat) : Nat × Nat := partBlock x r.parts j
/-- The record its first part gives: parameters that fused parts share. -/
def BucketRun.head (r : BucketRun) (x : Pitch) : BitVec 1024 := x.bucketD r.bucket
/-- Blocks of a run. -/
def BucketRun.blocks (r : BucketRun) (x : Pitch) : Nat := sumOf (r.parts.map (fun b => bBlocks (x.bucketD b)))
/-- Elements of a run. -/
def BucketRun.elements (r : BucketRun) (x : Pitch) : Nat := sumOf (r.parts.map (fun b => bElements (x.bucketD b)))

/-- The first block of a run that is block 0 of part b. -/
def partFirst (x : Pitch) (b : Nat) : List Nat → Nat
  | [] => 0
  | c :: cs => if c = b then 0 else bBlocks (x.bucketD c) + partFirst x b cs

/-- The run that holds bucket b, and the first of its blocks that belongs to b. -/
def Pitch.runOf (x : Pitch) (b : Nat) : Option BucketRun := x.runs.find? (fun r => b ∈ r.parts)
def BucketRun.offset (r : BucketRun) (x : Pitch) (b : Nat) : Nat := partFirst x b r.parts

/-- Replace a run. -/
def Pitch.setRun (x : Pitch) (r : BucketRun) : Pitch := { x with runs := replaceFirst (fun q => q.bucket = r.bucket) (fun _ => r) x.runs }

end Sys2Proof.Machine
end

