-- ==== Sys2Proof/Machine/Checkpoint.lean ====
section
/-! DEFINITION. Delta images as bytes (15 R318, R319), the weight shard (14 R315), the guard state record (14 R308, R313), and the
writing of a checkpoint (15 R324, R325). -/

namespace Sys2Proof.Machine

/-! ## The weight shard and the size of an image (14 R315; R319) -/

/-- Buckets with UPDATE 1. -/
def updBuckets (bs : List (BitVec 1024)) : List (BitVec 1024) := bs.filter bUpdate
/-- BLOCK of the buckets with UPDATE 1. -/
def updBlock (bs : List (BitVec 1024)) : Nat := match updBuckets bs with | r :: _ => bBlock r | [] => 0

/-- One more than the highest shard slot that the blocks of buckets with UPDATE 1 take in a group of n (14 R315). -/
def shardSlots (bs : List (BitVec 1024)) (n : Nat) : Nat :=
  (bs.foldl (fun (a : Nat × Nat) r =>
    let stop := a.1 + bBlocks r
    (stop, if bUpdate r then max a.2 ((stop - 1) / max 1 n + 1) else a.2)) (0, 0)).2

/-- Elements of the weight shard in a group of n. -/
def shardElems (bs : List (BitVec 1024)) (n : Nat) : Nat := shardSlots bs n * updBlock bs

/-- Blocks and full size of a delta image of e weights (15 R319). -/
def imgBlocks (e : Nat) : Nat := divUp e 2048
def imgSlotOffset (e : Nat) : Nat := 4096 * divUp (64 + 16 * imgBlocks e) 4096
def imgBytes (e : Nat) : Nat := imgSlotOffset e + 4096 * imgBlocks e

/-! ## Deltas and images (R318, R319) -/

def ordOf (x : Nat) : Nat := if 0x8000 ≤ x then 0xFFFF - x else x + 0x8000
def unordOf (o : Nat) : Nat := if 0x8000 ≤ o then o - 0x8000 else 0xFFFF - o
/-- δ of weight S against base B, as 16 bits. -/
def deltaOf (w b : Nat) : Nat := (ordOf w + 65536 - ordOf b) % 65536
/-- The weight that δ gives against base B. -/
def undelta (b d : Nat) : Nat := unordOf ((ordOf b + d) % 65536)

/-- 16-bit words of bytes. -/
def words16 (bs : Bytes) : List Nat := (chunks 2 bs).map leNat

/-- An image header. -/
def imgHeader (fmt elems baseId step : Nat) : Bytes :=
  let h := [0x44, 0x49, 0x4D, 0x47, 1, BitVec.ofNat 8 fmt, 0, 0] ++ leBytes 8 elems ++ leBytes 4 (imgBlocks elems) ++ [0, 0, 0, 0]
    ++ leBytes 8 baseId ++ leBytes 8 step ++ List.replicate 20 0
  h ++ leBytes 4 (crc32c h)

/-- The tests of an image header. -/
def imgHeaderOk (fmt : Nat) (h : Bytes) : Bool :=
  h.take 4 = [0x44, 0x49, 0x4D, 0x47] && leAt h 4 1 = 1 && leAt h 5 1 = fmt && leAt h 16 4 = imgBlocks (leAt h 8 8)
    && leAt h 6 2 = 0 && leAt h 20 4 = 0 && leAt h 40 20 = 0 && leAt h 60 4 = crc32c (h.take 60)

/-- Elements of a block of an image. -/
def imgBlockElems (elems k : Nat) : Nat := min 2048 (elems - 2048 * k)

/-- Encode block k from the weights and base words of the block: slot bytes and entry. -/
def encodeBlock (fmt k : Nat) (ws bs : List Nat) : Bytes × DirEntry :=
  let ds := List.zipWith deltaOf ws bs
  encodeDelta fmt k (ds ++ List.replicate (2048 - ds.length) 0)

/-- Count a block by its form (R331). -/
def Pitch.countDelta (x : Pitch) (e : DirEntry) : Pitch := x.count (if e.zero then .deltaZero else if e.raw then .deltaRaw else .deltaCoded)

/-- A whole image: header, directory and every slot, padded with zeros (notes/assumptions 37). -/
def makeImage (fmt elems baseId step : Nat) (ws bs : List Nat) : Bytes × List DirEntry :=
  let blocks := (List.range (imgBlocks elems)).map (fun k =>
    let n := imgBlockElems elems k
    encodeBlock fmt k (cut ws (2048 * k) n) (cut bs (2048 * k) n))
  let dir := blocks.flatMap (fun b => b.2.bytes)
  (padTo (imgSlotOffset elems) (imgHeader fmt elems baseId step ++ dir) ++ blocks.flatMap (fun b => padTo 4096 b.1), blocks.map Prod.snd)

/-! ## The guard state record (14 R308, R313) -/

/-- LS_EXP and CLEAN after a step with the verdict in force; and the counter that moves. -/
def Pitch.lossScaleNext (x : Pitch) (p : PitchId) : Int × W32 × Option PCtr :=
  let g := x.guard
  let v := g.verdict.getD 0
  if x.cfg p 0x101 ≠ 1 then (g.lsExp, g.clean, none)
  else if v = 1 then if g.lsExp ≤ -24 then (g.lsExp, 0, some .lsFloor) else (g.lsExp - 1, 0, some .lsHalvings)
  else if v = 0 then
    if x.cfg p 0x102 ≤ (g.clean + 1).toNat then (if 24 ≤ g.lsExp then (g.lsExp, 0, none) else (g.lsExp + 1, 0, some .lsDoublings))
    else (g.lsExp, g.clean + 1, none)
  else (g.lsExp, g.clean, none)

/-- The record (R313). -/
def guardRecord (g : Guard) (ls : Int) (clean : W32) : Bytes :=
  leBytes 4 g.normEma.toNat ++ leBytes 4 g.normCount.toNat ++ leBytes 4 g.lossEma.toNat ++ leBytes 4 g.lossCount.toNat
    ++ leBytes 4 clean.toNat ++ leBytes 1 (toTwos 8 ls) ++ List.replicate 43 0

/-- The record as the step now ending leaves it, or as it stands between steps. -/
def Pitch.guardBytes (x : Pitch) (p : PitchId) : Bytes :=
  if x.time.boundary then guardRecord x.guard x.guard.lsExp x.guard.clean
  else let (ls, clean, _) := x.lossScaleNext p; guardRecord x.guard ls clean

/-- Restore the record. -/
def Guard.ofRecord (g : Guard) (r : Bytes) : Guard :=
  { g with
    normEma := BitVec.ofNat 32 (leAt r 0 4)
    normCount := BitVec.ofNat 32 (leAt r 4 4)
    lossEma := BitVec.ofNat 32 (leAt r 8 4)
    lossCount := BitVec.ofNat 32 (leAt r 12 4)
    clean := BitVec.ofNat 32 (leAt r 16 4)
    lsExp := ofTwos 8 (leAt r 20 1) }

/-! ## Checkpoints (R324, R325) -/

def Pitch.ckptBase (x : Pitch) (p : PitchId) : Nat := x.cfg p 0x15
/-- Address of slot k. -/
def Pitch.ckptSlot (x : Pitch) (p : PitchId) (k : Nat) : Nat := x.ckptBase p + k * x.cfg p 0x16

/-- A slot header's CRC and MAGIC hold and it is complete. -/
def State.slotComplete (s : State) (a : Nat) : Bool :=
  let h := s.read a 256
  h.take 5 = [0x43, 0x4B, 0x50, 0x54, 1] && leAt h 5 1 = 2 && leAt h 252 4 = crc32c (h.take 252)
/-- CK_SEQ of a complete slot; 0 for another. -/
def State.slotSeq (s : State) (a : Nat) : Nat := if s.slotComplete a then s.readLe (a + 40) 8 else 0

/-- The slot to write: not the one with the highest complete CK_SEQ. -/
def State.targetSlot (s : State) (p : PitchId) : Nat :=
  let x := s.pitch p
  let a := s.slotComplete (x.ckptSlot p 0)
  let b := s.slotComplete (x.ckptSlot p 1)
  if !a && !b then 0 else if a && (!b || s.slotSeq (x.ckptSlot p 1) ≤ s.slotSeq (x.ckptSlot p 0)) then 1 else 0

/-- Blocks of bucket b that this rank owns, ascending. -/
def Pitch.ownedBlocks (x : Pitch) (b : Nat) : List Nat := (List.range (bBlocks (x.bucketD b))).filter (fun k => x.owns b k)

/-- Where the owner residuals of block k of a record lie: address and bytes. -/
def oresBlock (r : BitVec 1024) (k : Nat) : Nat × Nat :=
  let n := bBlock r * resSize (bResFmt r)
  (bOresBase r + k * n, n)

/-- The weight shard: elements, address, and address of its optimiser state. -/
def Pitch.shardOf (x : Pitch) (p : PitchId) : Nat × Nat × Nat := (shardElems x.eff.buckets x.size, x.cfg p 0x10F, x.cfg p 0x110)

/-- A section: TYPE, FLAGS, BUCKET, data. -/
def sectionOf (type flags bucket : Nat) (d : Bytes) : Bytes :=
  leBytes 1 type ++ leBytes 1 flags ++ [0, 0] ++ leBytes 4 bucket ++ leBytes 8 d.length ++ leBytes 4 (crc32c d) ++ List.replicate 12 0
    ++ padTo (roundUp d.length 64) d

/-- The delta image of the shard against CKPT_WBASE. -/
def State.shardImage (s : State) (base step n wbase : Nat) : Bytes × List DirEntry :=
  makeImage 1 n base step (words16 (s.read wbase (2 * n))) (if base = 0 then List.replicate n 0 else words16 (s.read base (2 * n)))

/-- The sections of a checkpoint, and the entries of its image. -/
def State.ckptSections (s : State) (p : PitchId) (step : Nat) : List Bytes × List DirEntry :=
  let x := s.pitch p
  let bs := x.eff.buckets.zipIdx
  let res := bs.map (fun e => sectionOf 1 0 e.2 (s.read (bResBase e.1) (bElements e.1 * resSize (bResFmt e.1))))
  let own := (bs.filter (fun e => bSelect e.1 ≠ selLowrank)).map (fun e =>
    sectionOf 2 0 e.2 ((x.ownedBlocks e.2).flatMap (fun k => let r := oresBlock e.1 k; s.read r.1 r.2)))
  let qs := (bs.filter (fun e => bSelect e.1 = selLowrank)).map (fun e =>
    sectionOf 3 (bit (e.2 ∈ x.qValid)) e.2 (s.read (bLrQBase e.1) (4 * bLrQWords e.1)))
  if (updBuckets x.eff.buckets).isEmpty then (res ++ own ++ qs, [])
  else
    let (n, w, o) := x.shardOf p
    let (img, es) := s.shardImage (x.cfg p 0x17) step n w
    (res ++ own ++ qs ++ [sectionOf 4 0 0 img, sectionOf 5 0 0 (s.read o (8 * n))], es)

/-- A slot header. -/
def Pitch.ckptHeader (x : Pitch) (p : PitchId) (ckStep ckSeq content count : Nat) : Bytes :=
  let h := [0x43, 0x4B, 0x50, 0x54, 1, 2] ++ leBytes 2 x.rank ++ leBytes 8 ckStep ++ leBytes 16 x.rsig.toNat
    ++ leBytes 4 x.member.record.epoch.toNat ++ leBytes 2 x.member.record.group.toNat ++ [0, 0] ++ leBytes 8 ckSeq
    ++ x.guardBytes p ++ leBytes 8 content ++ leBytes 4 count ++ List.replicate 128 0
  h ++ leBytes 4 (crc32c h)

/-- Steps 1 and 2 of R325: the target slot takes STATE 1 and its HDR_CRC; its other header bytes stay. -/
def State.ckptBegin (s : State) (p : PitchId) : State :=
  let x := s.pitch p
  let k := s.targetSlot p
  let a := x.ckptSlot p k
  let h := let b := s.read a 252; b.take 5 ++ [1] ++ b.drop 6
  (s.write a (h ++ leBytes 4 (crc32c h))).setPitch p { x with time := { x.time with ckptSlot := some k } }

/-- Steps 3 and 4 of R325: the sections, then the full header with STATE 2; CK_STEP = STEP + 1. -/
def State.ckptFinish (s : State) (p : PitchId) (k : Nat) : State :=
  let x := s.pitch p
  let a := x.ckptSlot p k
  let (secs, es) := s.ckptSections p x.time.step.toNat
  let body := secs.flatten
  let seq := x.ckSeq + 1
  let s := s.write (a + 256) body
  let s := s.write a (x.ckptHeader p (x.time.step + 1).toNat seq body.length secs.length)
  let y := es.foldl Pitch.countDelta (x.count .ckptMarks)
  (s.setPitch p { y with ckSeq := seq, time := { y.time with ckptSlot := none } }).modRetained p (fun r => { r with ckSeq := seq })

/-- RESULT of checkpoint.mark. -/
def Pitch.ckptResult (x : Pitch) (seq : Nat) : Bytes := leBytes 8 (x.time.step + 1).toNat ++ leBytes 8 seq

/-- A checkpoint that a command waits for completes: at CHECKPOINT_WRITE, or before a STEP_SET starts a step, which would take the pitch's
state from the step boundary (R326; notes/assumptions 103). -/
def State.ckptOwed (s : State) (p : PitchId) : State :=
  let x := s.pitch p
  match x.time.ckptSlot with
  | some k =>
    if x.mail.owed.any (fun o => o.why = .ckptNow) then
      ((s.ckptFinish p k).answerOwed p .ckptNow ⟨stOk, 0⟩ (x.ckptResult (x.ckSeq + 1))).retain p
    else s
  | none => s

end Sys2Proof.Machine
end

