-- ==== Sys2Proof/Machine/Crypto.lean ====
section
/-! DEFINITION. The standard algorithms the spec names: SHA-384, HMAC and HKDF (RFC 5869), AES-256-GCM (NIST SP 800-38D) and
ECDH and ECDSA on P-384 (00 Standards referenced; 12 R285 to R288; 18 R388; 21 R447). Their constants are those of the standards. -/

namespace Sys2Proof.Machine

/-! ## SHA-384 -/

/-- Round constants of SHA-512 (FIPS 180-4). -/
def shaK : List (BitVec 64) :=
  [0x428a2f98d728ae22, 0x7137449123ef65cd, 0xb5c0fbcfec4d3b2f, 0xe9b5dba58189dbbc, 0x3956c25bf348b538, 0x59f111f1b605d019, 0x923f82a4af194f9b, 0xab1c5ed5da6d8118, 0xd807aa98a3030242, 0x12835b0145706fbe]
   ++ [0x243185be4ee4b28c, 0x550c7dc3d5ffb4e2, 0x72be5d74f27b896f, 0x80deb1fe3b1696b1, 0x9bdc06a725c71235, 0xc19bf174cf692694, 0xe49b69c19ef14ad2, 0xefbe4786384f25e3, 0xfc19dc68b8cd5b5, 0x240ca1cc77ac9c65]
   ++ [0x2de92c6f592b0275, 0x4a7484aa6ea6e483, 0x5cb0a9dcbd41fbd4, 0x76f988da831153b5, 0x983e5152ee66dfab, 0xa831c66d2db43210, 0xb00327c898fb213f, 0xbf597fc7beef0ee4, 0xc6e00bf33da88fc2, 0xd5a79147930aa725]
   ++ [0x6ca6351e003826f, 0x142929670a0e6e70, 0x27b70a8546d22ffc, 0x2e1b21385c26c926, 0x4d2c6dfc5ac42aed, 0x53380d139d95b3df, 0x650a73548baf63de, 0x766a0abb3c77b2a8, 0x81c2c92e47edaee6, 0x92722c851482353b]
   ++ [0xa2bfe8a14cf10364, 0xa81a664bbc423001, 0xc24b8b70d0f89791, 0xc76c51a30654be30, 0xd192e819d6ef5218, 0xd69906245565a910, 0xf40e35855771202a, 0x106aa07032bbd1b8, 0x19a4c116b8d2d0c8, 0x1e376c085141ab53]
   ++ [0x2748774cdf8eeb99, 0x34b0bcb5e19b48a8, 0x391c0cb3c5c95a63, 0x4ed8aa4ae3418acb, 0x5b9cca4f7763e373, 0x682e6ff3d6b2b8a3, 0x748f82ee5defb2fc, 0x78a5636f43172f60, 0x84c87814a1f0ab72, 0x8cc702081a6439ec]
   ++ [0x90befffa23631e28, 0xa4506cebde82bde9, 0xbef9a3f7b2c67915, 0xc67178f2e372532b, 0xca273eceea26619c, 0xd186b8c721c0c207, 0xeada7dd6cde0eb1e, 0xf57d4f7fee6ed178, 0x6f067aa72176fba, 0xa637dc5a2c898a6]
   ++ [0x113f9804bef90dae, 0x1b710b35131c471b, 0x28db77f523047d84, 0x32caab7b40c72493, 0x3c9ebe0a15c9bebc, 0x431d67c49c100d4c, 0x4cc5d4becb3e42b6, 0x597f299cfc657e2a, 0x5fcb6fab3ad6faec, 0x6c44198c4a475817]

/-- Initial hash value of SHA-384. -/
def shaInit : List (BitVec 64) :=
  [0xcbbb9d5dc1059ed8, 0x629a292a367cd507, 0x9159015a3070dd17, 0x152fecd8f70e5939, 0x67332667ffc00b31, 0x8eb44a8768581511, 0xdb0c2e0d64f98fa7, 0x47b5481dbefa4fa4]

/-- Sigma functions of the message schedule. -/
def shaS0 (x : BitVec 64) : BitVec 64 := x.rotateRight 1 ^^^ x.rotateRight 8 ^^^ (x >>> 7)
def shaS1 (x : BitVec 64) : BitVec 64 := x.rotateRight 19 ^^^ x.rotateRight 61 ^^^ (x >>> 6)

/-- The message schedule, newest word first, extended by n words. -/
def shaExpand : Nat → List (BitVec 64) → List (BitVec 64)
  | 0, w => w
  | n + 1, w => shaExpand n ((shaS1 (w.getD 1 0) + w.getD 6 0 + shaS0 (w.getD 14 0) + w.getD 15 0) :: w)

/-- One round on the eight working variables. -/
def shaRound (v : List (BitVec 64)) (kw : BitVec 64) : List (BitVec 64) :=
  match v with
  | [a, b, c, d, e, f, g, h] =>
    let t1 := h + (e.rotateRight 14 ^^^ e.rotateRight 18 ^^^ e.rotateRight 41) + ((e &&& f) ^^^ (~~~e &&& g)) + kw
    let t2 := (a.rotateRight 28 ^^^ a.rotateRight 34 ^^^ a.rotateRight 39) + ((a &&& b) ^^^ (a &&& c) ^^^ (b &&& c))
    [t1 + t2, a, b, c, d + t1, e, f, g]
  | v => v

/-- Process one 128-byte block. -/
def shaBlock (h : List (BitVec 64)) (block : Bytes) : List (BitVec 64) :=
  let w := (shaExpand 64 (((chunks 8 block).map (fun c => BitVec.ofNat 64 (beNat c))).reverse)).reverse
  List.zipWith (· + ·) h ((List.zipWith (· + ·) shaK w).foldl shaRound h)

/-- SHA-384 of a byte string: 48 bytes. -/
def sha384 (m : Bytes) : Bytes :=
  let zeros := (111 + 128 - m.length % 128) % 128
  let padded := m ++ [0x80] ++ List.replicate zeros 0 ++ beBytes 16 (8 * m.length)
  (((chunks 128 padded).foldl shaBlock shaInit).take 6).flatMap (fun x => beBytes 8 x.toNat)

/-- HMAC-SHA-384. -/
def hmac384 (key msg : Bytes) : Bytes :=
  let k := padTo 128 (if 128 < key.length then sha384 key else key)
  sha384 (k.map (· ^^^ 0x5c) ++ sha384 (k.map (· ^^^ 0x36) ++ msg))

/-- HKDF-SHA-384 with an empty salt, for at most 48 bytes of output (RFC 5869). -/
def hkdf384 (ikm info : Bytes) (len : Nat) : Bytes :=
  let prk := hmac384 (List.replicate 48 0) ikm
  (hmac384 prk (info ++ [1])).take len

/-! ## AES-256 -/

/-- The S-box, entry x in byte x. -/
def aesBox : Nat :=
  0x16bb54b00f2d99416842e6bf0d89a18cdf2855cee9871e9b948ed9691198f8e19e1dc186b95735610ef6034866b53e708a8bbd4b1f74dde8c6b4a61c2e2578ba08ae7a65eaf4566ca94ed58d6d37c8e779e4959162acd3c25c2406490a3a32e0db0b5ede14b8ee4688902a22dc4f816073195d643d7ea7c41744975fec130ccdd2f3ff1021dab6bcf5389d928f40a351a89f3c507f02f94585334d43fbaaefd0cf584c4a39becb6a5bb1fc20ed00d153842fe329b3d63b52a05a6e1b1a2c830975b227ebe28012079a059618c323c7041531d871f1e5a534ccf73f362693fdb7c072a49cafa2d4adf04759fa7dc982ca76abd7fe2b670130c56f6bf27b777c63

/-- S-box of one byte. -/
def aesSub (x : Nat) : Nat := (aesBox >>> (8 * x)) % 256

/-- Doubling in the AES field. -/
def aesTwice (x : Nat) : Nat := if 128 ≤ x then (2 * x) % 256 ^^^ 0x1b else 2 * x

/-- Extend the key schedule by n words (newest first), the next being word i. -/
def aesExpand : Nat → Nat → Nat → List (List Nat) → List (List Nat)
  | 0, _, _, ws => ws
  | n + 1, i, rcon, ws =>
    let t := ws.headD []
    let t' := if i % 8 = 0 then
        (match t with | [a, b, c, d] => [aesSub b ^^^ rcon, aesSub c, aesSub d, aesSub a] | t => t)
      else if i % 8 = 4 then t.map aesSub else t
    aesExpand n (i + 1) (if i % 8 = 0 then aesTwice rcon else rcon) (List.zipWith (· ^^^ ·) (ws.getD 7 []) t' :: ws)

/-- The 15 round keys of a 32-byte key, 16 bytes each. -/
def aesKeys (key : Bytes) : List (List Nat) :=
  let w0 := ((chunks 4 (key.map BitVec.toNat))).reverse
  (chunks 4 (aesExpand 52 8 1 w0).reverse).map List.flatten

/-- ShiftRows on 16 bytes, column by column. -/
def aesShift (s : List Nat) : List Nat := [0, 5, 10, 15, 4, 9, 14, 3, 8, 13, 2, 7, 12, 1, 6, 11].map (fun i => s.getD i 0)

/-- MixColumns. -/
def aesMix : List Nat → List Nat
  | a :: b :: c :: d :: r =>
    (aesTwice a ^^^ aesTwice b ^^^ b ^^^ c ^^^ d) :: (a ^^^ aesTwice b ^^^ aesTwice c ^^^ c ^^^ d)
      :: (a ^^^ b ^^^ aesTwice c ^^^ aesTwice d ^^^ d) :: (aesTwice a ^^^ a ^^^ b ^^^ c ^^^ aesTwice d) :: aesMix r
  | r => r

/-- The rounds after the first key addition. -/
def aesRounds : List (List Nat) → List Nat → List Nat
  | [], s => s
  | [k], s => List.zipWith (· ^^^ ·) (aesShift (s.map aesSub)) k
  | k :: ks, s => aesRounds ks (List.zipWith (· ^^^ ·) (aesMix (aesShift (s.map aesSub))) k)

/-- Encrypt one 16-byte block with the round keys. -/
def aesBlock (ks : List (List Nat)) (b : List Nat) : List Nat := aesRounds ks.tail (List.zipWith (· ^^^ ·) b (ks.headD []))

/-! ## GCM -/

/-- Product in GF(2^128) of GCM: bits of x from the most significant; v is y times a power of the generator. -/
def gcmMulGo : Nat → Nat → Nat → Nat → Nat
  | 0, _, _, z => z
  | n + 1, x, v, z =>
    gcmMulGo n x (if v % 2 = 1 then (v / 2) ^^^ (0xe1 <<< 120) else v / 2) (if x.testBit n then z ^^^ v else z)

/-- GHASH of a string of whole blocks. -/
def ghash (h : Nat) (bs : Bytes) : Nat :=
  (chunks 16 bs).foldl (fun y b => gcmMulGo 128 (y ^^^ beNat (padTo 16 b)) h 0) 0

/-- Pad a string with zeros to whole blocks. -/
def gcmPad (bs : Bytes) : Bytes := padTo (roundUp bs.length 16) bs

/-- The key stream of counter blocks IV, c for n blocks from c. -/
def gcmStream (ks : List (List Nat)) (iv : Bytes) : Nat → Nat → Bytes
  | 0, _ => []
  | n + 1, c =>
    (aesBlock ks ((iv ++ beBytes 4 c).map BitVec.toNat)).map (fun x => BitVec.ofNat 8 x) ++ gcmStream ks iv n (c + 1)

/-- Counter-mode encryption and decryption alike. -/
def gcmCrypt (key iv text : Bytes) : Bytes :=
  List.zipWith (· ^^^ ·) text (gcmStream (aesKeys key) iv (divUp text.length 16) 2)

/-- The tag of a ciphertext with its additional data. -/
def gcmTag (key iv aad cipher : Bytes) : Bytes :=
  let ks := aesKeys key
  let h := beNat ((aesBlock ks (List.replicate 16 0)).map (fun x => BitVec.ofNat 8 x))
  let s := ghash h (gcmPad aad ++ gcmPad cipher ++ beBytes 8 (8 * aad.length) ++ beBytes 8 (8 * cipher.length))
  List.zipWith (· ^^^ ·) (beBytes 16 s) (gcmStream ks iv 1 1)

/-- Seal: ciphertext and tag. -/
def gcmSeal (key iv aad plain : Bytes) : Bytes × Bytes :=
  let c := gcmCrypt key iv plain
  (c, gcmTag key iv aad c)

/-- Open: the plaintext where the tag verifies. -/
def gcmOpen (key iv aad cipher tag : Bytes) : Option Bytes :=
  if gcmTag key iv aad cipher = tag then some (gcmCrypt key iv cipher) else none

/-! ## P-384 -/

def p384p : Nat := 2 ^ 384 - 2 ^ 128 - 2 ^ 96 + 2 ^ 32 - 1
def p384n : Nat := 0xffffffffffffffffffffffffffffffffffffffffffffffffc7634d81f4372ddf581a0db248b0a77aecec196accc52973
def p384b : Nat := 0xb3312fa7e23ee7e4988e056be3f82d19181d9c6efe8141120314088f5013875ac656398d8a2ed19d2a85c8edd3ec2aef
def p384gx : Nat := 0xaa87ca22be8b05378eb1c71ef320ad746e1d3b628ba79b9859f741e082542a385502f25dbf55296c3a545e3872760ab7
def p384gy : Nat := 0x3617de4a96262c6f5d9e98bf9292dc29f8f41dbd289a147ce9da3113b5f0b8c00a60b1ce1d7e819d7a431d7c90ea0e5f

/-- A point in Jacobian coordinates; z = 0 is the point at infinity. -/
structure JPoint where
  x : Nat
  y : Nat
  z : Nat
  deriving DecidableEq, Repr

/-- Subtraction modulo p. -/
def fsub (a b : Nat) : Nat := (a + p384p - b % p384p) % p384p
/-- Product modulo p. -/
def fmul (a b : Nat) : Nat := a * b % p384p

/-- x^e mod m, one bit of e per unit of fuel from bit n − 1 down. -/
def powModGo (m x e : Nat) : Nat → Nat → Nat
  | 0, r => r
  | n + 1, r => powModGo m x e n (if e.testBit n then r * r % m * x % m else r * r % m)

/-- x^e mod m. -/
def powMod (m x e : Nat) : Nat := powModGo m x e (e.log2 + 1) 1

/-- Double a point (a = −3). -/
def jdouble (q : JPoint) : JPoint :=
  if q.z = 0 || q.y = 0 then ⟨1, 1, 0⟩
  else
    let delta := fmul q.z q.z
    let gamma := fmul q.y q.y
    let beta := fmul q.x gamma
    let alpha := 3 * fmul (fsub q.x delta) (q.x + delta) % p384p
    let x3 := fsub (fmul alpha alpha) (8 * beta)
    ⟨x3, fsub (fmul alpha (fsub (4 * beta) x3)) (8 * fmul gamma gamma), 2 * fmul q.y q.z % p384p⟩

/-- Add two points. -/
def jadd (a b : JPoint) : JPoint :=
  if a.z = 0 then b else if b.z = 0 then a
  else
    let z1 := fmul a.z a.z
    let z2 := fmul b.z b.z
    let u1 := fmul a.x z2
    let u2 := fmul b.x z1
    let s1 := fmul a.y (fmul b.z z2)
    let s2 := fmul b.y (fmul a.z z1)
    if u1 = u2 then (if s1 = s2 then jdouble a else ⟨1, 1, 0⟩)
    else
      let h := fsub u2 u1
      let r := fsub s2 s1
      let h2 := fmul h h
      let h3 := fmul h h2
      let v := fmul u1 h2
      let x3 := fsub (fsub (fmul r r) h3) (2 * v)
      ⟨x3, fsub (fmul r (fsub v x3)) (fmul s1 h3), fmul h (fmul a.z b.z)⟩

/-- k times a point, one bit per unit of fuel. -/
def jmulGo (q : JPoint) (k : Nat) : Nat → JPoint → JPoint
  | 0, r => r
  | n + 1, r => jmulGo q k n (if k.testBit n then jadd (jdouble r) q else jdouble r)

/-- k times a point. -/
def jmul (k : Nat) (q : JPoint) : JPoint := jmulGo q k 384 ⟨1, 1, 0⟩

/-- Affine coordinates; none at infinity. -/
def jaffine (q : JPoint) : Option (Nat × Nat) :=
  if q.z = 0 then none
  else
    let zi := powMod p384p q.z (p384p - 2)
    let z2 := fmul zi zi
    some (fmul q.x z2, fmul q.y (fmul z2 zi))

/-- On the curve, with both coordinates below p. -/
def onCurve (x y : Nat) : Bool := x < p384p && y < p384p && fmul y y = (fmul x (fmul x x) + 3 * (p384p - x) + p384b) % p384p

/-- The base point. -/
def p384g : JPoint := ⟨p384gx, p384gy, 1⟩

/-- Public key of a private scalar: x then y, 48 bytes each. -/
def publicKey (d : Nat) : Bytes :=
  match jaffine (jmul d p384g) with
  | some (x, y) => beBytes 48 x ++ beBytes 48 y
  | none => List.replicate 96 0

/-- ECDH: the 48-byte x-coordinate of d times a public key; none where the key is not on the curve (12 R288). -/
def ecdh (d : Nat) (pub : Bytes) : Option Bytes :=
  let x := beAt pub 0 48
  let y := beAt pub 48 48
  if onCurve x y then (jaffine (jmul d ⟨x, y, 1⟩)).map (fun q => beBytes 48 q.1) else none

/-- ECDSA over a SHA-384 digest: public key x ‖ y, signature r ‖ s, each 48 bytes most significant first. -/
def ecdsaVerify (pub digest sig : Bytes) : Bool :=
  let x := beAt pub 0 48
  let y := beAt pub 48 48
  let r := beAt sig 0 48
  let s := beAt sig 48 48
  if !onCurve x y || r = 0 || p384n ≤ r || s = 0 || p384n ≤ s then false
  else
    let w := powMod p384n s (p384n - 2)
    let e := beNat digest
    match jaffine (jadd (jmul (e * w % p384n) p384g) (jmul (r * w % p384n) ⟨x, y, 1⟩)) with
    | some (px, _) => px % p384n = r
    | none => false

end Sys2Proof.Machine
end

