-- ==== Sys2Proof/Machine/Frame.lean ====
section
/-! DEFINITION. CXT frames: parsing a received frame (11 R255 to R257; 12 R277 to R279, R284), building one (11 R251 to R254;
12 R278, R283), traffic keys (12 R285 to R287), and sizes and durations (03 R68, R73). -/

namespace Sys2Proof.Machine

/-! ## Opcodes and targets (11 R259; 10 R226) -/

def opWrite : Nat := 0x01
def opReadReq : Nat := 0x02
def opReadResp : Nat := 0x03
def opAdd32 : Nat := 0x04
def opAdd64 : Nat := 0x05
def opErg : Nat := 0x06
def opCas : Nat := 0x07
def opBarrier : Nat := 0x08
def opAck : Nat := 0x10
def opNack : Nat := 0x11
def opFence : Nat := 0x12
def opHeartbeat : Nat := 0x13

def tgAgreeUp : Nat := 0xFFFFFF01
def tgAgreeDown : Nat := 0xFFFFFF02
def tgRetry : Nat := 0xFFFFFF03
def tgFactorSum : Nat := 0xFFFFFF04
def tgNormUp : Nat := 0xFFFFFF05
def tgNormDown : Nat := 0xFFFFFF06
def tgScanUp : Nat := 0xFFFFFF07
def tgScanDown : Nat := 0xFFFFFF08
def tgMoeToken : Nat := 0xFFFFFF09
def tgMoeReturn : Nat := 0xFFFFFF0A
def tgOneSided : Nat := 0xFFFFFF0B

/-- What a frame is by its clear header. -/
inductive FrameKind
  | contrib | bcast | agreeUp | agreeDown | retry | factorSum | normUp | normDown | scanUp | scanDown | moeToken | moeReturn
  | osWrite | osAdd32 | osAdd64 | osErg | readReq | readResp | cas | barrier
  | ack | nack | fence | heartbeat | reservedOpcode | reservedTarget
  deriving DecidableEq, Repr

/-- The kind of a frame: TYPE, OPCODE and the block field of its target. -/
def frameKind (data : Bool) (op blk : Nat) : FrameKind :=
  if data then
    if op = opBarrier then .barrier
    else if op = 0 || opCas < op then .reservedOpcode
    else if blk ≤ 0xFFFFFEFF then
      if op = opAdd32 || op = opAdd64 then .contrib else if op = opWrite then .bcast else .reservedTarget
    else if op = opErg then (if blk = tgNormUp then .normUp else if blk = tgOneSided then .osErg else .reservedTarget)
    else if blk = tgOneSided then
      if op = opWrite then .osWrite else if op = opReadReq then .readReq else if op = opReadResp then .readResp
      else if op = opAdd32 then .osAdd32 else if op = opAdd64 then .osAdd64 else .cas
    else if op ≠ opWrite then .reservedTarget
    else if blk = tgAgreeUp then .agreeUp else if blk = tgAgreeDown then .agreeDown else if blk = tgRetry then .retry
    else if blk = tgFactorSum then .factorSum else if blk = tgNormDown then .normDown else if blk = tgScanUp then .scanUp
    else if blk = tgScanDown then .scanDown else if blk = tgMoeToken then .moeToken else if blk = tgMoeReturn then .moeReturn
    else .reservedTarget
  else if op = opAck then .ack else if op = opNack then .nack else if op = opFence then .fence
  else if op = opHeartbeat then .heartbeat else .reservedOpcode

/-- A frame's fields after parsing. -/
structure Frame where
  data    : Bool
  opcode  : Nat
  ackNow  : Bool
  epoch   : Nat
  group   : Nat
  src     : Nat
  dst     : Nat
  seq     : Nat
  bucket  : Nat
  block   : Nat
  offset  : Nat
  /-- CXT header with its extension headers: the authenticated data -/
  head    : Bytes
  cipher  : Bytes
  tag     : Bytes
  crc     : Nat
  deriving DecidableEq, Repr

def Frame.kind (f : Frame) : FrameKind := frameKind f.data f.opcode f.block

/-! ## Addresses (12 R279) -/

/-- The IPv6 address of rank k on physical port n, as 16 bytes. -/
def Pitch.v6 (x : Pitch) (p : PitchId) (k n : Nat) : Bytes :=
  beBytes 8 (x.cfg p 0x25) ++ beBytes 2 x.member.record.group.toNat ++ [0, 0] ++ beBytes 2 k ++ beBytes 2 n
/-- The IPv4 address of rank k on physical port n. -/
def Pitch.v4 (x : Pitch) (p : PitchId) (k n : Nat) : Bytes := beBytes 4 (x.cfg p 0x26 + k * 32 + n)

/-- Does a destination address name this pitch? It answers for its own rank's addresses on every port. -/
def Pitch.answers (x : Pitch) (p : PitchId) (v6 : Bool) (dst : Bytes) : Bool :=
  x.isBound && x.member.record.role = 1 && (x.cfg p 0x21 = 6) = v6
    && (List.range 17).any (fun n => dst = (if v6 then x.v6 p x.rank n else x.v4 p x.rank n))

/-! ## Checksums -/

/-- Fold a sum of 16-bit words into ones' complement. -/
def onesFold (n : Nat) : Nat := let a := n % 65536 + n / 65536; a % 65536 + a / 65536
/-- Sum of the big-endian 16-bit words of a string. -/
def sum16 (bs : Bytes) : Nat := sumOf ((chunks 2 bs).map (fun c => beNat (c ++ List.replicate (2 - c.length) 0)))
/-- The Internet checksum of a string. -/
def inetSum (bs : Bytes) : Nat := 0xFFFF - onesFold (onesFold (sum16 bs))

/-- The UDP checksum over its pseudo header, as sent: 0 is sent as all ones. -/
def udpSum (src dst udp : Bytes) : Nat :=
  let c := inetSum (src ++ dst ++ beBytes 4 udp.length ++ [0, 0, 0, 17] ++ udp)
  if c = 0 then 0xFFFF else c

/-! ## Parsing (R255 to R257, R277, R278) -/

/-- Exception reasons (11 R256). -/
def exDepth : Nat := 1
def exBytes : Nat := 2
def exNotCxt : Nat := 3
def exCrit : Nat := 4
def exVersion : Nat := 5
def exType : Nat := 6

/-- What the MAC and the parser make of a frame. -/
inductive Parsed
  /-- nothing arrives: the port is out of service, its link is down, or the engine is in D-RETAIN (22 R474) -/
  | dark
  | fcs | oversize | macControl | ptp | checksum
  | noPitch
  | exception (p : PitchId) (reason : Nat)
  | length (p : PitchId)
  | frame (p : PitchId) (f : Frame)
  deriving DecidableEq, Repr

/-- 802.1Q tags from offset `o` on: their number and the offset of the EtherType after them. -/
def tagsFrom (bs : Bytes) : Nat → Nat → Nat × Nat
  | 0, o => (0, o)
  | f + 1, o =>
    if beAt bs o 2 = 0x8100 || beAt bs o 2 = 0x88A8 then let r := tagsFrom bs f (o + 4); (r.1 + 1, r.2) else (0, o)

/-- 802.1Q tags after the addresses, more of them than are accepted too (12 R278). -/
def parseTags (bs : Bytes) : Nat × Nat := tagsFrom bs 64 12

/-- IPv6 extension headers from `off` on: their number, their bytes, the protocol that follows; none where one is a fragment,
is another header the engine does not skip, or there are more than two. -/
def parseExt (bs : Bytes) : Nat → Nat → Nat → Option (Nat × Nat × Nat)
  | 0, nh, _ => if nh = 0 || nh = 43 || nh = 60 || nh = 44 then none else some (0, 0, nh)
  | n + 1, nh, off =>
    if nh = 44 then none
    else if nh = 0 || nh = 43 || nh = 60 then
      let len := 8 + 8 * (bs.getD (off + 1) 0).toNat
      (parseExt bs n (bs.getD off 0).toNat (off + len)).map (fun r => (r.1 + 1, r.2.1 + len, r.2.2))
    else some (0, 0, nh)

/-- CXT extension headers (R254, R255): how many there are, whether an unknown one is critical, and whether every length holds. -/
structure CxtExt where
  count    : Nat
  critical : Bool
  ok       : Bool
  deriving DecidableEq, Repr

/-- The CXT extension headers in `hs`; one whose length is wrong is the last that is read. -/
def parseCxtExt : Nat → Bytes → CxtExt
  | 0, hs => ⟨0, false, hs.isEmpty⟩
  | f + 1, hs =>
    if hs.isEmpty then ⟨0, false, true⟩
    else
      let b := (hs.headD 0).toNat
      let len := 8 * (hs.getD 1 0).toNat
      let crit := bitOf b 7 && b % 128 ≠ 1
      if len = 0 || 64 < len || hs.length < len then ⟨1, crit, false⟩
      else
        let r := parseCxtExt f (hs.drop len)
        ⟨r.count + 1, crit || r.critical, r.ok⟩

/-- The payload rule of an opcode (R259, R257). -/
def payloadOk (data : Bool) (op blk len : Nat) : Bool :=
  if data then
    if op = opWrite then 1 ≤ len else if op = opReadReq then len = 8 else if op = opReadResp then 8 ≤ len
    else if op = opAdd32 then (blk ≤ 0xFFFFFEFF && 1 ≤ len) || (0xFFFFFEFF < blk && 0 < len && len % 4 = 0)
    else if op = opAdd64 then (blk ≤ 0xFFFFFEFF && 1 ≤ len) || (0xFFFFFEFF < blk && 0 < len && len % 8 = 0)
    else if op = opErg then 0 < len && len % 80 = 0 && len ≤ 4080
    else if op = opCas then len = 16 else if op = opBarrier then len = 16 else true
  else if op = opAck then len = 56 else if op = opNack then len = 16 else if op = opFence then len = 8
  else if op = opHeartbeat then len = 64 || len = 256 else true

/-- The IP layer of a frame: version 6, addresses, protocol, offset of its payload, layers, datagram end by its length field,
extension bytes; none where it is not an IP form the ports accept; an IPv4 checksum that fails is `false`. -/
structure IpPart where
  v6     : Bool
  src    : Bytes
  dst    : Bytes
  proto  : Nat
  body   : Nat
  layers : Nat
  stop   : Nat
  sumOk  : Bool
  /-- options, fragments or extension headers outside the accepted forms -/
  refused : Bool
  deriving DecidableEq, Repr

/-- Read the IP header at `off`. -/
def parseIp (bs : Bytes) (etype off : Nat) : Option IpPart :=
  let b0 := (bs.getD off 0).toNat
  if etype = 0x0800 && 20 ≤ bs.length - off && b0 / 16 = 4 then
    some ⟨false, cut bs (off + 12) 4, cut bs (off + 16) 4, (bs.getD (off + 9) 0).toNat, off + 20, 1, off + beAt bs (off + 2) 2,
      inetSum (cut bs off (4 * (b0 % 16))) = 0, b0 % 16 ≠ 5 || beAt bs (off + 6) 2 % 0x4000 ≠ 0⟩
  else if etype = 0x86DD && 40 ≤ bs.length - off && b0 / 16 = 6 then
    let base : IpPart := ⟨true, cut bs (off + 8) 16, cut bs (off + 24) 16, 0, off + 40, 1, off + 40 + beAt bs (off + 4) 2, true, true⟩
    match parseExt bs 2 (bs.getD (off + 6) 0).toNat (off + 40) with
    | some (n, len, proto) => some { base with proto := proto, body := off + 40 + len, layers := 1 + n, refused := false }
    | none => some base
  else none

/-- Parse a frame that passed its FCS; `bs` ends before the FCS. -/
def State.parseBody (s : State) (bs : Bytes) : Parsed :=
  let (tags, et) := parseTags bs
  let etype := beAt bs et 2
  if etype = 0x8808 then .macControl
  else if etype = 0x88F7 then .ptp
  else match parseIp bs etype (et + 2) with
    | none => .noPitch
    | some ip =>
      if !ip.sumOk then .checksum
      else
        let u := ip.body
        let port := beAt bs (u + 2) 2
        if ip.proto = 17 && !ip.refused && (port = 319 || port = 320)
          && leNat ip.dst.reverse = s.prov.ptpAddress.toNat then .ptp
        else match allPitches.find? (fun p => (s.pitch p).answers p ip.v6 ip.dst) with
          | none => .noPitch
          | some p =>
            let c := u + 8
            let b0 := (bs.getD c 0).toNat
            let hdr := 8 * (bs.getD (c + 3) 0).toNat
            let exts := parseCxtExt 256 (cut bs (c + 40) (hdr - 40))
            let layers := 1 + tags + ip.layers + 2 + exts.count
            if 2 < tags || ip.refused || ip.proto ≠ 17 || port ≠ (s.pitch p).cfg p 0x20 then .exception p exNotCxt
            else if bs.length < c + 40 then .length p
            else if b0 / 16 ≠ 1 then .exception p exVersion
            else if b0 % 16 ≠ 1 && b0 % 16 ≠ 2 then .exception p exType
            else if exts.critical then .exception p exCrit
            else if 8 < layers then .exception p exDepth
            else if 256 < c + hdr then .exception p exBytes
            else
              let pay := beAt bs (c + 16) 2
              let ulen := beAt bs (u + 4) 2
              let data := b0 % 16 = 1
              let op := (bs.getD (c + 1) 0).toNat
              let blk := beAt bs (c + 28) 4
              let extOk := 40 ≤ hdr && exts.ok && exts.count ≤ 2
              if !(extOk && ulen = 8 + hdr + pay + 20 && ip.stop = u + ulen && ip.stop ≤ bs.length
                && (bs.length = ip.stop || bs.length ≤ 60) && pay ≤ 4096 && payloadOk data op blk pay) then .length p
              else
                let udp := cut bs u ulen
                let zero := beAt udp 6 2 = 0
                let pseudo := ip.src ++ ip.dst ++ beBytes 4 ulen ++ [0, 0, 0, 17]
                if !zero && inetSum (pseudo ++ udp) ≠ 0 then .checksum
                else
                  let d := c + hdr
                  .frame p ⟨data, op, bitOf (beAt bs (c + 2) 1) 0, beAt bs (c + 4) 4, beAt bs (c + 8) 2, beAt bs (c + 12) 2,
                    beAt bs (c + 14) 2, beAt bs (c + 18) 6, beAt bs (c + 24) 4, blk, beAt bs (c + 32) 8,
                    cut bs c hdr, cut bs d pay, cut bs (d + pay) 16, leAt bs (d + pay + 16) 4⟩

/-- A port that carries no frame. -/
def State.portDark (s : State) (n : NetPort) : Bool :=
  let q := s.netPorts[n]
  !q.inService || q.failed || q.link = .down || s.power.device = 2

/-- Parse a frame as it arrives (R277, R284): FCS, size, then the rest. -/
def State.parse (s : State) (rx : Rx) : Parsed :=
  let body := rx.bytes.take (rx.bytes.length - 4)
  if s.portDark rx.port then .dark
  else if crc32 body ≠ leNat (rx.bytes.drop (rx.bytes.length - 4)) then .fcs
  else if 4376 < rx.bytes.length then .oversize
  else s.parseBody body

/-! ## Keys (12 R285 to R287) -/

/-- K(e, g) of secret S. -/
def trafficKey (sec : Secret) (group epoch : Nat) : Bytes :=
  hkdf384 sec.key ([0x43, 0x58, 0x54, 0x31] ++ beBytes 2 group ++ beBytes 4 epoch ++ [sec.gen]) 32

/-- The GCM IV of a frame. -/
def frameIv (src dst : Nat) (data : Bool) (seq : Nat) : Bytes :=
  beBytes 2 src ++ beBytes 2 dst ++ beBytes 2 (if data then 0 else 1) ++ beBytes 6 seq

/-- Open a frame under a key: its payload. -/
def Frame.openWith (f : Frame) (key : Bytes) : Option Bytes :=
  gcmOpen key (frameIv f.src f.dst f.data f.seq) f.head f.cipher f.tag

/-- The frame's CRC-32C holds (R283 step 4). -/
def Frame.crcOk (f : Frame) : Bool := crc32c (f.cipher ++ f.tag) = f.crc

/-! ## Building (R251 to R254, R278, R283) -/

/-- What the CXT header of an outgoing frame says. -/
structure OutHead where
  data   : Bool
  opcode : Nat
  ackNow : Bool
  pathId : Nat
  dst    : Nat
  seq    : Nat
  bucket : Nat
  block  : Nat
  offset : Nat
  deriving DecidableEq, Repr

/-- The CXT header: 40 bytes, most significant first. -/
def Pitch.cxtHeader (x : Pitch) (h : OutHead) (epoch payLen : Nat) : Bytes :=
  [if h.data then 0x11 else 0x12, BitVec.ofNat 8 h.opcode, BitVec.ofNat 8 (bit h.ackNow), 5] ++ beBytes 4 epoch
    ++ beBytes 2 x.member.record.group.toNat ++ beBytes 2 h.pathId ++ beBytes 2 x.rank ++ beBytes 2 h.dst ++ beBytes 2 payLen
    ++ beBytes 6 h.seq ++ beBytes 4 h.bucket ++ beBytes 4 h.block ++ beBytes 8 h.offset

/-- Header, ciphertext, tag and CRC-32C under a secret's key of an EPOCH. The header's EPOCH is that of the own record (R253). -/
def Pitch.sealFrame (x : Pitch) (sec : Secret) (epoch : Nat) (h : OutHead) (payload : Bytes) : Bytes :=
  let hd := x.cxtHeader h x.member.record.epoch.toNat payload.length
  let (c, t) := gcmSeal (trafficKey sec x.member.record.group.toNat epoch) (frameIv x.rank h.dst h.data h.seq) hd payload
  hd ++ c ++ t ++ leBytes 4 (crc32c (c ++ t))

/-- A 48-bit MAC address, bytes in the order sent. -/
def macBytes (v : Nat) : Bytes := leBytes 6 v

/-- Ethernet, tags, IP and UDP in front of a sealed frame on physical port n with path ENT. -/
def State.outerHeaders (s : State) (p : PitchId) (n dst ent : Nat) (cxt : Bytes) : Bytes :=
  let x := s.pitch p
  let tags := x.cfg p 0x22
  let v6 := x.cfg p 0x21 = 6
  let dscp := x.cfg p 0x24
  let eth := macBytes (x.cfg p 0x27 n) ++ macBytes (sget s.prov.macs n 0).toNat
    ++ (if partOf tags 0 1 = 2 then beBytes 2 0x88A8 ++ beBytes 2 (partOf tags 2 2) else [])
    ++ (if 1 ≤ partOf tags 0 1 then beBytes 2 0x8100 ++ beBytes 2 (partOf tags 4 2) else [])
  let ulen := 8 + cxt.length
  let udp := fun (sum : Nat) => beBytes 2 (0xC000 + ent) ++ beBytes 2 (x.cfg p 0x20) ++ beBytes 2 ulen ++ beBytes 2 sum ++ cxt
  if v6 then
    let src := x.v6 p x.rank n
    let dst := x.v6 p dst n
    eth ++ beBytes 2 0x86DD ++ beBytes 4 (6 * 2 ^ 28 + dscp * 2 ^ 22 + ent) ++ beBytes 2 ulen ++ [17, BitVec.ofNat 8 (x.cfg p 0x23)]
      ++ src ++ dst ++ udp (udpSum src dst (udp 0))
  else
    let hdr := fun (sum : Nat) => [0x45, BitVec.ofNat 8 (4 * dscp)] ++ beBytes 2 (20 + ulen) ++ [0, 0, 0x40, 0]
      ++ [BitVec.ofNat 8 (x.cfg p 0x23), 17] ++ beBytes 2 sum ++ x.v4 p x.rank n ++ x.v4 p dst n
    eth ++ beBytes 2 0x0800 ++ hdr (inetSum (hdr 0)) ++ udp 0

/-- The whole Ethernet frame: the headers, the sealed frame, and the FCS, whose least significant byte leaves first (R251; 12 R283
step 5). -/
def State.outerFrame (s : State) (p : PitchId) (n dst ent : Nat) (cxt : Bytes) : Bytes :=
  let b := s.outerHeaders p n dst ent cxt
  b ++ leBytes 4 (crc32 b)

/-- Bytes of the headers before the CXT header. -/
def Pitch.outerBytes (x : Pitch) (p : PitchId) : Nat :=
  14 + 4 * partOf (x.cfg p 0x22) 0 1 + (if x.cfg p 0x21 = 6 then 40 else 20) + 8

/-- The size of a frame for budgets, FCS included (03 R68). -/
def Pitch.frameSize (x : Pitch) (p : PitchId) (payload : Nat) : Nat := x.outerBytes p + 40 + payload + 16 + 4 + 4

/-- CCLK that a frame of `size` bytes occupies on a port (03 R73). -/
def State.wireCclk (s : State) (n : NetPort) (size : Nat) : Nat :=
  let rate := if s.netPorts[n].link = .r400 then 500 else 1000
  divUp ((size + 20) * s.vco) (s.power.divider * rate)

/-- The logical port of a DATA frame (11 R271). -/
def logicalPort (dst block offset : Nat) : Nat := (dst + block + offset / 4096) % 16

end Sys2Proof.Machine
end

