-- ==== Sys2Proof/Machine/Channel.lean ====
section
/-! DEFINITION. Channels and the queue of outgoing frames (11 R264, R266, R268, R269; 03 R67, R69), and CONTROL frames, which
leave in the engine slot (01 R24). -/

namespace Sys2Proof.Machine

/-! ## Channels -/

/-- The channel to a remote rank. -/
def Pitch.chan (x : Pitch) (r : Nat) : Channel := ((x.tx.channels.find? (fun c => c.1 = r)).map Prod.snd).getD {}
/-- Replace it. -/
def Pitch.setChan (x : Pitch) (r : Nat) (c : Channel) : Pitch :=
  { x with tx := { x.tx with channels := upsert (fun e => e.1 = r) (fun _ => (r, c)) (r, c) x.tx.channels } }

/-- A channel after a restart (R264): sequence numbers, the bitmap and the control counter (12 R285) go; estimates, rate and
weights stay. -/
def Channel.restart (c : Channel) : Channel :=
  { c with
    nextSeq := 0, una := 0, ctrlCount := 0, rcvNext := 0, accepted := []
    unacked := 0, ackTimer := none, lastTrig := none, lastDupAck := none }

/-- Every channel of the group restarts; outstanding frames are discarded (R264). -/
def Pitch.restartChannels (x : Pitch) : Pitch :=
  { x with tx := { x.tx with
      channels := x.tx.channels.map (fun e => (e.1, e.2.restart))
      out := [] } }

/-- A channel at pitch.start: the initial rate (R273), the rest as it stood (19 R407). -/
def Channel.start (c : Channel) (now : Nat) : Channel := { c with rate := 100000, tokens := 16384, tokenAt := now, rateAt := now }

/-! ## Room for bytes -/

/-- n bytes at offset c of a region lie within it and beside every used (offset, size). -/
def fitsAt (used : List (Nat × Nat)) (size n c : Nat) : Bool := c + n ≤ size && used.all (fun u => c + n ≤ u.1 || u.1 + u.2 ≤ c)

/-- The lowest offset at which n bytes fit (notes/assumptions 106). -/
def firstFit (used : List (Nat × Nat)) (size n : Nat) : Option Nat :=
  ((0 :: used.map (fun u => u.1 + u.2)).filter (fitsAt used size n)).foldl
    (fun b c => some (match b with | some m => min m c | none => c)) none

/-! ## Outgoing DATA frames -/

/-- Plan order (03 R69). -/
def TxFrame.before (a b : TxFrame) : Bool :=
  let ka := [a.planSeq, a.planPhase, a.dst, a.planBlock, a.planIdx]
  let kb := [b.planSeq, b.planPhase, b.dst, b.planBlock, b.planIdx]
  decide (ka < kb) || ka = kb

/-- Sent before: frames without a window first, in the order formed, then windowed frames in plan order (03 R67, R69). -/
def TxFrame.le (a b : TxFrame) : Bool := if a.windowed then b.windowed && a.before b else true

/-- A DATA frame joins the queue. -/
def Pitch.enqueue (x : Pitch) (f : TxFrame) : Pitch := { x with tx := { x.tx with txq := insertBy TxFrame.le f x.tx.txq } }
/-- Several do, in order. -/
def State.enqueueAll (s : State) (p : PitchId) (fs : List TxFrame) : State := s.modPitch p (fun x => fs.foldl Pitch.enqueue x)

/-- The frame's logical port. -/
def TxFrame.lp (f : TxFrame) : Nat := logicalPort f.dst f.block.toNat f.offset.toNat

/-- Cut a record into agreement-frame fragments of 4,096 bytes toward one rank (10 R227). ACK_NOW marks the last (11 R496). -/
def recordFrames (dst bucket target : Nat) (rec : Bytes) : List TxFrame :=
  let parts := chunks 4096 rec
  parts.zipIdx.map (fun e =>
    { dst := dst, opcode := BitVec.ofNat 8 opWrite, bucket := BitVec.ofNat 32 bucket, block := BitVec.ofNat 32 target
      offset := BitVec.ofNat 64 (4096 * e.2), payload := e.1, ackNow := e.2 + 1 = parts.length, windowed := false })

/-- One frame that carries a whole message outside the windows. -/
def messageFrame (dst op bucket target : Nat) (payload : Bytes) : TxFrame :=
  { dst := dst, opcode := BitVec.ofNat 8 op, bucket := BitVec.ofNat 32 bucket, block := BitVec.ofNat 32 target
    payload := payload, ackNow := true, windowed := false }

/-! ## CONTROL frames -/

/-- The first CCLK at or after now at which a CONTROL frame of n CCLK can begin on a port: in an engine slot, after the frame
that left there last. -/
def State.controlStart (s : State) (port : NetPort) (n : Nat) : Nat :=
  let last := match (s.netOut.filter (fun o => o.port = port)).getLast? with
    | some o => o.start + s.wireCclk port o.bytes.length
    | none => 0
  let t := engineSlot (max s.cclk last)
  if t % planLen + n ≤ slotLen then t else engineSlot (roundUp (t + 1) planLen)

/-- Send a CONTROL frame to a rank under a secret's key of an EPOCH; the payload may depend on the CCLK of its first byte. -/
def State.sendControlAs (s : State) (p : PitchId) (port : NetPort) (dst op : Nat) (sec : Secret) (epoch : Nat)
    (payload : Nat → Bytes) : State :=
  let x := s.pitch p
  let c := x.chan dst
  let n := s.wireCclk port (x.frameSize p (payload 0).length)
  let start := s.controlStart port n
  let head : OutHead := ⟨false, op, false, 0, dst, c.ctrlCount, 0, 0, 0⟩
  let cxt := x.sealFrame sec epoch head (payload start)
  let s := { s with netOut := s.netOut ++ [NetOut.mk port start (s.outerFrame p port.val dst (16 * port.val) cxt)] }
  s.setPitch p (x.setChan dst { c with ctrlCount := c.ctrlCount + 1 })

/-- Send a CONTROL frame under the current key; nothing leaves without one. -/
def State.sendControl (s : State) (p : PitchId) (port : NetPort) (dst op : Nat) (payload : Nat → Bytes) : State :=
  match (s.pitch p).keys.current with
  | some sec => s.sendControlAs p port dst op sec (s.pitch p).member.record.epoch.toNat payload
  | none => s

/-- The 256 SACK bits of a channel (R259). -/
def Channel.sack (c : Channel) : Nat :=
  sumOf ((c.accepted.filter (fun q => c.rcvNext < q && q ≤ c.rcvNext + 256)).map (fun q => 2 ^ (q - c.rcvNext - 1)))

/-- An ACK payload (R259); ACK_DELAY runs from the trigger's arrival to the ACK's first byte. -/
def ackPayload (c : Channel) (kind start : Nat) : Bytes :=
  let (seq, arrived) := match c.lastTrig with | some (q, _, t) => (q, t) | none => (0, start)
  leBytes 6 c.rcvNext ++ [0, 0] ++ leBytes 32 c.sack ++ leBytes 6 seq ++ leBytes 1 kind ++ [0] ++ leBytes 4 (start - arrived)
    ++ leBytes 4 0

/-- Send an ACK on the trigger's port (R268); the channel owes none afterwards. -/
def State.sendAck (s : State) (p : PitchId) (r kind : Nat) : State :=
  let c := (s.pitch p).chan r
  match c.lastTrig with
  | none => s
  | some (_, port, _) =>
    let s := s.sendControl p port r opAck (ackPayload c kind)
    s.modPitch p (fun x => x.setChan r { x.chan r with unacked := 0, ackTimer := none })

/-- Acknowledge a duplicate, at most once per channel and 1,500 CCLK (R268). -/
def State.ackDup (s : State) (p : PitchId) (r q : Nat) (port : NetPort) : State :=
  let c := (s.pitch p).chan r
  let due : Bool := match c.lastDupAck with | some t => decide (t + 1500 ≤ s.cclk) | none => true
  let s := s.modPitch p (fun x => x.setChan r { c with
    lastTrig := some (q, port, s.cclk)
    lastDupAck := if due then some s.cclk else c.lastDupAck })
  if due then s.sendAck p r 1 else s

/-- Advance RCV_NEXT over accepted sequence numbers. -/
def advanceRcv : Nat → Channel → Channel
  | 0, c => c
  | n + 1, c => if c.rcvNext ∈ c.accepted then advanceRcv n { c with rcvNext := c.rcvNext + 1, accepted := c.accepted.erase c.rcvNext } else c

/-- Accept sequence number q (R267). -/
def Channel.accept (c : Channel) (q : Nat) : Channel :=
  let c := { c with accepted := addNew q c.accepted }
  advanceRcv c.accepted.length c

/-- Note an acceptance and acknowledge where R268 asks for it. -/
def State.ackNote (s : State) (p : PitchId) (r q : Nat) (port : NetPort) (now : Bool) : State :=
  let c := (s.pitch p).chan r
  let c := { c with
    unacked := c.unacked + 1
    ackTimer := some (c.ackTimer.getD s.cclk)
    lastTrig := some (q, port, s.cclk) }
  let s := s.modPitch p (fun x => x.setChan r c)
  if now || 16 ≤ c.unacked then s.sendAck p r 0 else s

/-- NACK reasons (R269). -/
def nkDamaged : Nat := 1
def nkRange : Nat := 2
def nkNotReady : Nat := 3
def nkTarget : Nat := 4
def nkOpcode : Nat := 5

/-- Send a NACK (R269). -/
def State.sendNack (s : State) (p : PitchId) (r q reason detail : Nat) (port : NetPort) : State :=
  (s.sendControl p port r opNack (fun _ => leBytes 6 q ++ leBytes 1 reason ++ [0] ++ leBytes 4 detail ++ leBytes 4 0)).count p .nackSent

end Sys2Proof.Machine
end

