-- ==== Sys2Proof/Machine/Tables.lean ====
section
/-! DEFINITION. The transport's tables in HBM (11 R264): the bytes of a channel's 2,048-byte entry and of an outstanding frame's 32-byte
record. The State holds what they say as data; a read of those addresses finds these bytes. -/

namespace Sys2Proof.Machine

/-- Low 32 bits of a CCLK, 0 where there is none. -/
def cclkLow (t : Option Nat) : Bytes := leBytes 4 (t.getD 0)

/-- Bytes of 4-bit fields, the first in the low half of the first byte. -/
def nibbles (vs : List Nat) : Bytes := (chunks 2 vs).map (fun v => BitVec.ofNat 8 (v.getD 0 0 % 16 + 16 * (v.getD 1 0 % 16)))

/-- The acceptance bitmap: sequence number s at bit s mod 4,096. -/
def Channel.bitmap (c : Channel) : Bytes := leBytes 512 (c.accepted.foldl (fun a q => a ||| (1 <<< (q % 4096))) 0)

/-- The entry of a channel in the channel table. Absent values read 0, and the ring holds its newest minimum first (notes/assumptions
25). -/
def Channel.entry (c : Channel) : Bytes :=
  leBytes 6 c.nextSeq ++ leBytes 6 c.una ++ leBytes 6 c.ctrlCount ++ leBytes 2 0
    ++ leBytes 4 c.srtt ++ leBytes 4 c.rttvar ++ leBytes 4 c.rate ++ leBytes 4 c.tokens
    ++ leBytes 4 c.deathEpoch.toNat ++ leBytes 8 (match c.fenceTick with | some t => t.toNat | none => 0)
    ++ leBytes 6 c.rcvNext ++ leBytes 2 c.unacked ++ cclkLow c.ackTimer ++ cclkLow c.lastDupAck
    ++ padTo 256 ((c.baseRtt.take 64).flatMap (fun m => leBytes 4 (m.getD 0)))
    ++ nibbles ((List.range 272).map (fun e => sget c.weights e 8)) ++ leBytes 8 0
    ++ (List.range 272).flatMap (fun e => leBytes 2 (toTwos 16 (sget c.credits e 0))) ++ leBytes 16 0
    ++ c.bitmap ++ List.replicate 512 0

/-- Bytes of the retransmit store that an outstanding frame takes: its record, and the plaintext that is not in the pack ring. -/
def TxFrame.storeBytes (f : TxFrame) : Nat := 32 + (if f.ring.isEmpty then f.payload.length else 0)

/-- The record of an outstanding frame: WHERE and PT_OFF say where its plaintext lies. -/
def OutFrame.record (o : OutFrame) : Bytes :=
  let (kept, off) := match o.frame.ring with
    | e :: _ => (0, e.off)
    | [] => (1, o.place + 32)
  leBytes 8 o.sent ++ leBytes 6 o.seq ++ leBytes 2 o.frame.dst ++ leBytes 1 o.txCount ++ leBytes 1 o.port.val
    ++ leBytes 1 o.entropy ++ leBytes 1 kept ++ leBytes 4 off ++ leBytes 2 o.frame.payload.length ++ leBytes 6 0

/-- What the retransmit store holds of an outstanding frame, from its place on. -/
def OutFrame.stored (o : OutFrame) : Bytes := o.record ++ (if o.frame.ring.isEmpty then o.frame.payload else [])

/-- Base and size of the retransmit store and of the channel table (19 R414). -/
def Pitch.storeBase (x : Pitch) (p : PitchId) : Nat := partOf (x.cfg p 0xA) 0 8
def Pitch.storeSize (x : Pitch) (p : PitchId) : Nat := partOf (x.cfg p 0xA) 8 8
def Pitch.chBase (x : Pitch) (p : PitchId) : Nat := partOf (x.cfg p 0xB) 0 8
def Pitch.chSize (x : Pitch) (p : PitchId) : Nat := partOf (x.cfg p 0xB) 8 8

/-- The rank whose entry of the channel table holds an address. -/
def Pitch.entryRank (x : Pitch) (p : PitchId) (a : Nat) : Option Nat :=
  let r := (a - x.chBase p) / 2048
  if x.isBound && x.member.record.role ≠ 0 && x.chBase p ≤ a && a < x.chBase p + x.chSize p && r < x.size && r ≠ x.rank then some r
  else none

/-- The byte of the transport's tables at an address, where one lies there. -/
def Pitch.tableByte (x : Pitch) (p : PitchId) (a : Nat) : Option Byte :=
  match x.entryRank p a with
  | some r => some ((x.chan r).entry.getD ((a - x.chBase p) % 2048) 0)
  | none =>
    (x.tx.out.find? (fun o => x.storeBase p + o.place ≤ a && a < x.storeBase p + o.place + o.frame.storeBytes)).map
      (fun o => o.stored.getD (a - x.storeBase p - o.place) 0)

/-- Bytes of memory as a read of pitch p's resources finds them. -/
def State.readView (s : State) (p : PitchId) (a n : Nat) : Bytes :=
  (s.read a n).zipIdx.map (fun e => ((s.pitch p).tableByte p (a + e.2)).getD e.1)

end Sys2Proof.Machine
end

