-- ==== Sys2Proof/Machine/Power.lean ====
section
/-! DEFINITION. Cell and device power states (22 R471 to R476; 01 R29): which cells a pitch uses, DROWSE between steps, OFF,
and the wake from D-RETAIN. IDLE changes nothing but timing inside one CCLK and is not told apart from RUN. -/

namespace Sys2Proof.Machine

/-- The cells of a camp-plan resource (01 R23, R29). -/
def State.resCells (s : State) (r : Nat) : List Nat :=
  if r = 0 then s.clusters.toList.zipIdx.flatMap (fun c => c.1.map.filterMap (fun t => t.map (fun k => sliceCell c.2 k)))
  else if r < 9 then [123 + (r - 1)]
  else if r < 15 then [97 + (r - 9)]
  else [72 + (r - 15)]

/-- Resources in which a pitch holds a slot, by its committed plan. -/
def Pitch.held (x : Pitch) : List Nat := (List.range 32).filter (fun r => x.plan.toList.getD r 0 ≠ 0)

/-- The cells a pitch uses. -/
def State.pitchCells (s : State) (p : PitchId) : List Nat := (s.pitch p).held.flatMap s.resCells

/-- No other pitch holds a slot in the resources of pitch p, and it holds some (R473). -/
def State.holdsAlone (s : State) (p : PitchId) : Bool :=
  let rs := (s.pitch p).held
  !rs.isEmpty && allPitches.all (fun q => q = p || (s.pitch q).held.all (fun r => r ∉ rs))

/-- DROWSE between steps is in force for the pitch: PWR_SET bit 2 (R473). -/
def State.drowses (s : State) (p : PitchId) : Bool := s.prov.drowseEn && s.holdsAlone p

/-- Put cells in a power state. -/
def State.setCells (s : State) (cs : List Nat) (v : CellPower) : State :=
  { s with power := { s.power with
      cells := Vector.ofFn (fun i => if i.val ∈ cs then v else s.power.cells[i]) } }

/-- The cells that a committed plan or a rule of the manual needs: slices of the map and spares, ports in service, host ports,
memory PHYs, cluster control, queue memories, Erg banks with a register held, and the switched units (R472). -/
def State.neededCells (s : State) : List Nat :=
  let erg := (List.range 8).filter (fun k => allPitches.any (fun p =>
    (s.pitch p).isBound && (List.range (min 8 ((s.pitch p).ergCount p))).any (fun i => ((s.pitch p).ergBase p + i) % 8 = k)))
  (allPitches.flatMap s.pitchCells) ++ (s.clusters.toList.zipIdx.flatMap (fun c => match c.1.spare with
      | some t => [sliceCell c.2 t]
      | none => []))
    ++ ((List.range 17).filter (fun n => (s.netPorts.toList.getD n {}).inService)).map (72 + ·)
    ++ (List.range 8).map (89 + ·) ++ (List.range 8).map (103 + ·) ++ (List.range 12).map (111 + ·) ++ erg.map (123 + ·)
    ++ [131, 132, 133, 134, 135]

/-- The expander group of a port: its cell and the number of the expander in it (01 R29; 09 R212). -/
def State.expander (s : State) (n : NetPort) : Nat × Nat :=
  let home := ((s.netPorts[n].standsFor).getD n).val
  (if home < 8 then 134 else 135, if n.val = 16 then 8 else home % 8)

/-- An expander group with no port in service rests in DROWSE (R472). -/
def State.restGroups (s : State) : State :=
  s.setCells ([134, 135].filter (fun c => (List.finRange 17).all (fun n => (s.expander n).1 ≠ c || !s.netPorts[n].inService))) .drowse

/-- Cells that nothing needs enter OFF after a change of plans; one that a plan needs again leaves it by its cell reset (R472; 02
R50). -/
def State.settleCells (s : State) : State :=
  let need := s.neededCells
  { s with power := { s.power with cells := Vector.ofFn (fun i => if i.val ∈ need then s.power.cells[i] else .off) } }

/-- Every cell that a committed plan uses has left OFF (R472; 01 R27). -/
def State.plansAwake (s : State) : Bool :=
  (allPitches.flatMap s.pitchCells).all (fun c => s.power.cells.toList.getD c .run ≠ .off)

/-- Cells in DROWSE or OFF in D-RETAIN (R474). -/
def retainCells : List Nat := (List.range 89) ++ (List.range 6).map (97 + ·) ++ (List.range 8).map (123 + ·) ++ [131, 132, 133, 134, 135]

/-- The cells of a pitch enter DROWSE as its STEP_STATE becomes IDLE (R473). -/
def State.drowseEntry (s : State) (p : PitchId) : State := if s.drowses p then s.setCells (s.pitchCells p) .drowse else s
/-- They are woken as its STEP_SET applies (R473). -/
def State.drowseWake (s : State) (p : PitchId) : State :=
  if s.drowses p then s.setCells ((s.pitchCells p).filter (fun c => s.power.cells.toList.getD c .run = .drowse)) .run else s

end Sys2Proof.Machine
end

