-- ==== Sys2Proof/Machine/Guard.lean ====
section
/-! DEFINITION. The Training Guard: which buckets of the step have passed their phases, the global norm and the clipping
factor, spikes and the verdict (14 R306, R307, R312 to R314). -/

namespace Sys2Proof.Machine

/-! ## The buckets of the step -/

/-- The buckets that the step's START_STATS pegs name. -/
def Pitch.stepBuckets (x : Pitch) : List Nat :=
  if x.pegsLoaded then (x.pegs.filter (fun g => g.action = 1)).map (fun g => g.arg0.toNat) else []

/-- A LOWRANK run. -/
def BucketRun.isLow (r : BucketRun) (x : Pitch) : Bool := bSelect (r.head x) = selLowrank

/-- Stages of a LOWRANK bucket: 1 to 6 of 08 R176, 7 done, 8 non-finite. -/
def lrDone : Nat := 7
def lrNonfinite : Nat := 8
def BucketRun.lrStage (r : BucketRun) : Nat := match r.lr with | some l => l.stage | none => 1

/-- The agreed record of part b, where it has been applied: codes and NF. -/
def BucketRun.agreedOf (r : BucketRun) (b : Nat) : Option (List Nat × Bool) := (r.agreed.find? (fun e => e.1 = b)).map Prod.snd

/-- Part b is stopped by an agreed NF (06 R136), or its LOWRANK bucket is non-finite (08 R186). -/
def BucketRun.stoppedPart (r : BucketRun) (b : Nat) : Bool :=
  r.lrStage = lrNonfinite || (match r.agreedOf b with | some (_, nf) => nf | none => false)

/-- Block numbers of the run that belong to part b. -/
def BucketRun.partBlocks (r : BucketRun) (x : Pitch) (b : Nat) : List Nat :=
  (List.range (bBlocks (x.bucketD b))).map (· + r.offset x b)

/-- The placed broadcast of block j of the run. -/
def BucketRun.placedAt (r : BucketRun) (j : Nat) : Option Placed := (r.placed.find? (fun e => e.1 = j)).map Prod.snd

/-- The bucket has passed phase A at this member, or stage 5 for LOWRANK. -/
def Pitch.bucketPassed (x : Pitch) (b : Nat) : Bool :=
  match x.runOf b with
  | none => false
  | some r => if r.isLow x then 6 ≤ r.lrStage else (r.agreedOf b).isSome

/-- Every broadcast of the bucket has been placed, or it has none to come. -/
def Pitch.bucketPlaced (x : Pitch) (b : Nat) : Bool :=
  match x.runOf b with
  | none => false
  | some r => r.isLow x || r.stoppedPart b || (r.partBlocks x b).all (fun j => (r.placedAt j).isSome)

/-! ## The norm and the clipping factor (R312, R314) -/

/-- The effective configuration runs the norm collective (10 R234). -/
def Pitch.runsNorm (x : Pitch) : Bool := x.eff.buckets.any bClip
/-- The common DIVISOR of its CLIP buckets. -/
def Pitch.normDivisor (x : Pitch) : Nat := match x.eff.buckets.find? bClip with | some r => bDivisor r | none => 1

/-- √(num / den) as a magnitude with a sticky bit last, and its exponent. -/
def sqrtRatio (num den : Nat) : Nat × Int :=
  let k := 90 + den.log2
  let n := num <<< (2 * k)
  let r := isqrt (n / den)
  (2 * r + bit (r * r * den ≠ n), -(k : Int) - 1)

/-- Sg as a count of 2^-320. -/
def normUnits (sg : W640) : Nat := sg.toNat

/-- LAST_NORM: √Sg / D rounded to FP32. The rounding raises no flag (notes/assumptions 105). -/
def normValue (sg : W640) (d : Nat) : W32 :=
  let (m, e) := sqrtRatio (normUnits sg) (2 ^ 320 * d ^ 2)
  (round32 false m e).1

/-- CLIP_MAX_NORM² D² as a count of 2^-320; none for +∞. -/
def clipLimit (clipMax : W32) (d : Nat) : Option Nat :=
  match val32 clipMax with
  | .fin _ mag exp => some (mag ^ 2 * d ^ 2 * 2 ^ (2 * exp + 320).toNat)
  | _ => none

/-- cf (R314). The rounding raises no flag (notes/assumptions 105). -/
def clipFactor (sg : W640) (clipMax : W32) (d : Nat) : W32 :=
  match clipLimit clipMax d with
  | none => 0x3F800000
  | some lim =>
    if sg = 0 || normUnits sg ≤ lim then 0x3F800000
    else let (m, e) := sqrtRatio lim (normUnits sg); (round32 false m e).1

/-! ## Logarithms (R312) -/

/-- Fraction bits with which a mantissa is squared. -/
def lgBits : Nat := 2048

/-- The next n bits of the base-2 logarithm of a mantissa in [2^lgBits, 2^(lgBits + 1)). -/
def lgGo : Nat → Nat → Nat → Nat
  | 0, _, acc => acc
  | n + 1, m, acc =>
    let q := (m * m) >>> lgBits
    if 2 ^ (lgBits + 1) ≤ q then lgGo n (q >>> 1) (2 * acc + 1) else lgGo n q (2 * acc)

/-- The integer nearest to 2^15 log2 (num / den), which is 2^16 log2 of its root. -/
def lgRoot (num den : Nat) : Int :=
  let e0 : Int := (num.log2 : Int) - den.log2
  let fits := fun (e : Int) => if 0 ≤ e then den <<< e.toNat ≤ num else den ≤ num <<< (-e).toNat
  let e := if fits e0 then e0 else e0 - 1
  let sh : Int := lgBits - e
  let m := if 0 ≤ sh then (num <<< sh.toNat) / den else num / (den <<< (-sh).toNat)
  (e * 65536 + (lgGo 16 m 0 : Nat) + 1) / 2

/-! ## The verdict (R306, R313) -/

def Pitch.spikeNorm (x : Pitch) (p : PitchId) : Bool := x.cfg p 0x103 = 1
def Pitch.spikeLoss (x : Pitch) (p : PitchId) : Bool := x.cfg p 0x104 = 1
def Pitch.spikeSkip (x : Pitch) (p : PitchId) : Bool := x.cfg p 0x105 = 1

/-- An i32 as a signed number. -/
def i32 (w : W32) : Int := w.toInt

/-- One spike test (R313): whether the sample is a spike, and the average and count after it. -/
def spikeTest (x : Pitch) (p : PitchId) (lg : Int) (ema count : W32) : Bool × W32 × W32 :=
  let spike : Bool := decide (x.cfg p 0x108 ≤ count.toNat) && decide (signedOf 4 (x.cfg p 0x106) < lg - i32 ema)
  if spike && x.spikeSkip p then (true, ema, count)
  else
    let e := if count = 0 then lg else i32 ema + (lg - i32 ema) / (2 ^ x.cfg p 0x107 : Nat)
    (spike, BitVec.ofInt 32 e, if count = 0xFFFFFFFF then count else count + 1)

/-- Run one test on a sample, raise ntc.spike, and answer whether it skips the step. `kind` 0 norm, 1 loss. -/
def State.spikeRun (s : State) (p : PitchId) (kind : Nat) (lg : Int) : Bool × State :=
  let x := s.pitch p
  let g := x.guard
  let (ema, n) := if kind = 0 then (g.normEma, g.normCount) else (g.lossEma, g.lossCount)
  let (spike, ema', n') := spikeTest x p lg ema n
  let g := if kind = 0 then { g with normEma := ema', normCount := n' } else { g with lossEma := ema', lossCount := n' }
  let y := { x with guard := g }
  if spike then
    let skip := x.spikeSkip p
    let s := s.setPitch p (y.count (if kind = 0 then .normSpikes else .lossSpikes))
    (skip, s.notice p ntcSpike (leBytes 1 kind ++ leBytes 1 (bit skip) ++ [0, 0] ++ leBytes 4 (toTwos 32 lg) ++ leBytes 4 ema.toNat))
  else (false, s.setPitch p y)

/-- The norm sample of the step, where its test runs. -/
def Pitch.normSample (x : Pitch) (p : PitchId) : Option Int :=
  match x.guard.norm with
  | some sg => if x.spikeNorm p && sg ≠ 0 then some (lgRoot (normUnits sg) (2 ^ 320 * x.normDivisor ^ 2)) else none
  | none => none

/-- The loss sample of the step, where its test runs: a positive finite value. -/
def Pitch.lossSample (x : Pitch) (p : PitchId) : Option Int :=
  match val32 x.guard.lossIn with
  | .fin false m e =>
    if x.spikeLoss p && x.guard.lossSet && m ≠ 0 then
      some (lgRoot (m ^ 2 * 2 ^ (2 * e).toNat) (2 ^ (-(2 * e)).toNat))
    else none
  | _ => none

/-- Run a test where it has a sample. -/
def State.spikeMaybe (s : State) (p : PitchId) (kind : Nat) : Option Int → Bool × State
  | some lg => s.spikeRun p kind lg
  | none => (false, s)

/-- The verdict may be formed (R306). -/
def Pitch.verdictReady (x : Pitch) (p : PitchId) : Bool :=
  x.mode = .running && x.time.state ≠ .idle && x.guard.verdict.isNone
    && x.stepBuckets.all (fun b => x.bucketPassed b && x.bucketPlaced b)
    && (!x.spikeNorm p || x.guard.norm.isSome) && (!(x.spikeLoss p && x.spikeSkip p) || x.guard.lossSet)

/-- Form the verdict once its conditions hold. -/
def State.guardProgress (s : State) (p : PitchId) : State :=
  if !(s.pitch p).verdictReady p then s
  else if (s.pitch p).guard.nonfinite then s.modPitch p (fun x => { x with guard := { x.guard with verdict := some 1 } })
  else
    let (a, s) := s.spikeMaybe p 0 ((s.pitch p).normSample p)
    let (b, s) := s.spikeMaybe p 1 ((s.pitch p).lossSample p)
    s.modPitch p (fun x => { x with guard := { x.guard with verdict := some (if a then 2 else if b then 3 else 0) } })

/-- The step is known to be skipped (R307). -/
def Pitch.skipKnown (x : Pitch) : Bool := x.guard.nonfinite || (match x.guard.verdict with | some v => v ≠ 0 | none => false)

/-- The Guard takes the exact squared norm of the step (R312, R314). -/
def State.takeNorm (s : State) (p : PitchId) (sg : W640) : State :=
  (s.modPitch p (fun x => { x with guard := { x.guard with
    norm := some sg, cf := clipFactor sg (BitVec.ofNat 32 (x.cfg p 0x109)) x.normDivisor } })).guardProgress p

/-- The clipping factor of the step is final (06 R146). -/
def Pitch.clipFinal (x : Pitch) : Bool := x.guard.norm.isSome

/-- A bucket's phase O is over: all its blocks have been written, or none will be. -/
def Pitch.bucketOut (x : Pitch) (b : Nat) : Bool :=
  match x.runOf b with
  | none => false
  | some r =>
    if r.isLow x then lrDone ≤ r.lrStage
    else r.stoppedPart b || (x.skipKnown && x.bucketPlaced b) || (r.partBlocks x b).all (fun j => j ∈ r.outDone)

/-- Block j of a run holds its part of the bucket staging area no more: its phase O has finished, or will not come (01 R495). -/
def BucketRun.blockOver (r : BucketRun) (x : Pitch) (j : Nat) : Bool :=
  if r.isLow x then lrDone ≤ r.lrStage else j ∈ r.outDone || x.skipKnown || r.stoppedPart (r.part x j).1

/-- Bytes of the bucket staging area that hold the v or the placed broadcast of a block whose phase O has not finished (01 R495). -/
def Pitch.areaUsed (x : Pitch) : Nat :=
  sumOf (x.runs.map (fun r =>
    if r.home then 0 else 4 * bBlock (r.head x) * ((List.range r.statNext).filter (fun j => !r.blockOver x j)).length))

/-- The spill region holds the g, the v or a placed broadcast of a bucket other than those of a list (01 R21). -/
def Pitch.regionHeld (x : Pitch) (mine : List Nat) : Bool :=
  x.ingests.any (fun i => i.home && i.bucket ∉ mine)
    || x.runs.any (fun r => r.home && r.parts.all (fun b => b ∉ mine) && !r.parts.all x.bucketOut)

/-- A bucket of this many elements fits the spill region: 4 bytes × the largest ELEMENTS, and none where SPILL_BASE is 0 (01 R21;
19 R418). -/
def Pitch.regionFits (x : Pitch) (p : PitchId) (elements : Nat) : Bool :=
  x.cfg p 9 ≠ 0 && elements ≤ maxOf (x.eff.buckets.map bElements)

/-- A bucket of the step became non-finite: reported to the Guard. -/
def Pitch.reportNonfinite (x : Pitch) : Pitch := { x with guard := { x.guard with nonfinite := true } }

end Sys2Proof.Machine
end

