-- ==== Sys2Proof/Machine/Progress.lean ====
section
/-! DEFINITION. Progress time (03): the start of a step, CURSOR, pegs, barriers and the bookkeeping of windows; loss values
(14 R312); key rotation (12 R289) and capacity changes (20 R436) as a STEP_SET applies. -/

namespace Sys2Proof.Machine

/-! ## The live set and the control word (20 R424, R425) -/

/-- Rank r is live by a record. -/
def MemberRec.live (m : MemberRec) (r : Nat) : Bool := r < m.n && r ∉ m.vacant
/-- The live set L, ascending. -/
def MemberRec.liveSet (m : MemberRec) : List Nat := (List.range m.n).filter (fun r => m.live r)
/-- KEEPER: the lowest rank of the live set. -/
def MemberRec.lowest (m : MemberRec) : Nat := m.liveSet.headD 0

/-- WORD from EPOCH, SUBJECT and ACTION. -/
def wordOf (epoch subject action : Nat) : W64 := BitVec.ofNat 64 (epoch + 2 ^ 32 * subject + 2 ^ 48 * action)
def wordEpoch (w : W64) : Nat := bitsOf w.toNat 31 0
def wordSubject (w : W64) : Nat := bitsOf w.toNat 47 32
def wordAction (w : W64) : Nat := bitsOf w.toNat 55 48

def actDead : Nat := 1
def actTakeover : Nat := 2
def actGrow : Nat := 3
def actLeave : Nat := 4

/-- The record once its committed GROW or LEAVE applies: N, EPOCH and KEEPER follow WORD, and no change is pending (20 R436). -/
def MemberRec.resized (m : MemberRec) : MemberRec :=
  let next := { m with
    epoch := BitVec.ofNat 32 (wordEpoch m.word), atStep := 0, n := if wordAction m.word = actGrow then m.n + 1 else m.n - 1 }
  { next with keeper := next.lowest }

/-! ## The start of a step (R56) -/

/-- PENDING becomes CURRENT and CURRENT becomes PREVIOUS; channels restart (12 R289). -/
def Pitch.rotateKeys (x : Pitch) (step : W64) : Pitch :=
  if x.keys.pending.isSome && x.keys.activateStep.toNat ≤ step.toNat then
    let y := x.restartChannels.count .keyRotations
    { y with keys := { x.keys with current := x.keys.pending, pending := none, previous := x.keys.current } }
  else x

/-- Owner residual words a member may hold in bucket b: its region, 0 bytes where it has none. -/
def oresRange (r : BitVec 1024) : Nat × Nat := (bOresBase r, resSize (bResFmt r) * bElements r)

/-- Member residual and owner residual regions of a pitch's buckets, dense or sparse (LOWRANK has no owner residual). -/
def Pitch.oresRegions (x : Pitch) : List (Nat × Nat) :=
  x.eff.buckets.filterMap (fun r => if bSelect r = selLowrank then none else some (oresRange r))

/-- A committed GROW or LEAVE is applied with the STEP_SET that reaches AT_STEP; owner residuals are cleared (20 R436). A
member whose rank the new N leaves out is in no group afterwards. -/
def State.applyFuture (s : State) (p : PitchId) (step : W64) : State :=
  let x := s.pitch p
  let m := x.member.record
  if m.atStep = 0 || step.toNat < m.atStep.toNat then s
  else
    let x := x.restartChannels
    let next : Membership := if m.resized.n ≤ m.rank.toNat then {} else { x.member with record := m.resized, proposals := [], accepted := none }
    let s := s.setPitch p { x with member := next }
    (s.modRetained p (fun r => { r with member := next.record })).eraseAll x.oresRegions

/-- Collective state that a step may still use: that of the step itself and of the one after it (10 R248). What the member has
put its own part into served an earlier step, whose STEP_LO a later STEP_SET may repeat. -/
def keepLo (step : W64) (lo : W16) : Bool := lo = step.setWidth 16 || lo = step.setWidth 16 + 1

/-- Apply a STEP_SET (R56, R132, R314; 10 R248; 12 R289; 20 R436). -/
def State.beginStep (s : State) (p : PitchId) (step : W64) : State :=
  let s := (((s.dropIngestReads p).ckptOwed p).modPitch p (fun x => x.rotateKeys step)).applyFuture p step
  let x := s.pitch p
  let t := { x.time with
    step := step
    cursor := 0
    state := .active
    barrier := none
    windowOpen := false
    held := none
    nextPeg := 0
    stillEpochs := 0
    stallSent := false
    barriers := 0
    ckptArmed := false
    ckptDone := false
    ckptSlot := none
    exports := []
    exportsDone := []
    exportsFailed := []
    ndcBits0 := x.counter .ndcBits
    ndcTime0 := x.counter .ndcTime
    boundary := false
    cut := false }
  let g := { x.guard with
    lossSet := false
    lossIn := 0
    lrLatched := x.guard.updLr
    bc2Latched := x.guard.updBc2
    lsStep := x.guard.lsExp
    nonfinite := false
    norm := none
    cf := 0x3F800000
    normSent := false
    normAhead := none
    verdict := none
    layerNf := []
    updNotified := false }
  let lock := { x.lock with
    digests := []
    own := []
    closed := 0
    sent := 0
    partner := []
    waiting := false
    diffGot := []
    compared := 0
    outputs := []
    lastClosed := false
    bytes := []
    diff := none
    mismatched := false }
  let y := { x with
    time := t
    guard := g
    lock := lock
    ingests := []
    runs := []
    agrees := x.agrees.filter (fun a => keepLo step a.stepLo && a.own.isNone)
    exchanges := x.exchanges.filter (fun e => keepLo step e.stepLo && e.own.isNone)
    gbars := x.gbars.filter (fun b => keepLo step b.stepLo && !b.fired)
    tx := { x.tx with lps := Vector.replicate 16 {}, opened := 0 } }
  let s := (((s.setPitch p y).modRetained p (fun r => { r with boundary := false })).guardProgress p).drowseWake p
  match x.guard.normAhead with
  | some sg => s.takeNorm p sg
  | none => s

/-- STEP_SET on a pitch window, once the access itself is accepted (R56, R58). -/
def State.stepSetOp (s : State) (p : PitchId) (v : W64) : State :=
  let x := s.pitch p
  if x.mode ≠ .running then s.setPitch p (x.dropTime 2)
  else match x.time.state with
    | .idle => s.beginStep p v
    | .active => s.setPitch p (x.dropTime 3)
    | .draining =>
      if x.time.held.isSome then s.setPitch p (x.dropTime 4)
      else s.setPitch p { x with time := { x.time with held := some v } }

/-- CURSOR_SET on a pitch window (R57, R58, R77). A write that meets causes 0x2 and 0x5 is recorded as 0x2 (notes/assumptions 104). -/
def State.cursorSetOp (s : State) (p : PitchId) (v : W32) : State :=
  let x := s.pitch p
  if x.mode ≠ .running then s.setPitch p (x.dropTime 2)
  else if x.time.state = .idle then s.setPitch p (x.dropTime 5)
  else if x.time.cursor.toNat < v.toNat then
    s.setPitch p { x with time := { x.time with cursor := v, stillEpochs := 0, stallSent := false } }
  else if v = x.time.cursor then s
  else s.setPitch p (x.dropTime 1)

/-- LOSS_IN on a pitch window (14 R312): accepted while the step runs and its verdict is not final. -/
def State.lossInOp (s : State) (p : PitchId) (v : W32) : State :=
  let x := s.pitch p
  if x.mode = .running && x.time.state ≠ .idle && x.guard.verdict.isNone then
    let y := { x with guard := { x.guard with lossIn := v, lossSet := true } }
    let good := match val32 v with | .fin false m _ => decide (m ≠ 0) | _ => false
    (s.setPitch p (if good then y else y.count .lossInvalid)).guardProgress p
  else s.setPitch p (x.count .lossWriteDrops)

/-! ## Group barriers (10 R247; 16 R346) -/

def barrierPayload (lo : W16) (ord dir : Nat) (time : Nat) : Bytes :=
  leBytes 2 lo.toNat ++ leBytes 2 ord ++ leBytes 1 dir ++ [0, 0, 0] ++ leBytes 8 time

/-- One BARRIER frame. -/
def barrierFrame (dst : Nat) (lo : W16) (ord dir time : Nat) : TxFrame := messageFrame dst opBarrier 0 0 (barrierPayload lo ord dir time)

/-- The barrier of an ordinal in the step of stepLo. -/
def Pitch.gbar (x : Pitch) (lo : W16) (ord : Nat) : GroupBarrier :=
  ((x.gbars.find? (fun b => b.stepLo = lo && b.ordinal = ord))).getD { stepLo := lo, ordinal := ord }
def Pitch.setGbar (x : Pitch) (b : GroupBarrier) : Pitch :=
  { x with gbars := upsert (fun c => c.stepLo = b.stepLo && c.ordinal = b.ordinal) (fun _ => b) b x.gbars }

/-- Once the own peg has fired and every child has arrived: on to the parent, or rank 0 fixes the release (R346). -/
def State.barrierProgress (s : State) (p : PitchId) (lo : W16) (ord : Nat) : State :=
  let x := s.pitch p
  let b := x.gbar lo ord
  if b.fired && !b.sentUp && x.children.all (fun c => c ∈ b.kids) then
    let y := x.setGbar { b with sentUp := true }
    if x.rank ≠ 0 then s.setPitch p (y.enqueue (barrierFrame (treeParent x.rank) lo ord 0 0))
    else if x.size ≤ 1 then s.setPitch p (y.setGbar { b with sentUp := true, release := some (0, s.cclk + 1) })
    else
      let time := s.ptpNs + x.cfg p 0x11
      let y := y.setGbar { b with sentUp := true, release := some (time, s.cclk + 1) }
      s.setPitch p (x.children.foldl (fun y c => y.enqueue (barrierFrame c lo ord 1 time)) y)
  else s

/-! ## Pegs (R62) -/

/-- The next unfired peg, where it is due (R62). -/
def Pitch.duePeg (x : Pitch) : Option Peg :=
  if x.mode = .running && x.time.state = .active && x.time.barrier.isNone && x.member.record.vacant.isEmpty then
    match x.pegs[x.time.nextPeg]? with
    | some g => if g.position.toNat ≤ x.time.cursor.toNat then some g else none
    | none => none
  else none

def actStart : Byte := 1
def actOpen : Byte := 2
def actClose : Byte := 3
def actBarrier : Byte := 4
def actCheckpoint : Byte := 5
def actExport : Byte := 6
def actEnd : Byte := 7

/-- Fire the next peg if it is due and has this action: NEXT_PEG advances, then its effect. -/
def State.firePeg (s : State) (p : PitchId) (act : Byte) (f : Peg → State → State) : State :=
  match (s.pitch p).duePeg with
  | some g =>
    if g.action = act then
      f g (s.modPitch p (fun x => { x with time := { x.time with nextPeg := x.time.nextPeg + 1 } }))
    else s
  | none => s

/-- A window peg ends window w: a port whose frame of that window is still on the wire overruns, once per port and window (R71). -/
def Pitch.endWindow (x : Pitch) (now : Nat) : Pitch :=
  if !x.time.windowOpen then x
  else
    let w := x.tx.opened - 1
    let ovf : LpWin → Bool := fun l => match l.last with
      | some (v, stop) => v = w && now < stop && w ∉ l.overran
      | none => false
    let n := (x.tx.lps.toList.filter ovf).length
    let y := x.count .winOverrun n
    { y with
      time := { y.time with windowOpen := false }
      tx := { y.tx with lps := y.tx.lps.map (fun l => if ovf l then { l with overran := l.overran ++ [w] } else l) } }

/-- Parts may fuse (R75): RELAXED, the earlier bucket's phase S not begun, same mode, formats and block size, at most 2^26 elements.
A fused bucket whose v would neither fit the bucket staging area nor the spill region is not formed (01 R21; notes/assumptions 31).
LOWRANK parts run as runs of one bucket sequence, each with its own matrix (notes/assumptions 83). -/
def Pitch.mayFuse (x : Pitch) (p : PitchId) (r : BucketRun) (b : Nat) : Bool :=
  let a := x.bucketD (r.parts.getLastD 0)
  let c := x.bucketD b
  let group := x.runs.filter (fun q => q.seq = r.seq)
  let total := sumOf (group.map (fun q => q.elements x)) + bElements c
  x.relaxed p && r.parts.getLastD 0 + 1 = b && group.all (fun q => q.statNext = 0 && !q.statsDone) && bSelect a = bSelect c && bWire a = bWire c
    && bBcast a = bBcast c && bBlock a = bBlock c && bResFmt a = bResFmt c
    && total ≤ 2 ^ 26 && (r.isLow x || !x.spills p total || x.regionFits p total)

/-- A START_STATS peg (R64, R75): the bucket becomes eligible, or is fused into the bucket before it where the engine so chooses. -/
def State.startStatsPeg (s : State) (p : PitchId) (fuse : Bool) (g : Peg) : State :=
  let x := s.pitch p
  let b := g.arg0.toNat
  let seq := x.time.nextPeg - 1
  match x.runs.find? (fun r => fuse && x.mayFuse p r b) with
  | some r =>
    if r.isLow x then
      let q : BucketRun := { bucket := b, parts := [b], seq := r.seq }
      let y : Pitch := { x with runs := x.runs ++ [q] }
      s.setPitch p (y.count .bucketFuse)
    else s.setPitch p ((x.setRun { r with parts := r.parts ++ [b] }).count .bucketFuse)
  | none =>
    let r : BucketRun := { bucket := b, parts := [b], seq := seq }
    s.setPitch p { x with runs := x.runs ++ [r] }

/-- An OPEN_WINDOW peg. -/
def State.openPeg (s : State) (p : PitchId) (_ : Peg) : State :=
  s.modPitch p (fun x =>
    let y := x.endWindow s.cclk
    { y with time := { y.time with windowOpen := true }, tx := { y.tx with opened := y.tx.opened + 1 } })

/-- A CLOSE_WINDOW peg. -/
def State.closePeg (s : State) (p : PitchId) (_ : Peg) : State := s.modPitch p (fun x => x.endWindow s.cclk)

/-- A BARRIER peg (R65; 10 R247). -/
def State.barrierPeg (s : State) (p : PitchId) (g : Peg) : State :=
  let x := s.pitch p
  let group := g.arg0.getLsbD 0
  let ord := x.time.barriers
  let y := { x with time := { x.time with barrier := some group, barriers := ord + 1 } }
  if group then
    let b := y.gbar x.stepLo ord
    (s.setPitch p (y.setGbar { b with fired := true })).barrierProgress p x.stepLo ord
  else s.setPitch p y

/-- A CHECKPOINT peg: the step takes a checkpoint as it completes. -/
def State.checkpointPeg (s : State) (p : PitchId) (_ : Peg) : State :=
  s.modPitch p (fun x => { x with time := { x.time with ckptArmed := true } })

/-- An EXPORT_SNAPSHOT peg: one export per destination and step (15 R330). -/
def State.exportPeg (s : State) (p : PitchId) (g : Peg) : State :=
  s.modPitch p (fun x => { x with time := { x.time with exports := addNew g.arg0.toNat x.time.exports } })

/-- An END_STEP peg: any open window ends, the step drains (R66, R72). -/
def State.endPeg (s : State) (p : PitchId) (_ : Peg) : State :=
  s.modPitch p (fun x =>
    let y := x.endWindow s.cclk
    { y with time := { y.time with state := .draining } })

/-! ## The commands -/

/-- A write to a register of pitch p's window from port h: before ENGINE_READY it has no effect (02 R54); from a port that is
not bound it is denied and counted (17 R360). -/
def State.windowWrite (s : State) (h : HostPort) (p : PitchId) (f : State → State) : State :=
  if !s.glob.engineReady then s
  else if s.windowOpen h p then f s
  else { s with glob := { s.glob with regDenied := s.glob.regDenied + 1 } }

/-- A doorbell write: latched before ENGINE_READY (02 R54). Register offset 0, 4 or 8. -/
def State.doorbellWrite (s : State) (h : HostPort) (p : PitchId) (reg : Nat) (v : W32) : State :=
  if !s.glob.engineReady then { s with latched := s.latched ++ [⟨h, p, reg, v⟩] }
  else s.windowWrite h p (fun s => s.doorbell h p (reg / 4) v)

/-- A register flit of one write entry to pitch p's window, and its answer: DENIED from a port that the window does not answer,
else OK (17 R358, R360). -/
def State.oneWrite (s : State) (h : HostPort) (p : PitchId) (f : State → State) : State :=
  s.hostIn h 250 (fun s => (f s).sendHost h (.regAnswer [(if s.windowOpen h p then 0 else 1, 0)]))

/-- STEP_SET (R56). -/
def execStepSet (h : HostPort) (p : PitchId) (v : W64) (s : State) : Result := live s (fun s =>
  s.oneWrite h p (fun s => s.windowWrite h p (fun s => s.stepSetOp p v)))
/-- CURSOR_SET (R57). -/
def execCursorSet (h : HostPort) (p : PitchId) (v : W32) (s : State) : Result := live s (fun s =>
  s.oneWrite h p (fun s => s.windowWrite h p (fun s => s.cursorSetOp p v)))
/-- LOSS_IN (14 R312). -/
def execLossIn (h : HostPort) (p : PitchId) (v : W32) (s : State) : Result := live s (fun s =>
  s.oneWrite h p (fun s => s.windowWrite h p (fun s => s.lossInOp p v)))
/-- DB_CTRL (17 R367). -/
def execDbCtrl (h : HostPort) (p : PitchId) (v : W32) (s : State) : Result := live s (fun s =>
  s.oneWrite h p (fun s => s.doorbellWrite h p 0 v))
/-- DB_WORK (17 R367). -/
def execDbWork (h : HostPort) (p : PitchId) (v : W32) (s : State) : Result := live s (fun s =>
  s.oneWrite h p (fun s => s.doorbellWrite h p 4 v))
/-- DB_CPL (17 R367). -/
def execDbCpl (h : HostPort) (p : PitchId) (v : W32) (s : State) : Result := live s (fun s =>
  s.oneWrite h p (fun s => s.doorbellWrite h p 8 v))

/-- START_STATS (R64, R75). -/
def execStartStats (p : PitchId) (fuse : Bool) (s : State) : Result := live s (fun s => s.firePeg p actStart (fun g s => s.startStatsPeg p fuse g))
/-- OPEN_WINDOW (R71). -/
def execOpenWindow (p : PitchId) (s : State) : Result := live s (fun s => s.firePeg p actOpen (fun g s => s.openPeg p g))
/-- CLOSE_WINDOW (R71). -/
def execCloseWindow (p : PitchId) (s : State) : Result := live s (fun s => s.firePeg p actClose (fun g s => s.closePeg p g))
/-- BARRIER (R65). -/
def execBarrier (p : PitchId) (s : State) : Result := live s (fun s => s.firePeg p actBarrier (fun g s => s.barrierPeg p g))
/-- CHECKPOINT (R60). -/
def execCheckpoint (p : PitchId) (s : State) : Result := live s (fun s => s.firePeg p actCheckpoint (fun g s => s.checkpointPeg p g))
/-- EXPORT_SNAPSHOT (R60). -/
def execExportSnapshot (p : PitchId) (s : State) : Result := live s (fun s => s.firePeg p actExport (fun g s => s.exportPeg p g))
/-- END_STEP (R66). -/
def execEndStep (p : PitchId) (s : State) : Result := live s (fun s => s.firePeg p actEnd (fun g s => s.endPeg p g))

/-- ntc.cursor.stall once the count of still epochs has reached 4,096 (R77). -/
def State.cursorStallOp (s : State) (p : PitchId) : State :=
  let x := s.pitch p
  if x.mode = .running && x.time.state = .active && 4096 ≤ x.time.stillEpochs && !x.time.stallSent then
    let s := s.setPitch p { x.count .cursorStalls with time := { x.time with stallSent := true } }
    s.notice p ntcCursorStall (leBytes 4 x.time.cursor.toNat ++ leBytes 2 x.time.nextPeg)
  else s

/-- CURSOR_STALL (R77). -/
def execCursorStall (p : PitchId) (s : State) : Result := live s (fun s => s.cursorStallOp p)

/-! ## Barrier releases (16 R345 to R348; 17 R376) -/

/-- BARRIER_WAIT clears and RELEASE leaves on every bound port. -/
def State.releaseBarrier (s : State) (p : PitchId) (group : Bool) : State :=
  let x := s.pitch p
  (s.setPitch p { x with time := { x.time with barrier := none } }).sendBound p (.release p group x.stepLo (x.time.barriers - 1))

/-- A group barrier's release moment (R346, R347). -/
def State.barrierReleaseTimeOp (s : State) (p : PitchId) : State :=
  let x := s.pitch p
  let b := x.gbar x.stepLo (x.time.barriers - 1)
  match x.time.barrier, b.release with
  | some true, some (time, earliest) =>
    let s := s.advanceTo (if x.size ≤ 1 then earliest else max earliest (s.cclkAt time))
    let x := if 1 < x.size && !s.ptp.locked then x.count .barUnlocked else x
    (s.setPitch p { x with gbars := x.gbars.filter (fun c => c.stepLo ≠ b.stepLo || c.ordinal ≠ b.ordinal) }).releaseBarrier p true
  | _, _ => s

/-- BARRIER_RELEASE_TIME (R346). -/
def execBarrierReleaseTime (p : PitchId) (s : State) : Result := live s (fun s => s.barrierReleaseTimeOp p)

/-- A scope-0 release of a set of pitches (R345): each waits in a scope-0 barrier and names exactly this set. -/
def State.packageReleaseOp (s : State) (set : BitVec 12) : State :=
  let ps := allPitches.filter (fun p => set.getLsbD p.val)
  if !ps.isEmpty && ps.all (fun p => (s.pitch p).time.barrier = some false && (s.pitch p).cfg p 0x12 = set.toNat) then
    ps.foldl (fun s p => s.releaseBarrier p false) (s.advanceTo (s.cclk + 1))
  else s

/-- PACKAGE_BARRIER_RELEASE (R345). -/
def execPackageBarrierRelease (set : BitVec 12) (s : State) : Result := live s (fun s => s.packageReleaseOp set)

end Sys2Proof.Machine
end

