-- ==== Sys2Proof/Machine/HostIf.lean ====
section
/-! DEFINITION. The host ports (17): register reads and writes, MEM_WR and MEM_RD, CHP link errors and retrains (02 R34, R35). -/

namespace Sys2Proof.Machine

/-! ## Reading registers (R363, R364; 03 R55; 04 R97; 14 R305; 16 R337) -/

/-- HEALTH of a pitch (R363). -/
def State.healthReg (s : State) (p : PitchId) : Nat :=
  let low := s.clusters.toList.any (fun c => c.spare.isNone && c.testing.isNone)
  bit (s.pitch p).degraded + 2 * bit low + 4 * bit (s.power.device = 1) + 256 * s.activeSlices
    + 65536 * (s.power.tjMax % 256)

/-- TIME_STATUS (03 R55). -/
def Pitch.timeStatus (x : Pitch) (p : PitchId) : Nat :=
  x.time.state.code + 4 * bit x.time.barrier.isSome + 8 * bit x.time.windowOpen + 16 * bit x.time.held.isSome + 32 * bit (x.relaxed p)
    + 256 * x.time.dropCause + 65536 * x.time.nextPeg

/-- GUARD_STATUS (14 R305). -/
def Pitch.guardStatus (x : Pitch) : Nat :=
  toTwos 8 x.guard.lsExp + 256 * x.guard.lastVerdict + 1024 * bit x.guard.lossSet + 2048 * bit x.guard.clipped

/-- The 32-bit word at a word-aligned offset of a pitch window; unlisted offsets read 0 (00 R10). -/
def State.windowWord (s : State) (p : PitchId) (off : Nat) : Nat :=
  let x := s.pitch p
  let lo := fun (v : W64) => v.toNat % 2 ^ 32
  let hi := fun (v : W64) => v.toNat / 2 ^ 32
  let sig := fun (v : W128) (k : Nat) => v.toNat / 2 ^ (32 * k) % 2 ^ 32
  let on := x.mode ≠ .unbound && x.mode ≠ .bound
  if 0x600 ≤ off then x.qptrReg ((off - 0x600) / 2) + 65536 * x.qptrReg ((off - 0x600) / 2 + 1)
  else match off with
    | 0x00C => x.queues.dbCause + 16 * x.queues.dbQueue
    | 0x020 => x.mode.code + 256 * x.binding.ports.toNat
    | 0x024 => x.member.record.rank.toNat + 65536 * x.member.record.group.toNat
    | 0x028 => x.member.record.epoch.toNat
    | 0x030 => x.mail.noticeCount.toNat
    | 0x034 => x.mail.noticeDrops.toNat
    | 0x040 => s.healthReg p
    | 0x100 => lo x.time.step
    | 0x104 => hi x.time.step
    | 0x108 => x.time.cursor.toNat
    | 0x10C => x.timeStatus p
    | 0x140 => x.numFlags.toNat
    | 0x180 => x.guardStatus
    | 0x184 => x.guard.clean.toNat
    | 0x18C => x.guard.updLr.toNat
    | 0x190 => x.guard.updBc2.toNat
    | 0x194 => x.guard.lastNorm.toNat
    | 0x198 => x.guard.normEma.toNat
    | 0x19C => x.guard.lossEma.toNat
    | 0x1C0 => if on then sig x.rsig 0 else 0
    | 0x1C4 => if on then sig x.rsig 1 else 0
    | 0x1C8 => if on then sig x.rsig 2 else 0
    | 0x1CC => if on then sig x.rsig 3 else 0
    | 0x1D0 => sig x.tsig 0
    | 0x1D4 => sig x.tsig 1
    | 0x1D8 => sig x.tsig 2
    | 0x1DC => sig x.tsig 3
    | 0x1E0 => lo (x.counter .ndcBits)
    | 0x1E4 => hi (x.counter .ndcBits)
    | 0x1E8 => lo (x.counter .ndcTime)
    | 0x1EC => hi (x.counter .ndcTime)
    | 0x1F0 => bit s.ptp.locked + 2 * bit x.pairing.isSome + 4 * bit x.lock.held
    | 0x1F4 => x.time.ndcBitsStep.toNat
    | 0x1F8 => x.time.ndcTimeStep.toNat
    | _ => 0

/-- ENGINE_ID and ENGINE_CAPS (R364). -/
def State.engineId (s : State) : Nat := 0x13216 + 2 ^ 20 * bit s.fuses.gradeG2
def State.engineCaps (s : State) : Nat := s.activeSlices + 256 + 65536 * (if s.glob.engineReady then s.fw.fwNum.toNat else 0)

/-- The 32-bit word at an offset of the global status page, read through port h (R364). -/
def State.statusWord (s : State) (h : HostPort) (off : Nat) : Nat :=
  match off with
  | 0x000 => s.engineId
  | 0x004 => s.engineCaps
  | 0x008 => bit s.glob.engineReady + 16 * s.glob.resetCause + 256 * s.glob.bootStage + 65536 * s.glob.bootError
  | 0x00C => h.val
  | 0x010 => s.glob.mgmtTick.toNat % 2 ^ 32
  | 0x014 => s.glob.mgmtTick.toNat / 2 ^ 32
  | 0x018 => bit s.ptp.locked + 2 * s.ptp.servo.val
  | 0x01C => sumOf (s.hostPorts.toList.zipIdx.map (fun e => e.1.modules.toNat * 16 ^ e.2))
  | 0x020 => sumOf (s.netPorts.toList.zipIdx.map (fun e => bit e.1.inService * 2 ^ e.2))
  | 0x024 => s.glob.stagingMib + 65536 * 0x10E
  | _ => 0

/-- The pitch whose window holds an address. -/
def windowPitch (a : Nat) : Option PitchId := if h : a / 4096 < 12 then some ⟨a / 4096, h⟩ else none

/-- A register access from port h is answered with STATUS and read data (R358, R360). -/
def State.registerRead (s : State) (h : HostPort) (a n : Nat) : Nat :=
  let word := fun (o : Nat) => match windowPitch a with
    | some p => if s.glob.engineReady then s.windowWord p o else 0
    | none => s.statusWord h o
  word (a % 4096) + (if n = 8 then 2 ^ 32 * word (a % 4096 + 4) else 0)

/-- An access in a register range: a pitch window or the status page (R361). -/
def registerRange (a : Nat) : Bool := a < 0xC000 || (0xF000 ≤ a && a < 0x10000)

/-- STATUS of an entry, and whether its access takes place. -/
def State.entryStatus (s : State) (h : HostPort) (e : RegEntry) : Nat :=
  let a := e.addr.toNat
  let n := if e.op = 2 || e.op = 4 then 8 else 4
  if e.op = 0 then 0
  else if 4 < e.op.toNat then 3
  else if a % n ≠ 0 || !registerRange a then 2
  else match windowPitch a with
    | some p => if s.windowOpen h p then 0 else 1
    | none => 0

/-! ## Writing registers (R360; 00 R12) -/

/-- Offset and width in bytes of every register of a pitch window (R363). -/
def windowRegs : List (Nat × Nat) :=
  [(0x000, 4), (0x004, 4), (0x008, 4), (0x00C, 4), (0x020, 4), (0x024, 4), (0x028, 4), (0x030, 4), (0x034, 4), (0x040, 4),
   (0x100, 8), (0x108, 4), (0x10C, 4), (0x110, 8), (0x118, 4), (0x140, 4), (0x180, 4), (0x184, 4), (0x188, 4), (0x18C, 4)] ++
  [(0x190, 4), (0x194, 4), (0x198, 4), (0x19C, 4), (0x1C0, 16), (0x1D0, 16), (0x1E0, 8), (0x1E8, 8), (0x1F0, 4), (0x1F4, 4),
   (0x1F8, 4)]

/-- Offset and width of every register of the status page (R364). -/
def statusRegs : List (Nat × Nat) :=
  [(0x000, 4), (0x004, 4), (0x008, 4), (0x00C, 4), (0x010, 8), (0x018, 4), (0x01C, 4), (0x020, 4), (0x024, 4)]

/-- A write of n bytes at offset o covers part of a register, but not all of it. The pointers QPTR are 2 bytes wide and never partial. -/
def partlyCovered (rs : List (Nat × Nat)) (o n : Nat) : Bool :=
  rs.any (fun r => r.1 < o + n && o < r.1 + r.2 && !(o ≤ r.1 && r.1 + r.2 ≤ o + n))
/-- The registers it covers whole, ascending. -/
def wholeRegs (rs : List (Nat × Nat)) (o n : Nat) : List (Nat × Nat) := rs.filter (fun r => o ≤ r.1 && r.1 + r.2 ≤ o + n)

/-- Write one whole register of a window, after ENGINE_READY and from a port it answers. RO, reserved and W1C fields follow 00 R12. -/
def State.putRegister (s : State) (h : HostPort) (p : PitchId) (reg v : Nat) : State :=
  match reg with
  | 0x000 => s.doorbell h p 0 (BitVec.ofNat 32 v)
  | 0x004 => s.doorbell h p 1 (BitVec.ofNat 32 v)
  | 0x008 => s.doorbell h p 2 (BitVec.ofNat 32 v)
  | 0x040 => if v % 2 = 1 then s.modPitch p (fun x => { x with degraded := false }) else s
  | 0x110 => s.stepSetOp p (BitVec.ofNat 64 v)
  | 0x118 => s.cursorSetOp p (BitVec.ofNat 32 v)
  | 0x140 => s.modPitch p (fun x => x.clearFlags (BitVec.ofNat 6 v))
  | 0x188 => s.lossInOp p (BitVec.ofNat 32 v)
  | 0x18C => s.modPitch p (fun x => { x with guard := { x.guard with updLr := BitVec.ofNat 32 v } })
  | 0x190 => s.modPitch p (fun x => { x with guard := { x.guard with updBc2 := BitVec.ofNat 32 v } })
  | _ => s

/-- A write entry covers part of a register. -/
def State.countPartial (s : State) (yes : Bool) : State :=
  if yes then { s with glob := { s.glob with regWriteDrops := s.glob.regWriteDrops + 1 } } else s

/-- The value a write gives the register at offset r of width n, from data whose first byte lies at offset o. -/
def writeValue (data o r n : Nat) : Nat := data / 256 ^ (r - o) % 256 ^ n

/-- Apply a write of n bytes of data to the window of pitch p at offset o (R360, R54). -/
def State.windowPut (s : State) (h : HostPort) (p : PitchId) (o n data : Nat) : State :=
  let regs := wholeRegs windowRegs o n
  if !s.glob.engineReady then
    { s with latched := s.latched ++ (regs.filter (fun r => r.1 ≤ 8)).map (fun r =>
        ⟨h, p, r.1, BitVec.ofNat 32 (writeValue data o r.1 4)⟩) }
  else
    (regs.foldl (fun s r => s.putRegister h p r.1 (writeValue data o r.1 r.2)) s).countPartial (partlyCovered windowRegs o n)

/-- Apply one entry of a register flit (R359): reads change nothing. -/
def State.applyEntry (s : State) (h : HostPort) (e : RegEntry) : State :=
  let a := e.addr.toNat
  let st := s.entryStatus h e
  let s := if st = 1 then { s with glob := { s.glob with regDenied := s.glob.regDenied + 1 } } else s
  if st ≠ 0 || (e.op ≠ 3 && e.op ≠ 4) then s
  else
    let n := if e.op = 4 then 8 else 4
    match windowPitch a with
    | some p => s.windowPut h p (a % 4096) n e.data.toNat
    | none => s.countPartial (partlyCovered statusRegs (a % 4096) n)

/-- The answer to one entry, from the state before the flit (R359). -/
def State.answerEntry (s : State) (h : HostPort) (e : RegEntry) : BitVec 8 × W64 :=
  let st := s.entryStatus h e
  let n := if e.op = 2 then 8 else 4
  (BitVec.ofNat 8 st, if st = 0 && (e.op = 1 || e.op = 2) then BitVec.ofNat 64 (s.registerRead h e.addr.toNat n) else 0)

/-- A register flit: every read sees the state before it, its writes apply in entry order (R358, R359). -/
def State.registerFlit (s : State) (h : HostPort) (es : List RegEntry) : State :=
  (es.foldl (fun s e => s.applyEntry h e) s).sendHost h (.regAnswer (es.map (s.answerEntry h)))

/-- REGISTER_WRITE (R359). -/
def execRegisterWrite (h : HostPort) (es : List RegEntry) (s : State) : Result := live s (fun s =>
  s.hostIn h 250 (fun s => s.registerFlit h es))

/-! ## The data sub-channel (R361, R362; 01 R495) -/

/-- Values 0 to n − 1 of a staged bucket after an access that changes unspecified bytes of it. -/
def disturbWords (k bucket first n : Nat) (m : Sparse W32) : Sparse W32 :=
  (List.range n).filterMap (fun i =>
    let v := Config.freeStagedValue k bucket (first + i) (sget m i 0)
    if v = 0 then none else some (i, v))

/-- A host write into the bucket staging area of a pitch that runs: what the area holds becomes unspecified: every v and staged g,
zeros among them, and every placed broadcast with its SCALE. What lies in the spill region is out of its reach. -/
def Pitch.disturb (x : Pitch) (n : Nat) : Pitch :=
  { x with
    runs := x.runs.map (fun r => if r.home then r else { r with
      v := disturbWords n r.bucket 0 (r.statNext * bBlock (r.head x)) r.v
      placed := r.placed.map (fun q => (q.1, {
        scale := (Config.freeStagedValue n r.bucket (2 ^ 33 + q.1) (BitVec.ofNat 32 q.2.scale)).toNat % 256
        codes := q.2.codes.zipIdx.map (fun c =>
          (Config.freeStagedValue n r.bucket (2 ^ 32 + 512 * q.1 + c.2) (BitVec.ofNat 32 c.1)).toNat % 65536) })) })
    ingests := x.ingests.map (fun i => { i with
      g := if i.home then i.g else disturbWords n i.bucket (2 ^ 34) (bElements (x.bucketD i.bucket)) i.g
      ranges := i.ranges.map (fun g => { g with
        data := g.data.map (fun e => (e.1, Config.freeStagingByte n (g.offset * 4 + e.1))) }) }) }

/-- Bytes of an access outside the bucket staging area, as runs of (address, bytes). -/
def outsideArea (lo hi a : Nat) (d : Bytes) : List (Nat × Bytes) := [(a, d.take (lo - a)), (max a hi, d.drop (hi - a))]

/-- MEM_DENIED. -/
def State.memDenied (s : State) : State := { s with glob := { s.glob with memDenied := s.glob.memDenied + 1 } }

/-- A host write (R362, R495). -/
def State.hostWrite (s : State) (h : HostPort) (a : Nat) (d : Bytes) : State :=
  match s.accessor h a d.length with
  | none => s.memDenied
  | some p =>
    if (s.pitch p).meetsArea p a d.length then
      let l := (s.pitch p).layout p
      let (n, s) := s.draw
      let s := (outsideArea l.areaBase (l.areaBase + l.area) a d).foldl (fun s w => s.write w.1 w.2) s
      s.modPitch p (fun x => x.disturb n)
    else s.write a d

/-- MEM_WR (R362). -/
def execMemWr (h : HostPort) (a : BitVec 64) (d : Bytes) (s : State) : Result := live s (fun s =>
  s.hostIn h (16 + d.length) (fun s => s.hostWrite h a.toNat d))

/-- A host read and its answer (R362, R495). -/
def State.hostRead (s : State) (h : HostPort) (tag : W16) (a n : Nat) : State :=
  match s.accessor h a n with
  | none => s.memDenied.sendHost h (.memRdResp 1 tag [])
  | some p =>
    if (s.pitch p).meetsArea p a n then
      let l := (s.pitch p).layout p
      let (k, s) := s.draw
      let d := (s.readView p a n).zipIdx.map (fun e =>
        if l.areaBase ≤ a + e.2 && a + e.2 < l.areaBase + l.area then Config.freeStagingByte k (a + e.2) else e.1)
      s.sendHost h (.memRdResp 0 tag d)
    else s.sendHost h (.memRdResp 0 tag (s.readView p a n))

/-- MEM_RD (R362). -/
def execMemRd (h : HostPort) (tag : W16) (a : BitVec 64) (n : Nat) (s : State) : Result := live s (fun s =>
  s.hostIn h 16 (fun s => s.hostRead h tag a.toNat n))

/-! ## Reads the engine asks of hosts (R356) -/

/-- Ask for n bytes of host memory in pieces of at most 4,096, each under its own TAG. -/
def State.askHost (s : State) (h : HostPort) (a : W64) (n : Nat) (use : DmaUse) : State :=
  (List.range (divUp n 4096)).foldl (fun s k =>
    let len := min 4096 (n - 4096 * k)
    let at' : W64 := a + BitVec.ofNat 64 (4096 * k)
    let s := { s with dma := s.dma ++ [DmaReq.mk h s.dmaTag at' len (4096 * k) use], dmaTag := s.dmaTag + 1 }
    s.sendHost h (.dmaRd len (s.dmaTag - 1) at')) s

/-- The host port that carries work queue q's copies: its PORT, or the next bound port in service (R365). -/
def State.copyPort (s : State) (p : PitchId) (q : Nat) : HostPort :=
  let want := qPort ((s.pitch p).queueRec q)
  let up : List Nat := (List.range 8).filter (fun k => decide ((s.hostPorts.toList.getD k {}).modules ≠ 0))
  let order := (List.range 8).map (fun d => (want + d) % 8)
  let pick := if want ∈ up then want
    else (order.find? (fun k => decide (k ∈ up) && (s.pitch p).binding.ports.getLsbD k)).getD want
  Fin.ofNat 8 pick

/-- Write bytes to host memory over the pitch's first bound port in service, or a given port, in messages of at most 4,096. -/
def State.hostStore (s : State) (h : HostPort) (a : W64) (d : Bytes) : State :=
  (chunks 4096 d).zipIdx.foldl (fun s e => s.sendHost h (.dmaWr (a + BitVec.ofNat 64 (4096 * e.2)) e.1)) s

/-! ## Link errors and retrains (R357; 02 R34, R35) -/

/-- FSEQ of a flit, and whether its FCRC holds. -/
def flitSeq (f : Bytes) : BitVec 10 := BitVec.ofNat 10 (leAt f 0 2)
def flitOk (f : Bytes) : Bool := crc32c (f.take 252) = leAt f 252 4

/-- A damaged or missing flit is answered once with NAK, and the port discards flits until the replay. -/
def State.flitNak (s : State) (h : HostPort) : State :=
  let hp := s.hostPorts[h]
  if hp.discarding then s
  else ({ s with hostPorts := s.hostPorts.set h { hp with discarding := true, rxPart := [] } }).sendHost h (.link hp.rxLast true)

/-- The entries of a register flit (R358). -/
def flitEntries (payload : Bytes) : List RegEntry :=
  (chunks 16 (payload.take 240)).map (fun c =>
    ⟨BitVec.ofNat 8 (leAt c 0 1), BitVec.ofNat 48 (leAt c 2 6), BitVec.ofNat 64 (leAt c 8 8)⟩)

/-- Replay flits from the retry buffer: contents and FSEQ unchanged (R357). -/
def State.replay (s : State) (h : HostPort) (keep : Bytes → Bool) : State :=
  let hp := s.hostPorts[h]
  let fs := hp.retry.filter keep
  if fs.isEmpty || !s.hostUp h then s
  else { s with
    hostPorts := s.hostPorts.set h { hp with flitRetries := hp.flitRetries + 1 }
    hostOut := s.hostOut ++ fs.map (fun f => HostOut.mk h (.replayed f)) }

/-- A LINK message with NAK: replay from the flit after ACK_FSEQ. -/
def State.nakIn (s : State) (h : HostPort) (ack : BitVec 10) : State :=
  let last := s.hostPorts[h].txFseq
  s.replay h (fun f => (last - flitSeq f).toNat < (last - ack).toNat && flitSeq f ≠ ack)

/-- LINK_NAK (R357). -/
def execLinkNak (h : HostPort) (ack : BitVec 10) (s : State) : Result := live s (fun s => s.hostIn h 16 (fun s => s.nakIn h ack))

/-- 16 GT/s is supported only while the security state is OPEN or RMA (02 R33; 22 R465). -/
def State.rateAllowed (s : State) (r : HostRate) : Bool := r = .gt32 || s.secCode = 0 || s.secCode = 3

/-- The pitch for which a copy of descriptor data was asked. -/
def DmaUse.copies (u : DmaUse) (p : PitchId) : Bool :=
  match u with
  | .ingest q _ _ _ _ | .descriptor q _ => q = p
  | .command _ => false

/-- A link training of a host port finds these modules sound, at this rate: a module once disabled stays so until the next reset
(notes/assumptions 100), and a rate that is not allowed brings no module up. -/
def State.trained (s : State) (h : HostPort) (modules : BitVec 4) (rate : HostRate) : State :=
  { s with hostPorts := s.hostPorts.set h { s.hostPorts[h] with
      modules := if s.rateAllowed rate then modules else 0, rate := rate } }

/-- A retrain of a host port (02 R34, R35): flits are sent again; each pitch whose copies on the port pause counts one pause; lost
modules are reported, and stay disabled until the next reset (notes/assumptions 100). -/
def State.hostRetrain (s : State) (h : HostPort) (modules : BitVec 4) (rate : HostRate) : State :=
  let old := s.hostPorts[h].modules
  let now := old &&& modules
  let s := s.trained h now rate
  let s := s.replay h (fun _ => true)
  let paused := allPitches.filter (fun p => s.dma.any (fun d => d.port = h && d.use.copies p))
  let s := paused.foldl (fun s p => s.modPitch p (fun x => x.addOne .ndcTime 1)) s
  if now = old then s else s.repairDone (89 + h.val) 9 actWithdrawn 0 0

/-- HOST_LINK_RETRAIN (02 R35). -/
def execHostLinkRetrain (h : HostPort) (modules : BitVec 4) (rate : HostRate) (s : State) : Result :=
  live s (fun s => s.hostRetrain h modules rate)

end Sys2Proof.Machine
end

