-- ==== Sys2Proof/Machine/Ingest.lean ====
section
/-! DEFINITION. Work descriptors as they are read (17 R368, R369, R374), and phase I: ingest descriptors and the data they copy
(06 R130 to R133). -/

namespace Sys2Proof.Machine

/-! ## Reading work queues -/

/-- What becomes of a descriptor that has been read and checked: it ends with a status, is acted on, or waits for host bytes. -/
inductive DescOut
  | refuse (status detail : Nat)
  | take (f : State → State)
  | wait (s : State)

/-- What acting on a descriptor needs: the descriptor as it was read, with the key of its host reads. -/
abbrev DescWork := DescJob → State → DescOut

/-- The 64 bytes at the head of a work queue of a RUNNING pitch. -/
def State.headDesc (s : State) (p : PitchId) (q : Nat) : Option Bytes :=
  let x := s.pitch p
  if x.mode = .running && isWorkQueue q && (x.qptr q).head ≠ (x.qptr q).tail then
    (x.entryAddr p q (x.qptr q).head).map (fun a => s.read a 64)
  else none

/-- KIND of a descriptor. -/
def descKind (d : Bytes) : Nat := (d.headD 0).toNat
/-- COOKIE. -/
def descCookie (d : Bytes) : W64 := BitVec.ofNat 64 (leAt d 56 8)

/-- The queue stalls at its head until a held STEP_SET applies (R374). -/
def Pitch.descStalled (x : Pitch) (d : Bytes) : Bool :=
  match x.time.held with
  | some v => 1 ≤ descKind d && descKind d ≤ 4 && leAt d 4 2 = v.toNat % 65536
  | none => false

/-- Work queues whose head can be read now, ascending: not empty, not stalled. -/
def State.readableQueues (s : State) (p : PitchId) : List Nat :=
  let x := s.pitch p
  (x.queues.ptrs.map Prod.fst).filter (fun q => match s.headDesc p q with | some d => !x.descStalled d | none => false)

/-- The queue whose turn it is (R368). -/
def State.turn (s : State) (p : PitchId) : Option Nat :=
  let qs := s.readableQueues p
  match qs.find? (fun q => (s.pitch p).queues.lastWq < q) with
  | some q => some q
  | none => qs.head?

/-- The head passes the descriptor, which has been checked, and the next key is used up. -/
def Pitch.popDesc (x : Pitch) (q : Nat) : Pitch :=
  let y := x.setQptr q { x.qptr q with head := (x.qptr q).head + 1 }
  { y with queues := { y.queues with lastWq := q }, nextJob := y.nextJob + 1 }

/-- The key of the host reads of the descriptor that is read next: above those of exports. -/
def Pitch.descKey (x : Pitch) : Nat := 4096 + x.nextJob

/-- A key's host bytes are no longer needed. -/
def Pitch.dropFetch (x : Pitch) (key : Nat) : Pitch :=
  { x with queues := { x.queues with
      fetchBad := x.queues.fetchBad.erase key
      fetched := x.queues.fetched.filter (fun e => e.1 ≠ key) } }

/-- A descriptor that waited for host bytes leaves the list of those. -/
def Pitch.dropJob (x : Pitch) (key : Nat) : Pitch :=
  { x with queues := { x.queues with jobs := x.queues.jobs.filter (fun j => j.key ≠ key) } }.dropFetch key

/-- A descriptor ends with a status. -/
def State.endDesc (s : State) (p : PitchId) (j : DescJob) (status detail : Nat) : State :=
  s.complete p (descKind j.desc) status j.wq j.wqHead detail (descCookie j.desc)

/-- Act on a descriptor that has been checked, or have it wait for host bytes. -/
def State.runDesc (s : State) (p : PitchId) (work : DescWork) (j : DescJob) : State :=
  match work j s with
  | .refuse st det => (s.modPitch p (fun x => x.dropJob j.key)).endDesc p j st det
  | .take f => f (s.modPitch p (fun x => x.dropJob j.key))
  | .wait s => s.modPitch p (fun x => { x with queues := { x.queues with jobs := upsert (fun k => k.key = j.key) (fun _ => j) j x.queues.jobs } })

/-- Read the descriptor at the head of queue q where it is this queue's turn and its KIND is of the row's: it is checked, the head
passes it, and what it asks for is done or begun (R366, R368). -/
def State.descriptor (s : State) (p : PitchId) (q : Nat) (mine : Bytes → Bool) (check : Bytes → Check) (work : DescWork) : State :=
  match s.headDesc p q with
  | none => s
  | some d =>
    let x := s.pitch p
    if mine d && !x.descStalled d && s.turn p = some q then
      let j : DescJob := ⟨x.descKey, q, (x.qptr q).head + 1, d⟩
      let t := s.modPitch p (fun x => x.popDesc q)
      match check d with
      | some r => (if descKind d = 1 then t.count p .ingestRefused else t).endDesc p j r.status r.detail
      | none => t.runDesc p work j
    else s

/-- The first byte of a descriptor that holds a set bit of a list of reserved bit ranges (high, low). -/
def reservedByte (d : Bytes) (rs : List (Nat × Nat)) : Option Nat :=
  let v := leNat d
  let bad := rs.foldl (fun a r => a ||| ((bitsOf v r.1 r.2) <<< r.2)) 0
  if bad = 0 then none else some (lowByte bad)

/-- Refuse a descriptor with a reserved bit set. -/
def rsvCheck (d : Bytes) (rs : List (Nat × Nat)) : Check :=
  match reservedByte d rs with
  | some k => some ⟨eReserved, k⟩
  | none => none

/-- Test 2 of work descriptors: the step is ACTIVE and is the descriptor's. -/
def Pitch.stepIs (x : Pitch) (d : Bytes) : Bool := x.time.state = .active && leAt d 4 2 = x.time.step.toNat % 65536

/-- RESERVED_KIND_DESCRIPTOR (R369): refused with E_RESERVED at the byte of KIND. -/
def execReservedKindDescriptor (p : PitchId) (q : Nat) (s : State) : Result :=
  live s (fun s => s.descriptor p q (fun d => descKind d = 0 || 5 < descKind d) (fun _ => need false eReserved 0) (fun _ _ => .take id))

/-! ## Sparse runs -/

/-- Replace the entries of keys lo to lo + |vals| − 1, dropping defaults. -/
def sputRun {α : Type} [DecidableEq α] (m : Sparse α) (lo : Nat) (vals : List α) (d : α) : Sparse α :=
  m.filter (fun e => e.1 < lo) ++ (vals.zipIdx.filterMap (fun e => if e.1 = d then none else some (lo + e.2, e.1)))
    ++ m.filter (fun e => lo + vals.length ≤ e.1)

/-- The n entries from key lo on. -/
def sgetRun {α : Type} (m : Sparse α) (lo n : Nat) (d : α) : List α :=
  let part := m.filter (fun e => lo ≤ e.1 && e.1 < lo + n)
  (List.range n).map (fun i => sget part (lo + i) d)

/-- Bytes of a list of FP32 words. -/
def wordBytes (ws : List W32) : Bytes := ws.flatMap (fun w => leBytes 4 w.toNat)
/-- FP32 words of bytes. -/
def bytesWords (bs : Bytes) : List W32 := (chunks 4 bs).map (fun c => BitVec.ofNat 32 (leNat c))

/-- n words of HBM from address a. -/
def State.words (s : State) (a n : Nat) : List W32 := bytesWords (s.read a (4 * n))

/-- The address in the spill region of element `off` of the bucket that lies there, in element order (01 R21; notes/assumptions
31). -/
def Pitch.spillAddr (x : Pitch) (p : PitchId) (off : Nat) : Nat := x.cfg p 9 + 4 * off

/-- n values of a run from its element `lo` on, where phase S left them: the spill region or staging (01 R21). -/
def State.runV (s : State) (p : PitchId) (r : BucketRun) (lo n : Nat) : List W32 :=
  if r.home then s.words ((s.pitch p).spillAddr p lo) n else sgetRun r.v lo n 0

/-- n staged values of g of a bucket from its element `lo` on. -/
def State.stagedG (s : State) (p : PitchId) (i : Ingest) (lo n : Nat) : List W32 :=
  if i.home then s.words ((s.pitch p).spillAddr p lo) n else sgetRun i.g lo n 0

/-! ## Values from the host (R130, R132) -/

/-- A value times 2^k. -/
def Val.scale (v : Val) (k : Int) : Val :=
  match v with
  | .fin n m e => .fin n m (e + k)
  | v => v

/-- The value of an element code: a float, or an MXINT8 element, which counts in 2^-6. -/
def hostElem (fmt code : Nat) : Val :=
  match floatOf fmt with
  | some f => f.decode code
  | none => let n := ofTwos 8 code; .fin (n < 0) n.natAbs (-6)

/-- The elements of a landed range as FP32, with the flags of the roundings and the number of non-finite sources. -/
def IngestRange.values (r : IngestRange) (ls : Int) : List (W32 × BitVec 6 × Bool) :=
  let w := fmtBits r.hostFmt
  let bits := bitsOfBytes (sgetRun r.data 0 (r.count * w / 8) 0)
  (chunks w bits).zipIdx.map (fun e =>
    let x := (sget r.scales (e.2 / 32) (0 : Byte)).toNat
    let h := hostElem r.hostFmt (natOfBits e.1)
    let v := if !r.mx then h else if x = 0xFF then .nan else h.scale ((x : Int) - 127)
    let (c, fl, nf) := fp32.convert .rne 0 (v.scale (-ls - r.unscale))
    (BitVec.ofNat 32 c, fl, nf))

/-- Bytes a range copies. -/
def IngestRange.need (r : IngestRange) : Nat := r.count * fmtBits r.hostFmt / 8 + (if r.mx then r.count / 32 else 0)

/-! ## Applying ranges (R133) -/

/-- ADD of one element to an accumulation pair: the 8 bytes and flags. -/
def accAdd (old : Bytes) (g : W32) : Bytes × BitVec 6 :=
  let (t, f0) := sumVals [fp32.decode (leAt old 0 4), fp32.decode (leAt old 4 4), val32 g]
  let (hi, f1) := to32 t
  if finite32 hi then
    let (lo, f2) := to32 (sumVals [t, (val32 hi).negate]).1
    (leBytes 4 hi.toNat ++ leBytes 4 lo.toNat, f0 ||| f1 ||| f2)
  else (leBytes 4 hi.toNat ++ leBytes 4 0, f0 ||| f1)

/-- The ingest record of a bucket. -/
def Pitch.ingest (x : Pitch) (b : Nat) : Ingest := (x.ingests.find? (fun i => i.bucket = b)).getD { bucket := b }
/-- Replace it. -/
def Pitch.setIngest (x : Pitch) (i : Ingest) : Pitch := { x with ingests := upsert (fun j => j.bucket = i.bucket) (fun _ => i) i x.ingests }

/-- Write or add the elements of one landed range. -/
def State.applyRange (s : State) (p : PitchId) (b : Nat) (r : IngestRange) : State :=
  let x := s.pitch p
  let vs := r.values x.guard.lsStep
  let gs := vs.map (fun v => v.1)
  let fl := vs.foldl (fun a v => a ||| v.2.1) 0
  let x := (x.raise fl).count .nonfiniteConv (vs.filter (fun v => v.2.2)).length
  let i := x.ingest b
  let single := i.openMb = 0 && i.mbLast = some true
  let acc := bAccBase (x.bucketD b) + 8 * r.offset
  let s := s.setPitch p x
  if single then
    let n := bElements (x.bucketD b)
    if i.home || (i.g.isEmpty && x.spills p n && x.regionFits p n && !x.regionHeld [b]) then
      (s.setPitch p (x.setIngest { i with home := true })).write (x.spillAddr p r.offset) (wordBytes gs)
    else s.setPitch p (x.setIngest { i with g := sputRun i.g r.offset gs 0 })
  else if r.mb = 0 then s.write acc (gs.flatMap (fun g => leBytes 4 g.toNat ++ leBytes 4 0))
  else
    let out := List.zipWith accAdd (chunks 8 (s.read acc (8 * r.count))) gs
    (s.write acc (out.flatMap Prod.fst)).raise p (out.foldl (fun a o => a ||| o.2) 0)

/-- The next landed range that may be applied: every range of an earlier micro-batch has been. -/
def Ingest.nextRange (i : Ingest) : Option IngestRange :=
  i.ranges.find? (fun r => !r.applied && r.got = r.need && i.ranges.all (fun q => r.mb ≤ q.mb || q.applied))

/-- Apply ranges in micro-batch order. -/
def applyRanges (p : PitchId) (b : Nat) : Nat → State → State
  | 0, s => s
  | n + 1, s =>
    match ((s.pitch p).ingest b).nextRange with
    | none => s
    | some r =>
      let s := s.applyRange p b r
      applyRanges p b n (s.modPitch p (fun x =>
        let i := x.ingest b
        x.setIngest { i with ranges := i.ranges.map (fun q =>
          if q.mb = r.mb && q.offset = r.offset then { q with applied := true, data := [], scales := [] } else q) }))

/-- The oldest micro-batch with ranges, where it is complete: all its blocks covered and copied. -/
def Ingest.ripe (i : Ingest) : Option Nat :=
  match i.ranges.head? with
  | none => none
  | some r =>
    let k := (i.ranges.map IngestRange.mb).foldl min r.mb
    if (k < i.openMb || i.mbDone) && i.ranges.all (fun q => q.mb ≠ k || q.applied) then some k else none

/-- Complete the descriptors of every complete micro-batch (R133). -/
def completeBatches (p : PitchId) (b : Nat) : Nat → State → State
  | 0, s => s
  | n + 1, s =>
    let i := (s.pitch p).ingest b
    match i.ripe with
    | none => s
    | some k =>
      let mine := i.ranges.filter (fun r => r.mb = k)
      let last := k = i.openMb && i.mbLast = some true
      let i := { i with
        ranges := i.ranges.filter (fun r => r.mb ≠ k)
        complete := last
        outs := if last then mine else [] }
      let s := s.modPitch p (fun x => x.setIngest i)
      completeBatches p b n (mine.foldl (fun s r => s.complete p 1 stOk r.wq r.wqHead 0 r.cookie) s)

/-- Host data of a range arrives: `off` is its place in the elements or the scales. -/
def State.ingestArrive (s : State) (p : PitchId) (b mb rangeOff : Nat) (scales : Bool) (off : Nat) (d : Bytes) : State :=
  let i := (s.pitch p).ingest b
  let put := fun (r : IngestRange) =>
    if scales then { r with scales := sputRun r.scales off d 0, got := r.got + d.length }
    else { r with data := sputRun r.data off d 0, got := r.got + d.length }
  let i := { i with ranges := replaceFirst (fun r => r.mb = mb && r.offset = rangeOff) put i.ranges }
  let s := s.modPitch p (fun x => if x.ingests.any (fun j => j.bucket = b) then x.setIngest i else x)
  completeBatches p b i.ranges.length (applyRanges p b i.ranges.length s)

/-! ## Checks (R131) -/

/-- Phase S of the bucket has begun. -/
def Pitch.statsBegun (x : Pitch) (b : Nat) : Bool := match x.runOf b with | some r => r.statNext ≠ 0 || r.statsDone | none => false

/-- Reserved bits of an ingest descriptor. -/
def ingestRsv (mx : Bool) : List (Nat × Nat) := [(15, 11), (23, 21), (191, 160)] ++ (if mx then [] else [(447, 384)])

/-- The range an ingest descriptor names. -/
def ingestRange (d : Bytes) (q : Nat) (head : W16) : IngestRange :=
  { mb := leAt d 6 2, wq := q, wqHead := head, cookie := descCookie d, offset := leAt d 12 4, count := leAt d 16 4
    hostFmt := leAt d 2 1 % 32, mx := bitOf (leAt d 1 1) 2, unscale := ofTwos 8 (leAt d 3 1)
    hostAddr := BitVec.ofNat 64 (leAt d 24 8), outAddr := BitVec.ofNat 64 (leAt d 32 8)
    sideAddr := BitVec.ofNat 64 (leAt d 40 8), scaleAddr := BitVec.ofNat 64 (leAt d 48 8) }

/-- The tests of R131 in table order. -/
def Pitch.ingestCheck (x : Pitch) (d : Bytes) : Check :=
  let r := ingestRange d 0 0
  let b := leAt d 8 4
  let add := bitOf (leAt d 1 1) 0
  let last := bitOf (leAt d 1 1) 1
  let rec' := x.bucketD b
  let i := x.ingest b
  let acc := bAccBase rec'
  let mine := i.ranges.filter (fun g => g.mb = r.mb)
  let redone := r.mb = i.openMb && i.mbDone
  firstOf [rsvCheck d (ingestRsv r.mx), need (fmtKnown r.hostFmt) eReserved 2, need (x.stepIs d) eState 0,
    need (fmtHost r.hostFmt r.mx) eFormat 0,
    need (b < x.eff.buckets.length && r.offset + r.count ≤ bElements rec' && r.offset % bBlock rec' = 0 && r.count % bBlock rec' = 0
      && r.count ≠ 0) eRange 0,
    need (!x.statsBegun b && !(i.mbDone && i.mbLast = some true)) eOrder 0,
    need (if add then acc ≠ 0 && 1 ≤ r.mb else r.mb = 0 && (last || acc ≠ 0)) eOrder 0,
    need (r.mb = i.openMb || (i.mbDone && r.mb = i.openMb + 1)) eOrder 0,
    need (!redone && mine.all (fun g => g.offset + g.count ≤ r.offset || r.offset + r.count ≤ g.offset)
      && (r.mb ≠ i.openMb || i.mbLast.isNone || i.mbLast = some last)) eRange 0]

/-- Accept a range: coverage, then the copies. -/
def State.ingestAccept (s : State) (p : PitchId) (q : Nat) (d : Bytes) (head : W16) : State :=
  let x := s.pitch p
  let b := leAt d 8 4
  let r := ingestRange d q head
  let last := bitOf (leAt d 1 1) 1
  let i := x.ingest b
  let ranges := i.ranges ++ [r]
  let cover := sumOf ((ranges.filter (fun g => g.mb = r.mb)).map IngestRange.count)
  let i := { i with openMb := r.mb, mbLast := some last, ranges := ranges, mbDone := cover = bElements (x.bucketD b) }
  let s := s.setPitch p (x.setIngest i)
  let port := s.copyPort p q
  let s := s.askHost port r.hostAddr (r.count * fmtBits r.hostFmt / 8) (.ingest p b r.mb r.offset false)
  if r.mx then s.askHost port r.scaleAddr (r.count / 32) (.ingest p b r.mb r.offset true) else s

/-- INGEST_DESCRIPTOR (R131). -/
def execIngestDescriptor (p : PitchId) (q : Nat) (s : State) : Result :=
  live s (fun s => s.descriptor p q (fun d => descKind d = 1) (s.pitch p).ingestCheck
    (fun j _ => .take (fun s => s.ingestAccept p j.wq j.desc j.wqHead)))

end Sys2Proof.Machine
end

