-- ==== Sys2Proof/Machine/Stats.lean ====
section
/-! DEFINITION. Phase S and the selection passes (06 R134; 07 R154 to R163, R165; 09 R205; 05 R115). -/

namespace Sys2Proof.Machine

/-- The pipeline of a pitch works: it is RUNNING, a step is in progress, and it holds slots of the slices and of memory, since
no pitch uses a slot that it does not own (01 R24). -/
def Pitch.works (x : Pitch) : Bool := x.mode = .running && x.time.state ≠ .idle && x.slots 0 ≠ 0#64 && x.hasMemory

/-- The bucket whose next block phase S takes (R147): the first in bucket sequence whose phase I is complete. -/
def Pitch.nextStats (x : Pitch) : Option BucketRun :=
  if x.works then x.runs.find? (fun r => !r.statsDone && r.parts.all (fun b => (x.ingest b).complete)) else none

/-! ## Rows (07 R160) -/

/-- Offset in the run of the first element of the part that holds run offset o, with that part and its record. -/
def BucketRun.partOf (r : BucketRun) (x : Pitch) (o : Nat) : Nat × BitVec 1024 × Nat :=
  let n := bBlock (r.head x)
  let (b, j) := r.part x (o / n)
  (b, x.bucketD b, o / n * n - j * n)

/-- Logical element index of run offset o (03 R75). -/
def BucketRun.index (r : BucketRun) (x : Pitch) (o : Nat) : Nat :=
  let (_, rec', start) := r.partOf x o
  bElemBase rec' + (o - start)

/-- The row that holds run offset o, as run offsets [lo, hi). -/
def BucketRun.rowOf (r : BucketRun) (x : Pitch) (o : Nat) : Nat × Nat :=
  let (_, rec', start) := r.partOf x o
  let base := bElemBase rec'
  let idx := base + (o - start)
  match x.layerOf idx with
  | none => (o, o + 1)
  | some (_, l) =>
    let len := max 1 l.rowLen
    let k := (idx - l.first) / len
    let lo := max base (l.first + k * len)
    let hi := min (base + bElements rec') (min (l.first + l.count) (l.first + (k + 1) * len))
    (start + (lo - base), start + (hi - base))

/-- A list without the repeats of neighbours. -/
def dedup {α : Type} [DecidableEq α] : List α → List α
  | [] => []
  | a :: as => a :: (dedup as).dropWhile (· = a)

/-- The rows whose candidates block j of the run offers. -/
def BucketRun.rowsMet (r : BucketRun) (x : Pitch) (j : Nat) : List (Nat × Nat) :=
  let n := bBlock (r.head x)
  let sel := bSelect (r.head x)
  if sel = selTopkRow then dedup ((List.range n).map (fun i => r.rowOf x (j * n + i)))
  else if sel = selTopkBlock then [(j * n, (j + 1) * n)]
  else if sel = selPgu then [(0, r.elements x)]
  else []

/-- SEL_K of a row. PGU_TOPK of a fused bucket takes its first part's (notes/assumptions 111). -/
def BucketRun.rowK (r : BucketRun) (x : Pitch) (lo : Nat) : Nat :=
  if bSelect (r.head x) = selPgu then bSelK (r.head x) else bSelK (r.partOf x lo).2.1

/-- Offer the elements of block j to the row's list in pass `pass`; `vs` are the block's values. -/
def BucketRun.offerRow (r : BucketRun) (x : Pitch) (j : Nat) (vs : List W32) (row : SelRow) : SelRow :=
  let n := bBlock (r.head x)
  let k := r.rowK x row.lo
  let cands := (vs.zipIdx.filter (fun e => row.lo ≤ j * n + e.2 && j * n + e.2 < row.hi)).map (fun e => candOf (j * n + e.2) e.1)
  if 64 * r.pass < k then { row with list := seifMerge (seifCap k r.pass) row.taken.getLast? row.list cands } else row

/-- Offer block j to every row it meets. -/
def BucketRun.offerBlock (r : BucketRun) (x : Pitch) (j : Nat) (vs : List W32) : BucketRun :=
  (r.rowsMet x j).foldl (fun r b =>
    let fresh : SelRow := { lo := b.1, hi := b.2, list := [] }
    { r with rows := upsert (fun w => w.lo = b.1) (r.offerRow x j vs) (r.offerRow x j vs fresh) r.rows }) r

/-- Merges of lists that the pieces of block j make in the current pass (R158): one for each row with an earlier piece. -/
def BucketRun.mergesAt (r : BucketRun) (x : Pitch) (j : Nat) : Nat :=
  ((r.rowsMet x j).filter (fun b => b.1 < j * bBlock (r.head x) && 64 * r.pass < r.rowK x b.1)).length

/-- Passes that the run's selection takes. -/
def BucketRun.passes (r : BucketRun) (x : Pitch) : Nat := maxOf (r.rows.map (fun w => selPassesOf (r.rowK x w.lo)))

/-- A row keeps what the pass took. -/
def SelRow.keep (w : SelRow) : SelRow := { w with taken := w.taken ++ w.list, list := [] }

/-- A pass ends: each row keeps what it took. -/
def BucketRun.endPass (r : BucketRun) (x : Pitch) : BucketRun :=
  let r := { r with rows := r.rows.map SelRow.keep, pass := r.pass + 1 }
  { r with passesDone := r.passes x ≤ r.pass }

/-- Rows and blocks that hold fewer non-zero elements than SEL_K (R156), counted as the last pass ends. -/
def BucketRun.shortRows (r : BucketRun) (x : Pitch) : Nat :=
  if r.passesDone then (r.rows.filter (fun w => w.taken.length < r.rowK x w.lo)).length else 0

/-! ## Statistics of a block (R134) -/

/-- The exact terms that g contributes: the staged value, or the halves of the accumulation pair. -/
def State.gradTerms (s : State) (p : PitchId) (b j : Nat) : List (List Val) :=
  let x := s.pitch p
  let rec' := x.bucketD b
  let n := bBlock rec'
  let i := x.ingest b
  if i.openMb = 0 then (s.stagedG p i (j * n) n).map (fun g => [val32 g])
  else (chunks 8 (s.read (bAccBase rec' + 8 * j * n) (8 * n))).map (fun c => [fp32.decode (leAt c 0 4), fp32.decode (leAt c 4 4)])

/-- Stored residual pairs of a block, at the base given. -/
def State.residuals (s : State) (base fmt first n : Nat) : List (List Val) :=
  let z := resSize fmt
  (chunks z (s.read (base + z * first) (z * n))).map (fun c => resDecode fmt (leNat c))

/-- The segments of a run of n elements from logical index lo on, by layer: layer, its record, offset and length. -/
def Pitch.segments (x : Pitch) (lo n : Nat) : List (Nat × LayerRec × Nat × Nat) :=
  x.layers.zipIdx.filterMap (fun e =>
    let a := max lo e.1.first
    let z := min (lo + n) (e.1.first + e.1.count)
    if a < z then some (e.2, e.1, a - lo, z - a) else none)

/-- Add the sums of squares of a block's layer segments to the layers' IN registers (05 R113, R115; 14 R310). -/
def State.addSquares (s : State) (p : PitchId) (lo : Nat) (eb : Int) (vs : List W32) : State :=
  ((s.pitch p).segments lo vs.length).foldl (fun s g =>
    match g.2.1.normErg 0 with
    | none => s
    | some k =>
      let (sum, tails) := squareSum eb (cut vs g.2.2.1 g.2.2.2)
      (s.ergAddTo ((s.pitch p).erg p k) sum).count p .ergTailAdds tails) s

/-- Count the non-finite v of a block by layer (R134; 14 R310). -/
def Pitch.countLayers (x : Pitch) (lo : Nat) (vs : List W32) : Pitch :=
  { x with guard := { x.guard with
      layerNf := (x.segments lo vs.length).foldl (fun m g =>
        sset m g.1 (sget m g.1 0 + ((cut vs g.2.2.1 g.2.2.2).filter (fun w => !finite32 w)).length) 0) x.guard.layerNf } }

/-- Histogram counts of THRESH (07 R161). -/
def histAdd (h : Sparse Nat) (vs : List W32) : Sparse Nat :=
  vs.foldl (fun h w => if finite32 w && w.toNat % 2 ^ 31 ≠ 0 then sput h (threshBinOf w) (sget h (threshBinOf w) 0 + 1) else h) h

/-- Predicted class counts of a block (09 R205). -/
def symAdd (w : Nat) (eb : Int) (cnt : List Nat) (vs : List W32) : List Nat :=
  (vs.filter finite32).foldl (fun c v =>
    let k := classOf (zigzag (ofTwos (intBits w) (quantise w eb .rtz 0 (val32 v)).code))
    c.set k (c.getD k 0 + 1)) cnt

/-- The Packer builds the run's class table (R205, R207). -/
def BucketRun.coded (r : BucketRun) (x : Pitch) : Bool := bPackCode (r.head x) && (classMax (bWire (r.head x))).isSome

/-- The end of phase S: the class table, the threshold, and pass 0 of the selection. Answers counts for SEL_SHORT and
THRESH_EXCESS. THRESH of a fused bucket takes its first part's SEL_DENSITY (notes/assumptions 111). -/
def BucketRun.endStats (r : BucketRun) (x : Pitch) : BucketRun × Nat × Nat :=
  let h := r.head x
  let r := { r with
    statsDone := true
    lens := if r.coded x then buildLengths r.symCount ((classMax (bWire h)).getD 0) else r.lens }
  let r := r.endPass x
  if bSelect h = selThresh then
    let target := threshTarget (r.elements x) (bDensity h)
    match threshScan r.hist target 2047 0 with
    | some (bin, n) => ({ r with threshBin := some bin }, 0, n - target)
    | none => ({ r with threshAll := true }, 1, 0)
  else if bSelect h = selLowrank then ({ r with lr := some { initQ := r.bucket ∉ x.qValid, nf := r.nf } }, 0, 0)
  else (r, r.shortRows x, 0)

/-- Phase S of the run puts its v into the spill region: it spills, fits, and no other bucket lies there. A bucket that finds the
region taken keeps its v beside it (01 R21; notes/assumptions 31). -/
def Pitch.takesRegion (x : Pitch) (p : PitchId) (r : BucketRun) : Bool :=
  x.spills p (r.elements x) && x.regionFits p (r.elements x) && !x.regionHeld r.parts
    && (r.parts.length ≤ 1 || r.parts.all (fun b => !(x.ingest b).home))

/-- Phase S of block j of a run. Its rounding of v raises the flags of R98 (notes/assumptions 105). -/
def State.statsBlock (s : State) (p : PitchId) (r : BucketRun) (j : Nat) : State :=
  let x := s.pitch p
  let h := r.head x
  let n := bBlock h
  let (b, jb) := r.part x j
  let rec' := x.bucketD b
  let lo := bElemBase rec' + jb * n
  let terms := List.zipWith (· ++ ·) (s.gradTerms p b jb) (s.residuals (bResBase rec') (bResFmt rec') (jb * n) n)
  let sums := terms.map (fun t => let (v, f) := sumVals t; let (w, g) := to32 v; (w, f ||| g))
  let vs := sums.map Prod.fst
  let fl := sums.foldl (fun a e => a ||| e.2) 0
  let (eb, floored) := blockExponent vs
  let spill := r.spilled || (j = 0 && x.spills p (r.elements x))
  let home := r.home || (j = 0 && x.takesRegion p r)
  let merges := r.mergesAt x j
  let r := { r with
    spilled := spill
    home := home
    statNext := j + 1
    v := if home then r.v else sputRun r.v (j * n) vs 0
    codes := r.codes ++ [(eb + 127).toNat]
    nf := r.nf || vs.any (fun v => !finite32 v)
    hist := if bSelect h = selThresh then histAdd r.hist vs else r.hist
    symCount := if r.coded x then symAdd (bWire h) eb r.symCount vs else r.symCount }
  let r := r.offerBlock x j vs
  let (r, short, excess) := if j + 1 = r.blocks x then r.endStats x else (r, 0, 0)
  let y := (((x.raise fl).countLayers lo vs).count .scaleFloor (bit floored)).count .vSpill (bit (spill && j = 0))
  let y := ((y.count .seifMerges merges).count .selShort short).count .threshExcess excess
  let i := y.ingest b
  let y := (y.setIngest { i with
    g := i.g.filter (fun e => e.1 < jb * n || (jb + 1) * n ≤ e.1)
    home := i.home && !r.statsDone }).setRun r
  let s := (s.setPitch p y).addSquares p lo eb vs
  if home then s.write (x.spillAddr p (j * n)) (wordBytes vs) else s

/-- The Erg banks of norm `n` of a block's layers are the pitch's to use (01 R24). -/
def Pitch.normBanks (x : Pitch) (p : PitchId) (b k n : Nat) : Bool :=
  let rec' := x.bucketD b
  x.hasBanks p ((x.segments (bElemBase rec' + k * bBlock rec') (bBlock rec')).filterMap (fun g => g.2.1.normErg n))

/-- Block j of a run may run phase S: the area has room for its v (01 R495), and its Erg banks are the pitch's (01 R24). -/
def BucketRun.mayStats (r : BucketRun) (x : Pitch) (p : PitchId) (j : Nat) : Bool :=
  (r.home || (j = 0 && x.takesRegion p r) || x.areaUsed + 4 * bBlock (r.head x) ≤ (x.layout p).area || r.spilled
    || x.spills p (r.elements x))
    && x.normBanks p (r.part x j).1 (r.part x j).2 0

/-- STATS_BLOCK (R134): `bucket` is the first part of the run. -/
def execStatsBlock (p : PitchId) (bucket block : Nat) (check : BlockCheck) (s : State) : Result :=
  live s (fun s =>
    let x := s.pitch p
    match x.nextStats with
    | some r =>
      if r.bucket = bucket && r.statNext = block && r.mayStats x p block then
        s.checkedBlock p block check (fun s => s.statsBlock p r block)
      else s
    | none => s)

/-! ## Later passes (07 R159) -/

/-- One selection pass over the bucket. -/
def State.selectionPass (s : State) (p : PitchId) (r : BucketRun) : State :=
  let x := s.pitch p
  let n := bBlock (r.head x)
  let merges := sumOf ((List.range (r.blocks x)).map (fun j => r.mergesAt x j))
  let r := (List.range (r.blocks x)).foldl (fun r j => r.offerBlock x j (s.runV p r (j * n) n)) r
  let r := r.endPass x
  s.setPitch p ((((x.count .selPasses).count .seifMerges merges).count .selShort (r.shortRows x)).setRun r)

/-- SELECTION_PASS (R159). -/
def execSelectionPass (p : PitchId) (bucket : Nat) (s : State) : Result :=
  live s (fun s =>
    let x := s.pitch p
    match x.runs.find? (fun r => r.bucket = bucket) with
    | some r => if x.works && r.statsDone && !r.passesDone then s.selectionPass p r else s
    | none => s)

end Sys2Proof.Machine
end

