-- ==== Sys2Proof/Machine/Window.lean ====
section
/-! DEFINITION. Plan order (03 R69, R71) and the assignment of frames to windows (03 R70), which takes place as soon as a frame's
size is known. -/

namespace Sys2Proof.Machine

/-! ## Plan order (03 R69, R71) -/

/-- The key of a frame that a run may still form: phase, destination, block in the run, block field. -/
abbrev ToCome := Nat × Nat × Nat × Nat

/-- Other ranks. -/
def Pitch.others (x : Pitch) : List Nat := (List.range x.size).filter (· ≠ x.rank)

/-- Streams of a kind that wait for the pack ring. -/
def Pitch.waiting (x : Pitch) (run kind : Nat) : List Nat :=
  (x.tx.packWait.filter (fun w => w.run = run && w.kind = kind)).map PackItem.block

/-- Frames a bucket in phases X and G may still form. -/
def BucketRun.toCome (r : BucketRun) (x : Pitch) : List ToCome :=
  let js := (List.range (r.blocks x)).filter (fun j => !r.stoppedPart (r.part x j).1)
  let wait := x.waiting r.bucket kindContrib
  let contrib := (js.filter (fun j => r.quantNext ≤ j || j ∈ r.retry || j ∈ wait)).map (fun j =>
    let (b, k) := r.part x j
    (0, x.owner b k, j, k))
  let bcast := (js.filter (fun j => r.bnext ≤ j && x.owns (r.part x j).1 (r.part x j).2)).flatMap (fun j =>
    x.others.map (fun m => (1, m, j, (r.part x j).2)))
  let opened := r.payloads.flatMap (fun o =>
    let j := o.first + r.offset x o.bucket
    if o.kind = kindBcast then x.others.map (fun m => (1, m, j, o.first)) else [(0, o.dest, j, o.first)])
  contrib ++ bcast ++ opened

/-- Frames one factor exchange may still form: `now` where it is the exchange in progress. -/
def BucketRun.factorToCome (r : BucketRun) (x : Pitch) (l : LrRun) (phase blocks : Nat) (now : Bool) : List ToCome :=
  let fs := List.range blocks
  let wait := x.waiting r.bucket kindContrib
  let contrib := (fs.filter (fun f => !now || l.quantNext ≤ f || f ∈ l.retry || f ∈ wait)).map (fun f => (phase, x.owner r.bucket f, f, f))
  let opened := if now then r.payloads.map (fun o => (phase, o.dest, o.first, o.first)) else []
  let sums := (fs.filter (fun f => x.owns r.bucket f && !(now && f ∈ l.arrived))).flatMap (fun f =>
    x.others.map (fun m => (phase + 1, m, f, tgFactorSum)))
  contrib ++ opened ++ sums

/-- Frames a LOWRANK bucket may still form. -/
def BucketRun.lowToCome (r : BucketRun) (x : Pitch) (l : LrRun) : List ToCome :=
  let h := r.head x
  let n := bBlock h
  (if l.stage ≤ 2 then r.factorToCome x l 0 (divUp (bLrPWords h) n) (l.stage = 2) else [])
    ++ (if l.stage ≤ 5 then r.factorToCome x l 2 (divUp (bLrQWords h) n) (l.stage = 5) else [])

/-- The plan key of a windowed frame. -/
def TxFrame.key (f : TxFrame) : List Nat := [f.planSeq, f.planPhase, f.dst, f.planBlock, f.planIdx]

/-- A frame earlier in plan order on the same logical port may still be packed (R71). -/
def Pitch.heldBack (x : Pitch) (f : TxFrame) : Bool :=
  x.runs.any (fun r => r.seq ≤ f.planSeq &&
      (match r.lr with | some l => r.lowToCome x l | none => if r.isLow x then r.lowToCome x {} else r.toCome x).any (fun t =>
        decide ([r.seq, t.1, t.2.1, t.2.2.1, 0] < f.key) && (t.2.1 + t.2.2.2) % 16 = f.lp))
    || (x.pegs.zipIdx.drop x.time.nextPeg).any (fun g => x.time.state ≠ .idle && g.1.action = actStart && g.2 < f.planSeq)
    || x.exchanges.any (fun e => e.own.isSome && e.totals.isNone && e.stepLo = x.stepLo && e.seq < f.planSeq)

/-! ## Windows (03 R70 to R72) -/

/-- Budget entries of the step's windows in order. -/
def Pitch.windowEntries (x : Pitch) : List Nat := (x.pegs.filter (fun g => g.action = actOpen)).map (fun g => g.arg0.toNat)

/-- R70: the port's state, the window (none: drain), deferrals, and whether the frame is sent alone for its size. -/
def assignGo (x : Pitch) (entries : List Nat) (lp size : Nat) : Nat → LpWin → Nat → LpWin × Option Nat × Nat × Bool
  | 0, l, d => (l, none, d, false)
  | n + 1, l, d =>
    match entries[l.w]? with
    | none => (l, none, d, false)
    | some e =>
      let b := (x.budgets.getD e []).getD lp 0
      if b = 0 then assignGo x entries lp size n { l with w := l.w + 1, used := 0 } d
      else if l.used + size ≤ b then ({ l with used := l.used + size }, some l.w, d, false)
      else if l.used = 0 then ({ l with w := l.w + 1, used := 0 }, some l.w, d, true)
      else assignGo x entries lp size n { l with w := l.w + 1, used := 0 } (d + 1)

/-- The state of windows of a logical port. -/
def Pitch.lpWin (x : Pitch) (lp : Nat) : LpWin := x.tx.lps.toList.getD lp {}
def Pitch.setLpWin (x : Pitch) (lp : Nat) (l : LpWin) : Pitch := { x with tx := { x.tx with lps := x.tx.lps.setIfInBounds lp l } }

/-- The frame of a logical port that is assigned next: the first windowed one in plan order without a window. -/
def Pitch.toAssign (x : Pitch) (lp : Nat) : Option TxFrame := x.tx.txq.find? (fun f => f.windowed && f.window.isNone && f.lp = lp)

/-- Assign the next frame of a logical port, once nothing before it can still be packed; none: nothing can be assigned now. -/
def Pitch.assignNext (x : Pitch) (p : PitchId) (lp : Nat) : Option Pitch :=
  match x.toAssign lp with
  | none => none
  | some f =>
    if x.time.state = .idle || x.heldBack f then none
    else
      let es := x.windowEntries
      let (l, w, d, ovf) := assignGo x es lp (x.frameSize p f.payload.length) (es.length + 1) (x.lpWin lp) 0
      let y := (((x.count .winDefer d).count .winOversize (bit ovf)).count .winDrain (bit w.isNone)).setLpWin lp l
      some { y with tx := { y.tx with txq := replaceFirst (fun g => g = f) (fun g => { g with window := some w }) y.tx.txq } }

/-- Assign the frames of a logical port one after another. -/
def Pitch.assignPort (p : PitchId) (lp : Nat) : Nat → Pitch → Pitch
  | 0, x => x
  | n + 1, x => match x.assignNext p lp with
    | some y => Pitch.assignPort p lp n y
    | none => x

/-- Assign every frame whose size is known and which nothing can precede any more (R70). -/
def Pitch.assignAll (x : Pitch) (p : PitchId) : Pitch :=
  (List.range 16).foldl (fun x lp => Pitch.assignPort p lp x.tx.txq.length x) x

/-- Windowed frames join the queue; their size is known, so that they are assigned. -/
def State.sendWindowed (s : State) (p : PitchId) (fs : List TxFrame) : State := (s.enqueueAll p fs).modPitch p (fun x => x.assignAll p)

end Sys2Proof.Machine
end

