-- ==== Sys2Proof/Machine/Pack.lean ====
section
/-! DEFINITION. Phase P: the pack ring, frame payloads of streams and the frames that carry them (09 R206 to R209; 06 R139;
03 R69; 11 R496; 08 R180). -/

namespace Sys2Proof.Machine

/-! ## Slots of the pack ring (R208) -/

/-- The slot a stream of the run takes. -/
def BucketRun.slot (r : BucketRun) (x : Pitch) (kind : Nat) : Nat :=
  let h := r.head x
  slotSize (if kind = kindContrib then bWire h else bBcast h) (bBlock h) (bSparse h)

/-- Slots of the ring in use: those of open payloads, of broadcast streams that wait for earlier ones, and of payloads not yet
acknowledged. -/
def Pitch.ringUsed (x : Pitch) : List (Nat × Nat) :=
  let slots := x.runs.flatMap (fun r => r.payloads.flatMap OpenPayload.ring ++ r.bstreams.map (fun b => b.2.2))
    ++ x.tx.txq.flatMap TxFrame.ring ++ x.tx.out.flatMap (fun o => o.frame.ring)
  slots.map (fun e => (e.off, e.size))

/-- The free slot of the ring that a stream takes (notes/assumptions 106). -/
def Pitch.ringPlace (x : Pitch) (p : PitchId) (slot : Nat) : Option Nat := firstFit x.ringUsed (1024 * x.cfg p 7) slot
/-- The ring has a free slot. -/
def Pitch.ringRoom (x : Pitch) (p : PitchId) (slot : Nat) : Bool := (x.ringPlace p slot).isSome
/-- Address of the pack ring in staging (19 R418). -/
def Pitch.ringBase (x : Pitch) (p : PitchId) : Nat := (x.layout p).start + (x.layout p).cplBytes

/-- Bytes of the slots of a payload. -/
def OpenPayload.slots (o : OpenPayload) : Nat := sumOf (o.ring.map RingSlot.size)

/-- The plaintext of a frame: its streams as they lie in the pack ring, or the payload kept for it (11 R266). -/
def State.plaintext (s : State) (p : PitchId) (f : TxFrame) : Bytes :=
  if f.ring.isEmpty then f.payload else f.ring.flatMap (fun e => s.read ((s.pitch p).ringBase p + e.off) e.len)

/-! ## Factors of a LOWRANK bucket (08 R180) -/

/-- Words of the factor in exchange: P_loc in stage 2, Q_loc in stage 5. -/
def BucketRun.factorWords (r : BucketRun) (x : Pitch) : Nat := if r.lrStage ≤ 2 then bLrPWords (r.head x) else bLrQWords (r.head x)
/-- Its blocks. -/
def BucketRun.factorBlocks (r : BucketRun) (x : Pitch) : Nat := divUp (r.factorWords x) (bBlock (r.head x))

/-! ## Frames of payloads -/

/-- Frames that carry a closed payload: to its destination, or for a broadcast to every other rank in ascending order. -/
def OpenPayload.frames (o : OpenPayload) (x : Pitch) (r : BucketRun) (ring : Nat) (last : Bool) : List TxFrame :=
  let h := x.bucketD o.bucket
  let bcast := o.kind = kindBcast
  let second := r.isLow x && 2 < r.lrStage
  let op := if bcast then opWrite else if sumWide (bWire h) then opAdd64 else opAdd32
  let dests := if bcast then (List.range x.size).filter (· ≠ x.rank) else [o.dest]
  dests.map (fun k =>
    { dst := k, opcode := BitVec.ofNat 8 op, bucket := BitVec.ofNat 32 o.bucket, block := BitVec.ofNat 32 o.first
      payload := o.bytes, ackNow := last, windowed := true, planSeq := r.seq
      planPhase := bit bcast + 2 * bit second, planBlock := o.first + r.offset x o.bucket
      ringId := ring, ring := o.ring, use := .stream })

/-- Close a payload: its frames join the queue. -/
def Pitch.closePayload (x : Pitch) (r : BucketRun) (o : OpenPayload) (last : Bool) : Pitch :=
  let y := { x with tx := { x.tx with nextRing := x.tx.nextRing + 1 } }
  (o.frames x r x.tx.nextRing last).foldl Pitch.enqueue y

/-- A stream joins the open payload of its bucket, destination and kind, or opens a new one (R209); `last` closes it. -/
def Pitch.joinPayload (x : Pitch) (r : BucketRun) (b dest kind index : Nat) (bytes : Bytes) (slot : RingSlot) (last : Bool) :
    Pitch × BucketRun :=
  let same := fun (o : OpenPayload) => o.bucket = b && o.dest = dest && o.kind = kind
  let fresh : OpenPayload := ⟨b, dest, kind, index, bytes, [slot]⟩
  let rest := r.payloads.filter (fun o => !same o)
  let (x, o) := match r.payloads.find? same with
    | none => (x, fresh)
    | some o =>
      if o.bytes.length + bytes.length ≤ 4096 && o.slots + slot.size ≤ 16384 then
        (x, { o with bytes := o.bytes ++ bytes, ring := o.ring ++ [slot] })
      else (x.closePayload r o false, fresh)
  if last then (x.closePayload r o true, { r with payloads := rest }) else (x, { r with payloads := rest ++ [o] })

/-! ## Broadcast streams in order (R209) -/

/-- The next block from run block j on that this member owns and broadcasts. -/
def BucketRun.nextOwned (r : BucketRun) (x : Pitch) : Nat → Nat → Option Nat
  | 0, _ => none
  | f + 1, j =>
    if r.blocks x ≤ j then none
    else
      let (b, k) := r.part x j
      if x.owns b k && !r.stoppedPart b then some j else r.nextOwned x f (j + 1)

/-- Group finished broadcast streams while the next owned block's stream is there. -/
def groupBcast : Nat → Pitch → BucketRun → Pitch × BucketRun
  | 0, x, r => (x, r)
  | n + 1, x, r =>
    match r.nextOwned x (r.blocks x + 1) r.bnext with
    | none => (x, r)
    | some j =>
      match r.bstreams.find? (fun e => e.1 = j) with
      | none => (x, r)
      | some (_, bytes, slot) =>
        let (b, k) := r.part x j
        let last := bBlocks (x.bucketD b) ≤ k + x.size
        let r := { r with bstreams := r.bstreams.filter (fun e => e.1 ≠ j), bnext := j + 1 }
        let (x, r) := x.joinPayload r b 0 kindBcast k bytes slot last
        groupBcast n x r

/-! ## The Packer -/

/-- Count a stream by its CODING. -/
def Pitch.countStream (x : Pitch) (bytes : Bytes) : Pitch :=
  let c := bitsOf (leAt bytes 0 4) 17 16
  x.count (if c = 0 then .packFixed else if c = 1 then .packClass else .packZero)

/-- Group a stream that lies in its slot (R209). A repeat attempt's stream forms a payload of its own. -/
def Pitch.groupStream (x : Pitch) (r : BucketRun) (j kind : Nat) (bytes : Bytes) (slot : RingSlot) : Pitch :=
  let x := x.countStream bytes
  if kind = kindBcast then
    let r := { r with bstreams := r.bstreams ++ [(j, bytes, slot)] }
    let (x, r) := groupBcast (r.bstreams.length + 1) x r
    x.setRun r
  else
    let low := r.isLow x
    let (b, k) := if low then (r.bucket, j) else r.part x j
    let blocks := if low then r.factorBlocks x else bBlocks (x.bucketD b)
    let repeated := (match r.lr with | some l => sget l.attempts j 0 | none => sget r.attempts j 0) ≠ 0
    let dest := x.owner b k
    if repeated then (x.closePayload r ⟨b, dest, kind, k, bytes, [slot]⟩ true).setRun r
    else
      let (x, r) := x.joinPayload r b dest kind k bytes slot (blocks ≤ k + x.size)
      x.setRun r

/-- Write a stream at the start of its slot (R208); the frames that it completes are assigned to windows (03 R70). -/
def State.packStream (s : State) (p : PitchId) (r : BucketRun) (j kind : Nat) (bytes : Bytes) (off : Nat) : State :=
  let x := s.pitch p
  (s.write (x.ringBase p + off) bytes).setPitch p ((x.groupStream r j kind bytes ⟨off, r.slot x kind, bytes.length⟩).assignAll p)

/-- A stream waits for a free slot; each wait counts (R208). -/
def Pitch.packLater (x : Pitch) (r : BucketRun) (j kind : Nat) (bytes : Bytes) : Pitch :=
  let y := (x.setRun r).count .packRingStalls
  { y with tx := { y.tx with packWait := y.tx.packWait ++ [⟨r.bucket, j, kind, bytes⟩] } }

/-- A stream of the run reaches the Packer: it is written, or waits. -/
def State.toPacker (s : State) (p : PitchId) (r : BucketRun) (j kind : Nat) (bytes : Bytes) : State :=
  let x := s.pitch p
  match (if x.tx.packWait.isEmpty then x.ringPlace p (r.slot x kind) else none) with
  | some off => s.packStream p r j kind bytes off
  | none => s.setPitch p (x.packLater r j kind bytes)

/-- The Packer waits. -/
def Pitch.packerWaits (x : Pitch) : Bool := !x.tx.packWait.isEmpty

/-- A Packer that waited resumes with the stream it holds. -/
def State.packerResume (s : State) (p : PitchId) : State :=
  let x := s.pitch p
  match x.tx.packWait with
  | [] => s
  | w :: rest =>
    match x.runs.find? (fun r => r.bucket = w.run) with
    | none => s.setPitch p { x with tx := { x.tx with packWait := rest } }
    | some r =>
      match (if x.works then x.ringPlace p (r.slot x w.kind) else none) with
      | some off => (s.setPitch p { x with tx := { x.tx with packWait := rest } }).packStream p r w.block w.kind w.bytes off
      | none => s

/-- PACKER_RESUME (R208). -/
def execPackerResume (p : PitchId) (s : State) : Result := live s (fun s => s.packerResume p)

end Sys2Proof.Machine
end

