-- ==== Sys2Proof/Machine/Quantise.lean ====
section
/-! DEFINITION. Phase Q (06 R137 to R139, R141, R147; 07 R155, R162, R164, R167, R172). -/

namespace Sys2Proof.Machine

/-- The draw of a stochastic rounding or of RANDK for logical index idx (06 R138). -/
def Pitch.draw16 (x : Pitch) (p : PitchId) (purpose idx rank : Nat) : Nat :=
  sandgrain16 (x.seed p) (x.gen p) purpose idx x.time.step.toNat rank

/-- Offsets within block j of the run that its selection takes, ascending; `vs` are the block's values. -/
def BucketRun.selected (r : BucketRun) (x : Pitch) (p : PitchId) (j : Nat) (vs : List W32) : List Nat :=
  let h := r.head x
  let n := bBlock h
  let sel := bSelect h
  let nz := (List.range n).filter (fun i => (vs.getD i 0).toNat % 2 ^ 31 ≠ 0)
  if sel = selTopkRow || sel = selTopkBlock then
    let taken := r.rows.flatMap (fun w => (w.taken.map Cand.offset).filter (fun o => j * n ≤ o && o < (j + 1) * n))
    (List.range n).filter (fun i => j * n + i ∈ taken)
  else if sel = selThresh then
    nz.filter (fun i => r.threshAll || (match r.threshBin with | some b => b ≤ threshBinOf (vs.getD i 0) | none => false))
  else if sel = selRandk then
    let rec' := (r.partOf x (j * n)).2.1
    nz.filter (fun i => x.draw16 p purposeRandk (r.index x (j * n + i)) (if bRandkShared rec' then 0 else x.rank) < bDensity rec')
  else if sel = selPgu then (List.range n).filter (fun i => j * n + i ∈ r.pgu)
  else List.range n

/-- The next block of a run for phase Q (R147): a repeat attempt, else the next first attempt. -/
def BucketRun.nextQuant (r : BucketRun) (x : Pitch) : Option Nat :=
  if r.isLow x || !r.passesDone || !r.parts.all (fun b => (r.agreedOf b).isSome) then none
  else match r.retry with
    | a :: as => some (as.foldl min a)
    | [] => ((List.range (r.blocks x)).drop r.quantNext).find? (fun j => !r.stoppedPart (r.part x j).1)

/-- The run and block that phase Q takes next. -/
def Pitch.nextQuant (x : Pitch) : Option (BucketRun × Nat) :=
  if x.works && !x.packerWaits then x.runs.findSome? (fun r => (r.nextQuant x).map (fun j => (r, j))) else none

/-- The agreed code of block j of the run, with its attempts. -/
def BucketRun.scaleOf (r : BucketRun) (x : Pitch) (j : Nat) : Nat :=
  let (b, k) := r.part x j
  (match r.agreedOf b with | some (codes, _) => codes.getD k 0 | none => 0) + sget r.attempts j 0

/-- Phase Q of one block: codes on the grid, the member residual, and its stream to the Packer. -/
def State.quantiseBlock (s : State) (p : PitchId) (r : BucketRun) (j : Nat) : State :=
  let x := s.pitch p
  let (b, k) := r.part x j
  let rec' := x.bucketD b
  let n := bBlock rec'
  let w := bWire rec'
  let scale := r.scaleOf x j
  let e : Int := (scale : Int) - 127
  let vs := s.runV p r (j * n) n
  let sel := r.selected x p j vs
  let mode := modeOf (bQRound rec')
  let qs := sel.map (fun i =>
    let rnd := if mode = .sr then x.draw16 p purposeQ (bElemBase rec' + k * n + i) x.rank else 0
    (i, quantise w e mode rnd (val32 (vs.getD i 0))))
  let ds := (List.range n).map (fun i =>
    let v := val32 (vs.getD i 0)
    match qs.find? (fun q => q.1 = i) with
    | some (_, q) => (sumVals [v, (dequant w e q.code).negate]).1
    | none => v)
  let res := ds.map (resEncode (bResFmt rec'))
  let resBytes := res.flatMap (fun q => leBytes (resSize (bResFmt rec')) q.1)
  let codes := qs.map (fun q => q.2.code)
  let qmax := maxOf (codes.map (fun c => (codeUnits w c).natAbs))
  let st : Stream := ⟨kindContrib, w, n, bSparse rec', k, scale, qmax, sel, codes, false⟩
  let bytes := (encodeStream st (if r.coded x then some r.lens else none)).1
  let r := { r with
    quantNext := max r.quantNext (j + 1)
    retry := r.retry.filter (· ≠ j)
    streams := if x.pairing.isSome then (r.streams.filter (fun t => t.1 ≠ j)) ++ [(j, bytes)] else r.streams }
  let y := (x.noteQuant (qs.map Prod.snd)).raise (res.foldl (fun a q => a ||| q.2) 0)
  ((s.setPitch p (y.setRun r)).toPacker p r j kindContrib bytes).write
    (bResBase rec' + resSize (bResFmt rec') * (k * n)) resBytes

/-- QUANTISE_BLOCK (R137). -/
def execQuantiseBlock (p : PitchId) (bucket block : Nat) (check : BlockCheck) (s : State) : Result :=
  live s (fun s =>
    match (s.pitch p).nextQuant with
    | some (r, j) =>
      if r.bucket = bucket && j = block then s.checkedBlock p j check (fun s => s.quantiseBlock p r j) else s
    | none => s)

end Sys2Proof.Machine
end

