-- ==== Sys2Proof/Machine/Agree.lean ====
section
/-! DEFINITION. Agreement over the collective tree (10 R227 to R229, R248; 06 R135, R136; 07 R165 to R167; 08 R180). -/

namespace Sys2Proof.Machine

/-! ## Records (R227) -/

/-- What an agreement record says. -/
structure AgreeRec where
  bucket : Nat
  stepLo : Nat
  round  : Nat
  nf     : Bool
  codes  : List Nat
  listN  : Nat
  list   : List Cand
  deriving DecidableEq, Repr

/-- The empty entry of a list. -/
def emptyCand : Cand := ⟨0, 0xFFFFFFFF⟩

/-- Bytes of a record. -/
def AgreeRec.bytes (a : AgreeRec) : Bytes :=
  leBytes 4 a.bucket ++ leBytes 2 a.stepLo ++ leBytes 1 a.round ++ leBytes 1 (bit a.nf) ++ leBytes 4 a.codes.length
    ++ leBytes 2 a.listN ++ [0, 0] ++ padTo (roundUp a.codes.length 8) (a.codes.map (BitVec.ofNat 8))
    ++ candBytes ((a.list ++ List.replicate (a.listN - a.list.length) emptyCand).take a.listN)

/-- Read a record. -/
def agreeOf (bs : Bytes) : AgreeRec :=
  let n := leAt bs 8 4
  let k := leAt bs 12 2
  { bucket := leAt bs 0 4, stepLo := leAt bs 4 2, round := leAt bs 6 1, nf := bitOf (leAt bs 7 1) 0
    codes := (cut bs 16 n).map BitVec.toNat, listN := k
    list := (candsOf (cut bs (16 + roundUp n 8) (8 * k))).filter (fun c => c.offset ≠ 0xFFFFFFFF) }

/-- MAX of two E8M0 codes; 0xFF is NaN and precedes nothing (R229, 05 R120). -/
def codeMax (a b : Nat) : Nat := if a = 0xFF then b else if b = 0xFF then a else max a b

/-- Combine two records (R229). -/
def AgreeRec.combine (a b : AgreeRec) : AgreeRec :=
  { a with nf := a.nf || b.nf, codes := List.zipWith codeMax a.codes b.codes, list := pguCombine a.listN a.list b.list }

/-- Codes a record of a bucket and round carries, and LIST_N; none where the bucket runs no such round. -/
def Pitch.agreeShape (x : Pitch) (b round : Nat) : Option (Nat × Nat) :=
  match x.bucket b with
  | none => none
  | some r =>
    if bSelect r = selLowrank then
      if round = 2 then some (divUp (bLrPWords r) (bBlock r), 0)
      else if round = 5 then some (divUp (bLrQWords r) (bBlock r), 0) else none
    else if round = 0 then some (bBlocks r, if bSelect r = selPgu then bSelK r else 0) else none

/-- Length of a record. -/
def agreeLen (codes listN : Nat) : Nat := 16 + roundUp codes 8 + 8 * listN

/-- The fragment checks of R229: those of its header, where it carries it, and its length. -/
def Pitch.fragOk (x : Pitch) (b : Nat) (down : Bool) (src off : Nat) (d : Bytes) : Bool :=
  let from' := if down then x.rank ≠ 0 && src = treeParent x.rank else src ∈ x.children
  let fits := fun (round : Nat) => match x.agreeShape b round with
    | none => false
    | some (n, k) =>
      let len := agreeLen n k
      off < len && d.length = min 4096 (len - off)
        && (off ≠ 0 || (leAt d 0 4 = b && leAt d 6 1 = round && leAt d 8 4 = n && leAt d 12 2 = k))
  from' && off % 4096 = 0 && (fits 0 || fits 2 || fits 5)

/-! ## The tree (R228) -/

/-- The agreement of a bucket and round in the step of stepLo. -/
def Pitch.agree (x : Pitch) (b round : Nat) (lo : W16) : Agree :=
  (x.agrees.find? (fun a => a.bucket = b && a.round = round && a.stepLo = lo)).getD { bucket := b, round := round, stepLo := lo }
def Pitch.setAgree (x : Pitch) (a : Agree) : Pitch :=
  { x with agrees := upsert (fun c => c.bucket = a.bucket && c.round = a.round && c.stepLo = a.stepLo) (fun _ => a) a x.agrees }

/-- A bucket of the step is non-finite: counted and reported (06 R136; 08 R186). -/
def Pitch.bucketNonfinite (x : Pitch) : Pitch := (x.count .nonfiniteBuckets).reportNonfinite

/-- A LOWRANK bucket becomes non-finite (08 R185, R186). -/
def Pitch.lrStop (x : Pitch) (r : BucketRun) : Pitch :=
  (x.setRun { r with lr := r.lr.map (fun l => { l with stage := lrNonfinite }) }).bucketNonfinite

/-- A member applies an agreed record (R229; 06 R135, R136; 07 R167). -/
def State.applyAgreed (s : State) (p : PitchId) (a : AgreeRec) : State :=
  let x := s.pitch p
  match x.runOf a.bucket with
  | none => s
  | some r =>
    let y :=
      if (if a.round = 0 then (r.agreedOf a.bucket).isSome else r.lrStage ≠ a.round || (r.lr.bind LrRun.agreed).isSome) then x
      else if a.round = 0 then
        let r := { r with
          agreed := r.agreed ++ [(a.bucket, a.codes, a.nf)]
          pgu := if a.bucket = r.bucket then a.list.map Cand.offset else r.pgu }
        let y := x.setRun r
        if a.nf then y.bucketNonfinite else y
      else if a.nf then x.lrStop r
      else x.setRun { r with lr := r.lr.map (fun l => { l with agreed := some a.codes }) }
    (s.setPitch p y).guardProgress p

/-- Send the agreed record to the children, and apply it once the own record is there. -/
def State.agreeDone (s : State) (p : PitchId) (a : Agree) (bytes : Bytes) : State :=
  let s := s.modPitch p (fun x => x.setAgree { a with agreed := some bytes, sent := true })
  let s := (s.pitch p).children.foldl (fun s c => s.enqueueAll p (recordFrames c a.bucket tgAgreeDown bytes)) s
  if a.stepLo = (s.pitch p).stepLo && a.own.isSome then s.applyAgreed p (agreeOf bytes) else s

/-- Once the own record and every child's are there: on to the parent, or at rank 0 back down (R228). -/
def State.agreeProgress (s : State) (p : PitchId) (a : Agree) : State :=
  let x := s.pitch p
  match a.own with
  | none => s.setPitch p (x.setAgree a)
  | some own =>
    if a.agreed.isSome && a.stepLo = x.stepLo then (s.setPitch p (x.setAgree a)).applyAgreed p (agreeOf (a.agreed.getD []))
    else if a.sent || !x.children.all (fun c => a.kids.any (fun k => k.1 = c)) then s.setPitch p (x.setAgree a)
    else
      let all := (a.kids.foldl (fun acc k => acc.combine (agreeOf k.2)) (agreeOf own)).bytes
      if x.rank = 0 then s.agreeDone p a all
      else (s.setPitch p (x.setAgree { a with sent := true })).enqueueAll p (recordFrames (treeParent x.rank) a.bucket tgAgreeUp all)

/-- Exponents of the blocks of a factor (08 R180 step 3): padding takes no part. -/
def factorCodes (block : Nat) (ws : List W32) : List (Nat × Bool) :=
  (chunks block ws).map (fun c => let (e, fl) := blockExponent c; ((e + 127).toNat, fl))

/-- Base of the factor in exchange, in the work region (notes/assumptions 32): P_loc first, then Q_loc. -/
def BucketRun.factorBase (r : BucketRun) (x : Pitch) : Nat :=
  let h := r.head x
  bLrWBase h + (if r.lrStage ≤ 2 then 0 else 4 * bLrPWords h)

/-- The words of the factor in exchange. -/
def State.factorLoc (s : State) (x : Pitch) (r : BucketRun) : List W32 :=
  bytesWords (s.read (r.factorBase x) (4 * r.factorWords x))

/-- The own record of a part, where its phase or stage has finished; and how many exponents were floored. -/
def State.ownRecord (s : State) (p : PitchId) (b round : Nat) : Option (AgreeRec × Nat) :=
  let x := s.pitch p
  match x.runOf b, x.agreeShape b round with
  | some r, some (n, k) =>
    let lo := x.time.step.toNat % 65536
    if round = 0 then
      if r.statsDone && (bSelect (r.head x) ≠ selPgu || r.passesDone) then
        let list := if b = r.bucket then (r.rows.map SelRow.taken).flatten else []
        some (⟨b, lo, 0, r.nf, cut r.codes (r.offset x b) n, k, list⟩, 0)
      else none
    else match r.lr with
      | some l =>
        if l.stage = round then
          let codes := if round = 2 && r.nf then List.replicate n (0, false) else factorCodes (bBlock (r.head x)) (s.factorLoc x r)
          some (⟨b, lo, round, l.nf, codes.map Prod.fst, k, []⟩, (codes.filter Prod.snd).length)
        else none
      | none => none
  | _, _ => none

/-- AGREEMENT_RECORD_READY (R228): the own record enters its agreement, once. -/
def execAgreementRecordReady (p : PitchId) (b round : Nat) (s : State) : Result :=
  live s (fun s =>
    let x := s.pitch p
    let a := x.agree b round x.stepLo
    match s.ownRecord p b round with
    | some (rec', floors) =>
      if x.works && a.own.isNone then (s.count p .scaleFloor floors).agreeProgress p { a with own := some rec'.bytes } else s
    | none => s)

/-! ## Fragments -/

/-- Where a collective frame's STEP_LO stands (R248): this step or the next one. -/
def Pitch.stepUsable (x : Pitch) (lo : Nat) : Bool := keepLo x.time.step (BitVec.ofNat 16 lo)

/-- The fragments of one record on their way in. -/
def Pitch.assembly (x : Pitch) (src bucket : Nat) (down : Bool) : Assembly :=
  (x.assemblies.find? (fun a => a.src = src && a.bucket = bucket && a.down = down)).getD ⟨src, bucket, down, [], 0⟩
def Pitch.setAssembly (x : Pitch) (a : Assembly) : Pitch :=
  let rest := x.assemblies.filter (fun c => c.src ≠ a.src || c.bucket ≠ a.bucket || c.down ≠ a.down)
  { x with assemblies := if a.frags.isEmpty && a.stale = 0 then rest else rest ++ [a] }

/-- Add a fragment; answers the whole record once its `len` bytes are there. -/
def Pitch.assemble (x : Pitch) (src bucket : Nat) (down : Bool) (off : Nat) (d : Bytes) (len : Bytes → Nat) : Pitch × Option Bytes :=
  let a := x.assembly src bucket down
  let frags := upsert (fun f => f.1 = off) (fun _ => (off, d)) (off, d) a.frags
  match frags.find? (fun f => f.1 = 0) with
  | some (_, h) =>
    let n := len h
    let parts := (List.range (divUp n 4096)).map (fun k => (frags.find? (fun f => f.1 = 4096 * k)).map Prod.snd)
    match allSome parts with
    | some bs => if bs.flatten.length = n then (x.setAssembly { a with frags := [] }, some bs.flatten)
                 else (x.setAssembly { a with frags := frags }, none)
    | none => (x.setAssembly { a with frags := frags }, none)
  | none => (x.setAssembly { a with frags := frags }, none)

/-- Drop a collective frame for its STEP_LO (R248). -/
def State.collStale (s : State) (p : PitchId) : State := s.count p .collStale

/-- The header of a record shows a STEP_LO that is neither this step's nor the next one's: every fragment of the record that has come
is dropped and counted, and the others will be as they come (R248; notes/assumptions 107). -/
def State.staleRecord (s : State) (p : PitchId) (a : Assembly) (len : Nat) : State :=
  let seen := (a.frags.filter (fun f => f.1 ≠ 0)).length
  (s.count p .collStale (1 + seen)).modPitch p (fun x =>
    x.setAssembly { a with frags := a.frags.filter (fun f => f.1 = 0), stale := a.stale + (divUp len 4096 - 1 - seen) })

/-- A fragment beyond the first belongs to a stale record: no usable header is there for it. -/
def Assembly.staleAt (a : Assembly) (off : Nat) : Bool := off ≠ 0 && a.stale ≠ 0 && !a.frags.any (fun f => f.1 = 0)

/-- One more fragment of a stale record. -/
def State.staleFragment (s : State) (p : PitchId) (a : Assembly) : State :=
  (s.collStale p).modPitch p (fun x => x.setAssembly { a with stale := a.stale - 1 })

/-- An accepted AGREE fragment (R228, R248). -/
def State.agreeFragment (s : State) (p : PitchId) (b : Nat) (down : Bool) (src off : Nat) (d : Bytes) : State :=
  let x := s.pitch p
  let a := x.assembly src b down
  if off = 0 && !x.stepUsable (leAt d 4 2) then s.staleRecord p a (agreeLen (leAt d 8 4) (leAt d 12 2))
  else if a.staleAt off then s.staleFragment p a
  else
    let (y, whole) := x.assemble src b down off d (fun h => agreeLen (leAt h 8 4) (leAt h 12 2))
    let s := s.setPitch p y
    match whole with
    | none => s
    | some bytes =>
      let r := agreeOf bytes
      let a := y.agree b r.round (BitVec.ofNat 16 r.stepLo)
      if down then s.agreeDone p a bytes
      else s.agreeProgress p { a with kids := upsert (fun k => k.1 = src) (fun _ => (src, bytes)) (src, bytes) a.kids }

end Sys2Proof.Machine
end

