-- ==== Sys2Proof/Machine/Reduce.lean ====
section
/-! DEFINITION. Reduce-scatter and all-gather: contributions at the owner, the overflow test and RETRY, phase G, placed
broadcasts and LOWRANK factor sums (06 R140 to R144; 10 R230 to R233, R235; 08 R180). -/

namespace Sys2Proof.Machine

/-! ## Placing (06 R144) -/

/-- The placed form of a broadcast: header and FIXED codes. -/
def placedBytes (fmt block index : Nat) (q : Placed) : Bytes :=
  let st : Stream := ⟨kindBcast, fmt, block, false, index, q.scale, 0, [], q.codes, false⟩
  let body := fixedBits fmt q.codes
  streamHeader st 0 false q.codes.length body.length ++ sectionBytes body

/-- The placed broadcast of block j of a run as phases O reads it: from staging, or from the spill region (01 R21). -/
def State.placedOf (s : State) (p : PitchId) (r : BucketRun) (j : Nat) : Option Placed :=
  let x := s.pitch p
  let h := r.head x
  match r.placedAt j with
  | none => none
  | some q =>
    if !r.home || q.scale = 0xFF then some q
    else
      let a := x.spillAddr p (j * bBlock h)
      let bits := fixedLen (bBcast h) (bBlock h)
      let codes := readFixed (bBcast h) (bBlock h) ((bitsOfBytes (s.read (a + 16) (divUp bits 8))).take bits)
      some ⟨(s.byte (a + 4)).toNat, codes.getD q.codes⟩

/-- Place the broadcast of block j of a run over its v. -/
def State.place (s : State) (p : PitchId) (bucket j : Nat) (q : Placed) : State :=
  let x := s.pitch p
  match x.runs.find? (fun r => r.bucket = bucket) with
  | none => s
  | some r =>
    let h := r.head x
    let y := x.setRun { r with placed := r.placed ++ [(j, q)] }
    let s := s.setPitch p (if q.scale = 0xFF then y.reportNonfinite else y)
    let s := if r.home then s.write (x.spillAddr p (j * bBlock h)) (placedBytes (bBcast h) (bBlock h) (r.part x j).2 q) else s
    s.guardProgress p

/-! ## Reduction words (06 R140) -/

/-- Bytes of a sum word. -/
def sumBytes (w : Nat) : Nat := if sumWide w then 8 else 4

/-- Address of the reduction word of element `off` of block k of bucket b. -/
def Pitch.redAddr (x : Pitch) (b k off : Nat) : Nat :=
  let r := x.bucketD b
  bRedBase r + sumBytes (bWire r) * (k * bBlock r + off)

/-- Add integers to words of z bytes from address a on, each modulo 2^(8z) (01 R16). -/
def State.addWords (s : State) (a z : Nat) (qs : List Int) : State :=
  s.write a ((List.zipWith (fun w (q : Int) => leBytes z (toTwos (8 * z) ((leNat w : Int) + q)))
    (chunks z (s.read a (z * qs.length))) qs).flatten)

/-- The contributions of a stream as one integer for each element of its block. -/
def streamUnits (st : Stream) : List Int :=
  (List.range st.block).map (fun i => match (st.offs.zip st.codes).find? (fun e => e.1 = i) with
    | some (_, c) => codeUnits st.fmt c
    | none => 0)

/-- The reduction words of a block as signed integers. -/
def State.sums (s : State) (p : PitchId) (b k : Nat) : List Int :=
  let x := s.pitch p
  let r := x.bucketD b
  let z := sumBytes (bWire r)
  (chunks z (s.read (x.redAddr b k 0) (z * bBlock r))).map (fun c => ofTwos (8 * z) (leNat c))

/-- Read-and-clear of a block's words, and its completion record reset. -/
def State.clearBlock (s : State) (p : PitchId) (b k : Nat) (c : CRec) : State :=
  let x := s.pitch p
  let r := x.bucketD b
  (s.erase (x.redAddr b k 0) (sumBytes (bWire r) * bBlock r)).setCrec p b k c

/-! ## Broadcasts of the owner -/

/-- The owner broadcasts block j of a run as non-finite (06 R143). -/
def State.broadcastNonfinite (s : State) (p : PitchId) (bucket j : Nat) : State :=
  let x := s.pitch p
  match x.runs.find? (fun r => r.bucket = bucket) with
  | none => s
  | some r =>
    let h := r.head x
    let st : Stream := ⟨kindBcast, bBcast h, bBlock h, bSparse h, (r.part x j).2, 0xFF, 0, [], [], false⟩
    let r := { r with gDone := r.gDone ++ [j] }
    let y := (x.raise fOF).count .bcastNonfinite
    ((s.setPitch p (y.setRun r)).toPacker p r j kindBcast (encodeStream st none).1).place p bucket j ⟨0xFF, []⟩

/-! ## Factor sums (08 R180; 10 R233) -/

/-- Bases in the work region of P and of Q̄e (notes/assumptions 32). -/
def lrPBase (h : BitVec 1024) : Nat := bLrWBase h + 4 * (bLrPWords h + bLrQWords h)
def lrQeBase (h : BitVec 1024) : Nat := bLrWBase h + 4 * (2 * bLrPWords h + bLrQWords h)

/-- A factor block's sums reach a member: S × unit as FP32 in the work region. The exchange ends with its last block. -/
def State.factorArrive (s : State) (p : PitchId) (b f scale : Nat) (sums : List Int) : State :=
  let x := s.pitch p
  match x.runOf b with
  | none => s
  | some r =>
    match r.lr with
    | none => s
    | some l =>
      if (l.stage ≠ 2 && l.stage ≠ 5) || f ∈ l.arrived then s
      else
        let h := r.head x
        let n := bBlock h
        let base := if l.stage = 2 then lrPBase h else lrQeBase h
        let vals := sums.map (fun q => to32 (.fin (q < 0) q.natAbs ((scale : Int) - 127 + gridOff (bWire h))))
        let keep := vals.take (min n (r.factorWords x - f * n))
        let fl := keep.foldl (fun a v => a ||| v.2) 0
        let bad := l.bad || scale = 0xFF || keep.any (fun v => !finite32 v.1)
        let arrived := l.arrived ++ [f]
        let done := arrived.length = r.factorBlocks x
        let l := { l with arrived := arrived, bad := bad }
        let s := (s.setPitch p ((x.raise (if scale = 0xFF then 0 else fl)).setRun { r with lr := some l }))
        let s := if scale = 0xFF then s else s.write (base + 4 * f * n) (wordBytes (keep.map Prod.fst))
        if !done then s
        else if bad then (s.modPitch p (fun x => match x.runOf b with | some r => x.lrStop r | none => x)).guardProgress p
        else
          let next : LrRun := { l with
            stage := l.stage + 1, tiles := 0, nf := false, agreed := none, quantNext := 0, attempts := [], retry := [], arrived := [] }
          (s.modPitch p (fun x => x.setRun { r with lr := some next })).guardProgress p

/-- One FACTOR_SUM frame. -/
def factorFrame (x : Pitch) (r : BucketRun) (dst f scale : Nat) (sums : List Int) : TxFrame :=
  { dst := dst, opcode := BitVec.ofNat 8 opWrite, bucket := BitVec.ofNat 32 r.bucket, block := BitVec.ofNat 32 tgFactorSum
    payload := leBytes 4 f ++ leBytes 1 scale ++ [0, 0, 0] ++ sums.flatMap (fun q => leBytes 4 (toTwos 32 q))
    ackNow := r.factorBlocks x ≤ f + x.size, windowed := true, planSeq := r.seq, planPhase := if r.lrStage ≤ 2 then 1 else 3
    planBlock := f, use := .stream }

/-- The owner sends a factor block's sums to every member and keeps its own copy. -/
def State.sendFactor (s : State) (p : PitchId) (r : BucketRun) (f scale : Nat) (sums : List Int) : State :=
  let x := s.pitch p
  let frames := ((List.range x.size).filter (· ≠ x.rank)).map (fun k => factorFrame x r k f scale sums)
  (s.sendWindowed p frames).factorArrive p r.bucket f scale sums

/-! ## RETRY (10 R232; 06 R141) -/

/-- A member repeats a block at a new attempt. -/
def Pitch.memberRetry (x : Pitch) (b k a : Nat) : Pitch :=
  match x.runOf b with
  | none => x
  | some r =>
    let x := x.count .memberRetries
    match r.lr with
    | some l => x.setRun { r with lr := some { l with attempts := sput l.attempts k a, retry := addNew k l.retry } }
    | none =>
      let j := r.offset x b + k
      x.setRun { r with attempts := sput r.attempts j a, retry := addNew j r.retry }

/-- A RETRY payload. -/
def retryPayload (k a : Nat) (lo : W16) : Bytes := leBytes 4 k ++ leBytes 1 a ++ leBytes 2 lo.toNat ++ [0]

/-- Largest sum a sum format holds. -/
def sumMax (w : Nat) : Nat := if sumWide w then 2 ^ 63 - 1 else 2 ^ 31 - 1

/-- The tests at completion of block k of bucket b (10 R231; 06 R141): SCALE, then overflow. -/
def State.ownerTest (s : State) (p : PitchId) (b k : Nat) : State :=
  let x := s.pitch p
  match x.runOf b with
  | none => s
  | some r =>
    let h := x.bucketD b
    let c := s.crec p b k
    let j := r.offset x b + k
    let agreed := match r.lr with
      | some l => (l.agreed.getD []).getD k 0
      | none => match r.agreedOf b with | some (codes, _) => codes.getD k 0 | none => 0
    if c.scale ≠ agreed + c.attempt then (s.bucketFault p b k bfScale).faultPitch p
    else if x.size * c.qmax ≤ sumMax (bWire h) then
      if r.isLow x then
        let sums := s.sums p b k
        (s.clearBlock p b k {}).sendFactor p r k c.scale sums
      else s
    else
      let a := c.attempt + 1
      let s := s.count p .fxRetry
      if 254 < agreed + a then
        let s := s.clearBlock p b k {}
        if r.isLow x then s.sendFactor p r k 0xFF (List.replicate (bBlock h) 0) else s.broadcastNonfinite p r.bucket j
      else
        let s := s.clearBlock p b k { attempt := a }
        let others := (List.range x.size).filter (· ≠ x.rank)
        let s := s.enqueueAll p (others.map (fun m => messageFrame m opWrite b tgRetry (retryPayload k a x.stepLo)))
        s.modPitch p (fun x => x.memberRetry b k a)

/-- The owner applies one contribution stream (10 R231). -/
def State.applyContrib (s : State) (p : PitchId) (b : Nat) (st : Stream) : State :=
  let x := s.pitch p
  let z := sumBytes st.fmt
  let s := s.addWords (x.redAddr b st.index 0) z (streamUnits st)
  let c := s.crec p b st.index
  let c := { c with count := c.count + 1, qmax := max c.qmax st.qmax, scale := if c.count = 0 then st.scale else c.scale }
  let s := s.setCrec p b st.index c
  if c.count = x.size then s.ownerTest p b st.index else s

/-- The factor that a LOWRANK bucket's contributions to this member belong to is Q: its stage has passed 2, or it has taken the
sums of every P block that it owns and so sends no more of them (08 R180). -/
def Pitch.inQ (x : Pitch) (b : Nat) : Bool :=
  let h := x.bucketD b
  match x.runOf b with
  | none => false
  | some r => 2 < r.lrStage ||
      (match r.lr with
       | some l => (List.range (divUp (bLrPWords h) (bBlock h))).all (fun k => !x.owns b k || k ∈ l.arrived)
       | none => false)

/-- What the bucket lets a contribution or broadcast stream be. -/
def Pitch.streamRule (x : Pitch) (b kind : Nat) : StreamRule :=
  let r := x.bucketD b
  let low := bSelect r = selLowrank
  { kind := kind, fmt := if kind = kindContrib then bWire r else bBcast r, block := bBlock r, sparse := bSparse r
    blocks := if low then divUp (if x.inQ b then bLrQWords r else bLrPWords r) (bBlock r) else bBlocks r }

/-- The streams of a contribution payload that passes R216 and the SCALE check of R231; none: damaged. -/
def State.contribStreams (s : State) (p : PitchId) (b : Nat) (payload : Bytes) : Option (List Stream) :=
  let x := s.pitch p
  match x.bucket b with
  | none => none
  | some _ =>
    match decodePayload (x.streamRule b kindContrib) payload with
    | none => none
    | some sts =>
      if sts.all (fun st => let c := s.crec p b st.index; c.count = 0 || c.scale = st.scale) then some sts else none

/-- Apply every stream of an accepted contribution frame. -/
def State.contribFrame (s : State) (p : PitchId) (b : Nat) (payload : Bytes) : State :=
  match s.contribStreams p b payload with
  | some sts => sts.foldl (fun s st => s.applyContrib p b st) s
  | none => s

/-! ## Phase G (06 R142, R143; 10 R235) -/

/-- Quantise the exact values at e2 and upward until they fit. -/
def raiseGo (fmt : Nat) (mode : Mode) (rnds : List Nat) (xs : List Val) : Nat → Int → Option (Int × List Quant)
  | 0, _ => none
  | n + 1, e =>
    if 127 < e then none
    else
      let qs := List.zipWith (fun v r => quantise fmt e mode r v) xs rnds
      if qs.all (fun q => !q.clamped && codeFinite fmt q.code) then some (e, qs) else raiseGo fmt mode rnds xs n (e + 1)

/-- The class table of a broadcast block (09 R206). -/
def bcastLens (rec' : BitVec 1024) (codes : List Nat) : Option (List Nat) :=
  match classMax (bBcast rec') with
  | some kmax =>
    if bPackCode rec' then some (buildLengths (classCounts (codes.map (fun c => zigzag (ofTwos (intBits (bBcast rec')) c)))) kmax)
    else none
  | none => none

/-- The broadcast stream of a block from its codes (09 R206, R207; 07 R171). -/
def bcastStream (rec' : BitVec 1024) (index scale : Nat) (codes : List Nat) : Bytes :=
  let fmt := bBcast rec'
  let offs := if bSparse rec' then (List.range codes.length).filter (fun i => !codeIsZero fmt (codes.getD i 0)) else List.range codes.length
  let st : Stream := ⟨kindBcast, fmt, bBlock rec', bSparse rec', index, scale, 0, offs, offs.map (fun i => codes.getD i 0), false⟩
  (encodeStream st (bcastLens rec' codes)).1

/-- The exact values of a complete block: the sum in units and the owner residual. -/
def State.exactBlock (s : State) (p : PitchId) (b k : Nat) (e : Int) : List Val :=
  let r := (s.pitch p).bucketD b
  let n := bBlock r
  List.zipWith (fun (q : Int) res => (sumVals (.fin (q < 0) q.natAbs (e + gridOff (bWire r)) :: res)).1)
    (s.sums p b k) (s.residuals (bOresBase r) (bResFmt r) (k * n) n)

/-- Add the squares of a broadcast block to NORM_LOCAL (10 R235). -/
def State.normBlock (s : State) (p : PitchId) (vs : List Val) : State :=
  let x := s.pitch p
  s.ergAddTo (x.erg p (x.normLocal p)) (vs.foldl (fun a v => let q := productOf v v; ergAdd a (ergOf q.sig q.exp)) 0)

/-- The codes of a broadcast as it is placed: 0 at every offset that a sparse broadcast omits (R144; 07 R171). -/
def placedCodes (rec' : BitVec 1024) (codes : List Nat) : List Nat :=
  if bSparse rec' then codes.map (fun c => if codeIsZero (bBcast rec') c then codeZero (bBcast rec') else c) else codes

/-- Phase G of block j of a run. A block that ends non-finite is not counted in BCAST_RAISE (notes/assumptions 98). -/
def State.requantiseBlock (s : State) (p : PitchId) (r : BucketRun) (j : Nat) : State :=
  let x := s.pitch p
  let (b, k) := r.part x j
  let rec' := x.bucketD b
  let n := bBlock rec'
  let c := s.crec p b k
  let e : Int := (c.scale : Int) - 127
  let xs := s.exactBlock p b k e
  let mode := modeOf (bGRound rec')
  let rnds := (List.range n).map (fun i =>
    if mode = .sr then x.draw16 p purposeOwner (bElemBase rec' + k * n + i) x.rank else 0)
  let s := s.clearBlock p b k {}
  match raiseGo (bBcast rec') mode rnds xs 255 e with
  | none => s.broadcastNonfinite p r.bucket j
  | some (e2, qs) =>
    let codes := qs.map Quant.code
    let ds := List.zipWith (fun v c => (sumVals [v, (dequantFull (bBcast rec') e2 c).negate]).1) xs codes
    let res := ds.map (resEncode (bResFmt rec'))
    let scale := (e2 + 127).toNat
    let r := { r with gDone := r.gDone ++ [j] }
    let y := ((x.noteQuant qs).raise (res.foldl (fun a q => a ||| q.2) 0)).count .bcastRaise (bit (e < e2))
    let s := ((s.setPitch p (y.setRun r)).toPacker p r j kindBcast (bcastStream rec' k scale codes)).write
      (bOresBase rec' + resSize (bResFmt rec') * (k * n)) (res.flatMap (fun q => leBytes (resSize (bResFmt rec')) q.1))
    let s := if bClip rec' then s.normBlock p (codes.map (dequant (bBcast rec') e2)) else s
    s.place p r.bucket j ⟨scale, placedCodes rec' codes⟩

/-- Block j of the run is complete at this owner and waits for phase G. -/
def State.readyG (s : State) (p : PitchId) (r : BucketRun) (j : Nat) : Bool :=
  let x := s.pitch p
  let (b, k) := r.part x j
  x.works && !x.packerWaits && j < r.blocks x && !r.isLow x && (!bClip (x.bucketD b) || x.hasBanks p [x.normLocal p]) && x.owns b k && (r.agreedOf b).isSome && j ∉ r.gDone
    && (s.crec p b k).count = x.size

/-- REQUANTISE_BLOCK (06 R142). -/
def execRequantiseBlock (p : PitchId) (bucket block : Nat) (s : State) : Result :=
  live s (fun s =>
    match (s.pitch p).runs.find? (fun r => r.bucket = bucket) with
    | some r => if s.readyG p r block then s.requantiseBlock p r block else s
    | none => s)

/-! ## Broadcast frames at a member -/

/-- The streams of a broadcast payload that passes R216; none: damaged. -/
def Pitch.bcastStreams (x : Pitch) (b : Nat) (payload : Bytes) : Option (List Stream) :=
  match x.bucket b with
  | none => none
  | some _ => decodePayload (x.streamRule b kindBcast) payload

/-- All codes of a block from its stream: zero at offsets it leaves out. -/
def fullCodes (st : Stream) : List Nat :=
  (List.range st.block).map (fun i => match (st.offs.zip st.codes).find? (fun e => e.1 = i) with
    | some (_, c) => c
    | none => codeZero st.fmt)

/-- Place every stream of an accepted broadcast frame. -/
def State.bcastFrame (s : State) (p : PitchId) (b : Nat) (payload : Bytes) : State :=
  match (s.pitch p).bcastStreams b payload with
  | none => s
  | some sts => sts.foldl (fun s st =>
      let x := s.pitch p
      match x.runOf b with
      | some r => s.place p r.bucket (r.offset x b + st.index) ⟨st.scale, if st.scale = 0xFF then [] else fullCodes st⟩
      | none => s) s

end Sys2Proof.Machine
end

