-- ==== Sys2Proof/Machine/Norm.lean ====
section
/-! DEFINITION. The global squared norm (10 R235, R236, R248). -/

namespace Sys2Proof.Machine

/-- The member has passed phase A of every CLIP bucket of the step and dealt with every block it owns in them (R235). -/
def Pitch.normReady (x : Pitch) : Bool :=
  x.works && x.runsNorm && !x.guard.normSent
    && (x.stepBuckets.filter (fun b => bClip (x.bucketD b))).all (fun b => match x.runOf b with
      | none => false
      | some r => (r.agreedOf b).isSome
          && (r.stoppedPart b || (List.range (bBlocks (x.bucketD b))).all (fun k => !x.owns b k || r.offset x b + k ∈ r.gDone)))

/-- A NORM_DOWN payload (R236). -/
def normDownPayload (lo : W16) (sg : W640) : Bytes := leBytes 2 lo.toNat ++ List.replicate 6 0 ++ ergBytes sg

/-- Send the norm of a step to the children. -/
def State.forwardNorm (s : State) (p : PitchId) (lo : W16) (sg : W640) : State :=
  s.enqueueAll p ((s.pitch p).children.map (fun c => messageFrame c opWrite 0 tgNormDown (normDownPayload lo sg)))

/-- Rank 0 applies one NORM_UP; the N-th arrival ends the collective (R235, R236). -/
def State.normArrive (s : State) (p : PitchId) (v : W640) : State :=
  let x := s.pitch p
  let g := x.erg p (x.normGlobal p)
  let s := s.ergAddTo g v
  let n := x.guard.normArrivals + 1
  if n = x.size then
    let sg := s.ergGet g
    let s := (s.ergClear g 1).setPitch p { x with guard := { x.guard with normArrivals := 0 } }
    (s.forwardNorm p x.stepLo sg).takeNorm p sg
  else s.setPitch p { x with guard := { x.guard with normArrivals := n } }

/-- NORM_LOCAL leaves for rank 0. -/
def State.normSend (s : State) (p : PitchId) : State :=
  let x := s.pitch p
  let g := x.erg p (x.normLocal p)
  let v := s.ergGet g
  let s := (s.ergClear g 1).setPitch p { x with guard := { x.guard with normSent := true } }
  if x.rank = 0 then s.normArrive p v
  else s.enqueueAll p [messageFrame 0 opErg 0 tgNormUp (ergBytes v)]

/-- NORM_LOCAL_SEND (R235). -/
def execNormLocalSend (p : PitchId) (s : State) : Result := live s (fun s => if (s.pitch p).normReady then s.normSend p else s)

/-- An accepted NORM_UP. -/
def State.normUpFrame (s : State) (p : PitchId) (d : Bytes) : State := s.normArrive p (ergOfBytes (d.take 80))

/-- An accepted NORM_DOWN: forwarded, and handed to the Guard; that of the next step is held until it begins (R236, R248). -/
def State.normDownFrame (s : State) (p : PitchId) (d : Bytes) : State :=
  let x := s.pitch p
  let lo := leAt d 0 2
  let sg := ergOfBytes (cut d 8 80)
  if !x.stepUsable lo then s.collStale p
  else
    let s := s.forwardNorm p (BitVec.ofNat 16 lo) sg
    if lo = x.stepLo.toNat then s.takeNorm p sg
    else s.modPitch p (fun x => { x with guard := { x.guard with normAhead := some sg } })

end Sys2Proof.Machine
end

