-- ==== Sys2Proof/Machine/Lockstep.lean ====
section
/-! DEFINITION. Lock-step pairing (16 R350 to R354): digests, windows, records, comparison, held output and mismatches. -/

namespace Sys2Proof.Machine

/-! ## The pairing in force -/

/-- A pairing is suspended (R354). -/
def Pitch.lsSuspended (x : Pitch) (q : Pairing) : Bool :=
  x.size ≤ q.partner || q.partner = x.rank || q.partner ∈ x.member.record.vacant

/-- LS_HOLD holds the pitch's output back now. -/
def Pitch.lsHolds (x : Pitch) : Bool :=
  match x.pairing with
  | some q => q.hold && !x.lsSuspended q
  | none => false

/-- The Unit has room for one more unsent record, or has nothing to send (R351). -/
def Pitch.lsRoom (x : Pitch) : Bool :=
  match x.pairing with
  | some q => x.lsSuspended q || x.lock.closed - x.lock.sent < 8
  | none => true

/-! ## Host output (R352) -/

/-- A write of phase O to the host: at once, or held with the open window; none once LS_HELD is set (R353). -/
def State.hostOutput (s : State) (p : PitchId) (h : HostPort) (a : W64) (d : Bytes) : State :=
  let x := s.pitch p
  if x.lock.held then s
  else if x.lsHolds then s.setPitch p { x with lock := { x.lock with outputs := x.lock.outputs ++ [(x.lock.closed, h, a, d)] } }
  else s.hostStore h a d

/-- Write the held outputs of the windows that satisfy `pick`. -/
def State.releaseOutputs (s : State) (p : PitchId) (pick : Nat → Bool) : State :=
  let x := s.pitch p
  let due := x.lock.outputs.filter (fun o => pick o.1)
  let s := s.setPitch p { x with lock := { x.lock with outputs := x.lock.outputs.filter (fun o => !pick o.1) } }
  due.foldl (fun s o => s.hostStore o.2.1 o.2.2.1 o.2.2.2) s

/-! ## Records (R351) -/

/-- A record of window w. -/
def Pitch.lsRecord (x : Pitch) (q : Pairing) (w : Nat) (es : List (Nat × Nat × W64)) : Bytes :=
  leBytes 8 x.time.step.toNat ++ leBytes 4 w ++ leBytes 2 es.length ++ leBytes 1 q.mode ++ [0] ++ leBytes 16 x.rsig.toNat
    ++ es.flatMap (fun e => leBytes 4 e.1 ++ leBytes 4 e.2.1 ++ leBytes 8 e.2.2.toNat)

/-- Close the open window where it holds a digest. -/
def Pitch.closeLsWindow (x : Pitch) (q : Pairing) : Pitch :=
  if x.lock.digests.isEmpty then x
  else { x with lock := { x.lock with
      own := x.lock.own ++ [(x.lock.closed, x.lsRecord q x.lock.closed x.lock.digests)]
      closed := x.lock.closed + 1
      digests := [] } }

/-- A frame of lock-step toward the partner. -/
def lsFrame (q : Pairing) (off : Nat) (d : Bytes) (last : Bool) : TxFrame :=
  { messageFrame q.partner opWrite 0 tgOneSided d with
    offset := BitVec.ofNat 64 off, ackNow := last, use := .lockstep }

/-- Address of window w's slot in the partner's region. -/
def lsSlot (q : Pairing) (w : Nat) : Nat := q.offset + 2048 * (w % 4)

/-- The record sent to this slot before has been accepted. -/
def Pitch.lsSlotFree (x : Pitch) (q : Pairing) (w : Nat) : Bool :=
  let busy := fun (f : TxFrame) => f.use = .lockstep && f.offset.toNat = lsSlot q w
  !x.tx.txq.any busy && !x.tx.out.any (fun o => busy o.frame)

/-- Send the next record where R351 lets it go. -/
def lsSendGo (p : PitchId) (q : Pairing) : Nat → State → State
  | 0, s => s
  | n + 1, s =>
    let x := s.pitch p
    let w := x.lock.sent
    match x.lock.own.find? (fun r => r.1 = w) with
    | none => s
    | some (_, rec') =>
      if w < x.lock.compared + 4 && x.lsSlotFree q w then
        let y := x.enqueue (lsFrame q (lsSlot q w) rec' true)
        lsSendGo p q n (s.setPitch p { y with lock := { y.lock with sent := w + 1 } })
      else s

/-! ## Mismatches (R353) -/

/-- ntc.lockstep.mismatch, LS_HELD and the counts. -/
def State.lsMismatch (s : State) (p : PitchId) (bucket block : Nat) (area : Byte) (off : Nat) : State :=
  let s := s.modPitch p (fun x =>
    let y := x.count .lsMismatches
    { y with lock := { y.lock with held := true, mismatched := true, diff := none } })
  let h := s.health
  let s := { s with health := { h with
    lsMismatches := h.lsMismatches + 1
    hour := { h.hour with mismatches := h.hour.mismatches + 1 } } }
  s.notice p ntcLockstep (leBytes 4 bucket ++ leBytes 4 block ++ [area] ++ [0, 0, 0] ++ leBytes 4 off)

/-- The digest bytes of a block, items 2 and 3: output, then the stream and the residual. -/
def Pitch.lsBytes (x : Pitch) (b k : Nat) : Bytes × Bytes × Bytes :=
  match x.lock.bytes.find? (fun e => e.1 = b && e.2.1 = k) with
  | some e => e.2.2
  | none => ([], [], [])

/-- Bytes lo to hi − 1 of the difference area have arrived, in frames of 4,096 bytes. -/
def Lockstep.diffThere (l : Lockstep) (lo hi : Nat) : Bool :=
  (List.range (divUp hi 4096 - lo / 4096)).all (fun i => l.diffGot.any (fun g => g.1 = 4096 * (lo / 4096 + i) && min hi (g.1 + 4096) ≤ g.1 + g.2))

/-- The digest bytes that the partner has written, once they are all there. They have the own bytes' layout, and their stream's
header gives its length (09 R197); no field of the frames says where they end. -/
def State.lsTheirs (s : State) (p : PitchId) (base : Nat) (out stream res : Bytes) : Option Bytes :=
  let x := s.pitch p
  let a := partOf (x.cfg p 0xE) 0 8 + base + 8192
  if stream.isEmpty then
    let n := out.length + res.length
    if x.lock.diffThere 0 n then some (s.read a n) else none
  else if !x.lock.diffThere out.length (out.length + 16) then none
  else
    let n := out.length + streamLen (s.read (a + out.length) 16) + res.length
    if x.lock.diffThere 0 n then some (s.read a n) else none

/-- Compare the own digest bytes with those the partner wrote, once they are all there. -/
def State.lsDifference (s : State) (p : PitchId) : State :=
  let x := s.pitch p
  match x.lock.diff, x.lock.base with
  | some (_, b, k), some base =>
    let (out, stream, res) := x.lsBytes b k
    match s.lsTheirs p base out stream res with
    | none => s
    | some theirs =>
      let mine := out ++ stream ++ res
      let n := theirs.length
      match (List.range (max mine.length n)).find? (fun i => mine[i]? ≠ theirs[i]?) with
      | none => let (d, s) := s.draw; s.lsMismatch p b k (Config.freeArea d) 0xFFFFFFFF
      | some i =>
        let rec' := x.bucketD b
        if i < out.length then s.lsMismatch p b k 1 (8 * i / fmtBits (bOutFmt rec'))
        else if i < out.length + stream.length then s.lsMismatch p b k 3 (i - out.length)
        else s.lsMismatch p b k 2 ((i - out.length - stream.length) / resSize (bResFmt rec'))
  | _, _ => s

/-- Both records of window w are there and differ. -/
def State.lsDiffers (s : State) (p : PitchId) (q : Pairing) (w : Nat) (own theirs : Bytes) : State :=
  if cut own 12 3 ≠ cut theirs 12 3 || cut own 16 16 ≠ cut theirs 16 16 then s.lsMismatch p (leAt own 32 4) (leAt own 36 4) 0 0xFFFFFFFF
  else
    let k := ((List.range (leAt own 12 2)).find? (fun k => cut own (32 + 16 * k) 16 ≠ cut theirs (32 + 16 * k) 16)).getD 0
    let b := leAt own (32 + 16 * k) 4
    let j := leAt own (36 + 16 * k) 4
    if q.hold then
      let x := s.pitch p
      let (out, stream, res) := x.lsBytes b j
      let frames := (chunks 4096 (out ++ stream ++ res)).zipIdx.map (fun e => lsFrame q (q.offset + 8192 + 4096 * e.2) e.1 false)
      let s := s.setPitch p { x with lock := { x.lock with mismatched := true, diff := some (w, b, j) } }
      (s.enqueueAll p frames).lsDifference p
    else let (d, s) := s.draw; s.lsMismatch p b j (Config.freeArea d) 0xFFFFFFFF

/-! ## Progress (R351, R352, R354) -/

/-- Compare windows in order while both records are there. -/
def lsCompareGo (p : PitchId) (q : Pairing) : Nat → State → State
  | 0, s => s
  | n + 1, s =>
    let x := s.pitch p
    let w := x.lock.compared
    match x.lock.mismatched, x.lock.own.find? (fun r => r.1 = w), x.lock.partner.find? (fun r => r.1 = w) with
    | false, some (_, a), some (_, b) =>
      if cut a 12 3 = cut b 12 3 && a.drop 16 = b.drop 16 then
        let y := x.count .lsWindows
        let keys := (List.range (leAt a 12 2)).map (fun k => (leAt a (32 + 16 * k) 4, leAt a (36 + 16 * k) 4))
        let s := s.setPitch p { y with lock := { y.lock with
          compared := w + 1
          partner := y.lock.partner.filter (fun r => r.1 ≠ w)
          bytes := y.lock.bytes.filter (fun e => (e.1, e.2.1) ∉ keys) } }
        lsCompareGo p q n (s.releaseOutputs p (fun v => v = w))
      else s.lsDiffers p q w a b
    | _, _, _ => s

/-- The pairing moves on: a suspended one releases everything unchecked, another compares and sends. -/
def State.lsProgress (s : State) (p : PitchId) : State :=
  let x := s.pitch p
  match x.pairing with
  | none => s
  | some q =>
    if x.lsSuspended q then
      if x.lock.mismatched then s else
      let y := x.count .lsUnchecked (x.lock.closed - x.lock.compared)
      (s.setPitch p { y with lock := { y.lock with compared := y.lock.closed, sent := y.lock.closed, own := [], partner := [] } }).releaseOutputs
        p (fun _ => true)
    else
      let s := lsCompareGo p q (x.lock.own.length + 1) s
      let s := lsSendGo p q 8 s
      s.modPitch p (fun x => { x with lock := { x.lock with
        own := x.lock.own.filter (fun r => x.lock.compared ≤ r.1 || x.lock.sent ≤ r.1) } })

/-- A death has suspended the pairing: the held outputs are released, the open window's too, and each window not compared counts (R354).
What is held under a pairing that stays in force is lost with the step. -/
def State.lsCut (s : State) (p : PitchId) : State :=
  let x := s.pitch p
  match x.pairing with
  | some q => if x.lsSuspended q then (s.setPitch p (x.closeLsWindow q)).lsProgress p else s
  | none => s

/-- The digest of a block whose phase O has run joins the open window (R350, R351). -/
def State.lsDigest (s : State) (p : PitchId) (b k : Nat) (out stream res : Bytes) : State :=
  let x := s.pitch p
  match x.pairing with
  | none => s
  | some q =>
    let items := out ++ (if q.mode = 1 then stream ++ res else [])
    let d : W64 := BitVec.ofNat 64 (crc64 (leBytes 4 b ++ leBytes 4 k ++ items))
    let held : Nat × Nat × Bytes × Bytes × Bytes := (b, k, out, if q.mode = 1 then stream else [], if q.mode = 1 then res else [])
    let y := { x with lock := { x.lock with
      digests := x.lock.digests ++ [(b, k, d)]
      bytes := if q.hold then x.lock.bytes ++ [held] else x.lock.bytes
      waiting := false } }
    if y.lock.digests.length = q.winBlocks then (s.setPitch p (y.closeLsWindow q)).lsProgress p else s.setPitch p y

/-! ## The partner's frames -/

/-- A WRITE to the one-sided region is a lock-step record of the partner: its place and length say so (notes/assumptions 33). -/
def Pitch.isLsRecord (x : Pitch) (src off : Nat) (d : Bytes) : Bool :=
  match x.pairing with
  | some q => !x.lsSuspended q && src = q.partner && off % 2048 = 0 && 32 ≤ d.length && 1 ≤ leAt d 12 2 && leAt d 12 2 ≤ 126
      && d.length = 32 + 16 * leAt d 12 2
  | none => false

/-- The Unit copies an accepted record and compares (R351, R352). -/
def State.lsRecordFrame (s : State) (p : PitchId) (off : Nat) (d : Bytes) : State :=
  let x := s.pitch p
  let w := leAt d 8 4
  if leAt d 0 8 = x.time.step.toNat && x.lock.compared ≤ w && !x.lock.partner.any (fun r => r.1 = w) then
    (s.setPitch p { x with lock := { x.lock with
      base := some (off - 2048 * (w % 4))
      partner := x.lock.partner ++ [(w, d)] } }).lsProgress p
  else s

/-- Bytes of the partner have been placed in the own difference area. -/
def State.lsDiffFrame (s : State) (p : PitchId) (src off : Nat) (d : Bytes) : State :=
  let x := s.pitch p
  match x.pairing, x.lock.base with
  | some q, some base =>
    if src = q.partner && base + 8192 ≤ off && off + d.length ≤ base + 16384 then
      (s.setPitch p { x with lock := { x.lock with diffGot := x.lock.diffGot ++ [(off - base - 8192, d.length)] } }).lsDifference p
    else s
  | _, _ => s

end Sys2Proof.Machine
end

