-- ==== Sys2Proof/Machine/Output.lean ====
section
/-! DEFINITION. Phase O (06 R145 to R147; 14 R307, R310; 05 R121; 16 R350) and the fused update (14 R315, R316). -/

namespace Sys2Proof.Machine

/-! ## Output values (R145) -/

/-- value × cf / DIVISOR before its rounding, as sign, magnitude with a sticky bit, and exponent. -/
def outExact (cf : W32) (d : Nat) (v : Val) : Bool × Nat × Int :=
  match v, val32 cf with
  | .fin n m e, .fin _ mc ec => let (q, e2) := divMag (m * mc) (max 1 d); (n, q, e + ec + e2)
  | _, _ => (false, 0, 0)

/-- One output element: its code and flags. A zero keeps its sign (04 R95). -/
def outCode (fmt : Nat) (cf : W32) (d : Nat) (v : Val) : Nat × BitVec 6 :=
  let (n, m, e) := outExact cf d v
  let (c, fl, _) := ((floatOf fmt).getD fp32).roundFin .rne 0 n m e
  (c, fl)

/-- The clipping factor of a bucket. -/
def Pitch.cfOf (x : Pitch) (rec' : BitVec 1024) : W32 := if bClip rec' then x.guard.cf else 0x3F800000

/-- The exact values that a placed broadcast spells. -/
def placedVals (rec' : BitVec 1024) (q : Placed) : List Val := q.codes.map (dequantFull (bBcast rec') ((q.scale : Int) - 127))

/-- Output codes of exact values. -/
def Pitch.outCodes (x : Pitch) (rec' : BitVec 1024) (vs : List Val) : List (Nat × BitVec 6) :=
  vs.map (outCode (bOutFmt rec') (x.cfOf rec') (bDivisor rec'))

/-- The value of an output code. -/
def outVal (rec' : BitVec 1024) (c : Nat) : Val := ((floatOf (bOutFmt rec')).getD fp32).decode c

/-- Bytes of output codes. -/
def outBytes (rec' : BitVec 1024) (cs : List Nat) : Bytes := cs.flatMap (leBytes (fmtBits (bOutFmt rec') / 8))

/-! ## Per-layer norms (14 R310) -/

/-- Add the squares of finite values to the registers of norm `n` of their layers; `lo` is the logical index of the first. -/
def State.addNorm (s : State) (p : PitchId) (n lo : Nat) (vs : List Val) : State :=
  ((s.pitch p).segments lo vs.length).foldl (fun s g =>
    match g.2.1.normErg n with
    | none => s
    | some k => s.ergAddTo ((s.pitch p).erg p k)
        ((cut vs g.2.2.1 g.2.2.2).foldl (fun a v => let q := productOf v v; ergAdd a (ergOf q.sig q.exp)) 0)) s

/-! ## The row side output (05 R121) -/

/-- Rows of a bucket before logical index idx. -/
def Pitch.rowsBefore (x : Pitch) (lo idx : Nat) : Nat :=
  sumOf ((x.segments lo (idx - lo)).map (fun g =>
    let len := max 1 g.2.1.rowLen
    let a := lo + g.2.2.1 - g.2.1.first
    (a + g.2.2.2 - 1) / len - a / len + 1))

/-- Every block of the run that meets run offsets [lo, hi) has gone through phase O. -/
def BucketRun.outThrough (r : BucketRun) (x : Pitch) (lo hi : Nat) : Bool :=
  let n := bBlock (r.head x)
  (List.range (divUp hi n - lo / n)).all (fun i => lo / n + i ∈ r.outDone)

/-- Write the records of rows that are whole, in ascending row order; `value` gives the output code of a run offset. -/
def rowSideGo (p : PitchId) (bucket : Nat) (code : Nat → Nat) : Nat → State → State
  | 0, s => s
  | f + 1, s =>
    let x := s.pitch p
    match x.runs.find? (fun r => r.bucket = bucket) with
    | none => s
    | some r =>
      if r.elements x ≤ r.sideDone then s
      else
        let (b, rec', start) := r.partOf x r.sideDone
        let (lo, hi) := r.rowOf x r.sideDone
        if !bRowSide rec' then
          rowSideGo p bucket code f (s.setPitch p (x.setRun { r with sideDone := start + bElements rec' }))
        else if !r.outThrough x lo hi then s
        else
          let codes := (List.range (hi - lo)).map (fun i => code (lo + i))
          let vals := codes.map (outVal rec')
          let words := vals.map (fun v => (to32 v).1)
          let (bytes, fl, k) := rowRecord words vals
          let row := x.rowsBefore (bElemBase rec') (bElemBase rec' + (lo - start))
          let x := ((x.raise fl).count .ergOutRetry k).setRun { r with sideDone := hi }
          let s := s.setPitch p x
          let s := match (x.ingest b).outs.find? (fun g => g.offset = 0) with
            | some g => s.hostOutput p (s.copyPort p g.wq) (g.sideAddr + BitVec.ofNat 64 (16 * row)) bytes
            | none => s
          rowSideGo p bucket code f s

/-! ## Phase O of one block -/

/-- Write the output of block j of a run from its exact values: host data and GRAD norms; and the output bytes. -/
def State.writeOutput (s : State) (p : PitchId) (r : BucketRun) (j : Nat) (vs : List Val) : State × Bytes :=
  let x := s.pitch p
  let (b, k) := r.part x j
  let rec' := x.bucketD b
  let n := bBlock rec'
  let out := x.outCodes rec' vs
  let codes := out.map Prod.fst
  let bytes := outBytes rec' codes
  let y := (x.raise (out.foldl (fun a c => a ||| c.2) 0)).setRun { r with outDone := r.outDone ++ [j] }
  let s := s.setPitch p y
  let s := match (x.ingest b).outs.find? (fun g => g.offset ≤ k * n && k * n < g.offset + g.count) with
    | some g =>
      s.hostOutput p (s.copyPort p g.wq) (g.outAddr + BitVec.ofNat 64 ((k * n - g.offset) * (fmtBits (bOutFmt rec') / 8))) bytes
    | none => s
  (s.addNorm p 1 (bElemBase rec' + k * n) (codes.map (outVal rec')), bytes)

/-- Phase O of block j is over, its row-side records included: its digest (16 R350), with the stream of its last attempt. -/
def State.endOutput (s : State) (p : PitchId) (r : BucketRun) (j : Nat) (out res : Bytes) : State :=
  let x := s.pitch p
  let (b, k) := r.part x j
  let stream := if r.isLow x then [] else ((r.streams.find? (fun t => t.1 = j)).map Prod.snd).getD []
  s.lsDigest p b k out stream res

/-- The output code at a run offset of a run that is not LOWRANK. -/
def State.outCodeAt (s : State) (p : PitchId) (r : BucketRun) (o : Nat) : Nat :=
  let x := s.pitch p
  let n := bBlock (r.head x)
  let rec' := (r.partOf x o).2.1
  match s.placedOf p r (o / n) with
  | some q => ((x.outCodes rec' [(placedVals rec' q).getD (o % n) (.fin false 0 0)]).map Prod.fst).headD 0
  | none => 0

/-- Block j of a run may run phase O (R146, R147; 14 R307). -/
def BucketRun.readyO (r : BucketRun) (x : Pitch) (j : Nat) : Bool :=
  match r.placedAt j with
  | some q => q.scale ≠ 0xFF && j ∉ r.outDone && (!bClip (x.bucketD (r.part x j).1) || x.clipFinal)
  | none => false

/-- Phase O may go on in the step. -/
def Pitch.outputs (x : Pitch) : Bool := x.works && !x.skipKnown && !x.lock.held

/-- The block that phase O takes next. -/
def Pitch.nextOutput (x : Pitch) : Option (BucketRun × Nat) :=
  if x.outputs then
    x.runs.findSome? (fun r => if r.isLow x then none else ((List.range (r.blocks x)).find? (fun j => r.readyO x j)).map (fun j => (r, j)))
  else none

/-- No block of the step will run phase O any more. -/
def Pitch.allOut (x : Pitch) : Bool := x.skipKnown || x.stepBuckets.all (fun b => x.bucketOut b)

/-- The last lock-step window closes at the step's last block (16 R351). -/
def State.lsLast (s : State) (p : PitchId) : State :=
  let x := s.pitch p
  match x.pairing with
  | some q => if x.allOut && x.works && !x.lock.lastClosed then
      let y := x.closeLsWindow q
      (s.setPitch p { y with lock := { y.lock with lastClosed := true } }).lsProgress p
    else s
  | none => s

/-- Phase O waits for room for a lock-step record; each wait counts once (16 R351). -/
def State.lsWait (s : State) (p : PitchId) : State :=
  let x := s.pitch p
  if x.lock.waiting then s
  else
    let y := x.count .lsWaits
    s.setPitch p { y with lock := { y.lock with waiting := true } }

/-- Phase O of block j of a run. -/
def State.outputBlock (s : State) (p : PitchId) (r : BucketRun) (j : Nat) : State :=
  let x := s.pitch p
  let (b, k) := r.part x j
  let rec' := x.bucketD b
  let z := resSize (bResFmt rec')
  let vs := match s.placedOf p r j with | some q => placedVals rec' q | none => []
  let res := s.read (bResBase rec' + z * (k * bBlock rec')) (z * bBlock rec')
  let (s, out) := s.writeOutput p r j vs
  let s := rowSideGo p r.bucket (fun o => s.outCodeAt p r o) (r.elements x + 1) s
  (s.endOutput p r j out res).lsLast p

/-- OUTPUT_BLOCK (06 R145). -/
def execOutputBlock (p : PitchId) (bucket block : Nat) (check : BlockCheck) (s : State) : Result :=
  live s (fun s =>
    let x := s.pitch p
    match x.nextOutput with
    | some (r, j) =>
      if r.bucket = bucket && j = block && x.normBanks p (r.part x j).1 (r.part x j).2 1 then
        (if x.lsRoom then s.checkedBlock p j check (fun s => s.outputBlock p r j) else s.lsWait p)
      else s
    | none => s)

/-! ## The fused update (14 R315, R316) -/

/-- A chain of FP32 operations with its flags. -/
abbrev F32 := W32 × BitVec 6
/-- Sum, difference, product, quotient and root of chains: each one operation rounded to nearest even. -/
def F32.add (a b : F32) : F32 := let (w, f) := add32 a.1 b.1; (w, a.2 ||| b.2 ||| f)
def F32.sub (a b : F32) : F32 := let (w, f) := sub32 a.1 b.1; (w, a.2 ||| b.2 ||| f)
def F32.mul (a b : F32) : F32 := let (w, f) := mul32 a.1 b.1; (w, a.2 ||| b.2 ||| f)
def F32.div (a b : F32) : F32 := let (w, f) := div32 a.1 b.1; (w, a.2 ||| b.2 ||| f)
def F32.sqrt (a : F32) : F32 := let (w, f) := sqrt32 a.1; (w, a.2 ||| f)
/-- A constant. -/
def F32.of (w : W32) : F32 := (w, 0)

/-- What one element's update comes to: u, m, s; every value formed on the way; and the flags. -/
structure Step32 where
  u : W32
  m : W32
  s : W32
  all : List W32
  flags : BitVec 6
  deriving DecidableEq, Repr

/-- The procedure of R316 up to u. -/
def Pitch.optStep (x : Pitch) (p : PitchId) (g w m s : W32) : Step32 :=
  let k := fun (id : Nat) => F32.of (BitVec.ofNat 32 (x.cfg p id))
  let mom := k 0x10B
  let wd := k 0x10E
  let lr := F32.of x.guard.lrLatched
  if x.cfg p 0x10A = 1 then
    let dw := wd.mul (F32.of w)
    let g1 := (F32.of g).add dw
    let mm := mom.mul (F32.of m)
    let m2 := mm.add g1
    let u := lr.mul m2
    ⟨u.1, m2.1, s, [g, w, m, lr.1, dw.1, g1.1, mm.1, m2.1, u.1], u.2⟩
  else
    let b2 := k 0x10C
    let eps := k 0x10D
    let one := F32.of 0x3F800000
    let c1 := one.sub mom
    let c2 := one.sub b2
    let a1 := mom.mul (F32.of m)
    let a2 := c1.mul (F32.of g)
    let m2 := a1.add a2
    let gg := (F32.of g).mul (F32.of g)
    let b1 := b2.mul (F32.of s)
    let b3 := c2.mul gg
    let s2 := b1.add b3
    let sb := s2.mul (F32.of x.guard.bc2Latched)
    let rt := sb.sqrt
    let den := rt.add eps
    let q := m2.div den
    let dw := wd.mul (F32.of w)
    let sum := q.add dw
    let u := lr.mul sum
    ⟨u.1, m2.1, s2.1, [g, w, m, s, lr.1, x.guard.bc2Latched, c1.1, c2.1, a1.1, a2.1, m2.1, gg.1, b1.1, b3.1, s2.1, sb.1, rt.1,
      den.1, q.1, dw.1, sum.1, u.1], u.2⟩

/-- One element: new weight code and optimiser state, or none where a value is not finite; the flags; and how many of its two
conversions, of the weight and to the weight, had a non-finite source (04 R96). -/
def Pitch.updateElem (x : Pitch) (p : PitchId) (idx : Nat) (g : F32) (weight : Nat) (m s : W32) :
    Option (Nat × W32 × W32) × BitVec 6 × Nat :=
  let wv := bf16.decode weight
  let w := (to32 wv).1
  let st := x.optStep p g.1 w m s
  let d := (sumVals [wv, (val32 st.u).negate]).1
  let (c, fl, nf) := bf16.convert .sr (x.draw16 p purposeUpdate idx x.rank) d
  let fl := g.2 ||| st.flags ||| fl ||| (if wv.isFin then 0 else fNV)
  let n := bit nf + bit (!wv.isFin)
  if st.all.all finite32 && (bf16.decode c).isFin then (some (c, st.m, st.s), fl, n) else (none, fl, n)

/-- The exact value of block j of the run that phase O used, for g = round_f32(y). -/
def Pitch.gOf (x : Pitch) (rec' : BitVec 1024) (v : Val) : F32 :=
  let (n, m, e) := outExact (x.cfOf rec') (bDivisor rec') v
  round32 n m e

/-- Update the weights of block j of a run from the exact values of its broadcast. -/
def State.updateBlock (s : State) (p : PitchId) (r : BucketRun) (j : Nat) (vs : List Val) : State :=
  let x := s.pitch p
  let (b, k) := r.part x j
  let rec' := x.bucketD b
  let n := bBlock rec'
  let slot := x.shard b k
  let wa := x.cfg p 0x10F + 2 * (slot * n)
  let oa := x.cfg p 0x110 + 8 * (slot * n)
  let ws := (chunks 2 (s.read wa (2 * n))).map leNat
  let os := chunks 8 (s.read oa (8 * n))
  let lo := bElemBase rec' + k * n
  let res := (List.range n).map (fun i =>
    x.updateElem p (lo + i) (x.gOf rec' (vs.getD i (.fin false 0 0))) (ws.getD i 0)
      (BitVec.ofNat 32 (leAt (os.getD i []) 0 4)) (BitVec.ofNat 32 (leAt (os.getD i []) 4 4)))
  let bad := (List.range n).filter (fun i => (res.getD i (none, 0, 0)).1.isNone)
  let wBytes := (List.range n).flatMap (fun i => match (res.getD i (none, 0, 0)).1 with
    | some (c, _, _) => leBytes 2 c
    | none => leBytes 2 (ws.getD i 0))
  let oBytes := (List.range n).flatMap (fun i => match (res.getD i (none, 0, 0)).1 with
    | some (_, m, v) => leBytes 4 m.toNat ++ leBytes 4 v.toNat
    | none => os.getD i [])
  let zero : Val := .fin false 0 0
  let news := (List.range n).map (fun i => match (res.getD i (none, 0, 0)).1 with | some (c, _, _) => bf16.decode c | none => zero)
  let diffs := (List.range n).map (fun i => match (res.getD i (none, 0, 0)).1 with
    | some (c, _, _) => (sumVals [bf16.decode c, (bf16.decode (ws.getD i 0)).negate]).1
    | none => zero)
  let y := (((x.raise (res.foldl (fun a e => a ||| e.2.1) 0)).count .updNonfinite bad.length).count .nonfiniteConv
    (sumOf (res.map (fun e => e.2.2)))).setRun { r with updDone := r.updDone ++ [j] }
  let s := (((s.setPitch p y).write wa wBytes).write oa oBytes).addNorm p 2 lo news
  let s := s.addNorm p 3 lo diffs
  match bad.head? with
  | some i =>
    if y.guard.updNotified then s.modPitch p Pitch.dropNotice
    else
      let layer := match y.layerOf (lo + i) with | some (l, _) => l | none => 0
      let s := s.modPitch p (fun x => { x with guard := { x.guard with updNotified := true } })
      s.notice p ntcNonfinite (leBytes 4 layer ++ leBytes 8 bad.length ++ leBytes 1 1)
  | none => s

/-- Block j of the run waits for its update: the verdict is CLEAN and its output is final (R315). -/
def BucketRun.readyUpdate (r : BucketRun) (x : Pitch) (j : Nat) : Bool :=
  let (b, k) := r.part x j
  x.works && x.guard.verdict = some 0 && j < r.blocks x && bUpdate (x.bucketD b) && x.owns b k && j ∈ r.outDone && j ∉ r.updDone

/-- Every update of a bucket that the verdict allows has been written. -/
def Pitch.updatesDone (x : Pitch) : Bool :=
  x.skipKnown || x.runs.all (fun r => (List.range (r.blocks x)).all (fun j => !r.readyUpdate x j))

end Sys2Proof.Machine
end

