-- ==== Sys2Proof/Machine/Sign.lean ====
section
/-! DEFINITION. The replay and timing signatures (16 R332 to R336), the divider and the wake that change them, and the size of a
retained image (19 R421). -/

namespace Sys2Proof.Machine

/-! ## Byte forms of the tables -/

/-- The 16 bytes of a peg entry (03 R60). -/
def Peg.bytes (g : Peg) : Bytes := leBytes 4 g.position.toNat ++ [g.action, 0, 0, 0] ++ leBytes 4 g.arg0.toNat ++ leBytes 4 0
/-- The 64 bytes of a budget entry (03 R60). -/
def budgetBytes (b : List Nat) : Bytes := (List.range 16).flatMap (fun n => leBytes 4 (b.getD n 0))
/-- The 32 bytes of a layer record (14 R309). -/
def LayerRec.bytes (l : LayerRec) : Bytes :=
  leBytes 8 l.first ++ leBytes 8 l.count ++ leBytes 4 l.rowLen ++ leBytes 12 (l.normReg + 2 ^ 14 * l.norms.toNat)
/-- The 32 bytes of a pairing record (R349); zeros where no pairing is set. -/
def pairingBytes : Option Pairing → Bytes
  | none => List.replicate 32 0
  | some q => leBytes 2 q.partner ++ leBytes 1 q.mode ++ leBytes 1 (bit q.hold) ++ leBytes 2 q.winBlocks ++ leBytes 2 0
      ++ leBytes 8 q.offset ++ List.replicate 16 0
/-- Camp-plan slots in the 256-byte form of PLAN_HASH (R334). -/
def planBytes (v : Vector W64 32) : Bytes := v.toList.flatMap (fun m => leBytes 8 m.toNat)

/-! ## The hashed strings (R333, R335) -/

/-- One entry of a hashed string: field id, INDEX, length and value. -/
def hashEntry (id idx : Nat) (val : Bytes) : Bytes := leBytes 2 id ++ leBytes 4 idx ++ leBytes 2 val.length ++ val

/-- The entries of the base fields that satisfy `pick`. -/
def baseEntries (p : Nat) (img : CfgImage) (pick : Nat → Bool) : Bytes :=
  (baseFields.filter (fun r => pick r.id)).flatMap (fun r =>
    (List.range r.count).flatMap (fun k => hashEntry r.id k (leBytes r.bytes (settingOf p img.base r.id k))))

/-- The entries of the bucket fields that satisfy `pick`, by id and then bucket. -/
def bucketEntries (img : CfgImage) (pick : Nat → Bool) : Bytes :=
  (bucketFields.filter (fun f => pick f.1)).flatMap (fun f =>
    img.buckets.zipIdx.flatMap (fun e => hashEntry f.1 e.2 (leBytes (divUp (f.2.1 + 1 - f.2.2) 8) (bfield e.1 f.2.1 f.2.2))))

/-- Base fields that NUM_HASH covers: PACING, MOE_EXPERTS and the guard fields except addresses. -/
def numBase (id : Nat) : Bool := id = 1 || id = 0x13 || (0x100 ≤ id && id ≤ 0x10E)
/-- Bucket fields that NUM_HASH covers: all but addresses and register numbers. -/
def numBucket (id : Nat) : Bool := id ≤ 0x211 || (0x216 ≤ id && id ≤ 0x218)

/-- The START_STATS set, one bit per bucket. -/
def startSet (pegs : List Peg) (n : Nat) : Bytes :=
  leBytes (divUp n 8) ((pegs.filter (fun g => g.action = 1)).foldl (fun a g => a ||| 2 ^ g.arg0.toNat) 0)

/-- The string of NUM_HASH (R333). -/
def Pitch.numString (x : Pitch) (p : Nat) : Bytes :=
  baseEntries p x.eff numBase ++ bucketEntries x.eff numBucket
    ++ hashEntry 0x4000 0 (startSet (if x.pegsLoaded then x.pegs else []) x.eff.buckets.length)
    ++ (if x.layersLoaded then x.layers.zipIdx.flatMap (fun e => hashEntry 0x4001 e.2
        (leBytes 8 e.1.first ++ leBytes 8 e.1.count ++ leBytes 4 e.1.rowLen ++ leBytes 1 e.1.norms.toNat)) else [])

/-- A string preceded by its length (R335). -/
def lengthFirst (bs : Bytes) : Bytes := leBytes 4 bs.length ++ bs

/-- The string of SCHED_HASH (R335). -/
def Pitch.schedString (x : Pitch) (p : Nat) : Bytes :=
  lengthFirst (baseEntries p x.eff (fun id => id < 0x400) ++ bucketEntries x.eff (fun _ => true)
      ++ baseEntries p x.eff (fun id => id = 0x400) ++ (List.range 1278).flatMap (fun k => leBytes 8 (x.queueRec (k + 2)).toNat))
    ++ lengthFirst (if x.pegsLoaded then x.pegs.flatMap Peg.bytes ++ x.budgets.flatMap budgetBytes else [])
    ++ lengthFirst (if x.layersLoaded then x.layers.flatMap LayerRec.bytes else [])
    ++ lengthFirst (pairingBytes x.pairing)

/-- ARITH_ID of stepping B0 (R332). -/
def arithId : Nat := 0x32160100

/-- The RSIG input record (R332). -/
def Pitch.rsigRecord (x : Pitch) (p : PitchId) : Bytes :=
  leBytes 4 arithId ++ leBytes 2 1 ++ leBytes 2 x.fwNum.toNat ++ sha384 (x.numString p.val) ++ leBytes 16 (x.seed p)
    ++ leBytes 1 (x.gen p) ++ List.replicate 7 0

/-- The first 16 bytes of a digest as a register value. -/
def sigOf (rec : Bytes) : W128 := BitVec.ofNat 128 (leAt (sha384 rec) 0 16)

/-- The LINK bytes (R334): rate of the port, and whether another logical port of the pitch uses it. -/
def State.linkBytes (s : State) (x : Pitch) : Bytes :=
  (List.finRange 16).map (fun lp =>
    let n := x.tx.portMap[lp]
    let shared := (List.finRange 16).any (fun m => m ≠ lp && x.tx.portMap[m] = n)
    BitVec.ofNat 8 (bit (s.netPorts[n].link = .r400) + 4 * bit shared))

/-- The TSIG input record (R334). -/
def State.tsigRecord (s : State) (p : PitchId) : Bytes :=
  let x := s.pitch p
  leBytes 16 x.rsig.toNat ++ leBytes 1 s.vco ++ leBytes 1 s.power.divider ++ leBytes 1 s.activeSlices
    ++ leBytes 1 (bit (s.power.device = 1) + 4 * bit (s.drowses p)) ++ s.linkBytes x ++ sha384 (planBytes x.plan)
    ++ sha384 (x.schedString p.val) ++ leBytes 4 0

/-- Compute both signatures (R336). -/
def State.resign (s : State) (p : PitchId) : State :=
  let s := s.modPitch p (fun x => { x with rsig := sigOf (x.rsigRecord p) })
  s.modPitch p (fun x => { x with tsig := sigOf (s.tsigRecord p) })

/-- Compute TSIG again for a change of a hardware input (R336): TSIG_CHANGES, and HEALTH.DEGRADED (17 R363). -/
def State.retimeOne (s : State) (p : PitchId) : State :=
  let x := s.pitch p
  if !x.committed then s
  else
    let t := sigOf (s.tsigRecord p)
    if t = x.tsig then s else s.setPitch p { x.count .tsigChanges with tsig := t, degraded := true }
/-- The same for every pitch. -/
def State.retime (s : State) : State := s.forPitches (fun p s => s.retimeOne p)

/-! ## CCLK divider and the wake (02 R43; 22 R475, R476) -/

/-- A new output divider: the time base goes on from its value now, and TSIG is computed again (R475). -/
def State.setDivider (s : State) (d : Nat) : State :=
  if s.power.divider = d then s
  else
    let base := s.ptpNow - ((s.cclk * 655360 * d / s.vco : Nat) : Int)
    State.retime { s with power := { s.power with divider := d }, ptp := { s.ptp with base := base } }

/-- A wake command in D-RETAIN (R476): back to D-RUN, or to D-LOW while the thermal condition holds, at the plan-period boundary
that the wake waits for. -/
def State.wake (s : State) : State :=
  if s.power.device ≠ 2 then s
  else
    let s := s.advanceTo s.planBoundary
    let low := s.power.callLow
    let s := { s with power := { s.power with device := if low then 1 else 0, idleEpochs := 0 } }
    let on := retainCells.filter (fun c => s.power.cells.toList.getD c .run = .drowse)
    ((s.setCells on .run).restGroups.setDivider (if low then 4 else 2)).retime

/-! ## Room in the retained store (19 R421) -/

/-- Bytes of a retained image (R421). -/
def imageSize (p : Nat) (base : List Setting) (overlays : Sparse Bytes) (buckets : Nat) (img : CfgImage) : Nat :=
  64 + 8128 + 144 + settingsSize base + sumOf (overlays.map (fun o => o.2.length)) + 128 * buckets + 10224 + 256 + 131072
    + 32 * settingOf p img.base 0x18 0 + 256

/-- Room for retained images (R421). -/
def retainedRoom : Nat := FlashRegion.mirror.size

end Sys2Proof.Machine
end

