-- ==== Sys2Proof/Machine/LowRank.lean ====
section
/-! DEFINITION. LOWRANK buckets (08): tiles on the projection arrays, the six stages, replays and unit repairs (R191 to R194;
23 R484, R486), and the fused update of any bucket (14 R316). -/

namespace Sys2Proof.Machine

/-! ## Operands (R177, R178) -/

/-- An operand converted to LR_OPFMT, saturating. -/
def opVal (fmt : Nat) (w : W32) : Val × BitVec 6 :=
  let f := (floatOf fmt).getD fp32
  match val32 w with
  | .fin n m e =>
    let (c, fl, ovf) := f.roundFin .rne 0 n m e
    (f.decode (if ovf then f.signed n f.maxCode else c), fl)
  | v => (f.decode (f.special v), fNV)

/-- The initial Q (R178): drawn with rank 0. -/
def Pitch.initialQ (x : Pitch) (p : PitchId) (h : BitVec 1024) (e : Nat) : W32 :=
  let n : Int := (x.draw16 p purposeInit (bElemBase h + e) 0 : Int) - 32768
  (to32 (.fin (n < 0) n.natAbs (-15))).1

/-- n words of the Q that stage 1 uses, from element e on. -/
def State.stageQ (s : State) (x : Pitch) (p : PitchId) (r : BucketRun) (e n : Nat) : List W32 :=
  let h := r.head x
  if (match r.lr with | some l => l.initQ | none => false) then (List.range n).map (fun i => x.initialQ p h (e + i))
  else s.words (bLrQBase h + 4 * e) n

/-! ## Tiles (R187, R188) -/

/-- A tile: output rows and columns, its slab of the reduction, and whether the slab is the last of its entries. -/
structure Tile where
  row  : Nat
  rows : Nat
  col  : Nat
  cols : Nat
  k0   : Nat
  ks   : Nat
  last : Bool
  deriving DecidableEq, Repr

/-- Cut [lo, lo + len) into ranges of at most `step`. -/
def cutRange (lo len step : Nat) : List (Nat × Nat) :=
  (List.range (divUp len (max 1 step))).map (fun i => (lo + i * max 1 step, min (max 1 step) (len - i * max 1 step)))

/-- Rows of a band in stages 1 and 4. -/
def bandRows (h : BitVec 1024) : Nat := 32 * (bLrErgCount h / (32 * bLrRank h))

/-- The tiles of a stage, in order. -/
def tilePlan (h : BitVec 1024) (stage : Nat) : List Tile :=
  let m := bLrM h
  let n := bLrN h
  let r := bLrRank h
  if stage = 6 then
    (cutRange 0 m 32).flatMap (fun a => (cutRange 0 n 32).map (fun b => ⟨a.1, a.2, b.1, b.2, 0, r, true⟩))
  else
    let (rows, ext) := if stage = 1 then (m, n) else (n, m)
    (cutRange 0 rows (bandRows h)).flatMap (fun band => (cutRange band.1 band.2 (32 * (32 / r))).flatMap (fun g =>
      (cutRange 0 ext 4096).map (fun k => ⟨g.1, g.2, 0, r, k.1, k.2, k.1 + k.2 = ext⟩)))

/-- The rows of the first operand of a tile, each a list over the reduction. -/
def State.tileA (s : State) (p : PitchId) (x : Pitch) (r : BucketRun) (stage : Nat) (t : Tile) : List (List W32) :=
  let h := r.head x
  let n := bLrN h
  (List.range t.rows).map (fun a =>
    if stage = 1 then s.runV p r ((t.row + a) * n + t.k0) t.ks
    else if stage = 4 then (List.range t.ks).map (fun i => (s.runV p r ((t.k0 + i) * n + (t.row + a)) 1).headD 0)
    else s.words (lrPBase h + 4 * ((t.row + a) * bLrRank h)) t.ks)

/-- The columns of the second operand of a tile, each a list over the reduction. -/
def State.tileB (s : State) (x : Pitch) (p : PitchId) (r : BucketRun) (stage : Nat) (t : Tile) : List (List W32) :=
  let h := r.head x
  let k := bLrRank h
  if stage = 6 then (List.range t.cols).map (fun c => s.words (lrQeBase h + 4 * ((t.col + c) * k)) k)
  else
    let ws := if stage = 1 then s.stageQ x p r (t.k0 * k) (t.ks * k) else s.words (lrPBase h + 4 * (t.k0 * k)) (t.ks * k)
    let rows := chunks k ws
    (List.range k).map (fun j => rows.map (fun row => row.getD j 0))

/-- ⌊log2 |v|⌋ of a finite non-zero value. -/
def Val.ilog : Val → Option Int
  | .fin _ m e => if m = 0 then none else some ((m.log2 : Int) + e)
  | _ => none

/-- The declared exponent of a side (R188): its first slab of 32. -/
def declaredExp (side : List (List Val)) : Int :=
  match side.flatMap (fun l => (l.take 32).filterMap Val.ilog) with
  | [] => -149
  | e :: es => es.foldl max e

/-- The sums of a tile in row order, with tail adds, repeats, and the flags and the non-finite conversions (04 R96) of its operands. -/
def State.tileSums (s : State) (x : Pitch) (p : PitchId) (r : BucketRun) (stage : Nat) (t : Tile) : List W640 × Nat × Nat × BitVec 6 × Nat :=
  let fmt := bLrOpfmt (r.head x)
  let wa := s.tileA p x r stage t
  let wb := s.tileB x p r stage t
  let conv := fun (side : List (List W32)) => side.map (fun l => l.map (opVal fmt))
  let a := conv wa
  let b := conv wb
  let av := a.map (fun l => l.map Prod.fst)
  let bv := b.map (fun l => l.map Prod.fst)
  let fl := (a ++ b).foldl (fun f l => l.foldl (fun f e => f ||| e.2) f) (0 : BitVec 6)
  let ps := av.flatMap (fun row => bv.map (fun col => List.zipWith productOf row col))
  let (sums, tails, reps) := tileSum (declaredExp av) (declaredExp bv) ps
  (sums, tails, reps, fl, ((wa ++ wb).flatten.filter (fun w => !finite32 w)).length)

/-- v − S_M / C (R183), with a sticky bit below every weight a residual holds. -/
def lrResidual (v : W32) (sum : W640) (c : Nat) : Val :=
  let num : Int := (val32 v).toIntAt (-320) * (c : Int) - sum.toInt
  let q := num.natAbs <<< 100
  .fin (num < 0) (2 * (q / c) + bit (q % c ≠ 0)) (-421)

/-- Stage 6 of a tile: the member residuals of its entries. -/
def State.tileResiduals (s : State) (p : PitchId) (r : BucketRun) (t : Tile) (sums : List W640) : State :=
  let x := s.pitch p
  let h := r.head x
  let n := bLrN h
  let z := resSize (bResFmt h)
  (chunks t.cols sums).zipIdx.foldl (fun s e =>
    let at' := (t.row + e.2) * n + t.col
    let vs := s.runV p r at' t.cols
    let res := List.zipWith (fun v sum => resEncode (bResFmt h) (lrResidual v sum (max 1 x.size))) vs e.1
    (s.raise p (res.foldl (fun a q => a ||| q.2) 0)).write (bResBase h + z * at') (res.flatMap (fun q => leBytes z q.1))) s

/-- Stages 1 and 4 of a tile: spills, and the conversion of entries whose reduction is whole (R179, R182, R116). -/
def State.tileSpill (s : State) (p : PitchId) (r : BucketRun) (stage : Nat) (t : Tile) (sums : List W640) : State :=
  let x := s.pitch p
  let h := r.head x
  let k := bLrRank h
  let base := bLrWBase h + (if stage = 1 then 0 else 4 * bLrPWords h)
  let ents := sums.zipIdx.map (fun e => (t.row * k + e.2, x.erg p (bLrErgBase h + (t.row * k + e.2) % (bandRows h * k)), e.1))
  let s := ents.foldl (fun s e => s.ergAddTo e.2.1 e.2.2) s
  if !t.last then s
  else
    let outs := ents.map (fun e => (e, ergConvert (s.ergGet e.2.1)))
    let fl := outs.foldl (fun a o => a ||| o.2.2.2) 0
    let s := outs.foldl (fun s o => s.ergClear o.1.2.1 1) s
    let s := s.write (base + 4 * (t.row * k)) (wordBytes (outs.map (fun o => o.2.1)))
    s.modPitch p (fun x =>
      let y := (x.raise fl).count .ergOutRetry (sumOf (outs.map (fun o => o.2.2.1)))
      match x.runOf r.bucket with
      | some r => y.setRun { r with lr := r.lr.map (fun l => { l with nf := l.nf || outs.any (fun o => o.2.2.1 ≠ 0) }) }
      | none => y)

/-- Run the next tile of a stage. -/
def State.runTile (s : State) (p : PitchId) (r : BucketRun) (l : LrRun) (t : Tile) : State :=
  let x := s.pitch p
  let (sums, tails, reps, fl, nf) := s.tileSums x p r l.stage t
  let fresh := l.stage = 1 && l.tiles = 0 && l.initQ
  let y := ((((x.raise fl).count .nonfiniteConv nf).count .ergTailAdds tails).count .baccRepeats reps).count .lrQinit (bit fresh)
  let r := { r with lr := some { l with tiles := l.tiles + 1 } }
  let s := s.setPitch p (y.setRun r)
  if l.stage = 6 then s.tileResiduals p r t sums else s.tileSpill p r l.stage t sums

/-! ## Tiles and replays (08 R187, R191 to R194) -/

/-- The stage of a LOWRANK bucket that runs on the arrays, with its next tile. -/
def Pitch.nextTile (x : Pitch) (p : PitchId) (bucket : Nat) : Option (BucketRun × LrRun × Tile) :=
  match x.runs.find? (fun r => r.bucket = bucket) with
  | none => none
  | some r =>
    match r.lr with
    | none => none
    | some l =>
      if x.works && x.hasBanks p ((List.range (bLrErgCount (r.head x))).map (bLrErgBase (r.head x) + ·)) && (l.stage = 4 || l.stage = 6 || (l.stage = 1 && !r.nf)) then
        ((tilePlan (r.head x) l.stage)[l.tiles]?).map (fun t => (r, l, t))
      else none

/-- A stage ends when its last tile has. -/
def State.stageEnd (s : State) (p : PitchId) (bucket : Nat) : State :=
  s.modPitch p (fun x =>
    match x.runs.find? (fun r => r.bucket = bucket) with
    | none => x
    | some r =>
      match r.lr with
      | none => x
      | some l =>
        if (l.stage = 1 || l.stage = 4) && ((l.stage = 1 && r.nf) || (tilePlan (r.head x) l.stage).length ≤ l.tiles) then
          x.setRun { r with lr := some { l with stage := l.stage + 1, tiles := 0 } }
        else x)

/-- Tiles of the bucket's stage while their slices take work. -/
def runTiles (p : PitchId) (bucket stage : Nat) : Nat → State → State
  | 0, s => s
  | n + 1, s =>
    match (s.pitch p).nextTile p bucket with
    | some (r, l, t) =>
      if l.stage = stage && s.sliceWorks l.tiles then runTiles p bucket stage n (s.runTile p r l t) else s
    | none => s

/-- The tiles left of a stage. -/
def State.stageTiles (s : State) (p : PitchId) (bucket stage : Nat) : State :=
  let x := s.pitch p
  match x.runs.find? (fun r => r.bucket = bucket) with
  | some r => if r.lrStage = stage && r.lr.isSome && x.works then
      (runTiles p bucket stage (tilePlan (r.head x) stage).length s).stageEnd p bucket
    else s
  | none => s

/-- One tile with the outcome of its checks: a failed tile is replayed with the same bits, or its unit leaves work. -/
def State.arrayTile (s : State) (p : PitchId) (bucket : Nat) (check : TileCheck) : State :=
  match (s.pitch p).nextTile p bucket with
  | none => s
  | some (r, l, t) =>
    if !s.sliceWorks l.tiles then s
    else match check with
      | .pass => (s.runTile p r l t).stageEnd p bucket
      | .checksum =>
        ((((s.runTile p r l t).count p .arrayCheckFail).count p .tileReplays).countCatch false).stageEnd p bucket
      | .residue =>
        ((((s.runTile p r l t).count p .residueFail).count p .tileReplays).countCatch true).stageEnd p bucket
      | .refused n => ((s.runTile p r l t).refusedAdds p n).stageEnd p bucket
      | .replayFails first again =>
        let fail := fun (s : State) (residue : Bool) =>
          (s.count p (if residue then .residueFail else .arrayCheckFail)).countCatch residue
        ((fail (fail s first) again).count p .tileReplays).breakUnit l.tiles

/-- ARRAY_TILE (05 R113). -/
def execArrayTile (p : PitchId) (bucket : Nat) (check : TileCheck) (s : State) : Result :=
  live s (fun s => s.arrayTile p bucket check)

/-! ## Unit repairs (R194; 23 R484, R486) -/

/-- Replace a cluster. -/
def State.setCluster (s : State) (c : Fin 8) (k : Cluster) : State := { s with clusters := s.clusters.set c k }

/-- A slice that fails leaves its cluster's map: the spare takes its logical number, or the slice is withdrawn, or the
cluster is exhausted (R194, R486). -/
def State.repairSlice (s : State) (c : Fin 8) (k : Nat) : State :=
  let cl := s.clusters[c]
  let mend := fun (t : Option Nat) (new : Option Nat) => if t = some k then new else t
  match cl.spare with
  | some sp =>
    let cl := { cl with
      map := cl.map.map (fun t => mend t (some sp)), spare := none, broken := cl.broken.filter (· ≠ k)
      retired := addNew k cl.retired }
    (((s.setCluster c cl).takeSpare 1).holdRepair 1 (sliceCell c.val k) 0).repairDone (sliceCell c.val k) 1 actSoft 0 0
  | none =>
    if s.activeSlices ≤ 56 then
      let s := s.repairDone (sliceCell c.val k) 1 actExhausted 0 0
      s.forPitches (fun p s => if (s.pitch p).slots 0 ≠ 0 then s.repairFault p else s)
    else
      let cl := { cl with
        map := cl.map.map (fun t => mend t none), broken := cl.broken.filter (· ≠ k), retired := addNew k cl.retired }
      ((s.setCluster c cl).repairDone (sliceCell c.val k) 1 actWithdrawn 0 0).retime

/-- A fault of one named PE takes the next spare row, then the next spare column, of its array (R484). -/
def State.peRepair (s : State) (c : Fin 8) (k : Nat) : State :=
  let cl := s.clusters[c]
  let used := sget cl.peRepairs k 0
  let res := if used < 2 then 2 else 3
  let left := if used < 2 then 1 - used else 3 - used
  let cl := { cl with peRepairs := sput cl.peRepairs k (used + 1), broken := cl.broken.filter (· ≠ k) }
  (((s.setCluster c cl).takeSpare res).holdRepair res (sliceCell c.val k) (used % 2)).repairDone (sliceCell c.val k) res actSoft
    (used % 2) left

/-- A unit that failed its replay is repaired: a spare array row, then a spare column, for a fault of one named PE; else the
slice (R194). -/
def State.unitRepair (s : State) (c : Fin 8) (k : Nat) (namedPe : Bool) : State :=
  let cl := s.clusters[c]
  if k ∉ cl.broken || !s.clusterServes c then s
  else if namedPe && sget cl.peRepairs k 0 < 4 then s.peRepair c k
  else s.repairSlice c k

/-- UNIT_REPAIR (R194). -/
def execUnitRepair (c : Fin 8) (k : Fin 9) (namedPe : Bool) (s : State) : Result := live s (fun s => s.unitRepair c k.val namedPe)

/-! ## Stages 1 to 5 -/

/-- PROJECT_STAGE (R179). -/
def execProjectStage (p : PitchId) (bucket : Nat) (s : State) : Result := live s (fun s => s.stageTiles p bucket 1)

/-- The factor block that is quantised next: a repeat attempt, else the next first attempt. -/
def BucketRun.nextFactor (r : BucketRun) (x : Pitch) : Option (LrRun × Nat) :=
  match r.lr with
  | none => none
  | some l =>
    if (l.stage = 2 || l.stage = 5) && l.agreed.isSome && x.works && !x.packerWaits then
      match l.retry with
      | a :: as => some (l, as.foldl min a)
      | [] => if l.quantNext < r.factorBlocks x then some (l, l.quantNext) else none
    else none

/-- Quantise a factor block with the agreed exponent and hand its stream to the Packer (R180). -/
def State.factorQuantise (s : State) (p : PitchId) (r : BucketRun) (l : LrRun) (f : Nat) : State :=
  let x := s.pitch p
  let h := r.head x
  let n := bBlock h
  let w := bWire h
  let words := s.words (r.factorBase x + 4 * (f * n)) (min n (r.factorWords x - f * n))
  let scale := (l.agreed.getD []).getD f 0 + sget l.attempts f 0
  let qs := words.map (fun v => quantise w ((scale : Int) - 127) .rne 0 (val32 v))
  let codes := qs.map Quant.code ++ List.replicate (n - words.length) (codeZero w)
  let qmax := maxOf (codes.map (fun c => (codeUnits w c).natAbs))
  let st : Stream := ⟨kindContrib, w, n, false, f, scale, qmax, List.range n, codes, false⟩
  let r := { r with lr := some { l with quantNext := max l.quantNext (f + 1), retry := l.retry.filter (· ≠ f) } }
  (s.setPitch p ((x.noteQuant qs).setRun r)).toPacker p r f kindContrib (encodeStream st none).1

/-- FACTOR_EXCHANGE_QUANTISE (R180). -/
def execFactorExchangeQuantise (p : PitchId) (bucket block : Nat) (s : State) : Result :=
  live s (fun s =>
    match (s.pitch p).runs.find? (fun r => r.bucket = bucket) with
    | some r => match r.nextFactor (s.pitch p) with
      | some (l, f) => if f = block then s.factorQuantise p r l f else s
      | none => s
    | none => s)

/-- What orthonormalising has come to: finished columns, flags, conversion repeats, zeroed columns, and a norm or dot product
out of range. -/
structure Ortho where
  cols : List (List W32) := []
  flags : BitVec 6 := 0
  reps : Nat := 0
  degen : Nat := 0
  bad  : Bool := false
  deriving DecidableEq, Repr

/-- The exact dot product of two columns. -/
def dotErg (a b : List W32) : W640 :=
  (List.zip a b).foldl (fun acc e => let q := productOf (val32 e.1) (val32 e.2); ergAdd acc (ergOf q.sig q.exp)) 0

/-- Subtract the projection of a column onto a finished one. -/
def Ortho.reduce (o : Ortho) (col done : List W32) : Ortho × List W32 :=
  let (d, k, fl) := ergConvert (dotErg done col)
  let outs := List.zipWith (fun c q => to32 (sumVals [val32 c, (mulVals (val32 d) (val32 q)).1.negate]).1) col done
  ({ o with
      flags := outs.foldl (fun f e => f ||| e.2) (o.flags ||| fl)
      reps := o.reps + k
      bad := o.bad || k ≠ 0 }, outs.map Prod.fst)

/-- One column of the procedure of R181. -/
def Ortho.column (o : Ortho) (col : List W32) : Ortho :=
  if o.bad then o
  else
    let (o, col) := o.cols.foldl (fun (st : Ortho × List W32) q => if st.1.bad then st else st.1.reduce st.2 q) (o, col)
    if o.bad then o
    else
      let nn := (dotErg col col).toNat
      if nn ≤ 2 ^ 64 then { o with cols := o.cols ++ [col.map (fun _ => 0)], degen := o.degen + 1 }
      else if 2 ^ 448 ≤ nn then { o with bad := true }
      else
        let (m, e) := rsqrtMag nn (-320)
        let (sc, fl) := round32 false m e
        let outs := col.map (fun c => mul32 c sc)
        { o with cols := o.cols ++ [outs.map Prod.fst], flags := outs.foldl (fun f e => f ||| e.2) (o.flags ||| fl) }

/-- Stage 3 (R181). -/
def State.orthonormalise (s : State) (p : PitchId) (r : BucketRun) (l : LrRun) : State :=
  let x := s.pitch p
  let h := r.head x
  let k := bLrRank h
  let rows := chunks k (s.words (lrPBase h) (bLrPWords h))
  let o := (List.range k).foldl (fun (o : Ortho) j => o.column (rows.map (fun row => row.getD j 0))) {}
  let y := ((x.raise o.flags).count .ergOutRetry o.reps).count .lrDegenerate o.degen
  if o.bad then (s.setPitch p (y.lrStop r)).guardProgress p
  else
    let out := (List.range (bLrM h)).flatMap (fun i => o.cols.map (fun c => c.getD i 0))
    (s.setPitch p (y.setRun { r with lr := some { l with stage := 4, tiles := 0 } })).write (lrPBase h) (wordBytes out)

/-- ORTHONORMALISE_STAGE (R181). -/
def execOrthonormaliseStage (p : PitchId) (bucket : Nat) (s : State) : Result :=
  live s (fun s =>
    let x := s.pitch p
    match x.runs.find? (fun r => r.bucket = bucket) with
    | some r => match r.lr with
      | some l => if l.stage = 3 && x.works then s.orthonormalise p r l else s
      | none => s
    | none => s)

/-- BACK_PROJECT_STAGE (R182). -/
def execBackProjectStage (p : PitchId) (bucket : Nat) (s : State) : Result := live s (fun s => s.stageTiles p bucket 4)

/-! ## Stage 6 (R183) -/

/-- The exact S_M of n elements of the matrix from element e on, which lie in one row or several. -/
def State.lrValues (s : State) (p : PitchId) (r : BucketRun) (e n : Nat) : List Val :=
  let x := s.pitch p
  let h := r.head x
  let k := bLrRank h
  let op := fun (w : W32) => (opVal (bLrOpfmt h) w).1
  (List.range n).map (fun i =>
    let a := (s.words (lrPBase h + 4 * ((e + i) / bLrN h * k)) k).map op
    let b := (s.words (lrQeBase h + 4 * ((e + i) % bLrN h * k)) k).map op
    ergVal ((List.zip a b).foldl (fun acc q => let t := productOf q.1 q.2; ergAdd acc (ergOf t.sig t.exp)) 0))

/-- Values of block j of a run, from its placed broadcast or its factors. -/
def State.blockValues (s : State) (p : PitchId) (r : BucketRun) (j : Nat) : List Val :=
  let x := s.pitch p
  let (b, _) := r.part x j
  let n := bBlock (r.head x)
  if r.isLow x then s.lrValues p r (j * n) n
  else match s.placedOf p r j with
    | some q => placedVals (x.bucketD b) q
    | none => []

/-- Output of a LOWRANK bucket's blocks from `j` on, while the lock-step Unit has room. -/
def lrOutputGo (p : PitchId) (bucket : Nat) : Nat → State → State
  | 0, s => s
  | f + 1, s =>
    let x := s.pitch p
    match x.runs.find? (fun r => r.bucket = bucket) with
    | none => s
    | some r =>
      let j := r.outDone.length
      if r.blocks x ≤ j || !x.outputs then s
      else if !x.lsRoom then s.lsWait p
      else
        let h := r.head x
        let n := bBlock h
        let z := resSize (bResFmt h)
        let res := s.read (bResBase h + z * (j * n)) (z * n)
        let (s, out) := s.writeOutput p r j (s.lrValues p r (j * n) n)
        let code := fun (o : Nat) => (((s.pitch p).outCodes h (s.lrValues p r o 1)).map Prod.fst).headD 0
        lrOutputGo p bucket f ((rowSideGo p bucket code (r.elements x + 1) s).endOutput p r j out res)

/-- Stage 6: member residuals, the next Q with Q_VALID, and the output; a step known to be skipped writes no output. -/
def State.reconstruct (s : State) (p : PitchId) (bucket : Nat) : State :=
  let s := s.stageTiles p bucket 6
  let x := s.pitch p
  match x.runs.find? (fun r => r.bucket = bucket) with
  | none => s
  | some r =>
    let h := r.head x
    match r.lr with
    | none => s
    | some l =>
      if l.stage ≠ 6 || !x.works || l.tiles < (tilePlan h 6).length then s
      else
        let s := s.write (bLrQBase h) (s.read (lrQeBase h) (4 * bLrQWords h))
        let s := s.setPitch p { x with qValid := addNew bucket x.qValid }
        let s := s.modRetained p (fun m => { m with qValid := addNew bucket m.qValid })
        let s := lrOutputGo p bucket (r.blocks x + 1) s
        let x := s.pitch p
        match x.runs.find? (fun r => r.bucket = bucket) with
        | some r => if x.skipKnown || r.outDone.length = r.blocks x then
            (s.setPitch p (x.setRun { r with lr := some { l with stage := lrDone } })).lsLast p
          else s
        | none => s

/-- RECONSTRUCT_STAGE (R183). -/
def execReconstructStage (p : PitchId) (bucket : Nat) (s : State) : Result := live s (fun s => s.reconstruct p bucket)

/-- The Erg banks of the WEIGHT and UPDATE norms of a block are the pitch's to use (01 R24). -/
def BucketRun.updateBanks (r : BucketRun) (x : Pitch) (p : PitchId) (j : Nat) : Bool :=
  let (b, k) := r.part x j
  x.normBanks p b k 2 && x.normBanks p b k 3

/-- FUSED_UPDATE_BLOCK (14 R316). -/
def execFusedUpdateBlock (p : PitchId) (bucket block : Nat) (s : State) : Result :=
  live s (fun s =>
    let x := s.pitch p
    match x.runs.find? (fun r => r.bucket = bucket) with
    | some r => if r.readyUpdate x block && r.updateBanks x p block then s.updateBlock p r block (s.blockValues p r block) else s
    | none => s)

end Sys2Proof.Machine
end

