-- ==== Sys2Proof/Machine/Commit.lean ====
section
/-! DEFINITION. cfg.commit (19 R416 to R421): forming the settings, their checks in order, the camp plan, and its effects; the
checks of peg.load (03 R61) and layermap.load (14 R309). -/

namespace Sys2Proof.Machine

/-! ## Engine addresses in commands and tables (18 R379) -/

/-- Queue memory above the first 48 KiB and outside every ring holds n bytes at a. -/
def Pitch.freeQueueMem (x : Pitch) (p : PitchId) (a n : Nat) : Bool :=
  let b := queueBase p.val
  b + 0xC000 ≤ a && a + n ≤ b + queueSize
    && x.eff.queues.all (fun e => match x.ring e.1 with
      | some r => n = 0 || a + n ≤ b + r.1 || b + r.1 + r.2.1 * r.2.2 ≤ a
      | none => true)

/-- An address with bit 63 set is an engine address in bits [47:0]. -/
def isEngine (a : Nat) : Bool := bitOf a 63
def engineAddr (a : Nat) : Nat := a % 2 ^ 48

/-- An engine address of a command is legal for n bytes. -/
def Pitch.commandRange (x : Pitch) (p : PitchId) (a n : Nat) : Bool :=
  (x.isBound && x.inRegions (engineAddr a) n) || x.freeQueueMem p (engineAddr a) n

/-! ## Forming the settings (R416) -/

/-- What a commit works on. -/
structure Draft where
  base    : List Setting
  eff     : List Setting
  raw     : List (BitVec 1024)
  buckets : List (BitVec 1024)
  queueRecs : List Nat
  overlay : List Tlv
  deriving DecidableEq, Repr

/-- The base after step 2. -/
def Pitch.draftBase (x : Pitch) (p : PitchId) : List Setting := applyBase p.val (if x.committed then x.base.base else []) x.pendBase

/-- The TLVs of an overlay as put. -/
def overlayTlvs (bs : Bytes) : List Tlv := match readRecord true bs with | .ok (_, ts) => ts | .error _ => []

/-- Address and length of the bucket table and of the queue table. -/
def draftTables (p : Nat) (base : List Setting) : List (Nat × Nat) :=
  let b := settingOf p base 5 0
  [(partOf b 0 8, 128 * partOf b 8 4), (settingOf p base 6 0, 10224)]

/-- Steps 3 and 4, from the tables' bytes. -/
def Pitch.draft (x : Pitch) (p : PitchId) (bucketBytes queueBytes : Bytes) : Draft :=
  let base := x.draftBase p
  let raw := (chunks 128 bucketBytes).map (fun c => BitVec.ofNat 1024 (leNat c))
  let ts := overlayTlvs (sget x.pendOverlays x.pendSel [])
  ⟨base, applyBase p.val base ts, raw, ts.foldl patchBuckets raw, (chunks 8 queueBytes).map leNat, ts⟩

/-- The image of a draft. -/
def Draft.image (d : Draft) : CfgImage :=
  { base := d.eff, buckets := d.buckets
    queues := (d.queueRecs.zipIdx.filter (fun e => e.1 ≠ 0)).map (fun e => (e.2 + 2, BitVec.ofNat 64 e.1)) }

/-- A field of the draft's effective base. -/
def Draft.f (d : Draft) (p id : Nat) (idx : Nat := 0) : Nat := settingOf p d.eff id idx
/-- Its buckets with their indices. -/
def Draft.bs (d : Draft) : List (BitVec 1024 × Nat) := d.buckets.zipIdx

/-! ## Step 1: ranges of values -/

/-- FP32 bits of a configuration value. -/
def f32Of (v : Nat) : W32 := BitVec.ofNat 32 v

/-- The legal range of a base field; a reserved encoding is told apart (R417 step 1; 14 R304). -/
def baseLegal (p id v : Nat) : Check :=
  let ok := fun (b : Bool) => need b eConfig id
  match id with
  | 0x0001 => ok (v ≤ 1)
  | 0x0002 => ok (partOf v 0 2 % 8 = 0 && partOf v 2 2 % 8 = 0 && partOf v 0 2 + partOf v 2 2 ≤ 16384)
  | 0x0004 => ok ((List.range 32).all (fun r => sharesOf v r ≤ 63))
  | 0x0005 => ok (1 ≤ partOf v 8 4 && partOf v 8 4 ≤ 16384)
  | 0x0007 => ok (64 ≤ v)
  | 0x0008 => ok (1 ≤ v && v ≤ 65536)
  | 0x0011 => ok (1000 ≤ v && v ≤ 10000000)
  | 0x0012 => ok (bitOf v p)
  | 0x0013 => ok (v ≤ 16384)
  | 0x0018 => ok (1 ≤ v && v ≤ 16384)
  | 0x0021 => ok (v = 4 || v = 6)
  | 0x0022 => ok (partOf v 0 1 ≤ 2)
  | 0x0024 => ok (v ≤ 63)
  | 0x0026 => ok (v % 2 ^ 21 = 0)
  | 0x0100 => ok (-24 ≤ signedOf 1 v && signedOf 1 v ≤ 24)
  | 0x0102 => ok (1 ≤ v && v ≤ 2 ^ 24)
  | 0x0106 => ok (0x1000 ≤ signedOf 4 v && signedOf 4 v ≤ 0x100000)
  | 0x0107 => ok (1 ≤ v && v ≤ 12)
  | 0x0109 => ok (lt32 0 (f32Of v))
  | 0x010A => need (v ≠ 3) eReserved id
  | 0x010B => ok (le32 0 (f32Of v) && lt32 (f32Of v) 0x3F800000)
  | 0x010C => ok (le32 0 (f32Of v) && lt32 (f32Of v) 0x3F800000)
  | 0x010D => ok (lt32 0 (f32Of v))
  | 0x010E => ok (le32 0 (f32Of v))
  | 0x0400 =>
    let f := bitsOf v 7 3
    firstOf [need (fmtKnown f) eReserved id, ok (!bitOf v 0 || f = 1 || (f = 2 && bitOf v 1))]
  | _ => none

/-- Every base field that satisfies `pick`, in ascending (id, INDEX). -/
def Draft.baseChecks (d : Draft) (p : Nat) (pick : Nat → Bool) : Check :=
  firstOf ((baseFields.filter (fun r => pick r.id)).flatMap (fun r => (List.range r.count).map (fun k => baseLegal p r.id (d.f p r.id k))))

/-- The legal range of a bucket field. -/
def bucketLegal (id v : Nat) : Check :=
  match id with
  | 0x0200 => need (2 ^ 16 ≤ v && v ≤ 2 ^ 26) eConfig id
  | 0x0202 => need (v ≠ 7) eReserved id
  | 0x0203 => need (fmtKnown v) eReserved id
  | 0x0204 => need (fmtKnown v) eReserved id
  | 0x0205 => need (v ≠ 3) eReserved id
  | 0x0206 => need (v ≠ 3) eReserved id
  | 0x0207 => need (v ≠ 3) eReserved id
  | 0x0208 => need (fmtKnown v) eReserved id
  | 0x0210 => need (1 ≤ v && v ≤ 2 ^ 24) eConfig id
  | 0x0216 => need (v ≤ 5) eReserved id
  | 0x0217 => need (fmtKnown v) eReserved id
  | _ => none

/-- Every bucket field, in ascending (id, INDEX). -/
def Draft.bucketChecks (d : Draft) : Check :=
  firstOf (bucketFields.flatMap (fun f => d.buckets.map (fun r => bucketLegal f.1 (bfield r f.2.1 f.2.2))))

/-- Reserved bits of the copied records, with their own DETAIL (R417). -/
def Draft.reservedChecks (d : Draft) : Check :=
  firstOf (d.raw.zipIdx.map (fun e =>
      let bad := e.1.toNat &&& bucketRsv
      need (bad = 0) eReserved (0x01000000 + 128 * e.2 + lowByte bad)) ++
    d.queueRecs.zipIdx.map (fun e =>
      let bad := e.1 &&& queueRsv
      need (bad = 0) eReserved (0x02000000 + 8 * e.2 + lowByte bad)))

/-- Step 1 after the base fields below the bucket ids. -/
def Draft.step1 (d : Draft) (p : Nat) : Check :=
  firstOf [d.reservedChecks,
    firstOf (d.overlay.map (fun t => need ((bucketBits t.id).isNone || t.index = 0xFFFFFFFF || t.index < d.buckets.length) eConfig t.id)),
    firstOf (d.queueRecs.map (fun r => need (r % 16 = 0 || 4 ≤ r % 16) eReserved 6)),
    d.bucketChecks, d.baseChecks p (fun id => id = 0x400)]

/-! ## Step 2: rules across fields -/

/-- Bytes of a residual per element (05 R122). -/
def Draft.resBytes (r : BitVec 1024) : Nat := resSize (bResFmt r)

/-- R86: formats in their roles; LR_OPFMT has its role in a LOWRANK bucket alone (notes/assumptions 112). -/
def formatCheck (r : BitVec 1024) : Check :=
  let lr : Bool := bSelect r = selLowrank
  firstOf [need (if lr then bWire r ∈ [8, 9, 0x0A] else fmtWire (bWire r)) eFormat 0x203,
    need (lr || fmtBcast (bBcast r)) eFormat 0x204, need (fmtHost (bOutFmt r) false) eFormat 0x208,
    need (!lr || bLrOpfmt r ≤ 2) eFormat 0x217]

/-- R153: selection parameters. -/
def selectCheck (r : BitVec 1024) : Check :=
  let m := bSelect r
  let k := bSelK r
  let kOk : Bool := if m = selTopkRow then decide (1 ≤ k ∧ k ≤ 4096) else if m = selTopkBlock then decide (1 ≤ k ∧ k + 1 ≤ bBlock r)
    else if m = selPgu then decide (1 ≤ k ∧ k ≤ 1024) else decide (k = 0)
  let dOk : Bool := if m = selThresh || m = selRandk then decide (1 ≤ bDensity r) else decide (bDensity r = 0)
  firstOf [need kOk eConfig 0x20E, need dOk eConfig 0x20F, need (m = selRandk || !bRandkShared r) eConfig 0x20D,
    need (m ≠ selPgu || bBlock r = 256) eConfig 0x201, need (m ≠ selPgu || bElements r ≤ 2 ^ 24) eConfig 0x200,
    need (m ≠ selPgu || bWire r = 0x0A || bWire r = 8) eConfig 0x203]

/-- Registers named by a layer record: first and count. -/
def LayerRec.regs (l : LayerRec) : Nat × Nat := (l.normReg, popcount 4 l.norms.toNat)
/-- Two register ranges meet. -/
def meet (a b : Nat × Nat) : Bool := a.1 < b.1 + b.2 && b.1 < a.1 + a.2

/-- R175: LOWRANK parameters, against the layer map loaded last where there is one. -/
def lowrankCheck (layers : List LayerRec) (loaded : Bool) (r : BitVec 1024) : Check :=
  if bSelect r ≠ selLowrank then need (bLrN r = 0) eConfig 0x218
  else
    let n := bLrN r
    let seg := layers.find? (fun l => l.first ≤ bElemBase r && bElemBase r + bElements r ≤ l.first + l.count)
    let rowOk : Bool := !loaded || (match seg with | some l => l.rowLen = n | none => false)
    firstOf [need (bBcast r = bWire r) eConfig 0x204, need (bQRound r = 0) eConfig 0x205, need (bGRound r = 0) eConfig 0x206,
      need (n % 32 = 0 && 32 ≤ n && n ≤ 65536 && bElements r % n = 0 && bElements r / n % 32 = 0 && rowOk) eConfig 0x218,
      need (32 * bLrRank r ≤ bLrErgCount r && bLrErgCount r % 8 = 0) eConfig 0x21C,
      need (!loaded || layers.all (fun l => l.regs.2 = 0 || !meet l.regs (bLrErgBase r, bLrErgCount r))) eConfig 0x21B]

/-- R207: PACK_CODE. -/
def packCheck (r : BitVec 1024) : Check :=
  let int : Nat → Bool := fun f => f ∈ [8, 9, 0x0A]
  need (!bPackCode r || (bSelect r = selDense && (int (bWire r) || int (bBcast r)))) eConfig 0x20C

/-- The largest checkpoint slot a configuration can need: at the smallest group (15 R324). -/
def slotNeed (bs : List (BitVec 1024)) (n : Nat) : Nat :=
  let sec := fun (k : Nat) => 32 + roundUp k 64
  let upd := !(updBuckets bs).isEmpty
  256 + sumOf (bs.map (fun r => sec (bElements r * resSize (bResFmt r))
      + (if bSelect r = selLowrank then sec (4 * bLrQWords r) else sec (divUp (bBlocks r) n * bBlock r * resSize (bResFmt r)))))
    + (if upd then sec (imgBytes (shardElems bs n)) + sec (8 * shardElems bs n) else 0)

/-- Weights of a snapshot destination record. -/
def snapElems (bs : List (BitVec 1024)) (n v : Nat) : Nat := if bitOf v 1 then bitsOf v 191 128 else shardElems bs n

/-- R365: queue records. -/
def queueCheck (recs : List Nat) (exc : Nat) : Check :=
  let qs := recs.zipIdx.map (fun e => (e.2 + 2, (BitVec.ofNat 64 e.1 : W64)))
  let on := qs.filter (fun e => qDepthLog e.2 ≠ 0)
  let ringOf := fun (e : Nat × W64) => (64 * qRingOff e.2, 64 * 2 ^ qDepthLog e.2)
  let sorted := sortBy (fun (a b : Nat × Nat) => a.1 ≤ b.1) (on.map ringOf)
  let apart := (sorted.zip (sorted.drop 1)).all (fun e => e.1.1 + e.1.2 ≤ e.2.1)
  let cq := fun (q : Nat) => on.any (fun e => e.1 = q && isCplQueue q && !qExc e.2)
  firstOf [need (sorted.all (fun r => 0xC000 ≤ r.1 && r.1 + r.2 ≤ queueSize) && apart) eConfig 6,
    need (qs.all (fun e => if isWorkQueue e.1 then !qExc e.2 && !qIrq e.2 else qCq e.2 = 0 && qPort e.2 = 0)) eConfig 6,
    need (on.all (fun e => !isWorkQueue e.1 || cq (qCq e.2))) eConfig 6,
    need (on.any (fun e => e.1 = exc && isCplQueue exc && qExc e.2)) eConfig 0xC]

/-- Step 2 (R417), rule by rule. -/
def Draft.step2 (d : Draft) (p : Nat) (layers : List LayerRec) (loaded : Bool) : Check :=
  let bs := d.buckets
  let n := max 1 (d.f p 8)
  let clips := bs.filter bClip
  let upd := updBuckets bs
  let each := fun (c : BitVec 1024 → Check) => firstOf (bs.map c)
  firstOf [each formatCheck, each (fun r => need (bElements r % bBlock r = 0) eConfig 0x200), each selectCheck,
    each (lowrankCheck layers loaded), each packCheck,
    each (fun r => need (!(bClip r && bSelect r = selLowrank)) eConfig 0x209),
    need (clips.all (fun r => clips.all (fun q => bDivisor q = bDivisor r))) eConfig 0x210,
    each (fun r => need (bElemBase r + bElements r ≤ 2 ^ 51
      && (bSelect r ≠ selLowrank || bElemBase r + bLrQWords r ≤ 2 ^ 51)) eConfig 0x211),
    need (d.f p 0x103 = 0 || !clips.isEmpty) eConfig 0x103, need (upd.isEmpty || d.f p 0x10A ≠ 0) eConfig 0x20B,
    need (upd.all (fun r => bBlock r = updBlock bs)) eConfig 0x201, need (upd.isEmpty || d.f p 0x10F ≠ 0) eConfig 0x10F,
    need (upd.isEmpty || d.f p 0x110 ≠ 0) eConfig 0x110,
    need (d.f p 0x15 = 0 || (d.f p 0x16 % 4096 = 0 && slotNeed bs n ≤ d.f p 0x16)) eConfig 0x16,
    firstOf ((List.range 8).map (fun k =>
      let v := d.f p 0x400 k
      need (!bitOf v 0 || ((bitOf v 1 || !upd.isEmpty) && imgBytes (snapElems bs n v) ≤ bitsOf v 447 384)) eConfig 0x400)),
    queueCheck d.queueRecs (d.f p 0xC)]

/-! ## Step 3: addresses (R411) -/

/-- Every address a configuration names: field id, address, bytes. Fields whose 0 means none are left out while 0. -/
def Draft.addresses (d : Draft) (p : Nat) : List (Nat × Nat × Nat) :=
  let bs := d.buckets
  let n := max 1 (d.f p 8)
  let shard := shardElems bs n
  let opt : Nat → Nat → List (Nat × Nat × Nat) := fun id len => if d.f p id = 0 then [] else [(id, d.f p id, len)]
  let maxEl := maxOf (bs.map bElements)
  let pair : Nat → List (Nat × Nat × Nat) := fun id => let v := d.f p id; if partOf v 8 8 = 0 then [] else [(id, partOf v 0 8, partOf v 8 8)]
  let eng : Nat → Nat → List (Nat × Nat × Nat) := fun a len => if isEngine a then [(0x400, engineAddr a, len)] else []
  (if partOf (d.f p 2) 0 2 = 0 then [] else [(3, d.f p 3, 80 * partOf (d.f p 2) 0 2)]) ++ opt 9 (4 * maxEl) ++ pair 0xA ++ pair 0xB
    ++ pair 0xE ++ (if d.f p 0x13 = 0 then [] else [(0x14, d.f p 0x14, 8 * d.f p 0x13)])
    ++ opt 0x15 (2 * d.f p 0x16) ++ opt 0x17 (2 * shard) ++ opt 0x10F (2 * shard) ++ opt 0x110 (8 * shard)
    ++ opt 0x111 (384 * d.f p 0x18)
    ++ bs.map (fun r => (0x212, bResBase r, bElements r * resSize (bResFmt r)))
    ++ (bs.filter (fun r => bSelect r ≠ selLowrank)).map (fun r => (0x213, bOresBase r, bElements r * resSize (bResFmt r)))
    ++ (bs.filter (fun r => bAccBase r ≠ 0)).map (fun r => (0x214, bAccBase r, 8 * bElements r))
    ++ bs.map (fun r => (0x215, bRedBase r, bElements r * (if sumWide (bWire r) then 8 else 4)))
    ++ (bs.filter (fun r => bSelect r = selLowrank)).map (fun r => (0x219, bLrQBase r, 4 * bLrQWords r))
    ++ (bs.filter (fun r => bSelect r = selLowrank)).map (fun r => (0x21A, bLrWBase r, 8 * (bLrPWords r + bLrQWords r)))
    ++ (List.range 8).flatMap (fun k =>
      let v := d.f p 0x400 k
      if !bitOf v 0 then [] else
        let e := snapElems bs n v
        (if bitOf v 1 then eng (bitsOf v 127 64) (2 * e) else []) ++ eng (bitsOf v 255 192) (2 * e)
          ++ (if bitOf v 2 then [] else eng (bitsOf v 383 320) (imgBytes e)))

/-- Step 3. -/
def Draft.step3 (d : Draft) (x : Pitch) (p : Nat) : Check :=
  firstOf ((d.addresses p).map (fun e => need (x.inRegions e.2.1 e.2.2) eRange e.1))

/-! ## Step 4: allotments (R418 to R421) -/

/-- Slots of resource r that other pitches hold by their committed plans. -/
def State.slotsTaken (s : State) (p : PitchId) (r : Nat) : Nat :=
  (allPitches.filter (fun q => q ≠ p && (s.pitch q).isBound)).foldl (fun a q => a ||| ((s.pitch q).plan.toList.getD r 0).toNat) 0

/-- The lowest `n` free slots above slot 0; none where fewer are free (R420). -/
def takeSlots (taken n : Nat) : Option W64 :=
  let free := (List.range 64).filter (fun k => k ≠ 0 && !taken.testBit k)
  if free.length < n then none else some (BitVec.ofNat 64 ((free.take n).foldl (fun a k => a + 2 ^ k) 0))

/-- The camp-plan slots a commit gives (R420): none where E_CAPACITY. -/
def State.campPlan (s : State) (p : PitchId) (shares : Nat) : Option (Vector W64 32) :=
  let ms := (List.range 32).map (fun r => takeSlots (s.slotsTaken p r) (sharesOf shares r))
  match allSome ms with
  | some vs => if sharesOf shares 0 = 0 then none else some (Vector.ofFn (fun i : Fin 32 => vs.getD i.val 0))
  | none => none

/-- The largest frame of a pitch ends within its longest run on every port on which it holds slots (01 R25). -/
def State.runsFit (s : State) (size : Nat) (plan : Vector W64 32) : Bool :=
  (List.finRange 17).all (fun n =>
    let m := plan.toList.getD (resPort n.val) 0
    m = 0 || s.wireCclk n size ≤ slotLen * longestRun m)

/-- The registers a configuration and the layer map name lie below the count (R419). -/
def Draft.ergChecks (d : Draft) (p : Nat) (layers : List LayerRec) (loaded : Bool) : Check :=
  let count := partOf (d.f p 2) 0 2
  let os := d.f p 0xE
  firstOf ([need (partOf (d.f p 0xD) 0 2 < count && partOf (d.f p 0xD) 2 2 < count) eConfig 0xD,
      need (partOf os 18 2 = 0 || partOf os 16 2 + partOf os 18 2 ≤ count) eConfig 0xE]
    ++ d.buckets.map (fun r => need (bSelect r ≠ selLowrank || bLrErgBase r + bLrErgCount r ≤ count) eConfig 0x21B)
    ++ (if loaded then layers.map (fun l => need (l.regs.2 = 0 || l.regs.1 + l.regs.2 ≤ count) eConfig 2) else []))

/-- Step 4: Erg allotment, staging layout, retained room, camp plan, in that order. -/
def Draft.step4 (d : Draft) (s : State) (p : PitchId) : Except Refuse (Vector W64 32) :=
  let x := s.pitch p
  let erg := d.f p.val 2
  let mine := (partOf erg 2 2, partOf erg 0 2)
  let others := allPitches.filter (fun q => q ≠ p && (s.pitch q).isBound)
  let lay := stagingLayout p.val x.binding d.image
  let spillNeeded := d.buckets.any (fun r => lay.area < 4 * bElements r)
  let room := imageSize p.val d.base x.pendOverlays d.raw.length d.image
    + sumOf (others.map (fun q =>
        let y := s.pitch q
        if y.committed then imageSize q.val y.base.base y.overlays y.base.buckets.length y.eff else 0))
  let clash := others.any (fun q => meet mine ((s.pitch q).ergBase q, (s.pitch q).ergCount q))
  match firstOf [need (!clash) eCapacity 2, d.ergChecks p.val x.layers x.layersLoaded,
      need (lay.cplBytes + lay.ringBytes < lay.total) eCapacity 7, need (!spillNeeded || d.f p.val 9 ≠ 0) eConfig 9,
      need (room ≤ retainedRoom) eCapacity 0] with
  | some r => .error r
  | none =>
    match s.campPlan p (d.f p.val 4) with
    | none => .error ⟨eCapacity, 4⟩
    | some plan =>
      let big : Pitch := { x with eff := d.image }
      if s.runsFit (big.frameSize p 4096) plan then .ok plan else .error ⟨eCapacity, 4⟩

/-! ## The whole check -/

/-- Where a table cannot be read: the rest of step 1 that needs none of its bytes, then step 2's refusal with the table's field id
(R417). -/
def Pitch.commitUnread (x : Pitch) (p : PitchId) (table : Nat) : Refuse :=
  let base := x.draftBase p
  let ts := overlayTlvs (sget x.pendOverlays x.pendSel [])
  let d : Draft := ⟨base, applyBase p.val base ts, [], [], [], ts⟩
  let n := partOf (d.f p.val 5) 8 4
  (firstOf [firstOf (ts.map (fun t => need ((bucketBits t.id).isNone || t.index = 0xFFFFFFFF || t.index < n) eConfig t.id)),
    d.baseChecks p.val (fun id => id = 0x400)]).getD ⟨eConfig, 5 + table⟩

/-- The checks that need no table: base values, and an empty overlay slot (R416, R417). -/
def Pitch.commitFirst (x : Pitch) (p : PitchId) : Check :=
  let d : Draft := ⟨x.draftBase p, applyBase p.val (x.draftBase p) (overlayTlvs (sget x.pendOverlays x.pendSel [])), [], [], [], []⟩
  firstOf [need (x.pendSel = 0xFF || !(sget x.pendOverlays x.pendSel []).isEmpty) eConfig (0x10000000 + x.pendSel),
    d.baseChecks p.val (fun id => id < 0x200)]

/-- The checks of steps 1 to 4 in order on a draft: the plan, or the refusal. Step 5 is the reader's (18 R404). -/
def Draft.check (d : Draft) (s : State) (p : PitchId) : Except Refuse (Vector W64 32) :=
  let x := s.pitch p
  match firstOf [d.step1 p.val, d.step2 p.val x.layers x.layersLoaded, d.step3 x p.val] with
  | some r => .error r
  | none => match d.step4 s p with
    | .error r => .error r
    | .ok plan => .ok plan

/-! ## Effects -/

/-- The guard fields of a configuration. -/
def guardFields (p : Nat) (img : CfgImage) : List Nat := (List.range 18).map (fun k => settingOf p img.base (0x100 + k) 0)

/-- The guard state record at LS_INIT with every other field 0 (14 R313). -/
def Guard.initial (g : Guard) (ls : Int) : Guard := { g with lsExp := ls, clean := 0, normEma := 0, normCount := 0, lossEma := 0, lossCount := 0 }

/-- Queues that a commit enables, moves, resizes or disables. -/
def changedQueues (old new : Sparse W64) : List Nat :=
  let key := fun (m : Sparse W64) (q : Nat) => let r := sget m q 0; if qDepthLog r = 0 then (0, 0) else (qDepthLog r, qRingOff r)
  ((old.map Prod.fst) ++ (new.map Prod.fst)).eraseDups.filter (fun q => key old q ≠ key new q)

/-- Zero the rings of changed completion-set queues; every changed queue starts at 0 (17 R366). -/
def State.resetQueues (s : State) (p : PitchId) (qs : List Nat) : State :=
  let x := s.pitch p
  let y := { x with queues := { x.queues with
    ptrs := x.queues.ptrs.filter (fun e => e.1 ∉ qs)
    held := x.queues.held.filter (fun h => h.1 ∉ qs) } }
  (s.setPitch p y).eraseAll (qs.filterMap (fun q => if isCplQueue q then (y.ring q).map (fun r => (queueBase p.val + r.1, r.2.1 * r.2.2)) else none))

/-- LOWRANK buckets whose ELEMENTS, n, LR_RANK, LR_Q_BASE and SELECT a commit leaves as they were (08 R178). -/
def sameLowrank (old new : BitVec 1024) : Bool :=
  bElements old = bElements new && bLrN old = bLrN new && bLrRank old = bLrRank new && bLrQBase old = bLrQBase new
    && bSelect old = bSelect new

/-- Make a draft effective (R416 to R421, 16 R336, 05 R126 and 19 R419, 08 R178, 14 R313, 15 R326). -/
def State.commitEffect (s : State) (p : PitchId) (d : Draft) (plan : Vector W64 32) : State :=
  let x := s.pitch p
  let img := d.image
  let oldErg := settingOf p.val x.eff.base 2 0
  let ls := signedOf 1 (settingOf p.val img.base 0x100 0)
  let y := { x with
    mode := if x.mode = .bound then .configured else x.mode
    committed := true
    base := { base := d.base, buckets := d.raw, queues := img.queues }
    overlays := x.pendOverlays
    sel := x.pendSel
    eff := img
    plan := plan
    fwNum := s.fw.fwNum
    ergSaved := x.ergSaved && oldErg = settingOf p.val img.base 2 0
    guard := if guardFields p.val x.eff = guardFields p.val img then x.guard else x.guard.initial ls
    qValid := x.qValid.filter (fun b => match x.eff.buckets[b]?, img.buckets[b]? with
      | some o, some n => sameLowrank o n
      | _, _ => false)
    time := { x.time with boundary := false } }
  (((((s.setPitch p y).resetQueues p (changedQueues x.eff.queues img.queues)).settleCells).resign p).retime).retainGuard p

/-- CAMP_PLAN_EFFECT (01 R27): every committed plan is in effect from the next plan-period boundary on, once the cells that the
plans use are awake (22 R472). -/
def State.planEffect (s : State) : State :=
  if !s.plansAwake then s
  else
    let s := s.advanceTo s.planBoundary
    s.forPitches (fun p s => s.modPitch p (fun x => { x with planEff := x.plan }))

/-- CAMP_PLAN_EFFECT (01 R27). -/
def execCampPlanEffect (s : State) : Result := live s (fun s => s.planEffect)

/-! ## peg.load (03 R61) -/

/-- Read peg entries and budget entries. -/
def pegOf (bs : Bytes) : Peg := ⟨BitVec.ofNat 32 (leAt bs 0 4), bs.getD 4 0, BitVec.ofNat 32 (leAt bs 8 4)⟩
def budgetOf (bs : Bytes) : List Nat := (chunks 4 bs).map leNat

/-- Actions whose ARG0 is given. -/
def argUsed (a : Byte) : Bool := a = actStart || a = actOpen || a = actBarrier || a = actExport

/-- Reserved bits and encodings of a peg entry: the first offending byte. -/
def pegReserved (bs : Bytes) : Option Nat :=
  let a := bs.getD 4 0
  let bad := fun (k : Nat) =>
    if k = 4 then a = 0 || 8 ≤ a.toNat
    else if 5 ≤ k && k < 8 then bs.getD k 0 ≠ 0
    else if k = 8 then (a = actBarrier && 2 ≤ (bs.getD 8 0).toNat) || (!argUsed a && bs.getD 8 0 ≠ 0)
    else if 9 ≤ k && k < 12 then (a = actBarrier || !argUsed a) && bs.getD k 0 ≠ 0
    else 12 ≤ k && bs.getD k 0 ≠ 0
  (List.range 16).find? bad

/-- The lowest detail code a peg entry breaks. -/
def pegDetail (x : Pitch) (p : PitchId) (gs : List Peg) (budgets k : Nat) (g : Peg) : Option Nat :=
  let last := k + 1 = gs.length
  let prev := gs.take k
  let rules : List (Nat × Bool) :=
    [(2, match prev.getLast? with | some h => g.position.toNat < h.position.toNat | none => false),
     (3, decide (g.action = actEnd) != last),
     (4, (g.action = actCheckpoint || g.action = actExport) && (match gs.getLast? with | some h => g.position ≠ h.position | none => false)),
     (5, g.action = actStart && x.eff.buckets.length ≤ g.arg0.toNat),
     (6, g.action = actStart && prev.any (fun h => h.action = actStart && h.arg0 = g.arg0)),
     (7, g.action = actOpen && budgets ≤ g.arg0.toNat),
     (8, g.action = actExport && (8 ≤ g.arg0.toNat || !bitOf (x.cfg p 0x400 g.arg0.toNat) 0)),
     (9, g.action = actCheckpoint && x.cfg p 0x15 = 0)]
  (rules.find? (fun r => r.2)).map Prod.fst

/-- Rules 0x02 to 0x09 over a table. -/
def pegRules (x : Pitch) (p : PitchId) (gs : List Peg) (budgets : Nat) : Check :=
  firstOf (gs.zipIdx.map (fun e => match pegDetail x p gs budgets e.2 e.1 with
    | some c => some ⟨ePegTable, c + 65536 * e.2⟩
    | none => none))

/-- The checks of peg.load on a payload whose length is right. -/
def pegCheck (x : Pitch) (p : PitchId) (count budgets : Nat) (pay : Bytes) : Check :=
  let raws := chunks 16 (pay.take (16 * count))
  firstOf [need (1 ≤ count && count ≤ 4096 && budgets ≤ 1024) ePegTable 1,
    firstOf (raws.zipIdx.map (fun e => match pegReserved e.1 with | some k => some ⟨eReserved, 16 * e.2 + k⟩ | none => none)),
    pegRules x p (raws.map pegOf) budgets]

/-! ## layermap.load (14 R309) -/

/-- Read a layer record. -/
def layerOf (bs : Bytes) : LayerRec :=
  let w := leAt bs 20 4
  ⟨leAt bs 0 8, leAt bs 8 8, leAt bs 16 4, w % 2 ^ 14, BitVec.ofNat 4 (w / 2 ^ 14)⟩
/-- Reserved bits of a layer record: the first offending byte. -/
def layerReserved (bs : Bytes) : Option Nat :=
  let bad := leNat bs / 2 ^ 178
  if bad = 0 then none else some (lowByte (bad * 2 ^ 178))

/-- The lowest cause a layer record breaks. -/
def layerCause (x : Pitch) (p : PitchId) (prev : Option LayerRec) (l : LayerRec) : Option Nat :=
  let count := x.ergCount p
  let regs := l.regs
  let taken := [(x.normLocal p, 1), (x.normGlobal p, 1)] ++
    (x.eff.buckets.filter (fun r => bSelect r = selLowrank)).map (fun r => (bLrErgBase r, bLrErgCount r))
  let rules : List (Nat × Bool) :=
    [(1, match prev with | some q => l.first ≤ q.first | none => false),
     (2, match prev with | some q => l.first < q.first + q.count | none => false),
     (3, l.count = 0), (4, l.rowLen = 0 || 2 ^ 26 < l.rowLen),
     (5, regs.2 ≠ 0 && (count < regs.1 + regs.2 || taken.any (meet regs)))]
  (rules.find? (fun r => r.2)).map Prod.fst

/-- Every element of [a, a + n) lies in some layer; the records ascend. -/
def inLayers (ls : List LayerRec) (a n : Nat) : Bool := covered (ls.map (fun l => (l.first, l.count))) a n

/-- Causes 0x01 to 0x06 over a map. -/
def layerRules (x : Pitch) (p : PitchId) (ls : List LayerRec) : Check :=
  firstOf (ls.zipIdx.map (fun e => match layerCause x p (if e.2 = 0 then none else ls[e.2 - 1]?) e.1 with
      | some c => some ⟨eConfig, c * 2 ^ 24 + e.2⟩
      | none => none) ++
    x.eff.buckets.zipIdx.map (fun e => need (inLayers ls (bElemBase e.1) (bElements e.1)) eConfig (6 * 2 ^ 24 + e.2)))

/-- The checks of layermap.load on a payload whose length is right. -/
def layerCheck (x : Pitch) (p : PitchId) (count : Nat) (pay : Bytes) : Check :=
  let raws := chunks 32 pay
  firstOf [need (1 ≤ count && count ≤ x.cfg p 0x18) eConfig 0x18,
    firstOf (raws.zipIdx.map (fun e => match layerReserved e.1 with | some k => some ⟨eReserved, 32 * e.2 + k⟩ | none => none)),
    layerRules x p (raws.map layerOf)]

end Sys2Proof.Machine
end

