-- ==== Sys2Proof/Machine/Mailbox.lean ====
section
/-! DEFINITION. Running mailbox commands (18 R378 to R385): one shared reader that fetches the entry at the head of a pitch's
command ring, applies the checks of R383 in order, and writes the response; and the commands of a pitch's life and
configuration (18 R388 to R393, R397; 19 R405, R410). -/

namespace Sys2Proof.Machine

/-! ## Entries (R378) -/

/-- A command entry. -/
structure Cmd where
  entry : Bytes
  deriving DecidableEq, Repr

def Cmd.op (c : Cmd) : Nat := leAt c.entry 0 2
def Cmd.tag (c : Cmd) : W16 := BitVec.ofNat 16 (leAt c.entry 2 2)
def Cmd.seq (c : Cmd) : W32 := BitVec.ofNat 32 (leAt c.entry 4 4)
def Cmd.payLen (c : Cmd) : Nat := leAt c.entry 8 4
def Cmd.payAddr (c : Cmd) : Nat := leAt c.entry 16 8
def Cmd.respAddr (c : Cmd) : Nat := leAt c.entry 24 8
/-- n bytes of ARGS from entry byte `off`. -/
def Cmd.arg (c : Cmd) (off n : Nat) : Nat := leAt c.entry off n

/-- Opcodes of ZIA-1 (R390). -/
def knownOpcodes : List Nat :=
  [0x01, 0x02, 0x10, 0x11, 0x12, 0x13, 0x14, 0x20, 0x21, 0x22, 0x23, 0x30, 0x31, 0x40, 0x41, 0x42, 0x50, 0x51, 0x58, 0x60, 0x70,
   0x71, 0x80, 0x81, 0x90]

/-- The entry at the head of the command ring; none where the ring is empty. -/
def State.headCommand (s : State) (p : PitchId) : Option Cmd :=
  let x := s.pitch p
  if (x.qptr 0).used = 0 then none
  else (x.entryAddr p 0 (x.qptr 0).head).map (fun a => ⟨s.read a 64⟩)

/-- The port whose DB_CTRL write moved the tail past the entry at the head (R379). -/
def Pitch.cmdPort (x : Pitch) : HostPort :=
  let h := (x.qptr 0).head
  match x.mail.cmdPorts.find? (fun e => 0 < (e.1 - h).toNat && (e.1 - h).toNat ≤ 256) with
  | some e => e.2
  | none => x.ports.headD 0

/-- The scheduler core that reads the pitch's command ring (21 R441, R457). -/
def State.reader (s : State) (p : PitchId) : SchCore :=
  if p.val < 6 then (if s.fw.takenWest then .b else .a) else (if s.fw.takenEast then .a else .b)

/-- Firmware may read the pitch's next command (R382, R401; 02 R54). A drain that is pending does not hold back later
commands, since R392 lets a pitch.stop run meanwhile; once the pitch is STOPPING it does. -/
def State.mayRead (s : State) (p : PitchId) : Bool :=
  let x := s.pitch p
  s.glob.engineReady && x.mail.waiting.isEmpty && x.mail.owed.all (fun o => o.why = .drain && x.time.drainPending) && !s.fw.lease.frozen
    && s.coreRuns (.sch (s.reader p))

/-! ## Taking an entry off the ring -/

/-- FLAGS bit HANDOVER for the entry at the head (R380, R401). -/
def Pitch.handoverFlag (x : Pitch) : Nat :=
  match x.mail.handover with
  | some t => let d := (t - (x.qptr 0).head).toNat; if 0 < d && d ≤ 256 then 4 else 0
  | none => 0

/-- The head passes the entry; what was fetched for it is dropped. -/
def Pitch.popCommand (x : Pitch) : Pitch :=
  let v := x.qptr 0
  let h := v.head + 1
  let y := x.setQptr 0 { v with head := h }
  { y with mail := { y.mail with
      cmdPorts := y.mail.cmdPorts.filter (fun e => 0 < (e.1 - h).toNat && (e.1 - h).toNat ≤ 256)
      fetched := []
      fetchAsked := false
      fetchFailed := none
      term := none
      handover := if y.mail.handover = some h then none else y.mail.handover } }

/-! ## Host bytes of a command (R379) -/

/-- What fetching a command's host bytes comes to. -/
inductive Fetch
  | ready (parts : List Bytes)
  | wait (s : State)
  /-- the host refused the piece at this address -/
  | failed (addr : Nat)

/-- n bytes from host address a have arrived. -/
def Pitch.arrived (x : Pitch) (a n : Nat) : Bool := (List.range n).all (fun i => (sfind x.mail.fetched (a + i)).isSome)

/-- The bytes of ranges of host or engine memory for the command at the head of pitch p. -/
def State.fetchFor (s : State) (p : PitchId) (ranges : List (Nat × Nat)) : Fetch :=
  let x := s.pitch p
  let host := ranges.filter (fun r => !isEngine r.1)
  if host.isEmpty then .ready (ranges.map (fun r => s.read (engineAddr r.1) r.2))
  else match x.mail.fetchFailed with
  | some a => .failed a.toNat
  | none =>
  if host.all (fun r => x.arrived r.1 r.2) then
    .ready (ranges.map (fun r =>
      if isEngine r.1 then s.read (engineAddr r.1) r.2
      else (List.range r.2).map (fun i => sget x.mail.fetched (r.1 + i) 0)))
  else if x.mail.fetchAsked then .wait s
  else
    let s := host.foldl (fun s r => s.askHost x.cmdPort (BitVec.ofNat 64 r.1) r.2 (.command p)) s
    .wait (s.modPitch p (fun x => { x with mail := { x.mail with fetchAsked := true, term := some s.fw.lease.term } }))

/-- Write a command's bulk results (R379). -/
def State.bulkResult (s : State) (h : HostPort) (addr : Nat) (d : Bytes) : State :=
  if addr = 0 then s
  else if isEngine addr then s.write (engineAddr addr) d
  else s.hostStore h (BitVec.ofNat 64 addr) d

/-! ## The reader (R382 to R385) -/

/-- What the shared reader needs to know of a command (R390). -/
structure CmdSpec where
  op     : Nat
  admin  : Cmd → Bool := fun _ => false
  /-- ARGS bytes used: entry offset and length -/
  used   : List (Nat × Nat) := []
  /-- the first byte of a reserved bit or encoding within the used ARGS -/
  badArg : Cmd → Option Nat := fun _ => none
  payOk  : Cmd → Bool := fun c => c.payLen = 0
  /-- bytes of the bulk result; none: the command writes none -/
  resp   : Cmd → Option Nat := fun _ => none
  /-- the states in which it is legal -/
  legal  : State → PitchId → Cmd → Check := fun _ _ _ => none
  /-- it writes schedule registers, under the lease (R404) -/
  schedule : Bool := false
  /-- it needs cells that D-RETAIN holds in DROWSE (22 R476) -/
  wakes  : State → PitchId → Cmd → Bool := fun _ _ _ => false

/-- How a command that passed the common checks ends. -/
inductive Act
  /-- the state, STATUS with DETAIL, RESULT, FLAGS, and what follows the response (R400) -/
  | done (s : State) (r : Refuse) (result : Bytes) (flags : Nat) (later : State → State)
  /-- the response waits for an event -/
  | owe (s : State) (why : CmdWait)
  /-- the command waits for host bytes and has changed nothing else -/
  | wait (s : State)

/-- Done, with STATUS OK. -/
def Act.ok (s : State) (result : Bytes := []) : Act := .done s ⟨stOk, 0⟩ result 0 id
/-- Refused. -/
def Act.no (s : State) (r : Refuse) : Act := .done s r [] 0 id

/-- Reserved opcode, fields and encodings of an entry: the first offending byte (R383, R379). -/
def CmdSpec.reserved (k : CmdSpec) (c : Cmd) : Check :=
  let bad := (List.range 64).find? (fun i =>
    (12 ≤ i && i < 16 && c.entry.getD i 0 ≠ 0)
      || (i = 16 && c.payLen = 0 && c.payAddr ≠ 0)
      || (i = 24 && (k.resp c).isNone && c.respAddr ≠ 0)
      || (32 ≤ i && c.entry.getD i 0 ≠ 0 && !(k.used.any (fun u => u.1 ≤ i && i < u.1 + u.2)))
      || (k.badArg c = some i))
  bad.map (fun i => ⟨eReserved, i⟩)

/-- A command is legal at all: RMA entry holds every command but three (22 R464). -/
def State.rmaGate (s : State) (op : Nat) : Check := need (!s.sec.rmaLocked || op ∈ [0x02, 0x70, 0x71]) eState 0

/-- The command carries what it asked of the data plane or of the schedule: it ends OK, or its response is owed. -/
def Act.takes : Act → Bool
  | .done _ r _ _ _ => r.status = stOk
  | .owe _ _ => true
  | .wait _ => false

/-- The lease arbiter accepts the schedule write of the command at the head: there is a HOLDER, and TERM has not passed while the command
waited for its bytes (R404; 21 R456, R457). -/
def State.termHolds (s : State) (p : PitchId) : Bool :=
  s.leased && (match (s.pitch p).mail.term with | some t => t = s.fw.lease.term | none => true)

/-- NEXT_SEQ after it has counted one command: it passes over commands that have completed behind a pending pitch.drain and are in the
cache (R385). -/
def nextSeqGo (cache : List Cached) : Nat → W32 → W32
  | 0, n => n
  | f + 1, n => if cache.any (fun e => e.seq = n) then nextSeqGo cache f (n + 1) else n

/-- NEXT_SEQ has counted the command that was read (R384). -/
def Mailbox.countSeq (m : Mailbox) : Mailbox := { m with nextSeq := nextSeqGo m.cache 64 (m.nextSeq + 1) }

/-- The response to a command that ends now; NEXT_SEQ has counted it, and the retained store takes both (R384, R385). -/
def State.finish (s : State) (p : PitchId) (c : Cmd) (r : Refuse) (result : Bytes) (flags : Nat) : State :=
  let s := s.modPitch p (fun x => { x with mail := x.mail.countSeq })
  (s.respond p (BitVec.ofNat 16 c.op) flags c.seq c.tag r result).retain p

/-- A cached response again, with DUPLICATE (R384). -/
def dupEntry (e : Bytes) (flags : Nat) : Bytes :=
  e.take 2 ++ [BitVec.ofNat 8 ((e.getD 2 0).toNat ||| 1 ||| flags)] ++ e.drop 3

/-- The SEQ check (R384): a state where it answers, none where the command runs. A second copy of a command whose response is owed waits
for that response (R403). -/
def State.seqCheck (s : State) (p : PitchId) (c : Cmd) (flags : Nat) : Option State :=
  let x := s.pitch p
  let d := (x.mail.nextSeq - c.seq).toNat
  if d = 0 then none
  else if x.mail.owed.any (fun o => o.seq = c.seq && o.opcode.toNat = c.op) then some s
  else
    let hit := if d ≤ 64 then x.mail.cache.find? (fun e => e.seq = c.seq && e.opcode.toNat = c.op) else none
    let s := s.setPitch p x.popCommand
    match hit with
    | some e => some (s.postResponse p (dupEntry e.entry flags))
    | none => some (s.postResponse p
        (responseBytes (s.pitch p) (BitVec.ofNat 16 c.op) flags c.seq c.tag ⟨eSeq, x.mail.nextSeq.toNat⟩ []))

/-- Run a command that passed every common check. -/
def State.settle (_ : State) (p : PitchId) (c : Cmd) (flags : Nat) : Act → State
  | .wait s' => s'
  | .done s' r result f later => later (s'.finish p c r result (f + flags))
  | .owe s' why =>
    s'.modPitch p (fun x =>
      let m := x.mail.countSeq
      { x with mail := { m with owed := m.owed ++ [⟨why, BitVec.ofNat 16 c.op, c.tag, c.seq, flags⟩] } })

/-- The checks of R383 after the SEQ check, up to the fetch of the payload. -/
def State.commandCheck (s : State) (p : PitchId) (k : CmdSpec) (c : Cmd) : Check :=
  let x := s.pitch p
  firstOf [k.reserved c, need (!k.admin c || x.mail.admin) eDenied 0, s.rmaGate c.op, k.legal s p c,
    need (k.payOk c && (c.payLen = 0 || !isEngine c.payAddr || x.commandRange p c.payAddr c.payLen)) eRange 1]

/-- The result address of a command (R379). -/
def State.respCheck (s : State) (p : PitchId) (k : CmdSpec) (c : Cmd) : Check :=
  match k.resp c with
  | some n => need (c.respAddr = 0 || !isEngine c.respAddr || (s.pitch p).commandRange p c.respAddr n) eRange 2
  | none => none

/-- Run the command at the head of the ring of pitch p if it is the one `k` describes. A wake is not begun once PWR_WARN_N has
fallen (22 R478). -/
def State.command (s : State) (p : PitchId) (k : CmdSpec) (body : Cmd → HostPort → Bytes → State → Act) : State :=
  match s.headCommand p with
  | none => s
  | some c =>
    if c.op ≠ k.op || !s.mayRead p then s
    else
      let x := s.pitch p
      let flags := x.handoverFlag
      match s.seqCheck p c flags with
      | some s' => s'
      | none =>
        let port := x.cmdPort
        let popped := s.setPitch p x.popCommand
        match s.commandCheck p k c with
        | some r => popped.finish p c r [] flags
        | none =>
          match s.fetchFor p (if c.payLen = 0 then [] else [(c.payAddr, c.payLen)]) with
          | .wait s' => s'
          | .failed _ => popped.finish p c ⟨eRange, 1⟩ [] flags
          | .ready parts =>
            match s.respCheck p k c with
            | some r => popped.finish p c r [] flags
            | none =>
              if k.wakes s p c && s.power.device = 2 && s.power.warned then s
              else
                let s1 := if k.wakes s p c then s.wake else s
                let act := body c port (parts.headD []) (s1.setPitch p (s1.pitch p).popCommand)
                if k.schedule && act.takes && !s.termHolds p then popped.finish p c ⟨eNotLeader, 0⟩ [] flags
                else s1.settle p c flags act

/-- Legal only in some states. -/
def inStates (ms : List PitchMode) : State → PitchId → Cmd → Check := fun s p _ => need ((s.pitch p).mode ∈ ms) eState 0

/-- RESERVED_COMMAND (R383): after the SEQ check, E_RESERVED at byte 0. -/
def State.reservedCommandOp (s : State) (p : PitchId) : State :=
  match s.headCommand p with
  | none => s
  | some c =>
    if c.op ∈ knownOpcodes || !s.mayRead p then s
    else
      let flags := (s.pitch p).handoverFlag
      match s.seqCheck p c flags with
      | some s' => s'
      | none => (s.setPitch p (s.pitch p).popCommand).finish p c ⟨eReserved, 0⟩ [] flags

/-- RESERVED_COMMAND (R383). -/
def execReservedCommand (p : PitchId) (s : State) : Result := live s (fun s => s.reservedCommandOp p)

/-! ## sys.hello and sys.caps (R388, R397) -/

/-- The agreement a sys.hello reaches: version and features; none where no version is common. -/
def State.hello (s : State) (c : Cmd) : Option (Nat × Nat) :=
  let v := min (c.arg 34 2) s.fw.zia.toNat
  if c.arg 32 2 ≤ v && 1 ≤ v then some (v, 0) else none

/-- A changed agreement is refused in RUNNING, STOPPING, FENCED and FAULTED (R388). -/
def helloLegal (s : State) (p : PitchId) (c : Cmd) : Check :=
  let x := s.pitch p
  match s.hello c with
  | some (v, f) => need (x.mode ∉ [.running, .stopping, .fenced, .faulted]
      || (x.mail.zia.toNat = v && x.mail.features.toNat = f)) eState 0
  | none => none

def helloSpec : CmdSpec := { op := 0x01, used := [(32, 4), (40, 8)], legal := helloLegal }

def helloBody (p : PitchId) (c : Cmd) (_ : HostPort) (_ : Bytes) (s : State) : Act :=
  match s.hello c with
  | none => .no s ⟨eVersion, 0⟩
  | some (v, f) =>
    .ok (s.modPitch p (fun x => { x with mail := { x.mail with zia := BitVec.ofNat 16 v, features := BitVec.ofNat 64 f } }))
      (leBytes 2 v ++ leBytes 2 s.fw.zia.toNat ++ leBytes 4 0 ++ leBytes 8 f)

/-- SYS_HELLO (R388). -/
def execSysHello (p : PitchId) (s : State) : Result := live s (fun s => s.command p helloSpec (helloBody p))

/-- The capability record (R397). -/
def State.capsRecord (s : State) (p : PitchId) (nonce : W128) : Bytes :=
  let x := s.pitch p
  let bound := allPitches.filter (fun q => (s.pitch q).isBound)
  let free := fun (r : Nat) =>
    63 - popcount 64 (bound.foldl (fun a q => a ||| ((s.pitch q).plan.toList.getD r 0).toNat) 0)
  leBytes 4 s.engineId ++ leBytes 4 s.engineCaps ++ leBytes 4 arithId ++ leBytes 2 s.fw.zia.toNat ++ leBytes 2 s.fw.fwNum.toNat
    ++ leBytes 4 s.fw.imageVersion.toNat ++ leBytes 4 (s.statusWord 0 0x24) ++ leBytes 4 (s.statusWord 0 0x1C)
    ++ leBytes 4 (s.statusWord 0 0x20) ++ leBytes 2 (16384 - sumOf (bound.map (fun q => (s.pitch q).ergCount q))) ++ leBytes 2 0
    ++ (List.range 32).flatMap (fun r => leBytes 1 (free r)) ++ leBytes 1 s.secCode ++ leBytes 1 s.sec.level
    ++ leBytes 1 s.power.device ++ leBytes 1 (bit x.mail.admin) ++ leBytes 2 (sumOf (bound.map (fun q => 2 ^ q.val)))
    ++ leBytes 6 0 ++ leBytes 16 nonce.toNat ++ leBytes 16 x.rsig.toNat ++ leBytes 16 x.tsig.toNat ++ List.replicate 128 0

def capsSpec : CmdSpec := { op := 0x02, resp := fun _ => some 256 }

def capsBody (p : PitchId) (c : Cmd) (h : HostPort) (_ : Bytes) (s : State) : Act :=
  let (n, s) := s.draw
  let nonce := Config.freeNonce n
  let s := { s with sec := { s.sec with nonce := some nonce, nonceAge := 0 } }
  .ok (s.bulkResult h c.respAddr (s.capsRecord p nonce)) (leBytes 4 s.engineId ++ leBytes 4 s.engineCaps)

/-- SYS_CAPS (R397). -/
def execSysCaps (p : PitchId) (s : State) : Result := live s (fun s => s.command p capsSpec (capsBody p))

/-! ## pitch.bind and pitch.release (19 R410; 18 R387, R390) -/

/-- Regions of a binding record. -/
def bindRegions (bs : Bytes) : List (Nat × Nat) :=
  (List.range (min 8 (leAt bs 8 1))).map (fun k => (leAt bs (16 + 16 * k) 8, leAt bs (24 + 16 * k) 8))

/-- The checks of R410 in order. -/
def State.bindCheck (s : State) (p : PitchId) (bs : Bytes) : Check :=
  let n := leAt bs 8 1
  let rs := bindRegions bs
  let reserved := (List.range 144).find? (fun i => bs.getD i 0 ≠ 0
    && ((1 ≤ i && i ≤ 3) || (9 ≤ i && i ≤ 15) || (n ≤ 8 && 16 + 16 * n ≤ i)))
  let mine := (leAt bs 6 2, leAt bs 4 2)
  let others := allPitches.filter (fun q => q ≠ p && (s.pitch q).isBound)
  let apart := rs.zipIdx.all (fun e => rs.zipIdx.all (fun f => e.2 = f.2 || !meet e.1 f.1))
    && others.all (fun q => (s.pitch q).binding.regions.all (fun r => rs.all (fun t => !meet r t)))
  firstOf [reserved.map (fun i => ⟨eReserved, i⟩), need (bs.getD 0 0 ≠ 0) eConfig 0, need (1 ≤ n && n ≤ 8) eConfig 0,
    need (1 ≤ mine.2) eConfig 0,
    need (rs.all (fun r => r.1 % (2 * mib) = 0 && r.2 % (2 * mib) = 0 && r.2 ≠ 0 && hbmBase ≤ r.1 && r.1 + r.2 ≤ hbmPitchEnd)) eConfig 0,
    need (mine.1 + mine.2 ≤ s.glob.stagingMib) eCapacity 0,
    need (others.all (fun q => let b := (s.pitch q).binding; !meet mine (b.stagingOff, b.stagingMib))) eCapacity 0,
    need apart eCapacity 0]

/-- Zero the response ring and every enabled completion-set ring; every pointer returns to 0 (17 R366). -/
def State.firstPass (s : State) (p : PitchId) : State :=
  let x := s.pitch p
  let q := queueBase p.val
  let rings := x.eff.queues.filterMap (fun e => if isCplQueue e.1 then (x.ring e.1).map (fun r => (q + r.1, r.2.1 * r.2.2)) else none)
  (s.setPitch p { x with
    queues := {}
    mail := { x.mail with waiting := [], cmdPorts := [], fetched := [], fetchAsked := false, fetchFailed := none, term := none, handover := none } }).eraseAll
    ((q + 0x4000, 1024 * 32) :: rings)

def bindSpec : CmdSpec := { op := 0x10, schedule := true, payOk := fun c => c.payLen = 144, legal := inStates [.unbound] }

def bindBody (p : PitchId) (_ : Cmd) (_ : HostPort) (bs : Bytes) (s : State) : Act :=
  match s.bindCheck p bs with
  | some r => .no s r
  | none =>
    let x := s.pitch p
    let ports : BitVec 8 := bs.getD 0 0
    let y : Pitch := { x with
      mode := .bound
      binding := ⟨ports, leAt bs 4 2, leAt bs 6 2, bindRegions bs⟩
      counters := []
      guard := x.guard.initial 16
      time := { x.time with boundary := false }
      qValid := []
      mail := { x.mail with noticeCount := 0, noticeDrops := 0, admin := ports &&& ~~~s.prov.adminPorts = 0 } }
    .ok ((s.setPitch p y).firstPass p)

/-- PITCH_BIND (19 R410). It waits while the TAP holds the pins (22 R465). -/
def execPitchBind (p : PitchId) (s : State) : Result := live s (fun s => if s.tap.pins then s else s.command p bindSpec (bindBody p))

def releaseSpec : CmdSpec := { op := 0x11, schedule := true, legal := inStates [.bound, .configured, .stopped, .fenced, .faulted] }

/-- What a released pitch keeps: its control rings, counters, the port map and DROP_CAUSE, which only a reset clears (03 R58); the other
time registers return to 0 (notes/assumptions 102). The sequence state goes after the response. -/
def Pitch.released (x : Pitch) : Pitch :=
  { counters := x.counters
    mail := { x.mail with zia := 1, features := 0, admin := false, lost := false, owed := [] }
    queues := { ptrs := x.queues.ptrs.filter (fun e => e.1 ≤ 1) }
    time := { dropCause := x.time.dropCause }
    tx := { portMap := x.tx.portMap } }

/-- pitch.release: its Erg registers are cleared before they are allotted again (05 R109), and its staging session ends (R398). -/
def releaseBody (p : PitchId) (_ : Cmd) (_ : HostPort) (_ : Bytes) (s : State) : Act :=
  let x := s.pitch p
  let owns : Bool := match s.fw.staging with | some g => decide (g.owner = p) | none => false
  let s := (s.ergClear (x.ergBase p) (x.ergCount p)).modPitch p Pitch.released
  let s := s.setRetained (s.retained.set p none)
  let s := { s with
    dma := s.dma.filter (fun r => !r.use.isOf p)
    fw := if owns then { s.fw with staging := none, aborted := addNew p s.fw.aborted } else s.fw }
  .done s.settleCells.retime ⟨stOk, 0⟩ [] 0 (fun s => s.modPitch p (fun x => { x with mail := { x.mail with nextSeq := 0, cache := [] } }))

/-- PITCH_RELEASE (18 R390). -/
def execPitchRelease (p : PitchId) (s : State) : Result := live s (fun s => s.command p releaseSpec (releaseBody p))

/-! ## pitch.start, RUNNING, pitch.stop, pitch.drain (18 R391, R392; 19 R405; 05 R126; 10 R249) -/

/-- Legal states and causes of pitch.start (R391). -/
def startLegal (s : State) (p : PitchId) (_ : Cmd) : Check :=
  let x := s.pitch p
  firstOf [need (x.mode = .configured || x.mode = .stopped) eState 0,
    need (x.member.record.role = 0 || x.keys.current.isSome) eState 1, need x.pegsLoaded eState 2, need x.layersLoaded eState 3,
    need ((layerRules x p x.layers).isNone && (pegRules x p x.pegs x.budgets.length).isNone) eState 4]

def startSpec : CmdSpec := { op := 0x12, schedule := true, legal := startLegal, wakes := fun _ _ _ => true }

def startBody (p : PitchId) (_ : Cmd) (_ : HostPort) (_ : Bytes) (s : State) : Act :=
  .owe (s.modPitch p (fun x => { x with startPending := true })) .start

/-- PITCH_START (R391). -/
def execPitchStart (p : PitchId) (s : State) : Result := live s (fun s => s.command p startSpec (startBody p))

/-- Reduction regions of a pitch's buckets (06 R148). -/
def Pitch.redRegions (x : Pitch) : List (Nat × Nat) :=
  x.eff.buckets.map (fun r => (bRedBase r, bElements r * (if sumWide (bWire r) then 8 else 4)))

/-- Clear the collective state: records, reduction regions, norms, exchanges (10 R249; 06 R148). -/
def State.clearCollective (s : State) (p : PitchId) : State :=
  let s := s.abortDescriptors p
  let x := s.pitch p
  let l := x.layout p
  let s := ((s.eraseAll x.redRegions).erase l.start l.cplBytes).ergClear (x.erg p (x.normLocal p)) 1
  (s.ergClear (x.erg p (x.normGlobal p)) 1).modPitch p (fun x =>
    { x with agrees := [], assemblies := [], ingests := [], runs := [], gbars := [], lock := {}, guard := { x.guard with normArrivals := 0 } })

/-- Write every allotted register back from the save area, or zero them (05 R126). -/
def State.ergRestore (s : State) (p : PitchId) : State :=
  let x := s.pitch p
  let n := x.ergCount p
  let s := s.ergClear (x.ergBase p) n
  if x.ergSaved then
    (List.range n).foldl (fun s k => s.ergSet (x.erg p k) (BitVec.ofNat 640 (s.readLe (x.cfg p 3 + 80 * k) 80))) s
  else s

/-- A started pitch enters RUNNING at the plan-period boundary (19 R405): committed plans take effect with it (01 R27), its
registers are restored, its collective state is cleared, NORM_LOCAL and NORM_GLOBAL after the restore (10 R249), and its channels keep
their state (19 R407). STEP_STATE is DRAINING while a rank is vacant (20 R431). A FENCE received in that CCLK fences it instead (19 R409). -/
def State.pitchRunningOp (s : State) (p : PitchId) : State :=
  if !(s.pitch p).startPending || !s.plansAwake then s
  else
    let s := s.planEffect
    let s := (s.ergRestore p).clearCollective p
    let s := s.modPitch p (fun x => { x with
      mode := .running
      startPending := false
      startedAt := some s.cclk
      time := { x.time with
        stillEpochs := 0, stallSent := false
        state := if x.member.record.vacant.isEmpty then x.time.state else .draining }
      lock := {}
      tx := { x.tx with channels := x.tx.channels.map (fun e => (e.1, e.2.start s.cclk)) } })
    let s := (s.answerOwed p .start ⟨stOk, 0⟩ []).retain p
    match (s.pitch p).member.fenceAt with
    | some (t, e) => if t = s.cclk then s.fencePitch p e else s
    | none => s

/-- PITCH_RUNNING (19 R405). -/
def execPitchRunning (p : PitchId) (s : State) : Result := live s (fun s => s.pitchRunningOp p)

/-- STOPPING at once: the running step is cut off (R392, 06 R148), and a STEP_SET that was held is discarded (03 R58). -/
def State.stopNow (s : State) (p : PitchId) : State :=
  ((s.modPitch p Pitch.dropHeld).cutStep p).modPitch p (fun x => { x with mode := .stopping })

def stopSpec : CmdSpec := { op := 0x13, schedule := true, legal := inStates [.running] }
def stopBody (p : PitchId) (_ : Cmd) (_ : HostPort) (_ : Bytes) (s : State) : Act :=
  .owe (s.stopNow p) .stop

/-- PITCH_STOP (R392). -/
def execPitchStop (p : PitchId) (s : State) : Result := live s (fun s => s.command p stopSpec (stopBody p))

def drainSpec : CmdSpec := { op := 0x14, schedule := true, legal := inStates [.running] }
def drainBody (p : PitchId) (_ : Cmd) (_ : HostPort) (_ : Bytes) (s : State) : Act :=
  if (s.pitch p).time.state = .idle then .owe (s.stopNow p) .stop
  else .owe (s.modPitch p (fun x => { x with time := { x.time with drainPending := true } })) .drain

/-- PITCH_DRAIN (R392). -/
def execPitchDrain (p : PitchId) (s : State) : Result := live s (fun s => s.command p drainSpec (drainBody p))

/-- The Erg save completes and the pitch becomes STOPPED (05 R125; 19 R405, R406). -/
def State.ergSaveOp (s : State) (p : PitchId) : State :=
  let x := s.pitch p
  if x.mode ≠ .stopping then s
  else
    let n := x.ergCount p
    let d := (List.range n).flatMap (fun k => leBytes 80 (s.ergGet (x.erg p k)).toNat)
    let s := (s.write (x.cfg p 3) d).setPitch p { x.count .ergSaves with mode := .stopped, ergSaved := true }
    ((s.answerOwed p .drain ⟨stOk, 0⟩ []).answerOwed p .stop ⟨stOk, 0⟩ []).retain p

/-- ERG_SAVE (05 R125). -/
def execErgSave (p : PitchId) (s : State) : Result := live s (fun s => s.ergSaveOp p)

/-! ## Configuration commands (18 R393; 19 R412, R413, R416, R417) -/

def cfgStates : List PitchMode := [.bound, .configured, .running, .stopping, .stopped]

def baseLoadSpec : CmdSpec := { op := 0x20, payOk := fun c => c.payLen ≤ 8192, legal := inStates cfgStates }
def baseLoadBody (p : PitchId) (_ : Cmd) (_ : HostPort) (bs : Bytes) (s : State) : Act :=
  match readRecord false bs with
  | .error r => .no s r
  | .ok (_, ts) => .ok (s.modPitch p (fun x => { x with pendBase := ts }))

/-- CFG_BASE_LOAD (R393). -/
def execCfgBaseLoad (p : PitchId) (s : State) : Result := live s (fun s => s.command p baseLoadSpec (baseLoadBody p))

def overlayPutSpec : CmdSpec := { op := 0x21, used := [(32, 1)], payOk := fun c => c.payLen ≤ 512, legal := inStates cfgStates }
def overlayPutBody (p : PitchId) (c : Cmd) (_ : HostPort) (bs : Bytes) (s : State) : Act :=
  let k := c.arg 32 1
  let put := fun (bs : Bytes) => s.modPitch p (fun x => { x with pendOverlays := sset x.pendOverlays k bs [] })
  if 15 < k then .no s ⟨eRange, 0⟩
  else if bs.isEmpty then .ok (put [])
  else match readRecord true bs with
    | .error r => .no s r
    | .ok _ => .ok (put bs)

/-- CFG_OVERLAY_PUT (19 R413). -/
def execCfgOverlayPut (p : PitchId) (s : State) : Result := live s (fun s => s.command p overlayPutSpec (overlayPutBody p))

def overlaySelectSpec : CmdSpec := { op := 0x22, used := [(32, 1)], legal := inStates cfgStates }
def overlaySelectBody (p : PitchId) (c : Cmd) (_ : HostPort) (_ : Bytes) (s : State) : Act :=
  let k := c.arg 32 1
  if k ≤ 15 || k = 0xFF then .ok (s.modPitch p (fun x => { x with pendSel := k })) else .no s ⟨eRange, 0⟩

/-- CFG_OVERLAY_SELECT (19 R416). -/
def execCfgOverlaySelect (p : PitchId) (s : State) : Result := live s (fun s => s.command p overlaySelectSpec (overlaySelectBody p))

def commitSpec : CmdSpec := { op := 0x23, schedule := true, legal := inStates [.bound, .configured, .stopped], wakes := fun _ _ _ => true }

/-- The tables are read from the addresses in force; one that cannot be read is refused under its field (R416, R417). A changed LS_EXP is
told after the response (14 R308; 18 R400). -/
def commitBody (p : PitchId) (s0 : State) (_ : Cmd) (_ : HostPort) (_ : Bytes) (s : State) : Act :=
  let x := s.pitch p
  match x.commitFirst p with
  | some r => .no s r
  | none =>
    let tabs := draftTables p.val (x.draftBase p)
    let ok := fun (t : Nat × Nat) => !isEngine t.1 || x.commandRange p t.1 t.2
    match tabs.findIdx? (fun t => !ok t) with
    | some k => .no s (x.commitUnread p k)
    | none =>
      match s0.fetchFor p tabs with
      | .wait s' => .wait s'
      | .failed a => .no s (x.commitUnread p ((tabs.findIdx? (fun t => t.1 ≤ a && a < t.1 + t.2)).getD 0))
      | .ready parts =>
        let d := x.draft p (parts.getD 0 []) (parts.getD 1 [])
        match d.check s p with
        | .error r => .no s r
        | .ok plan =>
          let s := s.commitEffect p d plan
          .done s ⟨stOk, 0⟩ (leBytes 16 (s.pitch p).rsig.toNat) 0 (fun s => s.lossScaleNotice p x.guard.lsExp)

/-- CFG_COMMIT (19 R417). -/
def execCfgCommit (p : PitchId) (s : State) : Result := live s (fun s => s.command p commitSpec (commitBody p s))

def stableStates : List PitchMode := [.configured, .stopped]

def pegLoadSpec : CmdSpec :=
  { op := 0x30, schedule := true, used := [(32, 8)], payOk := fun c => c.payLen = 16 * c.arg 32 4 + 64 * c.arg 36 4, legal := inStates stableStates }
def pegLoadBody (p : PitchId) (c : Cmd) (_ : HostPort) (bs : Bytes) (s : State) : Act :=
  let n := c.arg 32 4
  match pegCheck (s.pitch p) p n (c.arg 36 4) bs with
  | some r => .no s r
  | none =>
    let gs := (chunks 16 (bs.take (16 * n))).map pegOf
    let budgets := (chunks 64 (bs.drop (16 * n))).map budgetOf
    .ok ((s.modPitch p (fun x => { x with pegs := gs, budgets := budgets, pegsLoaded := true })).resign p)

/-- PEG_LOAD (03 R61). -/
def execPegLoad (p : PitchId) (s : State) : Result := live s (fun s => s.command p pegLoadSpec (pegLoadBody p))

def layerLoadSpec : CmdSpec :=
  { op := 0x31, used := [(32, 4)], payOk := fun c => c.payLen = 32 * c.arg 32 4, legal := inStates stableStates }
def layerLoadBody (p : PitchId) (c : Cmd) (_ : HostPort) (bs : Bytes) (s : State) : Act :=
  match layerCheck (s.pitch p) p (c.arg 32 4) bs with
  | some r => .no s r
  | none =>
    let ls := (chunks 32 bs).map layerOf
    .ok ((s.modPitch p (fun x => { x with layers := ls, layersLoaded := true })).resign p)

/-- LAYERMAP_LOAD (14 R309). -/
def execLayermapLoad (p : PitchId) (s : State) : Result := live s (fun s => s.command p layerLoadSpec (layerLoadBody p))

/-! ## lockstep.pair (16 R349) -/

/-- Reserved bits and encodings of the pairing record, as entry offsets. -/
def pairBad (c : Cmd) : Option Nat :=
  (List.range 64).find? (fun i =>
    (i = 34 && 2 ≤ c.arg 34 1) || (i = 35 && 2 ≤ c.arg 35 1) || ((i = 38 || i = 39 || 48 ≤ i) && c.arg i 1 ≠ 0))

def pairSpec : CmdSpec := { op := 0x58, used := [(32, 32)], badArg := pairBad, legal := inStates stableStates }

/-- FULL mode needs every residual to be drawn alike at both partners (R349). -/
def Pitch.fullRefused (x : Pitch) : Bool :=
  x.eff.buckets.any (fun r => bQRound r = 2 || (bSelect r = selRandk && !bRandkShared r) || bUpdate r)

def pairBody (p : PitchId) (c : Cmd) (_ : HostPort) (_ : Bytes) (s : State) : Act :=
  let partner := c.arg 32 2
  let rec' : Pairing := ⟨partner, c.arg 34 1, c.arg 35 1 = 1, c.arg 36 2, c.arg 40 8⟩
  let ends : Bool := decide (partner = 0xFFFF)
  if !ends && ((rec'.mode = 1 && (s.pitch p).fullRefused) || rec'.winBlocks = 0 || 126 < rec'.winBlocks || rec'.offset % 2048 ≠ 0) then
    .no s ⟨eConfig, 0⟩
  else .ok ((s.modPitch p (fun x => { x with pairing := if ends then none else some rec' })).resign p)

/-- LOCKSTEP_PAIR (16 R349). -/
def execLockstepPair (p : PitchId) (s : State) : Result := live s (fun s => s.command p pairSpec (pairBody p))

end Sys2Proof.Machine
end

