-- ==== Sys2Proof/Machine/Moe.lean ====
section
/-! DEFINITION. Host bytes of work descriptors (17 R365, R368), and expert all-to-all (10 R237 to R243, R248). -/

namespace Sys2Proof.Machine

/-! ## Host bytes of a descriptor -/

/-- What fetching a descriptor's host bytes comes to. -/
inductive DescFetch
  | ready (parts : List Bytes)
  | wait (s : State)
  | failed

/-- The bytes that have arrived under a key, by address. -/
def Pitch.descBytes (x : Pitch) (key : Nat) : Sparse Byte := (x.queues.fetched.filter (fun e => e.1 = key)).map (fun e => (e.2.1, e.2.2))

/-- The port that carries a work queue's copies, or for an export (numbers above every queue) the first bound port. -/
def State.fetchPort (s : State) (p : PitchId) (q : Nat) : HostPort :=
  if q < 2048 then s.copyPort p q else (s.pitch p).ports.headD 0

/-- The bytes of ranges of host or engine memory that a descriptor of queue q, or an export, needs under a key. Ranges that have not
arrived are asked for once nothing else is asked for under it (notes/assumptions 35). -/
def State.descFetch (s : State) (p : PitchId) (q key : Nat) (ranges : List (Nat × Nat)) : DescFetch :=
  let x := s.pitch p
  let got := x.descBytes key
  let missing := ranges.filter (fun r => !isEngine r.1 && !(List.range r.2).all (fun i => (sfind got (r.1 + i)).isSome))
  if key ∈ x.queues.fetchBad then .failed
  else if missing.isEmpty then
    .ready (ranges.map (fun r =>
      if isEngine r.1 then s.read (engineAddr r.1) r.2 else (List.range r.2).map (fun i => sget got (r.1 + i) 0)))
  else if s.dma.any (fun d => d.use = .descriptor p key) then .wait s
  else .wait (missing.foldl (fun s r => s.askHost (s.fetchPort p q) (BitVec.ofNat 64 r.1) r.2 (.descriptor p key)) s)

/-- Write bytes of a descriptor's result to host memory. -/
def State.descStore (s : State) (p : PitchId) (q : Nat) (a : Nat) (d : Bytes) : State :=
  s.hostStore (s.fetchPort p q) (BitVec.ofNat 64 a) d

/-! ## The expert table (R237) -/

/-- An entry of the expert table. -/
structure Expert where
  host  : Nat
  local' : Nat
  cap   : Nat
  deriving DecidableEq, Repr

/-- Experts of the effective configuration. -/
def Pitch.experts (x : Pitch) (p : PitchId) : Nat := x.cfg p 0x13

/-- The expert table. -/
def State.expertTable (s : State) (p : PitchId) : List Expert :=
  let x := s.pitch p
  (List.range (x.experts p)).map (fun e =>
    let v := s.readLe (x.cfg p 0x14 + 8 * e) 8
    ⟨bitsOf v 15 0, bitsOf v 23 16, bitsOf v 47 32⟩)

/-- Local experts of a rank. -/
def localCount (tab : List Expert) (rank : Nat) : Nat :=
  maxOf ((tab.filter (fun e => e.host = rank)).map (fun e => e.local' + 1))

/-! ## Exchanges -/

/-- The exchange of an index in the step of stepLo. -/
def Pitch.exchange (x : Pitch) (exch lo : W16) : Exchange :=
  (x.exchanges.find? (fun e => e.exch = exch && e.stepLo = lo)).getD { exch := exch, stepLo := lo }
def Pitch.setExchange (x : Pitch) (e : Exchange) : Pitch :=
  { x with exchanges := upsert (fun c => c.exch = e.exch && c.stepLo = e.stepLo) (fun _ => e) e x.exchanges }
/-- The exchange of this step whose own dispatch has been accepted. -/
def Pitch.dispatched (x : Pitch) (exch : W16) : Option Exchange :=
  x.exchanges.find? (fun e => e.exch = exch && e.stepLo = x.stepLo && e.own.isSome)

/-- Bytes of an element in a host format. -/
def elemBytes (fmt : Nat) : Nat := fmtBits fmt / 8
/-- TOKEN_BYTES of a dispatch. -/
def Exchange.tokenBytes (e : Exchange) : Nat := e.elems * elemBytes e.hostFmt

/-! ## Count records (R239) -/

/-- A count record; VEC_BYTES counts every vector that follows (notes/assumptions 34). -/
def countRecord (exch lo : W16) (vs : List Nat) : Bytes :=
  leBytes 2 exch.toNat ++ leBytes 2 lo.toNat ++ leBytes 4 (8 * vs.length) ++ List.replicate 8 0 ++ vs.flatMap (leBytes 8)
/-- The elements of a count record. -/
def countVec (bs : Bytes) : List Nat := (chunks 8 (bs.drop 16)).map leNat
/-- Element sums modulo 2^64. -/
def addVec (a b : List Nat) : List Nat := List.zipWith (fun u v => (u + v) % 2 ^ 64) a b

/-! ## Tokens (R240, R241) -/

/-- Quantise a token or an expert output: E, its codes, and what the roundings raised. -/
def tokenQuant (fmt : Nat) (bytes : Bytes) : Int × Bool × List Quant :=
  let w := elemBytes fmt
  let vs := (chunks w bytes).map (fun c => hostElem fmt (leNat c))
  let (e, floor) := blockExponent (vs.map (fun v => (to32 v).1))
  (e, floor, vs.map (fun v => quantise 4 e .rne 0 v))

/-- Note a token's quantisation: SCALE_FLOOR, NUM_FLAGS and conversions. -/
def Pitch.noteToken (x : Pitch) (floor : Bool) (qs : List Quant) : Pitch := (x.noteQuant qs).count .scaleFloor (bit floor)

/-- The frames of one token or result: header and at most 4,080 codes each. -/
def tokenFrames (dst target : Nat) (exch : W16) (seq idx : Nat) (header : Bytes) (codes : List Nat) (use : TxUse) : List TxFrame :=
  (chunks 4080 codes).zipIdx.map (fun c =>
    { dst := dst, opcode := BitVec.ofNat 8 opWrite, bucket := BitVec.ofNat 32 exch.toNat, block := BitVec.ofNat 32 target
      offset := BitVec.ofNat 64 (4080 * c.2), payload := header ++ c.1.map (BitVec.ofNat 8), ackNow := false, windowed := true
      planSeq := seq, planBlock := target, planIdx := idx + c.2, use := use })

/-- Mark the last frame to each destination (11 R496). -/
def markLast : List TxFrame → List TxFrame
  | [] => []
  | f :: fs => { f with ackNow := fs.all (fun g => g.dst ≠ f.dst) } :: markLast fs

/-- The converted elements of a fragment in a host format: bytes, flags and non-finite sources. -/
def codeElems (fmt scale : Nat) (codes : Bytes) : Bytes × BitVec 6 × Nat :=
  let cs := codes.map (fun c => ((floatOf fmt).getD fp32).convert .rne 0 (dequantFull 4 ((scale : Int) - 127) c.toNat))
  (cs.flatMap (fun c => leBytes (elemBytes fmt) c.1), cs.foldl (fun a c => a ||| c.2.1) 0, (cs.filter (fun c => c.2.2)).length)

/-- Fragments of `all` codes cover a token. -/
def fragsWhole (fs : List (Nat × Nat)) (all : Nat) : Bool := all ≤ sumOf (fs.map Prod.snd)

/-- One entry of the route in order: token, j, expert, slot. -/
def slotsOf (own : Nat) (k : Nat) (below : List Nat) (routes : List Nat) : List (Nat × Nat × Nat × Nat) :=
  (routes.zipIdx.foldl (fun (acc : List (Nat × Nat × Nat × Nat) × List Nat) r =>
    if r.1 < own then
      let p := acc.2.getD r.1 0
      (acc.1 ++ [(r.2 / k, r.2 % k, r.1, p)], acc.2.set r.1 (p + 1))
    else acc) ([], below)).1

/-- Send the kept entries, write what is dropped, and the fill counts (R240, R242, R243). -/
def State.assignSlots (s : State) (p : PitchId) (e : Exchange) : State :=
  let x := s.pitch p
  let tab := s.expertTable p
  let totals := e.totals.getD []
  let cap := fun (k : Nat) => match tab[k]? with | some t => t.cap | none => 0
  let entries := slotsOf tab.length e.k (e.below.getD []) e.routes
  let (kept, dropped) := entries.partition (fun t => t.2.2.2 < cap t.2.2.1)
  let tb := e.tokenBytes
  let step := fun (acc : Pitch × List TxFrame) (t : Nat × Nat × Nat × Nat) =>
    let (ex, floor, qs) := tokenQuant e.hostFmt (cut e.tokenData (t.1 * tb) tb)
    let h := tab.getD t.2.2.1 ⟨0, 0, 0⟩
    let header := leBytes 4 t.2.2.2 ++ leBytes 1 h.local' ++ leBytes 1 (ex + 127).toNat ++ leBytes 1 t.2.1 ++ [0]
      ++ leBytes 4 t.1 ++ [0, 0, 0, 0]
    -- a token is quantised once, whatever the number of its kept entries (R241)
    let first := !(acc.2.any (fun f => leAt f.payload 8 4 = t.1))
    (if first then acc.1.noteToken floor qs else acc.1,
      acc.2 ++ tokenFrames h.host tgMoeToken e.exch e.seq acc.2.length header (qs.map Quant.code) (.token e.exch))
  let (x, frames) := kept.foldl step (x, [])
  let frames := markLast frames
  let mine := (tab.zipIdx.filter (fun t => t.1.host = x.rank)).map (fun t => (t.1.local', min (totals.getD t.2 0) t.1.cap,
    totals.getD t.2 0))
  let n := localCount tab x.rank
  let fills := (List.range n).map (fun l => match mine.find? (fun m => m.1 = l) with | some m => m.2.1 | none => 0)
  let x := (x.count .moeDrops dropped.length).count .moeOverflow (sumOf (mine.map (fun m => m.2.2 - m.2.1)))
  let e := { e with kept := kept.length, frames := frames.length }
  let s := (s.setPitch p (x.setExchange e)).sendWindowed p frames
  let s := dropped.foldl (fun s t => s.descStore p e.wq (e.retAddr.toNat + (t.1 * e.k + t.2.1) * tb) (List.replicate tb 0)) s
  let bits := (List.range (e.tokens * e.k)).map (fun i => dropped.any (fun t => t.1 * e.k + t.2.1 = i))
  let s := s.descStore p e.wq (e.retAddr.toNat + e.tokens * e.k * tb) (bytesOfBits bits)
  s.descStore p e.wq (e.recvAddr.toNat + n * e.stride * tb) (padTo (roundUp (4 * n) 8) (fills.flatMap (leBytes 4)))

/-- T and P(k) are there: on to the children, then the slots (R239, R240). -/
def State.scanDone (s : State) (p : PitchId) (e : Exchange) : State :=
  let x := s.pitch p
  let own := e.own.getD []
  let below := e.below.getD []
  let totals := e.totals.getD []
  let (frames, _) := x.children.foldl (fun (acc : List TxFrame × List Nat) c =>
    let sub := match e.kids.find? (fun k => k.1 = c) with | some k => k.2 | none => []
    (acc.1 ++ recordFrames c e.exch.toNat tgScanDown (countRecord e.exch e.stepLo (acc.2 ++ totals)), addVec acc.2 sub))
    ([], addVec below own)
  ((s.setPitch p (x.setExchange e)).enqueueAll p frames).assignSlots p e

/-- The own vector and every child's are there: on to the parent, or at rank 0 back down (R239). -/
def State.scanProgress (s : State) (p : PitchId) (e : Exchange) : State :=
  let x := s.pitch p
  match e.own with
  | none => s.setPitch p (x.setExchange e)
  | some own =>
    if e.sentUp || !x.children.all (fun c => e.kids.any (fun k => k.1 = c)) then s.setPitch p (x.setExchange e)
    else
      let sum := e.kids.foldl (fun a k => addVec a k.2) own
      if x.rank = 0 then s.scanDone p { e with sentUp := true, below := some (List.replicate own.length 0), totals := some sum }
      else (s.setPitch p (x.setExchange { e with sentUp := true })).enqueueAll p
        (recordFrames (treeParent x.rank) e.exch.toNat tgScanUp (countRecord e.exch e.stepLo sum))

/-- An accepted SCAN fragment (R239, R248). -/
def State.scanFragment (s : State) (p : PitchId) (exch : Nat) (down : Bool) (src off : Nat) (d : Bytes) : State :=
  let x := s.pitch p
  -- exchanges are kept apart from buckets among the records on their way in
  let a := x.assembly src (2 ^ 32 + exch) down
  if off = 0 && !x.stepUsable (leAt d 2 2) then s.staleRecord p a (16 + leAt d 4 4)
  else if a.staleAt off then s.staleFragment p a
  else
    let (y, whole) := x.assemble src (2 ^ 32 + exch) down off d (fun h => 16 + leAt h 4 4)
    let s := s.setPitch p y
    match whole with
    | none => s
    | some bytes =>
      let e := y.exchange (BitVec.ofNat 16 (leAt bytes 0 2)) (BitVec.ofNat 16 (leAt bytes 2 2))
      let v := countVec bytes
      if down then
        let n := v.length / 2
        if e.totals.isSome then s else s.scanDone p { e with below := some (v.take n), totals := some (v.drop n) }
      else s.scanProgress p { e with kids := upsert (fun k => k.1 = src) (fun _ => (src, v)) (src, v) e.kids }

/-! ## Dispatch descriptors (R238) -/

/-- A dispatch of the exchange in this step has been read and waits for its host bytes. -/
def Pitch.dispatchRead (x : Pitch) (exch : W16) : Bool :=
  x.queues.jobs.any (fun j => descKind j.desc = 2 && leAt j.desc 4 2 = x.stepLo.toNat && leAt j.desc 6 2 = exch.toNat)

/-- The tests of a dispatch descriptor in table order. -/
def State.dispatchCheck (s : State) (p : PitchId) (d : Bytes) : Check :=
  let x := s.pitch p
  let fmt := leAt d 2 1 % 32
  let tokens := leAt d 8 4
  let elems := leAt d 12 2
  let stride := leAt d 14 2
  let tab := s.expertTable p
  let exch : W16 := BitVec.ofNat 16 (leAt d 6 2)
  firstOf [rsvCheck d [(15, 11), (31, 21), (191, 144)], need (fmtKnown fmt) eReserved 2, need (x.stepIs d) eState 0,
    need (x.experts p ≠ 0) eConfig 0, need (fmtHost fmt false) eFormat 0,
    need (tokens ≤ 1048576 && 1 ≤ elems && elems ≤ 8192 && elems * elemBytes fmt ≤ 16384
      && tab.all (fun e => e.host < x.size && (e.host ≠ x.rank || e.cap ≤ stride))) eRange 0,
    need ((x.dispatched exch).isNone && !x.dispatchRead exch) eOrder 0]

/-- Accept a dispatch: its entries are counted per expert. -/
def State.dispatchAccept (s : State) (p : PitchId) (q : Nat) (head : W16) (d : Bytes) (routes tokens : Bytes) : State :=
  let x := s.pitch p
  let n := x.experts p
  let rs := (chunks 2 routes).map leNat
  let own := (List.range n).map (fun e => (rs.filter (· = e)).length)
  let bad := (rs.filter (fun r => n ≤ r && r ≠ 0xFFFF)).length
  let e := { x.exchange (BitVec.ofNat 16 (leAt d 6 2)) (BitVec.ofNat 16 (leAt d 4 2)) with
    wq := q
    wqHead := head
    cookie := descCookie d
    k := leAt d 1 1 % 8 + 1
    hostFmt := leAt d 2 1 % 32
    tokens := leAt d 8 4
    elems := leAt d 12 2
    stride := leAt d 14 2
    seq := leAt d 16 2
    recvAddr := BitVec.ofNat 64 (leAt d 40 8)
    retAddr := BitVec.ofNat 64 (leAt d 48 8)
    routes := rs
    tokenData := tokens
    own := some own }
  (s.setPitch p (x.count .moeBadRoute bad)).scanProgress p e

/-- The bytes that a dispatch copies: its routes and its tokens. -/
def dispatchNeeds (d : Bytes) : List (Nat × Nat) :=
  let tokens := leAt d 8 4
  [(leAt d 32 8, 2 * tokens * (leAt d 1 1 % 8 + 1)), (leAt d 24 8, tokens * (leAt d 12 2 * elemBytes (leAt d 2 1 % 32)))]

/-- A dispatch that has passed its tests. -/
def dispatchWork (p : PitchId) : DescWork := fun j s =>
  match s.descFetch p j.wq j.key (dispatchNeeds j.desc) with
  | .failed => .refuse eRange 0
  | .wait s => .wait s
  | .ready parts => .take (fun s => s.dispatchAccept p j.wq j.wqHead j.desc (parts.getD 0 []) (parts.getD 1 []))

/-- DISPATCH_DESCRIPTOR (R238). -/
def execDispatchDescriptor (p : PitchId) (q : Nat) (s : State) : Result :=
  live s (fun s => s.descriptor p q (fun d => descKind d = 2) (s.dispatchCheck p) (dispatchWork p))

/-! ## Tokens and results as they arrive (R241 to R243) -/

/-- Note a conversion to a host format. -/
def Pitch.noteCodes (x : Pitch) (fl : BitVec 6) (n : Nat) : Pitch := (x.raise fl).count .nonfiniteConv n

/-- An accepted MOE_TOKEN fragment. -/
def State.tokenFrame (s : State) (p : PitchId) (exch : Nat) (src off : Nat) (d : Bytes) : State :=
  let x := s.pitch p
  match x.dispatched (BitVec.ofNat 16 exch) with
  | none => s.collStale p
  | some e =>
    let slot := leAt d 0 4
    let loc := leAt d 4 1
    let codes := d.drop 16
    let place := loc * e.stride + slot
    let (bytes, fl, nf) := codeElems e.hostFmt (leAt d 5 1) codes
    let frags := e.slotFrags ++ [(loc, slot, off, codes.length)]
    let whole := fragsWhole ((frags.filter (fun f => f.1 = loc && f.2.1 = slot)).map (fun f => f.2.2)) e.elems
    let e := { e with
      slotFrags := if whole then frags.filter (fun f => f.1 ≠ loc || f.2.1 ≠ slot) else frags
      slots := if whole then e.slots ++ [(loc, slot, src, leAt d 6 1, leAt d 8 4)] else e.slots }
    let s := s.setPitch p ((x.noteCodes fl nf).setExchange e)
    let s := s.descStore p e.wq (e.recvAddr.toNat + place * e.tokenBytes + off * elemBytes e.hostFmt) bytes
    if whole then
      let n := localCount (s.expertTable p) x.rank
      let map := e.recvAddr.toNat + n * e.stride * e.tokenBytes + roundUp (4 * n) 8
      s.descStore p e.wq (map + 8 * place) (leBytes 2 src ++ leBytes 1 (leAt d 6 1) ++ [0] ++ leBytes 4 (leAt d 8 4))
    else s

/-- The source's second completion, once every kept entry has returned (R243). -/
def State.moeReturned (s : State) (p : PitchId) (e : Exchange) : State := s.complete p 2 stMoeReturned e.wq e.wqHead 0 e.cookie

/-- An accepted MOE_RETURN fragment. -/
def State.returnFrame (s : State) (p : PitchId) (exch : Nat) (off : Nat) (d : Bytes) : State :=
  let x := s.pitch p
  match x.dispatched (BitVec.ofNat 16 exch) with
  | none => s.collStale p
  | some e =>
    let t := leAt d 0 4
    let j := leAt d 4 1
    let codes := d.drop 8
    let (bytes, fl, nf) := codeElems e.hostFmt (leAt d 5 1) codes
    let frags := e.retFrags ++ [(t, j, off, codes.length)]
    let whole := fragsWhole ((frags.filter (fun f => f.1 = t && f.2.1 = j)).map (fun f => f.2.2)) e.elems
    let fresh := whole && (t, j) ∉ e.returned
    let e := { e with
      retFrags := if whole then frags.filter (fun f => f.1 ≠ t || f.2.1 ≠ j) else frags
      returned := if fresh then e.returned ++ [(t, j)] else e.returned }
    let s := s.setPitch p ((x.noteCodes fl nf).setExchange e)
    let s := s.descStore p e.wq (e.retAddr.toNat + (t * e.k + j) * e.tokenBytes + off * elemBytes e.hostFmt) bytes
    if fresh && e.returned.length = e.kept then s.moeReturned p e else s

/-- Filled slots of this rank: local and slot. -/
def State.filledSlots (s : State) (p : PitchId) (e : Exchange) : List (Nat × Nat) :=
  let totals := e.totals.getD []
  (s.expertTable p).zipIdx.flatMap (fun t =>
    if t.1.host = (s.pitch p).rank then (List.range (min (totals.getD t.2 0) t.1.cap)).map (fun k => (t.1.local', k)) else [])

/-- The dispatch is complete (R242). -/
def State.dispatchDone (s : State) (p : PitchId) (exch : W16) : State :=
  let x := s.pitch p
  match x.dispatched exch with
  | none => s
  | some e =>
    if x.works && !e.complete && e.totals.isSome && e.acked = e.frames
        && (s.filledSlots p e).all (fun f => e.slots.any (fun t => t.1 = f.1 && t.2.1 = f.2)) then
      let s := s.setPitch p (x.setExchange { e with complete := true })
      let s := s.complete p 2 stOk e.wq e.wqHead 0 e.cookie
      if e.kept = 0 then s.moeReturned p e else s
    else s

/-- DISPATCH_COMPLETE (R242). -/
def execDispatchComplete (p : PitchId) (exch : W16) (s : State) : Result := live s (fun s => s.dispatchDone p exch)

/-! ## Combine descriptors (R243) -/

/-- A dispatch counts as complete: not while its completion entry is held (17 R371). -/
def Pitch.dispatchComplete (x : Pitch) (e : Exchange) : Bool :=
  e.complete && !x.queues.held.any (fun h => h.2 = completionBytes 2 stOk e.wq e.wqHead 0 e.cookie)

/-- The tests of a combine descriptor. -/
def Pitch.combineCheck (x : Pitch) (d : Bytes) : Check :=
  let fmt := leAt d 2 1 % 32
  firstOf [rsvCheck d [(15, 8), (31, 21), (127, 64), (191, 144), (447, 256)], need (fmtKnown fmt) eReserved 2,
    need (x.stepIs d) eState 0, need (fmtHost fmt false) eFormat 0,
    need (match x.dispatched (BitVec.ofNat 16 (leAt d 6 2)) with | some e => x.dispatchComplete e | none => false) eOrder 0]

/-- Quantise the filled slots and return them to their sources. -/
def State.combineAccept (s : State) (p : PitchId) (q : Nat) (head : W16) (d : Bytes) (e : Exchange) (outs : List Bytes) : State :=
  let x := s.pitch p
  let fmt := leAt d 2 1 % 32
  let step := fun (acc : Pitch × List TxFrame) (t : (Nat × Nat × Nat × Nat × Nat) × Bytes) =>
    let (ex, floor, qs) := tokenQuant fmt t.2
    let header := leBytes 4 t.1.2.2.2.2 ++ leBytes 1 t.1.2.2.2.1 ++ leBytes 1 (ex + 127).toNat ++ [0, 0]
    (acc.1.noteToken floor qs,
      acc.2 ++ tokenFrames t.1.2.2.1 tgMoeReturn e.exch (leAt d 16 2) acc.2.length header (qs.map Quant.code)
        (.moeReturn e.exch q head))
  let (x, frames) := (e.slots.zip outs).foldl step (x, [])
  let frames := markLast frames
  if frames.isEmpty then (s.setPitch p x).complete p 3 stOk q head 0 (descCookie d)
  else
    let e := { e with combines := e.combines ++ [(q, head, descCookie d, frames.length)] }
    (s.setPitch p (x.setExchange e)).sendWindowed p frames

/-- The expert outputs that a combine copies: one for each filled slot. -/
def combineNeeds (d : Bytes) (e : Exchange) : List (Nat × Nat) :=
  let tb := e.elems * elemBytes (leAt d 2 1 % 32)
  e.slots.map (fun t => (leAt d 24 8 + (t.1 * e.stride + t.2.1) * tb, tb))

/-- A combine that has passed its tests. -/
def combineWork (p : PitchId) : DescWork := fun j s =>
  match (s.pitch p).exchanges.find? (fun e =>
      e.exch.toNat = leAt j.desc 6 2 && e.stepLo.toNat = leAt j.desc 4 2 && e.own.isSome) with
  | none => .refuse eAborted 0
  | some e =>
    match s.descFetch p j.wq j.key (combineNeeds j.desc e) with
    | .failed => .refuse eRange 0
    | .wait s => .wait s
    | .ready outs => .take (fun s => s.combineAccept p j.wq j.wqHead j.desc e outs)

/-- COMBINE_DESCRIPTOR (R243). -/
def execCombineDescriptor (p : PitchId) (q : Nat) (s : State) : Result :=
  live s (fun s => s.descriptor p q (fun d => descKind d = 3) (s.pitch p).combineCheck (combineWork p))

/-- A MOE_TOKEN frame of the exchange has been acknowledged, or applied locally. -/
def Pitch.tokenAcked (x : Pitch) (exch : W16) : Pitch :=
  match x.dispatched exch with
  | some e => x.setExchange { e with acked := e.acked + 1 }
  | none => x

/-- A MOE_RETURN frame of the combine read from queue wq at a head has been acknowledged, or applied locally: the combine completes with
its last one (R243). -/
def State.returnAcked (s : State) (p : PitchId) (exch : W16) (wq : Nat) (head : W16) : State :=
  let x := s.pitch p
  let mine := fun (c : Nat × W16 × W64 × Nat) => c.1 = wq && c.2.1 = head
  match x.exchanges.find? (fun e => e.exch = exch && e.combines.any mine) with
  | none => s
  | some e =>
    match e.combines.find? mine with
    | none => s
    | some (_, _, cookie, n) =>
      if n ≤ 1 then (s.setPitch p (x.setExchange { e with combines := e.combines.filter (fun c => !mine c) })).complete p 3 stOk wq head 0 cookie
      else s.setPitch p (x.setExchange { e with combines := e.combines.map (fun c => if mine c then (wq, head, cookie, n - 1) else c) })

end Sys2Proof.Machine
end

