-- ==== Sys2Proof/Machine/OneSided.lean ====
section
/-! DEFINITION. One-sided operations (10 R244 to R246; 11 R260 to R263; 12 R289). -/

namespace Sys2Proof.Machine

/-! ## The one-sided region -/

def Pitch.osBase (x : Pitch) (p : PitchId) : Nat := partOf (x.cfg p 0xE) 0 8
def Pitch.osSize (x : Pitch) (p : PitchId) : Nat := partOf (x.cfg p 0xE) 8 8
def Pitch.osErgBase (x : Pitch) (p : PitchId) : Nat := partOf (x.cfg p 0xE) 16 2
def Pitch.osErgCount (x : Pitch) (p : PitchId) : Nat := partOf (x.cfg p 0xE) 18 2

/-- Bytes off to off + n − 1 lie within the region. -/
def Pitch.osBytes (x : Pitch) (p : PitchId) (off n : Nat) : Bool := off + n ≤ x.osSize p
/-- Registers r to r + n − 1 lie within the register range. -/
def Pitch.osRegs (x : Pitch) (p : PitchId) (r n : Nat) : Bool := x.osErgBase p ≤ r && r + n ≤ x.osErgBase p + x.osErgCount p

/-! ## Effects at the destination (11 R260 to R263; 10 R245) -/

/-- The destination applies an operation (R245). -/
def Pitch.osAllowed (x : Pitch) (p : PitchId) (op off : Nat) (d : Bytes) : Bool :=
  let a := x.osBase p + off
  x.mode = .running &&
    (if op = opErg then x.osRegs p off (d.length / 80)
     else if op = opReadReq then 1 ≤ leAt d 0 4 && leAt d 0 4 ≤ 4088 && x.osBytes p off (leAt d 0 4)
     else if op = opCas then x.osBytes p off 8 && a % 8 = 0
     else x.osBytes p off d.length && (op ≠ opAdd32 || a % 4 = 0) && (op ≠ opAdd64 || a % 8 = 0))

/-- A one-sided WRITE (R263). -/
def State.osWrite (s : State) (p : PitchId) (off : Nat) (d : Bytes) : State := s.write ((s.pitch p).osBase p + off) d
/-- A one-sided add of words of z bytes (R260). -/
def State.osAdd (s : State) (p : PitchId) (z off : Nat) (d : Bytes) : State :=
  s.addWords ((s.pitch p).osBase p + off) z ((chunks z d).map (fun c => (leNat c : Int)))
/-- A one-sided ADD_ERG640 (R260). -/
def State.osErg (s : State) (p : PitchId) (reg : Nat) (d : Bytes) : State :=
  (chunks 80 d).zipIdx.foldl (fun s e => s.ergAddTo ((s.pitch p).erg p (reg + e.2)) (ergOfBytes e.1)) s
/-- The data of a READ (R262). -/
def State.osRead (s : State) (p : PitchId) (off n : Nat) : Bytes := s.read ((s.pitch p).osBase p + off) n
/-- CAS64 (R261): the swap is written where the word equals the compare value. -/
def State.osCas (s : State) (p : PitchId) (off : Nat) (d : Bytes) : State :=
  let a := (s.pitch p).osBase p + off
  if s.read a 8 = d.take 8 then s.write a (cut d 8 8) else s

/-- The state after an operation that is applied. -/
def State.osEffect (s : State) (p : PitchId) (op off : Nat) (d : Bytes) : State :=
  if op = opWrite then s.osWrite p off d
  else if op = opAdd32 then s.osAdd p 4 off d
  else if op = opAdd64 then s.osAdd p 8 off d
  else if op = opErg then s.osErg p off d
  else if op = opCas then s.osCas p off d
  else s

/-- The data it returns, if it returns data. -/
def State.osReturn (s : State) (p : PitchId) (op off : Nat) (d : Bytes) : Option Bytes :=
  if op = opReadReq then some (s.osRead p off (leAt d 0 4)) else if op = opCas then some (s.osRead p off 8) else none

/-- A READ_RESP frame (R262): its TGT_OFFSET is the byte offset within the descriptor. -/
def readResp (dst bucket seq off : Nat) (d : Bytes) : TxFrame :=
  { messageFrame dst opReadResp bucket tgOneSided (leBytes 6 seq ++ [0, 0] ++ d) with offset := BitVec.ofNat 64 off }

/-- The byte offset within its descriptor of request number n: at most the last of 16,777,216 bytes (10 R244). Which number a READ_REQ
has is free (notes/assumptions 36); a CAS64 descriptor has one request. -/
def readOffset (op n : Nat) : Nat := if op = opCas then 0 else 4088 * (n % 4105)

/-- Apply an operation of a remote source and answer it. -/
def State.osServe (s : State) (p : PitchId) (src seq bucket op off : Nat) (d : Bytes) : State :=
  let ret := s.osReturn p op off d
  let s := s.osEffect p op off d
  match ret with
  | none => s
  | some data =>
    let (k, s) := s.draw
    s.enqueueAll p [readResp src bucket seq (readOffset op (Config.freeReadIndex k)) data]

/-! ## Operations in flight (10 R244) -/

/-- A one-sided operation completes. -/
def State.osComplete (s : State) (p : PitchId) (j : OsJob) (status : Nat) : State :=
  (s.modPitch p (fun x => { x with osJobs := x.osJobs.filter (fun k => k.id ≠ j.id) })).complete p 4 status j.wq j.wqHead 0 j.cookie

/-- The operation of an id. -/
def Pitch.osJob (x : Pitch) (id : Nat) : Option OsJob := x.osJobs.find? (fun j => j.id = id)

/-- The request of a frame is refused at its destination (R245). -/
def State.osFail (s : State) (p : PitchId) (id : Nat) : State :=
  match (s.pitch p).osJob id with
  | some j => s.osComplete p j eRange
  | none => s

/-- One more frame of an operation is acknowledged, or one more response placed: the last completes it. -/
def State.osPart (s : State) (p : PitchId) (id : Nat) : State :=
  match (s.pitch p).osJob id with
  | none => s
  | some j =>
    if j.left ≤ 1 then s.osComplete p j stOk
    else s.modPitch p (fun x => { x with osJobs := x.osJobs.map (fun k => if k.id = id then { k with left := k.left - 1 } else k) })

/-- READ and CAS64 complete by their responses. -/
def OsJob.answered (j : OsJob) : Bool := j.op = 1 || j.op = 5

/-- A frame of an operation has been acknowledged. -/
def State.osAcked (s : State) (p : PitchId) (id : Nat) : State :=
  match (s.pitch p).osJob id with
  | some j => if j.answered then s else s.osPart p id
  | none => s

/-- A request has been sent under a sequence number; a CAS64 is counted (R246). -/
def Pitch.osSent (x : Pitch) (id seq op : Nat) : Pitch :=
  let x := if op = opCas then x.count .onesidedCas else x
  if op = opCas || op = opReadReq then
    { x with osJobs := x.osJobs.map (fun k => if k.id = id then { k with reqs := k.reqs ++ [seq] } else k) }
  else x

/-- Returned data is placed at LOCAL + off (R261, R262). -/
def State.osPlace (s : State) (p : PitchId) (j : OsJob) (off : Nat) (d : Bytes) : State :=
  (s.descStore p j.wq (j.localAddr.toNat + off) d).osPart p j.id

/-- An accepted READ_RESP. -/
def State.osResponse (s : State) (p : PitchId) (src off : Nat) (d : Bytes) : State :=
  let seq := leAt d 0 6
  match (s.pitch p).osJobs.find? (fun j => j.dst = src && seq ∈ j.reqs) with
  | none => s
  | some j =>
    let s := s.modPitch p (fun x => { x with
      osJobs := x.osJobs.map (fun k => if k.id = j.id then { k with reqs := k.reqs.erase seq } else k) })
    s.osPlace p j off (d.drop 8)

/-- An operation whose destination is the own rank, on the local path (11 R265). -/
def State.osLocal (s : State) (p : PitchId) (f : TxFrame) (id : Nat) : State :=
  let op := f.opcode.toNat
  let off := f.offset.toNat
  let x := if op = opCas then (s.pitch p).count .onesidedCas else s.pitch p
  let s := s.setPitch p x
  if x.osAllowed p op off f.payload then
    let ret := s.osReturn p op off f.payload
    let s := s.osEffect p op off f.payload
    match ret, x.osJob id with
    | some d, some j => s.osPlace p j (4088 * f.planIdx) d
    | _, _ => s.osPart p id
  else (s.setPitch p (x.count .onesidedRefused)).osFail p id

/-! ## Descriptors (10 R244, R246) -/

def osOp (d : Bytes) : Nat := leAt d 1 1 % 16
def osLen (d : Bytes) : Nat := leAt d 8 4

/-- LENGTH is within the limits of the OP. -/
def osLenOk (op len : Nat) : Bool :=
  if op = 5 then len = 8 else if op = 4 then len % 80 = 0 else if op = 3 then len % 8 = 0 else if op = 2 then len % 4 = 0
  else 1 ≤ len && len ≤ 16777216

/-- The tests of a one-sided descriptor in order. -/
def Pitch.osCheck (x : Pitch) (p : PitchId) (d : Bytes) : Check :=
  let op := osOp d
  let rotating := x.keys.pending.isSome && leAt d 4 2 = (x.keys.activateStep - 1).toNat % 65536
  firstOf [rsvCheck d ([(15, 12), (127, 96), (447, 384)] ++ if op = 5 then [] else [(383, 256)]), need (op ≤ 5) eReserved 1,
    need (x.stepIs d) eState 0, need (!((op = 1 || op = 5) && rotating)) eState 0,
    need (x.osSize p ≠ 0 || x.osErgCount p ≠ 0) eConfig 0,
    need (leAt d 2 2 < x.size && osLenOk op (osLen d)) eRange 0,
    need (op ≠ 5 || x.relaxed p) ePacing 0]

/-- Opcode of an OP. -/
def osOpcode (op : Nat) : Nat :=
  if op = 0 then opWrite else if op = 1 then opReadReq else if op = 2 then opAdd32 else if op = 3 then opAdd64
  else if op = 4 then opErg else opCas

/-- The payloads of an operation with their target offsets, in ascending order (11 R262, R263). -/
def osPieces (d data : Bytes) : List (Nat × Bytes) :=
  let op := osOp d
  let remote := leAt d 16 8
  if op = 5 then [(remote, cut d 32 16)]
  else if op = 1 then (List.range (divUp (osLen d) 4088)).map (fun k =>
    (remote + 4088 * k, leBytes 4 (min 4088 (osLen d - 4088 * k)) ++ [0, 0, 0, 0]))
  else if op = 4 then (chunks 4080 data).zipIdx.map (fun e => (remote + 51 * e.2, e.1))
  else (chunks 4096 data).zipIdx.map (fun e => (remote + 4096 * e.2, e.1))

/-- Accept a one-sided descriptor: it is cut into frames; an add of no bytes sends none and is complete. -/
def State.osAccept (s : State) (p : PitchId) (q : Nat) (d : Bytes) (head : W16) (data : Bytes) : State :=
  let x := s.pitch p
  let op := osOp d
  let dst := leAt d 2 2
  let pieces := osPieces d data
  let job : OsJob := { id := x.nextJob, wq := q, wqHead := head, cookie := descCookie d, op := op, len := osLen d
                       localAddr := BitVec.ofNat 64 (leAt d 24 8), dst := dst, left := pieces.length }
  let frames := pieces.zipIdx.map (fun e =>
    ({ dst := dst, opcode := BitVec.ofNat 8 (osOpcode op), bucket := BitVec.ofNat 32 (leAt d 6 2), block := BitVec.ofNat 32 tgOneSided
       offset := BitVec.ofNat 64 e.1.1, payload := e.1.2, ackNow := e.2 + 1 = pieces.length, windowed := true
       planSeq := leAt d 6 2, planBlock := tgOneSided, planIdx := e.2, use := .oneSided x.nextJob } : TxFrame))
  let s := (s.setPitch p { x with osJobs := x.osJobs ++ [job], nextJob := x.nextJob + 1 }).sendWindowed p frames
  if frames.isEmpty then s.osComplete p job stOk else s

/-- The host bytes that an operation copies: READ and CAS64 copy none. -/
def osNeeds (d : Bytes) : List (Nat × Nat) := if osOp d = 1 || osOp d = 5 then [] else [(leAt d 24 8, osLen d)]

/-- A one-sided descriptor that has passed its tests. -/
def osWork (p : PitchId) : DescWork := fun j s =>
  match s.descFetch p j.wq j.key (osNeeds j.desc) with
  | .failed => .refuse eRange 0
  | .wait s => .wait s
  | .ready parts => .take (fun s => s.osAccept p j.wq j.desc j.wqHead (parts.getD 0 []))

/-- ONE_SIDED_DESCRIPTOR (R244). -/
def execOneSidedDescriptor (p : PitchId) (q : Nat) (s : State) : Result :=
  live s (fun s => s.descriptor p q (fun d => descKind d = 4) ((s.pitch p).osCheck p) (osWork p))

end Sys2Proof.Machine
end

