-- ==== Sys2Proof/Machine/Delta.lean ====
section
/-! DEFINITION. Delta descriptors (15 R320 to R322), when checkpoints are written (R325, R326) and restored (R327), and evaluation
snapshots (R329, R330); the conditions of step completion that come before them (03 R66). -/

namespace Sys2Proof.Machine

/-! ## Delta descriptors (R320 to R322) -/

/-- An address that lies in the engine, within the pitch's regions. -/
def Pitch.deltaRange (x : Pitch) (a n : Nat) : Bool := !isEngine a || x.inRegions (engineAddr a) n

/-- Write to host or engine memory as an address field says. -/
def State.putAt (s : State) (p : PitchId) (q a : Nat) (d : Bytes) : State :=
  if isEngine a then s.write (engineAddr a) d else s.descStore p q a d

/-- The base words of a range; an address of 0 stands for all zeros. -/
def baseRange (a first n : Nat) : List (Nat × Nat) := if a = 0 then [] else [(a + 2 * first, 2 * n)]

/-- What a delta descriptor names. -/
structure DeltaOp where
  expand : Bool
  fmt    : Nat
  first  : Nat
  count  : Nat
  img    : Nat
  base   : Nat
  data   : Nat
  deriving DecidableEq, Repr

def deltaOpOf (d : Bytes) : DeltaOp :=
  ⟨leAt d 1 1 % 4 = 1, leAt d 2 1 % 32, leAt d 8 4, leAt d 12 4, leAt d 16 8, leAt d 24 8, leAt d 32 8⟩

/-- Elements before the range and in it. -/
def DeltaOp.elems (o : DeltaOp) (h : Bytes) : Nat × Nat :=
  let all := leAt h 8 8
  (min all (2048 * o.first), min all (2048 * (o.first + o.count)) - min all (2048 * o.first))

/-- Addresses of the directory entries and slots of the range. -/
def DeltaOp.dirAddr (o : DeltaOp) : Nat := o.img + 64 + 16 * o.first
def DeltaOp.slotAddr (o : DeltaOp) (h : Bytes) : Nat := o.img + imgSlotOffset (leAt h 8 8) + 4096 * o.first

/-- Tests 1 and 2, and the place of the header. -/
def Pitch.deltaFirst (x : Pitch) (d : Bytes) : Check :=
  let o := deltaOpOf d
  firstOf [rsvCheck d [(15, 10), (63, 21), (447, 320)], need (leAt d 1 1 % 4 ≤ 1) eReserved 1, need (fmtKnown o.fmt) eReserved 2,
    need (o.fmt = 1 || o.fmt = 2) eFormat 0, need (x.deltaRange o.img 64) eRange 0]

/-- Tests 3 and 4. -/
def Pitch.deltaSecond (x : Pitch) (d h : Bytes) : Check :=
  let o := deltaOpOf d
  let (first, n) := o.elems h
  firstOf [need (imgHeaderOk o.fmt h) eStream 0,
    need (o.count ≠ 0 && o.first + o.count ≤ leAt h 16 4 && x.deltaRange o.dirAddr (16 * o.count)
      && x.deltaRange (o.slotAddr h) (4096 * o.count)
      && (o.base = 0 || (x.deltaRange o.base 1 && x.deltaRange (o.base + 2 * first) (2 * n)))
      && x.deltaRange o.data 1 && x.deltaRange (o.data + 2 * first) (2 * n)) eRange 0]

/-- Encode the range. -/
def State.deltaEncodeRun (s : State) (p : PitchId) (q : Nat) (o : DeltaOp) (h : Bytes) (ws bs : List Nat) : State :=
  (List.range o.count).foldl (fun s i =>
    let k := o.first + i
    let n := imgBlockElems (leAt h 8 8) k
    let (slot, e) := encodeBlock o.fmt k (cut ws (2048 * i) n) (cut bs (2048 * i) n)
    let s := s.putAt p q (o.slotAddr h + 4096 * i) slot
    (s.putAt p q (o.dirAddr + 16 * i) e.bytes).modPitch p (fun x => x.countDelta e)) s

/-- Expand blocks in order: the state, and the first damaged block. -/
def deltaExpandGo (p : PitchId) (q : Nat) (o : DeltaOp) (h dir slots : Bytes) (bs : List Nat) : Nat → Nat → State → State × Option Nat
  | 0, _, s => (s, none)
  | f + 1, i, s =>
    let k := o.first + i
    match decodeDelta o.fmt k (cut dir (16 * i) 16) (cut slots (4096 * i) 4096) with
    | none => (s.count p .deltaDamaged, some k)
    | some ds =>
      let n := imgBlockElems (leAt h 8 8) k
      let ws := List.zipWith undelta (cut bs (2048 * i) n) (ds.take n)
      deltaExpandGo p q o h dir slots bs f (i + 1) (s.putAt p q (o.data + 2 * (2048 * k)) (ws.flatMap (leBytes 2)))

/-- The bytes a checked descriptor needs. -/
def DeltaOp.ranges (o : DeltaOp) (h : Bytes) : List (Nat × Nat) :=
  let (first, n) := o.elems h
  (if o.expand then [(o.dirAddr, 16 * o.count), (o.slotAddr h, 4096 * o.count)] else [(o.data + 2 * first, 2 * n)])
    ++ baseRange o.base first n

/-- Act on a delta descriptor whose header and bytes are there. -/
def State.deltaRun (s : State) (p : PitchId) (j : DescJob) (h : Bytes) (parts : List Bytes) : State :=
  let o := deltaOpOf j.desc
  let n := (o.elems h).2
  let base := fun (k : Nat) => if o.base = 0 then List.replicate n 0 else words16 (parts.getD k [])
  if o.expand then
    let (s, bad) := deltaExpandGo p j.wq o h (parts.getD 0 []) (parts.getD 1 []) (base 2) o.count 0 s
    match bad with
    | some k => s.endDesc p j eStream k
    | none => s.endDesc p j stOk 0
  else (s.deltaEncodeRun p j.wq o h (words16 (parts.getD 0 [])) (base 1)).endDesc p j stOk 0

/-- A delta descriptor that has passed tests 1 and 2; tests 3 and 4 follow once its header is there (notes/assumptions 35). -/
def deltaWork (p : PitchId) : DescWork := fun j s =>
  let o := deltaOpOf j.desc
  match s.descFetch p j.wq j.key [(o.img, 64)] with
  | .failed => .refuse eRange 0
  | .wait s => .wait s
  | .ready hs =>
    let h := hs.headD []
    match (s.pitch p).deltaSecond j.desc h with
    | some r => .refuse r.status r.detail
    | none => match s.descFetch p j.wq j.key (o.ranges h) with
      | .failed => .refuse eRange 0
      | .wait s => .wait s
      | .ready parts => .take (fun s => s.deltaRun p j h parts)

/-- DELTA_ENCODE (R321), with the descriptors whose OP is reserved. -/
def execDeltaEncode (p : PitchId) (q : Nat) (s : State) : Result :=
  live s (fun s => s.descriptor p q (fun d => descKind d = 5 && leAt d 1 1 % 4 ≠ 1) (s.pitch p).deltaFirst (deltaWork p))
/-- DELTA_EXPAND (R322). -/
def execDeltaExpand (p : PitchId) (q : Nat) (s : State) : Result :=
  live s (fun s => s.descriptor p q (fun d => descKind d = 5 && leAt d 1 1 % 4 = 1) (s.pitch p).deltaFirst (deltaWork p))

/-- What is left to do for a descriptor that waits, by its KIND. -/
def descWork (p : PitchId) : DescWork := fun j s =>
  match descKind j.desc with
  | 2 => dispatchWork p j s
  | 3 => combineWork p j s
  | 4 => osWork p j s
  | 5 => deltaWork p j s
  | _ => .take id

/-- The host bytes of a descriptor have come, or have been refused: it goes on. Descriptors of a step go on in RUNNING alone; a delta
descriptor does in any state in which the pitch answers (notes/assumptions 35). -/
def State.descResume (s : State) (p : PitchId) (key : Nat) : State :=
  let x := s.pitch p
  match x.queues.jobs.find? (fun j => j.key = key) with
  | none => s
  | some j =>
    if x.mode = .running || (descKind j.desc = 5 && x.mode ∉ [.unbound, .fenced, .faulted]) then s.runDesc p (descWork p) j else s

/-! ## Conditions of step completion (03 R66) -/

/-- The lock-step windows of the step have passed (16 R352, R354). -/
def Pitch.lsPassed (x : Pitch) : Bool :=
  match x.pairing with
  | none => true
  | some q => x.lsSuspended q || (x.lock.lastClosed && x.lock.compared = x.lock.closed && !x.lock.mismatched && x.lock.outputs.isEmpty)

/-- No windowed frame of the step waits or is outstanding, but for exports'. -/
def Pitch.windowsDone (x : Pitch) : Bool :=
  let mine := fun (f : TxFrame) => f.windowed && (match f.use with | .snapshot _ => false | _ => true)
  !x.tx.txq.any mine && !x.tx.out.any (fun o => mine o.frame) && x.tx.packWait.isEmpty
    && x.runs.all (fun r => r.payloads.isEmpty && r.bstreams.isEmpty)

/-- Every condition of R66 but the checkpoint and the exports. -/
def Pitch.stepOver (x : Pitch) : Bool :=
  x.mode = .running && x.time.state = .draining && x.guard.verdict.isSome
    && x.stepBuckets.all (fun b => x.bucketPlaced b && x.bucketOut b) && x.updatesDone && (!x.runsNorm || x.guard.norm.isSome)
    && x.windowsDone && x.queues.held.isEmpty && x.lsPassed

/-- The checkpoint of the step that ends, or the one that a command waits for (R325, R326): the first event writes STATE 1, the second the
rest (notes/assumptions 38). -/
def State.checkpointWriteOp (s : State) (p : PitchId) : State :=
  let x := s.pitch p
  if x.mail.owed.any (fun o => o.why = .ckptNow) then s.ckptOwed p
  else if x.stepOver && x.time.ckptArmed && !x.time.ckptDone then
    match x.time.ckptSlot with
    | some k => (s.ckptFinish p k).modPitch p (fun x => { x with time := { x.time with ckptDone := true } })
    | none => s.ckptBegin p
  else s

/-- CHECKPOINT_WRITE (R325). -/
def execCheckpointWrite (p : PitchId) (s : State) : Result := live s (fun s => s.checkpointWriteOp p)

/-- checkpoint.mark is legal while a step runs, or at a step boundary (R326; 18 R383). -/
def ckptLegal (s : State) (p : PitchId) (_ : Cmd) : Check :=
  let x := s.pitch p
  firstOf [need (x.mode = .running || x.mode = .stopped) eState 0,
    need ((x.mode = .running && x.time.state ≠ .idle) || x.time.boundary) eState 0x20]

def ckptSpec : CmdSpec := { op := 0x50, legal := ckptLegal, wakes := fun _ _ _ => true }

/-- checkpoint.mark (R326; 18 R394). CK_SEQ is that of the step's one checkpoint, which may have been written already. -/
def ckptBody (p : PitchId) (_ : Cmd) (_ : HostPort) (_ : Bytes) (s : State) : Act :=
  let x := s.pitch p
  if x.ckptBase p = 0 then .no s ⟨eCheckpoint, 1⟩
  else if x.mode = .running && x.time.state ≠ .idle then
    .done (s.modPitch p (fun x => { x with time := { x.time with ckptArmed := true } })) ⟨stOk, 0⟩
      (x.ckptResult (if x.time.ckptDone then x.ckSeq else x.ckSeq + 1)) 2 id
  else .owe (s.ckptBegin p) .ckptNow

/-- CHECKPOINT_MARK (R326). -/
def execCheckpointMark (p : PitchId) (s : State) : Result := live s (fun s => s.command p ckptSpec (ckptBody p))

/-! ## Restoring (R327) -/

/-- The sections of a slot from byte `pos` on, as header and data; none where one runs past the content or fails its CRC. -/
def sectionsGo (bs : Bytes) : Nat → Nat → Option (List (Bytes × Bytes))
  | 0, _ => some []
  | f + 1, pos =>
    let h := cut bs pos 32
    let n := leAt h 8 8
    let d := cut bs (pos + 32) n
    if h.length < 32 || d.length < n || crc32c d ≠ leAt h 16 4 then none
    else (sectionsGo bs f (pos + 32 + roundUp n 64)).map ((h, d) :: ·)

/-- The slot with STATE 2 and this CK_STEP, and its sections, where every test of R327 passes. -/
def State.restorable (s : State) (p : PitchId) (ckStep : Nat) : Option (Bytes × List (Bytes × Bytes)) :=
  let x := s.pitch p
  if x.ckptBase p = 0 then none
  else
    let slots := [0, 1].map (fun k => x.ckptSlot p k)
    match slots.find? (fun a => s.slotComplete a && s.readLe (a + 8) 8 = ckStep) with
    | none => none
    | some a =>
      let h := s.read a 256
      if leAt h 16 16 ≠ x.rsig.toNat || leAt h 6 2 ≠ x.rank || leAt h 36 2 ≠ x.member.record.group.toNat then none
      else (sectionsGo (s.read (a + 256) (min (leAt h 112 8) (x.cfg p 0x16))) (leAt h 120 4) 0).map (fun ss => (h, ss))

/-- Expand blocks k, k + 1, … of the shard's image; a damaged block ends it, and no block at or above it is written (R218, R322). -/
def restoreShardGo (p : PitchId) (img : Bytes) (n w : Nat) (bs : List Nat) : Nat → Nat → State → State
  | 0, _, s => s
  | f + 1, k, s =>
    match decodeDelta 1 k (cut img (64 + 16 * k) 16) (cut img (imgSlotOffset n + 4096 * k) 4096) with
    | some ds =>
      let m := imgBlockElems n k
      restoreShardGo p img n w bs f (k + 1)
        (s.write (w + 4096 * k) ((List.zipWith undelta (cut bs (2048 * k) m) (ds.take m)).flatMap (leBytes 2)))
    | none => s.count p .deltaDamaged

/-- Expand the shard's image into W_BASE. -/
def State.restoreShard (s : State) (p : PitchId) (img : Bytes) : State :=
  let x := s.pitch p
  let (n, w, _) := x.shardOf p
  let base := x.cfg p 0x17
  restoreShardGo p img n w (if base = 0 then List.replicate n 0 else words16 (s.read base (2 * n))) (imgBlocks n) 0 s

/-- Write one section back. -/
def State.restoreSection (s : State) (p : PitchId) (h d : Bytes) : State :=
  let x := s.pitch p
  let type := leAt h 0 1
  let b := leAt h 4 4
  let r := x.bucketD b
  if type = 1 then s.write (bResBase r) d
  else if type = 2 then
    let n := (oresBlock r 0).2
    (x.ownedBlocks b).zipIdx.foldl (fun s e => s.write (oresBlock r e.1).1 (cut d (n * e.2) n)) s
  else if type = 3 then
    let valid := bitOf (leAt h 1 1) 0
    (s.write (bLrQBase r) d).setPitch p { x with qValid := if valid then addNew b x.qValid else x.qValid.filter (· ≠ b) }
  else if type = 4 then s.restoreShard p d
  else if type = 5 then s.write (x.shardOf p).2.2 d
  else s

/-- Restore a checkpoint that passed its tests; a changed LS_EXP is told (14 R308). -/
def State.restoreCkpt (s : State) (p : PitchId) (h : Bytes) (ss : List (Bytes × Bytes)) : State :=
  let s := ss.foldl (fun s e => s.restoreSection p e.1 e.2) s
  let old := (s.pitch p).guard.lsExp
  (s.modPitch p (fun x =>
    let y := x.count .ckptRestores
    { y with
      guard := y.guard.ofRecord (cut h 48 64)
      time := { y.time with boundary := true }
      ckSeq := max y.ckSeq (leAt h 40 8) })).lossScaleNotice p old

/-! ## Snapshots (R329, R330) -/

/-- A destination record. -/
def Pitch.snapDest (x : Pitch) (p : PitchId) (k : Nat) : Nat := x.cfg p 0x400 k
/-- The queue number under which an export's host bytes are fetched: above every queue. -/
def snapQueue (k : Nat) : Nat := 2048 + k

/-- Frames of an export that wait or are outstanding. -/
def Pitch.snapFrames (x : Pitch) (k : Nat) : Bool :=
  x.tx.txq.any (fun f => f.use = .snapshot k) || x.tx.out.any (fun o => o.frame.use = .snapshot k)

/-- An export has completed. -/
def State.exportDone (s : State) (p : PitchId) (k : Nat) : State :=
  let x := s.pitch p
  let s := s.count p .snapExports
  if x.mail.owed.any (fun o => o.why = .snapNow k) then
    (s.answerOwed p (.snapNow k) ⟨stOk, 0⟩ (leBytes 8 x.time.step.toNat)).retain p
  else s.modPitch p (fun x => { x with time := { x.time with exportsDone := addNew k x.time.exportsDone } })

/-- An export was refused at its destination: E_RANGE, and after the response ntc.bucket.fault (18 R400); the step still completes
(R330). -/
def State.exportRefused (s : State) (p : PitchId) (k : Nat) : State :=
  let x := s.pitch p
  let y : Pitch := { x with
    tx := { x.tx with
      txq := x.tx.txq.filter (fun f => f.use ≠ .snapshot k)
      out := x.tx.out.map (fun o => if o.frame.use = .snapshot k then { o with frame := { o.frame with use := .message } } else o) } }
  let s := s.setPitch p (y.dropFetch (snapQueue k))
  let s := if x.mail.owed.any (fun o => o.why = .snapNow k) then (s.answerOwed p (.snapNow k) ⟨eRange, 0⟩ []).retain p
    else s.modPitch p (fun x => { x with time := { x.time with exportsFailed := addNew k x.time.exportsFailed } })
  s.bucketFault p 0xFFFFFFFF 0 bfExport

/-- A frame of an export has been acknowledged, or applied locally: the last one completes it. -/
def State.exportAcked (s : State) (p : PitchId) (k : Nat) : State := if (s.pitch p).snapFrames k then s else s.exportDone p k

/-- The image leaves: to host memory, or as frames of bucket sequence 0xFFFF, which the drain window takes (R330). -/
def State.exportImage (s : State) (p : PitchId) (k : Nat) (v : Nat) (img : Bytes) : State :=
  let x := s.pitch p
  let dst := bitsOf v 383 320
  if bitOf v 2 then
    let rank := bitsOf v 47 32
    let parts := chunks 4096 img
    if x.size ≤ rank then s.exportRefused p k
    else (s.count p .winDrain parts.length).enqueueAll p (parts.zipIdx.map (fun e =>
      ({ dst := rank, opcode := BitVec.ofNat 8 opWrite, bucket := 0xFFFF, block := BitVec.ofNat 32 tgOneSided
         offset := BitVec.ofNat 64 (dst + 4096 * e.2), payload := e.1, ackNow := e.2 + 1 = parts.length, windowed := true
         planSeq := 0xFFFF, planBlock := tgOneSided, planIdx := e.2, use := .snapshot k, window := some none } : TxFrame)))
  else (s.descStore p (snapQueue k) dst img).exportDone p k

/-- Write export k: its host bytes are fetched first. -/
def State.exportRun (s : State) (p : PitchId) (k : Nat) : State :=
  let x := s.pitch p
  let v := x.snapDest p k
  let n := snapElems x.eff.buckets x.size v
  let fmt := if bitOf v 1 then bitsOf v 7 3 else 1
  let src := if bitOf v 1 then bitsOf v 127 64 else 2 ^ 63 + x.cfg p 0x10F
  let base := bitsOf v 255 192
  match s.descFetch p (snapQueue k) (snapQueue k) ([(src, 2 * n)] ++ baseRange base 0 n) with
  | .wait s => s
  | .failed => s.exportRefused p k
  | .ready parts =>
    let bs := if base = 0 then List.replicate n 0 else words16 (parts.getD 1 [])
    let (img, es) := makeImage fmt n (bitsOf v 319 256) x.time.step.toNat (words16 (parts.getD 0 [])) bs
    let s := s.modPitch p (fun x =>
      (es.foldl Pitch.countDelta x).dropFetch (snapQueue k))
    s.exportImage p k v img

/-- Export k is due now (R330): as the step ends, after its checkpoint, or because a command waits for it. -/
def Pitch.exportDue (x : Pitch) (k : Nat) : Bool :=
  !x.snapFrames k && (x.mail.owed.any (fun o => o.why = .snapNow k)
    || (x.stepOver && (!x.time.ckptArmed || x.time.ckptDone) && k ∈ x.time.exports && k ∉ x.time.exportsDone && k ∉ x.time.exportsFailed))

/-- SNAPSHOT_EXPORT_WRITE (R330). -/
def execSnapshotExportWrite (p : PitchId) (dest : Fin 8) (s : State) : Result :=
  live s (fun s => if (s.pitch p).exportDue dest.val then s.exportRun p dest.val else s)

def snapSpec : CmdSpec :=
  { op := 0x51, used := [(32, 1)], legal := inStates [.running, .stopped], wakes := fun _ _ _ => true }

/-- snapshot.export (R330; 18 R394). -/
def snapBody (p : PitchId) (c : Cmd) (_ : HostPort) (_ : Bytes) (s : State) : Act :=
  let x := s.pitch p
  let k := c.arg 32 1
  if 8 ≤ k || !bitOf (x.snapDest p k) 0 then .no s ⟨eRange, 0⟩
  else if x.mode = .running && x.time.state ≠ .idle then
    .done (s.modPitch p (fun x => { x with time := { x.time with exports := addNew k x.time.exports } })) ⟨stOk, 0⟩
      (leBytes 8 x.time.step.toNat) 2 id
  else .owe s (.snapNow k)

/-- SNAPSHOT_EXPORT (R330). -/
def execSnapshotExport (p : PitchId) (s : State) : Result := live s (fun s => s.command p snapSpec (snapBody p))

end Sys2Proof.Machine
end

