-- ==== Sys2Proof/Machine/Transmit.lean ====
section
/-! DEFINITION. Sending DATA frames (03 R67 to R73; 11 R264 to R266, R270 to R273; 12 R282): plan order, windows, paths, tokens,
resends and the local path; and what becomes of a frame that retires, is lost or is refused (R269, R270). -/

namespace Sys2Proof.Machine

/-! ## Ports -/

/-- Own transmit slots on a physical port; EP16 takes those of the port it stands in for (12 R282). -/
def State.portMask (s : State) (x : Pitch) (n : NetPort) : W64 :=
  match s.netPorts[n].standsFor with
  | some m => x.slots (resPort m)
  | none => x.slots (resPort n)

/-- The port can carry CXT frames: not in D-RETAIN (22 R474); EP16 only in another port's place (09 R212). -/
def State.portUp (s : State) (n : NetPort) : Bool :=
  let q := s.netPorts[n]
  q.inService && !q.failed && q.link ≠ .down && s.power.device ≠ 2 && (n.val ≠ 16 || q.standsFor.isSome)

/-- Logical ports mapped to a physical port, from the one after that served last (12 R282). -/
def Pitch.lpsOn (x : Pitch) (n : NetPort) : List Nat :=
  let last := sget x.tx.lastLp n.val 15
  ((List.range 16).map (fun k => (last + 1 + k) % 16)).filter (fun lp => x.tx.portMap.toList.getD lp 0 = n)

/-! ## Windows (03 R71, R72) -/

/-- The first frame of a logical port, windowed or not. -/
def Pitch.headOf (x : Pitch) (lp : Nat) (windowed : Bool) : Option TxFrame :=
  x.tx.txq.find? (fun f => f.windowed = windowed && f.lp = lp)

/-- The frame's window has begun on its port. Frames of an export lie in the drain window, or leave between steps (15 R330). -/
def Pitch.windowOk (x : Pitch) (f : TxFrame) : Bool :=
  match f.window with
  | none => false
  | some (some w) => w < x.tx.opened
  | some none => x.time.state = .draining || (x.time.state = .idle && (match f.use with | .snapshot _ => true | _ => false))

/-- The next ready frame of a logical port: frames outside the windows go ahead (R67). -/
def Pitch.lpReady (x : Pitch) (lp : Nat) : Option TxFrame :=
  match x.headOf lp false with
  | some f => some f
  | none => match x.headOf lp true with
    | some f => if x.windowOk f then some f else none
    | none => none

/-- A frame of a window that has ended overruns it: once per port and window (R71). `stop` is the CCLK after its end. -/
def Pitch.noteWindow (x : Pitch) (f : TxFrame) (stop : Nat) : Pitch :=
  match f.window with
  | some (some w) =>
    let l := x.lpWin f.lp
    let ended : Bool := w + 1 < x.tx.opened || (w + 1 = x.tx.opened && !x.time.windowOpen)
    let ovf : Bool := ended && w ∉ l.overran
    (if ovf then x.count .winOverrun else x).setLpWin f.lp
      { l with last := some (w, stop), overran := if ovf then l.overran ++ [w] else l.overran }
  | _ => x

/-! ## Paths (11 R272) -/

/-- Smooth weighted round robin among paths in ascending order: the winner and the credits after it. -/
def pathPick (c : Channel) (ents : List Nat) : Option (Nat × Sparse Int) :=
  let w := fun (e : Nat) => ((sget c.weights e 8 : Nat) : Int)
  let grown := ents.map (fun e => (e, sget c.credits e 0 + w e))
  match grown with
  | [] => none
  | g :: gs =>
    let (win, _) := gs.foldl (fun (b : Nat × Int) e => if b.2 < e.2 then e else b) g
    let total := (ents.map w).foldl (· + ·) 0
    some (win, grown.foldl (fun m e => sset m e.1 (if e.1 = win then e.2 - total else e.2) 0) c.credits)

/-- The 16 paths of a port. -/
def pathsOf (n : Nat) : List Nat := (List.range 16).map (fun k => 16 * n + k)

/-- A path's weight falls (R272). -/
def Channel.lower (c : Channel) (ent : Nat) (f : Nat → Nat) : Channel :=
  { c with weights := sset c.weights ent (max 1 (f (sget c.weights ent 8))) 8, decreased := addNew ent c.decreased }

/-! ## When a frame begins (01 R25; 03 R73; 11 R273) -/

/-- Tokens of a channel at CCLK t. -/
def State.tokensAt (s : State) (c : Channel) (t : Nat) : Nat :=
  min 16384 (c.tokens + c.rate * (t - c.tokenAt) * s.power.divider / (s.vco * 800))

/-- The channel with the tokens that it holds now. -/
def State.settleTokens (s : State) (c : Channel) : Channel :=
  if c.tokenAt ≤ s.cclk then { c with tokens := s.tokensAt c s.cclk, tokenAt := s.cclk } else c

/-- CCLK at which the channel has n tokens. -/
def State.tokenTime (s : State) (c : Channel) (n : Nat) : Nat :=
  c.tokenAt + divUp ((n - c.tokens) * s.vco * 800) (max 1 (c.rate * s.power.divider))

/-- Where a frame of `size` bytes begins on a port, the tokens left, and whether it waited for tokens; none: no run is long
enough. -/
def State.beginAt (s : State) (x : Pitch) (n : NetPort) (c : Channel) (size : Nat) : Option (Nat × Nat × Bool) :=
  let m := s.portMask x n
  let len := s.wireCclk n size
  match nextStart m (max (s.cclk + 1) (sget x.tx.busy n.val 0)) len with
  | none => none
  | some t =>
    if size ≤ s.tokensAt c t then some (t, s.tokensAt c t - size, false)
    else match nextStart m (max t (s.tokenTime c size)) len with
      | none => none
      | some u => some (u, s.tokensAt c u - size, true)

/-! ## Room (11 R266) -/

/-- Parts of the retransmit store in use. -/
def Pitch.storeUsed (x : Pitch) : List (Nat × Nat) := x.tx.out.map (fun o => (o.place, o.frame.storeBytes))

def Pitch.seqRoom (x : Pitch) (f : TxFrame) : Bool := (x.chan f.dst).nextSeq < (x.chan f.dst).una + 4096
/-- Where the record of a frame goes, with its plaintext after it (notes/assumptions 106). -/
def Pitch.storePlace (x : Pitch) (p : PitchId) (f : TxFrame) : Option Nat := firstFit x.storeUsed (x.storeSize p) f.storeBytes
def Pitch.storeRoom (x : Pitch) (p : PitchId) (f : TxFrame) : Bool := (x.storePlace p f).isSome

/-- A frame that waits for its sequence window or for the store is counted once for each. -/
def Pitch.noteWait (x : Pitch) (f : TxFrame) : Pitch :=
  let mark := fun (g : TxFrame) (y : Pitch) => { y with tx := { y.tx with txq := replaceFirst (fun h => h = f) (fun _ => g) y.tx.txq } }
  if !x.seqRoom f then
    if f.waitedSeq then x else mark { f with waitedSeq := true } (x.count .chWindowFull)
  else if f.waitedRoom then x else mark { f with waitedRoom := true } (x.count .rtStoreFull)

/-! ## Sending (11 R253, R266; 12 R283) -/

/-- The bytes of one transmission. -/
def State.emitData (s : State) (p : PitchId) (n : NetPort) (start ent pathId seq : Nat) (f : TxFrame) : State :=
  let x := s.pitch p
  match x.keys.current with
  | none => s
  | some sec =>
    let head : OutHead := ⟨true, f.opcode.toNat, f.ackNow, pathId, f.dst, seq, f.bucket.toNat, f.block.toNat, f.offset.toNat⟩
    let cxt := x.sealFrame sec x.member.record.epoch.toNat head (s.plaintext p f)
    { s with netOut := s.netOut ++ [NetOut.mk n start (s.outerFrame p n.val f.dst ent cxt)] }

/-- A port is taken up to a CCLK. -/
def Pitch.occupy (x : Pitch) (n : NetPort) (stop : Nat) : Pitch := { x with tx := { x.tx with busy := sset x.tx.busy n.val stop 0 } }

/-- A channel whose sequence numbers are used up faults its pitch (R264). -/
def State.seqExhausted (s : State) (p : PitchId) (dst : Nat) : State :=
  if 2 ^ 48 - 4096 ≤ ((s.pitch p).chan dst).nextSeq then (s.openFault p bfSeq).faultPitch p else s

/-- The first transmission of a frame. -/
def State.sendNew (s : State) (p : PitchId) (n : NetPort) (f : TxFrame) : State :=
  let x := s.pitch p
  let c := x.chan f.dst
  let size := x.frameSize p f.payload.length
  match s.beginAt x n c size, pathPick c (pathsOf n.val) with
  | some (t, left, waited), some (ent, credits) =>
    let pathId := f.lp + 16 * (ent % 16)
    let seq := c.nextSeq
    let stop := t + s.wireCclk n size
    let s := (s.advanceTo t).emitData p n t ent pathId seq f
    let x := if waited then x.count .rateHolds else x
    let x := x.setChan f.dst { c with nextSeq := seq + 1, tokens := left, tokenAt := t, credits := credits }
    let x := { x with tx := { x.tx with
      txq := x.tx.txq.erase f
      out := x.tx.out ++ [OutFrame.mk f seq t 1 n (ent % 16) pathId ((x.storePlace p f).getD 0) false false 0]
      lastLp := sset x.tx.lastLp n.val f.lp 15 } }
    let x := (x.noteWindow f stop).occupy n stop
    let x := match f.use with | .oneSided id => x.osSent id seq f.opcode.toNat | _ => x
    (s.setPitch p x).seqExhausted p f.dst
  | _, _ => s

/-- A resend (R270): identical from the CXT header on. -/
def State.resend (s : State) (p : PitchId) (n : NetPort) (o : OutFrame) (ent : Nat) (credits : Sparse Int) : State :=
  let x := s.pitch p
  let c := x.chan o.frame.dst
  let size := x.frameSize p o.frame.payload.length
  match s.beginAt x n c size with
  | none => s
  | some (t, left, waited) =>
    let s := (s.advanceTo t).emitData p n t ent o.pathId o.seq o.frame
    let x := if waited then x.count .rateHolds else x
    let x := if o.damaged then x.count .streamResent else x
    let x := x.setChan o.frame.dst { c with tokens := left, tokenAt := t, credits := credits }
    let again := { o with sent := t, txCount := o.txCount + 1, port := n, entropy := ent % 16, lost := false, damaged := false }
    s.setPitch p (({ x with tx := { x.tx with out := replaceFirst (fun q => q = o) (fun _ => again) x.tx.out } }).occupy n
      (t + s.wireCclk n size))

/-- A frame that may leave now: in RUNNING any, in STOPPED those of an export that a command asked for (15 R330). -/
def Pitch.maySend (x : Pitch) (f : TxFrame) : Bool :=
  x.mode = .running || (x.mode = .stopped && (match f.use with | .snapshot _ => true | _ => false))

/-- Ports on which a resend of `size` bytes could begin. -/
def State.usablePorts (s : State) (x : Pitch) (size : Nat) : List NetPort :=
  (List.finRange 17).filter (fun n => s.portUp n && (nextStart (s.portMask x n) (s.cclk + 1) (s.wireCclk n size)).isSome)

/-- The path a resend takes: any but that of its previous transmission, where there is another. -/
def State.resendPath (s : State) (x : Pitch) (p : PitchId) (o : OutFrame) : Option (Nat × Sparse Int) :=
  let all := (s.usablePorts x (x.frameSize p o.frame.payload.length)).flatMap (fun n => pathsOf n.val)
  let rest := all.filter (· ≠ 16 * o.port.val + o.entropy)
  pathPick (x.chan o.frame.dst) (if rest.isEmpty then all else rest)

/-- The lost frame that goes next on a port: the first of its channel whose path leads there. -/
def State.nextResend (s : State) (p : PitchId) (n : NetPort) : Option (OutFrame × Nat × Sparse Int) :=
  let x := s.pitch p
  let lost := x.tx.out.filter (fun o => o.lost && x.maySend o.frame)
  let firsts := lost.filter (fun o => (lost.find? (fun q => q.frame.dst = o.frame.dst)).any (fun q => q = o))
  firsts.findSome? (fun o => match s.resendPath x p o with
    | some (ent, credits) => if ent / 16 = n.val then some (o, ent, credits) else none
    | none => none)

/-! ## The local path (11 R265) -/

/-- Apply a frame of the own rank. -/
def State.applyLocal (s : State) (p : PitchId) (f : TxFrame) : State :=
  let s := s.advanceTo (s.cclk + 1)
  let x := s.pitch p
  let x := { x with tx := { x.tx with txq := x.tx.txq.erase f } }
  let s := s.setPitch p (x.noteWindow f s.cclk)
  match f.use with
  | .stream => s.contribFrame p f.bucket.toNat (s.plaintext p f)
  | .token exch => (s.tokenFrame p exch.toNat x.rank f.offset.toNat f.payload).modPitch p (fun x => x.tokenAcked exch)
  | .moeReturn exch wq head => (s.returnFrame p exch.toNat f.offset.toNat f.payload).returnAcked p exch wq head
  | .oneSided id => s.osLocal p f id
  | .snapshot k =>
    if x.osAllowed p opWrite f.offset.toNat f.payload then (s.osWrite p f.offset.toNat f.payload).exportAcked p k
    else (s.count p .onesidedRefused).exportRefused p k
  | .lockstep | .message => s

/-! ## FRAME_TRANSMIT -/

/-- The pitch's next frame boundary on a port: a resend, else the next ready frame of its logical ports. -/
def State.transmit (s : State) (p : PitchId) (n : NetPort) : State :=
  if (s.pitch p).mode ≠ .running && (s.pitch p).mode ≠ .stopped then s
  else match (if s.portUp n && (s.pitch p).keys.current.isSome then s.nextResend p n else none) with
    | some (o, ent, credits) => s.resend p n o ent credits
    | none =>
      let s := s.modPitch p (fun x => x.assignAll p)
      let x := s.pitch p
      let ready := ((x.lpsOn n).filterMap x.lpReady).filter x.maySend
      let stuck := fun (f : TxFrame) => f.dst ≠ x.rank && (!x.seqRoom f || !x.storeRoom p f)
      let free := ready.filter (fun f => !stuck f && (f.dst = x.rank || (s.portUp n && x.keys.current.isSome)))
      let s := s.setPitch p ((ready.filter stuck).foldl Pitch.noteWait x)
      match (match free.find? (fun f => !f.windowed) with | some f => some f | none => free.head?) with
      | none => s
      | some f => if f.dst = x.rank then s.applyLocal p f else s.sendNew p n f

/-- FRAME_TRANSMIT (03 R73). -/
def execFrameTransmit (p : PitchId) (n : NetPort) (s : State) : Result := live s (fun s => s.transmit p n)

/-! ## Retiring (11 R270) -/

/-- The lowest unretired sequence number. -/
def Pitch.settleUna (x : Pitch) (r : Nat) : Pitch :=
  let c := x.chan r
  x.setChan r { c with una := ((x.tx.out.filter (fun o => o.frame.dst = r)).map OutFrame.seq).foldl min c.nextSeq }

/-- What the acknowledgement of a frame completes. -/
def State.frameAcked (s : State) (p : PitchId) (f : TxFrame) : State :=
  match f.use with
  | .oneSided id => s.osAcked p id
  | .token exch => s.modPitch p (fun x => x.tokenAcked exch)
  | .moeReturn exch wq head => s.returnAcked p exch wq head
  | .snapshot k => s.exportAcked p k
  | .lockstep => s.lsProgress p
  | .stream | .message => s

/-- Retire frames to rank r, one after another. -/
def State.retire (s : State) (p : PitchId) (r : Nat) (gone : List OutFrame) : State :=
  gone.foldl (fun s o =>
    let s := s.modPitch p (fun x => ({ x with tx := { x.tx with out := x.tx.out.filter (fun q => q ≠ o) } }).settleUna r)
    s.frameAcked p o.frame) s

/-! ## Losses and estimates (R270, R272, R273) -/

/-- A loss is declared: the path's weight halves, and the frame waits for its resend, which counts from here on (R270's example). -/
def Pitch.declareLost (x : Pitch) (o : OutFrame) : Pitch :=
  let x := x.count .retransmits
  let c := x.chan o.frame.dst
  let x := x.setChan o.frame.dst { c.lower (16 * o.port.val + o.entropy) (· / 2) with lossInInterval := true }
  { x with tx := { x.tx with out := replaceFirst (fun q => q = o) (fun q => { q with lost := true }) x.tx.out } }

/-- RTO of a channel before its multiplication. -/
def Channel.rto (c : Channel) : Nat := if c.hasRtt then max (c.srtt + 4 * c.rttvar) 6000 else 96000
/-- RTO of a frame. -/
def OutFrame.rto (o : OutFrame) (c : Channel) : Nat := min (c.rto * 2 ^ (o.txCount - 1)) 12000000

/-- Base RTT: the least sample of the last 64 epochs. -/
def Channel.baseMin (c : Channel) (d : Nat) : Nat := (c.baseRtt.filterMap id).foldl min d

/-- One RTT sample: estimates, base RTT, path weight. -/
def Channel.sample (c : Channel) (v ent : Nat) : Channel :=
  let diff := if v ≤ c.srtt then c.srtt - v else v - c.srtt
  let c := if c.hasRtt then { c with rttvar := (3 * c.rttvar + diff) / 4, srtt := (7 * c.srtt + v) / 8 }
    else { c with srtt := v, rttvar := v / 2, hasRtt := true }
  let c := { c with baseRtt := match c.baseRtt with
    | [] => [some v]
    | h :: t => some (match h with | some w => min w v | none => v) :: t }
  if c.baseMin v + 18000 < v then c.lower ent (· - 1) else c

/-- The rate may be updated: at most once per srtt. -/
def Channel.rateDue (c : Channel) (now : Nat) : Bool := c.rateAt + c.srtt ≤ now

/-- The rate update that an ACK with a sample brings; whether it is a cut. -/
def Channel.rateUpdate (c : Channel) (v now : Nat) : Channel × Bool :=
  let qd := v - c.baseMin v
  let new := if c.lossInInterval then max (c.rate / 2) 1000
    else if qd ≤ 9000 then min (c.rate + 2000) 12800000
    else max (c.rate - c.rate * (qd - 9000) / (2 * qd)) 1000
  ({ c with rate := new, rateAt := now, lossInInterval := false }, new < c.rate)

/-- An ACK payload. -/
structure AckInfo where
  cum   : Nat
  sack  : Nat
  trig  : Nat
  delay : Nat
  deriving DecidableEq, Repr

def ackInfo (d : Bytes) : AckInfo := ⟨leAt d 0 6, leAt d 8 32, leAt d 40 6, leAt d 48 4⟩

/-- The ACK shows sequence number q as accepted. -/
def AckInfo.covers (a : AckInfo) (q : Nat) : Bool := q < a.cum || (a.cum < q && q ≤ a.cum + 256 && bitOf a.sack (q - a.cum - 1))

/-- A received ACK (R270): the sample, the retired frames, the losses they show, and the rate. -/
def State.ackFrame (s : State) (p : PitchId) (r : Nat) (d : Bytes) : State :=
  let a := ackInfo d
  let x := s.pitch p
  let mine := x.tx.out.filter (fun o => o.frame.dst = r)
  let gone := mine.filter (fun o => a.covers o.seq)
  let c := x.chan r
  let v := match mine.find? (fun o => o.seq = a.trig && o.txCount = 1) with
    | some o => some (toTwos 32 ((s.cclk : Int) - o.sent - a.delay), 16 * o.port.val + o.entropy)
    | none => none
  let c := match v with | some (t, ent) => c.sample t ent | none => c
  let x := x.setChan r c
  let gap := max 3000 (c.srtt / 4)
  let lost := mine.filter (fun o => !o.lost && o ∉ gone && gone.any (fun g => o.sent + gap ≤ g.sent))
  let x := lost.foldl Pitch.declareLost x
  let c := x.chan r
  let (c, cut) := match v with | some (t, _) => if c.rateDue s.cclk then (s.settleTokens c).rateUpdate t s.cclk else (c, false) | none => (c, false)
  let x := x.setChan r c
  (s.setPitch p (if cut then x.count .rateCuts else x)).retire p r gone

/-- A received NACK (R269). -/
def State.nackFrame (s : State) (p : PitchId) (r : Nat) (d : Bytes) : State :=
  let reason := leAt d 6 1
  let s := s.count p .nackReceived
  match (s.pitch p).tx.out.find? (fun o => o.frame.dst = r && o.seq = leAt d 0 6) with
  | none => s
  | some o =>
    let drop := s.modPitch p (fun x => ({ x with tx := { x.tx with out := x.tx.out.erase o } }).settleUna r)
    if reason = nkDamaged then
      if 4 ≤ o.damages + 1 then (s.bucketFault p o.frame.bucket.toNat o.frame.block.toNat bfStream).faultPitch p
      else s.modPitch p (fun x => { x with tx := { x.tx with
        out := replaceFirst (fun q => q = o) (fun q => { q with lost := true, damaged := true, damages := q.damages + 1 }) x.tx.out } })
    else if reason = nkRange || reason = nkTarget || reason = nkOpcode then
      match o.frame.use with
      | .oneSided id => drop.osFail p id
      | .snapshot k => drop.exportRefused p k
      | _ => if reason = nkRange then drop
             else (drop.bucketFault p o.frame.bucket.toNat o.frame.block.toNat bfTarget).faultPitch p
    else s

/-- A frame's RTO expires (R270). -/
def State.rtoExpiry (s : State) (p : PitchId) (r seq : Nat) : State :=
  let x := s.pitch p
  match x.tx.out.find? (fun o => o.frame.dst = r && o.seq = seq && !o.lost) with
  | none => s
  | some o =>
    if !x.maySend o.frame then s
    else (s.advanceTo (o.sent + o.rto (x.chan r))).setPitch p ((x.count .rtoExpired).declareLost o)

/-- RTO_EXPIRY (R270). -/
def execRtoExpiry (p : PitchId) (rank : W16) (seq : Nat) (s : State) : Result := live s (fun s => s.rtoExpiry p rank.toNat seq)

/-- 3,000 CCLK after the first acceptance not yet acknowledged (R268). -/
def State.ackTimerOp (s : State) (p : PitchId) (r : Nat) : State :=
  let x := s.pitch p
  match (x.chan r).ackTimer with
  | none => s
  | some t =>
    if x.mode ∈ [.unbound, .fenced, .faulted] then s else (s.advanceTo (t + 3000)).sendAck p r 2

/-- ACK_TIMER (R268). -/
def execAckTimer (p : PitchId) (rank : W16) (s : State) : Result := live s (fun s => s.ackTimerOp p rank.toNat)

end Sys2Proof.Machine
end

