-- ==== Sys2Proof/Machine/Receive.lean ====
section
/-! DEFINITION. Received CXT frames (11 R258, R267 to R269, R274; 12 R284, R290; 09 R217): the steps every frame goes through,
and what each kind of frame does once it is accepted. Frames of membership are in Membership. -/

namespace Sys2Proof.Machine

/-! ## EPOCH, check bits and keys (11 R274; 12 R284, R290) -/

/-- The key that opens a frame, with its payload (R290). -/
inductive Opened
  | current (d : Bytes) | pending | previous (d : Bytes) | none
  deriving DecidableEq, Repr

/-- Open a frame under a secret's key of an EPOCH. -/
def Pitch.openBy (x : Pitch) (f : Frame) (epoch : Nat) (sec : Option Secret) : Option Bytes :=
  sec.bind (fun k => f.openWith (trafficKey k x.member.record.group.toNat epoch))

/-- Try the keys of an EPOCH in the order of R290. -/
def Pitch.tryKeys (x : Pitch) (f : Frame) (epoch : Nat) : Opened :=
  match x.openBy f epoch x.keys.current with
  | some d => .current d
  | none => if (x.openBy f epoch x.keys.pending).isSome then .pending else match x.openBy f epoch x.keys.previous with
    | some d => .previous d
    | none => .none

/-- 1,024 management epochs have passed since `last` (R257, R284). -/
def State.epochsPast (s : State) (last : Option W64) : Bool :=
  match last with
  | some t => decide (t.toNat + 1024 ≤ s.glob.mgmtTick.toNat)
  | none => true

/-- A frame that authenticates under no key (R284). -/
def State.authFail (s : State) (p : PitchId) : State :=
  let s := s.count p .authFail
  if s.epochsPast (s.pitch p).mail.authTick then
    (s.bucketFault p 0xFFFFFFFF 0 bfAuth).modPitch p (fun x => { x with mail := { x.mail with authTick := some s.glob.mgmtTick } })
  else s.modPitch p Pitch.dropNotice

/-- A FENCE payload (R259). -/
def fencePayload (x : Pitch) (src : Nat) : Bytes := leBytes 4 x.member.record.epoch.toNat ++ leBytes 2 src ++ [0, 0]

/-- A frame of a lower EPOCH (R274): where the pitch holds that EPOCH's key and the frame authenticates it is counted, and FENCE
answers it from a RUNNING pitch (19 R406), once per source and management epoch. -/
def State.staleFrame (s : State) (p : PitchId) (f : Frame) (port : NetPort) : State :=
  let x := s.pitch p
  let sec := if !f.crcOk then none
    else if (x.openBy f f.epoch x.keys.current).isSome then x.keys.current
    else if (x.openBy f f.epoch x.keys.previous).isSome then x.keys.previous else none
  match sec with
  | none => s
  | some k =>
    let s := s.count p .fencedDrops
    if x.mode ≠ .running || (x.chan f.src).fenceTick = some s.glob.mgmtTick then s
    else (s.sendControlAs p port f.src opFence k f.epoch (fun _ => fencePayload x f.src)).modPitch p (fun x =>
      x.setChan f.src { x.chan f.src with fenceTick := some s.glob.mgmtTick })

/-- Step 1 of R258. -/
def Pitch.headerOk (x : Pitch) (f : Frame) : Bool :=
  f.group = x.member.record.group.toNat && f.dst = x.rank && f.src < x.size

/-- Steps 1 to 3 of R258: the state, and the payload of a frame that goes on. -/
def State.screen (s : State) (p : PitchId) (f : Frame) (port : NetPort) : State × Option Bytes :=
  let x := s.pitch p
  let e := x.member.record.epoch.toNat
  if x.mode = .fenced || x.mode = .faulted then (s, none)
  else if !x.headerOk f then (s.count p .misdirected, none)
  else if f.epoch < e then (s.staleFrame p f port, none)
  else if e < f.epoch then (s.count p .epochAhead, none)
  else if !f.crcOk then (s.count p .crcDrops, none)
  else match x.tryKeys f f.epoch with
    | .current d => (s, some d)
    | .pending => (s.count p .keyAhead, none)
    | .previous _ => (if f.data then (s.count p .keyOldDrops).ackDup p f.src f.seq port else s, none)
    | .none => (s.authFail p, none)

/-! ## Acceptance of DATA frames (R267) -/

/-- A one-sided operation: it is answered RANGE where another frame is answered NOT_READY (R269, R245). -/
def FrameKind.isOperation : FrameKind → Bool
  | .osWrite | .osAdd32 | .osAdd64 | .osErg | .readReq | .cas => true
  | _ => false

/-- A frame that carries block streams. -/
def FrameKind.hasStreams : FrameKind → Bool
  | .contrib | .bcast => true
  | _ => false

/-- The checks of R216, R229 and R231 on a whole frame. -/
def State.fragmentOk (s : State) (p : PitchId) (f : Frame) (d : Bytes) : Bool :=
  match f.kind with
  | .contrib => (s.contribStreams p f.bucket d).isSome
  | .bcast => ((s.pitch p).bcastStreams f.bucket d).isSome
  | .agreeUp => (s.pitch p).fragOk f.bucket false f.src f.offset d
  | .agreeDown => (s.pitch p).fragOk f.bucket true f.src f.offset d
  | _ => true

/-- A decoder of a port is out of service: the spare replaces it; without a spare the repair is EXHAUSTED (notes/assumptions 39). -/
def State.decoderReplace (s : State) (n : NetPort) : State :=
  let (cell, k) := s.expander n
  let bad := s.netPorts[n].decodersBad
  let s := { s with netPorts := s.netPorts.set n { s.netPorts[n] with decodersBad := bad + 1 } }
  if bad = 0 then ((s.holdRepair 8 cell (11 * k)).takeSpare 8).repairDone cell 8 actSoft (11 * k) 0
  else
    let users := allPitches.filter (fun q => (s.pitch q).slots (resPort n.val) ≠ 0#64)
    users.foldl State.repairFault (s.repairDone cell 8 actExhausted (11 * k) 0)

/-- The first decoder of a port decoded a frame of pitch p wrongly (R217). -/
def State.decoderRepair (s : State) (p : PitchId) (n : NetPort) : State := (s.count p .decoderMismatch).decoderReplace n

/-- A pitch answers frames: it is neither FENCED nor FAULTED. -/
def Pitch.answering (x : Pitch) : Bool := x.mode ≠ .fenced && x.mode ≠ .faulted

/-- Steps 7 and 8 of R258, and the acknowledgement. -/
def State.acceptFrame (s : State) (p : PitchId) (f : Frame) (port : NetPort) (act : State → State) : State :=
  let s := act (s.modPitch p (fun x => x.setChan f.src ((x.chan f.src).accept f.seq)))
  if (s.pitch p).answering then s.ackNote p f.src f.seq port f.ackNow else s

/-- The bitmap's bit for a sequence number is set: it is indexed by s mod 4,096 (R267). -/
def Channel.marked (c : Channel) (q : Nat) : Bool := c.accepted.any (fun a => a % 4096 = q % 4096)

/-- Steps 5 to 8 of R258 for a DATA frame with payload d. -/
def State.dataFrame (s : State) (p : PitchId) (f : Frame) (rx : Rx) (d : Bytes) (act : State → State) : State :=
  let x := s.pitch p
  let c := x.chan f.src
  if f.seq < c.rcvNext || c.marked f.seq then (s.count p .dupDrops).ackDup p f.src f.seq rx.port
  else if c.rcvNext + 4096 ≤ f.seq then s.count p .oowDrops
  else if x.mode ≠ .running && !f.kind.isOperation then s.sendNack p f.src f.seq nkNotReady 0 rx.port
  else if !s.fragmentOk p f d then (s.count p .streamDamaged).sendNack p f.src f.seq nkDamaged 0 rx.port
  else
    let s := if rx.decoderSlip && f.kind.hasStreams then s.decoderRepair p rx.port else s
    if (s.pitch p).answering then s.acceptFrame p f rx.port act else s

/-- A received frame of the kinds and contents that a command names; any other frame is no command of that name and changes
nothing. `act` is what an accepted frame, or an authenticated CONTROL frame, does. -/
def State.receive (s : State) (rx : Rx) (mine : FrameKind → Bool) (content : Bytes → Bool)
    (act : PitchId → Frame → Bytes → State → State) : State :=
  match s.parse rx with
  | .frame p f =>
    if !mine f.kind then s
    else match s.screen p f rx.port with
      | (s', none) => s'
      | (s', some d) =>
        if !content d then s
        else if f.data then s'.dataFrame p f rx d (act p f d)
        else act p f d s'
  | _ => s

/-- A command for one kind of frame. -/
def State.receiveKind (s : State) (rx : Rx) (k : FrameKind) (act : PitchId → Frame → Bytes → State → State) : State :=
  s.receive rx (fun j => j = k) (fun _ => true) act

/-! ## Collectives -/

/-- AGREE_UP (10 R228). -/
def execAgreeUp (rx : Rx) (s : State) : Result :=
  live s (fun s => s.receiveKind rx .agreeUp (fun p f d s => s.agreeFragment p f.bucket false f.src f.offset d))
/-- AGREE_DOWN (10 R229). -/
def execAgreeDown (rx : Rx) (s : State) : Result :=
  live s (fun s => s.receiveKind rx .agreeDown (fun p f d s => s.agreeFragment p f.bucket true f.src f.offset d))
/-- CONTRIB_STREAM (10 R231). -/
def execContribStream (rx : Rx) (s : State) : Result :=
  live s (fun s => s.receiveKind rx .contrib (fun p f d s => s.contribFrame p f.bucket d))

/-- An accepted RETRY (10 R232, R248). -/
def State.retryFrame (s : State) (p : PitchId) (b : Nat) (d : Bytes) : State :=
  let x := s.pitch p
  let lo := leAt d 5 2
  if lo = x.stepLo.toNat then s.modPitch p (fun x => x.memberRetry b (leAt d 0 4) (leAt d 4 1))
  else if x.stepUsable lo then s
  else s.collStale p

/-- RETRY (10 R232). -/
def execRetry (rx : Rx) (s : State) : Result := live s (fun s => s.receiveKind rx .retry (fun p f d s => s.retryFrame p f.bucket d))
/-- BCAST_STREAM (06 R144). -/
def execBcastStream (rx : Rx) (s : State) : Result :=
  live s (fun s => s.receiveKind rx .bcast (fun p f d s => s.bcastFrame p f.bucket d))

/-- An accepted FACTOR_SUM (10 R233). -/
def State.factorFrameIn (s : State) (p : PitchId) (b : Nat) (d : Bytes) : State :=
  s.factorArrive p b (leAt d 0 4) (leAt d 4 1) ((chunks 4 (d.drop 8)).map (fun c => ofTwos 32 (leNat c)))

/-- FACTOR_SUM (10 R233). -/
def execFactorSum (rx : Rx) (s : State) : Result :=
  live s (fun s => s.receiveKind rx .factorSum (fun p f d s => s.factorFrameIn p f.bucket d))
/-- NORM_UP (10 R235): rank 0 applies it. -/
def execNormUp (rx : Rx) (s : State) : Result :=
  live s (fun s => s.receiveKind rx .normUp (fun p _ d s => if (s.pitch p).rank = 0 then s.normUpFrame p d else s))
/-- NORM_DOWN (10 R236). -/
def execNormDown (rx : Rx) (s : State) : Result := live s (fun s => s.receiveKind rx .normDown (fun p _ d s => s.normDownFrame p d))
/-- SCAN_UP (10 R239). -/
def execScanUp (rx : Rx) (s : State) : Result :=
  live s (fun s => s.receiveKind rx .scanUp (fun p f d s => s.scanFragment p f.bucket false f.src f.offset d))
/-- SCAN_DOWN (10 R239). -/
def execScanDown (rx : Rx) (s : State) : Result :=
  live s (fun s => s.receiveKind rx .scanDown (fun p f d s => s.scanFragment p f.bucket true f.src f.offset d))
/-- MOE_TOKEN (10 R241). -/
def execMoeToken (rx : Rx) (s : State) : Result :=
  live s (fun s => s.receiveKind rx .moeToken (fun p f d s => s.tokenFrame p f.bucket f.src f.offset d))
/-- MOE_RETURN (10 R243). -/
def execMoeReturn (rx : Rx) (s : State) : Result :=
  live s (fun s => s.receiveKind rx .moeReturn (fun p f d s => s.returnFrame p f.bucket f.offset d))

/-! ## One-sided operations (10 R245; 11 R260 to R263) -/

/-- An accepted one-sided operation: applied, or refused with RANGE. -/
def State.osFrame (s : State) (p : PitchId) (f : Frame) (port : NetPort) (d : Bytes) : State :=
  if (s.pitch p).osAllowed p f.opcode f.offset d then s.osServe p f.src f.seq f.bucket f.opcode f.offset d
  else (s.count p .onesidedRefused).sendNack p f.src f.seq nkRange 0 port

/-- An accepted WRITE to the one-sided region, which may be a lock-step record or difference bytes (16 R351, R353). -/
def State.osWriteFrame (s : State) (p : PitchId) (f : Frame) (port : NetPort) (d : Bytes) : State :=
  let ok := (s.pitch p).osAllowed p f.opcode f.offset d
  let s := s.osFrame p f port d
  if !ok then s
  else if (s.pitch p).isLsRecord f.src f.offset d then s.lsRecordFrame p f.offset d
  else s.lsDiffFrame p f.src f.offset d

/-- A WRITE that is a lock-step record, as far as the pitch that it names can tell. -/
def State.lsFrameIs (s : State) (rx : Rx) (d : Bytes) : Bool :=
  match s.parse rx with
  | .frame p f => (s.pitch p).isLsRecord f.src f.offset d
  | _ => false

/-- A one-sided frame of one opcode. -/
def State.oneSidedIn (s : State) (rx : Rx) (k : FrameKind) : State := s.receiveKind rx k (fun p f d s => s.osFrame p f rx.port d)

/-- ONE_SIDED_WRITE (11 R263). -/
def execOneSidedWrite (rx : Rx) (s : State) : Result :=
  live s (fun s => s.receive rx (fun k => k = .osWrite) (fun d => !s.lsFrameIs rx d) (fun p f d s => s.osWriteFrame p f rx.port d))
/-- ONE_SIDED_ADD_FX32 (11 R260). -/
def execOneSidedAddFx32 (rx : Rx) (s : State) : Result := live s (fun s => s.oneSidedIn rx .osAdd32)
/-- ONE_SIDED_ADD_FX64 (11 R260). -/
def execOneSidedAddFx64 (rx : Rx) (s : State) : Result := live s (fun s => s.oneSidedIn rx .osAdd64)
/-- ONE_SIDED_ADD_ERG640 (11 R260). -/
def execOneSidedAddErg640 (rx : Rx) (s : State) : Result := live s (fun s => s.oneSidedIn rx .osErg)
/-- READ_REQ (11 R262). -/
def execReadReq (rx : Rx) (s : State) : Result := live s (fun s => s.oneSidedIn rx .readReq)
/-- CAS64 (11 R261). -/
def execCas64 (rx : Rx) (s : State) : Result := live s (fun s => s.oneSidedIn rx .cas)
/-- READ_RESP (11 R262). -/
def execReadResp (rx : Rx) (s : State) : Result :=
  live s (fun s => s.receiveKind rx .readResp (fun p f d s => s.osResponse p f.src f.offset d))
/-- LOCKSTEP_RECORD (16 R352). -/
def execLockstepRecord (rx : Rx) (s : State) : Result :=
  live s (fun s => s.receive rx (fun k => k = .osWrite) (fun d => s.lsFrameIs rx d) (fun p f d s => s.osWriteFrame p f rx.port d))

/-! ## Group barriers (10 R247; 16 R346 to R348) -/

/-- The BARRIER peg of ordinal `ord` of the table is a group barrier. -/
def Pitch.groupPeg (x : Pitch) (ord : Nat) : Bool :=
  match (x.pegs.filter (fun g => g.action = actBarrier))[ord]? with
  | some g => g.arg0.getLsbD 0
  | none => false

/-- The barrier of an ordinal in the step of `lo` may still take arrivals: it has not been released here. -/
def Pitch.barrierOpen (x : Pitch) (lo ord : Nat) : Bool :=
  x.stepUsable lo && x.groupPeg ord
    && (lo ≠ x.stepLo.toNat || x.time.barriers ≤ ord
        || (match x.gbars.find? (fun b => b.stepLo = x.stepLo && b.ordinal = ord) with | some b => b.release.isNone | none => false))

/-- An accepted arrival (R247). -/
def State.barrierArrive (s : State) (p : PitchId) (src : Nat) (d : Bytes) : State :=
  let x := s.pitch p
  let lo := leAt d 0 2
  let ord := leAt d 2 2
  if leAt d 4 1 = 0 && src ∈ x.children && x.barrierOpen lo ord then
    let b := x.gbar (BitVec.ofNat 16 lo) ord
    (s.setPitch p (x.setGbar { b with kids := addNew src b.kids })).barrierProgress p b.stepLo ord
  else s.collStale p

/-- An accepted release (R346, R347): forwarded unchanged, then due at its time, or at once where that has passed. -/
def State.barrierReleased (s : State) (p : PitchId) (src : Nat) (d : Bytes) : State :=
  let x := s.pitch p
  let lo := leAt d 0 2
  let ord := leAt d 2 2
  let time := leAt d 8 8
  let b := x.gbar (BitVec.ofNat 16 lo) ord
  if x.rank ≠ 0 && src = treeParent x.rank && lo = x.stepLo.toNat && b.fired && b.sentUp && b.release.isNone then
    let x := if (time : Int) * 65536 ≤ s.ptpNow then x.count .barLate else x
    let x := x.setGbar { b with release := some (time, s.cclk + 1) }
    s.setPitch p (x.children.foldl (fun x c => x.enqueue (barrierFrame c b.stepLo ord 1 time)) x)
  else s.collStale p

/-- BARRIER_ARRIVAL (10 R247). -/
def execBarrierArrival (rx : Rx) (s : State) : Result :=
  live s (fun s => s.receive rx (fun k => k = .barrier) (fun d => leAt d 4 1 ≠ 1) (fun p f d s => s.barrierArrive p f.src d))
/-- BARRIER_RELEASE (16 R346). -/
def execBarrierRelease (rx : Rx) (s : State) : Result :=
  live s (fun s => s.receive rx (fun k => k = .barrier) (fun d => leAt d 4 1 = 1) (fun p f d s => s.barrierReleased p f.src d))

/-! ## CONTROL frames and refused frames -/

/-- ACK (11 R270). -/
def execAck (rx : Rx) (s : State) : Result := live s (fun s => s.receiveKind rx .ack (fun p f d s => s.ackFrame p f.src d))
/-- NACK (11 R269). -/
def execNack (rx : Rx) (s : State) : Result := live s (fun s => s.receiveKind rx .nack (fun p f d s => s.nackFrame p f.src d))

/-- RESERVED_OPCODE_FRAME (11 R259). -/
def execReservedOpcodeFrame (rx : Rx) (s : State) : Result :=
  live s (fun s => s.receiveKind rx .reservedOpcode (fun p f _ s =>
    if f.data then s.sendNack p f.src f.seq nkOpcode 0 rx.port else s.count p .misdirected))
/-- RESERVED_TARGET_FRAME (10 R226). -/
def execReservedTargetFrame (rx : Rx) (s : State) : Result :=
  live s (fun s => s.receiveKind rx .reservedTarget (fun p f _ s => s.sendNack p f.src f.seq nkTarget 0 rx.port))

/-! ## Frames that are no CXT frame (11 R255 to R257; 12 R277, R284) -/

/-- A network exception entry (R256). -/
def State.excEntry (s : State) (reason : Nat) (rx : Rx) : Bytes :=
  [0x10, BitVec.ofNat 8 reason] ++ leBytes 2 rx.port.val ++ leBytes 2 rx.bytes.length ++ [0, 0]
    ++ leBytes 8 s.glob.mgmtTick.toNat ++ padTo 48 rx.bytes

/-- A frame goes to its pitch's exception queue, or is dropped because the queue is full. -/
def State.exceptFrame (s : State) (p : PitchId) (reason : Nat) (rx : Rx) : State :=
  let x := s.pitch p
  let q := x.cfg p 0xC
  if x.hasRoom q then
    let s := (s.putEntry p q (fun _ => s.excEntry reason rx)).count p .excPackets
    { s with fw := { s.fw with excUnread := sput s.fw.excUnread p.val (sget s.fw.excUnread p.val 0 + 1) } }
  else s.count p .excOverflow

/-- A frame whose lengths contradict one another (R257). -/
def State.lengthDrop (s : State) (p : PitchId) : State :=
  let s := s.count p .lenDrops
  if s.epochsPast (s.pitch p).mail.lengthTick then
    (s.bucketFault p 0xFFFFFFFF 0 bfLength).modPitch p (fun x => { x with mail := { x.mail with lengthTick := some s.glob.mgmtTick } })
  else s.modPitch p Pitch.dropNotice

/-- NON_CXT_FRAME (R255): a frame that fails parsing. -/
def execNonCxtFrame (rx : Rx) (s : State) : Result :=
  live s (fun s => match s.parse rx with
    | .exception p reason => s.exceptFrame p reason rx
    | .length p => s.lengthDrop p
    | .noPitch => { s with glob := { s.glob with rxNoPitch := s.glob.rxNoPitch + 1 } }
    | _ => s)

/-- Change network port n. -/
def State.modPort (s : State) (n : NetPort) (f : NetPortSt → NetPortSt) : State := { s with netPorts := s.netPorts.set n (f s.netPorts[n]) }

/-- MAC_CONTROL_FRAME (12 R277). -/
def execMacControlFrame (rx : Rx) (s : State) : Result :=
  live s (fun s => match s.parse rx with
    | .macControl => s.modPort rx.port (fun n => { n with macCtrlDrops := n.macCtrlDrops + 1 })
    | _ => s)

/-- FCS_FAILED_FRAME (12 R284, R277, R278). -/
def execFcsFailedFrame (rx : Rx) (s : State) : Result :=
  live s (fun s => match s.parse rx with
    | .fcs => s.modPort rx.port (fun n => { n with fcsDrops := n.fcsDrops + 1 })
    | .oversize => s.modPort rx.port (fun n => { n with oversizeDrops := n.oversizeDrops + 1 })
    | .checksum => s.modPort rx.port (fun n => { n with csumDrops := n.csumDrops + 1 })
    | _ => s)

end Sys2Proof.Machine
end

