-- ==== Sys2Proof/Machine/Membership.lean ====
section
/-! DEFINITION. Membership, spares and fencing (20): the record, HEARTBEAT messages, agreement, takeover and rollback, fencing
and capacity changes. -/

namespace Sys2Proof.Machine

/-! ## The watch set (R428) -/

/-- The nearest live ancestor of rank r; a rank has at most four. -/
def nearestGo (m : MemberRec) : Nat → Nat → Option Nat
  | 0, _ => none
  | f + 1, r => if r = 0 then none else let q := treeParent r; if m.live q then some q else nearestGo m f q
def MemberRec.nearest (m : MemberRec) (r : Nat) : Option Nat := nearestGo m 4 r

/-- The watch set of a rank. -/
def MemberRec.watch (m : MemberRec) (rank : Nat) : List Nat :=
  m.liveSet.filter (fun r => r ≠ rank && (m.nearest rank = some r || m.nearest r = some rank))

/-- A rank counted dead: 128 epochs without a BEAT that counts (R429). -/
def Pitch.countedDead (x : Pitch) (r : Nat) : Bool := 128 ≤ sget x.member.silent r 0

/-- The 192 bytes of a record (R424). -/
def MemberRec.bytes (m : MemberRec) : Bytes :=
  leBytes 2 m.group.toNat ++ leBytes 2 m.rank.toNat ++ leBytes 4 m.n ++ leBytes 4 m.epoch.toNat ++ leBytes 2 m.keeper
    ++ leBytes 1 m.role ++ [0] ++ leBytes 16 m.rsig.toNat ++ leBytes 8 m.word.toNat ++ leBytes 8 m.atStep.toNat
    ++ leBytes 2 m.vacant.length ++ List.replicate 14 0
    ++ (List.range 64).flatMap (fun k => leBytes 2 (m.vacant.getD k 0xFFFF))

/-- Read a record. -/
def memberOf (b : Bytes) : MemberRec :=
  { group := BitVec.ofNat 16 (leAt b 0 2), rank := BitVec.ofNat 16 (leAt b 2 2), n := leAt b 4 4, epoch := BitVec.ofNat 32 (leAt b 8 4)
    keeper := leAt b 12 2, role := leAt b 14 1, rsig := BitVec.ofNat 128 (leAt b 16 16), word := BitVec.ofNat 64 (leAt b 32 8)
    atStep := BitVec.ofNat 64 (leAt b 40 8), vacant := (List.range (min 64 (leAt b 48 2))).map (fun k => leAt b (64 + 2 * k) 2) }

/-! ## HEARTBEAT messages (R427) -/

def hbBeat : Nat := 0
def hbPropose : Nat := 1
def hbVote : Nat := 2
def hbCommit : Nat := 3
def hbJoin : Nat := 4
def hbQuery : Nat := 5
def hbRecord : Nat := 6

/-- CK_STEP of the pitch's newest complete checkpoint; 0 where there is none. -/
def State.newestCk (s : State) (p : PitchId) : Nat :=
  let x := s.pitch p
  if x.ckptBase p = 0 then 0
  else
    let slots := ([0, 1].map (fun k => x.ckptSlot p k)).filter (fun a => s.slotComplete a)
    match slots with
    | [] => 0
    | [a] => s.readLe (a + 8) 8
    | a :: b :: _ => s.readLe ((if s.slotSeq b ≤ s.slotSeq a then a else b) + 8) 8

/-- What a HEARTBEAT says beside the sender's own fields. -/
structure Beat where
  kind    : Nat
  flags   : Nat := 0
  n       : Nat
  compare : W64 := 0
  swap    : W64 := 0
  at'     : W64 := 0
  tail    : Bytes := []
  deriving DecidableEq, Repr

/-- The payload. -/
def State.beatBytes (s : State) (p : PitchId) (b : Beat) : Bytes :=
  let x := s.pitch p
  leBytes 1 b.kind ++ leBytes 1 b.flags ++ [0, 0] ++ leBytes 4 b.n ++ leBytes 8 b.compare.toNat ++ leBytes 8 b.swap.toNat
    ++ leBytes 8 b.at'.toNat ++ leBytes 8 x.time.step.toNat ++ leBytes 8 (s.newestCk p) ++ leBytes 16 x.rsig.toNat ++ b.tail

/-- Send a HEARTBEAT from a RUNNING pitch (19 R406), on the physical port of logical port rank mod 16 (notes/assumptions 41). -/
def State.sendBeat (s : State) (p : PitchId) (dst : Nat) (b : Beat) : State :=
  let x := s.pitch p
  if x.mode ≠ .running || dst = x.rank then s
  else s.sendControl p (x.tx.portMap.toList.getD (dst % 16) 0) dst opHeartbeat (fun _ => s.beatBytes p b)

/-- The same message to several ranks, in the order given. -/
def State.sendBeats (s : State) (p : PitchId) (dsts : List Nat) (b : Beat) : State := dsts.foldl (fun s d => s.sendBeat p d b) s

/-- The own N and WORD. -/
def Pitch.memberN (x : Pitch) : Nat := x.member.record.n
def Pitch.word (x : Pitch) : W64 := x.member.record.word

/-- AT_OR_CK of a RECORD: what the last commit carried (notes/assumptions 42). -/
def Pitch.recordAt (x : Pitch) : W64 := if wordAction x.word = actTakeover then x.member.rollStep else x.member.record.atStep

/-- Answer with RECORD; STALE where the querier has been declared dead since its EPOCH (R434). -/
def State.sendRecord (s : State) (p : PitchId) (dst : Nat) (stale : Bool) : State :=
  let x := s.pitch p
  s.sendBeat p dst { kind := hbRecord, flags := 2 * bit stale, n := x.memberN, compare := x.word, at' := x.recordAt, tail := x.member.record.bytes }

/-- Send QUERY. -/
def State.sendQuery (s : State) (p : PitchId) (dst : Nat) : State :=
  let x := s.pitch p
  s.sendBeat p dst { kind := hbQuery, n := x.memberN, compare := x.word }

/-! ## Applying a record (R431, R433, R436) -/

/-- The step is cut off by a death: STEP_STATE stays DRAINING and a held STEP_SET stays held. -/
def State.cutForDeath (s : State) (p : PitchId) : State :=
  let held := (s.pitch p).time.held
  ((s.lsCut p).cutStep p).modPitch p (fun x => { x with time := { x.time with state := .draining, held := held } })

/-- ntc.member.dead. -/
def State.deadNotice (s : State) (p : PitchId) (rank epoch : Nat) : State :=
  s.notice p ntcMemberDead (leBytes 2 rank ++ [0, 0] ++ leBytes 4 epoch)

/-- The new record takes effect: channels restart, agreement state of the old WORD ends, and proposals lapse; a spare that still waits
for its takeover sends JOIN again (R439). A pitch that asks to grow the group keeps its own N until the record counts it. -/
def Pitch.takeRecord (x : Pitch) (r : MemberRec) : Pitch :=
  let x := x.restartChannels
  let old := x.member.record
  let own := { r with
    rank := old.rank, role := old.role, rsig := old.rsig
    n := if r.n ≤ old.rank.toNat && (r.atStep = 0 || wordAction r.word ≠ actGrow) then old.n else r.n }
  { x with member := { x.member with
      record := { own with keeper := own.lowest }, proposals := [], accepted := none
      silent := x.member.silent.filter (fun e => e.1 ∈ own.watch own.rank.toNat)
      joinDue := if x.member.joining.isSome then some r.n else x.member.joinDue } }

/-- A rank is declared dead by the EPOCH now in force. -/
def State.memberDeath (s : State) (p : PitchId) (r : Nat) : State :=
  let e := (s.pitch p).member.record.epoch
  (s.modPitch p (fun x => (x.setChan r { x.chan r with deathEpoch := e }).count .memberDeaths)).deadNotice p r e.toNat

/-- The rollback of R433: every step of it, or FAULTED where the checkpoint is refused. -/
def State.rollback (s : State) (p : PitchId) (r : Nat) (ckStep : W64) : State :=
  let s := s.cutStep p
  let s := s.clearCollective p
  match s.restorable p ckStep.toNat with
  | none => s.faultPitch p
  | some (h, ss) =>
    let s := s.restoreCkpt p h ss
    let s := s.modPitch p (fun x =>
      let y := x.count .rollbacks
      { y with
        time := { y.time with step := ckStep - 1, state := .idle, held := none }
        member := { y.member with rollStep := ckStep } })
    ((s.deadNotice p r (s.pitch p).member.record.epoch.toNat).retain p).retainGuard p

/-- The record changes, with what takes effect in the same CCLK (R431): a death cuts the step off before its notice is raised. A rank
that a LEAVE has taken out of the group is in none afterwards (R436). -/
def State.swapRecord (s : State) (p : PitchId) (r : MemberRec) : State :=
  let x := s.pitch p
  let dead := r.vacant.filter (fun v => v ∉ x.member.record.vacant)
  let mine := x.member.joining.isSome && x.rank ∉ r.vacant
  if r.atStep = 0 && wordAction r.word = actLeave && wordSubject r.word = x.rank && x.member.wish.any (fun w => w.action = actLeave) then
    (s.setPitch p { x.restartChannels with member := {} }).retain p
  else
    let s := s.modPitch p (fun x =>
      let x := if mine then { x with member := { x.member with joining := none, joinDue := none } } else x
      x.takeRecord r)
    let s := if dead.isEmpty then s else s.cutForDeath p
    (dead.foldl (fun s v => s.memberDeath p v) s).retain p

/-- A TAKEOVER that leaves no rank vacant rolls a RUNNING member back (R433). -/
def State.followTakeover (s : State) (p : PitchId) (r : MemberRec) (at' : W64) : State :=
  if wordAction r.word = actTakeover && r.vacant.isEmpty && (s.pitch p).mode = .running then s.rollback p (wordSubject r.word) at' else s

/-- Apply a record that is newer than the own one; `at'` is the step its TAKEOVER rolls back to. -/
def State.applyRecord (s : State) (p : PitchId) (r : MemberRec) (at' : W64) : State := (s.swapRecord p r).followTakeover p r at'

/-- The record a commit of a DEAD or TAKEOVER makes of the present one; a capacity change that was pending lapses (R439). -/
def MemberRec.swapTo (m : MemberRec) (swap : W64) : MemberRec :=
  let r := wordSubject swap
  let m := { m with word := swap, epoch := BitVec.ofNat 32 (wordEpoch swap), atStep := 0 }
  if wordAction swap = actDead then { m with vacant := insertBy (fun x y => decide (x ≤ y)) r (m.vacant.filter (· ≠ r)) }
  else if wordAction swap = actTakeover then { m with vacant := m.vacant.filter (· ≠ r) }
  else m

/-- The rank a proposer sends PROPOSE to (R430); `self`: it proposes itself DEAD. -/
def Pitch.candidate (x : Pitch) (self : Bool) : Option Nat :=
  let m := x.member.record
  if m.keeper ≠ x.rank && !x.countedDead m.keeper then some m.keeper
  else m.liveSet.find? (fun r => !x.countedDead r && !(self && r = x.rank))

/-- A capacity change is committed: WORD is swapped at once, and N and EPOCH wait for AT_STEP (R430, R436). -/
def State.holdChange (s : State) (p : PitchId) (swap at' : W64) : State :=
  (s.modPitch p (fun x => { x with member := { x.member with
    record := { x.member.record with word := swap, atStep := at' }, proposals := [], accepted := none, joinDue := none } })).retain p

/-- Step AT_STEP has begun here. -/
def Pitch.lateFor (x : Pitch) (at' : W64) : Bool := at'.toNat ≤ x.time.step.toNat

/-! ## The keeper (R430) -/

/-- The keeper's accepting votes within L. -/
def Pitch.votes (x : Pitch) (q : Proposal) : List (Nat × W64) := q.accepts.filter (fun v => x.member.record.live v.1)

/-- A proposal has the votes it needs. -/
def Pitch.carried (x : Pitch) (q : Proposal) : Bool :=
  let l := x.member.record.liveSet
  if wordAction q.swap = actTakeover then l.all (fun r => (x.votes q).any (fun v => v.1 = r))
  else decide (l.length < 2 * (x.votes q).length)

/-- AT_OR_CK of a commit. -/
def Pitch.commitAt (x : Pitch) (q : Proposal) : W64 :=
  if wordAction q.swap = actTakeover then
    if (x.member.record.swapTo q.swap).vacant.isEmpty then
      BitVec.ofNat 64 ((q.accepts.map (fun v => v.2.toNat)).foldl min q.atOrCk.toNat) else 0
  else q.atOrCk

/-- Ranks a commit is sent to: L without a rank declared dead, the rank that joins, and every spare whose takeover the commit decides
or ends (R430, R439). -/
def Pitch.commitTo (x : Pitch) (q : Proposal) : List Nat :=
  let m := x.member.record
  let l := if wordAction q.swap = actDead then m.liveSet.filter (· ≠ wordSubject q.swap) else m.liveSet
  (l ++ (x.member.proposals.filterMap (·.spare)).filter (fun r => r ∉ l)).eraseDups.filter (· ≠ x.rank)

/-- Commit once the votes are there: the keeper's own record changes and COMMIT goes out; a rollback of its own follows. -/
def State.keeperCommit (s : State) (p : PitchId) : State :=
  let x := s.pitch p
  match x.member.proposals.find? (fun q => x.carried q) with
  | none => s
  | some q =>
    let at' := x.commitAt q
    let r := x.member.record.swapTo q.swap
    let send := fun (s : State) =>
      s.sendBeats p (x.commitTo q) { kind := hbCommit, n := (s.pitch p).memberN, compare := q.compare, swap := q.swap, at' := at' }
    if wordAction q.swap = actGrow || wordAction q.swap = actLeave then send (s.holdChange p q.swap at')
    else (send (s.swapRecord p r)).followTakeover p r at'

/-- This member can accept a swap word: it has accepted no other for the same EPOCH. -/
def Pitch.mayAccept (x : Pitch) (swap : W64) : Bool :=
  match x.member.accepted with
  | some (w, _) => w = swap || wordEpoch w ≠ wordEpoch swap
  | none => true

/-- A proposal may become pending beside those that are: none is, or it declares a rank DEAD while a TAKEOVER, or the LEAVE of that same
rank, is pending (R439). -/
def Pitch.mayPend (x : Pitch) (swap : W64) : Bool :=
  x.member.proposals.all (fun q => wordAction swap = actDead
    && (wordAction q.swap = actTakeover || (wordAction q.swap = actLeave && wordSubject q.swap = wordSubject swap)))

/-- N changes by one rank at a time: a capacity change waits until the one before it has applied (R436). -/
def MemberRec.mayResize (m : MemberRec) (swap : W64) : Bool := m.atStep = 0 || (wordAction swap ≠ actGrow && wordAction swap ≠ actLeave)

/-- A proposal at the keeper (R430, R431). `from'` is the rank to answer; none: the keeper itself proposes. -/
def State.keeperPropose (s : State) (p : PitchId) (from' : Option Nat) (compare swap atOrCk : W64) (spare : Option Nat) : State :=
  let x := s.pitch p
  let m := x.member.record
  let answer := fun (s : State) => match from' with | some r => s.sendRecord p r false | none => s
  if compare ≠ m.word || wordEpoch swap ≠ wordEpoch m.word + 1 then answer s
  else if x.member.proposals.any (fun q => q.swap = swap) then s
  else if !x.mayPend swap || !m.mayResize swap then answer s
  else if wordAction swap = actDead && 64 ≤ m.vacant.length then answer (s.count p .proposalsRefused)
  else
    let own := if x.mayAccept swap then [(x.rank, BitVec.ofNat 64 (s.newestCk p))] else []
    let q : Proposal := ⟨compare, swap, atOrCk, spare, own, 0⟩
    let s := s.setPitch p { x with member := { x.member with
      proposals := x.member.proposals ++ [q]
      accepted := if own.isEmpty then x.member.accepted else some (swap, 0) } }
    let asked := m.liveSet.filter (fun r => r ≠ x.rank && r ≠ wordSubject swap)
    (s.sendBeats p asked { kind := hbPropose, n := m.n, compare := compare, swap := swap, at' := atOrCk }).keeperCommit p

/-- The keeper's own proposal is counted where none is pending (R440). -/
def State.countProposal (s : State) (p : PitchId) : State :=
  if (s.pitch p).member.proposals.isEmpty then s.count p .proposals else s

/-- The pitch proposes (R430): to its candidate, which may be itself. -/
def State.proposeChange (s : State) (p : PitchId) (subject action : Nat) : State :=
  let x := s.pitch p
  let m := x.member.record
  let swap := wordOf (wordEpoch m.word + 1) subject action
  match x.candidate (action = actDead && subject = x.rank) with
  | none => s
  | some k =>
    if k = x.rank then
      (s.countProposal p).keeperPropose p none m.word swap (if action = actLeave then x.time.step + 2 else 0) none
    else (s.count p .proposals).sendBeat p k { kind := hbPropose, n := m.n, compare := m.word, swap := swap }

/-- Propose what this pitch wants for itself, unless it has done so with this WORD to this candidate, or the change is committed and
waits (R436, R439). -/
def State.pursue (s : State) (p : PitchId) : State :=
  let x := s.pitch p
  match x.member.wish with
  | none => s
  | some w =>
    match x.candidate (w.action = actDead) with
    | none => s
    | some k =>
      if x.mode ≠ .running || s.fw.lease.frozen || w.sent = some (x.word, k)
          || (x.member.record.atStep ≠ 0 && wordAction x.word = w.action && wordSubject x.word = w.subject) then s
      else
        (s.setPitch p { x with member := { x.member with wish := some { w with sent := some (x.word, k) } } }).proposeChange p
          w.subject w.action

/-- This pitch wants a change for its own rank. -/
def State.want (s : State) (p : PitchId) (action : Nat) : State :=
  (s.modPitch p (fun x => { x with member := { x.member with wish := some { subject := x.rank, action := action } } })).pursue p

/-- A committed capacity change reaches this member. A rank that asked to grow the group is not counted in N before it applies. A
member that has begun AT_STEP is cut off and proposes itself DEAD (R436). -/
def State.takeChange (s : State) (p : PitchId) (swap at' : W64) : State :=
  let x := s.pitch p
  let m := x.member.record
  let grows : Bool := wordAction swap = actGrow && wordSubject swap = x.rank && x.rank + 1 = m.n
  let s := if grows then s.setPitch p { x with member := { x.member with record := { m with n := m.n - 1 } } } else s
  let s := s.holdChange p swap at'
  if x.lateFor at' then (s.cutForDeath p).want p actDead else s

/-! ## Messages received -/

/-- The swap words a proposer may send: DEAD of a live rank, LEAVE of the last rank. -/
def MemberRec.mayPropose (m : MemberRec) (swap : W64) : Bool :=
  (wordAction swap = actDead && m.live (wordSubject swap)) || (wordAction swap = actLeave && wordSubject swap + 1 = m.n)

/-- PROPOSE (R430): from a higher rank, or from its own subject, it reaches the keeper; else it asks for a vote
(notes/assumptions 43). -/
def State.proposeIn (s : State) (p : PitchId) (src : Nat) (d : Bytes) : State :=
  let x := s.pitch p
  let m := x.member.record
  let compare : W64 := BitVec.ofNat 64 (leAt d 8 8)
  let swap : W64 := BitVec.ofNat 64 (leAt d 16 8)
  if x.rank < src || src = wordSubject swap then
    if m.mayPropose swap then
      s.keeperPropose p (some src) compare swap (if wordAction swap = actLeave then x.time.step + 2 else 0) none
    else s.sendRecord p src false
  else
    let yes := compare = m.word && x.mayAccept swap
    let s := if yes then s.setPitch p { x with member := { x.member with
        accepted := match x.member.accepted with | some (w, a) => if w = swap then some (w, a) else some (swap, 0) | none => some (swap, 0) } }
      else s
    s.sendBeat p src { kind := hbVote, flags := bit yes, n := m.n, compare := compare, swap := swap }

/-- VOTE (R430). -/
def State.voteIn (s : State) (p : PitchId) (src : Nat) (d : Bytes) : State :=
  let x := s.pitch p
  match x.member.proposals.find? (fun q => leAt d 16 8 = q.swap.toNat) with
  | none => s
  | some q =>
    if bitOf (leAt d 1 1) 0 && x.member.record.live src then
      let v := (src, (BitVec.ofNat 64 (leAt d 40 8) : W64))
      let r := { q with accepts := upsert (fun a => a.1 = src) (fun _ => v) v q.accepts }
      (s.setPitch p { x with member := { x.member with proposals := x.member.proposals.map (fun a => if a = q then r else a) } }).keeperCommit p
    else s

/-- COMMIT (R431, R436): one that does not follow from the own WORD makes the pitch ask for the record. A spare follows the commit of its
own takeover where it carries a rollback step; else ranks that it does not know may be vacant, and it asks. -/
def State.commitIn (s : State) (p : PitchId) (src : Nat) (d : Bytes) : State :=
  let x := s.pitch p
  let m := x.member.record
  let swap : W64 := BitVec.ofNat 64 (leAt d 16 8)
  let at' : W64 := BitVec.ofNat 64 (leAt d 24 8)
  let follows : Bool := leAt d 8 8 = m.word.toNat && x.member.joining.isNone
  let mine : Bool := x.member.joining.isSome && wordAction swap = actTakeover && wordSubject swap = x.rank && at' ≠ 0
  let grows : Bool := wordAction swap = actGrow && wordSubject swap = x.rank && x.rank + 1 = m.n
  if wordEpoch swap ≤ wordEpoch m.word then s
  else if wordAction swap = actGrow || wordAction swap = actLeave then
    if follows || grows then s.takeChange p swap at' else s.sendQuery p src
  else if follows || mine then (s.applyRecord p (m.swapTo swap) at').pursue p
  else s.sendQuery p src

/-- JOIN at the keeper (R433, R436). -/
def State.joinIn (s : State) (p : PitchId) (src : Nat) (d : Bytes) : State :=
  let x := s.pitch p
  let m := x.member.record
  let compare : W64 := BitVec.ofNat 64 (leAt d 8 8)
  if wordAction compare = actDead then
    if src ∈ m.vacant && wordEpoch compare = (x.chan src).deathEpoch.toNat then
      (s.countProposal p).keeperPropose p (some src) m.word (wordOf (wordEpoch m.word + 1) src actTakeover)
        (BitVec.ofNat 64 (leAt d 40 8)) (some src)
    else s.sendRecord p src true
  else if src = m.n && leAt d 4 4 = m.n + 1 then
    (s.countProposal p).keeperPropose p (some src) m.word (wordOf (wordEpoch m.word + 1) src actGrow) (x.time.step + 2) (some src)
  else s

/-- QUERY (R434): RECORD, STALE where the querier died after its EPOCH. -/
def State.queryIn (s : State) (p : PitchId) (src epoch : Nat) : State :=
  s.sendRecord p src (decide (epoch < ((s.pitch p).chan src).deathEpoch.toNat))

/-- A rank that asks to grow the group and is not in the record it was answered with sends JOIN again (R439). -/
def Pitch.joinAgain (x : Pitch) (r : MemberRec) : Pitch :=
  if x.member.joining.isNone && r.n = x.rank && x.memberN = x.rank + 1 && x.member.record.atStep = 0 then
    { x with member := { x.member with joinDue := some (x.rank + 1) } }
  else x

/-- RECORD (R434): a record of a higher EPOCH, or one whose WORD has taken a capacity change that waits, is applied; what this pitch
asked for and has not got is proposed again (R439). -/
def State.recordIn (s : State) (p : PitchId) (d : Bytes) : State :=
  let x := s.pitch p
  let r := memberOf (cut d 64 192)
  let asked := x.member.queryAge
  let s := s.setPitch p { x with member := { x.member with queryAge := none } }
  if bitOf (leAt d 1 1) 1 then s.fencePitch p (match asked with | some (_, e) => e | none => r.epoch)
  else
    let s := if x.member.record.epoch.toNat < r.epoch.toNat then s.applyRecord p r (BitVec.ofNat 64 (leAt d 24 8))
      else if r.atStep ≠ 0 && wordEpoch x.word < wordEpoch r.word then s.takeChange p r.word r.atStep
      else s
    (s.modPitch p (fun x => x.joinAgain r)).pursue p

/-- A BEAT that passed its checks counts as liveness. -/
def Pitch.alive (x : Pitch) (src : Nat) : Pitch := { x with member := { x.member with silent := sdel x.member.silent src } }

/-- BEAT (R428): of equal or higher EPOCH, or under PREVIOUS. -/
def State.beatIn (s : State) (p : PitchId) (f : Frame) (d : Bytes) : State :=
  let x := s.pitch p
  if leAt d 48 16 ≠ x.rsig.toNat || leAt d 4 4 ≠ x.memberN then s.count p .hbMismatch
  else
    let s := s.setPitch p (x.alive f.src)
    if x.member.record.epoch.toNat < f.epoch then s.sendQuery p f.src else s

/-- Checks of a HEARTBEAT of any EPOCH: header, CRC-32C and key (11 R258; 12 R290). A pitch that asks to grow the group sends
JOIN from the rank after the last one. Answers the payload and whether it opened under PREVIOUS. -/
def State.screenBeat (s : State) (p : PitchId) (f : Frame) : State × Option (Bytes × Bool) :=
  let x := s.pitch p
  if x.mode = .fenced || x.mode = .faulted then (s, none)
  else if f.group ≠ x.member.record.group.toNat || f.dst ≠ x.rank || x.size < f.src then (s.count p .misdirected, none)
  else if !f.crcOk then (s.count p .crcDrops, none)
  else match x.tryKeys f f.epoch with
    | .current d => if f.src = x.size && leAt d 0 1 ≠ hbJoin then (s.count p .misdirected, none) else (s, some (d, false))
    | .pending => (s.count p .keyAhead, none)
    | .previous d => (s, some (d, true))
    | .none => (s.authFail p, none)

/-- A received HEARTBEAT of one KIND. -/
def State.heartbeat (s : State) (rx : Rx) (kind : Nat) (act : PitchId → Frame → Bytes → Bool → State → State) : State :=
  match s.parse rx with
  | .frame p f =>
    if f.kind ≠ .heartbeat then s
    else match s.screenBeat p f with
      | (s', none) => s'
      | (s', some (d, old)) => if leAt d 0 1 = kind then act p f d old s' else s
  | _ => s

/-- What a HEARTBEAT other than BEAT does. -/
def State.message (s : State) (p : PitchId) (src epoch : Nat) (d : Bytes) : State :=
  match leAt d 0 1 with
  | 1 => s.proposeIn p src d
  | 2 => s.voteIn p src d
  | 3 => s.commitIn p src d
  | 4 => s.joinIn p src d
  | 5 => s.queryIn p src epoch
  | 6 => s.recordIn p d
  | _ => s

/-- A HEARTBEAT other than BEAT acts only under CURRENT (12 R290). During a handover it waits for the new image (21 R453). -/
def State.heartbeatNow (s : State) (rx : Rx) (kind : Nat) : State :=
  s.heartbeat rx kind (fun p f d old s =>
    if old then s
    else if s.fw.lease.frozen then { s with fw := { s.fw with messages := s.fw.messages ++ [(p, f.src, f.epoch, d)] } }
    else s.message p f.src f.epoch d)

/-- Messages that waited are handled in the order they came. -/
def State.handleMessages (s : State) : State :=
  let ms := s.fw.messages
  ms.foldl (fun s m => s.message m.1 m.2.1 m.2.2.1 m.2.2.2) { s with fw := { s.fw with messages := [] } }

/-- BEAT (R428); one of a lower EPOCH is handled as a stale frame (11 R274). -/
def execBeat (rx : Rx) (s : State) : Result :=
  live s (fun s => s.heartbeat rx hbBeat (fun p f d _ s =>
    if f.epoch < (s.pitch p).member.record.epoch.toNat then s.staleFrame p f rx.port else s.beatIn p f d))
/-- PROPOSE (R430). -/
def execPropose (rx : Rx) (s : State) : Result := live s (fun s => s.heartbeatNow rx hbPropose)
/-- VOTE (R430). -/
def execVote (rx : Rx) (s : State) : Result := live s (fun s => s.heartbeatNow rx hbVote)
/-- COMMIT (R431). -/
def execCommit (rx : Rx) (s : State) : Result := live s (fun s => s.heartbeatNow rx hbCommit)
/-- JOIN (R433). -/
def execJoin (rx : Rx) (s : State) : Result := live s (fun s => s.heartbeatNow rx hbJoin)
/-- QUERY (R434). -/
def execQuery (rx : Rx) (s : State) : Result := live s (fun s => s.heartbeatNow rx hbQuery)
/-- RECORD (R434). -/
def execRecord (rx : Rx) (s : State) : Result := live s (fun s => s.heartbeatNow rx hbRecord)

/-- A received FENCE (R434): a higher CUR_EPOCH makes the pitch ask its sender for the record. In the CCLK in which pitch.start takes
effect it fences the pitch (19 R409). -/
def State.fenceIn (s : State) (p : PitchId) (src : Nat) (d : Bytes) : State :=
  let x := s.pitch p
  let e := leAt d 0 4
  if x.member.record.epoch.toNat < e then
    let s := (s.setPitch p { x with member := { x.member with
      fenceAt := some (s.cclk, BitVec.ofNat 32 e)
      queryAge := match x.member.queryAge with | some a => some a | none => some (0, BitVec.ofNat 32 e) } }).sendQuery p src
    if x.mode = .running && x.startedAt = some s.cclk then s.fencePitch p (BitVec.ofNat 32 e) else s
  else s

/-- FENCE (R434): of any EPOCH, sealed under the key of the EPOCH that it fences, the receiver's own (11 R274). -/
def execFence (rx : Rx) (s : State) : Result :=
  live s (fun s => match s.parse rx with
    | .frame p f =>
      let x := s.pitch p
      if f.kind ≠ .fence || !x.answering then s
      else if !x.headerOk f then s.count p .misdirected
      else if !f.crcOk then s.count p .crcDrops
      else match x.tryKeys f x.member.record.epoch.toNat with
        | .current d => s.fenceIn p f.src d
        | .pending => s.count p .keyAhead
        | .previous _ => s
        | .none => s.authFail p
    | _ => s)

/-! ## Timeouts and epoch work (R428 to R430, R433, R434) -/

/-- DEATH_RULE (R429): a rank of the watch set counted dead is proposed DEAD, after a handover in progress (21 R454). -/
def State.deathRule (s : State) (p : PitchId) (r : Nat) : State :=
  let x := s.pitch p
  if x.mode = .running && x.countedDead r && decide (r ∈ x.member.record.watch x.rank) && !s.fw.lease.frozen then s.proposeChange p r actDead else s

/-- DEATH_RULE (R429). -/
def execDeathRule (p : PitchId) (r : W16) (s : State) : Result := live s (fun s => s.deathRule p r.toNat)

/-- A proposal or an accepted vote of 256 epochs ends (R430). -/
def State.proposalTimeout (s : State) (p : PitchId) : State :=
  let old := (s.pitch p).member.proposals.filter (fun q => 256 ≤ q.age)
  let s := if old.isEmpty then s else (s.count p .proposalsAbandoned old.length).modPitch p (fun x =>
    { x with member := { x.member with proposals := x.member.proposals.filter (fun q => q.age < 256) } })
  match (s.pitch p).member.accepted with
  | some (_, age) => if 256 ≤ age then s.modPitch p (fun x => { x with member := { x.member with accepted := none } }) else s
  | none => s

/-- PROPOSAL_TIMEOUT (R430). -/
def execProposalTimeout (p : PitchId) (s : State) : Result :=
  live s (fun s => if s.fw.lease.frozen then s else s.proposalTimeout p)

/-- FENCE_QUERY_TIMEOUT (R434). -/
def execFenceQueryTimeout (p : PitchId) (s : State) : Result :=
  live s (fun s => match (s.pitch p).member.queryAge with
    | some (age, e) => if 64 ≤ age && !s.fw.lease.frozen then s.fencePitch p e else s
    | none => s)

/-- Ages and counts of one management epoch. -/
def Pitch.memberEpoch (x : Pitch) : Pitch :=
  let m := x.member
  let watch := if x.mode = .running && m.record.role = 1 then m.record.watch x.rank else []
  { x with member := { m with
      silent := if x.mode = .running then watch.foldl (fun c r => sset c r (sget c r 0 + 1) 0) m.silent else m.silent
      proposals := m.proposals.map (fun q => { q with age := q.age + 1 })
      accepted := m.accepted.map (fun a => (a.1, a.2 + 1))
      queryAge := m.queryAge.map (fun a => (a.1 + 1, a.2)) } }

/-- BEATs, a proposal whose candidate or WORD has changed, and a JOIN that is due, at a management-epoch boundary (R428, R433, R436,
R439). -/
def State.memberBeats (s : State) (p : PitchId) : State :=
  let x := s.pitch p
  let m := x.member.record
  if x.mode ≠ .running || m.role ≠ 1 then s
  else
    let s := (s.sendBeats p (m.watch x.rank) { kind := hbBeat, n := m.n, compare := m.word }).pursue p
    match x.member.joinDue with
    | none => s
    | some n =>
      if s.fw.lease.frozen then s else
      let word := match x.member.joining with | some e => wordOf e.toNat x.rank actDead | none => m.word
      let dest := if x.member.joining.isSome then m.keeper else 0
      let s := s.modPitch p (fun x => { x with member := { x.member with joinDue := none } })
      s.sendBeat p dest { kind := hbJoin, n := n, compare := word }

/-! ## group.join, group.spare, group.leave (R426, R432, R436; 18 R395) -/

/-- A physical port the port map uses holds no transmit slot of the pitch. -/
def Pitch.portLacking (x : Pitch) : Bool := x.tx.portMap.toList.any (fun n => decide (x.plan.toList.getD (resPort n.val) 0 = 0#64))

/-- A checkpoint slot that holds STATE 2 with this rank. -/
def State.ckptOf (s : State) (p : PitchId) (rank : Nat) : Bool :=
  let x := s.pitch p
  x.ckptBase p ≠ 0 && [0, 1].any (fun k => s.slotComplete (x.ckptSlot p k) && s.readLe (x.ckptSlot p k + 6) 2 = rank)

/-- Causes of E_MEMBER of group.join, by DETAIL. A pitch that was FENCED or FAULTED joins only through group.spare (19 R408), a cause
for which R426 names no DETAIL: 0. -/
def State.joinCheck (s : State) (p : PitchId) (c : Cmd) : Check :=
  let x := s.pitch p
  let m := x.member.record
  let n := c.arg 36 4
  firstOf [need (1 ≤ n && n ≤ 65536) eRange 0,
    need (c.arg 44 16 = x.rsig.toNat) eMember 1,
    need (c.arg 34 2 < n && x.cfg p 8 ≤ n) eMember 2,
    need (m.role = 0 || (m.role = 2 && m.group.toNat = c.arg 32 2)) eMember 3,
    need (m.role = 2 || !x.member.spareOnly) eMember 0,
    need (2048 * n ≤ partOf (x.cfg p 0xB) 8 8) eMember 4,
    need (m.role ≠ 2 || s.ckptOf p (c.arg 34 2)) eMember 6,
    need (n = 1 || !x.portLacking) eMember 7]

def joinSpec : CmdSpec := { op := 0x40, used := [(32, 28)], legal := inStates stableStates }

/-- group.join: it forms a membership, or prepares a takeover. -/
def joinBody (p : PitchId) (c : Cmd) (_ : HostPort) (_ : Bytes) (s : State) : Act :=
  match s.joinCheck p c with
  | some r => .no s r
  | none =>
    let x := s.pitch p
    let n := c.arg 36 4
    let rank := c.arg 34 2
    let e : W32 := BitVec.ofNat 32 (c.arg 40 4)
    let base : MemberRec := { group := BitVec.ofNat 16 (c.arg 32 2), rank := BitVec.ofNat 16 rank, n := n, epoch := e, role := 1
                              rsig := BitVec.ofNat 128 (c.arg 44 16) }
    if x.member.record.role = 2 then
      let m := { base with word := wordOf e.toNat 0 0, vacant := [rank] }
      let y := x.restartChannels
      .ok ((s.setPitch p { y with
        member := { record := { m with keeper := m.lowest }, joinDue := some n, joining := some e }
        time := { y.time with state := .draining } }).retain p)
    else
      let m := { base with word := wordOf e.toNat 0 0 }
      .ok ((s.setPitch p { x.restartChannels with member := { record := m, joinDue := if 2 ≤ n && rank + 1 = n then some n else none } }).retain p)

/-- GROUP_JOIN (R426). -/
def execGroupJoin (p : PitchId) (s : State) : Result := live s (fun s => s.command p joinSpec (joinBody p))

def spareSpec : CmdSpec := { op := 0x42, used := [(32, 2), (44, 16)], legal := inStates stableStates }

/-- group.spare (R426). -/
def spareBody (p : PitchId) (c : Cmd) (_ : HostPort) (_ : Bytes) (s : State) : Act :=
  let x := s.pitch p
  let m := x.member.record
  let group : W16 := BitVec.ofNat 16 (c.arg 32 2)
  match firstOf [need (c.arg 44 16 = x.rsig.toNat) eMember 1, need (m.role = 0 || (m.role = 2 && m.group = group)) eMember 3] with
  | some r => .no s r
  | none => .ok ((s.setPitch p { x with member := { record := { group := group, rank := 0xFFFF, role := 2, rsig := x.rsig } } }).retain p)

/-- GROUP_SPARE (R426). -/
def execGroupSpare (p : PitchId) (s : State) : Result := live s (fun s => s.command p spareSpec (spareBody p))

/-- The leave itself (R436): a RUNNING member of a larger group proposes it; any other pitch is in no group afterwards. -/
def State.leaveGroup (s : State) (p : PitchId) : State :=
  let x := s.pitch p
  if x.mode = .running && 1 < x.memberN then s.want p actLeave
  else (s.setPitch p { x.restartChannels with member := {} }).retain p

def leaveSpec : CmdSpec := { op := 0x41, legal := inStates [.configured, .running, .stopped] }

/-- group.leave (18 R395). -/
def leaveBody (p : PitchId) (_ : Cmd) (_ : HostPort) (_ : Bytes) (s : State) : Act :=
  let x := s.pitch p
  let m := x.member.record
  if m.role ≠ 1 || m.rank.toNat + 1 ≠ m.n then .no s ⟨eMember, 5⟩
  else if x.mode = .running && x.time.state ≠ .idle then .owe s .leave
  else .ok (s.leaveGroup p)

/-- GROUP_LEAVE (18 R395). -/
def execGroupLeave (p : PitchId) (s : State) : Result := live s (fun s => s.command p leaveSpec (leaveBody p))

end Sys2Proof.Machine
end

