-- ==== Sys2Proof/Machine/Complete.lean ====
section
/-! DEFINITION. The completion of a step (03 R66): the loss scale and the guard registers (14 R308, R313), the layers'
statistics (R310, R311), NDC of the step (16 R344), ntc.step.done, and what waits for the step boundary (03 R56; 18 R392,
R395). -/

namespace Sys2Proof.Machine

/-- Every condition of R66 holds. A step does not complete while a rank is vacant (20 R431). -/
def Pitch.mayComplete (x : Pitch) : Bool :=
  x.stepOver && x.member.record.vacant.isEmpty && (!x.time.ckptArmed || x.time.ckptDone)
    && x.time.exports.all (fun k => k ∈ x.time.exportsDone || k ∈ x.time.exportsFailed)

/-- The loss scale of the next step (R308). -/
def State.settleLossScale (s : State) (p : PitchId) : State :=
  let x := s.pitch p
  let (ls, clean, ctr) := x.lossScaleNext p
  let y := match ctr with | some c => x.count c | none => x
  (s.setPitch p { y with guard := { y.guard with lsExp := ls, clean := clean } }).lossScaleNotice p x.guard.lsExp

/-- LAST_VERDICT, CLIPPED and LAST_NORM (R305, R312, R314); a skipped step is counted (R317). -/
def Pitch.settleGuard (x : Pitch) : Pitch :=
  let v := x.guard.verdict.getD 0
  let y := if v = 0 then x else x.count .stepsSkipped
  { y with guard := { y.guard with
      lastVerdict := v
      clipped := lt32 x.guard.cf 0x3F800000
      lastNorm := match x.guard.norm with
        | some sg => normValue sg x.normDivisor
        | none => x.guard.lastNorm } }

/-- The statistics record of layer k from the four norms read (R310). -/
def Pitch.layerRecord (x : Pitch) (k : Nat) (norms : List W640) : Bytes :=
  leBytes 8 (sget x.guard.layerNf k 0) ++ leBytes 8 x.time.step.toNat ++ leBytes 1 (x.guard.verdict.getD 0) ++ List.replicate 7 0
    ++ norms.flatMap ergBytes ++ List.replicate 40 0

/-- Read the enabled registers of a layer with READ_CLEAR; its record is written where LAYER_STAT_BASE is not 0 (R310). -/
def State.settleLayer (s : State) (p : PitchId) (k : Nat) (l : LayerRec) : State :=
  let x := s.pitch p
  let reg := fun (b : Nat) => (l.normErg b).map (fun r => x.erg p r)
  let norms := (List.range 4).map (fun b => match reg b with
    | some g => s.ergGet g
    | none => 0)
  let s := (List.range 4).foldl (fun s b => match reg b with
    | some g => s.ergClear g 1
    | none => s) s
  if x.cfg p 0x111 = 0 then s else s.write (x.cfg p 0x111 + 384 * k) (x.layerRecord k norms)

/-- The statistics of every layer, and the count of non-finite values (R310, R311). -/
def State.settleLayers (s : State) (p : PitchId) : State :=
  let x := s.pitch p
  let s := x.layers.zipIdx.foldl (fun s e => s.settleLayer p e.2 e.1) s
  let total := sumOf (x.guard.layerNf.map Prod.snd)
  match x.guard.layerNf.head? with
  | some (k, _) => (s.count p .nonfiniteElems total).notice p ntcNonfinite (leBytes 4 k ++ leBytes 8 total ++ leBytes 1 0)
  | none => s

/-- An exchange of the step in which nothing more can arrive or complete. -/
def Exchange.over (e : Exchange) : Bool := e.own.isSome && e.complete && e.returned.length = e.kept && e.combines.isEmpty

/-- Collective state whose use in the step has ended is reset; it accepts frames of the next step, whatever its STEP (10 R248). -/
def Pitch.endCollectives (x : Pitch) : Pitch :=
  { x with
    agrees := x.agrees.filter (fun a => a.own.isNone)
    exchanges := x.exchanges.filter (fun e => !e.over)
    gbars := x.gbars.filter (fun b => !b.fired) }

/-- NDC_BITS_STEP and NDC_TIME_STEP take the step's increments as STEP_STATE becomes IDLE (16 R344). -/
def Pitch.settleStep (x : Pitch) : Pitch :=
  let inc := fun (now old : W64) => BitVec.ofNat 32 (min (now - old).toNat 0xFFFFFFFF)
  { x with time := { x.time with
      ndcBitsStep := inc (x.counter .ndcBits) x.time.ndcBits0
      ndcTimeStep := inc (x.counter .ndcTime) x.time.ndcTime0
      state := .idle
      boundary := true } }

/-- ntc.step.done (18 R399); its STEP_STATE is that of the same CCLK, IDLE (notes/assumptions 44). -/
def State.stepDoneNotice (s : State) (p : PitchId) : State :=
  let x := s.pitch p
  s.notice p ntcStepDone (leBytes 1 x.guard.lastVerdict ++ leBytes 1 (toTwos 8 x.guard.lsExp)
    ++ leBytes 1 (bit x.time.ckptDone + 2 * bit (!x.time.exportsDone.isEmpty)) ++ [0]
    ++ leBytes 4 x.time.ndcBitsStep.toNat ++ leBytes 4 x.time.ndcTimeStep.toNat)

/-- An owed group.leave is carried out at the step boundary and answered (18 R395). -/
def State.leaveAtBoundary (s : State) (p : PitchId) : State :=
  if (s.pitch p).mail.owed.any (fun o => o.why = .leave) then (s.leaveGroup p).answerOwed p .leave ⟨stOk, 0⟩ [] else s

/-- What waited for the step boundary: a pending drain stops the pitch and discards a held STEP_SET (18 R392); else a held
STEP_SET applies in the next cycle (03 R56). -/
def State.afterStep (s : State) (p : PitchId) (held : Option W64) : State :=
  if (s.pitch p).time.drainPending then
    (s.modPitch p (fun x => if held.isSome then x.dropTime 2 else x)).stopNow p
  else match held with
    | some v => (s.advanceTo (s.cclk + 1)).beginStep p v
    | none => s

/-- The step completes (R66). -/
def State.stepCompleteOp (s : State) (p : PitchId) : State :=
  -- a step that turned out skipped closes its open lock-step window here (16 R351)
  let s := s.lsLast p
  if !(s.pitch p).mayComplete then s
  else
    let held := (s.pitch p).time.held
    let s := (s.settleLayers p).settleLossScale p
    let s := s.modPitch p (fun x => x.settleGuard.settleStep.endCollectives)
    let s := (s.stepDoneNotice p).modPitch p (fun x => { x with time := { x.time with held := none } })
    let s := (((s.leaveAtBoundary p).retain p).retainGuard p).drowseEntry p
    s.afterStep p held

/-- STEP_COMPLETE (R66). -/
def execStepComplete (p : PitchId) (s : State) : Result := live s (fun s => s.stepCompleteOp p)

end Sys2Proof.Machine
end

