-- ==== Sys2Proof/Machine/Lease.lean ====
section
/-! DEFINITION. The scheduler lease (21 R455 to R457), writes to schedule registers (R456), and halts and restarts of firmware
cores (21 R442; 23 R488). -/

namespace Sys2Proof.Machine

/-! ## The lease (R455) -/

/-- HOLDER as the LEASE record codes it (23 R491). -/
def holderCode : Option SchCore → Nat
  | none => 0
  | some .a => 1
  | some .b => 2

/-- HOLDER and TERM change; a change of HOLDER is recorded. -/
def State.setHolder (s : State) (h : Option SchCore) (term : W32) : State :=
  let old := s.fw.lease.holder
  let s := { s with fw := { s.fw with lease := { s.fw.lease with holder := h, term := term, renewAge := 0 } } }
  if h = old then s else s.logEvent logLease (leBytes 4 term.toNat ++ leBytes 1 (holderCode old) ++ leBytes 1 (holderCode h))

/-- ACQUIRE succeeds only while HOLDER is none, and not while FROZEN. -/
def State.acquire (s : State) (c : SchCore) : State :=
  if s.fw.lease.holder.isNone && !s.fw.lease.frozen then s.setHolder (some c) (s.fw.lease.term + 1) else s

/-- ACQUIRE (R455). -/
def execAcquire (c : SchCore) (s : State) : Result := live s (fun s => if s.coreRuns (.sch c) then s.acquire c else s)

/-- The request comes from HOLDER, whose core runs, and carries the current TERM. -/
def State.holds (s : State) (c : SchCore) (term : W32) : Bool :=
  s.coreRuns (.sch c) && s.fw.lease.holder = some c && s.fw.lease.term = term

/-- RENEW (R455). -/
def execRenew (c : SchCore) (term : W32) (s : State) : Result :=
  live s (fun s => if s.holds c term then { s with fw := { s.fw with lease := { s.fw.lease with renewAge := 0 } } } else s)

/-- LEASE_RELEASE (R455). -/
def execLeaseRelease (c : SchCore) (term : W32) (s : State) : Result :=
  live s (fun s => if s.holds c term then s.setHolder none term else s)

/-- Expiry at the fourth epoch boundary without an accepted renewal, put off while FROZEN. -/
def State.leaseExpiry (s : State) : State :=
  if s.leased && 4 ≤ s.fw.lease.renewAge && !s.fw.lease.frozen then s.setHolder none s.fw.lease.term else s

/-- LEASE_EXPIRY (R455). -/
def execLeaseExpiry (s : State) : Result := live s (fun s => s.leaseExpiry)

/-! ## Schedule registers (R456) -/

/-- PITCH_STATE.STATE from its code. -/
def modeOfCode (c : Nat) : PitchMode :=
  match c with
  | 0 => .unbound
  | 1 => .bound
  | 2 => .configured
  | 3 => .running
  | 4 => .stopping
  | 5 => .stopped
  | 6 => .fenced
  | _ => .faulted

/-- Own slot k of resource r, or not. -/
def Pitch.setSlot (x : Pitch) (r : Fin 32) (k : Fin 64) (own : Bool) : Pitch :=
  let b : W64 := 1#64 <<< k.val
  { x with plan := x.plan.set r (if own then x.plan[r] ||| b else x.plan[r] &&& ~~~b) }

/-- What an accepted write does. Slot 0 is the engine's and has no owner to write (01 R24, R25); the write of a table entry
names an entry of the table or the one after its last. -/
def State.schedule (s : State) (w : SchedWrite) : State :=
  match w with
  | .campSlot r k owner => if k.val = 0 then s else s.forPitches (fun p s => s.modPitch p (fun x => x.setSlot r k (owner = some p)))
  | .pegEntry p i e =>
    let g := pegOf (leBytes 16 e.toNat)
    s.modPitch p (fun x => { x with pegs := if i = x.pegs.length then x.pegs ++ [g] else setAt x.pegs i g })
  | .windowBudget p i n v =>
    s.modPitch p (fun x =>
      let row := x.budgets.getD i (List.replicate 16 0)
      let row := setAt row n.val v.toNat
      { x with budgets := if i = x.budgets.length then x.budgets ++ [row] else setAt x.budgets i row })
  | .pitchState p c => s.modPitch p (fun x => { x with mode := modeOfCode c.val })
  | .portMap p lp n => (s.modPitch p (fun x => { x with tx := { x.tx with portMap := x.tx.portMap.set lp n } })).retimeOne p
  | .sliceMap c k t =>
    let cl := s.clusters[c]
    (s.setCluster c { cl with
      map := setAt cl.map k.val (some t.val)
      spare := if cl.spare = some t.val then none else cl.spare }).retime

/-- Firmware may write the table now: one of a pitch while that pitch is not RUNNING or STOPPING; the port map and the slice
mapping at any time, for a repair (01 R15; R456). A running pitch's state register takes STOPPING only. -/
def State.scheduleOpen (s : State) (w : SchedWrite) : Bool :=
  let still := fun (p : PitchId) => (s.pitch p).mode ≠ .running && (s.pitch p).mode ≠ .stopping
  match w with
  | .campSlot r k _ => allPitches.all (fun p => still p || !((s.pitch p).plan[r]).getLsbD k.val)
      && (match w with | .campSlot _ _ (some p) => still p | _ => true)
  | .pegEntry p _ _ | .windowBudget p _ _ _ => still p
  | .pitchState p c => still p || modeOfCode c.val = .stopping
  | .portMap _ _ _ | .sliceMap _ _ _ => true

/-- SCHEDULE_WRITE (R456): only from HOLDER with TERM equal to its own, and of a table that firmware may write now. -/
def execScheduleWrite (c : SchCore) (term : W32) (w : SchedWrite) (s : State) : Result :=
  live s (fun s => if s.holds c term && s.scheduleOpen w then s.schedule w else s)

/-! ## Liveness and takeover of rings (R457) -/

/-- Epochs for which the peer of core c has shown no change of its liveness word. -/
def State.peerStill (s : State) (c : SchCore) : Nat :=
  match c with
  | .a => s.fw.stillB
  | .b => s.fw.stillA

/-- Core c serves the rings of its peer's half. -/
def State.takeRings (s : State) (c : SchCore) : State :=
  match c with
  | .a => { s with fw := { s.fw with takenEast := true } }
  | .b => { s with fw := { s.fw with takenWest := true } }

/-- SCHEDULER_TAKEOVER (R457): the peer's liveness word has stood for 4 epochs; the core takes its rings, and the lease where
HOLDER is none. -/
def execSchedulerTakeover (c : SchCore) (s : State) : Result :=
  live s (fun s => if s.coreRuns (.sch c) && decide (4 ≤ s.peerStill c) then (s.takeRings c).acquire c else s)

/-- The liveness words at an epoch boundary: a running core advances its own; after 4 epochs seen again it reads its own rings
again. -/
def State.livenessEpoch (s : State) : State :=
  let a := s.coreRuns (.sch .a)
  let b := s.coreRuns (.sch .b)
  let movedA := if a then min 4 (s.fw.movedA + 1) else 0
  let movedB := if b then min 4 (s.fw.movedB + 1) else 0
  { s with fw := { s.fw with
      stillA := if a then 0 else s.fw.stillA + 1
      stillB := if b then 0 else s.fw.stillB + 1
      movedA := movedA
      movedB := movedB
      takenWest := s.fw.takenWest && decide (movedA < 4)
      takenEast := s.fw.takenEast && decide (movedB < 4) } }

/-! ## Halts and restarts (21 R442; 23 R488) -/

/-- Number of a core in the CORE record, in the order of R441 (notes/assumptions 46). -/
def coreNumber : FwCore → Nat
  | .sec => 0
  | .pwr => 1
  | .sch .a => 2
  | .sch .b => 3
  | .cc c => 4 + c.val

/-- An uncorrectable word of a core's private SRAM. SEC and PWR take it from their second copy (R488), which counts as a
corrected word of a firmware memory (notes/assumptions 46); any other core halts. -/
def State.coreHalt (s : State) (c : FwCore) (word : Nat) : State :=
  let h := s.health
  if c = .sec || c = .pwr then
    { s with health := { h with eccFw := h.eccFw + 1, hour := { h.hour with corrected := h.hour.corrected + 1 } } }
  else if s.fw.halted.any (fun e => e.1 = c) then s
  else { s with
    fw := { s.fw with halted := s.fw.halted ++ [(c, word)] }
    health := { h with eccBad := h.eccBad + 1, hour := { h.hour with uncorrectable := h.hour.uncorrectable + 1 } } }

/-- CORE_HALT (21 R442). -/
def execCoreHalt (c : FwCore) (word : Nat) (s : State) : Result := live s (fun s => s.coreHalt c word)

/-- SEC reloads and restarts a halted core, and the event is logged; a restarted scheduler core holds no lease. A command
that it had not begun stands at the head of its ring; one that waits for an event is answered as the event comes, by the core
that then serves the ring (R488; notes/assumptions 47). -/
def State.coreRestart (s : State) (c : FwCore) : State :=
  match s.fw.halted.find? (fun e => e.1 = c) with
  | none => s
  | some (_, word) =>
    let s := { s with fw := { s.fw with halted := s.fw.halted.filter (fun e => e.1 ≠ c) } }
    let s := s.logEvent logCore (leBytes 1 (coreNumber c) ++ leBytes 4 word ++ leBytes 1 0)
    match s.fw.lease.holder with
    | some h => if c = .sch h then s.setHolder none s.fw.lease.term else s
    | none => s

/-- CORE_RESTART (23 R488). -/
def execCoreRestart (c : FwCore) (s : State) : Result := live s (fun s => s.coreRestart c)

end Sys2Proof.Machine
end

