-- ==== Sys2Proof/Machine/Ports.lean ====
section
/-! DEFINITION. Lanes, links and the port map (12 R280 to R282), and the PTP time base and its servo (R292, R293). -/

namespace Sys2Proof.Machine

/-! ## Failed ports and the port map (R281, R282) -/

/-- The servo moves to the next in-service port when the one it follows fails (R292). -/
def State.moveServo (s : State) (n : NetPort) : State :=
  if s.ptp.servo ≠ n then s
  else
    let order : List NetPort := (List.finRange 17).map (fun (d : Fin 17) => n + 1 + d)
    match order.find? (fun k => s.netPorts[k].inService && !s.netPorts[k].failed) with
    | some k => { s with ptp := { s.ptp with servo := k } }
    | none => s

/-- Port n has failed: it leaves service until the next power-on reset. -/
def State.failPort (s : State) (n : NetPort) : State :=
  ((s.modPort n (fun q => { q with failed := true, inService := false, link := .down })).moveServo n).restGroups

/-- EP16 is in service and carries no logical port. -/
def State.spareFree (s : State) : Bool :=
  let q := s.netPorts[(16 : NetPort)]
  q.inService && !q.failed && q.standsFor.isNone
    && allPitches.all (fun p => (s.pitch p).tx.portMap.toList.all (fun m => m ≠ 16))

/-- Physical ports 0 to 15 in order after port n, wrapping from 15 to 0. -/
def portsAfter (n : Nat) : List NetPort :=
  let first := if n = 16 then 0 else n + 1
  (List.range 16).map (fun d => Fin.ofNat 17 ((first + d) % 16))

/-- The port that takes a logical port of pitch p from failed port n (R282 step 2). -/
def State.otherPort (s : State) (p : PitchId) (n : NetPort) : Option NetPort :=
  let x := s.pitch p
  let size := x.frameSize p 4096
  (portsAfter n.val).find? (fun k =>
    s.netPorts[k].inService && !s.netPorts[k].failed && k ≠ n && x.slots (resPort k.val) ≠ 0#64
      && s.wireCclk k size ≤ slotLen * longestRun (x.slots (resPort k.val)))

/-- Every logical port of pitch p on port n moves to port k. -/
def Pitch.moveLps (x : Pitch) (n k : NetPort) : Pitch :=
  { x with tx := { x.tx with portMap := x.tx.portMap.map (fun m => if m = n then k else m) } }

/-- The logical ports of pitch p leave port n: to EP16 where it stands in for n, else to another port, else the pitch is
FAULTED (R282). -/
def State.remapPitch (s : State) (p : PitchId) (n : NetPort) : State :=
  let x := s.pitch p
  if x.tx.portMap.toList.all (fun m => m ≠ n) then s
  else if s.netPorts[(16 : NetPort)].standsFor = some n then s.setPitch p (x.moveLps n 16)
  else match s.otherPort p n with
    | some k => s.setPitch p (x.moveLps n k)
    | none => s.repairFault p

/-- The repair of a failed port at the next plan-period boundary (R282). -/
def State.portRemap (s : State) (n : NetPort) : State :=
  let q := s.netPorts[n]
  if !q.failed || q.replaced || !s.mayRepair then s
  else
    let s := s.advanceTo s.planBoundary
    let s := s.modPort n (fun q => { q with replaced := true, standsFor := none })
    let cell := 72 + n.val
    if n ≠ 16 && s.spareFree then
      let s := s.modPort 16 (fun q => { q with standsFor := some n })
      let s := (s.forPitches (fun p s => s.remapPitch p n)).takeSpare 6
      (((s.holdRepair 6 cell 0).repairDone cell 6 actSoft 0 0).repairAll 88 6 actSoft).retime
    else
      let unused := allPitches.all (fun p => (s.pitch p).tx.portMap.toList.all (fun m => m ≠ n))
      let s := s.forPitches (fun p s => s.remapPitch p n)
      (s.repairDone cell 6 (if n = 16 && unused then actRetired else actWithdrawn) 0 0).retime

/-- PORT_REMAP (R282). -/
def execPortRemap (n : NetPort) (s : State) : Result := live s (fun s => s.portRemap n)

/-! ## Lanes (R280, R281) -/

/-- Failed lanes of one direction, and the lane that lane 8 stands in for. -/
def NetPortSt.failedOf (q : NetPortSt) (tx : Bool) : List (Fin 9) := if tx then q.failedTx else q.failedRx
def NetPortSt.sparedOf (q : NetPortSt) (tx : Bool) : Option (Fin 9) := if tx then q.sparedTx else q.sparedRx

/-- Lane j belongs to a lane group: false lanes 0 to 3, true lanes 4 to 7. -/
def inGroup (g : Bool) (j : Fin 9) : Bool := j.val / 4 = bit g
/-- A group that holds no failed lane. -/
def NetPortSt.groupOk (q : NetPortSt) (g : Bool) : Bool := (q.failedTx ++ q.failedRx).all (fun j => !inGroup g j)

/-- Lane j is marked failed. -/
def NetPortSt.markLane (q : NetPortSt) (j : Fin 9) (tx : Bool) : NetPortSt :=
  if tx then { q with failedTx := addNew j q.failedTx } else { q with failedRx := addNew j q.failedRx }

/-- Symbol errors of a lane in one epoch: above 2^20 the lane has failed (R280). -/
def NetPortSt.countSymbols (q : NetPortSt) (j : Fin 9) (tx : Bool) (n : Nat) : NetPortSt :=
  let q := { q with symbols := sset q.symbols (2 * j.val + bit tx) n 0 }
  if 2 ^ 20 < n then q.markLane j tx else q

/-- A failed lane that nothing uses: it is spared already, it is lane 8 at rest, or it lies outside the group in use. -/
def NetPortSt.laneIdle (q : NetPortSt) (j : Fin 9) (tx : Bool) : Bool :=
  match q.laneGroup with
  | some g => !inGroup g j
  | none => q.sparedOf tx = some j || (j = 8 && (q.sparedOf tx).isNone)

/-- Fall back to 400G on the lane group that holds no failed lane. Without one the repair ends as EXHAUSTED (23 R486) and the port has
failed, whose logical ports R282 then moves (R281; notes/assumptions 39). -/
def State.portFallback (s : State) (n : NetPort) (j : Fin 9) : State :=
  let q := s.netPorts[n]
  if q.groupOk false || q.groupOk true then
    let s := s.modPort n (fun q => { q with
      laneGroup := some (!q.groupOk false)
      link := .r400
      portFallbacks := if q.laneGroup.isNone then q.portFallbacks + 1 else q.portFallbacks })
    (s.repairDone (72 + n.val) 5 actWithdrawn j.val 0).retime
  else (s.repairDone (72 + n.val) 5 actExhausted j.val 0).failPort n

/-- A port with failed lane j retrains: lane 8 takes its place, or the port falls back, or it fails. -/
def State.portRetrain (s : State) (n : NetPort) (j : Fin 9) (tx : Bool) : State :=
  let q := s.netPorts[n]
  if q.failed || !q.inService then s
  else
    let s := s.modPort n (fun q => q.markLane j tx)
    let q := s.netPorts[n]
    if q.laneIdle j tx then s
    else if s.prov.lane8Wired.getLsbD n.val && (q.sparedOf tx).isNone && j ≠ 8 && 8 ∉ q.failedOf tx && q.laneGroup.isNone then
      let first := (q.sparedOf (!tx)).isNone
      let s := s.modPort n (fun q => { q with
        sparedTx := if tx then some j else q.sparedTx
        sparedRx := if tx then q.sparedRx else some j
        laneSpares := q.laneSpares + 1 })
      let s := if first then s.takeSpare 5 else s
      (s.holdRepair 5 (72 + n.val) j.val).repairDone (72 + n.val) 5 actSoft j.val 0
    else s.portFallback n j

/-- NETWORK_PORT_RETRAIN (R280). -/
def execNetworkPortRetrain (n : NetPort) (j : Fin 9) (tx : Bool) (s : State) : Result := live s (fun s => s.portRetrain n j tx)

/-- A link goes down or comes up at a rate; a port in fallback comes up at 400G only (R281). -/
def State.linkChange (s : State) (n : NetPort) (l : LinkRate) : State :=
  let q := s.netPorts[n]
  if q.failed || !q.inService then s
  else
    let rate := if l = .r800 && q.laneGroup.isSome then .r400 else l
    let s := s.modPort n (fun q => { q with link := rate, downEpochs := if rate = .down then q.downEpochs else 0 })
    if rate = .r400 && q.link ≠ .r400 && q.laneGroup.isNone then (s.modPort n (fun q => { q with portFallbacks := q.portFallbacks + 1 })).retime else s.retime

/-- NETWORK_LINK_CHANGE (R281). -/
def execNetworkLinkChange (n : NetPort) (l : LinkRate) (s : State) : Result := live s (fun s => s.linkChange n l)

/-- What the ports have counted over an epoch: FEC codewords, symbol errors by lane, and the two counts after which a port has failed
(R280, R281). In D-RETAIN no link is up, and nothing is counted (22 R474). -/
def State.portsEpoch (s : State) (symbols : List (NetPort × Fin 9 × Bool × Nat)) (corrected uncorrected : List Nat) : State :=
  if s.power.device = 2 then s
  else
    let s := { s with netPorts := s.netPorts.map (fun q => { q with symbols := [] }) }
    let s := symbols.foldl (fun s e => s.modPort e.1 (fun q => q.countSymbols e.2.1 e.2.2.1 e.2.2.2)) s
    (List.finRange 17).foldl (fun s n =>
      let bad := uncorrected.getD n.val 0
      let s := s.modPort n (fun q => { q with
        fecCorrected := q.fecCorrected + BitVec.ofNat 64 (corrected.getD n.val 0)
        fecUncorrected := q.fecUncorrected + BitVec.ofNat 64 bad
        downEpochs := if q.inService && q.link = .down then q.downEpochs + 1 else 0
        badFecEpochs := if 64 < bad then q.badFecEpochs + 1 else 0 })
      let q := s.netPorts[n]
      if q.inService && !q.failed && (16 ≤ q.downEpochs || 8 ≤ q.badFecEpochs) then s.failPort n else s) s

/-! ## PTP (R292, R293) -/

/-- One Sync interval's offset estimate: the servo corrects the time base by it, and is locked or not (R293). -/
def State.servoOffset (s : State) (offset : Int) : State :=
  let (k, s) := s.draw
  let seen := (offset :: s.ptp.offsets).take 16
  let good : Bool := decide (seen.length = 16) && seen.all (fun o => o.natAbs < 2 * 65536)
  { s with ptp := { s.ptp with
      base := s.ptp.base + Config.freeServoStep k
      offsets := seen
      locked := good
      unlocks := if s.ptp.locked && !good then s.ptp.unlocks + 1 else s.ptp.unlocks } }

/-- A PTP message reaches the servo on the port it follows and in its domain. A Sync gives an offset estimate with the path
delay known so far, and a Delay_Req leaves with its transmit timestamp; a Delay_Resp gives the path delay (IEEE 1588-2019
end-to-end; notes/assumptions 101). -/
def State.ptpMessage (s : State) (n : NetPort) (m : PtpMsg) : State :=
  if s.ptp.servo ≠ n || s.portDark n then s
  else match m with
    | .sync d t1 c =>
      if d ≠ s.prov.ptpDomain then s
      else
        let now := s.ptpNow
        let s := s.servoOffset (now - (t1 + c) - s.ptp.delay)
        { s with ptp := { s.ptp with
            sync := some (t1 + c, now), requests := s.ptp.requests ++ [(n, s.ptpNow)], waits := true } }
    | .delayResp d t4 c =>
      match s.ptp.sync, s.ptp.requests.getLast? with
      | some (t1, t2), some (_, t3) =>
        if d ≠ s.prov.ptpDomain || !s.ptp.waits then s
        else { s with ptp := { s.ptp with waits := false, delay := ((t2 - t1) + (t4 - c - t3)) / 2 } }
      | _, _ => s

/-- PTP_MESSAGE (R292). -/
def execPtpMessage (n : NetPort) (m : PtpMsg) (s : State) : Result := live s (fun s => s.ptpMessage n m)

/-- PPS_IN_EDGE (R292): the edge is timestamped against the time base. -/
def execPpsInEdge (s : State) : Result := live s (fun s => { s with ptp := { s.ptp with lastIn := s.ptpNow } })

/-- The next whole second of the time base, in ns. -/
def State.nextSecond (s : State) : Nat := (((s.ptpNow / 65536) / 1000000000 + 1).toNat) * 1000000000

/-- PPS_OUT_PULSE (R292): the next whole second comes, and PTP_PPS_OUT pulses, while CCLK runs (02 R44). -/
def execPpsOutPulse (s : State) : Result :=
  live s (fun s =>
    if !s.clockRuns then s
    else
      let s := s.advanceTo (s.cclkAt s.nextSecond)
      { s with power := { s.power with ppsOut := s.power.ppsOut + 1 } })

end Sys2Proof.Machine
end

