-- ==== Sys2Proof/Machine/Health.lean ====
section
/-! DEFINITION. Health and repair (23): telemetry and the lifetime log as commands read them (18 R396; 23 R489, R490), the
rotation of spare slices (R483; 01 R20), scrubbing and row repairs (R483, R484), HBM segment remaps (R485), uncorrectable
errors (16 R341) and the hour's summary (R491). -/

namespace Sys2Proof.Machine

/-! ## Telemetry (18 R396; 23 R489) -/

/-- The per-pitch counters of a class, in its table's order. -/
def classCounters : Nat → List PCtr
  | 0x01 => [.timeWriteDrops, .winDefer, .winOversize, .winOverrun, .winDrain, .cursorStalls, .bucketFuse]
  | 0x02 => [.qclamp, .scaleFloor, .nonfiniteConv]
  | 0x03 => [.ergTailAdds, .baccRepeats, .ergOutRetry, .ergSaves]
  | 0x04 => [.vSpill, .ingestRefused, .nonfiniteBuckets, .fxRetry, .bcastRaise, .bcastNonfinite]
  | 0x05 => [.selShort, .selPasses, .seifMerges, .threshExcess]
  | 0x06 => [.lrQinit, .lrDegenerate, .arrayCheckFail, .residueFail, .tileReplays]
  | 0x07 => [.packFixed, .packClass, .packZero, .packRingStalls, .decoderMismatch, .streamDamaged, .streamResent, .deltaDamaged]
  | 0x08 => [.memberRetries, .collStale, .moeDrops, .moeBadRoute, .moeOverflow, .onesidedRefused, .onesidedCas]
  | 0x09 => [.retransmits, .rtoExpired, .dupDrops, .oowDrops, .chWindowFull, .rtStoreFull, .rateHolds, .rateCuts, .nackSent,
      .nackReceived, .misdirected, .lenDrops, .excPackets, .excOverflow, .fencedDrops, .epochAhead]
  | 0x0A => [.crcDrops, .authFail, .keyAhead, .keyOldDrops, .keyRotations]
  | 0x0B => [.stepsSkipped, .lsHalvings, .lsDoublings, .lsFloor, .nonfiniteElems, .normSpikes, .lossSpikes, .lossInvalid,
      .lossWriteDrops, .updNonfinite]
  | 0x0C => [.deltaCoded, .deltaRaw, .deltaZero, .ckptMarks, .ckptRestores, .snapExports]
  | 0x0D => [.ndcBits, .ndcTime, .tsigChanges, .eccFixes, .barLate, .barUnlocked, .lsWindows, .lsMismatches, .lsWaits, .lsUnchecked]
  | 0x0E => [.dbDrops, .cqFullWaits]
  | 0x10 => [.hbMismatch, .proposals, .proposalsAbandoned, .proposalsRefused, .memberDeaths, .rollbacks]
  | _ => []

/-- Classes of R396 and R489. -/
def classKnown (c : Nat) : Bool := (1 ≤ c && c ≤ 0x10) || (0x20 ≤ c && c ≤ 0x25)

/-- Retained-store bytes in use: the images held (19 R421). -/
def State.retainedUsed (s : State) : Nat :=
  sumOf (s.retained.toList.zipIdx.map (fun e => match e.1 with
    | some r => imageSize e.2 r.base.base r.overlays r.base.buckets.length r.eff
    | none => 0))

/-- A signed reading as a u64. -/
def signed64 (v : Int) : Nat := toTwos 64 v

/-- Counters kept by the engine as a whole (SCOPE 2): those ahead of a class's pitch counters, and those after them. -/
def State.engineCounters (s : State) (cls : Nat) : List Nat × List Nat :=
  let h := s.health
  match cls with
  | 0x09 => ([], [s.glob.rxNoPitch.toNat])
  | 0x0A => (List.replicate 8 0 ++ [s.ptp.unlocks.toNat], [])
  | 0x0E => ([0, s.glob.regDenied.toNat, s.glob.regWriteDrops.toNat, s.glob.memDenied.toNat], [])
  | 0x20 => (s.power.temps.map signed64 ++ s.power.tempsMax.map signed64, [])
  | 0x21 => (s.power.slack.map signed64 ++ s.power.slackMin.map signed64 ++ [s.power.vddCore], [])
  | 0x22 => (s.power.droopMax ++ [s.power.droopStretch.toNat], [])
  | 0x23 => (h.made ++ h.spares ++ [s.fuses.repairEntries.length], [])
  | 0x24 => ([h.eccHbm, h.eccSram, h.eccFw, h.eccBad, h.residues, h.checksums, h.lsMismatches, h.scrubs].map BitVec.toNat, [])
  | 0x25 => ([s.power.thermal, s.power.device, s.retainedUsed, h.logWritten.toNat, h.suppressed.toNat], [])
  | _ => ([], [])

/-- Counters kept per physical port (SCOPE 1), ahead of a class's pitch counters. FLIT_RETRIES is that of host port INDEX. -/
def State.portCounters (s : State) (cls index : Nat) : List Nat :=
  let q := s.netPorts.toList.getD index {}
  match cls with
  | 0x0A => [q.fcsDrops, q.oversizeDrops, q.macCtrlDrops, q.csumDrops, q.fecCorrected, q.fecUncorrected, q.laneSpares,
      q.portFallbacks].map BitVec.toNat ++ [0]
  | 0x0E => [(s.hostPorts.toList.getD index {}).flitRetries.toNat, 0, 0, 0]
  | _ => []

/-- Counter k of a class for pitch p: one of another scope reads 0 at its number, and one beyond the class reads 0. -/
def State.telemetry (s : State) (p : PitchId) (cls scope index k : Nat) : Nat :=
  let x := s.pitch p
  let e := s.engineCounters cls
  let cs := classCounters cls
  let n := e.1.length
  if cls = 0x0F then (if scope = 0 then (x.chan k).nextSeq else 0)
  else if k < n then (if scope = 2 then e.1.getD k 0 else if scope = 1 then (s.portCounters cls index).getD k 0 else 0)
  else if k < n + cs.length then (if scope = 0 then ((cs.map x.counter).getD (k - n) 0).toNat else 0)
  else if scope = 2 then e.2.getD (k - n - cs.length) 0
  else 0

/-- The counters a read names. -/
def State.telemetryBytes (s : State) (p : PitchId) (cls scope index first count : Nat) : Bytes :=
  (List.range count).flatMap (fun i => leBytes 8 (s.telemetry p cls scope index (first + i)))

/-- Read access outside the issuing pitch needs ADMIN (18 R387, R390). -/
def telemetrySpec : CmdSpec :=
  { op := 0x70, admin := fun c => c.arg 33 1 ≠ 0, used := [(32, 3), (36, 8)]
    badArg := fun c => if 2 < c.arg 33 1 then some 33 else none
    resp := fun c => some (8 * min 4096 (c.arg 40 4))
    legal := fun s p _ => need (s.pitch p).isBound eState 0 }

def telemetryBody (p : PitchId) (c : Cmd) (h : HostPort) (_ : Bytes) (s : State) : Act :=
  let n := c.arg 40 4
  if !classKnown (c.arg 32 1) || 16 < c.arg 34 1 || n = 0 || 4096 < n then .no s ⟨eRange, 0⟩
  else
    .ok (s.bulkResult h c.respAddr (s.telemetryBytes p (c.arg 32 1) (c.arg 33 1) (c.arg 34 1) (c.arg 36 4) n))
      (leBytes 4 (if c.respAddr = 0 then 0 else n) ++ leBytes 4 0 ++ leBytes 8 s.glob.mgmtTick.toNat)

/-- TELEMETRY_READ (18 R396). -/
def execTelemetryRead (p : PitchId) (s : State) : Result := live s (fun s => s.command p telemetrySpec (telemetryBody p))

/-! ## health.log.read (R490, R493) -/

/-- Records `first` to `first + count − 1` as the flash holds them. -/
def State.logBytes (s : State) (first count : Nat) : Bytes :=
  (List.range count).flatMap (fun i => s.flash.log.getD (first + i) (List.replicate 64 0xFF))

def logReadSpec : CmdSpec :=
  { op := 0x71, admin := fun _ => true, used := [(32, 12)], resp := fun c => some (64 * min 4096 (c.arg 40 4))
    legal := fun s p _ => need (s.pitch p).isBound eState 0 }

def logReadBody (_ : PitchId) (c : Cmd) (h : HostPort) (_ : Bytes) (s : State) : Act :=
  let n := c.arg 40 4
  if logRecords ≤ c.arg 32 8 || n = 0 || 4096 < n then .no s ⟨eRange, 0⟩
  else
    let (k, s) := s.draw
    let newest := if s.flash.log.isEmpty then (Config.freeNewestRecord k).toNat else s.flash.log.length - 1
    .ok (s.bulkResult h c.respAddr (s.logBytes (c.arg 32 8) n)) (leBytes 8 newest)

/-- HEALTH_LOG_READ (R490). -/
def execHealthLogRead (p : PitchId) (s : State) : Result := live s (fun s => s.command p logReadSpec (logReadBody p))

/-! ## Rotation of the spare slice (R483; 01 R20) -/

/-- The slice a rotation frees: the lowest-numbered active slice above the one freed last, wrapping. -/
def Cluster.nextFreed (c : Cluster) : Option Nat :=
  let active := (List.range 9).filter (fun t => some t ∈ c.map)
  match c.lastFreed with
  | some l => (active.find? (fun t => l < t)).or active.head?
  | none => active.head?

/-- The rotation of a cluster is due at this epoch boundary and has not been requested. A repair of a slice of the cluster
comes first (R494). -/
def State.rotationDue (s : State) (c : Fin 8) : Bool :=
  let cl := s.clusters[c]
  s.glob.mgmtTick.toNat % 4096 = 512 * c.val && cl.rotatedAt ≠ some s.glob.mgmtTick && cl.spare.isSome && cl.rotation.isNone
    && cl.testing.isNone && cl.broken.isEmpty && s.clusterServes c

/-- STEP and NEXT_PEG of every pitch. -/
def State.pegPlaces (s : State) : List (W64 × Nat) := allPitches.map (fun p => ((s.pitch p).time.step, (s.pitch p).time.nextPeg))

/-- A pitch has come to a peg boundary since the places were noted: a peg has fired or a step has begun; with no step ACTIVE at
any pitch there is none to wait for (01 R20; notes/assumptions 12). -/
def State.pegBoundary (s : State) (places : List (W64 × Nat)) : Bool :=
  decide (s.pegPlaces ≠ places) || allPitches.all (fun p => (s.pitch p).time.state ≠ .active)

/-- SPARE_ROTATION (R483). -/
def execSpareRotation (c : Fin 8) (s : State) : Result :=
  live s (fun s =>
    let cl := s.clusters[c]
    if s.rotationDue c then s.setCluster c { cl with
      rotation := cl.nextFreed, rotatedAt := some s.glob.mgmtTick, pegsThen := s.pegPlaces } else s)

/-- The rotation takes effect at the first slice-slot boundary after a peg boundary, where one that is now counts as the next one
(01 R20; notes/assumptions 12); it is dropped where no spare remains (R494). -/
def State.rotationEffect (s : State) (c : Fin 8) : State :=
  let cl := s.clusters[c]
  match cl.rotation with
  | none => s
  | some k =>
    if !cl.broken.isEmpty || !s.pegBoundary cl.pegsThen then s
    else match cl.spare with
      | none => s.setCluster c { cl with rotation := none }
      | some sp =>
        if some k ∉ cl.map then s.setCluster c { cl with rotation := none }
        else
          let s := s.advanceTo (roundUp s.cclk slotLen)
          (s.setCluster c { cl with
            map := cl.map.map (fun t => if t = some k then some sp else t)
            spare := none, rotation := none, lastFreed := some k, testing := some (k, 0) }).setCells [sliceCell c.val sp] .run

/-- ROTATION_EFFECT (01 R20). -/
def execRotationEffect (c : Fin 8) (s : State) : Result := live s (fun s => s.rotationEffect c)

/-- The freed slice's test ends (R483): its logic BIST, and the Sandgrain test's 16 output bytes (13 R303). -/
def State.rotationTest (s : State) (c : Fin 8) (pass : Bool) : State :=
  let cl := s.clusters[c]
  match cl.testing with
  | none => s
  | some (k, failures) =>
    if !s.coreRuns (.cc c) then s
    else if pass then (s.setCluster c { cl with spare := some k, testing := none }).setCells [sliceCell c.val k] .drowse
    else if failures = 0 then s.setCluster c { cl with testing := some (k, 1) }
    else
      let s := s.setCluster c { cl with testing := none, retired := addNew k cl.retired }
      ((s.takeSpare 1).setCells [sliceCell c.val k] .off).repairDone (sliceCell c.val k) 1 actRetired 0 0

/-- Every Sandgrain core of a slice gave the 16 bytes of the test vector (13 R303). -/
def sandgrainOk (outputs : List W128) : Bool := outputs.all (fun v => v.toNat = sandVectorOutput)

/-- ROTATION_BIST_COMPLETE (R483): the outputs of the slice's Sandgrain cores and the outcome of its logic BIST. -/
def execRotationBistComplete (c : Fin 8) (sandgrain : List W128) (logicPass : Bool) (s : State) : Result :=
  live s (fun s => s.rotationTest c (logicPass && sandgrainOk sandgrain))

/-! ## Corrected errors, scrubbing and SRAM rows (R483, R484; 16 R343; 01 R19) -/

/-- A 256-MiB segment of a stack by its logical address: 192 segments to a stack (notes/assumptions 49). -/
def segmentOf (a : Nat) : Nat := (a - hbmBase) / (256 * mib)

/-- The cell and the row within its macro of an SRAM address: staging bank b lies in cell b, Erg bank b in cell 123 + b,
queue memory p in cell 111 + p; a row holds 64 bytes (notes/assumptions 49). Erg addresses count 80 bytes to a register. -/
def sramRow (m : EccMem) (a : Nat) : Nat × Nat :=
  match m with
  | .staging => ((a - stagingBase) / (2 * mib), (a - stagingBase) % (2 * mib) / 64)
  | .erg => (123 + a / 80 % 8, a / 640)
  | .queueMemory => (111 + (a - queueBase 0) / queueSize, (a - queueBase 0) % queueSize / 64)
  | .hbm => (97 + segmentOf a / 192, 0)

/-- The pitches that use an SRAM macro whose rows are exhausted: those that hold slots of an Erg bank, or the pitch of a queue
memory. -/
def State.usesSram (s : State) (m : EccMem) (cell : Nat) (p : PitchId) : Bool :=
  match m with
  | .erg => (s.pitch p).slots (1 + (cell - 123)) ≠ 0#64
  | .queueMemory => decide (cell = 111 + p.val)
  | _ => false

/-- Spare rows of an SRAM macro in use: soft repairs, and those that fuses hold (R484, R487). -/
def State.rowsUsed (s : State) (cell : Nat) : Nat :=
  (s.health.repairs.filter (fun r => r.resource = 7 && r.cell = cell)).length
    + (s.fuses.repairEntries.filter (fun e => e.1 = 7 && e.2.1 = cell)).length

/-- A staging bank is withdrawn, once: 2 MiB less, and a pitch whose allotment lies past the new capacity faults (01 R19; 19 R409). -/
def State.withdrawBank (s : State) (cell row : Nat) : State :=
  if cell ∈ s.health.withdrawn then s
  else
    let s := { s with
      glob := { s.glob with stagingMib := s.glob.stagingMib - 2 }
      health := { s.health with withdrawn := s.health.withdrawn ++ [cell] } }
    let s := s.repairDone cell 7 actWithdrawn row 0
    s.forPitches (fun p s =>
      let b := (s.pitch p).binding
      if s.glob.stagingMib < b.stagingOff + b.stagingMib then s.repairFault p else s)

/-- A row that fails boot BIST or is corrected twice in the hour is replaced by one of the four spare rows of its macro (R484). -/
def State.rowRepair (s : State) (m : EccMem) (a : Nat) : State :=
  let (cell, row) := sramRow m a
  let used := s.rowsUsed cell
  if m = .staging && cell ∈ s.health.withdrawn then s
  else if used < 4 then ((s.takeSpare 7).holdRepair 7 cell row).repairDone cell 7 actSoft row (3 - used)
  else match m with
    | .staging => s.withdrawBank cell row
    | _ =>
      let s := s.repairDone cell 7 actExhausted row 0
      s.forPitches (fun p s => if s.usesSram m cell p then s.repairFault p else s)

/-- A corrected word of HBM: a remap is due at 64 corrected errors of its segment in the hour, or at its second correction. -/
def State.noteHbm (s : State) (a : Nat) : State :=
  let h := s.health
  let g := segmentOf a
  let n := sget h.segErrors g 0 + 1
  let due : Bool := decide (64 ≤ n) || decide (a ∈ h.corrected)
  { s with health := { h with
      eccHbm := h.eccHbm + 1
      segErrors := sput h.segErrors g n
      corrected := addNew a h.corrected
      due := if due then addNew g h.due else h.due } }

/-- A corrected word of an SRAM. -/
def State.noteSram (s : State) (m : EccMem) (a : Nat) : State :=
  let h := s.health
  let key := (m, (sramRow m a).1 * 2 ^ 32 + (sramRow m a).2)
  let s := { s with health := { h with eccSram := h.eccSram + 1, rowErrors := addNew key h.rowErrors } }
  if key ∈ h.rowErrors then (s.rowRepair m a) else s

/-- A corrected ECC error (16 R341, R343): the stored value is written back; ECC_FIXES counts an HBM or staging access made for a
pitch. -/
def State.eccCorrected (s : State) (w : EccWord) : State :=
  let h := s.health
  let s := { s with health := { h with hour := { h.hour with corrected := h.hour.corrected + 1 } } }
  let s := match w.owner with
    | some p => if w.mem = EccMem.hbm || w.mem = EccMem.staging then s.count p .eccFixes else s
    | none => s
  if w.mem = EccMem.hbm then s.noteHbm w.addr else s.noteSram w.mem w.addr

/-- A word is read and checked; the scrub's own access comes in an engine slot (01 R24). -/
def State.scrub (s : State) (w : EccWord) : State :=
  let s := if w.owner.isNone then s.advanceTo (engineSlot s.cclk) else s
  let s := if w.corrected then s.eccCorrected w else s
  if w.endsPass then { s with health := { s.health with scrubs := s.health.scrubs + 1 } } else s

/-- SCRUB_PASS (R483). -/
def execScrubPass (w : EccWord) (s : State) : Result := live s (fun s => s.scrub w)

/-! ## HBM segment remap (R485) -/

/-- A spare segment of a stack that serves no other. -/
def State.freeSegment (s : State) (stack : Nat) : Option Nat :=
  (List.range 8).find? (fun k => (s.health.copying ++ s.health.remapped).all (fun e => e.1 ≠ stack || e.2.2 ≠ k))

/-- The copy of a segment to a spare begins; reads and writes go on at their logical addresses. -/
def State.segmentRemap (s : State) (stack segment : Nat) : State :=
  let g := 192 * stack + segment
  if g ∉ s.health.due then s
  else
    let s := { s with health := { s.health with due := s.health.due.erase g } }
    match s.freeSegment stack with
    | some k => { s with health := { s.health with copying := s.health.copying ++ [(stack, segment, k)] } }
    | none =>
      let s := s.repairDone (97 + stack) 4 actExhausted segment 0
      s.forPitches (fun p s => if (s.pitch p).slots (9 + stack) ≠ 0#64 then s.repairFault p else s)

/-- HBM_SEGMENT_REMAP (R485). -/
def execHbmSegmentRemap (stack : Fin 6) (segment : Nat) (s : State) : Result := live s (fun s => s.segmentRemap stack.val segment)

/-- Spare segments of a stack that serve none. -/
def State.segmentsLeft (s : State) (stack : Nat) : Nat :=
  8 - ((s.health.copying ++ s.health.remapped).filter (fun e => e.1 = stack)).length

/-- Copies of a stack that have ended take effect at the plan-period boundary. -/
def State.remapEffect (s : State) (stack : Nat) : State :=
  let now := s.health.copying.filter (fun e => e.1 = stack)
  if now.isEmpty then s
  else
    let s := s.advanceTo s.planBoundary
    let s := { s with health := { s.health with
      copying := s.health.copying.filter (fun e => e.1 ≠ stack)
      remapped := s.health.remapped ++ now } }
    now.foldl (fun s e =>
      ((s.takeSpare 4).holdRepair 4 (97 + stack) e.2.1).repairDone (97 + stack) 4 actSoft e.2.1 (s.segmentsLeft stack)) s

/-- HBM_REMAP_EFFECT (R485). -/
def execHbmRemapEffect (stack : Fin 6) (s : State) : Result := live s (fun s => s.remapEffect stack.val)

/-! ## Uncorrectable errors (16 R341) -/

/-- Number of a memory in the UNCORRECTABLE record (R491). -/
def eccMemNumber : EccMem → Nat
  | .hbm => 0
  | .staging => 1
  | .erg => 2
  | .queueMemory => 3

/-- An uncorrectable error in a pitch's data. -/
def State.uncorrectable (s : State) (p : PitchId) (m : EccMem) (a : Nat) : State :=
  let h := s.health
  let bound := (s.pitch p).isBound
  let s := { s with health := { h with eccBad := h.eccBad + 1, hour := { h.hour with uncorrectable := h.hour.uncorrectable + 1 } } }
  let s := s.logEvent logUncorrectable
    (leBytes 1 (eccMemNumber m) ++ leBytes 1 (if bound then p.val else 0xFF) ++ [0, 0] ++ leBytes 8 a)
  if bound then (s.openFault p bfEcc).faultPitch p else s

/-- UNCORRECTABLE_ECC (16 R341). -/
def execUncorrectableEcc (p : PitchId) (m : EccMem) (a : Nat) (s : State) : Result := live s (fun s => s.uncorrectable p m a)

/-! ## The hour's summary (R491; 21 R443) -/

/-- A value of an n-byte field that stops at its largest. -/
def satBytes (n v : Nat) : Bytes := leBytes n (min v (256 ^ n - 1))

/-- Whole seconds of a time in 2^-16 ns. -/
def wholeSeconds (t : Nat) : Nat := t / (65536 * 1000000000)

/-- Whole degrees of a reading in quarter degrees, rounded down. -/
def wholeDegrees (q : Int) : Int := q / 4

/-- BODY of an HOUR record that covers `seconds`. Fields stop at their largest value (notes/assumptions 50). -/
def State.hourBody (s : State) (seconds : Nat) (isPart : Bool) : Bytes :=
  let h := s.health.hour
  let spares := s.clusters.toList.map (fun c => bit (c.spare.isSome || c.testing.isSome))
  leBytes 1 (toTwos 8 (wholeDegrees h.hottest)) ++ leBytes 1 (toTwos 8 (wholeDegrees (h.sum / (max h.samples 1 : Nat))))
    ++ satBytes 2 (wholeSeconds h.warmTime) ++ satBytes 2 (wholeSeconds h.lowTime) ++ satBytes 2 h.stretches
    ++ satBytes 4 h.corrected ++ satBytes 2 h.uncorrectable ++ satBytes 2 h.catches ++ satBytes 2 h.mismatches ++ satBytes 2 h.repairs
    ++ leBytes 2 (toTwos 16 (h.slackMin.getD 0)) ++ satBytes 2 h.droop ++ satBytes 2 h.fec ++ satBytes 2 h.exceptions
    ++ satBytes 2 h.suppressed ++ satBytes 2 seconds ++ leBytes 1 (spares.foldl min 1) ++ leBytes 1 (bit isPart)

/-- Append the summary of the seconds since the hour began, and begin a new one. -/
def State.closeHour (s : State) (seconds : Nat) (isPart : Bool) : State :=
  let s := s.logRaw logHour (s.hourBody seconds isPart)
  { s with health := { s.health with
      hour := { start := s.health.hour.start + seconds }
      rowErrors := []
      segErrors := [] } }

/-- HOUR_RECORD (R491): a powered hour has passed. -/
def execHourRecord (s : State) : Result :=
  live s (fun s => if s.health.hour.start + 3600 ≤ s.health.posSeconds then s.closeHour 3600 false else s)

/-- The partial hour (02 R48; 21 R452). -/
def State.partialHour (s : State) : State := s.closeHour (s.health.posSeconds - s.health.hour.start) true

/-- EXCEPTION_ENTRY_LOG (21 R443): firmware reads a network exception entry of pitch p and adds it to the hour's summary. -/
def execExceptionEntryLog (p : PitchId) (s : State) : Result :=
  live s (fun s =>
    let n := sget s.fw.excUnread p.val 0
    if n = 0 then s
    else
      let h := s.health
      { s with
        fw := { s.fw with excUnread := sset s.fw.excUnread p.val (n - 1) 0 }
        health := { h with hour := { h.hour with exceptions := h.hour.exceptions + 1 } } })

end Sys2Proof.Machine
end

