-- ==== Sys2Proof/Machine/Boot.lean ====
section
/-! DEFINITION. Resets and boot (02 R49 to R54; 21 R444 to R451), restoration of pitches (19 R422; 22 R464), and power events
(02 R48, R49). -/

namespace Sys2Proof.Machine

/-! ## What a reset keeps (02 R50) -/

/-- A network port after a reset: its lane and decoder repairs hold. A failed port stays out of service until the next power-on reset
(12 R282). -/
def NetPortSt.rebooted (q : NetPortSt) (warm : Bool) : NetPortSt :=
  let off : NetPortSt := { link := .down, inService := false }
  if q.failed then
    (if warm then { off with failed := true, replaced := q.replaced, decodersBad := q.decodersBad }
      else { off with decodersBad := q.decodersBad })
  else { off with
    decodersBad := q.decodersBad, failedTx := q.failedTx, failedRx := q.failedRx, sparedTx := q.sparedTx, sparedRx := q.sparedRx, laneGroup := q.laneGroup
    standsFor := if warm then q.standsFor else none }

/-- A cluster after a reset: the first eight good slices form its map, the ninth is its spare. -/
def Cluster.rebooted (c : Cluster) : Cluster :=
  let good := (List.range 9).filter (fun t => t ∉ c.retired)
  { map := (List.range 8).map (fun k => good[k]?), spare := good[8]?, retired := c.retired, peRepairs := c.peRepairs }

/-- Power-on seconds of the newest summary (23 R491). -/
def State.logPos (s : State) : Nat :=
  match s.flash.log.reverse.find? (fun r => (r.getD 0 0).toNat = logHour) with
  | some r => leAt r 4 4
  | none => 0

/-- Health state after a reset: repairs and their spares hold; a port repair ends with the power-on reset that revives the
port. -/
def State.rebootHealth (s : State) (warm : Bool) : Health :=
  let h := s.health
  let pos := s.logPos
  { repairs := if warm then h.repairs else h.repairs.filter (fun r => r.resource ≠ 6)
    spares := if warm then h.spares else setAt h.spares 5 1
    posSeconds := pos, bootCount := h.bootCount + 1, hour := { start := pos }, remapped := h.remapped
    withdrawn := h.withdrawn }

/-- What a power-on reset takes from a retained image: HBM is undefined after it, so no step boundary (15 R326) and no warm-start Q
(08 R178) stands. -/
def Retained.powerCut (r : Retained) : Retained := { r with boundary := false, qValid := [] }

/-- Memory after a reset: HBM is kept by a warm reset; all else is undefined (notes/assumptions 10). -/
def State.rebootMem (s : State) (warm : Bool) : List Host.Cell := if warm then s.mem.filter (fun c => hbmBase ≤ c.1) else []

/-- The die as a reset leaves it, before its boot (R50). A warm reset keeps the device power state with its divider (22 R475;
notes/assumptions 51), and TERM (21 R455). -/
def State.rebooted (s : State) (warm : Bool) (cause : Nat) : State :=
  { State.reset with
    retained := if warm then s.retained else s.flash.mirrorNow.map (fun r => r.map Retained.powerCut)
    mem := s.rebootMem warm
    hostOut := s.hostOut, netOut := s.netOut, free := s.free, pending := s.pending
    netPorts := s.netPorts.map (fun q => q.rebooted warm)
    clusters := s.clusters.map Cluster.rebooted
    glob := { resetCause := cause, bootStage := 1, stagingMib := s.glob.stagingMib }
    fw := { lease := { term := if warm then s.fw.lease.term else 0, holder := if warm then s.fw.lease.holder else none } }
    flash := s.flash, fuses := s.fuses, prov := s.prov
    sec := { sealed := s.fuses.sealFuse, rma := s.fuses.rma }
    power := { device := if warm then s.power.device else 0, divider := if warm then s.power.divider else 2
               railCause := s.power.railCause, ppsOut := s.power.ppsOut }
    health := s.rebootHealth warm
    ptp := { servo := s.prov.servoPort } }

/-! ## Boot stages (21 R448, R449) -/

/-- Boot stops at a stage with an error. -/
def State.bootStop (s : State) (stage code : Nat) : State := { s with glob := { s.glob with bootStage := stage, bootError := code } }
/-- A stage is reached. -/
def State.stage (s : State) (n : Nat) : State := { s with glob := { s.glob with bootStage := n } }

/-- The BOOT record (23 R491); the rail-fault cause has then been told. -/
def State.bootRecord (s : State) : State :=
  let (why, rail) := match s.power.railCause with
    | none => (0, 0)
    | some (.outOfRange, k) => (1, k.val)
    | some (.pwrgoodFell, k) => (2, k.val)
    | some (.sequencing, k) => (3, k.val)
  let s := s.logEvent logBoot (leBytes 1 s.glob.resetCause ++ leBytes 1 s.glob.bootStage ++ leBytes 2 s.glob.bootError
    ++ leBytes 1 why ++ leBytes 1 rail ++ leBytes 1 (bit s.fw.bootBankB))
  { s with power := { s.power with railCause := none } }

/-- A soft repair that fuses can hold, and that has held for 604,800 power-on seconds (23 R487). -/
def fusable (now : Nat) (r : Repair) : Bool := decide (r.resource ∈ [1, 2, 3, 7]) && decide (r.since + 604800 ≤ now)

/-- SEC makes one repair permanent while a fuse entry remains. -/
def State.fuseRepair (s : State) (r : Repair) : State :=
  if 64 ≤ s.fuses.repairEntries.length then s
  else
    let s := { s with
      fuses := { s.fuses with repairEntries := s.fuses.repairEntries ++ [(r.resource, r.cell, r.unit)] }
      health := { s.health with repairs := s.health.repairs.erase r } }
    s.repairDone r.cell r.resource actFused r.unit (s.health.spares.getD (r.resource - 1) 0)

/-- Repair fuses at a power-on boot, not in RMA (23 R487). -/
def State.fuseRepairs (s : State) : State :=
  if s.fuses.rma then s else (s.health.repairs.filter (fusable s.health.posSeconds)).foldl State.fuseRepair s

/-- A physical slice fails boot BIST (23 R482). -/
def State.bistSlice (s : State) (c : Fin 8) (k : Nat) : State :=
  let cl := s.clusters[c]
  if some k ∈ cl.map then s.repairSlice c k
  else if cl.spare = some k then
    ((s.setCluster c { cl with spare := none, retired := addNew k cl.retired }).takeSpare 1).repairDone (sliceCell c.val k) 1 actRetired 0 0
  else s

/-- One failing PE of a slice's array found by boot BIST takes a spare row, then a spare column, then the slice's own repair (R484). -/
def State.bistPe (s : State) (c : Fin 8) (k : Nat) : State :=
  if sget s.clusters[c].peRepairs k 0 < 4 then s.peRepair c k else s.bistSlice c k

/-- The self-tests of a boot (23 R482; 13 R303): SRAM rows, arrays, decoders, and the logic and Sandgrain cores of every slice. -/
def State.selfTest (s : State) (env : BootEnv) : State :=
  let s := env.badRows.foldl (fun s r => s.rowRepair r.1 r.2) s
  let s := env.badPes.foldl (fun s b => s.bistPe b.1 b.2.val) s
  let s := env.badDecoders.foldl (fun s n => s.decoderReplace n) s
  let failed := env.badSlices ++ (env.sandgrain.filter (fun e => !sandgrainOk e.2.2)).map (fun e => (e.1, e.2.1))
  failed.foldl (fun s b => s.bistSlice b.1 b.2.val) s

/-- A network link trains, at 400G on the lane group it has fallen back to (12 R281). -/
def NetPortSt.trained (q : NetPortSt) : NetPortSt :=
  if q.failed || !q.inService then q else { q with link := if q.laneGroup.isSome then .r400 else .r800 }

/-- Links are trained and units tested (02 R33, R34, R53; 12 R280; 23 R482). -/
def State.train (s : State) (env : BootEnv) : State :=
  let s := { s with netPorts := s.netPorts.map (fun (q : NetPortSt) =>
      NetPortSt.trained { q with inService := !q.failed }) }
  let s := (List.finRange 8).foldl (fun s h => s.trained h env.modules[h] env.rates[h]) s
  let s := (List.finRange 8).foldl (fun s h => if env.modules[h] = 15#4 then s else s.repairDone (89 + h.val) 9 actWithdrawn 0 0) s
  let s := s.selfTest env
  env.badLanes.foldl (fun s b => s.portRetrain b.1 b.2.1 b.2.2) s

/-! ## Flash: the mirror directory and images (21 R446, R447) -/

/-- The valid directory copy with the higher SEQ. -/
def Flash.directory (f : Flash) : Option DirCopy :=
  match f.dirA, f.dirB with
  | some a, some b => some (if a.seq < b.seq then b else a)
  | some a, none => some a
  | none, b => b

/-- Write the directory copy that was not written last. -/
def Flash.writeDirectory (f : Flash) (activeB staged : Bool) : Flash :=
  let d : DirCopy := ⟨(match f.directory with | some d => d.seq + 1 | none => 1), activeB, staged⟩
  let toB : Bool := match f.dirA, f.dirB with
    | some a, some b => decide (b.seq ≤ a.seq)
    | some _, none => true
    | none, _ => false
  let f := if toB then { f with dirB := some d } else { f with dirA := some d }
  { f with activeB := activeB, stagedVerified := staged }

/-- ACTIVE_BANK or the staged-image mark changes, with its directory write. -/
def State.writeDirectory (s : State) (activeB staged : Bool) : State := s.program .directory (s.flash.writeDirectory activeB staged)

/-- The directory is read at boot; without a valid copy ACTIVE_BANK is A and STAGED_VERIFIED 0 (R446, R449). -/
def State.readDirectory (s : State) (env : BootEnv) : State :=
  let f := { s.flash with
    dirA := if env.dirBadA then none else s.flash.dirA
    dirB := if env.dirBadB then none else s.flash.dirB }
  match f.directory with
  | some d => { s with flash := { f with activeB := d.activeB, stagedVerified := d.staged } }
  | none =>
    let s := { s with
      flash := { f with activeB := false, stagedVerified := false }
      glob := { s.glob with bootError := 4 } }
    s.logEvent logRetained [0xFF, 1]

/-- n bytes of a bank; erased bytes read 0xFF. -/
def bankBytes (b : Bytes) (off n : Nat) : Bytes := let c := cut b off n; c ++ List.replicate (n - c.length) 0xFF

/-- Byte offsets of an image header that are reserved or unused. -/
def headerUnused (i : Nat) : Bool := i = 15 || i = 22 || i = 23 || (169 ≤ i && i ≤ 175) || 272 ≤ i

/-- MAGIC, HDR_VERSION, BODY_LEN, ROLLBACK's range and the reserved bytes. -/
def headerFormOk (h : Bytes) : Bool :=
  leAt h 0 4 = 0x57464243 && leAt h 4 2 = 1 && 1 ≤ leAt h 16 4 && leAt h 16 4 ≤ 16773120 && leAt h 12 2 ≤ 64
    && (List.range 4096).all (fun i => !headerUnused i || h.getD i 0 = 0)

/-- The fused hash of a key slot. -/
def Fuses.imageKey (f : Fuses) (k : Nat) : Option Bytes := if k = 0 then some f.imageKey0 else if k = 1 then some f.imageKey1 else none

/-- The image in a bank is accepted: 0; else the error code of the first rule it breaks (R447, R449). -/
def State.imageCode (s : State) (b : Bytes) : Nat :=
  let h := bankBytes b 0 4096
  let slot := leAt h 14 1
  if !headerFormOk h then 5
  else if s.fuses.imageKey slot ≠ some (sha384 (cut h 72 97)) || (false, slot) ∈ s.fuses.revoked then 6
  else if !ecdsaVerify (cut h 73 96) (sha384 (h.take 176)) (cut h 176 96) then 7
  else if sha384 (bankBytes b 4096 (leAt h 16 4)) ≠ cut h 24 48 then 8
  else if leAt h 12 2 < s.fuses.rollback then 9
  else 0

/-- The bytes of bank A or B. -/
def Flash.bank (f : Flash) (isB : Bool) : Bytes := if isB then f.bankB else f.bankA

/-- The bank that boots, if one does, and BOOT_ERROR's code, first failed bank and fallback flag (R448, R449). -/
def State.pickBank (s : State) : Option Bool × Nat :=
  let first := s.flash.activeB
  let code := s.imageCode (s.flash.bank first)
  if code = 0 then (some first, s.glob.bootError)
  else if s.imageCode (s.flash.bank !first) = 0 then (some (!first), code + 256 * bit first + 512)
  else (none, code + 256 * bit first)

/-- An image runs: what firmware reports of it. -/
def State.runImage (s : State) (isB : Bool) : State :=
  let h := bankBytes (s.flash.bank isB) 0 272
  { s with fw := { s.fw with
      imageVersion := BitVec.ofNat 32 (leAt h 8 4), fwNum := BitVec.ofNat 16 (leAt h 6 2), zia := BitVec.ofNat 16 (leAt h 20 2)
      imageRollback := leAt h 12 2, imageHeader := h, bootBankB := isB } }

/-- After a boot from the other bank, ACTIVE_BANK names it (R448). -/
def State.settleBank (s : State) (isB : Bool) : State :=
  if s.flash.activeB = isB then s else s.writeDirectory isB s.flash.stagedVerified

/-! ## Identity (21 R451; 22 R463, R464) -/

/-- The CDI and the Alias key under the security state in force; its certificate is issued. -/
def State.deriveAlias (s : State) : State :=
  if s.sec.rma then s
  else
    let cdi := hmac384 s.fuses.uds (sha384 (s.fw.imageHeader ++ leBytes 1 s.secCode))
    let a := Config.deriveScalar cdi
    { s with sec := { s.sec with cdi := cdi, aliasKey := a, aliasCert := Config.aliasCertificate a } }

/-- The keys that HKDF derives from the UDS: DeviceID and wrapping key. -/
def State.identity (s : State) : State :=
  if s.sec.rma then s
  else
    let key := fun (info : Bytes) => Config.deriveScalar (hkdf384 s.fuses.uds info 48)
    State.deriveAlias { s with sec := { s.sec with
      deviceKey := key [0x43, 0x42, 0x59, 0x2D, 0x44, 0x45, 0x56, 0x49, 0x44]
      wrapKey := key [0x43, 0x42, 0x59, 0x2D, 0x57, 0x52, 0x41, 0x50] } }

/-! ## The boot (R448) -/

/-- The retained store is loaded or checked (19 R422); in RMA it is not loaded, and HBM is zeroed (22 R464). -/
def State.loadRetained (s : State) (bad : BitVec 12) : State :=
  if s.sec.rma then { s.setRetained (Vector.replicate 12 none) with mem := [] }
  else allPitches.foldl (fun (s : State) (p : PitchId) =>
    if bad.getLsbD p.val && s.retained[p].isSome then
      (s.setRetained (s.retained.set p none)).logEvent logRetained (leBytes 1 p.val ++ [0])
    else s) s

/-- Stages 0x07 and 0x08: the other cores are released and the lease is acquired; the retained store is loaded or checked. -/
def State.release (s : State) (env : BootEnv) : State :=
  if !env.firmwareSram then (s.bootStop 7 (s.glob.bootError / 256 * 256 + 10)).bootRecord
  else ((s.acquire .a).loadRetained env.imageBad).stage 8

/-- Stages 0x04 to 0x06. -/
def State.bootImage (s : State) (env : BootEnv) : State :=
  if !env.sfdpOk then s.bootStop 4 3
  else
    let s := (s.stage 4).readDirectory env
    match s.pickBank with
    | (none, code) => (s.bootStop 5 code).bootRecord
    | (some b, code) =>
      let s := ((s.bootStop 5 code).runImage b).settleBank b
      ((s.identity).stage 6).release env

/-- From the fuses to the retained store. -/
def State.bootStages (s : State) (warm : Bool) (env : BootEnv) : State :=
  if !env.fusesOk then s.bootStop 2 1
  else
    let s := (if warm then s else s.fuseRepairs).stage 2
    if !env.pllLocked then s.bootStop 3 2 else ((s.stage 3).train env).bootImage env

/-- HOLDER becomes none at a warm reset; the change is recorded (21 R455). -/
def State.dropHolder (s : State) : State := if s.leased then s.setHolder none s.fw.lease.term else s

/-- A warm reset and its boot. A step in progress is cut off: what its accumulation buffers in HBM hold is undefined (06 R148). -/
def State.warmBoot (s : State) (cause : Nat) (env : BootEnv) : State :=
  let s := s.forPitches (fun p s => if (s.pitch p).time.state = .idle then s else s.cutStep p)
  ((s.rebooted true cause).dropHolder).bootStages true env

/-- RESET_CAUSE of a power-on reset: 0x4 after a rail or sequencing fault that VDD_AON survived (02 R49). -/
def State.powerOnCause (s : State) : Nat := if s.power.faultN && s.power.railCause.isSome then 4 else 1

/-- Another SPI agent may have programmed the banks while PORST_N was low (02 R38). -/
def State.programBanks (s : State) (env : BootEnv) : State :=
  { s with flash := { s.flash with bankA := env.bankA.getD s.flash.bankA, bankB := env.bankB.getD s.flash.bankB } }

/-- A power-on reset and its boot; WRST_N low as PORST_N rises starts a warm reset then (R52). -/
def State.powerOn (s : State) (env : BootEnv) : State :=
  let s := ((s.programBanks env).rebooted false s.powerOnCause).bootStages false env
  -- what the first boot's tests found has been repaired
  if env.wrstLow then s.warmBoot 2 { env with badRows := [], badPes := [], badDecoders := [] } else s

/-- POWER_ON_RESET (R50). It ends a hold by a rail fault or THERMTRIP. -/
def execPowerOnReset (env : BootEnv) (s : State) : Result := .next (s.powerOn env)

/-- WARM_RESET (R50): WRST_N low for at least 1 µs. It is sampled only while the die is not held in reset. -/
def execWarmReset (env : BootEnv) (lowNs : Nat) (s : State) : Result := live s (fun s => if lowNs < 1000 then s else s.warmBoot 2 env)

/-! ## ENGINE_READY (02 R54; 19 R422; 21 R448, R450) -/

/-- A pitch as its retained image restores it (19 R422). What lay in HBM holds only across a warm reset. -/
def Retained.pitch (r : Retained) (hbmKept : Bool) : Pitch :=
  { mode := .stopped, binding := r.binding, pendOverlays := r.overlays, pendSel := r.sel, committed := true, base := r.base
    overlays := r.overlays, sel := r.sel, eff := r.eff, plan := r.plan, planEff := r.plan, pegs := r.pegs, budgets := r.budgets
    pegsLoaded := r.pegsLoaded, layers := r.layers, layersLoaded := r.layersLoaded, pairing := r.pairing, rsig := r.rsig
    fwNum := r.fwNum, member := { record := r.member, spareOnly := r.spareOnly }
    mail := { nextSeq := r.nextSeq, cache := r.cache, zia := r.zia, features := r.features, admin := r.admin }
    guard := { lsExp := r.lsExp, clean := r.clean, normEma := r.normEma, normCount := r.normCount, lossEma := r.lossEma, lossCount := r.lossCount }
    time := { boundary := hbmKept && r.boundary }, qValid := if hbmKept then r.qValid else [], ckSeq := r.ckSeq }

/-- Restore pitch p: logical ports of failed ports move again, and its rings begin anew. -/
def State.restorePitch (s : State) (p : PitchId) : State :=
  match s.retained[p] with
  | none => s
  | some r =>
    let warm : Bool := s.glob.resetCause = 2 || s.glob.resetCause = 3
    let s := (s.setPitch p (r.pitch warm)).firstPass p
    let failed := (List.finRange 17).filter (fun n => s.netPorts[n].failed && s.netPorts[n].replaced)
    failed.foldl (fun s n => s.remapPitch p n) s

/-- The signatures of a pitch restored are computed (16 R336), once every pitch is restored. -/
def State.signRestored (s : State) (p : PitchId) : State := if s.retained[p].isSome then s.resign p else s

/-- SEC blows anti-rollback fuses until F equals the running image's ROLLBACK, in SEALED only (R450). -/
def State.blowRollback (s : State) : State :=
  if s.secCode = 1 then { s with fuses := { s.fuses with rollback := max s.fuses.rollback s.fw.imageRollback } } else s

/-- Spare slices and unused expander groups rest in DROWSE (22 R472), and in D-RETAIN every cell that R474 names. -/
def State.restCells (s : State) : State :=
  let spares := s.clusters.toList.zipIdx.flatMap (fun c => match c.1.spare with
    | some t => [sliceCell c.2 t]
    | none => [])
  let s := (s.setCells spares .drowse).restGroups
  if s.power.device = 2 then s.setCells (retainCells.filter (fun c => s.power.cells.toList.getD c .run = .run)) .drowse else s

/-- A latched doorbell is judged as if it had just arrived on its port (R54). -/
def State.judgeLatched (s : State) (l : Latched) : State :=
  if s.windowOpen l.port l.pitch then s.putRegister l.port l.pitch l.reg l.value.toNat
  else { s with glob := { s.glob with regDenied := s.glob.regDenied + 1 } }

/-- A pitch uses what the boot's tests found exhausted or withdrawn: its staging allotment lies past the capacity (01 R19), or its
plan, its queue memory or its port does (23 R486). -/
def State.usesLost (s : State) (p : PitchId) (r : Nat × Nat × Nat) : Bool :=
  let x := s.pitch p
  let (cell, resource, action) := r
  if resource = 7 && action = actWithdrawn then s.glob.stagingMib < x.binding.stagingOff + x.binding.stagingMib
  else if action ≠ actExhausted then false
  else if resource = 7 then (if 123 ≤ cell then x.slots (resErg (cell - 123)) ≠ 0#64 else cell = 111 + p.val)
  else if resource = 1 then x.slots 0 ≠ 0#64
  else resource = 8 && (List.finRange 17).any (fun n =>
    (s.expander n).1 = cell && 2 ≤ s.netPorts[n].decodersBad && x.slots (resPort n.val) ≠ 0#64)

/-- The repairs of the boot are told to the pitches restored, and a pitch that uses a unit lost is FAULTED (02 R34; 23 R486). -/
def State.tellRepairs (s : State) : State :=
  s.health.untold.foldl (fun s r =>
    (s.repairAll r.1 r.2.1 r.2.2).forPitches (fun p s => if s.usesLost p r then s.repairFault p else s))
    { s with health := { s.health with untold := [] } }

/-- ENGINE_READY rises once stage 0x08 is passed. -/
def State.becomeReady (s : State) : State :=
  if s.glob.engineReady || s.glob.bootStage ≠ 8 then s
  else
    let s := (s.forPitches (fun p s => s.restorePitch p)).forPitches (fun p s => s.signRestored p)
    let s := { s with glob := { s.glob with engineReady := true, bootStage := 9 } }
    let s := s.tellRepairs
    let s := ((s.bootRecord).blowRollback.settleCells).restCells
    s.latched.foldl State.judgeLatched { s with latched := [] }

/-- ENGINE_READY (02 R54). -/
def execEngineReady (s : State) : Result := live s (fun s => s.becomeReady)

/-- MIRROR_JOURNAL_FINISH (21 R446): a journal in COMPLETE is finished. -/
def execMirrorJournalFinish (s : State) : Result :=
  live s (fun s =>
    if s.glob.engineReady then { s with flash := s.flash.finishMirror } else s)

/-! ## Cells and rails (02 R48 to R50) -/

/-- What a cell's own reset restores (02 R50): a slice's staging bank and an Erg bank's registers are undefined then, as never
written; a network port's fields take their restore values, its own repairs applied again. No register of another cell, and
nothing that fuses or the retained store hold, changes. -/
def State.resetCell (s : State) (c : Nat) : State :=
  if c < 72 then s.erase (stagingBase + 2 * mib * c) (2 * mib)
  else if c < 89 then
    s.modPort (Fin.ofNat 17 (c - 72)) (fun q =>
      let r := q.rebooted true
      { r with inService := !q.failed, link := if q.failed then .down else if q.laneGroup.isSome then .r400 else .r800 })
  else { s with erg := s.erg.filter (fun e => 123 + e.1 % 8 ≠ c) }

/-- The outcome of a cell's BIST (02 R50; 23 R482): a failed row is repaired; a failed slice leaves its map, and any other cell
whose logic fails stays in OFF. -/
def State.cellBist (s : State) (c : Nat) (bist : CellBist) : State :=
  match bist with
  | .pass => s.setCells [c] .run
  | .row a =>
    (s.setCells [c] .run).rowRepair (if c < 72 then .staging else if 123 ≤ c then .erg else .queueMemory) a
  | .logic => if h : c / 9 < 8 then (s.setCells [c] .run).bistSlice ⟨c / 9, h⟩ (c % 9) else s

/-- CELL_RESET (02 R50): a cell leaves OFF for a plan that uses it. -/
def execCellReset (c : CellId) (bist : CellBist) (s : State) : Result :=
  live s (fun s =>
    if s.power.cells[c] = .off && decide (c.val ∈ s.neededCells) then (s.resetCell c.val).cellBist c.val bist else s)

/-- PWR_WARN (R48): the partial hour is written, and a flash write in progress completes. -/
def execPwrWarn (s : State) : Result :=
  live s (fun s =>
    let s := s.partialHour
    { s with
      power := { s.power with warned := true }
      flash := s.flash.finishMirror })

/-- RAIL_FAULT (R49): the engine is held in reset with FAULT_N low. Rails are monitored while it is held, too; the always-on
domain keeps the first cause while VDD_AON, rail 0, stays in range. -/
def execRailFault (cause : RailCause) (rail : Fin 8) (s : State) : Result :=
  let lost : Bool := cause = .outOfRange && rail = 0
  let kept := if s.power.faultN then s.power.railCause else some (cause, rail)
  .next { s with held := true, power := { s.power with faultN := true, railCause := if lost then none else kept } }

end Sys2Proof.Machine
end

