-- ==== Sys2Proof/Machine/HostRead.lean ====
section
/-! DEFINITION. Host data the engine asked for (17 R356): DMA_RD_RESP for a command's payload, a descriptor's bytes or an
ingest copy. -/

namespace Sys2Proof.Machine

/-- A run of bytes by address, over what was there. -/
def putRun (m : Sparse Byte) (a : Nat) (d : Bytes) : Sparse Byte :=
  m.filter (fun e => e.1 < a) ++ d.zipIdx.map (fun e => (a + e.2, e.1)) ++ m.filter (fun e => a + d.length ≤ e.1)

/-- The data of a request. -/
def State.dmaArrive (s : State) (r : DmaReq) (d : Bytes) : State :=
  match r.use with
  | .command p => s.modPitch p (fun x => { x with mail := { x.mail with fetched := putRun x.mail.fetched r.addr.toNat d } })
  | .ingest p b mb off scales => s.ingestArrive p b mb off scales r.off d
  | .descriptor p key =>
    let s := s.modPitch p (fun x => { x with queues := { x.queues with
      fetched := x.queues.fetched ++ d.zipIdx.map (fun e => (key, r.addr.toNat + e.2, e.1)) } })
    if s.dma.any (fun q => q.use = r.use) then s else s.descResume p key

/-- A request the host refused: a command's fetch fails (18 R379), a descriptor's does (notes/assumptions 35), and the bytes of an
ingest copy have not come. What else was asked for the same use is no longer waited for. -/
def State.dmaRefused (s : State) (r : DmaReq) : State :=
  match r.use with
  | .command p =>
    { s with dma := s.dma.filter (fun q => q.use ≠ r.use) }.modPitch p (fun x => { x with mail := { x.mail with fetchFailed := some r.addr } })
  | .ingest _ _ _ _ _ => s
  | .descriptor p key =>
    ({ s with dma := s.dma.filter (fun q => q.use ≠ r.use) }.modPitch p (fun x =>
      { x with queues := { x.queues with fetchBad := addNew key x.queues.fetchBad } })).descResume p key

/-- A DMA_RD_RESP on a port: it answers the request of its TAG; one that answers none is ignored. A response whose LEN is not
the request's answers as a refusal (notes/assumptions 40). -/
def State.dmaResponse (s : State) (h : HostPort) (status : Nat) (tag : W16) (d : Bytes) : State :=
  match s.dma.find? (fun r => r.port = h && r.tag = tag) with
  | none => s
  | some r =>
    let s := { s with dma := s.dma.erase r }
    if status = 0 && d.length = r.len then s.dmaArrive r d else s.dmaRefused r

/-- DMA_RD_RESP (R356). -/
def execDmaRdResp (h : HostPort) (status : Nat) (tag : W16) (d : Bytes) (s : State) : Result :=
  live s (fun s => s.hostIn h (16 + d.length) (fun s => s.dmaResponse h status tag d))

/-! ## Flits as they arrive (R356, R357) -/

/-- Bytes of the message at the front of a stream: its header, and its data where its MTYPE has data. -/
def messageLen (bs : Bytes) : Nat :=
  let t := leAt bs 0 1
  if t = 1 || (t = 5 && leAt bs 1 1 = 0) then 16 + leAt bs 2 2 else 16

/-- One whole message from the host. A MTYPE that no host sends has no effect (notes/assumptions 99). -/
def State.hostMessage (s : State) (h : HostPort) (m : Bytes) : State :=
  match leAt m 0 1 with
  | 1 => s.hostWrite h (leAt m 8 8) (m.drop 16)
  | 2 => s.hostRead h (BitVec.ofNat 16 (leAt m 4 2)) (leAt m 8 8) (leAt m 2 2)
  | 5 => s.dmaResponse h (leAt m 1 1) (BitVec.ofNat 16 (leAt m 4 2)) (m.drop 16)
  | 0x0F => if bitOf (leAt m 1 2) 10 then s.nakIn h (BitVec.ofNat 10 (leAt m 1 2)) else s
  | _ => s

/-- The messages that a data flit completes; what it leaves unfinished waits for the next one, and MTYPE 0x00 ends the flit. -/
def messagesGo (h : HostPort) : Nat → Bytes → State → State
  | 0, _, s => s
  | f + 1, bs, s =>
    let keep := fun (r : Bytes) => { s with hostPorts := s.hostPorts.set h { s.hostPorts[h] with rxPart := r } }
    if bs.isEmpty || leAt bs 0 1 = 0 then keep []
    else if bs.length < 16 || bs.length < messageLen bs then keep bs
    else messagesGo h f (bs.drop (messageLen bs)) (s.hostMessage h (bs.take (messageLen bs)))

/-- A flit whose FCRC holds and whose FSEQ is the next one: it ends the discarding, and it does what it carries. -/
def State.flitGood (s : State) (h : HostPort) (f : Bytes) : State :=
  let hp := s.hostPorts[h]
  let s := { s with hostPorts := s.hostPorts.set h { hp with rxLast := flitSeq f, discarding := false } }
  let payload := cut f 2 250
  match bitsOf (leAt f 0 2) 11 10 with
  | 0 => messagesGo h 251 (hp.rxPart ++ payload) s
  | 1 => s.registerFlit h (flitEntries payload)
  | _ => s

/-- FLIT_CRC_ERROR (R357): a flit arrives and is checked. -/
def execFlitCrcError (h : HostPort) (f : Bytes) (s : State) : Result :=
  live s (fun s =>
    if !s.hostUp h then s
    else if flitOk f && flitSeq f = s.hostPorts[h].rxLast + 1 then s.flitGood h f
    else s.flitNak h)

end Sys2Proof.Machine
end

