-- ==== Sys2Proof/Machine/SharedMem.lean ====
section
/-! DEFINITION. Flag RAM and shared SRAM of the firmware complex as their accesses are ordered (21 R442, R458, R459). No command of
the table names such an access: firmware's code makes them (notes/assumptions 88). -/

namespace Sys2Proof.Machine

/-- The words of Flag RAM and of shared SRAM (R442). -/
def flagWords : Nat := 65536 / 4
def sramWords : Nat := 8 * mib / 4

/-! ## Shared SRAM (R459) -/

/-- A word that all cores see; one that nothing has written is not known. -/
def SharedMem.visible (m : SharedMem) (a : Nat) : Option W32 := sfind m.sram a

/-- A store of a core enters its own buffer; SEC has no access (R442). -/
def SharedMem.store (m : SharedMem) (c : FwCore) (a : Nat) (v : W32) : SharedMem :=
  if c = .sec || sramWords ≤ a then m else { m with stores := m.stores ++ [(c, a, v)] }

/-- A load of a core: its own newest buffered store to the address, or what all cores see. -/
def SharedMem.load (m : SharedMem) (c : FwCore) (a : Nat) : Option W32 :=
  match m.stores.reverse.find? (fun e => e.1 = c && e.2.1 = a) with
  | some e => some e.2.2
  | none => m.visible a

/-- The first of a list of stores that core c made, and the others. -/
def takeStore (c : FwCore) : List (FwCore × Nat × W32) → Option ((Nat × W32) × List (FwCore × Nat × W32))
  | [] => none
  | e :: es => if e.1 = c then some (e.2, es) else (takeStore c es).map (fun r => (r.1, e :: r.2))

/-- The oldest buffered store of a core becomes visible to all other cores at one time. -/
def SharedMem.drain (m : SharedMem) (c : FwCore) : SharedMem :=
  match takeStore c m.stores with
  | some ((a, v), rest) => { m with sram := sput m.sram a v, stores := rest }
  | none => m

/-- FENCE: every earlier store of its core completes. -/
def SharedMem.fence (m : SharedMem) (c : FwCore) : SharedMem :=
  (m.stores.filter (fun e => e.1 = c)).foldl (fun m _ => m.drain c) m

/-! ## Flag RAM (R458) -/

/-- A word of Flag RAM. -/
def SharedMem.flagNow (m : SharedMem) (a : Nat) : Option W32 := sfind m.flag a

/-- One access of a core to a word of Flag RAM, in the one order of all its accesses: the core's earlier shared-SRAM stores complete
first. `f` is the word afterwards; the access gives the word before. -/
def SharedMem.flagAccess (m : SharedMem) (c : FwCore) (a : Nat) (f : Option W32 → Option W32) : SharedMem × Option W32 :=
  let m := m.fence c
  let old := m.flagNow a
  match f old with
  | some v => (if a < flagWords then { m with flag := sput m.flag a v } else m, old)
  | none => (m, old)

/-- Load, store, and the 32-bit atomics SWAP, CAS and ADD. -/
def SharedMem.flagLoad (m : SharedMem) (c : FwCore) (a : Nat) : SharedMem × Option W32 := m.flagAccess c a id
def SharedMem.flagStore (m : SharedMem) (c : FwCore) (a : Nat) (v : W32) : SharedMem := (m.flagAccess c a (fun _ => some v)).1
def SharedMem.flagSwap (m : SharedMem) (c : FwCore) (a : Nat) (v : W32) : SharedMem × Option W32 := m.flagAccess c a (fun _ => some v)
def SharedMem.flagCas (m : SharedMem) (c : FwCore) (a : Nat) (cmp v : W32) : SharedMem × Option W32 :=
  m.flagAccess c a (fun old => if old = some cmp then some v else old)
def SharedMem.flagAdd (m : SharedMem) (c : FwCore) (a : Nat) (v : W32) : SharedMem × Option W32 :=
  m.flagAccess c a (fun old => old.map (· + v))

end Sys2Proof.Machine
end

