-- ==== Sys2Proof/Machine/Secure.lean ====
section
/-! DEFINITION. Security state, debug levels and unlock tokens (22 R461 to R470; 18 R397), entry to RMA (R464), and the test access
port (02 R39; 22 R465, R466). -/

namespace Sys2Proof.Machine

/-! ## The test access port (02 R39; 22 R465, R466) -/

/-- IR codes of R466. -/
def irExtest : Byte := 0x00
def irIdcode : Byte := 0x01
def irSample : Byte := 0x02
def irTrace : Byte := 0x10
def irTelem : Byte := 0x11
def irHalt : Byte := 0x20
def irMemrd : Byte := 0x21
def irDbgReset : Byte := 0x22
def irDbgLevel : Byte := 0x30
def irProvWrite : Byte := 0x40
def irProvSeal : Byte := 0x41
def irBypass : Byte := 0xFF

/-- EXTEST and SAMPLE/PRELOAD take the pins: not in SEALED, and only while every pitch is UNBOUND (R465). -/
def State.pinsAllowed (s : State) : Bool := s.secCode ≠ 1 && allPitches.all (fun p => !(s.pitch p).isBound)

/-- The security state and debug level allow a TAP instruction; every other IR value acts as BYPASS (R465, R466). -/
def State.tapAllows (s : State) (ir : Byte) : Bool :=
  if ir = irIdcode then true
  else if ir = irExtest || ir = irSample then s.pinsAllowed
  else if ir = irTrace || ir = irTelem then decide (1 ≤ s.sec.level)
  else if ir = irHalt || ir = irMemrd || ir = irDbgReset then decide (s.sec.level = 2)
  else if ir = irDbgLevel then s.secCode = 0 || s.secCode = 3
  else if ir = irProvWrite || ir = irProvSeal then decide (s.secCode = 0)
  else false

/-- The TAP moves to an instruction. As it leaves the pins, every host link retrains, and every network link (R465); a die held in reset
trains its links at its next boot instead. -/
def State.tapLoad (s : State) (ir : Byte) (pins : Bool) (out : TapOut) : State :=
  let was := s.tap.pins
  let s := { s with tap := ⟨ir, out, pins⟩ }
  if was && !pins && !s.held then
    let s := (List.finRange 8).foldl (fun s h => s.hostRetrain h s.hostPorts[h].modules s.hostPorts[h].rate) s
    State.retime { s with netPorts := s.netPorts.map NetPortSt.trained }
  else s

/-- Run a TAP instruction, or act as BYPASS where it is refused. -/
def State.tapRun (s : State) (ir : Byte) (f : State → State) : State :=
  if s.tapAllows ir then f s else s.tapLoad irBypass false .none

/-- TAP_RESET (02 R39): TRST_N resets the TAP alone, in every state. -/
def execTapReset (s : State) : Result := .next (s.tapLoad irIdcode false .none)

/-- IDCODE (02 R39): it works in every state. -/
def execIdcode (s : State) : Result := .next (s.tapLoad irIdcode false (.idcode 0x13216963))

/-- BYPASS (R466): the instruction of code 0xFF, a reserved one or a refused one passes TDI to TDO through one bit. It works in
every state. -/
def execBypass (ir : Byte) (tdi : Bool) (s : State) : Result :=
  .next (if s.tapAllows ir && !s.held then s else s.tapLoad irBypass false (.bypass tdi))

/-- The boundary as it is captured. -/
def State.boundaryScan (s : State) (ir : Byte) : State :=
  s.tapRun ir (fun s => let (n, s) := s.draw; s.tapLoad ir true (.boundary (Config.boundaryCapture n)))

/-- EXTEST (22 R465). -/
def execExtest (s : State) : Result := live s (fun s => s.boundaryScan irExtest)
/-- SAMPLE_PRELOAD (02 R39). -/
def execSamplePreload (s : State) : Result := live s (fun s => s.boundaryScan irSample)

/-- TRACE (R466): masked at OBSERVE. -/
def execTrace (s : State) : Result :=
  live s (fun s => s.tapRun irTrace (fun s =>
    let (n, s) := s.draw
    s.tapLoad irTrace false (.bytes (Config.freeTrace n (s.sec.level = 1)))))

/-- TELEM (R466): telemetry classes as 18 R396 numbers them. With scope 0, INDEX names the pitch (notes/assumptions 55); a read that
telemetry.read would refuse gives no values. -/
def State.telemOut (s : State) (cls scope index first count : Nat) : List W64 :=
  if !classKnown cls || 2 < scope || (scope = 0 && 12 ≤ index) || 16 < index || count = 0 || 4096 < count then []
  else (List.range count).map (fun i => BitVec.ofNat 64 (s.telemetry (Fin.ofNat 12 index) cls scope index (first + i)))

/-- TELEM (R466). -/
def execTelem (cls scope index first count : Nat) (s : State) : Result :=
  live s (fun s => s.tapRun irTelem (fun s => s.tapLoad irTelem false (.values (s.telemOut cls scope index first count))))

/-- HALT on a cluster control or scheduler core. A step of a halted core is firmware's own and changes nothing named here. -/
def State.haltCore (s : State) (c : FwCore) (a : HaltAction) : State :=
  let s := s.tapLoad irHalt false .none
  if c = .sec || c = .pwr then s
  else match a with
    | .halt => { s with fw := { s.fw with tapHalted := addNew c s.fw.tapHalted } }
    | .step => s
    | .resume => { s with fw := { s.fw with tapHalted := s.fw.tapHalted.erase c } }
    | .readRegisters => let (n, s) := s.draw; s.tapLoad irHalt false (.values (Config.freeCoreRegisters n))

/-- HALT (R466): SEC and PWR are never halted. -/
def execHalt (c : FwCore) (a : HaltAction) (s : State) : Result := live s (fun s => s.tapRun irHalt (fun s => s.haltCore c a))

/-- A byte of the engine's memory as MEMRD finds it: staging of a pitch at work holds what no rule places (01 R495), and the
transport's tables hold what 11 R264 lays out. -/
def State.byteNow (s : State) (n a : Nat) : Byte :=
  if allPitches.any (fun p => (s.pitch p).isBound && (s.pitch p).meetsArea p a 1) then Config.freeStagingByte n a
  else (allPitches.findSome? (fun p => (s.pitch p).tableByte p a)).getD (s.byte a)

/-- Number of a firmware memory for its free contents. -/
def firmwareMemory : DebugMem → Nat
  | .flagRam => 0
  | .sharedSram => 1
  | .privateSram c => 2 + coreNumber c
  | _ => 20

/-- Size of a firmware memory (21 R442). -/
def firmwareSize : DebugMem → Nat
  | .flagRam => 65536
  | .sharedSram => 8 * mib
  | .privateSram .sec => mib
  | .privateSram .pwr => 262144
  | .privateSram (.sch _) => 2 * mib
  | .privateSram (.cc _) => 524288
  | .rom => 262144
  | .retainedStore => 8 * mib
  | _ => 0

/-- A byte of a firmware memory (21 R442): what State holds of it, or else a free value, since firmware's data has no layout;
free too beyond its size. -/
def State.firmwareByte (s : State) (n : Nat) (m : DebugMem) (a : Nat) : Byte :=
  let k := firmwareMemory m
  let free := Config.firmwareWord n k a
  let word := fun (v : Option W32) => (v.map (fun v => (leBytes 4 v.toNat).getD (a % 4) 0)).getD free
  if firmwareSize m ≤ a then free
  else match m with
    | .flagRam => word (s.fw.shared.flagNow (a / 4))
    | .sharedSram => word (s.fw.shared.visible (a / 4))
    | _ => sget s.fw.memory (2 ^ 32 * k + a) free

/-- Byte a of a memory, as MEMRD reads it: firmware's data has no layout, and secrets read 0. -/
def State.debugByte (s : State) (m : DebugMem) (n a : Nat) : Byte :=
  match m with
  | .staging | .hbm | .queueMemory => s.byteNow n a
  | .erg => (ergBytes (s.ergGet (a / 80))).getD (a % 80) 0
  | .flagRam | .sharedSram => s.firmwareByte n m a
  | .privateSram c => if c = .sec || c = .pwr then 0 else s.firmwareByte n m a
  | .rom | .fuses | .retainedStore | .keyStorage => 0

/-- MEMRD (R466): reads only. -/
def execMemrd (m : DebugMem) (a n : Nat) (s : State) : Result :=
  live s (fun s => s.tapRun irMemrd (fun s =>
    let (k, s) := s.draw
    s.tapLoad irMemrd false (.bytes ((List.range n).map (fun i => s.debugByte m k (a + i))))))

/-- DBG_RESET (R466): a warm reset with RESET_CAUSE 0x3. -/
def execDbgReset (env : BootEnv) (s : State) : Result := live s (fun s => s.tapRun irDbgReset (fun s => s.warmBoot 3 env))

/-! ## Debug level and security state (R461 to R463, R469, R470) -/

/-- After a change of the security state from `old`: it is logged, and the CDI and Alias key are derived again (R463). -/
def State.securityChange (s : State) (old : Nat) : State :=
  if s.secCode = old then s
  else (s.logEvent logSecurity (leBytes 1 old ++ leBytes 1 s.secCode ++ leBytes 1 s.fuses.rollback)).deriveAlias

/-- Group secrets and derived keys of every pitch are destroyed (12 R291). -/
def State.destroyKeys (s : State) : State := s.forPitches (fun p s => s.modPitch p (fun x => { x with keys := {} }))

/-- A debug level with its session. Keys are destroyed as INVASIVE is granted; as the level falls, halted cores resume and the TAP
drops to BYPASS (R469, R470). -/
def State.setLevel (s : State) (level : Nat) (session : Option Nat) : State :=
  let old := s.sec.level
  let code := s.secCode
  let s := { s with sec := { s.sec with level := level, session := session } }
  let s := if level = 2 then s.destroyKeys else s
  let s := if level < old then { s with fw := { s.fw with tapHalted := [] } }.tapLoad irBypass false .none else s
  s.securityChange code

/-- A DEBUG record (23 R491). -/
def State.debugRecord (s : State) (action outcome detail key expiry : Nat) : State :=
  s.logEvent logDebug (leBytes 1 action ++ leBytes 1 outcome ++ leBytes 4 detail ++ leBytes 1 key ++ [0] ++ leBytes 4 expiry)

/-- The session has run out (R469). -/
def State.expireSession (s : State) : State :=
  if s.sec.session = some 0 then (s.setLevel 0 none).debugRecord s.sec.level 2 0 0 0 else s

/-- DEBUG_TOKEN_EXPIRY (R469). -/
def execDebugTokenExpiry (s : State) : Result := live s (fun s => s.expireSession)

/-- DEBUG_NONCE is valid for 1,024 management epochs (18 R397). -/
def State.nonceValid (s : State) : Option W128 := if s.sec.nonceAge < 1024 then s.sec.nonce else none

/-- DEBUG_NONCE_EXPIRY (18 R397). -/
def execDebugNonceExpiry (s : State) : Result := live s (fun s => { s with sec := { s.sec with nonce := s.nonceValid } })

/-- DBG_LEVEL (R466): in OPEN and RMA, without a token. -/
def execDbgLevel (level : Fin 3) (s : State) : Result :=
  live s (fun s => s.tapRun irDbgLevel (fun s => (s.tapLoad irDbgLevel false .none).setLevel level.val none))

/-! ## Provisioning (R462, R465) -/

/-- One item of the provisioning data is written. -/
def Prov.put (q : Prov) : ProvItem → Prov
  | .adminPorts m => { q with adminPorts := m }
  | .lane8Wired m => { q with lane8Wired := m }
  | .retainEn b => { q with retainEn := b }
  | .drowseEn b => { q with drowseEn := b }
  | .portMac n m => { q with macs := sset q.macs n.val m 0 }
  | .ptpAddress a => { q with ptpAddress := a }
  | .servoPort n => { q with servoPort := n }
  | .ptpDomain d => { q with ptpDomain := d }
  | .raw off d => if off + d.length ≤ FlashRegion.prov.size then { q with raw := putRun q.raw off d } else q
  | .crc c => { q with crc := c }
  | .complete b => { q with complete := b }

/-- PROV_WRITE (R465): in OPEN alone. DROWSE_EN is an input of TSIG (16 R336). -/
def execProvWrite (item : ProvItem) (s : State) : Result :=
  live s (fun s => s.tapRun irProvWrite (fun s =>
    let s := s.tapLoad irProvWrite false .none
    if s.flashAllows .prov then State.retime { s with prov := s.prov.put item } else s))

/-- The provisioning data is complete and its CRC-32C passes. -/
def Prov.sealable (q : Prov) : Bool := q.complete && decide (crc32c (q.raw.map Prod.snd) = q.crc.toNat)

/-- PROV_SEAL (R462): the SEAL fuse is blown; the state changes at the next reset. -/
def execProvSeal (s : State) : Result :=
  live s (fun s => s.tapRun irProvSeal (fun s =>
    let s := s.tapLoad irProvSeal false .none
    if s.prov.sealable then { s with fuses := { s.fuses with sealFuse := true } } else s))

/-! ## Unlock tokens (R467, R468) -/

def tokMagic : Nat := 0x54444243

/-- Header bytes 0 to 7 are valid but for ACTION. -/
def tokHead (t : Bytes) : Bool := leAt t 0 4 = tokMagic && leAt t 4 1 = 1 && leAt t 7 1 = 0

/-- Check 1 of a signed token. -/
def tokForm (t : Bytes) : Bool :=
  let a := leAt t 5 1
  let e := leAt t 8 4
  t.length = 280 && tokHead t && 1 ≤ a && a ≤ 3 && leAt t 12 4 = 0 && leAt t 177 7 = 0
    && (if a = 3 then decide (e = 0) else decide (1 ≤ e) && decide (e ≤ 4194304))

/-- The fused hash of a debug key slot. -/
def Fuses.debugKey (f : Fuses) (k : Nat) : Option Bytes := if k = 0 then some f.debugKey0 else if k = 1 then some f.debugKey1 else none

/-- The DETAIL of the first check a signed token fails; 0 where it passes (R468). -/
def State.tokenDetail (s : State) (t : Bytes) : Nat :=
  let slot := leAt t 6 1
  let a := leAt t 5 1
  if !tokForm t then 1
  else if s.nonceValid ≠ some (BitVec.ofNat 128 (leAt t 16 16)) then 2
  else if s.sec.rma || sha384 ((4 : Byte) :: publicKey s.sec.deviceKey) ≠ cut t 32 48 then 3
  else if s.fuses.debugKey slot ≠ some (sha384 (cut t 80 97)) || (true, slot) ∈ s.fuses.revoked then 4
  else if !ecdsaVerify (cut t 81 96) (sha384 (t.take 184)) (cut t 184 96) then 5
  else if (if a = 3 then s.secCode = 3 else s.secCode = 0 || s.secCode = 3) then 6
  else 0

/-- A pitch is RUNNING or STOPPING. -/
def State.anyActive (s : State) : Bool := allPitches.any (fun p => (s.pitch p).mode = .running || (s.pitch p).mode = .stopping)

/-- Entry to RMA (R464). -/
def State.enterRma (s : State) (key : Nat) : State :=
  let code := s.secCode
  let bound := sumOf (allPitches.map (fun p => bit (s.pitch p).isBound * 2 ^ p.val))
  let s := s.logRaw logRma (leBytes 1 code ++ leBytes 1 s.sec.level ++ leBytes 1 key ++ [0] ++ leBytes 2 bound
    ++ leBytes 1 s.fuses.repairEntries.length ++ leBytes 1 s.fuses.rollback)
  let s := { s with fuses := { s.fuses with rma := true, udsLock := true } }
  let s := (s.setLevel 0 s.sec.session).destroyKeys
  let s := { s with sec := { s.sec with
    rma := true, session := none, deviceKey := 0, wrapKey := 0, aliasKey := 0, cdi := [], aliasCert := [], rmaLocked := true } }
  let s := s.securityChange code
  s.forPitches (fun p s =>
    let s := s.faultPitch p
    s.modPitch p (fun x => if x.isBound then { x with mode := .faulted } else x))

/-- The level that RESULT byte 16 reports. -/
def levelResult (level : Nat) : Bytes := leBytes 1 level

/-- Grant OBSERVE or INVASIVE, refused while a pitch is at work where it is INVASIVE; `s0` is the state as the command waits for
a wake that power-down forbids (R468, R476, R478). -/
def State.grant (s s0 : State) (action key expiry : Nat) (session : Option Nat) : Act :=
  if action = 2 && s.anyActive then .no (s.debugRecord action 3 16 key expiry) ⟨eState, 16⟩
  else if action = 2 && s.power.device = 2 && s.power.warned then .wait s0
  else
    let s := if action = 2 then s.wake else s
    .ok ((s.setLevel action session).debugRecord action 0 0 key expiry) (levelResult action)

/-- debug.unlock after the common checks. -/
def unlockBody (_ : PitchId) (s0 : State) (_ : Cmd) (_ : HostPort) (t : Bytes) (s : State) : Act :=
  let s := s.expireSession
  let a := leAt t 5 1
  let key := leAt t 6 1
  let expiry := leAt t 8 4
  let free : Bool := s.secCode = 0 || s.secCode = 3
  if t.isEmpty then .ok ((s.setLevel 0 none).debugRecord 0 1 0 0 0) (levelResult 0)
  else if free && decide (t.length = 8) && tokHead t && decide (a ∈ [1, 2]) && decide (key ≤ 1) then s.grant s0 a key 0 none
  else
    let d := s.tokenDetail t
    let s := { s with sec := { s.sec with nonce := none } }
    if d ≠ 0 then .no (s.debugRecord a 3 d key expiry) ⟨eAuth, d⟩
    else if a = 3 then .ok ((s.enterRma key).debugRecord a 0 0 key expiry) (levelResult 0)
    else s.grant s0 a key expiry (some expiry)

def unlockSpec : CmdSpec :=
  { op := 0x90, admin := fun _ => true, payOk := fun c => c.payLen ≤ 4096, legal := fun s p _ => need (s.pitch p).isBound eState 0 }

/-- DEBUG_UNLOCK (R468). -/
def execDebugUnlock (p : PitchId) (s : State) : Result := live s (fun s => s.command p unlockSpec (unlockBody p s))

end Sys2Proof.Machine
end

