-- ==== Sys2Proof/Machine/Update.lean ====
section
/-! DEFINITION. Live update of the firmware: fw.stage, fw.activate and the handover (18 R398, R401; 21 R452 to R454). -/

namespace Sys2Proof.Machine

/-! ## fw.stage (18 R398) -/

/-- OFFSET, and whether LAST is set. -/
def stageOffset (c : Cmd) : Nat := c.arg 32 4
def stageLast (c : Cmd) : Bool := c.arg 36 1 = 1

/-- OFFSET and PAY_LEN lie in the ranges of R398. -/
def stageRange (c : Cmd) : Bool :=
  stageOffset c % 4096 = 0 && stageOffset c < (FlashRegion.bank true).size && stageOffset c + c.payLen ≤ (FlashRegion.bank true).size && (stageLast c || c.payLen % 4096 = 0)

/-- The session of another pitch refuses the chunk; then its range, an ended session, and a chunk out of order do. -/
def State.stageCheck (s : State) (p : PitchId) (c : Cmd) : Check :=
  let other : Bool := match s.fw.staging with | some g => decide (g.owner ≠ p) | none => false
  let goesOn : Bool := match s.fw.staging with | some g => decide (g.owner = p) && decide (g.next = stageOffset c) | none => false
  firstOf [need (!other) eBusy 0, need (stageRange c) eRange 0,
    need (stageOffset c = 0 || s.fw.staging.isSome || p ∉ s.fw.aborted) eAborted 0,
    need (stageOffset c = 0 || goesOn) eImage 3]

/-- A chunk is programmed into the inactive bank; the first one opens the session and discards an earlier staged image. -/
def State.stageChunk (s : State) (p : PitchId) (off : Nat) (d : Bytes) : State :=
  let isB := !s.flash.activeB
  let s := if off = 0 && s.flash.stagedVerified then s.writeDirectory s.flash.activeB false else s
  let old := if off = 0 then [] else s.flash.bank isB
  let b := old ++ d
  let s := s.program (.bank isB) (if isB then { s.flash with bankB := b } else { s.flash with bankA := b })
  { s with
    fw := { s.fw with staging := some ⟨p, off + d.length⟩, aborted := if off = 0 then s.fw.aborted.erase p else s.fw.aborted } }

/-- DETAIL of E_IMAGE for an image the ROM's checks refuse (notes/assumptions 56). -/
def imageDetail (code : Nat) : Nat := if code = 9 then 2 else 1

/-- The last chunk closes the session; the image is checked as the ROM does. -/
def State.stageClose (s : State) : Act :=
  let b := s.flash.bank (!s.flash.activeB)
  let s := { s with fw := { s.fw with staging := none } }
  let code := s.imageCode b
  if code = 0 then .ok (s.writeDirectory s.flash.activeB true) (leBytes 4 (leAt b 8 4) ++ leBytes 2 (leAt b 6 2))
  else .no s ⟨eImage, imageDetail code⟩

def stageSpec : CmdSpec :=
  { op := 0x80, admin := fun _ => true, used := [(32, 5)]
    badArg := fun c => if 1 < c.arg 36 1 then some 36 else none
    payOk := fun c => 1 ≤ c.payLen && c.payLen ≤ mib
    legal := fun s p _ => need (s.pitch p).isBound eState 0 }

def stageBody (p : PitchId) (c : Cmd) (_ : HostPort) (d : Bytes) (s : State) : Act :=
  match s.stageCheck p c with
  | some r => .no s r
  | none =>
    let s := s.stageChunk p (stageOffset c) d
    if stageLast c then s.stageClose else .ok s

/-- FW_STAGE (18 R398). -/
def execFwStage (p : PitchId) (s : State) : Result := live s (fun s => s.command p stageSpec (stageBody p))

/-! ## fw.activate (18 R398, R401) -/

/-- Every open staging session ends. -/
def State.endSessions (s : State) : State :=
  match s.fw.staging with
  | some g => { s with fw := { s.fw with staging := none, aborted := addNew g.owner s.fw.aborted } }
  | none => s

def activateSpec : CmdSpec :=
  { op := 0x81, admin := fun _ => true, legal := fun s p _ => need (s.pitch p).isBound eState 0, wakes := fun _ _ _ => true }

def activateBody (p : PitchId) (_ : Cmd) (_ : HostPort) (_ : Bytes) (s : State) : Act :=
  let s := s.endSessions
  if !s.flash.stagedVerified then .no s ⟨eImage, 4⟩
  else .owe { s with fw := { s.fw with activating := some p } } .fwActivate

/-- FW_ACTIVATE (18 R401): the response follows the handover, which begins at the next epoch boundary. -/
def execFwActivate (p : PitchId) (s : State) : Result := live s (fun s => s.command p activateSpec (activateBody p))

/-! ## The bivouac record (21 R452) -/

/-- A TLV of the record: its header, and its value padded to a multiple of 8 bytes. -/
def bivouacTlv (type : Nat) (crit : Bool) (value : Bytes) : Bytes :=
  leBytes 2 (type + 32768 * bit crit) ++ leBytes 2 0 ++ leBytes 4 value.length ++ padTo (roundUp value.length 8) value

/-- TYPE and CRIT of the TLVs of a record: ENGINE; PITCH and MEMBERSHIP of every bound pitch; COMMAND for every command whose response
is owed; FLASH and TELEMETRY; DEBUG while a session is in force. -/
def State.bivouacTypes (s : State) : List (Nat × Bool) :=
  let bound := allPitches.filter (fun p => (s.pitch p).isBound)
  [(1, true)] ++ bound.map (fun _ => (2, true)) ++ bound.flatMap (fun p => (s.pitch p).mail.owed.map (fun _ => (3, true)))
    ++ bound.map (fun _ => (4, true)) ++ [(5, true), (6, false)] ++ (if s.sec.session.isSome then [(7, false)] else [])

/-- The header of a record up to its CRC, which is taken as 0: `tlvs` TLVs of `len` bytes in all. -/
def State.bivouacHeader (s : State) (tlvs len : Nat) : Bytes :=
  [0x42, 0x56, 0x41, 0x43] ++ leBytes 2 1 ++ leBytes 2 tlvs ++ leBytes 4 (64 + len) ++ leBytes 4 s.fw.imageVersion.toNat
    ++ leBytes 2 s.fw.fwNum.toNat ++ leBytes 2 0 ++ leBytes 8 s.glob.mgmtTick.toNat ++ leBytes 4 s.fw.lease.term.toNat
    ++ List.replicate 28 0

/-- The record of the old image. What its TLVs hold has no layout and is free. -/
def State.bivouacRecord (s : State) (n : Nat) : Bytes :=
  let tlvs := s.bivouacTypes.zipIdx.map (fun t => bivouacTlv t.1.1 t.1.2 (Config.freeBivouac n t.2))
  let body := tlvs.flatten
  let h := s.bivouacHeader tlvs.length body.length
  h ++ leBytes 4 (crc32c (h ++ leBytes 4 0 ++ body)) ++ body

/-- A record that a new image can adopt if it knows FORMAT and every critical TLV: it fits its 1 MiB and its CRC passes. -/
def bivouacOk (r : Bytes) : Bool :=
  64 ≤ r.length && r.length ≤ mib && r.take 4 = [0x42, 0x56, 0x41, 0x43] && leAt r 8 4 = r.length
    && leAt r 60 4 = crc32c (r.take 60 ++ leBytes 4 0 ++ r.drop 64)

/-- Command reading stops at the boundary after fw.activate is checked, and the old image builds its record (18 R401). -/
def State.freeze (s : State) : State :=
  if s.fw.activating.isNone || s.fw.lease.frozen then s
  else
    let (n, s) := s.draw
    { s with fw := { s.fw with bivouac := s.bivouacRecord n, lease := { s.fw.lease with frozen := true } } }

/-! ## The handover (18 R401; 21 R450, R452) -/

/-- The new image adopts the record: it runs, ACTIVE_BANK names it, and the identity follows it. A record without its DEBUG TLV
ends the debug session. -/
def State.adopt (s : State) (knowsDebug : Bool) : State :=
  let isB := !s.flash.activeB
  let s := ((s.runImage isB).writeDirectory isB false).deriveAlias
  let s := if knowsDebug then s else s.setLevel 0 none
  s.blowRollback

/-- Commands that stayed in a ring until now carry HANDOVER. -/
def Pitch.markHandover (x : Pitch) : Pitch :=
  let v := x.qptr 0
  if v.used = 0 then x else { x with mail := { x.mail with handover := some v.tail } }

/-- Command reading resumes: the response of fw.activate, ntc.fw.handover on every bound pitch, and the messages that waited. -/
def State.endHandover (s : State) (before : W32) (r : Refuse) (result : Nat) : State :=
  let s := { s with fw := { s.fw with activating := none, bivouac := [], lease := { s.fw.lease with frozen := false } } }
  let s := s.forPitches (fun p s => (s.answerOwed p .fwActivate r []).retain p)
  let args := leBytes 4 before.toNat ++ leBytes 4 s.fw.imageVersion.toNat ++ leBytes 1 result
  let s := s.forPitches (fun p s => (s.notice p ntcHandover args).modPitch p Pitch.markHandover)
  s.handleMessages

/-- The handover ends (R401): the partial hour is written, and the new image adopts the record, or the old image resumes. `adopts`
says that it knows the record's FORMAT and every TLV of it with CRIT 1 (R452). -/
def State.handover (s : State) (adopts knowsDebug : Bool) : State :=
  if !s.fw.lease.frozen then s
  else
    let before := s.fw.imageVersion
    let s := s.partialHour
    if adopts && bivouacOk s.fw.bivouac then (s.adopt knowsDebug).endHandover before ⟨stOk, 0⟩ 0 else s.endHandover before ⟨eImage, 5⟩ 1

/-- FW_HANDOVER (18 R401). -/
def execFwHandover (adopts knowsDebug : Bool) (s : State) : Result := live s (fun s => s.handover adopts knowsDebug)

end Sys2Proof.Machine
end

