-- ==== Sys2Proof/Machine/Epoch.lean ====
section
/-! DEFINITION. The management epoch and what it drives (02 R44; 23 R479 to R481; 21 R455, R457; 11 R272, R273; 20 R428, R429),
sensor samples and droop (23 R479; 02 R41, R45), and changes of the device power state (22 R475). -/

namespace Sys2Proof.Machine

/-! ## Sensors (23 R479; 02 R41, R45) -/

/-- The time 2^20 CCLK take, in units of 2^-16 ns (02 R43). -/
def State.epochTime (s : State) : Nat := epochLen * 655360 * s.power.divider / s.vco

/-- The highest of a list of readings. -/
def hottest (ts : List Int) : Int := match ts with | [] => 0 | t :: ts => ts.foldl max t

/-- New readings in quarter degrees and millivolts; a sensor without one keeps its last. -/
def State.sample (s : State) (quarters : List Int) (droops : List Nat) : State :=
  let w := s.power
  let now := w.temps.zipIdx.map (fun t => quarters.getD t.2 t.1)
  let top := hottest now
  let h := s.health.hour
  { s with
    power := { w with
      temps := now
      sampled := true
      tempsMax := if w.sampled then List.zipWith max w.tempsMax now else now
      tempsEpoch := if w.tempsEpoch.isEmpty then now else List.zipWith max w.tempsEpoch now
      droopMax := w.droopMax.zipIdx.map (fun d => max d.1 (droops.getD d.2 0)) }
    health := { s.health with hour := { h with
      hottest := if h.samples = 0 then top else max h.hottest top
      sum := h.sum + top
      samples := h.samples + 1
      droop := maxOf droops h.droop } } }

/-- THERMTRIP: above 120 °C the die is held in reset until the next power-on reset (02 R41). -/
def State.thermTrip (s : State) : State :=
  if 480 < hottest s.power.temps then { s with held := true, power := { s.power with thermtrip := true } } else s

/-- THERMAL_SAMPLE (23 R479): the next multiple of 65,536 CCLK comes. -/
def execThermalSample (quarters : List Int) (droops : List Nat) (s : State) : Result :=
  live s (fun s => if s.clockRuns then ((s.advanceTo ((s.cclk / 65536 + 1) * 65536)).sample quarters droops).thermTrip else s)

/-- The most wall time a stretch adds: half a period for 64 cycles (02 R45). -/
def State.stretchMost (s : State) : Nat := 32 * 655360 * s.power.divider / s.vco

/-- DROOP_STRETCH (02 R45; 23 R481): a reading of 50 mV or more trips the stretch. Cycle counts stay; wall time lengthens. -/
def execDroopStretch (detector : Fin 16) (mv : Nat) (s : State) : Result :=
  live s (fun s =>
    let w := s.power
    let high := max (w.droopMax.getD detector.val 0) mv
    let h := s.health.hour
    let s := { s with
      power := { w with droopMax := setAt w.droopMax detector.val high }
      health := { s.health with hour := { h with droop := max h.droop mv } } }
    if mv < 50 then s
    else
      let (n, s) := s.draw
      { s with
        power := { s.power with droopStretch := s.power.droopStretch + 1 }
        ptp := { s.ptp with base := s.ptp.base + ((Config.freeStretch n % (s.stretchMost + 1) : Nat) : Int) }
        health := { s.health with hour := { s.health.hour with stretches := s.health.hour.stretches + 1 } } })

/-! ## Thermal and margin response (23 R480, R481) -/

/-- The thermal state after an epoch whose highest reading was T quarter degrees. -/
def thermalNext (old : Nat) (t : Int) (slackHot : Bool) : Nat :=
  if old = 2 then (if 400 ≤ t || slackHot then 2 else if 360 ≤ t then 1 else 0)
  else if 420 ≤ t || slackHot then 2
  else if old = 1 then (if t < 360 then 0 else 1)
  else if 380 ≤ t then 1
  else 0

/-- The lowest sensor that read the highest value. -/
def hotSensor (ts : List Int) : Nat := (ts.findIdx? (fun t => t = hottest ts)).getD 0

/-- ntc.thermal, at most once per epoch (18 R399). -/
def State.thermalNotice (s : State) (p : PitchId) (sensor deg state : Nat) : State :=
  if (s.pitch p).mail.thermalTold then s.modPitch p Pitch.dropNotice
  else (s.notice p ntcThermal (leBytes 1 sensor ++ leBytes 1 deg ++ leBytes 1 state)).modPitch p (fun x =>
    { x with mail := { x.mail with thermalTold := true } })

/-- The margin replicas are read, and VDD_CORE is steered from the lowest slack (R481). -/
def State.marginEpoch (s : State) (slack : List Int) : State :=
  let w := s.power
  let now := w.slack.zipIdx.map (fun t => slack.getD t.2 t.1)
  let low : Int := match now with | [] => 0 | t :: ts => ts.foldl min t
  let h := s.health.hour
  let first : Bool := s.glob.mgmtTick = 1
  { s with
    power := { w with
      slack := now
      slackMin := if first then now else List.zipWith min w.slackMin now
      slackHot := if low < 10 && w.vddCore = 850 then true else if 20 ≤ low then false else w.slackHot
      vddCore := if low < 20 then min 850 (w.vddCore + 5) else if 40 < low then max 670 (w.vddCore - 5) else w.vddCore }
    health := { s.health with hour := { h with slackMin := some (match h.slackMin with | some m => min m low | none => low) } } }

/-- The thermal state is set from the epoch's highest reading; HOT calls for D-LOW (R480; 22 R475). -/
def State.thermalEpoch (s : State) : State :=
  let w := s.power
  let seen := if w.tempsEpoch.isEmpty then w.temps else w.tempsEpoch
  let t := hottest seen
  let new := thermalNext w.thermal t w.slackHot
  let deg := toTwos 8 (wholeDegrees t)
  let sensor := hotSensor seen
  let hot : Bool := new = 2
  let s := { s with power := { w with
    thermal := new, tjMax := deg, tempsEpoch := [], callLow := hot
    clearEpochs := if hot then 0 else w.clearEpochs + 1
    device := if hot && w.device = 0 then 1 else w.device } }
  let s := s.retime
  if new = w.thermal then s
  else
    let s := s.logEvent logThermal (leBytes 1 sensor ++ leBytes 1 deg ++ leBytes 1 w.thermal ++ leBytes 1 new)
    s.forPitches (fun p s => s.thermalNotice p sensor deg new)

/-! ## The epoch (02 R44) -/

/-- A channel at an epoch boundary: a slot for the next minimum of the RTT, and weights of paths that fell in no sample (11 R272,
R273). -/
def Channel.epoch (c : Channel) : Channel :=
  { c with
    baseRtt := (none :: c.baseRtt).take 64
    weights := (List.range 272).foldl (fun w e => if e ∈ c.decreased then w else sset w e (min 15 (sget w e 8 + 1)) 8) c.weights
    decreased := [] }

/-- What an epoch counts in a pitch: rate limits of notices begin anew (18 R399), and the cursor's stillness is counted (03 R77). -/
def Pitch.epoch (x : Pitch) : Pitch :=
  { x with
    mail := { x.mail with repairTold := [], thermalTold := false }
    time := { x.time with stillEpochs := if x.time.state = .active then x.time.stillEpochs + 1 else x.time.stillEpochs }
    tx := { x.tx with channels := x.tx.channels.map (fun c => (c.1, c.2.epoch)) } }

/-- Power-on seconds and the times of the hour (23 R491). -/
def State.clockEpoch (s : State) : State :=
  let dt := s.epochTime
  let h := s.health
  let second := 65536 * 1000000000
  let t := h.posFrac + dt
  { s with health := { h with
      posSeconds := h.posSeconds + t / second
      posFrac := t % second
      hour := { h.hour with
        warmTime := if 1 ≤ s.power.thermal then h.hour.warmTime + dt else h.hour.warmTime
        lowTime := if s.power.device = 1 then h.hour.lowTime + dt else h.hour.lowTime } } }

/-- Nothing keeps the engine out of D-RETAIN now (22 R475). -/
def State.idleNow (s : State) : Bool :=
  !s.anyActive && s.sec.level ≠ 2 && s.fw.staging.isNone && s.fw.activating.isNone && !s.fw.lease.frozen && s.power.device ≠ 2

/-- Counts of SEC, of the lease arbiter and of the power core; a handover that is due begins with the boundary (18 R397, R401; 21
R455; 22 R469, R475), and a flash mirror write in progress is done (21 R446). -/
def State.countEpoch (s : State) : State :=
  { s with
    flash := s.flash.finishMirror
    sec := { s.sec with session := s.sec.session.map (fun n => n - 1), nonceAge := s.sec.nonceAge + 1 }
    power := { s.power with idleEpochs := if s.idleNow then s.power.idleEpochs + 1 else 0 }
    fw := { s.fw with lease := { s.fw.lease with
      renewAge := if s.leased then s.fw.lease.renewAge + 1 else s.fw.lease.renewAge } } }

/-- MGMT_TICK counts a wrap of the 20-bit counter, and the epoch's work is done. -/
def State.epoch (s : State) (env : EpochEnv) : State :=
  let s := s.advanceTo s.epochBoundary
  let s := { s with glob := { s.glob with mgmtTick := s.glob.mgmtTick + 1 } }
  let s := (s.clockEpoch.countEpoch).freeze.livenessEpoch
  let s := s.forPitches (fun p s => s.modPitch p (fun x => x.epoch.memberEpoch))
  let s := (s.marginEpoch env.slack).thermalEpoch
  let s := s.portsEpoch env.symbols env.corrected env.uncorrected
  let s := { s with health := { s.health with hour := { s.health.hour with fec := s.health.hour.fec + sumOf env.uncorrected } } }
  s.forPitches (fun p s => s.memberBeats p)

/-- MGMT_EPOCH (02 R44). -/
def execMgmtEpoch (env : EpochEnv) (s : State) : Result := live s (fun s => if s.clockRuns then s.epoch env else s)

/-! ## Device power state (22 R475) -/

/-- D_LOW_EXIT (R475): the thermal condition has been clear for 16 epochs. -/
def execDLowExit (s : State) : Result :=
  live s (fun s =>
    if s.power.device = 1 && !s.power.callLow && 16 ≤ s.power.clearEpochs then State.retime { s with power := { s.power with device := 0 } } else s)

/-- D_RETAIN_ENTRY (R475): RETAIN_EN is set and 64 idle epochs have passed. -/
def execDRetainEntry (s : State) : Result :=
  live s (fun s =>
    if s.prov.retainEn && 64 ≤ s.power.idleEpochs && s.idleNow then
      let rest := retainCells.filter (fun c => s.power.cells.toList.getD c .off ≠ .off)
      (State.retime { s with power := { s.power with device := 2, idleEpochs := 0 } }).setCells rest .drowse
    else s)

/-- The divider that the device power state calls for (R474). -/
def State.dividerDue (s : State) : Nat := if s.power.device = 0 then 2 else 4

/-- CCLK_DIVIDER_CHANGE (R475): a change of divider takes effect at a plan-period boundary, and TSIG is computed again. -/
def execCclkDividerChange (s : State) : Result :=
  live s (fun s => if s.power.divider = s.dividerDue then s else (s.advanceTo s.planBoundary).setDivider s.dividerDue)

end Sys2Proof.Machine
end

