-- ==== Sys2Proof/Machine/Keys.lean ====
section
/-! DEFINITION. key.install (12 R288, R289). -/

namespace Sys2Proof.Machine

/-- Legal states: a group joined or a spare registered (18 R390); not at level INVASIVE and not in RMA (22 R465, R470). -/
def keyLegal (s : State) (p : PitchId) (_ : Cmd) : Check :=
  let x := s.pitch p
  need (s.sec.level ≠ 2 && !s.sec.rma && decide (x.mode ∈ [.configured, .running, .stopped]) && x.member.record.role ≠ 0) eState 0

def keySpec : CmdSpec := { op := 0x60, payOk := fun c => c.payLen = 176, legal := keyLegal }

/-- KEK of a key record (R288 step 2). -/
def keyKek (p : PitchId) (z r : Bytes) : Bytes :=
  hkdf384 z ([0x43, 0x42, 0x59, 0x2D, 0x4B, 0x45, 0x4B] ++ [BitVec.ofNat 8 p.val] ++ beBytes 2 (leAt r 0 2) ++ cut r 2 1) 32

/-- Unwrap a key record with the wrapping private key (R288). -/
def State.unwrapKey (s : State) (p : PitchId) (r : Bytes) : Option Secret :=
  match ecdh s.sec.wrapKey (cut r 16 96) with
  | none => none
  | some z =>
    (gcmOpen (keyKek p z r) (cut r 112 12) (r.take 16) (cut r 124 32) (cut r 156 16)).map (fun k => ⟨k, r.getD 2 0⟩)

/-- R288 and R289: the secret becomes CURRENT or PENDING. -/
def keyBody (p : PitchId) (_ : Cmd) (_ : HostPort) (r : Bytes) (s : State) : Act :=
  let x := s.pitch p
  let k := x.keys
  match (List.range 176).find? (fun i => ((3 ≤ i && i ≤ 7) || 172 ≤ i) && r.getD i 0 ≠ 0) with
  | some i => .no s ⟨eReserved, i⟩
  | none =>
    if leAt r 0 2 ≠ x.member.record.group.toNat then .no s ⟨eKey, 0⟩
    else match s.unwrapKey p r with
      | none => .no s ⟨eKey, 0⟩
      | some sec =>
        match k.current with
        | none => .ok (s.setPitch p { x with keys := { k with current := some sec } })
        | some c =>
          if k.pending.isSome then .no s ⟨eState, 0⟩
          else if sec.gen ≠ c.gen + 1 then .no s ⟨eKey, 0⟩
          else .ok (s.setPitch p { x with keys := { k with pending := some sec, activateStep := BitVec.ofNat 64 (leAt r 8 8) } })

/-- KEY_INSTALL (R288). -/
def execKeyInstall (p : PitchId) (s : State) : Result := live s (fun s => s.command p keySpec (keyBody p))

end Sys2Proof.Machine
end

