-- ==== Sys2Proof/Machine/Dispatch.lean ====
section
/-! DEFINITION. One arm per command: a direct call of its meaning. -/

namespace Sys2Proof.Machine

/-- The effect of a command on everything but the queue of waiting commands. -/
def exec (i : Instr) (s : State) : Host.Outcome State Fault Refusal :=
  match i with
  | .powerOnReset env => Sys2Proof.Machine.execPowerOnReset env s
  | .warmReset env lowNs => Sys2Proof.Machine.execWarmReset env lowNs s
  | .cellReset cell bist => Sys2Proof.Machine.execCellReset cell bist s
  | .pwrWarn => Sys2Proof.Machine.execPwrWarn s
  | .railFault cause rail => Sys2Proof.Machine.execRailFault cause rail s
  | .tapReset => Sys2Proof.Machine.execTapReset s
  | .droopStretch detector millivolts => Sys2Proof.Machine.execDroopStretch detector millivolts s
  | .mgmtEpoch env => Sys2Proof.Machine.execMgmtEpoch env s
  | .thermalSample quarters droops => Sys2Proof.Machine.execThermalSample quarters droops s
  | .engineReady => Sys2Proof.Machine.execEngineReady s
  | .mirrorJournalFinish => Sys2Proof.Machine.execMirrorJournalFinish s
  | .hostLinkRetrain port modules rate => Sys2Proof.Machine.execHostLinkRetrain port modules rate s
  | .ppsInEdge => Sys2Proof.Machine.execPpsInEdge s
  | .ppsOutPulse => Sys2Proof.Machine.execPpsOutPulse s
  | .ptpMessage port msg => Sys2Proof.Machine.execPtpMessage port msg s
  | .flitCrcError port flit => Sys2Proof.Machine.execFlitCrcError port flit s
  | .linkNak port ackFseq => Sys2Proof.Machine.execLinkNak port ackFseq s
  | .stepSet port p value => Sys2Proof.Machine.execStepSet port p value s
  | .cursorSet port p value => Sys2Proof.Machine.execCursorSet port p value s
  | .lossIn port p value => Sys2Proof.Machine.execLossIn port p value s
  | .dbCtrl port p value => Sys2Proof.Machine.execDbCtrl port p value s
  | .dbWork port p value => Sys2Proof.Machine.execDbWork port p value s
  | .dbCpl port p value => Sys2Proof.Machine.execDbCpl port p value s
  | .registerWrite port entries => Sys2Proof.Machine.execRegisterWrite port entries s
  | .memWr port addr data => Sys2Proof.Machine.execMemWr port addr data s
  | .memRd port tag addr len => Sys2Proof.Machine.execMemRd port tag addr len s
  | .dmaRdResp port status tag data => Sys2Proof.Machine.execDmaRdResp port status tag data s
  | .sysHello p => Sys2Proof.Machine.execSysHello p s
  | .sysCaps p => Sys2Proof.Machine.execSysCaps p s
  | .pitchBind p => Sys2Proof.Machine.execPitchBind p s
  | .pitchRelease p => Sys2Proof.Machine.execPitchRelease p s
  | .pitchStart p => Sys2Proof.Machine.execPitchStart p s
  | .pitchRunning p => Sys2Proof.Machine.execPitchRunning p s
  | .pitchStop p => Sys2Proof.Machine.execPitchStop p s
  | .pitchDrain p => Sys2Proof.Machine.execPitchDrain p s
  | .cfgBaseLoad p => Sys2Proof.Machine.execCfgBaseLoad p s
  | .cfgOverlayPut p => Sys2Proof.Machine.execCfgOverlayPut p s
  | .cfgOverlaySelect p => Sys2Proof.Machine.execCfgOverlaySelect p s
  | .cfgCommit p => Sys2Proof.Machine.execCfgCommit p s
  | .campPlanEffect => Sys2Proof.Machine.execCampPlanEffect s
  | .pegLoad p => Sys2Proof.Machine.execPegLoad p s
  | .layermapLoad p => Sys2Proof.Machine.execLayermapLoad p s
  | .groupJoin p => Sys2Proof.Machine.execGroupJoin p s
  | .groupLeave p => Sys2Proof.Machine.execGroupLeave p s
  | .groupSpare p => Sys2Proof.Machine.execGroupSpare p s
  | .checkpointMark p => Sys2Proof.Machine.execCheckpointMark p s
  | .snapshotExport p => Sys2Proof.Machine.execSnapshotExport p s
  | .lockstepPair p => Sys2Proof.Machine.execLockstepPair p s
  | .keyInstall p => Sys2Proof.Machine.execKeyInstall p s
  | .telemetryRead p => Sys2Proof.Machine.execTelemetryRead p s
  | .healthLogRead p => Sys2Proof.Machine.execHealthLogRead p s
  | .fwStage p => Sys2Proof.Machine.execFwStage p s
  | .fwActivate p => Sys2Proof.Machine.execFwActivate p s
  | .fwHandover adopts knowsDebug => Sys2Proof.Machine.execFwHandover adopts knowsDebug s
  | .debugUnlock p => Sys2Proof.Machine.execDebugUnlock p s
  | .ingestDescriptor p queue => Sys2Proof.Machine.execIngestDescriptor p queue s
  | .dispatchDescriptor p queue => Sys2Proof.Machine.execDispatchDescriptor p queue s
  | .combineDescriptor p queue => Sys2Proof.Machine.execCombineDescriptor p queue s
  | .oneSidedDescriptor p queue => Sys2Proof.Machine.execOneSidedDescriptor p queue s
  | .deltaEncode p queue => Sys2Proof.Machine.execDeltaEncode p queue s
  | .deltaExpand p queue => Sys2Proof.Machine.execDeltaExpand p queue s
  | .reservedKindDescriptor p queue => Sys2Proof.Machine.execReservedKindDescriptor p queue s
  | .startStats p fuse => Sys2Proof.Machine.execStartStats p fuse s
  | .openWindow p => Sys2Proof.Machine.execOpenWindow p s
  | .closeWindow p => Sys2Proof.Machine.execCloseWindow p s
  | .barrier p => Sys2Proof.Machine.execBarrier p s
  | .checkpoint p => Sys2Proof.Machine.execCheckpoint p s
  | .exportSnapshot p => Sys2Proof.Machine.execExportSnapshot p s
  | .endStep p => Sys2Proof.Machine.execEndStep p s
  | .cursorStall p => Sys2Proof.Machine.execCursorStall p s
  | .statsBlock p bucket block check => Sys2Proof.Machine.execStatsBlock p bucket block check s
  | .selectionPass p bucket => Sys2Proof.Machine.execSelectionPass p bucket s
  | .agreementRecordReady p bucket round => Sys2Proof.Machine.execAgreementRecordReady p bucket round s
  | .agreeUp rx => Sys2Proof.Machine.execAgreeUp rx s
  | .agreeDown rx => Sys2Proof.Machine.execAgreeDown rx s
  | .quantiseBlock p bucket block check => Sys2Proof.Machine.execQuantiseBlock p bucket block check s
  | .packerResume p => Sys2Proof.Machine.execPackerResume p s
  | .frameTransmit p port => Sys2Proof.Machine.execFrameTransmit p port s
  | .contribStream rx => Sys2Proof.Machine.execContribStream rx s
  | .retry rx => Sys2Proof.Machine.execRetry rx s
  | .requantiseBlock p bucket block => Sys2Proof.Machine.execRequantiseBlock p bucket block s
  | .bcastStream rx => Sys2Proof.Machine.execBcastStream rx s
  | .outputBlock p bucket block check => Sys2Proof.Machine.execOutputBlock p bucket block check s
  | .normLocalSend p => Sys2Proof.Machine.execNormLocalSend p s
  | .normUp rx => Sys2Proof.Machine.execNormUp rx s
  | .normDown rx => Sys2Proof.Machine.execNormDown rx s
  | .factorSum rx => Sys2Proof.Machine.execFactorSum rx s
  | .projectStage p bucket => Sys2Proof.Machine.execProjectStage p bucket s
  | .factorExchangeQuantise p bucket block => Sys2Proof.Machine.execFactorExchangeQuantise p bucket block s
  | .orthonormaliseStage p bucket => Sys2Proof.Machine.execOrthonormaliseStage p bucket s
  | .backProjectStage p bucket => Sys2Proof.Machine.execBackProjectStage p bucket s
  | .reconstructStage p bucket => Sys2Proof.Machine.execReconstructStage p bucket s
  | .arrayTile p bucket check => Sys2Proof.Machine.execArrayTile p bucket check s
  | .unitRepair cluster slice namedPe => Sys2Proof.Machine.execUnitRepair cluster slice namedPe s
  | .ergSave p => Sys2Proof.Machine.execErgSave p s
  | .fusedUpdateBlock p bucket block => Sys2Proof.Machine.execFusedUpdateBlock p bucket block s
  | .stepComplete p => Sys2Proof.Machine.execStepComplete p s
  | .checkpointWrite p => Sys2Proof.Machine.execCheckpointWrite p s
  | .snapshotExportWrite p dest => Sys2Proof.Machine.execSnapshotExportWrite p dest s
  | .scanUp rx => Sys2Proof.Machine.execScanUp rx s
  | .scanDown rx => Sys2Proof.Machine.execScanDown rx s
  | .moeToken rx => Sys2Proof.Machine.execMoeToken rx s
  | .moeReturn rx => Sys2Proof.Machine.execMoeReturn rx s
  | .dispatchComplete p exch => Sys2Proof.Machine.execDispatchComplete p exch s
  | .oneSidedWrite rx => Sys2Proof.Machine.execOneSidedWrite rx s
  | .oneSidedAddFx32 rx => Sys2Proof.Machine.execOneSidedAddFx32 rx s
  | .oneSidedAddFx64 rx => Sys2Proof.Machine.execOneSidedAddFx64 rx s
  | .oneSidedAddErg640 rx => Sys2Proof.Machine.execOneSidedAddErg640 rx s
  | .readReq rx => Sys2Proof.Machine.execReadReq rx s
  | .readResp rx => Sys2Proof.Machine.execReadResp rx s
  | .cas64 rx => Sys2Proof.Machine.execCas64 rx s
  | .lockstepRecord rx => Sys2Proof.Machine.execLockstepRecord rx s
  | .barrierArrival rx => Sys2Proof.Machine.execBarrierArrival rx s
  | .barrierRelease rx => Sys2Proof.Machine.execBarrierRelease rx s
  | .barrierReleaseTime p => Sys2Proof.Machine.execBarrierReleaseTime p s
  | .packageBarrierRelease set => Sys2Proof.Machine.execPackageBarrierRelease set s
  | .ack rx => Sys2Proof.Machine.execAck rx s
  | .nack rx => Sys2Proof.Machine.execNack rx s
  | .fence rx => Sys2Proof.Machine.execFence rx s
  | .ackTimer p rank => Sys2Proof.Machine.execAckTimer p rank s
  | .rtoExpiry p rank seq => Sys2Proof.Machine.execRtoExpiry p rank seq s
  | .nonCxtFrame rx => Sys2Proof.Machine.execNonCxtFrame rx s
  | .macControlFrame rx => Sys2Proof.Machine.execMacControlFrame rx s
  | .beat rx => Sys2Proof.Machine.execBeat rx s
  | .propose rx => Sys2Proof.Machine.execPropose rx s
  | .vote rx => Sys2Proof.Machine.execVote rx s
  | .commit rx => Sys2Proof.Machine.execCommit rx s
  | .join rx => Sys2Proof.Machine.execJoin rx s
  | .query rx => Sys2Proof.Machine.execQuery rx s
  | .record rx => Sys2Proof.Machine.execRecord rx s
  | .deathRule p rank => Sys2Proof.Machine.execDeathRule p rank s
  | .proposalTimeout p => Sys2Proof.Machine.execProposalTimeout p s
  | .fenceQueryTimeout p => Sys2Proof.Machine.execFenceQueryTimeout p s
  | .networkPortRetrain port lane transmit => Sys2Proof.Machine.execNetworkPortRetrain port lane transmit s
  | .portRemap port => Sys2Proof.Machine.execPortRemap port s
  | .acquire core => Sys2Proof.Machine.execAcquire core s
  | .renew core term => Sys2Proof.Machine.execRenew core term s
  | .leaseRelease core term => Sys2Proof.Machine.execLeaseRelease core term s
  | .leaseExpiry => Sys2Proof.Machine.execLeaseExpiry s
  | .scheduleWrite core term write => Sys2Proof.Machine.execScheduleWrite core term write s
  | .schedulerTakeover core => Sys2Proof.Machine.execSchedulerTakeover core s
  | .coreRestart core => Sys2Proof.Machine.execCoreRestart core s
  | .exceptionEntryLog p => Sys2Proof.Machine.execExceptionEntryLog p s
  | .extest => Sys2Proof.Machine.execExtest s
  | .idcode => Sys2Proof.Machine.execIdcode s
  | .samplePreload => Sys2Proof.Machine.execSamplePreload s
  | .trace => Sys2Proof.Machine.execTrace s
  | .telem cls scope index first count => Sys2Proof.Machine.execTelem cls scope index first count s
  | .halt core action => Sys2Proof.Machine.execHalt core action s
  | .memrd target addr len => Sys2Proof.Machine.execMemrd target addr len s
  | .dbgReset env => Sys2Proof.Machine.execDbgReset env s
  | .dbgLevel level => Sys2Proof.Machine.execDbgLevel level s
  | .provWrite item => Sys2Proof.Machine.execProvWrite item s
  | .provSeal => Sys2Proof.Machine.execProvSeal s
  | .bypass ir tdi => Sys2Proof.Machine.execBypass ir tdi s
  | .debugTokenExpiry => Sys2Proof.Machine.execDebugTokenExpiry s
  | .debugNonceExpiry => Sys2Proof.Machine.execDebugNonceExpiry s
  | .dLowExit => Sys2Proof.Machine.execDLowExit s
  | .dRetainEntry => Sys2Proof.Machine.execDRetainEntry s
  | .cclkDividerChange => Sys2Proof.Machine.execCclkDividerChange s
  | .spareRotation cluster => Sys2Proof.Machine.execSpareRotation cluster s
  | .rotationEffect cluster => Sys2Proof.Machine.execRotationEffect cluster s
  | .rotationBistComplete cluster sandgrain logicPass => Sys2Proof.Machine.execRotationBistComplete cluster sandgrain logicPass s
  | .scrubPass word => Sys2Proof.Machine.execScrubPass word s
  | .hbmSegmentRemap stack segment => Sys2Proof.Machine.execHbmSegmentRemap stack segment s
  | .hbmRemapEffect stack => Sys2Proof.Machine.execHbmRemapEffect stack s
  | .uncorrectableEcc p mem addr => Sys2Proof.Machine.execUncorrectableEcc p mem addr s
  | .hourRecord => Sys2Proof.Machine.execHourRecord s
  | .reservedCommand p => Sys2Proof.Machine.execReservedCommand p s
  | .reservedOpcodeFrame rx => Sys2Proof.Machine.execReservedOpcodeFrame rx s
  | .reservedTargetFrame rx => Sys2Proof.Machine.execReservedTargetFrame rx s
  | .fcsFailedFrame rx => Sys2Proof.Machine.execFcsFailedFrame rx s
  | .coreHalt core word => Sys2Proof.Machine.execCoreHalt core word s
  | .networkLinkChange port link => Sys2Proof.Machine.execNetworkLinkChange port link s

end Sys2Proof.Machine
end

