-- ==== Sys2Proof/Safety.lean ====
section
/-! DEFINITION. What a safe run of the block is, in the words the statements use: no step stops, memory stays in its
canonical form, fuses are only ever blown, and the part of the state that guards the die (fuses, provisioning data, security
core, TAP) moves only by the commands that the spec gives that right. -/

namespace Sys2Proof.Machine

/-- From a to b fuses are only blown: the one-time fuses stay blown, ROLLBACK never falls, repair entries are only added, and
every other fuse reads as before (21 R447, R450; 22 R461, R462; 23 R487). -/
structure FusesGrow (a b : Fuses) : Prop where
  isSealed : a.sealFuse = true → b.sealFuse = true
  rma : a.rma = true → b.rma = true
  udsLock : a.udsLock = true → b.udsLock = true
  rollback : a.rollback ≤ b.rollback
  entries : a.repairEntries <+: b.repairEntries
  rest : b = { a with sealFuse := b.sealFuse, rma := b.rma, udsLock := b.udsLock, rollback := b.rollback,
                      repairEntries := b.repairEntries }

/-- The part of the state that guards the die (22 R461 to R470). -/
def State.guarded (s : State) : Fuses × Prov × Security × Tap := (s.fuses, s.prov, s.sec, s.tap)

/-- The invariant of every step: memory is in its canonical form. -/
def State.Inv (s : State) : Prop := Memory.wf s.mem

/-- A step that does not stop the block. -/
def State.stepsOn (s : State) : Prop := ∃ t, step s = .next t

/-- n steps, where none stops. -/
def State.runs : Nat → State → State → Prop
  | 0, s, t => t = s
  | n + 1, s, t => ∃ m, step s = .next m ∧ State.runs n m t

/-! ## The lifetime log -/

/-- The state beside the lifetime log and the counts of its records (23 R489 to R492). -/
def beside (s : State) : State :=
  { s with
    flash := { s.flash with log := [] }
    health := { s.health with logWritten := 0, suppressed := 0, hour := { s.health.hour with suppressed := 0 } } }

/-- One event record of this type and BODY joined the log, or was counted as suppressed where fewer than 16,384 records remain
(23 R491, R492). -/
def Logged (type : Nat) (body : Bytes) (s t : State) : Prop :=
  (s.flash.log.length + 16384 ≤ logRecords →
    t.flash.log = s.flash.log ++ [s.logRecord type body] ∧ t.health.suppressed = s.health.suppressed) ∧
  (logRecords < s.flash.log.length + 16384 →
    t.flash.log = s.flash.log ∧ t.health.suppressed = s.health.suppressed + 1)

/-! ## What a mailbox answer may touch (17 R366; 18 R380 to R385; 19 R421) -/

/-- Outside pitch p a mailbox answer changes only the 32 KiB of its response ring, its retained image and its flash
mirror. -/
structure MailFrame (p : PitchId) (s t : State) : Prop where
  rest : t = { s with pitches := t.pitches, mem := t.mem, retained := t.retained, flash := t.flash }
  others : ∀ q, q ≠ p → t.pitch q = s.pitch q
  images : ∀ q : PitchId, q ≠ p → t.retained[q] = s.retained[q]
  flash : t.flash = { s.flash with mirror := t.flash.mirror, journal := t.flash.journal, commits := t.flash.commits,
                                   journaled := t.flash.journaled }
  bytes : ∀ a, a < queueBase p.val + 0x4000 ∨ queueBase p.val + 0xC000 ≤ a → t.byte a = s.byte a

/-- Pitch p is x but for its mailbox and its queue pointers. -/
def PitchIs (p : PitchId) (t : State) (x : Pitch) : Prop :=
  t.pitch p = { x with mail := (t.pitch p).mail, queues := (t.pitch p).queues }

/-- The command c of pitch p has its response, with STATUS st and DETAIL det: NEXT_SEQ has counted it, and the response is the newest
of the cache. -/
def Responded (p : PitchId) (c : Cmd) (st det : Nat) (s t : State) : Prop :=
  (t.pitch p).mail.nextSeq = (s.pitch p).mail.countSeq.nextSeq ∧
  ∃ e, (t.pitch p).mail.cache.head? = some ⟨c.seq, BitVec.ofNat 16 c.op, e⟩ ∧ leAt e 10 2 = st ∧ leAt e 12 4 = det

/-- Beside that, the command has left the ring. -/
def Answered (p : PitchId) (c : Cmd) (st det : Nat) (s t : State) : Prop :=
  Responded p c st det s t ∧ ((t.pitch p).qptr 0).head = ((s.pitch p).qptr 0).head + 1

/-- The command c of pitch p has left the ring, and its response is owed until the event `why` (18 R392, R394, R401;
19 R405), which carries HANDOVER where the command waited for one (18 R380). -/
def Owes (p : PitchId) (c : Cmd) (why : CmdWait) (s t : State) : Prop :=
  (t.pitch p).mail.nextSeq = (s.pitch p).mail.countSeq.nextSeq ∧ ((t.pitch p).qptr 0).head = ((s.pitch p).qptr 0).head + 1 ∧
  (t.pitch p).mail.owed = (s.pitch p).mail.owed ++ [⟨why, BitVec.ofNat 16 c.op, c.tag, c.seq, (s.pitch p).handoverFlag⟩]

/-- The next command of pitch p is c, and firmware may read it (18 R378, R382). -/
structure Waits (s : State) (p : PitchId) (c : Cmd) : Prop where
  up : s.held = false
  head : s.headCommand p = some c
  read : s.mayRead p = true

/-- The state as the reader leaves it when it takes the command off the ring of pitch p. -/
def Taken (s : State) (p : PitchId) : State := s.setPitch p (s.pitch p).popCommand

/-- The next command of pitch p is one that `k` describes, passes every common check of R383, and has its payload bs at hand (18
R379, R382 to R385); it needs no wake. -/
structure Checked (s : State) (p : PitchId) (k : CmdSpec) (c : Cmd) (bs : Bytes) : Prop where
  waits : Waits s p c
  op : c.op = k.op
  seq : c.seq = (s.pitch p).mail.nextSeq
  checked : s.commandCheck p k c = none
  payload : ∃ parts, s.fetchFor p (if c.payLen = 0 then [] else [(c.payAddr, c.payLen)]) = .ready parts ∧ parts.headD [] = bs
  result : s.respCheck p k c = none
  awake : k.wakes s p c = true → s.power.device ≠ 2

/-- Beside that, where it writes schedule registers the lease has a HOLDER, and its TERM has not passed since the command waited for its
bytes (18 R404; 21 R456). -/
structure Ready (s : State) (p : PitchId) (k : CmdSpec) (c : Cmd) (bs : Bytes) : Prop extends Checked s p k c bs where
  leads : k.schedule = true → s.termHolds p = true

end Sys2Proof.Machine
end

