-- ==== Sys2Proof/WellFormed.lean ====
section
/-! DEFINITION. Which commands are well formed: the limits the spec puts on what can arrive at all (message lengths,
flit sizes, numbers of readings). A command outside them cannot be spelled on the hardware's interfaces. -/

namespace Sys2Proof

/-- A register flit carries up to 15 entries (17 R358). -/
def flitEntriesOk (es : List RegEntry) : Bool := es.length ≤ 15
/-- LEN of a CHP data message is 1 to 4,096 (17 R356). -/
def messageLenOk (n : Nat) : Bool := 1 ≤ n && n ≤ 4096
/-- A CHP flit is 256 bytes (17 R356). -/
def flitSizeOk (f : Bytes) : Bool := f.length = 256
/-- A frame has at least the 14 bytes of its Ethernet header and the 4 of its FCS (11 R251). -/
def frameSizeOk (rx : Rx) : Bool := 18 ≤ rx.bytes.length
/-- 40 thermal sensors and 16 droop detectors report (23 R479). -/
def sensorsOk (q : List Int) (d : List Nat) : Bool := q.length = 40 && d.length = 16
/-- Eight replicas report; at most one FEC count per port (23 R479, 12 R281). -/
def epochEnvOk (e : EpochEnv) : Bool := e.slack.length = 8 && e.corrected.length ≤ 17 && e.uncorrected.length ≤ 17
/-- STATUS of a message is 0 OK, 1 DENIED or 2 ALIGN (17 R356). -/
def statusOk (n : Nat) : Bool := n ≤ 2
/-- Segments of one HBM stack: 48 GiB in 256 MiB segments (23 R484). -/
def segmentOk (n : Nat) : Bool := n < 192
/-- A provisioning write stays within the 1 MiB region (21 R444). -/
def provItemOk : ProvItem → Bool
  | .raw off d => off + d.length ≤ 1048576
  | _ => true

/-- The well-formed commands. -/
def Instr.wellFormed : Instr → Bool
  | .registerWrite _ es => flitEntriesOk es
  | .memWr _ _ d => messageLenOk d.length
  | .memRd _ _ _ n => messageLenOk n
  | .dmaRdResp _ st _ d => statusOk st && d.length ≤ 4096
  | .flitCrcError _ f => flitSizeOk f
  | .thermalSample q d => sensorsOk q d
  | .mgmtEpoch e => epochEnvOk e
  | .hbmSegmentRemap _ n => segmentOk n
  | .provWrite it => provItemOk it
  | .agreeUp rx | .agreeDown rx | .contribStream rx | .retry rx | .bcastStream rx | .normUp rx | .normDown rx
  | .factorSum rx | .scanUp rx | .scanDown rx | .moeToken rx | .moeReturn rx | .oneSidedWrite rx
  | .oneSidedAddFx32 rx | .oneSidedAddFx64 rx | .oneSidedAddErg640 rx | .readReq rx | .readResp rx | .cas64 rx
  | .lockstepRecord rx | .barrierArrival rx | .barrierRelease rx | .ack rx | .nack rx | .fence rx
  | .nonCxtFrame rx | .macControlFrame rx | .beat rx | .propose rx | .vote rx | .commit rx | .join rx | .query rx
  | .record rx | .reservedOpcodeFrame rx | .reservedTargetFrame rx | .fcsFailedFrame rx => frameSizeOk rx
  | _ => true

end Sys2Proof
end

