-- ==== Sys2Proof/Certificates/Slice0/Obligations.lean ====
section
/-! DEFINITION. The statements for the provers. Each docstring names the rules of spec/ it formalises, or the log entry of
notes/assumptions whose choice it states. -/

open Sys2Proof Sys2Proof.Machine

namespace Sys2Proof.Claims

/-- From s to t nothing changed outside the pitches, and no pitch but p. -/
def OnlyPitch (p : PitchId) (s t : State) : Prop :=
  t = { s with pitches := t.pitches } ∧ ∀ q, q ≠ p → t.pitch q = s.pitch q

/-- Every byte of memory reads as before. -/
def SameBytes (s t : State) : Prop := ∀ a, t.byte a = s.byte a

/-- Every byte outside the n bytes at a reads as before. -/
def SameOutside (s t : State) (a n : Nat) : Prop := ∀ b, b < a ∨ a + n ≤ b → t.byte b = s.byte b

/-- The die runs and the engine has become ready (02 R41, R54). -/
def Up (s : State) : Prop := s.held = false ∧ s.glob.engineReady = true

/-- The pitch that a command names as its own, where it acts for one pitch alone: host writes to its window, its pegs, its
descriptors, its pipeline, its checkpoints and exports, its transport timers and its membership timers. -/
def ownPitch : Instr → Option PitchId
  | .stepSet _ p _ | .cursorSet _ p _ | .lossIn _ p _ | .dbCtrl _ p _ | .dbWork _ p _ | .dbCpl _ p _ => some p
  | .startStats p _ | .openWindow p | .closeWindow p | .barrier p | .checkpoint p | .exportSnapshot p | .endStep p => some p
  | .cursorStall p | .barrierReleaseTime p | .reservedCommand p | .ergSave p => some p
  | .reservedKindDescriptor p _ | .ingestDescriptor p _ | .dispatchDescriptor p _ | .combineDescriptor p _ => some p
  | .oneSidedDescriptor p _ | .deltaEncode p _ | .deltaExpand p _ | .dispatchComplete p _ => some p
  | .statsBlock p _ _ _ | .selectionPass p _ | .agreementRecordReady p _ _ | .quantiseBlock p _ _ _ | .packerResume p => some p
  | .requantiseBlock p _ _ | .outputBlock p _ _ _ | .normLocalSend p | .stepComplete p | .fusedUpdateBlock p _ _ => some p
  | .projectStage p _ | .factorExchangeQuantise p _ _ | .orthonormaliseStage p _ | .backProjectStage p _ => some p
  | .reconstructStage p _ | .arrayTile p _ _ => some p
  | .checkpointWrite p | .snapshotExportWrite p _ | .frameTransmit p _ | .rtoExpiry p _ _ | .ackTimer p _ => some p
  | .deathRule p _ | .proposalTimeout p | .fenceQueryTimeout p | .exceptionEntryLog p => some p
  | _ => none

/-- The commands that may move the guarded part of the state: resets and the boot, the debug port, a debug unlock, the sys.caps
that makes an alias certificate, a firmware handover and the timers of a debug session. -/
def movesGuarded : Instr → Bool
  | .powerOnReset _ | .warmReset _ _ | .engineReady | .tapReset | .idcode | .bypass _ _ | .extest | .samplePreload | .trace => true
  | .telem _ _ _ _ _ | .halt _ _ | .memrd _ _ _ | .dbgReset _ | .dbgLevel _ | .provWrite _ | .provSeal => true
  | .debugUnlock _ | .sysCaps _ | .fwHandover _ _ | .mgmtEpoch _ | .debugTokenExpiry | .debugNonceExpiry => true
  | _ => false

/-- What every power-on and warm reset leaves, its boot done and ENGINE_READY still 0 (02 R50 to R54; 22 R461, R466): every pitch UNBOUND at its
factory values, no doorbell latched, no host read outstanding, every Erg register as never written, MGMT_TICK and CCLK at 0, debug
level NONE, the TAP reset, and the security state as the fuses give it. -/
structure AfterReset (cause : Nat) (s t : State) : Prop where
  unbound : ∀ p, t.pitch p = {}
  ready : t.glob.engineReady = false
  cause : t.glob.resetCause = cause
  tick : t.glob.mgmtTick = 0
  cclk : t.cclk = 0
  erg : t.erg = []
  latched : t.latched = []
  dma : t.dma = []
  level : t.sec.level = 0 ∧ t.sec.session = none
  security : t.sec.sealed = s.fuses.sealFuse ∧ t.sec.rma = s.fuses.rma
  tap : t.tap = {}
  held : t.held = false
  told : t.hostOut = s.hostOut ∧ t.netOut = s.netOut
  queue : t.pending = s.pending

/-- The step of pitch p has a plan in use: it is RUNNING or STOPPING (01 R15). -/
def InUse (s : State) (p : PitchId) : Prop := (s.pitch p).mode = .running ∨ (s.pitch p).mode = .stopping

/-- The accumulation buffers of pitch p while a step of it is in progress (06 R148). -/
def accBuffers (x : Pitch) : List (Nat × Nat) :=
  if x.time.state = .idle then [] else (x.eff.buckets.filter (fun r => bAccBase r ≠ 0)).map (fun r => (bAccBase r, 8 * bElements r))

/-- The bytes of HBM read as before, but for the accumulation buffers of a step that was cut off (02 R50; 06 R148). -/
def HbmKept (s t : State) : Prop :=
  ∀ a, hbmBase ≤ a → (∀ (p : PitchId), ∀ b ∈ accBuffers (s.pitch p), a < b.1 ∨ b.1 + b.2 ≤ a) → t.byte a = s.byte a

/-- Host port h has a working module and takes flits: it does not wait for a replay (02 R34; 17 R357). -/
def Takes (s : State) (h : HostPort) : Prop := s.hostPorts[h].modules ≠ 0 ∧ s.hostPorts[h].discarding = false

/-- The window of pitch p answers port h, which takes flits: ENGINE_READY is 1, and the pitch is unbound or bound to the port (02 R54;
17 R360). -/
def Answers (s : State) (h : HostPort) (p : PitchId) : Prop :=
  Up s ∧ Takes s h ∧ ((s.pitch p).mode = .unbound ∨ (s.pitch p).binding.ports.getLsbD h = true)

/-- Engine address a lies in what host port h may reach on the data sub-channel: queue memory of a pitch that is unbound, or
queue memory, staging allotment and memory regions of a pitch bound to the port (17 R362). -/
def Reaches (s : State) (h : HostPort) (a : Nat) : Prop :=
  ∃ p : PitchId, ((s.pitch p).mode = .unbound ∧ queueBase p.val ≤ a ∧ a < queueBase p.val + 0x400000) ∨
    ((s.pitch p).mode ≠ .unbound ∧ (s.pitch p).binding.ports.getLsbD h = true ∧
      ∃ r ∈ (s.pitch p).reach p, r.1 ≤ a ∧ a < r.1 + r.2)

/-- A flit with the one entry of a register write to pitch p's window came on port h and was answered with the status; nothing changed
but that port, pitch p, and what it sent (17 R358, R360). -/
def Wrote (h : HostPort) (status : BitVec 8) (p : PitchId) (s t : State) : Prop :=
  t = { s with pitches := t.pitches, hostPorts := t.hostPorts, hostOut := s.hostOut ++ [⟨h, .regAnswer [(status, 0)]⟩] } ∧
  (∀ k, k ≠ h → t.hostPorts[k] = s.hostPorts[k]) ∧ ∀ q, q ≠ p → t.pitch q = s.pitch q

/-- The commands that are writes to a register of pitch p's window on port h. -/
def windowWrites (h : HostPort) (p : PitchId) : Set Instr :=
  fun c => (∃ v, c = .stepSet h p v) ∨ ∃ v, c = .cursorSet h p v ∨ c = .lossIn h p v ∨ c = .dbCtrl h p v ∨ c = .dbWork h p v ∨ c = .dbCpl h p v

/-- A pitch but for its DROP_CAUSE and its counters. -/
def TimeDropped (cause : Nat) (x y : Pitch) : Prop :=
  y = { x with time := { x.time with dropCause := cause }, counters := y.counters } ∧
  y.counter .timeWriteDrops = x.counter .timeWriteDrops + 1

/-- A pitch but for DB_STATUS and its counters. -/
def DoorbellDropped (cause q : Nat) (x y : Pitch) : Prop :=
  y = { x with queues := { x.queues with dbCause := cause, dbQueue := q }, counters := y.counters } ∧
  y.counter .dbDrops = x.counter .dbDrops + 1

/-- Pointer ptr is one that a doorbell may move the tail of a submission queue of this depth to (17 R367). -/
def TailOk (depth : Nat) (v : QPtr) (ptr : W16) : Prop :=
  (ptr - v.head).toNat ≤ depth ∧ (ptr - v.tail).toNat ≤ (ptr - v.head).toNat ∧ ptr ≠ v.tail

/-- The pitch and the reader's description of each mailbox command (18 R390). -/
def mailRow : Instr → Option (PitchId × CmdSpec)
  | .sysHello p => some (p, helloSpec)
  | .sysCaps p => some (p, capsSpec)
  | .pitchBind p => some (p, bindSpec)
  | .pitchRelease p => some (p, releaseSpec)
  | .pitchStart p => some (p, startSpec)
  | .pitchStop p => some (p, stopSpec)
  | .pitchDrain p => some (p, drainSpec)
  | .cfgBaseLoad p => some (p, baseLoadSpec)
  | .cfgOverlayPut p => some (p, overlayPutSpec)
  | .cfgOverlaySelect p => some (p, overlaySelectSpec)
  | .cfgCommit p => some (p, commitSpec)
  | .pegLoad p => some (p, pegLoadSpec)
  | .layermapLoad p => some (p, layerLoadSpec)
  | .groupJoin p => some (p, joinSpec)
  | .groupLeave p => some (p, leaveSpec)
  | .groupSpare p => some (p, spareSpec)
  | .checkpointMark p => some (p, ckptSpec)
  | .snapshotExport p => some (p, snapSpec)
  | .lockstepPair p => some (p, pairSpec)
  | .keyInstall p => some (p, keySpec)
  | .telemetryRead p => some (p, telemetrySpec)
  | .healthLogRead p => some (p, logReadSpec)
  | .fwStage p => some (p, stageSpec)
  | .fwActivate p => some (p, activateSpec)
  | .debugUnlock p => some (p, unlockSpec)
  | _ => none

/-- The command was answered and changed nothing of the pitch but its mailbox. -/
def OnlyAnswered (p : PitchId) (c : Cmd) (st det : Nat) (s t : State) : Prop :=
  Answered p c st det s t ∧ MailFrame p s t ∧ PitchIs p t (s.pitch p)

/-- The command was answered OK, and pitch p is x but for its mailbox; nothing beside the pitch changed. -/
def AnsweredOk (p : PitchId) (c : Cmd) (s t : State) (x : Pitch) : Prop :=
  Answered p c 0 0 s t ∧ MailFrame p s t ∧ PitchIs p t x

/-- Peg g is the next unfired peg of pitch p and fires: the pitch is RUNNING, its step ACTIVE, no barrier holds the pegs, no rank is
vacant, and CURSOR has reached POSITION (03 R62; 20 R431). -/
structure Due (s : State) (p : PitchId) (act : Byte) (g : Peg) : Prop where
  up : s.held = false
  running : (s.pitch p).mode = .running
  active : (s.pitch p).time.state = .active
  free : (s.pitch p).time.barrier = none
  full : (s.pitch p).member.record.vacant = []
  next : (s.pitch p).pegs[(s.pitch p).time.nextPeg]? = some g
  act : g.action = act
  reached : g.position.toNat ≤ (s.pitch p).time.cursor.toNat

/-- A pitch once its next peg has fired. -/
def Fired (x : Pitch) : Pitch := { x with time := { x.time with nextPeg := x.time.nextPeg + 1 } }

/-- The frame begun last on a logical port belongs to window w, is still on the wire and has not been counted (03 R71). -/
def Overruns (now w : Nat) (l : LpWin) : Bool :=
  match l.last with
  | some (v, stop) => v = w && now < stop && w ∉ l.overran
  | none => false

/-- An open window has ended: each logical port with a frame of it on the wire overran once (03 R71). -/
def WindowEnded (now : Nat) (x y : Pitch) : Prop :=
  (x.time.windowOpen = false → y = x) ∧
  (x.time.windowOpen = true →
    y = { x with
      time := { x.time with windowOpen := false }, counters := y.counters
      tx := { x.tx with lps := x.tx.lps.map (fun l =>
        if Overruns now (x.tx.opened - 1) l then { l with overran := l.overran ++ [x.tx.opened - 1] } else l) } } ∧
    y.counter .winOverrun = x.counter .winOverrun +
      BitVec.ofNat 64 (x.tx.lps.toList.filter (fun l => Overruns now (x.tx.opened - 1) l)).length)

/-- Beside pitch p nothing changed but Erg registers and bytes of memory in its queue memory and in the ranges. -/
structure Within (p : PitchId) (ranges : List (Nat × Nat)) (s t : State) : Prop where
  rest : t = { s with pitches := t.pitches, mem := t.mem, erg := t.erg }
  others : ∀ q, q ≠ p → t.pitch q = s.pitch q
  bytes : ∀ a, (a < queueBase p.val ∨ queueBase p.val + queueSize ≤ a) → (∀ r ∈ ranges, a < r.1 ∨ r.1 + r.2 ≤ a) →
    t.byte a = s.byte a

/-- v of block j of a run: g plus the member residual, rounded once to FP32 (06 R134). -/
def blockSums (s : State) (p : PitchId) (r : BucketRun) (j : Nat) : List W32 :=
  let x := s.pitch p
  let b := r.part x j
  let n := bBlock (r.head x)
  (List.zipWith (· ++ ·) (s.gradTerms p b.1 b.2)
    (s.residuals (bResBase (x.bucketD b.1)) (bResFmt (x.bucketD b.1)) (b.2 * n) n)).map (fun t => (to32 (sumVals t).1).1)

/-- The code of element i of block j as phase Q quantises it, where selection takes it (06 R137, R138). -/
def quantOf (s : State) (p : PitchId) (r : BucketRun) (j i : Nat) : Quant :=
  let x := s.pitch p
  let b := r.part x j
  let rec' := x.bucketD b.1
  let mode := modeOf (bQRound rec')
  quantise (bWire rec') ((r.scaleOf x j : Int) - 127) mode
    (if mode = .sr then x.draw16 p purposeQ (bElemBase rec' + b.2 * bBlock rec' + i) x.rank else 0)
    (val32 ((s.runV p r (j * bBlock rec') (bBlock rec')).getD i 0))

/-- What phase Q leaves of element i of block j as its member residual (06 R139): v, less the value sent where it is selected. -/
def residualOf (s : State) (p : PitchId) (r : BucketRun) (j i : Nat) : Val :=
  let x := s.pitch p
  let rec' := x.bucketD (r.part x j).1
  let vs := s.runV p r (j * bBlock rec') (bBlock rec')
  let v := val32 (vs.getD i 0)
  if i ∈ r.selected x p j vs then
    (sumVals [v, (dequant (bWire rec') ((r.scaleOf x j : Int) - 127) (quantOf s p r j i).code).negate]).1
  else v

/-- The contribution stream of block j of a run (09 R204 to R207): the selected codes with SCALE, the class table where the bucket has one. -/
def contribOf (s : State) (p : PitchId) (r : BucketRun) (j : Nat) : Bytes :=
  let x := s.pitch p
  let rec' := x.bucketD (r.part x j).1
  let n := bBlock rec'
  let sel := r.selected x p j (s.runV p r (j * n) n)
  let codes := sel.map (fun i => (quantOf s p r j i).code)
  (encodeStream ⟨kindContrib, bWire rec', n, bSparse rec', (r.part x j).2, r.scaleOf x j,
    maxOf (codes.map (fun c => (codeUnits (bWire rec') c).natAbs)), sel, codes, false⟩ (if r.coded x then some r.lens else none)).1

/-- The checks of a block's work that, every check passing, ends in t (08 R192 to R195): a failed block is replayed with the same bits and
counted; an Erg bank that refused n adds takes them when they are sent again; where the replay fails too the block has no effect, and its
slice takes no more work. -/
structure BlockChecked (s : State) (p : PitchId) (j : Nat) (cmd : BlockCheck → Instr) (t : State) : Prop where
  replayed : ∃ u, exec (cmd .residue) s = .next u ∧ u = { t with pitches := u.pitches, health := u.health } ∧
    u.pitch p = { t.pitch p with counters := (u.pitch p).counters } ∧ (∀ q, q ≠ p → u.pitch q = t.pitch q) ∧
    (u.pitch p).counter .residueFail = (t.pitch p).counter .residueFail + 1 ∧
    (u.pitch p).counter .tileReplays = (t.pitch p).counter .tileReplays + 1 ∧ u.health.residues = t.health.residues + 1
  refused : ∀ n, ∃ u, exec (cmd (.refused n)) s = .next u ∧ u = { t with pitches := u.pitches, health := u.health } ∧
    u.pitch p = { t.pitch p with counters := (u.pitch p).counters } ∧ (∀ q, q ≠ p → u.pitch q = t.pitch q) ∧
    (u.pitch p).counter .residueFail = (t.pitch p).counter .residueFail + BitVec.ofNat 64 n ∧ u.health.residues = t.health.residues + n
  broken : ∃ u, exec (cmd .replayFails) s = .next u ∧
    u = { s with pitches := u.pitches, health := u.health, clusters := u.clusters } ∧
    u.pitch p = { s.pitch p with counters := (u.pitch p).counters } ∧ (∀ q, q ≠ p → u.pitch q = s.pitch q) ∧
    (u.pitch p).counter .residueFail = (s.pitch p).counter .residueFail + 2 ∧
    (u.pitch p).counter .tileReplays = (s.pitch p).counter .tileReplays + 1 ∧ u.sliceWorks j = false

/-- The exponent and the codes of phase G for block k of bucket b: the first exponent at which every value fits (06 R142). -/
def raisedOf (s : State) (p : PitchId) (b k : Nat) : Option (Int × List Quant) :=
  let x := s.pitch p
  let rec' := x.bucketD b
  let n := bBlock rec'
  let mode := modeOf (bGRound rec')
  let e : Int := ((s.crec p b k).scale : Int) - 127
  raiseGo (bBcast rec') mode ((List.range n).map (fun i =>
    if mode = .sr then x.draw16 p purposeOwner (bElemBase rec' + k * n + i) x.rank else 0)) (s.exactBlock p b k e) 255 e

/-- What phase G places at its owner of block k of bucket b: SCALE and codes, with code 0 at every offset that a sparse broadcast omits,
or the non-finite broadcast (06 R142 to R144). -/
def broadcastOf (s : State) (p : PitchId) (b k : Nat) : Placed :=
  match raisedOf s p b k with
  | some (e2, qs) => ⟨(e2 + 127).toNat, placedCodes ((s.pitch p).bucketD b) (qs.map Quant.code)⟩
  | none => ⟨0xFF, []⟩

/-- The broadcast stream of block j of a run (06 R143; 09 R206, R207). -/
def broadcastStream (s : State) (p : PitchId) (r : BucketRun) (j : Nat) : Bytes :=
  let x := s.pitch p
  let h := r.head x
  let b := r.part x j
  match raisedOf s p b.1 b.2 with
  | some (e2, qs) => bcastStream (x.bucketD b.1) b.2 (e2 + 127).toNat (qs.map Quant.code)
  | none => (encodeStream ⟨kindBcast, bBcast h, bBlock h, bSparse h, b.2, 0xFF, 0, [], [], false⟩ none).1

/-- Memory that phase G of block j of a run writes: the reduction words, the completion record, the owner residuals, the stream's slot of
the pack ring where one is free, and the placed broadcast where the run's v lies in the spill region. -/
def ownerRanges (s : State) (p : PitchId) (r : BucketRun) (j : Nat) : List (Nat × Nat) :=
  let x := s.pitch p
  let h := r.head x
  let b := r.part x j
  let rec' := x.bucketD b.1
  [(x.redAddr b.1 b.2 0, sumBytes (bWire rec') * bBlock rec'), (x.crecAddr p b.1 b.2, 16),
   (bOresBase rec' + resSize (bResFmt rec') * (b.2 * bBlock rec'), resSize (bResFmt rec') * bBlock rec')] ++
  (match x.ringPlace p (r.slot x kindBcast) with
   | some off => [(x.ringBase p + off, (broadcastStream s p r j).length)]
   | none => []) ++
  (if r.home then [(x.spillAddr p (j * bBlock h), (placedBytes (bBcast h) (bBlock h) b.2 (broadcastOf s p b.1 b.2)).length)] else [])

/-- The record that goes up once the own one and every child's are there (10 R229). -/
def combinedRecord (a : Agree) (own : Bytes) : Bytes :=
  (a.kids.foldl (fun acc k => acc.combine (agreeOf k.2)) (agreeOf own)).bytes

/-- One write of bytes to host memory as messages of at most 4,096 bytes (17 R365). -/
def dmaWrites (h : HostPort) (a : W64) (d : Bytes) : List HostOut :=
  (chunks 4096 d).zipIdx.map (fun e => ⟨h, .dmaWr (a + BitVec.ofNat 64 (4096 * e.2)) e.1⟩)

/-- The update of element i of block j of a run, from the weight and the optimiser state in memory (14 R315, R316): the new weight
code, m and s; none where a value of the update is not finite. -/
def elemUpdate (s : State) (p : PitchId) (r : BucketRun) (j i : Nat) : Option (Nat × W32 × W32) :=
  let x := s.pitch p
  let b := r.part x j
  let rec' := x.bucketD b.1
  let n := bBlock rec'
  let wa := x.cfg p 0x10F + 2 * (x.shard b.1 b.2 * n)
  let oa := x.cfg p 0x110 + 8 * (x.shard b.1 b.2 * n)
  (x.updateElem p (bElemBase rec' + b.2 * n + i) (x.gOf rec' ((s.blockValues p r j).getD i (.fin false 0 0))) (s.readLe (wa + 2 * i) 2)
    (BitVec.ofNat 32 (s.readLe (oa + 8 * i) 4)) (BitVec.ofNat 32 (s.readLe (oa + 8 * i + 4) 4))).1

/-- The bytes of a checkpoint of pitch p as it is now (15 R324). -/
def ckptLen (s : State) (p : PitchId) : Nat := 256 + (s.ckptSections p (s.pitch p).time.step.toNat).1.flatten.length

/-- A complete checkpoint of the step after STEP lies in slot k, and is counted (15 R325). -/
def CkptWritten (s t : State) (p : PitchId) (k : Nat) : Prop :=
  t.slotComplete ((s.pitch p).ckptSlot p k) = true ∧
  t.readLe ((s.pitch p).ckptSlot p k + 8) 8 = ((s.pitch p).time.step + 1).toNat ∧
  (t.pitch p).ckSeq = (s.pitch p).ckSeq + 1 ∧ (t.pitch p).counter .ckptMarks = (s.pitch p).counter .ckptMarks + 1

/-- The image that export k of pitch p carries, from the host bytes it needed (15 R318, R319, R330). -/
def exportBytes (s : State) (p : PitchId) (k : Nat) (parts : List Bytes) : Bytes :=
  let x := s.pitch p
  let v := x.snapDest p k
  let n := snapElems x.eff.buckets x.size v
  (makeImage (if bitOf v 1 then bitsOf v 7 3 else 1) n (bitsOf v 319 256) x.time.step.toNat (words16 (parts.getD 0 []))
    (if bitsOf v 255 192 = 0 then List.replicate n 0 else words16 (parts.getD 1 []))).1

/-- The host or engine bytes export k needs. -/
def exportNeeds (s : State) (p : PitchId) (k : Nat) : List (Nat × Nat) :=
  let x := s.pitch p
  let v := x.snapDest p k
  let n := snapElems x.eff.buckets x.size v
  [(if bitOf v 1 then bitsOf v 127 64 else 2 ^ 63 + x.cfg p 0x10F, 2 * n)] ++ baseRange (bitsOf v 255 192) 0 n

/-- r is the one run of the bucket: the first that carries its number and the first that holds it as a part. -/
def RunIs (x : Pitch) (bucket : Nat) (r : BucketRun) : Prop :=
  x.runs.find? (fun q => q.bucket = bucket) = some r ∧ x.runOf bucket = some r

/-- The banks of the Erg registers of a LOWRANK run are the pitch's to use (01 R24). -/
def LrBanks (x : Pitch) (p : PitchId) (r : BucketRun) : Prop :=
  x.hasBanks p ((List.range (bLrErgCount (r.head x))).map (bLrErgBase (r.head x) + ·)) = true

/-- The contribution stream of factor block f (08 R180). -/
def factorStream (s : State) (p : PitchId) (r : BucketRun) (l : LrRun) (f : Nat) : Bytes :=
  let x := s.pitch p
  let h := r.head x
  let n := bBlock h
  let w := bWire h
  let words := s.words (r.factorBase x + 4 * (f * n)) (min n (r.factorWords x - f * n))
  let scale := (l.agreed.getD []).getD f 0 + sget l.attempts f 0
  let codes := words.map (fun v => (quantise w ((scale : Int) - 127) .rne 0 (val32 v)).code) ++
    List.replicate (n - words.length) (codeZero w)
  (encodeStream ⟨kindContrib, w, n, false, f, scale, maxOf (codes.map (fun c => (codeUnits w c).natAbs)), List.range n, codes, false⟩
    none).1

/-- The LOWRANK run of the bucket stands in this stage. -/
def StageIs (x : Pitch) (bucket stage : Nat) : Prop :=
  ∃ r ∈ x.runs, r.bucket = bucket ∧ ∃ l, r.lr = some l ∧ l.stage = stage

/-- What orthonormalising P comes to (08 R181). -/
def orthoOf (s : State) (p : PitchId) (r : BucketRun) : Ortho :=
  let h := r.head (s.pitch p)
  let rows := chunks (bLrRank h) (s.words (lrPBase h) (bLrPWords h))
  (List.range (bLrRank h)).foldl (fun (o : Ortho) j => o.column (rows.map (fun row => row.getD j 0))) {}

/-- From s to t a repair was counted, logged and told: beside the clusters only health, log, mailboxes and their rings, and what a
new slice or port map makes of TSIG, changed. -/
structure Repaired (resource : Nat) (s t : State) : Prop where
  made : t.health.made = setAt s.health.made (resource - 1) (s.health.made.getD (resource - 1) 0 + 1)
  pitches : ∀ p, t.pitch p = { s.pitch p with
    mail := (t.pitch p).mail, queues := (t.pitch p).queues, tsig := (t.pitch p).tsig, degraded := (t.pitch p).degraded
    counters := (t.pitch p).counters }
  rest : t = { s with pitches := t.pitches, mem := t.mem, health := t.health, flash := { s.flash with log := t.flash.log }
                      clusters := t.clusters }
  bytes : ∀ a, stagingBase ≤ a → t.byte a = s.byte a

/-- A frame that arrives passes the MAC, the parser and steps 1 to 3 of R258 as frame f of pitch p with payload d. -/
structure Received (s : State) (rx : Rx) (p : PitchId) (f : Frame) (d : Bytes) : Prop where
  up : s.held = false
  parsed : s.parse rx = .frame p f
  answering : (s.pitch p).answering = true
  header : (s.pitch p).headerOk f = true
  epoch : f.epoch = (s.pitch p).member.record.epoch.toNat
  crc : f.crcOk = true
  opened : (s.pitch p).openBy f f.epoch (s.pitch p).keys.current = some d

/-- Sequence number q from rank r counts as accepted: it lies below RCV_NEXT, or its bit of the bitmap is set (11 R267). -/
def Seen (x : Pitch) (r q : Nat) : Prop := q < (x.chan r).rcvNext ∨ (x.chan r).marked q = true

/-- A received DATA frame that is accepted: the pitch is RUNNING, its sequence number is new and in the window, and its contents are
whole (R267). -/
structure Fresh (s : State) (rx : Rx) (p : PitchId) (f : Frame) (d : Bytes) : Prop extends Received s rx p f d where
  data : f.data = true
  running : (s.pitch p).mode = .running
  new : ¬ Seen (s.pitch p) f.src f.seq
  window : f.seq < ((s.pitch p).chan f.src).rcvNext + 4096
  whole : s.fragmentOk p f d = true
  steady : rx.decoderSlip = false

/-- The frame of each command for a received frame, the kind it is for, and what its payload must be. -/
def rxOf (s : State) : Instr → Option (Rx × FrameKind × (Bytes → Bool))
  | .contribStream rx => some (rx, .contrib, fun _ => true)
  | .bcastStream rx => some (rx, .bcast, fun _ => true)
  | .agreeUp rx => some (rx, .agreeUp, fun _ => true)
  | .agreeDown rx => some (rx, .agreeDown, fun _ => true)
  | .retry rx => some (rx, .retry, fun _ => true)
  | .factorSum rx => some (rx, .factorSum, fun _ => true)
  | .normUp rx => some (rx, .normUp, fun _ => true)
  | .normDown rx => some (rx, .normDown, fun _ => true)
  | .scanUp rx => some (rx, .scanUp, fun _ => true)
  | .scanDown rx => some (rx, .scanDown, fun _ => true)
  | .moeToken rx => some (rx, .moeToken, fun _ => true)
  | .moeReturn rx => some (rx, .moeReturn, fun _ => true)
  | .oneSidedWrite rx => some (rx, .osWrite, fun d => !s.lsFrameIs rx d)
  | .lockstepRecord rx => some (rx, .osWrite, fun d => s.lsFrameIs rx d)
  | .oneSidedAddFx32 rx => some (rx, .osAdd32, fun _ => true)
  | .oneSidedAddFx64 rx => some (rx, .osAdd64, fun _ => true)
  | .oneSidedAddErg640 rx => some (rx, .osErg, fun _ => true)
  | .readReq rx => some (rx, .readReq, fun _ => true)
  | .readResp rx => some (rx, .readResp, fun _ => true)
  | .cas64 rx => some (rx, .cas, fun _ => true)
  | .barrierArrival rx => some (rx, .barrier, fun d => leAt d 4 1 ≠ 1)
  | .barrierRelease rx => some (rx, .barrier, fun d => leAt d 4 1 = 1)
  | .ack rx => some (rx, .ack, fun _ => true)
  | .nack rx => some (rx, .nack, fun _ => true)
  | .reservedOpcodeFrame rx => some (rx, .reservedOpcode, fun _ => true)
  | .reservedTargetFrame rx => some (rx, .reservedTarget, fun _ => true)
  | _ => none

/-- From s to t one CONTROL frame leaves, under the current key, at the first engine slot it fits in (01 R24; 11 R253). -/
def ControlLeaves (p : PitchId) (port : NetPort) (dst op : Nat) (payload : Nat → Bytes) (s t : State) : Prop :=
  ∃ sec start, (s.pitch p).keys.current = some sec ∧
    start = s.controlStart port (s.wireCclk port ((s.pitch p).frameSize p (payload 0).length)) ∧
    t.netOut = s.netOut ++ [⟨port, start, s.outerFrame p port.val dst (16 * port.val)
      ((s.pitch p).sealFrame sec (s.pitch p).member.record.epoch.toNat
        ⟨false, op, false, 0, dst, ((s.pitch p).chan dst).ctrlCount, 0, 0, 0⟩ (payload start))⟩]

/-- A NACK for frame f leaves (11 R269). -/
def NackLeaves (p : PitchId) (f : Frame) (port : NetPort) (reason : Nat) (s t : State) : Prop :=
  ControlLeaves p port f.src opNack (fun _ => leBytes 6 f.seq ++ leBytes 1 reason ++ [0] ++ leBytes 4 0 ++ leBytes 4 0) s t ∧
  (t.pitch p).counter .nackSent = (s.pitch p).counter .nackSent + 1

/-- Of the pitches at most the timing signature, DEGRADED and counters changed, of pitches with an effective configuration; the signature
of each is the one computed from the hardware as it is now (16 R334, R336). -/
def Retimed (s t : State) : Prop :=
  ∀ p, t.pitch p = { s.pitch p with tsig := (t.pitch p).tsig, degraded := (t.pitch p).degraded, counters := (t.pitch p).counters } ∧
    ((s.pitch p).committed = true → (t.pitch p).tsig = sigOf (t.tsigRecord p)) ∧
    ((s.pitch p).committed = false → t.pitch p = s.pitch p)

/-- Beside pitch p only what has left on the network changed. -/
def OnlyNet (p : PitchId) (s t : State) : Prop := OnlyPitch p { s with netOut := t.netOut } t

/-- The bytes of a transmission of frame f on path ent of port n, from its Ethernet header to the FCS (11 R251, R253). -/
def dataOut (s : State) (p : PitchId) (n : NetPort) (f : TxFrame) (seq ent pathId : Nat) (sec : Secret) : Bytes :=
  s.outerFrame p n.val f.dst ent ((s.pitch p).sealFrame sec (s.pitch p).member.record.epoch.toNat
    ⟨true, f.opcode.toNat, f.ackNow, pathId, f.dst, seq, f.bucket.toNat, f.block.toNat, f.offset.toNat⟩ (s.plaintext p f))

/-- The one frame that waits is ready on port n: its logical port is mapped there, its window has begun or it needs none, no resend
comes first, and channel and store have room (03 R67, R70; 11 R266). -/
structure Sends (s : State) (p : PitchId) (n : NetPort) (f : TxFrame) (sec : Secret) : Prop where
  up : s.held = false
  running : (s.pitch p).mode = .running
  port : s.portUp n = true
  key : (s.pitch p).keys.current = some sec
  first : s.nextResend p n = none
  queue : (s.pitch p).tx.txq = [f]
  place : (s.pitch p).tx.portMap.toList.getD f.lp 0 = n
  window : f.windowed = false ∨ ∃ w, f.window = some (some w) ∧ w < (s.pitch p).tx.opened
  remote : f.dst ≠ (s.pitch p).rank
  seqRoom : ((s.pitch p).chan f.dst).nextSeq < ((s.pitch p).chan f.dst).una + 4096
  storeRoom : (s.pitch p).storeRoom p f = true
  unspent : ((s.pitch p).chan f.dst).nextSeq + 4097 < 2 ^ 48

/-- Frame f was accepted: its sequence number counts as seen, no other pitch changed, and beside p nothing but memory, registers and
what has left changed. -/
structure Accepted (p : PitchId) (f : Frame) (s t : State) : Prop where
  seen : Seen (t.pitch p) f.src f.seq
  others : ∀ q, q ≠ p → t.pitch q = s.pitch q
  left : s.netOut <+: t.netOut
  rest : t = { s with pitches := t.pitches, mem := t.mem, erg := t.erg, netOut := t.netOut, hostOut := t.hostOut
                      hostPorts := t.hostPorts, free := t.free, health := t.health }

/-- Accepted, with memory, registers and what has left for the hosts as before. -/
def AcceptedQuietly (p : PitchId) (f : Frame) (s t : State) : Prop :=
  Accepted p f s t ∧ t = { s with pitches := t.pitches, netOut := t.netOut }

/-- Every one of these frames waits to be sent. -/
def Queued (p : PitchId) (fs : List TxFrame) (t : State) : Prop := ∀ g ∈ fs, g ∈ (t.pitch p).tx.txq

/-- A contribution's block: its reduction words and its completion record do not overlap. -/
def ContribPlace (s : State) (p : PitchId) (b : Nat) (st : Stream) : Prop :=
  st.fmt = bWire ((s.pitch p).bucketD b) ∧ st.block = bBlock ((s.pitch p).bucketD b) ∧
  ((s.pitch p).crecAddr p b st.index + 16 ≤ (s.pitch p).redAddr b st.index 0 ∨
    (s.pitch p).redAddr b st.index 0 + sumBytes st.fmt * st.block ≤ (s.pitch p).crecAddr p b st.index)

/-- Memory of pitch p changed only in a block's reduction words and its completion record. -/
def ContribFrame (p : PitchId) (b : Nat) (st : Stream) (s t : State) : Prop :=
  ∀ a, (a < (s.pitch p).crecAddr p b st.index ∨ (s.pitch p).crecAddr p b st.index + 16 ≤ a) →
    (a < (s.pitch p).redAddr b st.index 0 ∨ (s.pitch p).redAddr b st.index 0 + sumBytes st.fmt * st.block ≤ a) → t.byte a = s.byte a

/-- The agreement that an arriving record of a bucket belongs to, with the record of rank src in it. -/
def agreeWith (x : Pitch) (b src : Nat) (d : Bytes) : Agree :=
  let r := agreeOf d
  let a := x.agree b r.round (BitVec.ofNat 16 r.stepLo)
  { a with kids := upsert (fun k => k.1 = src) (fun _ => (src, d)) (src, d) a.kids }

/-- The exchange that an arriving count record belongs to. -/
def exchangeOf (x : Pitch) (d : Bytes) : Exchange := x.exchange (BitVec.ofNat 16 (leAt d 0 2)) (BitVec.ofNat 16 (leAt d 2 2))

/-- The count vectors of the children once that of rank src is there. -/
def kidsWith (e : Exchange) (src : Nat) (d : Bytes) : List (Nat × List Nat) :=
  upsert (fun k => k.1 = src) (fun _ => (src, countVec d)) (src, countVec d) e.kids

/-- P of child c: the counts below this rank, its own, and those of the children before c (10 R239). -/
def childBelow (e : Exchange) (below own cs : List Nat) (c : Nat) : List Nat :=
  (cs.takeWhile (· ≠ c)).foldl
    (fun a k => addVec a (match e.kids.find? (fun v => v.1 = k) with | some v => v.2 | none => [])) (addVec below own)

/-- One completion entry was written at the tail of the completion queue of work queue wq (17 R370): KIND, PHASE, STATUS, WQ_ID,
WQ_HEAD, DETAIL, STEP and COOKIE; nothing else in memory changed. -/
def CplWritten (p : PitchId) (kind status wq : Nat) (head : W16) (detail : Nat) (cookie : W64) (s t : State) : Prop :=
  ∃ a r, (s.pitch p).entryAddr p (qCq ((s.pitch p).queueRec wq)) ((s.pitch p).qptr (qCq ((s.pitch p).queueRec wq))).tail = some a ∧
    (s.pitch p).ring (qCq ((s.pitch p).queueRec wq)) = some r ∧
    ((t.pitch p).qptr (qCq ((s.pitch p).queueRec wq))).tail = ((s.pitch p).qptr (qCq ((s.pitch p).queueRec wq))).tail + 1 ∧
    t.read a 64 = [BitVec.ofNat 8 kind,
        BitVec.ofNat 8 (bit (phaseOf r.2.1 ((s.pitch p).qptr (qCq ((s.pitch p).queueRec wq))).tail))] ++ leBytes 2 status ++
      leBytes 2 wq ++ leBytes 2 head.toNat ++ leBytes 4 detail ++ leBytes 4 0 ++ leBytes 8 (s.pitch p).time.step.toNat ++
      List.replicate 32 0 ++ leBytes 8 cookie.toNat ∧
    SameOutside s t a 64

/-- A completion of work queue wq is written at once: its queue has room and none waits for it (17 R371). -/
def CplRoom (x : Pitch) (wq : Nat) : Prop :=
  x.hasRoom (qCq (x.queueRec wq)) = true ∧ (∀ h ∈ x.queues.held, h.1 ≠ qCq (x.queueRec wq)) ∧ qCq (x.queueRec wq) ≠ wq

/-- Where a token fragment lands: its place among the slots of its exchange (10 R241). -/
def tokenAt (e : Exchange) (off : Nat) (d : Bytes) : W64 :=
  BitVec.ofNat 64 (e.recvAddr.toNat + (leAt d 4 1 * e.stride + leAt d 0 4) * e.tokenBytes + off * elemBytes e.hostFmt)

/-- A fragment completes its slot: every code of the token has arrived. -/
def SlotWhole (e : Exchange) (off : Nat) (d : Bytes) : Prop :=
  e.elems ≤ sumOf (((e.slotFrags ++ [(leAt d 4 1, leAt d 0 4, off, (d.drop 16).length)]).filter
    (fun f => f.1 = leAt d 4 1 && f.2.1 = leAt d 0 4)).map (fun f => f.2.2.2))

/-- A fragment completes the result of its entry. -/
def ResultWhole (e : Exchange) (off : Nat) (d : Bytes) : Prop :=
  e.elems ≤ sumOf (((e.retFrags ++ [(leAt d 0 4, leAt d 4 1, off, (d.drop 8).length)]).filter
    (fun f => f.1 = leAt d 0 4 && f.2.1 = leAt d 4 1)).map (fun f => f.2.2.2))

/-- The one-sided command of a frame kind, with its opcode. -/
def osRow (rx : Rx) : FrameKind → Option (Instr × Nat)
  | .osWrite => some (.oneSidedWrite rx, opWrite)
  | .osAdd32 => some (.oneSidedAddFx32 rx, opAdd32)
  | .osAdd64 => some (.oneSidedAddFx64 rx, opAdd64)
  | .osErg => some (.oneSidedAddErg640 rx, opErg)
  | .readReq => some (.readReq rx, opReadReq)
  | .cas => some (.cas64 rx, opCas)
  | _ => none

/-- A HEARTBEAT arrives at pitch p from a rank of its group, or a JOIN from the rank after the last one, with CRC-32C right, and opens
under CURRENT as d (20 R427; 11 R258; 12 R290). -/
structure HeartbeatIn (s : State) (rx : Rx) (p : PitchId) (f : Frame) (d : Bytes) : Prop where
  up : s.held = false
  parsed : s.parse rx = .frame p f
  kind : f.kind = .heartbeat
  answering : (s.pitch p).answering = true
  group : f.group = (s.pitch p).member.record.group.toNat
  dst : f.dst = (s.pitch p).rank
  src : f.src < (s.pitch p).size ∨ f.src = (s.pitch p).size ∧ leAt d 0 1 = hbJoin
  crc : f.crcOk = true
  opened : (s.pitch p).openBy f f.epoch (s.pitch p).keys.current = some d

/-- One HEARTBEAT b leaves for rank dst. -/
def BeatLeaves (p : PitchId) (dst : Nat) (b : Beat) (s t : State) : Prop :=
  ControlLeaves p ((s.pitch p).tx.portMap.toList.getD (dst % 16) 0) dst opHeartbeat (fun _ => s.beatBytes p b) s t

/-- The commands for HEARTBEAT messages other than BEAT, with their KIND. -/
def messageRow : Instr → Option (Rx × Nat)
  | .propose rx => some (rx, hbPropose)
  | .vote rx => some (rx, hbVote)
  | .commit rx => some (rx, hbCommit)
  | .join rx => some (rx, hbJoin)
  | .query rx => some (rx, hbQuery)
  | .record rx => some (rx, hbRecord)
  | _ => none

/-- COMPARE and the swap word of a message. -/
def compareOf (d : Bytes) : W64 := BitVec.ofNat 64 (leAt d 8 8)
def swapOf (d : Bytes) : W64 := BitVec.ofNat 64 (leAt d 16 8)

/-- A pitch but for its membership and its channels. -/
def MemberOnly (p : PitchId) (s t : State) : Prop :=
  OnlyNet p s t ∧ t.pitch p = { s.pitch p with
    member := (t.pitch p).member, tx := { (s.pitch p).tx with channels := (t.pitch p).tx.channels }, counters := (t.pitch p).counters }

/-- The pitch follows a DEAD commit (20 R431): EPOCH, WORD and VACANT, channels restarted, the step cut off in DRAINING, DEATH_EPOCH
noted. -/
structure FollowsDeath (p : PitchId) (swap : W64) (s t : State) : Prop where
  others : ∀ q, q ≠ p → t.pitch q = s.pitch q
  epoch : (t.pitch p).member.record.epoch = BitVec.ofNat 32 (wordEpoch swap)
  word : (t.pitch p).member.record.word = swap
  vacant : ∀ r, r ∈ (t.pitch p).member.record.vacant ↔ r = wordSubject swap ∨ r ∈ (s.pitch p).member.record.vacant
  clean : (t.pitch p).tx.out = [] ∧ (t.pitch p).member.proposals = [] ∧ (t.pitch p).member.accepted = none
  drained : (t.pitch p).mode = .running ∧ (t.pitch p).time.state = .draining ∧ (t.pitch p).runs = []
  noted : ((t.pitch p).chan (wordSubject swap)).deathEpoch = BitVec.ofNat 32 (wordEpoch swap)
  told : (t.pitch p).counter .memberDeaths = (s.pitch p).counter .memberDeaths + 1

/-- Descriptor d is at the head of work queue q of pitch p, its turn has come, and it does not wait for a held step (17 R368, R374). -/
structure DescAt (s : State) (p : PitchId) (q : Nat) (d : Bytes) : Prop where
  up : s.held = false
  head : s.headDesc p q = some d
  steady : (s.pitch p).descStalled d = false
  turn : s.turn p = some q

/-- WQ_HEAD of the descriptor's completion. -/
def headAfter (s : State) (p : PitchId) (q : Nat) : W16 := ((s.pitch p).qptr q).head + 1

/-- The descriptor at the head has left its queue; the other pitches are as before. -/
def DescTaken (p : PitchId) (q : Nat) (s t : State) : Prop :=
  ((t.pitch p).qptr q).head = headAfter s p q ∧ ∀ r, r ≠ p → t.pitch r = s.pitch r

/-- It was refused: it left its queue, its completion carries the status, and nothing else but counters changed. -/
def DescRefused (p : PitchId) (q : Nat) (d : Bytes) (status detail : Nat) (s t : State) : Prop :=
  DescTaken p q s t ∧ CplWritten p (descKind d) status q (headAfter s p q) detail (descCookie d) s t ∧
  t = { s with pitches := t.pitches, mem := t.mem, hostOut := t.hostOut, hostPorts := t.hostPorts } ∧
  t.pitch p = { s.pitch p with
    queues := (t.pitch p).queues, nextJob := (s.pitch p).nextJob + 1, counters := (t.pitch p).counters }

/-- It has left its queue and waits for host bytes, which have been asked for (17 R368; notes/assumptions 35). -/
def DescWaits (p : PitchId) (q : Nat) (d : Bytes) (s t : State) : Prop :=
  DescTaken p q s t ∧ (t.pitch p).queues.jobs = (s.pitch p).queues.jobs ++ [⟨(s.pitch p).descKey, q, headAfter s p q, d⟩] ∧
  t = { s with pitches := t.pitches, dma := t.dma, dmaTag := t.dmaTag, hostOut := t.hostOut, hostPorts := t.hostPorts } ∧
  t.pitch p = { s.pitch p with queues := (t.pitch p).queues, nextJob := (s.pitch p).nextJob + 1 } ∧
  s.dma <+: t.dma ∧ s.hostOut <+: t.hostOut ∧ ∃ r ∈ t.dma, r.use = .descriptor p (s.pitch p).descKey

/-- What block k of a delta range is encoded to: slot bytes and directory entry (15 R321). -/
def deltaPiece (o : DeltaOp) (h : Bytes) (ws bs : List Nat) (i : Nat) : Bytes × DirEntry :=
  encodeBlock o.fmt (o.first + i) (cut ws (2048 * i) (imgBlockElems (leAt h 8 8) (o.first + i)))
    (cut bs (2048 * i) (imgBlockElems (leAt h 8 8) (o.first + i)))

/-- The weights that block i of a delta range expands to; none where it is damaged (15 R322). -/
def deltaWords (o : DeltaOp) (h dir slots : Bytes) (bs : List Nat) (i : Nat) : Option Bytes :=
  (decodeDelta o.fmt (o.first + i) (cut dir (16 * i) 16) (cut slots (4096 * i) 4096)).map (fun ds =>
    (List.zipWith undelta (cut bs (2048 * i) (imgBlockElems (leAt h 8 8) (o.first + i)))
      (ds.take (imgBlockElems (leAt h 8 8) (o.first + i)))).flatMap (leBytes 2))

/-- The words of base range k of the fetched parts, zeros where the descriptor names no base. -/
def deltaBase (o : DeltaOp) (h : Bytes) (parts : List Bytes) (k : Nat) : List Nat :=
  if o.base = 0 then List.replicate (o.elems h).2 0 else words16 (parts.getD k [])

/-- A delta descriptor passes its tests and all its bytes are there (15 R320). -/
structure DeltaReady (s : State) (p : PitchId) (q : Nat) (d : Bytes) (o : DeltaOp) (h : Bytes) (parts : List Bytes) : Prop where
  at' : DescAt s p q d
  op : o = deltaOpOf d
  first : (s.pitch p).deltaFirst d = none
  header : ∃ hs, s.descFetch p q (s.pitch p).descKey [(o.img, 64)] = .ready hs ∧ h = hs.headD []
  second : (s.pitch p).deltaSecond d h = none
  bytes : s.descFetch p q (s.pitch p).descKey (o.ranges h) = .ready parts
  room : CplRoom (s.pitch p) q

/-- Beside the network ports and the timing signatures of the pitches nothing changed. -/
def PortsOnly (s t : State) : Prop :=
  t = { s with pitches := t.pitches, netPorts := t.netPorts } ∧
  ∀ p, t.pitch p = { s.pitch p with tsig := (t.pitch p).tsig, degraded := (t.pitch p).degraded, counters := (t.pitch p).counters }

/-- Only port n changed among the network ports. -/
def OnePort (n : NetPort) (s t : State) : Prop := ∀ k, k ≠ n → t.netPorts[k] = s.netPorts[k]

/-- The CCLK at which a word is read: a scrub's own access waits for an engine slot (01 R24). -/
def scrubSlot (w : EccWord) (s : State) : State := if w.owner.isNone then { s with cclk := max s.cclk (engineSlot s.cclk) } else s

/-- The states from which a fault takes a pitch to FAULTED (19 R405). -/
def canFault (x : Pitch) : Prop := x.mode ∈ [.bound, .configured, .running, .stopping, .stopped]

end Sys2Proof.Claims

open Sys2Proof.Claims

/-! ## The whole block -/

/-- A step takes the command at the front of the queue and runs it on the state with the queue's rest. -/
def Obligations.StepRunsFront : Prop :=
  ∀ (c : Instr) (rest : List Instr) (s : State), s.pending = c :: rest → step s = exec c { s with pending := rest }

/-- With no command waiting one cycle of CCLK passes while CCLK runs, which it does from boot stage 0x04 on until the die is held;
the data flit that a host port was filling leaves with it, and nothing else changes (the model's choice, notes/assumptions 2 and
99). -/
def Obligations.EmptyQueueTicks : Prop :=
  ∀ s : State, s.pending = [] → ∃ t, step s = .next t ∧ t = { s with cclk := t.cclk, hostPorts := t.hostPorts } ∧
    (s.held = true ∨ s.glob.bootStage < 4 → t = s) ∧
    (s.held = false → 4 ≤ s.glob.bootStage → t.cclk = s.cclk + 1 ∧ ∀ h : HostPort, t.hostPorts[h].txPart = [] ∧
      (s.hostPorts[h].txPart = [] → t.hostPorts[h] = s.hostPorts[h]))

/-- No command stops the block, and none touches the queue of commands that wait. -/
def Obligations.CommandsLeaveTheQueue : Prop :=
  ∀ (c : Instr) (s : State), ∃ t, exec c s = .next t ∧ t.pending = s.pending

/-- Every step from a state whose memory is canonical answers a state whose memory is canonical. -/
def Obligations.StepKeepsMemoryCanonical : Prop :=
 ∀ s t : State, s.Inv → step s = .next t → t.Inv

/-- Memory is canonical at reset, where nothing has been written: every byte of the address space reads 0 (the model's choice,
notes/assumptions 10). -/
def Obligations.ResetMemory : Prop :=
 State.reset.Inv ∧ ∀ a, State.reset.byte a = 0

/-- A fuse once blown stays blown in every step, ROLLBACK never falls, and repair entries are only added. -/
def Obligations.FusesOnlyBlown : Prop :=
 ∀ s t : State, step s = .next t → FusesGrow s.fuses t.fuses

/-- Frames, host writes, mailbox commands but sys.caps and debug.unlock, pegs, descriptors and the pipeline leave the fuses, the
provisioning data, the security core and the TAP as they are. -/
def Obligations.GuardedByCommand : Prop :=
  ∀ (c : Instr) (s t : State), movesGuarded c = false → exec c s = .next t → t.guarded = s.guarded

/-- A command that acts for one pitch leaves every other pitch as it is. -/
def Obligations.PitchesAreIsolated : Prop :=
  ∀ (c : Instr) (p : PitchId) (s t : State), ownPitch c = some p → exec c s = .next t → ∀ q, q ≠ p → t.pitch q = s.pitch q

/-- Messages given to a host and frames begun on a port are never taken back or changed by a later step, and a free value once
drawn is never drawn again. -/
def Obligations.OutputsStand : Prop :=
  ∀ s t : State, step s = .next t → s.hostOut <+: t.hostOut ∧ s.netOut <+: t.netOut ∧ s.free ≤ t.free

/-- While the die is held in reset no command but a power-on reset and the power core's own RAIL_FAULT changes anything beside the TAP;
a further rail fault changes only the cause that the always-on domain keeps. -/
def Obligations.HeldDieIgnoresCommands : Prop :=
  (∀ (c : Instr) (s : State), s.held = true → (∀ env, c ≠ .powerOnReset env) → (∀ cause rail, c ≠ .railFault cause rail) →
    ∃ t, exec c s = .next t ∧ t = { s with tap := t.tap }) ∧
  (∀ (cause : RailCause) (rail : Fin 8) (s : State), s.held = true →
    ∃ t, exec (.railFault cause rail) s = .next t ∧ t = { s with power := t.power } ∧
      t.power = { s.power with faultN := true, railCause := t.power.railCause })

/-! ## Scheduler lease, schedule registers and firmware cores (21 R442, R443, R455 to R457; 23 R488) -/

/-- ACQUIRE takes a free lease with the next TERM, RENEW and release answer to a running HOLDER with its TERM, and at the fourth boundary
without an accepted renewal HOLDER becomes none; every change of HOLDER is recorded. An uncorrectable word of its SRAM halts a
running core other than SEC and PWR; a restart ends the halt, is recorded, and leaves a scheduler core without the lease; a core
whose peer's liveness word has stood for 4 epochs takes the peer's rings. A lifetime-log record is 64 bytes, begins with its
TYPE and ends with the CRC-32C of the 60 bytes before it. It rests on choices of the model too: notes/assumptions 18 and 46. -/
def Obligations.CoresAndLease : Prop :=
  (∀ (c : SchCore) (s : State), s.held = false →
     (s.coreRuns (.sch c) = true → s.fw.lease.holder = none → s.fw.lease.frozen = false →
       ∃ t, exec (.acquire c) s = .next t ∧ t.fw.lease = ⟨s.fw.lease.term + 1, some c, 0, false⟩ ∧
         beside t = beside { s with fw := { s.fw with lease := t.fw.lease } } ∧
         Logged 5 (leBytes 4 (s.fw.lease.term + 1).toNat ++ [0, if c = .a then 1 else 2]) s t) ∧
     (s.coreRuns (.sch c) = true → s.fw.lease.holder = some c →
       exec (.renew c s.fw.lease.term) s = .next { s with fw := { s.fw with lease := { s.fw.lease with renewAge := 0 } } }) ∧
     (s.coreRuns (.sch c) = true → s.fw.lease.holder = some c →
       ∃ t, exec (.leaseRelease c s.fw.lease.term) s = .next t ∧
         t.fw.lease = { s.fw.lease with holder := none, renewAge := 0 } ∧
         beside t = beside { s with fw := { s.fw with lease := t.fw.lease } } ∧
         Logged 5 (leBytes 4 s.fw.lease.term.toNat ++ [if c = .a then 1 else 2, 0]) s t) ∧
     (s.fw.lease.holder = some c → 4 ≤ s.fw.lease.renewAge → s.fw.lease.frozen = false →
       ∃ t, exec .leaseExpiry s = .next t ∧ t.fw.lease = { s.fw.lease with holder := none, renewAge := 0 } ∧
         beside t = beside { s with fw := { s.fw with lease := t.fw.lease } } ∧
         Logged 5 (leBytes 4 s.fw.lease.term.toNat ++ [if c = .a then 1 else 2, 0]) s t)) ∧
  (∀ s : State, s.held = false →
     (∀ (c : FwCore) (word : Nat), c ≠ .sec → c ≠ .pwr → (∀ w, (c, w) ∉ s.fw.halted) →
       ∃ t, exec (.coreHalt c word) s = .next t ∧ t.coreRuns c = false ∧
         t = { s with fw := { s.fw with halted := s.fw.halted ++ [(c, word)] }, health := t.health } ∧
         t.health.eccBad = s.health.eccBad + 1) ∧
     (∀ word : Nat, ∃ t, exec (.coreHalt .sec word) s = .next t ∧ t = { s with health := t.health } ∧
       t.health.eccFw = s.health.eccFw + 1) ∧
     (∀ (c : FwCore) (word : Nat), s.fw.halted = [(c, word)] →
       ∃ t, exec (.coreRestart c) s = .next t ∧ t.fw.halted = [] ∧ (∀ k, c = .sch k → t.fw.lease.holder ≠ some k) ∧
         t.fw.lease.term = s.fw.lease.term ∧
         beside t = beside { s with fw := { s.fw with halted := [], lease := t.fw.lease } }) ∧
     (∀ c : SchCore, s.coreRuns (.sch c) = true → s.fw.lease.holder = some c →
       (c = .a → 4 ≤ s.fw.stillB → exec (.schedulerTakeover c) s = .next { s with fw := { s.fw with takenEast := true } }) ∧
       (c = .b → 4 ≤ s.fw.stillA → exec (.schedulerTakeover c) s = .next { s with fw := { s.fw with takenWest := true } })) ∧
     (∀ (p : PitchId) (n : Nat), sget s.fw.excUnread p.val 0 = n + 1 →
       ∃ t, exec (.exceptionEntryLog p) s = .next t ∧ sget t.fw.excUnread p.val 0 = n ∧
         t = { s with fw := { s.fw with excUnread := t.fw.excUnread }
                      health := { s.health with hour := { s.health.hour with exceptions := s.health.hour.exceptions + 1 } } })) ∧
  (∀ (s : State) (type : Nat) (body : Bytes), body.length ≤ 36 →
     (s.logRecord type body).length = 64 ∧ leAt (s.logRecord type body) 0 1 = type % 256 ∧
       cut (s.logRecord type body) 24 body.length = body ∧
       leAt (s.logRecord type body) 60 4 = crc32c ((s.logRecord type body).take 60) % 2 ^ 32)

/-- A write to a schedule register from a core that is halted or is not HOLDER, or with another TERM, has no effect; nor has a write
to a table of a pitch that is RUNNING or STOPPING, but for its port map and a PITCH_STATE of STOPPING, or to slot 0. A running
HOLDER's other write with its TERM sets the register it names, an entry beyond the last joining its table, and, but for the
signatures that a new port or slice map changes, nothing else. -/
def Obligations.ScheduleWrites : Prop :=
  (∀ (c : SchCore) (term : W32) (w : SchedWrite) (s : State),
     ¬ (s.coreRuns (.sch c) = true ∧ s.fw.lease.holder = some c ∧ s.fw.lease.term = term) →
       exec (.scheduleWrite c term w) s = .next s) ∧
  (∀ (c : SchCore) (term : W32) (s : State) (p : PitchId), InUse s p →
     (∀ i e, exec (.scheduleWrite c term (.pegEntry p i e)) s = .next s) ∧
     (∀ i n v, exec (.scheduleWrite c term (.windowBudget p i n v)) s = .next s) ∧
     (∀ code, code ≠ 4 → exec (.scheduleWrite c term (.pitchState p code)) s = .next s) ∧
     (∀ r k, exec (.scheduleWrite c term (.campSlot r k (some p))) s = .next s) ∧
     (∀ (r : Fin 32) (k : Fin 64) owner, ((s.pitch p).plan[r]).getLsbD k.val = true →
       exec (.scheduleWrite c term (.campSlot r k owner)) s = .next s)) ∧
  (∀ (c : SchCore) (s : State), s.held = false → s.coreRuns (.sch c) = true → s.fw.lease.holder = some c →
     (∀ (r : Fin 32) (owner : Option PitchId), exec (.scheduleWrite c s.fw.lease.term (.campSlot r 0 owner)) s = .next s) ∧
     (∀ (r : Fin 32) (k : Fin 64) (owner : Option PitchId), k ≠ 0 →
       (∀ p, InUse s p → ((s.pitch p).plan[r]).getLsbD k.val = false ∧ owner ≠ some p) →
       ∃ t, exec (.scheduleWrite c s.fw.lease.term (.campSlot r k owner)) s = .next t ∧ t = { s with pitches := t.pitches } ∧
         ∀ p : PitchId, t.pitch p = { s.pitch p with plan := (t.pitch p).plan } ∧
           ∀ (q : Fin 32) (j : Fin 64), (t.pitch p).plan[q].getLsbD j =
             if q = r ∧ j = k then decide (owner = some p) else (s.pitch p).plan[q].getLsbD j) ∧
     (∀ (p : PitchId) (code : Fin 8), ¬ InUse s p ∨ code = 4 → ∃ t,
       exec (.scheduleWrite c s.fw.lease.term (.pitchState p code)) s = .next t ∧ OnlyPitch p s t ∧
         t.pitch p = { s.pitch p with mode := (t.pitch p).mode } ∧ (t.pitch p).mode.code = code.val) ∧
     (∀ (p : PitchId) (i : Nat) (e : W128), ¬ InUse s p → i ≤ (s.pitch p).pegs.length → ∃ t,
       exec (.scheduleWrite c s.fw.lease.term (.pegEntry p i e)) s = .next t ∧ OnlyPitch p s t ∧
         t.pitch p = { s.pitch p with pegs := (s.pitch p).pegs.take i ++
           [⟨e.setWidth 32, (e >>> 32).setWidth 8, (e >>> 64).setWidth 32⟩] ++ (s.pitch p).pegs.drop (i + 1) }) ∧
     (∀ (p : PitchId) (i : Nat) (n : Fin 16) (v : W32), ¬ InUse s p → i ≤ (s.pitch p).budgets.length → ∃ t,
       exec (.scheduleWrite c s.fw.lease.term (.windowBudget p i n v)) s = .next t ∧ OnlyPitch p s t ∧
         t.pitch p = { s.pitch p with budgets := (s.pitch p).budgets.take i ++
           [((s.pitch p).budgets.getD i (List.replicate 16 0)).set n.val v.toNat] ++ (s.pitch p).budgets.drop (i + 1) }) ∧
     (∀ (p : PitchId) (lp : Fin 16) (n : NetPort), ∃ t,
       exec (.scheduleWrite c s.fw.lease.term (.portMap p lp n)) s = .next t ∧ OnlyPitch p s t ∧
         (t.pitch p).tx = { (s.pitch p).tx with portMap := (s.pitch p).tx.portMap.set lp n } ∧
         t.pitch p = { s.pitch p with tx := (t.pitch p).tx, tsig := (t.pitch p).tsig, degraded := (t.pitch p).degraded,
                                      counters := (t.pitch p).counters }) ∧
     (∀ (cl : Fin 8) (k : Fin 8) (n : Fin 9), ∃ t,
       exec (.scheduleWrite c s.fw.lease.term (.sliceMap cl k n)) s = .next t ∧
         t = { s with pitches := t.pitches, clusters := t.clusters } ∧
         (∀ d, d ≠ cl → t.clusters[d] = s.clusters[d]) ∧
         t.clusters[cl].map = s.clusters[cl].map.set k.val (some n.val) ∧
         ∀ p, t.pitch p = { s.pitch p with tsig := (t.pitch p).tsig, degraded := (t.pitch p).degraded,
                                           counters := (t.pitch p).counters }))

/-! ## Resets and boot (02 R39, R48 to R54; 19 R422; 21 R446, R448) -/

/-- A power-on reset ends any hold and leaves the die as R50 states, all memory undefined and so as never written; WRST_N low as
PORST_N rises makes the cause a warm reset. WRST_N low for 1 µs or more resets the die and keeps HBM, but for the
accumulation buffers of a step it cuts off; a shorter pulse does nothing. DBG_RESET at INVASIVE is a warm reset of cause 3. In RMA
a boot that reaches stage 0x08 has zeroed HBM. ENGINE_READY rises once stage 0x08 is passed: each pitch with a retained image comes back STOPPED as its image holds it, with its signatures computed anew; in SEALED
the anti-rollback fuses reach the running image's ROLLBACK. ENGINE_READY rises once, and not before stage 0x08. It rests on
choices of the model too: notes/assumptions 10, 13, 16, 18 and 51. -/
def Obligations.ResetsAndEngineReady : Prop :=
  (∀ (env : BootEnv) (s : State), ∃ t, exec (.powerOnReset env) s = .next t ∧
     AfterReset (if env.wrstLow then 2 else if s.power.faultN && s.power.railCause.isSome then 4 else 1) s t ∧
     (s.fuses.rma = false ∨ t.glob.bootStage = 8 → ∀ a, t.byte a = 0)) ∧
  (∀ (env : BootEnv) (s : State), s.held = false →
     (∀ ns, ns < 1000 → exec (.warmReset env ns) s = .next s) ∧
     (∀ ns, 1000 ≤ ns → ∃ t, exec (.warmReset env ns) s = .next t ∧ AfterReset 2 s t ∧
       (s.fuses.rma = false → HbmKept s t ∧ ∀ a, a < hbmBase → t.byte a = 0) ∧
       (s.fuses.rma = true → t.glob.bootStage = 8 → ∀ a, t.byte a = 0)) ∧
     (s.sec.level = 2 → ∃ t, exec (.dbgReset env) s = .next t ∧ AfterReset 3 s t ∧
       (s.fuses.rma = false → HbmKept s t ∧ ∀ a, a < hbmBase → t.byte a = 0) ∧
       (s.fuses.rma = true → t.glob.bootStage = 8 → ∀ a, t.byte a = 0))) ∧
  (∀ s : State, s.held = false → s.glob.engineReady = false → s.glob.bootStage = 8 → s.latched = [] → s.health.untold = [] →
     (∀ n : NetPort, s.netPorts[n].failed = false) →
     ∃ t, exec .engineReady s = .next t ∧ t.glob.engineReady = true ∧ t.glob.bootStage = 9 ∧
       t.fuses = { s.fuses with rollback := if s.secCode = 1 then max s.fuses.rollback s.fw.imageRollback else s.fuses.rollback } ∧
       ∀ p : PitchId,
         (s.retained[p] = none → t.pitch p = s.pitch p) ∧
         (∀ r, s.retained[p] = some r →
           t.pitch p = { r.pitch (decide (s.glob.resetCause = 2 ∨ s.glob.resetCause = 3)) with
             rsig := (t.pitch p).rsig, tsig := (t.pitch p).tsig } ∧ (t.pitch p).rsig = sigOf ((t.pitch p).rsigRecord p) ∧
           (t.pitch p).mode = .stopped)) ∧
  (∀ s : State, s.glob.engineReady = true ∨ s.glob.bootStage ≠ 8 → exec .engineReady s = .next s)

/-- A journal in COMPLETE is finished: its images are the home sectors'; PWR_WARN_N closes the hour with a partial record and completes a flash write; a rail
fault holds the die with its first cause kept while VDD_AON stays in range; a cell that a plan needs leaves OFF by its reset, its
staging bank or its Erg registers as never written, its port's repairs applied again, and one that fails its logic BIST stays OFF; a droop of 50 mV or more stretches CCLK without moving the count of CCLK. The device power state: D-LOW
ends after 16 clear epochs, D-RETAIN begins after 64 idle epochs where it is enabled and puts the cells of R474 that are not OFF
in DROWSE, and a change of divider waits for the plan-period boundary, goes on with the time base and computes TSIG again. It
rests on choices of the model too: notes/assumptions 12, 16 and 18. -/
def Obligations.PowerStates : Prop :=
  (∀ s : State, s.held = false →
     (s.glob.engineReady = true → s.flash.journal = .complete →
       exec .mirrorJournalFinish s = .next { s with flash := { s.flash with mirror := s.flash.journaled, journal := .done } }) ∧
     (∃ t, exec .pwrWarn s = .next t ∧ t.power = { s.power with warned := true } ∧ t.flash.journal ≠ .complete ∧
       s.flash.log <+: t.flash.log ∧ t.flash.log.length = min (s.flash.log.length + 1) (max s.flash.log.length 131072) ∧
       t.health.hour.start = s.health.hour.start + (s.health.posSeconds - s.health.hour.start) ∧ t.health.hour.samples = 0) ∧
     (∀ (c : RailCause) (rail : Fin 8), ¬ (c = .outOfRange ∧ rail = 0) →
       exec (.railFault c rail) s =
         .next { s with held := true, power := { s.power with
           faultN := true, railCause := if s.power.faultN then s.power.railCause else some (c, rail) } }) ∧
     exec (.railFault .outOfRange 0) s =
       .next { s with held := true, power := { s.power with faultN := true, railCause := none } } ∧
     (∀ c : CellId, s.power.cells[c] = .off → c.val ∈ s.neededCells →
       (∃ t, exec (.cellReset c .pass) s = .next t ∧
         t = { s with power := { s.power with cells := s.power.cells.set c .run }, erg := t.erg, mem := t.mem, netPorts := t.netPorts } ∧
         (∀ g, t.ergGet g = if 123 + g % 8 = c.val then 0 else s.ergGet g) ∧
         (∀ a, t.byte a = if c.val < 72 ∧ stagingBase + 2097152 * c.val ≤ a ∧ a < stagingBase + 2097152 * c.val + 2097152 then 0
           else s.byte a) ∧
         ∀ n : NetPort, (72 + n.val ≠ c.val → t.netPorts[n] = s.netPorts[n]) ∧
           (72 + n.val = c.val → (t.netPorts[n]).inService = !(s.netPorts[n]).failed ∧ (t.netPorts[n]).failed = (s.netPorts[n]).failed ∧
             (t.netPorts[n]).decodersBad = (s.netPorts[n]).decodersBad ∧
             ((s.netPorts[n]).failed = false → (t.netPorts[n]).sparedTx = (s.netPorts[n]).sparedTx ∧
               (t.netPorts[n]).sparedRx = (s.netPorts[n]).sparedRx ∧ (t.netPorts[n]).laneGroup = (s.netPorts[n]).laneGroup))) ∧
       (72 ≤ c.val → ∃ t, exec (.cellReset c .logic) s = .next t ∧ t.power = s.power)) ∧
     (∀ (c : CellId) (b : CellBist), s.power.cells[c] ≠ .off ∨ c.val ∉ s.neededCells → exec (.cellReset c b) s = .next s) ∧
     (∀ (d : Fin 16) (mv : Nat), ∃ t, exec (.droopStretch d mv) s = .next t ∧ t.cclk = s.cclk ∧
       t.power = { s.power with droopMax := s.power.droopMax.set d.val (max (s.power.droopMax.getD d.val 0) mv)
                                droopStretch := if 50 ≤ mv then s.power.droopStretch + 1 else s.power.droopStretch } ∧
       t.ptp = { s.ptp with base := t.ptp.base } ∧ s.ptp.base ≤ t.ptp.base ∧
       t.ptp.base ≤ s.ptp.base + (if 50 ≤ mv then (s.stretchMost : Int) else 0))) ∧
  (∀ s : State, s.held = false →
     (s.power.device = 1 → s.power.callLow = false → 16 ≤ s.power.clearEpochs →
       ∃ t, exec .dLowExit s = .next t ∧ t = { s with power := { s.power with device := 0 }, pitches := t.pitches } ∧ Retimed s t) ∧
     (s.prov.retainEn = true → 64 ≤ s.power.idleEpochs → s.idleNow = true →
       ∃ t, exec .dRetainEntry s = .next t ∧
         t = { s with power := { s.power with device := 2, idleEpochs := 0, cells := t.power.cells }, pitches := t.pitches } ∧
         Retimed s t ∧
         ∀ c : CellId, t.power.cells[c] = if c.val ∈ retainCells ∧ s.power.cells[c] ≠ .off then .drowse else s.power.cells[c]) ∧
     (s.power.divider ≠ s.dividerDue →
       ∃ t, exec .cclkDividerChange s = .next t ∧ t.cclk = s.planBoundary ∧
         t.power = { s.power with divider := if s.power.device = 0 then 2 else 4 } ∧
         t.ptpNow = ({ s with cclk := s.planBoundary } : State).ptpNow ∧ t.mem = s.mem ∧ Retimed s t))

/-- A thermal sample comes at the next multiple of 65,536 CCLK and is held as read; above 120 °C the die is held until the next
power-on reset. An HOUR record closes each powered hour. A management epoch: MGMT_TICK rises by one at the wrap of the 20-bit
count, which CCLK reaches; the age of the lease, the age of DEBUG_NONCE and the epochs left of a debug session are counted. The
time base counts on with CCLK; an edge of PTP_PPS_IN is timestamped against it, PTP_PPS_OUT pulses at its next whole second, and
an offset estimate from the port the servo follows locks it once 16 in a row lie below 2 ns. It rests on choices of the model
too: notes/assumptions 6, 18, 20, 21 and 93. -/
def Obligations.EpochsAndClocks : Prop :=
  (∀ s : State, s.held = false →
     (∀ (q : List Int) (d : List Nat), (Instr.thermalSample q d).wellFormed → 4 ≤ s.glob.bootStage → s.power.temps.length = 40 →
       ∃ t, exec (.thermalSample q d) s = .next t ∧ t.cclk = (s.cclk / 65536 + 1) * 65536 ∧ t.power.temps = q ∧
         (t.held = true ↔ ∃ x ∈ q, 480 < x) ∧ (t.power.thermtrip = true ↔ s.power.thermtrip = true ∨ ∃ x ∈ q, 480 < x) ∧
         t.pitches = s.pitches ∧ t.mem = s.mem ∧ t.guarded = s.guarded) ∧
     (s.health.hour.start + 3600 ≤ s.health.posSeconds → s.flash.log.length < 131072 →
       ∃ t, exec .hourRecord s = .next t ∧ t.health.hour = { start := s.health.hour.start + 3600 } ∧
         t = { s with flash := { s.flash with log := t.flash.log }, health := t.health } ∧
         ∃ r, t.flash.log = s.flash.log ++ [r] ∧ r.length = 64 ∧ leAt r 0 1 = 1 ∧ leAt r 54 2 = 3600 ∧ leAt r 57 1 = 0)) ∧
  (∀ (env : EpochEnv) (s : State), s.held = false → 4 ≤ s.glob.bootStage →
     ∃ t, exec (.mgmtEpoch env) s = .next t ∧ t.glob.mgmtTick = s.glob.mgmtTick + 1 ∧
       t.cclk = max s.cclk ((s.glob.mgmtTick.toNat + 1) * 1048576) ∧
       t.sec = { s.sec with session := s.sec.session.map (· - 1), nonceAge := s.sec.nonceAge + 1 } ∧
       t.fw.lease = { s.fw.lease with
         renewAge := if s.fw.lease.holder.isSome then s.fw.lease.renewAge + 1 else s.fw.lease.renewAge
         frozen := s.fw.lease.frozen || s.fw.activating.isSome } ∧
       t.fuses = s.fuses ∧ t.prov = s.prov ∧ t.tap = s.tap) ∧
  (∀ (env : EpochEnv) (q : List Int) (d : List Nat) (s : State), s.glob.bootStage < 4 →
     exec (.mgmtEpoch env) s = .next s ∧ exec (.thermalSample q d) s = .next s ∧ exec .ppsOutPulse s = .next s) ∧
  (∀ s : State, s.held = false →
     exec .ppsInEdge s = .next { s with ptp := { s.ptp with lastIn := s.ptpNow } } ∧
     (4 ≤ s.glob.bootStage → ∃ t, exec .ppsOutPulse s = .next t ∧ t = { s with cclk := t.cclk, power := { s.power with ppsOut := s.power.ppsOut + 1 } } ∧
       s.cclk ≤ t.cclk ∧
       (0 ≤ s.ptpNow → 1 ≤ s.power.divider → (s.ptpNow / 65536 / 1000000000 + 1) * 1000000000 * 65536 ≤ t.ptpNow)) ∧
     (∀ (n : NetPort) (t1 c : Int), s.ptp.servo = n → s.portDark n = false →
       ∃ t, exec (.ptpMessage n (.sync s.prov.ptpDomain t1 c)) s = .next t ∧ t = { s with ptp := t.ptp, free := s.free + 1 } ∧
         t.ptp.offsets = ((s.ptpNow - (t1 + c) - s.ptp.delay) :: s.ptp.offsets).take 16 ∧ t.ptp.waits = true ∧
         t.ptp.sync = some (t1 + c, s.ptpNow) ∧ t.ptp.requests = s.ptp.requests ++ [(n, t.ptpNow)] ∧
         (t.ptp.locked = true ↔ t.ptp.offsets.length = 16 ∧ ∀ x ∈ t.ptp.offsets, x.natAbs < 2 * 65536) ∧
         t.ptp.unlocks = (if s.ptp.locked = true ∧ t.ptp.locked = false then s.ptp.unlocks + 1 else s.ptp.unlocks)) ∧
     (∀ (n : NetPort) (t1 t2 t3 t4 c : Int) (m : NetPort) (old : List (NetPort × Int)), s.ptp.servo = n → s.portDark n = false →
       s.ptp.waits = true → s.ptp.sync = some (t1, t2) → s.ptp.requests = old ++ [(m, t3)] →
       exec (.ptpMessage n (.delayResp s.prov.ptpDomain t4 c)) s =
         .next { s with ptp := { s.ptp with waits := false, delay := ((t2 - t1) + (t4 - c - t3)) / 2 } }) ∧
     (∀ (n : NetPort) (m : PtpMsg), s.ptp.servo ≠ n → exec (.ptpMessage n m) s = .next s) ∧
     (∀ (n : NetPort) (d : Fin 128) (t1 c : Int), d ≠ s.prov.ptpDomain → exec (.ptpMessage n (.sync d t1 c)) s = .next s ∧
       exec (.ptpMessage n (.delayResp d t1 c)) s = .next s))

/-! ## The test access port and the security state (02 R39; 18 R397; 22 R461 to R470) -/

/-- TRST_N resets the TAP alone; IDCODE, which reads 0x1321_6963 with its fields, and BYPASS work in every state, and EXTEST,
SAMPLE and PRELOAD in OPEN, FIELD_DEBUG and RMA only, where no pitch is bound (22 R465). -/
def Obligations.TapInstructions : Prop :=
  ∀ s : State,
    (∃ t, exec .tapReset s = .next t ∧ t.tap = ⟨0x01, .none, false⟩ ∧ (s.tap.pins = false → t = { s with tap := t.tap })) ∧
    (∃ t v, exec .idcode s = .next t ∧ t.tap = ⟨0x01, .idcode v, false⟩ ∧ v = 0x13216963#32 ∧ v.extractLsb 31 28 = 1#4 ∧
      v.extractLsb 27 12 = 0x3216#16 ∧ v.extractLsb 11 1 = 0x4B1#11 ∧ v.getLsbD 0 = true ∧
      (s.tap.pins = false → t = { s with tap := t.tap })) ∧
    (∀ (ir : Byte) (tdi : Bool), s.tapAllows ir = false → ∃ t, exec (.bypass ir tdi) s = .next t ∧
      t.tap = ⟨0xFF, .bypass tdi, false⟩ ∧ (s.tap.pins = false → t = { s with tap := t.tap })) ∧
    (s.held = false → s.secCode = 1 → ∃ t u, exec .extest s = .next t ∧ t.tap = ⟨0xFF, .none, false⟩ ∧
      exec .samplePreload s = .next u ∧ u.tap = ⟨0xFF, .none, false⟩) ∧
    (s.held = false → s.secCode ∈ [0, 2, 3] → (∀ p, (s.pitch p).mode = .unbound) →
      (∃ bs n, exec .extest s = .next { s with free := n, tap := ⟨0x00, .boundary bs, true⟩ }) ∧
      ∃ bs n, exec .samplePreload s = .next { s with free := n, tap := ⟨0x02, .boundary bs, true⟩ })

/-- An instruction that the security state or the debug level refuses acts as BYPASS and changes nothing beside the TAP.
Boundary scan takes the pins where no pitch is bound and the state is not SEALED; the trace and telemetry are read from OBSERVE
on; HALT stops and resumes cores other than SEC and PWR; MEMRD reads bytes and changes no memory, with secrets as 0. It rests on
choices of the model too: notes/assumptions 7 and 55. -/
def Obligations.TapRefusalsAndReads : Prop :=
  (∀ s : State, s.held = false → s.tap.pins = false →
     (s.sec.level = 0 → exec .trace s = .next { s with tap := ⟨0xFF, .none, false⟩ } ∧
       ∀ a b c d e, exec (.telem a b c d e) s = .next { s with tap := ⟨0xFF, .none, false⟩ }) ∧
     (s.sec.level ≠ 2 → (∀ c a, exec (.halt c a) s = .next { s with tap := ⟨0xFF, .none, false⟩ }) ∧
       (∀ m a n, exec (.memrd m a n) s = .next { s with tap := ⟨0xFF, .none, false⟩ }) ∧
       ∀ env, exec (.dbgReset env) s = .next { s with tap := ⟨0xFF, .none, false⟩ }) ∧
     (s.secCode = 1 → exec .extest s = .next { s with tap := ⟨0xFF, .none, false⟩ } ∧
       exec .samplePreload s = .next { s with tap := ⟨0xFF, .none, false⟩ } ∧
       ∀ l, exec (.dbgLevel l) s = .next { s with tap := ⟨0xFF, .none, false⟩ }) ∧
     (s.secCode ≠ 0 → (∀ i, exec (.provWrite i) s = .next { s with tap := ⟨0xFF, .none, false⟩ }) ∧
       exec .provSeal s = .next { s with tap := ⟨0xFF, .none, false⟩ })) ∧
  (∀ s : State, s.held = false → s.tap.pins = false →
     (s.secCode ≠ 1 → (∀ p, (s.pitch p).mode = .unbound) →
       exec .extest s = .next { s with free := s.free + 1, tap := ⟨0x00, .boundary (Config.boundaryCapture s.free), true⟩ } ∧
       exec .samplePreload s = .next { s with free := s.free + 1, tap := ⟨0x02, .boundary (Config.boundaryCapture s.free), true⟩ }) ∧
     (1 ≤ s.sec.level →
       exec .trace s = .next { s with
         free := s.free + 1, tap := ⟨0x10, .bytes (Config.freeTrace s.free (decide (s.sec.level = 1))), false⟩ } ∧
       (∀ (cls first count : Nat) (p : PitchId), classKnown cls = true → 1 ≤ count → count ≤ 4096 → ∃ vs,
         exec (.telem cls 0 p.val first count) s = .next { s with tap := ⟨0x11, .values vs, false⟩ } ∧ vs.length = count ∧
           ∀ i, i < count → vs.getD i 0 = BitVec.ofNat 64 (s.telemetry p cls 0 p.val (first + i)))) ∧
     (s.sec.level = 2 →
       (∀ c, c ≠ .sec → c ≠ .pwr → ∃ t, exec (.halt c .halt) s = .next t ∧ t.coreRuns c = false ∧
         t = { s with tap := ⟨0x20, .none, false⟩, fw := { s.fw with tapHalted := t.fw.tapHalted } } ∧
         ∀ d, d ≠ c → (d ∈ t.fw.tapHalted ↔ d ∈ s.fw.tapHalted)) ∧
       (∀ c, s.fw.tapHalted.Nodup → c ≠ .sec → c ≠ .pwr → ∃ t, exec (.halt c .resume) s = .next t ∧ c ∉ t.fw.tapHalted ∧
         t = { s with tap := ⟨0x20, .none, false⟩, fw := { s.fw with tapHalted := t.fw.tapHalted } } ∧
         ∀ d, d ≠ c → (d ∈ t.fw.tapHalted ↔ d ∈ s.fw.tapHalted)) ∧
       (∀ a, exec (.halt .sec a) s = .next { s with tap := ⟨0x20, .none, false⟩ } ∧
         exec (.halt .pwr a) s = .next { s with tap := ⟨0x20, .none, false⟩ }) ∧
       (∀ m a n, ∃ bs, exec (.memrd m a n) s = .next { s with free := s.free + 1, tap := ⟨0x21, .bytes bs, false⟩ } ∧
         bs.length = n ∧
         (m ∈ [.rom, .fuses, .retainedStore, .keyStorage, .privateSram .sec, .privateSram .pwr] → ∀ b ∈ bs, b = 0) ∧
         (m = .hbm → (∀ p, (s.pitch p).mode = .unbound ∧ (s.pitch p).tx.out = []) → ∀ i, i < n → bs.getD i 0 = s.byte (a + i)))))

/-- In OPEN provisioning data is written and, once complete with its CRC right, sealed; the state changes at the next reset
only. In OPEN and RMA DBG_LEVEL sets the debug level; INVASIVE destroys every key, and a lower level resumes every core. When
its epochs have run out a debug session ends: the level is NONE, the state SEALED again, halted cores resume and the TAP acts as
BYPASS. DEBUG_NONCE is invalid after 1,024 epochs. It rests on choices of the model too: notes/assumptions 65 and 66. -/
def Obligations.ProvisioningAndDebugLevels : Prop :=
  (∀ s : State, s.held = false → s.tap.pins = false → s.secCode = 0 →
     (∀ i, ∃ t, exec (.provWrite i) s = .next t ∧
       t = { s with tap := ⟨0x40, .none, false⟩, prov := s.prov.put i, pitches := t.pitches } ∧ Retimed s t) ∧
     (s.prov.complete = true → crc32c (s.prov.raw.map Prod.snd) = s.prov.crc.toNat →
       exec .provSeal s = .next { s with tap := ⟨0x41, .none, false⟩, fuses := { s.fuses with sealFuse := true } }) ∧
     (s.prov.complete = false → exec .provSeal s = .next { s with tap := ⟨0x41, .none, false⟩ })) ∧
  (∀ (s : State) (l : Fin 3), s.held = false → s.tap.pins = false → (s.secCode = 0 ∨ s.secCode = 3) →
     ∃ t, exec (.dbgLevel l) s = .next t ∧ t.sec = { s.sec with level := l.val, session := none } ∧
       t.fuses = s.fuses ∧ t.mem = s.mem ∧
       (∀ p, t.pitch p = if l = 2 then { s.pitch p with keys := {} } else s.pitch p) ∧
       t.tap = (if l.val < s.sec.level then ⟨0xFF, .none, false⟩ else ⟨0x30, .none, false⟩) ∧
       t.fw = { s.fw with tapHalted := if l.val < s.sec.level then [] else s.fw.tapHalted }) ∧
  (∀ s : State, s.held = false →
     (s.sec.session = some 0 → s.sec.sealed = true → s.sec.rma = false → 1 ≤ s.sec.level → s.tap.pins = false →
       ∃ t, exec .debugTokenExpiry s = .next t ∧ t.sec.level = 0 ∧ t.sec.session = none ∧ t.secCode = 1 ∧ t.fw.tapHalted = [] ∧
         t.tap = ⟨0xFF, .none, false⟩ ∧ t.pitches = s.pitches ∧ t.mem = s.mem ∧ t.fuses = s.fuses) ∧
     (s.sec.session ≠ some 0 → exec .debugTokenExpiry s = .next s) ∧
     exec .debugNonceExpiry s =
       .next { s with sec := { s.sec with nonce := if 1024 ≤ s.sec.nonceAge then none else s.sec.nonce } })

/-! ## Host links and the PTP time base (02 R34, R35; 12 R292, R293; 17 R356, R357) -/

/-- A flit whose FCRC holds and whose FSEQ is the next one ends the discarding of flits and does what it carries; any other is answered
once with LINK and NAK, and flits are discarded until the replay. NAK and a retrain send the flits of the retry buffer again with
contents and FSEQ unchanged; a retrain keeps the modules that were sound before and still are, none at a rate that the security
state does not allow, and counts one pause in each pitch with a copy outstanding on the port. A register flit is answered as one message with an answer to
each entry from the state before the flit; reads change nothing else, and writes act on the registers of their window. It rests
on choices of the model too: notes/assumptions 30. -/
def Obligations.LinkErrorsAndRegisterReads : Prop :=
  (∀ (s : State) (h : HostPort), s.held = false → s.hostPorts[h].modules ≠ 0 →
     (∀ f : Bytes, crc32c (f.take 252) = leAt f 252 4 → flitSeq f = s.hostPorts[h].rxLast + 1 → leAt f 1 1 / 4 % 4 = 0 →
       leAt f 2 1 = 0 → s.hostPorts[h].rxPart = [] → ∃ t, exec (.flitCrcError h f) s = .next t ∧ t = { s with hostPorts := t.hostPorts } ∧
         t.hostPorts[h] = { s.hostPorts[h] with rxLast := flitSeq f, discarding := false }) ∧
     (∀ f : Bytes, crc32c (f.take 252) = leAt f 252 4 → flitSeq f = s.hostPorts[h].rxLast + 1 → leAt f 1 1 / 4 % 4 = 1 →
       ∃ t, exec (.flitCrcError h f) s = .next t ∧
         t.hostOut.getLast? = some ⟨h, .regAnswer ((flitEntries (cut f 2 250)).map (s.answerEntry h))⟩) ∧
     (∀ f : Bytes, ¬ (crc32c (f.take 252) = leAt f 252 4 ∧ flitSeq f = s.hostPorts[h].rxLast + 1) → s.hostPorts[h].discarding = false →
       ∃ t, exec (.flitCrcError h f) s = .next t ∧ t = { s with hostPorts := t.hostPorts, hostOut := t.hostOut } ∧
         t.hostPorts[h].discarding = true ∧ t.hostPorts[h].rxLast = s.hostPorts[h].rxLast ∧
         t.hostOut = s.hostOut ++ [⟨h, .link s.hostPorts[h].rxLast true⟩]) ∧
     (∀ f : Bytes, ¬ (crc32c (f.take 252) = leAt f 252 4 ∧ flitSeq f = s.hostPorts[h].rxLast + 1) →
       s.hostPorts[h].discarding = true → exec (.flitCrcError h f) s = .next s) ∧
     (∀ ack : BitVec 10, s.hostPorts[h].discarding = false → ∃ t, exec (.linkNak h ack) s = .next t ∧ t = { s with hostPorts := t.hostPorts, hostOut := t.hostOut } ∧
       t.hostOut = s.hostOut ++ (s.hostPorts[h].retry.filter (fun f =>
         (s.hostPorts[h].txFseq - flitSeq f).toNat < (s.hostPorts[h].txFseq - ack).toNat && flitSeq f ≠ ack)).map
           (fun f => ⟨h, .replayed f⟩) ∧
       t.hostPorts[h].retry = s.hostPorts[h].retry ∧ t.hostPorts[h].txFseq = s.hostPorts[h].txFseq) ∧
     (∀ (m : BitVec 4) (r : HostRate), ∃ t, exec (.hostLinkRetrain h m r) s = .next t ∧ t.hostPorts[h].rate = r ∧
       t.hostPorts[h].modules = if s.rateAllowed r then s.hostPorts[h].modules &&& m else 0) ∧
     (∀ (m : BitVec 4) (r : HostRate), s.rateAllowed r = true → s.hostPorts[h].modules &&& m = s.hostPorts[h].modules →
       ∃ t, exec (.hostLinkRetrain h m r) s = .next t ∧
       t = { s with hostPorts := t.hostPorts, hostOut := t.hostOut, pitches := t.pitches } ∧
       t.hostOut = s.hostOut ++ s.hostPorts[h].retry.map (fun f => ⟨h, .replayed f⟩) ∧
       t.hostPorts[h] = { s.hostPorts[h] with
         rate := r, flitRetries := if s.hostPorts[h].retry = [] then s.hostPorts[h].flitRetries else s.hostPorts[h].flitRetries + 1 } ∧
       ∀ p, ((∃ d ∈ s.dma, d.port = h ∧ d.use.copies p = true) → t.pitch p = { s.pitch p with counters := (t.pitch p).counters } ∧
           (t.pitch p).counter .ndcTime = (s.pitch p).counter .ndcTime + 1) ∧
         ((∀ d ∈ s.dma, d.port ≠ h ∨ d.use.copies p = false) → t.pitch p = s.pitch p))) ∧
  (∀ (s : State) (h : HostPort), s.held = false → Takes s h →
     (∀ es : List RegEntry, ∃ t, exec (.registerWrite h es) s = .next t ∧
       t.hostOut.getLast? = some ⟨h, .regAnswer (es.map (s.answerEntry h))⟩) ∧
     (∀ es : List RegEntry, (∀ e ∈ es, e.op ≠ 3 ∧ e.op ≠ 4) → ∃ t, exec (.registerWrite h es) s = .next t ∧
       t = { s with hostOut := s.hostOut ++ [⟨h, .regAnswer (es.map (s.answerEntry h))⟩], hostPorts := t.hostPorts,
                    glob := { s.glob with regDenied := t.glob.regDenied } }) ∧
     (∀ (p : PitchId) (v : BitVec 64), Answers s h p →
       (∃ t, exec (.registerWrite h [⟨3, BitVec.ofNat 48 (4096 * p.val + 0x140), v⟩]) s = .next t ∧
         t.pitch p = { s.pitch p with numFlags := (s.pitch p).numFlags &&& ~~~(v.setWidth 6) } ∧ SameBytes s t) ∧
       (∃ t, exec (.registerWrite h [⟨3, BitVec.ofNat 48 (4096 * p.val + 0x18C), v⟩]) s = .next t ∧
         t.pitch p = { s.pitch p with guard := { (s.pitch p).guard with updLr := v.setWidth 32 } } ∧ SameBytes s t) ∧
       (∃ t, exec (.registerWrite h [⟨3, BitVec.ofNat 48 (4096 * p.val + 0x190), v⟩]) s = .next t ∧
         t.pitch p = { s.pitch p with guard := { (s.pitch p).guard with updBc2 := v.setWidth 32 } } ∧ SameBytes s t) ∧
       (∃ t, exec (.registerWrite h [⟨3, BitVec.ofNat 48 (4096 * p.val + 0x020), v⟩]) s = .next t ∧ t.pitches = s.pitches ∧
         SameBytes s t)))

/-! ## Time registers (03 R55 to R58; 14 R312) -/

/-- An accepted STEP_SET starts the step at CURSOR 0 with no peg fired and latches UPD_LR and UPD_BC2; while the step drains it
is held. A STEP_SET outside RUNNING, during an active step, or with one already held is discarded with its DROP_CAUSE.
CURSOR_SET raises CURSOR and nothing else; a write that would lower it, or comes while the pitch is not RUNNING or the step is
IDLE, is discarded with its DROP_CAUSE. A LOSS_IN write is taken while the step runs and its verdict is open, and else discarded
and counted. A cursor that has stood for 4,096 epochs raises ntc.cursor.stall once. -/
def Obligations.StepAndCursorWrites : Prop :=
  (∀ (s : State) (h : HostPort) (p : PitchId) (v : W64), Answers s h p → (s.pitch p).mode = .running →
     ((s.pitch p).time.state = .idle → ∃ t, exec (.stepSet h p v) s = .next t ∧ (t.pitch p).mode = .running ∧
       (t.pitch p).time.step = v ∧ (t.pitch p).time.cursor = 0 ∧ (t.pitch p).time.state = .active ∧
       (t.pitch p).time.nextPeg = 0 ∧ (t.pitch p).time.barrier = none ∧ (t.pitch p).time.held = none ∧
       (t.pitch p).time.boundary = false ∧ (t.pitch p).time.dropCause = (s.pitch p).time.dropCause ∧
       (t.pitch p).runs = [] ∧ (t.pitch p).ingests = [] ∧
       (t.pitch p).guard.lrLatched = (s.pitch p).guard.updLr ∧ (t.pitch p).guard.bc2Latched = (s.pitch p).guard.updBc2 ∧
       (t.pitch p).guard.lossSet = false ∧ (t.pitch p).guard.lsStep = (s.pitch p).guard.lsExp ∧
       (t.pitch p).numFlags = (s.pitch p).numFlags ∧ (t.pitch p).eff = (s.pitch p).eff ∧ t.erg = s.erg ∧
       t.hostOut.getLast? = some ⟨h, .regAnswer [(0, 0)]⟩) ∧
     ((s.pitch p).time.state = .draining → (s.pitch p).time.held = none →
       ∃ t, exec (.stepSet h p v) s = .next t ∧ Wrote h 0 p s t ∧
         t.pitch p = { s.pitch p with time := { (s.pitch p).time with held := some v } })) ∧
  (∀ (s : State) (h : HostPort) (p : PitchId) (v : W64), Answers s h p →
     ((s.pitch p).mode ≠ .running → ∃ t, exec (.stepSet h p v) s = .next t ∧ Wrote h 0 p s t ∧ TimeDropped 2 (s.pitch p) (t.pitch p)) ∧
     ((s.pitch p).mode = .running → (s.pitch p).time.state = .active →
       ∃ t, exec (.stepSet h p v) s = .next t ∧ Wrote h 0 p s t ∧ TimeDropped 3 (s.pitch p) (t.pitch p)) ∧
     ((s.pitch p).mode = .running → (s.pitch p).time.state = .draining → (s.pitch p).time.held.isSome = true →
       ∃ t, exec (.stepSet h p v) s = .next t ∧ Wrote h 0 p s t ∧ TimeDropped 4 (s.pitch p) (t.pitch p))) ∧
  (∀ (s : State) (h : HostPort) (p : PitchId) (v : W32), Answers s h p →
     ((s.pitch p).mode = .running → (s.pitch p).time.state ≠ .idle → (s.pitch p).time.cursor.toNat < v.toNat →
       ∃ t, exec (.cursorSet h p v) s = .next t ∧ Wrote h 0 p s t ∧
         t.pitch p = { s.pitch p with time := { (s.pitch p).time with cursor := v, stillEpochs := 0, stallSent := false } }) ∧
     ((s.pitch p).mode = .running → (s.pitch p).time.state ≠ .idle → v.toNat < (s.pitch p).time.cursor.toNat →
       ∃ t, exec (.cursorSet h p v) s = .next t ∧ Wrote h 0 p s t ∧ TimeDropped 1 (s.pitch p) (t.pitch p)) ∧
     ((s.pitch p).mode ≠ .running →
       ∃ t, exec (.cursorSet h p v) s = .next t ∧ Wrote h 0 p s t ∧ TimeDropped 2 (s.pitch p) (t.pitch p)) ∧
     ((s.pitch p).mode = .running → (s.pitch p).time.state = .idle →
       ∃ t, exec (.cursorSet h p v) s = .next t ∧ Wrote h 0 p s t ∧ TimeDropped 5 (s.pitch p) (t.pitch p))) ∧
  (∀ (s : State) (h : HostPort) (p : PitchId) (v : W32), Answers s h p →
     ((s.pitch p).mode = .running → (s.pitch p).time.state ≠ .idle → (s.pitch p).guard.verdict = none →
       ∃ t, exec (.lossIn h p v) s = .next t ∧ (t.pitch p).guard.lossIn = v ∧ (t.pitch p).guard.lossSet = true ∧
         (t.pitch p).time = (s.pitch p).time ∧ (t.pitch p).eff = (s.pitch p).eff) ∧
     ((s.pitch p).time.state = .idle ∨ (s.pitch p).guard.verdict.isSome = true →
       ∃ t, exec (.lossIn h p v) s = .next t ∧ Wrote h 0 p s t ∧
         t.pitch p = { s.pitch p with counters := (t.pitch p).counters } ∧
         (t.pitch p).counter .lossWriteDrops = (s.pitch p).counter .lossWriteDrops + 1) ∧
     ((s.pitch p).mode = .running → (s.pitch p).time.state = .active → 4096 ≤ (s.pitch p).time.stillEpochs →
       (s.pitch p).time.stallSent = false →
       ∃ t, exec (.cursorStall p) s = .next t ∧ (t.pitch p).counter .cursorStalls = (s.pitch p).counter .cursorStalls + 1 ∧
         (t.pitch p).time = { (s.pitch p).time with stallSent := true } ∧ MailFrame p s t))

/-- A write through a port that the window does not answer is answered DENIED and changes nothing but REG_DENIED; one on a port without
a working module, or while the port discards flits, has no effect. A doorbell that names a queue of
another set, of an unbound pitch, a disabled queue, or a pointer outside the ring's free entries is discarded: DB_STATUS names
cause and queue, DB_DROPS counts it. -/
def Obligations.WritesWithoutEffect : Prop :=
  (∀ (s : State) (h : HostPort) (p : PitchId), Up s → (s.pitch p).mode ≠ .unbound → (s.pitch p).binding.ports.getLsbD h = false →
     Takes s h → ∀ c ∈ windowWrites h p, ∃ t, exec c s = .next t ∧ t.pitches = s.pitches ∧
       Wrote h 1 p { s with glob := { s.glob with regDenied := s.glob.regDenied + 1 } } t) ∧
  (∀ (s : State) (h : HostPort) (p : PitchId), ¬ Takes s h → ∀ c ∈ windowWrites h p, exec c s = .next s) ∧
  (∀ (s : State) (h : HostPort) (p : PitchId) (q : Nat) (ptr : W16), Answers s h p → q < 2048 →
     ((q < 2 ∨ 1025 < q) → ∃ t, exec (.dbWork h p (BitVec.ofNat 32 (q + 65536 * ptr.toNat))) s = .next t ∧ Wrote h 0 p s t ∧
       DoorbellDropped 1 q (s.pitch p) (t.pitch p)) ∧
     ((q < 1026 ∨ 1279 < q) → ∃ t, exec (.dbCpl h p (BitVec.ofNat 32 (q + 65536 * ptr.toNat))) s = .next t ∧ Wrote h 0 p s t ∧
       DoorbellDropped 1 q (s.pitch p) (t.pitch p)) ∧
     (1 < q → ∃ t, exec (.dbCtrl h p (BitVec.ofNat 32 (q + 65536 * ptr.toNat))) s = .next t ∧ Wrote h 0 p s t ∧
       DoorbellDropped 1 q (s.pitch p) (t.pitch p)) ∧
     (2 ≤ q → q ≤ 1025 → (s.pitch p).mode = .unbound →
       ∃ t, exec (.dbWork h p (BitVec.ofNat 32 (q + 65536 * ptr.toNat))) s = .next t ∧ Wrote h 0 p s t ∧
         DoorbellDropped 4 q (s.pitch p) (t.pitch p)) ∧
     (2 ≤ q → q ≤ 1025 → (s.pitch p).mode ≠ .unbound → (s.pitch p).ring q = none →
       ∃ t, exec (.dbWork h p (BitVec.ofNat 32 (q + 65536 * ptr.toNat))) s = .next t ∧ Wrote h 0 p s t ∧
         DoorbellDropped 2 q (s.pitch p) (t.pitch p)) ∧
     (∀ r, 2 ≤ q → q ≤ 1025 → (s.pitch p).mode ≠ .unbound → (s.pitch p).ring q = some r →
       r.2.1 < (ptr - ((s.pitch p).qptr q).head).toNat → ptr ≠ ((s.pitch p).qptr q).tail →
       ∃ t, exec (.dbWork h p (BitVec.ofNat 32 (q + 65536 * ptr.toNat))) s = .next t ∧ Wrote h 0 p s t ∧
         DoorbellDropped 3 q (s.pitch p) (t.pitch p)))

/-! ## Doorbells, registers and memory (17 R358 to R367; 01 R495) -/

/-- A doorbell moves the host's pointer of the queue it names: the tails of the command ring and of a work queue, the heads of
the response ring and of a completion queue; before ENGINE_READY it is latched. -/
def Obligations.DoorbellsMovePointers : Prop :=
  ∀ (s : State) (h : HostPort) (p : PitchId) (q : Nat) (ptr : W16), q < 2048 →
    (Answers s h p → q = 0 → TailOk 256 ((s.pitch p).qptr 0) ptr →
      ∃ t, exec (.dbCtrl h p (BitVec.ofNat 32 (q + 65536 * ptr.toNat))) s = .next t ∧ Wrote h 0 p s t ∧
        (t.pitch p).qptr 0 = ⟨((s.pitch p).qptr 0).head, ptr⟩ ∧ (∀ k, k ≠ 0 → (t.pitch p).qptr k = (s.pitch p).qptr k) ∧
        t.pitch p = { s.pitch p with queues := { (s.pitch p).queues with ptrs := (t.pitch p).queues.ptrs }
                                     mail := { (s.pitch p).mail with cmdPorts := (s.pitch p).mail.cmdPorts ++ [(ptr, h)] } }) ∧
    (Answers s h p → q = 1 → (s.pitch p).mail.waiting = [] → ptr ≠ ((s.pitch p).qptr 1).head →
      (ptr - ((s.pitch p).qptr 1).head).toNat ≤ (((s.pitch p).qptr 1).tail - ((s.pitch p).qptr 1).head).toNat →
      ∃ t, exec (.dbCtrl h p (BitVec.ofNat 32 (q + 65536 * ptr.toNat))) s = .next t ∧ Wrote h 0 p s t ∧
        (t.pitch p).qptr 1 = ⟨ptr, ((s.pitch p).qptr 1).tail⟩ ∧
        t.pitch p = { s.pitch p with queues := { (s.pitch p).queues with ptrs := (t.pitch p).queues.ptrs } }) ∧
    (Answers s h p → (s.pitch p).mode ≠ .unbound → 2 ≤ q → q ≤ 1025 →
      ∀ r, (s.pitch p).ring q = some r → TailOk r.2.1 ((s.pitch p).qptr q) ptr →
      ∃ t, exec (.dbWork h p (BitVec.ofNat 32 (q + 65536 * ptr.toNat))) s = .next t ∧ Wrote h 0 p s t ∧
        (t.pitch p).qptr q = ⟨((s.pitch p).qptr q).head, ptr⟩ ∧ (∀ k, k ≠ q → (t.pitch p).qptr k = (s.pitch p).qptr k) ∧
        t.pitch p = { s.pitch p with queues := { (s.pitch p).queues with ptrs := (t.pitch p).queues.ptrs } }) ∧
    (Answers s h p → (s.pitch p).mode ≠ .unbound → 1026 ≤ q → q ≤ 1279 → (s.pitch p).queues.held = [] →
      ∀ r, (s.pitch p).ring q = some r → ptr ≠ ((s.pitch p).qptr q).head →
      (ptr - ((s.pitch p).qptr q).head).toNat ≤ (((s.pitch p).qptr q).tail - ((s.pitch p).qptr q).head).toNat →
      ∃ t, exec (.dbCpl h p (BitVec.ofNat 32 (q + 65536 * ptr.toNat))) s = .next t ∧ Wrote h 0 p s t ∧
        (t.pitch p).qptr q = ⟨ptr, ((s.pitch p).qptr q).tail⟩ ∧ (∀ k, k ≠ q → (t.pitch p).qptr k = (s.pitch p).qptr k) ∧
        t.pitch p = { s.pitch p with queues := { (s.pitch p).queues with ptrs := (t.pitch p).queues.ptrs } }) ∧
    (∀ w : W32, s.held = false → s.glob.engineReady = false → Takes s h →
      (∃ t, exec (.dbCtrl h p w) s = .next t ∧ Wrote h 0 p { s with latched := s.latched ++ [⟨h, p, 0, w⟩] } t ∧ t.pitches = s.pitches) ∧
      (∃ t, exec (.dbWork h p w) s = .next t ∧ Wrote h 0 p { s with latched := s.latched ++ [⟨h, p, 4, w⟩] } t ∧ t.pitches = s.pitches) ∧
      ∃ t, exec (.dbCpl h p w) s = .next t ∧ Wrote h 0 p { s with latched := s.latched ++ [⟨h, p, 8, w⟩] } t ∧ t.pitches = s.pitches)

/-- A host port writes and reads only what R362 lets it reach: no byte outside that changes. A MEM_WR that the Pitch Partition
Controller accepts outside a bucket staging area in use writes its bytes and nothing else; a MEM_RD is answered with the bytes;
a denied access is counted in MEM_DENIED, and a denied read answered with STATUS 1. DMA_RD_RESP answers the request of its TAG
on its port: the data of a command's payload is held for the command, a refusal fails the fetch, and a TAG that answers no
request changes nothing. A message on a port without a working module, or while the port discards flits, has no effect. It rests on choices of the model too: notes/assumptions 4 and 40. -/
def Obligations.HostMemoryMessages : Prop :=
  (∀ (s t : State) (h : HostPort) (a : BitVec 64) (d : Bytes),
     exec (.memWr h a d) s = .next t → ∀ b, t.byte b ≠ s.byte b → a.toNat ≤ b ∧ b < a.toNat + d.length ∧ Reaches s h b) ∧
  (∀ (s : State) (h : HostPort) (a : BitVec 64) (d : Bytes) (tag : W16) (n : Nat), ¬ Takes s h →
     exec (.memWr h a d) s = .next s ∧ exec (.memRd h tag a n) s = .next s ∧ exec (.dmaRdResp h n tag d) s = .next s) ∧
  (∀ (s : State) (h : HostPort) (a : BitVec 64), s.held = false → Takes s h →
     (∀ (d : Bytes) (p : PitchId), s.accessor h a.toNat d.length = some p → (s.pitch p).meetsArea p a.toNat d.length = false →
       ∃ t, exec (.memWr h a d) s = .next t ∧ t = { s with mem := t.mem, hostPorts := t.hostPorts } ∧ SameOutside s t a.toNat d.length ∧
         ∀ i, i < d.length → t.byte (a.toNat + i) = d.getD i 0) ∧
     (∀ d : Bytes, s.accessor h a.toNat d.length = none →
       ∃ t, exec (.memWr h a d) s = .next t ∧
         t = { s with hostPorts := t.hostPorts, glob := { s.glob with memDenied := s.glob.memDenied + 1 } }) ∧
     (∀ (tag : W16) (n : Nat) (p : PitchId), s.accessor h a.toNat n = some p → (s.pitch p).meetsArea p a.toNat n = false →
       ∃ t, exec (.memRd h tag a n) s = .next t ∧
         t = { s with hostPorts := t.hostPorts,
                      hostOut := s.hostOut ++ [⟨h, .memRdResp 0 tag ((List.range n).map (fun i =>
                        ((s.pitch p).tableByte p (a.toNat + i)).getD (s.byte (a.toNat + i))))⟩] }) ∧
     (∀ (tag : W16) (n : Nat), s.accessor h a.toNat n = none →
       ∃ t, exec (.memRd h tag a n) s = .next t ∧
         t = { s with hostPorts := t.hostPorts, hostOut := s.hostOut ++ [⟨h, .memRdResp 1 tag []⟩],
                      glob := { s.glob with memDenied := s.glob.memDenied + 1 } })) ∧
  (∀ (s : State) (h : HostPort) (st : Nat) (tag : W16) (d : Bytes), s.held = false → Takes s h →
     ((∀ r ∈ s.dma, r.port = h → r.tag ≠ tag) →
       ∃ t, exec (.dmaRdResp h st tag d) s = .next t ∧ t = { s with hostPorts := t.hostPorts }) ∧
     (∀ (r : DmaReq) (rest : List DmaReq) (p : PitchId), s.dma = r :: rest → r.port = h → r.tag = tag → r.use = .command p →
       (st = 0 → d.length = r.len → ∃ t, exec (.dmaRdResp h st tag d) s = .next t ∧
         t = { s with pitches := t.pitches, dma := rest, hostPorts := t.hostPorts } ∧
         t.pitch p = { s.pitch p with mail := { (s.pitch p).mail with fetched := (t.pitch p).mail.fetched } } ∧
         (∀ i, i < d.length → sfind ((t.pitch p).mail.fetched) (r.addr.toNat + i) = d[i]?)) ∧
       (st ≠ 0 → ∃ t, exec (.dmaRdResp h st tag d) s = .next t ∧ (∀ q ∈ t.dma, q.use ≠ .command p) ∧
         t.pitch p = { s.pitch p with mail := { (s.pitch p).mail with fetchFailed := some r.addr } })))

/-! ## The mailbox (18; 19 R405, R410; 22 R464) -/

/-- A mailbox command acts only where its opcode stands at the head of the command ring. A command whose SEQ is not NEXT_SEQ
does not run: it leaves the ring, NEXT_SEQ and the cache stand, and nothing but the mailbox changes; a second copy of a command whose
response is owed waits for that response. A command that fails a
check of R383 is answered with the STATUS of the first it fails and has no other effect; one with a reserved opcode is answered
E_RESERVED at byte 0. It rests on choices of the model too: notes/assumptions 18 and 81. -/
def Obligations.MailboxOrder : Prop :=
  (∀ (i : Instr) (p : PitchId) (k : CmdSpec) (s : State), mailRow i = some (p, k) →
     (∀ c, s.headCommand p = some c → c.op ≠ k.op) → exec i s = .next s) ∧
  (∀ (i : Instr) (p : PitchId) (k : CmdSpec) (c : Cmd) (s : State), mailRow i = some (p, k) → Waits s p c → s.tap.pins = false →
     c.op = k.op → c.seq ≠ (s.pitch p).mail.nextSeq → (∀ o ∈ (s.pitch p).mail.owed, o.seq ≠ c.seq ∨ o.opcode.toNat ≠ c.op) →
     (∀ e ∈ (s.pitch p).mail.cache, e.entry.length = 32) →
     ∃ t, exec i s = .next t ∧ MailFrame p s t ∧ PitchIs p t (s.pitch p) ∧
       (t.pitch p).mail.nextSeq = (s.pitch p).mail.nextSeq ∧ (t.pitch p).mail.cache = (s.pitch p).mail.cache ∧
       ((t.pitch p).qptr 0).head = ((s.pitch p).qptr 0).head + 1) ∧
  (∀ (i : Instr) (p : PitchId) (k : CmdSpec) (c : Cmd) (s : State), mailRow i = some (p, k) → Waits s p c → s.tap.pins = false →
     c.op = k.op → c.seq ≠ (s.pitch p).mail.nextSeq → (∃ o ∈ (s.pitch p).mail.owed, o.seq = c.seq ∧ o.opcode.toNat = c.op) →
     exec i s = .next s) ∧
  ((∀ (i : Instr) (p : PitchId) (k : CmdSpec) (c : Cmd) (r : Refuse) (s : State), mailRow i = some (p, k) → Waits s p c →
     s.tap.pins = false → c.op = k.op → c.seq = (s.pitch p).mail.nextSeq → s.commandCheck p k c = some r →
     ∃ t, exec i s = .next t ∧ OnlyAnswered p c (r.status % 65536) (r.detail % 2 ^ 32) s t) ∧
   (∀ (p : PitchId) (c : Cmd) (s : State), Waits s p c → c.op ∉ knownOpcodes → c.seq = (s.pitch p).mail.nextSeq →
     ∃ t, exec (.reservedCommand p) s = .next t ∧ OnlyAnswered p c eReserved 0 s t))

/-- sys.hello agrees the highest common ZIA version, or refuses; sys.caps draws a new DEBUG_NONCE and gives the 256-byte record.
pitch.bind gives an UNBOUND pitch its ports, staging and regions, zeroes its counters and its response ring and starts every
pointer at 0; pitch.release gives them back, clears its Erg registers, destroys the keys and the retained image, and starts NEXT_SEQ
anew; either is refused, with no effect, where the lease has no HOLDER or its TERM has passed. It rests on
choices of the model too: notes/assumptions 3. -/
def Obligations.HelloAndBinding : Prop :=
  (∀ (s : State) (p : PitchId) (c : Cmd) (bs : Bytes),
     (Ready s p helloSpec c bs → c.arg 32 2 ≤ min (c.arg 34 2) s.fw.zia.toNat → 1 ≤ min (c.arg 34 2) s.fw.zia.toNat →
       ∃ t, exec (.sysHello p) s = .next t ∧ AnsweredOk p c s t (s.pitch p) ∧
         (t.pitch p).mail.zia = BitVec.ofNat 16 (min (c.arg 34 2) s.fw.zia.toNat) ∧ (t.pitch p).mail.features = 0) ∧
     (Ready s p helloSpec c bs → min (c.arg 34 2) s.fw.zia.toNat < c.arg 32 2 →
       ∃ t, exec (.sysHello p) s = .next t ∧ OnlyAnswered p c eVersion 0 s t) ∧
     (Ready s p capsSpec c bs → c.respAddr = 0 →
       ∃ t, exec (.sysCaps p) s = .next t ∧ Answered p c 0 0 s t ∧ PitchIs p t (s.pitch p) ∧
         t.sec = { s.sec with nonce := some (Config.freeNonce s.free), nonceAge := 0 } ∧
         MailFrame p { s with sec := t.sec, free := s.free + 1 } t) ∧
     (Ready s p capsSpec c bs → c.respAddr ≠ 0 → isEngine c.respAddr = false → s.hostPorts[(s.pitch p).cmdPort].modules ≠ 0 →
       ∃ t rec', exec (.sysCaps p) s = .next t ∧ Answered p c 0 0 s t ∧ rec'.length = 256 ∧
         t.hostOut = s.hostOut ++ [⟨(s.pitch p).cmdPort, .dmaWr (BitVec.ofNat 64 c.respAddr) rec'⟩] ∧
         leAt rec' 0 4 = s.engineId % 2 ^ 32 ∧ leAt rec' 68 1 = s.secCode ∧ leAt rec' 80 16 = (Config.freeNonce s.free).toNat)) ∧
  (∀ (s : State) (p : PitchId) (c : Cmd) (bs : Bytes),
     (Ready s p bindSpec c bs → s.tap.pins = false → (Taken s p).bindCheck p bs = none →
       ∃ t, exec (.pitchBind p) s = .next t ∧ Responded p c 0 0 s t ∧ (t.pitch p).mode = .bound ∧
         (t.pitch p).binding = ⟨bs.getD 0 0, leAt bs 4 2, leAt bs 6 2, bindRegions bs⟩ ∧ (t.pitch p).counters = [] ∧
         (t.pitch p).qptr 0 = {} ∧ ((t.pitch p).qptr 1).head = 0 ∧ (t.pitch p).mail.noticeCount = 0 ∧
         (t.pitch p).eff = (s.pitch p).eff ∧ t.fuses = s.fuses ∧ t.erg = s.erg ∧ ∀ q, q ≠ p → t.pitch q = s.pitch q) ∧
     (Checked s p bindSpec c bs → s.tap.pins = false → (Taken s p).bindCheck p bs = none → s.termHolds p = false →
       ∃ t, exec (.pitchBind p) s = .next t ∧ OnlyAnswered p c eNotLeader 0 s t) ∧
     (∀ r, Ready s p bindSpec c bs → s.tap.pins = false → (Taken s p).bindCheck p bs = some r →
       ∃ t, exec (.pitchBind p) s = .next t ∧ OnlyAnswered p c (r.status % 65536) (r.detail % 2 ^ 32) s t) ∧
     (Ready s p releaseSpec c bs →
       ∃ t, exec (.pitchRelease p) s = .next t ∧ (t.pitch p).mode = .unbound ∧ (t.pitch p).binding = {} ∧ (t.pitch p).keys = {} ∧
         (t.pitch p).eff = {} ∧ (t.pitch p).plan = Vector.replicate 32 0 ∧ (t.pitch p).mail.nextSeq = 0 ∧ (t.pitch p).mail.cache = [] ∧
         (t.pitch p).counters = (s.pitch p).counters ∧ t.retained[p] = none ∧
         (∀ q, q ≠ p → t.pitch q = { s.pitch q with
           tsig := (t.pitch q).tsig, degraded := (t.pitch q).degraded, counters := (t.pitch q).counters }) ∧
         ∀ g, t.ergGet g = if (s.pitch p).ergBase p ≤ g ∧ g < (s.pitch p).ergBase p + (s.pitch p).ergCount p then 0 else s.ergGet g) ∧
     (Checked s p releaseSpec c bs → s.termHolds p = false →
       ∃ t, exec (.pitchRelease p) s = .next t ∧ OnlyAnswered p c eNotLeader 0 s t))

/-- pitch.start schedules RUNNING, which PITCH_RUNNING enters at the plan-period boundary, once the cells of every plan are awake, with
the committed plans in effect and the norm registers clear;
pitch.stop cuts the step off, pitch.drain lets it complete, and the pitch is STOPPED once its Erg registers are saved. The
commands that write the camp plan or other schedule registers are refused while the lease has no HOLDER, or where its TERM has
passed, with no side effect. It rests on choices of the model too: notes/assumptions 12, 18 and 81. -/
def Obligations.StartsAndStops : Prop :=
  (∀ (s : State) (p : PitchId) (c : Cmd) (bs : Bytes),
     (Ready s p startSpec c bs →
       ∃ t, exec (.pitchStart p) s = .next t ∧ Owes p c .start s t ∧ MailFrame p s t ∧
         PitchIs p t { s.pitch p with startPending := true }) ∧
     (s.held = false → (s.pitch p).startPending = true → s.plansAwake = true → (s.pitch p).member.fenceAt = none →
       ∃ t, exec (.pitchRunning p) s = .next t ∧ (t.pitch p).mode = .running ∧ (t.pitch p).startPending = false ∧
         t.cclk = s.planBoundary ∧ (∀ q, (t.pitch q).planEff = (s.pitch q).plan) ∧ (t.pitch p).runs = [] ∧
         (t.pitch p).lock = {} ∧ (t.pitch p).eff = (s.pitch p).eff ∧ (t.pitch p).time.step = (s.pitch p).time.step ∧
         t.ergGet ((s.pitch p).erg p ((s.pitch p).normLocal p)) = 0 ∧ t.ergGet ((s.pitch p).erg p ((s.pitch p).normGlobal p)) = 0 ∧
         ∀ o ∈ (t.pitch p).mail.owed, o.why ≠ .start) ∧
     (s.plansAwake = false → exec (.pitchRunning p) s = .next s) ∧
     (Ready s p stopSpec c bs →
       ∃ t, exec (.pitchStop p) s = .next t ∧ Owes p c .stop s t ∧ (t.pitch p).mode = .stopping ∧
         (t.pitch p).time.state = (if (s.pitch p).member.record.vacant = [] then .idle else .draining) ∧ (t.pitch p).runs = [] ∧
         (t.pitch p).tx.txq = [] ∧
         (t.pitch p).tx.out = (s.pitch p).tx.out ∧ (t.pitch p).exchanges = (s.pitch p).exchanges ∧ t.erg = s.erg) ∧
     (Ready s p drainSpec c bs → (s.pitch p).time.state ≠ .idle →
       ∃ t, exec (.pitchDrain p) s = .next t ∧ Owes p c .drain s t ∧ MailFrame p s t ∧
         PitchIs p t { s.pitch p with time := { (s.pitch p).time with drainPending := true } }) ∧
     (Ready s p drainSpec c bs → (s.pitch p).time.state = .idle →
       ∃ t, exec (.pitchDrain p) s = .next t ∧ Owes p c .stop s t ∧ (t.pitch p).mode = .stopping) ∧
     (s.held = false → (s.pitch p).mode = .stopping →
       ∃ t, exec (.ergSave p) s = .next t ∧ (t.pitch p).mode = .stopped ∧ (t.pitch p).ergSaved = true ∧ t.erg = s.erg ∧
         (∀ o ∈ (t.pitch p).mail.owed, o.why ≠ .stop ∧ o.why ≠ .drain) ∧
         ((s.pitch p).mail.owed = [] → ∀ k, k < (s.pitch p).ergCount p →
           t.readLe ((s.pitch p).cfg p 3 + 80 * k) 80 = (s.ergGet ((s.pitch p).erg p k)).toNat))) ∧
  (∀ (s : State) (p : PitchId) (c : Cmd) (bs : Bytes), s.termHolds p = false →
     (Checked s p startSpec c bs → ∃ t, exec (.pitchStart p) s = .next t ∧ OnlyAnswered p c eNotLeader 0 s t) ∧
     (Checked s p stopSpec c bs → ∃ t, exec (.pitchStop p) s = .next t ∧ OnlyAnswered p c eNotLeader 0 s t) ∧
     (Checked s p drainSpec c bs → ∃ t, exec (.pitchDrain p) s = .next t ∧ OnlyAnswered p c eNotLeader 0 s t))

/-- Pending configuration: cfg.base.load, cfg.overlay.put and cfg.overlay.select change it alone, and a record of bad form is
refused with its own STATUS. -/
def Obligations.PendingConfiguration : Prop :=
  ∀ (s : State) (p : PitchId) (c : Cmd) (bs : Bytes),
    (∀ v ts, Ready s p baseLoadSpec c bs → readRecord false bs = .ok (v, ts) →
      ∃ t, exec (.cfgBaseLoad p) s = .next t ∧ AnsweredOk p c s t { s.pitch p with pendBase := ts }) ∧
    (∀ r, Ready s p baseLoadSpec c bs → readRecord false bs = .error r →
      ∃ t, exec (.cfgBaseLoad p) s = .next t ∧ OnlyAnswered p c (r.status % 65536) (r.detail % 2 ^ 32) s t) ∧
    (∀ v ts, Ready s p overlayPutSpec c bs → c.arg 32 1 ≤ 15 → readRecord true bs = .ok (v, ts) → bs ≠ [] →
      ∃ t, exec (.cfgOverlayPut p) s = .next t ∧
        AnsweredOk p c s t { s.pitch p with pendOverlays := (t.pitch p).pendOverlays } ∧
        sget (t.pitch p).pendOverlays (c.arg 32 1) [] = bs ∧
        ∀ k, k ≠ c.arg 32 1 → sget (t.pitch p).pendOverlays k [] = sget (s.pitch p).pendOverlays k []) ∧
    (Ready s p overlayPutSpec c [] → c.arg 32 1 ≤ 15 →
      ∃ t, exec (.cfgOverlayPut p) s = .next t ∧ sget (t.pitch p).pendOverlays (c.arg 32 1) [] = [] ∧ Answered p c 0 0 s t) ∧
    (Ready s p overlaySelectSpec c bs → (c.arg 32 1 ≤ 15 ∨ c.arg 32 1 = 0xFF) →
      ∃ t, exec (.cfgOverlaySelect p) s = .next t ∧ AnsweredOk p c s t { s.pitch p with pendSel := c.arg 32 1 }) ∧
    (Ready s p overlaySelectSpec c bs → 15 < c.arg 32 1 → c.arg 32 1 ≠ 0xFF →
      ∃ t, exec (.cfgOverlaySelect p) s = .next t ∧ OnlyAnswered p c eRange 0 s t)

/-- cfg.commit makes a configuration that passes every check effective at once, in the retained store and the flash mirror; the
camp plan it computes takes effect for all pitches together at a plan-period boundary, once every cell that the plans use is awake. A
configuration that fails a check
changes nothing. It rests on choices of the model too: notes/assumptions 12 and 69. -/
def Obligations.CommitAndPlan : Prop :=
  (∀ (s : State) (p : PitchId) (c : Cmd) (bs : Bytes) (parts : List Bytes) (d : Draft),
    Ready s p commitSpec c bs → (s.pitch p).commitFirst p = none →
    (∀ t ∈ draftTables p.val ((s.pitch p).draftBase p), isEngine t.1 = false ∨ (s.pitch p).commandRange p t.1 t.2 = true) →
    s.fetchFor p (draftTables p.val ((s.pitch p).draftBase p)) = .ready parts →
    d = (s.pitch p).draft p (parts.getD 0 []) (parts.getD 1 []) →
    (∀ plan, d.check (Taken s p) p = .ok plan →
      ∃ t, exec (.cfgCommit p) s = .next t ∧ Answered p c 0 0 s t ∧
        (t.pitch p).mode = (if (s.pitch p).mode = .bound then .configured else (s.pitch p).mode) ∧
        (t.pitch p).committed = true ∧ (t.pitch p).eff = d.image ∧ (t.pitch p).plan = plan ∧
        (t.pitch p).planEff = (s.pitch p).planEff ∧ (t.pitch p).sel = (s.pitch p).pendSel ∧
        (t.pitch p).overlays = (s.pitch p).pendOverlays ∧ (t.pitch p).rsig = sigOf ((t.pitch p).rsigRecord p) ∧
        (∃ r, t.retained[p] = some r ∧ r.eff = d.image ∧ r.plan = plan) ∧ t.flash.journal = .complete ∧
        (∀ q, q ≠ p → t.pitch q = { s.pitch q with
          tsig := (t.pitch q).tsig, degraded := (t.pitch q).degraded, counters := (t.pitch q).counters }) ∧
        t.erg = s.erg ∧ t.fuses = s.fuses) ∧
    (∀ r, d.check (Taken s p) p = .error r →
      ∃ t, exec (.cfgCommit p) s = .next t ∧ OnlyAnswered p c (r.status % 65536) (r.detail % 2 ^ 32) s t)) ∧
  (∀ s : State, s.plansAwake = false → exec .campPlanEffect s = .next s) ∧
  (∀ s : State, s.held = false → s.plansAwake = true →
    ∃ t, exec .campPlanEffect s = .next t ∧ t = { s with cclk := s.planBoundary, pitches := t.pitches } ∧
      ∀ q, t.pitch q = { s.pitch q with planEff := (s.pitch q).plan })

/-- peg.load, layermap.load and lockstep.pair replace their table and have the signatures computed anew. -/
def Obligations.TablesLoad : Prop :=
  ∀ (s : State) (p : PitchId) (c : Cmd) (bs : Bytes),
    (Ready s p pegLoadSpec c bs → pegCheck (s.pitch p) p (c.arg 32 4) (c.arg 36 4) bs = none →
      ∃ t, exec (.pegLoad p) s = .next t ∧ AnsweredOk p c s t { s.pitch p with
        pegs := (chunks 16 (bs.take (16 * c.arg 32 4))).map pegOf, budgets := (chunks 64 (bs.drop (16 * c.arg 32 4))).map budgetOf
        pegsLoaded := true, rsig := (t.pitch p).rsig, tsig := (t.pitch p).tsig } ∧
        (t.pitch p).rsig = sigOf ((t.pitch p).rsigRecord p)) ∧
    (Ready s p layerLoadSpec c bs → layerCheck (s.pitch p) p (c.arg 32 4) bs = none →
      ∃ t, exec (.layermapLoad p) s = .next t ∧ AnsweredOk p c s t { s.pitch p with
        layers := (chunks 32 bs).map layerOf, layersLoaded := true, rsig := (t.pitch p).rsig, tsig := (t.pitch p).tsig } ∧
        (t.pitch p).rsig = sigOf ((t.pitch p).rsigRecord p)) ∧
    (Ready s p pairSpec c bs → c.arg 32 2 = 0xFFFF →
      ∃ t, exec (.lockstepPair p) s = .next t ∧ AnsweredOk p c s t { s.pitch p with
        pairing := none, rsig := (t.pitch p).rsig, tsig := (t.pitch p).tsig }) ∧
    (Ready s p pairSpec c bs → c.arg 32 2 ≠ 0xFFFF → c.arg 34 1 = 0 → 1 ≤ c.arg 36 2 → c.arg 36 2 ≤ 126 → c.arg 40 8 % 2048 = 0 →
      ∃ t, exec (.lockstepPair p) s = .next t ∧ AnsweredOk p c s t { s.pitch p with
        pairing := some ⟨c.arg 32 2, 0, c.arg 35 1 = 1, c.arg 36 2, c.arg 40 8⟩
        rsig := (t.pitch p).rsig, tsig := (t.pitch p).tsig })

/-- key.install makes an unwrapped group secret CURRENT, or PENDING until its step where a CURRENT one exists; group.join,
group.spare and group.leave write the membership record. checkpoint.mark and snapshot.export arm the step that runs, or wait at
a step boundary for the write, for which the target slot takes STATE 1; telemetry.read and health.log.read give counters and log records to the host. It rests on choices
of the model too: notes/assumptions 9, 71, 76, 77 and 80. -/
def Obligations.KeysMembershipAndReads : Prop :=
  (∀ (s : State) (p : PitchId) (c : Cmd) (bs : Bytes),
     (∀ sec, Ready s p keySpec c bs → (∀ i, i < 176 → (3 ≤ i ∧ i ≤ 7) ∨ 172 ≤ i → bs.getD i 0 = 0) →
       leAt bs 0 2 = (s.pitch p).member.record.group.toNat → s.unwrapKey p bs = some sec →
       ((s.pitch p).keys.current = none → ∃ t, exec (.keyInstall p) s = .next t ∧
         AnsweredOk p c s t { s.pitch p with keys := { (s.pitch p).keys with current := some sec } }) ∧
       (∀ cur, (s.pitch p).keys.current = some cur → (s.pitch p).keys.pending = none → sec.gen = cur.gen + 1 →
         ∃ t, exec (.keyInstall p) s = .next t ∧ AnsweredOk p c s t { s.pitch p with
           keys := { (s.pitch p).keys with pending := some sec, activateStep := BitVec.ofNat 64 (leAt bs 8 8) } })) ∧
     (Ready s p joinSpec c bs → (Taken s p).joinCheck p c = none → (s.pitch p).member.record.role = 0 →
       ∃ t, exec (.groupJoin p) s = .next t ∧ Answered p c 0 0 s t ∧
         (t.pitch p).member.record.group.toNat = c.arg 32 2 ∧ (t.pitch p).member.record.rank.toNat = c.arg 34 2 ∧
         (t.pitch p).member.record.n = c.arg 36 4 ∧ (t.pitch p).member.record.epoch.toNat = c.arg 40 4 ∧
         (t.pitch p).member.record.role = 1 ∧ (t.pitch p).member.record.vacant = [] ∧ (t.pitch p).tx.out = [] ∧
         (t.pitch p).time = (s.pitch p).time ∧ (t.pitch p).eff = (s.pitch p).eff ∧ MailFrame p s t) ∧
     (Ready s p joinSpec c bs → (Taken s p).joinCheck p c = none → (s.pitch p).member.record.role = 2 →
       ∃ t, exec (.groupJoin p) s = .next t ∧ Answered p c 0 0 s t ∧ (t.pitch p).member.record.role = 1 ∧
         (t.pitch p).member.record.vacant = [c.arg 34 2] ∧ (t.pitch p).member.joining = some (BitVec.ofNat 32 (c.arg 40 4)) ∧
         (t.pitch p).time.state = .draining ∧ MailFrame p s t) ∧
     (Ready s p spareSpec c bs → c.arg 44 16 = (s.pitch p).rsig.toNat → (s.pitch p).member.record.role = 0 →
       ∃ t, exec (.groupSpare p) s = .next t ∧ AnsweredOk p c s t { s.pitch p with
         member := { record := { group := BitVec.ofNat 16 (c.arg 32 2), rank := 0xFFFF, role := 2, rsig := (s.pitch p).rsig } } }) ∧
     (Ready s p leaveSpec c bs → (s.pitch p).member.record.role = 1 →
       (s.pitch p).member.record.rank.toNat + 1 = (s.pitch p).member.record.n →
       ((s.pitch p).mode ≠ .running → ∃ t, exec (.groupLeave p) s = .next t ∧ Answered p c 0 0 s t ∧
         (t.pitch p).member.record = {} ∧ MailFrame p s t) ∧
       ((s.pitch p).mode = .running → (s.pitch p).time.state ≠ .idle →
         ∃ t, exec (.groupLeave p) s = .next t ∧ Owes p c .leave s t ∧ MailFrame p s t ∧ PitchIs p t (s.pitch p))) ∧
     (Ready s p leaveSpec c bs → (s.pitch p).member.record.rank.toNat + 1 ≠ (s.pitch p).member.record.n →
       ∃ t, exec (.groupLeave p) s = .next t ∧ OnlyAnswered p c eMember 5 s t)) ∧
  (∀ (s : State) (p : PitchId) (c : Cmd) (bs : Bytes),
     (Ready s p ckptSpec c bs → (s.pitch p).ckptBase p ≠ 0 →
       ((s.pitch p).mode = .running → (s.pitch p).time.state ≠ .idle → ∃ t, exec (.checkpointMark p) s = .next t ∧
         AnsweredOk p c s t { s.pitch p with time := { (s.pitch p).time with ckptArmed := true } }) ∧
       ((s.pitch p).time.state = .idle → (s.pitch p).time.boundary = true → ∃ t, exec (.checkpointMark p) s = .next t ∧
         Owes p c .ckptNow s t ∧ OnlyPitch p { s with mem := t.mem } t ∧
         PitchIs p t { s.pitch p with time := { (s.pitch p).time with ckptSlot := some (s.targetSlot p) } } ∧
         SameOutside s t ((s.pitch p).ckptSlot p (s.targetSlot p)) 256 ∧
         t.readLe ((s.pitch p).ckptSlot p (s.targetSlot p) + 5) 1 = 1)) ∧
     (Waits s p c → c.op = 0x50 → c.seq = (s.pitch p).mail.nextSeq → ckptSpec.reserved c = none → s.rmaGate c.op = none →
       (s.pitch p).mode = .stopped ∨ ((s.pitch p).mode = .running ∧ (s.pitch p).time.state = .idle) →
       (s.pitch p).time.boundary = false → ∃ t, exec (.checkpointMark p) s = .next t ∧ OnlyAnswered p c eState 0x20 s t) ∧
     (Ready s p ckptSpec c bs → (s.pitch p).ckptBase p = 0 →
       ∃ t, exec (.checkpointMark p) s = .next t ∧ OnlyAnswered p c eCheckpoint 1 s t) ∧
     (Ready s p snapSpec c bs → c.arg 32 1 < 8 → ((s.pitch p).snapDest p (c.arg 32 1)).testBit 0 = true →
       ((s.pitch p).mode = .running → (s.pitch p).time.state ≠ .idle → ∃ t, exec (.snapshotExport p) s = .next t ∧
         AnsweredOk p c s t { s.pitch p with
           time := { (s.pitch p).time with exports := addNew (c.arg 32 1) (s.pitch p).time.exports } }) ∧
       ((s.pitch p).time.state = .idle → ∃ t, exec (.snapshotExport p) s = .next t ∧
         Owes p c (.snapNow (c.arg 32 1)) s t ∧ MailFrame p s t ∧ PitchIs p t (s.pitch p))) ∧
     (Ready s p telemetrySpec c bs → classKnown (c.arg 32 1) = true → c.arg 34 1 ≤ 16 → 1 ≤ c.arg 40 4 → c.arg 40 4 ≤ 512 →
       c.respAddr ≠ 0 → isEngine c.respAddr = false → s.hostPorts[(s.pitch p).cmdPort].modules ≠ 0 →
       ∃ t, exec (.telemetryRead p) s = .next t ∧ Answered p c 0 0 s t ∧ PitchIs p t (s.pitch p) ∧
         t.hostOut = s.hostOut ++ [⟨(s.pitch p).cmdPort, .dmaWr (BitVec.ofNat 64 c.respAddr)
           ((List.range (c.arg 40 4)).flatMap (fun i => leBytes 8
             ((Taken s p).telemetry p (c.arg 32 1) (c.arg 33 1) (c.arg 34 1) (c.arg 36 4 + i))))⟩]) ∧
     (Ready s p logReadSpec c bs → c.arg 32 8 < 131072 → 1 ≤ c.arg 40 4 → c.arg 40 4 ≤ 64 → c.respAddr ≠ 0 →
       isEngine c.respAddr = false → s.hostPorts[(s.pitch p).cmdPort].modules ≠ 0 → (∀ r ∈ s.flash.log, r.length = 64) →
       ∃ t, exec (.healthLogRead p) s = .next t ∧ Answered p c 0 0 s t ∧ PitchIs p t (s.pitch p) ∧ t.flash.log = s.flash.log ∧
         t.hostOut = s.hostOut ++ [⟨(s.pitch p).cmdPort, .dmaWr (BitVec.ofNat 64 c.respAddr)
           ((List.range (c.arg 40 4)).flatMap (fun i => s.flash.log.getD (c.arg 32 8 + i) (List.replicate 64 0xFF)))⟩]))

/-- fw.stage writes chunks to the bank that does not run and marks the image verified when its last chunk passes the ROM's
checks; fw.activate waits for the handover, which swaps the banks where the record is whole and the new image adopts it, and leaves
the old image running where it does not. It rests on choices of the model too: notes/assumptions 18, 56 and 67. -/
def Obligations.LiveUpdate : Prop :=
  (∀ (s : State) (p : PitchId) (c : Cmd) (bs : Bytes),
    (Ready s p stageSpec c bs → s.stageCheck p c = none → c.arg 36 1 = 0 →
      ∃ t, exec (.fwStage p) s = .next t ∧ Answered p c 0 0 s t ∧ PitchIs p t (s.pitch p) ∧
        t.fw.staging = some ⟨p, c.arg 32 4 + bs.length⟩ ∧ t.flash.activeB = s.flash.activeB ∧
        t.flash.bank (!s.flash.activeB) = (if c.arg 32 4 = 0 then [] else s.flash.bank (!s.flash.activeB)) ++ bs ∧
        t.flash.bank s.flash.activeB = s.flash.bank s.flash.activeB) ∧
    (Ready s p stageSpec c bs → s.stageCheck p c = none → c.arg 36 1 = 1 → c.arg 32 4 ≠ 0 →
      s.imageCode (s.flash.bank (!s.flash.activeB) ++ bs) = 0 →
      ∃ t, exec (.fwStage p) s = .next t ∧ Answered p c 0 0 s t ∧ t.fw.staging = none ∧ t.flash.stagedVerified = true ∧
        t.flash.activeB = s.flash.activeB) ∧
    (Ready s p activateSpec c bs → s.flash.stagedVerified = true →
      ∃ t, exec (.fwActivate p) s = .next t ∧ Owes p c .fwActivate s t ∧ t.fw.activating = some p ∧ t.fw.staging = none ∧
        t.flash = s.flash) ∧
    (Ready s p activateSpec c bs → s.flash.stagedVerified = false →
      ∃ t, exec (.fwActivate p) s = .next t ∧ Answered p c eImage 4 s t ∧ PitchIs p t (s.pitch p))) ∧
  (∀ (s : State) (adopts knows : Bool), s.held = false → s.fw.lease.frozen = true →
    ∃ t, exec (.fwHandover adopts knows) s = .next t ∧ t.fw.lease.frozen = false ∧ t.fw.activating = none ∧
      (adopts = true → bivouacOk s.fw.bivouac = true → t.flash.activeB = !s.flash.activeB ∧ t.flash.stagedVerified = false ∧
        t.fw.imageVersion = BitVec.ofNat 32 (leAt (bankBytes (s.flash.bank (!s.flash.activeB)) 0 272) 8 4)) ∧
      (adopts = false ∨ bivouacOk s.fw.bivouac = false → t.flash.activeB = s.flash.activeB ∧ t.flash.stagedVerified = s.flash.stagedVerified ∧
        t.fw.imageVersion = s.fw.imageVersion ∧ t.sec = s.sec)) ∧
  (∀ (s : State) (adopts knows : Bool), s.fw.lease.frozen = false → exec (.fwHandover adopts knows) s = .next s)

/-- debug.unlock: no payload relocks; a token that passes every check grants its level for its epochs, or enters RMA, which
destroys every key and faults every bound pitch; one that fails a check is E_AUTH with the check's number. Each signed token
uses up DEBUG_NONCE. It rests on choices of the model too: notes/assumptions 66. -/
def Obligations.DebugUnlock : Prop :=
  ∀ (s : State) (p : PitchId) (c : Cmd) (tok : Bytes), s.sec.session ≠ some 0 → s.tap.pins = false → Ready s p unlockSpec c tok →
    (tok = [] → ∃ t, exec (.debugUnlock p) s = .next t ∧ Answered p c 0 0 s t ∧ t.sec.level = 0 ∧ t.sec.session = none ∧
      t.sec.nonce = s.sec.nonce) ∧
    (tok.length = 280 → s.tokenDetail tok ≠ 0 → ∃ t, exec (.debugUnlock p) s = .next t ∧
      Answered p c eAuth (s.tokenDetail tok % 2 ^ 32) s t ∧ PitchIs p t (s.pitch p) ∧
      t.sec = { s.sec with nonce := none } ∧ t.fuses = s.fuses) ∧
    (tok.length = 280 → s.tokenDetail tok = 0 → leAt tok 5 1 = 1 ∨ (leAt tok 5 1 = 2 ∧ s.anyActive = false ∧ s.power.device ≠ 2) →
      ∃ t, exec (.debugUnlock p) s = .next t ∧ Answered p c 0 0 s t ∧ t.sec.level = leAt tok 5 1 ∧
        t.sec.session = some (leAt tok 8 4) ∧ t.sec.nonce = none ∧ t.secCode = 2 ∧ t.fuses = s.fuses ∧
        (leAt tok 5 1 = 2 → ∀ q, (t.pitch q).keys = {})) ∧
    (tok.length = 280 → s.tokenDetail tok = 0 → leAt tok 5 1 = 3 → (s.pitch p).mail.owed = [] →
      ∃ t, exec (.debugUnlock p) s = .next t ∧ Responded p c 0 0 s t ∧ t.secCode = 3 ∧ t.sec.level = 0 ∧
        t.fuses = { s.fuses with rma := true, udsLock := true } ∧ t.sec.deviceKey = 0 ∧ t.sec.wrapKey = 0 ∧ t.sec.aliasKey = 0 ∧
        ∀ q, (t.pitch q).keys = {} ∧ ((s.pitch q).mode ≠ .unbound → (t.pitch q).mode = .faulted))

/-! ## Pegs and barriers (03 R60 to R77; 10 R247; 16 R345 to R347) -/

/-- A due peg fires once, NEXT_PEG advances, and it has its action: START_STATS makes a bucket eligible or fuses it into the
bucket before it, window pegs open and end windows, BARRIER holds the pegs, CHECKPOINT and EXPORT_SNAPSHOT arm the step,
END_STEP drains it. A scope-1 barrier is released at its time, and scope-0 barriers of a set of pitches that all wait and name
exactly that set are released together in the next cycle; each bound port that is up is told, and the pegs go on. It rests on choices of
the model too: notes/assumptions 18, 91 and 95. -/
def Obligations.PegsAndBarriers : Prop :=
  (∀ (s : State) (p : PitchId) (g : Peg),
     (∀ fuse : Bool, Due s p 1 g →
       (fuse = false ∨ ∀ r ∈ (s.pitch p).runs, (s.pitch p).mayFuse p r g.arg0.toNat = false) →
       ∃ t, exec (.startStats p fuse) s = .next t ∧ OnlyPitch p s t ∧ t.pitch p = { Fired (s.pitch p) with
         runs := (s.pitch p).runs ++ [{ bucket := g.arg0.toNat, parts := [g.arg0.toNat], seq := (s.pitch p).time.nextPeg }] }) ∧
     (∀ r : BucketRun, Due s p 1 g → (s.pitch p).runs = [r] → (s.pitch p).mayFuse p r g.arg0.toNat = true → r.isLow (s.pitch p) = true →
       ∃ t, exec (.startStats p true) s = .next t ∧ OnlyPitch p s t ∧
         t.pitch p = { Fired (s.pitch p) with
           runs := [r, { bucket := g.arg0.toNat, parts := [g.arg0.toNat], seq := r.seq }], counters := (t.pitch p).counters } ∧
         (t.pitch p).counter .bucketFuse = (s.pitch p).counter .bucketFuse + 1) ∧
     (∀ r : BucketRun, Due s p 1 g → (s.pitch p).runs = [r] → (s.pitch p).mayFuse p r g.arg0.toNat = true → r.isLow (s.pitch p) = false →
       ∃ t, exec (.startStats p true) s = .next t ∧ OnlyPitch p s t ∧
         t.pitch p = { Fired (s.pitch p) with
           runs := [{ r with parts := r.parts ++ [g.arg0.toNat] }], counters := (t.pitch p).counters } ∧
         (t.pitch p).counter .bucketFuse = (s.pitch p).counter .bucketFuse + 1 ∧
         (t.pitch p).counter .ndcBits = (s.pitch p).counter .ndcBits + 1) ∧
     (Due s p 2 g → ∃ t y, exec (.openWindow p) s = .next t ∧ OnlyPitch p s t ∧ WindowEnded s.cclk (Fired (s.pitch p)) y ∧
       t.pitch p = { y with time := { y.time with windowOpen := true }, tx := { y.tx with opened := y.tx.opened + 1 } }) ∧
     (Due s p 3 g → ∃ t, exec (.closeWindow p) s = .next t ∧ OnlyPitch p s t ∧
       WindowEnded s.cclk (Fired (s.pitch p)) (t.pitch p)) ∧
     (Due s p 4 g → g.arg0.getLsbD 0 = false → ∃ t, exec (.barrier p) s = .next t ∧ OnlyPitch p s t ∧
       t.pitch p = { s.pitch p with time := { (s.pitch p).time with
         nextPeg := (s.pitch p).time.nextPeg + 1, barrier := some false, barriers := (s.pitch p).time.barriers + 1 } }) ∧
     (Due s p 4 g → g.arg0.getLsbD 0 = true → ∃ t, exec (.barrier p) s = .next t ∧ OnlyPitch p s t ∧
       (t.pitch p).time = { (s.pitch p).time with
         nextPeg := (s.pitch p).time.nextPeg + 1, barrier := some true, barriers := (s.pitch p).time.barriers + 1 } ∧
       t.pitch p = { s.pitch p with time := (t.pitch p).time, gbars := (t.pitch p).gbars
                                    tx := { (s.pitch p).tx with txq := (t.pitch p).tx.txq } } ∧
       ((t.pitch p).gbar (s.pitch p).stepLo (s.pitch p).time.barriers).fired = true ∧
       ((s.pitch p).rank = 0 → (s.pitch p).size ≤ 1 →
         ((s.pitch p).gbar (s.pitch p).stepLo (s.pitch p).time.barriers).sentUp = false →
         ((t.pitch p).gbar (s.pitch p).stepLo (s.pitch p).time.barriers).release = some (0, s.cclk + 1))) ∧
     (Due s p 5 g → ∃ t, exec (.checkpoint p) s = .next t ∧ OnlyPitch p s t ∧
       t.pitch p = { s.pitch p with time := { (s.pitch p).time with nextPeg := (s.pitch p).time.nextPeg + 1, ckptArmed := true } }) ∧
     (Due s p 6 g → ∃ t, exec (.exportSnapshot p) s = .next t ∧ OnlyPitch p s t ∧
       t.pitch p = { s.pitch p with time := { (s.pitch p).time with
         nextPeg := (s.pitch p).time.nextPeg + 1
         exports := if g.arg0.toNat ∈ (s.pitch p).time.exports then (s.pitch p).time.exports
                    else (s.pitch p).time.exports ++ [g.arg0.toNat] } }) ∧
     (Due s p 7 g → ∃ t y, exec (.endStep p) s = .next t ∧ OnlyPitch p s t ∧ WindowEnded s.cclk (Fired (s.pitch p)) y ∧
       t.pitch p = { y with time := { y.time with state := .draining } })) ∧
  (∀ s : State, s.held = false →
     (∀ (p : PitchId) (time earliest : Nat), (s.pitch p).time.barrier = some true →
       ((s.pitch p).gbar (s.pitch p).stepLo ((s.pitch p).time.barriers - 1)).release = some (time, earliest) →
       ∃ t, exec (.barrierReleaseTime p) s = .next t ∧
         t.cclk = max s.cclk (if (s.pitch p).size ≤ 1 then earliest else max earliest (s.cclkAt time)) ∧
         t = { s with cclk := t.cclk, pitches := t.pitches, hostOut := t.hostOut, hostPorts := t.hostPorts } ∧
         (∀ q, q ≠ p → t.pitch q = s.pitch q) ∧
         t.pitch p = { s.pitch p with time := { (s.pitch p).time with barrier := none }, gbars := (t.pitch p).gbars
                                      counters := (t.pitch p).counters } ∧
         (t.pitch p).counter .barUnlocked =
           (s.pitch p).counter .barUnlocked + (if 1 < (s.pitch p).size ∧ s.ptp.locked = false then 1 else 0) ∧
         t.hostOut = s.hostOut ++ ((s.pitch p).ports.filter s.hostUp).map (fun h =>
           ⟨h, .release p true (s.pitch p).stepLo ((s.pitch p).time.barriers - 1)⟩)) ∧
     (∀ set : BitVec 12, set ≠ 0 →
       (∀ p : PitchId, set.getLsbD p.val = true → (s.pitch p).time.barrier = some false ∧ (s.pitch p).cfg p 0x12 = set.toNat) →
       ∃ t, exec (.packageBarrierRelease set) s = .next t ∧
         t = { s with cclk := s.cclk + 1, pitches := t.pitches, hostOut := t.hostOut, hostPorts := t.hostPorts } ∧
         (∀ p : PitchId, t.pitch p = if set.getLsbD p.val = true then
           { s.pitch p with time := { (s.pitch p).time with barrier := none } } else s.pitch p) ∧
         t.hostOut = s.hostOut ++ (allPitches.filter (fun p => set.getLsbD p.val)).flatMap (fun p =>
           ((s.pitch p).ports.filter s.hostUp).map (fun h => ⟨h, .release p false (s.pitch p).stepLo ((s.pitch p).time.barriers - 1)⟩))) ∧
     (∀ (set : BitVec 12) (p : PitchId), set.getLsbD p.val = true →
       ((s.pitch p).time.barrier ≠ some false ∨ (s.pitch p).cfg p 0x12 ≠ set.toNat) →
       exec (.packageBarrierRelease set) s = .next s))

/-! ## The bucket pipeline (06 R134 to R147; 07 R159; 09 R208; 10 R228, R235) -/

/-- Phase S forms v of one block, its exponent and its NF bit, in staging or in the spill region, and waits where the staging area has no
room; a selection pass keeps what it took of every row. Phase Q leaves v less what was sent as the member residual of each element and
hands the block's stream to the Packer, which writes it at the free slot of the pack ring, waits where there is none and resumes once
there is. Both take the checks of their slice, and no work in a slice that is out of work. It rests on choices of the model too:
notes/assumptions 31 and 106. -/
def Obligations.SelectAndQuantise : Prop :=
  (∀ (s : State) (p : PitchId) (r : BucketRun) (bucket : Nat), s.held = false →
     (∀ block, s.sliceWorks block = false → ∀ check, exec (.statsBlock p bucket block check) s = .next s) ∧
     (∀ block, (s.pitch p).nextStats = some r → r.mayStats (s.pitch p) p block = false → ∀ check,
       exec (.statsBlock p bucket block check) s = .next s) ∧
     (∀ block, (s.pitch p).nextStats = some r → r.bucket = bucket → r.statNext = block →
       r.mayStats (s.pitch p) p block = true → s.sliceWorks block = true →
       ∃ t r', exec (.statsBlock p bucket block .pass) s = .next t ∧ BlockChecked s p block (.statsBlock p bucket block) t ∧
         r' ∈ (t.pitch p).runs ∧ r'.bucket = bucket ∧ r'.parts = r.parts ∧
         r'.statNext = block + 1 ∧ r'.statsDone = decide (block + 1 = r.blocks (s.pitch p)) ∧
         r'.codes = r.codes ++ [((blockExponent (blockSums s p r block)).1 + 127).toNat] ∧
         r'.nf = (r.nf || (blockSums s p r block).any (fun v => !finite32 v)) ∧
         t.runV p r' (block * bBlock (r.head (s.pitch p))) (bBlock (r.head (s.pitch p))) = blockSums s p r block ∧
         (r'.home = true ↔ r.home = true ∨ (block = 0 ∧ (s.pitch p).takesRegion p r = true)) ∧
         Within p [((s.pitch p).spillAddr p (block * bBlock (r.head (s.pitch p))), 4 * bBlock (r.head (s.pitch p)))] s t ∧
         (r'.home = false → t.mem = s.mem) ∧
         t.pitch p = { s.pitch p with
           runs := (t.pitch p).runs, ingests := (t.pitch p).ingests, numFlags := (t.pitch p).numFlags
           counters := (t.pitch p).counters, guard := { (s.pitch p).guard with layerNf := (t.pitch p).guard.layerNf } }) ∧
     ((s.pitch p).works = true → (s.pitch p).runs.find? (fun q => q.bucket = bucket) = some r → r.statsDone = true →
       r.passesDone = false →
       ∃ t r', exec (.selectionPass p bucket) s = .next t ∧ OnlyPitch p s t ∧ r' ∈ (t.pitch p).runs ∧ r'.bucket = bucket ∧
         r'.pass = r.pass + 1 ∧ r'.passesDone = decide (r'.passes (s.pitch p) ≤ r.pass + 1) ∧ (∀ w ∈ r'.rows, w.list = []) ∧
         r'.v = r.v ∧ t.pitch p = { s.pitch p with runs := (t.pitch p).runs, counters := (t.pitch p).counters } ∧
         (t.pitch p).counter .selPasses = (s.pitch p).counter .selPasses + 1)) ∧
  (∀ (s : State) (p : PitchId), s.held = false →
     (∀ (r : BucketRun) (j : Nat), (s.pitch p).nextQuant = some (r, j) →
       (s.pitch p).runs.find? (fun q => q.bucket = r.bucket) = some r → s.sliceWorks j = true →
       ∃ t bs, exec (.quantiseBlock p r.bucket j .pass) s = .next t ∧ BlockChecked s p j (.quantiseBlock p r.bucket j) t ∧
         (∀ q, q ≠ p → t.pitch q = s.pitch q) ∧ t = { s with pitches := t.pitches, mem := t.mem } ∧
         bs = (List.range (bBlock ((s.pitch p).bucketD (r.part (s.pitch p) j).1))).flatMap (fun i =>
           leBytes (resSize (bResFmt ((s.pitch p).bucketD (r.part (s.pitch p) j).1)))
             (resEncode (bResFmt ((s.pitch p).bucketD (r.part (s.pitch p) j).1)) (residualOf s p r j i)).1) ∧
         t.mem = ((match (s.pitch p).ringPlace p (r.slot (s.pitch p) kindContrib) with
           | some off => s.write ((s.pitch p).ringBase p + off) (contribOf s p r j)
           | none => s).write (bResBase ((s.pitch p).bucketD (r.part (s.pitch p) j).1) + resSize (bResFmt ((s.pitch p).bucketD (r.part (s.pitch p) j).1)) *
             ((r.part (s.pitch p) j).2 * bBlock ((s.pitch p).bucketD (r.part (s.pitch p) j).1))) bs).mem ∧
         (∃ r' ∈ (t.pitch p).runs, r'.bucket = r.bucket ∧ r'.quantNext = max r.quantNext (j + 1) ∧
           r'.retry = r.retry.filter (· ≠ j)) ∧
         t.pitch p = { s.pitch p with runs := (t.pitch p).runs, tx := (t.pitch p).tx, numFlags := (t.pitch p).numFlags
                                      counters := (t.pitch p).counters } ∧
         (((s.pitch p).ringRoom p (r.slot (s.pitch p) kindContrib) = true → (t.pitch p).tx.packWait = []) ∧
           ((s.pitch p).ringRoom p (r.slot (s.pitch p) kindContrib) = false →
             (t.pitch p).tx.packWait = [⟨r.bucket, j, kindContrib, contribOf s p r j⟩] ∧
             (t.pitch p).counter .packRingStalls = (s.pitch p).counter .packRingStalls + 1))) ∧
     (∀ (bucket j : Nat) (check : BlockCheck), s.sliceWorks j = false → exec (.quantiseBlock p bucket j check) s = .next s) ∧
     (∀ (w : PackItem) (rest : List PackItem) (r : BucketRun) (off : Nat), (s.pitch p).tx.packWait = w :: rest →
       (s.pitch p).runs.find? (fun q => q.bucket = w.run) = some r → (s.pitch p).works = true →
       (s.pitch p).ringPlace p (r.slot (s.pitch p) w.kind) = some off →
       ∃ t, exec (.packerResume p) s = .next t ∧ OnlyPitch p (s.write ((s.pitch p).ringBase p + off) w.bytes) t ∧
         (t.pitch p).tx.packWait = rest ∧
         t.pitch p = { s.pitch p with runs := (t.pitch p).runs, tx := (t.pitch p).tx, counters := (t.pitch p).counters }))

/-- Phase G places the broadcast of a complete block at its owner and counts it done; NORM_LOCAL leaves once
every owned block of the CLIP buckets is dealt with: to rank 0, or at rank 0 into NORM_GLOBAL; the own record of a bucket enters its
agreement, which goes on to the parent, or is agreed at rank 0, once every child's is there. It rests on choices of the model too:
notes/assumptions 31 and 106. -/
def Obligations.OwnerPhase : Prop :=
  ∀ (s : State) (p : PitchId), s.held = false →
    (∀ (bucket j : Nat) (r : BucketRun), (s.pitch p).runs.find? (fun q => q.bucket = bucket) = some r → s.readyG p r j = true →
      ∃ t r', exec (.requantiseBlock p bucket j) s = .next t ∧ r' ∈ (t.pitch p).runs ∧ r'.bucket = bucket ∧ r'.parts = r.parts ∧
        j ∈ r'.gDone ∧ r'.placed = r.placed ++ [(j, broadcastOf s p (r.part (s.pitch p) j).1 (r.part (s.pitch p) j).2)] ∧
        Within p (ownerRanges s p r j) s t) ∧
    ((s.pitch p).normReady = true → (s.pitch p).rank ≠ 0 →
      ∃ t, exec (.normLocalSend p) s = .next t ∧ (∀ q, q ≠ p → t.pitch q = s.pitch q) ∧
        t = { s with pitches := t.pitches, erg := t.erg } ∧
        t.pitch p = { s.pitch p with guard := { (s.pitch p).guard with normSent := true }
                                     tx := { (s.pitch p).tx with txq := (t.pitch p).tx.txq } } ∧
        messageFrame 0 opErg 0 tgNormUp (ergBytes (s.ergGet ((s.pitch p).erg p ((s.pitch p).normLocal p)))) ∈ (t.pitch p).tx.txq ∧
        ∀ g, t.ergGet g = if g = (s.pitch p).erg p ((s.pitch p).normLocal p) then 0 else s.ergGet g) ∧
    ((s.pitch p).normReady = true → (s.pitch p).rank = 0 → (s.pitch p).guard.normArrivals + 1 ≠ (s.pitch p).size →
      (s.pitch p).normLocal p ≠ (s.pitch p).normGlobal p →
      ∃ t, exec (.normLocalSend p) s = .next t ∧ OnlyPitch p { s with erg := t.erg } t ∧
        t.pitch p = { s.pitch p with guard := { (s.pitch p).guard with
          normSent := true, normArrivals := (s.pitch p).guard.normArrivals + 1 } } ∧
        t.ergGet ((s.pitch p).erg p ((s.pitch p).normLocal p)) = 0 ∧
        t.ergGet ((s.pitch p).erg p ((s.pitch p).normGlobal p)) =
          ergAdd (s.ergGet ((s.pitch p).erg p ((s.pitch p).normGlobal p))) (s.ergGet ((s.pitch p).erg p ((s.pitch p).normLocal p)))) ∧
    (∀ (b round floors : Nat) (own : AgreeRec), s.ownRecord p b round = some (own, floors) → (s.pitch p).works = true →
      ((s.pitch p).agree b round (s.pitch p).stepLo).own = none →
      ∃ t, exec (.agreementRecordReady p b round) s = .next t ∧ Within p [] s t ∧
        ((t.pitch p).agree b round (s.pitch p).stepLo).own = some own.bytes ∧
        (((s.pitch p).agree b round (s.pitch p).stepLo).agreed = none → ((s.pitch p).agree b round (s.pitch p).stepLo).sent = false →
          (∀ c ∈ (s.pitch p).children, ∃ k ∈ ((s.pitch p).agree b round (s.pitch p).stepLo).kids, k.1 = c) →
          ((t.pitch p).agree b round (s.pitch p).stepLo).sent = true ∧
          ((s.pitch p).rank = 0 → ((t.pitch p).agree b round (s.pitch p).stepLo).agreed =
            some (combinedRecord ((s.pitch p).agree b round (s.pitch p).stepLo) own.bytes)) ∧
          ((s.pitch p).rank ≠ 0 → ∀ f ∈ recordFrames (treeParent (s.pitch p).rank) b tgAgreeUp
            (combinedRecord ((s.pitch p).agree b round (s.pitch p).stepLo) own.bytes), f ∈ (t.pitch p).tx.txq)))

/-! ## Output, update, completion, checkpoints and exports (03 R66; 06 R145; 14 R308, R315; 15 R325, R330) -/

/-- Phase O writes a block's output to the host where its ingest range asked for it, in a slice that takes work, and waits, once counted,
while the lock-step Unit has no room; the fused update replaces weight and optimiser state of every element whose update is finite. -/
def Obligations.OutputAndUpdate : Prop :=
  ∀ (s : State) (p : PitchId) (r : BucketRun) (j : Nat), s.held = false →
    ((s.pitch p).nextOutput = some (r, j) → (s.pitch p).normBanks p (r.part (s.pitch p) j).1 (r.part (s.pitch p) j).2 1 = true →
      (s.pitch p).lsRoom = true → s.sliceWorks j = true →
      ∃ t, exec (.outputBlock p r.bucket j .pass) s = .next t ∧ BlockChecked s p j (.outputBlock p r.bucket j) t ∧ (∃ r' ∈ (t.pitch p).runs, r'.bucket = r.bucket ∧ j ∈ r'.outDone) ∧
        (∀ q, q ≠ p → t.pitch q = s.pitch q) ∧
        (∀ (g : IngestRange) (c : Placed), (s.pitch p).lsHolds = false → s.placedOf p r j = some c → s.hostUp (s.copyPort p g.wq) = true →
          ((s.pitch p).ingest (r.part (s.pitch p) j).1).outs.find? (fun g =>
            g.offset ≤ (r.part (s.pitch p) j).2 * bBlock ((s.pitch p).bucketD (r.part (s.pitch p) j).1) &&
            (r.part (s.pitch p) j).2 * bBlock ((s.pitch p).bucketD (r.part (s.pitch p) j).1) < g.offset + g.count) = some g →
          s.hostOut ++ dmaWrites (s.copyPort p g.wq)
            (g.outAddr + BitVec.ofNat 64 (((r.part (s.pitch p) j).2 * bBlock ((s.pitch p).bucketD (r.part (s.pitch p) j).1) - g.offset) *
              (fmtBits (bOutFmt ((s.pitch p).bucketD (r.part (s.pitch p) j).1)) / 8)))
            (outBytes ((s.pitch p).bucketD (r.part (s.pitch p) j).1)
              (((s.pitch p).outCodes ((s.pitch p).bucketD (r.part (s.pitch p) j).1)
                (placedVals ((s.pitch p).bucketD (r.part (s.pitch p) j).1) c)).map Prod.fst)) <+: t.hostOut) ∧
        ((s.pitch p).pairing = none → Within p [] { s with hostOut := t.hostOut, hostPorts := t.hostPorts } t)) ∧
    ((s.pitch p).nextOutput = some (r, j) → (s.pitch p).lsRoom = true → s.sliceWorks j = false → ∀ check,
      exec (.outputBlock p r.bucket j check) s = .next s) ∧
    ((s.pitch p).nextOutput = some (r, j) → (s.pitch p).normBanks p (r.part (s.pitch p) j).1 (r.part (s.pitch p) j).2 1 = true →
      (s.pitch p).lsRoom = false → (s.pitch p).lock.waiting = false → ∀ check,
      ∃ t, exec (.outputBlock p r.bucket j check) s = .next t ∧ OnlyPitch p s t ∧
        (t.pitch p).counter .lsWaits = (s.pitch p).counter .lsWaits + 1 ∧
        t.pitch p = { s.pitch p with lock := { (s.pitch p).lock with waiting := true }, counters := (t.pitch p).counters }) ∧
    (∀ (rec' : BitVec 1024) (n wa oa : Nat), (s.pitch p).runs.find? (fun q => q.bucket = r.bucket) = some r →
      r.readyUpdate (s.pitch p) j = true → r.updateBanks (s.pitch p) p j = true → rec' = (s.pitch p).bucketD (r.part (s.pitch p) j).1 → n = bBlock rec' →
      wa = (s.pitch p).cfg p 0x10F + 2 * ((s.pitch p).shard (r.part (s.pitch p) j).1 (r.part (s.pitch p) j).2 * n) →
      oa = (s.pitch p).cfg p 0x110 + 8 * ((s.pitch p).shard (r.part (s.pitch p) j).1 (r.part (s.pitch p) j).2 * n) →
      hbmBase ≤ wa → hbmBase ≤ oa → (wa + 2 * n ≤ oa ∨ oa + 8 * n ≤ wa) →
      ∃ t, exec (.fusedUpdateBlock p r.bucket j) s = .next t ∧ Within p [(wa, 2 * n), (oa, 8 * n)] s t ∧
        (∃ r' ∈ (t.pitch p).runs, r'.bucket = r.bucket ∧ j ∈ r'.updDone) ∧
        ∀ i, i < n →
          (∀ c m v, elemUpdate s p r j i = some (c, m, v) → t.read (wa + 2 * i) 2 = leBytes 2 c ∧
            t.read (oa + 8 * i) 8 = leBytes 4 m.toNat ++ leBytes 4 v.toNat) ∧
          (elemUpdate s p r j i = none → t.read (wa + 2 * i) 2 = s.read (wa + 2 * i) 2 ∧
            t.read (oa + 8 * i) 8 = s.read (oa + 8 * i) 8))

/-- A step that meets every condition of R66 completes: STEP_STATE becomes IDLE at a step boundary with its verdict and the next
loss scale; a held STEP_SET begins the next step. A checkpoint that is due is begun in the slot that does not hold the newest one, whose
header takes STATE 1, and is then written there, complete with its CRC, as is one that a command waits for; an export that is due leaves
as one image, to host memory or as frames of the drain window to its rank. It rests on choices of the model too: notes/assumptions 38, 44 and 83. -/
def Obligations.StepEndAndImages : Prop :=
  (∀ (s : State) (p : PitchId), s.held = false → (s.pitch p).mayComplete = true →
     (∀ o ∈ (s.pitch p).mail.owed, o.why ≠ .leave) → (s.pitch p).time.drainPending = false →
     ((s.pitch p).time.held = none → ∃ t, exec (.stepComplete p) s = .next t ∧ (t.pitch p).time.state = .idle ∧
       (t.pitch p).time.boundary = true ∧ (t.pitch p).time.step = (s.pitch p).time.step ∧ (t.pitch p).mode = .running ∧
       (t.pitch p).guard.lastVerdict = (s.pitch p).guard.verdict.getD 0 ∧
       (t.pitch p).guard.lsExp = ((s.pitch p).lossScaleNext p).1 ∧ (t.pitch p).guard.clean = ((s.pitch p).lossScaleNext p).2.1 ∧
       (t.pitch p).eff = (s.pitch p).eff ∧ (∀ q, q ≠ p → t.pitch q = s.pitch q) ∧
       (∀ a, (a < queueBase p.val ∨ queueBase p.val + queueSize ≤ a) →
         (a < (s.pitch p).cfg p 0x111 ∨ (s.pitch p).cfg p 0x111 + 384 * (s.pitch p).layers.length ≤ a) → t.byte a = s.byte a)) ∧
     (∀ v, (s.pitch p).time.held = some v → ∃ t, exec (.stepComplete p) s = .next t ∧ (t.pitch p).time.state = .active ∧
       (t.pitch p).time.step = v ∧ (t.pitch p).time.held = none ∧ (t.pitch p).time.cursor = 0 ∧
       (t.pitch p).guard.lastVerdict = (s.pitch p).guard.verdict.getD 0)) ∧
  (∀ (s : State) (p : PitchId), s.held = false →
     ((∀ o ∈ (s.pitch p).mail.owed, o.why ≠ .ckptNow) → (s.pitch p).stepOver = true → (s.pitch p).time.ckptArmed = true →
       (s.pitch p).time.ckptDone = false →
       ((s.pitch p).time.ckptSlot = none → ∃ t a, exec (.checkpointWrite p) s = .next t ∧ a = (s.pitch p).ckptSlot p (s.targetSlot p) ∧
         t.readLe (a + 5) 1 = 1 ∧ t.readLe (a + 252) 4 = crc32c (t.read a 252) ∧ SameOutside s t a 256 ∧
         (∀ i, i < 252 → i ≠ 5 → t.byte (a + i) = s.byte (a + i)) ∧
         t = { s with pitches := t.pitches, mem := t.mem } ∧ (∀ q, q ≠ p → t.pitch q = s.pitch q) ∧
         t.pitch p = { s.pitch p with time := { (s.pitch p).time with ckptSlot := some (s.targetSlot p) } }) ∧
       (∀ k, (s.pitch p).time.ckptSlot = some k → ∃ t, exec (.checkpointWrite p) s = .next t ∧ CkptWritten s t p k ∧
         SameOutside s t ((s.pitch p).ckptSlot p k) (ckptLen s p) ∧ (∀ q, q ≠ p → t.pitch q = s.pitch q) ∧
         t.pitch p = { s.pitch p with time := { (s.pitch p).time with ckptDone := true, ckptSlot := none }
                                      ckSeq := (t.pitch p).ckSeq, counters := (t.pitch p).counters } ∧
         t = { s with pitches := t.pitches, mem := t.mem, retained := t.retained, flash := t.flash })) ∧
     (∀ o k, (s.pitch p).mail.owed = [o] → o.why = .ckptNow → (s.pitch p).time.ckptSlot = some k → hbmBase ≤ (s.pitch p).ckptBase p →
       ∃ t, exec (.checkpointWrite p) s = .next t ∧ CkptWritten s t p k ∧ (t.pitch p).mail.owed = [] ∧
         (∃ e, (t.pitch p).mail.cache.head? = some ⟨o.seq, o.opcode, e⟩ ∧ leAt e 10 2 = 0 ∧
           leAt e 16 8 = ((s.pitch p).time.step + 1).toNat ∧ leAt e 24 8 = ((s.pitch p).ckSeq + 1) % 2 ^ 64) ∧
         PitchIs p t { s.pitch p with time := { (s.pitch p).time with ckptSlot := none }, ckSeq := (t.pitch p).ckSeq
                                      counters := (t.pitch p).counters }) ∧
     (∀ (k : Fin 8) (parts : List Bytes), (s.pitch p).exportDue k.val = true →
       s.descFetch p (snapQueue k.val) (snapQueue k.val) (exportNeeds s p k.val) = .ready parts →
       (bitOf ((s.pitch p).snapDest p k.val) 2 = false → s.hostUp ((s.pitch p).ports.headD 0) = true → (∀ o ∈ (s.pitch p).mail.owed, o.why ≠ .snapNow k.val) →
         ∃ t, exec (.snapshotExportWrite p k) s = .next t ∧
           t = { s with pitches := t.pitches, hostOut := t.hostOut, hostPorts := t.hostPorts } ∧
           t.hostOut = s.hostOut ++ dmaWrites ((s.pitch p).ports.headD 0)
             (BitVec.ofNat 64 (bitsOf ((s.pitch p).snapDest p k.val) 383 320)) (exportBytes s p k.val parts) ∧
           k.val ∈ (t.pitch p).time.exportsDone ∧
           (t.pitch p).counter .snapExports = (s.pitch p).counter .snapExports + 1) ∧
       (bitOf ((s.pitch p).snapDest p k.val) 2 = true → bitsOf ((s.pitch p).snapDest p k.val) 47 32 < (s.pitch p).size →
         ∃ t, exec (.snapshotExportWrite p k) s = .next t ∧ OnlyPitch p s t ∧
           t.pitch p = { s.pitch p with tx := { (s.pitch p).tx with txq := (t.pitch p).tx.txq }, queues := (t.pitch p).queues
                                        counters := (t.pitch p).counters } ∧
           ∀ e ∈ (chunks 4096 (exportBytes s p k.val parts)).zipIdx, ∃ f ∈ (t.pitch p).tx.txq, f.use = .snapshot k.val ∧ f.window = some none ∧
             f.dst = bitsOf ((s.pitch p).snapDest p k.val) 47 32 ∧ f.payload = e.1 ∧
             f.offset = BitVec.ofNat 64 (bitsOf ((s.pitch p).snapDest p k.val) 383 320 + 4096 * e.2))))

/-! ## LOWRANK (08 R176 to R194) -/

/-- Stages 1 and 4 run their tiles on the arrays and end once the last has; stage 3 orthonormalises P, or stops the bucket where
a value is out of range; factor blocks are quantised one by one into the pack ring; stage 6 leaves the next Q valid and the bucket done. It rests
on choices of the model too: notes/assumptions 32. -/
def Obligations.LowrankStages : Prop :=
  ∀ (s : State) (p : PitchId) (bucket : Nat) (r : BucketRun) (l : LrRun), s.held = false → RunIs (s.pitch p) bucket r →
    r.lr = some l → (s.pitch p).works = true →
    ((∀ n, s.sliceWorks n = true) → LrBanks (s.pitch p) p r → l.stage = 1 → ∃ t, exec (.projectStage p bucket) s = .next t ∧ StageIs (t.pitch p) bucket 2 ∧
      (∀ q, q ≠ p → t.pitch q = s.pitch q) ∧ (r.nf = true → t.mem = s.mem ∧ t.erg = s.erg)) ∧
    ((∀ n, s.sliceWorks n = true) → LrBanks (s.pitch p) p r → l.stage = 4 → ∃ t, exec (.backProjectStage p bucket) s = .next t ∧ StageIs (t.pitch p) bucket 5 ∧
      (∀ q, q ≠ p → t.pitch q = s.pitch q)) ∧
    (l.stage = 3 → (orthoOf s p r).bad = false → ∃ t, exec (.orthonormaliseStage p bucket) s = .next t ∧
      StageIs (t.pitch p) bucket 4 ∧ t = { s with pitches := t.pitches, mem := t.mem } ∧ (∀ q, q ≠ p → t.pitch q = s.pitch q) ∧
      t.mem = (s.write (lrPBase (r.head (s.pitch p))) (wordBytes ((List.range (bLrM (r.head (s.pitch p)))).flatMap (fun i =>
        (orthoOf s p r).cols.map (fun c => c.getD i 0))))).mem ∧
      (t.pitch p).counter .lrDegenerate = (s.pitch p).counter .lrDegenerate + BitVec.ofNat 64 (orthoOf s p r).degen) ∧
    (l.stage = 3 → (orthoOf s p r).bad = true → ∃ t, exec (.orthonormaliseStage p bucket) s = .next t ∧
      StageIs (t.pitch p) bucket lrNonfinite ∧ Within p [] s t ∧ (t.pitch p).guard.nonfinite = true ∧
      (t.pitch p).counter .nonfiniteBuckets = (s.pitch p).counter .nonfiniteBuckets + 1) ∧
    (∀ f, r.nextFactor (s.pitch p) = some (l, f) → ∃ t, exec (.factorExchangeQuantise p bucket f) s = .next t ∧
      OnlyPitch p (match (s.pitch p).ringPlace p (r.slot (s.pitch p) kindContrib) with
        | some off => s.write ((s.pitch p).ringBase p + off) (factorStream s p r l f)
        | none => s) t ∧
      (∃ r' ∈ (t.pitch p).runs, r'.bucket = bucket ∧
        r'.lr = some { l with quantNext := max l.quantNext (f + 1), retry := l.retry.filter (· ≠ f) }) ∧
      t.pitch p = { s.pitch p with runs := (t.pitch p).runs, tx := (t.pitch p).tx, numFlags := (t.pitch p).numFlags
                                   counters := (t.pitch p).counters }) ∧
    ((∀ n, s.sliceWorks n = true) → LrBanks (s.pitch p) p r → l.stage = 6 → (s.pitch p).pairing = none → r.outDone.length ≤ r.blocks (s.pitch p) →
      ((s.pitch p).skipKnown = true ∨ (s.pitch p).lock.held = false) →
      ∃ t, exec (.reconstructStage p bucket) s = .next t ∧ StageIs (t.pitch p) bucket lrDone ∧ bucket ∈ (t.pitch p).qValid ∧
        (∀ q, q ≠ p → t.pitch q = s.pitch q) ∧ ((s.pitch p).skipKnown = true → t.hostOut = s.hostOut))

/-- One tile: a check that fails is counted by its kind and the replay gives the same bits in memory and registers; adds that an Erg bank
refused are counted and sent again; where the replay fails too the tile leaves nothing and its slice takes no work until it is repaired. A broken slice is mended by a spare row or column
of its array for one named PE, else by the spare slice, which takes its logical number; without a spare the slice is withdrawn.
It rests on choices of the model too: notes/assumptions 16. -/
def Obligations.TilesAndUnits : Prop :=
  (∀ (s : State) (p : PitchId) (bucket : Nat) (r : BucketRun) (l : LrRun) (tile : Tile), s.held = false →
     (s.pitch p).nextTile p bucket = some (r, l, tile) → s.sliceWorks l.tiles = true →
     (∃ t u v, exec (.arrayTile p bucket .pass) s = .next t ∧ exec (.arrayTile p bucket .checksum) s = .next u ∧
       exec (.arrayTile p bucket .residue) s = .next v ∧
       (∀ q, q ≠ p → t.pitch q = s.pitch q) ∧ t = { s with pitches := t.pitches, mem := t.mem, erg := t.erg } ∧
       (u.mem = t.mem ∧ u.erg = t.erg ∧ v.mem = t.mem ∧ v.erg = t.erg) ∧
       (u.pitch p = { t.pitch p with counters := (u.pitch p).counters } ∧ v.pitch p = { t.pitch p with counters := (v.pitch p).counters }) ∧
       ((u.pitch p).counter .arrayCheckFail = (t.pitch p).counter .arrayCheckFail + 1 ∧
         (u.pitch p).counter .tileReplays = (t.pitch p).counter .tileReplays + 1 ∧ u.health.checksums = s.health.checksums + 1) ∧
       ((v.pitch p).counter .residueFail = (t.pitch p).counter .residueFail + 1 ∧
         (v.pitch p).counter .tileReplays = (t.pitch p).counter .tileReplays + 1 ∧ v.health.residues = s.health.residues + 1) ∧
       ∀ n, ∃ w, exec (.arrayTile p bucket (.refused n)) s = .next w ∧ w.mem = t.mem ∧ w.erg = t.erg ∧
         w.pitch p = { t.pitch p with counters := (w.pitch p).counters } ∧
         (w.pitch p).counter .residueFail = (t.pitch p).counter .residueFail + BitVec.ofNat 64 n ∧
         w.health.residues = s.health.residues + n) ∧
     (∀ (c : Fin 8) (k : Nat) (first again : Bool), s.tileSlice l.tiles = some (c.val, k) →
       ∃ t, exec (.arrayTile p bucket (.replayFails first again)) s = .next t ∧ t.mem = s.mem ∧ t.erg = s.erg ∧
         t.pitch p = { s.pitch p with counters := (t.pitch p).counters } ∧ (∀ q, q ≠ p → t.pitch q = s.pitch q) ∧
         k ∈ t.clusters[c].broken ∧ (∀ d, d ≠ c → t.clusters[d] = s.clusters[d]) ∧ t.sliceWorks l.tiles = false ∧
         (t.pitch p).counter .tileReplays = (s.pitch p).counter .tileReplays + 1 ∧
         (t.pitch p).counter .residueFail = (s.pitch p).counter .residueFail + BitVec.ofNat 64 (bit first + bit again) ∧
         (t.pitch p).counter .arrayCheckFail = (s.pitch p).counter .arrayCheckFail + BitVec.ofNat 64 (bit (!first) + bit (!again)) ∧
         t.health.residues = s.health.residues + (bit first + bit again) ∧
         t.health.checksums = s.health.checksums + (bit (!first) + bit (!again)))) ∧
  (∀ (s : State) (p : PitchId) (bucket : Nat) (check : TileCheck), s.held = false →
     (∀ r l t, (s.pitch p).nextTile p bucket = some (r, l, t) → s.sliceWorks l.tiles = false) →
     exec (.arrayTile p bucket check) s = .next s) ∧
  (∀ (s : State) (c : Fin 8) (k : Fin 9), s.held = false → k.val ∈ s.clusters[c].broken → s.clusterServes c = true →
     (sget s.clusters[c].peRepairs k.val 0 < 4 →
       ∃ t, exec (.unitRepair c k true) s = .next t ∧ Repaired (if sget s.clusters[c].peRepairs k.val 0 < 2 then 2 else 3) s t ∧
         t.clusters[c] = { s.clusters[c] with
           peRepairs := sput s.clusters[c].peRepairs k.val (sget s.clusters[c].peRepairs k.val 0 + 1)
           broken := s.clusters[c].broken.filter (· ≠ k.val) } ∧
         ∀ d, d ≠ c → t.clusters[d] = s.clusters[d]) ∧
     (∀ sp, s.clusters[c].spare = some sp →
       ∃ t, exec (.unitRepair c k false) s = .next t ∧ Repaired 1 s t ∧
         t.clusters[c] = { s.clusters[c] with
           map := s.clusters[c].map.map (fun e => if e = some k.val then some sp else e), spare := none
           broken := s.clusters[c].broken.filter (· ≠ k.val), retired := addNew k.val s.clusters[c].retired } ∧
         ∀ d, d ≠ c → t.clusters[d] = s.clusters[d]) ∧
     (s.clusters[c].spare = none → 56 < s.activeSlices →
       ∃ t, exec (.unitRepair c k false) s = .next t ∧ Repaired 1 s t ∧
         t.clusters[c] = { s.clusters[c] with
           map := s.clusters[c].map.map (fun e => if e = some k.val then none else e)
           broken := s.clusters[c].broken.filter (· ≠ k.val), retired := addNew k.val s.clusters[c].retired } ∧
         ∀ d, d ≠ c → t.clusters[d] = s.clusters[d]))

/-! ## Transport (03 R67, R73; 11 R253, R258, R264 to R271, R274; 12 R284, R290) -/

/-- What every received frame goes through: a pitch that is FENCED or FAULTED ignores it; GROUP, DST and SRC, EPOCH, CRC-32C and
key are checked in this order and each failure counted; a DATA frame that is a duplicate, outside the window, not ready or
damaged is acknowledged, dropped or answered with NACK, and changes neither memory nor registers. It rests on choices of the
model too: notes/assumptions 22 and 23. -/
def Obligations.FramesScreened : Prop :=
  ∀ (c : Instr) (s : State) (rx : Rx) (k : FrameKind) (ok : Bytes → Bool) (p : PitchId) (f : Frame), s.held = false →
    rxOf s c = some (rx, k, ok) → s.parse rx = .frame p f →
    (f.kind ≠ k → exec c s = .next s) ∧
    (f.kind = k →
      ((s.pitch p).answering = false → exec c s = .next s) ∧
      ((s.pitch p).answering = true → (s.pitch p).headerOk f = false → exec c s = .next (s.count p .misdirected)) ∧
      ((s.pitch p).answering = true → (s.pitch p).headerOk f = true →
        ((s.pitch p).member.record.epoch.toNat < f.epoch → exec c s = .next (s.count p .epochAhead)) ∧
        (f.epoch < (s.pitch p).member.record.epoch.toNat → f.crcOk = false → exec c s = .next s) ∧
        (f.epoch = (s.pitch p).member.record.epoch.toNat → f.crcOk = false → exec c s = .next (s.count p .crcDrops)) ∧
        (f.epoch = (s.pitch p).member.record.epoch.toNat → f.crcOk = true → (s.pitch p).openBy f f.epoch (s.pitch p).keys.current = none →
          ((s.pitch p).openBy f f.epoch (s.pitch p).keys.pending).isSome = true → exec c s = .next (s.count p .keyAhead))) ∧
      (∀ d, Received s rx p f d → f.data = true → ok d = true →
        (Seen (s.pitch p) f.src f.seq → ∃ t, exec c s = .next t ∧ OnlyNet p s t ∧
          (t.pitch p).counter .dupDrops = (s.pitch p).counter .dupDrops + 1) ∧
        (¬ Seen (s.pitch p) f.src f.seq → ((s.pitch p).chan f.src).rcvNext + 4096 ≤ f.seq →
          exec c s = .next (s.count p .oowDrops)) ∧
        (¬ Seen (s.pitch p) f.src f.seq → f.seq < ((s.pitch p).chan f.src).rcvNext + 4096 → (s.pitch p).mode ≠ .running →
          k.isOperation = false → ∃ t, exec c s = .next t ∧ OnlyNet p s t ∧ NackLeaves p f rx.port nkNotReady s t ∧
            ¬ Seen (t.pitch p) f.src f.seq) ∧
        (¬ Seen (s.pitch p) f.src f.seq → f.seq < ((s.pitch p).chan f.src).rcvNext + 4096 → (s.pitch p).mode = .running →
          s.fragmentOk p f d = false → ∃ t, exec c s = .next t ∧ OnlyNet p s t ∧ NackLeaves p f rx.port nkDamaged s t ∧
            (t.pitch p).counter .streamDamaged = (s.pitch p).counter .streamDamaged + 1 ∧ ¬ Seen (t.pitch p) f.src f.seq)))

/-- A ready frame leaves in the run of owned slots that comes first, with the next SEQ, sealed under the current key, and stays
outstanding, its record in the first free part of the retransmit store; a lost frame leaves again identical from the CXT header on.
It rests on choices of the model too: notes/assumptions 24, 94 and 106. -/
def Obligations.FramesLeave : Prop :=
  ∀ (s : State) (p : PitchId) (n : NetPort) (sec : Secret) (t0 left ent : Nat) (waited : Bool) (credits : Sparse Int),
    (∀ f, Sends s p n f sec →
      s.beginAt (s.pitch p) n ((s.pitch p).chan f.dst) ((s.pitch p).frameSize p f.payload.length) = some (t0, left, waited) →
      pathPick ((s.pitch p).chan f.dst) (pathsOf n.val) = some (ent, credits) →
      ∃ t, exec (.frameTransmit p n) s = .next t ∧ (∀ q, q ≠ p → t.pitch q = s.pitch q) ∧
        t = { s with pitches := t.pitches, netOut := t.netOut, cclk := t.cclk } ∧ t.cclk = max s.cclk t0 ∧
        t.netOut = s.netOut ++ [⟨n, t0, dataOut s p n f ((s.pitch p).chan f.dst).nextSeq ent (f.lp + 16 * (ent % 16)) sec⟩] ∧
        (t.pitch p).tx.txq = [] ∧
        (t.pitch p).tx.out = (s.pitch p).tx.out ++ [OutFrame.mk f ((s.pitch p).chan f.dst).nextSeq t0 1 n (ent % 16)
          (f.lp + 16 * (ent % 16)) (((s.pitch p).storePlace p f).getD 0) false false 0] ∧
        ((t.pitch p).chan f.dst).nextSeq = ((s.pitch p).chan f.dst).nextSeq + 1 ∧ ((t.pitch p).chan f.dst).tokens = left) ∧
    (∀ o, s.held = false → (s.pitch p).mode = .running → s.portUp n = true → (s.pitch p).keys.current = some sec →
      s.nextResend p n = some (o, ent, credits) →
      s.beginAt (s.pitch p) n ((s.pitch p).chan o.frame.dst) ((s.pitch p).frameSize p o.frame.payload.length) =
        some (t0, left, waited) →
      ∃ t, exec (.frameTransmit p n) s = .next t ∧ (∀ q, q ≠ p → t.pitch q = s.pitch q) ∧
        t = { s with pitches := t.pitches, netOut := t.netOut, cclk := t.cclk } ∧ t.cclk = max s.cclk t0 ∧
        t.netOut = s.netOut ++ [⟨n, t0, dataOut s p n o.frame o.seq ent o.pathId sec⟩] ∧
        (t.pitch p).tx.txq = (s.pitch p).tx.txq ∧
        (∃ again ∈ (t.pitch p).tx.out, again.frame = o.frame ∧ again.seq = o.seq ∧ again.lost = false ∧
          again.txCount = o.txCount + 1) ∧
        (t.pitch p).counter .streamResent = (s.pitch p).counter .streamResent + (if o.damaged then 1 else 0))

/-- An ACK retires every frame to its sender that it shows as accepted, keeps the others, and touches no frame to another rank;
a NACK with DAMAGED has the frame sent again, with TARGET or OPCODE it faults the pitch, with NOT_READY it does nothing; an RTO
that expires declares its frame lost, which counts its resend; the ACK timer sends the ACK that is owed. It rests on choices of the model too:
notes/assumptions 26. -/
def Obligations.FramesRetire : Prop :=
  ∀ (s : State) (p : PitchId),
    (∀ rx f d, Received s rx p f d → f.kind = .ack → ∃ t, exec (.ack rx) s = .next t ∧
      (∀ q, q ≠ p → t.pitch q = s.pitch q) ∧
      (∀ o ∈ (t.pitch p).tx.out, o.frame.dst = f.src → (ackInfo d).covers o.seq = false) ∧
      (∀ o ∈ (s.pitch p).tx.out, o.frame.dst ≠ f.src → o ∈ (t.pitch p).tx.out) ∧
      ∀ o ∈ (s.pitch p).tx.out, (ackInfo d).covers o.seq = false →
        ∃ o' ∈ (t.pitch p).tx.out, o'.frame = o.frame ∧ o'.seq = o.seq) ∧
    (∀ rx f d, Received s rx p f d → f.kind = .nack →
      ((∀ o ∈ (s.pitch p).tx.out, ¬ (o.frame.dst = f.src ∧ o.seq = leAt d 0 6)) →
        exec (.nack rx) s = .next (s.count p .nackReceived)) ∧
      (∀ o, (s.pitch p).tx.out.find? (fun o => o.frame.dst = f.src && o.seq = leAt d 0 6) = some o →
        (leAt d 6 1 = nkNotReady → exec (.nack rx) s = .next (s.count p .nackReceived)) ∧
        (leAt d 6 1 = nkDamaged → o.damages < 3 → ∃ t, exec (.nack rx) s = .next t ∧ OnlyPitch p s t ∧
          (∃ o' ∈ (t.pitch p).tx.out, o' = { o with lost := true, damaged := true, damages := o.damages + 1 }) ∧
          t.pitch p = { s.pitch p with tx := { (s.pitch p).tx with out := (t.pitch p).tx.out }, counters := (t.pitch p).counters } ∧
          (t.pitch p).counter .nackReceived = (s.pitch p).counter .nackReceived + 1) ∧
        ((leAt d 6 1 = nkTarget ∨ leAt d 6 1 = nkOpcode) → (s.pitch p).mode = .running →
          (∀ id, o.frame.use ≠ .oneSided id) → (∀ k, o.frame.use ≠ .snapshot k) →
          ∃ t, exec (.nack rx) s = .next t ∧ (t.pitch p).mode = .faulted ∧ ∀ q, q ≠ p → t.pitch q = s.pitch q))) ∧
    (s.held = false → ∀ (r : W16) (seq : Nat) (o : OutFrame), (s.pitch p).mode = .running →
      (s.pitch p).tx.out.find? (fun o => o.frame.dst = r.toNat && o.seq = seq && !o.lost) = some o →
      ∃ t, exec (.rtoExpiry p r seq) s = .next t ∧ t = { s with pitches := t.pitches, cclk := t.cclk } ∧
        (∀ q, q ≠ p → t.pitch q = s.pitch q) ∧ t.cclk = max s.cclk (o.sent + o.rto ((s.pitch p).chan r.toNat)) ∧
        { o with lost := true } ∈ (t.pitch p).tx.out ∧
        (t.pitch p).counter .rtoExpired = (s.pitch p).counter .rtoExpired + 1 ∧
        (t.pitch p).counter .retransmits = (s.pitch p).counter .retransmits + 1 ∧
        ((t.pitch p).chan r.toNat).lossInInterval = true) ∧
    (s.held = false → ∀ (r : W16) (since q arrived : Nat) (port : NetPort) (sec : Secret),
      (s.pitch p).mode ∉ [.unbound, .fenced, .faulted] → ((s.pitch p).chan r.toNat).ackTimer = some since →
      ((s.pitch p).chan r.toNat).lastTrig = some (q, port, arrived) → (s.pitch p).keys.current = some sec →
      ∃ t, exec (.ackTimer p r) s = .next t ∧ t = { s with pitches := t.pitches, netOut := t.netOut, cclk := t.cclk } ∧
        t.cclk = max s.cclk (since + 3000) ∧ (∀ q, q ≠ p → t.pitch q = s.pitch q) ∧
        ControlLeaves p port r.toNat opAck (ackPayload ((s.pitch p).chan r.toNat) 2) { s with cclk := t.cclk } t ∧
        ((t.pitch p).chan r.toNat).ackTimer = none ∧ ((t.pitch p).chan r.toNat).unacked = 0)

/-! ## Collective frames (06 R141, R144; 10 R222 to R248; 16 R346, R347; 08 R180) -/

/-- A contribution is added to the block's sums at the owner, word by word, and counted; a complete block whose sum may have
overflowed is cleared and asked for again at the next attempt; a RETRY is noted by the member. -/
def Obligations.ContributionsAdd : Prop :=
  ∀ (s : State) (rx : Rx) (p : PitchId) (f : Frame) (d : Bytes), Fresh s rx p f d →
    (f.kind = .contrib → ∀ st, s.contribStreams p f.bucket d = some [st] → ContribPlace s p f.bucket st → (s.pitch p).size ≤ 65536 →
      ((s.crec p f.bucket st.index).count + 1 < (s.pitch p).size →
        ∃ t, exec (.contribStream rx) s = .next t ∧ Accepted p f s t ∧ ContribFrame p f.bucket st s t ∧ t.erg = s.erg ∧
          t.crec p f.bucket st.index = ⟨(s.crec p f.bucket st.index).count + 1,
            max (s.crec p f.bucket st.index).qmax st.qmax % 2 ^ 32, (s.crec p f.bucket st.index).attempt,
            (if (s.crec p f.bucket st.index).count = 0 then st.scale else (s.crec p f.bucket st.index).scale) % 256⟩ ∧
          ∀ i, i < st.block → (t.sums p f.bucket st.index).getD i 0 =
            ofTwos (8 * sumBytes st.fmt) (toTwos (8 * sumBytes st.fmt)
              ((s.sums p f.bucket st.index).getD i 0 + (streamUnits st).getD i 0))) ∧
      (∀ (r : BucketRun) (codes : List Nat) (nf : Bool), (s.crec p f.bucket st.index).count + 1 = (s.pitch p).size →
        (s.pitch p).runOf f.bucket = some r → r.lr = none → r.isLow (s.pitch p) = false → r.agreedOf f.bucket = some (codes, nf) →
        (if (s.crec p f.bucket st.index).count = 0 then st.scale else (s.crec p f.bucket st.index).scale) % 256 =
          codes.getD st.index 0 + (s.crec p f.bucket st.index).attempt →
        codes.getD st.index 0 + (s.crec p f.bucket st.index).attempt + 1 ≤ 254 →
        sumMax st.fmt < (s.pitch p).size * (max (s.crec p f.bucket st.index).qmax st.qmax % 2 ^ 32) →
        ∃ t, exec (.contribStream rx) s = .next t ∧ Accepted p f s t ∧ ContribFrame p f.bucket st s t ∧ t.erg = s.erg ∧
          (t.pitch p).counter .fxRetry = (s.pitch p).counter .fxRetry + 1 ∧
          t.crec p f.bucket st.index = ⟨0, 0, (s.crec p f.bucket st.index).attempt + 1, 0⟩ ∧
          (∀ i, i < st.block → (t.sums p f.bucket st.index).getD i 0 = 0) ∧
          Queued p (((s.pitch p).others).map (fun m => messageFrame m opWrite f.bucket tgRetry
            (retryPayload st.index ((s.crec p f.bucket st.index).attempt + 1) (s.pitch p).stepLo))) t)) ∧
    (f.kind = .retry →
      (∀ r, leAt d 5 2 = (s.pitch p).stepLo.toNat → (s.pitch p).runOf f.bucket = some r → r.lr = none →
        ∃ t r', exec (.retry rx) s = .next t ∧ AcceptedQuietly p f s t ∧ r' ∈ (t.pitch p).runs ∧
          (t.pitch p).counter .memberRetries = (s.pitch p).counter .memberRetries + 1 ∧
          r' = { r with attempts := sput r.attempts (r.offset (s.pitch p) f.bucket + leAt d 0 4) (leAt d 4 1)
                        retry := addNew (r.offset (s.pitch p) f.bucket + leAt d 0 4) r.retry }) ∧
      ((s.pitch p).stepUsable (leAt d 5 2) = false → leAt d 5 2 ≠ (s.pitch p).stepLo.toNat →
        ∃ t, exec (.retry rx) s = .next t ∧ AcceptedQuietly p f s t ∧
          (t.pitch p).counter .collStale = (s.pitch p).counter .collStale + 1))

/-- A broadcast block is placed over v as its stream says, in staging or in the spill region where v lies there, and a LOWRANK factor
block's sums reach the work region rounded to FP32. It rests on choices of the model too: notes/assumptions 31 and 32. -/
def Obligations.BroadcastsArePlaced : Prop :=
  ∀ (s : State) (rx : Rx) (p : PitchId) (f : Frame) (d : Bytes), Fresh s rx p f d →
    (f.kind = .bcast → ∀ (st : Stream) (r : BucketRun) (a : Nat) (bs : Bytes), (s.pitch p).bcastStreams f.bucket d = some [st] →
      (s.pitch p).runOf f.bucket = some r → (s.pitch p).runs.find? (fun q => q.bucket = r.bucket) = some r →
      a = (s.pitch p).spillAddr p ((r.offset (s.pitch p) f.bucket + st.index) * bBlock (r.head (s.pitch p))) →
      bs = placedBytes (bBcast (r.head (s.pitch p))) (bBlock (r.head (s.pitch p)))
        (r.part (s.pitch p) (r.offset (s.pitch p) f.bucket + st.index)).2 ⟨st.scale, if st.scale = 0xFF then [] else fullCodes st⟩ →
      ∃ t r', exec (.bcastStream rx) s = .next t ∧ Accepted p f s t ∧ t.erg = s.erg ∧ r' ∈ (t.pitch p).runs ∧
        r' = { r with placed := r.placed ++ [(r.offset (s.pitch p) f.bucket + st.index,
          ⟨st.scale, if st.scale = 0xFF then [] else fullCodes st⟩)] } ∧
        (st.scale = 0xFF → (t.pitch p).guard.nonfinite = true) ∧
        Within p (if r.home then [(a, bs.length)] else []) { s with netOut := t.netOut } t ∧
        (r.home = true → hbmBase ≤ a → t.read a bs.length = bs)) ∧
    (f.kind = .factorSum → ∀ (r : BucketRun) (l : LrRun) (sums : List Int) (base : Nat) (keep : List W32),
      RunIs (s.pitch p) f.bucket r → r.lr = some l → (l.stage = 2 ∨ l.stage = 5) → leAt d 0 4 ∉ l.arrived → leAt d 4 1 ≠ 0xFF →
      sums = (chunks 4 (d.drop 8)).map (fun c => ofTwos 32 (leNat c)) →
      base = (if l.stage = 2 then lrPBase (r.head (s.pitch p)) else lrQeBase (r.head (s.pitch p))) →
      keep = (sums.take (min (bBlock (r.head (s.pitch p)))
          (r.factorWords (s.pitch p) - leAt d 0 4 * bBlock (r.head (s.pitch p))))).map (fun q =>
        (to32 (.fin (q < 0) q.natAbs ((leAt d 4 1 : Int) - 127 + gridOff (bWire (r.head (s.pitch p)))))).1) →
      (l.arrived.length + 1 < r.factorBlocks (s.pitch p) →
        ∃ t r' l', exec (.factorSum rx) s = .next t ∧ Accepted p f s t ∧ r' ∈ (t.pitch p).runs ∧ r'.bucket = f.bucket ∧
          r'.lr = some l' ∧ l'.arrived = l.arrived ++ [leAt d 0 4] ∧ l'.stage = l.stage ∧
          t = { s with pitches := t.pitches, mem := t.mem, netOut := t.netOut } ∧
          t.mem = (s.write (base + 4 * leAt d 0 4 * bBlock (r.head (s.pitch p))) (wordBytes keep)).mem) ∧
      (l.arrived.length + 1 = r.factorBlocks (s.pitch p) → l.bad = false → (∀ w ∈ keep, finite32 w = true) →
        ∃ t, exec (.factorSum rx) s = .next t ∧ Accepted p f s t ∧ StageIs (t.pitch p) f.bucket (l.stage + 1)))

/-- Agreement records and count vectors travel up the tree once the own one and every child's are there, and come down unchanged
or with each child's share; a record of a step that is over is dropped, and each of its frames that has come is counted. It rests on choices of the model too:
notes/assumptions 34 and 107. -/
def Obligations.TreeRecords : Prop :=
  ∀ (s : State) (rx : Rx) (p : PitchId) (f : Frame) (d : Bytes), Fresh s rx p f d → f.offset = 0 → d.length ≤ 4096 →
    (f.kind = .agreeUp → d.length = agreeLen (leAt d 8 4) (leAt d 12 2) → (s.pitch p).stepUsable (leAt d 4 2) = true →
      ∃ t, exec (.agreeUp rx) s = .next t ∧ Accepted p f s t ∧
        ((agreeWith (s.pitch p) f.bucket f.src d).own = none →
          (t.pitch p).agree f.bucket (agreeOf d).round (BitVec.ofNat 16 (agreeOf d).stepLo) =
            agreeWith (s.pitch p) f.bucket f.src d) ∧
        (∀ own, (agreeWith (s.pitch p) f.bucket f.src d).own = some own → (agreeWith (s.pitch p) f.bucket f.src d).agreed = none →
          (agreeWith (s.pitch p) f.bucket f.src d).sent = false →
          (∀ c ∈ (s.pitch p).children, ∃ k ∈ (agreeWith (s.pitch p) f.bucket f.src d).kids, k.1 = c) →
          ((s.pitch p).rank ≠ 0 → Queued p (recordFrames (treeParent (s.pitch p).rank) f.bucket tgAgreeUp
            (combinedRecord (agreeWith (s.pitch p) f.bucket f.src d) own)) t) ∧
          ((s.pitch p).rank = 0 → ∀ c ∈ (s.pitch p).children, Queued p (recordFrames c f.bucket tgAgreeDown
            (combinedRecord (agreeWith (s.pitch p) f.bucket f.src d) own)) t))) ∧
    (f.kind = .agreeDown → d.length = agreeLen (leAt d 8 4) (leAt d 12 2) → (s.pitch p).stepUsable (leAt d 4 2) = true →
      ∃ t, exec (.agreeDown rx) s = .next t ∧ Accepted p f s t ∧
        ((t.pitch p).agree f.bucket (agreeOf d).round (BitVec.ofNat 16 (agreeOf d).stepLo)).agreed = some d ∧
        (∀ c ∈ (s.pitch p).children, Queued p (recordFrames c f.bucket tgAgreeDown d) t) ∧
        (∀ r, (agreeOf d).round = 0 → BitVec.ofNat 16 (agreeOf d).stepLo = (s.pitch p).stepLo →
          ((s.pitch p).agree f.bucket 0 (s.pitch p).stepLo).own.isSome = true → (s.pitch p).runOf f.bucket = some r →
          r.agreedOf f.bucket = none →
          ∃ r' ∈ (t.pitch p).runs, r'.bucket = r.bucket ∧ r'.agreed = r.agreed ++ [(f.bucket, (agreeOf d).codes, (agreeOf d).nf)])) ∧
    ((f.kind = .agreeUp ∨ f.kind = .agreeDown) → (s.pitch p).stepUsable (leAt d 4 2) = false →
      ∃ t, exec (if f.kind = .agreeUp then .agreeUp rx else .agreeDown rx) s = .next t ∧ AcceptedQuietly p f s t ∧
        (t.pitch p).counter .collStale = (s.pitch p).counter .collStale + BitVec.ofNat 64 (1 +
          (((s.pitch p).assembly f.src f.bucket (decide (f.kind = .agreeDown))).frags.filter (fun e => e.1 ≠ 0)).length)) ∧
    (f.kind = .scanUp → d.length = 16 + leAt d 4 4 → (s.pitch p).stepUsable (leAt d 2 2) = true →
      ∃ t, exec (.scanUp rx) s = .next t ∧ Accepted p f s t ∧
        ((exchangeOf (s.pitch p) d).own = none →
          exchangeOf (t.pitch p) d = { exchangeOf (s.pitch p) d with kids := kidsWith (exchangeOf (s.pitch p) d) f.src d }) ∧
        (∀ own, (exchangeOf (s.pitch p) d).own = some own → (exchangeOf (s.pitch p) d).sentUp = false →
          (∀ c ∈ (s.pitch p).children, ∃ k ∈ kidsWith (exchangeOf (s.pitch p) d) f.src d, k.1 = c) →
          ((s.pitch p).rank ≠ 0 → Queued p (recordFrames (treeParent (s.pitch p).rank) (exchangeOf (s.pitch p) d).exch.toNat tgScanUp
            (countRecord (exchangeOf (s.pitch p) d).exch (exchangeOf (s.pitch p) d).stepLo
              ((kidsWith (exchangeOf (s.pitch p) d) f.src d).foldl (fun a k => addVec a k.2) own))) t) ∧
          ((s.pitch p).rank = 0 → (exchangeOf (t.pitch p) d).totals =
            some ((kidsWith (exchangeOf (s.pitch p) d) f.src d).foldl (fun a k => addVec a k.2) own)))) ∧
    (f.kind = .scanDown → d.length = 16 + leAt d 4 4 → (s.pitch p).stepUsable (leAt d 2 2) = true → ∀ own,
      (exchangeOf (s.pitch p) d).own = some own → (exchangeOf (s.pitch p) d).totals = none →
      ∃ t, exec (.scanDown rx) s = .next t ∧ Accepted p f s t ∧
        (exchangeOf (t.pitch p) d).below = some ((countVec d).take ((countVec d).length / 2)) ∧
        (exchangeOf (t.pitch p) d).totals = some ((countVec d).drop ((countVec d).length / 2)) ∧
        ∀ c ∈ (s.pitch p).children, Queued p (recordFrames c (exchangeOf (s.pitch p) d).exch.toNat tgScanDown
          (countRecord (exchangeOf (s.pitch p) d).exch (exchangeOf (s.pitch p) d).stepLo
            (childBelow (exchangeOf (s.pitch p) d) ((countVec d).take ((countVec d).length / 2)) own (s.pitch p).children c ++
              (countVec d).drop ((countVec d).length / 2)))) t)

/-- Rank 0 adds each NORM_UP into NORM_GLOBAL and with the N-th sends the exact sum down; a NORM_DOWN is forwarded and handed to
the Guard, that of the next step held; barrier arrivals go up the tree once complete, and RELEASE_TIME comes down unchanged. It
rests on choices of the model too: notes/assumptions 78. -/
def Obligations.NormsAndBarriers : Prop :=
  ∀ (s : State) (rx : Rx) (p : PitchId) (f : Frame) (d : Bytes), Fresh s rx p f d →
    (f.kind = .normUp → (s.pitch p).rank = 0 → ∀ (g : Nat) (sum : W640), g = (s.pitch p).erg p ((s.pitch p).normGlobal p) →
      sum = ergAdd (s.ergGet g) (ergOfBytes (d.take 80)) →
      ((s.pitch p).guard.normArrivals + 1 ≠ (s.pitch p).size →
        ∃ t, exec (.normUp rx) s = .next t ∧ Accepted p f s t ∧ t.mem = s.mem ∧
          (t.pitch p).guard = { (s.pitch p).guard with normArrivals := (s.pitch p).guard.normArrivals + 1 } ∧
          ∀ k, t.ergGet k = if k = g then sum else s.ergGet k) ∧
      ((s.pitch p).guard.normArrivals + 1 = (s.pitch p).size →
        ∃ t, exec (.normUp rx) s = .next t ∧ Accepted p f s t ∧ (t.pitch p).guard.normArrivals = 0 ∧
          (t.pitch p).guard.norm = some sum ∧ (∀ k, t.ergGet k = if k = g then 0 else s.ergGet k) ∧
          Queued p ((s.pitch p).children.map (fun c => messageFrame c opWrite 0 tgNormDown
            (normDownPayload (s.pitch p).stepLo sum))) t)) ∧
    (f.kind = .normDown →
      ((s.pitch p).stepUsable (leAt d 0 2) = true →
        ∃ t, exec (.normDown rx) s = .next t ∧ Accepted p f s t ∧ t.erg = s.erg ∧
          Queued p ((s.pitch p).children.map (fun c => messageFrame c opWrite 0 tgNormDown
            (normDownPayload (BitVec.ofNat 16 (leAt d 0 2)) (ergOfBytes (cut d 8 80))))) t ∧
          (leAt d 0 2 = (s.pitch p).stepLo.toNat → (t.pitch p).guard.norm = some (ergOfBytes (cut d 8 80)) ∧
            (t.pitch p).guard.cf = clipFactor (ergOfBytes (cut d 8 80)) (BitVec.ofNat 32 ((s.pitch p).cfg p 0x109))
              (s.pitch p).normDivisor) ∧
          (leAt d 0 2 ≠ (s.pitch p).stepLo.toNat → (t.pitch p).guard =
            { (s.pitch p).guard with normAhead := some (ergOfBytes (cut d 8 80)) })) ∧
      ((s.pitch p).stepUsable (leAt d 0 2) = false →
        ∃ t, exec (.normDown rx) s = .next t ∧ AcceptedQuietly p f s t ∧
          (t.pitch p).counter .collStale = (s.pitch p).counter .collStale + 1)) ∧
    (f.kind = .barrier → leAt d 4 1 = 0 → ∀ (lo : W16) (ord : Nat) (b : GroupBarrier), lo = BitVec.ofNat 16 (leAt d 0 2) →
      ord = leAt d 2 2 → b = (s.pitch p).gbar lo ord → f.src ∈ (s.pitch p).children →
      (s.pitch p).barrierOpen (leAt d 0 2) ord = true →
      ∃ t, exec (.barrierArrival rx) s = .next t ∧ AcceptedQuietly p f s t ∧ f.src ∈ ((t.pitch p).gbar lo ord).kids ∧
        (b.fired = true → b.sentUp = false → (∀ c ∈ (s.pitch p).children, c ∈ b.kids ∨ c = f.src) →
          ((t.pitch p).gbar lo ord).sentUp = true ∧
          ((s.pitch p).rank ≠ 0 → Queued p [barrierFrame (treeParent (s.pitch p).rank) lo ord 0 0] t) ∧
          ((s.pitch p).rank = 0 → 1 < (s.pitch p).size →
            ((t.pitch p).gbar lo ord).release = some (s.ptpNs + (s.pitch p).cfg p 0x11, s.cclk + 1) ∧
            Queued p ((s.pitch p).children.map (fun c => barrierFrame c lo ord 1 (s.ptpNs + (s.pitch p).cfg p 0x11))) t))) ∧
    (f.kind = .barrier → leAt d 4 1 = 0 → f.src ∉ (s.pitch p).children →
      ∃ t, exec (.barrierArrival rx) s = .next t ∧ AcceptedQuietly p f s t ∧
        (t.pitch p).counter .collStale = (s.pitch p).counter .collStale + 1) ∧
    (f.kind = .barrier → leAt d 4 1 = 1 → ∀ (b : GroupBarrier), b = (s.pitch p).gbar (s.pitch p).stepLo (leAt d 2 2) →
      (s.pitch p).rank ≠ 0 → f.src = treeParent (s.pitch p).rank → leAt d 0 2 = (s.pitch p).stepLo.toNat → b.fired = true →
      b.sentUp = true → b.release = none →
      ∃ t, exec (.barrierRelease rx) s = .next t ∧ AcceptedQuietly p f s t ∧
        ((t.pitch p).gbar (s.pitch p).stepLo (leAt d 2 2)).release = some (leAt d 8 8, s.cclk + 1) ∧
        Queued p ((s.pitch p).children.map (fun c => barrierFrame c (s.pitch p).stepLo (leAt d 2 2) 1 (leAt d 8 8))) t ∧
        (t.pitch p).counter .barLate =
          (s.pitch p).counter .barLate + (if ((leAt d 8 8 : Nat) : Int) * 65536 ≤ s.ptpNow then 1 else 0))

/-! ## Expert tokens and one-sided frames (10 R241, R243, R245; 11 R260 to R263; 16 R351 to R353) -/

/-- A token fragment is converted into its slot at the host, and a whole slot gets its map entry; a result fragment is written
at its entry's place, and the last of the kept entries brings the second completion; without a dispatch either is dropped and
counted. A response is placed at LOCAL + off, and the last one completes its operation; a partner's record waits for the own one
of its window, releases it when they are equal, and reports a mismatch when they differ. It rests on choices of the model too:
notes/assumptions 28, 33 and 36. -/
def Obligations.TokensResultsAndRecords : Prop :=
  (∀ (s : State) (rx : Rx) (p : PitchId) (f : Frame) (d : Bytes), Fresh s rx p f d →
     (f.kind = .moeToken →
       ((s.pitch p).dispatched (BitVec.ofNat 16 f.bucket) = none →
         ∃ t, exec (.moeToken rx) s = .next t ∧ AcceptedQuietly p f s t ∧
           (t.pitch p).counter .collStale = (s.pitch p).counter .collStale + 1) ∧
       (∀ e, (s.pitch p).dispatched (BitVec.ofNat 16 f.bucket) = some e → s.hostUp (s.fetchPort p e.wq) = true →
         (¬ SlotWhole e f.offset d → ∃ t, exec (.moeToken rx) s = .next t ∧ Accepted p f s t ∧ t.mem = s.mem ∧ t.erg = s.erg ∧
           t.hostOut = s.hostOut ++ dmaWrites (s.fetchPort p e.wq) (tokenAt e f.offset d)
             (codeElems e.hostFmt (leAt d 5 1) (d.drop 16)).1 ∧
           (t.pitch p).dispatched (BitVec.ofNat 16 f.bucket) = some { e with
             slotFrags := e.slotFrags ++ [(leAt d 4 1, leAt d 0 4, f.offset, (d.drop 16).length)] }) ∧
         (SlotWhole e f.offset d → ∃ t e', exec (.moeToken rx) s = .next t ∧ Accepted p f s t ∧ t.mem = s.mem ∧ t.erg = s.erg ∧
           t.hostOut = s.hostOut ++ dmaWrites (s.fetchPort p e.wq) (tokenAt e f.offset d)
               (codeElems e.hostFmt (leAt d 5 1) (d.drop 16)).1 ++
             dmaWrites (s.fetchPort p e.wq) (BitVec.ofNat 64 (e.recvAddr.toNat +
                 localCount (s.expertTable p) (s.pitch p).rank * e.stride * e.tokenBytes +
                 roundUp (4 * localCount (s.expertTable p) (s.pitch p).rank) 8 + 8 * (leAt d 4 1 * e.stride + leAt d 0 4)))
               (leBytes 2 f.src ++ leBytes 1 (leAt d 6 1) ++ [0] ++ leBytes 4 (leAt d 8 4)) ∧
           (t.pitch p).dispatched (BitVec.ofNat 16 f.bucket) = some e' ∧
           e'.slots = e.slots ++ [(leAt d 4 1, leAt d 0 4, f.src, leAt d 6 1, leAt d 8 4)]))) ∧
     (f.kind = .moeReturn →
       ((s.pitch p).dispatched (BitVec.ofNat 16 f.bucket) = none →
         ∃ t, exec (.moeReturn rx) s = .next t ∧ AcceptedQuietly p f s t ∧
           (t.pitch p).counter .collStale = (s.pitch p).counter .collStale + 1) ∧
       (∀ e, (s.pitch p).dispatched (BitVec.ofNat 16 f.bucket) = some e → s.hostUp (s.fetchPort p e.wq) = true →
         ∃ t, exec (.moeReturn rx) s = .next t ∧ Accepted p f s t ∧ t.erg = s.erg ∧
           s.hostOut ++ dmaWrites (s.fetchPort p e.wq)
             (BitVec.ofNat 64 (e.retAddr.toNat + (leAt d 0 4 * e.k + leAt d 4 1) * e.tokenBytes + f.offset * elemBytes e.hostFmt))
             (codeElems e.hostFmt (leAt d 5 1) (d.drop 8)).1 <+: t.hostOut ∧
           (¬ ResultWhole e f.offset d → t.mem = s.mem ∧ (t.pitch p).dispatched (BitVec.ofNat 16 f.bucket) = some { e with
             retFrags := e.retFrags ++ [(leAt d 0 4, leAt d 4 1, f.offset, (d.drop 8).length)] }) ∧
           (ResultWhole e f.offset d → (leAt d 0 4, leAt d 4 1) ∉ e.returned →
             (∃ e', (t.pitch p).dispatched (BitVec.ofNat 16 f.bucket) = some e' ∧
               e'.returned = e.returned ++ [(leAt d 0 4, leAt d 4 1)]) ∧
             (e.returned.length + 1 ≠ e.kept → t.mem = s.mem) ∧
             (e.returned.length + 1 = e.kept → CplRoom (s.pitch p) e.wq →
               CplWritten p 2 stMoeReturned e.wq e.wqHead 0 e.cookie s t))))) ∧
  (∀ (s : State) (rx : Rx) (p : PitchId) (f : Frame) (d : Bytes), Fresh s rx p f d →
     (f.kind = .readResp →
       ((∀ j ∈ (s.pitch p).osJobs, ¬ (j.dst = f.src ∧ leAt d 0 6 ∈ j.reqs)) →
         ∃ t, exec (.readResp rx) s = .next t ∧ AcceptedQuietly p f s t) ∧
       (∀ j, (s.pitch p).osJobs = [j] → j.dst = f.src → leAt d 0 6 ∈ j.reqs → s.hostUp (s.fetchPort p j.wq) = true →
         ∃ t, exec (.readResp rx) s = .next t ∧ Accepted p f s t ∧ t.erg = s.erg ∧
           s.hostOut ++ dmaWrites (s.fetchPort p j.wq) (BitVec.ofNat 64 (j.localAddr.toNat + f.offset)) (d.drop 8) <+: t.hostOut ∧
           (1 < j.left → t.mem = s.mem ∧ (t.pitch p).osJobs = [{ j with reqs := j.reqs.erase (leAt d 0 6), left := j.left - 1 }]) ∧
           (j.left ≤ 1 → (t.pitch p).osJobs = [] ∧
             (CplRoom (s.pitch p) j.wq → CplWritten p 4 stOk j.wq j.wqHead 0 j.cookie s t)))) ∧
     (f.kind = .osWrite → ∀ (q : Pairing) (a w : Nat), (s.pitch p).pairing = some q →
       (s.pitch p).isLsRecord f.src f.offset d = true → (s.pitch p).osAllowed p opWrite f.offset d = true → f.opcode = opWrite →
       a = (s.pitch p).osBase p + f.offset → w = leAt d 8 4 → leAt d 0 8 = (s.pitch p).time.step.toNat →
       (s.pitch p).lock.partner = [] → (s.pitch p).lock.mismatched = false → (s.pitch p).lock.compared = w →
       ((s.pitch p).lock.own = [] →
         ∃ t, exec (.lockstepRecord rx) s = .next t ∧ Accepted p f s t ∧ t.hostOut = s.hostOut ∧
           t.read a d.length = d ∧ SameOutside s t a d.length ∧
           (t.pitch p).lock = { (s.pitch p).lock with base := some (f.offset - 2048 * (w % 4)), partner := [(w, d)] }) ∧
       (∀ own, (s.pitch p).lock.own = [(w, own)] → (s.pitch p).lock.sent = w + 1 → cut own 12 3 = cut d 12 3 →
         own.drop 16 = d.drop 16 →
         ∃ t, exec (.lockstepRecord rx) s = .next t ∧ Accepted p f s t ∧ (t.pitch p).lock.compared = w + 1 ∧
           (t.pitch p).lock.partner = [] ∧ (t.pitch p).lock.own = [] ∧
           (t.pitch p).counter .lsWindows = (s.pitch p).counter .lsWindows + 1) ∧
       (∀ own, (s.pitch p).lock.own = [(w, own)] → (s.pitch p).lock.sent = w + 1 → q.hold = false →
         ¬ (cut own 12 3 = cut d 12 3 ∧ own.drop 16 = d.drop 16) →
         ∃ t, exec (.lockstepRecord rx) s = .next t ∧ Accepted p f s t ∧ (t.pitch p).lock.held = true ∧
           (t.pitch p).lock.mismatched = true ∧ (t.pitch p).counter .lsMismatches = (s.pitch p).counter .lsMismatches + 1)))

/-- Each one-sided operation within the target's region has its effect there and nowhere else: WRITE places its bytes, the adds
are modulo the word, ADD_ERG640 adds into its registers, READ answers with the bytes at an offset within its descriptor and CAS64 with
the old word at offset 0; one outside it
is refused with RANGE and leaves no effect. It rests on choices of the model too: notes/assumptions 36. -/
def Obligations.OneSidedFrames : Prop :=
  ∀ (s : State) (rx : Rx) (p : PitchId) (f : Frame) (d : Bytes) (c : Instr) (op a : Nat), Fresh s rx p f d →
    osRow rx f.kind = some (c, op) → (s.pitch p).pairing = none → a = (s.pitch p).osBase p + f.offset → f.opcode = op →
    ((s.pitch p).osAllowed p op f.offset d = false → ∃ t, exec c s = .next t ∧ AcceptedQuietly p f s t ∧
      (t.pitch p).counter .onesidedRefused = (s.pitch p).counter .onesidedRefused + 1 ∧
      (t.pitch p).counter .nackSent = (s.pitch p).counter .nackSent + 1) ∧
    ((s.pitch p).osAllowed p op f.offset d = true → ∃ t, exec c s = .next t ∧ Accepted p f s t ∧ t.hostOut = s.hostOut ∧
      (op = opWrite → t.read a d.length = d ∧ SameOutside s t a d.length ∧ t.erg = s.erg) ∧
      (op = opAdd32 → d.length % 4 = 0 → SameOutside s t a d.length ∧ t.erg = s.erg ∧ ∀ i, 4 * i < d.length →
        t.readLe (a + 4 * i) 4 = (s.readLe (a + 4 * i) 4 + leAt d (4 * i) 4) % 2 ^ 32) ∧
      (op = opAdd64 → d.length % 8 = 0 → SameOutside s t a d.length ∧ t.erg = s.erg ∧ ∀ i, 8 * i < d.length →
        t.readLe (a + 8 * i) 8 = (s.readLe (a + 8 * i) 8 + leAt d (8 * i) 8) % 2 ^ 64) ∧
      (op = opErg → d.length % 80 = 0 → t.mem = s.mem ∧
        (∀ i, 80 * i < d.length → t.ergGet ((s.pitch p).erg p (f.offset + i)) =
          ergAdd (s.ergGet ((s.pitch p).erg p (f.offset + i))) (ergOfBytes (cut d (80 * i) 80))) ∧
        ∀ g, (g < (s.pitch p).erg p f.offset ∨ (s.pitch p).erg p (f.offset + d.length / 80) ≤ g) → t.ergGet g = s.ergGet g) ∧
      (op = opReadReq → t.mem = s.mem ∧ t.erg = s.erg ∧
        ∃ n, Queued p [readResp f.src f.bucket f.seq (readOffset opReadReq n) (s.read a (leAt d 0 4))] t) ∧
      (op = opCas → d.length = 16 → t.erg = s.erg ∧ t.read a 8 = (if s.read a 8 = d.take 8 then cut d 8 8 else s.read a 8) ∧
        SameOutside s t a 8 ∧ Queued p [readResp f.src f.bucket f.seq 0 (s.read a 8)] t))

/-! ## Membership (20 R424 to R436; 19 R406, R408; 21 R453) -/

/-- A BEAT counts as liveness where RSIG and N agree, and one of a higher EPOCH is answered with QUERY; the other messages wait
while a handover runs, and each command is for its KIND alone. A FENCE of a higher EPOCH makes the pitch ask with QUERY and
start its count, or fences it in the CCLK of its pitch.start, a lower one does nothing; 64 epochs without RECORD fence it; a watched rank silent for 128 epochs is proposed
DEAD; proposals and votes of 256 epochs end. It rests on choices of the model too: notes/assumptions 41, 75 and 110. -/
def Obligations.BeatsFencesAndTimeouts : Prop :=
  (∀ (s : State) (rx : Rx) (p : PitchId) (f : Frame) (d : Bytes), HeartbeatIn s rx p f d →
     (leAt d 0 1 = hbBeat → (s.pitch p).member.record.epoch.toNat ≤ f.epoch →
       ((leAt d 48 16 ≠ (s.pitch p).rsig.toNat ∨ leAt d 4 4 ≠ (s.pitch p).memberN) → exec (.beat rx) s = .next (s.count p .hbMismatch)) ∧
       (leAt d 48 16 = (s.pitch p).rsig.toNat → leAt d 4 4 = (s.pitch p).memberN →
         (f.epoch = (s.pitch p).member.record.epoch.toNat → exec (.beat rx) s = .next (s.setPitch p { s.pitch p with
           member := { (s.pitch p).member with silent := sdel (s.pitch p).member.silent f.src } })) ∧
         ((s.pitch p).member.record.epoch.toNat < f.epoch → (s.pitch p).mode = .running → f.src ≠ (s.pitch p).rank →
           ∃ t, exec (.beat rx) s = .next t ∧ MemberOnly p s t ∧ sget (t.pitch p).member.silent f.src 0 = 0 ∧
             BeatLeaves p f.src { kind := hbQuery, n := (s.pitch p).memberN, compare := (s.pitch p).word } s t))) ∧
     (∀ c k, messageRow c = some (rx, k) → leAt d 0 1 ≠ k → exec c s = .next s) ∧
     (∀ c k, messageRow c = some (rx, k) → leAt d 0 1 = k → s.fw.lease.frozen = true →
       exec c s = .next { s with fw := { s.fw with messages := s.fw.messages ++ [(p, f.src, f.epoch, d)] } })) ∧
  (∀ (s : State) (p : PitchId), s.held = false →
     (∀ rx f d, s.parse rx = .frame p f → f.kind = .fence → (s.pitch p).answering = true → (s.pitch p).headerOk f = true →
       f.crcOk = true → (s.pitch p).openBy f (s.pitch p).member.record.epoch.toNat (s.pitch p).keys.current = some d →
       (leAt d 0 4 ≤ (s.pitch p).member.record.epoch.toNat → exec (.fence rx) s = .next s) ∧
       ((s.pitch p).member.record.epoch.toNat < leAt d 0 4 → (s.pitch p).mode = .running → (s.pitch p).startedAt = some s.cclk →
         ∃ t, exec (.fence rx) s = .next t ∧ (∀ q, q ≠ p → t.pitch q = s.pitch q) ∧ (t.pitch p).mode = .fenced ∧ (t.pitch p).keys = {}) ∧
       ((s.pitch p).member.record.epoch.toNat < leAt d 0 4 → (s.pitch p).mode = .running → f.src ≠ (s.pitch p).rank →
         (s.pitch p).startedAt ≠ some s.cclk →
         ∃ t, exec (.fence rx) s = .next t ∧ MemberOnly p s t ∧
           (t.pitch p).member = { (s.pitch p).member with
             fenceAt := some (s.cclk, BitVec.ofNat 32 (leAt d 0 4))
             queryAge := some ((s.pitch p).member.queryAge.getD (0, BitVec.ofNat 32 (leAt d 0 4))) } ∧
           BeatLeaves p f.src { kind := hbQuery, n := (s.pitch p).memberN, compare := (s.pitch p).word } s t)) ∧
     (∀ age e, (s.pitch p).member.queryAge = some (age, e) → s.fw.lease.frozen = false →
       (age < 64 → exec (.fenceQueryTimeout p) s = .next s) ∧
       (64 ≤ age → (s.pitch p).mode = .running → ∃ t, exec (.fenceQueryTimeout p) s = .next t ∧
         (∀ q, q ≠ p → t.pitch q = s.pitch q) ∧ (t.pitch p).mode = .fenced ∧ (t.pitch p).keys = {})) ∧
     (∀ (r : W16) (k : Nat), (s.pitch p).mode = .running → s.fw.lease.frozen = false → (s.pitch p).countedDead r.toNat = true →
       r.toNat ∈ (s.pitch p).member.record.watch (s.pitch p).rank → (s.pitch p).candidate (decide (r.toNat = (s.pitch p).rank)) = some k →
       k ≠ (s.pitch p).rank → (s.pitch p).keys.current.isSome = true →
       ∃ t, exec (.deathRule p r) s = .next t ∧ MemberOnly p s t ∧ (t.pitch p).member = (s.pitch p).member ∧
         (t.pitch p).counter .proposals = (s.pitch p).counter .proposals + 1 ∧
         BeatLeaves p k { kind := hbPropose, n := (s.pitch p).memberN, compare := (s.pitch p).word
                          swap := wordOf (wordEpoch (s.pitch p).word + 1) r.toNat actDead } s t) ∧
     (s.fw.lease.frozen = false →
       ((∃ q ∈ (s.pitch p).member.proposals, 256 ≤ q.age) → (s.pitch p).member.accepted = none →
         ∃ t, exec (.proposalTimeout p) s = .next t ∧ OnlyPitch p s t ∧
           (t.pitch p).member = { (s.pitch p).member with proposals := (s.pitch p).member.proposals.filter (fun q => q.age < 256) } ∧
           (t.pitch p).counter .proposalsAbandoned = (s.pitch p).counter .proposalsAbandoned +
             BitVec.ofNat 64 ((s.pitch p).member.proposals.filter (fun q => 256 ≤ q.age)).length) ∧
       (∀ w age, (∀ q ∈ (s.pitch p).member.proposals, q.age < 256) → (s.pitch p).member.accepted = some (w, age) → 256 ≤ age →
         exec (.proposalTimeout p) s = .next (s.setPitch p { s.pitch p with member := { (s.pitch p).member with accepted := none } }))))

/-- A member answers PROPOSE with VOTE, accepting one swap word for an EPOCH; the keeper pends a proposal that follows from its
WORD and asks the live ranks, or answers with RECORD; votes are counted, and a DEAD proposal with more than half of L commits.
It rests on choices of the model too: notes/assumptions 43. -/
def Obligations.ProposalsAndVotes : Prop :=
  ∀ (s : State) (rx : Rx) (p : PitchId) (f : Frame) (d : Bytes), HeartbeatIn s rx p f d → s.fw.lease.frozen = false →
    (s.pitch p).mode = .running → f.src ≠ (s.pitch p).rank →
    (leAt d 0 1 = hbPropose → f.src < (s.pitch p).rank → f.src ≠ wordSubject (swapOf d) →
      (compareOf d = (s.pitch p).word → (s.pitch p).member.accepted = none →
        ∃ t, exec (.propose rx) s = .next t ∧ MemberOnly p s t ∧ (t.pitch p).member =
            { (s.pitch p).member with accepted := some (swapOf d, 0) } ∧
          BeatLeaves p f.src { kind := hbVote, flags := 1, n := (s.pitch p).memberN, compare := compareOf d, swap := swapOf d } s t) ∧
      (compareOf d ≠ (s.pitch p).word →
        ∃ t, exec (.propose rx) s = .next t ∧ MemberOnly p s t ∧ (t.pitch p).member = (s.pitch p).member ∧
          BeatLeaves p f.src { kind := hbVote, flags := 0, n := (s.pitch p).memberN, compare := compareOf d, swap := swapOf d } s t)) ∧
    (leAt d 0 1 = hbPropose → (s.pitch p).rank < f.src → (s.pitch p).member.record.mayPropose (swapOf d) = true →
      (compareOf d ≠ (s.pitch p).word →
        ∃ t, exec (.propose rx) s = .next t ∧ MemberOnly p s t ∧ (t.pitch p).member = (s.pitch p).member ∧
          BeatLeaves p f.src { kind := hbRecord, n := (s.pitch p).memberN, compare := (s.pitch p).word, at' := (s.pitch p).recordAt
                               tail := (s.pitch p).member.record.bytes } s t) ∧
      (compareOf d = (s.pitch p).word → wordEpoch (swapOf d) = wordEpoch (s.pitch p).word + 1 →
        wordAction (swapOf d) = actDead → (s.pitch p).member.record.vacant.length < 64 → (s.pitch p).member.proposals = [] →
        (s.pitch p).member.accepted = none → 2 ≤ (s.pitch p).member.record.liveSet.length →
        ∃ t q, exec (.propose rx) s = .next t ∧ MemberOnly p s t ∧ (t.pitch p).member.proposals = [q] ∧
          q.swap = swapOf d ∧ q.accepts = [((s.pitch p).rank, BitVec.ofNat 64 (s.newestCk p))] ∧
          (t.pitch p).member.record = (s.pitch p).member.record ∧
          t.netOut.length = s.netOut.length + ((s.pitch p).member.record.liveSet.filter
            (fun r => r ≠ (s.pitch p).rank && r ≠ wordSubject (swapOf d))).length)) ∧
    (leAt d 0 1 = hbVote → ∀ q v, (s.pitch p).member.proposals = [q] → leAt d 16 8 = q.swap.toNat →
      (s.pitch p).member.record.live f.src = true → v = { q with
        accepts := upsert (fun a => a.1 = f.src) (fun _ => (f.src, BitVec.ofNat 64 (leAt d 40 8)))
          (f.src, BitVec.ofNat 64 (leAt d 40 8)) q.accepts } →
      (bitOf (leAt d 1 1) 0 = false → exec (.vote rx) s = .next s) ∧
      (bitOf (leAt d 1 1) 0 = true → (s.pitch p).carried v = false → exec (.vote rx) s = .next (s.setPitch p { s.pitch p with
        member := { (s.pitch p).member with proposals := [v] } })) ∧
      (bitOf (leAt d 1 1) 0 = true → (s.pitch p).carried v = true → wordAction q.swap = actDead →
        wordSubject q.swap ∉ (s.pitch p).member.record.vacant →
        ∃ t, exec (.vote rx) s = .next t ∧ FollowsDeath p q.swap s t ∧
          t.netOut.length = s.netOut.length + ((s.pitch p).commitTo v).length))

/-- A COMMIT that follows from the own WORD is applied, an old one is not, another makes the pitch ask with QUERY; a committed capacity
change swaps WORD and waits for AT_STEP; QUERY is answered with RECORD, STALE where the querier has died since; a RECORD is applied when
newer, or where its capacity change is, and fences when STALE; the keeper proposes the TAKEOVER that a spare's JOIN asks for. It rests on
choices of the model too: notes/assumptions 42, 71, 72, 73, 108 and 109. -/
def Obligations.CommitsAndRecords : Prop :=
  ∀ (s : State) (rx : Rx) (p : PitchId) (f : Frame) (d : Bytes), HeartbeatIn s rx p f d → s.fw.lease.frozen = false →
    (s.pitch p).mode = .running → f.src ≠ (s.pitch p).rank →
    (leAt d 0 1 = hbCommit →
      (wordEpoch (swapOf d) ≤ wordEpoch (s.pitch p).word → exec (.commit rx) s = .next s) ∧
      (wordEpoch (s.pitch p).word < wordEpoch (swapOf d) → compareOf d = (s.pitch p).word →
        wordAction (swapOf d) = actDead → wordSubject (swapOf d) ∉ (s.pitch p).member.record.vacant → (s.pitch p).member.wish = none →
        (s.pitch p).member.joining = none →
        ∃ t, exec (.commit rx) s = .next t ∧ FollowsDeath p (swapOf d) s t) ∧
      (wordEpoch (s.pitch p).word < wordEpoch (swapOf d) → compareOf d = (s.pitch p).word →
        (wordAction (swapOf d) = actGrow ∧ wordSubject (swapOf d) ≠ (s.pitch p).rank ∨ wordAction (swapOf d) = actLeave) →
        (s.pitch p).time.step.toNat < leAt d 24 8 → (s.pitch p).member.joining = none →
        ∃ t, exec (.commit rx) s = .next t ∧ (∀ q, q ≠ p → t.pitch q = s.pitch q) ∧ t.pitch p = { s.pitch p with
          member := { (s.pitch p).member with
            record := { (s.pitch p).member.record with word := swapOf d, atStep := BitVec.ofNat 64 (leAt d 24 8) }
            proposals := [], accepted := none, joinDue := none } }) ∧
      (wordEpoch (s.pitch p).word < wordEpoch (swapOf d) → compareOf d ≠ (s.pitch p).word →
        (s.pitch p).member.joining = none → wordAction (swapOf d) = actDead →
        ∃ t, exec (.commit rx) s = .next t ∧ MemberOnly p s t ∧ (t.pitch p).member = (s.pitch p).member ∧
          BeatLeaves p f.src { kind := hbQuery, n := (s.pitch p).memberN, compare := (s.pitch p).word } s t)) ∧
    (leAt d 0 1 = hbQuery → ∃ t, exec (.query rx) s = .next t ∧ MemberOnly p s t ∧ (t.pitch p).member = (s.pitch p).member ∧
      BeatLeaves p f.src { kind := hbRecord, flags := if f.epoch < ((s.pitch p).chan f.src).deathEpoch.toNat then 2 else 0
                           n := (s.pitch p).memberN, compare := (s.pitch p).word, at' := (s.pitch p).recordAt
                           tail := (s.pitch p).member.record.bytes } s t) ∧
    (leAt d 0 1 = hbRecord →
      (bitOf (leAt d 1 1) 1 = true → ∃ t, exec (.record rx) s = .next t ∧ (∀ q, q ≠ p → t.pitch q = s.pitch q) ∧
        (t.pitch p).mode = .fenced ∧ (t.pitch p).keys = {} ∧
        (t.pitch p).time.state = if (s.pitch p).member.record.vacant.isEmpty then .idle else .draining) ∧
      (bitOf (leAt d 1 1) 1 = false → (memberOf (cut d 64 192)).epoch.toNat ≤ (s.pitch p).member.record.epoch.toNat →
        ((memberOf (cut d 64 192)).atStep = 0 ∨ wordEpoch (memberOf (cut d 64 192)).word ≤ wordEpoch (s.pitch p).word) →
        (memberOf (cut d 64 192)).n ≠ (s.pitch p).rank → (s.pitch p).member.wish = none →
        exec (.record rx) s = .next (s.setPitch p { s.pitch p with member := { (s.pitch p).member with queryAge := none } })) ∧
      (bitOf (leAt d 1 1) 1 = false → (s.pitch p).member.record.epoch.toNat < (memberOf (cut d 64 192)).epoch.toNat →
        wordAction (memberOf (cut d 64 192)).word ≠ actTakeover → (s.pitch p).rank < (memberOf (cut d 64 192)).n →
        (s.pitch p).member.wish = none →
        ∃ t, exec (.record rx) s = .next t ∧ (∀ q, q ≠ p → t.pitch q = s.pitch q) ∧ (t.pitch p).tx.out = [] ∧
          (t.pitch p).member.queryAge = none ∧
          (t.pitch p).member.record = { memberOf (cut d 64 192) with
            rank := (s.pitch p).member.record.rank, role := (s.pitch p).member.record.role
            rsig := (s.pitch p).member.record.rsig, keeper := (memberOf (cut d 64 192)).lowest })) ∧
    (leAt d 0 1 = hbJoin → wordAction (compareOf d) = actDead → f.src < 65536 →
      wordEpoch (s.pitch p).word + 1 < 2 ^ 32 →
      (¬ (f.src ∈ (s.pitch p).member.record.vacant ∧ wordEpoch (compareOf d) = ((s.pitch p).chan f.src).deathEpoch.toNat) →
        ∃ t, exec (.join rx) s = .next t ∧ MemberOnly p s t ∧ (t.pitch p).member = (s.pitch p).member ∧
          BeatLeaves p f.src { kind := hbRecord, flags := 2, n := (s.pitch p).memberN, compare := (s.pitch p).word
                               at' := (s.pitch p).recordAt, tail := (s.pitch p).member.record.bytes } s t) ∧
      (f.src ∈ (s.pitch p).member.record.vacant → wordEpoch (compareOf d) = ((s.pitch p).chan f.src).deathEpoch.toNat →
        (s.pitch p).member.proposals = [] → (s.pitch p).member.accepted = none →
        (∃ r ∈ (s.pitch p).member.record.liveSet, r ≠ (s.pitch p).rank) →
        ∃ t, exec (.join rx) s = .next t ∧ MemberOnly p s t ∧
          (t.pitch p).member.proposals = [⟨(s.pitch p).word, wordOf (wordEpoch (s.pitch p).word + 1) f.src actTakeover,
            BitVec.ofNat 64 (leAt d 40 8), some f.src, [((s.pitch p).rank, BitVec.ofNat 64 (s.newestCk p))], 0⟩] ∧
          (t.pitch p).counter .proposals = (s.pitch p).counter .proposals + 1))

/-! ## Work descriptors (06 R131; 10 R238, R242 to R244; 15 R320 to R322; 17 R368 to R371) -/

/-- A descriptor of a reserved KIND, and one that fails a test of its kind, leaves its queue with a completion that says why and
has no other effect; a completion waits while its queue is full. It rests on choices of the model too: notes/assumptions 35. -/
def Obligations.DescriptorsRefused : Prop :=
  ∀ (s : State) (p : PitchId) (q : Nat) (d : Bytes), DescAt s p q d →
    ((descKind d = 0 ∨ 5 < descKind d) →
      (CplRoom (s.pitch p) q → ∃ t, exec (.reservedKindDescriptor p q) s = .next t ∧ DescRefused p q d eReserved 0 s t) ∧
      (∀ r, (s.pitch p).ring (qCq ((s.pitch p).queueRec q)) = some r → qCq ((s.pitch p).queueRec q) ≠ q →
        (s.pitch p).hasRoom (qCq ((s.pitch p).queueRec q)) = false →
        ∃ t, exec (.reservedKindDescriptor p q) s = .next t ∧ OnlyPitch p s t ∧ DescTaken p q s t ∧
          (t.pitch p).queues.held = (s.pitch p).queues.held ++ [(qCq ((s.pitch p).queueRec q),
            completionBytes (descKind d) eReserved q (headAfter s p q) 0 (descCookie d))] ∧
          (t.pitch p).counter .cqFullWaits = (s.pitch p).counter .cqFullWaits + 1)) ∧
    (CplRoom (s.pitch p) q → ∀ r,
      (descKind d = 1 → (s.pitch p).ingestCheck d = some r → ∃ t, exec (.ingestDescriptor p q) s = .next t ∧
        DescRefused p q d r.status r.detail s t ∧
        (t.pitch p).counter .ingestRefused = (s.pitch p).counter .ingestRefused + 1) ∧
      (descKind d = 2 → s.dispatchCheck p d = some r → ∃ t, exec (.dispatchDescriptor p q) s = .next t ∧
        DescRefused p q d r.status r.detail s t) ∧
      (descKind d = 3 → (s.pitch p).combineCheck d = some r → ∃ t, exec (.combineDescriptor p q) s = .next t ∧
        DescRefused p q d r.status r.detail s t) ∧
      (descKind d = 4 → (s.pitch p).osCheck p d = some r → ∃ t, exec (.oneSidedDescriptor p q) s = .next t ∧
        DescRefused p q d r.status r.detail s t) ∧
      (descKind d = 5 → (s.pitch p).deltaFirst d = some r →
        ∃ t, exec (if leAt d 1 1 % 4 = 1 then .deltaExpand p q else .deltaEncode p q) s = .next t ∧
          DescRefused p q d r.status r.detail s t) ∧
      (descKind d = 5 → (s.pitch p).deltaFirst d = none →
        ∀ hs, s.descFetch p q (s.pitch p).descKey [((deltaOpOf d).img, 64)] = .ready hs →
        (s.pitch p).deltaSecond d (hs.headD []) = some r →
        ∃ t, exec (if leAt d 1 1 % 4 = 1 then .deltaExpand p q else .deltaEncode p q) s = .next t ∧
          DescRefused p q d r.status r.detail s t))

/-- An ingest descriptor's range joins its bucket and its bytes are asked of the host; a dispatch counts its entries by expert;
a combine returns every filled slot; a one-sided descriptor is cut into frames, and one of no bytes completes at once; a
descriptor whose host bytes have not come leaves its queue and waits for them; a dispatch completes once T is there, its frames
are acknowledged and its slots filled. It rests on choices of the model too: notes/assumptions 27, 28 and 35. -/
def Obligations.DescriptorsAct : Prop :=
  ∀ (s : State) (p : PitchId) (q : Nat) (d : Bytes),
    (DescAt s p q d →
      (descKind d = 1 → (s.pitch p).ingestCheck d = none → ∃ t i, exec (.ingestDescriptor p q) s = .next t ∧ DescTaken p q s t ∧
        t = { s with pitches := t.pitches, dma := t.dma, dmaTag := t.dmaTag, hostOut := t.hostOut, hostPorts := t.hostPorts } ∧
        (t.pitch p).ingests.find? (fun j => j.bucket = leAt d 8 4) = some i ∧
        i.ranges = ((s.pitch p).ingest (leAt d 8 4)).ranges ++ [ingestRange d q (headAfter s p q)] ∧ i.openMb = leAt d 6 2 ∧
        s.dma <+: t.dma ∧ s.hostOut <+: t.hostOut ∧
        sumOf ((t.dma.drop s.dma.length).map DmaReq.len) = (ingestRange d q 0).count * fmtBits (ingestRange d q 0).hostFmt / 8 +
          (if (ingestRange d q 0).mx then (ingestRange d q 0).count / 32 else 0)) ∧
      (descKind d = 2 → s.dispatchCheck p d = none → ∀ parts : List Bytes,
        s.descFetch p q (s.pitch p).descKey (dispatchNeeds d) = .ready parts →
        ∃ t e, exec (.dispatchDescriptor p q) s = .next t ∧ DescTaken p q s t ∧ t.mem = s.mem ∧ t.erg = s.erg ∧
          (t.pitch p).dispatched (BitVec.ofNat 16 (leAt d 6 2)) = some e ∧ e.wq = q ∧ e.wqHead = headAfter s p q ∧
          e.cookie = descCookie d ∧ e.tokens = leAt d 8 4 ∧ e.k = leAt d 1 1 % 8 + 1 ∧ e.elems = leAt d 12 2 ∧
          e.routes = (chunks 2 (parts.getD 0 [])).map leNat ∧ e.tokenData = parts.getD 1 [] ∧
          e.own = some ((List.range ((s.pitch p).experts p)).map (fun k => (e.routes.filter (· = k)).length))) ∧
      (descKind d = 3 → (s.pitch p).combineCheck d = none → ∀ (e : Exchange) (outs : List Bytes),
        (s.pitch p).dispatched (BitVec.ofNat 16 (leAt d 6 2)) = some e →
        s.descFetch p q (s.pitch p).descKey (combineNeeds d e) = .ready outs →
        (e.slots = [] → CplRoom (s.pitch p) q → ∃ t, exec (.combineDescriptor p q) s = .next t ∧ DescTaken p q s t ∧
          CplWritten p 3 stOk q (headAfter s p q) 0 (descCookie d) s t) ∧
        (e.slots ≠ [] → 1 ≤ e.elems → ∃ t e' n, exec (.combineDescriptor p q) s = .next t ∧ DescTaken p q s t ∧
          t = { s with pitches := t.pitches } ∧ (t.pitch p).dispatched (BitVec.ofNat 16 (leAt d 6 2)) = some e' ∧
          e' = { e with combines := e.combines ++ [(q, headAfter s p q, descCookie d, n)] } ∧ 1 ≤ n ∧
          (t.pitch p).tx.txq.length = (s.pitch p).tx.txq.length + n)) ∧
      (descKind d = 4 → (s.pitch p).osCheck p d = none → ∀ (parts : List Bytes) (data : Bytes),
        s.descFetch p q (s.pitch p).descKey (osNeeds d) = .ready parts → data = parts.getD 0 [] →
        (osPieces d data ≠ [] →
          ∃ t j, exec (.oneSidedDescriptor p q) s = .next t ∧ DescTaken p q s t ∧ t = { s with pitches := t.pitches } ∧
            (t.pitch p).osJobs = (s.pitch p).osJobs ++ [j] ∧ j.id = (s.pitch p).nextJob + 1 ∧ j.left = (osPieces d data).length ∧
            j.wq = q ∧ j.wqHead = headAfter s p q ∧ j.cookie = descCookie d ∧
            (t.pitch p).tx.txq.length = (s.pitch p).tx.txq.length + (osPieces d data).length ∧
            ∀ e ∈ osPieces d data, ∃ g ∈ (t.pitch p).tx.txq, g.dst = leAt d 2 2 ∧ g.opcode = BitVec.ofNat 8 (osOpcode (osOp d)) ∧
              g.offset = BitVec.ofNat 64 e.1 ∧ g.payload = e.2 ∧ g.use = .oneSided ((s.pitch p).nextJob + 1)) ∧
        (osPieces d data = [] → CplRoom (s.pitch p) q → ∃ t, exec (.oneSidedDescriptor p q) s = .next t ∧ DescTaken p q s t ∧
          CplWritten p 4 stOk q (headAfter s p q) 0 (descCookie d) s t ∧
          (t.pitch p).tx.txq.length = (s.pitch p).tx.txq.length)) ∧
      ((∀ j ∈ (s.pitch p).queues.jobs, j.key ≠ (s.pitch p).descKey) → (∀ r ∈ s.dma, r.use ≠ .descriptor p (s.pitch p).descKey) →
        (descKind d = 2 → s.dispatchCheck p d = none → (∃ u, s.descFetch p q (s.pitch p).descKey (dispatchNeeds d) = .wait u) →
          ∃ t, exec (.dispatchDescriptor p q) s = .next t ∧ DescWaits p q d s t) ∧
        (descKind d = 4 → (s.pitch p).osCheck p d = none → (∃ u, s.descFetch p q (s.pitch p).descKey (osNeeds d) = .wait u) →
          ∃ t, exec (.oneSidedDescriptor p q) s = .next t ∧ DescWaits p q d s t))) ∧
    (s.held = false → ∀ (exch : W16) (e : Exchange), (s.pitch p).dispatched exch = some e → (s.pitch p).works = true →
      e.complete = false → e.totals.isSome = true → e.acked = e.frames → e.kept ≠ 0 → CplRoom (s.pitch p) e.wq →
      (∀ f ∈ s.filledSlots p e, ∃ v ∈ e.slots, v.1 = f.1 ∧ v.2.1 = f.2) →
      ∃ t, exec (.dispatchComplete p exch) s = .next t ∧ (∀ r, r ≠ p → t.pitch r = s.pitch r) ∧
        (t.pitch p).dispatched exch = some { e with complete := true } ∧
        CplWritten p 2 stOk e.wq e.wqHead 0 e.cookie s t)

/-- DELTA_ENCODE writes each block's slot and directory entry where the image says and DELTA_EXPAND the weights of each block in
order, in host or in engine memory; the first damaged block ends an expansion with E_STREAM and its number. It rests on choices
of the model too: notes/assumptions 29 and 37. -/
def Obligations.DeltaDescriptors : Prop :=
  ∀ (s : State) (p : PitchId) (q : Nat) (d : Bytes) (o : DeltaOp) (h : Bytes) (parts : List Bytes), descKind d = 5 →
    DeltaReady s p q d o h parts →
    (o.expand = false →
      ((∀ i, i < o.count → isEngine (o.slotAddr h + 4096 * i) = false ∧ isEngine (o.dirAddr + 16 * i) = false) →
        s.hostUp (s.fetchPort p q) = true →
        ∃ t, exec (.deltaEncode p q) s = .next t ∧ DescTaken p q s t ∧
          CplWritten p 5 stOk q (headAfter s p q) 0 (descCookie d) s t ∧
          s.hostOut ++ (List.range o.count).flatMap (fun i =>
            dmaWrites (s.fetchPort p q) (BitVec.ofNat 64 (o.slotAddr h + 4096 * i))
              (deltaPiece o h (words16 (parts.getD 0 [])) (deltaBase o h parts 1) i).1 ++
            dmaWrites (s.fetchPort p q) (BitVec.ofNat 64 (o.dirAddr + 16 * i))
              (deltaPiece o h (words16 (parts.getD 0 [])) (deltaBase o h parts 1) i).2.bytes) <+: t.hostOut) ∧
      ((∀ i, i < o.count → isEngine (o.slotAddr h + 4096 * i) = true ∧ isEngine (o.dirAddr + 16 * i) = true) →
        ∃ t u, exec (.deltaEncode p q) s = .next t ∧ DescTaken p q s t ∧
          u.mem = ((List.range o.count).foldl (fun v i =>
            (v.write (engineAddr (o.slotAddr h + 4096 * i))
              (deltaPiece o h (words16 (parts.getD 0 [])) (deltaBase o h parts 1) i).1).write (engineAddr (o.dirAddr + 16 * i))
              (deltaPiece o h (words16 (parts.getD 0 [])) (deltaBase o h parts 1) i).2.bytes) s).mem ∧
          u.pitches = s.pitches ∧ CplWritten p 5 stOk q (headAfter s p q) 0 (descCookie d) u t)) ∧
    (o.expand = true →
      ((∀ i, i < o.count → isEngine (o.data + 2 * (2048 * (o.first + i))) = false ∧
          (deltaWords o h (parts.getD 0 []) (parts.getD 1 []) (deltaBase o h parts 2) i).isSome = true) →
        s.hostUp (s.fetchPort p q) = true →
        ∃ t, exec (.deltaExpand p q) s = .next t ∧ DescTaken p q s t ∧
          CplWritten p 5 stOk q (headAfter s p q) 0 (descCookie d) s t ∧
          s.hostOut ++ (List.range o.count).flatMap (fun i =>
            dmaWrites (s.fetchPort p q) (BitVec.ofNat 64 (o.data + 2 * (2048 * (o.first + i))))
              ((deltaWords o h (parts.getD 0 []) (parts.getD 1 []) (deltaBase o h parts 2) i).getD [])) <+: t.hostOut) ∧
      ((∀ i, i < o.count → isEngine (o.data + 2 * (2048 * (o.first + i))) = true ∧
          (deltaWords o h (parts.getD 0 []) (parts.getD 1 []) (deltaBase o h parts 2) i).isSome = true) →
        ∃ t u, exec (.deltaExpand p q) s = .next t ∧ DescTaken p q s t ∧ u.pitches = s.pitches ∧
          u.mem = ((List.range o.count).foldl (fun v i => v.write (engineAddr (o.data + 2 * (2048 * (o.first + i))))
            ((deltaWords o h (parts.getD 0 []) (parts.getD 1 []) (deltaBase o h parts 2) i).getD [])) s).mem ∧
          CplWritten p 5 stOk q (headAfter s p q) 0 (descCookie d) u t) ∧
      (∀ k, k < o.count → (∀ i, i < k → isEngine (o.data + 2 * (2048 * (o.first + i))) = false ∧
          (deltaWords o h (parts.getD 0 []) (parts.getD 1 []) (deltaBase o h parts 2) i).isSome = true) →
        deltaWords o h (parts.getD 0 []) (parts.getD 1 []) (deltaBase o h parts 2) k = none →
        ∃ t, exec (.deltaExpand p q) s = .next t ∧ DescTaken p q s t ∧
          CplWritten p 5 eStream q (headAfter s p q) (o.first + k) (descCookie d) s t ∧
          (t.pitch p).counter .deltaDamaged = (s.pitch p).counter .deltaDamaged + 1))

/-! ## Network ports and health (01 R20; 12 R280 to R282; 13 R303; 16 R341, R343; 23 R483 to R486) -/

/-- A failed lane is spared by lane 8 where it is wired, else the port falls back to 400G on a whole lane group, else it fails;
a link change moves the rate and nothing else; the logical ports of a failed port move to EP16, or to another port. It rests on
choices of the model too: notes/assumptions 12 and 48. -/
def Obligations.PortsSpareAndMove : Prop :=
  ∀ (s : State) (n : NetPort), s.held = false →
    (∀ (j : Fin 9) (tx : Bool), s.netPorts[n].failed = false → s.netPorts[n].inService = true → s.netPorts[n].laneGroup = none →
      s.netPorts[n].sparedOf tx = none → j ≠ 8 →
      (s.prov.lane8Wired.getLsbD n.val = true → 8 ∉ s.netPorts[n].failedOf tx →
        ∃ t, exec (.networkPortRetrain n j tx) s = .next t ∧ Repaired 5 { s with netPorts := t.netPorts } t ∧ OnePort n s t ∧
          t.netPorts[n] = { s.netPorts[n].markLane j tx with
            sparedTx := if tx then some j else s.netPorts[n].sparedTx, sparedRx := if tx then s.netPorts[n].sparedRx else some j
            laneSpares := s.netPorts[n].laneSpares + 1 }) ∧
      (s.prov.lane8Wired.getLsbD n.val = false →
        ((s.netPorts[n].markLane j tx).groupOk false = true ∨ (s.netPorts[n].markLane j tx).groupOk true = true) →
        ∃ t, exec (.networkPortRetrain n j tx) s = .next t ∧ Repaired 5 { s with netPorts := t.netPorts } t ∧ OnePort n s t ∧
          t.netPorts[n] = { s.netPorts[n].markLane j tx with
            laneGroup := some (!(s.netPorts[n].markLane j tx).groupOk false), link := .r400
            portFallbacks := s.netPorts[n].portFallbacks + 1 }) ∧
      (s.prov.lane8Wired.getLsbD n.val = false → (s.netPorts[n].markLane j tx).groupOk false = false →
        (s.netPorts[n].markLane j tx).groupOk true = false →
        ∃ t, exec (.networkPortRetrain n j tx) s = .next t ∧ OnePort n s t ∧
          Repaired 5 { s with netPorts := t.netPorts, ptp := t.ptp, power := { s.power with cells := t.power.cells } } t ∧
          t.netPorts[n] = { s.netPorts[n].markLane j tx with failed := true, inService := false, link := .down })) ∧
    (∀ l : LinkRate, s.netPorts[n].failed = false → s.netPorts[n].inService = true →
      ∃ t, exec (.networkLinkChange n l) s = .next t ∧ PortsOnly s t ∧ OnePort n s t ∧
        t.netPorts[n].link = (if l = .r800 ∧ s.netPorts[n].laneGroup.isSome = true then .r400 else l) ∧
        (l ≠ .down → t.netPorts[n].downEpochs = 0)) ∧
    (s.netPorts[n].failed = true → s.netPorts[n].replaced = false → s.mayRepair = true →
      (n ≠ 16 → s.spareFree = true →
        ∃ t, exec (.portRemap n) s = .next t ∧ t.cclk = max s.cclk s.planBoundary ∧ t.netPorts[n].replaced = true ∧
          t.netPorts[(16 : NetPort)].standsFor = some n ∧ (∀ k, k ≠ n → k ≠ 16 → t.netPorts[k] = s.netPorts[k]) ∧
          (∀ p, (t.pitch p).tx.portMap = (s.pitch p).tx.portMap.map (fun m => if m = n then 16 else m)) ∧
          ∀ p, t.pitch p = { s.pitch p with
            tx := { (s.pitch p).tx with portMap := (t.pitch p).tx.portMap }, mail := (t.pitch p).mail, queues := (t.pitch p).queues
            tsig := (t.pitch p).tsig, degraded := (t.pitch p).degraded, counters := (t.pitch p).counters }) ∧
      ((n = 16 ∨ s.spareFree = false) →
        ∃ t, exec (.portRemap n) s = .next t ∧ t.netPorts[n].replaced = true ∧
          ∀ p, canFault (s.pitch p) → (t.pitch p).mode = .faulted ∨ ∀ m ∈ (t.pitch p).tx.portMap.toList, m ≠ n))

/-- The spare slice rotates: requested at its epoch, in effect at the slice-slot boundary that follows a peg boundary, and the freed
slice becomes the spare once its logic test and the Sandgrain vector of each core pass; one failure repeats the test, a second
retires the slice. It rests on choices of the model too: notes/assumptions 12 and 18. -/
def Obligations.SpareSlicesRotate : Prop :=
  ∀ (s : State) (c : Fin 8), s.held = false →
    (s.rotationDue c = true → exec (.spareRotation c) s = .next { s with
        clusters := s.clusters.set c
          { s.clusters[c] with
            rotation := s.clusters[c].nextFreed, rotatedAt := some s.glob.mgmtTick, pegsThen := s.pegPlaces } }) ∧
    (s.rotationDue c = false → exec (.spareRotation c) s = .next s) ∧
    (∀ k, s.clusters[c].rotation = some k → s.pegBoundary s.clusters[c].pegsThen = false →
      exec (.rotationEffect c) s = .next s) ∧
    (∀ k sp, s.clusters[c].rotation = some k → s.clusters[c].broken = [] → s.clusters[c].spare = some sp →
      some k ∈ s.clusters[c].map → s.pegBoundary s.clusters[c].pegsThen = true →
      ∃ t, exec (.rotationEffect c) s = .next t ∧ t.cclk = max s.cclk (roundUp s.cclk 64) ∧
        t = { s with clusters := t.clusters, cclk := t.cclk, power := { s.power with cells := t.power.cells } } ∧
        t.clusters = s.clusters.set c { s.clusters[c] with
            map := s.clusters[c].map.map (fun e => if e = some k then some sp else e)
            spare := none, rotation := none, lastFreed := some k, testing := some (k, 0) } ∧
        ∀ i : CellId, t.power.cells[i] = if i.val = sliceCell c.val sp then .run else s.power.cells[i]) ∧
    (∀ k failures, s.clusters[c].testing = some (k, failures) → s.coreRuns (.cc c) = true →
      (∀ outs : List W128, (∀ v ∈ outs, v = BitVec.ofNat 128 sandVectorOutput) →
        ∃ t, exec (.rotationBistComplete c outs true) s = .next t ∧
        t = { s with clusters := t.clusters, power := { s.power with cells := t.power.cells } } ∧
        t.clusters = s.clusters.set c { s.clusters[c] with spare := some k, testing := none } ∧
        ∀ i : CellId, t.power.cells[i] = if i.val = sliceCell c.val k then .drowse else s.power.cells[i]) ∧
      (∀ (outs : List W128) (pass : Bool), (pass = false ∨ ∃ v ∈ outs, v ≠ BitVec.ofNat 128 sandVectorOutput) →
        (failures = 0 → exec (.rotationBistComplete c outs pass) s = .next { s with
            clusters := s.clusters.set c { s.clusters[c] with testing := some (k, 1) } }) ∧
        (failures ≠ 0 → ∃ t, exec (.rotationBistComplete c outs pass) s = .next t ∧
          Repaired 1 { s with power := t.power } t ∧
          t.clusters = s.clusters.set c { s.clusters[c] with testing := none, retired := addNew k s.clusters[c].retired } ∧
          ∀ i : CellId, t.power.cells[i] = if i.val = sliceCell c.val k then .off else s.power.cells[i])))

/-- A corrected word is counted and leaves every byte as read; a row corrected twice in the hour takes a spare row, and where
none is left a staging bank is withdrawn; a scrub's access of its own comes in an engine slot; an HBM segment due is copied to a spare and remapped at the plan-period boundary; an uncorrectable word is logged and faults the pitch
whose data it holds. It rests on choices of the model too: notes/assumptions 12, 18 and 49. -/
def Obligations.EccAndRemap : Prop :=
  ∀ s : State, s.held = false →
    (∀ w : EccWord, w.corrected = false → exec (.scrubPass w) s =
      .next (if w.endsPass then { scrubSlot w s with health := { s.health with scrubs := s.health.scrubs + 1 } } else scrubSlot w s)) ∧
    (∀ w : EccWord, w.corrected = true → w.mem = .hbm →
      ∃ t, exec (.scrubPass w) s = .next t ∧ t = { scrubSlot w s with pitches := t.pitches, health := t.health } ∧
        t.health.eccHbm = s.health.eccHbm + 1 ∧ t.health.hour.corrected = s.health.hour.corrected + 1 ∧
        ∀ p, t.pitch p = { s.pitch p with counters := (t.pitch p).counters } ∧
          (t.pitch p).counter .eccFixes = (s.pitch p).counter .eccFixes + (if w.owner = some p then 1 else 0)) ∧
    (∀ w : EccWord, w.corrected = true → w.mem ≠ .hbm → w.owner = none → w.endsPass = false →
      ((w.mem, (sramRow w.mem w.addr).1 * 2 ^ 32 + (sramRow w.mem w.addr).2) ∉ s.health.rowErrors →
        ∃ t, exec (.scrubPass w) s = .next t ∧ t = { scrubSlot w s with health := t.health } ∧
          t.health.eccSram = s.health.eccSram + 1) ∧
      ((w.mem, (sramRow w.mem w.addr).1 * 2 ^ 32 + (sramRow w.mem w.addr).2) ∈ s.health.rowErrors →
        (w.mem = .staging → (sramRow w.mem w.addr).1 ∉ s.health.withdrawn) →
        (s.rowsUsed (sramRow w.mem w.addr).1 < 4 →
          ∃ t, exec (.scrubPass w) s = .next t ∧ Repaired 7 (scrubSlot w s) t ∧ t.clusters = s.clusters ∧
            t.health.eccSram = s.health.eccSram + 1) ∧
        (4 ≤ s.rowsUsed (sramRow w.mem w.addr).1 → w.mem = .staging →
          ∃ t, exec (.scrubPass w) s = .next t ∧ t.glob.stagingMib = s.glob.stagingMib - 2 ∧
            t.health.withdrawn = s.health.withdrawn ++ [(sramRow w.mem w.addr).1] ∧
            ∀ p, canFault (s.pitch p) → t.glob.stagingMib < (s.pitch p).binding.stagingOff + (s.pitch p).binding.stagingMib →
              (t.pitch p).mode = .faulted))) ∧
    (∀ (stack : Fin 6) (seg : Nat),
      (192 * stack.val + seg ∉ s.health.due → exec (.hbmSegmentRemap stack seg) s = .next s) ∧
      (∀ k, 192 * stack.val + seg ∈ s.health.due → s.freeSegment stack.val = some k →
        exec (.hbmSegmentRemap stack seg) s = .next { s with health := { s.health with
          due := s.health.due.erase (192 * stack.val + seg), copying := s.health.copying ++ [(stack.val, seg, k)] } }) ∧
      (192 * stack.val + seg ∈ s.health.due → s.freeSegment stack.val = none →
        ∃ t, exec (.hbmSegmentRemap stack seg) s = .next t ∧
          ∀ p, canFault (s.pitch p) → (s.pitch p).slots (9 + stack.val) ≠ 0#64 → (t.pitch p).mode = .faulted)) ∧
    (∀ (stack : Fin 6) (e : Nat × Nat × Nat), s.health.copying.filter (fun e => e.1 = stack.val) = [e] →
      ∃ t, exec (.hbmRemapEffect stack) s = .next t ∧ Repaired 4 { s with cclk := t.cclk } t ∧ t.clusters = s.clusters ∧
        t.cclk = max s.cclk s.planBoundary ∧ t.health.copying = s.health.copying.filter (fun e => e.1 ≠ stack.val) ∧
        t.health.remapped = s.health.remapped ++ [e]) ∧
    (∀ (p : PitchId) (m : EccMem) (a : Nat),
      (canFault (s.pitch p) → ∃ t, exec (.uncorrectableEcc p m a) s = .next t ∧ (t.pitch p).mode = .faulted ∧
        (t.pitch p).time.state = (if (s.pitch p).member.record.vacant = [] then .idle else .draining) ∧
        (∀ q, q ≠ p → t.pitch q = s.pitch q) ∧ t.health.eccBad = s.health.eccBad + 1 ∧
        Logged logUncorrectable (leBytes 1 (eccMemNumber m) ++ leBytes 1 p.val ++ [0, 0] ++ leBytes 8 a) s t) ∧
      ((s.pitch p).mode = .unbound → ∃ t, exec (.uncorrectableEcc p m a) s = .next t ∧ t.pitches = s.pitches ∧ t.mem = s.mem ∧
        t.health.eccBad = s.health.eccBad + 1))

/-! ## Frames that reach no channel (10 R226; 11 R255 to R257, R259; 12 R277, R284) -/

/-- A frame that is no CXT frame goes to its pitch's exception queue or is dropped and counted; frames that fail the MAC or the
checksums are counted on their port; reserved opcodes and targets are answered with NACK, or dropped as CONTROL. It rests on
choices of the model too: notes/assumptions 79. -/
def Obligations.FramesRefused : Prop :=
  ∀ (s : State) (rx : Rx), s.held = false →
    (∀ (p : PitchId) (reason : Nat), s.parse rx = .exception p reason →
      ((s.pitch p).hasRoom ((s.pitch p).cfg p 0xC) = false → exec (.nonCxtFrame rx) s = .next (s.count p .excOverflow)) ∧
      (∀ a r, (s.pitch p).hasRoom ((s.pitch p).cfg p 0xC) = true → (s.pitch p).ring ((s.pitch p).cfg p 0xC) = some r →
        (s.pitch p).entryAddr p ((s.pitch p).cfg p 0xC) ((s.pitch p).qptr ((s.pitch p).cfg p 0xC)).tail = some a →
        ∃ t, exec (.nonCxtFrame rx) s = .next t ∧ t.read a 64 = s.excEntry reason rx ∧ SameOutside s t a 64 ∧
          ((t.pitch p).qptr ((s.pitch p).cfg p 0xC)).tail = ((s.pitch p).qptr ((s.pitch p).cfg p 0xC)).tail + 1 ∧
          (t.pitch p).counter .excPackets = (s.pitch p).counter .excPackets + 1 ∧
          sget t.fw.excUnread p.val 0 = sget s.fw.excUnread p.val 0 + 1 ∧ (∀ q, q ≠ p → t.pitch q = s.pitch q) ∧
          t = { s with pitches := t.pitches, mem := t.mem, hostOut := t.hostOut, hostPorts := t.hostPorts
                       fw := { s.fw with excUnread := t.fw.excUnread } })) ∧
    (∀ p, s.parse rx = .length p → ∃ t, exec (.nonCxtFrame rx) s = .next t ∧ (∀ q, q ≠ p → t.pitch q = s.pitch q) ∧
      (t.pitch p).counter .lenDrops = (s.pitch p).counter .lenDrops + 1 ∧ t.erg = s.erg ∧
      t.pitch p = { s.pitch p with mail := (t.pitch p).mail, queues := (t.pitch p).queues, counters := (t.pitch p).counters }) ∧
    (s.parse rx = .noPitch → exec (.nonCxtFrame rx) s = .next { s with glob := { s.glob with rxNoPitch := s.glob.rxNoPitch + 1 } }) ∧
    (s.parse rx = .macControl → exec (.macControlFrame rx) s = .next { s with
        netPorts := s.netPorts.set rx.port
          { s.netPorts[rx.port] with macCtrlDrops := s.netPorts[rx.port].macCtrlDrops + 1 } }) ∧
    (s.parse rx = .fcs → exec (.fcsFailedFrame rx) s = .next { s with
        netPorts := s.netPorts.set rx.port
          { s.netPorts[rx.port] with fcsDrops := s.netPorts[rx.port].fcsDrops + 1 } }) ∧
    (s.parse rx = .oversize → exec (.fcsFailedFrame rx) s = .next { s with
        netPorts := s.netPorts.set rx.port
          { s.netPorts[rx.port] with oversizeDrops := s.netPorts[rx.port].oversizeDrops + 1 } }) ∧
    (s.parse rx = .checksum → exec (.fcsFailedFrame rx) s = .next { s with
        netPorts := s.netPorts.set rx.port
          { s.netPorts[rx.port] with csumDrops := s.netPorts[rx.port].csumDrops + 1 } }) ∧
    (∀ p f d, Fresh s rx p f d →
      (f.kind = .reservedOpcode → ∃ t, exec (.reservedOpcodeFrame rx) s = .next t ∧ AcceptedQuietly p f s t ∧
        (t.pitch p).counter .nackSent = (s.pitch p).counter .nackSent + 1) ∧
      (f.kind = .reservedTarget → ∃ t, exec (.reservedTargetFrame rx) s = .next t ∧ AcceptedQuietly p f s t ∧
        (t.pitch p).counter .nackSent = (s.pitch p).counter .nackSent + 1)) ∧
    (∀ p f d, Received s rx p f d → f.kind = .reservedOpcode → f.data = false →
      exec (.reservedOpcodeFrame rx) s = .next (s.count p .misdirected))

/-! ## Values and bit streams (00 R9; 05 R105, R106) -/

/-- A packed bit stream is filled from bit 0 of byte 0 upward, a field of width w that begins at stream bit k holds its bit j at
stream bit k + j, and the reader takes the bits back in the same order. -/
def Obligations.BitStreamOrder : Prop :=
  (∀ (bits : List Bool) (k : Nat), ((bytesOfBits bits).getD (k / 8) 0).getLsbD (k % 8) = bits.getD k false) ∧
  (∀ (before after : List Bool) (w v j : Nat), j < w →
    ((bytesOfBits (before ++ bitsOfNat w v ++ after)).getD ((before.length + j) / 8) 0).getLsbD ((before.length + j) % 8) =
      v.testBit j) ∧
  ∀ (bs : Bytes) (k : Nat), (bitsOfBytes bs).getD k false = (bs.getD (k / 8) 0).getLsbD (k % 8)

/-- Adds into an ERG640 register are integer adds modulo 2^640: whatever the order and the partial sums, the register holds the
exact sum wherever that sum lies within the range of R105. -/
def Obligations.ErgAddsAreExact : Prop :=
  ∀ (a : W640) (xs : List W640),
    (xs.foldl ergAdd a).toInt = (a.toInt + (xs.map BitVec.toInt).sum).bmod (2 ^ 640) ∧
    (-2 ^ 639 ≤ a.toInt + (xs.map BitVec.toInt).sum → a.toInt + (xs.map BitVec.toInt).sum < 2 ^ 639 →
      (xs.foldl ergAdd a).toInt = a.toInt + (xs.map BitVec.toInt).sum) ∧
    ∀ ys : List W640, ys.Perm xs → ys.foldl ergAdd a = xs.foldl ergAdd a
end

