-- ==== Sys2Proof/Laws/Memory.lean ====
section
/-! SUPPORT. Memory: the canonical form, that every memory operation keeps it, and what a read gives after a write or an
erasure. -/

namespace Sys2Proof.Machine

/-- The canonical form as two plain facts: addresses strictly rise, and no entry equals the empty byte. -/
theorem wf_iff (m : List Host.Cell) :
    Memory.wf m ↔ m.Pairwise (fun c d => c.1 < d.1) ∧ ∀ c ∈ m, c.2 ≠ memEmpty := by
  induction m with
  | nil => simp [Memory.wf, cellsOk]
  | cons c m ih =>
    cases m with
    | nil => simp [Memory.wf, cellsOk]
    | cons d r =>
      have step : Memory.wf (c :: d :: r) ↔ c.2 ≠ memEmpty ∧ c.1 < d.1 ∧ Memory.wf (d :: r) := by
        simp [Memory.wf, cellsOk, and_assoc]
      rw [step, ih]
      constructor
      · rintro ⟨hc, hlt, hp, hn⟩
        refine ⟨List.pairwise_cons.2 ⟨?_, hp⟩, ?_⟩
        · intro e he
          rcases List.mem_cons.1 he with rfl | he
          · exact hlt
          · exact Nat.lt_trans hlt ((List.pairwise_cons.1 hp).1 e he)
        · intro e he
          rcases List.mem_cons.1 he with rfl | he
          · exact hc
          · exact hn e he
      · rintro ⟨hp, hn⟩
        have hp' := List.pairwise_cons.1 hp
        exact ⟨hn c (by simp), hp'.1 d (by simp), hp'.2, fun e he => hn e (List.mem_cons_of_mem _ he)⟩

/-- Memory with nothing listed. -/
theorem wf_nil : Memory.wf [] := rfl

/-- Every cell of a run lies in its range and differs from the empty byte. -/
theorem mem_cellsOf (bs : Bytes) : ∀ (a : Nat) (c : Host.Cell), c ∈ cellsOf a bs → a ≤ c.1 ∧ c.1 < a + bs.length ∧ c.2 ≠ memEmpty := by
  induction bs with
  | nil => intro a c h; simp [cellsOf] at h
  | cons b bs ih =>
    intro a c h
    by_cases hb : b = memEmpty
    · simp only [cellsOf, if_pos hb] at h
      have := ih (a + 1) c h
      exact ⟨by omega, by simp; omega, this.2.2⟩
    · simp only [cellsOf, if_neg hb, List.mem_cons] at h
      rcases h with rfl | h
      · exact ⟨Nat.le_refl a, by simp, hb⟩
      · have := ih (a + 1) c h
        exact ⟨by omega, by simp; omega, this.2.2⟩

/-- The cells of a run stand in strictly rising order. -/
theorem pairwise_cellsOf (bs : Bytes) : ∀ a : Nat, (cellsOf a bs).Pairwise (fun c d => c.1 < d.1) := by
  induction bs with
  | nil => intro a; simp [cellsOf]
  | cons b bs ih =>
    intro a
    by_cases hb : b = memEmpty
    · simpa only [cellsOf, if_pos hb] using ih (a + 1)
    · simp only [cellsOf, if_neg hb]
      refine List.pairwise_cons.2 ⟨?_, ih (a + 1)⟩
      intro d hd
      have := mem_cellsOf bs (a + 1) d hd
      show a < d.1
      omega

/-- A write keeps the canonical form. -/
theorem wf_memPut (m : List Host.Cell) (a : Nat) (bs : Bytes) (h : Memory.wf m) : Memory.wf (memPut m a bs) := by
  rw [wf_iff] at h ⊢
  obtain ⟨hp, hn⟩ := h
  constructor
  · unfold memPut
    refine List.pairwise_append.2 ⟨List.pairwise_append.2 ⟨hp.filter _, pairwise_cellsOf bs a, ?_⟩, hp.filter _, ?_⟩
    · intro c hc d hd
      have h1 := List.of_mem_filter hc
      have h2 := mem_cellsOf bs a d hd
      simp only [decide_eq_true_eq] at h1
      omega
    · intro c hc d hd
      have h2 := List.of_mem_filter hd
      simp only [decide_eq_true_eq] at h2
      rcases List.mem_append.1 hc with hc | hc
      · have h1 := List.of_mem_filter hc
        simp only [decide_eq_true_eq] at h1
        omega
      · have h1 := mem_cellsOf bs a c hc
        omega
  · intro c hc
    unfold memPut at hc
    rcases List.mem_append.1 hc with hc | hc
    · rcases List.mem_append.1 hc with hc | hc
      · exact hn c (List.mem_of_mem_filter hc)
      · exact (mem_cellsOf bs a c hc).2.2
    · exact hn c (List.mem_of_mem_filter hc)

/-- Erasing a range keeps the canonical form. -/
theorem wf_memErase (m : List Host.Cell) (a n : Nat) (h : Memory.wf m) : Memory.wf (memErase m a n) := by
  rw [wf_iff] at h ⊢
  obtain ⟨hp, hn⟩ := h
  constructor
  · refine List.pairwise_append.2 ⟨hp.filter _, hp.filter _, ?_⟩
    intro c hc d hd
    have h1 := List.of_mem_filter hc
    have h2 := List.of_mem_filter hd
    simp only [decide_eq_true_eq] at h1 h2
    omega
  · intro c hc
    rcases List.mem_append.1 hc with hc | hc <;> exact hn c (List.mem_of_mem_filter hc)

/-- Leaving out cells keeps the canonical form. -/
theorem wf_filter (m : List Host.Cell) (f : Host.Cell → Bool) (h : Memory.wf m) : Memory.wf (m.filter f) := by
  rw [wf_iff] at h ⊢
  exact ⟨h.1.filter _, fun c hc => h.2 c (List.mem_of_mem_filter hc)⟩

/-- Reading passes over cells at other addresses. -/
theorem memGet_append (m n : List Host.Cell) (a : Nat) :
    memGet (m ++ n) a = if ∃ c ∈ m, c.1 = a then memGet m a else memGet n a := by
  induction m with
  | nil => simp
  | cons c m ih =>
    by_cases h : c.1 = a
    · simp [memGet, h]
    · simp [memGet, h, ih]

/-- A list without the address reads as empty there. -/
theorem memGet_absent (m : List Host.Cell) (a : Nat) (h : ∀ c ∈ m, c.1 ≠ a) : memGet m a = memEmpty := by
  induction m with
  | nil => rfl
  | cons c m ih =>
    simp only [memGet, if_neg (h c (by simp))]
    exact ih (fun d hd => h d (List.mem_cons_of_mem _ hd))

/-- Filtering by address leaves the kept addresses as they are. -/
theorem memGet_filter (m : List Host.Cell) (f : Nat → Bool) (a : Nat) (h : f a = true) :
    memGet (m.filter (fun c => f c.1)) a = memGet m a := by
  induction m with
  | nil => rfl
  | cons c m ih =>
    by_cases hc : c.1 = a
    · have hf : f c.1 = true := by rw [hc]; exact h
      rw [List.filter_cons_of_pos (p := fun c : Host.Cell => f c.1) hf]
      simp [memGet, hc]
    · by_cases hf : f c.1 = true
      · simp [List.filter, hf, memGet, hc, ih]
      · simp [List.filter, hf, memGet, hc, ih]

/-- A run reads back as the bytes it was made of. -/
theorem memGet_cellsOf (bs : Bytes) : ∀ (a i : Nat), i < bs.length → memGet (cellsOf a bs) (a + i) = bs.getD i memEmpty := by
  induction bs with
  | nil => intro a i h; simp at h
  | cons b bs ih =>
    intro a i h
    cases i with
    | zero =>
      by_cases hb : b = memEmpty
      · simp only [cellsOf, Nat.add_zero, List.getD_cons_zero, hb]
        exact memGet_absent _ _ (fun c hc => by have := mem_cellsOf bs (a + 1) c hc; omega)
      · simp [cellsOf, hb, memGet]
    | succ i =>
      have h' : i < bs.length := by simpa using h
      have e : a + (i + 1) = a + 1 + i := by omega
      by_cases hb : b = memEmpty
      · simp only [cellsOf, if_pos hb, List.getD_cons_succ, e]
        exact ih (a + 1) i h'
      · simp only [cellsOf, if_neg hb, memGet, List.getD_cons_succ]
        rw [if_neg (by omega), e]
        exact ih (a + 1) i h'

/-- Read after write, inside the range: the byte written. -/
theorem memGet_memPut_in (m : List Host.Cell) (a i : Nat) (bs : Bytes) (h : i < bs.length) :
    memGet (memPut m a bs) (a + i) = bs.getD i memEmpty := by
  unfold memPut
  rw [List.append_assoc, memGet_append, if_neg, memGet_append]
  · by_cases hc : ∃ c ∈ cellsOf a bs, c.1 = a + i
    · rw [if_pos hc, memGet_cellsOf bs a i h]
    · rw [if_neg hc]
      have h1 := memGet_absent (cellsOf a bs) (a + i) (fun c hm e => hc ⟨c, hm, e⟩)
      rw [memGet_cellsOf bs a i h] at h1
      rw [h1]
      refine memGet_absent _ _ (fun c hm => ?_)
      have := List.of_mem_filter hm
      simp only [decide_eq_true_eq] at this
      omega
  · rintro ⟨c, hm, e⟩
    have := List.of_mem_filter hm
    simp only [decide_eq_true_eq] at this
    omega

/-- Read after write, outside the range: as before. -/
theorem memGet_memPut_out (m : List Host.Cell) (a b : Nat) (bs : Bytes) (h : b < a ∨ a + bs.length ≤ b) :
    memGet (memPut m a bs) b = memGet m b := by
  have hmid : ∀ c ∈ cellsOf a bs, c.1 ≠ b := fun c hc => by have := mem_cellsOf bs a c hc; omega
  unfold memPut
  rcases h with h | h
  · have hleft := memGet_filter m (fun k => decide (k < a)) b (by simpa using h)
    rw [List.append_assoc, memGet_append]
    split
    · exact hleft
    · rename_i hc
      have h0 : memGet m b = memEmpty := by
        rw [← hleft]; exact memGet_absent _ _ (fun c hm e => hc ⟨c, hm, e⟩)
      rw [memGet_append, if_neg (fun ⟨c, hm, e⟩ => hmid c hm e), h0]
      refine memGet_absent _ _ (fun c hm => ?_)
      have := List.of_mem_filter hm
      simp only [decide_eq_true_eq] at this
      omega
  · rw [List.append_assoc, memGet_append, if_neg, memGet_append, if_neg (fun ⟨c, hm, e⟩ => hmid c hm e)]
    · exact memGet_filter m (fun k => decide (a + bs.length ≤ k)) b (by simpa using h)
    · rintro ⟨c, hm, e⟩
      have := List.of_mem_filter hm
      simp only [decide_eq_true_eq] at this
      omega

/-- An erased range reads as empty. -/
theorem memGet_memErase_in (m : List Host.Cell) (a n b : Nat) (h : a ≤ b ∧ b < a + n) : memGet (memErase m a n) b = memEmpty := by
  refine memGet_absent _ _ (fun c hc => ?_)
  unfold memErase at hc
  rcases List.mem_append.1 hc with hc | hc <;>
  · have := List.of_mem_filter hc
    simp only [decide_eq_true_eq] at this
    omega

/-- Outside an erased range memory reads as before. -/
theorem memGet_memErase_out (m : List Host.Cell) (a n b : Nat) (h : b < a ∨ a + n ≤ b) :
    memGet (memErase m a n) b = memGet m b := by
  unfold memErase
  rw [memGet_append]
  rcases h with h | h
  · have hleft := memGet_filter m (fun k => decide (k < a)) b (by simpa using h)
    split
    · exact hleft
    · rename_i hc
      have h0 : memGet m b = memEmpty := by
        rw [← hleft]; exact memGet_absent _ _ (fun c hm e => hc ⟨c, hm, e⟩)
      rw [h0]
      refine memGet_absent _ _ (fun c hm => ?_)
      have := List.of_mem_filter hm
      simp only [decide_eq_true_eq] at this
      omega
  · rw [if_neg]
    · exact memGet_filter m (fun k => decide (a + n ≤ k)) b (by simpa using h)
    · rintro ⟨c, hm, e⟩
      have := List.of_mem_filter hm
      simp only [decide_eq_true_eq] at this
      omega

/-- State.write keeps the canonical form. -/
theorem State.wf_write (s : State) (a : Nat) (bs : Bytes) (h : Memory.wf s.mem) : Memory.wf (s.write a bs).mem := wf_memPut _ _ _ h

/-- State.erase keeps the canonical form. -/
theorem State.wf_erase (s : State) (a n : Nat) (h : Memory.wf s.mem) : Memory.wf (s.erase a n).mem := wf_memErase _ _ _ h

/-- State.eraseAll keeps the canonical form. -/
theorem State.wf_eraseAll (rs : List (Nat × Nat)) : ∀ s : State, Memory.wf s.mem → Memory.wf (s.eraseAll rs).mem := by
  induction rs with
  | nil => intro s h; exact h
  | cons r rs ih => intro s h; exact ih (s.erase r.1 r.2) (State.wf_erase s _ _ h)

/-- State.write changes no byte outside the run. -/
theorem State.byte_write_out (s : State) (a b : Nat) (bs : Bytes) (h : b < a ∨ a + bs.length ≤ b) :
    (s.write a bs).byte b = s.byte b := memGet_memPut_out _ _ _ _ h

/-- State.write stores the run. -/
theorem State.byte_write_in (s : State) (a i : Nat) (bs : Bytes) (h : i < bs.length) :
    (s.write a bs).byte (a + i) = bs.getD i memEmpty := memGet_memPut_in _ _ _ _ h

end Sys2Proof.Machine
end

