-- ==== Sys2Proof/Laws/State.lean ====
section
/-! SUPPORT. One lemma per field and update of the state, so that no later proof unfolds a record update. -/

namespace Sys2Proof.Machine

/-! ## State.setPitch -/

@[simp] theorem State.setPitch_pitches (s : State) (p : PitchId) (x : Pitch) : (s.setPitch p x).pitches = s.pitches.set p x := rfl
@[simp] theorem State.setPitch_retained (s : State) (p : PitchId) (x : Pitch) : (s.setPitch p x).retained = s.retained := rfl
@[simp] theorem State.setPitch_mem (s : State) (p : PitchId) (x : Pitch) : (s.setPitch p x).mem = s.mem := rfl
@[simp] theorem State.setPitch_erg (s : State) (p : PitchId) (x : Pitch) : (s.setPitch p x).erg = s.erg := rfl
@[simp] theorem State.setPitch_hostPorts (s : State) (p : PitchId) (x : Pitch) : (s.setPitch p x).hostPorts = s.hostPorts := rfl
@[simp] theorem State.setPitch_netPorts (s : State) (p : PitchId) (x : Pitch) : (s.setPitch p x).netPorts = s.netPorts := rfl
@[simp] theorem State.setPitch_clusters (s : State) (p : PitchId) (x : Pitch) : (s.setPitch p x).clusters = s.clusters := rfl
@[simp] theorem State.setPitch_hostOut (s : State) (p : PitchId) (x : Pitch) : (s.setPitch p x).hostOut = s.hostOut := rfl
@[simp] theorem State.setPitch_netOut (s : State) (p : PitchId) (x : Pitch) : (s.setPitch p x).netOut = s.netOut := rfl
@[simp] theorem State.setPitch_dma (s : State) (p : PitchId) (x : Pitch) : (s.setPitch p x).dma = s.dma := rfl
@[simp] theorem State.setPitch_dmaTag (s : State) (p : PitchId) (x : Pitch) : (s.setPitch p x).dmaTag = s.dmaTag := rfl
@[simp] theorem State.setPitch_latched (s : State) (p : PitchId) (x : Pitch) : (s.setPitch p x).latched = s.latched := rfl
@[simp] theorem State.setPitch_glob (s : State) (p : PitchId) (x : Pitch) : (s.setPitch p x).glob = s.glob := rfl
@[simp] theorem State.setPitch_fw (s : State) (p : PitchId) (x : Pitch) : (s.setPitch p x).fw = s.fw := rfl
@[simp] theorem State.setPitch_flash (s : State) (p : PitchId) (x : Pitch) : (s.setPitch p x).flash = s.flash := rfl
@[simp] theorem State.setPitch_fuses (s : State) (p : PitchId) (x : Pitch) : (s.setPitch p x).fuses = s.fuses := rfl
@[simp] theorem State.setPitch_prov (s : State) (p : PitchId) (x : Pitch) : (s.setPitch p x).prov = s.prov := rfl
@[simp] theorem State.setPitch_sec (s : State) (p : PitchId) (x : Pitch) : (s.setPitch p x).sec = s.sec := rfl
@[simp] theorem State.setPitch_power (s : State) (p : PitchId) (x : Pitch) : (s.setPitch p x).power = s.power := rfl
@[simp] theorem State.setPitch_health (s : State) (p : PitchId) (x : Pitch) : (s.setPitch p x).health = s.health := rfl
@[simp] theorem State.setPitch_ptp (s : State) (p : PitchId) (x : Pitch) : (s.setPitch p x).ptp = s.ptp := rfl
@[simp] theorem State.setPitch_tap (s : State) (p : PitchId) (x : Pitch) : (s.setPitch p x).tap = s.tap := rfl
@[simp] theorem State.setPitch_cclk (s : State) (p : PitchId) (x : Pitch) : (s.setPitch p x).cclk = s.cclk := rfl
@[simp] theorem State.setPitch_held (s : State) (p : PitchId) (x : Pitch) : (s.setPitch p x).held = s.held := rfl
@[simp] theorem State.setPitch_free (s : State) (p : PitchId) (x : Pitch) : (s.setPitch p x).free = s.free := rfl
@[simp] theorem State.setPitch_pending (s : State) (p : PitchId) (x : Pitch) : (s.setPitch p x).pending = s.pending := rfl

/-! ## State.modPitch -/

@[simp] theorem State.modPitch_pitches (s : State) (p : PitchId) (f : Pitch → Pitch) : (s.modPitch p f).pitches = s.pitches.set p (f (s.pitch p)) := rfl
@[simp] theorem State.modPitch_retained (s : State) (p : PitchId) (f : Pitch → Pitch) : (s.modPitch p f).retained = s.retained := rfl
@[simp] theorem State.modPitch_mem (s : State) (p : PitchId) (f : Pitch → Pitch) : (s.modPitch p f).mem = s.mem := rfl
@[simp] theorem State.modPitch_erg (s : State) (p : PitchId) (f : Pitch → Pitch) : (s.modPitch p f).erg = s.erg := rfl
@[simp] theorem State.modPitch_hostPorts (s : State) (p : PitchId) (f : Pitch → Pitch) : (s.modPitch p f).hostPorts = s.hostPorts := rfl
@[simp] theorem State.modPitch_netPorts (s : State) (p : PitchId) (f : Pitch → Pitch) : (s.modPitch p f).netPorts = s.netPorts := rfl
@[simp] theorem State.modPitch_clusters (s : State) (p : PitchId) (f : Pitch → Pitch) : (s.modPitch p f).clusters = s.clusters := rfl
@[simp] theorem State.modPitch_hostOut (s : State) (p : PitchId) (f : Pitch → Pitch) : (s.modPitch p f).hostOut = s.hostOut := rfl
@[simp] theorem State.modPitch_netOut (s : State) (p : PitchId) (f : Pitch → Pitch) : (s.modPitch p f).netOut = s.netOut := rfl
@[simp] theorem State.modPitch_dma (s : State) (p : PitchId) (f : Pitch → Pitch) : (s.modPitch p f).dma = s.dma := rfl
@[simp] theorem State.modPitch_dmaTag (s : State) (p : PitchId) (f : Pitch → Pitch) : (s.modPitch p f).dmaTag = s.dmaTag := rfl
@[simp] theorem State.modPitch_latched (s : State) (p : PitchId) (f : Pitch → Pitch) : (s.modPitch p f).latched = s.latched := rfl
@[simp] theorem State.modPitch_glob (s : State) (p : PitchId) (f : Pitch → Pitch) : (s.modPitch p f).glob = s.glob := rfl
@[simp] theorem State.modPitch_fw (s : State) (p : PitchId) (f : Pitch → Pitch) : (s.modPitch p f).fw = s.fw := rfl
@[simp] theorem State.modPitch_flash (s : State) (p : PitchId) (f : Pitch → Pitch) : (s.modPitch p f).flash = s.flash := rfl
@[simp] theorem State.modPitch_fuses (s : State) (p : PitchId) (f : Pitch → Pitch) : (s.modPitch p f).fuses = s.fuses := rfl
@[simp] theorem State.modPitch_prov (s : State) (p : PitchId) (f : Pitch → Pitch) : (s.modPitch p f).prov = s.prov := rfl
@[simp] theorem State.modPitch_sec (s : State) (p : PitchId) (f : Pitch → Pitch) : (s.modPitch p f).sec = s.sec := rfl
@[simp] theorem State.modPitch_power (s : State) (p : PitchId) (f : Pitch → Pitch) : (s.modPitch p f).power = s.power := rfl
@[simp] theorem State.modPitch_health (s : State) (p : PitchId) (f : Pitch → Pitch) : (s.modPitch p f).health = s.health := rfl
@[simp] theorem State.modPitch_ptp (s : State) (p : PitchId) (f : Pitch → Pitch) : (s.modPitch p f).ptp = s.ptp := rfl
@[simp] theorem State.modPitch_tap (s : State) (p : PitchId) (f : Pitch → Pitch) : (s.modPitch p f).tap = s.tap := rfl
@[simp] theorem State.modPitch_cclk (s : State) (p : PitchId) (f : Pitch → Pitch) : (s.modPitch p f).cclk = s.cclk := rfl
@[simp] theorem State.modPitch_held (s : State) (p : PitchId) (f : Pitch → Pitch) : (s.modPitch p f).held = s.held := rfl
@[simp] theorem State.modPitch_free (s : State) (p : PitchId) (f : Pitch → Pitch) : (s.modPitch p f).free = s.free := rfl
@[simp] theorem State.modPitch_pending (s : State) (p : PitchId) (f : Pitch → Pitch) : (s.modPitch p f).pending = s.pending := rfl

/-! ## State.count -/

@[simp] theorem State.count_pitches (s : State) (p : PitchId) (c : PCtr) (n : Nat) : (s.count p c n).pitches = s.pitches.set p ((s.pitch p).count c n) := rfl
@[simp] theorem State.count_retained (s : State) (p : PitchId) (c : PCtr) (n : Nat) : (s.count p c n).retained = s.retained := rfl
@[simp] theorem State.count_mem (s : State) (p : PitchId) (c : PCtr) (n : Nat) : (s.count p c n).mem = s.mem := rfl
@[simp] theorem State.count_erg (s : State) (p : PitchId) (c : PCtr) (n : Nat) : (s.count p c n).erg = s.erg := rfl
@[simp] theorem State.count_hostPorts (s : State) (p : PitchId) (c : PCtr) (n : Nat) : (s.count p c n).hostPorts = s.hostPorts := rfl
@[simp] theorem State.count_netPorts (s : State) (p : PitchId) (c : PCtr) (n : Nat) : (s.count p c n).netPorts = s.netPorts := rfl
@[simp] theorem State.count_clusters (s : State) (p : PitchId) (c : PCtr) (n : Nat) : (s.count p c n).clusters = s.clusters := rfl
@[simp] theorem State.count_hostOut (s : State) (p : PitchId) (c : PCtr) (n : Nat) : (s.count p c n).hostOut = s.hostOut := rfl
@[simp] theorem State.count_netOut (s : State) (p : PitchId) (c : PCtr) (n : Nat) : (s.count p c n).netOut = s.netOut := rfl
@[simp] theorem State.count_dma (s : State) (p : PitchId) (c : PCtr) (n : Nat) : (s.count p c n).dma = s.dma := rfl
@[simp] theorem State.count_dmaTag (s : State) (p : PitchId) (c : PCtr) (n : Nat) : (s.count p c n).dmaTag = s.dmaTag := rfl
@[simp] theorem State.count_latched (s : State) (p : PitchId) (c : PCtr) (n : Nat) : (s.count p c n).latched = s.latched := rfl
@[simp] theorem State.count_glob (s : State) (p : PitchId) (c : PCtr) (n : Nat) : (s.count p c n).glob = s.glob := rfl
@[simp] theorem State.count_fw (s : State) (p : PitchId) (c : PCtr) (n : Nat) : (s.count p c n).fw = s.fw := rfl
@[simp] theorem State.count_flash (s : State) (p : PitchId) (c : PCtr) (n : Nat) : (s.count p c n).flash = s.flash := rfl
@[simp] theorem State.count_fuses (s : State) (p : PitchId) (c : PCtr) (n : Nat) : (s.count p c n).fuses = s.fuses := rfl
@[simp] theorem State.count_prov (s : State) (p : PitchId) (c : PCtr) (n : Nat) : (s.count p c n).prov = s.prov := rfl
@[simp] theorem State.count_sec (s : State) (p : PitchId) (c : PCtr) (n : Nat) : (s.count p c n).sec = s.sec := rfl
@[simp] theorem State.count_power (s : State) (p : PitchId) (c : PCtr) (n : Nat) : (s.count p c n).power = s.power := rfl
@[simp] theorem State.count_health (s : State) (p : PitchId) (c : PCtr) (n : Nat) : (s.count p c n).health = s.health := rfl
@[simp] theorem State.count_ptp (s : State) (p : PitchId) (c : PCtr) (n : Nat) : (s.count p c n).ptp = s.ptp := rfl
@[simp] theorem State.count_tap (s : State) (p : PitchId) (c : PCtr) (n : Nat) : (s.count p c n).tap = s.tap := rfl
@[simp] theorem State.count_cclk (s : State) (p : PitchId) (c : PCtr) (n : Nat) : (s.count p c n).cclk = s.cclk := rfl
@[simp] theorem State.count_held (s : State) (p : PitchId) (c : PCtr) (n : Nat) : (s.count p c n).held = s.held := rfl
@[simp] theorem State.count_free (s : State) (p : PitchId) (c : PCtr) (n : Nat) : (s.count p c n).free = s.free := rfl
@[simp] theorem State.count_pending (s : State) (p : PitchId) (c : PCtr) (n : Nat) : (s.count p c n).pending = s.pending := rfl

/-! ## State.write -/

@[simp] theorem State.write_pitches (s : State) (a : Nat) (bs : Bytes) : (s.write a bs).pitches = s.pitches := rfl
@[simp] theorem State.write_retained (s : State) (a : Nat) (bs : Bytes) : (s.write a bs).retained = s.retained := rfl
@[simp] theorem State.write_mem (s : State) (a : Nat) (bs : Bytes) : (s.write a bs).mem = memPut s.mem a bs := rfl
@[simp] theorem State.write_erg (s : State) (a : Nat) (bs : Bytes) : (s.write a bs).erg = s.erg := rfl
@[simp] theorem State.write_hostPorts (s : State) (a : Nat) (bs : Bytes) : (s.write a bs).hostPorts = s.hostPorts := rfl
@[simp] theorem State.write_netPorts (s : State) (a : Nat) (bs : Bytes) : (s.write a bs).netPorts = s.netPorts := rfl
@[simp] theorem State.write_clusters (s : State) (a : Nat) (bs : Bytes) : (s.write a bs).clusters = s.clusters := rfl
@[simp] theorem State.write_hostOut (s : State) (a : Nat) (bs : Bytes) : (s.write a bs).hostOut = s.hostOut := rfl
@[simp] theorem State.write_netOut (s : State) (a : Nat) (bs : Bytes) : (s.write a bs).netOut = s.netOut := rfl
@[simp] theorem State.write_dma (s : State) (a : Nat) (bs : Bytes) : (s.write a bs).dma = s.dma := rfl
@[simp] theorem State.write_dmaTag (s : State) (a : Nat) (bs : Bytes) : (s.write a bs).dmaTag = s.dmaTag := rfl
@[simp] theorem State.write_latched (s : State) (a : Nat) (bs : Bytes) : (s.write a bs).latched = s.latched := rfl
@[simp] theorem State.write_glob (s : State) (a : Nat) (bs : Bytes) : (s.write a bs).glob = s.glob := rfl
@[simp] theorem State.write_fw (s : State) (a : Nat) (bs : Bytes) : (s.write a bs).fw = s.fw := rfl
@[simp] theorem State.write_flash (s : State) (a : Nat) (bs : Bytes) : (s.write a bs).flash = s.flash := rfl
@[simp] theorem State.write_fuses (s : State) (a : Nat) (bs : Bytes) : (s.write a bs).fuses = s.fuses := rfl
@[simp] theorem State.write_prov (s : State) (a : Nat) (bs : Bytes) : (s.write a bs).prov = s.prov := rfl
@[simp] theorem State.write_sec (s : State) (a : Nat) (bs : Bytes) : (s.write a bs).sec = s.sec := rfl
@[simp] theorem State.write_power (s : State) (a : Nat) (bs : Bytes) : (s.write a bs).power = s.power := rfl
@[simp] theorem State.write_health (s : State) (a : Nat) (bs : Bytes) : (s.write a bs).health = s.health := rfl
@[simp] theorem State.write_ptp (s : State) (a : Nat) (bs : Bytes) : (s.write a bs).ptp = s.ptp := rfl
@[simp] theorem State.write_tap (s : State) (a : Nat) (bs : Bytes) : (s.write a bs).tap = s.tap := rfl
@[simp] theorem State.write_cclk (s : State) (a : Nat) (bs : Bytes) : (s.write a bs).cclk = s.cclk := rfl
@[simp] theorem State.write_held (s : State) (a : Nat) (bs : Bytes) : (s.write a bs).held = s.held := rfl
@[simp] theorem State.write_free (s : State) (a : Nat) (bs : Bytes) : (s.write a bs).free = s.free := rfl
@[simp] theorem State.write_pending (s : State) (a : Nat) (bs : Bytes) : (s.write a bs).pending = s.pending := rfl

/-! ## State.erase -/

@[simp] theorem State.erase_pitches (s : State) (a n : Nat) : (s.erase a n).pitches = s.pitches := rfl
@[simp] theorem State.erase_retained (s : State) (a n : Nat) : (s.erase a n).retained = s.retained := rfl
@[simp] theorem State.erase_mem (s : State) (a n : Nat) : (s.erase a n).mem = memErase s.mem a n := rfl
@[simp] theorem State.erase_erg (s : State) (a n : Nat) : (s.erase a n).erg = s.erg := rfl
@[simp] theorem State.erase_hostPorts (s : State) (a n : Nat) : (s.erase a n).hostPorts = s.hostPorts := rfl
@[simp] theorem State.erase_netPorts (s : State) (a n : Nat) : (s.erase a n).netPorts = s.netPorts := rfl
@[simp] theorem State.erase_clusters (s : State) (a n : Nat) : (s.erase a n).clusters = s.clusters := rfl
@[simp] theorem State.erase_hostOut (s : State) (a n : Nat) : (s.erase a n).hostOut = s.hostOut := rfl
@[simp] theorem State.erase_netOut (s : State) (a n : Nat) : (s.erase a n).netOut = s.netOut := rfl
@[simp] theorem State.erase_dma (s : State) (a n : Nat) : (s.erase a n).dma = s.dma := rfl
@[simp] theorem State.erase_dmaTag (s : State) (a n : Nat) : (s.erase a n).dmaTag = s.dmaTag := rfl
@[simp] theorem State.erase_latched (s : State) (a n : Nat) : (s.erase a n).latched = s.latched := rfl
@[simp] theorem State.erase_glob (s : State) (a n : Nat) : (s.erase a n).glob = s.glob := rfl
@[simp] theorem State.erase_fw (s : State) (a n : Nat) : (s.erase a n).fw = s.fw := rfl
@[simp] theorem State.erase_flash (s : State) (a n : Nat) : (s.erase a n).flash = s.flash := rfl
@[simp] theorem State.erase_fuses (s : State) (a n : Nat) : (s.erase a n).fuses = s.fuses := rfl
@[simp] theorem State.erase_prov (s : State) (a n : Nat) : (s.erase a n).prov = s.prov := rfl
@[simp] theorem State.erase_sec (s : State) (a n : Nat) : (s.erase a n).sec = s.sec := rfl
@[simp] theorem State.erase_power (s : State) (a n : Nat) : (s.erase a n).power = s.power := rfl
@[simp] theorem State.erase_health (s : State) (a n : Nat) : (s.erase a n).health = s.health := rfl
@[simp] theorem State.erase_ptp (s : State) (a n : Nat) : (s.erase a n).ptp = s.ptp := rfl
@[simp] theorem State.erase_tap (s : State) (a n : Nat) : (s.erase a n).tap = s.tap := rfl
@[simp] theorem State.erase_cclk (s : State) (a n : Nat) : (s.erase a n).cclk = s.cclk := rfl
@[simp] theorem State.erase_held (s : State) (a n : Nat) : (s.erase a n).held = s.held := rfl
@[simp] theorem State.erase_free (s : State) (a n : Nat) : (s.erase a n).free = s.free := rfl
@[simp] theorem State.erase_pending (s : State) (a n : Nat) : (s.erase a n).pending = s.pending := rfl

/-! ## State.advanceTo -/

@[simp] theorem State.advanceTo_pitches (s : State) (c : Nat) : (s.advanceTo c).pitches = s.pitches := rfl
@[simp] theorem State.advanceTo_retained (s : State) (c : Nat) : (s.advanceTo c).retained = s.retained := rfl
@[simp] theorem State.advanceTo_mem (s : State) (c : Nat) : (s.advanceTo c).mem = s.mem := rfl
@[simp] theorem State.advanceTo_erg (s : State) (c : Nat) : (s.advanceTo c).erg = s.erg := rfl
@[simp] theorem State.advanceTo_hostPorts (s : State) (c : Nat) : (s.advanceTo c).hostPorts = s.hostPorts := rfl
@[simp] theorem State.advanceTo_netPorts (s : State) (c : Nat) : (s.advanceTo c).netPorts = s.netPorts := rfl
@[simp] theorem State.advanceTo_clusters (s : State) (c : Nat) : (s.advanceTo c).clusters = s.clusters := rfl
@[simp] theorem State.advanceTo_hostOut (s : State) (c : Nat) : (s.advanceTo c).hostOut = s.hostOut := rfl
@[simp] theorem State.advanceTo_netOut (s : State) (c : Nat) : (s.advanceTo c).netOut = s.netOut := rfl
@[simp] theorem State.advanceTo_dma (s : State) (c : Nat) : (s.advanceTo c).dma = s.dma := rfl
@[simp] theorem State.advanceTo_dmaTag (s : State) (c : Nat) : (s.advanceTo c).dmaTag = s.dmaTag := rfl
@[simp] theorem State.advanceTo_latched (s : State) (c : Nat) : (s.advanceTo c).latched = s.latched := rfl
@[simp] theorem State.advanceTo_glob (s : State) (c : Nat) : (s.advanceTo c).glob = s.glob := rfl
@[simp] theorem State.advanceTo_fw (s : State) (c : Nat) : (s.advanceTo c).fw = s.fw := rfl
@[simp] theorem State.advanceTo_flash (s : State) (c : Nat) : (s.advanceTo c).flash = s.flash := rfl
@[simp] theorem State.advanceTo_fuses (s : State) (c : Nat) : (s.advanceTo c).fuses = s.fuses := rfl
@[simp] theorem State.advanceTo_prov (s : State) (c : Nat) : (s.advanceTo c).prov = s.prov := rfl
@[simp] theorem State.advanceTo_sec (s : State) (c : Nat) : (s.advanceTo c).sec = s.sec := rfl
@[simp] theorem State.advanceTo_power (s : State) (c : Nat) : (s.advanceTo c).power = s.power := rfl
@[simp] theorem State.advanceTo_health (s : State) (c : Nat) : (s.advanceTo c).health = s.health := rfl
@[simp] theorem State.advanceTo_ptp (s : State) (c : Nat) : (s.advanceTo c).ptp = s.ptp := rfl
@[simp] theorem State.advanceTo_tap (s : State) (c : Nat) : (s.advanceTo c).tap = s.tap := rfl
@[simp] theorem State.advanceTo_cclk (s : State) (c : Nat) : (s.advanceTo c).cclk = max s.cclk c := rfl
@[simp] theorem State.advanceTo_held (s : State) (c : Nat) : (s.advanceTo c).held = s.held := rfl
@[simp] theorem State.advanceTo_free (s : State) (c : Nat) : (s.advanceTo c).free = s.free := rfl
@[simp] theorem State.advanceTo_pending (s : State) (c : Nat) : (s.advanceTo c).pending = s.pending := rfl

/-! ## State.ergSet -/

@[simp] theorem State.ergSet_pitches (s : State) (g : Nat) (v : W640) : (s.ergSet g v).pitches = s.pitches := rfl
@[simp] theorem State.ergSet_retained (s : State) (g : Nat) (v : W640) : (s.ergSet g v).retained = s.retained := rfl
@[simp] theorem State.ergSet_mem (s : State) (g : Nat) (v : W640) : (s.ergSet g v).mem = s.mem := rfl
@[simp] theorem State.ergSet_erg (s : State) (g : Nat) (v : W640) : (s.ergSet g v).erg = sset s.erg g v 0 := rfl
@[simp] theorem State.ergSet_hostPorts (s : State) (g : Nat) (v : W640) : (s.ergSet g v).hostPorts = s.hostPorts := rfl
@[simp] theorem State.ergSet_netPorts (s : State) (g : Nat) (v : W640) : (s.ergSet g v).netPorts = s.netPorts := rfl
@[simp] theorem State.ergSet_clusters (s : State) (g : Nat) (v : W640) : (s.ergSet g v).clusters = s.clusters := rfl
@[simp] theorem State.ergSet_hostOut (s : State) (g : Nat) (v : W640) : (s.ergSet g v).hostOut = s.hostOut := rfl
@[simp] theorem State.ergSet_netOut (s : State) (g : Nat) (v : W640) : (s.ergSet g v).netOut = s.netOut := rfl
@[simp] theorem State.ergSet_dma (s : State) (g : Nat) (v : W640) : (s.ergSet g v).dma = s.dma := rfl
@[simp] theorem State.ergSet_dmaTag (s : State) (g : Nat) (v : W640) : (s.ergSet g v).dmaTag = s.dmaTag := rfl
@[simp] theorem State.ergSet_latched (s : State) (g : Nat) (v : W640) : (s.ergSet g v).latched = s.latched := rfl
@[simp] theorem State.ergSet_glob (s : State) (g : Nat) (v : W640) : (s.ergSet g v).glob = s.glob := rfl
@[simp] theorem State.ergSet_fw (s : State) (g : Nat) (v : W640) : (s.ergSet g v).fw = s.fw := rfl
@[simp] theorem State.ergSet_flash (s : State) (g : Nat) (v : W640) : (s.ergSet g v).flash = s.flash := rfl
@[simp] theorem State.ergSet_fuses (s : State) (g : Nat) (v : W640) : (s.ergSet g v).fuses = s.fuses := rfl
@[simp] theorem State.ergSet_prov (s : State) (g : Nat) (v : W640) : (s.ergSet g v).prov = s.prov := rfl
@[simp] theorem State.ergSet_sec (s : State) (g : Nat) (v : W640) : (s.ergSet g v).sec = s.sec := rfl
@[simp] theorem State.ergSet_power (s : State) (g : Nat) (v : W640) : (s.ergSet g v).power = s.power := rfl
@[simp] theorem State.ergSet_health (s : State) (g : Nat) (v : W640) : (s.ergSet g v).health = s.health := rfl
@[simp] theorem State.ergSet_ptp (s : State) (g : Nat) (v : W640) : (s.ergSet g v).ptp = s.ptp := rfl
@[simp] theorem State.ergSet_tap (s : State) (g : Nat) (v : W640) : (s.ergSet g v).tap = s.tap := rfl
@[simp] theorem State.ergSet_cclk (s : State) (g : Nat) (v : W640) : (s.ergSet g v).cclk = s.cclk := rfl
@[simp] theorem State.ergSet_held (s : State) (g : Nat) (v : W640) : (s.ergSet g v).held = s.held := rfl
@[simp] theorem State.ergSet_free (s : State) (g : Nat) (v : W640) : (s.ergSet g v).free = s.free := rfl
@[simp] theorem State.ergSet_pending (s : State) (g : Nat) (v : W640) : (s.ergSet g v).pending = s.pending := rfl

/-! ## State.ergAddTo -/

@[simp] theorem State.ergAddTo_pitches (s : State) (g : Nat) (v : W640) : (s.ergAddTo g v).pitches = s.pitches := rfl
@[simp] theorem State.ergAddTo_retained (s : State) (g : Nat) (v : W640) : (s.ergAddTo g v).retained = s.retained := rfl
@[simp] theorem State.ergAddTo_mem (s : State) (g : Nat) (v : W640) : (s.ergAddTo g v).mem = s.mem := rfl
@[simp] theorem State.ergAddTo_erg (s : State) (g : Nat) (v : W640) : (s.ergAddTo g v).erg = sset s.erg g (ergAdd (s.ergGet g) v) 0 := rfl
@[simp] theorem State.ergAddTo_hostPorts (s : State) (g : Nat) (v : W640) : (s.ergAddTo g v).hostPorts = s.hostPorts := rfl
@[simp] theorem State.ergAddTo_netPorts (s : State) (g : Nat) (v : W640) : (s.ergAddTo g v).netPorts = s.netPorts := rfl
@[simp] theorem State.ergAddTo_clusters (s : State) (g : Nat) (v : W640) : (s.ergAddTo g v).clusters = s.clusters := rfl
@[simp] theorem State.ergAddTo_hostOut (s : State) (g : Nat) (v : W640) : (s.ergAddTo g v).hostOut = s.hostOut := rfl
@[simp] theorem State.ergAddTo_netOut (s : State) (g : Nat) (v : W640) : (s.ergAddTo g v).netOut = s.netOut := rfl
@[simp] theorem State.ergAddTo_dma (s : State) (g : Nat) (v : W640) : (s.ergAddTo g v).dma = s.dma := rfl
@[simp] theorem State.ergAddTo_dmaTag (s : State) (g : Nat) (v : W640) : (s.ergAddTo g v).dmaTag = s.dmaTag := rfl
@[simp] theorem State.ergAddTo_latched (s : State) (g : Nat) (v : W640) : (s.ergAddTo g v).latched = s.latched := rfl
@[simp] theorem State.ergAddTo_glob (s : State) (g : Nat) (v : W640) : (s.ergAddTo g v).glob = s.glob := rfl
@[simp] theorem State.ergAddTo_fw (s : State) (g : Nat) (v : W640) : (s.ergAddTo g v).fw = s.fw := rfl
@[simp] theorem State.ergAddTo_flash (s : State) (g : Nat) (v : W640) : (s.ergAddTo g v).flash = s.flash := rfl
@[simp] theorem State.ergAddTo_fuses (s : State) (g : Nat) (v : W640) : (s.ergAddTo g v).fuses = s.fuses := rfl
@[simp] theorem State.ergAddTo_prov (s : State) (g : Nat) (v : W640) : (s.ergAddTo g v).prov = s.prov := rfl
@[simp] theorem State.ergAddTo_sec (s : State) (g : Nat) (v : W640) : (s.ergAddTo g v).sec = s.sec := rfl
@[simp] theorem State.ergAddTo_power (s : State) (g : Nat) (v : W640) : (s.ergAddTo g v).power = s.power := rfl
@[simp] theorem State.ergAddTo_health (s : State) (g : Nat) (v : W640) : (s.ergAddTo g v).health = s.health := rfl
@[simp] theorem State.ergAddTo_ptp (s : State) (g : Nat) (v : W640) : (s.ergAddTo g v).ptp = s.ptp := rfl
@[simp] theorem State.ergAddTo_tap (s : State) (g : Nat) (v : W640) : (s.ergAddTo g v).tap = s.tap := rfl
@[simp] theorem State.ergAddTo_cclk (s : State) (g : Nat) (v : W640) : (s.ergAddTo g v).cclk = s.cclk := rfl
@[simp] theorem State.ergAddTo_held (s : State) (g : Nat) (v : W640) : (s.ergAddTo g v).held = s.held := rfl
@[simp] theorem State.ergAddTo_free (s : State) (g : Nat) (v : W640) : (s.ergAddTo g v).free = s.free := rfl
@[simp] theorem State.ergAddTo_pending (s : State) (g : Nat) (v : W640) : (s.ergAddTo g v).pending = s.pending := rfl

/-! ## State.ergClear -/

@[simp] theorem State.ergClear_pitches (s : State) (g n : Nat) : (s.ergClear g n).pitches = s.pitches := rfl
@[simp] theorem State.ergClear_retained (s : State) (g n : Nat) : (s.ergClear g n).retained = s.retained := rfl
@[simp] theorem State.ergClear_mem (s : State) (g n : Nat) : (s.ergClear g n).mem = s.mem := rfl
@[simp] theorem State.ergClear_erg (s : State) (g n : Nat) : (s.ergClear g n).erg = s.erg.filter (fun e => e.1 < g || g + n ≤ e.1) := rfl
@[simp] theorem State.ergClear_hostPorts (s : State) (g n : Nat) : (s.ergClear g n).hostPorts = s.hostPorts := rfl
@[simp] theorem State.ergClear_netPorts (s : State) (g n : Nat) : (s.ergClear g n).netPorts = s.netPorts := rfl
@[simp] theorem State.ergClear_clusters (s : State) (g n : Nat) : (s.ergClear g n).clusters = s.clusters := rfl
@[simp] theorem State.ergClear_hostOut (s : State) (g n : Nat) : (s.ergClear g n).hostOut = s.hostOut := rfl
@[simp] theorem State.ergClear_netOut (s : State) (g n : Nat) : (s.ergClear g n).netOut = s.netOut := rfl
@[simp] theorem State.ergClear_dma (s : State) (g n : Nat) : (s.ergClear g n).dma = s.dma := rfl
@[simp] theorem State.ergClear_dmaTag (s : State) (g n : Nat) : (s.ergClear g n).dmaTag = s.dmaTag := rfl
@[simp] theorem State.ergClear_latched (s : State) (g n : Nat) : (s.ergClear g n).latched = s.latched := rfl
@[simp] theorem State.ergClear_glob (s : State) (g n : Nat) : (s.ergClear g n).glob = s.glob := rfl
@[simp] theorem State.ergClear_fw (s : State) (g n : Nat) : (s.ergClear g n).fw = s.fw := rfl
@[simp] theorem State.ergClear_flash (s : State) (g n : Nat) : (s.ergClear g n).flash = s.flash := rfl
@[simp] theorem State.ergClear_fuses (s : State) (g n : Nat) : (s.ergClear g n).fuses = s.fuses := rfl
@[simp] theorem State.ergClear_prov (s : State) (g n : Nat) : (s.ergClear g n).prov = s.prov := rfl
@[simp] theorem State.ergClear_sec (s : State) (g n : Nat) : (s.ergClear g n).sec = s.sec := rfl
@[simp] theorem State.ergClear_power (s : State) (g n : Nat) : (s.ergClear g n).power = s.power := rfl
@[simp] theorem State.ergClear_health (s : State) (g n : Nat) : (s.ergClear g n).health = s.health := rfl
@[simp] theorem State.ergClear_ptp (s : State) (g n : Nat) : (s.ergClear g n).ptp = s.ptp := rfl
@[simp] theorem State.ergClear_tap (s : State) (g n : Nat) : (s.ergClear g n).tap = s.tap := rfl
@[simp] theorem State.ergClear_cclk (s : State) (g n : Nat) : (s.ergClear g n).cclk = s.cclk := rfl
@[simp] theorem State.ergClear_held (s : State) (g n : Nat) : (s.ergClear g n).held = s.held := rfl
@[simp] theorem State.ergClear_free (s : State) (g n : Nat) : (s.ergClear g n).free = s.free := rfl
@[simp] theorem State.ergClear_pending (s : State) (g n : Nat) : (s.ergClear g n).pending = s.pending := rfl

/-! ## State.memDenied -/

@[simp] theorem State.memDenied_pitches (s : State)  : (s.memDenied).pitches = s.pitches := rfl
@[simp] theorem State.memDenied_retained (s : State)  : (s.memDenied).retained = s.retained := rfl
@[simp] theorem State.memDenied_mem (s : State)  : (s.memDenied).mem = s.mem := rfl
@[simp] theorem State.memDenied_erg (s : State)  : (s.memDenied).erg = s.erg := rfl
@[simp] theorem State.memDenied_hostPorts (s : State)  : (s.memDenied).hostPorts = s.hostPorts := rfl
@[simp] theorem State.memDenied_netPorts (s : State)  : (s.memDenied).netPorts = s.netPorts := rfl
@[simp] theorem State.memDenied_clusters (s : State)  : (s.memDenied).clusters = s.clusters := rfl
@[simp] theorem State.memDenied_hostOut (s : State)  : (s.memDenied).hostOut = s.hostOut := rfl
@[simp] theorem State.memDenied_netOut (s : State)  : (s.memDenied).netOut = s.netOut := rfl
@[simp] theorem State.memDenied_dma (s : State)  : (s.memDenied).dma = s.dma := rfl
@[simp] theorem State.memDenied_dmaTag (s : State)  : (s.memDenied).dmaTag = s.dmaTag := rfl
@[simp] theorem State.memDenied_latched (s : State)  : (s.memDenied).latched = s.latched := rfl
@[simp] theorem State.memDenied_fw (s : State)  : (s.memDenied).fw = s.fw := rfl
@[simp] theorem State.memDenied_flash (s : State)  : (s.memDenied).flash = s.flash := rfl
@[simp] theorem State.memDenied_fuses (s : State)  : (s.memDenied).fuses = s.fuses := rfl
@[simp] theorem State.memDenied_prov (s : State)  : (s.memDenied).prov = s.prov := rfl
@[simp] theorem State.memDenied_sec (s : State)  : (s.memDenied).sec = s.sec := rfl
@[simp] theorem State.memDenied_power (s : State)  : (s.memDenied).power = s.power := rfl
@[simp] theorem State.memDenied_health (s : State)  : (s.memDenied).health = s.health := rfl
@[simp] theorem State.memDenied_ptp (s : State)  : (s.memDenied).ptp = s.ptp := rfl
@[simp] theorem State.memDenied_tap (s : State)  : (s.memDenied).tap = s.tap := rfl
@[simp] theorem State.memDenied_cclk (s : State)  : (s.memDenied).cclk = s.cclk := rfl
@[simp] theorem State.memDenied_held (s : State)  : (s.memDenied).held = s.held := rfl
@[simp] theorem State.memDenied_free (s : State)  : (s.memDenied).free = s.free := rfl
@[simp] theorem State.memDenied_pending (s : State)  : (s.memDenied).pending = s.pending := rfl

/-! ## State.modRetained -/

@[simp] theorem State.modRetained_pitches (s : State) (p : PitchId) (f : Retained → Retained) : (s.modRetained p f).pitches = s.pitches := rfl
@[simp] theorem State.modRetained_retained (s : State) (p : PitchId) (f : Retained → Retained) : (s.modRetained p f).retained = s.retained.set p (s.retained[p].map f) := rfl
@[simp] theorem State.modRetained_mem (s : State) (p : PitchId) (f : Retained → Retained) : (s.modRetained p f).mem = s.mem := rfl
@[simp] theorem State.modRetained_erg (s : State) (p : PitchId) (f : Retained → Retained) : (s.modRetained p f).erg = s.erg := rfl
@[simp] theorem State.modRetained_hostPorts (s : State) (p : PitchId) (f : Retained → Retained) : (s.modRetained p f).hostPorts = s.hostPorts := rfl
@[simp] theorem State.modRetained_netPorts (s : State) (p : PitchId) (f : Retained → Retained) : (s.modRetained p f).netPorts = s.netPorts := rfl
@[simp] theorem State.modRetained_clusters (s : State) (p : PitchId) (f : Retained → Retained) : (s.modRetained p f).clusters = s.clusters := rfl
@[simp] theorem State.modRetained_hostOut (s : State) (p : PitchId) (f : Retained → Retained) : (s.modRetained p f).hostOut = s.hostOut := rfl
@[simp] theorem State.modRetained_netOut (s : State) (p : PitchId) (f : Retained → Retained) : (s.modRetained p f).netOut = s.netOut := rfl
@[simp] theorem State.modRetained_dma (s : State) (p : PitchId) (f : Retained → Retained) : (s.modRetained p f).dma = s.dma := rfl
@[simp] theorem State.modRetained_dmaTag (s : State) (p : PitchId) (f : Retained → Retained) : (s.modRetained p f).dmaTag = s.dmaTag := rfl
@[simp] theorem State.modRetained_latched (s : State) (p : PitchId) (f : Retained → Retained) : (s.modRetained p f).latched = s.latched := rfl
@[simp] theorem State.modRetained_glob (s : State) (p : PitchId) (f : Retained → Retained) : (s.modRetained p f).glob = s.glob := rfl
@[simp] theorem State.modRetained_fw (s : State) (p : PitchId) (f : Retained → Retained) : (s.modRetained p f).fw = s.fw := rfl
@[simp] theorem State.modRetained_flash (s : State) (p : PitchId) (f : Retained → Retained) : (s.modRetained p f).flash = s.flash.writeMirror (s.retained.set p (s.retained[p].map f)) := rfl
@[simp] theorem State.modRetained_fuses (s : State) (p : PitchId) (f : Retained → Retained) : (s.modRetained p f).fuses = s.fuses := rfl
@[simp] theorem State.modRetained_prov (s : State) (p : PitchId) (f : Retained → Retained) : (s.modRetained p f).prov = s.prov := rfl
@[simp] theorem State.modRetained_sec (s : State) (p : PitchId) (f : Retained → Retained) : (s.modRetained p f).sec = s.sec := rfl
@[simp] theorem State.modRetained_power (s : State) (p : PitchId) (f : Retained → Retained) : (s.modRetained p f).power = s.power := rfl
@[simp] theorem State.modRetained_health (s : State) (p : PitchId) (f : Retained → Retained) : (s.modRetained p f).health = s.health := rfl
@[simp] theorem State.modRetained_ptp (s : State) (p : PitchId) (f : Retained → Retained) : (s.modRetained p f).ptp = s.ptp := rfl
@[simp] theorem State.modRetained_tap (s : State) (p : PitchId) (f : Retained → Retained) : (s.modRetained p f).tap = s.tap := rfl
@[simp] theorem State.modRetained_cclk (s : State) (p : PitchId) (f : Retained → Retained) : (s.modRetained p f).cclk = s.cclk := rfl
@[simp] theorem State.modRetained_held (s : State) (p : PitchId) (f : Retained → Retained) : (s.modRetained p f).held = s.held := rfl
@[simp] theorem State.modRetained_free (s : State) (p : PitchId) (f : Retained → Retained) : (s.modRetained p f).free = s.free := rfl
@[simp] theorem State.modRetained_pending (s : State) (p : PitchId) (f : Retained → Retained) : (s.modRetained p f).pending = s.pending := rfl

/-! ## State.sendHost and State.draw -/

@[simp] theorem State.sendHost_pitches (s : State) (h : HostPort) (m : HostMsg) : (s.sendHost h m).pitches = s.pitches := by unfold State.sendHost; split <;> rfl
@[simp] theorem State.sendHost_retained (s : State) (h : HostPort) (m : HostMsg) : (s.sendHost h m).retained = s.retained := by unfold State.sendHost; split <;> rfl
@[simp] theorem State.sendHost_mem (s : State) (h : HostPort) (m : HostMsg) : (s.sendHost h m).mem = s.mem := by unfold State.sendHost; split <;> rfl
@[simp] theorem State.sendHost_erg (s : State) (h : HostPort) (m : HostMsg) : (s.sendHost h m).erg = s.erg := by unfold State.sendHost; split <;> rfl
@[simp] theorem State.sendHost_netPorts (s : State) (h : HostPort) (m : HostMsg) : (s.sendHost h m).netPorts = s.netPorts := by unfold State.sendHost; split <;> rfl
@[simp] theorem State.sendHost_clusters (s : State) (h : HostPort) (m : HostMsg) : (s.sendHost h m).clusters = s.clusters := by unfold State.sendHost; split <;> rfl
@[simp] theorem State.sendHost_netOut (s : State) (h : HostPort) (m : HostMsg) : (s.sendHost h m).netOut = s.netOut := by unfold State.sendHost; split <;> rfl
@[simp] theorem State.sendHost_dma (s : State) (h : HostPort) (m : HostMsg) : (s.sendHost h m).dma = s.dma := by unfold State.sendHost; split <;> rfl
@[simp] theorem State.sendHost_dmaTag (s : State) (h : HostPort) (m : HostMsg) : (s.sendHost h m).dmaTag = s.dmaTag := by unfold State.sendHost; split <;> rfl
@[simp] theorem State.sendHost_latched (s : State) (h : HostPort) (m : HostMsg) : (s.sendHost h m).latched = s.latched := by unfold State.sendHost; split <;> rfl
@[simp] theorem State.sendHost_glob (s : State) (h : HostPort) (m : HostMsg) : (s.sendHost h m).glob = s.glob := by unfold State.sendHost; split <;> rfl
@[simp] theorem State.sendHost_fw (s : State) (h : HostPort) (m : HostMsg) : (s.sendHost h m).fw = s.fw := by unfold State.sendHost; split <;> rfl
@[simp] theorem State.sendHost_flash (s : State) (h : HostPort) (m : HostMsg) : (s.sendHost h m).flash = s.flash := by unfold State.sendHost; split <;> rfl
@[simp] theorem State.sendHost_fuses (s : State) (h : HostPort) (m : HostMsg) : (s.sendHost h m).fuses = s.fuses := by unfold State.sendHost; split <;> rfl
@[simp] theorem State.sendHost_prov (s : State) (h : HostPort) (m : HostMsg) : (s.sendHost h m).prov = s.prov := by unfold State.sendHost; split <;> rfl
@[simp] theorem State.sendHost_sec (s : State) (h : HostPort) (m : HostMsg) : (s.sendHost h m).sec = s.sec := by unfold State.sendHost; split <;> rfl
@[simp] theorem State.sendHost_power (s : State) (h : HostPort) (m : HostMsg) : (s.sendHost h m).power = s.power := by unfold State.sendHost; split <;> rfl
@[simp] theorem State.sendHost_health (s : State) (h : HostPort) (m : HostMsg) : (s.sendHost h m).health = s.health := by unfold State.sendHost; split <;> rfl
@[simp] theorem State.sendHost_ptp (s : State) (h : HostPort) (m : HostMsg) : (s.sendHost h m).ptp = s.ptp := by unfold State.sendHost; split <;> rfl
@[simp] theorem State.sendHost_tap (s : State) (h : HostPort) (m : HostMsg) : (s.sendHost h m).tap = s.tap := by unfold State.sendHost; split <;> rfl
@[simp] theorem State.sendHost_cclk (s : State) (h : HostPort) (m : HostMsg) : (s.sendHost h m).cclk = s.cclk := by unfold State.sendHost; split <;> rfl
@[simp] theorem State.sendHost_held (s : State) (h : HostPort) (m : HostMsg) : (s.sendHost h m).held = s.held := by unfold State.sendHost; split <;> rfl
@[simp] theorem State.sendHost_free (s : State) (h : HostPort) (m : HostMsg) : (s.sendHost h m).free = s.free := by unfold State.sendHost; split <;> rfl
@[simp] theorem State.sendHost_pending (s : State) (h : HostPort) (m : HostMsg) : (s.sendHost h m).pending = s.pending := by unfold State.sendHost; split <;> rfl
@[simp] theorem State.sendHost_hostOut (s : State) (h : HostPort) (m : HostMsg) : 
    (s.sendHost h m).hostOut = if s.hostUp h then s.hostOut ++ [⟨h, m⟩] else s.hostOut := by
  unfold State.sendHost; cases s.hostUp h <;> rfl
@[simp] theorem State.draw_pitches (s : State) : s.draw.2.pitches = s.pitches := rfl
@[simp] theorem State.draw_retained (s : State) : s.draw.2.retained = s.retained := rfl
@[simp] theorem State.draw_mem (s : State) : s.draw.2.mem = s.mem := rfl
@[simp] theorem State.draw_erg (s : State) : s.draw.2.erg = s.erg := rfl
@[simp] theorem State.draw_hostPorts (s : State) : s.draw.2.hostPorts = s.hostPorts := rfl
@[simp] theorem State.draw_netPorts (s : State) : s.draw.2.netPorts = s.netPorts := rfl
@[simp] theorem State.draw_clusters (s : State) : s.draw.2.clusters = s.clusters := rfl
@[simp] theorem State.draw_hostOut (s : State) : s.draw.2.hostOut = s.hostOut := rfl
@[simp] theorem State.draw_netOut (s : State) : s.draw.2.netOut = s.netOut := rfl
@[simp] theorem State.draw_dma (s : State) : s.draw.2.dma = s.dma := rfl
@[simp] theorem State.draw_dmaTag (s : State) : s.draw.2.dmaTag = s.dmaTag := rfl
@[simp] theorem State.draw_latched (s : State) : s.draw.2.latched = s.latched := rfl
@[simp] theorem State.draw_glob (s : State) : s.draw.2.glob = s.glob := rfl
@[simp] theorem State.draw_fw (s : State) : s.draw.2.fw = s.fw := rfl
@[simp] theorem State.draw_flash (s : State) : s.draw.2.flash = s.flash := rfl
@[simp] theorem State.draw_fuses (s : State) : s.draw.2.fuses = s.fuses := rfl
@[simp] theorem State.draw_prov (s : State) : s.draw.2.prov = s.prov := rfl
@[simp] theorem State.draw_sec (s : State) : s.draw.2.sec = s.sec := rfl
@[simp] theorem State.draw_power (s : State) : s.draw.2.power = s.power := rfl
@[simp] theorem State.draw_health (s : State) : s.draw.2.health = s.health := rfl
@[simp] theorem State.draw_ptp (s : State) : s.draw.2.ptp = s.ptp := rfl
@[simp] theorem State.draw_tap (s : State) : s.draw.2.tap = s.tap := rfl
@[simp] theorem State.draw_cclk (s : State) : s.draw.2.cclk = s.cclk := rfl
@[simp] theorem State.draw_held (s : State) : s.draw.2.held = s.held := rfl
@[simp] theorem State.draw_pending (s : State) : s.draw.2.pending = s.pending := rfl
@[simp] theorem State.draw_free (s : State) : s.draw.2.free = s.free + 1 := rfl
@[simp] theorem State.draw_num (s : State) : s.draw.1 = s.free := rfl

/-! ## State.program: regions that the controller lets SEC program in every state (21 R445) -/

@[simp] theorem State.program_log (s : State) (f : Flash) : s.program .log f = { s with flash := f } := rfl
@[simp] theorem State.program_mirror (s : State) (f : Flash) : s.program .mirror f = { s with flash := f } := rfl
@[simp] theorem State.program_directory (s : State) (f : Flash) : s.program .directory f = { s with flash := f } := rfl
@[simp] theorem State.program_journal (s : State) (f : Flash) : s.program .journal f = { s with flash := f } := rfl
/-- The reserved region is never written. -/
@[simp] theorem State.program_reserved (s : State) (f : Flash) : s.program .reserved f = s := rfl
/-- The active bank is never written. -/
@[simp] theorem State.program_active (s : State) (f : Flash) : s.program (.bank s.flash.activeB) f = s := by
  simp [State.program, State.flashAllows]
/-- The inactive bank may be. -/
@[simp] theorem State.program_inactive (s : State) (f : Flash) : s.program (.bank !s.flash.activeB) f = { s with flash := f } := by
  simp [State.program, State.flashAllows]

/-! ## Reading a pitch back -/

@[simp] theorem State.pitch_setPitch (s : State) (p : PitchId) (x : Pitch) : (s.setPitch p x).pitch p = x := by
  simp [State.setPitch, State.pitch]

@[simp] theorem State.pitch_setPitch_ne (s : State) (p q : PitchId) (x : Pitch) (h : q ≠ p) : (s.setPitch p x).pitch q = s.pitch q := by
  have hv : p.val ≠ q.val := fun e => h (Fin.ext e.symm)
  simp [State.setPitch, State.pitch, hv]

@[simp] theorem State.pitch_modPitch (s : State) (p : PitchId) (f : Pitch → Pitch) : (s.modPitch p f).pitch p = f (s.pitch p) := by
  simp [State.modPitch]

@[simp] theorem State.pitch_modPitch_ne (s : State) (p q : PitchId) (f : Pitch → Pitch) (h : q ≠ p) :
    (s.modPitch p f).pitch q = s.pitch q := by
  simp [State.modPitch, h]

@[simp] theorem State.pitch_count (s : State) (p : PitchId) (c : PCtr) (n : Nat) : (s.count p c n).pitch p = (s.pitch p).count c n := by
  simp [State.count]

@[simp] theorem State.pitch_count_ne (s : State) (p q : PitchId) (c : PCtr) (n : Nat) (h : q ≠ p) : (s.count p c n).pitch q = s.pitch q := by
  simp [State.count, h]

/-- An update of fields other than the pitches leaves every pitch as it is. -/
theorem State.pitch_of_pitches (s t : State) (h : t.pitches = s.pitches) (q : PitchId) : t.pitch q = s.pitch q := by
  simp [State.pitch, h]

@[simp] theorem State.pitch_write (s : State) (a : Nat) (bs : Bytes) (q : PitchId) : (s.write a bs).pitch q = s.pitch q := rfl
@[simp] theorem State.pitch_erase (s : State) (a n : Nat) (q : PitchId) : (s.erase a n).pitch q = s.pitch q := rfl
@[simp] theorem State.pitch_advanceTo (s : State) (c : Nat) (q : PitchId) : (s.advanceTo c).pitch q = s.pitch q := rfl
@[simp] theorem State.pitch_ergSet (s : State) (g : Nat) (v : W640) (q : PitchId) : (s.ergSet g v).pitch q = s.pitch q := rfl
@[simp] theorem State.pitch_ergClear (s : State) (g n : Nat) (q : PitchId) : (s.ergClear g n).pitch q = s.pitch q := rfl
@[simp] theorem State.pitch_sendHost (s : State) (h : HostPort) (m : HostMsg) (q : PitchId) : (s.sendHost h m).pitch q = s.pitch q := by
  simp [State.pitch]
@[simp] theorem State.pitch_draw (s : State) (q : PitchId) : s.draw.2.pitch q = s.pitch q := rfl
@[simp] theorem State.pitch_modRetained (s : State) (p : PitchId) (f : Retained → Retained) (q : PitchId) :
    (s.modRetained p f).pitch q = s.pitch q := rfl

/-- A command acts at once while the die is not held. -/
theorem live_next (s : State) (f : State → State) (h : s.held = false) : live s f = .next (f s) := by simp [live, h]
/-- A command is ignored while the die is held. -/
theorem live_held (s : State) (f : State → State) (h : s.held = true) : live s f = .next s := by simp [live, h]

end Sys2Proof.Machine
end

