-- ==== Sys2Proof/Laws/Keeps.lean ====
section
/-! SUPPORT. What every operation on the state keeps: the queue, the canonical form of memory, messages and frames already
sent, free values already drawn, blown fuses; and, for operations of one pitch, every other pitch, and for operations
outside security, boot and health, the fuses, the provisioning data, the security core and the TAP. -/

namespace Sys2Proof.Machine

theorem FusesGrow.refl (a : Fuses) : FusesGrow a a := ⟨id, id, id, le_refl _, List.prefix_refl _, rfl⟩

theorem FusesGrow.trans {a b c : Fuses} (h : FusesGrow a b) (k : FusesGrow b c) : FusesGrow a c := by
  refine ⟨k.isSealed ∘ h.isSealed, k.rma ∘ h.rma, k.udsLock ∘ h.udsLock, le_trans h.rollback k.rollback, h.entries.trans k.entries, ?_⟩
  rw [k.rest, h.rest]

/-- What an operation keeps from s to t; A holds of the pitches it may change, d where it may change the guarded part. -/
structure Keeps (A : PitchId → Prop) (d : Prop) (s t : State) : Prop where
  pending : t.pending = s.pending
  wf : Memory.wf s.mem → Memory.wf t.mem
  free : s.free ≤ t.free
  hostOut : s.hostOut <+: t.hostOut
  netOut : s.netOut <+: t.netOut
  fuses : FusesGrow s.fuses t.fuses
  others : ∀ q, ¬ A q → t.pitch q = s.pitch q
  guarded : ¬ d → t.guarded = s.guarded

variable {A : PitchId → Prop} {d : Prop} {s₀ s t : State}

theorem Keeps.refl (A : PitchId → Prop) (d : Prop) (s : State) : Keeps A d s s :=
  ⟨rfl, id, le_refl _, List.prefix_refl _, List.prefix_refl _, FusesGrow.refl _, fun _ _ => rfl, fun _ => rfl⟩

theorem Keeps.trans (h : Keeps A d s₀ s) (k : Keeps A d s t) : Keeps A d s₀ t :=
  ⟨k.pending.trans h.pending, k.wf ∘ h.wf, le_trans h.free k.free, h.hostOut.trans k.hostOut, h.netOut.trans k.netOut,
    h.fuses.trans k.fuses, fun q hq => (k.others q hq).trans (h.others q hq), fun hd => (k.guarded hd).trans (h.guarded hd)⟩

/-- A change of fields outside those that Keeps speaks of. -/
theorem Keeps.ofFields {x_retained} {x_erg} {x_hostPorts} {x_netPorts} {x_clusters} {x_dma} {x_dmaTag} {x_latched} {x_glob}
      {x_fw} {x_flash} {x_power} {x_health} {x_ptp} {x_cclk} {x_held} (h : Keeps A d s₀ s) :
    Keeps A d s₀ (State.mk s.pitches x_retained s.mem x_erg x_hostPorts x_netPorts x_clusters s.hostOut s.netOut x_dma
      x_dmaTag x_latched x_glob x_fw x_flash s.fuses s.prov s.sec x_power x_health x_ptp s.tap x_cclk x_held s.free
      s.pending) :=
  h.trans ⟨rfl, id, le_refl _, List.prefix_refl _, List.prefix_refl _, FusesGrow.refl _, fun _ _ => rfl, fun _ => rfl⟩

/-- A change that reaches guarded fields other than the fuses. -/
theorem Keeps.ofGuarded {x_retained} {x_erg} {x_hostPorts} {x_netPorts} {x_clusters} {x_dma} {x_dmaTag} {x_latched} {x_glob}
      {x_fw} {x_flash} {x_prov} {x_sec} {x_power} {x_health} {x_ptp} {x_tap} {x_cclk} {x_held} (hd : d) (h : Keeps A d s₀ s)
      :
    Keeps A d s₀ (State.mk s.pitches x_retained s.mem x_erg x_hostPorts x_netPorts x_clusters s.hostOut s.netOut x_dma
      x_dmaTag x_latched x_glob x_fw x_flash s.fuses x_prov x_sec x_power x_health x_ptp x_tap x_cclk x_held s.free
      s.pending) :=
  h.trans ⟨rfl, id, le_refl _, List.prefix_refl _, List.prefix_refl _, FusesGrow.refl _, fun _ _ => rfl, fun k => absurd hd k⟩

/-- A change that blows fuses. -/
theorem Keeps.ofFuses {x_retained} {x_erg} {x_hostPorts} {x_netPorts} {x_clusters} {x_dma} {x_dmaTag} {x_latched} {x_glob}
      {x_fw} {x_flash} {x_prov} {x_sec} {x_power} {x_health} {x_ptp} {x_tap} {x_cclk} {x_held} {f : Fuses} (hf : FusesGrow
      s.fuses f) (hd : d) (h : Keeps A d s₀ s) :
    Keeps A d s₀ (State.mk s.pitches x_retained s.mem x_erg x_hostPorts x_netPorts x_clusters s.hostOut s.netOut x_dma
      x_dmaTag x_latched x_glob x_fw x_flash f x_prov x_sec x_power x_health x_ptp x_tap x_cclk x_held s.free s.pending) :=
  h.trans ⟨rfl, id, le_refl _, List.prefix_refl _, List.prefix_refl _, hf, fun _ _ => rfl, fun k => absurd hd k⟩

/-- A change that adds messages to a host. -/
theorem Keeps.ofHostOut {x_retained} {x_erg} {x_hostPorts} {x_netPorts} {x_clusters} {x_dma} {x_dmaTag} {x_latched} {x_glob}
      {x_fw} {x_flash} {x_power} {x_health} {x_ptp} {x_cclk} {x_held} {o : List HostOut} (h : Keeps A d s₀ s) :
    Keeps A d s₀ (State.mk s.pitches x_retained s.mem x_erg x_hostPorts x_netPorts x_clusters (s.hostOut ++ o) s.netOut x_dma
      x_dmaTag x_latched x_glob x_fw x_flash s.fuses s.prov s.sec x_power x_health x_ptp s.tap x_cclk x_held s.free
      s.pending) :=
  h.trans ⟨rfl, id, le_refl _, List.prefix_append _ _, List.prefix_refl _, FusesGrow.refl _, fun _ _ => rfl, fun _ => rfl⟩

/-- A change that leaves memory in its canonical form. -/
theorem Keeps.ofMem {x_retained} {x_erg} {x_hostPorts} {x_netPorts} {x_clusters} {x_dma} {x_dmaTag} {x_latched} {x_glob}
      {x_fw} {x_flash} {x_power} {x_health} {x_ptp} {x_cclk} {x_held} {m : List Host.Cell} (hm : Memory.wf s.mem → Memory.wf
      m) (h : Keeps A d s₀ s) :
    Keeps A d s₀ (State.mk s.pitches x_retained m x_erg x_hostPorts x_netPorts x_clusters s.hostOut s.netOut x_dma x_dmaTag
      x_latched x_glob x_fw x_flash s.fuses s.prov s.sec x_power x_health x_ptp s.tap x_cclk x_held s.free s.pending) :=
  h.trans ⟨rfl, hm, le_refl _, List.prefix_refl _, List.prefix_refl _, FusesGrow.refl _, fun _ _ => rfl, fun _ => rfl⟩

theorem Keeps.foldl {α : Type} {f : State → α → State} (l : List α) (hf : ∀ x a, Keeps A d s₀ x → Keeps A d s₀ (f x a))
    (h : Keeps A d s₀ s) : Keeps A d s₀ (l.foldl f s) := by
  induction l generalizing s with
  | nil => exact h
  | cons a l ih => exact ih (hf _ _ h)

/-! ## Outcomes of commands, descriptors and mailbox commands -/

/-- A command's next state keeps what Keeps says. -/
def ResultKeeps (A : PitchId → Prop) (d : Prop) (s₀ : State) (r : Result) : Prop := ∀ t, r = .next t → Keeps A d s₀ t

theorem Result.next_keeps (h : Keeps A d s₀ s) : ResultKeeps A d s₀ (.next s) := by
  intro t ht
  cases ht
  exact h

theorem Result.live_keeps {f : State → State} (hf : ∀ x, Keeps A d s₀ x → Keeps A d s₀ (f x)) (h : Keeps A d s₀ s) :
    ResultKeeps A d s₀ (live s f) := by
  refine Result.next_keeps ?_
  split
  · exact h
  · exact hf _ h

/-- What a descriptor's body answers is a state, or an operation, that keeps what Keeps says. -/
def DescKeeps (A : PitchId → Prop) (d : Prop) (s₀ : State) : DescOut → Prop
  | .refuse _ _ => True
  | .take f => ∀ x, Keeps A d s₀ x → Keeps A d s₀ (f x)
  | .wait s => Keeps A d s₀ s

theorem DescOut.refuse_keeps (st det : Nat) : DescKeeps A d s₀ (.refuse st det) := trivial
theorem DescOut.take_keeps {f : State → State} (hf : ∀ x, Keeps A d s₀ x → Keeps A d s₀ (f x)) :
    DescKeeps A d s₀ (.take f) := hf
theorem DescOut.id_keeps : DescKeeps A d s₀ (.take id) := fun _ hx => hx
theorem DescOut.wait_keeps (h : Keeps A d s₀ s) : DescKeeps A d s₀ (.wait s) := h

/-- What a mailbox command's body answers keeps what Keeps says. -/
def ActKeeps (A : PitchId → Prop) (d : Prop) (s₀ : State) : Act → Prop
  | .done s _ _ _ later => Keeps A d s₀ s ∧ ∀ x, Keeps A d s₀ x → Keeps A d s₀ (later x)
  | .owe s _ => Keeps A d s₀ s
  | .wait s => Keeps A d s₀ s

theorem Act.done_keeps {r : Refuse} {b : Bytes} {n : Nat} {f : State → State} (h : Keeps A d s₀ s)
    (hf : ∀ x, Keeps A d s₀ x → Keeps A d s₀ (f x)) : ActKeeps A d s₀ (.done s r b n f) := ⟨h, hf⟩
theorem Act.owe_keeps {w : CmdWait} (h : Keeps A d s₀ s) : ActKeeps A d s₀ (.owe s w) := h
theorem Act.wait_keeps (h : Keeps A d s₀ s) : ActKeeps A d s₀ (.wait s) := h
theorem Act.ok_keeps {b : Bytes} (h : Keeps A d s₀ s) : ActKeeps A d s₀ (Act.ok s b) := ⟨h, fun _ hx => hx⟩
theorem Act.no_keeps {r : Refuse} (h : Keeps A d s₀ s) : ActKeeps A d s₀ (Act.no s r) := ⟨h, fun _ hx => hx⟩

/-! ## The named operations -/

theorem State.setPitch_keeps (s : State) (p : PitchId) (x : Pitch) (hp : A p) (h : Keeps A d s₀ s) : Keeps A d s₀ (s.setPitch p x) := by
  refine h.trans ⟨rfl, id, le_refl _, List.prefix_refl _, List.prefix_refl _, FusesGrow.refl _, fun q hq => ?_, fun _ => rfl⟩
  exact State.pitch_setPitch_ne s p q x (fun e => hq (e ▸ hp))

theorem State.modPitch_keeps (s : State) (p : PitchId) (f : Pitch → Pitch) (hp : A p) (h : Keeps A d s₀ s) :
    Keeps A d s₀ (s.modPitch p f) := State.setPitch_keeps s p _ hp h

theorem State.write_keeps (s : State) (a : Nat) (bs : Bytes) (h : Keeps A d s₀ s) : Keeps A d s₀ (s.write a bs) :=
  h.trans ⟨rfl, fun k => State.wf_write s a bs k, le_refl _, List.prefix_refl _, List.prefix_refl _, FusesGrow.refl _, fun _ _ => rfl,
    fun _ => rfl⟩

theorem State.erase_keeps (s : State) (a n : Nat) (h : Keeps A d s₀ s) : Keeps A d s₀ (s.erase a n) :=
  h.trans ⟨rfl, fun k => State.wf_erase s a n k, le_refl _, List.prefix_refl _, List.prefix_refl _, FusesGrow.refl _, fun _ _ => rfl,
    fun _ => rfl⟩

theorem State.sendHost_keeps (s : State) (p : HostPort) (m : HostMsg) (h : Keeps A d s₀ s) : Keeps A d s₀ (s.sendHost p m) := by
  unfold State.sendHost
  split
  · exact h
  · exact h.trans ⟨rfl, id, le_refl _, List.prefix_append _ _, List.prefix_refl _, FusesGrow.refl _, fun _ _ => rfl, fun _ => rfl⟩

theorem State.draw_keeps (s : State) (h : Keeps A d s₀ s) : Keeps A d s₀ s.draw.2 :=
  h.trans ⟨rfl, id, Nat.le_succ _, List.prefix_refl _, List.prefix_refl _, FusesGrow.refl _, fun _ _ => rfl, fun _ => rfl⟩

theorem State.draw_match_keeps {f : Nat → State → State} (s : State) (h : Keeps A d s₀ s)
    (hf : ∀ n x, Keeps A d s₀ x → Keeps A d s₀ (f n x)) : Keeps A d s₀ (match s.draw with | (n, x) => f n x) :=
  hf _ _ (State.draw_keeps s h)

theorem netOut_keeps (s : State) (x : NetOut) (h : Keeps A d s₀ s) : Keeps A d s₀ { s with netOut := s.netOut ++ [x] } :=
  h.trans ⟨rfl, id, le_refl _, List.prefix_refl _, List.prefix_append _ _, FusesGrow.refl _, fun _ _ => rfl, fun _ => rfl⟩

end Sys2Proof.Machine
end

