-- ==== Sys2Proof/Laws/Keeps1.lean ====
section
/-! SUPPORT. What the operations of Ops, Flags, Queue, Log, Operands, Channel, Power, Guard, Checkpoint, Progress, HostIf keep (Laws/Keeps.lean): one lemma for each. -/

namespace Sys2Proof.Machine

variable {A : PitchId → Prop} {d : Prop} {s₀ : State}

/-! ## Ops -/

theorem State.eraseAll_keeps (s : State) (a1 : List (ℕ × ℕ)) (h : Keeps A d s₀ s) : Keeps A d s₀ (State.eraseAll s a1) := by
  unfold State.eraseAll
  repeat' with_reducible first | intro _ | assumption | apply State.erase_keeps | apply Keeps.foldl

theorem State.program_keeps (s : State) (a1 : FlashRegion) (a2 : Flash) (h : Keeps A d s₀ s) : Keeps A d s₀
    (State.program s a1 a2) := by
  unfold State.program
  repeat' first
    | (with_reducible first
        | intro _ | assumption | apply Keeps.foldl)
    | (extract_lets +onlyGivenNames lv; have hlv : Keeps A d s₀ lv; unfold lv; on_goal 2 => clear_value lv)
    | (extract_lets +onlyGivenNames lv; clear_value lv)
    | split
    | with_reducible apply netOut_keeps
    | (fail_if_no_progress with_reducible apply Keeps.ofFields)

theorem State.forPitches_keeps (s : State) (a1 : PitchId → State → State) (ha1 : ∀ (b0 : PitchId) (x : State), Keeps A d
    s₀ x → Keeps A d s₀ (a1 b0 x)) (h : Keeps A d s₀ s) : Keeps A d s₀ (State.forPitches s a1) := by
  unfold State.forPitches
  repeat' with_reducible first | intro _ | assumption | apply ha1 | apply Keeps.foldl

theorem State.count_keeps (s : State) (a1 : PitchId) (a2 : PCtr) (a3 : ℕ) (ha1 : A a1) (h : Keeps A d s₀ s) : Keeps A d
    s₀ (State.count s a1 a2 a3) := by
  unfold State.count
  repeat' with_reducible first | intro _ | assumption | apply State.modPitch_keeps

theorem State.advanceTo_keeps (s : State) (a1 : ℕ) (h : Keeps A d s₀ s) : Keeps A d s₀ (State.advanceTo s a1) := by
  unfold State.advanceTo
  repeat' first
    | (with_reducible first | intro _ | assumption | apply netOut_keeps)
    | (fail_if_no_progress with_reducible apply Keeps.ofFields)

theorem State.ergSet_keeps (s : State) (a1 : ℕ) (a2 : W640) (h : Keeps A d s₀ s) : Keeps A d s₀ (State.ergSet s a1 a2) := by
  unfold State.ergSet
  repeat' first
    | (with_reducible first | intro _ | assumption | apply netOut_keeps)
    | (fail_if_no_progress with_reducible apply Keeps.ofFields)

theorem State.ergAddTo_keeps (s : State) (a1 : ℕ) (a2 : W640) (h : Keeps A d s₀ s) : Keeps A d s₀ (State.ergAddTo s a1 a2) := by
  unfold State.ergAddTo
  repeat' with_reducible first | intro _ | assumption | apply State.ergSet_keeps

theorem State.ergClear_keeps (s : State) (a1 : ℕ) (a2 : ℕ) (h : Keeps A d s₀ s) : Keeps A d s₀ (State.ergClear s a1 a2) := by
  unfold State.ergClear
  repeat' first
    | (with_reducible first | intro _ | assumption | apply netOut_keeps)
    | (fail_if_no_progress with_reducible apply Keeps.ofFields)

theorem State.hostIn_keeps (s : State) (a1 : HostPort) (a2 : ℕ) (a3 : State → State) (ha3 : ∀ (x : State), Keeps A d s₀
    x → Keeps A d s₀ (a3 x)) (h : Keeps A d s₀ s) : Keeps A d s₀ (State.hostIn s a1 a2 a3) := by
  unfold State.hostIn
  repeat' first
    | (with_reducible first
        | intro _ | assumption | apply ha3 | apply Keeps.foldl)
    | (extract_lets +onlyGivenNames lv; have hlv : Keeps A d s₀ lv; unfold lv; on_goal 2 => clear_value lv)
    | (extract_lets +onlyGivenNames lv; clear_value lv)
    | split
    | with_reducible apply netOut_keeps
    | (fail_if_no_progress with_reducible apply Keeps.ofFields)

theorem idleTick_keeps (s : State) (h : Keeps A d s₀ s) : Keeps A d s₀ (idleTick s) := by
  unfold idleTick
  repeat' first
    | (with_reducible first | intro _ | assumption | apply netOut_keeps) | split
    | (fail_if_no_progress with_reducible apply Keeps.ofFields)

theorem State.sendBound_keeps (s : State) (a1 : PitchId) (a2 : HostMsg) (ha1 : A a1) (h : Keeps A d s₀ s) : Keeps A d s₀
    (State.sendBound s a1 a2) := by
  unfold State.sendBound
  repeat' with_reducible first | intro _ | assumption | apply State.sendHost_keeps | apply Keeps.foldl

/-! ## Flags -/

theorem State.raise_keeps (s : State) (a1 : PitchId) (a2 : BitVec 6) (ha1 : A a1) (h : Keeps A d s₀ s) : Keeps A d s₀
    (State.raise s a1 a2) := by
  unfold State.raise
  repeat' first | (with_reducible first | intro _ | assumption | apply State.modPitch_keeps) | split

/-! ## Queue -/

theorem State.putEntry_keeps (s : State) (a1 : PitchId) (a2 : ℕ) (a3 : Bool → Bytes) (ha1 : A a1) (h : Keeps A d s₀ s) :
    Keeps A d s₀ (State.putEntry s a1 a2 a3) := by
  unfold State.putEntry
  repeat' first
    | (with_reducible first
        | intro _ | assumption | apply State.setPitch_keeps | apply State.write_keeps | apply State.sendBound_keeps)
    | (extract_lets +onlyGivenNames lv; have hlv : Keeps A d s₀ lv; unfold lv; on_goal 2 => clear_value lv)
    | (extract_lets +onlyGivenNames lv; clear_value lv) | split

theorem State.writeCpl_keeps (s : State) (a1 : PitchId) (a2 : ℕ) (a3 : Bytes) (ha1 : A a1) (h : Keeps A d s₀ s) : Keeps
    A d s₀ (State.writeCpl s a1 a2 a3) := by
  unfold State.writeCpl
  repeat' with_reducible first | intro _ | assumption | apply State.putEntry_keeps

theorem State.complete_keeps (s : State) (a1 : PitchId) (a2 : ℕ) (a3 : ℕ) (a4 : ℕ) (a5 : W16) (a6 : ℕ) (a7 : W64) (ha1 :
    A a1) (h : Keeps A d s₀ s) : Keeps A d s₀ (State.complete s a1 a2 a3 a4 a5 a6 a7) := by
  unfold State.complete
  repeat' first
    | (with_reducible first | intro _ | assumption | apply State.writeCpl_keeps | apply State.modPitch_keeps)
    | (extract_lets +onlyGivenNames lv; clear_value lv) | split

theorem flushHeldGo_keeps (p : PitchId) (q : Nat) (n : Nat) (s : State) (hp : A p) (h : Keeps A d s₀ s) : Keeps A d s₀
    (flushHeldGo p q n s) := by
  induction n generalizing s with
  | zero => exact h
  | succ n ih =>
    unfold flushHeldGo
    repeat' first
      | with_reducible assumption | with_reducible apply ih | with_reducible apply State.modPitch_keeps
      | with_reducible apply State.writeCpl_keeps | exact hA _ | with_reducible apply Keeps.foldl | intro _
      | (extract_lets +onlyGivenNames lv; clear_value lv) | with_reducible apply State.draw_keeps
      | with_reducible refine State.draw_match_keeps _ ?_ ?_ | split

theorem State.flushHeld_keeps (s : State) (a1 : PitchId) (a2 : ℕ) (ha1 : A a1) (h : Keeps A d s₀ s) : Keeps A d s₀
    (State.flushHeld s a1 a2) := by
  unfold State.flushHeld
  repeat' with_reducible first | intro _ | assumption | apply flushHeldGo_keeps

theorem State.writeResp_keeps (s : State) (a1 : PitchId) (a2 : Bytes) (ha1 : A a1) (h : Keeps A d s₀ s) : Keeps A d s₀
    (State.writeResp s a1 a2) := by
  unfold State.writeResp
  repeat' first
    | (with_reducible first | intro _ | assumption | apply State.setPitch_keeps | apply State.write_keeps)

theorem State.postResponse_keeps (s : State) (a1 : PitchId) (a2 : Bytes) (ha1 : A a1) (h : Keeps A d s₀ s) : Keeps A d
    s₀ (State.postResponse s a1 a2) := by
  unfold State.postResponse
  repeat' first
    | (with_reducible first | intro _ | assumption | apply State.setPitch_keeps | apply State.writeResp_keeps)
    | (extract_lets +onlyGivenNames lv; clear_value lv) | split

theorem flushRespGo_keeps (p : PitchId) (n : Nat) (s : State) (hp : A p) (h : Keeps A d s₀ s) : Keeps A d s₀
    (flushRespGo p n s) := by
  induction n generalizing s with
  | zero => exact h
  | succ n ih =>
    unfold flushRespGo
    repeat' first
      | with_reducible assumption | with_reducible apply ih | with_reducible apply State.setPitch_keeps
      | with_reducible apply State.writeResp_keeps | exact hA _ | with_reducible apply Keeps.foldl | intro _
      | (extract_lets +onlyGivenNames lv; clear_value lv) | with_reducible apply State.draw_keeps
      | with_reducible refine State.draw_match_keeps _ ?_ ?_ | split

theorem State.flushResponses_keeps (s : State) (a1 : PitchId) (ha1 : A a1) (h : Keeps A d s₀ s) : Keeps A d s₀
    (State.flushResponses s a1) := by
  unfold State.flushResponses
  repeat' with_reducible first | intro _ | assumption | apply flushRespGo_keeps

theorem State.notice_keeps (s : State) (a1 : PitchId) (a2 : ℕ) (a3 : Bytes) (ha1 : A a1) (h : Keeps A d s₀ s) : Keeps A
    d s₀ (State.notice s a1 a2 a3) := by
  unfold State.notice
  repeat' first
    | (with_reducible first | intro _ | assumption | apply State.setPitch_keeps | apply State.writeResp_keeps)
    | (extract_lets +onlyGivenNames lv; clear_value lv) | split

theorem State.bucketFault_keeps (s : State) (a1 : PitchId) (a2 : ℕ) (a3 : ℕ) (a4 : ℕ) (ha1 : A a1) (h : Keeps A d s₀ s)
    : Keeps A d s₀ (State.bucketFault s a1 a2 a3 a4) := by
  unfold State.bucketFault
  repeat' with_reducible first | intro _ | assumption | apply State.notice_keeps

theorem State.openFault_keeps (s : State) (a1 : PitchId) (a2 : ℕ) (ha1 : A a1) (h : Keeps A d s₀ s) : Keeps A d s₀
    (State.openFault s a1 a2) := by
  unfold State.openFault
  repeat' first
    | (with_reducible first
        | intro _ | assumption | apply State.bucketFault_keeps | apply State.draw_keeps)

theorem State.repairNotice_keeps (s : State) (a1 : PitchId) (a2 : ℕ) (a3 : ℕ) (a4 : ℕ) (ha1 : A a1) (h : Keeps A d s₀ s)
    : Keeps A d s₀ (State.repairNotice s a1 a2 a3 a4) := by
  unfold State.repairNotice
  repeat' first
    | (with_reducible first
        | intro _ | assumption | apply State.setPitch_keeps | apply State.modPitch_keeps | apply State.notice_keeps)
    | (extract_lets +onlyGivenNames lv; clear_value lv) | split

theorem State.repairAll_keeps (s : State) (a1 : ℕ) (a2 : ℕ) (a3 : ℕ) (hA : ∀ q, A q) (h : Keeps A d s₀ s) : Keeps A d s₀
    (State.repairAll s a1 a2 a3) := by
  unfold State.repairAll
  repeat' first
    | (with_reducible first | intro _ | assumption | apply State.forPitches_keeps | apply State.repairNotice_keeps)
    | exact hA _

theorem State.lossScaleNotice_keeps (s : State) (a1 : PitchId) (a2 : ℤ) (ha1 : A a1) (h : Keeps A d s₀ s) : Keeps A d
    s₀ (State.lossScaleNotice s a1 a2) := by
  unfold State.lossScaleNotice
  repeat' first
    | (with_reducible first
        | intro _ | assumption | apply State.notice_keeps | apply Keeps.foldl)
    | (extract_lets +onlyGivenNames lv; have hlv : Keeps A d s₀ lv; unfold lv; on_goal 2 => clear_value lv)
    | (extract_lets +onlyGivenNames lv; clear_value lv)
    | split
    | with_reducible apply netOut_keeps
    | (fail_if_no_progress with_reducible apply Keeps.ofFields)

theorem State.respond_keeps (s : State) (a1 : PitchId) (a2 : W16) (a3 : ℕ) (a4 : W32) (a5 : W16) (a6 : Refuse) (a7 :
    Bytes) (ha1 : A a1) (h : Keeps A d s₀ s) : Keeps A d s₀ (State.respond s a1 a2 a3 a4 a5 a6 a7) := by
  unfold State.respond
  repeat' first
    | (with_reducible first | intro _ | assumption | apply State.postResponse_keeps | apply State.setPitch_keeps)

theorem State.answerOwed_keeps (s : State) (a1 : PitchId) (a2 : CmdWait) (a3 : Refuse) (a4 : Bytes) (ha1 : A a1) (h :
    Keeps A d s₀ s) : Keeps A d s₀ (State.answerOwed s a1 a2 a3 a4) := by
  unfold State.answerOwed
  repeat' first
    | (with_reducible first
        | intro _ | assumption | apply State.setPitch_keeps | apply State.respond_keeps | apply Keeps.foldl)

theorem State.doorbell_keeps (s : State) (a1 : HostPort) (a2 : PitchId) (a3 : ℕ) (a4 : W32) (ha2 : A a2) (h : Keeps A d
    s₀ s) : Keeps A d s₀ (State.doorbell s a1 a2 a3 a4) := by
  unfold State.doorbell
  repeat' first
    | (with_reducible first
        | intro _ | assumption | apply State.setPitch_keeps | apply State.flushResponses_keeps
        | apply State.flushHeld_keeps)
    | (extract_lets +onlyGivenNames lv; have hlv : Keeps A d s₀ lv; unfold lv; on_goal 2 => clear_value lv)
    | (extract_lets +onlyGivenNames lv; clear_value lv) | split

theorem State.setRetained_keeps (s : State) (a1 : Vector (Option Retained) 12) (h : Keeps A d s₀ s) : Keeps A d s₀
    (State.setRetained s a1) := by
  unfold State.setRetained
  repeat' first
    | (with_reducible first
        | intro _ | assumption | apply State.program_keeps | apply Keeps.foldl)
    | (extract_lets +onlyGivenNames lv; have hlv : Keeps A d s₀ lv; unfold lv; on_goal 2 => clear_value lv)
    | (extract_lets +onlyGivenNames lv; clear_value lv)
    | split
    | with_reducible apply netOut_keeps
    | (fail_if_no_progress with_reducible apply Keeps.ofFields)

theorem State.retain_keeps (s : State) (a1 : PitchId) (ha1 : A a1) (h : Keeps A d s₀ s) : Keeps A d s₀ (State.retain s
    a1) := by
  unfold State.retain
  repeat' first
    | (with_reducible first
        | intro _ | assumption | apply State.setRetained_keeps | apply Keeps.foldl)
    | (extract_lets +onlyGivenNames lv; have hlv : Keeps A d s₀ lv; unfold lv; on_goal 2 => clear_value lv)
    | (extract_lets +onlyGivenNames lv; clear_value lv)
    | split
    | with_reducible apply netOut_keeps
    | (fail_if_no_progress with_reducible apply Keeps.ofFields)

theorem State.modRetained_keeps (s : State) (a1 : PitchId) (a2 : Retained → Retained) (ha1 : A a1) (h : Keeps A d s₀ s)
    : Keeps A d s₀ (State.modRetained s a1 a2) := by
  unfold State.modRetained
  repeat' first
    | (with_reducible first
        | intro _ | assumption | apply State.setRetained_keeps | apply Keeps.foldl)
    | (extract_lets +onlyGivenNames lv; have hlv : Keeps A d s₀ lv; unfold lv; on_goal 2 => clear_value lv)
    | (extract_lets +onlyGivenNames lv; clear_value lv)
    | split
    | with_reducible apply netOut_keeps
    | (fail_if_no_progress with_reducible apply Keeps.ofFields)

theorem State.retainGuard_keeps (s : State) (a1 : PitchId) (ha1 : A a1) (h : Keeps A d s₀ s) : Keeps A d s₀
    (State.retainGuard s a1) := by
  unfold State.retainGuard
  repeat' first
    | (with_reducible first
        | intro _ | assumption | apply State.modRetained_keeps | apply Keeps.foldl)
    | (extract_lets +onlyGivenNames lv; have hlv : Keeps A d s₀ lv; unfold lv; on_goal 2 => clear_value lv)
    | (extract_lets +onlyGivenNames lv; clear_value lv)
    | split
    | with_reducible apply netOut_keeps
    | (fail_if_no_progress with_reducible apply Keeps.ofFields)

theorem State.dropIngestReads_keeps (s : State) (a1 : PitchId) (ha1 : A a1) (h : Keeps A d s₀ s) : Keeps A d s₀
    (State.dropIngestReads s a1) := by
  unfold State.dropIngestReads
  repeat' first
    | (with_reducible first
        | intro _ | assumption | apply Keeps.foldl)
    | (extract_lets +onlyGivenNames lv; have hlv : Keeps A d s₀ lv; unfold lv; on_goal 2 => clear_value lv)
    | (extract_lets +onlyGivenNames lv; clear_value lv)
    | split
    | with_reducible apply netOut_keeps
    | (fail_if_no_progress with_reducible apply Keeps.ofFields)

theorem State.cutStep_keeps (s : State) (a1 : PitchId) (ha1 : A a1) (h : Keeps A d s₀ s) : Keeps A d s₀ (State.cutStep
    s a1) := by
  unfold State.cutStep
  repeat' first
    | (with_reducible first
        | intro _ | assumption | apply State.dropIngestReads_keeps | apply State.setPitch_keeps
        | apply State.draw_keeps | apply State.write_keeps | apply State.modPitch_keeps | apply Keeps.foldl)
    | with_reducible refine State.draw_match_keeps _ ?_ ?_
    | (extract_lets +onlyGivenNames lv; have hlv : Keeps A d s₀ lv; unfold lv; on_goal 2 => clear_value lv)
    | (extract_lets +onlyGivenNames lv; clear_value lv)
    | split
    | with_reducible apply netOut_keeps
    | (fail_if_no_progress with_reducible apply Keeps.ofFields)

theorem State.abortDescriptors_keeps (s : State) (a1 : PitchId) (ha1 : A a1) (h : Keeps A d s₀ s) : Keeps A d s₀
    (State.abortDescriptors s a1) := by
  unfold State.abortDescriptors
  repeat' first
    | (with_reducible first
        | intro _ | assumption | apply State.complete_keeps | apply State.modPitch_keeps | apply Keeps.foldl)
    | split

theorem State.answerBroken_keeps (s : State) (a1 : PitchId) (ha1 : A a1) (h : Keeps A d s₀ s) : Keeps A d s₀
    (State.answerBroken s a1) := by
  unfold State.answerBroken
  repeat' first
    | (with_reducible first | intro _ | assumption | apply State.answerOwed_keeps | apply Keeps.foldl)

theorem State.faultPitch_keeps (s : State) (a1 : PitchId) (ha1 : A a1) (h : Keeps A d s₀ s) : Keeps A d s₀
    (State.faultPitch s a1) := by
  unfold State.faultPitch
  repeat' first
    | (with_reducible first
        | intro _ | assumption | apply State.modPitch_keeps | apply State.cutStep_keeps
        | apply State.answerOwed_keeps | apply State.retain_keeps | apply State.answerBroken_keeps
        | apply Keeps.foldl)
    | (extract_lets +onlyGivenNames lv; have hlv : Keeps A d s₀ lv; unfold lv; on_goal 2 => clear_value lv)
    | (extract_lets +onlyGivenNames lv; clear_value lv)
    | split
    | with_reducible apply netOut_keeps
    | (fail_if_no_progress with_reducible apply Keeps.ofFields)

theorem State.fencePitch_keeps (s : State) (a1 : PitchId) (a2 : W32) (ha1 : A a1) (h : Keeps A d s₀ s) : Keeps A d s₀
    (State.fencePitch s a1 a2) := by
  unfold State.fencePitch
  repeat' first
    | (with_reducible first
        | intro _ | assumption | apply State.modPitch_keeps | apply State.cutStep_keeps
        | apply State.answerOwed_keeps | apply State.retain_keeps | apply State.answerBroken_keeps
        | apply State.notice_keeps | apply Keeps.foldl)
    | (extract_lets +onlyGivenNames lv; have hlv : Keeps A d s₀ lv; unfold lv; on_goal 2 => clear_value lv)
    | (extract_lets +onlyGivenNames lv; clear_value lv)
    | split
    | with_reducible apply netOut_keeps
    | (fail_if_no_progress with_reducible apply Keeps.ofFields)

/-! ## Log -/

theorem State.logRaw_keeps (s : State) (a1 : ℕ) (a2 : Bytes) (h : Keeps A d s₀ s) : Keeps A d s₀ (State.logRaw s a1 a2)
    := by
  unfold State.logRaw
  repeat' first
    | (with_reducible first
        | intro _ | assumption | apply State.program_keeps | apply Keeps.foldl)
    | (extract_lets +onlyGivenNames lv; have hlv : Keeps A d s₀ lv; unfold lv; on_goal 2 => clear_value lv)
    | (extract_lets +onlyGivenNames lv; clear_value lv)
    | split
    | with_reducible apply netOut_keeps
    | (fail_if_no_progress with_reducible apply Keeps.ofFields)

theorem State.logEvent_keeps (s : State) (a1 : ℕ) (a2 : Bytes) (h : Keeps A d s₀ s) : Keeps A d s₀ (State.logEvent s a1
    a2) := by
  unfold State.logEvent
  repeat' first
    | (with_reducible first | intro _ | assumption | apply State.logRaw_keeps | apply netOut_keeps)
    | (extract_lets +onlyGivenNames lv; clear_value lv) | split | (fail_if_no_progress with_reducible apply Keeps.ofFields)

theorem State.repairDone_keeps (s : State) (a1 : ℕ) (a2 : ℕ) (a3 : ℕ) (a4 : ℕ) (a5 : ℕ) (hA : ∀ q, A q) (h : Keeps A d s₀ s) :
    Keeps A d s₀ (State.repairDone s a1 a2 a3 a4 a5) := by
  unfold State.repairDone
  extract_lets +onlyGivenNames h1 h2 h3 m
  have hm : Keeps A d s₀ m := State.logEvent_keeps _ _ _ (Keeps.ofFields h)
  clear_value m
  split
  · exact State.repairAll_keeps _ _ _ _ hA hm
  · exact Keeps.ofFields hm

theorem State.holdRepair_keeps (s : State) (a1 : ℕ) (a2 : ℕ) (a3 : ℕ) (h : Keeps A d s₀ s) : Keeps A d s₀
    (State.holdRepair s a1 a2 a3) := by
  unfold State.holdRepair
  repeat' first
    | (with_reducible first | intro _ | assumption | apply netOut_keeps)
    | (extract_lets +onlyGivenNames lv; clear_value lv) | split | (fail_if_no_progress with_reducible apply Keeps.ofFields)

theorem State.takeSpare_keeps (s : State) (a1 : ℕ) (h : Keeps A d s₀ s) : Keeps A d s₀ (State.takeSpare s a1) := by
  unfold State.takeSpare
  repeat' first
    | (with_reducible first | intro _ | assumption | apply netOut_keeps)
    | (extract_lets +onlyGivenNames lv; clear_value lv) | (fail_if_no_progress with_reducible apply Keeps.ofFields)

theorem State.repairFault_keeps (s : State) (a1 : PitchId) (ha1 : A a1) (h : Keeps A d s₀ s) : Keeps A d s₀
    (State.repairFault s a1) := by
  unfold State.repairFault
  repeat' first
    | (with_reducible first | intro _ | assumption | apply State.faultPitch_keeps | apply State.openFault_keeps) | split

/-! ## Operands -/

theorem State.countCatch_keeps (s : State) (a1 : Bool) (h : Keeps A d s₀ s) : Keeps A d s₀ (State.countCatch s a1) := by
  unfold State.countCatch
  repeat' first
    | (with_reducible first | intro _ | assumption | apply netOut_keeps)
    | (extract_lets +onlyGivenNames lv; clear_value lv) | split | (fail_if_no_progress with_reducible apply Keeps.ofFields)

theorem State.breakSlice_keeps (s : State) (a1 : ℕ) (a2 : ℕ) (h : Keeps A d s₀ s) : Keeps A d s₀ (State.breakSlice s a1
    a2) := by
  unfold State.breakSlice
  repeat' first
    | (with_reducible first | intro _ | assumption | apply netOut_keeps)
    | split | (fail_if_no_progress with_reducible apply Keeps.ofFields)

theorem State.breakUnit_keeps (s : State) (a1 : ℕ) (h : Keeps A d s₀ s) : Keeps A d s₀ (State.breakUnit s a1) := by
  unfold State.breakUnit
  repeat' first
    | (with_reducible first
        | intro _ | assumption | apply State.breakSlice_keeps | apply Keeps.foldl)
    | (extract_lets +onlyGivenNames lv; have hlv : Keeps A d s₀ lv; unfold lv; on_goal 2 => clear_value lv)
    | (extract_lets +onlyGivenNames lv; clear_value lv)
    | split
    | with_reducible apply netOut_keeps
    | (fail_if_no_progress with_reducible apply Keeps.ofFields)

theorem State.refusedAdds_keeps (s : State) (a1 : PitchId) (a2 : ℕ) (ha1 : A a1) (h : Keeps A d s₀ s) : Keeps A d s₀
    (State.refusedAdds s a1 a2) := by
  unfold State.refusedAdds
  repeat' first
    | (with_reducible first
        | intro _ | assumption | apply State.countCatch_keeps | apply State.count_keeps | apply Keeps.foldl)
    | (extract_lets +onlyGivenNames lv; have hlv : Keeps A d s₀ lv; unfold lv; on_goal 2 => clear_value lv)
    | (extract_lets +onlyGivenNames lv; clear_value lv)
    | split
    | with_reducible apply netOut_keeps
    | (fail_if_no_progress with_reducible apply Keeps.ofFields)

theorem State.checkedBlock_keeps (s : State) (a1 : PitchId) (a2 : ℕ) (a3 : BlockCheck) (a4 : State → State) (ha1 : A
    a1) (ha4 : ∀ (x : State), Keeps A d s₀ x → Keeps A d s₀ (a4 x)) (h : Keeps A d s₀ s) : Keeps A d s₀
    (State.checkedBlock s a1 a2 a3 a4) := by
  unfold State.checkedBlock
  repeat' first
    | (with_reducible first
        | intro _ | assumption | apply ha4 | apply State.countCatch_keeps | apply State.count_keeps
        | apply State.refusedAdds_keeps | apply State.breakUnit_keeps | apply Keeps.foldl)
    | (extract_lets +onlyGivenNames lv; have hlv : Keeps A d s₀ lv; unfold lv; on_goal 2 => clear_value lv)
    | (extract_lets +onlyGivenNames lv; clear_value lv)
    | split
    | with_reducible apply netOut_keeps
    | (fail_if_no_progress with_reducible apply Keeps.ofFields)

theorem State.setCrec_keeps (s : State) (a1 : PitchId) (a2 : ℕ) (a3 : ℕ) (a4 : CRec) (ha1 : A a1) (h : Keeps A d s₀ s) :
    Keeps A d s₀ (State.setCrec s a1 a2 a3 a4) := by
  unfold State.setCrec
  repeat' with_reducible first | intro _ | assumption | apply State.write_keeps

/-! ## Channel -/

theorem State.enqueueAll_keeps (s : State) (a1 : PitchId) (a2 : List TxFrame) (ha1 : A a1) (h : Keeps A d s₀ s) : Keeps
    A d s₀ (State.enqueueAll s a1 a2) := by
  unfold State.enqueueAll
  repeat' with_reducible first | intro _ | assumption | apply State.modPitch_keeps

theorem State.sendControlAs_keeps (s : State) (a1 : PitchId) (a2 : NetPort) (a3 : ℕ) (a4 : ℕ) (a5 : Secret) (a6 : ℕ) (a7
    : ℕ → Bytes) (ha1 : A a1) (h : Keeps A d s₀ s) : Keeps A d s₀ (State.sendControlAs s a1 a2 a3 a4 a5 a6 a7) := by
  unfold State.sendControlAs
  repeat' first
    | (with_reducible first | intro _ | assumption | apply State.setPitch_keeps | apply netOut_keeps)

theorem State.sendControl_keeps (s : State) (a1 : PitchId) (a2 : NetPort) (a3 : ℕ) (a4 : ℕ) (a5 : ℕ → Bytes) (ha1 : A
    a1) (h : Keeps A d s₀ s) : Keeps A d s₀ (State.sendControl s a1 a2 a3 a4 a5) := by
  unfold State.sendControl
  repeat' first | (with_reducible first | intro _ | assumption | apply State.sendControlAs_keeps) | split

theorem State.sendAck_keeps (s : State) (a1 : PitchId) (a2 : ℕ) (a3 : ℕ) (ha1 : A a1) (h : Keeps A d s₀ s) : Keeps A d
    s₀ (State.sendAck s a1 a2 a3) := by
  unfold State.sendAck
  repeat' first
    | (with_reducible first | intro _ | assumption | apply State.sendControl_keeps | apply State.modPitch_keeps)
    | (extract_lets +onlyGivenNames lv; clear_value lv) | split

theorem State.ackDup_keeps (s : State) (a1 : PitchId) (a2 : ℕ) (a3 : ℕ) (a4 : NetPort) (ha1 : A a1) (h : Keeps A d s₀ s)
    : Keeps A d s₀ (State.ackDup s a1 a2 a3 a4) := by
  unfold State.ackDup
  repeat' first
    | (with_reducible first | intro _ | assumption | apply State.modPitch_keeps | apply State.sendAck_keeps)
    | (extract_lets +onlyGivenNames lv; have hlv : Keeps A d s₀ lv; unfold lv; on_goal 2 => clear_value lv)
    | (extract_lets +onlyGivenNames lv; clear_value lv) | split

theorem State.ackNote_keeps (s : State) (a1 : PitchId) (a2 : ℕ) (a3 : ℕ) (a4 : NetPort) (a5 : Bool) (ha1 : A a1) (h :
    Keeps A d s₀ s) : Keeps A d s₀ (State.ackNote s a1 a2 a3 a4 a5) := by
  unfold State.ackNote
  repeat' first
    | (with_reducible first | intro _ | assumption | apply State.modPitch_keeps | apply State.sendAck_keeps)
    | (extract_lets +onlyGivenNames lv; have hlv : Keeps A d s₀ lv; unfold lv; on_goal 2 => clear_value lv)
    | (extract_lets +onlyGivenNames lv; clear_value lv) | split

theorem State.sendNack_keeps (s : State) (a1 : PitchId) (a2 : ℕ) (a3 : ℕ) (a4 : ℕ) (a5 : ℕ) (a6 : NetPort) (ha1 : A a1)
    (h : Keeps A d s₀ s) : Keeps A d s₀ (State.sendNack s a1 a2 a3 a4 a5 a6) := by
  unfold State.sendNack
  repeat' with_reducible first | intro _ | assumption | apply State.count_keeps | apply State.sendControl_keeps

/-! ## Power -/

theorem State.setCells_keeps (s : State) (a1 : List ℕ) (a2 : CellPower) (h : Keeps A d s₀ s) : Keeps A d s₀
    (State.setCells s a1 a2) := by
  unfold State.setCells
  repeat' first
    | (with_reducible first | intro _ | assumption | apply netOut_keeps)
    | (extract_lets +onlyGivenNames lv; clear_value lv) | split | (fail_if_no_progress with_reducible apply Keeps.ofFields)

theorem State.restGroups_keeps (s : State) (h : Keeps A d s₀ s) : Keeps A d s₀ (State.restGroups s) := by
  unfold State.restGroups
  repeat' first
    | (with_reducible first
        | intro _ | assumption | apply State.setCells_keeps | apply Keeps.foldl)
    | (extract_lets +onlyGivenNames lv; have hlv : Keeps A d s₀ lv; unfold lv; on_goal 2 => clear_value lv)
    | (extract_lets +onlyGivenNames lv; clear_value lv)
    | split
    | with_reducible apply netOut_keeps
    | (fail_if_no_progress with_reducible apply Keeps.ofFields)

theorem State.settleCells_keeps (s : State) (h : Keeps A d s₀ s) : Keeps A d s₀ (State.settleCells s) := by
  unfold State.settleCells
  repeat' first
    | (with_reducible first | intro _ | assumption | apply netOut_keeps)
    | (extract_lets +onlyGivenNames lv; clear_value lv) | split | (fail_if_no_progress with_reducible apply Keeps.ofFields)

theorem State.drowseEntry_keeps (s : State) (a1 : PitchId) (ha1 : A a1) (h : Keeps A d s₀ s) : Keeps A d s₀
    (State.drowseEntry s a1) := by
  unfold State.drowseEntry
  repeat' first | (with_reducible first | intro _ | assumption | apply State.setCells_keeps) | split

theorem State.drowseWake_keeps (s : State) (a1 : PitchId) (ha1 : A a1) (h : Keeps A d s₀ s) : Keeps A d s₀
    (State.drowseWake s a1) := by
  unfold State.drowseWake
  repeat' first | (with_reducible first | intro _ | assumption | apply State.setCells_keeps) | split

/-! ## Guard -/

theorem State.spikeRun_keeps (s : State) (p : PitchId) (kind : Nat) (lg : Int) (hp : A p) (h : Keeps A d s₀ s) :
    Keeps A d s₀ (s.spikeRun p kind lg).2 := by
  unfold State.spikeRun
  extract_lets x g
  clear_value g
  split
  split
  extract_lets g' y
  clear_value y
  split
  · exact State.notice_keeps _ _ _ _ hp (State.setPitch_keeps _ _ _ hp h)
  · exact State.setPitch_keeps _ _ _ hp h

theorem State.spikeMaybe_keeps (s : State) (p : PitchId) (kind : Nat) (o : Option Int) (hp : A p) (h : Keeps A d s₀ s) :
    Keeps A d s₀ (s.spikeMaybe p kind o).2 := by
  cases o with
  | none => exact h
  | some lg => exact State.spikeRun_keeps s p kind lg hp h

theorem State.guardProgress_keeps (s : State) (p : PitchId) (hp : A p) (h : Keeps A d s₀ s) :
    Keeps A d s₀ (s.guardProgress p) := by
  unfold State.guardProgress
  split
  · exact h
  · split
    · exact State.modPitch_keeps _ _ _ hp h
    · exact State.modPitch_keeps _ _ _ hp (State.spikeMaybe_keeps _ p 1 _ hp (State.spikeMaybe_keeps s p 0 _ hp h))

theorem State.takeNorm_keeps (s : State) (a1 : PitchId) (a2 : W640) (ha1 : A a1) (h : Keeps A d s₀ s) : Keeps A d s₀
    (State.takeNorm s a1 a2) := by
  unfold State.takeNorm
  repeat' first
    | (with_reducible first | intro _ | assumption | apply State.guardProgress_keeps | apply State.modPitch_keeps)

/-! ## Checkpoint -/

theorem State.ckptBegin_keeps (s : State) (a1 : PitchId) (ha1 : A a1) (h : Keeps A d s₀ s) : Keeps A d s₀
    (State.ckptBegin s a1) := by
  unfold State.ckptBegin
  repeat' first
    | (with_reducible first
        | intro _ | assumption | apply State.setPitch_keeps | apply State.write_keeps | apply Keeps.foldl)
    | (extract_lets +onlyGivenNames lv; have hlv : Keeps A d s₀ lv; unfold lv; on_goal 2 => clear_value lv)
    | (extract_lets +onlyGivenNames lv; clear_value lv)
    | split
    | with_reducible apply netOut_keeps
    | (fail_if_no_progress with_reducible apply Keeps.ofFields)

theorem State.ckptFinish_keeps (s : State) (a1 : PitchId) (a2 : ℕ) (ha1 : A a1) (h : Keeps A d s₀ s) : Keeps A d s₀
    (State.ckptFinish s a1 a2) := by
  unfold State.ckptFinish
  repeat' first
    | (with_reducible first
        | intro _ | assumption | apply State.write_keeps | apply State.modRetained_keeps
        | apply State.setPitch_keeps | apply Keeps.foldl)
    | (extract_lets +onlyGivenNames lv; have hlv : Keeps A d s₀ lv; unfold lv; on_goal 2 => clear_value lv)
    | (extract_lets +onlyGivenNames lv; clear_value lv)
    | split
    | with_reducible apply netOut_keeps
    | (fail_if_no_progress with_reducible apply Keeps.ofFields)

theorem State.ckptOwed_keeps (s : State) (a1 : PitchId) (ha1 : A a1) (h : Keeps A d s₀ s) : Keeps A d s₀
    (State.ckptOwed s a1) := by
  unfold State.ckptOwed
  repeat' first
    | (with_reducible first
        | intro _ | assumption | apply State.retain_keeps | apply State.answerOwed_keeps
        | apply State.ckptFinish_keeps | apply Keeps.foldl)
    | (extract_lets +onlyGivenNames lv; have hlv : Keeps A d s₀ lv; unfold lv; on_goal 2 => clear_value lv)
    | (extract_lets +onlyGivenNames lv; clear_value lv)
    | split
    | with_reducible apply netOut_keeps
    | (fail_if_no_progress with_reducible apply Keeps.ofFields)

/-! ## Progress -/

theorem State.applyFuture_keeps (s : State) (a1 : PitchId) (a2 : W64) (ha1 : A a1) (h : Keeps A d s₀ s) : Keeps A d s₀
    (State.applyFuture s a1 a2) := by
  unfold State.applyFuture
  repeat' first
    | (with_reducible first
        | intro _ | assumption | apply State.setPitch_keeps | apply State.eraseAll_keeps | apply State.modRetained_keeps)
    | (extract_lets +onlyGivenNames lv; have hlv : Keeps A d s₀ lv; unfold lv; on_goal 2 => clear_value lv)
    | (extract_lets +onlyGivenNames lv; clear_value lv) | split

theorem State.beginStep_keeps (s : State) (a1 : PitchId) (a2 : W64) (ha1 : A a1) (h : Keeps A d s₀ s) : Keeps A d s₀
    (State.beginStep s a1 a2) := by
  unfold State.beginStep
  repeat' first
    | (with_reducible first
        | intro _ | assumption | apply State.applyFuture_keeps | apply State.modPitch_keeps
        | apply State.ckptOwed_keeps | apply State.dropIngestReads_keeps | apply State.drowseWake_keeps
        | apply State.guardProgress_keeps | apply State.modRetained_keeps | apply State.setPitch_keeps
        | apply State.takeNorm_keeps | apply Keeps.foldl)
    | (extract_lets +onlyGivenNames lv; have hlv : Keeps A d s₀ lv; unfold lv; on_goal 2 => clear_value lv)
    | (extract_lets +onlyGivenNames lv; clear_value lv)
    | split
    | with_reducible apply netOut_keeps
    | (fail_if_no_progress with_reducible apply Keeps.ofFields)

theorem State.stepSetOp_keeps (s : State) (a1 : PitchId) (a2 : W64) (ha1 : A a1) (h : Keeps A d s₀ s) : Keeps A d s₀
    (State.stepSetOp s a1 a2) := by
  unfold State.stepSetOp
  repeat' first
    | (with_reducible first | intro _ | assumption | apply State.setPitch_keeps | apply State.beginStep_keeps)
    | (extract_lets +onlyGivenNames lv; clear_value lv) | split

theorem State.cursorSetOp_keeps (s : State) (a1 : PitchId) (a2 : W32) (ha1 : A a1) (h : Keeps A d s₀ s) : Keeps A d s₀
    (State.cursorSetOp s a1 a2) := by
  unfold State.cursorSetOp
  repeat' first
    | (with_reducible first | intro _ | assumption | apply State.setPitch_keeps)
    | (extract_lets +onlyGivenNames lv; clear_value lv) | split

theorem State.lossInOp_keeps (s : State) (a1 : PitchId) (a2 : W32) (ha1 : A a1) (h : Keeps A d s₀ s) : Keeps A d s₀
    (State.lossInOp s a1 a2) := by
  unfold State.lossInOp
  repeat' first
    | (with_reducible first | intro _ | assumption | apply State.guardProgress_keeps | apply State.setPitch_keeps)
    | (extract_lets +onlyGivenNames lv; clear_value lv) | split

theorem State.barrierProgress_keeps (s : State) (a1 : PitchId) (a2 : W16) (a3 : ℕ) (ha1 : A a1) (h : Keeps A d s₀ s) :
    Keeps A d s₀ (State.barrierProgress s a1 a2 a3) := by
  unfold State.barrierProgress
  repeat' first
    | (with_reducible first | intro _ | assumption | apply State.setPitch_keeps | apply Keeps.foldl)
    | (extract_lets +onlyGivenNames lv; clear_value lv) | split

theorem State.firePeg_keeps (s : State) (a1 : PitchId) (a2 : Byte) (a3 : Peg → State → State) (ha3 : ∀ (b0 : Peg) (x :
    State), Keeps A d s₀ x → Keeps A d s₀ (a3 b0 x)) (ha1 : A a1) (h : Keeps A d s₀ s) : Keeps A d s₀ (State.firePeg s a1 a2
    a3) := by
  unfold State.firePeg
  repeat' first
    | (with_reducible first | intro _ | assumption | apply ha3 | apply State.modPitch_keeps)
    | split

theorem State.startStatsPeg_keeps (s : State) (a1 : PitchId) (a2 : Bool) (a3 : Peg) (ha1 : A a1) (h : Keeps A d s₀ s) :
    Keeps A d s₀ (State.startStatsPeg s a1 a2 a3) := by
  unfold State.startStatsPeg
  repeat' first
    | (with_reducible first | intro _ | assumption | apply State.setPitch_keeps)
    | (extract_lets +onlyGivenNames lv; clear_value lv) | split

theorem State.openPeg_keeps (s : State) (a1 : PitchId) (a2 : Peg) (ha1 : A a1) (h : Keeps A d s₀ s) : Keeps A d s₀
    (State.openPeg s a1 a2) := by
  unfold State.openPeg
  repeat' first
    | (with_reducible first | intro _ | assumption | apply State.modPitch_keeps)

theorem State.closePeg_keeps (s : State) (a1 : PitchId) (a2 : Peg) (ha1 : A a1) (h : Keeps A d s₀ s) : Keeps A d s₀
    (State.closePeg s a1 a2) := by
  unfold State.closePeg
  repeat' with_reducible first | intro _ | assumption | apply State.modPitch_keeps

theorem State.barrierPeg_keeps (s : State) (a1 : PitchId) (a2 : Peg) (ha1 : A a1) (h : Keeps A d s₀ s) : Keeps A d s₀
    (State.barrierPeg s a1 a2) := by
  unfold State.barrierPeg
  repeat' first
    | (with_reducible first | intro _ | assumption | apply State.barrierProgress_keeps | apply State.setPitch_keeps)
    | (extract_lets +onlyGivenNames lv; clear_value lv) | split

theorem State.checkpointPeg_keeps (s : State) (a1 : PitchId) (a2 : Peg) (ha1 : A a1) (h : Keeps A d s₀ s) : Keeps A d s₀
    (State.checkpointPeg s a1 a2) := by
  unfold State.checkpointPeg
  repeat' first
    | (with_reducible first | intro _ | assumption | apply State.modPitch_keeps)

theorem State.exportPeg_keeps (s : State) (a1 : PitchId) (a2 : Peg) (ha1 : A a1) (h : Keeps A d s₀ s) : Keeps A d s₀
    (State.exportPeg s a1 a2) := by
  unfold State.exportPeg
  repeat' first
    | (with_reducible first | intro _ | assumption | apply State.modPitch_keeps)

theorem State.endPeg_keeps (s : State) (a1 : PitchId) (a2 : Peg) (ha1 : A a1) (h : Keeps A d s₀ s) : Keeps A d s₀
    (State.endPeg s a1 a2) := by
  unfold State.endPeg
  repeat' first
    | (with_reducible first | intro _ | assumption | apply State.modPitch_keeps)

theorem State.windowWrite_keeps (s : State) (a1 : HostPort) (a2 : PitchId) (a3 : State → State) (ha3 : ∀ (x : State),
    Keeps A d s₀ x → Keeps A d s₀ (a3 x)) (ha2 : A a2) (h : Keeps A d s₀ s) : Keeps A d s₀ (State.windowWrite s a1 a2 a3) :=
    by
  unfold State.windowWrite
  repeat' first
    | (with_reducible first | intro _ | assumption | apply ha3 | apply netOut_keeps)
    | (extract_lets +onlyGivenNames lv; clear_value lv) | split | (fail_if_no_progress with_reducible apply Keeps.ofFields)

theorem State.doorbellWrite_keeps (s : State) (a1 : HostPort) (p : PitchId) (a3 : Nat) (v : W32) (hp : A p)
    (h : Keeps A d s₀ s) : Keeps A d s₀ (s.doorbellWrite a1 p a3 v) := by
  unfold State.doorbellWrite
  split
  · exact Keeps.ofFields h
  · exact State.windowWrite_keeps _ _ _ _ (fun x hx => State.doorbell_keeps _ _ _ _ _ hp hx) hp h

theorem State.oneWrite_keeps (s : State) (a1 : HostPort) (a2 : PitchId) (a3 : State → State) (ha2 : A a2) (ha3 : ∀ (x :
    State), Keeps A d s₀ x → Keeps A d s₀ (a3 x)) (h : Keeps A d s₀ s) : Keeps A d s₀ (State.oneWrite s a1 a2 a3) := by
  unfold State.oneWrite
  repeat' first
    | (with_reducible first
        | intro _ | assumption | apply ha3 | apply State.hostIn_keeps | apply State.sendHost_keeps
        | apply Keeps.foldl)
    | (extract_lets +onlyGivenNames lv; have hlv : Keeps A d s₀ lv; unfold lv; on_goal 2 => clear_value lv)
    | (extract_lets +onlyGivenNames lv; clear_value lv)
    | split
    | with_reducible apply netOut_keeps
    | (fail_if_no_progress with_reducible apply Keeps.ofFields)

theorem execStepSet_keeps (a1 : HostPort) (a2 : PitchId) (a3 : W64) (s : State) (ha2 : A a2) (h : Keeps A d s₀ s) :
    ResultKeeps A d s₀ (execStepSet a1 a2 a3 s) := by
  unfold execStepSet
  repeat' first
    | (with_reducible first
        | intro _ | assumption | apply Result.live_keeps | apply State.oneWrite_keeps
        | apply State.windowWrite_keeps | apply State.stepSetOp_keeps | apply Keeps.foldl
        | apply Result.next_keeps)
    | (extract_lets +onlyGivenNames lv; have hlv : Keeps A d s₀ lv; unfold lv; on_goal 2 => clear_value lv)
    | (extract_lets +onlyGivenNames lv; clear_value lv)
    | split
    | with_reducible apply netOut_keeps
    | (fail_if_no_progress with_reducible apply Keeps.ofFields)

theorem execCursorSet_keeps (a1 : HostPort) (a2 : PitchId) (a3 : W32) (s : State) (ha2 : A a2) (h : Keeps A d s₀ s) :
    ResultKeeps A d s₀ (execCursorSet a1 a2 a3 s) := by
  unfold execCursorSet
  repeat' first
    | (with_reducible first
        | intro _ | assumption | apply Result.live_keeps | apply State.oneWrite_keeps
        | apply State.windowWrite_keeps | apply State.cursorSetOp_keeps | apply Keeps.foldl
        | apply Result.next_keeps)
    | (extract_lets +onlyGivenNames lv; have hlv : Keeps A d s₀ lv; unfold lv; on_goal 2 => clear_value lv)
    | (extract_lets +onlyGivenNames lv; clear_value lv)
    | split
    | with_reducible apply netOut_keeps
    | (fail_if_no_progress with_reducible apply Keeps.ofFields)

theorem execLossIn_keeps (a1 : HostPort) (a2 : PitchId) (a3 : W32) (s : State) (ha2 : A a2) (h : Keeps A d s₀ s) :
    ResultKeeps A d s₀ (execLossIn a1 a2 a3 s) := by
  unfold execLossIn
  repeat' first
    | (with_reducible first
        | intro _ | assumption | apply Result.live_keeps | apply State.oneWrite_keeps
        | apply State.windowWrite_keeps | apply State.lossInOp_keeps | apply Keeps.foldl
        | apply Result.next_keeps)
    | (extract_lets +onlyGivenNames lv; have hlv : Keeps A d s₀ lv; unfold lv; on_goal 2 => clear_value lv)
    | (extract_lets +onlyGivenNames lv; clear_value lv)
    | split
    | with_reducible apply netOut_keeps
    | (fail_if_no_progress with_reducible apply Keeps.ofFields)

theorem execDbCtrl_keeps (a1 : HostPort) (a2 : PitchId) (a3 : W32) (s : State) (ha2 : A a2) (h : Keeps A d s₀ s) :
    ResultKeeps A d s₀ (execDbCtrl a1 a2 a3 s) := by
  unfold execDbCtrl
  repeat' first
    | (with_reducible first
        | intro _ | assumption | apply Result.live_keeps | apply State.oneWrite_keeps
        | apply State.doorbellWrite_keeps | apply Keeps.foldl | apply Result.next_keeps)
    | (extract_lets +onlyGivenNames lv; have hlv : Keeps A d s₀ lv; unfold lv; on_goal 2 => clear_value lv)
    | (extract_lets +onlyGivenNames lv; clear_value lv)
    | split
    | with_reducible apply netOut_keeps
    | (fail_if_no_progress with_reducible apply Keeps.ofFields)

theorem execDbWork_keeps (a1 : HostPort) (a2 : PitchId) (a3 : W32) (s : State) (ha2 : A a2) (h : Keeps A d s₀ s) :
    ResultKeeps A d s₀ (execDbWork a1 a2 a3 s) := by
  unfold execDbWork
  repeat' first
    | (with_reducible first
        | intro _ | assumption | apply Result.live_keeps | apply State.oneWrite_keeps
        | apply State.doorbellWrite_keeps | apply Keeps.foldl | apply Result.next_keeps)
    | (extract_lets +onlyGivenNames lv; have hlv : Keeps A d s₀ lv; unfold lv; on_goal 2 => clear_value lv)
    | (extract_lets +onlyGivenNames lv; clear_value lv)
    | split
    | with_reducible apply netOut_keeps
    | (fail_if_no_progress with_reducible apply Keeps.ofFields)

theorem execDbCpl_keeps (a1 : HostPort) (a2 : PitchId) (a3 : W32) (s : State) (ha2 : A a2) (h : Keeps A d s₀ s) :
    ResultKeeps A d s₀ (execDbCpl a1 a2 a3 s) := by
  unfold execDbCpl
  repeat' first
    | (with_reducible first
        | intro _ | assumption | apply Result.live_keeps | apply State.oneWrite_keeps
        | apply State.doorbellWrite_keeps | apply Keeps.foldl | apply Result.next_keeps)
    | (extract_lets +onlyGivenNames lv; have hlv : Keeps A d s₀ lv; unfold lv; on_goal 2 => clear_value lv)
    | (extract_lets +onlyGivenNames lv; clear_value lv)
    | split
    | with_reducible apply netOut_keeps
    | (fail_if_no_progress with_reducible apply Keeps.ofFields)

theorem execStartStats_keeps (a0 : PitchId) (a1 : Bool) (s : State) (ha0 : A a0) (h : Keeps A d s₀ s) : ResultKeeps A d
    s₀ (execStartStats a0 a1 s) := by
  unfold execStartStats
  repeat' with_reducible first
    | intro _ | assumption | apply State.firePeg_keeps | apply State.startStatsPeg_keeps | apply Result.live_keeps

theorem execOpenWindow_keeps (a0 : PitchId) (s : State) (ha0 : A a0) (h : Keeps A d s₀ s) : ResultKeeps A d s₀
    (execOpenWindow a0 s) := by
  unfold execOpenWindow
  repeat' with_reducible first
    | intro _ | assumption | apply State.firePeg_keeps | apply State.openPeg_keeps | apply Result.live_keeps

theorem execCloseWindow_keeps (a0 : PitchId) (s : State) (ha0 : A a0) (h : Keeps A d s₀ s) : ResultKeeps A d s₀
    (execCloseWindow a0 s) := by
  unfold execCloseWindow
  repeat' with_reducible first
    | intro _ | assumption | apply State.firePeg_keeps | apply State.closePeg_keeps | apply Result.live_keeps

theorem execBarrier_keeps (a0 : PitchId) (s : State) (ha0 : A a0) (h : Keeps A d s₀ s) : ResultKeeps A d s₀ (execBarrier
    a0 s) := by
  unfold execBarrier
  repeat' with_reducible first
    | intro _ | assumption | apply State.firePeg_keeps | apply State.barrierPeg_keeps | apply Result.live_keeps

theorem execCheckpoint_keeps (a0 : PitchId) (s : State) (ha0 : A a0) (h : Keeps A d s₀ s) : ResultKeeps A d s₀
    (execCheckpoint a0 s) := by
  unfold execCheckpoint
  repeat' with_reducible first
    | intro _ | assumption | apply State.firePeg_keeps | apply State.checkpointPeg_keeps | apply Result.live_keeps

theorem execExportSnapshot_keeps (a0 : PitchId) (s : State) (ha0 : A a0) (h : Keeps A d s₀ s) : ResultKeeps A d s₀
    (execExportSnapshot a0 s) := by
  unfold execExportSnapshot
  repeat' with_reducible first
    | intro _ | assumption | apply State.firePeg_keeps | apply State.exportPeg_keeps | apply Result.live_keeps

theorem execEndStep_keeps (a0 : PitchId) (s : State) (ha0 : A a0) (h : Keeps A d s₀ s) : ResultKeeps A d s₀ (execEndStep
    a0 s) := by
  unfold execEndStep
  repeat' with_reducible first
    | intro _ | assumption | apply State.firePeg_keeps | apply State.endPeg_keeps | apply Result.live_keeps

theorem State.cursorStallOp_keeps (s : State) (a1 : PitchId) (ha1 : A a1) (h : Keeps A d s₀ s) : Keeps A d s₀
    (State.cursorStallOp s a1) := by
  unfold State.cursorStallOp
  repeat' first
    | (with_reducible first | intro _ | assumption | apply State.setPitch_keeps | apply State.notice_keeps)
    | (extract_lets +onlyGivenNames lv; have hlv : Keeps A d s₀ lv; unfold lv; on_goal 2 => clear_value lv)
    | (extract_lets +onlyGivenNames lv; clear_value lv) | split

theorem execCursorStall_keeps (a0 : PitchId) (s : State) (ha0 : A a0) (h : Keeps A d s₀ s) : ResultKeeps A d s₀
    (execCursorStall a0 s) := by
  unfold execCursorStall
  repeat' with_reducible first
    | intro _ | assumption | apply State.cursorStallOp_keeps | apply Result.live_keeps

theorem State.releaseBarrier_keeps (s : State) (a1 : PitchId) (a2 : Bool) (ha1 : A a1) (h : Keeps A d s₀ s) : Keeps A d
    s₀ (State.releaseBarrier s a1 a2) := by
  unfold State.releaseBarrier
  repeat' first
    | (with_reducible first | intro _ | assumption | apply State.sendBound_keeps | apply State.setPitch_keeps)

theorem State.barrierReleaseTimeOp_keeps (s : State) (a1 : PitchId) (ha1 : A a1) (h : Keeps A d s₀ s) : Keeps A d s₀
    (State.barrierReleaseTimeOp s a1) := by
  unfold State.barrierReleaseTimeOp
  repeat' first
    | (with_reducible first
        | intro _ | assumption | apply State.advanceTo_keeps | apply State.releaseBarrier_keeps
        | apply State.setPitch_keeps)
    | (extract_lets +onlyGivenNames lv; clear_value lv) | split

theorem execBarrierReleaseTime_keeps (a0 : PitchId) (s : State) (ha0 : A a0) (h : Keeps A d s₀ s) : ResultKeeps A d s₀
    (execBarrierReleaseTime a0 s) := by
  unfold execBarrierReleaseTime
  repeat' with_reducible first
    | intro _ | assumption | apply State.barrierReleaseTimeOp_keeps | apply Result.live_keeps

theorem State.packageReleaseOp_keeps (s : State) (a1 : BitVec 12) (hA : ∀ q, A q) (h : Keeps A d s₀ s) : Keeps A d s₀
    (State.packageReleaseOp s a1) := by
  unfold State.packageReleaseOp
  repeat' first
    | (with_reducible first
        | intro _ | assumption | apply State.releaseBarrier_keeps | apply State.advanceTo_keeps | apply Keeps.foldl)
    | exact hA _
    | (extract_lets +onlyGivenNames lv; clear_value lv) | split

theorem execPackageBarrierRelease_keeps (a0 : BitVec 12) (s : State) (hA : ∀ q, A q) (h : Keeps A d s₀ s) : ResultKeeps
    A d s₀ (execPackageBarrierRelease a0 s) := by
  unfold execPackageBarrierRelease
  repeat' first
    | (with_reducible first
        | intro _ | assumption | apply State.packageReleaseOp_keeps | apply Result.live_keeps | apply Result.next_keeps)
    | exact hA _

/-! ## HostIf -/

theorem State.putRegister_keeps (s : State) (a1 : HostPort) (a2 : PitchId) (a3 : ℕ) (a4 : ℕ) (ha2 : A a2) (h : Keeps A d
    s₀ s) : Keeps A d s₀ (State.putRegister s a1 a2 a3 a4) := by
  unfold State.putRegister
  repeat' first
    | (with_reducible first
        | intro _ | assumption | apply State.doorbell_keeps | apply State.modPitch_keeps | apply State.stepSetOp_keeps
        | apply State.cursorSetOp_keeps | apply State.lossInOp_keeps)
    | split

theorem State.countPartial_keeps (s : State) (a1 : Bool) (h : Keeps A d s₀ s) : Keeps A d s₀ (State.countPartial s a1) := by
  unfold State.countPartial
  repeat' first
    | (with_reducible first | intro _ | assumption | apply netOut_keeps)
    | (extract_lets +onlyGivenNames lv; clear_value lv) | split | (fail_if_no_progress with_reducible apply Keeps.ofFields)

theorem State.windowPut_keeps (s : State) (a1 : HostPort) (a2 : PitchId) (a3 : ℕ) (a4 : ℕ) (a5 : ℕ) (ha2 : A a2) (h :
    Keeps A d s₀ s) : Keeps A d s₀ (State.windowPut s a1 a2 a3 a4 a5) := by
  unfold State.windowPut
  repeat' first
    | (with_reducible first
        | intro _ | assumption | apply State.countPartial_keeps | apply State.putRegister_keeps | apply Keeps.foldl
        | apply netOut_keeps)
    | (extract_lets +onlyGivenNames lv; clear_value lv) | split | (fail_if_no_progress with_reducible apply Keeps.ofFields)

theorem State.applyEntry_keeps (s : State) (a1 : HostPort) (a2 : RegEntry) (hA : ∀ q, A q) (h : Keeps A d s₀ s) : Keeps
    A d s₀ (State.applyEntry s a1 a2) := by
  unfold State.applyEntry
  repeat' first
    | (with_reducible first
        | intro _ | assumption | apply State.windowPut_keeps | apply State.countPartial_keeps | apply netOut_keeps)
    | exact hA _ | (extract_lets +onlyGivenNames lv; have hlv : Keeps A d s₀ lv; unfold lv; on_goal 2 => clear_value lv)
    | (extract_lets +onlyGivenNames lv; clear_value lv) | split | (fail_if_no_progress with_reducible apply Keeps.ofFields)

theorem State.registerFlit_keeps (s : State) (a1 : HostPort) (a2 : List RegEntry) (hA : ∀ q, A q) (h : Keeps A d s₀ s) :
    Keeps A d s₀ (State.registerFlit s a1 a2) := by
  unfold State.registerFlit
  repeat' first
    | (with_reducible first
        | intro _ | assumption | apply State.sendHost_keeps | apply State.applyEntry_keeps | apply Keeps.foldl)
    | exact hA _

theorem execRegisterWrite_keeps (a1 : HostPort) (a2 : List RegEntry) (s : State) (hA : ∀ p, A p) (h : Keeps A d s₀ s) :
    ResultKeeps A d s₀ (execRegisterWrite a1 a2 s) := by
  unfold execRegisterWrite
  repeat' first
    | (with_reducible first
        | intro _ | assumption | apply Result.live_keeps | apply State.hostIn_keeps
        | apply State.registerFlit_keeps | apply Keeps.foldl | apply Result.next_keeps)
    | exact hA _
    | (extract_lets +onlyGivenNames lv; have hlv : Keeps A d s₀ lv; unfold lv; on_goal 2 => clear_value lv)
    | (extract_lets +onlyGivenNames lv; clear_value lv)
    | split
    | with_reducible apply netOut_keeps
    | (fail_if_no_progress with_reducible apply Keeps.ofFields)

theorem State.memDenied_keeps (s : State) (h : Keeps A d s₀ s) : Keeps A d s₀ (State.memDenied s) := by
  unfold State.memDenied
  repeat' first
    | (with_reducible first | intro _ | assumption | apply netOut_keeps)
    | (extract_lets +onlyGivenNames lv; clear_value lv) | (fail_if_no_progress with_reducible apply Keeps.ofFields)

end Sys2Proof.Machine
end

