-- ==== Sys2Proof/Laws/Keeps2.lean ====
section
/-! SUPPORT. What the operations of HostIf, Ingest, Stats, Window, Pack, Quantise, Agree, Reduce, Norm, Lockstep, Output, Sign, Commit, Moe keep (Laws/Keeps.lean): one lemma for each. -/

namespace Sys2Proof.Machine

variable {A : PitchId → Prop} {d : Prop} {s₀ : State}

/-! ## HostIf -/

theorem State.hostWrite_keeps (s : State) (a1 : HostPort) (a2 : ℕ) (a3 : Bytes) (hA : ∀ q, A q) (h : Keeps A d s₀ s) :
    Keeps A d s₀ (State.hostWrite s a1 a2 a3) := by
  unfold State.hostWrite
  repeat' first
    | (with_reducible first
        | intro _ | assumption | apply State.memDenied_keeps | apply State.write_keeps | apply State.modPitch_keeps
        | apply Keeps.foldl | apply State.draw_keeps | refine State.draw_match_keeps _ ?_ ?_)
    | exact hA _
    | (extract_lets +onlyGivenNames lv; clear_value lv) | split

theorem execMemWr_keeps (a1 : HostPort) (a2 : BitVec 64) (a3 : Bytes) (s : State) (hA : ∀ p, A p) (h : Keeps A d s₀ s)
    : ResultKeeps A d s₀ (execMemWr a1 a2 a3 s) := by
  unfold execMemWr
  repeat' first
    | (with_reducible first
        | intro _ | assumption | apply Result.live_keeps | apply State.hostIn_keeps
        | apply State.hostWrite_keeps | apply Keeps.foldl | apply Result.next_keeps)
    | exact hA _
    | (extract_lets +onlyGivenNames lv; have hlv : Keeps A d s₀ lv; unfold lv; on_goal 2 => clear_value lv)
    | (extract_lets +onlyGivenNames lv; clear_value lv)
    | split
    | with_reducible apply netOut_keeps
    | (fail_if_no_progress with_reducible apply Keeps.ofFields)

theorem State.hostRead_keeps (s : State) (a1 : HostPort) (a2 : W16) (a3 : ℕ) (a4 : ℕ) (h : Keeps A d s₀ s) : Keeps A d
    s₀ (State.hostRead s a1 a2 a3 a4) := by
  unfold State.hostRead
  repeat' first
    | (with_reducible first
        | intro _ | assumption | apply State.sendHost_keeps | apply State.memDenied_keeps | apply State.draw_keeps
        | refine State.draw_match_keeps _ ?_ ?_)
    | (extract_lets +onlyGivenNames lv; clear_value lv) | split

theorem execMemRd_keeps (a1 : HostPort) (a2 : W16) (a3 : BitVec 64) (a4 : ℕ) (s : State) (h : Keeps A d s₀ s) :
    ResultKeeps A d s₀ (execMemRd a1 a2 a3 a4 s) := by
  unfold execMemRd
  repeat' first
    | (with_reducible first
        | intro _ | assumption | apply Result.live_keeps | apply State.hostIn_keeps
        | apply State.hostRead_keeps | apply Keeps.foldl | apply Result.next_keeps)
    | (extract_lets +onlyGivenNames lv; have hlv : Keeps A d s₀ lv; unfold lv; on_goal 2 => clear_value lv)
    | (extract_lets +onlyGivenNames lv; clear_value lv)
    | split
    | with_reducible apply netOut_keeps
    | (fail_if_no_progress with_reducible apply Keeps.ofFields)

theorem State.askHost_keeps (s : State) (a1 : HostPort) (a2 : W64) (a3 : ℕ) (a4 : DmaUse) (h : Keeps A d s₀ s) : Keeps A
    d s₀ (State.askHost s a1 a2 a3 a4) := by
  unfold State.askHost
  repeat' first
    | (with_reducible first
        | intro _ | assumption | apply State.sendHost_keeps | apply Keeps.foldl | apply netOut_keeps)
    | (fail_if_no_progress with_reducible apply Keeps.ofFields)

theorem State.hostStore_keeps (s : State) (a1 : HostPort) (a2 : W64) (a3 : Bytes) (h : Keeps A d s₀ s) : Keeps A d s₀
    (State.hostStore s a1 a2 a3) := by
  unfold State.hostStore
  repeat' with_reducible first | intro _ | assumption | apply State.sendHost_keeps | apply Keeps.foldl

theorem State.flitNak_keeps (s : State) (a1 : HostPort) (h : Keeps A d s₀ s) : Keeps A d s₀ (State.flitNak s a1) := by
  unfold State.flitNak
  repeat' first
    | (with_reducible first
        | intro _ | assumption | apply State.sendHost_keeps | apply Keeps.foldl)
    | (extract_lets +onlyGivenNames lv; have hlv : Keeps A d s₀ lv; unfold lv; on_goal 2 => clear_value lv)
    | (extract_lets +onlyGivenNames lv; clear_value lv)
    | split
    | with_reducible apply netOut_keeps
    | (fail_if_no_progress with_reducible apply Keeps.ofFields)

theorem State.replay_keeps (s : State) (a1 : HostPort) (a2 : Bytes → Bool) (h : Keeps A d s₀ s) :
    Keeps A d s₀ (s.replay a1 a2) := by
  unfold State.replay
  extract_lets hp fs
  split
  · exact h
  · exact Keeps.ofHostOut h

theorem State.nakIn_keeps (s : State) (a1 : HostPort) (a2 : BitVec 10) (h : Keeps A d s₀ s) : Keeps A d s₀ (State.nakIn
    s a1 a2) := by
  unfold State.nakIn
  repeat' first
    | (with_reducible first
        | intro _ | assumption | apply State.replay_keeps | apply Keeps.foldl)
    | (extract_lets +onlyGivenNames lv; have hlv : Keeps A d s₀ lv; unfold lv; on_goal 2 => clear_value lv)
    | (extract_lets +onlyGivenNames lv; clear_value lv)
    | split
    | with_reducible apply netOut_keeps
    | (fail_if_no_progress with_reducible apply Keeps.ofFields)

theorem execLinkNak_keeps (a1 : HostPort) (a2 : BitVec 10) (s : State) (h : Keeps A d s₀ s) : ResultKeeps A d s₀
    (execLinkNak a1 a2 s) := by
  unfold execLinkNak
  repeat' first
    | (with_reducible first
        | intro _ | assumption | apply Result.live_keeps | apply State.hostIn_keeps | apply State.nakIn_keeps
        | apply Keeps.foldl | apply Result.next_keeps)
    | (extract_lets +onlyGivenNames lv; have hlv : Keeps A d s₀ lv; unfold lv; on_goal 2 => clear_value lv)
    | (extract_lets +onlyGivenNames lv; clear_value lv)
    | split
    | with_reducible apply netOut_keeps
    | (fail_if_no_progress with_reducible apply Keeps.ofFields)

theorem State.trained_keeps (s : State) (a1 : HostPort) (a2 : BitVec 4) (a3 : HostRate) (h : Keeps A d s₀ s) : Keeps A
    d s₀ (State.trained s a1 a2 a3) := by
  unfold State.trained
  repeat' first
    | (with_reducible first
        | intro _ | assumption | apply Keeps.foldl)
    | (extract_lets +onlyGivenNames lv; have hlv : Keeps A d s₀ lv; unfold lv; on_goal 2 => clear_value lv)
    | (extract_lets +onlyGivenNames lv; clear_value lv)
    | split
    | with_reducible apply netOut_keeps
    | (fail_if_no_progress with_reducible apply Keeps.ofFields)

theorem State.hostRetrain_keeps (s : State) (a1 : HostPort) (a2 : BitVec 4) (a3 : HostRate) (hA : ∀ p, A p) (h : Keeps
    A d s₀ s) : Keeps A d s₀ (State.hostRetrain s a1 a2 a3) := by
  unfold State.hostRetrain
  repeat' first
    | (with_reducible first
        | intro _ | assumption | apply State.trained_keeps | apply State.replay_keeps
        | apply State.modPitch_keeps | apply State.repairDone_keeps | apply Keeps.foldl)
    | exact hA _
    | (extract_lets +onlyGivenNames lv; have hlv : Keeps A d s₀ lv; unfold lv; on_goal 2 => clear_value lv)
    | (extract_lets +onlyGivenNames lv; clear_value lv)
    | split
    | with_reducible apply netOut_keeps
    | (fail_if_no_progress with_reducible apply Keeps.ofFields)

theorem execHostLinkRetrain_keeps (a1 : HostPort) (a2 : BitVec 4) (a3 : HostRate) (s : State) (hA : ∀ p, A p) (h :
    Keeps A d s₀ s) : ResultKeeps A d s₀ (execHostLinkRetrain a1 a2 a3 s) := by
  unfold execHostLinkRetrain
  repeat' first
    | (with_reducible first
        | intro _ | assumption | apply Result.live_keeps | apply State.hostRetrain_keeps | apply Keeps.foldl
        | apply Result.next_keeps)
    | exact hA _
    | (extract_lets +onlyGivenNames lv; have hlv : Keeps A d s₀ lv; unfold lv; on_goal 2 => clear_value lv)
    | (extract_lets +onlyGivenNames lv; clear_value lv)
    | split
    | with_reducible apply netOut_keeps
    | (fail_if_no_progress with_reducible apply Keeps.ofFields)

/-! ## Ingest -/

theorem State.endDesc_keeps (s : State) (a1 : PitchId) (a2 : DescJob) (a3 : ℕ) (a4 : ℕ) (ha1 : A a1) (h : Keeps A d s₀
    s) : Keeps A d s₀ (State.endDesc s a1 a2 a3 a4) := by
  unfold State.endDesc
  repeat' first
    | (with_reducible first
        | intro _ | assumption | apply State.complete_keeps | apply Keeps.foldl)
    | (extract_lets +onlyGivenNames lv; have hlv : Keeps A d s₀ lv; unfold lv; on_goal 2 => clear_value lv)
    | (extract_lets +onlyGivenNames lv; clear_value lv)
    | split
    | with_reducible apply netOut_keeps
    | (fail_if_no_progress with_reducible apply Keeps.ofFields)

theorem State.runDesc_keeps (s : State) (p : PitchId) (work : DescWork) (j : DescJob) (hp : A p)
    (hwork : ∀ (j : DescJob) (x : State), Keeps A d s₀ x → DescKeeps A d s₀ (work j x)) (h : Keeps A d s₀ s) :
    Keeps A d s₀ (s.runDesc p work j) := by
  unfold State.runDesc
  have hw := hwork j s h
  revert hw
  cases work j s with
  | refuse st det => intro _; exact State.endDesc_keeps _ _ _ _ _ hp (State.modPitch_keeps _ _ _ hp h)
  | take f => intro hw; exact hw _ (State.modPitch_keeps _ _ _ hp h)
  | wait t => intro hw; exact State.modPitch_keeps _ _ _ hp hw

theorem State.descriptor_keeps (s : State) (p : PitchId) (q : Nat) (mine : Bytes → Bool) (check : Bytes → Check) (work : DescWork)
    (hp : A p) (hwork : ∀ (j : DescJob) (x : State), Keeps A d s₀ x → DescKeeps A d s₀ (work j x)) (h : Keeps A d s₀ s) :
    Keeps A d s₀ (s.descriptor p q mine check work) := by
  unfold State.descriptor
  split
  · exact h
  · extract_lets +onlyGivenNames x
    split
    · extract_lets +onlyGivenNames j t
      have ht : Keeps A d s₀ t := State.modPitch_keeps _ _ _ hp h
      clear_value t
      split
      · refine State.endDesc_keeps _ _ _ _ _ hp ?_
        split
        · exact State.count_keeps _ _ _ _ hp ht
        · exact ht
      · exact State.runDesc_keeps _ _ _ _ hp hwork ht
    · exact h

theorem execReservedKindDescriptor_keeps (a1 : PitchId) (a2 : ℕ) (s : State) (ha1 : A a1) (h : Keeps A d s₀ s) :
    ResultKeeps A d s₀ (execReservedKindDescriptor a1 a2 s) := by
  unfold execReservedKindDescriptor
  repeat' first
    | (with_reducible first
        | intro _ | assumption | apply Result.live_keeps | apply State.descriptor_keeps | apply Keeps.foldl
        | apply Result.next_keeps | apply DescOut.id_keeps | apply DescOut.refuse_keeps
        | apply DescOut.take_keeps | apply DescOut.wait_keeps)
    | (extract_lets +onlyGivenNames lv; have hlv : Keeps A d s₀ lv; unfold lv; on_goal 2 => clear_value lv)
    | (extract_lets +onlyGivenNames lv; clear_value lv)
    | split
    | with_reducible apply netOut_keeps
    | (fail_if_no_progress with_reducible apply Keeps.ofFields)

theorem State.applyRange_keeps (s : State) (a1 : PitchId) (a2 : ℕ) (a3 : IngestRange) (ha1 : A a1) (h : Keeps A d s₀ s)
    : Keeps A d s₀ (State.applyRange s a1 a2 a3) := by
  unfold State.applyRange
  repeat' first
    | (with_reducible first
        | intro _ | assumption | apply State.setPitch_keeps | apply State.spillWrite_keeps | apply State.write_keeps
        | apply State.raise_keeps | apply Keeps.foldl)
    | (extract_lets +onlyGivenNames lv; have hlv : Keeps A d s₀ lv; unfold lv; on_goal 2 => clear_value lv)
    | (extract_lets +onlyGivenNames lv; clear_value lv) | split

theorem applyRanges_keeps (p : PitchId) (b : Nat) (n : Nat) (s : State) (hp : A p) (h : Keeps A d s₀ s) : Keeps A d s₀
    (applyRanges p b n s) := by
  induction n generalizing s with
  | zero => exact h
  | succ n ih =>
    unfold applyRanges
    repeat' first
      | with_reducible assumption | with_reducible apply ih | with_reducible apply State.modPitch_keeps
      | with_reducible apply State.applyRange_keeps | exact hA _ | with_reducible apply Keeps.foldl | intro _
      | with_reducible apply State.draw_keeps
      | with_reducible refine State.draw_match_keeps _ ?_ ?_ | split

theorem completeBatches_keeps (p : PitchId) (b : Nat) (n : Nat) (s : State) (hp : A p) (h : Keeps A d s₀ s) : Keeps A d
    s₀ (completeBatches p b n s) := by
  induction n generalizing s with
  | zero => exact h
  | succ n ih =>
    unfold completeBatches
    repeat' first
      | with_reducible assumption | with_reducible apply ih | with_reducible apply State.modPitch_keeps
      | with_reducible apply State.complete_keeps | exact hA _ | with_reducible apply Keeps.foldl | intro _
      | (extract_lets +onlyGivenNames lv; clear_value lv) | with_reducible apply State.draw_keeps
      | with_reducible refine State.draw_match_keeps _ ?_ ?_ | split

theorem State.ingestArrive_keeps (s : State) (a1 : PitchId) (a2 : ℕ) (a3 : ℕ) (a4 : ℕ) (a5 : Bool) (a6 : ℕ) (a7 : Bytes)
    (ha1 : A a1) (h : Keeps A d s₀ s) : Keeps A d s₀ (State.ingestArrive s a1 a2 a3 a4 a5 a6 a7) := by
  unfold State.ingestArrive
  repeat' first
    | (with_reducible first
        | intro _ | assumption | apply State.modPitch_keeps | apply completeBatches_keeps | apply applyRanges_keeps)

theorem State.ingestAccept_keeps (s : State) (a1 : PitchId) (a2 : ℕ) (a3 : Bytes) (a4 : W16) (ha1 : A a1) (h : Keeps A d
    s₀ s) : Keeps A d s₀ (State.ingestAccept s a1 a2 a3 a4) := by
  unfold State.ingestAccept
  repeat' first
    | (with_reducible first | intro _ | assumption | apply State.setPitch_keeps | apply State.askHost_keeps)
    | (extract_lets +onlyGivenNames lv; have hlv : Keeps A d s₀ lv; unfold lv; on_goal 2 => clear_value lv)
    | (extract_lets +onlyGivenNames lv; clear_value lv) | split

theorem execIngestDescriptor_keeps (a1 : PitchId) (a2 : ℕ) (s : State) (ha1 : A a1) (h : Keeps A d s₀ s) : ResultKeeps
    A d s₀ (execIngestDescriptor a1 a2 s) := by
  unfold execIngestDescriptor
  repeat' first
    | (with_reducible first
        | intro _ | assumption | apply Result.live_keeps | apply State.descriptor_keeps
        | apply State.ingestAccept_keeps | apply Keeps.foldl | apply Result.next_keeps
        | apply DescOut.id_keeps | apply DescOut.refuse_keeps | apply DescOut.take_keeps
        | apply DescOut.wait_keeps)
    | (extract_lets +onlyGivenNames lv; have hlv : Keeps A d s₀ lv; unfold lv; on_goal 2 => clear_value lv)
    | (extract_lets +onlyGivenNames lv; clear_value lv)
    | split
    | with_reducible apply netOut_keeps
    | (fail_if_no_progress with_reducible apply Keeps.ofFields)

/-! ## Stats -/

theorem State.addSquares_keeps (s : State) (a1 : PitchId) (a2 : ℕ) (a3 : ℤ) (a4 : List W32) (ha1 : A a1) (h : Keeps A d
    s₀ s) : Keeps A d s₀ (State.addSquares s a1 a2 a3 a4) := by
  unfold State.addSquares
  repeat' first
    | (with_reducible first
        | intro _ | assumption | apply State.count_keeps | apply State.ergAddTo_keeps | apply Keeps.foldl)
    | split

theorem State.statsBlock_keeps (s : State) (a1 : PitchId) (a2 : BucketRun) (a3 : ℕ) (ha1 : A a1) (h : Keeps A d s₀ s) :
    Keeps A d s₀ (State.statsBlock s a1 a2 a3) := by
  unfold State.statsBlock
  repeat' first
    | (with_reducible first
        | intro _ | assumption | apply State.addSquares_keeps | apply State.setPitch_keeps
        | apply State.write_keeps | apply Keeps.foldl)
    | (extract_lets +onlyGivenNames lv; have hlv : Keeps A d s₀ lv; unfold lv; on_goal 2 => clear_value lv)
    | (extract_lets +onlyGivenNames lv; clear_value lv)
    | split
    | with_reducible apply netOut_keeps
    | (fail_if_no_progress with_reducible apply Keeps.ofFields)

theorem execStatsBlock_keeps (a1 : PitchId) (a2 : ℕ) (a3 : ℕ) (a4 : BlockCheck) (s : State) (ha1 : A a1) (h : Keeps A d
    s₀ s) : ResultKeeps A d s₀ (execStatsBlock a1 a2 a3 a4 s) := by
  unfold execStatsBlock
  repeat' first
    | (with_reducible first
        | intro _ | assumption | apply Result.live_keeps | apply State.checkedBlock_keeps
        | apply State.statsBlock_keeps | apply Keeps.foldl | apply Result.next_keeps)
    | (extract_lets +onlyGivenNames lv; have hlv : Keeps A d s₀ lv; unfold lv; on_goal 2 => clear_value lv)
    | (extract_lets +onlyGivenNames lv; clear_value lv)
    | split
    | with_reducible apply netOut_keeps
    | (fail_if_no_progress with_reducible apply Keeps.ofFields)

theorem State.selectionPass_keeps (s : State) (a1 : PitchId) (a2 : BucketRun) (ha1 : A a1) (h : Keeps A d s₀ s) : Keeps
    A d s₀ (State.selectionPass s a1 a2) := by
  unfold State.selectionPass
  repeat' first
    | (with_reducible first | intro _ | assumption | apply State.setPitch_keeps )

theorem execSelectionPass_keeps (a0 : PitchId) (a1 : ℕ) (s : State) (ha0 : A a0) (h : Keeps A d s₀ s) : ResultKeeps A d
    s₀ (execSelectionPass a0 a1 s) := by
  unfold execSelectionPass
  repeat' first
    | (with_reducible first
        | intro _ | assumption | apply State.selectionPass_keeps | apply Result.live_keeps | apply Result.next_keeps)
    | (extract_lets +onlyGivenNames lv; clear_value lv) | split

/-! ## Window -/

theorem State.sendWindowed_keeps (s : State) (a1 : PitchId) (a2 : List TxFrame) (ha1 : A a1) (h : Keeps A d s₀ s) :
    Keeps A d s₀ (State.sendWindowed s a1 a2) := by
  unfold State.sendWindowed
  repeat' first
    | (with_reducible first
        | intro _ | assumption | apply State.modPitch_keeps | apply State.enqueueAll_keeps | apply Keeps.foldl)
    | (extract_lets +onlyGivenNames lv; have hlv : Keeps A d s₀ lv; unfold lv; on_goal 2 => clear_value lv)
    | (extract_lets +onlyGivenNames lv; clear_value lv)
    | split
    | with_reducible apply netOut_keeps
    | (fail_if_no_progress with_reducible apply Keeps.ofFields)

/-! ## Pack -/

theorem State.packStream_keeps (s : State) (a1 : PitchId) (a2 : BucketRun) (a3 : ℕ) (a4 : ℕ) (a5 : Bytes) (a6 : ℕ) (ha1
    : A a1) (h : Keeps A d s₀ s) : Keeps A d s₀ (State.packStream s a1 a2 a3 a4 a5 a6) := by
  unfold State.packStream
  repeat' first
    | (with_reducible first
        | intro _ | assumption | apply State.setPitch_keeps | apply State.write_keeps | apply Keeps.foldl)
    | (extract_lets +onlyGivenNames lv; have hlv : Keeps A d s₀ lv; unfold lv; on_goal 2 => clear_value lv)
    | (extract_lets +onlyGivenNames lv; clear_value lv)
    | split
    | with_reducible apply netOut_keeps
    | (fail_if_no_progress with_reducible apply Keeps.ofFields)

theorem State.toPacker_keeps (s : State) (a1 : PitchId) (a2 : BucketRun) (a3 : ℕ) (a4 : ℕ) (a5 : Bytes) (ha1 : A a1) (h
    : Keeps A d s₀ s) : Keeps A d s₀ (State.toPacker s a1 a2 a3 a4 a5) := by
  unfold State.toPacker
  repeat' first
    | (with_reducible first
        | intro _ | assumption | apply State.packStream_keeps | apply State.setPitch_keeps | apply Keeps.foldl)
    | (extract_lets +onlyGivenNames lv; have hlv : Keeps A d s₀ lv; unfold lv; on_goal 2 => clear_value lv)
    | (extract_lets +onlyGivenNames lv; clear_value lv)
    | split
    | with_reducible apply netOut_keeps
    | (fail_if_no_progress with_reducible apply Keeps.ofFields)

theorem State.packerResume_keeps (s : State) (a1 : PitchId) (ha1 : A a1) (h : Keeps A d s₀ s) : Keeps A d s₀
    (State.packerResume s a1) := by
  unfold State.packerResume
  repeat' first
    | (with_reducible first
        | intro _ | assumption | apply State.setPitch_keeps | apply State.packStream_keeps | apply Keeps.foldl)
    | (extract_lets +onlyGivenNames lv; have hlv : Keeps A d s₀ lv; unfold lv; on_goal 2 => clear_value lv)
    | (extract_lets +onlyGivenNames lv; clear_value lv)
    | split
    | with_reducible apply netOut_keeps
    | (fail_if_no_progress with_reducible apply Keeps.ofFields)

theorem execPackerResume_keeps (a0 : PitchId) (s : State) (ha0 : A a0) (h : Keeps A d s₀ s) : ResultKeeps A d s₀
    (execPackerResume a0 s) := by
  unfold execPackerResume
  repeat' with_reducible first
    | intro _ | assumption | apply State.packerResume_keeps | apply Result.live_keeps

/-! ## Quantise -/

theorem State.quantiseBlock_keeps (s : State) (a1 : PitchId) (a2 : BucketRun) (a3 : ℕ) (ha1 : A a1) (h : Keeps A d s₀
    s) : Keeps A d s₀ (State.quantiseBlock s a1 a2 a3) := by
  unfold State.quantiseBlock
  repeat' first
    | (with_reducible first
        | intro _ | assumption | apply State.write_keeps | apply State.toPacker_keeps
        | apply State.setPitch_keeps | apply Keeps.foldl)
    | (extract_lets +onlyGivenNames lv; have hlv : Keeps A d s₀ lv; unfold lv; on_goal 2 => clear_value lv)
    | (extract_lets +onlyGivenNames lv; clear_value lv)
    | split
    | with_reducible apply netOut_keeps
    | (fail_if_no_progress with_reducible apply Keeps.ofFields)

theorem execQuantiseBlock_keeps (a1 : PitchId) (a2 : ℕ) (a3 : ℕ) (a4 : BlockCheck) (s : State) (ha1 : A a1) (h : Keeps
    A d s₀ s) : ResultKeeps A d s₀ (execQuantiseBlock a1 a2 a3 a4 s) := by
  unfold execQuantiseBlock
  repeat' first
    | (with_reducible first
        | intro _ | assumption | apply Result.live_keeps | apply State.checkedBlock_keeps
        | apply State.quantiseBlock_keeps | apply Keeps.foldl | apply Result.next_keeps)
    | (extract_lets +onlyGivenNames lv; have hlv : Keeps A d s₀ lv; unfold lv; on_goal 2 => clear_value lv)
    | (extract_lets +onlyGivenNames lv; clear_value lv)
    | split
    | with_reducible apply netOut_keeps
    | (fail_if_no_progress with_reducible apply Keeps.ofFields)

/-! ## Agree -/

theorem State.applyAgreed_keeps (s : State) (a1 : PitchId) (a2 : AgreeRec) (ha1 : A a1) (h : Keeps A d s₀ s) : Keeps A d
    s₀ (State.applyAgreed s a1 a2) := by
  unfold State.applyAgreed
  repeat' first
    | (with_reducible first | intro _ | assumption | apply State.guardProgress_keeps | apply State.setPitch_keeps)
    | (extract_lets +onlyGivenNames lv; clear_value lv) | split

theorem State.agreeDone_keeps (s : State) (a1 : PitchId) (a2 : Agree) (a3 : Bytes) (ha1 : A a1) (h : Keeps A d s₀ s) :
    Keeps A d s₀ (State.agreeDone s a1 a2 a3) := by
  unfold State.agreeDone
  repeat' first
    | (with_reducible first
        | intro _ | assumption | apply State.modPitch_keeps | apply State.enqueueAll_keeps | apply State.applyAgreed_keeps
        | apply Keeps.foldl)
    | (extract_lets +onlyGivenNames lv; have hlv : Keeps A d s₀ lv; unfold lv; on_goal 2 => clear_value lv)
    | split

theorem State.agreeProgress_keeps (s : State) (a1 : PitchId) (a2 : Agree) (ha1 : A a1) (h : Keeps A d s₀ s) : Keeps A d
    s₀ (State.agreeProgress s a1 a2) := by
  unfold State.agreeProgress
  repeat' first
    | (with_reducible first
        | intro _ | assumption | apply State.setPitch_keeps | apply State.applyAgreed_keeps | apply State.agreeDone_keeps
        | apply State.enqueueAll_keeps | apply Keeps.foldl)
    | (extract_lets +onlyGivenNames lv; clear_value lv) | split

theorem execAgreementRecordReady_keeps (a0 : PitchId) (a1 : ℕ) (a2 : ℕ) (s : State) (ha0 : A a0) (h : Keeps A d s₀ s) :
    ResultKeeps A d s₀ (execAgreementRecordReady a0 a1 a2 s) := by
  unfold execAgreementRecordReady
  repeat' first
    | (with_reducible first
        | intro _ | assumption | apply State.agreeProgress_keeps | apply State.count_keeps | apply Result.live_keeps
        | apply Result.next_keeps)
    | (extract_lets +onlyGivenNames lv; clear_value lv) | split

theorem State.collStale_keeps (s : State) (a1 : PitchId) (ha1 : A a1) (h : Keeps A d s₀ s) : Keeps A d s₀
    (State.collStale s a1) := by
  unfold State.collStale
  repeat' with_reducible first | intro _ | assumption | apply State.count_keeps

theorem State.staleRecord_keeps (s : State) (a1 : PitchId) (a2 : Assembly) (a3 : ℕ) (ha1 : A a1) (h : Keeps A d s₀ s) :
    Keeps A d s₀ (State.staleRecord s a1 a2 a3) := by
  unfold State.staleRecord
  repeat' first
    | (with_reducible first
        | intro _ | assumption | apply State.modPitch_keeps | apply State.count_keeps | apply Keeps.foldl)
    | (extract_lets +onlyGivenNames lv; have hlv : Keeps A d s₀ lv; unfold lv; on_goal 2 => clear_value lv)
    | (extract_lets +onlyGivenNames lv; clear_value lv)
    | split
    | with_reducible apply netOut_keeps
    | (fail_if_no_progress with_reducible apply Keeps.ofFields)

theorem State.staleFragment_keeps (s : State) (a1 : PitchId) (a2 : Assembly) (ha1 : A a1) (h : Keeps A d s₀ s) : Keeps
    A d s₀ (State.staleFragment s a1 a2) := by
  unfold State.staleFragment
  repeat' first
    | (with_reducible first
        | intro _ | assumption | apply State.modPitch_keeps | apply State.collStale_keeps | apply Keeps.foldl)
    | (extract_lets +onlyGivenNames lv; have hlv : Keeps A d s₀ lv; unfold lv; on_goal 2 => clear_value lv)
    | (extract_lets +onlyGivenNames lv; clear_value lv)
    | split
    | with_reducible apply netOut_keeps
    | (fail_if_no_progress with_reducible apply Keeps.ofFields)

theorem State.agreeFragment_keeps (s : State) (a1 : PitchId) (a2 : ℕ) (a3 : Bool) (a4 : ℕ) (a5 : ℕ) (a6 : Bytes) (ha1 :
    A a1) (h : Keeps A d s₀ s) : Keeps A d s₀ (State.agreeFragment s a1 a2 a3 a4 a5 a6) := by
  unfold State.agreeFragment
  repeat' first
    | (with_reducible first
        | intro _ | assumption | apply State.staleRecord_keeps | apply State.staleFragment_keeps
        | apply State.setPitch_keeps | apply State.agreeDone_keeps | apply State.agreeProgress_keeps
        | apply Keeps.foldl)
    | (extract_lets +onlyGivenNames lv; have hlv : Keeps A d s₀ lv; unfold lv; on_goal 2 => clear_value lv)
    | (extract_lets +onlyGivenNames lv; clear_value lv)
    | split
    | with_reducible apply netOut_keeps
    | (fail_if_no_progress with_reducible apply Keeps.ofFields)

/-! ## Reduce -/

theorem State.place_keeps (s : State) (a1 : PitchId) (a2 : ℕ) (a3 : ℕ) (a4 : Placed) (ha1 : A a1) (h : Keeps A d s₀ s)
    : Keeps A d s₀ (State.place s a1 a2 a3 a4) := by
  unfold State.place
  repeat' first
    | (with_reducible first
        | intro _ | assumption | apply State.setPitch_keeps | apply State.write_keeps
        | apply State.guardProgress_keeps | apply Keeps.foldl)
    | (extract_lets +onlyGivenNames lv; have hlv : Keeps A d s₀ lv; unfold lv; on_goal 2 => clear_value lv)
    | (extract_lets +onlyGivenNames lv; clear_value lv)
    | split
    | with_reducible apply netOut_keeps
    | (fail_if_no_progress with_reducible apply Keeps.ofFields)

theorem State.addWords_keeps (s : State) (a1 : ℕ) (a2 : ℕ) (a3 : List ℤ) (h : Keeps A d s₀ s) : Keeps A d s₀
    (State.addWords s a1 a2 a3) := by
  unfold State.addWords
  repeat' with_reducible first | intro _ | assumption | apply State.write_keeps

theorem State.clearBlock_keeps (s : State) (a1 : PitchId) (a2 : ℕ) (a3 : ℕ) (a4 : CRec) (ha1 : A a1) (h : Keeps A d s₀
    s) : Keeps A d s₀ (State.clearBlock s a1 a2 a3 a4) := by
  unfold State.clearBlock
  repeat' first
    | (with_reducible first | intro _ | assumption | apply State.setCrec_keeps | apply State.erase_keeps)

theorem State.broadcastNonfinite_keeps (s : State) (a1 : PitchId) (a2 : ℕ) (a3 : ℕ) (ha1 : A a1) (h : Keeps A d s₀ s) :
    Keeps A d s₀ (State.broadcastNonfinite s a1 a2 a3) := by
  unfold State.broadcastNonfinite
  repeat' first
    | (with_reducible first
        | intro _ | assumption | apply State.place_keeps | apply State.toPacker_keeps
        | apply State.setPitch_keeps | apply Keeps.foldl)
    | (extract_lets +onlyGivenNames lv; have hlv : Keeps A d s₀ lv; unfold lv; on_goal 2 => clear_value lv)
    | (extract_lets +onlyGivenNames lv; clear_value lv)
    | split
    | with_reducible apply netOut_keeps
    | (fail_if_no_progress with_reducible apply Keeps.ofFields)

theorem State.factorArrive_keeps (s : State) (p : PitchId) (b f scale : Nat) (sums : List Int) (hp : A p)
    (h : Keeps A d s₀ s) : Keeps A d s₀ (s.factorArrive p b f scale sums) := by
  unfold State.factorArrive
  extract_lets x
  split
  · exact h
  · split
    · exact h
    · split
      · exact h
      · extract_lets hd n base vals keep fl bad arrived done l' s1 s2 next
        have h1 : Keeps A d s₀ s1 := State.setPitch_keeps _ _ _ hp h
        have h2 : Keeps A d s₀ s2 := by
          unfold s2
          split
          · exact h1
          · exact State.write_keeps _ _ _ h1
        clear_value s2
        split
        · exact h2
        · split
          · exact State.guardProgress_keeps _ _ hp (State.modPitch_keeps _ _ _ hp h2)
          · exact State.guardProgress_keeps _ _ hp (State.modPitch_keeps _ _ _ hp h2)

theorem State.sendFactor_keeps (s : State) (a1 : PitchId) (a2 : BucketRun) (a3 : ℕ) (a4 : ℕ) (a5 : List ℤ) (ha1 : A a1)
    (h : Keeps A d s₀ s) : Keeps A d s₀ (State.sendFactor s a1 a2 a3 a4 a5) := by
  unfold State.sendFactor
  repeat' first
    | (with_reducible first
        | intro _ | assumption | apply State.factorArrive_keeps | apply State.sendWindowed_keeps
        | apply Keeps.foldl)
    | (extract_lets +onlyGivenNames lv; have hlv : Keeps A d s₀ lv; unfold lv; on_goal 2 => clear_value lv)
    | (extract_lets +onlyGivenNames lv; clear_value lv)
    | split
    | with_reducible apply netOut_keeps
    | (fail_if_no_progress with_reducible apply Keeps.ofFields)

theorem State.ownerTest_keeps (s : State) (a1 : PitchId) (a2 : ℕ) (a3 : ℕ) (ha1 : A a1) (h : Keeps A d s₀ s) : Keeps A d
    s₀ (State.ownerTest s a1 a2 a3) := by
  unfold State.ownerTest
  repeat' first
    | (with_reducible first
        | intro _ | assumption | apply State.faultPitch_keeps | apply State.bucketFault_keeps
        | apply State.sendFactor_keeps | apply State.clearBlock_keeps | apply State.count_keeps
        | apply State.broadcastNonfinite_keeps | apply State.enqueueAll_keeps | apply State.modPitch_keeps)
    | (extract_lets +onlyGivenNames lv; have hlv : Keeps A d s₀ lv; unfold lv; on_goal 2 => clear_value lv)
    | (extract_lets +onlyGivenNames lv; clear_value lv) | split

theorem State.applyContrib_keeps (s : State) (a1 : PitchId) (a2 : ℕ) (a3 : Stream) (ha1 : A a1) (h : Keeps A d s₀ s) :
    Keeps A d s₀ (State.applyContrib s a1 a2 a3) := by
  unfold State.applyContrib
  repeat' first
    | (with_reducible first
        | intro _ | assumption | apply State.addWords_keeps | apply State.setCrec_keeps | apply State.ownerTest_keeps)
    | (extract_lets +onlyGivenNames lv; have hlv : Keeps A d s₀ lv; unfold lv; on_goal 2 => clear_value lv)
    | (extract_lets +onlyGivenNames lv; clear_value lv) | split

theorem State.contribFrame_keeps (s : State) (a1 : PitchId) (a2 : ℕ) (a3 : Bytes) (ha1 : A a1) (h : Keeps A d s₀ s) :
    Keeps A d s₀ (State.contribFrame s a1 a2 a3) := by
  unfold State.contribFrame
  repeat' first | (with_reducible first | intro _ | assumption | apply State.applyContrib_keeps | apply Keeps.foldl) | split

theorem State.normBlock_keeps (s : State) (a1 : PitchId) (a2 : List Val) (ha1 : A a1) (h : Keeps A d s₀ s) : Keeps A d
    s₀ (State.normBlock s a1 a2) := by
  unfold State.normBlock
  repeat' first
    | (with_reducible first | intro _ | assumption | apply State.ergAddTo_keeps )

theorem State.requantiseBlock_keeps (s : State) (a1 : PitchId) (a2 : BucketRun) (a3 : ℕ) (ha1 : A a1) (h : Keeps A d s₀
    s) : Keeps A d s₀ (State.requantiseBlock s a1 a2 a3) := by
  unfold State.requantiseBlock
  repeat' first
    | (with_reducible first
        | intro _ | assumption | apply State.clearBlock_keeps | apply State.broadcastNonfinite_keeps
        | apply State.write_keeps | apply State.toPacker_keeps | apply State.setPitch_keeps
        | apply State.normBlock_keeps | apply State.place_keeps | apply Keeps.foldl)
    | (extract_lets +onlyGivenNames lv; have hlv : Keeps A d s₀ lv; unfold lv; on_goal 2 => clear_value lv)
    | (extract_lets +onlyGivenNames lv; clear_value lv)
    | split
    | with_reducible apply netOut_keeps
    | (fail_if_no_progress with_reducible apply Keeps.ofFields)

theorem execRequantiseBlock_keeps (a0 : PitchId) (a1 : ℕ) (a2 : ℕ) (s : State) (ha0 : A a0) (h : Keeps A d s₀ s) :
    ResultKeeps A d s₀ (execRequantiseBlock a0 a1 a2 s) := by
  unfold execRequantiseBlock
  repeat' first
    | (with_reducible first
        | intro _ | assumption | apply State.requantiseBlock_keeps | apply Result.live_keeps | apply Result.next_keeps)
    | split

theorem State.bcastFrame_keeps (s : State) (a1 : PitchId) (a2 : ℕ) (a3 : Bytes) (ha1 : A a1) (h : Keeps A d s₀ s) :
    Keeps A d s₀ (State.bcastFrame s a1 a2 a3) := by
  unfold State.bcastFrame
  repeat' first
    | (with_reducible first | intro _ | assumption | apply State.place_keeps | apply Keeps.foldl)
    | (extract_lets +onlyGivenNames lv; clear_value lv) | split

/-! ## Norm -/

theorem State.forwardNorm_keeps (s : State) (a1 : PitchId) (a2 : W16) (a3 : W640) (ha1 : A a1) (h : Keeps A d s₀ s) :
    Keeps A d s₀ (State.forwardNorm s a1 a2 a3) := by
  unfold State.forwardNorm
  repeat' with_reducible first | intro _ | assumption | apply State.enqueueAll_keeps

theorem State.normArrive_keeps (s : State) (a1 : PitchId) (a2 : W640) (ha1 : A a1) (h : Keeps A d s₀ s) : Keeps A d s₀
    (State.normArrive s a1 a2) := by
  unfold State.normArrive
  repeat' first
    | (with_reducible first
        | intro _ | assumption | apply State.ergAddTo_keeps | apply State.setPitch_keeps | apply State.ergClear_keeps
        | apply State.takeNorm_keeps | apply State.forwardNorm_keeps)
    | (extract_lets +onlyGivenNames lv; have hlv : Keeps A d s₀ lv; unfold lv; on_goal 2 => clear_value lv)
    | (extract_lets +onlyGivenNames lv; clear_value lv) | split

theorem State.normSend_keeps (s : State) (a1 : PitchId) (ha1 : A a1) (h : Keeps A d s₀ s) : Keeps A d s₀ (State.normSend
    s a1) := by
  unfold State.normSend
  repeat' first
    | (with_reducible first
        | intro _ | assumption | apply State.setPitch_keeps | apply State.ergClear_keeps | apply State.normArrive_keeps
        | apply State.enqueueAll_keeps)
    | (extract_lets +onlyGivenNames lv; have hlv : Keeps A d s₀ lv; unfold lv; on_goal 2 => clear_value lv)
    | (extract_lets +onlyGivenNames lv; clear_value lv) | split

theorem execNormLocalSend_keeps (a0 : PitchId) (s : State) (ha0 : A a0) (h : Keeps A d s₀ s) : ResultKeeps A d s₀
    (execNormLocalSend a0 s) := by
  unfold execNormLocalSend
  repeat' first
    | (with_reducible first
        | intro _ | assumption | apply State.normSend_keeps | apply Result.live_keeps | apply Result.next_keeps)
    | split

theorem State.normUpFrame_keeps (s : State) (a1 : PitchId) (a2 : Bytes) (ha1 : A a1) (h : Keeps A d s₀ s) : Keeps A d s₀
    (State.normUpFrame s a1 a2) := by
  unfold State.normUpFrame
  repeat' with_reducible first | intro _ | assumption | apply State.normArrive_keeps

theorem State.normDownFrame_keeps (s : State) (a1 : PitchId) (a2 : Bytes) (ha1 : A a1) (h : Keeps A d s₀ s) : Keeps A d
    s₀ (State.normDownFrame s a1 a2) := by
  unfold State.normDownFrame
  repeat' first
    | (with_reducible first
        | intro _ | assumption | apply State.collStale_keeps | apply State.forwardNorm_keeps | apply State.takeNorm_keeps
        | apply State.modPitch_keeps)
    | (extract_lets +onlyGivenNames lv; have hlv : Keeps A d s₀ lv; unfold lv; on_goal 2 => clear_value lv)
    | (extract_lets +onlyGivenNames lv; clear_value lv) | split

/-! ## Lockstep -/

theorem State.hostOutput_keeps (s : State) (a1 : PitchId) (a2 : HostPort) (a3 : W64) (a4 : Bytes) (ha1 : A a1) (h :
    Keeps A d s₀ s) : Keeps A d s₀ (State.hostOutput s a1 a2 a3 a4) := by
  unfold State.hostOutput
  repeat' first
    | (with_reducible first | intro _ | assumption | apply State.setPitch_keeps | apply State.hostStore_keeps)
    | (extract_lets +onlyGivenNames lv; clear_value lv) | split

theorem State.releaseOutputs_keeps (s : State) (a1 : PitchId) (a2 : ℕ → Bool) (ha1 : A a1) (h : Keeps A d s₀ s) : Keeps
    A d s₀ (State.releaseOutputs s a1 a2) := by
  unfold State.releaseOutputs
  repeat' first
    | (with_reducible first
        | intro _ | assumption | apply State.setPitch_keeps | apply State.hostStore_keeps | apply Keeps.foldl)

theorem lsSendGo_keeps (p : PitchId) (q : Pairing) (n : Nat) (s : State) (hp : A p) (h : Keeps A d s₀ s) : Keeps A d s₀
    (lsSendGo p q n s) := by
  induction n generalizing s with
  | zero => exact h
  | succ n ih =>
    unfold lsSendGo
    repeat' first
      | with_reducible assumption | with_reducible apply ih | with_reducible apply State.setPitch_keeps | exact hA _
      | with_reducible apply Keeps.foldl | intro _
      | (extract_lets +onlyGivenNames lv; clear_value lv) | with_reducible apply State.draw_keeps
      | with_reducible refine State.draw_match_keeps _ ?_ ?_ | split

theorem State.lsMismatch_keeps (s : State) (a1 : PitchId) (a2 : ℕ) (a3 : ℕ) (a4 : Byte) (a5 : ℕ) (ha1 : A a1) (h : Keeps
    A d s₀ s) : Keeps A d s₀ (State.lsMismatch s a1 a2 a3 a4 a5) := by
  unfold State.lsMismatch
  repeat' first
    | (with_reducible first
        | intro _ | assumption | apply State.modPitch_keeps | apply State.notice_keeps | apply netOut_keeps)
    | (extract_lets +onlyGivenNames lv; clear_value lv) | (fail_if_no_progress with_reducible apply Keeps.ofFields)

theorem State.lsDifference_keeps (s : State) (a1 : PitchId) (ha1 : A a1) (h : Keeps A d s₀ s) : Keeps A d s₀
    (State.lsDifference s a1) := by
  unfold State.lsDifference
  repeat' first
    | (with_reducible first
        | intro _ | assumption | apply State.lsMismatch_keeps | apply State.draw_keeps
        | refine State.draw_match_keeps _ ?_ ?_)
    | (extract_lets +onlyGivenNames lv; clear_value lv) | split

theorem State.lsDiffers_keeps (s : State) (a1 : PitchId) (a2 : Pairing) (a3 : ℕ) (a4 : Bytes) (a5 : Bytes) (ha1 : A a1)
    (h : Keeps A d s₀ s) : Keeps A d s₀ (State.lsDiffers s a1 a2 a3 a4 a5) := by
  unfold State.lsDiffers
  repeat' first
    | (with_reducible first
        | intro _ | assumption | apply State.lsMismatch_keeps | apply State.setPitch_keeps | apply State.lsDifference_keeps
        | apply State.enqueueAll_keeps | apply State.draw_keeps | refine State.draw_match_keeps _ ?_ ?_)
    | (extract_lets +onlyGivenNames lv; have hlv : Keeps A d s₀ lv; unfold lv; on_goal 2 => clear_value lv)
    | (extract_lets +onlyGivenNames lv; clear_value lv) | split

theorem lsCompareGo_keeps (p : PitchId) (q : Pairing) (n : Nat) (s : State) (hp : A p) (h : Keeps A d s₀ s) : Keeps A d
    s₀ (lsCompareGo p q n s) := by
  induction n generalizing s with
  | zero => exact h
  | succ n ih =>
    unfold lsCompareGo
    repeat' first
      | with_reducible assumption | with_reducible apply ih | with_reducible apply State.setPitch_keeps
      | with_reducible apply State.releaseOutputs_keeps | with_reducible apply State.lsDiffers_keeps | exact hA _
      | with_reducible apply Keeps.foldl | intro _
      | (extract_lets +onlyGivenNames lv; have hlv : Keeps A d s₀ lv; unfold lv; on_goal 2 => clear_value lv)
      | (extract_lets +onlyGivenNames lv; clear_value lv) | with_reducible apply State.draw_keeps
      | with_reducible refine State.draw_match_keeps _ ?_ ?_ | split

theorem State.lsProgress_keeps (s : State) (a1 : PitchId) (ha1 : A a1) (h : Keeps A d s₀ s) : Keeps A d s₀
    (State.lsProgress s a1) := by
  unfold State.lsProgress
  repeat' first
    | (with_reducible first
        | intro _ | assumption | apply State.releaseOutputs_keeps | apply State.setPitch_keeps | apply lsCompareGo_keeps
        | apply lsSendGo_keeps | apply State.modPitch_keeps)
    | (extract_lets +onlyGivenNames lv; have hlv : Keeps A d s₀ lv; unfold lv; on_goal 2 => clear_value lv)
    | (extract_lets +onlyGivenNames lv; clear_value lv) | split

theorem State.lsCut_keeps (s : State) (a1 : PitchId) (ha1 : A a1) (h : Keeps A d s₀ s) : Keeps A d s₀ (State.lsCut s
    a1) := by
  unfold State.lsCut
  repeat' first
    | (with_reducible first
        | intro _ | assumption | apply State.lsProgress_keeps | apply State.setPitch_keeps | apply Keeps.foldl)
    | (extract_lets +onlyGivenNames lv; have hlv : Keeps A d s₀ lv; unfold lv; on_goal 2 => clear_value lv)
    | (extract_lets +onlyGivenNames lv; clear_value lv)
    | split
    | with_reducible apply netOut_keeps
    | (fail_if_no_progress with_reducible apply Keeps.ofFields)

theorem State.lsDigest_keeps (s : State) (a1 : PitchId) (a2 : ℕ) (a3 : ℕ) (a4 : Bytes) (a5 : Bytes) (a6 : Bytes) (ha1 :
    A a1) (h : Keeps A d s₀ s) : Keeps A d s₀ (State.lsDigest s a1 a2 a3 a4 a5 a6) := by
  unfold State.lsDigest
  repeat' first
    | (with_reducible first | intro _ | assumption | apply State.lsProgress_keeps | apply State.setPitch_keeps)
    | (extract_lets +onlyGivenNames lv; clear_value lv) | split

theorem State.lsRecordFrame_keeps (s : State) (a1 : PitchId) (a2 : ℕ) (a3 : Bytes) (ha1 : A a1) (h : Keeps A d s₀ s) :
    Keeps A d s₀ (State.lsRecordFrame s a1 a2 a3) := by
  unfold State.lsRecordFrame
  repeat' first
    | (with_reducible first | intro _ | assumption | apply State.lsProgress_keeps | apply State.setPitch_keeps)
    | (extract_lets +onlyGivenNames lv; clear_value lv) | split

theorem State.lsDiffFrame_keeps (s : State) (a1 : PitchId) (a2 : ℕ) (a3 : ℕ) (a4 : Bytes) (ha1 : A a1) (h : Keeps A d
    s₀ s) : Keeps A d s₀ (State.lsDiffFrame s a1 a2 a3 a4) := by
  unfold State.lsDiffFrame
  repeat' first
    | (with_reducible first
        | intro _ | assumption | apply State.lsDifference_keeps | apply State.setPitch_keeps
        | apply Keeps.foldl)
    | (extract_lets +onlyGivenNames lv; have hlv : Keeps A d s₀ lv; unfold lv; on_goal 2 => clear_value lv)
    | (extract_lets +onlyGivenNames lv; clear_value lv)
    | split
    | with_reducible apply netOut_keeps
    | (fail_if_no_progress with_reducible apply Keeps.ofFields)

/-! ## Output -/

theorem State.addNorm_keeps (s : State) (a1 : PitchId) (a2 : ℕ) (a3 : ℕ) (a4 : List Val) (ha1 : A a1) (h : Keeps A d s₀
    s) : Keeps A d s₀ (State.addNorm s a1 a2 a3 a4) := by
  unfold State.addNorm
  repeat' first
    | (with_reducible first | intro _ | assumption | apply State.ergAddTo_keeps | apply Keeps.foldl)
    | split

theorem rowSideGo_keeps (p : PitchId) (b : Nat) (code : Nat → Nat) (n : Nat) (s : State) (hp : A p) (h : Keeps A d s₀ s)
    : Keeps A d s₀ (rowSideGo p b code n s) := by
  induction n generalizing s with
  | zero => exact h
  | succ n ih =>
    unfold rowSideGo
    repeat' first
      | with_reducible assumption | with_reducible apply ih | with_reducible apply State.setPitch_keeps
      | with_reducible apply State.hostOutput_keeps | exact hA _ | with_reducible apply Keeps.foldl | intro _
      | (extract_lets +onlyGivenNames lv; clear_value lv) | with_reducible apply State.draw_keeps
      | with_reducible refine State.draw_match_keeps _ ?_ ?_ | split

theorem State.writeOutput_keeps (s : State) (a1 : PitchId) (a2 : BucketRun) (a3 : ℕ) (a4 : List Val) (ha1 : A a1) (h : Keeps A d s₀ s) :
    Keeps A d s₀ (State.writeOutput s a1 a2 a3 a4).1 := by
  unfold State.writeOutput
  repeat' first
    | (with_reducible first
        | intro _ | assumption | apply State.setPitch_keeps | apply State.hostOutput_keeps | apply State.addNorm_keeps
        | apply Keeps.foldl)
    | split

theorem State.endOutput_keeps (s : State) (a1 : PitchId) (a2 : BucketRun) (a3 : ℕ) (a4 : Bytes) (a5 : Bytes) (ha1 : A
    a1) (h : Keeps A d s₀ s) : Keeps A d s₀ (State.endOutput s a1 a2 a3 a4 a5) := by
  unfold State.endOutput
  repeat' first
    | (with_reducible first
        | intro _ | assumption | apply State.lsDigest_keeps | apply Keeps.foldl)
    | (extract_lets +onlyGivenNames lv; have hlv : Keeps A d s₀ lv; unfold lv; on_goal 2 => clear_value lv)
    | (extract_lets +onlyGivenNames lv; clear_value lv)
    | split
    | with_reducible apply netOut_keeps
    | (fail_if_no_progress with_reducible apply Keeps.ofFields)

theorem State.lsLast_keeps (s : State) (a1 : PitchId) (ha1 : A a1) (h : Keeps A d s₀ s) : Keeps A d s₀ (State.lsLast s a1) := by
  unfold State.lsLast
  repeat' first
    | (with_reducible first | intro _ | assumption | apply State.lsProgress_keeps | apply State.setPitch_keeps)
    | (extract_lets +onlyGivenNames lv; clear_value lv) | split

theorem State.lsWait_keeps (s : State) (a1 : PitchId) (ha1 : A a1) (h : Keeps A d s₀ s) : Keeps A d s₀ (State.lsWait s a1) := by
  unfold State.lsWait
  repeat' first
    | (with_reducible first | intro _ | assumption | apply State.setPitch_keeps)
    | (extract_lets +onlyGivenNames lv; clear_value lv) | split

theorem State.outputBlock_keeps (s : State) (a1 : PitchId) (a2 : BucketRun) (a3 : ℕ) (ha1 : A a1) (h : Keeps A d s₀ s)
    : Keeps A d s₀ (State.outputBlock s a1 a2 a3) := by
  unfold State.outputBlock
  repeat' first
    | (with_reducible first
        | intro _ | assumption | apply State.writeOutput_keeps | apply rowSideGo_keeps
        | apply State.lsLast_keeps | apply State.endOutput_keeps | apply Keeps.foldl)
    | (extract_lets +onlyGivenNames lv; have hlv : Keeps A d s₀ lv; unfold lv; on_goal 2 => clear_value lv)
    | (extract_lets +onlyGivenNames lv; clear_value lv)
    | split
    | with_reducible apply netOut_keeps
    | (fail_if_no_progress with_reducible apply Keeps.ofFields)

theorem execOutputBlock_keeps (a1 : PitchId) (a2 : ℕ) (a3 : ℕ) (a4 : BlockCheck) (s : State) (ha1 : A a1) (h : Keeps A
    d s₀ s) : ResultKeeps A d s₀ (execOutputBlock a1 a2 a3 a4 s) := by
  unfold execOutputBlock
  repeat' first
    | (with_reducible first
        | intro _ | assumption | apply Result.live_keeps | apply State.checkedBlock_keeps
        | apply State.outputBlock_keeps | apply State.lsWait_keeps | apply Keeps.foldl
        | apply Result.next_keeps)
    | (extract_lets +onlyGivenNames lv; have hlv : Keeps A d s₀ lv; unfold lv; on_goal 2 => clear_value lv)
    | (extract_lets +onlyGivenNames lv; clear_value lv)
    | split
    | with_reducible apply netOut_keeps
    | (fail_if_no_progress with_reducible apply Keeps.ofFields)

theorem State.updateBlock_keeps (s : State) (a1 : PitchId) (a2 : BucketRun) (a3 : ℕ) (a4 : List Val) (ha1 : A a1) (h :
    Keeps A d s₀ s) : Keeps A d s₀ (State.updateBlock s a1 a2 a3 a4) := by
  unfold State.updateBlock
  repeat' first
    | (with_reducible first
        | intro _ | assumption | apply State.addNorm_keeps | apply State.write_keeps | apply State.setPitch_keeps
        | apply State.modPitch_keeps | apply State.notice_keeps | apply Keeps.foldl)
    | (extract_lets +onlyGivenNames lv; have hlv : Keeps A d s₀ lv; unfold lv; on_goal 2 => clear_value lv)
    | (extract_lets +onlyGivenNames lv; clear_value lv) | split

/-! ## Sign -/

theorem State.resign_keeps (s : State) (a1 : PitchId) (ha1 : A a1) (h : Keeps A d s₀ s) : Keeps A d s₀ (State.resign s a1) := by
  unfold State.resign
  repeat' first
    | (with_reducible first | intro _ | assumption | apply State.modPitch_keeps)

theorem State.retimeOne_keeps (s : State) (a1 : PitchId) (ha1 : A a1) (h : Keeps A d s₀ s) : Keeps A d s₀
    (State.retimeOne s a1) := by
  unfold State.retimeOne
  repeat' first
    | (with_reducible first | intro _ | assumption | apply State.setPitch_keeps)
    | (extract_lets +onlyGivenNames lv; clear_value lv) | split

theorem State.retime_keeps (s : State) (hA : ∀ q, A q) (h : Keeps A d s₀ s) : Keeps A d s₀ (State.retime s) := by
  unfold State.retime
  repeat' first
    | (with_reducible first | intro _ | assumption | apply State.forPitches_keeps | apply State.retimeOne_keeps)
    | exact hA _

theorem State.setDivider_keeps (s : State) (a1 : ℕ) (hA : ∀ q, A q) (h : Keeps A d s₀ s) : Keeps A d s₀
    (State.setDivider s a1) := by
  unfold State.setDivider
  repeat' first
    | (with_reducible first | intro _ | assumption | apply State.retime_keeps | apply netOut_keeps) | exact hA _
    | (extract_lets +onlyGivenNames lv; clear_value lv) | split | (fail_if_no_progress with_reducible apply Keeps.ofFields)

theorem State.wake_keeps (s : State) (hA : ∀ p, A p) (h : Keeps A d s₀ s) : Keeps A d s₀ (State.wake s) := by
  unfold State.wake
  repeat' first
    | (with_reducible first
        | intro _ | assumption | apply State.advanceTo_keeps | apply State.retime_keeps
        | apply State.setDivider_keeps | apply State.restGroups_keeps | apply State.setCells_keeps
        | apply Keeps.foldl)
    | exact hA _
    | (extract_lets +onlyGivenNames lv; have hlv : Keeps A d s₀ lv; unfold lv; on_goal 2 => clear_value lv)
    | (extract_lets +onlyGivenNames lv; clear_value lv)
    | split
    | with_reducible apply netOut_keeps
    | (fail_if_no_progress with_reducible apply Keeps.ofFields)

/-! ## Commit -/

theorem State.resetQueues_keeps (s : State) (a1 : PitchId) (a2 : List ℕ) (ha1 : A a1) (h : Keeps A d s₀ s) : Keeps A d
    s₀ (State.resetQueues s a1 a2) := by
  unfold State.resetQueues
  repeat' first
    | (with_reducible first | intro _ | assumption | apply State.eraseAll_keeps | apply State.setPitch_keeps)

theorem State.commitEffect_keeps (s : State) (a1 : PitchId) (a2 : Draft) (a3 : Vector W64 32) (hA : ∀ p, A p) (h :
    Keeps A d s₀ s) : Keeps A d s₀ (State.commitEffect s a1 a2 a3) := by
  unfold State.commitEffect
  repeat' first
    | (with_reducible first
        | intro _ | assumption | apply State.retainGuard_keeps | apply State.retime_keeps
        | apply State.resign_keeps | apply State.settleCells_keeps | apply State.resetQueues_keeps
        | apply State.setPitch_keeps | apply Keeps.foldl)
    | exact hA _
    | (extract_lets +onlyGivenNames lv; have hlv : Keeps A d s₀ lv; unfold lv; on_goal 2 => clear_value lv)
    | (extract_lets +onlyGivenNames lv; clear_value lv)
    | split
    | with_reducible apply netOut_keeps
    | (fail_if_no_progress with_reducible apply Keeps.ofFields)

theorem State.planEffect_keeps (s : State) (hA : ∀ p, A p) (h : Keeps A d s₀ s) : Keeps A d s₀ (State.planEffect s) :=
    by
  unfold State.planEffect
  repeat' first
    | (with_reducible first
        | intro _ | assumption | apply State.advanceTo_keeps | apply State.forPitches_keeps
        | apply State.modPitch_keeps | apply Keeps.foldl)
    | exact hA _
    | (extract_lets +onlyGivenNames lv; have hlv : Keeps A d s₀ lv; unfold lv; on_goal 2 => clear_value lv)
    | (extract_lets +onlyGivenNames lv; clear_value lv)
    | split
    | with_reducible apply netOut_keeps
    | (fail_if_no_progress with_reducible apply Keeps.ofFields)

theorem execCampPlanEffect_keeps (s : State) (hA : ∀ q, A q) (h : Keeps A d s₀ s) : ResultKeeps A d s₀
    (execCampPlanEffect s) := by
  unfold execCampPlanEffect
  repeat' first
    | (with_reducible first
        | intro _ | assumption | apply State.planEffect_keeps | apply Result.live_keeps | apply Result.next_keeps)
    | exact hA _

/-! ## Moe -/

theorem State.descFetch_keeps (s t : State) (p : PitchId) (q key : Nat) (rs : List (Nat × Nat)) (hp : A p) (h : Keeps A d s₀ s)
    (ht : s.descFetch p q key rs = .wait t) : Keeps A d s₀ t := by
  unfold State.descFetch at ht
  extract_lets x got missing at ht
  split at ht
  · cases ht
  · split at ht
    · cases ht
    · split at ht <;> cases ht
      · exact h
      · exact Keeps.foldl _ (fun x a hx => State.askHost_keeps _ _ _ _ _ hx) h

end Sys2Proof.Machine
end

