-- ==== Sys2Proof/Laws/Keeps3.lean ====
section
/-! SUPPORT. What the operations of Moe, OneSided, LowRank, Mailbox, Delta keep (Laws/Keeps.lean): one lemma for each. -/

namespace Sys2Proof.Machine

variable {A : PitchId → Prop} {d : Prop} {s₀ : State}

/-! ## Moe -/

theorem State.descStore_keeps (s : State) (a1 : PitchId) (a2 : ℕ) (a3 : ℕ) (a4 : Bytes) (ha1 : A a1) (h : Keeps A d s₀
    s) : Keeps A d s₀ (State.descStore s a1 a2 a3 a4) := by
  unfold State.descStore
  repeat' with_reducible first | intro _ | assumption | apply State.hostStore_keeps

theorem State.assignSlots_keeps (s : State) (a1 : PitchId) (a2 : Exchange) (ha1 : A a1) (h : Keeps A d s₀ s) : Keeps A
    d s₀ (State.assignSlots s a1 a2) := by
  unfold State.assignSlots
  repeat' first
    | (with_reducible first
        | intro _ | assumption | apply State.sendWindowed_keeps | apply State.setPitch_keeps
        | apply State.descStore_keeps | apply Keeps.foldl)
    | (extract_lets +onlyGivenNames lv; have hlv : Keeps A d s₀ lv; unfold lv; on_goal 2 => clear_value lv)
    | (extract_lets +onlyGivenNames lv; clear_value lv)
    | split
    | with_reducible apply netOut_keeps
    | (fail_if_no_progress with_reducible apply Keeps.ofFields)

theorem State.scanDone_keeps (s : State) (a1 : PitchId) (a2 : Exchange) (ha1 : A a1) (h : Keeps A d s₀ s) : Keeps A d s₀
    (State.scanDone s a1 a2) := by
  unfold State.scanDone
  repeat' first
    | (with_reducible first
        | intro _ | assumption | apply State.assignSlots_keeps | apply State.enqueueAll_keeps | apply State.setPitch_keeps)

theorem State.scanProgress_keeps (s : State) (a1 : PitchId) (a2 : Exchange) (ha1 : A a1) (h : Keeps A d s₀ s) : Keeps A
    d s₀ (State.scanProgress s a1 a2) := by
  unfold State.scanProgress
  repeat' first
    | (with_reducible first
        | intro _ | assumption | apply State.setPitch_keeps | apply State.scanDone_keeps | apply State.enqueueAll_keeps
        | apply Keeps.foldl)
    | (extract_lets +onlyGivenNames lv; clear_value lv) | split

theorem State.scanFragment_keeps (s : State) (a1 : PitchId) (a2 : ℕ) (a3 : Bool) (a4 : ℕ) (a5 : ℕ) (a6 : Bytes) (ha1 :
    A a1) (h : Keeps A d s₀ s) : Keeps A d s₀ (State.scanFragment s a1 a2 a3 a4 a5 a6) := by
  unfold State.scanFragment
  repeat' first
    | (with_reducible first
        | intro _ | assumption | apply State.staleRecord_keeps | apply State.staleFragment_keeps
        | apply State.setPitch_keeps | apply State.scanDone_keeps | apply State.scanProgress_keeps
        | apply Keeps.foldl)
    | (extract_lets +onlyGivenNames lv; have hlv : Keeps A d s₀ lv; unfold lv; on_goal 2 => clear_value lv)
    | (extract_lets +onlyGivenNames lv; clear_value lv)
    | split
    | with_reducible apply netOut_keeps
    | (fail_if_no_progress with_reducible apply Keeps.ofFields)

theorem State.dispatchAccept_keeps (s : State) (a1 : PitchId) (a2 : ℕ) (a3 : W16) (a4 : Bytes) (a5 : Bytes) (a6 : Bytes)
    (ha1 : A a1) (h : Keeps A d s₀ s) : Keeps A d s₀ (State.dispatchAccept s a1 a2 a3 a4 a5 a6) := by
  unfold State.dispatchAccept
  repeat' first
    | (with_reducible first | intro _ | assumption | apply State.scanProgress_keeps | apply State.setPitch_keeps)

theorem dispatchWork_keeps (a1 : PitchId) (a2 : DescJob) (s : State) (ha1 : A a1) (h : Keeps A d s₀ s) : DescKeeps A d
    s₀ (dispatchWork a1 a2 s) := by
  unfold dispatchWork
  repeat' first
    | (with_reducible first
        | intro _ | assumption | apply State.dispatchAccept_keeps | apply Keeps.foldl | apply DescOut.id_keeps
        | apply DescOut.refuse_keeps | apply DescOut.take_keeps | apply DescOut.wait_keeps)
    | (refine State.descFetch_keeps _ _ _ _ _ _ ?_ ?_ (by assumption))
    | (extract_lets +onlyGivenNames lv; have hlv : Keeps A d s₀ lv; unfold lv; on_goal 2 => clear_value lv)
    | (extract_lets +onlyGivenNames lv; clear_value lv)
    | split
    | with_reducible apply netOut_keeps
    | (fail_if_no_progress with_reducible apply Keeps.ofFields)

theorem execDispatchDescriptor_keeps (a1 : PitchId) (a2 : ℕ) (s : State) (ha1 : A a1) (h : Keeps A d s₀ s) :
    ResultKeeps A d s₀ (execDispatchDescriptor a1 a2 s) := by
  unfold execDispatchDescriptor
  repeat' first
    | (with_reducible first
        | intro _ | assumption | apply Result.live_keeps | apply State.descriptor_keeps
        | apply dispatchWork_keeps | apply Keeps.foldl | apply Result.next_keeps)
    | (extract_lets +onlyGivenNames lv; have hlv : Keeps A d s₀ lv; unfold lv; on_goal 2 => clear_value lv)
    | (extract_lets +onlyGivenNames lv; clear_value lv)
    | split
    | with_reducible apply netOut_keeps
    | (fail_if_no_progress with_reducible apply Keeps.ofFields)

theorem State.tokenFrame_keeps (s : State) (a1 : PitchId) (a2 : ℕ) (a3 : ℕ) (a4 : ℕ) (a5 : Bytes) (ha1 : A a1) (h :
    Keeps A d s₀ s) : Keeps A d s₀ (State.tokenFrame s a1 a2 a3 a4 a5) := by
  unfold State.tokenFrame
  repeat' first
    | (with_reducible first
        | intro _ | assumption | apply State.collStale_keeps | apply State.setPitch_keeps | apply State.descStore_keeps)
    | (extract_lets +onlyGivenNames lv; have hlv : Keeps A d s₀ lv; unfold lv; on_goal 2 => clear_value lv)
    | (extract_lets +onlyGivenNames lv; clear_value lv) | split

theorem State.moeReturned_keeps (s : State) (a1 : PitchId) (a2 : Exchange) (ha1 : A a1) (h : Keeps A d s₀ s) : Keeps A d
    s₀ (State.moeReturned s a1 a2) := by
  unfold State.moeReturned
  repeat' with_reducible first | intro _ | assumption | apply State.complete_keeps

theorem State.returnFrame_keeps (s : State) (a1 : PitchId) (a2 : ℕ) (a3 : ℕ) (a4 : Bytes) (ha1 : A a1) (h : Keeps A d s₀
    s) : Keeps A d s₀ (State.returnFrame s a1 a2 a3 a4) := by
  unfold State.returnFrame
  repeat' first
    | (with_reducible first
        | intro _ | assumption | apply State.collStale_keeps | apply State.setPitch_keeps | apply State.descStore_keeps
        | apply State.moeReturned_keeps)
    | (extract_lets +onlyGivenNames lv; have hlv : Keeps A d s₀ lv; unfold lv; on_goal 2 => clear_value lv)
    | (extract_lets +onlyGivenNames lv; clear_value lv) | split

theorem State.dispatchDone_keeps (s : State) (a1 : PitchId) (a2 : W16) (ha1 : A a1) (h : Keeps A d s₀ s) : Keeps A d s₀
    (State.dispatchDone s a1 a2) := by
  unfold State.dispatchDone
  repeat' first
    | (with_reducible first
        | intro _ | assumption | apply State.setPitch_keeps | apply State.complete_keeps | apply State.moeReturned_keeps)
    | (extract_lets +onlyGivenNames lv; have hlv : Keeps A d s₀ lv; unfold lv; on_goal 2 => clear_value lv)
    | (extract_lets +onlyGivenNames lv; clear_value lv) | split

theorem execDispatchComplete_keeps (a0 : PitchId) (a1 : W16) (s : State) (ha0 : A a0) (h : Keeps A d s₀ s) : ResultKeeps
    A d s₀ (execDispatchComplete a0 a1 s) := by
  unfold execDispatchComplete
  repeat' with_reducible first
    | intro _ | assumption | apply State.dispatchDone_keeps | apply Result.live_keeps

theorem State.combineAccept_keeps (s : State) (a1 : PitchId) (a2 : ℕ) (a3 : W16) (a4 : Bytes) (a5 : Exchange) (a6 :
    List Bytes) (ha1 : A a1) (h : Keeps A d s₀ s) : Keeps A d s₀ (State.combineAccept s a1 a2 a3 a4 a5 a6) := by
  unfold State.combineAccept
  repeat' first
    | (with_reducible first
        | intro _ | assumption | apply State.complete_keeps | apply State.setPitch_keeps
        | apply State.sendWindowed_keeps | apply Keeps.foldl)
    | (extract_lets +onlyGivenNames lv; have hlv : Keeps A d s₀ lv; unfold lv; on_goal 2 => clear_value lv)
    | (extract_lets +onlyGivenNames lv; clear_value lv)
    | split
    | with_reducible apply netOut_keeps
    | (fail_if_no_progress with_reducible apply Keeps.ofFields)

theorem combineWork_keeps (a1 : PitchId) (a2 : DescJob) (s : State) (ha1 : A a1) (h : Keeps A d s₀ s) : DescKeeps A d
    s₀ (combineWork a1 a2 s) := by
  unfold combineWork
  repeat' first
    | (with_reducible first
        | intro _ | assumption | apply State.combineAccept_keeps | apply Keeps.foldl | apply DescOut.id_keeps
        | apply DescOut.refuse_keeps | apply DescOut.take_keeps | apply DescOut.wait_keeps)
    | (refine State.descFetch_keeps _ _ _ _ _ _ ?_ ?_ (by assumption))
    | (extract_lets +onlyGivenNames lv; have hlv : Keeps A d s₀ lv; unfold lv; on_goal 2 => clear_value lv)
    | (extract_lets +onlyGivenNames lv; clear_value lv)
    | split
    | with_reducible apply netOut_keeps
    | (fail_if_no_progress with_reducible apply Keeps.ofFields)

theorem execCombineDescriptor_keeps (a1 : PitchId) (a2 : ℕ) (s : State) (ha1 : A a1) (h : Keeps A d s₀ s) : ResultKeeps
    A d s₀ (execCombineDescriptor a1 a2 s) := by
  unfold execCombineDescriptor
  repeat' first
    | (with_reducible first
        | intro _ | assumption | apply Result.live_keeps | apply State.descriptor_keeps
        | apply combineWork_keeps | apply Keeps.foldl | apply Result.next_keeps)
    | (extract_lets +onlyGivenNames lv; have hlv : Keeps A d s₀ lv; unfold lv; on_goal 2 => clear_value lv)
    | (extract_lets +onlyGivenNames lv; clear_value lv)
    | split
    | with_reducible apply netOut_keeps
    | (fail_if_no_progress with_reducible apply Keeps.ofFields)

theorem State.returnAcked_keeps (s : State) (a1 : PitchId) (a2 : W16) (a3 : ℕ) (a4 : W16) (ha1 : A a1) (h : Keeps A d
    s₀ s) : Keeps A d s₀ (State.returnAcked s a1 a2 a3 a4) := by
  unfold State.returnAcked
  repeat' first
    | (with_reducible first
        | intro _ | assumption | apply State.complete_keeps | apply State.setPitch_keeps | apply Keeps.foldl)
    | (extract_lets +onlyGivenNames lv; have hlv : Keeps A d s₀ lv; unfold lv; on_goal 2 => clear_value lv)
    | (extract_lets +onlyGivenNames lv; clear_value lv)
    | split
    | with_reducible apply netOut_keeps
    | (fail_if_no_progress with_reducible apply Keeps.ofFields)

/-! ## OneSided -/

theorem State.osWrite_keeps (s : State) (a1 : PitchId) (a2 : ℕ) (a3 : Bytes) (ha1 : A a1) (h : Keeps A d s₀ s) : Keeps A
    d s₀ (State.osWrite s a1 a2 a3) := by
  unfold State.osWrite
  repeat' with_reducible first | intro _ | assumption | apply State.write_keeps

theorem State.osAdd_keeps (s : State) (a1 : PitchId) (a2 : ℕ) (a3 : ℕ) (a4 : Bytes) (ha1 : A a1) (h : Keeps A d s₀ s) :
    Keeps A d s₀ (State.osAdd s a1 a2 a3 a4) := by
  unfold State.osAdd
  repeat' with_reducible first | intro _ | assumption | apply State.addWords_keeps

theorem State.osErg_keeps (s : State) (a1 : PitchId) (a2 : ℕ) (a3 : Bytes) (ha1 : A a1) (h : Keeps A d s₀ s) : Keeps A d
    s₀ (State.osErg s a1 a2 a3) := by
  unfold State.osErg
  repeat' with_reducible first | intro _ | assumption | apply State.ergAddTo_keeps | apply Keeps.foldl

theorem State.osCas_keeps (s : State) (a1 : PitchId) (a2 : ℕ) (a3 : Bytes) (ha1 : A a1) (h : Keeps A d s₀ s) : Keeps A d
    s₀ (State.osCas s a1 a2 a3) := by
  unfold State.osCas
  repeat' first
    | (with_reducible first | intro _ | assumption | apply State.write_keeps)
    | (extract_lets +onlyGivenNames lv; clear_value lv) | split

theorem State.osEffect_keeps (s : State) (a1 : PitchId) (a2 : ℕ) (a3 : ℕ) (a4 : Bytes) (ha1 : A a1) (h : Keeps A d s₀ s)
    : Keeps A d s₀ (State.osEffect s a1 a2 a3 a4) := by
  unfold State.osEffect
  repeat' first
    | (with_reducible first
        | intro _ | assumption | apply State.osWrite_keeps | apply State.osAdd_keeps | apply State.osErg_keeps
        | apply State.osCas_keeps)
    | split

theorem State.osServe_keeps (s : State) (a1 : PitchId) (a2 : ℕ) (a3 : ℕ) (a4 : ℕ) (a5 : ℕ) (a6 : ℕ) (a7 : Bytes) (ha1 :
    A a1) (h : Keeps A d s₀ s) : Keeps A d s₀ (State.osServe s a1 a2 a3 a4 a5 a6 a7) := by
  unfold State.osServe
  repeat' first
    | (with_reducible first
        | intro _ | assumption | apply State.osEffect_keeps | apply State.enqueueAll_keeps | apply State.draw_keeps
        | refine State.draw_match_keeps _ ?_ ?_)
    | (extract_lets +onlyGivenNames lv; have hlv : Keeps A d s₀ lv; unfold lv; on_goal 2 => clear_value lv)
    | (extract_lets +onlyGivenNames lv; clear_value lv) | split

theorem State.osComplete_keeps (s : State) (a1 : PitchId) (a2 : OsJob) (a3 : ℕ) (ha1 : A a1) (h : Keeps A d s₀ s) :
    Keeps A d s₀ (State.osComplete s a1 a2 a3) := by
  unfold State.osComplete
  repeat' with_reducible first | intro _ | assumption | apply State.complete_keeps | apply State.modPitch_keeps

theorem State.osFail_keeps (s : State) (a1 : PitchId) (a2 : ℕ) (ha1 : A a1) (h : Keeps A d s₀ s) : Keeps A d s₀
    (State.osFail s a1 a2) := by
  unfold State.osFail
  repeat' first | (with_reducible first | intro _ | assumption | apply State.osComplete_keeps) | split

theorem State.osPart_keeps (s : State) (a1 : PitchId) (a2 : ℕ) (ha1 : A a1) (h : Keeps A d s₀ s) : Keeps A d s₀
    (State.osPart s a1 a2) := by
  unfold State.osPart
  repeat' first
    | (with_reducible first | intro _ | assumption | apply State.osComplete_keeps | apply State.modPitch_keeps) | split

theorem State.osAcked_keeps (s : State) (a1 : PitchId) (a2 : ℕ) (ha1 : A a1) (h : Keeps A d s₀ s) : Keeps A d s₀
    (State.osAcked s a1 a2) := by
  unfold State.osAcked
  repeat' first | (with_reducible first | intro _ | assumption | apply State.osPart_keeps) | split

theorem State.osPlace_keeps (s : State) (a1 : PitchId) (a2 : OsJob) (a3 : ℕ) (a4 : Bytes) (ha1 : A a1) (h : Keeps A d s₀
    s) : Keeps A d s₀ (State.osPlace s a1 a2 a3 a4) := by
  unfold State.osPlace
  repeat' with_reducible first | intro _ | assumption | apply State.osPart_keeps | apply State.descStore_keeps

theorem State.osResponse_keeps (s : State) (a1 : PitchId) (a2 : ℕ) (a3 : ℕ) (a4 : Bytes) (ha1 : A a1) (h : Keeps A d s₀
    s) : Keeps A d s₀ (State.osResponse s a1 a2 a3 a4) := by
  unfold State.osResponse
  repeat' first
    | (with_reducible first | intro _ | assumption | apply State.modPitch_keeps | apply State.osPlace_keeps)
    | (extract_lets +onlyGivenNames lv; clear_value lv) | split

theorem State.osLocal_keeps (s : State) (a1 : PitchId) (a2 : TxFrame) (a3 : ℕ) (ha1 : A a1) (h : Keeps A d s₀ s) : Keeps
    A d s₀ (State.osLocal s a1 a2 a3) := by
  unfold State.osLocal
  repeat' first
    | (with_reducible first
        | intro _ | assumption | apply State.setPitch_keeps | apply State.osEffect_keeps | apply State.osPlace_keeps
        | apply State.osPart_keeps | apply State.osFail_keeps)
    | (extract_lets +onlyGivenNames lv; have hlv : Keeps A d s₀ lv; unfold lv; on_goal 2 => clear_value lv)
    | (extract_lets +onlyGivenNames lv; clear_value lv) | split

theorem State.osAccept_keeps (s : State) (a1 : PitchId) (a2 : ℕ) (a3 : Bytes) (a4 : W16) (a5 : Bytes) (ha1 : A a1) (h :
    Keeps A d s₀ s) : Keeps A d s₀ (State.osAccept s a1 a2 a3 a4 a5) := by
  unfold State.osAccept
  repeat' first
    | (with_reducible first
        | intro _ | assumption | apply State.sendWindowed_keeps | apply State.setPitch_keeps
        | apply State.osComplete_keeps | apply Keeps.foldl)
    | (extract_lets +onlyGivenNames lv; have hlv : Keeps A d s₀ lv; unfold lv; on_goal 2 => clear_value lv)
    | (extract_lets +onlyGivenNames lv; clear_value lv)
    | split
    | with_reducible apply netOut_keeps
    | (fail_if_no_progress with_reducible apply Keeps.ofFields)

theorem osWork_keeps (a1 : PitchId) (a2 : DescJob) (s : State) (ha1 : A a1) (h : Keeps A d s₀ s) : DescKeeps A d s₀
    (osWork a1 a2 s) := by
  unfold osWork
  repeat' first
    | (with_reducible first
        | intro _ | assumption | apply State.osAccept_keeps | apply Keeps.foldl | apply DescOut.id_keeps
        | apply DescOut.refuse_keeps | apply DescOut.take_keeps | apply DescOut.wait_keeps)
    | (refine State.descFetch_keeps _ _ _ _ _ _ ?_ ?_ (by assumption))
    | (extract_lets +onlyGivenNames lv; have hlv : Keeps A d s₀ lv; unfold lv; on_goal 2 => clear_value lv)
    | (extract_lets +onlyGivenNames lv; clear_value lv)
    | split
    | with_reducible apply netOut_keeps
    | (fail_if_no_progress with_reducible apply Keeps.ofFields)

theorem execOneSidedDescriptor_keeps (a1 : PitchId) (a2 : ℕ) (s : State) (ha1 : A a1) (h : Keeps A d s₀ s) :
    ResultKeeps A d s₀ (execOneSidedDescriptor a1 a2 s) := by
  unfold execOneSidedDescriptor
  repeat' first
    | (with_reducible first
        | intro _ | assumption | apply Result.live_keeps | apply State.descriptor_keeps | apply osWork_keeps
        | apply Keeps.foldl | apply Result.next_keeps)
    | (extract_lets +onlyGivenNames lv; have hlv : Keeps A d s₀ lv; unfold lv; on_goal 2 => clear_value lv)
    | (extract_lets +onlyGivenNames lv; clear_value lv)
    | split
    | with_reducible apply netOut_keeps
    | (fail_if_no_progress with_reducible apply Keeps.ofFields)

/-! ## LowRank -/

theorem State.tileResiduals_keeps (s : State) (a1 : PitchId) (a2 : BucketRun) (a3 : Tile) (a4 : List W640) (ha1 : A a1)
    (h : Keeps A d s₀ s) : Keeps A d s₀ (State.tileResiduals s a1 a2 a3 a4) := by
  unfold State.tileResiduals
  repeat' first
    | (with_reducible first
        | intro _ | assumption | apply State.write_keeps | apply State.raise_keeps | apply Keeps.foldl)

theorem State.tileSpill_keeps (s : State) (a1 : PitchId) (a2 : BucketRun) (a3 : ℕ) (a4 : Tile) (a5 : List W640) (ha1 : A
    a1) (h : Keeps A d s₀ s) : Keeps A d s₀ (State.tileSpill s a1 a2 a3 a4 a5) := by
  unfold State.tileSpill
  repeat' first
    | (with_reducible first
        | intro _ | assumption | apply State.ergAddTo_keeps | apply State.ergClear_keeps | apply State.write_keeps
        | apply State.modPitch_keeps | apply Keeps.foldl)
    | (extract_lets +onlyGivenNames lv; have hlv : Keeps A d s₀ lv; unfold lv; on_goal 2 => clear_value lv)
    | (extract_lets +onlyGivenNames lv; clear_value lv) | split

theorem State.runTile_keeps (s : State) (a1 : PitchId) (a2 : BucketRun) (a3 : LrRun) (a4 : Tile) (ha1 : A a1) (h : Keeps
    A d s₀ s) : Keeps A d s₀ (State.runTile s a1 a2 a3 a4) := by
  unfold State.runTile
  repeat' first
    | (with_reducible first
        | intro _ | assumption | apply State.setPitch_keeps | apply State.tileResiduals_keeps | apply State.tileSpill_keeps)
    | (extract_lets +onlyGivenNames lv; have hlv : Keeps A d s₀ lv; unfold lv; on_goal 2 => clear_value lv)
    | (extract_lets +onlyGivenNames lv; clear_value lv) | split

theorem State.stageEnd_keeps (s : State) (a1 : PitchId) (a2 : ℕ) (ha1 : A a1) (h : Keeps A d s₀ s) : Keeps A d s₀
    (State.stageEnd s a1 a2) := by
  unfold State.stageEnd
  repeat' first | (with_reducible first | intro _ | assumption | apply State.modPitch_keeps)

theorem runTiles_keeps (p : PitchId) (b stage : Nat) (n : Nat) (s : State) (hp : A p) (h : Keeps A d s₀ s) : Keeps A d
    s₀ (runTiles p b stage n s) := by
  induction n generalizing s with
  | zero => exact h
  | succ n ih =>
    unfold runTiles
    repeat' first
      | with_reducible assumption | with_reducible apply ih | with_reducible apply State.runTile_keeps | exact hA _
      | with_reducible apply Keeps.foldl | intro _
      | with_reducible apply State.draw_keeps
      | with_reducible refine State.draw_match_keeps _ ?_ ?_ | split

theorem State.stageTiles_keeps (s : State) (a1 : PitchId) (a2 : ℕ) (a3 : ℕ) (ha1 : A a1) (h : Keeps A d s₀ s) : Keeps A
    d s₀ (State.stageTiles s a1 a2 a3) := by
  unfold State.stageTiles
  repeat' first
    | (with_reducible first | intro _ | assumption | apply State.stageEnd_keeps | apply runTiles_keeps)
    | (extract_lets +onlyGivenNames lv; clear_value lv) | split

theorem State.arrayTile_keeps (s : State) (a1 : PitchId) (a2 : ℕ) (a3 : TileCheck) (ha1 : A a1) (h : Keeps A d s₀ s) :
    Keeps A d s₀ (State.arrayTile s a1 a2 a3) := by
  unfold State.arrayTile
  dsimp only
  repeat' with_reducible first
    | assumption | apply State.stageEnd_keeps | apply State.runTile_keeps | apply State.countCatch_keeps
    | apply State.count_keeps | apply State.refusedAdds_keeps | apply State.breakUnit_keeps | split

theorem execArrayTile_keeps (a0 : PitchId) (a1 : ℕ) (a2 : TileCheck) (s : State) (ha0 : A a0) (h : Keeps A d s₀ s) :
    ResultKeeps A d s₀ (execArrayTile a0 a1 a2 s) := by
  unfold execArrayTile
  repeat' with_reducible first
    | intro _ | assumption | apply State.arrayTile_keeps | apply Result.live_keeps

theorem State.setCluster_keeps (s : State) (a1 : Fin 8) (a2 : Cluster) (h : Keeps A d s₀ s) : Keeps A d s₀
    (State.setCluster s a1 a2) := by
  unfold State.setCluster
  repeat' first
    | (with_reducible first | intro _ | assumption | apply netOut_keeps)
    | (fail_if_no_progress with_reducible apply Keeps.ofFields)

theorem State.repairSlice_keeps (s : State) (a1 : Fin 8) (a2 : ℕ) (hA : ∀ q, A q) (h : Keeps A d s₀ s) : Keeps A d s₀
    (State.repairSlice s a1 a2) := by
  unfold State.repairSlice
  repeat' first
    | (with_reducible first
        | intro _ | assumption | apply State.repairDone_keeps | apply State.holdRepair_keeps | apply State.takeSpare_keeps
        | apply State.setCluster_keeps | apply State.forPitches_keeps | apply State.repairFault_keeps
        | apply State.retime_keeps)
    | exact hA _ | (extract_lets +onlyGivenNames lv; have hlv : Keeps A d s₀ lv; unfold lv; on_goal 2 => clear_value lv)
    | (extract_lets +onlyGivenNames lv; clear_value lv) | split

theorem State.peRepair_keeps (s : State) (a1 : Fin 8) (a2 : ℕ) (hA : ∀ p, A p) (h : Keeps A d s₀ s) : Keeps A d s₀
    (State.peRepair s a1 a2) := by
  unfold State.peRepair
  repeat' first
    | (with_reducible first
        | intro _ | assumption | apply State.repairDone_keeps | apply State.holdRepair_keeps
        | apply State.takeSpare_keeps | apply State.setCluster_keeps | apply Keeps.foldl)
    | exact hA _
    | (extract_lets +onlyGivenNames lv; have hlv : Keeps A d s₀ lv; unfold lv; on_goal 2 => clear_value lv)
    | (extract_lets +onlyGivenNames lv; clear_value lv)
    | split
    | with_reducible apply netOut_keeps
    | (fail_if_no_progress with_reducible apply Keeps.ofFields)

theorem State.unitRepair_keeps (s : State) (a1 : Fin 8) (a2 : ℕ) (a3 : Bool) (hA : ∀ p, A p) (h : Keeps A d s₀ s) :
    Keeps A d s₀ (State.unitRepair s a1 a2 a3) := by
  unfold State.unitRepair
  repeat' first
    | (with_reducible first
        | intro _ | assumption | apply State.peRepair_keeps | apply State.repairSlice_keeps
        | apply Keeps.foldl)
    | exact hA _
    | (extract_lets +onlyGivenNames lv; have hlv : Keeps A d s₀ lv; unfold lv; on_goal 2 => clear_value lv)
    | (extract_lets +onlyGivenNames lv; clear_value lv)
    | split
    | with_reducible apply netOut_keeps
    | (fail_if_no_progress with_reducible apply Keeps.ofFields)

theorem execUnitRepair_keeps (a0 : Fin 8) (a1 : Fin 9) (a2 : Bool) (s : State) (hA : ∀ q, A q) (h : Keeps A d s₀ s) :
    ResultKeeps A d s₀ (execUnitRepair a0 a1 a2 s) := by
  unfold execUnitRepair
  repeat' first
    | (with_reducible first
        | intro _ | assumption | apply State.unitRepair_keeps | apply Result.live_keeps | apply Result.next_keeps)
    | exact hA _

theorem execProjectStage_keeps (a0 : PitchId) (a1 : ℕ) (s : State) (ha0 : A a0) (h : Keeps A d s₀ s) : ResultKeeps A d
    s₀ (execProjectStage a0 a1 s) := by
  unfold execProjectStage
  repeat' with_reducible first
    | intro _ | assumption | apply State.stageTiles_keeps | apply Result.live_keeps

theorem State.factorQuantise_keeps (s : State) (a1 : PitchId) (a2 : BucketRun) (a3 : LrRun) (a4 : ℕ) (ha1 : A a1) (h :
    Keeps A d s₀ s) : Keeps A d s₀ (State.factorQuantise s a1 a2 a3 a4) := by
  unfold State.factorQuantise
  repeat' first
    | (with_reducible first
        | intro _ | assumption | apply State.toPacker_keeps | apply State.setPitch_keeps | apply Keeps.foldl)
    | (extract_lets +onlyGivenNames lv; have hlv : Keeps A d s₀ lv; unfold lv; on_goal 2 => clear_value lv)
    | (extract_lets +onlyGivenNames lv; clear_value lv)
    | split
    | with_reducible apply netOut_keeps
    | (fail_if_no_progress with_reducible apply Keeps.ofFields)

theorem execFactorExchangeQuantise_keeps (a0 : PitchId) (a1 : ℕ) (a2 : ℕ) (s : State) (ha0 : A a0) (h : Keeps A d s₀ s)
    : ResultKeeps A d s₀ (execFactorExchangeQuantise a0 a1 a2 s) := by
  unfold execFactorExchangeQuantise
  repeat' first
    | (with_reducible first
        | intro _ | assumption | apply State.factorQuantise_keeps | apply Result.live_keeps | apply Result.next_keeps)
    | split

theorem State.orthonormalise_keeps (s : State) (a1 : PitchId) (a2 : BucketRun) (a3 : LrRun) (ha1 : A a1) (h : Keeps A d
    s₀ s) : Keeps A d s₀ (State.orthonormalise s a1 a2 a3) := by
  unfold State.orthonormalise
  repeat' first
    | (with_reducible first
        | intro _ | assumption | apply State.guardProgress_keeps | apply State.setPitch_keeps | apply State.write_keeps
        | apply Keeps.foldl)
    | (extract_lets +onlyGivenNames lv; clear_value lv) | split

theorem execOrthonormaliseStage_keeps (a0 : PitchId) (a1 : ℕ) (s : State) (ha0 : A a0) (h : Keeps A d s₀ s) :
    ResultKeeps A d s₀ (execOrthonormaliseStage a0 a1 s) := by
  unfold execOrthonormaliseStage
  repeat' first
    | (with_reducible first
        | intro _ | assumption | apply State.orthonormalise_keeps | apply Result.live_keeps | apply Result.next_keeps)
    | (extract_lets +onlyGivenNames lv; clear_value lv) | split

theorem execBackProjectStage_keeps (a0 : PitchId) (a1 : ℕ) (s : State) (ha0 : A a0) (h : Keeps A d s₀ s) : ResultKeeps A
    d s₀ (execBackProjectStage a0 a1 s) := by
  unfold execBackProjectStage
  repeat' with_reducible first
    | intro _ | assumption | apply State.stageTiles_keeps | apply Result.live_keeps

theorem lrOutputGo_keeps (p : PitchId) (b : Nat) (n : Nat) (s : State) (hp : A p) (h : Keeps A d s₀ s) : Keeps A d s₀
    (lrOutputGo p b n s) := by
  induction n generalizing s with
  | zero => exact h
  | succ n ih =>
    unfold lrOutputGo
    repeat' first
      | with_reducible assumption | with_reducible apply ih | with_reducible apply State.lsWait_keeps
      | with_reducible apply State.endOutput_keeps
      | with_reducible apply State.writeOutput_keeps | with_reducible apply rowSideGo_keeps
      | with_reducible apply Keeps.foldl | intro _
      | (extract_lets +onlyGivenNames lv; have hlv : Keeps A d s₀ lv; unfold lv; on_goal 2 => clear_value lv)
      | (extract_lets +onlyGivenNames lv; clear_value lv) | split

theorem State.reconstruct_keeps (s : State) (a1 : PitchId) (a2 : ℕ) (ha1 : A a1) (h : Keeps A d s₀ s) : Keeps A d s₀
    (State.reconstruct s a1 a2) := by
  unfold State.reconstruct
  repeat' first
    | (with_reducible first
        | intro _ | assumption | apply State.stageTiles_keeps | apply State.write_keeps | apply State.setPitch_keeps
        | apply State.modRetained_keeps | apply lrOutputGo_keeps | apply State.lsLast_keeps)
    | (extract_lets +onlyGivenNames lv; have hlv : Keeps A d s₀ lv; unfold lv; on_goal 2 => clear_value lv)
    | (extract_lets +onlyGivenNames lv; clear_value lv) | split

theorem execReconstructStage_keeps (a0 : PitchId) (a1 : ℕ) (s : State) (ha0 : A a0) (h : Keeps A d s₀ s) : ResultKeeps A
    d s₀ (execReconstructStage a0 a1 s) := by
  unfold execReconstructStage
  repeat' with_reducible first
    | intro _ | assumption | apply State.reconstruct_keeps | apply Result.live_keeps

theorem execFusedUpdateBlock_keeps (a0 : PitchId) (a1 : ℕ) (a2 : ℕ) (s : State) (ha0 : A a0) (h : Keeps A d s₀ s) :
    ResultKeeps A d s₀ (execFusedUpdateBlock a0 a1 a2 s) := by
  unfold execFusedUpdateBlock
  repeat' first
    | (with_reducible first
        | intro _ | assumption | apply State.updateBlock_keeps | apply Result.live_keeps | apply Result.next_keeps)
    | (extract_lets +onlyGivenNames lv; clear_value lv) | split

/-! ## Mailbox -/

theorem State.fetchFor_keeps (s t : State) (p : PitchId) (rs : List (Nat × Nat)) (hp : A p) (h : Keeps A d s₀ s)
    (ht : s.fetchFor p rs = .wait t) : Keeps A d s₀ t := by
  unfold State.fetchFor at ht
  extract_lets x host s1 at ht
  split at ht
  · cases ht
  · split at ht
    · cases ht
    · split at ht
      · cases ht
      · split at ht <;> cases ht
        · exact h
        · refine State.modPitch_keeps _ _ _ hp (Keeps.foldl _ (fun x a hx => ?_) h)
          exact State.askHost_keeps _ _ _ _ _ hx

theorem State.bulkResult_keeps (s : State) (a1 : HostPort) (a2 : ℕ) (a3 : Bytes) (h : Keeps A d s₀ s) : Keeps A d s₀
    (State.bulkResult s a1 a2 a3) := by
  unfold State.bulkResult
  repeat' first
    | (with_reducible first
        | intro _ | assumption | apply State.write_keeps | apply State.hostStore_keeps | apply Keeps.foldl)
    | (extract_lets +onlyGivenNames lv; have hlv : Keeps A d s₀ lv; unfold lv; on_goal 2 => clear_value lv)
    | (extract_lets +onlyGivenNames lv; clear_value lv)
    | split
    | with_reducible apply netOut_keeps
    | (fail_if_no_progress with_reducible apply Keeps.ofFields)

theorem State.finish_keeps (s : State) (a1 : PitchId) (a2 : Cmd) (a3 : Refuse) (a4 : Bytes) (a5 : ℕ) (ha1 : A a1) (h :
    Keeps A d s₀ s) : Keeps A d s₀ (State.finish s a1 a2 a3 a4 a5) := by
  unfold State.finish
  repeat' first
    | (with_reducible first
        | intro _ | assumption | apply State.modPitch_keeps | apply State.retain_keeps | apply State.respond_keeps)

theorem State.seqCheck_keeps (s t : State) (p : PitchId) (c : Cmd) (flags : Nat) (hp : A p) (h : Keeps A d s₀ s)
    (ht : s.seqCheck p c flags = some t) : Keeps A d s₀ t := by
  unfold State.seqCheck at ht
  extract_lets x dd hit s1 at ht
  have h1 : Keeps A d s₀ s1 := State.setPitch_keeps _ _ _ hp h
  clear_value hit s1
  split at ht
  · cases ht
  · split at ht
    · cases ht; exact h
    · cases hit <;> cases ht <;> exact State.postResponse_keeps _ _ _ hp h1

theorem State.settle_keeps (s : State) (p : PitchId) (c : Cmd) (flags : Nat) (a : Act) (hp : A p) (ha : ActKeeps A d s₀ a) :
    Keeps A d s₀ (s.settle p c flags a) := by
  cases a with
  | done t r res f later => exact ha.2 _ (State.finish_keeps _ _ _ _ _ _ hp ha.1)
  | owe t why =>
    unfold State.settle
    exact State.modPitch_keeps t p _ hp ha
  | wait t => exact ha

theorem State.command_keeps (s : State) (p : PitchId) (k : CmdSpec) (body : Cmd → HostPort → Bytes → State → Act)
    (hbody : ∀ c hp b x, Keeps A d s₀ x → ActKeeps A d s₀ (body c hp b x)) (hA : ∀ q, A q) (h : Keeps A d s₀ s) :
    Keeps A d s₀ (s.command p k body) := by
  unfold State.command
  split
  · exact h
  · rename_i c hc
    split
    · exact h
    · extract_lets +onlyGivenNames x flags
      split
      · rename_i t ht
        exact State.seqCheck_keeps _ _ _ _ _ (hA _) h ht
      · extract_lets +onlyGivenNames port popped
        have hpop : Keeps A d s₀ popped := State.setPitch_keeps _ _ _ (hA _) h
        split
        · exact State.finish_keeps _ _ _ _ _ _ (hA _) hpop
        · split
          · rename_i t ht
            exact State.fetchFor_keeps _ _ _ _ (hA _) h ht
          · exact State.finish_keeps _ _ _ _ _ _ (hA _) hpop
          · split
            · exact State.finish_keeps _ _ _ _ _ _ (hA _) hpop
            · split
              · exact h
              · extract_lets s1 act
                have h1 : Keeps A d s₀ s1 := by
                  unfold s1
                  split
                  · exact State.wake_keeps _ hA h
                  · exact h
                split
                · exact State.finish_keeps _ _ _ _ _ _ (hA _) hpop
                · exact State.settle_keeps _ _ _ _ _ (hA _) (hbody _ _ _ _ (State.setPitch_keeps _ _ _ (hA _) h1))

theorem State.reservedCommandOp_keeps (s : State) (p : PitchId) (hp : A p) (h : Keeps A d s₀ s) :
    Keeps A d s₀ (s.reservedCommandOp p) := by
  unfold State.reservedCommandOp
  split
  · exact h
  · split
    · exact h
    · extract_lets flags
      split
      · rename_i t ht
        exact State.seqCheck_keeps _ _ _ _ _ hp h ht
      · exact State.finish_keeps _ _ _ _ _ _ hp (State.setPitch_keeps _ _ _ hp h)

theorem execReservedCommand_keeps (a0 : PitchId) (s : State) (ha0 : A a0) (h : Keeps A d s₀ s) : ResultKeeps A d s₀
    (execReservedCommand a0 s) := by
  unfold execReservedCommand
  repeat' with_reducible first
    | intro _ | assumption | apply State.reservedCommandOp_keeps | apply Result.live_keeps

theorem helloBody_keeps (a0 : PitchId) (a1 : Cmd) (a2 : HostPort) (a3 : Bytes) (s : State) (ha0 : A a0) (h : Keeps A d
    s₀ s) : ActKeeps A d s₀ (helloBody a0 a1 a2 a3 s) := by
  unfold helloBody
  repeat' first
    | exact fun _ hx => hx
    | (with_reducible first
        | intro _ | assumption | apply State.modPitch_keeps | apply Act.done_keeps | apply Act.owe_keeps
        | apply Act.wait_keeps | apply Act.ok_keeps | apply Act.no_keeps)
    | exact fun _ hx => hx
    | split

theorem execSysHello_keeps (a0 : PitchId) (s : State) (hA : ∀ q, A q) (h : Keeps A d s₀ s) : ResultKeeps A d s₀
    (execSysHello a0 s) := by
  unfold execSysHello
  repeat' first
    | (with_reducible first
        | intro _ | assumption | apply State.command_keeps | apply helloBody_keeps | apply Result.live_keeps
        | apply Result.next_keeps)
    | exact hA _

theorem capsBody_keeps (a0 : PitchId) (a1 : Cmd) (a2 : HostPort) (a3 : Bytes) (s : State) (ha0 : A a0) (hd : d) (h :
    Keeps A d s₀ s) : ActKeeps A d s₀ (capsBody a0 a1 a2 a3 s) := by
  unfold capsBody
  repeat' first
    | exact fun _ hx => hx
    | (with_reducible first
        | intro _ | assumption | apply State.bulkResult_keeps | apply Act.done_keeps | apply Act.owe_keeps
        | apply Act.wait_keeps | apply Act.ok_keeps | apply Act.no_keeps | apply State.draw_keeps
        | refine State.draw_match_keeps _ ?_ ?_ | apply netOut_keeps)
    | exact fun _ hx => hx
    | (extract_lets +onlyGivenNames lv; clear_value lv) | split | (fail_if_no_progress with_reducible apply Keeps.ofFields)
    | (fail_if_no_progress with_reducible apply Keeps.ofGuarded hd)

theorem execSysCaps_keeps (a0 : PitchId) (s : State) (hA : ∀ q, A q) (hd : d) (h : Keeps A d s₀ s) : ResultKeeps A d s₀
    (execSysCaps a0 s) := by
  unfold execSysCaps
  repeat' first
    | (with_reducible first
        | intro _ | assumption | apply State.command_keeps | apply capsBody_keeps | apply Result.live_keeps
        | apply Result.next_keeps)
    | exact hA _

theorem State.firstPass_keeps (s : State) (a1 : PitchId) (ha1 : A a1) (h : Keeps A d s₀ s) : Keeps A d s₀
    (State.firstPass s a1) := by
  unfold State.firstPass
  repeat' first
    | (with_reducible first | intro _ | assumption | apply State.eraseAll_keeps | apply State.setPitch_keeps)

theorem bindBody_keeps (a0 : PitchId) (a1 : Cmd) (a2 : HostPort) (a3 : Bytes) (s : State) (ha0 : A a0) (h : Keeps A d s₀
    s) : ActKeeps A d s₀ (bindBody a0 a1 a2 a3 s) := by
  unfold bindBody
  repeat' first
    | exact fun _ hx => hx
    | (with_reducible first
        | intro _ | assumption | apply State.firstPass_keeps | apply State.setPitch_keeps | apply Act.done_keeps
        | apply Act.owe_keeps | apply Act.wait_keeps | apply Act.ok_keeps | apply Act.no_keeps)
    | exact fun _ hx => hx
    | (extract_lets +onlyGivenNames lv; clear_value lv) | split

theorem execPitchBind_keeps (a0 : PitchId) (s : State) (hA : ∀ q, A q) (h : Keeps A d s₀ s) : ResultKeeps A d s₀
    (execPitchBind a0 s) := by
  unfold execPitchBind
  repeat' first
    | (with_reducible first
        | intro _ | assumption | apply State.command_keeps | apply bindBody_keeps | apply Result.live_keeps
        | apply Result.next_keeps)
    | exact hA _ | split

theorem releaseBody_keeps (a1 : PitchId) (a2 : Cmd) (a3 : HostPort) (a4 : Bytes) (s : State) (hA : ∀ p, A p) (h : Keeps
    A d s₀ s) : ActKeeps A d s₀ (releaseBody a1 a2 a3 a4 s) := by
  unfold releaseBody
  repeat' first
    | (with_reducible first
        | intro _ | assumption | apply State.modPitch_keeps | apply State.ergClear_keeps
        | apply State.setRetained_keeps | apply State.retime_keeps | apply State.settleCells_keeps
        | apply Keeps.foldl | apply Act.ok_keeps | apply Act.no_keeps | apply Act.done_keeps
        | apply Act.owe_keeps | apply Act.wait_keeps)
    | exact hA _
    | exact fun _ hx => hx
    | (extract_lets +onlyGivenNames lv; have hlv : Keeps A d s₀ lv; unfold lv; on_goal 2 => clear_value lv)
    | (extract_lets +onlyGivenNames lv; clear_value lv)
    | split
    | with_reducible apply netOut_keeps
    | (fail_if_no_progress with_reducible apply Keeps.ofFields)

theorem execPitchRelease_keeps (a0 : PitchId) (s : State) (hA : ∀ q, A q) (h : Keeps A d s₀ s) : ResultKeeps A d s₀
    (execPitchRelease a0 s) := by
  unfold execPitchRelease
  repeat' first
    | (with_reducible first
        | intro _ | assumption | apply State.command_keeps | apply releaseBody_keeps | apply Result.live_keeps
        | apply Result.next_keeps)
    | exact hA _

theorem startBody_keeps (a0 : PitchId) (a1 : Cmd) (a2 : HostPort) (a3 : Bytes) (s : State) (ha0 : A a0) (h : Keeps A d
    s₀ s) : ActKeeps A d s₀ (startBody a0 a1 a2 a3 s) := by
  unfold startBody
  repeat' first
    | exact fun _ hx => hx
    | (with_reducible first
        | intro _ | assumption | apply State.modPitch_keeps | apply Act.done_keeps | apply Act.owe_keeps
        | apply Act.wait_keeps | apply Act.ok_keeps | apply Act.no_keeps)
    | exact fun _ hx => hx | split

theorem execPitchStart_keeps (a0 : PitchId) (s : State) (hA : ∀ q, A q) (h : Keeps A d s₀ s) : ResultKeeps A d s₀
    (execPitchStart a0 s) := by
  unfold execPitchStart
  repeat' first
    | (with_reducible first
        | intro _ | assumption | apply State.command_keeps | apply startBody_keeps | apply Result.live_keeps
        | apply Result.next_keeps)
    | exact hA _

theorem State.clearCollective_keeps (s : State) (a1 : PitchId) (ha1 : A a1) (h : Keeps A d s₀ s) : Keeps A d s₀
    (State.clearCollective s a1) := by
  unfold State.clearCollective
  repeat' first
    | (with_reducible first
        | intro _ | assumption | apply State.abortDescriptors_keeps | apply State.ergClear_keeps | apply State.erase_keeps
        | apply State.eraseAll_keeps | apply State.modPitch_keeps)

theorem State.ergRestore_keeps (s : State) (a1 : PitchId) (ha1 : A a1) (h : Keeps A d s₀ s) : Keeps A d s₀
    (State.ergRestore s a1) := by
  unfold State.ergRestore
  repeat' first
    | (with_reducible first
        | intro _ | assumption | apply State.ergClear_keeps | apply State.ergSet_keeps | apply Keeps.foldl)
    | (extract_lets +onlyGivenNames lv; have hlv : Keeps A d s₀ lv; unfold lv; on_goal 2 => clear_value lv)
    | (extract_lets +onlyGivenNames lv; clear_value lv) | split

theorem State.pitchRunningOp_keeps (s : State) (a1 : PitchId) (hA : ∀ p, A p) (h : Keeps A d s₀ s) : Keeps A d s₀
    (State.pitchRunningOp s a1) := by
  unfold State.pitchRunningOp
  repeat' first
    | (with_reducible first
        | intro _ | assumption | apply State.planEffect_keeps | apply State.clearCollective_keeps
        | apply State.ergRestore_keeps | apply State.modPitch_keeps | apply State.retain_keeps
        | apply State.answerOwed_keeps | apply State.fencePitch_keeps | apply Keeps.foldl)
    | exact hA _
    | (extract_lets +onlyGivenNames lv; have hlv : Keeps A d s₀ lv; unfold lv; on_goal 2 => clear_value lv)
    | (extract_lets +onlyGivenNames lv; clear_value lv)
    | split
    | with_reducible apply netOut_keeps
    | (fail_if_no_progress with_reducible apply Keeps.ofFields)

theorem execPitchRunning_keeps (a0 : PitchId) (s : State) (hA : ∀ q, A q) (h : Keeps A d s₀ s) : ResultKeeps A d s₀
    (execPitchRunning a0 s) := by
  unfold execPitchRunning
  repeat' first
    | (with_reducible first
        | intro _ | assumption | apply State.pitchRunningOp_keeps | apply Result.live_keeps | apply Result.next_keeps)
    | exact hA _

theorem State.stopNow_keeps (s : State) (a1 : PitchId) (ha1 : A a1) (h : Keeps A d s₀ s) : Keeps A d s₀ (State.stopNow s
    a1) := by
  unfold State.stopNow
  repeat' with_reducible first | intro _ | assumption | apply State.modPitch_keeps | apply State.cutStep_keeps

theorem stopBody_keeps (a0 : PitchId) (a1 : Cmd) (a2 : HostPort) (a3 : Bytes) (s : State) (ha0 : A a0) (h : Keeps A d s₀
    s) : ActKeeps A d s₀ (stopBody a0 a1 a2 a3 s) := by
  unfold stopBody
  repeat' first
    | exact fun _ hx => hx
    | (with_reducible first
        | intro _ | assumption | apply State.stopNow_keeps | apply Act.done_keeps | apply Act.owe_keeps
        | apply Act.wait_keeps | apply Act.ok_keeps | apply Act.no_keeps)
    | exact fun _ hx => hx | split

theorem execPitchStop_keeps (a0 : PitchId) (s : State) (hA : ∀ q, A q) (h : Keeps A d s₀ s) : ResultKeeps A d s₀
    (execPitchStop a0 s) := by
  unfold execPitchStop
  repeat' first
    | (with_reducible first
        | intro _ | assumption | apply State.command_keeps | apply stopBody_keeps | apply Result.live_keeps
        | apply Result.next_keeps)
    | exact hA _

theorem drainBody_keeps (a0 : PitchId) (a1 : Cmd) (a2 : HostPort) (a3 : Bytes) (s : State) (ha0 : A a0) (h : Keeps A d
    s₀ s) : ActKeeps A d s₀ (drainBody a0 a1 a2 a3 s) := by
  unfold drainBody
  repeat' first
    | exact fun _ hx => hx
    | (with_reducible first
        | intro _ | assumption | apply State.stopNow_keeps | apply State.modPitch_keeps | apply Act.done_keeps
        | apply Act.owe_keeps | apply Act.wait_keeps | apply Act.ok_keeps | apply Act.no_keeps)
    | exact fun _ hx => hx
    | split

theorem execPitchDrain_keeps (a0 : PitchId) (s : State) (hA : ∀ q, A q) (h : Keeps A d s₀ s) : ResultKeeps A d s₀
    (execPitchDrain a0 s) := by
  unfold execPitchDrain
  repeat' first
    | (with_reducible first
        | intro _ | assumption | apply State.command_keeps | apply drainBody_keeps | apply Result.live_keeps
        | apply Result.next_keeps)
    | exact hA _

theorem State.ergSaveOp_keeps (s : State) (a1 : PitchId) (ha1 : A a1) (h : Keeps A d s₀ s) : Keeps A d s₀
    (State.ergSaveOp s a1) := by
  unfold State.ergSaveOp
  repeat' first
    | (with_reducible first
        | intro _ | assumption | apply State.setPitch_keeps | apply State.write_keeps | apply State.retain_keeps
        | apply State.answerOwed_keeps)
    | (extract_lets +onlyGivenNames lv; have hlv : Keeps A d s₀ lv; unfold lv; on_goal 2 => clear_value lv)
    | (extract_lets +onlyGivenNames lv; clear_value lv) | split

theorem execErgSave_keeps (a0 : PitchId) (s : State) (ha0 : A a0) (h : Keeps A d s₀ s) : ResultKeeps A d s₀ (execErgSave
    a0 s) := by
  unfold execErgSave
  repeat' with_reducible first
    | intro _ | assumption | apply State.ergSaveOp_keeps | apply Result.live_keeps

theorem baseLoadBody_keeps (a0 : PitchId) (a1 : Cmd) (a2 : HostPort) (a3 : Bytes) (s : State) (ha0 : A a0) (h : Keeps A
    d s₀ s) : ActKeeps A d s₀ (baseLoadBody a0 a1 a2 a3 s) := by
  unfold baseLoadBody
  repeat' first
    | exact fun _ hx => hx
    | (with_reducible first
        | intro _ | assumption | apply State.modPitch_keeps | apply Act.done_keeps | apply Act.owe_keeps
        | apply Act.wait_keeps | apply Act.ok_keeps | apply Act.no_keeps)
    | exact fun _ hx => hx | split

theorem execCfgBaseLoad_keeps (a0 : PitchId) (s : State) (hA : ∀ q, A q) (h : Keeps A d s₀ s) : ResultKeeps A d s₀
    (execCfgBaseLoad a0 s) := by
  unfold execCfgBaseLoad
  repeat' first
    | (with_reducible first
        | intro _ | assumption | apply State.command_keeps | apply baseLoadBody_keeps | apply Result.live_keeps
        | apply Result.next_keeps)
    | exact hA _

theorem overlayPutBody_keeps (p : PitchId) (c : Cmd) (a2 : HostPort) (bs : Bytes) (s : State) (hp : A p) (h : Keeps A d s₀ s) :
    ActKeeps A d s₀ (overlayPutBody p c a2 bs s) := by
  unfold overlayPutBody
  extract_lets i put
  have hput : ∀ b, Keeps A d s₀ (put b) := fun b => State.modPitch_keeps _ _ _ hp h
  clear_value put
  repeat' first | exact Act.no_keeps h | exact Act.ok_keeps (hput _) | split

theorem execCfgOverlayPut_keeps (a0 : PitchId) (s : State) (hA : ∀ q, A q) (h : Keeps A d s₀ s) : ResultKeeps A d s₀
    (execCfgOverlayPut a0 s) := by
  unfold execCfgOverlayPut
  repeat' first
    | (with_reducible first
        | intro _ | assumption | apply State.command_keeps | apply overlayPutBody_keeps | apply Result.live_keeps
        | apply Result.next_keeps)
    | exact hA _

theorem overlaySelectBody_keeps (a0 : PitchId) (a1 : Cmd) (a2 : HostPort) (a3 : Bytes) (s : State) (ha0 : A a0) (h :
    Keeps A d s₀ s) : ActKeeps A d s₀ (overlaySelectBody a0 a1 a2 a3 s) := by
  unfold overlaySelectBody
  repeat' first
    | exact fun _ hx => hx
    | (with_reducible first
        | intro _ | assumption | apply State.modPitch_keeps | apply Act.done_keeps | apply Act.owe_keeps
        | apply Act.wait_keeps | apply Act.ok_keeps | apply Act.no_keeps)
    | exact fun _ hx => hx
    | (extract_lets +onlyGivenNames lv; clear_value lv) | split

theorem execCfgOverlaySelect_keeps (a0 : PitchId) (s : State) (hA : ∀ q, A q) (h : Keeps A d s₀ s) : ResultKeeps A d s₀
    (execCfgOverlaySelect a0 s) := by
  unfold execCfgOverlaySelect
  repeat' first
    | (with_reducible first
        | intro _ | assumption | apply State.command_keeps | apply overlaySelectBody_keeps | apply Result.live_keeps
        | apply Result.next_keeps)
    | exact hA _

theorem commitBody_keeps (a1 : PitchId) (s : State) (a2 : Cmd) (a3 : HostPort) (a4 : Bytes) (s1 : State) (hA : ∀ p, A
    p) (h : Keeps A d s₀ s) (h1 : Keeps A d s₀ s1) : ActKeeps A d s₀ (commitBody a1 s a2 a3 a4 s1) := by
  unfold commitBody
  repeat' first
    | (with_reducible first
        | intro _ | assumption | apply State.commitEffect_keeps | apply State.lossScaleNotice_keeps
        | apply Keeps.foldl | apply Act.ok_keeps | apply Act.no_keeps | apply Act.done_keeps
        | apply Act.owe_keeps | apply Act.wait_keeps)
    | exact hA _
    | (refine State.fetchFor_keeps _ _ _ _ ?_ ?_ (by assumption))
    | exact fun _ hx => hx
    | (extract_lets +onlyGivenNames lv; have hlv : Keeps A d s₀ lv; unfold lv; on_goal 2 => clear_value lv)
    | (extract_lets +onlyGivenNames lv; clear_value lv)
    | split
    | with_reducible apply netOut_keeps
    | (fail_if_no_progress with_reducible apply Keeps.ofFields)

theorem execCfgCommit_keeps (a0 : PitchId) (s : State) (hA : ∀ q, A q) (h : Keeps A d s₀ s) : ResultKeeps A d s₀
    (execCfgCommit a0 s) := by
  unfold execCfgCommit
  repeat' first
    | (with_reducible first
        | intro _ | assumption | apply State.command_keeps | apply commitBody_keeps | apply Result.live_keeps
        | apply Result.next_keeps)
    | exact hA _

theorem pegLoadBody_keeps (a0 : PitchId) (a1 : Cmd) (a2 : HostPort) (a3 : Bytes) (s : State) (ha0 : A a0) (h : Keeps A d
    s₀ s) : ActKeeps A d s₀ (pegLoadBody a0 a1 a2 a3 s) := by
  unfold pegLoadBody
  repeat' first
    | exact fun _ hx => hx
    | (with_reducible first
        | intro _ | assumption | apply State.resign_keeps | apply State.modPitch_keeps | apply Act.done_keeps
        | apply Act.owe_keeps | apply Act.wait_keeps | apply Act.ok_keeps | apply Act.no_keeps)
    | exact fun _ hx => hx
    | (extract_lets +onlyGivenNames lv; clear_value lv) | split

theorem execPegLoad_keeps (a0 : PitchId) (s : State) (hA : ∀ q, A q) (h : Keeps A d s₀ s) : ResultKeeps A d s₀
    (execPegLoad a0 s) := by
  unfold execPegLoad
  repeat' first
    | (with_reducible first
        | intro _ | assumption | apply State.command_keeps | apply pegLoadBody_keeps | apply Result.live_keeps
        | apply Result.next_keeps)
    | exact hA _

theorem layerLoadBody_keeps (a0 : PitchId) (a1 : Cmd) (a2 : HostPort) (a3 : Bytes) (s : State) (ha0 : A a0) (h : Keeps A
    d s₀ s) : ActKeeps A d s₀ (layerLoadBody a0 a1 a2 a3 s) := by
  unfold layerLoadBody
  repeat' first
    | exact fun _ hx => hx
    | (with_reducible first
        | intro _ | assumption | apply State.resign_keeps | apply State.modPitch_keeps | apply Act.done_keeps
        | apply Act.owe_keeps | apply Act.wait_keeps | apply Act.ok_keeps | apply Act.no_keeps)
    | exact fun _ hx => hx
    | (extract_lets +onlyGivenNames lv; clear_value lv) | split

theorem execLayermapLoad_keeps (a0 : PitchId) (s : State) (hA : ∀ q, A q) (h : Keeps A d s₀ s) : ResultKeeps A d s₀
    (execLayermapLoad a0 s) := by
  unfold execLayermapLoad
  repeat' first
    | (with_reducible first
        | intro _ | assumption | apply State.command_keeps | apply layerLoadBody_keeps | apply Result.live_keeps
        | apply Result.next_keeps)
    | exact hA _

theorem pairBody_keeps (a0 : PitchId) (a1 : Cmd) (a2 : HostPort) (a3 : Bytes) (s : State) (ha0 : A a0) (h : Keeps A d s₀
    s) : ActKeeps A d s₀ (pairBody a0 a1 a2 a3 s) := by
  unfold pairBody
  repeat' first
    | exact fun _ hx => hx
    | (with_reducible first
        | intro _ | assumption | apply State.resign_keeps | apply State.modPitch_keeps | apply Act.done_keeps
        | apply Act.owe_keeps | apply Act.wait_keeps | apply Act.ok_keeps | apply Act.no_keeps)
    | exact fun _ hx => hx
    | (extract_lets +onlyGivenNames lv; clear_value lv) | split

theorem execLockstepPair_keeps (a0 : PitchId) (s : State) (hA : ∀ q, A q) (h : Keeps A d s₀ s) : ResultKeeps A d s₀
    (execLockstepPair a0 s) := by
  unfold execLockstepPair
  repeat' first
    | (with_reducible first
        | intro _ | assumption | apply State.command_keeps | apply pairBody_keeps | apply Result.live_keeps
        | apply Result.next_keeps)
    | exact hA _

/-! ## Delta -/

theorem State.putAt_keeps (s : State) (a1 : PitchId) (a2 : ℕ) (a3 : ℕ) (a4 : Bytes) (ha1 : A a1) (h : Keeps A d s₀ s) :
    Keeps A d s₀ (State.putAt s a1 a2 a3 a4) := by
  unfold State.putAt
  repeat' first | (with_reducible first | intro _ | assumption | apply State.write_keeps | apply State.descStore_keeps) | split

theorem State.deltaEncodeRun_keeps (s : State) (a1 : PitchId) (a2 : ℕ) (a3 : DeltaOp) (a4 : Bytes) (a5 : List ℕ) (a6 :
    List ℕ) (ha1 : A a1) (h : Keeps A d s₀ s) : Keeps A d s₀ (State.deltaEncodeRun s a1 a2 a3 a4 a5 a6) := by
  unfold State.deltaEncodeRun
  repeat' first
    | (with_reducible first
        | intro _ | assumption | apply State.putAt_keeps | apply State.modPitch_keeps | apply Keeps.foldl)

end Sys2Proof.Machine
end

