-- ==== Sys2Proof/Laws/Keeps4.lean ====
section
/-! SUPPORT. What the operations of Delta, Transmit, Receive, Membership keep (Laws/Keeps.lean): one lemma for each. -/

namespace Sys2Proof.Machine

variable {A : PitchId → Prop} {d : Prop} {s₀ : State}

/-! ## Delta -/

theorem deltaExpandGo_keeps (p : PitchId) (q : Nat) (o : DeltaOp) (a b c : Bytes) (bs : List Nat) (f i : Nat) (s :
    State) (hp : A p)
    (h : Keeps A d s₀ s) : Keeps A d s₀ (deltaExpandGo p q o a b c bs f i s).1 := by
  induction f generalizing i s with
  | zero => exact h
  | succ f ih =>
    unfold deltaExpandGo
    extract_lets k
    split
    · exact State.count_keeps _ _ _ _ hp h
    · exact ih _ _ (State.putAt_keeps _ _ _ _ _ hp h)

theorem State.deltaRun_keeps (s : State) (a1 : PitchId) (a2 : DescJob) (a3 : Bytes) (a4 : List Bytes) (ha1 : A a1) (h :
    Keeps A d s₀ s) : Keeps A d s₀ (State.deltaRun s a1 a2 a3 a4) := by
  unfold State.deltaRun
  extract_lets o n base
  split
  · have hx := deltaExpandGo_keeps a1 a2.wq o a3 (a4.getD 0 []) (a4.getD 1 []) (base 2) o.count 0 s ha1 h
    revert hx
    generalize deltaExpandGo a1 a2.wq o a3 (a4.getD 0 []) (a4.getD 1 []) (base 2) o.count 0 s = r
    obtain ⟨t, b⟩ := r
    intro hx
    cases b <;> exact State.endDesc_keeps _ _ _ _ _ ha1 hx
  · exact State.endDesc_keeps _ _ _ _ _ ha1 (State.deltaEncodeRun_keeps _ _ _ _ _ _ _ ha1 h)

theorem deltaWork_keeps (a1 : PitchId) (a2 : DescJob) (s : State) (ha1 : A a1) (h : Keeps A d s₀ s) : DescKeeps A d s₀
    (deltaWork a1 a2 s) := by
  unfold deltaWork
  repeat' first
    | (with_reducible first
        | intro _ | assumption | apply State.deltaRun_keeps | apply Keeps.foldl | apply DescOut.id_keeps
        | apply DescOut.refuse_keeps | apply DescOut.take_keeps | apply DescOut.wait_keeps)
    | (refine State.descFetch_keeps _ _ _ _ _ _ ?_ ?_ (by assumption))
    | (extract_lets +onlyGivenNames lv; have hlv : Keeps A d s₀ lv; unfold lv; on_goal 2 => clear_value lv)
    | (extract_lets +onlyGivenNames lv; clear_value lv)
    | split
    | with_reducible apply netOut_keeps
    | (fail_if_no_progress with_reducible apply Keeps.ofFields)

theorem execDeltaEncode_keeps (a1 : PitchId) (a2 : ℕ) (s : State) (ha1 : A a1) (h : Keeps A d s₀ s) : ResultKeeps A d
    s₀ (execDeltaEncode a1 a2 s) := by
  unfold execDeltaEncode
  repeat' first
    | (with_reducible first
        | intro _ | assumption | apply Result.live_keeps | apply State.descriptor_keeps
        | apply deltaWork_keeps | apply Keeps.foldl | apply Result.next_keeps)
    | (extract_lets +onlyGivenNames lv; have hlv : Keeps A d s₀ lv; unfold lv; on_goal 2 => clear_value lv)
    | (extract_lets +onlyGivenNames lv; clear_value lv)
    | split
    | with_reducible apply netOut_keeps
    | (fail_if_no_progress with_reducible apply Keeps.ofFields)

theorem execDeltaExpand_keeps (a1 : PitchId) (a2 : ℕ) (s : State) (ha1 : A a1) (h : Keeps A d s₀ s) : ResultKeeps A d
    s₀ (execDeltaExpand a1 a2 s) := by
  unfold execDeltaExpand
  repeat' first
    | (with_reducible first
        | intro _ | assumption | apply Result.live_keeps | apply State.descriptor_keeps
        | apply deltaWork_keeps | apply Keeps.foldl | apply Result.next_keeps)
    | (extract_lets +onlyGivenNames lv; have hlv : Keeps A d s₀ lv; unfold lv; on_goal 2 => clear_value lv)
    | (extract_lets +onlyGivenNames lv; clear_value lv)
    | split
    | with_reducible apply netOut_keeps
    | (fail_if_no_progress with_reducible apply Keeps.ofFields)

theorem descWork_keeps (a1 : PitchId) (a2 : DescJob) (s : State) (ha1 : A a1) (h : Keeps A d s₀ s) : DescKeeps A d s₀
    (descWork a1 a2 s) := by
  unfold descWork
  repeat' first
    | (with_reducible first
        | intro _ | assumption | apply dispatchWork_keeps | apply combineWork_keeps | apply osWork_keeps
        | apply deltaWork_keeps | apply Keeps.foldl | apply DescOut.id_keeps | apply DescOut.refuse_keeps
        | apply DescOut.take_keeps | apply DescOut.wait_keeps)
    | (extract_lets +onlyGivenNames lv; have hlv : Keeps A d s₀ lv; unfold lv; on_goal 2 => clear_value lv)
    | (extract_lets +onlyGivenNames lv; clear_value lv)
    | split
    | with_reducible apply netOut_keeps
    | (fail_if_no_progress with_reducible apply Keeps.ofFields)

theorem State.descResume_keeps (s : State) (a1 : PitchId) (a2 : ℕ) (ha1 : A a1) (h : Keeps A d s₀ s) : Keeps A d s₀
    (State.descResume s a1 a2) := by
  unfold State.descResume
  repeat' first
    | (with_reducible first
        | intro _ | assumption | apply State.runDesc_keeps | apply descWork_keeps | apply Keeps.foldl)
    | (extract_lets +onlyGivenNames lv; have hlv : Keeps A d s₀ lv; unfold lv; on_goal 2 => clear_value lv)
    | (extract_lets +onlyGivenNames lv; clear_value lv)
    | split
    | with_reducible apply netOut_keeps
    | (fail_if_no_progress with_reducible apply Keeps.ofFields)

theorem State.checkpointWriteOp_keeps (s : State) (a1 : PitchId) (ha1 : A a1) (h : Keeps A d s₀ s) : Keeps A d s₀
    (State.checkpointWriteOp s a1) := by
  unfold State.checkpointWriteOp
  repeat' first
    | (with_reducible first
        | intro _ | assumption | apply State.ckptOwed_keeps | apply State.modPitch_keeps
        | apply State.ckptFinish_keeps | apply State.ckptBegin_keeps | apply Keeps.foldl)
    | (extract_lets +onlyGivenNames lv; have hlv : Keeps A d s₀ lv; unfold lv; on_goal 2 => clear_value lv)
    | (extract_lets +onlyGivenNames lv; clear_value lv)
    | split
    | with_reducible apply netOut_keeps
    | (fail_if_no_progress with_reducible apply Keeps.ofFields)

theorem execCheckpointWrite_keeps (a0 : PitchId) (s : State) (ha0 : A a0) (h : Keeps A d s₀ s) : ResultKeeps A d s₀
    (execCheckpointWrite a0 s) := by
  unfold execCheckpointWrite
  repeat' with_reducible first
    | intro _ | assumption | apply State.checkpointWriteOp_keeps | apply Result.live_keeps

theorem ckptBody_keeps (a1 : PitchId) (a2 : Cmd) (a3 : HostPort) (a4 : Bytes) (s : State) (ha1 : A a1) (h : Keeps A d
    s₀ s) : ActKeeps A d s₀ (ckptBody a1 a2 a3 a4 s) := by
  unfold ckptBody
  extract_lets x
  split
  · exact Act.no_keeps h
  · split
    · exact Act.done_keeps (State.modPitch_keeps _ _ _ ha1 h) (fun _ hx => hx)
    · exact Act.owe_keeps (State.ckptBegin_keeps _ _ ha1 h)

theorem execCheckpointMark_keeps (a0 : PitchId) (s : State) (hA : ∀ q, A q) (h : Keeps A d s₀ s) : ResultKeeps A d s₀
    (execCheckpointMark a0 s) := by
  unfold execCheckpointMark
  repeat' first
    | (with_reducible first
        | intro _ | assumption | apply State.command_keeps | apply ckptBody_keeps | apply Result.live_keeps
        | apply Result.next_keeps)
    | exact hA _

theorem restoreShardGo_keeps (a1 : PitchId) (a2 : Bytes) (a3 : ℕ) (a4 : ℕ) (a5 : List ℕ) (a6 : ℕ) (a7 : ℕ) (s : State)
    (ha1 : A a1) (h : Keeps A d s₀ s) : Keeps A d s₀ (restoreShardGo a1 a2 a3 a4 a5 a6 a7 s) := by
  induction a6 generalizing a7 s with
  | zero => exact h
  | succ f ih =>
    unfold restoreShardGo
    split
    · exact ih _ _ (State.write_keeps _ _ _ h)
    · exact State.count_keeps _ _ _ _ ha1 h

theorem State.restoreShard_keeps (s : State) (a1 : PitchId) (a2 : Bytes) (ha1 : A a1) (h : Keeps A d s₀ s) : Keeps A d
    s₀ (State.restoreShard s a1 a2) := by
  unfold State.restoreShard
  repeat' first
    | (with_reducible first
        | intro _ | assumption | apply restoreShardGo_keeps | apply Keeps.foldl)
    | (extract_lets +onlyGivenNames lv; have hlv : Keeps A d s₀ lv; unfold lv; on_goal 2 => clear_value lv)
    | (extract_lets +onlyGivenNames lv; clear_value lv)
    | split
    | with_reducible apply netOut_keeps
    | (fail_if_no_progress with_reducible apply Keeps.ofFields)

theorem State.restoreSection_keeps (s : State) (a1 : PitchId) (a2 : Bytes) (a3 : Bytes) (ha1 : A a1) (h : Keeps A d s₀
    s) : Keeps A d s₀ (State.restoreSection s a1 a2 a3) := by
  unfold State.restoreSection
  repeat' first
    | (with_reducible first
        | intro _ | assumption | apply State.write_keeps | apply State.setPitch_keeps | apply State.restoreShard_keeps
        | apply Keeps.foldl)
    | (extract_lets +onlyGivenNames lv; clear_value lv) | split

theorem State.restoreCkpt_keeps (s : State) (a1 : PitchId) (a2 : Bytes) (a3 : List (Bytes × Bytes)) (ha1 : A a1) (h :
    Keeps A d s₀ s) : Keeps A d s₀ (State.restoreCkpt s a1 a2 a3) := by
  unfold State.restoreCkpt
  repeat' first
    | (with_reducible first
        | intro _ | assumption | apply State.restoreSection_keeps | apply State.lossScaleNotice_keeps
        | apply State.modPitch_keeps | apply Keeps.foldl)
    | (extract_lets +onlyGivenNames lv; have hlv : Keeps A d s₀ lv; unfold lv; on_goal 2 => clear_value lv)
    | (extract_lets +onlyGivenNames lv; clear_value lv)
    | split
    | with_reducible apply netOut_keeps
    | (fail_if_no_progress with_reducible apply Keeps.ofFields)

theorem State.exportDone_keeps (s : State) (a1 : PitchId) (a2 : ℕ) (ha1 : A a1) (h : Keeps A d s₀ s) : Keeps A d s₀
    (State.exportDone s a1 a2) := by
  unfold State.exportDone
  repeat' first
    | (with_reducible first
        | intro _ | assumption | apply State.count_keeps | apply State.retain_keeps | apply State.answerOwed_keeps
        | apply State.modPitch_keeps)
    | (extract_lets +onlyGivenNames lv; have hlv : Keeps A d s₀ lv; unfold lv; on_goal 2 => clear_value lv)
    | (extract_lets +onlyGivenNames lv; clear_value lv) | split

theorem State.exportRefused_keeps (s : State) (a1 : PitchId) (a2 : ℕ) (ha1 : A a1) (h : Keeps A d s₀ s) : Keeps A d s₀
    (State.exportRefused s a1 a2) := by
  unfold State.exportRefused
  repeat' first
    | (with_reducible first
        | intro _ | assumption | apply State.bucketFault_keeps | apply State.setPitch_keeps | apply State.retain_keeps
        | apply State.answerOwed_keeps | apply State.modPitch_keeps)
    | (extract_lets +onlyGivenNames lv; have hlv : Keeps A d s₀ lv; unfold lv; on_goal 2 => clear_value lv)
    | (extract_lets +onlyGivenNames lv; clear_value lv) | split

theorem State.exportAcked_keeps (s : State) (a1 : PitchId) (a2 : ℕ) (ha1 : A a1) (h : Keeps A d s₀ s) : Keeps A d s₀
    (State.exportAcked s a1 a2) := by
  unfold State.exportAcked
  repeat' first | (with_reducible first | intro _ | assumption | apply State.exportDone_keeps) | split

theorem State.exportImage_keeps (s : State) (a1 : PitchId) (a2 : ℕ) (a3 : ℕ) (a4 : Bytes) (ha1 : A a1) (h : Keeps A d
    s₀ s) : Keeps A d s₀ (State.exportImage s a1 a2 a3 a4) := by
  unfold State.exportImage
  repeat' first
    | (with_reducible first
        | intro _ | assumption | apply State.exportRefused_keeps | apply State.enqueueAll_keeps
        | apply State.count_keeps | apply State.exportDone_keeps | apply State.descStore_keeps
        | apply Keeps.foldl)
    | (extract_lets +onlyGivenNames lv; have hlv : Keeps A d s₀ lv; unfold lv; on_goal 2 => clear_value lv)
    | (extract_lets +onlyGivenNames lv; clear_value lv)
    | split
    | with_reducible apply netOut_keeps
    | (fail_if_no_progress with_reducible apply Keeps.ofFields)

theorem State.exportRun_keeps (s : State) (a1 : PitchId) (a2 : ℕ) (ha1 : A a1) (h : Keeps A d s₀ s) : Keeps A d s₀
    (State.exportRun s a1 a2) := by
  unfold State.exportRun
  repeat' first
    | (with_reducible first
        | intro _ | assumption | apply State.exportRefused_keeps | apply State.modPitch_keeps
        | apply State.exportImage_keeps | apply Keeps.foldl)
    | (refine State.descFetch_keeps _ _ _ _ _ _ ?_ ?_ (by assumption))
    | (extract_lets +onlyGivenNames lv; have hlv : Keeps A d s₀ lv; unfold lv; on_goal 2 => clear_value lv)
    | (extract_lets +onlyGivenNames lv; clear_value lv)
    | split
    | with_reducible apply netOut_keeps
    | (fail_if_no_progress with_reducible apply Keeps.ofFields)

theorem execSnapshotExportWrite_keeps (a0 : PitchId) (a1 : Fin 8) (s : State) (ha0 : A a0) (h : Keeps A d s₀ s) :
    ResultKeeps A d s₀ (execSnapshotExportWrite a0 a1 s) := by
  unfold execSnapshotExportWrite
  repeat' first
    | (with_reducible first
        | intro _ | assumption | apply State.exportRun_keeps | apply Result.live_keeps | apply Result.next_keeps)
    | split

theorem snapBody_keeps (a0 : PitchId) (a1 : Cmd) (a2 : HostPort) (a3 : Bytes) (s : State) (ha0 : A a0) (h : Keeps A d s₀
    s) : ActKeeps A d s₀ (snapBody a0 a1 a2 a3 s) := by
  unfold snapBody
  repeat' first
    | exact fun _ hx => hx
    | (with_reducible first
        | intro _ | assumption | apply State.modPitch_keeps | apply Act.done_keeps | apply Act.owe_keeps
        | apply Act.wait_keeps | apply Act.ok_keeps | apply Act.no_keeps)
    | exact fun _ hx => hx
    | (extract_lets +onlyGivenNames lv; clear_value lv) | split

theorem execSnapshotExport_keeps (a0 : PitchId) (s : State) (hA : ∀ q, A q) (h : Keeps A d s₀ s) : ResultKeeps A d s₀
    (execSnapshotExport a0 s) := by
  unfold execSnapshotExport
  repeat' first
    | (with_reducible first
        | intro _ | assumption | apply State.command_keeps | apply snapBody_keeps | apply Result.live_keeps
        | apply Result.next_keeps)
    | exact hA _

/-! ## Transmit -/

theorem State.emitData_keeps (s : State) (a1 : PitchId) (a2 : NetPort) (a3 : ℕ) (a4 : ℕ) (a5 : ℕ) (a6 : ℕ) (a7 :
    TxFrame) (ha1 : A a1) (h : Keeps A d s₀ s) : Keeps A d s₀ (State.emitData s a1 a2 a3 a4 a5 a6 a7) := by
  unfold State.emitData
  repeat' first
    | (with_reducible first | intro _ | assumption | apply netOut_keeps)
    | (extract_lets +onlyGivenNames lv; clear_value lv) | split

theorem State.seqExhausted_keeps (s : State) (a1 : PitchId) (a2 : ℕ) (ha1 : A a1) (h : Keeps A d s₀ s) : Keeps A d s₀
    (State.seqExhausted s a1 a2) := by
  unfold State.seqExhausted
  repeat' first
    | (with_reducible first | intro _ | assumption | apply State.faultPitch_keeps | apply State.openFault_keeps) | split

theorem State.sendNew_keeps (s : State) (a1 : PitchId) (a2 : NetPort) (a3 : TxFrame) (ha1 : A a1) (h : Keeps A d s₀ s) :
    Keeps A d s₀ (State.sendNew s a1 a2 a3) := by
  unfold State.sendNew
  repeat' first
    | (with_reducible first
        | intro _ | assumption | apply State.emitData_keeps | apply State.advanceTo_keeps | apply State.seqExhausted_keeps
        | apply State.setPitch_keeps)
    | (extract_lets +onlyGivenNames lv; clear_value lv) | split

theorem State.resend_keeps (s : State) (a1 : PitchId) (a2 : NetPort) (a3 : OutFrame) (a4 : ℕ) (a5 : Sparse ℤ) (ha1 : A
    a1) (h : Keeps A d s₀ s) : Keeps A d s₀ (State.resend s a1 a2 a3 a4 a5) := by
  unfold State.resend
  repeat' first
    | (with_reducible first
        | intro _ | assumption | apply State.emitData_keeps | apply State.advanceTo_keeps | apply State.setPitch_keeps)
    | (extract_lets +onlyGivenNames lv; clear_value lv) | split

theorem State.applyLocal_keeps (s : State) (a1 : PitchId) (a2 : TxFrame) (ha1 : A a1) (h : Keeps A d s₀ s) : Keeps A d
    s₀ (State.applyLocal s a1 a2) := by
  unfold State.applyLocal
  repeat' first
    | (with_reducible first
        | intro _ | assumption | apply State.advanceTo_keeps | apply State.setPitch_keeps | apply State.contribFrame_keeps
        | apply State.modPitch_keeps | apply State.tokenFrame_keeps | apply State.returnAcked_keeps
        | apply State.returnFrame_keeps | apply State.osLocal_keeps | apply State.exportAcked_keeps
        | apply State.osWrite_keeps | apply State.exportRefused_keeps | apply State.count_keeps)
    | (extract_lets +onlyGivenNames lv; have hlv : Keeps A d s₀ lv; unfold lv; on_goal 2 => clear_value lv)
    | (extract_lets +onlyGivenNames lv; clear_value lv) | split

theorem State.transmit_keeps (s : State) (a1 : PitchId) (a2 : NetPort) (ha1 : A a1) (h : Keeps A d s₀ s) : Keeps A d s₀
    (State.transmit s a1 a2) := by
  unfold State.transmit
  repeat' first
    | (with_reducible first
        | intro _ | assumption | apply State.resend_keeps | apply State.modPitch_keeps | apply State.setPitch_keeps
        | apply State.applyLocal_keeps | apply State.sendNew_keeps | apply Keeps.foldl)
    | (extract_lets +onlyGivenNames lv; have hlv : Keeps A d s₀ lv; unfold lv; on_goal 2 => clear_value lv)
    | (extract_lets +onlyGivenNames lv; clear_value lv) | split

theorem execFrameTransmit_keeps (a0 : PitchId) (a1 : NetPort) (s : State) (ha0 : A a0) (h : Keeps A d s₀ s) :
    ResultKeeps A d s₀ (execFrameTransmit a0 a1 s) := by
  unfold execFrameTransmit
  repeat' with_reducible first
    | intro _ | assumption | apply State.transmit_keeps | apply Result.live_keeps

theorem State.frameAcked_keeps (s : State) (a1 : PitchId) (a2 : TxFrame) (ha1 : A a1) (h : Keeps A d s₀ s) : Keeps A d
    s₀ (State.frameAcked s a1 a2) := by
  unfold State.frameAcked
  repeat' first
    | (with_reducible first
        | intro _ | assumption | apply State.osAcked_keeps | apply State.modPitch_keeps | apply State.returnAcked_keeps
        | apply State.exportAcked_keeps | apply State.lsProgress_keeps)
    | split

theorem State.retire_keeps (s : State) (a1 : PitchId) (a2 : ℕ) (a3 : List OutFrame) (ha1 : A a1) (h : Keeps A d s₀ s) :
    Keeps A d s₀ (State.retire s a1 a2 a3) := by
  unfold State.retire
  repeat' first
    | (with_reducible first
        | intro _ | assumption | apply State.modPitch_keeps | apply State.frameAcked_keeps | apply Keeps.foldl)

theorem State.ackFrame_keeps (s : State) (a1 : PitchId) (a2 : ℕ) (a3 : Bytes) (ha1 : A a1) (h : Keeps A d s₀ s) : Keeps
    A d s₀ (State.ackFrame s a1 a2 a3) := by
  unfold State.ackFrame
  repeat' first
    | (with_reducible first
        | intro _ | assumption | apply State.retire_keeps | apply State.setPitch_keeps )

theorem State.nackFrame_keeps (s : State) (a1 : PitchId) (a2 : ℕ) (a3 : Bytes) (ha1 : A a1) (h : Keeps A d s₀ s) : Keeps
    A d s₀ (State.nackFrame s a1 a2 a3) := by
  unfold State.nackFrame
  repeat' first
    | (with_reducible first
        | intro _ | assumption | apply State.count_keeps | apply State.modPitch_keeps | apply State.faultPitch_keeps
        | apply State.bucketFault_keeps | apply State.osFail_keeps | apply State.exportRefused_keeps)
    | (extract_lets +onlyGivenNames lv; have hlv : Keeps A d s₀ lv; unfold lv; on_goal 2 => clear_value lv)
    | (extract_lets +onlyGivenNames lv; clear_value lv) | split

theorem State.rtoExpiry_keeps (s : State) (a1 : PitchId) (a2 : ℕ) (a3 : ℕ) (ha1 : A a1) (h : Keeps A d s₀ s) : Keeps A d
    s₀ (State.rtoExpiry s a1 a2 a3) := by
  unfold State.rtoExpiry
  repeat' first
    | (with_reducible first | intro _ | assumption | apply State.setPitch_keeps | apply State.advanceTo_keeps)
    | (extract_lets +onlyGivenNames lv; clear_value lv) | split

theorem execRtoExpiry_keeps (a0 : PitchId) (a1 : W16) (a2 : ℕ) (s : State) (ha0 : A a0) (h : Keeps A d s₀ s) :
    ResultKeeps A d s₀ (execRtoExpiry a0 a1 a2 s) := by
  unfold execRtoExpiry
  repeat' with_reducible first
    | intro _ | assumption | apply State.rtoExpiry_keeps | apply Result.live_keeps

theorem State.ackTimerOp_keeps (s : State) (a1 : PitchId) (a2 : ℕ) (ha1 : A a1) (h : Keeps A d s₀ s) : Keeps A d s₀
    (State.ackTimerOp s a1 a2) := by
  unfold State.ackTimerOp
  repeat' first
    | (with_reducible first | intro _ | assumption | apply State.sendAck_keeps | apply State.advanceTo_keeps)
    | (extract_lets +onlyGivenNames lv; clear_value lv) | split

theorem execAckTimer_keeps (a0 : PitchId) (a1 : W16) (s : State) (ha0 : A a0) (h : Keeps A d s₀ s) : ResultKeeps A d s₀
    (execAckTimer a0 a1 s) := by
  unfold execAckTimer
  repeat' with_reducible first
    | intro _ | assumption | apply State.ackTimerOp_keeps | apply Result.live_keeps

/-! ## Receive -/

theorem State.authFail_keeps (s : State) (a1 : PitchId) (ha1 : A a1) (h : Keeps A d s₀ s) : Keeps A d s₀ (State.authFail
    s a1) := by
  unfold State.authFail
  repeat' first
    | (with_reducible first
        | intro _ | assumption | apply State.count_keeps | apply State.modPitch_keeps | apply State.bucketFault_keeps)
    | (extract_lets +onlyGivenNames lv; have hlv : Keeps A d s₀ lv; unfold lv; on_goal 2 => clear_value lv)
    | split

theorem State.staleFrame_keeps (s : State) (a1 : PitchId) (a2 : Frame) (a3 : NetPort) (ha1 : A a1) (h : Keeps A d s₀ s)
    : Keeps A d s₀ (State.staleFrame s a1 a2 a3) := by
  unfold State.staleFrame
  repeat' first
    | (with_reducible first
        | intro _ | assumption | apply State.count_keeps | apply State.modPitch_keeps | apply State.sendControlAs_keeps)
    | (extract_lets +onlyGivenNames lv; have hlv : Keeps A d s₀ lv; unfold lv; on_goal 2 => clear_value lv)
    | (extract_lets +onlyGivenNames lv; clear_value lv) | split

theorem State.screen_keeps (s : State) (p : PitchId) (f : Frame) (port : NetPort) (hp : A p) (h : Keeps A d s₀ s) :
    Keeps A d s₀ (s.screen p f port).1 := by
  unfold State.screen
  extract_lets x e
  repeat' split
  all_goals first
    | exact h
    | exact State.count_keeps _ _ _ _ hp h
    | exact State.staleFrame_keeps _ _ _ _ hp h
    | exact State.ackDup_keeps _ _ _ _ _ hp (State.count_keeps _ _ _ _ hp h)
    | exact State.authFail_keeps _ _ hp h

theorem State.decoderReplace_keeps (s : State) (a1 : NetPort) (hA : ∀ p, A p) (h : Keeps A d s₀ s) : Keeps A d s₀
    (State.decoderReplace s a1) := by
  unfold State.decoderReplace
  repeat' first
    | (with_reducible first
        | intro _ | assumption | apply State.repairDone_keeps | apply State.takeSpare_keeps
        | apply State.holdRepair_keeps | apply State.repairFault_keeps | apply Keeps.foldl)
    | exact hA _
    | (extract_lets +onlyGivenNames lv; have hlv : Keeps A d s₀ lv; unfold lv; on_goal 2 => clear_value lv)
    | (extract_lets +onlyGivenNames lv; clear_value lv)
    | split
    | with_reducible apply netOut_keeps
    | (fail_if_no_progress with_reducible apply Keeps.ofFields)

theorem State.decoderRepair_keeps (s : State) (a1 : PitchId) (a2 : NetPort) (hA : ∀ p, A p) (h : Keeps A d s₀ s) :
    Keeps A d s₀ (State.decoderRepair s a1 a2) := by
  unfold State.decoderRepair
  repeat' first
    | (with_reducible first
        | intro _ | assumption | apply State.decoderReplace_keeps | apply State.count_keeps
        | apply Keeps.foldl)
    | exact hA _
    | (extract_lets +onlyGivenNames lv; have hlv : Keeps A d s₀ lv; unfold lv; on_goal 2 => clear_value lv)
    | (extract_lets +onlyGivenNames lv; clear_value lv)
    | split
    | with_reducible apply netOut_keeps
    | (fail_if_no_progress with_reducible apply Keeps.ofFields)

theorem State.acceptFrame_keeps (s : State) (a1 : PitchId) (a2 : Frame) (a3 : NetPort) (a4 : State → State) (ha4 : ∀ (x
    : State), Keeps A d s₀ x → Keeps A d s₀ (a4 x)) (ha1 : A a1) (h : Keeps A d s₀ s) : Keeps A d s₀ (State.acceptFrame s a1
    a2 a3 a4) := by
  unfold State.acceptFrame
  repeat' first
    | (with_reducible first
        | intro _ | assumption | apply ha4 | apply State.modPitch_keeps | apply State.ackNote_keeps)
    | (extract_lets +onlyGivenNames lv; have hlv : Keeps A d s₀ lv; unfold lv; on_goal 2 => clear_value lv)
    | split

theorem State.dataFrame_keeps (s : State) (a1 : PitchId) (a2 : Frame) (a3 : Rx) (a4 : Bytes) (a5 : State → State) (ha5 :
    ∀ (x : State), Keeps A d s₀ x → Keeps A d s₀ (a5 x)) (hA : ∀ q, A q) (h : Keeps A d s₀ s) : Keeps A d s₀
    (State.dataFrame s a1 a2 a3 a4 a5) := by
  unfold State.dataFrame
  repeat' first
    | (with_reducible first
        | intro _ | assumption | apply ha5 | apply State.ackDup_keeps | apply State.count_keeps
        | apply State.sendNack_keeps | apply State.decoderRepair_keeps | apply State.acceptFrame_keeps)
    | exact hA _ | (extract_lets +onlyGivenNames lv; have hlv : Keeps A d s₀ lv; unfold lv; on_goal 2 => clear_value lv)
    | (extract_lets +onlyGivenNames lv; clear_value lv) | split

theorem State.receive_keeps (s : State) (rx : Rx) (mine : FrameKind → Bool) (content : Bytes → Bool)
    (act : PitchId → Frame → Bytes → State → State) (hact : ∀ p f b x, Keeps A d s₀ x → Keeps A d s₀ (act p f b x))
    (hA : ∀ q, A q) (h : Keeps A d s₀ s) : Keeps A d s₀ (s.receive rx mine content act) := by
  unfold State.receive
  split
  · rename_i p f hpf
    have hp : A p := hA p
    split
    · exact h
    · have hs := State.screen_keeps s p f rx.port hp h
      split
      · rename_i t hst
        rw [hst] at hs; exact hs
      · rename_i t b hst
        rw [hst] at hs
        split
        · exact h
        · split
          · exact State.dataFrame_keeps _ _ _ _ _ _ (fun x hx => hact _ _ _ _ hx) hA hs
          · exact hact _ _ _ _ hs
  · exact h

theorem State.receiveKind_keeps (s : State) (rx : Rx) (k : FrameKind) (act : PitchId → Frame → Bytes → State → State)
    (hact : ∀ p f b x, Keeps A d s₀ x → Keeps A d s₀ (act p f b x)) (hA : ∀ q, A q) (h : Keeps A d s₀ s) :
    Keeps A d s₀ (s.receiveKind rx k act) := State.receive_keeps _ _ _ _ _ hact hA h

theorem execAgreeUp_keeps (a0 : Rx) (s : State) (hA : ∀ q, A q) (h : Keeps A d s₀ s) : ResultKeeps A d s₀ (execAgreeUp
    a0 s) := by
  unfold execAgreeUp
  repeat' first
    | (with_reducible first
        | intro _ | assumption | apply State.receiveKind_keeps | apply State.agreeFragment_keeps | apply Result.live_keeps
        | apply Result.next_keeps)
    | exact hA _

theorem execAgreeDown_keeps (a0 : Rx) (s : State) (hA : ∀ q, A q) (h : Keeps A d s₀ s) : ResultKeeps A d s₀
    (execAgreeDown a0 s) := by
  unfold execAgreeDown
  repeat' first
    | (with_reducible first
        | intro _ | assumption | apply State.receiveKind_keeps | apply State.agreeFragment_keeps | apply Result.live_keeps
        | apply Result.next_keeps)
    | exact hA _

theorem execContribStream_keeps (a0 : Rx) (s : State) (hA : ∀ q, A q) (h : Keeps A d s₀ s) : ResultKeeps A d s₀
    (execContribStream a0 s) := by
  unfold execContribStream
  repeat' first
    | (with_reducible first
        | intro _ | assumption | apply State.receiveKind_keeps | apply State.contribFrame_keeps | apply Result.live_keeps
        | apply Result.next_keeps)
    | exact hA _

theorem State.retryFrame_keeps (s : State) (a1 : PitchId) (a2 : ℕ) (a3 : Bytes) (ha1 : A a1) (h : Keeps A d s₀ s) :
    Keeps A d s₀ (State.retryFrame s a1 a2 a3) := by
  unfold State.retryFrame
  repeat' first
    | (with_reducible first | intro _ | assumption | apply State.modPitch_keeps | apply State.collStale_keeps)
    | (extract_lets +onlyGivenNames lv; clear_value lv) | split

theorem execRetry_keeps (a0 : Rx) (s : State) (hA : ∀ q, A q) (h : Keeps A d s₀ s) : ResultKeeps A d s₀ (execRetry a0 s) := by
  unfold execRetry
  repeat' first
    | (with_reducible first
        | intro _ | assumption | apply State.receiveKind_keeps | apply State.retryFrame_keeps | apply Result.live_keeps
        | apply Result.next_keeps)
    | exact hA _

theorem execBcastStream_keeps (a0 : Rx) (s : State) (hA : ∀ q, A q) (h : Keeps A d s₀ s) : ResultKeeps A d s₀
    (execBcastStream a0 s) := by
  unfold execBcastStream
  repeat' first
    | (with_reducible first
        | intro _ | assumption | apply State.receiveKind_keeps | apply State.bcastFrame_keeps | apply Result.live_keeps
        | apply Result.next_keeps)
    | exact hA _

theorem State.factorFrameIn_keeps (s : State) (a1 : PitchId) (a2 : ℕ) (a3 : Bytes) (ha1 : A a1) (h : Keeps A d s₀ s) :
    Keeps A d s₀ (State.factorFrameIn s a1 a2 a3) := by
  unfold State.factorFrameIn
  repeat' with_reducible first | intro _ | assumption | apply State.factorArrive_keeps

theorem execFactorSum_keeps (a0 : Rx) (s : State) (hA : ∀ q, A q) (h : Keeps A d s₀ s) : ResultKeeps A d s₀
    (execFactorSum a0 s) := by
  unfold execFactorSum
  repeat' first
    | (with_reducible first
        | intro _ | assumption | apply State.receiveKind_keeps | apply State.factorFrameIn_keeps | apply Result.live_keeps
        | apply Result.next_keeps)
    | exact hA _

theorem execNormUp_keeps (a0 : Rx) (s : State) (hA : ∀ q, A q) (h : Keeps A d s₀ s) : ResultKeeps A d s₀ (execNormUp a0 s) := by
  unfold execNormUp
  repeat' first
    | (with_reducible first
        | intro _ | assumption | apply State.receiveKind_keeps | apply State.normUpFrame_keeps | apply Result.live_keeps
        | apply Result.next_keeps)
    | exact hA _ | split

theorem execNormDown_keeps (a0 : Rx) (s : State) (hA : ∀ q, A q) (h : Keeps A d s₀ s) : ResultKeeps A d s₀ (execNormDown
    a0 s) := by
  unfold execNormDown
  repeat' first
    | (with_reducible first
        | intro _ | assumption | apply State.receiveKind_keeps | apply State.normDownFrame_keeps | apply Result.live_keeps
        | apply Result.next_keeps)
    | exact hA _

theorem execScanUp_keeps (a0 : Rx) (s : State) (hA : ∀ q, A q) (h : Keeps A d s₀ s) : ResultKeeps A d s₀ (execScanUp a0 s) := by
  unfold execScanUp
  repeat' first
    | (with_reducible first
        | intro _ | assumption | apply State.receiveKind_keeps | apply State.scanFragment_keeps | apply Result.live_keeps
        | apply Result.next_keeps)
    | exact hA _

theorem execScanDown_keeps (a0 : Rx) (s : State) (hA : ∀ q, A q) (h : Keeps A d s₀ s) : ResultKeeps A d s₀ (execScanDown
    a0 s) := by
  unfold execScanDown
  repeat' first
    | (with_reducible first
        | intro _ | assumption | apply State.receiveKind_keeps | apply State.scanFragment_keeps | apply Result.live_keeps
        | apply Result.next_keeps)
    | exact hA _

theorem execMoeToken_keeps (a0 : Rx) (s : State) (hA : ∀ q, A q) (h : Keeps A d s₀ s) : ResultKeeps A d s₀ (execMoeToken
    a0 s) := by
  unfold execMoeToken
  repeat' first
    | (with_reducible first
        | intro _ | assumption | apply State.receiveKind_keeps | apply State.tokenFrame_keeps | apply Result.live_keeps
        | apply Result.next_keeps)
    | exact hA _

theorem execMoeReturn_keeps (a0 : Rx) (s : State) (hA : ∀ q, A q) (h : Keeps A d s₀ s) : ResultKeeps A d s₀
    (execMoeReturn a0 s) := by
  unfold execMoeReturn
  repeat' first
    | (with_reducible first
        | intro _ | assumption | apply State.receiveKind_keeps | apply State.returnFrame_keeps | apply Result.live_keeps
        | apply Result.next_keeps)
    | exact hA _

theorem State.osFrame_keeps (s : State) (a1 : PitchId) (a2 : Frame) (a3 : NetPort) (a4 : Bytes) (ha1 : A a1) (h : Keeps
    A d s₀ s) : Keeps A d s₀ (State.osFrame s a1 a2 a3 a4) := by
  unfold State.osFrame
  repeat' first
    | (with_reducible first
        | intro _ | assumption | apply State.osServe_keeps | apply State.sendNack_keeps | apply State.count_keeps)
    | split

theorem State.osWriteFrame_keeps (s : State) (a1 : PitchId) (a2 : Frame) (a3 : NetPort) (a4 : Bytes) (ha1 : A a1) (h :
    Keeps A d s₀ s) : Keeps A d s₀ (State.osWriteFrame s a1 a2 a3 a4) := by
  unfold State.osWriteFrame
  repeat' first
    | (with_reducible first
        | intro _ | assumption | apply State.osFrame_keeps | apply State.lsRecordFrame_keeps
        | apply State.lsDiffFrame_keeps)
    | (extract_lets +onlyGivenNames lv; have hlv : Keeps A d s₀ lv; unfold lv; on_goal 2 => clear_value lv)
    | (extract_lets +onlyGivenNames lv; clear_value lv) | split

theorem State.oneSidedIn_keeps (s : State) (rx : Rx) (k : FrameKind) (hA : ∀ q, A q) (h : Keeps A d s₀ s) :
    Keeps A d s₀ (s.oneSidedIn rx k) := State.receiveKind_keeps _ _ _ _ (fun _ _ _ _ hx => State.osFrame_keeps _ _ _ _ _ (hA
        _) hx) hA h

theorem execOneSidedWrite_keeps (a0 : Rx) (s : State) (hA : ∀ q, A q) (h : Keeps A d s₀ s) : ResultKeeps A d s₀
    (execOneSidedWrite a0 s) := by
  unfold execOneSidedWrite
  repeat' first
    | (with_reducible first
        | intro _ | assumption | apply State.receive_keeps | apply State.osWriteFrame_keeps | apply Result.live_keeps
        | apply Result.next_keeps)
    | exact hA _

theorem execOneSidedAddFx32_keeps (a0 : Rx) (s : State) (hA : ∀ q, A q) (h : Keeps A d s₀ s) : ResultKeeps A d s₀
    (execOneSidedAddFx32 a0 s) := by
  unfold execOneSidedAddFx32
  repeat' first
    | (with_reducible first
        | intro _ | assumption | apply State.oneSidedIn_keeps | apply Result.live_keeps | apply Result.next_keeps)
    | exact hA _

theorem execOneSidedAddFx64_keeps (a0 : Rx) (s : State) (hA : ∀ q, A q) (h : Keeps A d s₀ s) : ResultKeeps A d s₀
    (execOneSidedAddFx64 a0 s) := by
  unfold execOneSidedAddFx64
  repeat' first
    | (with_reducible first
        | intro _ | assumption | apply State.oneSidedIn_keeps | apply Result.live_keeps | apply Result.next_keeps)
    | exact hA _

theorem execOneSidedAddErg640_keeps (a0 : Rx) (s : State) (hA : ∀ q, A q) (h : Keeps A d s₀ s) : ResultKeeps A d s₀
    (execOneSidedAddErg640 a0 s) := by
  unfold execOneSidedAddErg640
  repeat' first
    | (with_reducible first
        | intro _ | assumption | apply State.oneSidedIn_keeps | apply Result.live_keeps | apply Result.next_keeps)
    | exact hA _

theorem execReadReq_keeps (a0 : Rx) (s : State) (hA : ∀ q, A q) (h : Keeps A d s₀ s) : ResultKeeps A d s₀ (execReadReq
    a0 s) := by
  unfold execReadReq
  repeat' first
    | (with_reducible first
        | intro _ | assumption | apply State.oneSidedIn_keeps | apply Result.live_keeps | apply Result.next_keeps)
    | exact hA _

theorem execCas64_keeps (a0 : Rx) (s : State) (hA : ∀ q, A q) (h : Keeps A d s₀ s) : ResultKeeps A d s₀ (execCas64 a0 s) := by
  unfold execCas64
  repeat' first
    | (with_reducible first
        | intro _ | assumption | apply State.oneSidedIn_keeps | apply Result.live_keeps | apply Result.next_keeps)
    | exact hA _

theorem execReadResp_keeps (a0 : Rx) (s : State) (hA : ∀ q, A q) (h : Keeps A d s₀ s) : ResultKeeps A d s₀ (execReadResp
    a0 s) := by
  unfold execReadResp
  repeat' first
    | (with_reducible first
        | intro _ | assumption | apply State.receiveKind_keeps | apply State.osResponse_keeps | apply Result.live_keeps
        | apply Result.next_keeps)
    | exact hA _

theorem execLockstepRecord_keeps (a0 : Rx) (s : State) (hA : ∀ q, A q) (h : Keeps A d s₀ s) : ResultKeeps A d s₀
    (execLockstepRecord a0 s) := by
  unfold execLockstepRecord
  repeat' first
    | (with_reducible first
        | intro _ | assumption | apply State.receive_keeps | apply State.osWriteFrame_keeps | apply Result.live_keeps
        | apply Result.next_keeps)
    | exact hA _

theorem State.barrierArrive_keeps (s : State) (a1 : PitchId) (a2 : ℕ) (a3 : Bytes) (ha1 : A a1) (h : Keeps A d s₀ s) :
    Keeps A d s₀ (State.barrierArrive s a1 a2 a3) := by
  unfold State.barrierArrive
  repeat' first
    | (with_reducible first
        | intro _ | assumption | apply State.barrierProgress_keeps | apply State.setPitch_keeps
        | apply State.collStale_keeps)
    | (extract_lets +onlyGivenNames lv; clear_value lv) | split

theorem State.barrierReleased_keeps (s : State) (a1 : PitchId) (a2 : ℕ) (a3 : Bytes) (ha1 : A a1) (h : Keeps A d s₀ s) :
    Keeps A d s₀ (State.barrierReleased s a1 a2 a3) := by
  unfold State.barrierReleased
  repeat' first
    | (with_reducible first
        | intro _ | assumption | apply State.setPitch_keeps | apply State.collStale_keeps | apply Keeps.foldl)
    | (extract_lets +onlyGivenNames lv; clear_value lv) | split

theorem execBarrierArrival_keeps (a0 : Rx) (s : State) (hA : ∀ q, A q) (h : Keeps A d s₀ s) : ResultKeeps A d s₀
    (execBarrierArrival a0 s) := by
  unfold execBarrierArrival
  repeat' first
    | (with_reducible first
        | intro _ | assumption | apply State.receive_keeps | apply State.barrierArrive_keeps | apply Result.live_keeps
        | apply Result.next_keeps)
    | exact hA _

theorem execBarrierRelease_keeps (a0 : Rx) (s : State) (hA : ∀ q, A q) (h : Keeps A d s₀ s) : ResultKeeps A d s₀
    (execBarrierRelease a0 s) := by
  unfold execBarrierRelease
  repeat' first
    | (with_reducible first
        | intro _ | assumption | apply State.receive_keeps | apply State.barrierReleased_keeps | apply Result.live_keeps
        | apply Result.next_keeps)
    | exact hA _

theorem execAck_keeps (a0 : Rx) (s : State) (hA : ∀ q, A q) (h : Keeps A d s₀ s) : ResultKeeps A d s₀ (execAck a0 s) := by
  unfold execAck
  repeat' first
    | (with_reducible first
        | intro _ | assumption | apply State.receiveKind_keeps | apply State.ackFrame_keeps | apply Result.live_keeps
        | apply Result.next_keeps)
    | exact hA _

theorem execNack_keeps (a0 : Rx) (s : State) (hA : ∀ q, A q) (h : Keeps A d s₀ s) : ResultKeeps A d s₀ (execNack a0 s) := by
  unfold execNack
  repeat' first
    | (with_reducible first
        | intro _ | assumption | apply State.receiveKind_keeps | apply State.nackFrame_keeps | apply Result.live_keeps
        | apply Result.next_keeps)
    | exact hA _

theorem execReservedOpcodeFrame_keeps (a0 : Rx) (s : State) (hA : ∀ q, A q) (h : Keeps A d s₀ s) : ResultKeeps A d s₀
    (execReservedOpcodeFrame a0 s) := by
  unfold execReservedOpcodeFrame
  repeat' first
    | (with_reducible first
        | intro _ | assumption | apply State.receiveKind_keeps | apply State.sendNack_keeps | apply State.count_keeps
        | apply Result.live_keeps | apply Result.next_keeps)
    | exact hA _ | split

theorem execReservedTargetFrame_keeps (a0 : Rx) (s : State) (hA : ∀ q, A q) (h : Keeps A d s₀ s) : ResultKeeps A d s₀
    (execReservedTargetFrame a0 s) := by
  unfold execReservedTargetFrame
  repeat' first
    | (with_reducible first
        | intro _ | assumption | apply State.receiveKind_keeps | apply State.sendNack_keeps | apply Result.live_keeps
        | apply Result.next_keeps)
    | exact hA _

theorem State.exceptFrame_keeps (s : State) (a1 : PitchId) (a2 : ℕ) (a3 : Rx) (ha1 : A a1) (h : Keeps A d s₀ s) : Keeps
    A d s₀ (State.exceptFrame s a1 a2 a3) := by
  unfold State.exceptFrame
  repeat' first
    | (with_reducible first
        | intro _ | assumption | apply State.count_keeps | apply State.putEntry_keeps | apply netOut_keeps)
    | (extract_lets +onlyGivenNames lv; have hlv : Keeps A d s₀ lv; unfold lv; on_goal 2 => clear_value lv)
    | (extract_lets +onlyGivenNames lv; clear_value lv) | split | (fail_if_no_progress with_reducible apply Keeps.ofFields)

theorem State.lengthDrop_keeps (s : State) (a1 : PitchId) (ha1 : A a1) (h : Keeps A d s₀ s) : Keeps A d s₀
    (State.lengthDrop s a1) := by
  unfold State.lengthDrop
  repeat' first
    | (with_reducible first
        | intro _ | assumption | apply State.count_keeps | apply State.modPitch_keeps | apply State.bucketFault_keeps)
    | (extract_lets +onlyGivenNames lv; have hlv : Keeps A d s₀ lv; unfold lv; on_goal 2 => clear_value lv)
    | split

theorem execNonCxtFrame_keeps (a0 : Rx) (s : State) (hA : ∀ q, A q) (h : Keeps A d s₀ s) : ResultKeeps A d s₀
    (execNonCxtFrame a0 s) := by
  unfold execNonCxtFrame
  repeat' first
    | (with_reducible first
        | intro _ | assumption | apply State.exceptFrame_keeps | apply State.lengthDrop_keeps | apply Result.live_keeps
        | apply Result.next_keeps | apply netOut_keeps)
    | exact hA _
    | (extract_lets +onlyGivenNames lv; clear_value lv) | split | (fail_if_no_progress with_reducible apply Keeps.ofFields)

theorem State.modPort_keeps (s : State) (a1 : NetPort) (a2 : NetPortSt → NetPortSt) (h : Keeps A d s₀ s) : Keeps A d s₀
    (State.modPort s a1 a2) := by
  unfold State.modPort
  repeat' first
    | (with_reducible first | intro _ | assumption | apply netOut_keeps)
    | (fail_if_no_progress with_reducible apply Keeps.ofFields)

theorem execMacControlFrame_keeps (a0 : Rx) (s : State) (h : Keeps A d s₀ s) : ResultKeeps A d s₀ (execMacControlFrame
    a0 s) := by
  unfold execMacControlFrame
  repeat' first
    | (with_reducible first
        | intro _ | assumption | apply State.modPort_keeps | apply Result.live_keeps | apply Result.next_keeps)
    | split

theorem execFcsFailedFrame_keeps (a0 : Rx) (s : State) (h : Keeps A d s₀ s) : ResultKeeps A d s₀ (execFcsFailedFrame a0 s) := by
  unfold execFcsFailedFrame
  repeat' first
    | (with_reducible first
        | intro _ | assumption | apply State.modPort_keeps | apply Result.live_keeps | apply Result.next_keeps)
    | split

/-! ## Membership -/

theorem State.sendBeat_keeps (s : State) (a1 : PitchId) (a2 : ℕ) (a3 : Beat) (ha1 : A a1) (h : Keeps A d s₀ s) : Keeps A
    d s₀ (State.sendBeat s a1 a2 a3) := by
  unfold State.sendBeat
  repeat' first
    | (with_reducible first | intro _ | assumption | apply State.sendControl_keeps)
    | (extract_lets +onlyGivenNames lv; clear_value lv) | split

theorem State.sendBeats_keeps (s : State) (a1 : PitchId) (a2 : List ℕ) (a3 : Beat) (ha1 : A a1) (h : Keeps A d s₀ s) :
    Keeps A d s₀ (State.sendBeats s a1 a2 a3) := by
  unfold State.sendBeats
  repeat' with_reducible first | intro _ | assumption | apply State.sendBeat_keeps | apply Keeps.foldl

theorem State.sendRecord_keeps (s : State) (a1 : PitchId) (a2 : ℕ) (a3 : Bool) (ha1 : A a1) (h : Keeps A d s₀ s) : Keeps
    A d s₀ (State.sendRecord s a1 a2 a3) := by
  unfold State.sendRecord
  repeat' first
    | (with_reducible first | intro _ | assumption | apply State.sendBeat_keeps)

theorem State.sendQuery_keeps (s : State) (a1 : PitchId) (a2 : ℕ) (ha1 : A a1) (h : Keeps A d s₀ s) : Keeps A d s₀
    (State.sendQuery s a1 a2) := by
  unfold State.sendQuery
  repeat' first
    | (with_reducible first | intro _ | assumption | apply State.sendBeat_keeps)

theorem State.cutForDeath_keeps (s : State) (a1 : PitchId) (ha1 : A a1) (h : Keeps A d s₀ s) : Keeps A d s₀
    (State.cutForDeath s a1) := by
  unfold State.cutForDeath
  repeat' first
    | (with_reducible first
        | intro _ | assumption | apply State.modPitch_keeps | apply State.cutStep_keeps
        | apply State.lsCut_keeps | apply Keeps.foldl)
    | (extract_lets +onlyGivenNames lv; have hlv : Keeps A d s₀ lv; unfold lv; on_goal 2 => clear_value lv)
    | (extract_lets +onlyGivenNames lv; clear_value lv)
    | split
    | with_reducible apply netOut_keeps
    | (fail_if_no_progress with_reducible apply Keeps.ofFields)

theorem State.deadNotice_keeps (s : State) (a1 : PitchId) (a2 : ℕ) (a3 : ℕ) (ha1 : A a1) (h : Keeps A d s₀ s) : Keeps A
    d s₀ (State.deadNotice s a1 a2 a3) := by
  unfold State.deadNotice
  repeat' with_reducible first | intro _ | assumption | apply State.notice_keeps

theorem State.memberDeath_keeps (s : State) (a1 : PitchId) (a2 : ℕ) (ha1 : A a1) (h : Keeps A d s₀ s) : Keeps A d s₀
    (State.memberDeath s a1 a2) := by
  unfold State.memberDeath
  repeat' first
    | (with_reducible first | intro _ | assumption | apply State.deadNotice_keeps | apply State.modPitch_keeps)

theorem State.rollback_keeps (s : State) (a1 : PitchId) (a2 : ℕ) (a3 : W64) (ha1 : A a1) (h : Keeps A d s₀ s) : Keeps A
    d s₀ (State.rollback s a1 a2 a3) := by
  unfold State.rollback
  repeat' first
    | (with_reducible first
        | intro _ | assumption | apply State.cutStep_keeps | apply State.clearCollective_keeps
        | apply State.faultPitch_keeps | apply State.restoreCkpt_keeps | apply State.modPitch_keeps
        | apply State.retainGuard_keeps | apply State.retain_keeps | apply State.deadNotice_keeps
        | apply Keeps.foldl)
    | (extract_lets +onlyGivenNames lv; have hlv : Keeps A d s₀ lv; unfold lv; on_goal 2 => clear_value lv)
    | (extract_lets +onlyGivenNames lv; clear_value lv)
    | split
    | with_reducible apply netOut_keeps
    | (fail_if_no_progress with_reducible apply Keeps.ofFields)

theorem State.swapRecord_keeps (s : State) (a1 : PitchId) (a2 : MemberRec) (ha1 : A a1) (h : Keeps A d s₀ s) : Keeps A
    d s₀ (State.swapRecord s a1 a2) := by
  unfold State.swapRecord
  repeat' first
    | (with_reducible first
        | intro _ | assumption | apply State.retain_keeps | apply State.setPitch_keeps
        | apply State.modPitch_keeps | apply State.cutForDeath_keeps | apply State.memberDeath_keeps
        | apply Keeps.foldl)
    | (extract_lets +onlyGivenNames lv; have hlv : Keeps A d s₀ lv; unfold lv; on_goal 2 => clear_value lv)
    | (extract_lets +onlyGivenNames lv; clear_value lv)
    | split
    | with_reducible apply netOut_keeps
    | (fail_if_no_progress with_reducible apply Keeps.ofFields)

theorem State.followTakeover_keeps (s : State) (a1 : PitchId) (a2 : MemberRec) (a3 : W64) (ha1 : A a1) (h : Keeps A d
    s₀ s) : Keeps A d s₀ (State.followTakeover s a1 a2 a3) := by
  unfold State.followTakeover
  repeat' first
    | (with_reducible first
        | intro _ | assumption | apply State.rollback_keeps | apply Keeps.foldl)
    | (extract_lets +onlyGivenNames lv; have hlv : Keeps A d s₀ lv; unfold lv; on_goal 2 => clear_value lv)
    | (extract_lets +onlyGivenNames lv; clear_value lv)
    | split
    | with_reducible apply netOut_keeps
    | (fail_if_no_progress with_reducible apply Keeps.ofFields)

theorem State.applyRecord_keeps (s : State) (a1 : PitchId) (a2 : MemberRec) (a3 : W64) (ha1 : A a1) (h : Keeps A d s₀
    s) : Keeps A d s₀ (State.applyRecord s a1 a2 a3) := by
  unfold State.applyRecord
  repeat' first
    | (with_reducible first
        | intro _ | assumption | apply State.followTakeover_keeps | apply State.swapRecord_keeps
        | apply Keeps.foldl)
    | (extract_lets +onlyGivenNames lv; have hlv : Keeps A d s₀ lv; unfold lv; on_goal 2 => clear_value lv)
    | (extract_lets +onlyGivenNames lv; clear_value lv)
    | split
    | with_reducible apply netOut_keeps
    | (fail_if_no_progress with_reducible apply Keeps.ofFields)

theorem State.holdChange_keeps (s : State) (a1 : PitchId) (a2 : W64) (a3 : W64) (ha1 : A a1) (h : Keeps A d s₀ s) :
    Keeps A d s₀ (State.holdChange s a1 a2 a3) := by
  unfold State.holdChange
  repeat' first
    | (with_reducible first
        | intro _ | assumption | apply State.retain_keeps | apply State.modPitch_keeps | apply Keeps.foldl)
    | (extract_lets +onlyGivenNames lv; have hlv : Keeps A d s₀ lv; unfold lv; on_goal 2 => clear_value lv)
    | (extract_lets +onlyGivenNames lv; clear_value lv)
    | split
    | with_reducible apply netOut_keeps
    | (fail_if_no_progress with_reducible apply Keeps.ofFields)

theorem State.keeperCommit_keeps (s : State) (a1 : PitchId) (ha1 : A a1) (h : Keeps A d s₀ s) : Keeps A d s₀
    (State.keeperCommit s a1) := by
  unfold State.keeperCommit
  dsimp only
  repeat' with_reducible first
    | assumption | apply State.followTakeover_keeps | apply State.sendBeats_keeps | apply State.holdChange_keeps
    | apply State.swapRecord_keeps | split

theorem State.keeperPropose_keeps (s : State) (p : PitchId) (o : Option ℕ) (c w a : W64) (sp : Option ℕ) (hp : A p)
    (h : Keeps A d s₀ s) : Keeps A d s₀ (State.keeperPropose s p o c w a sp) := by
  unfold State.keeperPropose
  extract_lets x m answer own q s1 asked
  have hans : ∀ y, Keeps A d s₀ y → Keeps A d s₀ (answer y) := by
    intro y hy
    unfold answer
    split
    · exact State.sendRecord_keeps _ _ _ _ hp hy
    · exact hy
  split
  · exact hans _ h
  · split
    · exact h
    · split
      · exact hans _ h
      · split
        · exact hans _ (State.count_keeps _ _ _ _ hp h)
        · exact State.keeperCommit_keeps _ _ hp (State.sendBeats_keeps _ _ _ _ hp (State.setPitch_keeps _ _ _ hp h))

theorem State.countProposal_keeps (s : State) (a1 : PitchId) (ha1 : A a1) (h : Keeps A d s₀ s) : Keeps A d s₀
    (State.countProposal s a1) := by
  unfold State.countProposal
  repeat' first | (with_reducible first | intro _ | assumption | apply State.count_keeps) | split

theorem State.proposeChange_keeps (s : State) (a1 : PitchId) (a2 : ℕ) (a3 : ℕ) (ha1 : A a1) (h : Keeps A d s₀ s) : Keeps
    A d s₀ (State.proposeChange s a1 a2 a3) := by
  unfold State.proposeChange
  repeat' first
    | (with_reducible first
        | intro _ | assumption | apply State.keeperPropose_keeps | apply State.countProposal_keeps
        | apply State.sendBeat_keeps | apply State.count_keeps)
    | (extract_lets +onlyGivenNames lv; clear_value lv) | split

theorem State.pursue_keeps (s : State) (a1 : PitchId) (ha1 : A a1) (h : Keeps A d s₀ s) : Keeps A d s₀ (State.pursue s
    a1) := by
  unfold State.pursue
  repeat' first
    | (with_reducible first
        | intro _ | assumption | apply State.proposeChange_keeps | apply State.setPitch_keeps
        | apply Keeps.foldl)
    | (extract_lets +onlyGivenNames lv; have hlv : Keeps A d s₀ lv; unfold lv; on_goal 2 => clear_value lv)
    | (extract_lets +onlyGivenNames lv; clear_value lv)
    | split
    | with_reducible apply netOut_keeps
    | (fail_if_no_progress with_reducible apply Keeps.ofFields)

theorem State.want_keeps (s : State) (a1 : PitchId) (a2 : ℕ) (ha1 : A a1) (h : Keeps A d s₀ s) : Keeps A d s₀
    (State.want s a1 a2) := by
  unfold State.want
  repeat' first
    | (with_reducible first
        | intro _ | assumption | apply State.pursue_keeps | apply State.modPitch_keeps | apply Keeps.foldl)
    | (extract_lets +onlyGivenNames lv; have hlv : Keeps A d s₀ lv; unfold lv; on_goal 2 => clear_value lv)
    | (extract_lets +onlyGivenNames lv; clear_value lv)
    | split
    | with_reducible apply netOut_keeps
    | (fail_if_no_progress with_reducible apply Keeps.ofFields)

theorem State.takeChange_keeps (s : State) (a1 : PitchId) (a2 : W64) (a3 : W64) (ha1 : A a1) (h : Keeps A d s₀ s) :
    Keeps A d s₀ (State.takeChange s a1 a2 a3) := by
  unfold State.takeChange
  repeat' first
    | (with_reducible first
        | intro _ | assumption | apply State.setPitch_keeps | apply State.holdChange_keeps
        | apply State.want_keeps | apply State.cutForDeath_keeps | apply Keeps.foldl)
    | (extract_lets +onlyGivenNames lv; have hlv : Keeps A d s₀ lv; unfold lv; on_goal 2 => clear_value lv)
    | (extract_lets +onlyGivenNames lv; clear_value lv)
    | split
    | with_reducible apply netOut_keeps
    | (fail_if_no_progress with_reducible apply Keeps.ofFields)

theorem State.proposeIn_keeps (s : State) (a1 : PitchId) (a2 : ℕ) (a3 : Bytes) (ha1 : A a1) (h : Keeps A d s₀ s) : Keeps
    A d s₀ (State.proposeIn s a1 a2 a3) := by
  unfold State.proposeIn
  repeat' first
    | (with_reducible first
        | intro _ | assumption | apply State.keeperPropose_keeps | apply State.sendRecord_keeps
        | apply State.setPitch_keeps | apply State.sendBeat_keeps)
    | (extract_lets +onlyGivenNames lv; have hlv : Keeps A d s₀ lv; unfold lv; on_goal 2 => clear_value lv)
    | (extract_lets +onlyGivenNames lv; clear_value lv) | split

end Sys2Proof.Machine
end

