-- ==== Sys2Proof/Laws/Keeps5.lean ====
section
/-! SUPPORT. What the operations of Membership, Complete, Lease, Ports, Health, Boot keep (Laws/Keeps.lean): one lemma for each. -/

namespace Sys2Proof.Machine

variable {A : PitchId → Prop} {d : Prop} {s₀ : State}

/-! ## Membership -/

theorem State.voteIn_keeps (s : State) (a1 : PitchId) (a2 : ℕ) (a3 : Bytes) (ha1 : A a1) (h : Keeps A d s₀ s) : Keeps A
    d s₀ (State.voteIn s a1 a2 a3) := by
  unfold State.voteIn
  repeat' first
    | (with_reducible first | intro _ | assumption | apply State.keeperCommit_keeps | apply State.setPitch_keeps)
    | (extract_lets +onlyGivenNames lv; clear_value lv) | split

theorem State.commitIn_keeps (s : State) (a1 : PitchId) (a2 : ℕ) (a3 : Bytes) (ha1 : A a1) (h : Keeps A d s₀ s) : Keeps
    A d s₀ (State.commitIn s a1 a2 a3) := by
  unfold State.commitIn
  repeat' first
    | (with_reducible first
        | intro _ | assumption | apply State.takeChange_keeps | apply State.sendQuery_keeps
        | apply State.pursue_keeps | apply State.applyRecord_keeps | apply Keeps.foldl)
    | (extract_lets +onlyGivenNames lv; have hlv : Keeps A d s₀ lv; unfold lv; on_goal 2 => clear_value lv)
    | (extract_lets +onlyGivenNames lv; clear_value lv)
    | split
    | with_reducible apply netOut_keeps
    | (fail_if_no_progress with_reducible apply Keeps.ofFields)

theorem State.joinIn_keeps (s : State) (a1 : PitchId) (a2 : ℕ) (a3 : Bytes) (ha1 : A a1) (h : Keeps A d s₀ s) : Keeps A
    d s₀ (State.joinIn s a1 a2 a3) := by
  unfold State.joinIn
  repeat' first
    | (with_reducible first
        | intro _ | assumption | apply State.keeperPropose_keeps | apply State.countProposal_keeps
        | apply State.sendRecord_keeps)
    | (extract_lets +onlyGivenNames lv; clear_value lv) | split

theorem State.queryIn_keeps (s : State) (a1 : PitchId) (a2 : ℕ) (a3 : ℕ) (ha1 : A a1) (h : Keeps A d s₀ s) : Keeps A d
    s₀ (State.queryIn s a1 a2 a3) := by
  unfold State.queryIn
  repeat' with_reducible first | intro _ | assumption | apply State.sendRecord_keeps

theorem State.recordIn_keeps (s : State) (a1 : PitchId) (a2 : Bytes) (ha1 : A a1) (h : Keeps A d s₀ s) : Keeps A d s₀
    (State.recordIn s a1 a2) := by
  unfold State.recordIn
  repeat' first
    | (with_reducible first
        | intro _ | assumption | apply State.setPitch_keeps | apply State.fencePitch_keeps
        | apply State.applyRecord_keeps | apply State.takeChange_keeps | apply State.pursue_keeps
        | apply State.modPitch_keeps | apply Keeps.foldl)
    | (extract_lets +onlyGivenNames lv; have hlv : Keeps A d s₀ lv; unfold lv; on_goal 2 => clear_value lv)
    | (extract_lets +onlyGivenNames lv; clear_value lv)
    | split
    | with_reducible apply netOut_keeps
    | (fail_if_no_progress with_reducible apply Keeps.ofFields)

theorem State.beatIn_keeps (s : State) (a1 : PitchId) (a2 : Frame) (a3 : Bytes) (ha1 : A a1) (h : Keeps A d s₀ s) :
    Keeps A d s₀ (State.beatIn s a1 a2 a3) := by
  unfold State.beatIn
  repeat' first
    | (with_reducible first
        | intro _ | assumption | apply State.count_keeps | apply State.setPitch_keeps | apply State.sendQuery_keeps)
    | (extract_lets +onlyGivenNames lv; have hlv : Keeps A d s₀ lv; unfold lv; on_goal 2 => clear_value lv)
    | (extract_lets +onlyGivenNames lv; clear_value lv) | split

theorem State.screenBeat_keeps (s : State) (p : PitchId) (f : Frame) (hp : A p) (h : Keeps A d s₀ s) :
    Keeps A d s₀ (s.screenBeat p f).1 := by
  unfold State.screenBeat
  extract_lets x
  repeat' split
  all_goals first
    | exact h
    | exact State.count_keeps _ _ _ _ hp h
    | exact State.authFail_keeps _ _ hp h

theorem State.heartbeat_keeps (s : State) (rx : Rx) (kind : Nat)
    (act : PitchId → Frame → Bytes → Bool → State → State) (hact : ∀ p f b o x, Keeps A d s₀ x → Keeps A d s₀ (act p f b o x))
    (hA : ∀ q, A q) (h : Keeps A d s₀ s) : Keeps A d s₀ (s.heartbeat rx kind act) := by
  unfold State.heartbeat
  split
  · rename_i p f hpf
    have hp : A p := hA p
    split
    · exact h
    · have hs := State.screenBeat_keeps s p f hp h
      split
      · rename_i t hst
        rw [hst] at hs; exact hs
      · rename_i t b o hst
        rw [hst] at hs
        split
        · exact hact _ _ _ _ _ hs
        · exact h
  · exact h

theorem State.message_keeps (s : State) (a1 : PitchId) (a2 : ℕ) (a3 : ℕ) (a4 : Bytes) (ha1 : A a1) (h : Keeps A d s₀ s)
    : Keeps A d s₀ (State.message s a1 a2 a3 a4) := by
  unfold State.message
  repeat' first
    | (with_reducible first
        | intro _ | assumption | apply State.proposeIn_keeps | apply State.voteIn_keeps | apply State.commitIn_keeps
        | apply State.joinIn_keeps | apply State.queryIn_keeps | apply State.recordIn_keeps)
    | split

theorem State.heartbeatNow_keeps (s : State) (rx : Rx) (k : Nat) (hA : ∀ q, A q) (h : Keeps A d s₀ s) :
    Keeps A d s₀ (s.heartbeatNow rx k) := by
  refine State.heartbeat_keeps _ _ _ _ (fun p f b o x hx => ?_) hA h
  split
  · exact hx
  · split
    · exact Keeps.ofFields hx
    · exact State.message_keeps _ _ _ _ _ (hA _) hx

theorem State.handleMessages_keeps (s : State) (hA : ∀ q, A q) (h : Keeps A d s₀ s) : Keeps A d s₀ (State.handleMessages
    s) := by
  unfold State.handleMessages
  repeat' first
    | (with_reducible first
        | intro _ | assumption | apply State.message_keeps | apply Keeps.foldl | apply netOut_keeps)
    | exact hA _
    | (extract_lets +onlyGivenNames lv; clear_value lv) | (fail_if_no_progress with_reducible apply Keeps.ofFields)

theorem execBeat_keeps (a0 : Rx) (s : State) (hA : ∀ q, A q) (h : Keeps A d s₀ s) : ResultKeeps A d s₀ (execBeat a0 s) := by
  unfold execBeat
  repeat' first
    | (with_reducible first
        | intro _ | assumption | apply State.heartbeat_keeps | apply State.staleFrame_keeps | apply State.beatIn_keeps
        | apply Result.live_keeps | apply Result.next_keeps)
    | exact hA _ | split

theorem execPropose_keeps (a0 : Rx) (s : State) (hA : ∀ q, A q) (h : Keeps A d s₀ s) : ResultKeeps A d s₀ (execPropose
    a0 s) := by
  unfold execPropose
  repeat' first
    | (with_reducible first
        | intro _ | assumption | apply State.heartbeatNow_keeps | apply Result.live_keeps | apply Result.next_keeps)
    | exact hA _

theorem execVote_keeps (a0 : Rx) (s : State) (hA : ∀ q, A q) (h : Keeps A d s₀ s) : ResultKeeps A d s₀ (execVote a0 s) := by
  unfold execVote
  repeat' first
    | (with_reducible first
        | intro _ | assumption | apply State.heartbeatNow_keeps | apply Result.live_keeps | apply Result.next_keeps)
    | exact hA _

theorem execCommit_keeps (a0 : Rx) (s : State) (hA : ∀ q, A q) (h : Keeps A d s₀ s) : ResultKeeps A d s₀ (execCommit a0 s) := by
  unfold execCommit
  repeat' first
    | (with_reducible first
        | intro _ | assumption | apply State.heartbeatNow_keeps | apply Result.live_keeps | apply Result.next_keeps)
    | exact hA _

theorem execJoin_keeps (a0 : Rx) (s : State) (hA : ∀ q, A q) (h : Keeps A d s₀ s) : ResultKeeps A d s₀ (execJoin a0 s) := by
  unfold execJoin
  repeat' first
    | (with_reducible first
        | intro _ | assumption | apply State.heartbeatNow_keeps | apply Result.live_keeps | apply Result.next_keeps)
    | exact hA _

theorem execQuery_keeps (a0 : Rx) (s : State) (hA : ∀ q, A q) (h : Keeps A d s₀ s) : ResultKeeps A d s₀ (execQuery a0 s) := by
  unfold execQuery
  repeat' first
    | (with_reducible first
        | intro _ | assumption | apply State.heartbeatNow_keeps | apply Result.live_keeps | apply Result.next_keeps)
    | exact hA _

theorem execRecord_keeps (a0 : Rx) (s : State) (hA : ∀ q, A q) (h : Keeps A d s₀ s) : ResultKeeps A d s₀ (execRecord a0 s) := by
  unfold execRecord
  repeat' first
    | (with_reducible first
        | intro _ | assumption | apply State.heartbeatNow_keeps | apply Result.live_keeps | apply Result.next_keeps)
    | exact hA _

theorem State.fenceIn_keeps (s : State) (a1 : PitchId) (a2 : ℕ) (a3 : Bytes) (ha1 : A a1) (h : Keeps A d s₀ s) : Keeps
    A d s₀ (State.fenceIn s a1 a2 a3) := by
  unfold State.fenceIn
  repeat' first
    | (with_reducible first
        | intro _ | assumption | apply State.sendQuery_keeps | apply State.setPitch_keeps
        | apply State.fencePitch_keeps | apply Keeps.foldl)
    | (extract_lets +onlyGivenNames lv; have hlv : Keeps A d s₀ lv; unfold lv; on_goal 2 => clear_value lv)
    | (extract_lets +onlyGivenNames lv; clear_value lv)
    | split
    | with_reducible apply netOut_keeps
    | (fail_if_no_progress with_reducible apply Keeps.ofFields)

theorem execFence_keeps (a0 : Rx) (s : State) (hA : ∀ q, A q) (h : Keeps A d s₀ s) : ResultKeeps A d s₀ (execFence a0 s) := by
  unfold execFence
  repeat' first
    | (with_reducible first
        | intro _ | assumption | apply State.count_keeps | apply State.fenceIn_keeps | apply State.authFail_keeps
        | apply Result.live_keeps | apply Result.next_keeps)
    | exact hA _
    | (extract_lets +onlyGivenNames lv; clear_value lv) | split

theorem State.deathRule_keeps (s : State) (a1 : PitchId) (a2 : ℕ) (ha1 : A a1) (h : Keeps A d s₀ s) : Keeps A d s₀
    (State.deathRule s a1 a2) := by
  unfold State.deathRule
  repeat' first
    | (with_reducible first | intro _ | assumption | apply State.proposeChange_keeps)
    | (extract_lets +onlyGivenNames lv; clear_value lv) | split

theorem execDeathRule_keeps (a0 : PitchId) (a1 : W16) (s : State) (ha0 : A a0) (h : Keeps A d s₀ s) : ResultKeeps A d s₀
    (execDeathRule a0 a1 s) := by
  unfold execDeathRule
  repeat' with_reducible first
    | intro _ | assumption | apply State.deathRule_keeps | apply Result.live_keeps

theorem State.proposalTimeout_keeps (s : State) (a1 : PitchId) (ha1 : A a1) (h : Keeps A d s₀ s) : Keeps A d s₀
    (State.proposalTimeout s a1) := by
  unfold State.proposalTimeout
  repeat' first
    | (with_reducible first
        | intro _ | assumption | apply State.modPitch_keeps | apply State.count_keeps | apply Keeps.foldl)
    | (extract_lets +onlyGivenNames lv; have hlv : Keeps A d s₀ lv; unfold lv; on_goal 2 => clear_value lv)
    | (extract_lets +onlyGivenNames lv; clear_value lv)
    | split
    | with_reducible apply netOut_keeps
    | (fail_if_no_progress with_reducible apply Keeps.ofFields)

theorem execProposalTimeout_keeps (a0 : PitchId) (s : State) (ha0 : A a0) (h : Keeps A d s₀ s) : ResultKeeps A d s₀
    (execProposalTimeout a0 s) := by
  unfold execProposalTimeout
  repeat' first
    | (with_reducible first
        | intro _ | assumption | apply State.proposalTimeout_keeps | apply Result.live_keeps | apply Result.next_keeps)
    | split

theorem execFenceQueryTimeout_keeps (a0 : PitchId) (s : State) (ha0 : A a0) (h : Keeps A d s₀ s) : ResultKeeps A d s₀
    (execFenceQueryTimeout a0 s) := by
  unfold execFenceQueryTimeout
  repeat' first
    | (with_reducible first
        | intro _ | assumption | apply State.fencePitch_keeps | apply Result.live_keeps | apply Result.next_keeps)
    | split

theorem State.memberBeats_keeps (s : State) (a1 : PitchId) (ha1 : A a1) (h : Keeps A d s₀ s) : Keeps A d s₀
    (State.memberBeats s a1) := by
  unfold State.memberBeats
  repeat' first
    | (with_reducible first
        | intro _ | assumption | apply State.pursue_keeps | apply State.sendBeats_keeps
        | apply State.modPitch_keeps | apply State.sendBeat_keeps | apply Keeps.foldl)
    | (extract_lets +onlyGivenNames lv; have hlv : Keeps A d s₀ lv; unfold lv; on_goal 2 => clear_value lv)
    | (extract_lets +onlyGivenNames lv; clear_value lv)
    | split
    | with_reducible apply netOut_keeps
    | (fail_if_no_progress with_reducible apply Keeps.ofFields)

theorem joinBody_keeps (a0 : PitchId) (a1 : Cmd) (a2 : HostPort) (a3 : Bytes) (s : State) (ha0 : A a0) (h : Keeps A d s₀
    s) : ActKeeps A d s₀ (joinBody a0 a1 a2 a3 s) := by
  unfold joinBody
  repeat' first
    | exact fun _ hx => hx
    | (with_reducible first
        | intro _ | assumption | apply State.retain_keeps | apply State.setPitch_keeps | apply Act.done_keeps
        | apply Act.owe_keeps | apply Act.wait_keeps | apply Act.ok_keeps | apply Act.no_keeps)
    | exact fun _ hx => hx
    | (extract_lets +onlyGivenNames lv; clear_value lv) | split

theorem execGroupJoin_keeps (a0 : PitchId) (s : State) (hA : ∀ q, A q) (h : Keeps A d s₀ s) : ResultKeeps A d s₀
    (execGroupJoin a0 s) := by
  unfold execGroupJoin
  repeat' first
    | (with_reducible first
        | intro _ | assumption | apply State.command_keeps | apply joinBody_keeps | apply Result.live_keeps
        | apply Result.next_keeps)
    | exact hA _

theorem spareBody_keeps (a0 : PitchId) (a1 : Cmd) (a2 : HostPort) (a3 : Bytes) (s : State) (ha0 : A a0) (h : Keeps A d
    s₀ s) : ActKeeps A d s₀ (spareBody a0 a1 a2 a3 s) := by
  unfold spareBody
  repeat' first
    | exact fun _ hx => hx
    | (with_reducible first
        | intro _ | assumption | apply State.retain_keeps | apply State.setPitch_keeps | apply Act.done_keeps
        | apply Act.owe_keeps | apply Act.wait_keeps | apply Act.ok_keeps | apply Act.no_keeps)
    | exact fun _ hx => hx
    | (extract_lets +onlyGivenNames lv; clear_value lv) | split

theorem execGroupSpare_keeps (a0 : PitchId) (s : State) (hA : ∀ q, A q) (h : Keeps A d s₀ s) : ResultKeeps A d s₀
    (execGroupSpare a0 s) := by
  unfold execGroupSpare
  repeat' first
    | (with_reducible first
        | intro _ | assumption | apply State.command_keeps | apply spareBody_keeps | apply Result.live_keeps
        | apply Result.next_keeps)
    | exact hA _

theorem State.leaveGroup_keeps (s : State) (a1 : PitchId) (ha1 : A a1) (h : Keeps A d s₀ s) : Keeps A d s₀
    (State.leaveGroup s a1) := by
  unfold State.leaveGroup
  repeat' first
    | (with_reducible first
        | intro _ | assumption | apply State.want_keeps | apply State.retain_keeps
        | apply State.setPitch_keeps | apply Keeps.foldl)
    | (extract_lets +onlyGivenNames lv; have hlv : Keeps A d s₀ lv; unfold lv; on_goal 2 => clear_value lv)
    | (extract_lets +onlyGivenNames lv; clear_value lv)
    | split
    | with_reducible apply netOut_keeps
    | (fail_if_no_progress with_reducible apply Keeps.ofFields)

theorem leaveBody_keeps (a0 : PitchId) (a1 : Cmd) (a2 : HostPort) (a3 : Bytes) (s : State) (ha0 : A a0) (h : Keeps A d
    s₀ s) : ActKeeps A d s₀ (leaveBody a0 a1 a2 a3 s) := by
  unfold leaveBody
  repeat' first
    | exact fun _ hx => hx
    | (with_reducible first
        | intro _ | assumption | apply State.leaveGroup_keeps | apply Act.done_keeps | apply Act.owe_keeps
        | apply Act.wait_keeps | apply Act.ok_keeps | apply Act.no_keeps)
    | exact fun _ hx => hx
    | (extract_lets +onlyGivenNames lv; clear_value lv) | split

theorem execGroupLeave_keeps (a0 : PitchId) (s : State) (hA : ∀ q, A q) (h : Keeps A d s₀ s) : ResultKeeps A d s₀
    (execGroupLeave a0 s) := by
  unfold execGroupLeave
  repeat' first
    | (with_reducible first
        | intro _ | assumption | apply State.command_keeps | apply leaveBody_keeps | apply Result.live_keeps
        | apply Result.next_keeps)
    | exact hA _

/-! ## Complete -/

theorem State.settleLossScale_keeps (s : State) (a1 : PitchId) (ha1 : A a1) (h : Keeps A d s₀ s) : Keeps A d s₀
    (State.settleLossScale s a1) := by
  unfold State.settleLossScale
  repeat' first
    | (with_reducible first
        | intro _ | assumption | apply State.lossScaleNotice_keeps | apply State.setPitch_keeps
        | apply Keeps.foldl)
    | (extract_lets +onlyGivenNames lv; have hlv : Keeps A d s₀ lv; unfold lv; on_goal 2 => clear_value lv)
    | (extract_lets +onlyGivenNames lv; clear_value lv)
    | split
    | with_reducible apply netOut_keeps
    | (fail_if_no_progress with_reducible apply Keeps.ofFields)

theorem State.settleLayer_keeps (s : State) (p : PitchId) (k : Nat) (l : LayerRec) (h : Keeps A d s₀ s) :
    Keeps A d s₀ (s.settleLayer p k l) := by
  unfold State.settleLayer
  extract_lets x reg norms s1
  have h1 : Keeps A d s₀ s1 := by
    refine Keeps.foldl _ (fun y b hy => ?_) h
    split
    · exact State.ergClear_keeps _ _ _ hy
    · exact hy
  split
  · exact h1
  · exact State.write_keeps _ _ _ h1

theorem State.settleLayers_keeps (s : State) (a1 : PitchId) (ha1 : A a1) (h : Keeps A d s₀ s) : Keeps A d s₀
    (State.settleLayers s a1) := by
  unfold State.settleLayers
  repeat' first
    | (with_reducible first
        | intro _ | assumption | apply State.settleLayer_keeps | apply State.notice_keeps | apply State.count_keeps
        | apply Keeps.foldl)
    | (extract_lets +onlyGivenNames lv; have hlv : Keeps A d s₀ lv; unfold lv; on_goal 2 => clear_value lv)
    | (extract_lets +onlyGivenNames lv; clear_value lv) | split

theorem State.stepDoneNotice_keeps (s : State) (a1 : PitchId) (ha1 : A a1) (h : Keeps A d s₀ s) : Keeps A d s₀
    (State.stepDoneNotice s a1) := by
  unfold State.stepDoneNotice
  repeat' first
    | (with_reducible first | intro _ | assumption | apply State.notice_keeps)

theorem State.leaveAtBoundary_keeps (s : State) (a1 : PitchId) (ha1 : A a1) (h : Keeps A d s₀ s) : Keeps A d s₀
    (State.leaveAtBoundary s a1) := by
  unfold State.leaveAtBoundary
  repeat' first
    | (with_reducible first | intro _ | assumption | apply State.answerOwed_keeps | apply State.leaveGroup_keeps) | split

theorem State.afterStep_keeps (s : State) (a1 : PitchId) (a2 : Option W64) (ha1 : A a1) (h : Keeps A d s₀ s) : Keeps A d
    s₀ (State.afterStep s a1 a2) := by
  unfold State.afterStep
  repeat' first
    | (with_reducible first
        | intro _ | assumption | apply State.stopNow_keeps | apply State.modPitch_keeps | apply State.beginStep_keeps
        | apply State.advanceTo_keeps)
    | split

theorem State.stepCompleteOp_keeps (s : State) (a1 : PitchId) (ha1 : A a1) (h : Keeps A d s₀ s) : Keeps A d s₀
    (State.stepCompleteOp s a1) := by
  unfold State.stepCompleteOp
  repeat' first
    | (with_reducible first
        | intro _ | assumption | apply State.lsLast_keeps | apply State.settleLossScale_keeps
        | apply State.settleLayers_keeps | apply State.modPitch_keeps | apply State.stepDoneNotice_keeps
        | apply State.drowseEntry_keeps | apply State.retainGuard_keeps | apply State.retain_keeps
        | apply State.leaveAtBoundary_keeps | apply State.afterStep_keeps | apply Keeps.foldl)
    | (extract_lets +onlyGivenNames lv; have hlv : Keeps A d s₀ lv; unfold lv; on_goal 2 => clear_value lv)
    | (extract_lets +onlyGivenNames lv; clear_value lv)
    | split
    | with_reducible apply netOut_keeps
    | (fail_if_no_progress with_reducible apply Keeps.ofFields)

theorem execStepComplete_keeps (a0 : PitchId) (s : State) (ha0 : A a0) (h : Keeps A d s₀ s) : ResultKeeps A d s₀
    (execStepComplete a0 s) := by
  unfold execStepComplete
  repeat' with_reducible first
    | intro _ | assumption | apply State.stepCompleteOp_keeps | apply Result.live_keeps

/-! ## Lease -/

theorem State.setHolder_keeps (s : State) (a1 : Option SchCore) (a2 : W32) (h : Keeps A d s₀ s) : Keeps A d s₀
    (State.setHolder s a1 a2) := by
  unfold State.setHolder
  repeat' first
    | (with_reducible first | intro _ | assumption | apply State.logEvent_keeps | apply netOut_keeps)
    | (extract_lets +onlyGivenNames lv; have hlv : Keeps A d s₀ lv; unfold lv; on_goal 2 => clear_value lv)
    | (extract_lets +onlyGivenNames lv; clear_value lv) | split | (fail_if_no_progress with_reducible apply Keeps.ofFields)

theorem State.acquire_keeps (s : State) (a1 : SchCore) (h : Keeps A d s₀ s) : Keeps A d s₀ (State.acquire s a1) := by
  unfold State.acquire
  repeat' first | (with_reducible first | intro _ | assumption | apply State.setHolder_keeps) | split

theorem execAcquire_keeps (a0 : SchCore) (s : State) (h : Keeps A d s₀ s) : ResultKeeps A d s₀ (execAcquire a0 s) := by
  unfold execAcquire
  repeat' first
    | (with_reducible first
        | intro _ | assumption | apply State.acquire_keeps | apply Result.live_keeps | apply Result.next_keeps)
    | split

theorem execRenew_keeps (a0 : SchCore) (a1 : W32) (s : State) (h : Keeps A d s₀ s) : ResultKeeps A d s₀ (execRenew a0 a1
    s) := by
  unfold execRenew
  repeat' first
    | (with_reducible first
        | intro _ | assumption | apply Result.live_keeps | apply Result.next_keeps | apply netOut_keeps)
    | (extract_lets +onlyGivenNames lv; clear_value lv) | split | (fail_if_no_progress with_reducible apply Keeps.ofFields)

theorem execLeaseRelease_keeps (a0 : SchCore) (a1 : W32) (s : State) (h : Keeps A d s₀ s) : ResultKeeps A d s₀
    (execLeaseRelease a0 a1 s) := by
  unfold execLeaseRelease
  repeat' first
    | (with_reducible first
        | intro _ | assumption | apply State.setHolder_keeps | apply Result.live_keeps | apply Result.next_keeps)
    | split

theorem State.leaseExpiry_keeps (s : State) (h : Keeps A d s₀ s) : Keeps A d s₀ (State.leaseExpiry s) := by
  unfold State.leaseExpiry
  repeat' first | (with_reducible first | intro _ | assumption | apply State.setHolder_keeps) | split

theorem execLeaseExpiry_keeps (s : State) (h : Keeps A d s₀ s) : ResultKeeps A d s₀ (execLeaseExpiry s) := by
  unfold execLeaseExpiry
  repeat' with_reducible first
    | intro _ | assumption | apply State.leaseExpiry_keeps | apply Result.live_keeps

theorem State.schedule_keeps (s : State) (a1 : SchedWrite) (hA : ∀ q, A q) (h : Keeps A d s₀ s) : Keeps A d s₀
    (State.schedule s a1) := by
  unfold State.schedule
  repeat' first
    | (with_reducible first
        | intro _ | assumption | apply State.forPitches_keeps | apply State.modPitch_keeps | apply State.retimeOne_keeps
        | apply State.retime_keeps | apply State.setCluster_keeps)
    | exact hA _
    | split

theorem execScheduleWrite_keeps (a0 : SchCore) (a1 : W32) (a2 : SchedWrite) (s : State) (hA : ∀ q, A q) (h : Keeps A d
    s₀ s) : ResultKeeps A d s₀ (execScheduleWrite a0 a1 a2 s) := by
  unfold execScheduleWrite
  repeat' first
    | (with_reducible first
        | intro _ | assumption | apply State.schedule_keeps | apply Result.live_keeps | apply Result.next_keeps)
    | exact hA _ | split

theorem State.takeRings_keeps (s : State) (a1 : SchCore) (h : Keeps A d s₀ s) : Keeps A d s₀ (State.takeRings s a1) := by
  unfold State.takeRings
  repeat' first
    | (with_reducible first | intro _ | assumption | apply netOut_keeps)
    | (extract_lets +onlyGivenNames lv; clear_value lv) | split | (fail_if_no_progress with_reducible apply Keeps.ofFields)

theorem execSchedulerTakeover_keeps (a0 : SchCore) (s : State) (h : Keeps A d s₀ s) : ResultKeeps A d s₀
    (execSchedulerTakeover a0 s) := by
  unfold execSchedulerTakeover
  repeat' first
    | (with_reducible first
        | intro _ | assumption | apply State.acquire_keeps | apply State.takeRings_keeps | apply Result.live_keeps
        | apply Result.next_keeps)
    | split

theorem State.livenessEpoch_keeps (s : State) (h : Keeps A d s₀ s) : Keeps A d s₀ (State.livenessEpoch s) := by
  unfold State.livenessEpoch
  repeat' first
    | (with_reducible first | intro _ | assumption | apply netOut_keeps)
    | (extract_lets +onlyGivenNames lv; clear_value lv) | split | (fail_if_no_progress with_reducible apply Keeps.ofFields)

theorem State.coreHalt_keeps (s : State) (a1 : FwCore) (a2 : ℕ) (h : Keeps A d s₀ s) : Keeps A d s₀ (State.coreHalt s a1
    a2) := by
  unfold State.coreHalt
  repeat' first
    | (with_reducible first | intro _ | assumption | apply netOut_keeps)
    | (extract_lets +onlyGivenNames lv; clear_value lv) | split | (fail_if_no_progress with_reducible apply Keeps.ofFields)

theorem execCoreHalt_keeps (a0 : FwCore) (a1 : ℕ) (s : State) (h : Keeps A d s₀ s) : ResultKeeps A d s₀ (execCoreHalt a0
    a1 s) := by
  unfold execCoreHalt
  repeat' with_reducible first
    | intro _ | assumption | apply State.coreHalt_keeps | apply Result.live_keeps

theorem State.coreRestart_keeps (s : State) (a1 : FwCore) (h : Keeps A d s₀ s) : Keeps A d s₀ (State.coreRestart s a1) := by
  unfold State.coreRestart
  repeat' first
    | (with_reducible first
        | intro _ | assumption | apply State.logEvent_keeps | apply State.setHolder_keeps | apply netOut_keeps)
    | (extract_lets +onlyGivenNames lv; have hlv : Keeps A d s₀ lv; unfold lv; on_goal 2 => clear_value lv)
    | (extract_lets +onlyGivenNames lv; clear_value lv) | split | (fail_if_no_progress with_reducible apply Keeps.ofFields)

theorem execCoreRestart_keeps (a0 : FwCore) (s : State) (h : Keeps A d s₀ s) : ResultKeeps A d s₀ (execCoreRestart a0 s) := by
  unfold execCoreRestart
  repeat' with_reducible first
    | intro _ | assumption | apply State.coreRestart_keeps | apply Result.live_keeps

/-! ## Ports -/

theorem State.moveServo_keeps (s : State) (a1 : NetPort) (h : Keeps A d s₀ s) : Keeps A d s₀ (State.moveServo s a1) := by
  unfold State.moveServo
  repeat' first
    | (with_reducible first | intro _ | assumption | apply netOut_keeps)
    | (extract_lets +onlyGivenNames lv; clear_value lv) | split | (fail_if_no_progress with_reducible apply Keeps.ofFields)

theorem State.failPort_keeps (s : State) (a1 : NetPort) (h : Keeps A d s₀ s) : Keeps A d s₀ (State.failPort s a1) := by
  unfold State.failPort
  repeat' first
    | (with_reducible first
        | intro _ | assumption | apply State.restGroups_keeps | apply State.moveServo_keeps
        | apply State.modPort_keeps | apply Keeps.foldl)
    | (extract_lets +onlyGivenNames lv; have hlv : Keeps A d s₀ lv; unfold lv; on_goal 2 => clear_value lv)
    | (extract_lets +onlyGivenNames lv; clear_value lv)
    | split
    | with_reducible apply netOut_keeps
    | (fail_if_no_progress with_reducible apply Keeps.ofFields)

theorem State.remapPitch_keeps (s : State) (a1 : PitchId) (a2 : NetPort) (ha1 : A a1) (h : Keeps A d s₀ s) : Keeps A d
    s₀ (State.remapPitch s a1 a2) := by
  unfold State.remapPitch
  repeat' first
    | (with_reducible first | intro _ | assumption | apply State.setPitch_keeps | apply State.repairFault_keeps)
    | (extract_lets +onlyGivenNames lv; clear_value lv) | split

theorem State.portRemap_keeps (s : State) (a1 : NetPort) (hA : ∀ q, A q) (h : Keeps A d s₀ s) : Keeps A d s₀
    (State.portRemap s a1) := by
  unfold State.portRemap
  repeat' first
    | (with_reducible first
        | intro _ | assumption | apply State.advanceTo_keeps | apply State.modPort_keeps | apply State.takeSpare_keeps
        | apply State.forPitches_keeps | apply State.remapPitch_keeps | apply State.retime_keeps
        | apply State.repairAll_keeps | apply State.repairDone_keeps | apply State.holdRepair_keeps)
    | exact hA _ | (extract_lets +onlyGivenNames lv; have hlv : Keeps A d s₀ lv; unfold lv; on_goal 2 => clear_value lv)
    | (extract_lets +onlyGivenNames lv; clear_value lv) | split

theorem execPortRemap_keeps (a0 : NetPort) (s : State) (hA : ∀ q, A q) (h : Keeps A d s₀ s) : ResultKeeps A d s₀
    (execPortRemap a0 s) := by
  unfold execPortRemap
  repeat' first
    | (with_reducible first
        | intro _ | assumption | apply State.portRemap_keeps | apply Result.live_keeps | apply Result.next_keeps)
    | exact hA _

theorem State.portFallback_keeps (s : State) (a1 : NetPort) (a2 : Fin 9) (hA : ∀ q, A q) (h : Keeps A d s₀ s) : Keeps A
    d s₀ (State.portFallback s a1 a2) := by
  unfold State.portFallback
  repeat' first
    | (with_reducible first
        | intro _ | assumption | apply State.modPort_keeps | apply State.retime_keeps | apply State.repairDone_keeps
        | apply State.failPort_keeps)
    | exact hA _ | (extract_lets +onlyGivenNames lv; have hlv : Keeps A d s₀ lv; unfold lv; on_goal 2 => clear_value lv)
    | (extract_lets +onlyGivenNames lv; clear_value lv) | split

theorem State.portRetrain_keeps (s : State) (a1 : NetPort) (a2 : Fin 9) (a3 : Bool) (hA : ∀ q, A q) (h : Keeps A d s₀ s)
    : Keeps A d s₀ (State.portRetrain s a1 a2 a3) := by
  unfold State.portRetrain
  repeat' first
    | (with_reducible first
        | intro _ | assumption | apply State.modPort_keeps | apply State.takeSpare_keeps | apply State.repairDone_keeps
        | apply State.holdRepair_keeps | apply State.portFallback_keeps)
    | exact hA _ | (extract_lets +onlyGivenNames lv; have hlv : Keeps A d s₀ lv; unfold lv; on_goal 2 => clear_value lv)
    | (extract_lets +onlyGivenNames lv; clear_value lv) | split

theorem execNetworkPortRetrain_keeps (a0 : NetPort) (a1 : Fin 9) (a2 : Bool) (s : State) (hA : ∀ q, A q) (h : Keeps A d
    s₀ s) : ResultKeeps A d s₀ (execNetworkPortRetrain a0 a1 a2 s) := by
  unfold execNetworkPortRetrain
  repeat' first
    | (with_reducible first
        | intro _ | assumption | apply State.portRetrain_keeps | apply Result.live_keeps | apply Result.next_keeps)
    | exact hA _

theorem State.linkChange_keeps (s : State) (a1 : NetPort) (a2 : LinkRate) (hA : ∀ q, A q) (h : Keeps A d s₀ s) : Keeps A
    d s₀ (State.linkChange s a1 a2) := by
  unfold State.linkChange
  repeat' first
    | (with_reducible first | intro _ | assumption | apply State.modPort_keeps | apply State.retime_keeps) | exact hA _
    | (extract_lets +onlyGivenNames lv; have hlv : Keeps A d s₀ lv; unfold lv; on_goal 2 => clear_value lv)
    | (extract_lets +onlyGivenNames lv; clear_value lv) | split

theorem execNetworkLinkChange_keeps (a0 : NetPort) (a1 : LinkRate) (s : State) (hA : ∀ q, A q) (h : Keeps A d s₀ s) :
    ResultKeeps A d s₀ (execNetworkLinkChange a0 a1 s) := by
  unfold execNetworkLinkChange
  repeat' first
    | (with_reducible first
        | intro _ | assumption | apply State.linkChange_keeps | apply Result.live_keeps | apply Result.next_keeps)
    | exact hA _

theorem State.portsEpoch_keeps (s : State) (a1 : List (NetPort × Fin 9 × Bool × ℕ)) (a2 : List ℕ) (a3 : List ℕ) (h :
    Keeps A d s₀ s) : Keeps A d s₀ (State.portsEpoch s a1 a2 a3) := by
  unfold State.portsEpoch
  repeat' first
    | (with_reducible first
        | intro _ | assumption | apply State.modPort_keeps | apply State.failPort_keeps | apply Keeps.foldl)
    | (extract_lets +onlyGivenNames lv; have hlv : Keeps A d s₀ lv; unfold lv; on_goal 2 => clear_value lv)
    | (extract_lets +onlyGivenNames lv; clear_value lv)
    | split
    | with_reducible apply netOut_keeps
    | (fail_if_no_progress with_reducible apply Keeps.ofFields)

theorem State.servoOffset_keeps (s : State) (a1 : ℤ) (h : Keeps A d s₀ s) : Keeps A d s₀ (State.servoOffset s a1) := by
  unfold State.servoOffset
  have hd := State.draw_keeps s h
  revert hd
  generalize s.draw = r
  obtain ⟨k, t⟩ := r
  intro hd
  dsimp only at hd ⊢
  with_reducible apply Keeps.ofFields
  exact hd

theorem State.ptpMessage_keeps (s : State) (a1 : NetPort) (a2 : PtpMsg) (h : Keeps A d s₀ s) : Keeps A d s₀
    (State.ptpMessage s a1 a2) := by
  unfold State.ptpMessage
  repeat' first
    | (with_reducible first
        | intro _ | assumption | apply State.servoOffset_keeps | apply Keeps.foldl)
    | (extract_lets +onlyGivenNames lv; have hlv : Keeps A d s₀ lv; unfold lv; on_goal 2 => clear_value lv)
    | (extract_lets +onlyGivenNames lv; clear_value lv)
    | split
    | with_reducible apply netOut_keeps
    | (fail_if_no_progress with_reducible apply Keeps.ofFields)

theorem execPtpMessage_keeps (a1 : NetPort) (a2 : PtpMsg) (s : State) (h : Keeps A d s₀ s) : ResultKeeps A d s₀
    (execPtpMessage a1 a2 s) := by
  unfold execPtpMessage
  repeat' first
    | (with_reducible first
        | intro _ | assumption | apply Result.live_keeps | apply State.ptpMessage_keeps | apply Keeps.foldl
        | apply Result.next_keeps)
    | (extract_lets +onlyGivenNames lv; have hlv : Keeps A d s₀ lv; unfold lv; on_goal 2 => clear_value lv)
    | (extract_lets +onlyGivenNames lv; clear_value lv)
    | split
    | with_reducible apply netOut_keeps
    | (fail_if_no_progress with_reducible apply Keeps.ofFields)

theorem execPpsInEdge_keeps (s : State) (h : Keeps A d s₀ s) : ResultKeeps A d s₀ (execPpsInEdge s) := by
  unfold execPpsInEdge
  repeat' first
    | (with_reducible first
        | intro _ | assumption | apply Result.live_keeps | apply Result.next_keeps | apply netOut_keeps)
    | (extract_lets +onlyGivenNames lv; clear_value lv) | (fail_if_no_progress with_reducible apply Keeps.ofFields)

theorem execPpsOutPulse_keeps (s : State) (h : Keeps A d s₀ s) : ResultKeeps A d s₀ (execPpsOutPulse s) := by
  unfold execPpsOutPulse
  refine Result.live_keeps (fun s h => ?_) h
  split
  · exact h
  repeat' first
    | (with_reducible first
        | intro _ | assumption | apply State.advanceTo_keeps | apply Result.live_keeps | apply Result.next_keeps
        | apply netOut_keeps)
    | (extract_lets +onlyGivenNames lv; have hlv : Keeps A d s₀ lv; unfold lv; on_goal 2 => clear_value lv)
    | (extract_lets +onlyGivenNames lv; clear_value lv) | (fail_if_no_progress with_reducible apply Keeps.ofFields)

/-! ## Health -/

theorem telemetryBody_keeps (a0 : PitchId) (a1 : Cmd) (a2 : HostPort) (a3 : Bytes) (s : State) (_ha0 : A a0) (h : Keeps A
    d s₀ s) : ActKeeps A d s₀ (telemetryBody a0 a1 a2 a3 s) := by
  unfold telemetryBody
  repeat' first
    | exact fun _ hx => hx
    | (with_reducible first
        | intro _ | assumption | apply State.bulkResult_keeps | apply Act.done_keeps | apply Act.owe_keeps
        | apply Act.wait_keeps | apply Act.ok_keeps | apply Act.no_keeps)
    | exact fun _ hx => hx
    | (extract_lets +onlyGivenNames lv; clear_value lv) | split

theorem execTelemetryRead_keeps (a0 : PitchId) (s : State) (hA : ∀ q, A q) (h : Keeps A d s₀ s) : ResultKeeps A d s₀
    (execTelemetryRead a0 s) := by
  unfold execTelemetryRead
  repeat' first
    | (with_reducible first
        | intro _ | assumption | apply State.command_keeps | apply telemetryBody_keeps | apply Result.live_keeps
        | apply Result.next_keeps)
    | exact hA _

theorem logReadBody_keeps (a0 : PitchId) (a1 : Cmd) (a2 : HostPort) (a3 : Bytes) (s : State) (_ha0 : A a0) (h : Keeps A d
    s₀ s) : ActKeeps A d s₀ (logReadBody a0 a1 a2 a3 s) := by
  unfold logReadBody
  repeat' first
    | exact fun _ hx => hx
    | (with_reducible first
        | intro _ | assumption | apply State.bulkResult_keeps | apply Act.done_keeps | apply Act.owe_keeps
        | apply Act.wait_keeps | apply Act.ok_keeps | apply Act.no_keeps | apply State.draw_keeps
        | refine State.draw_match_keeps _ ?_ ?_)
    | exact fun _ hx => hx
    | (extract_lets +onlyGivenNames lv; clear_value lv) | split

theorem execHealthLogRead_keeps (a0 : PitchId) (s : State) (hA : ∀ q, A q) (h : Keeps A d s₀ s) : ResultKeeps A d s₀
    (execHealthLogRead a0 s) := by
  unfold execHealthLogRead
  repeat' first
    | (with_reducible first
        | intro _ | assumption | apply State.command_keeps | apply logReadBody_keeps | apply Result.live_keeps
        | apply Result.next_keeps)
    | exact hA _

theorem execSpareRotation_keeps (a0 : Fin 8) (s : State) (h : Keeps A d s₀ s) : ResultKeeps A d s₀ (execSpareRotation a0
    s) := by
  unfold execSpareRotation
  repeat' first
    | (with_reducible first
        | intro _ | assumption | apply State.setCluster_keeps | apply Result.live_keeps | apply Result.next_keeps)
    | (extract_lets +onlyGivenNames lv; clear_value lv) | split

theorem State.rotationEffect_keeps (s : State) (a1 : Fin 8) (h : Keeps A d s₀ s) : Keeps A d s₀ (State.rotationEffect s
    a1) := by
  unfold State.rotationEffect
  repeat' first
    | (with_reducible first
        | intro _ | assumption | apply State.setCluster_keeps | apply State.advanceTo_keeps | apply State.setCells_keeps)
    | (extract_lets +onlyGivenNames lv; have hlv : Keeps A d s₀ lv; unfold lv; on_goal 2 => clear_value lv)
    | (extract_lets +onlyGivenNames lv; clear_value lv) | split

theorem execRotationEffect_keeps (a0 : Fin 8) (s : State) (h : Keeps A d s₀ s) : ResultKeeps A d s₀ (execRotationEffect
    a0 s) := by
  unfold execRotationEffect
  repeat' with_reducible first
    | intro _ | assumption | apply State.rotationEffect_keeps | apply Result.live_keeps

theorem State.rotationTest_keeps (s : State) (a1 : Fin 8) (a2 : Bool) (hA : ∀ q, A q) (h : Keeps A d s₀ s) : Keeps A d
    s₀ (State.rotationTest s a1 a2) := by
  unfold State.rotationTest
  repeat' first
    | (with_reducible first
        | intro _ | assumption | apply State.setCells_keeps | apply State.setCluster_keeps | apply State.repairDone_keeps
        | apply State.takeSpare_keeps)
    | exact hA _ | (extract_lets +onlyGivenNames lv; have hlv : Keeps A d s₀ lv; unfold lv; on_goal 2 => clear_value lv)
    | (extract_lets +onlyGivenNames lv; clear_value lv) | split

theorem execRotationBistComplete_keeps (a1 : Fin 8) (a2 : List W128) (a3 : Bool) (s : State) (hA : ∀ p, A p) (h : Keeps
    A d s₀ s) : ResultKeeps A d s₀ (execRotationBistComplete a1 a2 a3 s) := by
  unfold execRotationBistComplete
  repeat' first
    | (with_reducible first
        | intro _ | assumption | apply Result.live_keeps | apply State.rotationTest_keeps | apply Keeps.foldl
        | apply Result.next_keeps)
    | exact hA _
    | (extract_lets +onlyGivenNames lv; have hlv : Keeps A d s₀ lv; unfold lv; on_goal 2 => clear_value lv)
    | (extract_lets +onlyGivenNames lv; clear_value lv)
    | split
    | with_reducible apply netOut_keeps
    | (fail_if_no_progress with_reducible apply Keeps.ofFields)

theorem State.withdrawBank_keeps (s : State) (a1 : ℕ) (a2 : ℕ) (hA : ∀ p, A p) (h : Keeps A d s₀ s) : Keeps A d s₀
    (State.withdrawBank s a1 a2) := by
  unfold State.withdrawBank
  repeat' first
    | (with_reducible first
        | intro _ | assumption | apply State.repairDone_keeps | apply State.forPitches_keeps
        | apply State.repairFault_keeps | apply Keeps.foldl)
    | exact hA _
    | (extract_lets +onlyGivenNames lv; have hlv : Keeps A d s₀ lv; unfold lv; on_goal 2 => clear_value lv)
    | (extract_lets +onlyGivenNames lv; clear_value lv)
    | split
    | with_reducible apply netOut_keeps
    | (fail_if_no_progress with_reducible apply Keeps.ofFields)

theorem State.rowRepair_keeps (s : State) (a1 : EccMem) (a2 : ℕ) (hA : ∀ q, A q) (h : Keeps A d s₀ s) : Keeps A d s₀
    (State.rowRepair s a1 a2) := by
  unfold State.rowRepair
  repeat' first
    | (with_reducible first
        | intro _ | assumption | apply State.repairDone_keeps | apply State.holdRepair_keeps | apply State.takeSpare_keeps
        | apply State.withdrawBank_keeps | apply State.forPitches_keeps | apply State.repairFault_keeps)
    | exact hA _ | (extract_lets +onlyGivenNames lv; have hlv : Keeps A d s₀ lv; unfold lv; on_goal 2 => clear_value lv)
    | (extract_lets +onlyGivenNames lv; clear_value lv) | split

theorem State.noteHbm_keeps (s : State) (a1 : ℕ) (h : Keeps A d s₀ s) : Keeps A d s₀ (State.noteHbm s a1) := by
  unfold State.noteHbm
  repeat' first
    | (with_reducible first | intro _ | assumption | apply netOut_keeps)
    | (extract_lets +onlyGivenNames lv; clear_value lv) | split | (fail_if_no_progress with_reducible apply Keeps.ofFields)

theorem State.noteSram_keeps (s : State) (a1 : EccMem) (a2 : ℕ) (hA : ∀ q, A q) (h : Keeps A d s₀ s) : Keeps A d s₀
    (State.noteSram s a1 a2) := by
  unfold State.noteSram
  repeat' first
    | (with_reducible first | intro _ | assumption | apply State.rowRepair_keeps | apply netOut_keeps) | exact hA _
    | (extract_lets +onlyGivenNames lv; have hlv : Keeps A d s₀ lv; unfold lv; on_goal 2 => clear_value lv)
    | (extract_lets +onlyGivenNames lv; clear_value lv) | split | (fail_if_no_progress with_reducible apply Keeps.ofFields)

theorem State.eccCorrected_keeps (s : State) (a1 : EccWord) (hA : ∀ q, A q) (h : Keeps A d s₀ s) : Keeps A d s₀
    (State.eccCorrected s a1) := by
  unfold State.eccCorrected
  repeat' first
    | (with_reducible first
        | intro _ | assumption | apply State.count_keeps | apply State.noteHbm_keeps | apply State.noteSram_keeps
        | apply netOut_keeps)
    | exact hA _ | (extract_lets +onlyGivenNames lv; have hlv : Keeps A d s₀ lv; unfold lv; on_goal 2 => clear_value lv)
    | (extract_lets +onlyGivenNames lv; clear_value lv) | split | (fail_if_no_progress with_reducible apply Keeps.ofFields)

theorem State.scrub_keeps (s : State) (a1 : EccWord) (hA : ∀ p, A p) (h : Keeps A d s₀ s) : Keeps A d s₀ (State.scrub s
    a1) := by
  unfold State.scrub
  repeat' first
    | (with_reducible first
        | intro _ | assumption | apply State.advanceTo_keeps | apply State.eccCorrected_keeps
        | apply Keeps.foldl)
    | exact hA _
    | (extract_lets +onlyGivenNames lv; have hlv : Keeps A d s₀ lv; unfold lv; on_goal 2 => clear_value lv)
    | (extract_lets +onlyGivenNames lv; clear_value lv)
    | split
    | with_reducible apply netOut_keeps
    | (fail_if_no_progress with_reducible apply Keeps.ofFields)

theorem execScrubPass_keeps (a0 : EccWord) (s : State) (hA : ∀ q, A q) (h : Keeps A d s₀ s) : ResultKeeps A d s₀
    (execScrubPass a0 s) := by
  unfold execScrubPass
  repeat' first
    | (with_reducible first
        | intro _ | assumption | apply State.scrub_keeps | apply Result.live_keeps | apply Result.next_keeps)
    | exact hA _

theorem State.segmentRemap_keeps (s : State) (a1 : ℕ) (a2 : ℕ) (hA : ∀ q, A q) (h : Keeps A d s₀ s) : Keeps A d s₀
    (State.segmentRemap s a1 a2) := by
  unfold State.segmentRemap
  repeat' first
    | (with_reducible first
        | intro _ | assumption | apply State.repairDone_keeps | apply State.forPitches_keeps
        | apply State.repairFault_keeps | apply netOut_keeps)
    | exact hA _ | (extract_lets +onlyGivenNames lv; have hlv : Keeps A d s₀ lv; unfold lv; on_goal 2 => clear_value lv)
    | (extract_lets +onlyGivenNames lv; clear_value lv) | split | (fail_if_no_progress with_reducible apply Keeps.ofFields)

theorem execHbmSegmentRemap_keeps (a0 : Fin 6) (a1 : ℕ) (s : State) (hA : ∀ q, A q) (h : Keeps A d s₀ s) : ResultKeeps A
    d s₀ (execHbmSegmentRemap a0 a1 s) := by
  unfold execHbmSegmentRemap
  repeat' first
    | (with_reducible first
        | intro _ | assumption | apply State.segmentRemap_keeps | apply Result.live_keeps | apply Result.next_keeps)
    | exact hA _

theorem State.remapEffect_keeps (s : State) (a1 : ℕ) (hA : ∀ q, A q) (h : Keeps A d s₀ s) : Keeps A d s₀
    (State.remapEffect s a1) := by
  unfold State.remapEffect
  repeat' first
    | (with_reducible first
        | intro _ | assumption | apply State.advanceTo_keeps | apply State.repairDone_keeps | apply State.holdRepair_keeps
        | apply State.takeSpare_keeps | apply Keeps.foldl | apply netOut_keeps)
    | exact hA _ | (extract_lets +onlyGivenNames lv; have hlv : Keeps A d s₀ lv; unfold lv; on_goal 2 => clear_value lv)
    | (extract_lets +onlyGivenNames lv; clear_value lv) | split | (fail_if_no_progress with_reducible apply Keeps.ofFields)

theorem execHbmRemapEffect_keeps (a0 : Fin 6) (s : State) (hA : ∀ q, A q) (h : Keeps A d s₀ s) : ResultKeeps A d s₀
    (execHbmRemapEffect a0 s) := by
  unfold execHbmRemapEffect
  repeat' first
    | (with_reducible first
        | intro _ | assumption | apply State.remapEffect_keeps | apply Result.live_keeps | apply Result.next_keeps)
    | exact hA _

theorem State.uncorrectable_keeps (s : State) (a1 : PitchId) (a2 : EccMem) (a3 : ℕ) (ha1 : A a1) (h : Keeps A d s₀ s) :
    Keeps A d s₀ (State.uncorrectable s a1 a2 a3) := by
  unfold State.uncorrectable
  repeat' first
    | (with_reducible first
        | intro _ | assumption | apply State.logEvent_keeps | apply State.faultPitch_keeps | apply State.openFault_keeps
        | apply netOut_keeps)
    | (extract_lets +onlyGivenNames lv; have hlv : Keeps A d s₀ lv; unfold lv; on_goal 2 => clear_value lv)
    | (extract_lets +onlyGivenNames lv; clear_value lv) | split | (fail_if_no_progress with_reducible apply Keeps.ofFields)

theorem execUncorrectableEcc_keeps (a0 : PitchId) (a1 : EccMem) (a2 : ℕ) (s : State) (ha0 : A a0) (h : Keeps A d s₀ s) :
    ResultKeeps A d s₀ (execUncorrectableEcc a0 a1 a2 s) := by
  unfold execUncorrectableEcc
  repeat' with_reducible first
    | intro _ | assumption | apply State.uncorrectable_keeps | apply Result.live_keeps

theorem State.closeHour_keeps (s : State) (a1 : ℕ) (a2 : Bool) (h : Keeps A d s₀ s) : Keeps A d s₀ (State.closeHour s a1
    a2) := by
  unfold State.closeHour
  repeat' first
    | (with_reducible first | intro _ | assumption | apply State.logRaw_keeps | apply netOut_keeps)
    | (extract_lets +onlyGivenNames lv; have hlv : Keeps A d s₀ lv; unfold lv; on_goal 2 => clear_value lv)
    | (extract_lets +onlyGivenNames lv; clear_value lv) | (fail_if_no_progress with_reducible apply Keeps.ofFields)

theorem execHourRecord_keeps (s : State) (h : Keeps A d s₀ s) : ResultKeeps A d s₀ (execHourRecord s) := by
  unfold execHourRecord
  repeat' first
    | (with_reducible first
        | intro _ | assumption | apply State.closeHour_keeps | apply Result.live_keeps | apply Result.next_keeps)
    | split

theorem State.partialHour_keeps (s : State) (h : Keeps A d s₀ s) : Keeps A d s₀ (State.partialHour s) := by
  unfold State.partialHour
  repeat' with_reducible first | intro _ | assumption | apply State.closeHour_keeps

theorem execExceptionEntryLog_keeps (a0 : PitchId) (s : State) (_ha0 : A a0) (h : Keeps A d s₀ s) : ResultKeeps A d s₀
    (execExceptionEntryLog a0 s) := by
  unfold execExceptionEntryLog
  repeat' first
    | (with_reducible first
        | intro _ | assumption | apply Result.live_keeps | apply Result.next_keeps | apply netOut_keeps)
    | (extract_lets +onlyGivenNames lv; clear_value lv) | split | (fail_if_no_progress with_reducible apply Keeps.ofFields)

/-! ## Boot -/

theorem State.rebooted_keeps (s : State) (warm : Bool) (cause : Nat) (hA : ∀ q, A q) (hd : d) (h : Keeps A d s₀ s) :
    Keeps A d s₀ (s.rebooted warm cause) := by
  refine h.trans ⟨rfl, fun hw => ?_, le_refl _, List.prefix_refl _, List.prefix_refl _, FusesGrow.refl _, fun q hq =>
      absurd (hA q) hq,
    fun k => absurd hd k⟩
  show Memory.wf (s.rebootMem warm)
  unfold State.rebootMem
  split
  · exact wf_filter _ _ hw
  · exact wf_nil

theorem State.bootStop_keeps (s : State) (a1 : ℕ) (a2 : ℕ) (h : Keeps A d s₀ s) : Keeps A d s₀ (State.bootStop s a1 a2) := by
  unfold State.bootStop
  repeat' first
    | (with_reducible first | intro _ | assumption | apply netOut_keeps)
    | (extract_lets +onlyGivenNames lv; clear_value lv) | (fail_if_no_progress with_reducible apply Keeps.ofFields)

theorem State.stage_keeps (s : State) (a1 : ℕ) (h : Keeps A d s₀ s) : Keeps A d s₀ (State.stage s a1) := by
  unfold State.stage
  repeat' first
    | (with_reducible first | intro _ | assumption | apply netOut_keeps)
    | (extract_lets +onlyGivenNames lv; clear_value lv) | (fail_if_no_progress with_reducible apply Keeps.ofFields)

theorem State.bootRecord_keeps (s : State) (h : Keeps A d s₀ s) : Keeps A d s₀ (State.bootRecord s) := by
  unfold State.bootRecord
  repeat' first
    | (with_reducible first | intro _ | assumption | apply State.logEvent_keeps | apply netOut_keeps)
    | (extract_lets +onlyGivenNames lv; have hlv : Keeps A d s₀ lv; unfold lv; on_goal 2 => clear_value lv)
    | (extract_lets +onlyGivenNames lv; clear_value lv) | split | (fail_if_no_progress with_reducible apply Keeps.ofFields)

theorem State.fuseRepair_keeps (s : State) (r : Repair) (hA : ∀ q, A q) (hd : d) (h : Keeps A d s₀ s) :
    Keeps A d s₀ (s.fuseRepair r) := by
  unfold State.fuseRepair
  split
  · exact h
  · extract_lets +onlyGivenNames f0 g0 s1
    have h1 : Keeps A d s₀ s1 := Keeps.ofFuses ⟨id, id, id, le_refl _, List.prefix_append _ _, rfl⟩ hd h
    exact State.repairDone_keeps _ _ _ _ _ _ hA h1

theorem State.fuseRepairs_keeps (s : State) (hA : ∀ q, A q) (hd : d) (h : Keeps A d s₀ s) : Keeps A d s₀
    (State.fuseRepairs s) := by
  unfold State.fuseRepairs
  repeat' first
    | (with_reducible first | intro _ | assumption | apply State.fuseRepair_keeps | apply Keeps.foldl) | exact hA _ | split

theorem State.bistSlice_keeps (s : State) (a1 : Fin 8) (a2 : ℕ) (hA : ∀ q, A q) (h : Keeps A d s₀ s) : Keeps A d s₀
    (State.bistSlice s a1 a2) := by
  unfold State.bistSlice
  repeat' first
    | (with_reducible first
        | intro _ | assumption | apply State.repairSlice_keeps | apply State.repairDone_keeps | apply State.takeSpare_keeps
        | apply State.setCluster_keeps)
    | exact hA _
    | (extract_lets +onlyGivenNames lv; clear_value lv) | split

theorem State.bistPe_keeps (s : State) (a1 : Fin 8) (a2 : ℕ) (hA : ∀ p, A p) (h : Keeps A d s₀ s) : Keeps A d s₀
    (State.bistPe s a1 a2) := by
  unfold State.bistPe
  repeat' first
    | (with_reducible first
        | intro _ | assumption | apply State.peRepair_keeps | apply State.bistSlice_keeps | apply Keeps.foldl)
    | exact hA _
    | (extract_lets +onlyGivenNames lv; have hlv : Keeps A d s₀ lv; unfold lv; on_goal 2 => clear_value lv)
    | (extract_lets +onlyGivenNames lv; clear_value lv)
    | split
    | with_reducible apply netOut_keeps
    | (fail_if_no_progress with_reducible apply Keeps.ofFields)

theorem State.selfTest_keeps (s : State) (a1 : BootEnv) (hA : ∀ p, A p) (h : Keeps A d s₀ s) : Keeps A d s₀
    (State.selfTest s a1) := by
  unfold State.selfTest
  repeat' first
    | (with_reducible first
        | intro _ | assumption | apply State.rowRepair_keeps | apply State.bistPe_keeps
        | apply State.decoderReplace_keeps | apply State.bistSlice_keeps | apply Keeps.foldl)
    | exact hA _
    | (extract_lets +onlyGivenNames lv; have hlv : Keeps A d s₀ lv; unfold lv; on_goal 2 => clear_value lv)
    | (extract_lets +onlyGivenNames lv; clear_value lv)
    | split
    | with_reducible apply netOut_keeps
    | (fail_if_no_progress with_reducible apply Keeps.ofFields)

theorem State.train_keeps (s : State) (a1 : BootEnv) (hA : ∀ p, A p) (h : Keeps A d s₀ s) : Keeps A d s₀ (State.train s
    a1) := by
  unfold State.train
  repeat' first
    | (with_reducible first
        | intro _ | assumption | apply State.trained_keeps | apply State.repairDone_keeps
        | apply State.selfTest_keeps | apply State.portRetrain_keeps | apply Keeps.foldl)
    | exact hA _
    | (extract_lets +onlyGivenNames lv; have hlv : Keeps A d s₀ lv; unfold lv; on_goal 2 => clear_value lv)
    | (extract_lets +onlyGivenNames lv; clear_value lv)
    | split
    | with_reducible apply netOut_keeps
    | (fail_if_no_progress with_reducible apply Keeps.ofFields)

end Sys2Proof.Machine
end

