-- ==== Sys2Proof/Laws/Keeps6.lean ====
section
/-! SUPPORT. What the operations of Boot, HostRead, Secure, Update, Epoch, Keys keep (Laws/Keeps.lean): one lemma for each. -/

namespace Sys2Proof.Machine

variable {A : PitchId → Prop} {d : Prop} {s₀ : State}

/-! ## Boot -/

theorem State.writeDirectory_keeps (s : State) (a1 : Bool) (a2 : Bool) (h : Keeps A d s₀ s) : Keeps A d s₀
    (State.writeDirectory s a1 a2) := by
  unfold State.writeDirectory
  repeat' first
    | (with_reducible first
        | intro _ | assumption | apply State.program_keeps | apply Keeps.foldl)
    | (extract_lets +onlyGivenNames lv; have hlv : Keeps A d s₀ lv; unfold lv; on_goal 2 => clear_value lv)
    | (extract_lets +onlyGivenNames lv; clear_value lv)
    | split
    | with_reducible apply netOut_keeps
    | (fail_if_no_progress with_reducible apply Keeps.ofFields)

theorem State.readDirectory_keeps (s : State) (a1 : BootEnv) (h : Keeps A d s₀ s) : Keeps A d s₀ (State.readDirectory s
    a1) := by
  unfold State.readDirectory
  repeat' first
    | (with_reducible first | intro _ | assumption | apply State.logEvent_keeps | apply netOut_keeps)
    | (extract_lets +onlyGivenNames lv; have hlv : Keeps A d s₀ lv; unfold lv; on_goal 2 => clear_value lv)
    | (extract_lets +onlyGivenNames lv; clear_value lv) | split | (fail_if_no_progress with_reducible apply Keeps.ofFields)

theorem State.runImage_keeps (s : State) (a1 : Bool) (h : Keeps A d s₀ s) : Keeps A d s₀ (State.runImage s a1) := by
  unfold State.runImage
  repeat' first
    | (with_reducible first | intro _ | assumption | apply netOut_keeps)
    | (extract_lets +onlyGivenNames lv; clear_value lv) | (fail_if_no_progress with_reducible apply Keeps.ofFields)

theorem State.settleBank_keeps (s : State) (a1 : Bool) (h : Keeps A d s₀ s) : Keeps A d s₀ (State.settleBank s a1) := by
  unfold State.settleBank
  repeat' first | (with_reducible first | intro _ | assumption | apply State.writeDirectory_keeps) | split

theorem State.deriveAlias_keeps (s : State) (hd : d) (h : Keeps A d s₀ s) : Keeps A d s₀ (State.deriveAlias s) := by
  unfold State.deriveAlias
  repeat' first
    | (with_reducible first | intro _ | assumption | apply netOut_keeps)
    | (extract_lets +onlyGivenNames lv; clear_value lv) | split | (fail_if_no_progress with_reducible apply Keeps.ofFields)
    | (fail_if_no_progress with_reducible apply Keeps.ofGuarded hd)

theorem State.identity_keeps (s : State) (hd : d) (h : Keeps A d s₀ s) : Keeps A d s₀ (State.identity s) := by
  unfold State.identity
  repeat' first
    | (with_reducible first | intro _ | assumption | apply State.deriveAlias_keeps | apply netOut_keeps)
    | (extract_lets +onlyGivenNames lv; clear_value lv) | split | (fail_if_no_progress with_reducible apply Keeps.ofFields)
    | (fail_if_no_progress with_reducible apply Keeps.ofGuarded hd)

theorem State.loadRetained_keeps (s : State) (a1 : BitVec 12) (h : Keeps A d s₀ s) : Keeps A d s₀ (State.loadRetained s
    a1) := by
  unfold State.loadRetained
  split
  · exact Keeps.ofMem (fun _ => wf_nil) (State.setRetained_keeps _ _ h)
  · refine Keeps.foldl _ (fun y b hy => ?_) h
    split
    · exact State.logEvent_keeps _ _ _ (State.setRetained_keeps _ _ hy)
    · exact hy

theorem State.release_keeps (s : State) (a1 : BootEnv) (hA : ∀ q, A q) (h : Keeps A d s₀ s) : Keeps A d s₀
    (State.release s a1) := by
  unfold State.release
  repeat' first
    | (with_reducible first
        | intro _ | assumption | apply State.bootRecord_keeps | apply State.bootStop_keeps | apply State.stage_keeps
        | apply State.loadRetained_keeps | apply State.acquire_keeps)
    | exact hA _ | split

theorem State.bootImage_keeps (s : State) (a1 : BootEnv) (hA : ∀ q, A q) (hd : d) (h : Keeps A d s₀ s) : Keeps A d s₀
    (State.bootImage s a1) := by
  unfold State.bootImage
  repeat' first
    | (with_reducible first
        | intro _ | assumption | apply State.bootStop_keeps | apply State.readDirectory_keeps | apply State.stage_keeps
        | apply State.bootRecord_keeps | apply State.settleBank_keeps | apply State.runImage_keeps
        | apply State.release_keeps | apply State.identity_keeps)
    | exact hA _ | (extract_lets +onlyGivenNames lv; have hlv : Keeps A d s₀ lv; unfold lv; on_goal 2 => clear_value lv)
    | split

theorem State.bootStages_keeps (s : State) (warm : Bool) (env : BootEnv) (hA : ∀ q, A q) (hd : d) (h : Keeps A d s₀ s) :
    Keeps A d s₀ (s.bootStages warm env) := by
  unfold State.bootStages
  split
  · exact State.bootStop_keeps _ _ _ h
  · extract_lets s1
    have h1 : Keeps A d s₀ s1 := by
      refine State.stage_keeps _ _ ?_
      split
      · exact h
      · exact State.fuseRepairs_keeps _ hA hd h
    clear_value s1
    split
    · exact State.bootStop_keeps _ _ _ h1
    · exact State.bootImage_keeps _ _ hA hd (State.train_keeps _ _ hA (State.stage_keeps _ _ h1))

theorem State.dropHolder_keeps (s : State) (h : Keeps A d s₀ s) : Keeps A d s₀ (State.dropHolder s) := by
  unfold State.dropHolder
  repeat' first | (with_reducible first | intro _ | assumption | apply State.setHolder_keeps) | split

theorem State.warmBoot_keeps (s : State) (a1 : ℕ) (a2 : BootEnv) (hA : ∀ p, A p) (hd : d) (h : Keeps A d s₀ s) : Keeps
    A d s₀ (State.warmBoot s a1 a2) := by
  unfold State.warmBoot
  repeat' first
    | (with_reducible first
        | intro _ | assumption | apply State.forPitches_keeps | apply State.cutStep_keeps
        | apply State.bootStages_keeps | apply State.dropHolder_keeps | apply State.rebooted_keeps
        | apply Keeps.foldl)
    | exact hA _
    | (extract_lets +onlyGivenNames lv; have hlv : Keeps A d s₀ lv; unfold lv; on_goal 2 => clear_value lv)
    | (extract_lets +onlyGivenNames lv; clear_value lv)
    | split
    | with_reducible apply netOut_keeps
    | (fail_if_no_progress with_reducible apply Keeps.ofFields)
    | (fail_if_no_progress with_reducible apply Keeps.ofGuarded hd)

theorem State.programBanks_keeps (s : State) (a1 : BootEnv) (h : Keeps A d s₀ s) : Keeps A d s₀ (State.programBanks s a1) := by
  unfold State.programBanks
  repeat' first
    | (with_reducible first | intro _ | assumption | apply netOut_keeps)
    | (extract_lets +onlyGivenNames lv; clear_value lv) | (fail_if_no_progress with_reducible apply Keeps.ofFields)

theorem State.powerOn_keeps (s : State) (a1 : BootEnv) (hA : ∀ q, A q) (hd : d) (h : Keeps A d s₀ s) : Keeps A d s₀
    (State.powerOn s a1) := by
  unfold State.powerOn
  repeat' first
    | (with_reducible first
        | intro _ | assumption | apply State.bootStages_keeps | apply State.rebooted_keeps | apply State.programBanks_keeps
        | apply State.warmBoot_keeps)
    | exact hA _ | (extract_lets +onlyGivenNames lv; have hlv : Keeps A d s₀ lv; unfold lv; on_goal 2 => clear_value lv)
    | split

theorem execPowerOnReset_keeps (a0 : BootEnv) (s : State) (hA : ∀ q, A q) (hd : d) (h : Keeps A d s₀ s) : ResultKeeps A
    d s₀ (execPowerOnReset a0 s) := by
  unfold execPowerOnReset
  repeat' first
    | (with_reducible first
        | intro _ | assumption | apply State.powerOn_keeps | apply Result.live_keeps | apply Result.next_keeps)
    | exact hA _

theorem execWarmReset_keeps (a0 : BootEnv) (a1 : ℕ) (s : State) (hA : ∀ q, A q) (hd : d) (h : Keeps A d s₀ s) :
    ResultKeeps A d s₀ (execWarmReset a0 a1 s) := by
  unfold execWarmReset
  repeat' first
    | (with_reducible first
        | intro _ | assumption | apply State.warmBoot_keeps | apply Result.live_keeps | apply Result.next_keeps)
    | exact hA _ | split

theorem State.restorePitch_keeps (s : State) (a1 : PitchId) (ha1 : A a1) (h : Keeps A d s₀ s) : Keeps A d s₀
    (State.restorePitch s a1) := by
  unfold State.restorePitch
  repeat' first
    | (with_reducible first
        | intro _ | assumption | apply State.firstPass_keeps | apply State.setPitch_keeps | apply State.resign_keeps
        | apply State.remapPitch_keeps | apply Keeps.foldl)
    | (extract_lets +onlyGivenNames lv; clear_value lv) | split

theorem State.signRestored_keeps (s : State) (a1 : PitchId) (ha1 : A a1) (h : Keeps A d s₀ s) : Keeps A d s₀
    (State.signRestored s a1) := by
  unfold State.signRestored
  repeat' first
    | (with_reducible first
        | intro _ | assumption | apply State.resign_keeps | apply Keeps.foldl)
    | (extract_lets +onlyGivenNames lv; have hlv : Keeps A d s₀ lv; unfold lv; on_goal 2 => clear_value lv)
    | (extract_lets +onlyGivenNames lv; clear_value lv)
    | split
    | with_reducible apply netOut_keeps
    | (fail_if_no_progress with_reducible apply Keeps.ofFields)

theorem State.blowRollback_keeps (s : State) (hd : d) (h : Keeps A d s₀ s) : Keeps A d s₀ s.blowRollback := by
  unfold State.blowRollback
  split
  · exact Keeps.ofFuses ⟨id, id, id, le_max_left _ _, List.prefix_refl _, rfl⟩ hd h
  · exact h

theorem State.restCells_keeps (s : State) (h : Keeps A d s₀ s) : Keeps A d s₀ (State.restCells s) := by
  unfold State.restCells
  repeat' first
    | (with_reducible first
        | intro _ | assumption | apply State.restGroups_keeps | apply State.setCells_keeps | apply Keeps.foldl)
    | (extract_lets +onlyGivenNames lv; have hlv : Keeps A d s₀ lv; unfold lv; on_goal 2 => clear_value lv)
    | (extract_lets +onlyGivenNames lv; clear_value lv)
    | split
    | with_reducible apply netOut_keeps
    | (fail_if_no_progress with_reducible apply Keeps.ofFields)

theorem State.judgeLatched_keeps (s : State) (a1 : Latched) (hA : ∀ q, A q) (h : Keeps A d s₀ s) : Keeps A d s₀
    (State.judgeLatched s a1) := by
  unfold State.judgeLatched
  repeat' first
    | (with_reducible first | intro _ | assumption | apply State.putRegister_keeps | apply netOut_keeps) | exact hA _
    | (extract_lets +onlyGivenNames lv; clear_value lv) | split | (fail_if_no_progress with_reducible apply Keeps.ofFields)

theorem State.tellRepairs_keeps (s : State) (hA : ∀ p, A p) (h : Keeps A d s₀ s) : Keeps A d s₀ (State.tellRepairs s)
    := by
  unfold State.tellRepairs
  repeat' first
    | (with_reducible first
        | intro _ | assumption | apply State.forPitches_keeps | apply State.repairAll_keeps
        | apply State.repairFault_keeps | apply Keeps.foldl)
    | exact hA _
    | (extract_lets +onlyGivenNames lv; have hlv : Keeps A d s₀ lv; unfold lv; on_goal 2 => clear_value lv)
    | (extract_lets +onlyGivenNames lv; clear_value lv)
    | split
    | with_reducible apply netOut_keeps
    | (fail_if_no_progress with_reducible apply Keeps.ofFields)

theorem State.becomeReady_keeps (s : State) (hA : ∀ p, A p) (hd : d) (h : Keeps A d s₀ s) : Keeps A d s₀
    (State.becomeReady s) := by
  unfold State.becomeReady
  repeat' first
    | (with_reducible first
        | intro _ | assumption | apply State.forPitches_keeps | apply State.restorePitch_keeps
        | apply State.signRestored_keeps | apply State.tellRepairs_keeps | apply State.restCells_keeps
        | apply State.settleCells_keeps | apply State.blowRollback_keeps | apply State.bootRecord_keeps
        | apply State.judgeLatched_keeps | apply Keeps.foldl)
    | exact hA _
    | (extract_lets +onlyGivenNames lv; have hlv : Keeps A d s₀ lv; unfold lv; on_goal 2 => clear_value lv)
    | (extract_lets +onlyGivenNames lv; clear_value lv)
    | split
    | with_reducible apply netOut_keeps
    | (fail_if_no_progress with_reducible apply Keeps.ofFields)
    | (fail_if_no_progress with_reducible apply Keeps.ofGuarded hd)

theorem execEngineReady_keeps (s : State) (hA : ∀ q, A q) (hd : d) (h : Keeps A d s₀ s) : ResultKeeps A d s₀
    (execEngineReady s) := by
  unfold execEngineReady
  repeat' first
    | (with_reducible first
        | intro _ | assumption | apply State.becomeReady_keeps | apply Result.live_keeps | apply Result.next_keeps)
    | exact hA _

theorem execMirrorJournalFinish_keeps (s : State) (h : Keeps A d s₀ s) : ResultKeeps A d s₀ (execMirrorJournalFinish s) := by
  unfold execMirrorJournalFinish
  repeat' first
    | (with_reducible first
        | intro _ | assumption | apply Result.live_keeps | apply Result.next_keeps | apply netOut_keeps)
    | (extract_lets +onlyGivenNames lv; clear_value lv) | split | (fail_if_no_progress with_reducible apply Keeps.ofFields)

theorem State.resetCell_keeps (s : State) (a1 : ℕ) (h : Keeps A d s₀ s) : Keeps A d s₀ (State.resetCell s a1) := by
  unfold State.resetCell
  repeat' first
    | (with_reducible first
        | intro _ | assumption | apply State.erase_keeps | apply State.modPort_keeps | apply Keeps.foldl)
    | (extract_lets +onlyGivenNames lv; have hlv : Keeps A d s₀ lv; unfold lv; on_goal 2 => clear_value lv)
    | (extract_lets +onlyGivenNames lv; clear_value lv)
    | split
    | with_reducible apply netOut_keeps
    | (fail_if_no_progress with_reducible apply Keeps.ofFields)

theorem State.cellBist_keeps (s : State) (a1 : ℕ) (a2 : CellBist) (hA : ∀ p, A p) (h : Keeps A d s₀ s) : Keeps A d s₀
    (State.cellBist s a1 a2) := by
  unfold State.cellBist
  repeat' first
    | (with_reducible first
        | intro _ | assumption | apply State.setCells_keeps | apply State.rowRepair_keeps
        | apply State.bistSlice_keeps | apply Keeps.foldl)
    | exact hA _
    | (extract_lets +onlyGivenNames lv; have hlv : Keeps A d s₀ lv; unfold lv; on_goal 2 => clear_value lv)
    | (extract_lets +onlyGivenNames lv; clear_value lv)
    | split
    | with_reducible apply netOut_keeps
    | (fail_if_no_progress with_reducible apply Keeps.ofFields)

theorem execCellReset_keeps (a1 : CellId) (a2 : CellBist) (s : State) (hA : ∀ p, A p) (h : Keeps A d s₀ s) :
    ResultKeeps A d s₀ (execCellReset a1 a2 s) := by
  unfold execCellReset
  repeat' first
    | (with_reducible first
        | intro _ | assumption | apply Result.live_keeps | apply State.cellBist_keeps
        | apply State.resetCell_keeps | apply Keeps.foldl | apply Result.next_keeps)
    | exact hA _
    | (extract_lets +onlyGivenNames lv; have hlv : Keeps A d s₀ lv; unfold lv; on_goal 2 => clear_value lv)
    | (extract_lets +onlyGivenNames lv; clear_value lv)
    | split
    | with_reducible apply netOut_keeps
    | (fail_if_no_progress with_reducible apply Keeps.ofFields)

theorem execPwrWarn_keeps (s : State) (h : Keeps A d s₀ s) : ResultKeeps A d s₀ (execPwrWarn s) := by
  unfold execPwrWarn
  repeat' first
    | (with_reducible first
        | intro _ | assumption | apply State.partialHour_keeps | apply Result.live_keeps | apply Result.next_keeps
        | apply netOut_keeps)
    | (extract_lets +onlyGivenNames lv; have hlv : Keeps A d s₀ lv; unfold lv; on_goal 2 => clear_value lv)
    | (extract_lets +onlyGivenNames lv; clear_value lv) | split | (fail_if_no_progress with_reducible apply Keeps.ofFields)

theorem execRailFault_keeps (a0 : RailCause) (a1 : Fin 8) (s : State) (h : Keeps A d s₀ s) : ResultKeeps A d s₀
    (execRailFault a0 a1 s) := by
  unfold execRailFault
  repeat' first
    | (with_reducible first
        | intro _ | assumption | apply Result.live_keeps | apply Result.next_keeps | apply netOut_keeps)
    | (extract_lets +onlyGivenNames lv; clear_value lv) | split | (fail_if_no_progress with_reducible apply Keeps.ofFields)

/-! ## HostRead -/

theorem State.dmaArrive_keeps (s : State) (a1 : DmaReq) (a2 : Bytes) (hA : ∀ p, A p) (h : Keeps A d s₀ s) : Keeps A d
    s₀ (State.dmaArrive s a1 a2) := by
  unfold State.dmaArrive
  repeat' first
    | (with_reducible first
        | intro _ | assumption | apply State.modPitch_keeps | apply State.ingestArrive_keeps
        | apply State.descResume_keeps | apply Keeps.foldl)
    | exact hA _
    | (extract_lets +onlyGivenNames lv; have hlv : Keeps A d s₀ lv; unfold lv; on_goal 2 => clear_value lv)
    | (extract_lets +onlyGivenNames lv; clear_value lv)
    | split
    | with_reducible apply netOut_keeps
    | (fail_if_no_progress with_reducible apply Keeps.ofFields)

theorem State.dmaRefused_keeps (s : State) (a1 : DmaReq) (hA : ∀ p, A p) (h : Keeps A d s₀ s) : Keeps A d s₀
    (State.dmaRefused s a1) := by
  unfold State.dmaRefused
  repeat' first
    | (with_reducible first
        | intro _ | assumption | apply State.modPitch_keeps | apply State.descResume_keeps | apply Keeps.foldl)
    | exact hA _
    | (extract_lets +onlyGivenNames lv; have hlv : Keeps A d s₀ lv; unfold lv; on_goal 2 => clear_value lv)
    | (extract_lets +onlyGivenNames lv; clear_value lv)
    | split
    | with_reducible apply netOut_keeps
    | (fail_if_no_progress with_reducible apply Keeps.ofFields)

theorem State.dmaResponse_keeps (s : State) (a1 : HostPort) (a2 : ℕ) (a3 : W16) (a4 : Bytes) (hA : ∀ q, A q) (h : Keeps
    A d s₀ s) : Keeps A d s₀ (State.dmaResponse s a1 a2 a3 a4) := by
  unfold State.dmaResponse
  repeat' first
    | (with_reducible first
        | intro _ | assumption | apply State.dmaArrive_keeps | apply State.dmaRefused_keeps | apply netOut_keeps)
    | exact hA _ | (extract_lets +onlyGivenNames lv; have hlv : Keeps A d s₀ lv; unfold lv; on_goal 2 => clear_value lv)
    | split | (fail_if_no_progress with_reducible apply Keeps.ofFields)

theorem execDmaRdResp_keeps (a1 : HostPort) (a2 : ℕ) (a3 : W16) (a4 : Bytes) (s : State) (hA : ∀ p, A p) (h : Keeps A d
    s₀ s) : ResultKeeps A d s₀ (execDmaRdResp a1 a2 a3 a4 s) := by
  unfold execDmaRdResp
  repeat' first
    | (with_reducible first
        | intro _ | assumption | apply Result.live_keeps | apply State.hostIn_keeps
        | apply State.dmaResponse_keeps | apply Keeps.foldl | apply Result.next_keeps)
    | exact hA _
    | (extract_lets +onlyGivenNames lv; have hlv : Keeps A d s₀ lv; unfold lv; on_goal 2 => clear_value lv)
    | (extract_lets +onlyGivenNames lv; clear_value lv)
    | split
    | with_reducible apply netOut_keeps
    | (fail_if_no_progress with_reducible apply Keeps.ofFields)

theorem State.hostMessage_keeps (s : State) (a1 : HostPort) (a2 : Bytes) (hA : ∀ p, A p) (h : Keeps A d s₀ s) : Keeps A
    d s₀ (State.hostMessage s a1 a2) := by
  unfold State.hostMessage
  repeat' first
    | (with_reducible first
        | intro _ | assumption | apply State.hostWrite_keeps | apply State.hostRead_keeps
        | apply State.dmaResponse_keeps | apply State.nakIn_keeps | apply Keeps.foldl)
    | exact hA _
    | (extract_lets +onlyGivenNames lv; have hlv : Keeps A d s₀ lv; unfold lv; on_goal 2 => clear_value lv)
    | (extract_lets +onlyGivenNames lv; clear_value lv)
    | split
    | with_reducible apply netOut_keeps
    | (fail_if_no_progress with_reducible apply Keeps.ofFields)

theorem messagesGo_keeps (a1 : HostPort) (a2 : ℕ) (a3 : Bytes) (s : State) (hA : ∀ q, A q) (h : Keeps A d s₀ s) :
    Keeps A d s₀ (messagesGo a1 a2 a3 s) := by
  induction a2 generalizing a3 s with
  | zero => exact h
  | succ f ih =>
    unfold messagesGo
    dsimp only
    split
    · exact Keeps.ofFields h
    · split
      · exact Keeps.ofFields h
      · exact ih _ _ (State.hostMessage_keeps _ _ _ hA h)

theorem State.flitGood_keeps (s : State) (a1 : HostPort) (a2 : Bytes) (hA : ∀ p, A p) (h : Keeps A d s₀ s) : Keeps A d
    s₀ (State.flitGood s a1 a2) := by
  unfold State.flitGood
  repeat' first
    | (with_reducible first
        | intro _ | assumption | apply messagesGo_keeps | apply State.registerFlit_keeps | apply Keeps.foldl)
    | exact hA _
    | (extract_lets +onlyGivenNames lv; have hlv : Keeps A d s₀ lv; unfold lv; on_goal 2 => clear_value lv)
    | (extract_lets +onlyGivenNames lv; clear_value lv)
    | split
    | with_reducible apply netOut_keeps
    | (fail_if_no_progress with_reducible apply Keeps.ofFields)

theorem execFlitCrcError_keeps (a1 : HostPort) (a2 : Bytes) (s : State) (hA : ∀ p, A p) (h : Keeps A d s₀ s) :
    ResultKeeps A d s₀ (execFlitCrcError a1 a2 s) := by
  unfold execFlitCrcError
  repeat' first
    | (with_reducible first
        | intro _ | assumption | apply Result.live_keeps | apply State.flitGood_keeps
        | apply State.flitNak_keeps | apply Keeps.foldl | apply Result.next_keeps)
    | exact hA _
    | (extract_lets +onlyGivenNames lv; have hlv : Keeps A d s₀ lv; unfold lv; on_goal 2 => clear_value lv)
    | (extract_lets +onlyGivenNames lv; clear_value lv)
    | split
    | with_reducible apply netOut_keeps
    | (fail_if_no_progress with_reducible apply Keeps.ofFields)

/-! ## Secure -/

theorem State.tapLoad_keeps (s : State) (a1 : Byte) (a2 : Bool) (a3 : TapOut) (hA : ∀ p, A p) (hd : d) (h : Keeps A d
    s₀ s) : Keeps A d s₀ (State.tapLoad s a1 a2 a3) := by
  unfold State.tapLoad
  repeat' first
    | (with_reducible first
        | intro _ | assumption | apply State.hostRetrain_keeps | apply State.retime_keeps | apply Keeps.foldl)
    | exact hA _
    | (extract_lets +onlyGivenNames lv; have hlv : Keeps A d s₀ lv; unfold lv; on_goal 2 => clear_value lv)
    | (extract_lets +onlyGivenNames lv; clear_value lv)
    | split
    | with_reducible apply netOut_keeps
    | (fail_if_no_progress with_reducible apply Keeps.ofFields)
    | (fail_if_no_progress with_reducible apply Keeps.ofGuarded hd)

theorem State.tapRun_keeps (s : State) (a1 : Byte) (a2 : State → State) (ha2 : ∀ (x : State), Keeps A d s₀ x → Keeps A d
    s₀ (a2 x)) (hA : ∀ q, A q) (hd : d) (h : Keeps A d s₀ s) : Keeps A d s₀ (State.tapRun s a1 a2) := by
  unfold State.tapRun
  repeat' first | (with_reducible first | intro _ | assumption | apply ha2 | apply State.tapLoad_keeps) | exact hA _ | split

theorem execTapReset_keeps (s : State) (hA : ∀ q, A q) (hd : d) (h : Keeps A d s₀ s) : ResultKeeps A d s₀ (execTapReset s) := by
  unfold execTapReset
  repeat' first
    | (with_reducible first
        | intro _ | assumption | apply State.tapLoad_keeps | apply Result.live_keeps | apply Result.next_keeps)
    | exact hA _

theorem execIdcode_keeps (s : State) (hA : ∀ q, A q) (hd : d) (h : Keeps A d s₀ s) : ResultKeeps A d s₀ (execIdcode s) := by
  unfold execIdcode
  repeat' first
    | (with_reducible first
        | intro _ | assumption | apply State.tapLoad_keeps | apply Result.live_keeps | apply Result.next_keeps)
    | exact hA _

theorem execBypass_keeps (a0 : Byte) (a1 : Bool) (s : State) (hA : ∀ q, A q) (hd : d) (h : Keeps A d s₀ s) : ResultKeeps
    A d s₀ (execBypass a0 a1 s) := by
  unfold execBypass
  repeat' first
    | (with_reducible first
        | intro _ | assumption | apply State.tapLoad_keeps | apply Result.live_keeps | apply Result.next_keeps)
    | exact hA _ | split

theorem State.boundaryScan_keeps (s : State) (a1 : Byte) (hA : ∀ q, A q) (hd : d) (h : Keeps A d s₀ s) : Keeps A d s₀
    (State.boundaryScan s a1) := by
  unfold State.boundaryScan
  repeat' first
    | (with_reducible first
        | intro _ | assumption | apply State.tapRun_keeps | apply State.tapLoad_keeps | apply State.draw_keeps
        | refine State.draw_match_keeps _ ?_ ?_)
    | exact hA _

theorem execExtest_keeps (s : State) (hA : ∀ q, A q) (hd : d) (h : Keeps A d s₀ s) : ResultKeeps A d s₀ (execExtest s) := by
  unfold execExtest
  repeat' first
    | (with_reducible first
        | intro _ | assumption | apply State.boundaryScan_keeps | apply Result.live_keeps | apply Result.next_keeps)
    | exact hA _

theorem execSamplePreload_keeps (s : State) (hA : ∀ q, A q) (hd : d) (h : Keeps A d s₀ s) : ResultKeeps A d s₀
    (execSamplePreload s) := by
  unfold execSamplePreload
  repeat' first
    | (with_reducible first
        | intro _ | assumption | apply State.boundaryScan_keeps | apply Result.live_keeps | apply Result.next_keeps)
    | exact hA _

theorem execTrace_keeps (s : State) (hA : ∀ q, A q) (hd : d) (h : Keeps A d s₀ s) : ResultKeeps A d s₀ (execTrace s) := by
  unfold execTrace
  repeat' first
    | (with_reducible first
        | intro _ | assumption | apply State.tapRun_keeps | apply State.tapLoad_keeps | apply Result.live_keeps
        | apply Result.next_keeps | apply State.draw_keeps | refine State.draw_match_keeps _ ?_ ?_)
    | exact hA _

theorem execTelem_keeps (a0 : ℕ) (a1 : ℕ) (a2 : ℕ) (a3 : ℕ) (a4 : ℕ) (s : State) (hA : ∀ q, A q) (hd : d) (h : Keeps A d
    s₀ s) : ResultKeeps A d s₀ (execTelem a0 a1 a2 a3 a4 s) := by
  unfold execTelem
  repeat' first
    | (with_reducible first
        | intro _ | assumption | apply State.tapRun_keeps | apply State.tapLoad_keeps | apply Result.live_keeps
        | apply Result.next_keeps)
    | exact hA _

theorem State.haltCore_keeps (s : State) (a1 : FwCore) (a2 : HaltAction) (hA : ∀ q, A q) (hd : d) (h : Keeps A d s₀ s) :
    Keeps A d s₀ (State.haltCore s a1 a2) := by
  unfold State.haltCore
  repeat' first
    | (with_reducible first
        | intro _ | assumption | apply State.tapLoad_keeps | apply State.draw_keeps | refine State.draw_match_keeps _ ?_ ?_
        | apply netOut_keeps)
    | exact hA _ | (extract_lets +onlyGivenNames lv; have hlv : Keeps A d s₀ lv; unfold lv; on_goal 2 => clear_value lv)
    | (extract_lets +onlyGivenNames lv; clear_value lv) | split | (fail_if_no_progress with_reducible apply Keeps.ofFields)

theorem execHalt_keeps (a0 : FwCore) (a1 : HaltAction) (s : State) (hA : ∀ q, A q) (hd : d) (h : Keeps A d s₀ s) :
    ResultKeeps A d s₀ (execHalt a0 a1 s) := by
  unfold execHalt
  repeat' first
    | (with_reducible first
        | intro _ | assumption | apply State.tapRun_keeps | apply State.haltCore_keeps | apply Result.live_keeps
        | apply Result.next_keeps)
    | exact hA _

theorem execMemrd_keeps (a0 : DebugMem) (a1 : ℕ) (a2 : ℕ) (s : State) (hA : ∀ q, A q) (hd : d) (h : Keeps A d s₀ s) :
    ResultKeeps A d s₀ (execMemrd a0 a1 a2 s) := by
  unfold execMemrd
  repeat' first
    | (with_reducible first
        | intro _ | assumption | apply State.tapRun_keeps | apply State.tapLoad_keeps | apply Result.live_keeps
        | apply Result.next_keeps | apply State.draw_keeps | refine State.draw_match_keeps _ ?_ ?_)
    | exact hA _

theorem execDbgReset_keeps (a0 : BootEnv) (s : State) (hA : ∀ q, A q) (hd : d) (h : Keeps A d s₀ s) : ResultKeeps A d s₀
    (execDbgReset a0 s) := by
  unfold execDbgReset
  repeat' first
    | (with_reducible first
        | intro _ | assumption | apply State.tapRun_keeps | apply State.warmBoot_keeps | apply Result.live_keeps
        | apply Result.next_keeps)
    | exact hA _

theorem State.securityChange_keeps (s : State) (a1 : ℕ) (hd : d) (h : Keeps A d s₀ s) : Keeps A d s₀
    (State.securityChange s a1) := by
  unfold State.securityChange
  repeat' first
    | (with_reducible first | intro _ | assumption | apply State.deriveAlias_keeps | apply State.logEvent_keeps) | split

theorem State.destroyKeys_keeps (s : State) (hA : ∀ q, A q) (h : Keeps A d s₀ s) : Keeps A d s₀ (State.destroyKeys s) := by
  unfold State.destroyKeys
  repeat' first
    | (with_reducible first | intro _ | assumption | apply State.forPitches_keeps | apply State.modPitch_keeps)
    | exact hA _

theorem State.setLevel_keeps (s : State) (a1 : ℕ) (a2 : Option ℕ) (hA : ∀ q, A q) (hd : d) (h : Keeps A d s₀ s) : Keeps
    A d s₀ (State.setLevel s a1 a2) := by
  unfold State.setLevel
  repeat' first
    | (with_reducible first
        | intro _ | assumption | apply State.destroyKeys_keeps | apply State.tapLoad_keeps
        | apply State.securityChange_keeps | apply netOut_keeps)
    | exact hA _
    | (extract_lets +onlyGivenNames lv; clear_value lv) | split | (fail_if_no_progress with_reducible apply Keeps.ofFields)
    | (fail_if_no_progress with_reducible apply Keeps.ofGuarded hd)

theorem State.debugRecord_keeps (s : State) (a1 : ℕ) (a2 : ℕ) (a3 : ℕ) (a4 : ℕ) (a5 : ℕ) (h : Keeps A d s₀ s) : Keeps A
    d s₀ (State.debugRecord s a1 a2 a3 a4 a5) := by
  unfold State.debugRecord
  repeat' with_reducible first | intro _ | assumption | apply State.logEvent_keeps

theorem State.expireSession_keeps (s : State) (hA : ∀ q, A q) (hd : d) (h : Keeps A d s₀ s) : Keeps A d s₀
    (State.expireSession s) := by
  unfold State.expireSession
  repeat' first
    | (with_reducible first | intro _ | assumption | apply State.debugRecord_keeps | apply State.setLevel_keeps)
    | exact hA _ | split

theorem execDebugTokenExpiry_keeps (s : State) (hA : ∀ q, A q) (hd : d) (h : Keeps A d s₀ s) : ResultKeeps A d s₀
    (execDebugTokenExpiry s) := by
  unfold execDebugTokenExpiry
  repeat' first
    | (with_reducible first
        | intro _ | assumption | apply State.expireSession_keeps | apply Result.live_keeps | apply Result.next_keeps)
    | exact hA _

theorem execDebugNonceExpiry_keeps (s : State) (hd : d) (h : Keeps A d s₀ s) : ResultKeeps A d s₀ (execDebugNonceExpiry s) := by
  unfold execDebugNonceExpiry
  repeat' first
    | (with_reducible first
        | intro _ | assumption | apply Result.live_keeps | apply Result.next_keeps | apply netOut_keeps)
    | (extract_lets +onlyGivenNames lv; clear_value lv) | (fail_if_no_progress with_reducible apply Keeps.ofFields)
    | (fail_if_no_progress with_reducible apply Keeps.ofGuarded hd)

theorem execDbgLevel_keeps (a0 : Fin 3) (s : State) (hA : ∀ q, A q) (hd : d) (h : Keeps A d s₀ s) : ResultKeeps A d s₀
    (execDbgLevel a0 s) := by
  unfold execDbgLevel
  repeat' first
    | (with_reducible first
        | intro _ | assumption | apply State.tapRun_keeps | apply State.setLevel_keeps | apply State.tapLoad_keeps
        | apply Result.live_keeps | apply Result.next_keeps)
    | exact hA _

theorem execProvWrite_keeps (a1 : ProvItem) (s : State) (hA : ∀ p, A p) (hd : d) (h : Keeps A d s₀ s) : ResultKeeps A d
    s₀ (execProvWrite a1 s) := by
  unfold execProvWrite
  repeat' first
    | (with_reducible first
        | intro _ | assumption | apply Result.live_keeps | apply State.tapRun_keeps
        | apply State.tapLoad_keeps | apply State.retime_keeps | apply Keeps.foldl | apply Result.next_keeps)
    | exact hA _
    | (extract_lets +onlyGivenNames lv; have hlv : Keeps A d s₀ lv; unfold lv; on_goal 2 => clear_value lv)
    | (extract_lets +onlyGivenNames lv; clear_value lv)
    | split
    | with_reducible apply netOut_keeps
    | (fail_if_no_progress with_reducible apply Keeps.ofFields)
    | (fail_if_no_progress with_reducible apply Keeps.ofGuarded hd)

theorem execProvSeal_keeps (s : State) (hA : ∀ q, A q) (hd : d) (h : Keeps A d s₀ s) : ResultKeeps A d s₀ (execProvSeal s) := by
  refine Result.live_keeps (fun x hx => State.tapRun_keeps _ _ _ (fun y hy => ?_) hA hd hx) h
  extract_lets +onlyGivenNames s1
  have h1 : Keeps A d s₀ s1 := State.tapLoad_keeps _ _ _ _ hA hd hy
  clear_value s1
  split
  · exact Keeps.ofFuses ⟨fun _ => rfl, id, id, le_refl _, List.prefix_refl _, rfl⟩ hd h1
  · exact h1

theorem State.enterRma_keeps (s : State) (key : Nat) (hA : ∀ q, A q) (hd : d) (h : Keeps A d s₀ s) :
    Keeps A d s₀ (s.enterRma key) := by
  unfold State.enterRma
  extract_lets +onlyGivenNames code bound s1
  have h1 : Keeps A d s₀ s1 := State.logRaw_keeps _ _ _ h
  clear_value s1
  extract_lets +onlyGivenNames f0 s2
  have h2 : Keeps A d s₀ s2 := Keeps.ofFuses ⟨id, fun _ => rfl, fun _ => rfl, le_refl _, List.prefix_refl _, rfl⟩ hd h1
  clear_value s2
  extract_lets +onlyGivenNames s3
  have h3 : Keeps A d s₀ s3 := State.destroyKeys_keeps _ hA (State.setLevel_keeps _ _ _ hA hd h2)
  clear_value s3
  extract_lets +onlyGivenNames c0 s4
  have h4 : Keeps A d s₀ s4 := Keeps.ofGuarded hd h3
  clear_value s4
  extract_lets +onlyGivenNames s5
  have h5 : Keeps A d s₀ s5 := State.securityChange_keeps _ _ hd h4
  refine Keeps.foldl _ (fun y b hy => ?_) h5
  exact State.modPitch_keeps _ _ _ (hA _) (State.faultPitch_keeps _ _ (hA _) hy)

theorem State.grant_keeps (s : State) (s1 : State) (a2 : ℕ) (a3 : ℕ) (a4 : ℕ) (a5 : Option ℕ) (hA : ∀ q, A q) (hd : d)
    (h : Keeps A d s₀ s) (hs1 : Keeps A d s₀ s1) : ActKeeps A d s₀ (State.grant s s1 a2 a3 a4 a5) := by
  unfold State.grant
  repeat' first
    | exact fun _ hx => hx
    | (with_reducible first
        | intro _ | assumption | apply State.debugRecord_keeps | apply State.wake_keeps | apply State.setLevel_keeps
        | apply Act.done_keeps | apply Act.owe_keeps | apply Act.wait_keeps | apply Act.ok_keeps | apply Act.no_keeps)
    | exact hA _ | exact fun _ hx => hx
    | (extract_lets +onlyGivenNames lv; have hlv : Keeps A d s₀ lv; unfold lv; on_goal 2 => clear_value lv)
    | split

theorem unlockBody_keeps (a0 : PitchId) (s : State) (a2 : Cmd) (a3 : HostPort) (a4 : Bytes) (s1 : State) (hA : ∀ q, A q)
    (hd : d) (h : Keeps A d s₀ s) (hs1 : Keeps A d s₀ s1) : ActKeeps A d s₀ (unlockBody a0 s a2 a3 a4 s1) := by
  unfold unlockBody
  repeat' first
    | exact fun _ hx => hx
    | (with_reducible first
        | intro _ | assumption | apply State.expireSession_keeps | apply State.debugRecord_keeps
        | apply State.setLevel_keeps | apply State.grant_keeps | apply State.enterRma_keeps | apply Act.done_keeps
        | apply Act.owe_keeps | apply Act.wait_keeps | apply Act.ok_keeps | apply Act.no_keeps | apply netOut_keeps)
    | exact hA _ | exact fun _ hx => hx
    | (extract_lets +onlyGivenNames lv; have hlv : Keeps A d s₀ lv; unfold lv; on_goal 2 => clear_value lv)
    | (extract_lets +onlyGivenNames lv; clear_value lv) | split | (fail_if_no_progress with_reducible apply Keeps.ofFields)
    | (fail_if_no_progress with_reducible apply Keeps.ofGuarded hd)

theorem execDebugUnlock_keeps (a0 : PitchId) (s : State) (hA : ∀ q, A q) (hd : d) (h : Keeps A d s₀ s) : ResultKeeps A d
    s₀ (execDebugUnlock a0 s) := by
  unfold execDebugUnlock
  repeat' first
    | (with_reducible first
        | intro _ | assumption | apply State.command_keeps | apply unlockBody_keeps | apply Result.live_keeps
        | apply Result.next_keeps)
    | exact hA _

/-! ## Update -/

theorem State.stageChunk_keeps (s : State) (a1 : PitchId) (a2 : ℕ) (a3 : Bytes) (ha1 : A a1) (h : Keeps A d s₀ s) :
    Keeps A d s₀ (State.stageChunk s a1 a2 a3) := by
  unfold State.stageChunk
  repeat' first
    | (with_reducible first
        | intro _ | assumption | apply State.writeDirectory_keeps | apply State.program_keeps
        | apply Keeps.foldl)
    | (extract_lets +onlyGivenNames lv; have hlv : Keeps A d s₀ lv; unfold lv; on_goal 2 => clear_value lv)
    | (extract_lets +onlyGivenNames lv; clear_value lv)
    | split
    | with_reducible apply netOut_keeps
    | (fail_if_no_progress with_reducible apply Keeps.ofFields)

theorem State.stageClose_keeps (s : State) (h : Keeps A d s₀ s) : ActKeeps A d s₀ (State.stageClose s) := by
  unfold State.stageClose
  repeat' first
    | exact fun _ hx => hx
    | (with_reducible first
        | intro _ | assumption | apply State.writeDirectory_keeps | apply Act.done_keeps | apply Act.owe_keeps
        | apply Act.wait_keeps | apply Act.ok_keeps | apply Act.no_keeps | apply netOut_keeps)
    | exact fun _ hx => hx
    | (extract_lets +onlyGivenNames lv; have hlv : Keeps A d s₀ lv; unfold lv; on_goal 2 => clear_value lv)
    | (extract_lets +onlyGivenNames lv; clear_value lv) | split | (fail_if_no_progress with_reducible apply Keeps.ofFields)

theorem stageBody_keeps (a0 : PitchId) (a1 : Cmd) (a2 : HostPort) (a3 : Bytes) (s : State) (ha0 : A a0) (h : Keeps A d
    s₀ s) : ActKeeps A d s₀ (stageBody a0 a1 a2 a3 s) := by
  unfold stageBody
  repeat' first
    | exact fun _ hx => hx
    | (with_reducible first
        | intro _ | assumption | apply State.stageChunk_keeps | apply State.stageClose_keeps | apply Act.done_keeps
        | apply Act.owe_keeps | apply Act.wait_keeps | apply Act.ok_keeps | apply Act.no_keeps)
    | exact fun _ hx => hx
    | (extract_lets +onlyGivenNames lv; have hlv : Keeps A d s₀ lv; unfold lv; on_goal 2 => clear_value lv)
    | split

theorem execFwStage_keeps (a0 : PitchId) (s : State) (hA : ∀ q, A q) (h : Keeps A d s₀ s) : ResultKeeps A d s₀
    (execFwStage a0 s) := by
  unfold execFwStage
  repeat' first
    | (with_reducible first
        | intro _ | assumption | apply State.command_keeps | apply stageBody_keeps | apply Result.live_keeps
        | apply Result.next_keeps)
    | exact hA _

theorem State.endSessions_keeps (s : State) (h : Keeps A d s₀ s) : Keeps A d s₀ (State.endSessions s) := by
  unfold State.endSessions
  repeat' first
    | (with_reducible first | intro _ | assumption | apply netOut_keeps)
    | (extract_lets +onlyGivenNames lv; clear_value lv) | split | (fail_if_no_progress with_reducible apply Keeps.ofFields)

theorem activateBody_keeps (a0 : PitchId) (a1 : Cmd) (a2 : HostPort) (a3 : Bytes) (s : State) (_ha0 : A a0) (h : Keeps A
    d s₀ s) : ActKeeps A d s₀ (activateBody a0 a1 a2 a3 s) := by
  unfold activateBody
  repeat' first
    | exact fun _ hx => hx
    | (with_reducible first
        | intro _ | assumption | apply State.endSessions_keeps | apply Act.done_keeps | apply Act.owe_keeps
        | apply Act.wait_keeps | apply Act.ok_keeps | apply Act.no_keeps | apply netOut_keeps)
    | exact fun _ hx => hx
    | (extract_lets +onlyGivenNames lv; have hlv : Keeps A d s₀ lv; unfold lv; on_goal 2 => clear_value lv)
    | (extract_lets +onlyGivenNames lv; clear_value lv) | split | (fail_if_no_progress with_reducible apply Keeps.ofFields)

theorem execFwActivate_keeps (a0 : PitchId) (s : State) (hA : ∀ q, A q) (h : Keeps A d s₀ s) : ResultKeeps A d s₀
    (execFwActivate a0 s) := by
  unfold execFwActivate
  repeat' first
    | (with_reducible first
        | intro _ | assumption | apply State.command_keeps | apply activateBody_keeps | apply Result.live_keeps
        | apply Result.next_keeps)
    | exact hA _

theorem State.freeze_keeps (s : State) (h : Keeps A d s₀ s) : Keeps A d s₀ (State.freeze s) := by
  unfold State.freeze
  split
  · exact h
  · have hd := State.draw_keeps s h
    revert hd
    generalize s.draw = r
    obtain ⟨k, t⟩ := r
    intro hd
    dsimp only at hd ⊢
    with_reducible apply Keeps.ofFields
    exact hd

theorem State.adopt_keeps (s : State) (a1 : Bool) (hA : ∀ q, A q) (hd : d) (h : Keeps A d s₀ s) : Keeps A d s₀
    (State.adopt s a1) := by
  unfold State.adopt
  repeat' first
    | (with_reducible first
        | intro _ | assumption | apply State.deriveAlias_keeps | apply State.writeDirectory_keeps
        | apply State.runImage_keeps | apply State.setLevel_keeps | apply State.blowRollback_keeps)
    | exact hA _
    | split

theorem State.endHandover_keeps (s : State) (a1 : W32) (a2 : Refuse) (a3 : ℕ) (hA : ∀ q, A q) (h : Keeps A d s₀ s) :
    Keeps A d s₀ (State.endHandover s a1 a2 a3) := by
  unfold State.endHandover
  repeat' first
    | (with_reducible first
        | intro _ | assumption | apply State.forPitches_keeps | apply State.retain_keeps | apply State.answerOwed_keeps
        | apply State.modPitch_keeps | apply State.notice_keeps | apply State.handleMessages_keeps | apply netOut_keeps)
    | exact hA _
    | (extract_lets +onlyGivenNames lv; clear_value lv) | (fail_if_no_progress with_reducible apply Keeps.ofFields)

theorem State.handover_keeps (s : State) (a1 : Bool) (a2 : Bool) (hA : ∀ q, A q) (hd : d) (h : Keeps A d s₀ s) : Keeps A
    d s₀ (State.handover s a1 a2) := by
  unfold State.handover
  repeat' first
    | (with_reducible first
        | intro _ | assumption | apply State.partialHour_keeps | apply State.endHandover_keeps | apply State.adopt_keeps)
    | exact hA _ | (extract_lets +onlyGivenNames lv; have hlv : Keeps A d s₀ lv; unfold lv; on_goal 2 => clear_value lv)
    | (extract_lets +onlyGivenNames lv; clear_value lv) | split

theorem execFwHandover_keeps (a0 : Bool) (a1 : Bool) (s : State) (hA : ∀ q, A q) (hd : d) (h : Keeps A d s₀ s) :
    ResultKeeps A d s₀ (execFwHandover a0 a1 s) := by
  unfold execFwHandover
  repeat' first
    | (with_reducible first
        | intro _ | assumption | apply State.handover_keeps | apply Result.live_keeps | apply Result.next_keeps)
    | exact hA _

/-! ## Epoch -/

theorem State.sample_keeps (s : State) (a1 : List ℤ) (a2 : List ℕ) (h : Keeps A d s₀ s) : Keeps A d s₀ (State.sample s
    a1 a2) := by
  unfold State.sample
  repeat' first
    | (with_reducible first | intro _ | assumption | apply netOut_keeps)
    | (extract_lets +onlyGivenNames lv; clear_value lv) | split | (fail_if_no_progress with_reducible apply Keeps.ofFields)

theorem State.thermTrip_keeps (s : State) (h : Keeps A d s₀ s) : Keeps A d s₀ (State.thermTrip s) := by
  unfold State.thermTrip
  repeat' first
    | (with_reducible first | intro _ | assumption | apply netOut_keeps)
    | (extract_lets +onlyGivenNames lv; clear_value lv) | split | (fail_if_no_progress with_reducible apply Keeps.ofFields)

theorem execThermalSample_keeps (a1 : List ℤ) (a2 : List ℕ) (s : State) (h : Keeps A d s₀ s) : ResultKeeps A d s₀
    (execThermalSample a1 a2 s) := by
  unfold execThermalSample
  repeat' first
    | (with_reducible first
        | intro _ | assumption | apply Result.live_keeps | apply State.thermTrip_keeps
        | apply State.sample_keeps | apply State.advanceTo_keeps | apply Keeps.foldl | apply Result.next_keeps)
    | (extract_lets +onlyGivenNames lv; have hlv : Keeps A d s₀ lv; unfold lv; on_goal 2 => clear_value lv)
    | (extract_lets +onlyGivenNames lv; clear_value lv)
    | split
    | with_reducible apply netOut_keeps
    | (fail_if_no_progress with_reducible apply Keeps.ofFields)

theorem execDroopStretch_keeps (a0 : Fin 16) (a1 : Nat) (s : State) (h : Keeps A d s₀ s) : ResultKeeps A d s₀
    (execDroopStretch a0 a1 s) := by
  refine Result.live_keeps (fun x hx => ?_) h
  extract_lets +onlyGivenNames w high hh
  extract_lets +onlyGivenNames g s1
  have h1 : Keeps A d s₀ s1 := Keeps.ofFields hx
  clear_value s1
  split
  · exact h1
  · exact Keeps.ofFields (State.draw_keeps s1 h1)

theorem State.thermalNotice_keeps (s : State) (a1 : PitchId) (a2 : ℕ) (a3 : ℕ) (a4 : ℕ) (ha1 : A a1) (h : Keeps A d s₀
    s) : Keeps A d s₀ (State.thermalNotice s a1 a2 a3 a4) := by
  unfold State.thermalNotice
  repeat' first
    | (with_reducible first | intro _ | assumption | apply State.modPitch_keeps | apply State.notice_keeps)
    | split

theorem State.marginEpoch_keeps (s : State) (a1 : List ℤ) (h : Keeps A d s₀ s) : Keeps A d s₀ (State.marginEpoch s a1) := by
  unfold State.marginEpoch
  repeat' first
    | (with_reducible first | intro _ | assumption | apply Keeps.foldl | apply netOut_keeps)
    | (extract_lets +onlyGivenNames lv; clear_value lv) | split | (fail_if_no_progress with_reducible apply Keeps.ofFields)

theorem State.thermalEpoch_keeps (s : State) (hA : ∀ p, A p) (h : Keeps A d s₀ s) : Keeps A d s₀ (State.thermalEpoch s)
    := by
  unfold State.thermalEpoch
  repeat' first
    | (with_reducible first
        | intro _ | assumption | apply State.retime_keeps | apply State.logEvent_keeps
        | apply State.forPitches_keeps | apply State.thermalNotice_keeps | apply Keeps.foldl)
    | exact hA _
    | (extract_lets +onlyGivenNames lv; have hlv : Keeps A d s₀ lv; unfold lv; on_goal 2 => clear_value lv)
    | (extract_lets +onlyGivenNames lv; clear_value lv)
    | split
    | with_reducible apply netOut_keeps
    | (fail_if_no_progress with_reducible apply Keeps.ofFields)

theorem State.clockEpoch_keeps (s : State) (h : Keeps A d s₀ s) : Keeps A d s₀ (State.clockEpoch s) := by
  unfold State.clockEpoch
  repeat' first
    | (with_reducible first | intro _ | assumption | apply netOut_keeps)
    | (extract_lets +onlyGivenNames lv; clear_value lv) | split | (fail_if_no_progress with_reducible apply Keeps.ofFields)

theorem State.countEpoch_keeps (s : State) (hd : d) (h : Keeps A d s₀ s) : Keeps A d s₀ (State.countEpoch s) := by
  unfold State.countEpoch
  repeat' first
    | (with_reducible first | intro _ | assumption | apply netOut_keeps)
    | (extract_lets +onlyGivenNames lv; clear_value lv) | split | (fail_if_no_progress with_reducible apply Keeps.ofFields)
    | (fail_if_no_progress with_reducible apply Keeps.ofGuarded hd)

theorem State.epoch_keeps (s : State) (a1 : EpochEnv) (hA : ∀ p, A p) (hd : d) (h : Keeps A d s₀ s) : Keeps A d s₀
    (State.epoch s a1) := by
  unfold State.epoch
  repeat' first
    | (with_reducible first
        | intro _ | assumption | apply State.advanceTo_keeps | apply State.livenessEpoch_keeps
        | apply State.freeze_keeps | apply State.countEpoch_keeps | apply State.clockEpoch_keeps
        | apply State.forPitches_keeps | apply State.modPitch_keeps | apply State.thermalEpoch_keeps
        | apply State.marginEpoch_keeps | apply State.portsEpoch_keeps | apply State.memberBeats_keeps
        | apply Keeps.foldl)
    | exact hA _
    | (extract_lets +onlyGivenNames lv; have hlv : Keeps A d s₀ lv; unfold lv; on_goal 2 => clear_value lv)
    | (extract_lets +onlyGivenNames lv; clear_value lv)
    | split
    | with_reducible apply netOut_keeps
    | (fail_if_no_progress with_reducible apply Keeps.ofFields)
    | (fail_if_no_progress with_reducible apply Keeps.ofGuarded hd)

theorem execMgmtEpoch_keeps (a1 : EpochEnv) (s : State) (hA : ∀ p, A p) (hd : d) (h : Keeps A d s₀ s) : ResultKeeps A d
    s₀ (execMgmtEpoch a1 s) := by
  unfold execMgmtEpoch
  repeat' first
    | (with_reducible first
        | intro _ | assumption | apply Result.live_keeps | apply State.epoch_keeps | apply Keeps.foldl
        | apply Result.next_keeps)
    | exact hA _
    | (extract_lets +onlyGivenNames lv; have hlv : Keeps A d s₀ lv; unfold lv; on_goal 2 => clear_value lv)
    | (extract_lets +onlyGivenNames lv; clear_value lv)
    | split
    | with_reducible apply netOut_keeps
    | (fail_if_no_progress with_reducible apply Keeps.ofFields)
    | (fail_if_no_progress with_reducible apply Keeps.ofGuarded hd)

theorem execDLowExit_keeps (s : State) (hA : ∀ p, A p) (h : Keeps A d s₀ s) : ResultKeeps A d s₀ (execDLowExit s) := by
  unfold execDLowExit
  repeat' first
    | (with_reducible first
        | intro _ | assumption | apply Result.live_keeps | apply State.retime_keeps | apply Keeps.foldl
        | apply Result.next_keeps)
    | exact hA _
    | (extract_lets +onlyGivenNames lv; have hlv : Keeps A d s₀ lv; unfold lv; on_goal 2 => clear_value lv)
    | (extract_lets +onlyGivenNames lv; clear_value lv)
    | split
    | with_reducible apply netOut_keeps
    | (fail_if_no_progress with_reducible apply Keeps.ofFields)

theorem execDRetainEntry_keeps (s : State) (hA : ∀ p, A p) (h : Keeps A d s₀ s) : ResultKeeps A d s₀ (execDRetainEntry
    s) := by
  unfold execDRetainEntry
  repeat' first
    | (with_reducible first
        | intro _ | assumption | apply Result.live_keeps | apply State.setCells_keeps
        | apply State.retime_keeps | apply Keeps.foldl | apply Result.next_keeps)
    | exact hA _
    | (extract_lets +onlyGivenNames lv; have hlv : Keeps A d s₀ lv; unfold lv; on_goal 2 => clear_value lv)
    | (extract_lets +onlyGivenNames lv; clear_value lv)
    | split
    | with_reducible apply netOut_keeps
    | (fail_if_no_progress with_reducible apply Keeps.ofFields)

theorem execCclkDividerChange_keeps (s : State) (hA : ∀ q, A q) (h : Keeps A d s₀ s) : ResultKeeps A d s₀
    (execCclkDividerChange s) := by
  unfold execCclkDividerChange
  repeat' first
    | (with_reducible first
        | intro _ | assumption | apply State.setDivider_keeps | apply State.advanceTo_keeps | apply Result.live_keeps
        | apply Result.next_keeps)
    | exact hA _ | split

/-! ## Keys -/

theorem keyBody_keeps (a0 : PitchId) (a1 : Cmd) (a2 : HostPort) (a3 : Bytes) (s : State) (ha0 : A a0) (h : Keeps A d s₀
    s) : ActKeeps A d s₀ (keyBody a0 a1 a2 a3 s) := by
  unfold keyBody
  repeat' first
    | exact fun _ hx => hx
    | (with_reducible first
        | intro _ | assumption | apply State.setPitch_keeps | apply Act.done_keeps | apply Act.owe_keeps
        | apply Act.wait_keeps | apply Act.ok_keeps | apply Act.no_keeps)
    | exact fun _ hx => hx
    | (extract_lets +onlyGivenNames lv; clear_value lv) | split

theorem execKeyInstall_keeps (a0 : PitchId) (s : State) (hA : ∀ q, A q) (h : Keeps A d s₀ s) : ResultKeeps A d s₀
    (execKeyInstall a0 s) := by
  unfold execKeyInstall
  repeat' first
    | (with_reducible first
        | intro _ | assumption | apply State.command_keeps | apply keyBody_keeps | apply Result.live_keeps
        | apply Result.next_keeps)
    | exact hA _

end Sys2Proof.Machine
end

