-- ==== Sys2Proof/Laws/Answer.lean ====
section
/-! SUPPORT. Sparse tables read back, and what an answer on the mailbox does: the one lemma State.finish_spec says everything a
statement about a mailbox command needs of the response, and State.notice_spec of a notice. -/

namespace Sys2Proof.Machine

/-! ## Sparse tables -/

theorem sfind_sput_self {α : Type} (m : Sparse α) (k : Nat) (x : α) : sfind (sput m k x) k = some x := by
  induction m with
  | nil => simp [sput, sfind]
  | cons e m ih =>
    obtain ⟨j, y⟩ := e
    unfold sput
    split
    · simp [sfind]
    · split
      · simp [sfind]
      · rename_i h
        have h' : j ≠ k := fun e => h e.symm
        simp [sfind, h', ih]

theorem sfind_sput_ne {α : Type} (m : Sparse α) (k i : Nat) (x : α) (h : i ≠ k) : sfind (sput m k x) i = sfind m i := by
  induction m with
  | nil => simp [sput, sfind, Ne.symm h]
  | cons e m ih =>
    obtain ⟨j, y⟩ := e
    unfold sput
    split
    · simp [sfind, Ne.symm h]
    · split
      · rename_i hk
        subst hk
        simp [sfind, Ne.symm h]
      · simp only [sfind, ih]

theorem sfind_sdel_self {α : Type} (m : Sparse α) (k : Nat) : sfind (sdel m k) k = none := by
  induction m with
  | nil => rfl
  | cons e m ih =>
    obtain ⟨j, y⟩ := e
    by_cases h : j = k <;> simp_all [sdel, sfind]

theorem sfind_sdel_ne {α : Type} (m : Sparse α) (k i : Nat) (h : i ≠ k) : sfind (sdel m k) i = sfind m i := by
  induction m with
  | nil => rfl
  | cons e m ih =>
    obtain ⟨j, y⟩ := e
    by_cases hj : j = k
    · subst hj
      simp_all [sdel, sfind, Ne.symm h]
    · by_cases hi : j = i <;> simp_all [sdel, sfind]

theorem sget_sset {α : Type} [DecidableEq α] (m : Sparse α) (k : Nat) (x d : α) : sget (sset m k x d) k d = x := by
  unfold sset sget
  split
  · rename_i h
    simp [sfind_sdel_self, h]
  · simp [sfind_sput_self]

theorem sget_sset_ne {α : Type} [DecidableEq α] (m : Sparse α) (k i : Nat) (x d e : α) (h : i ≠ k) :
    sget (sset m k x d) i e = sget m i e := by
  unfold sset sget
  split
  · rw [sfind_sdel_ne m k i h]
  · rw [sfind_sput_ne m k i x h]

@[simp] theorem Pitch.qptr_setQptr (x : Pitch) (q : Nat) (v : QPtr) : (x.setQptr q v).qptr q = v := sget_sset _ _ _ _
theorem Pitch.qptr_setQptr_ne (x : Pitch) (q r : Nat) (v : QPtr) (h : r ≠ q) : (x.setQptr q v).qptr r = x.qptr r :=
  sget_sset_ne _ _ _ _ _ _ h

@[simp] theorem Pitch.counter_addOne (x : Pitch) (c : PCtr) (n : Nat) : (x.addOne c n).counter c = x.counter c + BitVec.ofNat 64 n :=
  sget_sset _ _ _ _

theorem Pitch.counter_addOne_ne (x : Pitch) (c e : PCtr) (n : Nat) (h : e ≠ c) : (x.addOne c n).counter e = x.counter e :=
  sget_sset_ne _ _ _ _ _ _ (fun k => h (by cases e <;> cases c <;> simp_all [PCtr.ctorIdx]))

/-! ## MailFrame and PitchIs -/

theorem MailFrame.refl (p : PitchId) (s : State) : MailFrame p s s := ⟨rfl, fun _ _ => rfl, fun _ _ => rfl, rfl, fun _ _ => rfl⟩

theorem MailFrame.trans {p : PitchId} {r s t : State} (h : MailFrame p r s) (k : MailFrame p s t) : MailFrame p r t where
  rest := by rw [k.rest, h.rest]
  others q hq := (k.others q hq).trans (h.others q hq)
  images q hq := (k.images q hq).trans (h.images q hq)
  flash := by rw [k.flash, h.flash]
  bytes a ha := (k.bytes a ha).trans (h.bytes a ha)

theorem MailFrame.setPitch (s : State) (p : PitchId) (x : Pitch) : MailFrame p s (s.setPitch p x) :=
  ⟨rfl, fun q hq => State.pitch_setPitch_ne s p q x hq, fun _ _ => rfl, rfl, fun _ _ => rfl⟩

theorem MailFrame.writeResp (s : State) (p : PitchId) (e : Bytes) (he : e.length = 32) : MailFrame p s (s.writeResp p e) := by
  refine ⟨rfl, fun q hq => ?_, fun _ _ => rfl, rfl, fun a ha => ?_⟩
  · exact (State.pitch_setPitch_ne _ p q _ hq).trans rfl
  · show State.byte (State.write _ _ _) a = _
    refine State.byte_write_out s _ a _ ?_
    have hl : ∀ f : Bytes, (e.take 2 ++ leBytes 1 0 ++ e.drop 3).length = 32 := by intro _; simp [he, leBytes]
    have hm := Nat.mod_lt ((s.pitch p).qptr 1).tail.toNat (show 0 < 1024 by decide)
    simp only [List.length_append, List.length_take, List.length_drop, he, leBytes, List.length_cons, List.length_nil]
    omega

theorem PitchIs.refl (p : PitchId) (s : State) : PitchIs p s (s.pitch p) := rfl

/-- A response entry has 32 bytes. -/
theorem length_leBytes (n v : Nat) : (leBytes n v).length = n := by
  induction n generalizing v with
  | zero => rfl
  | succ n ih => simp [leBytes, ih]

theorem length_padTo (n : Nat) (bs : Bytes) : (padTo n bs).length = n := by simp [padTo]; omega

theorem length_responseBytes (x : Pitch) (op : W16) (fl : Nat) (q : W32) (tag : W16) (r : Refuse) (b : Bytes) :
    (responseBytes x op fl q tag r b).length = 32 := by
  simp [responseBytes, length_leBytes, length_padTo]

theorem leNat_leBytes (n v : Nat) : leNat (leBytes n v) = v % 256 ^ n := by
  induction n generalizing v with
  | zero => simp [leBytes, leNat, Nat.mod_one]
  | succ n ih =>
    simp only [leBytes, leNat, ih, BitVec.toNat_ofNat]
    have h : (256 : Nat) ^ (n + 1) = 256 * 256 ^ n := by ring
    rw [h, Nat.mod_mul]

theorem status_responseBytes (x : Pitch) (op : W16) (fl : Nat) (q : W32) (tag : W16) (r : Refuse) (b : Bytes) :
    leAt (responseBytes x op fl q tag r b) 10 2 = r.status % 65536 ∧ leAt (responseBytes x op fl q tag r b) 12 4 = r.detail % 2 ^ 32 := by
  constructor
  · have : cut (responseBytes x op fl q tag r b) 10 2 = leBytes 2 r.status := by
      simp [responseBytes, cut, leBytes, List.append_assoc]
    rw [leAt, this, leNat_leBytes]; rfl
  · have : cut (responseBytes x op fl q tag r b) 12 4 = leBytes 4 r.detail := by
      simp [responseBytes, cut, leBytes, List.append_assoc]
    rw [leAt, this, leNat_leBytes]; rfl

/-! ## Posting a response -/

theorem State.writeResp_pitch (s : State) (p : PitchId) (e : Bytes) :
    (s.writeResp p e).pitch p = (s.pitch p).setQptr 1 { (s.pitch p).qptr 1 with tail := ((s.pitch p).qptr 1).tail + 1 } := by
  simp [State.writeResp]

theorem State.postResponse_spec (s : State) (p : PitchId) (e : Bytes) (he : e.length = 32) :
    MailFrame p s (s.postResponse p e) ∧ PitchIs p (s.postResponse p e) (s.pitch p)
      ∧ ((s.postResponse p e).pitch p).mail.nextSeq = (s.pitch p).mail.nextSeq
      ∧ ((s.postResponse p e).pitch p).mail.cache = (s.pitch p).mail.cache
      ∧ ((s.postResponse p e).pitch p).mail.owed = (s.pitch p).mail.owed
      ∧ ((s.postResponse p e).pitch p).qptr 0 = (s.pitch p).qptr 0 := by
  unfold State.postResponse
  extract_lets +onlyGivenNames x
  split
  · exact ⟨MailFrame.setPitch _ _ _, by simp [PitchIs, x], by simp [x], by simp [x], by simp [x], by simp [x, Pitch.qptr]⟩
  · refine ⟨MailFrame.writeResp s p e he, ?_, ?_, ?_, ?_, ?_⟩
    · simp [PitchIs, State.writeResp_pitch, Pitch.setQptr]
    · simp [State.writeResp_pitch, Pitch.setQptr]
    · simp [State.writeResp_pitch, Pitch.setQptr]
    · simp [State.writeResp_pitch, Pitch.setQptr]
    · rw [State.writeResp_pitch]; exact Pitch.qptr_setQptr_ne _ 1 0 _ (by decide)

/-- The response to one command, and its place in the cache. -/
theorem State.respond_spec (s : State) (p : PitchId) (op : W16) (fl : Nat) (q : W32) (tag : W16) (r : Refuse) (b : Bytes) :
    MailFrame p s (s.respond p op fl q tag r b) ∧ PitchIs p (s.respond p op fl q tag r b) (s.pitch p)
      ∧ ((s.respond p op fl q tag r b).pitch p).mail.nextSeq = (s.pitch p).mail.nextSeq
      ∧ ((s.respond p op fl q tag r b).pitch p).mail.owed = (s.pitch p).mail.owed
      ∧ ((s.respond p op fl q tag r b).pitch p).qptr 0 = (s.pitch p).qptr 0
      ∧ ((s.respond p op fl q tag r b).pitch p).mail.cache.head? = some ⟨q, op, responseBytes (s.pitch p) op fl q tag r b⟩ := by
  unfold State.respond
  extract_lets x e cache
  obtain ⟨h1, h2, h3, h4, h5, h6⟩ := State.postResponse_spec (s.setPitch p { x with mail := { x.mail with cache := cache } }) p e
    (length_responseBytes _ _ _ _ _ _ _)
  refine ⟨(MailFrame.setPitch _ _ _).trans h1, ?_, ?_, ?_, ?_, ?_⟩
  · rw [PitchIs] at h2 ⊢
    rw [h2]
    simp [x]
  · rw [h3]; simp [x]
  · rw [h5]; simp [x]
  · rw [h6]; simp [x, Pitch.qptr]
  · rw [h4]; simp [x, cache, e]

/-- A mirror write changes the mirror and its journal alone. -/
theorem Flash.writeMirror_rest (f : Flash) (v : Vector (Option Retained) 12) :
    f.writeMirror v = { f with mirror := (f.writeMirror v).mirror, journal := (f.writeMirror v).journal,
                               commits := (f.writeMirror v).commits, journaled := (f.writeMirror v).journaled } := by
  unfold Flash.writeMirror Flash.finishMirror
  split <;> rfl

theorem State.retain_spec (s : State) (p : PitchId) :
    MailFrame p s (s.retain p) ∧ (s.retain p).pitch p = s.pitch p := by
  unfold State.retain
  extract_lets +onlyGivenNames x
  split
  · unfold State.setRetained State.program
    split
    · refine ⟨⟨rfl, fun q _ => rfl, fun q hq => ?_, Flash.writeMirror_rest _ _, fun _ _ => rfl⟩, rfl⟩
      have hv : p.val ≠ q.val := fun e => hq (Fin.ext e.symm)
      simp [hv]
    · refine ⟨⟨rfl, fun q _ => rfl, fun q hq => ?_, rfl, fun _ _ => rfl⟩, rfl⟩
      have hv : p.val ≠ q.val := fun e => hq (Fin.ext e.symm)
      simp [hv]
  · exact ⟨MailFrame.refl _ _, rfl⟩

/-- The end of a command: what the response leaves, and what it tells. -/
theorem State.finish_spec (s : State) (p : PitchId) (c : Cmd) (r : Refuse) (b : Bytes) (fl : Nat) :
    MailFrame p s (s.finish p c r b fl) ∧ PitchIs p (s.finish p c r b fl) (s.pitch p)
      ∧ ((s.finish p c r b fl).pitch p).mail.nextSeq = (s.pitch p).mail.countSeq.nextSeq
      ∧ ((s.finish p c r b fl).pitch p).mail.owed = (s.pitch p).mail.owed
      ∧ ((s.finish p c r b fl).pitch p).qptr 0 = (s.pitch p).qptr 0
      ∧ ∃ e, ((s.finish p c r b fl).pitch p).mail.cache.head? = some ⟨c.seq, BitVec.ofNat 16 c.op, e⟩
        ∧ leAt e 10 2 = r.status % 65536 ∧ leAt e 12 4 = r.detail % 2 ^ 32 := by
  unfold State.finish
  extract_lets s1
  obtain ⟨h1, h2, h3, h4, h5, h6⟩ := State.respond_spec s1 p (BitVec.ofNat 16 c.op) fl c.seq c.tag r b
  obtain ⟨k1, k2⟩ := State.retain_spec (s1.respond p (BitVec.ofNat 16 c.op) fl c.seq c.tag r b) p
  have e1 : s1.pitch p = { s.pitch p with mail := (s.pitch p).mail.countSeq } := by simp [s1]
  refine ⟨((MailFrame.setPitch s p _).trans h1).trans k1, ?_, ?_, ?_, ?_, ?_⟩
  · rw [PitchIs] at h2 ⊢
    rw [k2, h2, e1]
  · rw [k2, h3, e1]
  · rw [k2, h4, e1]; rfl
  · rw [k2, h5, e1]; rfl
  · rw [k2]
    exact ⟨_, h6, (status_responseBytes _ _ _ _ _ _ _).1, (status_responseBytes _ _ _ _ _ _ _).2⟩

/-! ## The shared reader -/

theorem Waits.seqCheck {s : State} {p : PitchId} {c : Cmd} (h : c.seq = (s.pitch p).mail.nextSeq) (fl : Nat) : s.seqCheck p c fl = none := by
  simp [State.seqCheck, h]

/-- A command that is ready runs its body on the state with the command taken off the ring. -/
theorem State.command_spec {s : State} {p : PitchId} {k : CmdSpec} {c : Cmd} {bs : Bytes} (h : Ready s p k c bs)
    (body : Cmd → HostPort → Bytes → State → Act) :
    s.command p k body = s.settle p c (s.pitch p).handoverFlag (body c (s.pitch p).cmdPort bs (Taken s p)) := by
  obtain ⟨⟨hw, hop, hseq, hchk, ⟨parts, hf, hb⟩, hr, ha⟩, hl⟩ := h
  unfold State.command
  simp only [hw.head, hop, hw.read, Waits.seqCheck hseq, hchk, hf, hr, hb]
  by_cases hk : k.wakes s p c = true
  · have hd := ha hk
    have hwk : s.wake = s := by simp [State.wake, hd]
    simp [hk, hd, hwk, Taken]
    intro h1 _ h3
    simp [hl h1] at h3
  · simp [hk, Taken]
    intro h1 _ h3
    simp [hl h1] at h3

/-- Taking a command changes only mailbox and queues of its pitch. -/
theorem Taken.spec (s : State) (p : PitchId) : MailFrame p s (Taken s p) ∧ PitchIs p (Taken s p) (s.pitch p) ∧
    ((Taken s p).pitch p).mail.nextSeq = (s.pitch p).mail.nextSeq ∧ ((Taken s p).pitch p).mail.owed = (s.pitch p).mail.owed ∧
    (((Taken s p).pitch p).qptr 0).head = ((s.pitch p).qptr 0).head + 1 := by
  refine ⟨MailFrame.setPitch _ _ _, ?_, ?_, ?_, ?_⟩ <;> simp [Taken, PitchIs, Pitch.popCommand, Pitch.setQptr]
  simp [Pitch.qptr, sget_sset]

end Sys2Proof.Machine
end

