-- ==== Sys2Proof/Laws/Log.lean ====
section
/-! SUPPORT. What an entry of the lifetime log changes. -/

namespace Sys2Proof.Machine

theorem State.logRecord_congr {s t : State} (h : t.health.posSeconds = s.health.posSeconds)
    (k : t.health.bootCount = s.health.bootCount) (m : t.glob.mgmtTick = s.glob.mgmtTick) (type : Nat) (body : Bytes) :
    t.logRecord type body = s.logRecord type body := by simp only [State.logRecord, h, k, m]

/-- An event record changes the log and its counts alone. -/
theorem State.logEvent_spec (s : State) (type : Nat) (body : Bytes) :
    beside (s.logEvent type body) = beside s ∧ Logged type body s (s.logEvent type body) := by
  unfold State.logEvent
  split
  · rename_i h
    have h1 : s.flash.log.length < logRecords := by omega
    exact ⟨by simp [State.logRaw, h1, beside], fun _ => by simp [State.logRaw, h1], fun k => by omega⟩
  · rename_i h
    exact ⟨by simp [beside], fun k => absurd k h, fun _ => ⟨rfl, rfl⟩⟩

/-- The log of a state that agrees in log, clock and counts. -/
theorem Logged.of {type : Nat} {body : Bytes} {m s u : State} (h : Logged type body m u) (hf : m.flash.log = s.flash.log)
    (hh : m.health = s.health) (hg : m.glob = s.glob) : Logged type body s u := by
  have e : m.logRecord type body = s.logRecord type body :=
    State.logRecord_congr (congrArg _ hh) (congrArg _ hh) (congrArg _ hg) type body
  refine ⟨fun k => ?_, fun k => ?_⟩
  · have := h.1 (hf ▸ k)
    rwa [hf, hh, e] at this
  · have := h.2 (hf ▸ k)
    rwa [hf, hh] at this

/-- A record of any type changes the log and its count alone. -/
theorem State.logRaw_spec (s : State) (type : Nat) (body : Bytes) :
    beside (s.logRaw type body) = beside s ∧ s.flash.log <+: (s.logRaw type body).flash.log := by
  unfold State.logRaw
  split <;> simp [beside]

/-- States that agree beside the log agree in everything else. -/
theorem beside_fields {s t : State} (h : beside t = beside s) :
    t.pitches = s.pitches ∧ t.retained = s.retained ∧ t.mem = s.mem ∧ t.erg = s.erg ∧ t.hostPorts = s.hostPorts ∧
    t.netPorts = s.netPorts ∧ t.clusters = s.clusters ∧ t.hostOut = s.hostOut ∧ t.netOut = s.netOut ∧ t.dma = s.dma ∧
    t.dmaTag = s.dmaTag ∧ t.latched = s.latched ∧ t.glob = s.glob ∧ t.fw = s.fw ∧ t.fuses = s.fuses ∧ t.prov = s.prov ∧
    t.sec = s.sec ∧ t.power = s.power ∧ t.ptp = s.ptp ∧ t.tap = s.tap ∧ t.cclk = s.cclk ∧ t.held = s.held ∧ t.free = s.free ∧
    t.pending = s.pending := by
  simp only [beside, State.mk.injEq] at h
  tauto

end Sys2Proof.Machine
end

