-- ==== Sys2Proof/Laws/Pitches.lean ====
section
/-! SUPPORT. What an operation that goes through every pitch changes. -/

namespace Sys2Proof.Machine

/-- Changing pitches changes nothing beside them. -/
theorem State.modPitch_rest (s : State) (p : PitchId) (f : Pitch → Pitch) :
    s.modPitch p f = { s with pitches := (s.modPitch p f).pitches } := rfl

theorem foldl_modPitch (f : PitchId → Pitch → Pitch) (ps : List PitchId) (hn : ps.Nodup) (s : State) :
    (ps.foldl (fun s p => s.modPitch p (f p)) s = { s with pitches := (ps.foldl (fun s p => s.modPitch p (f p)) s).pitches }) ∧
    ∀ q, (ps.foldl (fun s p => s.modPitch p (f p)) s).pitch q = if q ∈ ps then f q (s.pitch q) else s.pitch q := by
  induction ps generalizing s with
  | nil => exact ⟨rfl, fun q => by simp⟩
  | cons p ps ih =>
    obtain ⟨hp, hn⟩ := List.nodup_cons.1 hn
    obtain ⟨h1, h2⟩ := ih hn (s.modPitch p (f p))
    refine ⟨?_, fun q => ?_⟩
    · simp only [List.foldl_cons]
      rw [h1]; rfl
    · simp only [List.foldl_cons, h2, List.mem_cons]
      by_cases hq : q = p
      · subst hq; simp [hp, State.modPitch]
      · by_cases hm : q ∈ ps <;> simp [hq, hm, State.modPitch]

/-- Every pitch changes by its own function, and nothing else does. -/
theorem State.forPitches_modPitch (s : State) (f : PitchId → Pitch → Pitch) :
    (s.forPitches (fun p s => s.modPitch p (f p)) =
      { s with pitches := (s.forPitches (fun p s => s.modPitch p (f p))).pitches }) ∧
    ∀ q, (s.forPitches (fun p s => s.modPitch p (f p))).pitch q = f q (s.pitch q) := by
  obtain ⟨h1, h2⟩ := foldl_modPitch f allPitches (List.nodup_finRange 12) s
  refine ⟨h1, fun q => ?_⟩
  have := h2 q
  simpa [State.forPitches, allPitches, List.mem_finRange] using this

theorem foldl_rel (f : PitchId → State → State) (F : State → State → Prop) (R : PitchId → Pitch → Pitch → Prop)
    (hr : ∀ s, F s s) (ht : ∀ a b c, F a b → F b c → F a c)
    (h : ∀ p s, F s (f p s) ∧ (∀ q, q ≠ p → (f p s).pitch q = s.pitch q) ∧ R p (s.pitch p) ((f p s).pitch p))
    (ps : List PitchId) (hn : ps.Nodup) (s : State) :
    F s (ps.foldl (fun s p => f p s) s) ∧ (∀ q ∈ ps, R q (s.pitch q) ((ps.foldl (fun s p => f p s) s).pitch q)) ∧
    ∀ q, q ∉ ps → (ps.foldl (fun s p => f p s) s).pitch q = s.pitch q := by
  induction ps generalizing s with
  | nil => exact ⟨hr s, by simp, fun _ _ => rfl⟩
  | cons p ps ih =>
    obtain ⟨hp, hn⟩ := List.nodup_cons.1 hn
    obtain ⟨h1, h2, h3⟩ := ih hn (f p s)
    obtain ⟨k1, k2, k3⟩ := h p s
    refine ⟨ht _ _ _ k1 h1, fun q hq => ?_, fun q hq => ?_⟩
    · simp only [List.foldl_cons]
      by_cases e : q = p
      · subst e; rw [h3 q hp]; exact k3
      · have hm : q ∈ ps := by simpa [e] using hq
        have := h2 q hm; rwa [k2 q e] at this
    · simp only [List.mem_cons, not_or] at hq
      simp only [List.foldl_cons]
      rw [h3 q hq.2, k2 q hq.1]

/-- What an operation does to each pitch, going through them all changes each pitch by. -/
theorem State.forPitches_rel (s : State) (f : PitchId → State → State) (F : State → State → Prop) (R : PitchId → Pitch → Pitch → Prop)
    (hr : ∀ s, F s s) (ht : ∀ a b c, F a b → F b c → F a c)
    (h : ∀ p s, F s (f p s) ∧ (∀ q, q ≠ p → (f p s).pitch q = s.pitch q) ∧ R p (s.pitch p) ((f p s).pitch p)) :
    F s (s.forPitches f) ∧ ∀ q, R q (s.pitch q) ((s.forPitches f).pitch q) := by
  obtain ⟨h1, h2, _⟩ := foldl_rel f F R hr ht h allPitches (List.nodup_finRange 12) s
  exact ⟨h1, fun q => h2 q (List.mem_finRange q)⟩

/-- A count leaves the rest of a pitch. -/
theorem Pitch.count_rest (x : Pitch) (c : PCtr) (n : Nat) : x.count c n = { x with counters := (x.count c n).counters } := by
  unfold Pitch.count
  simp only []
  split
  · rfl
  · split
    · rfl
    · split <;> rfl

/-- A pitch but for its timing signature. -/
def SigOnly (x y : Pitch) : Prop := y = { x with tsig := y.tsig, degraded := y.degraded, counters := y.counters }

/-- Computing TSIG again changes the signature, DEGRADED and counters of the pitch. -/
theorem State.retimeOne_spec (s : State) (p : PitchId) :
    s.retimeOne p = { s with pitches := (s.retimeOne p).pitches } ∧ (∀ q, q ≠ p → (s.retimeOne p).pitch q = s.pitch q) ∧
    SigOnly (s.pitch p) ((s.retimeOne p).pitch p) := by
  unfold State.retimeOne SigOnly
  simp only []
  split
  · exact ⟨rfl, fun _ _ => rfl, rfl⟩
  · split
    · exact ⟨rfl, fun _ _ => rfl, rfl⟩
    · refine ⟨rfl, fun q hq => by simp [hq], ?_⟩
      simp only [State.pitch_setPitch]
      rw [Pitch.count_rest]

/-- So it does in every pitch. -/
theorem State.retime_spec (s : State) :
    s.retime = { s with pitches := s.retime.pitches } ∧ ∀ q, SigOnly (s.pitch q) (s.retime.pitch q) :=
  s.forPitches_rel (fun p s => s.retimeOne p) (fun s t => t = { s with pitches := t.pitches }) (fun _ => SigOnly) (fun _ => rfl)
    (fun a b c h k => by rw [k, h]) (fun p s => ⟨(s.retimeOne_spec p).1, (s.retimeOne_spec p).2.1, (s.retimeOne_spec p).2.2⟩)

end Sys2Proof.Machine
end

