-- ==== Sys2Proof/Laws/Boot.lean ====
section
/-! SUPPORT. What the boot of a die with no pitch bound leaves as it was. -/

namespace Sys2Proof.Machine

/-- No pitch is bound. -/
def Blank (s : State) : Prop := ∀ p, s.pitch p = {}

/-- The part of the state that the boot leaves as the reset made it. -/
def bootKey (s : State) :=
  (s.pitches, s.erg, s.hostOut, s.netOut, s.dma, s.dmaTag, s.latched, s.prov, s.tap, s.cclk, s.held, s.free, s.pending,
    s.glob.engineReady, s.glob.resetCause, s.glob.mgmtTick, s.sec.level, s.sec.session, s.sec.rma, s.sec.sealed, s.fuses.sealFuse,
    s.fuses.rma, if s.sec.rma then [] else s.mem)

theorem bootKey_pitches {s t : State} (h : bootKey t = bootKey s) : t.pitches = s.pitches := congrArg Prod.fst h

theorem Blank.of {s t : State} (h : Blank s) (k : bootKey t = bootKey s) : Blank t := fun p => by
  rw [State.pitch_of_pitches s t (bootKey_pitches k)]; exact h p

theorem bootKey_beside {s t : State} (h : beside t = beside s) : bootKey t = bootKey s := by
  have := beside_fields h
  simp only [bootKey]
  rw [this.1]
  simp only [this]

theorem repairNotice_blank (s : State) (p : PitchId) (a b c : Nat) (h : Blank s) : s.repairNotice p a b c = s := by
  simp [State.repairNotice, h p, Pitch.isBound]

theorem foldl_id {α β : Type} (f : β → α → β) (b : β) (xs : List α) (h : ∀ a ∈ xs, f b a = b) : xs.foldl f b = b := by
  induction xs with
  | nil => rfl
  | cons x xs ih => rw [List.foldl_cons, h x (by simp), ih (fun a ha => h a (by simp [ha]))]

theorem repairAll_blank (s : State) (a b c : Nat) (h : Blank s) : s.repairAll a b c = s :=
  foldl_id _ _ _ (fun p _ => repairNotice_blank s p a b c h)

theorem retimeOne_blank (s : State) (p : PitchId) (h : Blank s) : s.retimeOne p = s := by simp [State.retimeOne, h p]

theorem retime_blank (s : State) (h : Blank s) : s.retime = s := foldl_id _ _ _ (fun p _ => retimeOne_blank s p h)

theorem repairFault_blank (s : State) (p : PitchId) (h : Blank s) : s.repairFault p = s := by
  simp [State.repairFault, h p, Pitch.isBound]

theorem boot_health (s : State) (v : Health) : bootKey { s with health := v } = bootKey s := rfl

theorem boot_repairDone (s : State) (h : Blank s) (a b c d e : Nat) : bootKey (s.repairDone a b c d e) = bootKey s := by
  unfold State.repairDone
  extract_lets +onlyGivenNames h1 h2 h3 m
  have hm : bootKey m = bootKey s := (bootKey_beside (State.logEvent_spec _ logRepair _).1).trans (boot_health s h3)
  generalize m = m at hm ⊢
  split
  · rw [repairAll_blank _ _ _ _ (h.of hm), hm]
  · exact (boot_health m _).trans hm

theorem boot_setCluster (s : State) (c : Fin 8) (k : Cluster) : bootKey (s.setCluster c k) = bootKey s := rfl
theorem boot_takeSpare (s : State) (n : Nat) : bootKey (s.takeSpare n) = bootKey s := rfl
theorem boot_holdRepair (s : State) (a b c : Nat) : bootKey (s.holdRepair a b c) = bootKey s := rfl
theorem boot_modPort (s : State) (n : NetPort) (f : NetPortSt → NetPortSt) : bootKey (s.modPort n f) = bootKey s := rfl

theorem boot_retime (s : State) (h : Blank s) : bootKey s.retime = bootKey s := by rw [retime_blank s h]

theorem boot_repairSlice (s : State) (h : Blank s) (c : Fin 8) (k : Nat) : bootKey (s.repairSlice c k) = bootKey s := by
  unfold State.repairSlice
  extract_lets +onlyGivenNames cl mend
  split
  · extract_lets +onlyGivenNames cl2
    have h1 := boot_setCluster s c cl2
    generalize s.setCluster c cl2 = m at h1 ⊢
    have h2 := boot_takeSpare m 1
    generalize m.takeSpare 1 = m2 at h2 ⊢
    have h3 := boot_holdRepair m2 1 (sliceCell c.val k) 0
    generalize m2.holdRepair 1 (sliceCell c.val k) 0 = m3 at h3 ⊢
    rw [boot_repairDone m3 (((h.of h1).of h2).of h3), h3, h2, h1]
  · split
    · extract_lets +onlyGivenNames m
      have hk : bootKey m = bootKey s := boot_repairDone s h (sliceCell c.val k) 1 actExhausted 0 0
      generalize m = m at hk ⊢
      rw [← hk]
      refine congrArg bootKey (foldl_id _ _ _ (fun p _ => ?_))
      simp only []
      split
      · exact repairFault_blank m p (h.of hk)
      · rfl
    · extract_lets +onlyGivenNames cl2
      have h1 := boot_setCluster s c cl2
      generalize s.setCluster c cl2 = m at h1 ⊢
      have h2 := boot_repairDone m (h.of h1) (sliceCell c.val k) 1 actWithdrawn 0 0
      generalize m.repairDone (sliceCell c.val k) 1 actWithdrawn 0 0 = m2 at h2 ⊢
      rw [boot_retime m2 ((h.of h1).of h2), h2, h1]

theorem boot_bistSlice (s : State) (h : Blank s) (c : Fin 8) (k : Nat) : bootKey (s.bistSlice c k) = bootKey s := by
  unfold State.bistSlice
  extract_lets +onlyGivenNames cl
  split
  · exact boot_repairSlice s h c k
  · split
    · have h1 := boot_setCluster s c { cl with spare := none, retired := addNew k cl.retired }
      generalize s.setCluster c _ = m at h1 ⊢
      have h2 := boot_takeSpare m 1
      generalize m.takeSpare 1 = m2 at h2 ⊢
      rw [boot_repairDone m2 ((h.of h1).of h2), h2, h1]
    · rfl

theorem boot_moveServo (s : State) (n : NetPort) : bootKey (s.moveServo n) = bootKey s := by
  unfold State.moveServo
  split
  · rfl
  · extract_lets +onlyGivenNames order; split <;> rfl

theorem boot_setCells (s : State) (cs : List Nat) (v : CellPower) : bootKey (s.setCells cs v) = bootKey s := by
  simp [bootKey, State.setCells]
theorem boot_restGroups (s : State) : bootKey s.restGroups = bootKey s := boot_setCells s _ _

theorem boot_failPort (s : State) (n : NetPort) : bootKey (s.failPort n) = bootKey s :=
  (boot_restGroups _).trans ((boot_moveServo _ _).trans (boot_modPort s n _))

theorem boot_portFallback (s : State) (h : Blank s) (n : NetPort) (j : Fin 9) : bootKey (s.portFallback n j) = bootKey s := by
  unfold State.portFallback
  extract_lets +onlyGivenNames q
  split
  · extract_lets +onlyGivenNames m
    have h1 : bootKey m = bootKey s := boot_modPort s n _
    generalize m = m at h1 ⊢
    have h2 := boot_repairDone m (h.of h1) (72 + n.val) 5 actWithdrawn j.val 0
    generalize m.repairDone (72 + n.val) 5 actWithdrawn j.val 0 = m2 at h2 ⊢
    rw [boot_retime m2 ((h.of h1).of h2), h2, h1]
  · have h1 := boot_repairDone s h (72 + n.val) 5 actExhausted j.val 0
    generalize s.repairDone (72 + n.val) 5 actExhausted j.val 0 = m at h1 ⊢
    exact (boot_failPort m n).trans h1

theorem boot_portRetrain (s : State) (h : Blank s) (n : NetPort) (j : Fin 9) (tx : Bool) :
    bootKey (s.portRetrain n j tx) = bootKey s := by
  unfold State.portRetrain
  extract_lets +onlyGivenNames q m q2 f m2 m3
  have hk : bootKey m = bootKey s := boot_modPort s n _
  have hk2 : bootKey m2 = bootKey m := boot_modPort m n _
  have hk3 : bootKey m3 = bootKey m2 := by
    simp only [m3]; split
    · exact boot_takeSpare m2 5
    · rfl
  split
  · rfl
  · split
    · exact hk
    · split
      · generalize m3 = m3 at hk3 ⊢
        have h4 := boot_holdRepair m3 5 (72 + n.val) j.val
        generalize m3.holdRepair 5 (72 + n.val) j.val = m4 at h4 ⊢
        rw [boot_repairDone m4 ((((h.of hk).of hk2).of hk3).of h4), h4, hk3, hk2, hk]
      · rw [boot_portFallback m (h.of hk), hk]

theorem boot_foldl {α : Type} (f : State → α → State) (h : ∀ s a, Blank s → bootKey (f s a) = bootKey s) (xs : List α) (s : State)
    (hs : Blank s) : bootKey (xs.foldl f s) = bootKey s := by
  induction xs generalizing s with
  | nil => rfl
  | cons x xs ih => rw [List.foldl_cons, ih _ (hs.of (h s x hs)), h s x hs]

/-- Where no pitch is bound, faults for a lost unit change nothing. -/
theorem faults_blank (s : State) (h : Blank s) (c : PitchId → State → Bool) :
    s.forPitches (fun p s => if c p s then s.repairFault p else s) = s :=
  foldl_id _ _ _ (fun p _ => by
    simp only []
    split
    · exact repairFault_blank s p h
    · rfl)

theorem boot_withdrawBank (s : State) (h : Blank s) (cell row : Nat) : bootKey (s.withdrawBank cell row) = bootKey s := by
  unfold State.withdrawBank
  split
  · rfl
  · extract_lets +onlyGivenNames g hh m m2
    have h1 : bootKey m = bootKey s := rfl
    have h2 : bootKey m2 = bootKey m := boot_repairDone m (h.of h1) cell 7 actWithdrawn row 0
    have h3 := faults_blank m2 ((h.of h1).of h2) (fun p s => decide (s.glob.stagingMib < (s.pitch p).binding.stagingOff
      + (s.pitch p).binding.stagingMib))
    simp only [decide_eq_true_eq] at h3
    rw [← h1, ← h2]
    exact congrArg bootKey h3

theorem boot_rowRepair (s : State) (h : Blank s) (m : EccMem) (a : Nat) : bootKey (s.rowRepair m a) = bootKey s := by
  unfold State.rowRepair
  split
  rename_i cell row _
  extract_lets +onlyGivenNames used
  split
  · rfl
  · split
    · have h1 := boot_takeSpare s 7
      generalize s.takeSpare 7 = m1 at h1 ⊢
      have h2 := boot_holdRepair m1 7 cell row
      generalize m1.holdRepair 7 cell row = m2 at h2 ⊢
      rw [boot_repairDone m2 ((h.of h1).of h2), h2, h1]
    · split
      · exact boot_withdrawBank s h cell row
      · extract_lets +onlyGivenNames m1
        have h1 : bootKey m1 = bootKey s := boot_repairDone s h cell 7 actExhausted row 0
        rw [← h1]
        exact congrArg bootKey (faults_blank m1 (h.of h1) (fun p s => s.usesSram m cell p))

theorem boot_peRepair (s : State) (h : Blank s) (c : Fin 8) (k : Nat) : bootKey (s.peRepair c k) = bootKey s := by
  unfold State.peRepair
  extract_lets +onlyGivenNames cl used res left cl2
  have h1 := boot_setCluster s c cl2
  generalize s.setCluster c cl2 = m1 at h1 ⊢
  have h2 := boot_takeSpare m1 res
  generalize m1.takeSpare res = m2 at h2 ⊢
  have h3 := boot_holdRepair m2 res (sliceCell c.val k) (used % 2)
  generalize m2.holdRepair res (sliceCell c.val k) (used % 2) = m3 at h3 ⊢
  rw [boot_repairDone m3 (((h.of h1).of h2).of h3), h3, h2, h1]

theorem boot_bistPe (s : State) (h : Blank s) (c : Fin 8) (k : Nat) : bootKey (s.bistPe c k) = bootKey s := by
  unfold State.bistPe
  split
  · exact boot_peRepair s h c k
  · exact boot_bistSlice s h c k

theorem boot_decoderReplace (s : State) (h : Blank s) (n : NetPort) : bootKey (s.decoderReplace n) = bootKey s := by
  unfold State.decoderReplace
  split
  rename_i cell k _
  extract_lets +onlyGivenNames bad q m users
  have h1 : bootKey m = bootKey s := rfl
  split
  · have h2 := boot_holdRepair m 8 cell (11 * k)
    generalize m.holdRepair 8 cell (11 * k) = m2 at h2 ⊢
    have h3 := boot_takeSpare m2 8
    generalize m2.takeSpare 8 = m3 at h3 ⊢
    rw [boot_repairDone m3 (((h.of h1).of h2).of h3), h3, h2, h1]
  · have h2 := boot_repairDone m (h.of h1) cell 8 actExhausted (11 * k) 0
    generalize m.repairDone cell 8 actExhausted (11 * k) 0 = m2 at h2 ⊢
    rw [← h1, ← h2]
    exact congrArg bootKey (foldl_id _ _ _ (fun p _ => repairFault_blank m2 p ((h.of h1).of h2)))

theorem boot_selfTest (s : State) (h : Blank s) (env : BootEnv) : bootKey (s.selfTest env) = bootKey s := by
  unfold State.selfTest
  extract_lets +onlyGivenNames m1 m2 m3 failed
  have h1 : bootKey m1 = bootKey s := boot_foldl _ (fun s r hs => boot_rowRepair s hs _ _) _ s h
  have h2 : bootKey m2 = bootKey m1 := boot_foldl _ (fun s b hs => boot_bistPe s hs _ _) _ m1 (h.of h1)
  have h3 : bootKey m3 = bootKey m2 := boot_foldl _ (fun s n hs => boot_decoderReplace s hs n) _ m2 ((h.of h1).of h2)
  rw [boot_foldl _ (fun s b hs => boot_bistSlice s hs _ _) _ m3 (((h.of h1).of h2).of h3), h3, h2, h1]

theorem boot_trained (s : State) (p : HostPort) (m : BitVec 4) (r : HostRate) : bootKey (s.trained p m r) = bootKey s := rfl

theorem boot_train (s : State) (h : Blank s) (env : BootEnv) : bootKey (s.train env) = bootKey s := by
  unfold State.train
  extract_lets +onlyGivenNames m m1 m2 m3
  have hk : bootKey m = bootKey s := rfl
  have hk1 : bootKey m1 = bootKey m := boot_foldl _ (fun s p hs => boot_trained s p _ _) _ m (h.of hk)
  have hk2 : bootKey m2 = bootKey m1 := boot_foldl _ (fun s p hs => by
    split
    · rfl
    · exact boot_repairDone s hs _ _ _ _ _) _ m1 ((h.of hk).of hk1)
  have hk3 : bootKey m3 = bootKey m2 := boot_selfTest m2 (((h.of hk).of hk1).of hk2) env
  rw [boot_foldl _ (fun s b hs => boot_portRetrain s hs _ _ _) _ m3 ((((h.of hk).of hk1).of hk2).of hk3), hk3, hk2, hk1, hk]

theorem boot_fuses (s : State) (v : List (Nat × Nat × Nat)) (w : Health) :
    bootKey { s with fuses := { s.fuses with repairEntries := v }, health := w } = bootKey s := rfl

theorem boot_fuseRepair (s : State) (h : Blank s) (r : Repair) : bootKey (s.fuseRepair r) = bootKey s := by
  unfold State.fuseRepair
  split
  · rfl
  · have hk := boot_fuses s (s.fuses.repairEntries ++ [(r.resource, r.cell, r.unit)])
      { s.health with repairs := s.health.repairs.erase r }
    simp only []
    generalize State.mk .. = m at hk ⊢
    rw [boot_repairDone m (h.of hk), hk]

theorem boot_fuseRepairs (s : State) (h : Blank s) : bootKey s.fuseRepairs = bootKey s := by
  unfold State.fuseRepairs
  split
  · rfl
  · exact boot_foldl _ (fun s r hs => boot_fuseRepair s hs r) _ s h

theorem boot_logEvent (s : State) (type : Nat) (body : Bytes) : bootKey (s.logEvent type body) = bootKey s :=
  bootKey_beside (s.logEvent_spec type body).1

theorem boot_bootRecord (s : State) : bootKey s.bootRecord = bootKey s := by
  unfold State.bootRecord
  split
  extract_lets +onlyGivenNames m
  have hk : bootKey m = bootKey s := boot_logEvent s _ _
  generalize m = m at hk ⊢
  exact (show bootKey _ = bootKey m from rfl).trans hk

theorem boot_readDirectory (s : State) (env : BootEnv) : bootKey (s.readDirectory env) = bootKey s := by
  unfold State.readDirectory
  simp only []
  split
  · rfl
  · exact (boot_logEvent _ _ _).trans rfl

theorem boot_deriveAlias (s : State) : bootKey s.deriveAlias = bootKey s := by unfold State.deriveAlias; split <;> rfl
theorem boot_identity (s : State) : bootKey s.identity = bootKey s := by
  unfold State.identity
  split
  · rfl
  · exact boot_deriveAlias _

theorem boot_fw (s : State) (v : Firmware) : bootKey { s with fw := v } = bootKey s := rfl

theorem boot_setHolder (s : State) (c : Option SchCore) (t : W32) : bootKey (s.setHolder c t) = bootKey s := by
  unfold State.setHolder
  simp only []
  split
  · exact boot_fw s _
  · exact (boot_logEvent _ _ _).trans (boot_fw s _)

theorem boot_acquire (s : State) (c : SchCore) : bootKey (s.acquire c) = bootKey s := by
  unfold State.acquire
  split
  · exact boot_setHolder s _ _
  · rfl

theorem boot_loadRetained (s : State) (h : Blank s) (bad : BitVec 12) : bootKey (s.loadRetained bad) = bootKey s := by
  unfold State.loadRetained
  split
  · rename_i hr
    simp [bootKey, hr, State.setRetained]
  · exact boot_foldl _ (fun s p hs => by
      split
      · exact (boot_logEvent _ _ _).trans rfl
      · rfl) _ s h

theorem boot_stage (s : State) (n : Nat) : bootKey (s.stage n) = bootKey s := rfl
theorem boot_bootStop (s : State) (n c : Nat) : bootKey (s.bootStop n c) = bootKey s := rfl
theorem boot_runImage (s : State) (b : Bool) : bootKey (s.runImage b) = bootKey s := rfl
theorem boot_settleBank (s : State) (b : Bool) : bootKey (s.settleBank b) = bootKey s := by
  unfold State.settleBank; split <;> rfl

theorem boot_release (s : State) (h : Blank s) (env : BootEnv) : bootKey (s.release env) = bootKey s := by
  unfold State.release
  split
  · rw [boot_bootRecord, boot_bootStop]
  · rw [boot_stage, boot_loadRetained _ (h.of (boot_acquire s .a)), boot_acquire]

theorem boot_bootImage (s : State) (h : Blank s) (env : BootEnv) : bootKey (s.bootImage env) = bootKey s := by
  unfold State.bootImage
  split
  · rfl
  · extract_lets +onlyGivenNames m
    have hk : bootKey m = bootKey s := (boot_readDirectory _ _).trans (boot_stage s 4)
    split
    · rw [boot_bootRecord, boot_bootStop, hk]
    · extract_lets +onlyGivenNames m2
      have hk2 : bootKey m2 = bootKey m := (boot_settleBank _ _).trans ((boot_runImage _ _).trans (boot_bootStop _ _ _))
      have hk3 : bootKey (m2.identity.stage 6) = bootKey m2 := (boot_stage _ _).trans (boot_identity m2)
      rw [boot_release _ (((h.of hk).of hk2).of hk3), hk3, hk2, hk]

/-- The boot after a reset changes no pitch, and none of the state that the reset has just set but the boot's own registers. -/
theorem boot_bootStages (s : State) (h : Blank s) (warm : Bool) (env : BootEnv) : bootKey (s.bootStages warm env) = bootKey s := by
  unfold State.bootStages
  split
  · rfl
  · extract_lets +onlyGivenNames m
    have hk : bootKey m = bootKey s := by
      refine (boot_stage _ 2).trans ?_
      split
      · rfl
      · exact boot_fuseRepairs s h
    split
    · exact (boot_bootStop m 3 2).trans hk
    · have hk2 : bootKey (m.stage 3) = bootKey m := boot_stage m 3
      have hk3 := boot_train (m.stage 3) ((h.of hk).of hk2) env
      rw [boot_bootImage _ (((h.of hk).of hk2).of hk3), hk3, hk2, hk]

end Sys2Proof.Machine
end

