-- ==== Sys2Proof/Tests/Slice0.lean ====
section
/-! SUPPORT. The model's own tests: an ill-formed term for each check of WellFormed, worked examples and tables of the spec, one small
step of some commands, and for the statements with hypotheses a concrete state that meets them. -/

open Sys2Proof Sys2Proof.Machine Sys2Proof.Claims

namespace Sys2Proof.Tests

set_option maxRecDepth 20000
set_option Elab.async false

/-! ## Well-formed commands: one ill-formed term for each check -/

/-- A frame of n zero bytes on port 0. -/
def rxOfSize (n : Nat) : Rx := ⟨0, List.replicate n 0, false⟩

theorem test_wf_flit_entries : (Instr.registerWrite 0 (List.replicate 16 ⟨0, 0, 0⟩)).wellFormed = false ∧
    (Instr.registerWrite 0 (List.replicate 15 ⟨0, 0, 0⟩)).wellFormed = true := by decide
theorem test_wf_write_length : (Instr.memWr 0 0 []).wellFormed = false ∧ (Instr.memWr 0 0 [1]).wellFormed = true := by decide
theorem test_wf_read_length : (Instr.memRd 0 0 0 0).wellFormed = false ∧ (Instr.memRd 0 0 0 4097).wellFormed = false ∧
    (Instr.memRd 0 0 0 4096).wellFormed = true := by decide
theorem test_wf_status : (Instr.dmaRdResp 0 3 0 []).wellFormed = false ∧ (Instr.dmaRdResp 0 2 0 []).wellFormed = true := by decide
theorem test_wf_flit_size : (Instr.flitCrcError 0 (List.replicate 255 0)).wellFormed = false := by decide +kernel
theorem test_wf_sensors : (Instr.thermalSample (List.replicate 39 0) (List.replicate 16 0)).wellFormed = false ∧
    (Instr.thermalSample (List.replicate 40 0) (List.replicate 15 0)).wellFormed = false := by decide
theorem test_wf_epoch : (Instr.mgmtEpoch { slack := [30] }).wellFormed = false ∧
    (Instr.mgmtEpoch { corrected := List.replicate 18 0 }).wellFormed = false := by decide
theorem test_wf_segment : (Instr.hbmSegmentRemap 0 192).wellFormed = false ∧ (Instr.hbmSegmentRemap 0 191).wellFormed = true := by decide
theorem test_wf_provisioning : (Instr.provWrite (.raw 1048576 [0])).wellFormed = false ∧
    (Instr.provWrite (.raw 1048575 [0])).wellFormed = true := by decide
theorem test_wf_frame : (Instr.ack (rxOfSize 17)).wellFormed = false ∧ (Instr.ack (rxOfSize 18)).wellFormed = true := by decide

/-! ## Worked examples of the spec -/

/-- The nine ASCII bytes "123456789". -/
def digits : Bytes := [0x31, 0x32, 0x33, 0x34, 0x35, 0x36, 0x37, 0x38, 0x39]

/-- The check values of 09 (R208) and 16 (R350). -/
theorem test_crc_check_values : crc32c digits = 0xE3069283 ∧ crc64 digits = 0x995DC9BBDF1939FA := by decide +kernel

/-- The example of 13: key words 1 to 4, counter words 5, 0, 7 and 0x0001_0003. -/
theorem test_sandgrain_vector : leBytes 16 (sandgrain [1, 2, 3, 4] [5, 0, 7, 0x00010003]) =
    [0x5C, 0xD5, 0x73, 0x3C, 0x81, 0xF1, 0xAB, 0x2D, 0x0D, 0x02, 0x9A, 0xFA, 0x26, 0xFA, 0x09, 0x21] := by decide +kernel

/-- Element 42 of the same example (13): rnd16 of half-word 2. -/
theorem test_sandgrain_element : sandgrain16 0x00000004000000030000000200000001 0 1 42 7 3 = 0xF181 := by decide +kernel

/-- The INT8 example of 04 after R93: E = −1, v = 0x3E99_999A. -/
theorem test_quantise_int8 : (quantise 0x0A (-1) .rne 0 (val32 0x3E99999A)).code = 38 ∧
    (quantise 0x0A (-1) .rtz 0 (val32 0x3E99999A)).code = 38 ∧
    (quantise 0x0A (-1) .sr 0x9A00 (val32 0x3E99999A)).code = 39 ∧
    (quantise 0x0A (-1) .sr 0x1234 (val32 0x3E99999A)).code = 38 := by decide +kernel

/-- The RES2x16 example of 05: the word 0xB8CD_3DCD. -/
theorem test_residual_pair : (resEncode 0 (val32 0x3DCCCCCD)).1 = 0xB8CD3DCD := by decide +kernel

/-- 15: ord(0x3F80) = 0xBF80. -/
theorem test_ordered_integer : ordOf 0x3F80 = 0xBF80 ∧ unordOf 0xBF80 = 0x3F80 := by decide

/-- The tree of 300 ranks of 10. -/
theorem test_tree : treeParent 289 = 288 ∧ treeParent 288 = 256 ∧ treeParent 256 = 0 ∧
    treeChildren 300 256 = (List.range 15).map (· + 257) ++ [272, 288] := by decide +kernel

/-- The two IVs of the example of 12. -/
theorem test_frame_iv : frameIv 4 9 true 1000 = [0, 4, 0, 9, 0, 0, 0, 0, 0, 0, 3, 0xE8] ∧
    frameIv 9 4 false 17 = [0, 9, 0, 4, 0, 1, 0, 0, 0, 0, 0, 0x11] := by decide +kernel

/-- The rate example of 11: 240,000 Mb/s falls to 200,000 and rises to 202,000. -/
theorem test_rate_update :
    (({ rate := 240000, baseRtt := [some 7500] } : Channel).rateUpdate 21000 0).1.rate = 200000 ∧
    (({ rate := 200000, baseRtt := [some 7500] } : Channel).rateUpdate 16500 0).1.rate = 202000 := by decide

/-- The class counts and lengths of the example of 09. -/
theorem test_class_lengths : (buildLengths [40000, 12000, 8000, 3000, 1500, 700, 250, 60, 25] 8).take 9 =
    [1, 3, 4, 5, 6, 7, 9, 11, 12] := by decide +kernel

/-- Block 7 of that example. -/
def block7 : Stream :=
  ⟨kindContrib, 0x0A, 64, false, 7, 0x7F, 12, List.range 64, [3, 0xFF, 0, 0, 0, 12] ++ List.replicate 58 0, false⟩

/-- Its stream, byte by byte (09). -/
theorem test_class_stream : (encodeStream block7 (some (buildLengths [40000, 12000, 8000, 3000, 1500, 700, 250, 60, 25] 8))).1 =
    [0x11, 0x0A, 0x01, 0x04, 0x7F, 0x00, 0x52, 0x00, 0x07, 0x00, 0x00, 0x00, 0x0C, 0x00, 0x00, 0x00,
     0x31, 0x54, 0x76, 0xB9, 0x0C, 0, 0, 0, 0, 0, 0, 0, 0, 0, 0, 0,
     0xCD, 0xA0, 0x87, 0, 0, 0, 0, 0, 0, 0, 0, 0, 0, 0, 0, 0] := by decide +kernel

/-- The index section of the example of 07: offsets 3, 4, 20 and 200 of 256. -/
theorem test_index_list : bytesOfBits (indexSection 256 [3, 4, 20, 200]).1 = [0x03, 0xFF, 0xF0, 0xB3] ∧
    (indexSection 256 [3, 4, 20, 200]).2 = false := by decide +kernel

/-- The THRESH target of the example of 07. -/
theorem test_thresh_target : threshTarget 65536 655 = 655 := by decide

/-! ## Memory-model outcomes of 21 R460 -/

/-- An operation of a core: a shared-SRAM store, load and FENCE, a Flag RAM store and load. -/
inductive MemOp
  | st (a : Nat) (v : W32) | ld (a : Nat) | fence | fst (a : Nat) (v : W32) | fld (a : Nat)

/-- One operation: the memory after it, and what a load gave. -/
def MemOp.run (m : SharedMem) (c : FwCore) : MemOp → SharedMem × List Nat
  | .st a v => (m.store c a v, [])
  | .ld a => (m, [((m.load c a).getD 9).toNat])
  | .fence => (m.fence c, [])
  | .fst a v => (m.flagStore c a v, [])
  | .fld a => let r := m.flagLoad c a; (r.1, [(r.2.getD 9).toNat])

/-- Every outcome of the cores' programs, with buffered stores draining at any time: the loads in program order, core by core. -/
def memOutcomes : Nat → SharedMem → List (FwCore × List MemOp × List Nat) → List (List Nat)
  | 0, _, _ => []
  | n + 1, m, ts =>
    if ts.all (fun t => t.2.1.isEmpty) then [ts.flatMap (fun t => t.2.2)]
    else (List.range ts.length).flatMap (fun i =>
      match ts[i]? with
      | none => []
      | some (c, ops, got) =>
        (match ops with
          | [] => []
          | o :: rest => let r := o.run m c; memOutcomes n r.1 (ts.set i (c, rest, got ++ r.2))) ++
        (if m.stores.any (fun e => e.1 = c) then memOutcomes n (m.drain c) ts else []))

/-- Words x = 0 and y = 1, and the same two of Flag RAM, all 0. -/
def zeroWords : SharedMem := { flag := [(0, 0), (1, 0)], sram := [(0, 0), (1, 0)] }

/-- An outcome of programs of the cluster cores 0, 1, 2 ... from words of 0. -/
def mayGive (programs : List (List MemOp)) (out : List Nat) : Bool :=
  (memOutcomes 13 zeroWords (programs.zipIdx.map (fun e => (.cc (Fin.ofNat 8 e.2), e.1, [])))).contains out

/-- Store buffering: allowed in shared SRAM, forbidden with FENCE and in Flag RAM. -/
theorem test_store_buffering : mayGive [[.st 0 1, .ld 1], [.st 1 1, .ld 0]] [0, 0] = true ∧
    mayGive [[.st 0 1, .fence, .ld 1], [.st 1 1, .fence, .ld 0]] [0, 0] = false ∧
    mayGive [[.fst 0 1, .fld 1], [.fst 1 1, .fld 0]] [0, 0] = false := by decide +kernel

/-- Forwarding: allowed in shared SRAM, forbidden with FENCE. -/
theorem test_forwarding : mayGive [[.st 0 1, .ld 0, .ld 1], [.st 1 1, .ld 1, .ld 0]] [1, 0, 1, 0] = true ∧
    mayGive [[.st 0 1, .fence, .ld 0, .ld 1], [.st 1 1, .fence, .ld 1, .ld 0]] [1, 0, 1, 0] = false := by decide +kernel

/-- Message passing and load buffering: forbidden. -/
theorem test_message_passing : mayGive [[.st 0 1, .st 1 1], [.ld 1, .ld 0]] [1, 0] = false ∧
    mayGive [[.st 0 1, .st 1 1], [.ld 1, .ld 0]] [1, 1] = true ∧
    mayGive [[.ld 0, .st 1 1], [.ld 1, .st 0 1]] [1, 1] = false := by decide +kernel

/-- Independent reads: forbidden. -/
theorem test_independent_reads : mayGive [[.st 0 1], [.st 1 1], [.ld 0, .ld 1], [.ld 1, .ld 0]] [1, 0, 1, 0] = false := by
  decide +kernel

/-- The Mixed row: data in shared SRAM, the signal in Flag RAM. -/
theorem test_mixed : mayGive [[.st 0 1, .fst 0 1], [.fld 0, .ld 0]] [1, 0] = false ∧
    mayGive [[.st 0 1, .fst 0 1], [.fld 0, .ld 0]] [1, 1] = true := by decide +kernel
/-! ## States -/

/-- An engine that is ready, with its links up. -/
def up : State := { State.reset with
  glob := { engineReady := true, bootStage := 9 }, hostPorts := Vector.replicate 8 {}, netPorts := Vector.replicate 17 {} }

/-- That engine with pitch 0 as x. -/
def one (x : Pitch) : State := up.setPitch 0 x

/-- A pitch bound to host port 0 with 2 MiB of staging and 256 MiB of HBM. -/
def boundPitch : Pitch :=
  { mode := .bound, binding := { ports := 1, stagingMib := 2, stagingOff := 0, regions := [(hbmBase, 0x10000000)] } }

/-- A pitch whose step is ACTIVE. -/
def running : Pitch := { boundPitch with mode := .running, time := { state := .active, step := 7 } }

/-- Whether a command answers a next state with a property. -/
def after (o : Host.Outcome State Fault Refusal) (f : State → Bool) : Bool :=
  match o with
  | .next t => f t
  | _ => false

/-! ## The whole block -/

theorem witness_front : ({ up with pending := [.hourRecord, .pwrWarn] } : State).pending = .hourRecord :: [.pwrWarn] := rfl
theorem witness_empty_queue : up.pending = [] ∧ up.held = false ∧ 4 ≤ up.glob.bootStage ∧ ∀ h : HostPort, up.hostPorts[h].txPart = [] := by
  decide
theorem witness_step_next : up.Inv ∧ ∃ t, step up = .next t := ⟨by unfold State.Inv; decide, _, rfl⟩
theorem witness_unguarded : movesGuarded (.stepSet 0 0 1) = false ∧ ∃ t, exec (.stepSet 0 0 1) up = .next t := ⟨rfl, _, rfl⟩
theorem witness_own_pitch : ownPitch (.stepSet 0 3 1) = some 3 ∧ ∃ t, exec (.stepSet 0 3 1) up = .next t := ⟨rfl, _, rfl⟩
theorem witness_held : ({ up with held := true } : State).held = true ∧ (∀ env, Instr.hourRecord ≠ .powerOnReset env) ∧
    (∀ cause rail, Instr.hourRecord ≠ .railFault cause rail) := ⟨rfl, by simp, by simp⟩

/-- Before ENGINE_READY a doorbell is latched; after it, it acts (02 R54). -/
theorem test_latched : after (exec (.dbCtrl 0 0 0x10000) { up with glob := { up.glob with engineReady := false } })
    (fun t => t.latched = [⟨0, 0, 0, 0x10000⟩]) = true := by decide +kernel

/-! ## Lease, cores and schedule writes -/

/-- Scheduler core A is HOLDER with TERM 5. -/
def led : State := { up with fw := { up.fw with lease := { term := 5, holder := some .a } } }

theorem witness_acquire : up.held = false ∧ up.coreRuns (.sch .a) = true ∧ up.fw.lease.holder = none ∧ up.fw.lease.frozen = false := by
  decide +kernel
theorem witness_holder : led.coreRuns (.sch .a) = true ∧ led.fw.lease.holder = some .a ∧ led.fw.lease.frozen = false := by decide +kernel
theorem witness_expiry : let s := { led with fw := { led.fw with lease := { led.fw.lease with renewAge := 4 } } }
    s.fw.lease.holder = some .a ∧ 4 ≤ s.fw.lease.renewAge ∧ s.fw.lease.frozen = false := by decide
theorem witness_halt : (FwCore.cc 2) ≠ .sec ∧ FwCore.cc 2 ≠ .pwr ∧ ∀ w, (FwCore.cc 2, w) ∉ up.fw.halted :=
  ⟨by decide, by decide, fun _ => List.not_mem_nil⟩
theorem witness_restart : ({ led with fw := { led.fw with halted := [(.sch .a, 3)] } } : State).fw.halted = [(.sch .a, 3)] := rfl
theorem witness_takeover : led.coreRuns (.sch .a) = true ∧ led.fw.lease.holder = some .a ∧
    4 ≤ ({ led with fw := { led.fw with stillB := 4 } } : State).fw.stillB := by decide +kernel
theorem witness_exception_read : sget ({ up with fw := { up.fw with excUnread := [(0, 1)] } } : State).fw.excUnread 0 0 = 0 + 1 := by decide
theorem witness_log_body : (leBytes 4 5 ++ [0, 1] : Bytes).length ≤ 36 := by decide
theorem witness_not_leader : ¬ (led.coreRuns (.sch .b) = true ∧ led.fw.lease.holder = some .b ∧ led.fw.lease.term = 5) := by
  decide +kernel
theorem witness_in_use : InUse (one running) 0 ∧ ((one { running with plan := running.plan.set 3 2 }).pitch 0).plan[3].getLsbD 1 = true :=
  ⟨Or.inl (by decide), by decide⟩
theorem witness_schedule : let s := led.setPitch 0 boundPitch
    s.held = false ∧ s.coreRuns (.sch .a) = true ∧ s.fw.lease.holder = some .a ∧ ¬ InUse s 0 ∧ ¬ InUse s 1 ∧
    0 ≤ (s.pitch 0).pegs.length := by unfold InUse; decide +kernel

/-- ACQUIRE of a free lease: TERM rises by one (21 R455). -/
theorem test_acquire : after (exec (.acquire .b) up) (fun t => t.fw.lease.term = 1 && t.fw.lease.holder = some .b) = true := by
  decide +kernel

/-! ## Resets, boot and power -/

theorem witness_warm_reset : up.held = false ∧ (999 : Nat) < 1000 ∧ (1000 : Nat) ≤ 1000 := by decide
theorem witness_dbg_reset : ({ up with sec := { up.sec with level := 2 } } : State).sec.level = 2 := rfl
theorem witness_engine_ready : let s := { up with glob := { up.glob with engineReady := false, bootStage := 8 } }
    s.held = false ∧ s.glob.engineReady = false ∧ s.glob.bootStage = 8 ∧ s.latched = [] ∧ s.health.untold = [] ∧
    ∀ n : NetPort, s.netPorts[n].failed = false := by decide
theorem witness_no_engine_ready : up.glob.engineReady = true ∨ up.glob.bootStage ≠ 8 := by decide
theorem witness_journal : ({ up with flash := { up.flash with journal := .complete } } : State).flash.journal = .complete := rfl
theorem witness_rail : ¬ (RailCause.pwrgoodFell = .outOfRange ∧ (0 : Fin 8) = 0) := by decide
theorem witness_cell_reset : let s := { up with power := { up.power with cells := up.power.cells.set 72 .off } }
    s.power.cells[72] = .off ∧ 72 ∈ s.neededCells ∧ 72 ≤ 72 ∧ up.power.cells[72] ≠ .off := by decide +kernel
theorem witness_d_low_exit : let s := { up with power := { up.power with device := 1, clearEpochs := 16 } }
    s.power.device = 1 ∧ s.power.callLow = false ∧ 16 ≤ s.power.clearEpochs := by decide
theorem witness_d_retain : let s := { up with power := { up.power with idleEpochs := 64 }, prov := { up.prov with retainEn := true } }
    s.prov.retainEn = true ∧ 64 ≤ s.power.idleEpochs ∧ s.idleNow = true := by decide +kernel
theorem witness_divider : let s := { up with power := { up.power with device := 1 } }
    s.power.divider ≠ s.dividerDue := by decide +kernel

/-- A WRST_N pulse of 999 ns does nothing (02 R39). -/
theorem test_short_reset : after (exec (.warmReset {} 999) up) (fun t => t.glob.engineReady) = true := by decide +kernel

theorem witness_thermal : (Instr.thermalSample (List.replicate 40 480) (List.replicate 16 0)).wellFormed ∧ 4 ≤ up.glob.bootStage ∧
    up.power.temps.length = 40 := by decide
theorem witness_hour : let s := { up with health := { up.health with posSeconds := 3600 } }
    s.health.hour.start + 3600 ≤ s.health.posSeconds ∧ s.flash.log.length < 131072 := by decide
theorem witness_epoch_stopped : State.reset.glob.bootStage < 4 := by decide

/-- 480 quarter degrees is 120 °C: the die runs on; one quarter more holds it (23 R475). -/
theorem test_thermtrip : after (exec (.thermalSample (List.replicate 40 480) (List.replicate 16 0)) up) (fun t => !t.held) = true ∧
    after (exec (.thermalSample (List.replicate 40 481) (List.replicate 16 0)) up) (fun t => t.held && t.power.thermtrip) = true := by
  decide +kernel
/-! ## The mailbox -/

/-- A command entry: opcode, SEQ, payload length and address, RESP_ADDR and ARGS (18 R378). -/
def entryOf (op seq payLen payAddr resp : Nat) (args : Bytes) : Bytes :=
  leBytes 2 op ++ leBytes 2 0 ++ leBytes 4 seq ++ leBytes 4 payLen ++ leBytes 4 0 ++ leBytes 8 payAddr ++ leBytes 8 resp ++
    args ++ List.replicate (32 - args.length) 0

/-- A ready engine with a leased scheduler whose pitch 0, otherwise x, has the entry at the head of its command ring and payload bytes at
hbmBase, or in its queue memory at 1 MiB. -/
def ask (x : Pitch) (entry pay : Bytes) : State :=
  (((led.setPitch 0 { x with queues := { x.queues with ptrs := sput x.queues.ptrs 0 ⟨0, 1⟩ } }).write (queueBase 0) entry).write
    (queueBase 0 + 0x100000) pay).write hbmBase pay

/-- The engine address of that payload. -/
def payAt (p : Pitch) : Nat := 2 ^ 63 + (if p.mode = .unbound then queueBase 0 + 0x100000 else hbmBase)

/-- The command with this opcode, payload length and ARGS asked of pitch x. -/
def cmdFor (x : Pitch) (op payLen : Nat) (args : Bytes) : Cmd :=
  ⟨entryOf op 0 payLen (if payLen = 0 then 0 else payAt x) 0 args⟩

/-- The conditions of Ready, as one Boolean. -/
def readyB (s : State) (p : PitchId) (k : CmdSpec) (c : Cmd) (bs : Bytes) : Bool :=
  !s.held && decide (s.headCommand p = some c) && s.mayRead p && decide (c.op = k.op) && decide (c.seq = (s.pitch p).mail.nextSeq) &&
    (s.commandCheck p k c).isNone &&
    (match s.fetchFor p (if c.payLen = 0 then [] else [(c.payAddr, c.payLen)]) with
      | .ready parts => decide (parts.headD [] = bs)
      | _ => false) &&
    (s.respCheck p k c).isNone && (!k.wakes s p c || decide (s.power.device ≠ 2)) && (!k.schedule || s.termHolds p)

theorem ready_of {s : State} {p : PitchId} {k : CmdSpec} {c : Cmd} {bs : Bytes} (h : readyB s p k c bs = true) : Ready s p k c bs := by
  simp only [readyB, Bool.and_eq_true, Bool.not_eq_true', decide_eq_true_eq, Option.isNone_iff_eq_none, Bool.or_eq_true] at h
  obtain ⟨⟨⟨⟨⟨⟨⟨⟨⟨h1, h2⟩, h3⟩, h4⟩, h5⟩, h6⟩, h7⟩, h8⟩, h9⟩, h10⟩ := h
  refine ⟨⟨⟨h1, h2, h3⟩, h4, h5, h6, ?_, h8, ?_⟩, ?_⟩
  · split at h7
    · next parts heq => exact ⟨parts, heq, of_decide_eq_true h7⟩
    · cases h7
  · intro hw; rcases h9 with h9 | h9
    · rw [hw] at h9; cases h9
    · exact h9
  · intro hw; rcases h10 with h10 | h10
    · rw [hw] at h10; cases h10
    · exact h10

/-- A configured pitch with no group. -/
def configured : Pitch := { boundPitch with mode := .configured, committed := true }
/-- A pitch that may start: its peg and layer tables are loaded. -/
def startable : Pitch :=
  { configured with pegs := [⟨0, 7, 0⟩], pegsLoaded := true, layersLoaded := true }
/-- A running pitch whose HELLO made it an administrator. -/
def adminPitch : Pitch := { running with mail := { admin := true } }
/-- Payload of pitch.bind: port 0, 2 MiB of staging, one region. -/
def bindPayload : Bytes :=
  [1, 0, 0, 0] ++ leBytes 2 2 ++ leBytes 2 0 ++ [1] ++ List.replicate 7 0 ++ leBytes 8 hbmBase ++ leBytes 8 0x10000000 ++
    List.replicate 112 0

theorem witness_hello : Ready (ask boundPitch (cmdFor boundPitch 1 0 [1, 0, 1, 0]).entry []) 0 helloSpec (cmdFor boundPitch 1 0 [1, 0, 1, 0]) [] :=
  ready_of (by decide +kernel)
theorem witness_caps : Ready (ask boundPitch (cmdFor boundPitch 2 0 []).entry []) 0 capsSpec (cmdFor boundPitch 2 0 []) [] :=
  ready_of (by decide +kernel)
theorem witness_bind : Ready (ask {} (cmdFor {} 0x10 144 []).entry bindPayload) 0 bindSpec (cmdFor {} 0x10 144 []) bindPayload ∧
    (Taken (ask {} (cmdFor {} 0x10 144 []).entry bindPayload) 0).bindCheck 0 bindPayload = none :=
  ⟨ready_of (by decide +kernel), by decide +kernel⟩
theorem witness_bind_refused : (Taken (ask {} (cmdFor {} 0x10 144 []).entry (List.replicate 144 0)) 0).bindCheck 0 (List.replicate 144 0) =
    some ⟨eConfig, 0⟩ := by decide +kernel
theorem witness_release : Ready (ask configured (cmdFor configured 0x11 0 []).entry []) 0 releaseSpec (cmdFor configured 0x11 0 []) [] :=
  ready_of (by decide +kernel)
theorem witness_start : Ready (ask startable (cmdFor startable 0x12 0 []).entry []) 0 startSpec (cmdFor startable 0x12 0 []) [] :=
  ready_of (by decide +kernel)
theorem witness_stop : Ready (ask running (cmdFor running 0x13 0 []).entry []) 0 stopSpec (cmdFor running 0x13 0 []) [] :=
  ready_of (by decide +kernel)
theorem witness_drain : Ready (ask running (cmdFor running 0x14 0 []).entry []) 0 drainSpec (cmdFor running 0x14 0 []) [] ∧
    running.time.state ≠ .idle := ⟨ready_of (by decide +kernel), by decide⟩
theorem witness_no_lease : let s := { ask running (cmdFor running 0x13 0 []).entry [] with fw := up.fw }
    s.termHolds 0 = false := by decide +kernel
theorem witness_pitch_running : let s := one { startable with startPending := true }
    s.held = false ∧ (s.pitch 0).startPending = true ∧ s.plansAwake = true ∧ (s.pitch 0).member.fenceAt = none := by decide +kernel
theorem witness_stopping : ((one { running with mode := .stopping }).pitch 0).mode = .stopping := by decide +kernel

/-- A base record with no field: length 8, version 0, count 0 (19 R412). -/
def emptyRecord : Bytes := leBytes 4 8 ++ [0, 0, 0, 0]

theorem witness_base_load : Ready (ask boundPitch (cmdFor boundPitch 0x20 8 []).entry emptyRecord) 0 baseLoadSpec
    (cmdFor boundPitch 0x20 8 []) emptyRecord ∧ ∃ v ts, readRecord false emptyRecord = .ok (v, ts) :=
  ⟨ready_of (by decide +kernel), _, _, rfl⟩
theorem witness_base_refused : ∃ r, readRecord false [0] = .error r := ⟨_, rfl⟩
theorem witness_overlay_put : Ready (ask boundPitch (cmdFor boundPitch 0x21 8 [15]).entry emptyRecord) 0 overlayPutSpec
    (cmdFor boundPitch 0x21 8 [15]) emptyRecord ∧ (cmdFor boundPitch 0x21 8 [15]).arg 32 1 ≤ 15 ∧
    ∃ v ts, readRecord true emptyRecord = .ok (v, ts) := ⟨ready_of (by decide +kernel), by decide +kernel, _, _, rfl⟩
theorem witness_overlay_select : Ready (ask boundPitch (cmdFor boundPitch 0x22 0 [0xFF]).entry []) 0 overlaySelectSpec
    (cmdFor boundPitch 0x22 0 [0xFF]) [] ∧ Ready (ask boundPitch (cmdFor boundPitch 0x22 0 [16]).entry []) 0 overlaySelectSpec
    (cmdFor boundPitch 0x22 0 [16]) [] := ⟨ready_of (by decide +kernel), ready_of (by decide +kernel)⟩

/-- One END_STEP peg at position 0 (03 R61). -/
def pegPayload : Bytes := leBytes 4 0 ++ [7, 0, 0, 0] ++ List.replicate 8 0

theorem witness_peg_load : let c := cmdFor configured 0x30 16 ([1, 0, 0, 0, 0, 0, 0, 0])
    Ready (ask configured c.entry pegPayload) 0 pegLoadSpec c pegPayload ∧
    pegCheck ((ask configured c.entry pegPayload).pitch 0) 0 (c.arg 32 4) (c.arg 36 4) pegPayload = none :=
  ⟨ready_of (by decide +kernel), by decide +kernel⟩
/-- One layer of 64 elements in one row, with no norm register (14 R309). -/
def layerPayload : Bytes := leBytes 8 0 ++ leBytes 8 64 ++ leBytes 4 64 ++ leBytes 4 0 ++ leBytes 8 0

theorem witness_layer_load : let c := cmdFor configured 0x31 32 [1, 0, 0, 0]
    Ready (ask configured c.entry layerPayload) 0 layerLoadSpec c layerPayload ∧
    layerCheck ((ask configured c.entry layerPayload).pitch 0) 0 (c.arg 32 4) layerPayload = none :=
  ⟨ready_of (by decide +kernel), by decide +kernel⟩
theorem witness_unpair : let c := cmdFor configured 0x58 0 [0xFF, 0xFF]
    Ready (ask configured c.entry []) 0 pairSpec c [] ∧ c.arg 32 2 = 0xFFFF := ⟨ready_of (by decide +kernel), by decide +kernel⟩
theorem witness_pair : let c := cmdFor configured 0x58 0 [1, 0, 0, 0, 126, 0, 0, 0, 0, 8, 0, 0, 0, 0, 0, 0]
    Ready (ask configured c.entry []) 0 pairSpec c [] ∧ c.arg 34 1 = 0 ∧ 1 ≤ c.arg 36 2 ∧ c.arg 36 2 ≤ 126 ∧ c.arg 40 8 % 2048 = 0 :=
  ⟨ready_of (by decide +kernel), by decide +kernel⟩

/-- group.join of a group of one rank, RSIG 0. -/
def joining : Pitch := { configured with eff := { base := [⟨0xB, 0, hbmBase + 2048 * 2 ^ 64⟩] } }
def joinCmd : Cmd := cmdFor joining 0x40 0 (leBytes 2 5 ++ leBytes 2 0 ++ leBytes 4 1 ++ leBytes 4 1)
theorem witness_group_join : Ready (ask joining joinCmd.entry []) 0 joinSpec joinCmd [] ∧ (Taken (ask joining joinCmd.entry []) 0).joinCheck 0 joinCmd = none ∧
    joining.member.record.role = 0 := ⟨ready_of (by decide +kernel), by decide +kernel, by decide⟩

theorem witness_group_leave : let x := { configured with member := { record := { role := 1, rank := 0, n := 1 } } }
    Ready (ask x (cmdFor x 0x41 0 []).entry []) 0 leaveSpec (cmdFor x 0x41 0 []) [] := ready_of (by decide +kernel)
theorem witness_group_spare : let c := cmdFor configured 0x42 0 [5, 0]
    Ready (ask configured c.entry []) 0 spareSpec c [] ∧ c.arg 44 16 = configured.rsig.toNat ∧ configured.member.record.role = 0 :=
  ⟨ready_of (by decide +kernel), by decide +kernel⟩
theorem witness_checkpoint_mark : let x := { running with eff := { base := [⟨0x15, 0, hbmBase⟩] } }
    Ready (ask x (cmdFor x 0x50 0 []).entry []) 0 ckptSpec (cmdFor x 0x50 0 []) [] ∧ x.ckptBase 0 ≠ 0 := ⟨ready_of (by decide +kernel), by decide +kernel⟩
theorem witness_checkpoint_idle : let x := { running with eff := { base := [⟨0x15, 0, hbmBase⟩] }, time := { state := .idle, boundary := true } }
    Ready (ask x (cmdFor x 0x50 0 []).entry []) 0 ckptSpec (cmdFor x 0x50 0 []) [] ∧ x.ckptBase 0 ≠ 0 := ⟨ready_of (by decide +kernel), by decide +kernel⟩
theorem witness_snapshot : let x := { running with eff := { base := [⟨0x400, 0, 1⟩] } }
    Ready (ask x (cmdFor x 0x51 0 [0]).entry []) 0 snapSpec (cmdFor x 0x51 0 [0]) [] ∧
    ((one x).pitch 0).snapDest 0 0 = 1 := ⟨ready_of (by decide +kernel), by decide +kernel⟩
theorem witness_telemetry : let c : Cmd := ⟨entryOf 0x70 0 0 0 0x1000 ([2, 0, 0, 0, 0, 0, 0, 0, 0, 2, 0, 0])⟩
    Ready (ask running c.entry []) 0 telemetrySpec c [] ∧ classKnown (c.arg 32 1) = true ∧ c.arg 40 4 = 512 ∧ isEngine c.respAddr = false :=
  ⟨ready_of (by decide +kernel), by decide +kernel⟩
theorem witness_log_read : let c : Cmd := ⟨entryOf 0x71 0 0 0 0x1000 (leBytes 8 0 ++ leBytes 4 64)⟩
    Ready (ask adminPitch c.entry []) 0 logReadSpec c [] ∧ c.arg 40 4 = 64 := ⟨ready_of (by decide +kernel), by decide +kernel⟩
/-- A chunk of one flash sector of zeros, as memory that nothing has written holds it. -/
theorem witness_stage : let c := cmdFor adminPitch 0x80 4096 (leBytes 4 0 ++ [0])
    Ready (ask adminPitch c.entry []) 0 stageSpec c (List.replicate 4096 0) ∧ (ask adminPitch c.entry []).stageCheck 0 c = none :=
  ⟨ready_of (by decide +kernel), by decide +kernel⟩
theorem witness_activate : Ready (ask adminPitch (cmdFor adminPitch 0x81 0 []).entry []) 0 activateSpec (cmdFor adminPitch 0x81 0 []) [] := ready_of (by decide +kernel)
theorem witness_unlock : Ready (ask adminPitch (cmdFor adminPitch 0x90 0 []).entry []) 0 unlockSpec (cmdFor adminPitch 0x90 0 []) [] ∧
    (ask adminPitch (cmdFor adminPitch 0x90 0 []).entry []).sec.session ≠ some 0 ∧ (ask adminPitch (cmdFor adminPitch 0x90 0 []).entry []).tap.pins = false :=
  ⟨ready_of (by decide +kernel), by decide +kernel⟩

/-- A command whose SEQ is not NEXT_SEQ, one whose reserved byte is set, and one with a reserved opcode. -/
theorem witness_mailbox_order : let c : Cmd := ⟨entryOf 2 1 0 0 0 []⟩
    let s := ask running c.entry []
    mailRow (.sysCaps 0) = some (0, capsSpec) ∧ s.headCommand 0 = some c ∧ s.mayRead 0 = true ∧ c.op = capsSpec.op ∧
      c.seq ≠ (s.pitch 0).mail.nextSeq ∧ (s.pitch 0).mail.owed = [] := ⟨rfl, by decide +kernel⟩
theorem witness_mailbox_check : let c := cmdFor running 2 0 [1]
    let s := ask running c.entry []
    s.headCommand 0 = some c ∧ s.commandCheck 0 capsSpec c = some ⟨eReserved, 32⟩ := by decide +kernel
theorem witness_reserved_command : let c := cmdFor running 3 0 []
    (ask running c.entry []).headCommand 0 = some c ∧ c.op ∉ knownOpcodes := by decide +kernel

/-- sys.hello of versions 1 to 1 is answered OK: STATUS 0 stands at byte 10 of the entry in the response ring (18 R381, R388). -/
theorem test_hello : after (exec (.sysHello 0) (ask boundPitch (cmdFor boundPitch 1 0 [1, 0, 1, 0]).entry []))
    (fun t => (t.pitch 0).mail.nextSeq = 1 && ((t.pitch 0).qptr 0).head = 1 && t.readLe (queueBase 0 + 0x4000 + 10) 2 = 0) = true := by
  decide +kernel

/-- pitch.stop of a step with no peg in flight leaves the pitch STOPPING and its response owed (18 R392). -/
theorem test_stop : after (exec (.pitchStop 0) (ask running (cmdFor running 0x13 0 []).entry []))
    (fun t => (t.pitch 0).mode = .stopping && (t.pitch 0).mail.owed.map Owed.why = [.stop]) = true := by decide +kernel
/-- A bucket record: 65,536 elements in blocks of 64, dense, INT8 out and back, BF16 host format, DIVISOR 1, its regions in HBM (19 R415). -/
def bucketRecord : BitVec 1024 :=
  BitVec.ofNat 1024 (65536 + 0x0A * 2 ^ 37 + 0x0A * 2 ^ 42 + 1 * 2 ^ 53 + 1 * 2 ^ 96 + (hbmBase + 0x100000) * 2 ^ 192 +
    (hbmBase + 0x200000) * 2 ^ 256 + (hbmBase + 0x300000) * 2 ^ 384)

/-- A bound pitch whose pending base names eight Erg registers and their save area, one share of each resource, and the two tables. -/
def committing : Pitch := { boundPitch with pendBase :=
  [⟨2, true, 0, leBytes 4 8⟩, ⟨3, true, 0, leBytes 8 (hbmBase + 0x400000)⟩, ⟨4, true, 0, List.replicate 32 1⟩,
   ⟨5, true, 0, leBytes 8 (2 ^ 63 + hbmBase + 0x1000) ++ leBytes 4 1⟩, ⟨6, true, 0, leBytes 8 (2 ^ 63 + hbmBase + 0x2000)⟩] }

/-- Its cfg.commit with the bucket table and a queue table that enables the exception queue alone. -/
def commitCmd : Cmd := cmdFor committing 0x23 0 []
def commitState : State :=
  ((ask committing commitCmd.entry []).write (hbmBase + 0x1000) (leBytes 128 bucketRecord.toNat)).write (hbmBase + 0x2000 + 10216)
    (leBytes 8 (4 + 16 + 0x300 * 2 ^ 32))

/-- Its tables are there and the draft passes every check. -/
theorem witness_commit : Ready commitState 0 commitSpec commitCmd [] ∧ (commitState.pitch 0).commitFirst 0 = none ∧
    (match commitState.fetchFor 0 (draftTables 0 ((commitState.pitch 0).draftBase 0)) with
      | .ready parts => (match ((commitState.pitch 0).draft 0 (parts.getD 0 []) (parts.getD 1 [])).check (Taken commitState 0) 0 with
        | .ok plan => plan[0] == 2
        | .error _ => false)
      | _ => false) = true := ⟨ready_of (by decide +kernel), by decide +kernel, by decide +kernel⟩
/-- A key record for group 5 wrapped to the wrapping key 1 (12 R288). -/
def keyRecord : Bytes := beBytes 56 0x05000000000000000000000000000000aa87ca22be8b05378eb1c71ef320ad746e1d3b628ba79b9859f741e082542a385502f25dbf55296c ++
  beBytes 56 0x3a545e3872760ab73617de4a96262c6f5d9e98bf9292dc29f8f41dbd289a147ce9da3113b5f0b8c00a60b1ce1d7e819d7a431d7c90ea0e5f ++
  beBytes 56 0x000000000000000000000000bc246b2912a23cef89c7fbc155ce9f84b0b33a2963f610e0497030221825af2da43c1ad16df07a6b4c44daf7 ++
  beBytes 8 0x0a6151b600000000
/-- Pitch 0 in group 5, in an engine with that wrapping key. -/
def keyed : Pitch := { configured with member := { record := { group := 5, role := 1, n := 1 } } }
def keyState : State := let s := ask keyed (cmdFor keyed 0x60 176 []).entry keyRecord; { s with sec := { s.sec with wrapKey := 1 } }
theorem witness_key : Ready keyState 0 keySpec (cmdFor keyed 0x60 176 []) keyRecord ∧ keyState.unwrapKey 0 keyRecord = some ⟨List.replicate 32 0, 0⟩ ∧
    leAt keyRecord 0 2 = (keyState.pitch 0).member.record.group.toNat ∧ (∀ i, i < 176 → (3 ≤ i ∧ i ≤ 7) ∨ 172 ≤ i → keyRecord.getD i 0 = 0) ∧
    (keyState.pitch 0).keys.current = none :=
  ⟨ready_of (by decide +kernel), by decide +kernel, by decide +kernel, by decide +kernel, by decide +kernel⟩

/-- A debug token for 4 epochs at level 1, signed by the private key 1 of slot 0 over nonce 77 (22 R467). -/
def token : Bytes := beBytes 56 0x434244540101000004000000000000004d0000000000000000000000000000008c4f262412b7f9ed867606705a130de5212fd048fbaf8c38 ++
  beBytes 56 0x42f4a240f4b45ba0c90f82194ccdda3ed89c96b0afe1d51d04aa87ca22be8b05378eb1c71ef320ad746e1d3b628ba79b9859f741e082542a ++
  beBytes 56 0x385502f25dbf55296c3a545e3872760ab73617de4a96262c6f5d9e98bf9292dc29f8f41dbd289a147ce9da3113b5f0b8c00a60b1ce1d7e81 ++
  beBytes 56 0x9d7a431d7c90ea0e5f00000000000000aa87ca22be8b05378eb1c71ef320ad746e1d3b628ba79b9859f741e082542a385502f25dbf55296c ++
  beBytes 56 0x3a545e3872760ab70dc850a4cbcdd1d44893de1be1b95aaee312d431009ff0af8e9f34f145a392bc8dfa246f3223fa56e783abba550f9f08
def tokenState : State :=
  let s := ask adminPitch (cmdFor adminPitch 0x90 280 []).entry token
  { s with sec := { s.sec with sealed := true, deviceKey := 1, nonce := some 77 }
           fuses := { s.fuses with sealFuse := true, debugKey0 := beBytes 48 0x8c4f262412b7f9ed867606705a130de5212fd048fbaf8c3842f4a240f4b45ba0c90f82194ccdda3ed89c96b0afe1d51d } }
theorem witness_token : Ready tokenState 0 unlockSpec (cmdFor adminPitch 0x90 280 []) token ∧ tokenState.tokenDetail token = 0 ∧ token.length = 280 ∧
    leAt token 5 1 = 1 := ⟨ready_of (by decide +kernel), by decide +kernel, by decide +kernel, by decide +kernel⟩
theorem witness_token_refused : up.tokenDetail (List.replicate 280 0) = 1 := by decide +kernel

/-- The lease is frozen for a handover with a whole record, and a plan whose cells sleep. -/
theorem witness_handover : let r : Bytes := [0x42, 0x56, 0x41, 0x43] ++ leBytes 4 0 ++ leBytes 4 64 ++ List.replicate 48 0
    let s : State := { led with fw := { led.fw with lease := { led.fw.lease with frozen := true }, bivouac := r ++ leBytes 4 (crc32c (r ++ leBytes 4 0)) } }
    s.fw.lease.frozen = true ∧ bivouacOk s.fw.bivouac = true ∧ s.held = false ∧ bivouacOk [] = false := by decide +kernel
theorem witness_asleep : let s := one { running with plan := Vector.replicate 32 2, planEff := Vector.replicate 32 2 }
    s.plansAwake = true ∧ ({ s with power := { s.power with cells := Vector.replicate 136 .off } } : State).plansAwake = false := by decide +kernel

/-! ## Host links, registers and doorbells -/

theorem answers_one (x : Pitch) (h : x.mode = .unbound ∨ x.binding.ports.getLsbD (0 : HostPort) = true) : Answers (one x) 0 0 := by
  refine ⟨⟨rfl, rfl⟩, ⟨?_, ?_⟩, ?_⟩
  · show up.hostPorts[(0 : HostPort)].modules ≠ 0; decide
  · show up.hostPorts[(0 : HostPort)].discarding = false; decide
  · simpa [one, State.pitch, State.setPitch] using h

/-- A whole flit of FSEQ n with no content, TYPE data. -/
def flitOf (n : Nat) : Bytes := let f := (leBytes 2 n ++ List.replicate 250 0); f ++ leBytes 4 (crc32c f)

theorem witness_good_flit : crc32c ((flitOf 0).take 252) = leAt (flitOf 0) 252 4 ∧ flitSeq (flitOf 0) = up.hostPorts[(0 : HostPort)].rxLast + 1 ∧
    leAt (flitOf 0) 1 1 / 4 % 4 = 0 ∧ leAt (flitOf 0) 2 1 = 0 ∧ up.hostPorts[(0 : HostPort)].rxPart = [] := by decide +kernel
theorem witness_bad_flit : ¬ (crc32c ((List.replicate 256 1 : Bytes).take 252) = leAt (List.replicate 256 1) 252 4 ∧
    flitSeq (List.replicate 256 1) = up.hostPorts[(0 : HostPort)].rxLast + 1) := by decide +kernel
theorem witness_retrain : up.rateAllowed .gt32 = true ∧ up.hostPorts[(0 : HostPort)].modules &&& 15#4 = up.hostPorts[(0 : HostPort)].modules := by
  decide
theorem witness_takes : Takes up 0 ∧ up.held = false := ⟨⟨by decide, by decide⟩, by decide⟩
theorem witness_takes_not : ¬ Takes { up with hostPorts := up.hostPorts.set 0 { modules := 0 } } 0 := fun h => h.1 (by decide)

theorem witness_step_set : Answers (one { running with time := { state := .idle } }) 0 0 ∧
    ((one { running with time := { state := .idle } }).pitch 0).mode = .running ∧
    ((one { running with time := { state := .idle } }).pitch 0).time.state = .idle :=
  ⟨answers_one _ (.inr (by decide)), by decide, by decide⟩
theorem witness_step_held : Answers (one { running with time := { state := .draining, held := some 9 } }) 0 0 ∧
    ((one { running with time := { state := .draining, held := some 9 } }).pitch 0).time.held.isSome = true :=
  ⟨answers_one _ (.inr (by decide)), by decide⟩
theorem witness_cursor : Answers (one running) 0 0 ∧ ((one running).pitch 0).mode = .running ∧ ((one running).pitch 0).time.state ≠ .idle ∧
    ((one running).pitch 0).time.cursor.toNat < (1 : W32).toNat ∧ ((one running).pitch 0).guard.verdict = none :=
  ⟨answers_one _ (.inr (by decide)), by decide, by decide, by decide, by decide⟩
theorem witness_stall : let x := { running with time := { running.time with stillEpochs := 4096 } }
    x.mode = .running ∧ x.time.state = .active ∧ 4096 ≤ x.time.stillEpochs ∧ x.time.stallSent = false := by decide
theorem witness_denied : Up (one running) ∧ ((one running).pitch 0).mode ≠ .unbound ∧
    ((one running).pitch 0).binding.ports.getLsbD (1 : HostPort) = false ∧ Takes (one running) 1 ∧
    Instr.stepSet 1 0 3 ∈ windowWrites 1 0 := ⟨⟨by decide, by decide⟩, by decide, by decide, ⟨by decide, by decide⟩, .inl ⟨3, rfl⟩⟩

/-- STEP_SET in IDLE begins the step; a CURSOR_SET that lowers CURSOR is discarded with cause 1 (03 R56 to R58). -/
theorem test_step_set : after (exec (.stepSet 0 0 8) (one { running with time := { state := .idle } }))
    (fun t => (t.pitch 0).time.step = 8 && (t.pitch 0).time.state = .active) = true := by decide +kernel
theorem test_cursor_lowered : after (exec (.cursorSet 0 0 4) (one { running with time := { running.time with cursor := 5 } }))
    (fun t => (t.pitch 0).time.cursor = 5 && (t.pitch 0).time.dropCause = 1) = true := by decide +kernel

/-- Work queue 2 of depth 16 over completion queue 1026, both in queue memory (17 R365). -/
def queued : Pitch := { running with eff := { queues :=
  [(2, BitVec.ofNat 64 (4 + 1026 * 2 ^ 16 + 0x300 * 2 ^ 32)), (1026, BitVec.ofNat 64 (4 + 0x310 * 2 ^ 32)),
   (1279, BitVec.ofNat 64 (4 + 16 + 0x320 * 2 ^ 32))] } }

theorem witness_doorbells : Answers (one queued) 0 0 ∧ TailOk 256 (((one queued).pitch 0).qptr 0) 256 ∧
    ((one queued).pitch 0).ring 2 = some (0xC000, 16, 64) ∧ TailOk 16 (((one queued).pitch 0).qptr 2) 16 :=
  ⟨answers_one _ (.inr (by decide)), ⟨by decide +kernel, by decide +kernel, by decide +kernel⟩, by decide +kernel,
    ⟨by decide +kernel, by decide +kernel, by decide +kernel⟩⟩
theorem witness_heads : let x := { queued with queues := { ptrs := [(1, ⟨0, 1⟩), (1026, ⟨0, 2⟩)] } }
    x.mail.waiting = [] ∧ (1 : W16) ≠ (x.qptr 1).head ∧ ((1 : W16) - (x.qptr 1).head).toNat ≤ ((x.qptr 1).tail - (x.qptr 1).head).toNat ∧
    x.queues.held = [] ∧ x.ring 1026 = some (0xC400, 16, 64) ∧
    ((2 : W16) - (x.qptr 1026).head).toNat ≤ ((x.qptr 1026).tail - (x.qptr 1026).head).toNat := by decide +kernel
theorem witness_doorbell_causes : (queued.ring 3 = none) ∧ ∃ r, queued.ring 2 = some r ∧ r.2.1 < ((17 : W16) - (queued.qptr 2).head).toNat ∧
    (17 : W16) ≠ (queued.qptr 2).tail := ⟨by decide +kernel, _, rfl, by decide +kernel, by decide +kernel⟩

/-- Pointer 16 fills a ring of 16; pointer 17 is discarded with cause 3 (17 R367). -/
theorem test_doorbell : after (exec (.dbWork 0 0 (2 + 65536 * 16)) (one queued)) (fun t => ((t.pitch 0).qptr 2).tail = 16) = true ∧
    after (exec (.dbWork 0 0 (2 + 65536 * 17)) (one queued)) (fun t => ((t.pitch 0).qptr 2).tail = 0 && (t.pitch 0).queues.dbCause = 3) = true := by
  decide +kernel

theorem witness_host_memory : (one running).accessor 0 hbmBase 64 = some 0 ∧ ((one running).pitch 0).meetsArea 0 hbmBase 64 = false ∧
    (one running).accessor 1 hbmBase 64 = none := by decide +kernel
theorem witness_dma : let r : DmaReq := ⟨0, 5, 0x1000, 4, 0, .command 0⟩
    ({ one running with dma := [r] } : State).dma = r :: [] ∧ r.port = 0 ∧ r.tag = 5 ∧ r.use = .command 0 ∧
    ([1, 2, 3, 4] : Bytes).length = r.len ∧ ∀ q ∈ ([] : List DmaReq), q.port = 0 → q.tag ≠ 5 := by decide

/-- MEM_WR of two bytes in the pitch's region; another port is denied (17 R362). -/
theorem test_mem_wr : after (exec (.memWr 0 (BitVec.ofNat 64 hbmBase) [7, 8]) (one running))
      (fun t => t.byte hbmBase = 7 && t.byte (hbmBase + 1) = 8) = true ∧
    after (exec (.memWr 1 (BitVec.ofNat 64 hbmBase) [7, 8]) (one running)) (fun t => t.mem = [] && t.glob.memDenied = 1) = true := by
  decide +kernel

/-! ## The test access port and the security state -/

theorem witness_tap : up.tap.pins = false ∧ up.held = false ∧ up.sec.level = 0 ∧ up.secCode = 0 ∧ (∀ p, (up.pitch p).mode = .unbound) ∧
    up.tapAllows 0x55 = false := by decide +kernel
theorem witness_sealed : let s := { up with sec := { up.sec with sealed := true } }
    s.secCode = 1 ∧ s.secCode ≠ 0 := by decide
theorem witness_levels : let s := { up with sec := { up.sec with level := 2 } }
    1 ≤ s.sec.level ∧ s.sec.level = 2 ∧ classKnown 0x25 = true ∧ s.fw.tapHalted.Nodup := by decide
theorem witness_prov_seal : let p : Prov := { complete := true, crc := 0 }
    p.complete = true ∧ crc32c (p.raw.map Prod.snd) = p.crc.toNat := by decide +kernel
theorem witness_session : let s := { up with sec := { up.sec with sealed := true, session := some 0, level := 1 } }
    s.sec.session = some 0 ∧ s.sec.sealed = true ∧ s.sec.rma = false ∧ 1 ≤ s.sec.level := by decide
theorem witness_ptp : up.ptp.servo = (0 : NetPort) ∧ up.portDark 0 = false ∧ (1 : NetPort) ≠ up.ptp.servo ∧ (3 : Fin 128) ≠ up.prov.ptpDomain := by
  decide +kernel
theorem witness_ptp_delay : let q : Ptp := { waits := true, sync := some (5, 9), requests := [(0, 11)] }
    q.servo = (0 : NetPort) ∧ q.waits = true ∧ q.sync = some (5, 9) ∧ q.requests = [] ++ [(0, 11)] := by decide

/-- IDCODE reads 0x1321_6963 (22 R466). -/
theorem test_idcode : after (exec .idcode up) (fun t => t.tap.out = .idcode 0x13216963) = true := by decide +kernel
/-! ## Pegs and barriers -/

/-- A running pitch whose one peg is reached. -/
def pegged (act : Byte) (arg : W32) : Pitch := { running with pegs := [⟨0, act, arg⟩] }
theorem due_peg (act : Byte) (arg : W32) : Due (one (pegged act arg)) 0 act ⟨0, act, arg⟩ := ⟨rfl, rfl, rfl, rfl, rfl, rfl, rfl, Nat.zero_le _⟩

theorem witness_pegs : Due (one (pegged 1 0)) 0 1 ⟨0, 1, 0⟩ ∧ Due (one (pegged 2 0)) 0 2 ⟨0, 2, 0⟩ ∧ Due (one (pegged 3 0)) 0 3 ⟨0, 3, 0⟩ ∧
    Due (one (pegged 4 0)) 0 4 ⟨0, 4, 0⟩ ∧ Due (one (pegged 4 1)) 0 4 ⟨0, 4, 1⟩ ∧ Due (one (pegged 5 0)) 0 5 ⟨0, 5, 0⟩ ∧
    Due (one (pegged 6 3)) 0 6 ⟨0, 6, 3⟩ ∧ Due (one (pegged 7 0)) 0 7 ⟨0, 7, 0⟩ :=
  ⟨due_peg _ _, due_peg _ _, due_peg _ _, due_peg _ _, due_peg _ _, due_peg _ _, due_peg _ _, due_peg _ _⟩
theorem witness_barrier_args : (0 : W32).getLsbD 0 = false ∧ (1 : W32).getLsbD 0 = true ∧ (pegged 4 1).rank = 0 ∧ (pegged 4 1).size ≤ 1 ∧
    ((pegged 4 1).gbar (pegged 4 1).stepLo 0).sentUp = false := by decide

/-- A pitch of two small dense buckets of 128 elements in blocks of 64, INT8 out and back, BF16 on the host, RELAXED order, an owned slot
of every resource. -/
def tiny (k : Nat) : BitVec 1024 :=
  BitVec.ofNat 1024 (128 + 0x0A * 2 ^ 37 + 0x0A * 2 ^ 42 + 1 * 2 ^ 53 + 1 * 2 ^ 96 + 128 * k * 2 ^ 128 + (hbmBase + 0x100000 + 0x10000 * k) * 2 ^ 192 +
    (hbmBase + 0x200000 + 0x10000 * k) * 2 ^ 256 + (hbmBase + 0x300000 + 0x10000 * k) * 2 ^ 384)
def piped (r : BucketRun) : Pitch :=
  { pegged 1 1 with eff := { base := [⟨1, 0, 1⟩], buckets := [tiny 0, tiny 1] }, planEff := Vector.replicate 32 2, runs := [r] }
def newRun : BucketRun := { bucket := 0, parts := [0], seq := 0 }

theorem witness_fuse : Due (one (piped newRun)) 0 1 ⟨0, 1, 1⟩ ∧ (piped newRun).mayFuse 0 newRun 1 = true ∧ newRun.isLow (piped newRun) = false :=
  ⟨⟨rfl, rfl, rfl, rfl, rfl, rfl, rfl, Nat.zero_le _⟩, by decide +kernel, by decide +kernel⟩

theorem witness_group_release : let x := { running with
      time := { running.time with barrier := some true, barriers := 1 }, gbars := [{ stepLo := 7, ordinal := 0, fired := true, release := some (0, 50) }] }
    ((one x).pitch 0).time.barrier = some true ∧ ((x.gbar x.stepLo (x.time.barriers - 1)).release = some (0, 50)) := by decide +kernel
theorem witness_package_release : let x := { running with time := { running.time with barrier := some false }, eff := { base := [⟨0x12, 0, 1⟩] } }
    (1 : BitVec 12) ≠ 0 ∧ (∀ p : PitchId, (1 : BitVec 12).getLsbD p.val = true → ((one x).pitch p).time.barrier = some false ∧
      ((one x).pitch p).cfg p 0x12 = (1 : BitVec 12).toNat) := by decide +kernel
theorem witness_package_wait : (1 : BitVec 12).getLsbD (0 : PitchId).val = true ∧ ((one running).pitch 0).time.barrier ≠ some false := by decide

/-- A START_STATS peg makes its bucket eligible; a CHECKPOINT peg arms the step (03 R64). -/
theorem test_start_stats : after (exec (.startStats 0 false) (one (pegged 1 5)))
    (fun t => (t.pitch 0).time.nextPeg = 1 && (t.pitch 0).runs.map (·.bucket) = [5]) = true := by decide +kernel
theorem test_checkpoint_peg : after (exec (.checkpoint 0) (one (pegged 5 0))) (fun t => (t.pitch 0).time.ckptArmed) = true := by decide +kernel

/-! ## The bucket pipeline -/

theorem witness_stats : let x := { piped newRun with ingests := [{ bucket := 0, complete := true }] }
    (one x).held = false ∧ x.nextStats = some newRun ∧ newRun.mayStats x 0 0 = true ∧ (one x).sliceWorks 0 = true := by decide +kernel
/-- Two buckets of 2^18 elements in blocks of 512 and a pack ring of 1,007 KiB: the area holds v of one bucket. -/
def full : Pitch := { piped { newRun with statsDone := true, statNext := 512 } with
  eff := { base := [⟨7, 0, 1007⟩], buckets := List.replicate 2 (BitVec.ofNat 1024 (2 ^ 18 + 3 * 2 ^ 32 + 0x0A * 2 ^ 37 + 0x0A * 2 ^ 42 + 2 ^ 96)) }
  ingests := [{ bucket := 0, complete := true }, { bucket := 1, complete := true }]
  runs := [{ newRun with statsDone := true, statNext := 512 }, { newRun with bucket := 1, parts := [1], seq := 1 }] }
theorem witness_no_room : full.nextStats = some { newRun with bucket := 1, parts := [1], seq := 1 } ∧
    ({ newRun with bucket := 1, parts := [1], seq := 1 } : BucketRun).mayStats full 0 0 = false ∧ (up.sliceWorks 0) = true := by decide +kernel
theorem witness_no_slice : (up.breakSlice 0 0).sliceWorks 0 = false := by decide +kernel

/-- The run once phase S is done, and once its record is agreed. -/
def statRun : BucketRun := { newRun with statsDone := true, statNext := 2, codes := [120, 120] }
def agreedRun : BucketRun := { statRun with passesDone := true, agreed := [(0, [120, 120], false)] }

theorem witness_pass : (piped statRun).works = true ∧ (piped statRun).runs.find? (fun q => q.bucket = 0) = some statRun ∧
    statRun.statsDone = true ∧ statRun.passesDone = false := by decide +kernel
theorem witness_quantise : (piped agreedRun).nextQuant = some (agreedRun, 0) ∧
    (piped agreedRun).runs.find? (fun q => q.bucket = 0) = some agreedRun := by decide +kernel
theorem witness_packer : let x := piped agreedRun
    let y := { x with tx := { x.tx with packWait := [⟨0, 0, kindContrib, [1, 2]⟩] } }
    y.tx.packWait = ⟨0, 0, kindContrib, [1, 2]⟩ :: [] ∧ y.works = true ∧
    (y.ringPlace 0 (agreedRun.slot y kindContrib)).isSome = true := by decide +kernel
theorem witness_owner : ((one (piped agreedRun)).write ((piped agreedRun).crecAddr 0 0 0) [1, 0, 0, 0]).readyG 0 agreedRun 0 = true ∧
    (one (piped agreedRun)).held = false := by decide +kernel
theorem witness_record : ((one (piped statRun)).ownRecord 0 0 0).isSome = true ∧ ((piped statRun).agree 0 0 (piped statRun).stepLo).own = none ∧
    (piped statRun).works = true ∧ ((piped statRun).agree 0 0 (piped statRun).stepLo).agreed = none ∧ (piped statRun).children = [] := by decide +kernel
/-- The run once both blocks are placed, and once both are out. -/
def placedRun : BucketRun := { agreedRun with
  quantNext := 2, gDone := [0, 1], placed := [(0, { scale := 120, codes := List.replicate 64 1 }), (1, { scale := 120, codes := List.replicate 64 1 })] }
def outRun : BucketRun := { placedRun with outDone := [0, 1] }

theorem witness_norm : let x := piped placedRun
    let y := { x with eff := { x.eff with buckets := x.eff.buckets.map (fun r => r ||| 1#1024 <<< 58) }, pegsLoaded := true
                      pegs := [⟨0, 1, 0⟩, ⟨1, 7, 0⟩] }
    y.normReady = true ∧ y.rank = 0 ∧ y.guard.normArrivals + 1 ≠ 2 ∧ y.rank ≠ 1 := by decide +kernel

/-! ## Output, completion and images -/

theorem witness_output : (piped placedRun).nextOutput = some (placedRun, 0) ∧ (piped placedRun).normBanks 0 0 0 1 = true ∧
    (piped placedRun).lsRoom = true ∧ (one (piped placedRun)).sliceWorks 0 = true := by decide +kernel
theorem witness_ls_wait : let x := { piped placedRun with
      pairing := some ⟨1, 0, false, 126, 0⟩, lock := { closed := 8 }, member := { record := { role := 1, rank := 0, n := 2 } } }
    x.nextOutput = some (placedRun, 0) ∧ x.lsRoom = false ∧ x.lock.waiting = false := by decide +kernel
theorem witness_update : let x := piped outRun
    let y := { x with eff := { base := [⟨0x10F, 0, hbmBase + 0x400000⟩, ⟨0x110, 0, hbmBase + 0x500000⟩], buckets := x.eff.buckets.map (fun r => r ||| 1#1024 <<< 60) }
                      guard := { x.guard with verdict := some 0 } }
    outRun.readyUpdate y 0 = true ∧ outRun.updateBanks y 0 0 = true ∧ hbmBase ≤ y.cfg 0 0x10F ∧ y.cfg 0 0x10F + 2 * 64 ≤ y.cfg 0 0x110 := by decide +kernel

/-- A step of one bucket, all of whose output is written, with verdict 0. -/
def ending : Pitch :=
  let x := piped outRun
  { x with time := { x.time with state := .draining }, pegsLoaded := true, pegs := [⟨0, 1, 0⟩, ⟨1, 7, 0⟩], guard := { x.guard with verdict := some 0 } }
theorem witness_complete : ending.mayComplete = true ∧ ending.mail.owed = [] ∧ ending.time.drainPending = false ∧ ending.time.held = none ∧
    ({ ending with time := { ending.time with held := some 9 } } : Pitch).mayComplete = true := by decide +kernel
theorem witness_checkpoint : let x := { ending with time := { ending.time with ckptArmed := true }, eff := { ending.eff with base := [⟨0x15, 0, hbmBase⟩] } }
    x.stepOver = true ∧ x.time.ckptArmed = true ∧ x.time.ckptDone = false ∧ x.time.ckptSlot = none ∧
    ({ x with time := { x.time with ckptSlot := some 0 } } : Pitch).stepOver = true ∧ hbmBase ≤ x.ckptBase 0 := by decide +kernel
theorem witness_export : let x := { ending with
      time := { ending.time with exports := [0, 1] }
      eff := { ending.eff with base := [⟨0x400, 0, 1 + 0x1000 * 2 ^ 64⟩, ⟨0x400, 1, 1 + 4 + 0x1000 * 2 ^ 64⟩] } }
    x.exportDue 0 = true ∧ bitOf (x.snapDest 0 0) 2 = false ∧ x.exportDue 1 = true ∧ bitOf (x.snapDest 0 1) 2 = true ∧
    bitsOf (x.snapDest 0 1) 47 32 < x.size ∧ (one x).hostUp (x.ports.headD 0) = true := by decide +kernel

/-- A step that is over ends at a step boundary (03 R66). -/
theorem test_step_complete : after (exec (.stepComplete 0) (one ending)) (fun t => (t.pitch 0).time.state = .idle && (t.pitch 0).time.boundary) = true := by
  decide +kernel

/-! ## LOWRANK and repairs -/

/-- A LOWRANK bucket of 128 elements as 16 rows of 8, rank 1, FP32 work region (08 R175). -/
def lowRec : BitVec 1024 := BitVec.ofNat 1024 (128 + 6 * 2 ^ 34 + 0x0A * 2 ^ 37 + 0x0A * 2 ^ 42 + 1 * 2 ^ 53 + 2 ^ 96 + (hbmBase + 0x100000) * 2 ^ 192 +
  8 * 2 ^ 480 + (hbmBase + 0x500000) * 2 ^ 512 + (hbmBase + 0x600000) * 2 ^ 576 + 8 * 2 ^ 656)
def lowRun (stage : Nat) : BucketRun := { newRun with statsDone := true, statNext := 2, codes := [120, 120], lr := some { stage := stage } }
def lowPitch (stage : Nat) : Pitch := { piped (lowRun stage) with eff := { buckets := [lowRec] } }
theorem run_is (stage : Nat) : RunIs (lowPitch stage) 0 (lowRun stage) := ⟨rfl, rfl⟩
theorem witness_low_stages : (lowRun 1).lr = some { stage := 1 } ∧ (lowPitch 1).works = true ∧ LrBanks (lowPitch 1) 0 (lowRun 1) ∧
    LrBanks (lowPitch 4) 0 (lowRun 4) ∧ (lowPitch 6).pairing = none ∧ (lowRun 6).outDone.length ≤ (lowRun 6).blocks (lowPitch 6) ∧
    (lowPitch 6).lock.held = false := by unfold LrBanks; decide +kernel
theorem witness_ortho : (orthoOf (one (lowPitch 3)) 0 (lowRun 3)).bad = false := by decide +kernel
theorem witness_factor : let r := { lowRun 2 with lr := some { stage := 2, agreed := some [120] } }
    let x := { lowPitch 2 with runs := [r] }
    (r.nextFactor x).isSome = true ∧ RunIs x 0 r := ⟨by decide +kernel, rfl, rfl⟩
theorem witness_tile : ((lowPitch 4).nextTile 0 0).isSome = true ∧ (one (lowPitch 4)).tileSlice 0 = some ((0 : Fin 8).val, 0) ∧
    (one (lowPitch 4)).sliceWorks 0 = true := by decide +kernel
theorem witness_no_tile : (one (lowPitch 3)).sliceWorks 0 = true ∧ ((lowPitch 3).nextTile 0 0) = none := by decide +kernel
theorem witness_broken_slice : let s := led.breakSlice 0 0
    (0 : Fin 9).val ∈ s.clusters[(0 : Fin 8)].broken ∧ s.clusterServes 0 = true ∧ sget s.clusters[(0 : Fin 8)].peRepairs 0 0 < 4 ∧
    s.clusters[(0 : Fin 8)].spare = some 8 := by decide +kernel
theorem witness_no_spare : let s := led.breakSlice 0 0
    let t : State := { s with clusters := s.clusters.set 0 { s.clusters[(0 : Fin 8)] with spare := none } }
    t.clusters[(0 : Fin 8)].spare = none ∧ 56 < t.activeSlices := by decide +kernel

/-- A broken slice gives its number to the spare slice (23 R483). -/
theorem test_spare_slice : after (exec (.unitRepair 0 0 false) (led.breakSlice 0 0)) (fun t =>
    t.clusters[(0 : Fin 8)].map.head? = some (some 8) && t.clusters[(0 : Fin 8)].spare = none && t.clusters[(0 : Fin 8)].broken = []) = true := by
  decide +kernel
/-! ## Network ports and health -/

theorem witness_lane : let s : State := { up with prov := { up.prov with lane8Wired := 1 } }
    s.netPorts[(0 : NetPort)].failed = false ∧ s.netPorts[(0 : NetPort)].inService = true ∧ s.netPorts[(0 : NetPort)].laneGroup = none ∧
    s.netPorts[(0 : NetPort)].sparedOf true = none ∧ (3 : Fin 9) ≠ 8 ∧ s.prov.lane8Wired.getLsbD (0 : NetPort).val = true ∧
    8 ∉ s.netPorts[(0 : NetPort)].failedOf true := by decide +kernel
theorem witness_lane_group : let q : NetPortSt := {}
    up.prov.lane8Wired.getLsbD (0 : NetPort).val = false ∧ ((q.markLane 3 true).groupOk true = true) := by decide +kernel
theorem witness_port_fails : let q : NetPortSt := ({} : NetPortSt).markLane 5 true
    (q.markLane 3 true).groupOk false = false ∧ (q.markLane 3 true).groupOk true = false ∧ q.failed = false ∧ q.laneGroup = none := by decide +kernel
theorem witness_port_remap : let s : State := { led with netPorts := led.netPorts.set 2 { failed := true, inService := false } }
    s.netPorts[(2 : NetPort)].failed = true ∧ s.netPorts[(2 : NetPort)].replaced = false ∧ s.mayRepair = true ∧ (2 : NetPort) ≠ 16 ∧
    s.spareFree = true := by decide +kernel
theorem witness_port_fault : let s : State := { one running with netPorts := up.netPorts.set 16 { failed := true, inService := false } }
    s.netPorts[(16 : NetPort)].failed = true ∧ s.spareFree = false ∧ canFault (s.pitch 0) := by unfold canFault; decide +kernel

theorem witness_rotation : let s : State := { led with glob := { led.glob with mgmtTick := 512 } }
    s.rotationDue 1 = true ∧ s.rotationDue 0 = false := by decide +kernel
theorem witness_rotation_waits : let s := one running
    let t : State := { s with clusters := s.clusters.set 0 { rotation := some 3, pegsThen := s.pegPlaces } }
    t.clusters[(0 : Fin 8)].rotation = some 3 ∧ t.pegBoundary t.clusters[(0 : Fin 8)].pegsThen = false := by decide +kernel
theorem witness_rotation_effect : let t : State := { led with clusters := led.clusters.set 0 { rotation := some 3 } }
    t.clusters[(0 : Fin 8)].rotation = some 3 ∧ t.clusters[(0 : Fin 8)].broken = [] ∧ t.clusters[(0 : Fin 8)].spare = some 8 ∧
    some 3 ∈ t.clusters[(0 : Fin 8)].map ∧ t.pegBoundary t.clusters[(0 : Fin 8)].pegsThen = true := by decide +kernel
theorem witness_rotation_test : let t : State := { led with clusters := led.clusters.set 0 { testing := some (3, 0), spare := none } }
    t.clusters[(0 : Fin 8)].testing = some (3, 0) ∧ t.coreRuns (.cc 0) = true ∧ (∀ v ∈ ([] : List W128), v = BitVec.ofNat 128 sandVectorOutput) :=
  ⟨by decide +kernel, by decide +kernel, by simp⟩

/-- A corrected word of staging row `row` of bank 0, met by a scrub. -/
def stagingWord : EccWord := { mem := .staging, addr := stagingBase, owner := none, corrected := true }
theorem witness_ecc : stagingWord.corrected = true ∧ stagingWord.mem ≠ .hbm ∧ stagingWord.owner = none ∧ stagingWord.endsPass = false ∧
    (stagingWord.mem, (sramRow stagingWord.mem stagingWord.addr).1 * 2 ^ 32 + (sramRow stagingWord.mem stagingWord.addr).2) ∉ up.health.rowErrors ∧
    ({ stagingWord with mem := .hbm } : EccWord).mem = .hbm ∧ ({ stagingWord with corrected := false } : EccWord).corrected = false := by decide +kernel
theorem witness_ecc_row : let s : State := { led with health := { led.health with
      rowErrors := [(.staging, (sramRow .staging stagingBase).1 * 2 ^ 32 + (sramRow .staging stagingBase).2)] } }
    (stagingWord.mem, (sramRow stagingWord.mem stagingWord.addr).1 * 2 ^ 32 + (sramRow stagingWord.mem stagingWord.addr).2) ∈ s.health.rowErrors ∧
    (sramRow stagingWord.mem stagingWord.addr).1 ∉ s.health.withdrawn ∧ s.rowsUsed (sramRow stagingWord.mem stagingWord.addr).1 < 4 := by decide +kernel
theorem witness_segment : let s : State := { led with health := { led.health with due := [192 * 1 + 5] } }
    192 * (1 : Fin 6).val + 5 ∈ s.health.due ∧ s.freeSegment (1 : Fin 6).val = some 0 ∧ 192 * (1 : Fin 6).val + 6 ∉ s.health.due := by decide +kernel
theorem witness_segment_exhausted : let s : State := { led with health := { led.health with
      due := [0], copying := (List.range 8).map (fun k => (0, k + 1, k)) } }
    192 * (0 : Fin 6).val + 0 ∈ s.health.due ∧ s.freeSegment (0 : Fin 6).val = none := by decide +kernel
theorem witness_remap_effect : ([((1 : Fin 6).val, 5, 0)] : List (Nat × Nat × Nat)).filter (fun e => e.1 = (1 : Fin 6).val) = [(1, 5, 0)] := by decide
theorem witness_uncorrectable : canFault ((one running).pitch 0) ∧ (up.pitch 1).mode = .unbound := by unfold canFault; decide +kernel

/-- Lane 8 takes the place of a lane that failed (12 R280). -/
theorem test_lane_spare : after (exec (.networkPortRetrain 0 3 true) { led with prov := { led.prov with lane8Wired := 1 } })
    (fun t => t.netPorts[(0 : NetPort)].sparedTx = some 3 && t.netPorts[(0 : NetPort)].laneSpares = 1) = true := by decide +kernel
/-- An uncorrectable word faults the pitch whose data it holds (23 R487). -/
theorem test_uncorrectable : after (exec (.uncorrectableEcc 0 .staging stagingBase) (one running)) (fun t => (t.pitch 0).mode = .faulted) = true := by
  decide +kernel

/-! ## Descriptors -/

/-- Descriptor d at the head of work queue 2. -/
def describing (d : Bytes) : State :=
  (one { queued with queues := { ptrs := [(2, ⟨0, 1⟩)] } }).write (queueBase 0 + 0xC000) d

/-- A descriptor of 64 bytes from its first bytes. -/
def descBytes (d : Bytes) : Bytes := d ++ List.replicate (64 - d.length) 0

/-- DescAt and CplRoom as a test. -/
def descB (s : State) (p : PitchId) (q : Nat) (d : Bytes) : Bool :=
  !s.held && decide (s.headDesc p q = some d) && !(s.pitch p).descStalled d && decide (s.turn p = some q)
theorem desc_of {s : State} {p : PitchId} {q : Nat} {d : Bytes} (h : descB s p q d = true) : DescAt s p q d := by
  simp only [descB, Bool.and_eq_true, Bool.not_eq_true', decide_eq_true_eq] at h
  exact ⟨h.1.1.1, h.1.1.2, h.1.2, h.2⟩

theorem witness_cpl_room : CplRoom ((describing (descBytes [9])).pitch 0) 2 := by unfold CplRoom; decide +kernel
theorem witness_desc_reserved : DescAt (describing (descBytes [9])) 0 2 (descBytes [9]) ∧ 5 < descKind (descBytes [9]) :=
  ⟨desc_of (by decide +kernel), by decide⟩
theorem witness_desc_held : let s := describing (descBytes [9])
    let x := s.pitch 0
    let y := { x with queues := { x.queues with ptrs := [(2, ⟨0, 1⟩), (1026, ⟨0, 16⟩)] } }
    DescAt (s.setPitch 0 y) 0 2 (descBytes [9]) ∧ y.hasRoom (qCq (y.queueRec 2)) = false ∧ (y.ring (qCq (y.queueRec 2))).isSome = true :=
  ⟨desc_of (by decide +kernel), by decide +kernel, by decide +kernel⟩
theorem witness_desc_checks : ∀ k ∈ [1, 2, 3, 4, 5], descB (describing (descBytes [k, 0xFF, 0xFF, 0xFF])) 0 2 (descBytes [k, 0xFF, 0xFF, 0xFF]) = true ∧
    (k = 1 → (((describing (descBytes [k, 0xFF, 0xFF, 0xFF])).pitch 0).ingestCheck (descBytes [k, 0xFF, 0xFF, 0xFF])).isSome = true) ∧
    (k = 2 → ((describing (descBytes [k, 0xFF, 0xFF, 0xFF])).dispatchCheck 0 (descBytes [k, 0xFF, 0xFF, 0xFF])).isSome = true) ∧
    (k = 3 → (((describing (descBytes [k, 0xFF, 0xFF, 0xFF])).pitch 0).combineCheck (descBytes [k, 0xFF, 0xFF, 0xFF])).isSome = true) ∧
    (k = 4 → (((describing (descBytes [k, 0xFF, 0xFF, 0xFF])).pitch 0).osCheck 0 (descBytes [k, 0xFF, 0xFF, 0xFF])).isSome = true) ∧
    (k = 5 → (((describing (descBytes [k, 0xFF, 0xFF, 0xFF])).pitch 0).deltaFirst (descBytes [k, 0xFF, 0xFF, 0xFF])).isSome = true) := by decide +kernel

/-- A reserved KIND is refused with E_RESERVED in its completion (17 R369). -/
theorem test_reserved_kind : after (exec (.reservedKindDescriptor 0 2) (describing (descBytes [9])))
    (fun t => leAt (t.read (queueBase 0 + 0xC400) 64) 0 1 = 9 && leAt (t.read (queueBase 0 + 0xC400) 64) 2 2 = eReserved) = true := by decide +kernel
/-- The pitch of `describing` with the buckets of `piped`, a one-sided region and 1 expert. -/
def working (x : Pitch) (d : Bytes) : State :=
  (one { x with
    eff := { queued.eff with base := [⟨1, 0, 1⟩, ⟨0xE, 0, hbmBase + 0x1000 * 2 ^ 64⟩, ⟨0x13, 0, 1⟩, ⟨0x14, 0, hbmBase + 0x700000⟩], buckets := [tiny 0, tiny 1] }
    queues := { ptrs := [(2, ⟨0, 1⟩)] } }).write (queueBase 0 + 0xC000) d

/-- Ingest of both blocks of bucket 0, LAST, BF16 (06 R131); adds of no bytes and a WRITE of 4 bytes to the own rank (10 R244); a dispatch of no
tokens, and a combine of it (10 R238, R242). -/
def ingestDesc : Bytes := descBytes ([1, 2, 1, 0, 7, 0, 0, 0] ++ leBytes 4 0 ++ leBytes 4 0 ++ leBytes 4 128 ++ leBytes 4 0 ++ leBytes 8 0x1000)
def noAddDesc : Bytes := descBytes [4, 2, 0, 0, 7, 0, 0, 0]
def writeDesc : Bytes := descBytes ([4, 0, 0, 0, 7, 0, 0, 0] ++ leBytes 8 4 ++ leBytes 8 0 ++ leBytes 8 (2 ^ 63 + hbmBase))
def dispatchDesc : Bytes := descBytes ([2, 0, 1, 0, 7, 0, 9, 0] ++ leBytes 4 0 ++ leBytes 2 8 ++ leBytes 2 4)
def combineDesc : Bytes := descBytes [3, 0, 1, 0, 7, 0, 9, 0]
/-- Pitch with the exchange of that dispatch complete. -/
def exchanged : Pitch := { running with exchanges := [{ exch := 9, stepLo := 7, own := some [0], elems := 8, complete := true }] }

theorem witness_ingest : DescAt (working running ingestDesc) 0 2 ingestDesc ∧ descKind ingestDesc = 1 ∧
    ((working running ingestDesc).pitch 0).ingestCheck ingestDesc = none := ⟨desc_of (by decide +kernel), by decide, by decide +kernel⟩
theorem witness_os_empty : DescAt (working running noAddDesc) 0 2 noAddDesc ∧ ((working running noAddDesc).pitch 0).osCheck 0 noAddDesc = none ∧
    osPieces noAddDesc [] = [] ∧ CplRoom ((working running noAddDesc).pitch 0) 2 :=
  ⟨desc_of (by decide +kernel), by decide +kernel, by decide +kernel, by unfold CplRoom; decide +kernel⟩
/-- What descFetch answers, as data. -/
def fetched (f : DescFetch) : Option (List Bytes) := match f with | .ready d => some d | _ => none
theorem ready_fetch {f : DescFetch} {d : List Bytes} (h : fetched f = some d) : f = .ready d := by
  cases f <;> simp_all [fetched]
theorem witness_os_write : DescAt (working running writeDesc) 0 2 writeDesc ∧ ((working running writeDesc).pitch 0).osCheck 0 writeDesc = none ∧
    (working running writeDesc).descFetch 0 2 ((working running writeDesc).pitch 0).descKey (osNeeds writeDesc) = .ready [[0, 0, 0, 0]] ∧
    osPieces writeDesc [0, 0, 0, 0] = [(0, [0, 0, 0, 0])] :=
  ⟨desc_of (by decide +kernel), by decide +kernel, ready_fetch (by decide +kernel), by decide +kernel⟩
theorem witness_dispatch : DescAt (working running dispatchDesc) 0 2 dispatchDesc ∧ (working running dispatchDesc).dispatchCheck 0 dispatchDesc = none ∧
    (working running dispatchDesc).descFetch 0 2 ((working running dispatchDesc).pitch 0).descKey (dispatchNeeds dispatchDesc) = .ready [[], []] :=
  ⟨desc_of (by decide +kernel), by decide +kernel, ready_fetch (by decide +kernel)⟩
theorem witness_combine : DescAt (working exchanged combineDesc) 0 2 combineDesc ∧ ((working exchanged combineDesc).pitch 0).combineCheck combineDesc = none ∧
    ((working exchanged combineDesc).pitch 0).dispatched 9 = some { exch := 9, stepLo := 7, own := some [0], elems := 8, complete := true } :=
  ⟨desc_of (by decide +kernel), by decide +kernel, by decide +kernel⟩

/-- An image header of 4 elements, BF16, and the delta descriptors that encode or expand its one block, image and data in HBM (15 R318 to R320). -/
def imgHead : Bytes := let h := [0x44, 0x49, 0x4D, 0x47, 1, 1, 0, 0] ++ leBytes 8 4 ++ leBytes 4 1 ++ List.replicate 40 0; h ++ leBytes 4 (crc32c h)
def deltaDesc (op : Byte) : Bytes :=
  descBytes ([5, op, 1, 0, 0, 0, 0, 0] ++ leBytes 4 0 ++ leBytes 4 1 ++ leBytes 8 (2 ^ 63 + hbmBase) ++ leBytes 8 0 ++ leBytes 8 (2 ^ 63 + hbmBase + 0x10000))
def deltaState (op : Byte) : State := (working running (deltaDesc op)).write hbmBase imgHead
theorem witness_delta : ∀ op ∈ ([0, 1] : Bytes), descB (deltaState op) 0 2 (deltaDesc op) = true ∧ ((deltaState op).pitch 0).deltaFirst (deltaDesc op) = none ∧
    fetched ((deltaState op).descFetch 0 2 ((deltaState op).pitch 0).descKey [((deltaOpOf (deltaDesc op)).img, 64)]) = some [imgHead] ∧
    ((deltaState op).pitch 0).deltaSecond (deltaDesc op) imgHead = none ∧
    (fetched ((deltaState op).descFetch 0 2 ((deltaState op).pitch 0).descKey ((deltaOpOf (deltaDesc op)).ranges imgHead))).isSome = true := by
  decide +kernel

/-- An ingest descriptor asks for its 256 bytes (06 R131); an add of no bytes completes at once (10 R244). -/
theorem test_ingest : after (exec (.ingestDescriptor 0 2) (working running ingestDesc))
    (fun t => t.dma.map DmaReq.len = [256] && ((t.pitch 0).qptr 2).head = 1) = true := by decide +kernel
theorem test_os_empty : after (exec (.oneSidedDescriptor 0 2) (working running noAddDesc))
    (fun t => leAt (t.read (queueBase 0 + 0xC400) 64) 0 4 = 4 + 256) = true := by decide +kernel
/-! ## Frames -/

/-- A group secret of 48 zero bytes, and the traffic key of group 5 at EPOCH 1 that it gives (12 R287). -/
def secret : Secret := ⟨List.replicate 48 0, 0⟩
def keyLit : Bytes := beBytes 32 0xbe04bf6c49b899f92974adeac355b9d497e356f000e5c2b8fdf7ac64cd69a8af
theorem key_lit : trafficKey secret 5 1 = keyLit := by decide +kernel

/-- A member of a group of three at EPOCH 1, RUNNING, with slots everywhere and a one-sided region of 4,096 bytes and one register. -/
def member (r : Nat) : Pitch := { running with
  plan := Vector.replicate 32 0xFFFE, planEff := Vector.replicate 32 0xFFFE, keys := { current := some secret }
  eff := { base := [⟨1, 0, 1⟩, ⟨2, 0, 8⟩, ⟨0xE, 0, hbmBase + 0x1000 * 2 ^ 64 + 0x10000 * 2 ^ 128⟩], buckets := [tiny 0] }
  member := { record := { group := 5, rank := BitVec.ofNat 16 r, n := 3, epoch := 1, role := 1, word := 1 } } }

/-- What the keys give of a frame, from the literal key. -/
def opens (x : Pitch) (f : Frame) (d : Bytes) : Bool :=
  decide (x.keys.current = some secret) && decide (x.member.record.group = 5) && decide (f.epoch = 1) && decide (f.openWith keyLit = some d)
theorem opens_openBy {x : Pitch} {f : Frame} {d : Bytes} (h : opens x f d = true) : x.openBy f f.epoch x.keys.current = some d := by
  simp only [opens, Bool.and_eq_true, decide_eq_true_eq] at h
  obtain ⟨⟨⟨h1, h2⟩, h3⟩, h4⟩ := h
  rw [h1, Pitch.openBy, Option.bind_some, h2, h3]
  exact key_lit ▸ h4

/-- The conditions of Received for pitch 0 of a state, and a property of the frame, as one Boolean. -/
def receivedB (x : Pitch) (rx : Rx) (d : Bytes) (g : Frame → Bool) : Bool :=
  match (one x).parse rx with
  | .frame p f => decide (p = 0) && x.answering && x.headerOk f && decide (f.epoch = x.member.record.epoch.toNat) && f.crcOk && opens x f d && g f
  | _ => false

theorem received_of {x : Pitch} {rx : Rx} {d : Bytes} {g : Frame → Bool} (h : receivedB x rx d g = true) :
    ∃ f, Received (one x) rx 0 f d ∧ g f = true := by
  unfold receivedB at h
  split at h
  · next p f hp =>
    simp only [Bool.and_eq_true, decide_eq_true_eq] at h
    obtain ⟨⟨⟨⟨⟨⟨h1, h3⟩, h4⟩, h5⟩, h6⟩, h7⟩, h8⟩ := h
    subst h1
    exact ⟨f, ⟨rfl, hp, h3, h4, h5, h6, opens_openBy h7⟩, h8⟩
  · cases h

/-- The conditions of Fresh beside those of Received. -/
def freshB (x : Pitch) (rx : Rx) (d : Bytes) (g : Frame → Bool) : Bool :=
  !rx.decoderSlip && receivedB x rx d (fun f => f.data && decide (x.mode = .running) &&
    !(decide (f.seq < (x.chan f.src).rcvNext) || (x.chan f.src).marked f.seq) &&
    decide (f.seq < (x.chan f.src).rcvNext + 4096) && (one x).fragmentOk 0 f d && g f)

theorem fresh_of {x : Pitch} {rx : Rx} {d : Bytes} {g : Frame → Bool} (h : freshB x rx d g = true) : ∃ f, Fresh (one x) rx 0 f d ∧ g f = true := by
  unfold freshB at h
  simp only [Bool.and_eq_true, Bool.not_eq_true'] at h
  obtain ⟨hs, h⟩ := h
  obtain ⟨f, hr, h⟩ := received_of h
  simp only [Bool.and_eq_true, decide_eq_true_eq, Bool.not_eq_true', Bool.or_eq_false_iff, decide_eq_false_iff_not] at h
  obtain ⟨⟨⟨⟨⟨h1, h2⟩, h3, h3'⟩, h4⟩, h5⟩, h6⟩ := h
  refine ⟨f, ⟨hr, h1, h2, ?_, h4, h5, hs⟩, h6⟩
  rintro (h | h)
  · exact h3 h
  · exact absurd (show (x.chan f.src).marked f.seq = true from h) (by simp [h3'])

/-- The conditions of HeartbeatIn for pitch 0. -/
def beatB (x : Pitch) (rx : Rx) (d : Bytes) (g : Frame → Bool) : Bool :=
  match (one x).parse rx with
  | .frame p f => decide (p = 0) && decide (f.kind = .heartbeat) && x.answering && decide (f.group = x.member.record.group.toNat) &&
      decide (f.dst = x.rank) && decide (f.src < x.size) && f.crcOk && opens x f d && g f
  | _ => false

theorem beat_of {x : Pitch} {rx : Rx} {d : Bytes} {g : Frame → Bool} (h : beatB x rx d g = true) :
    ∃ f, HeartbeatIn (one x) rx 0 f d ∧ g f = true := by
  unfold beatB at h
  split at h
  · next p f hp =>
    simp only [Bool.and_eq_true, decide_eq_true_eq] at h
    obtain ⟨⟨⟨⟨⟨⟨⟨⟨h1, h2⟩, h3⟩, h4⟩, h5⟩, h6⟩, h7⟩, h8⟩, h9⟩ := h
    subst h1
    exact ⟨f, ⟨rfl, hp, h2, h3, h4, h5, .inl h6, h7, opens_openBy h8⟩, h9⟩
  · cases h

/-! Frames on port 0 from rank 1 to rank 0 of the group, unless said otherwise; SEQ 0, EPOCH 1. -/

/-- WRITE of 1, 2, 3, 4 to offset 0. -/
def fWrite : Rx := ⟨0, beBytes 56 0x00000000000000000000000086dd60000000004811400000000000000000000500000001000000000000000000000005000000000000c000 ++
  beBytes 56 0xc4b700487d7311010005000000010005000000010000000400000000000000000000ffffff0b0000000000000000ac711c74634af4e8e0b7 ++
  beBytes 18 0x1fab0b63aa2d94dda9daf970ddd4fa032b39, false⟩
/-- ADD_FX32. -/
def fAdd32 : Rx := ⟨0, beBytes 56 0x00000000000000000000000086dd60000000004811400000000000000000000500000001000000000000000000000005000000000000c000 ++
  beBytes 56 0xc4b700485f7411040005000000010005000000010000000400000000000000000000ffffff0b0000000000000000ac711c74bcc9ecf5c5c9 ++
  beBytes 18 0x8c78a1866d62248ee2b954e9db04de8855ad, false⟩
/-- ADD_FX64. -/
def fAdd64 : Rx := ⟨0, beBytes 56 0x00000000000000000000000086dd60000000004c11400000000000000000000500000001000000000000000000000005000000000000c000 ++
  beBytes 56 0xc4b7004c979b11050005000000010005000000010000000800000000000000000000ffffff0b0000000000000000ac711c7419b9fff6da10 ++
  beBytes 22 0x14993160dcff2837d23457f5ff8f5eff424261cebc99, false⟩
/-- ADD_ERG640 of one register. -/
def fErg : Rx := ⟨0, beBytes 56 0x00000000000000000000000086dd60000000009411400000000000000000000500000001000000000000000000000005000000000000c000 ++
  beBytes 56 0xc4b70094bbcb11060005000000010005000000010000005000000000000000000000ffffff0b0000000000000000ac731f701cbff8fed1b2 ++
  beBytes 56 0xa5caac00fa45a5b1be780f9ba2433fdbba67fe72d853e92e69ce4e9dd240b7419fc8c96e59aec7eeda1d20300312328e4c5f38d4abe78e5a ++
  beBytes 38 0x3a72d2fb88081f6bd83dc791db4cf2d40c6a9ca02380736ef00b0c55ada03573dfb982ac2c94, false⟩
/-- READ_REQ of 4 bytes. -/
def fReadReq : Rx := ⟨0, beBytes 56 0x00000000000000000000000086dd60000000004c11400000000000000000000500000001000000000000000000000005000000000000c000 ++
  beBytes 56 0xc4b7004c193011020005000000010005000000010000000800000000000000000000ffffff0b0000000000000000a9731f701cbff8fe043e ++
  beBytes 22 0xd72250d94dcf4baec09e0efc457e4e0b49c3a40973cd, false⟩
/-- CAS64 of 0 by 1. -/
def fCas : Rx := ⟨0, beBytes 56 0x00000000000000000000000086dd60000000005411400000000000000000000500000001000000000000000000000005000000000000c000 ++
  beBytes 56 0xc4b700549bdd11070005000000010005000000010000001000000000000000000000ffffff0b0000000000000000ad731f701cbff8fed0b2 ++
  beBytes 30 0xa5caac00fa459e9e2d98574c74e23fe40d90e65306b043f8b83ad50a3ee7, false⟩
/-- READ_RESP of 2 bytes to request 3. -/
def fReadResp : Rx := ⟨0, beBytes 56 0x00000000000000000000000086dd60000000004e11400000000000000000000500000001000000000000000000000005000000000000c000 ++
  beBytes 56 0xc4b7004eb1a111030005000000010005000000010000000a00000000000000000000ffffff0b0000000000000000ae731f701cbff8fed0b0 ++
  beBytes 24 0x54cba5fefb1819e773d7f9a0df7dffe12269856ab7f00fb6, false⟩
/-- contribution: block 0 of bucket 0, all zeros, SCALE 120. -/
def fContrib : Rx := ⟨0, beBytes 56 0x00000000000000000000000086dd60000000005411400000000000000000000500000001000000000000000000000005000000000000c000 ++
  beBytes 56 0xc4b7005473df11040005000000010005000000010000001000000000000000000000000000000000000000000000bc791d7064bff8fed1b2 ++
  beBytes 30 0xa5caac00fa45ff4e2336100ee3c18480c871c59bbda3aced0ca3ac04ec0f, false⟩
/-- broadcast: block 0 of bucket 0, all zeros. -/
def fBcast : Rx := ⟨0, beBytes 56 0x00000000000000000000000086dd60000000005411400000000000000000000500000001000000000000000000000005000000000000c000 ++
  beBytes 56 0xc4b70054ca0f110100050000000100050000000100000010000000000000000000000000000000000000000000008c791d7064bff8fed1b2 ++
  beBytes 30 0xa5caac00fa454eb051343125c3e45ffab4b77c95eead0e05570178b0a149, false⟩
/-- RETRY of block 0, attempt 1. -/
def fRetry : Rx := ⟨0, beBytes 56 0x00000000000000000000000086dd60000000004c11400000000000000000000500000001000000000000000000000005000000000000c000 ++
  beBytes 56 0xc4b7004c6ecc11010005000000010005000000010000000800000000000000000000ffffff030000000000000000ad731f701db8f8fe04da ++
  beBytes 22 0x460c6cf0a7c73737b490f739ae932c2dfab153f00a5d, false⟩
/-- FACTOR_SUM of block 0. -/
def fFactor : Rx := ⟨0, beBytes 56 0x00000000000000000000000086dd60000000014c11400000000000000000000500000001000000000000000000000005000000000000c000 ++
  beBytes 56 0xc4b7014c9a0c11010005000000010005000000010000010800000000000000000000ffffff040000000000000000ad731f7064bff8fed0b2 ++
  beBytes 56 0xa5caac00fa45a5b1be780f9ba2433fdbba67fe72d853e92e69ce4e9dd240b7419fc8c96e59aec7eeda1d20300312328e4c5f38d4abe78e5a ++
  beBytes 56 0x3a72d2fb88081f6bd83dc791db4c809eee384700755bc30dd22cc98d5611a0997ab7948915943aa1b568de921798221773da9ffc830ecf64 ++
  beBytes 56 0x3306c18431bfd928966ffacfb4949cf5ce9148905a373fd502697c22eaa9c00cd1f377610a5d5fe22347ca15aeab677a01a568e828734d66 ++
  beBytes 56 0x16d5091fdf9b665cfc95e7ffc6c5528c86d0d0211df719fe90a559b0efbc7003b313c365be69a27c79844b05add1012fd0d9884dfc93687a ++
  beBytes 54 0x353010fe4df31b16fa20446efeee8bbd4225423bcdbc47022522cca2f7deafc65e4b2040ba1cc5d7ffe0ff8476ef27f3d3a89507876f, false⟩
/-- agreement record of bucket 0. -/
def fAgreeUp : Rx := ⟨0, beBytes 56 0x00000000000000000000000086dd60000000005c11400000000000000000000500000001000000000000000000000005000000000000c000 ++
  beBytes 56 0xc4b7005c3c8f11010005000000010005000000010000001800000000000000000000ffffff010000000000000000ad731f701bbff8fed3b2 ++
  beBytes 38 0xa5caac00fa45ddc9be780f9ba243472c1e862c2eb9bdf95e1df658d5e01f7ec3c3891c811d7d, false⟩
/-- the same record from rank 0 to rank 1. -/
def fAgreeDown : Rx := ⟨0, beBytes 56 0x00000000000000000000000086dd60000000005c11400000000000000000000500000000000000000000000000000005000000010000c000 ++
  beBytes 56 0xc4b7005ca7f911010005000000010005000000000001001800000000000000000000ffffff02000000000000000033c46c6efa47667f175f ++
  beBytes 38 0xd4ad6923904dc3dd2e9fd2eb1d85db790302d344385914d556efc0156ecb5ea1158b192d2ea7, false⟩
/-- NORM_UP. -/
def fNormUp : Rx := ⟨0, beBytes 56 0x00000000000000000000000086dd60000000009411400000000000000000000500000001000000000000000000000005000000000000c000 ++
  beBytes 56 0xc4b7009452d311060005000000010005000000010000005000000000000000000000ffffff050000000000000000ac731f701cbff8fed1b2 ++
  beBytes 56 0xa5caac00fa45a5b1be780f9ba2433fdbba67fe72d853e92e69ce4e9dd240b7419fc8c96e59aec7eeda1d20300312328e4c5f38d4abe78e5a ++
  beBytes 38 0x3a72d2fb88081f6bd83dc791db4c2bd8bc29a9f600577b609fb843d08ac552538ca9761732ee, false⟩
/-- NORM_DOWN of step 7 to rank 1. -/
def fNormDown : Rx := ⟨0, beBytes 56 0x00000000000000000000000086dd60000000009c11400000000000000000000500000000000000000000000000000005000000010000c000 ++
  beBytes 56 0xc4b7009ce4eb11010005000000010005000000000001005800000000000000000000ffffff06000000000000000034c46c6efd47667f145f ++
  beBytes 56 0xd4ad6923904dbba52e9fd2eb1d85a0dffbc3d4741a1809ec960d19d61e230cde477f19f0248ecaba565fcca0d828977a2cf40aee107a8b39 ++
  beBytes 46 0xa05dc7a9bac60e1adcac12e4e5d39663c08212c4b8b8e6b95159ff0add47aa5332ae767f8789059c7dbd4f81b592, false⟩
/-- count vector of EXCH 9. -/
def fScanUp : Rx := ⟨0, beBytes 56 0x00000000000000000000000086dd60000000005c11400000000000000000000500000001000000000000000000000005000000000000c000 ++
  beBytes 56 0xc4b7005c774911010005000000010005000000010000001800000000000000000009ffffff070000000000000000a473187014bff8fed1b2 ++
  beBytes 38 0xa5caac00fa45a6b1be780f9ba2439c4598b5f51b28bee3c17403918faf3ced361ae790a95a6b, false⟩
/-- count vectors of EXCH 9 to rank 1. -/
def fScanDown : Rx := ⟨0, beBytes 56 0x00000000000000000000000086dd60000000006411400000000000000000000500000000000000000000000000000005000000010000c000 ++
  beBytes 56 0xc4b70064c13611010005000000010005000000000001002000000000000000000009ffffff0800000000000000003ac46b6eed47667f155f ++
  beBytes 46 0xd4ad6923904dbaa52e9fd2eb1d85a3dffbc3d4741a184ef1c34eeecabfc6956eadeaa2a0e2c04b178eebca02593f, false⟩
/-- arrival at barrier 0. -/
def fArrival : Rx := ⟨0, beBytes 56 0x00000000000000000000000086dd60000000005411400000000000000000000500000001000000000000000000000005000000000000c000 ++
  beBytes 56 0xc4b7005498c111080005000000010005000000010000001000000000000000000000000000000000000000000000aa731f701cbff8fed1b2 ++
  beBytes 30 0xa5caac00fa45f0b0f9f90dc5a0ba674d0d72b9033b258ffa412a57a64e60, false⟩
/-- RELEASE_TIME 5,000 to rank 1. -/
def fRelease : Rx := ⟨0, beBytes 56 0x00000000000000000000000086dd60000000005411400000000000000000000500000000000000000000000000000005000000010000c000 ++
  beBytes 56 0xc4b7005448251108000500000001000500000000000100100000000000000000000000000000000000000000000034c46c6efc47667f9d4c ++
  beBytes 30 0xd4ad6923904d0a1b9298db90295af2877031617bf156e04d7a5c77c3ab80, false⟩
/-- token fragment of EXCH 9: slot 0, 2 codes. -/
def fToken : Rx := ⟨0, beBytes 56 0x00000000000000000000000086dd60000000005611400000000000000000000500000001000000000000000000000005000000000000c000 ++
  beBytes 56 0xc4b70056a0a911010005000000010005000000010000001200000000000000000009ffffff090000000000000000ad731f701cc0f8fed1b2 ++
  beBytes 32 0xa5caac00fa45a4b3bae4437abdfa1624b9e0c07c478e8404e2ba2960bbe65bfb, false⟩
/-- result fragment of EXCH 9, 2 codes. -/
def fReturn : Rx := ⟨0, beBytes 56 0x00000000000000000000000086dd60000000004e11400000000000000000000500000001000000000000000000000005000000000000c000 ++
  beBytes 56 0xc4b7004e58a011010005000000010005000000010000000a00000000000000000009ffffff0a0000000000000000ad731f701cc0f8fed0b0 ++
  beBytes 24 0x4689929fabfb790a1cd7b32771f45ee41db1a1b83ad54b34, false⟩
/-- a reserved DATA opcode. -/
def fOpcode : Rx := ⟨0, beBytes 56 0x00000000000000000000000086dd60000000004511400000000000000000000500000001000000000000000000000005000000000000c000 ++
  beBytes 56 0xc4b70045703611090005000000010005000000010000000100000000000000000000000000000000000000000000accab21fcdfbdd46a798 ++
  beBytes 15 0x77d303771713ec8e85a243daa5db06, false⟩
/-- a reserved target. -/
def fTarget : Rx := ⟨0, beBytes 56 0x00000000000000000000000086dd60000000004511400000000000000000000500000001000000000000000000000005000000000000c000 ++
  beBytes 56 0xc4b70045e98511010005000000010005000000010000000100000000000000000000ffffff0c0000000000000000acbcddce3a961b2f3b0a ++
  beBytes 15 0x48018472538025eca1c47eea026fe2, false⟩
/-- a broadcast that is no stream. -/
def fBad : Rx := ⟨0, beBytes 56 0x00000000000000000000000086dd60000000004511400000000000000000000500000001000000000000000000000005000000000000c000 ++
  beBytes 56 0xc4b70045fa5011010005000000010005000000010000000100000000000000000000000000000000000000000000acc4b5dffa59b96a2176 ++
  beBytes 15 0x2b744f086fab157b1bc01c57d7b333, false⟩
/-- ACK up to SEQ 0. -/
def fAck : Rx := ⟨0, beBytes 56 0x00000000000000000000000086dd60000000007c11400000000000000000000500000001000000000000000000000005000000000000c000 ++
  beBytes 56 0xc4b7007cc79b1210000500000001000500000001000000380000000000000000000000000000000000000000000053188d8ffa0eed1fe3bb ++
  beBytes 56 0x9c50d317465b085351018925ca705e1b0015834ef6fff50d285f50dc3d9b4ad6efe580853b54cd6819266e7eb8e99c4aa474cc23b5784380 ++
  beBytes 14 0xb8b2933d6646de0772f7b86bf1da, false⟩
/-- NACK of SEQ 0, DAMAGED. -/
def fNack : Rx := ⟨0, beBytes 56 0x00000000000000000000000086dd60000000005411400000000000000000000500000001000000000000000000000005000000000000c000 ++
  beBytes 56 0xc4b7005428ed1211000500000001000500000001000000100000000000000000000000000000000000000000000052188d8ffa0eec1fe3bb ++
  beBytes 30 0x9c50d317465b8ccd89600636a7a9fe88e2c6191782685a8444b1b922ecbd, false⟩
/-- a reserved CONTROL opcode. -/
def fCtrl : Rx := ⟨0, beBytes 56 0x00000000000000000000000086dd60000000004511400000000000000000000500000001000000000000000000000005000000000000c000 ++
  beBytes 56 0xc4b7004589271220000500000001000500000001000000010000000000000000000000000000000000000000000053068fd907c963b4e7ef ++
  beBytes 15 0x27089eaaefe2f3ce7b9a848e4a690d, false⟩
/-- FENCE with EPOCH 2. -/
def fFence : Rx := ⟨0, beBytes 56 0x00000000000000000000000086dd60000000004c11400000000000000000000500000001000000000000000000000005000000000000c000 ++
  beBytes 56 0xc4b7004c004f1212000500000001000500000001000000080000000000000000000000000000000000000000000050188d8ffa0eed1f89aa ++
  beBytes 22 0x5c3c136def1faf9085c7dd036ac11ca52111b53485ce, false⟩
/-- BEAT. -/
def fBeat : Rx := ⟨0, beBytes 56 0x00000000000000000000000086dd60000000008411400000000000000000000500000001000000000000000000000005000000000000c000 ++
  beBytes 56 0xc4b70084fae31213000500000001000500000001000000400000000000000000000000000000000000000000000052188d8ff90eed1fe2bb ++
  beBytes 56 0x9c50d317465b085351018925ca705e1b0015834ef6fff20d285f50dc3d9b4ad6efe580853b54cd6819266e7eb8e9577c70f2cd5f525be53c ++
  beBytes 22 0x2985ebcb0ac729a0c4dcd7b70617c6835b60a436494c, false⟩
/-- PROPOSE of rank 2 DEAD from rank 0 to rank 1. -/
def fPropose : Rx := ⟨0, beBytes 56 0x00000000000000000000000086dd60000000008411400000000000000000000500000000000000000000000000000005000000010000c000 ++
  beBytes 56 0xc4b70084c9e112130005000000010005000000000001004000000000000000000000000000000000000000000000afb31ef9a944b43ee56a ++
  beBytes 56 0xeb3f63102994b18230a7b475b03dc54407d0993bbfef70a5b444a82c65117e86c60b5fda15a995a3accd4e146895d2d726972b0f6c5b1eaa ++
  beBytes 22 0x0077fac20ee62ed5f6db514da1f674f97a5a5c4dc60e, false⟩
/-- PROPOSE of rank 2 DEAD to rank 0. -/
def fProposeUp : Rx := ⟨0, beBytes 56 0x00000000000000000000000086dd60000000008411400000000000000000000500000001000000000000000000000005000000000000c000 ++
  beBytes 56 0xc4b70084db2a1213000500000001000500000001000000400000000000000000000000000000000000000000000053188d8ff90eed1fe2bb ++
  beBytes 56 0x9c50d317465b0a5351018b25cb705e1b0015834ef6fff20d285f50dc3d9b4ad6efe580853b54cd6819266e7eb8e9577c70f2cd5f525bcf90 ++
  beBytes 22 0x5bdd90009ca547dce750f7f7a6057c7d6b812ad88185, false⟩
/-- VOTE for it. -/
def fVote : Rx := ⟨0, beBytes 56 0x00000000000000000000000086dd60000000008411400000000000000000000500000001000000000000000000000005000000000000c000 ++
  beBytes 56 0xc4b70084b71a1213000500000001000500000001000000400000000000000000000000000000000000000000000050198d8ff90eed1fe2bb ++
  beBytes 56 0x9c50d317465b0a5351018b25cb705e1b0015834ef6fff20d285f50dc3d9b4ad6efe580853b54cd6819266e7eb8e9577c70f2cd5f525bf118 ++
  beBytes 22 0xa8c7b1c2a853c6aa4929492190799d96b950abcbdbf2, false⟩
/-- COMMIT of it. -/
def fCommit : Rx := ⟨0, beBytes 56 0x00000000000000000000000086dd60000000008411400000000000000000000500000001000000000000000000000005000000000000c000 ++
  beBytes 56 0xc4b7008497e81213000500000001000500000001000000400000000000000000000000000000000000000000000051188d8ff90eed1fe2bb ++
  beBytes 56 0x9c50d317465b0a5351018b25cb705e1b0015834ef6fff20d285f50dc3d9b4ad6efe580853b54cd6819266e7eb8e9577c70f2cd5f525bca60 ++
  beBytes 22 0x5635090bbd1ed0f5344f29d99847638340d73c9ea534, false⟩
/-- QUERY. -/
def fQuery : Rx := ⟨0, beBytes 56 0x00000000000000000000000086dd60000000008411400000000000000000000500000001000000000000000000000005000000000000c000 ++
  beBytes 56 0xc4b7008453c61213000500000001000500000001000000400000000000000000000000000000000000000000000057188d8ff90eed1fe2bb ++
  beBytes 56 0x9c50d317465b085351018925ca705e1b0015834ef6fff20d285f50dc3d9b4ad6efe580853b54cd6819266e7eb8e9577c70f2cd5f525bec24 ++
  beBytes 22 0x34a09558d96dcc678b6c84fc65b255356e5ed79b3489, false⟩
/-- RECORD with the record the members hold. -/
def fRecord : Rx := ⟨0, beBytes 56 0x00000000000000000000000086dd60000000014411400000000000000000000500000001000000000000000000000005000000000000c000 ++
  beBytes 56 0xc4b7014438bc1213000500000001000500000001000001000000000000000000000000000000000000000000000054188d8ff90eed1fe2bb ++
  beBytes 56 0x9c50d317465b085351018925ca705e1b0015834ef6fff20d285f50dc3d9b4ad6efe580853b54cd6819266e7eb8e9577c70f2cd5f525b01a9 ++
  beBytes 56 0xae3a2d18b60034430d237ccd344f71265e8fd035669eeeb480a820b8b38ee21f66b1de310b7dfeb9cce3e09279aaedbb694c076c276aa7c3 ++
  beBytes 56 0x0145c08db2020c8a98b53e14ad89745b328a652dc860b85b804d75b5fa85c199a6f4dd9b1e3ce0a35a2ac83e2bb146bfec5cb2a9c457522d ++
  beBytes 56 0x2716639d4635b2e556aaddfc956d20731afd4dc1bd4b79b53bc6fefed203dd2acba81edf4a27af21dcfabfc32cd3333cb8a03319a0ad1437 ++
  beBytes 46 0xd9ea3007651d82bfb14b008827abdb2ff2788a9b0e26c2c35c8ad7d1ccfe52901950daa27dbfc70a4fda7870c374, false⟩
/-- JOIN. -/
def fJoin : Rx := ⟨0, beBytes 56 0x00000000000000000000000086dd60000000008411400000000000000000000500000001000000000000000000000005000000000000c000 ++
  beBytes 56 0xc4b70084e8181213000500000001000500000001000000400000000000000000000000000000000000000000000056188d8ff90eed1fe3bb ++
  beBytes 56 0x9c50d217475b085351018925ca705e1b0015834ef6fff20d285f50dc3d9b4ad6efe580853b54cd6819266e7eb8e9577c70f2cd5f525b0eb1 ++
  beBytes 22 0x1a76f5d35923f574e1d7ded16c428103e5ccf5ffeb2f, false⟩

/-- Every one-sided frame is accepted and lies in the region (10 R245). -/
theorem witness_os_frame : ∃ f, Fresh (one (member 0)) fWrite 0 f [1, 2, 3, 4] ∧ ((f.kind = .osWrite && f.opcode = opWrite) &&
    (member 0).osAllowed 0 opWrite f.offset [1, 2, 3, 4]) = true := fresh_of (by decide +kernel)
/-- It places its bytes at OS_BASE, and its SEQ counts as seen (11 R263, R267). -/
theorem test_one_sided : after (exec (.oneSidedWrite fWrite) (one (member 0)))
    (fun t => t.read hbmBase 4 = [1, 2, 3, 4] && ((t.pitch 0).chan 1).rcvNext = 1) = true := by decide +kernel
theorem witness_os_outside : (member 0).osAllowed 0 opWrite 0x1000 [1, 2, 3, 4] = false ∧ (member 0).pairing = none := by decide +kernel
theorem witness_os_add32 : ∃ f, Fresh (one (member 0)) fAdd32 0 f [1, 2, 3, 4] ∧ ((f.kind = .osAdd32 && f.opcode = opAdd32) &&
    (member 0).osAllowed 0 opAdd32 f.offset [1, 2, 3, 4]) = true := fresh_of (by decide +kernel)
theorem witness_os_add64 : ∃ f, Fresh (one (member 0)) fAdd64 0 f [1, 2, 3, 4, 5, 6, 7, 8] ∧ ((f.kind = .osAdd64 && f.opcode = opAdd64) &&
    (member 0).osAllowed 0 opAdd64 f.offset [1, 2, 3, 4, 5, 6, 7, 8]) = true := fresh_of (by decide +kernel)
theorem witness_os_erg : ∃ f, Fresh (one (member 0)) fErg 0 f (leBytes 80 1) ∧ ((f.kind = .osErg && f.opcode = opErg) &&
    (member 0).osAllowed 0 opErg f.offset (leBytes 80 1)) = true := fresh_of (by decide +kernel)
theorem witness_read_req : ∃ f, Fresh (one (member 0)) fReadReq 0 f (leBytes 8 4) ∧ ((f.kind = .readReq && f.opcode = opReadReq) &&
    (member 0).osAllowed 0 opReadReq f.offset (leBytes 8 4)) = true := fresh_of (by decide +kernel)
theorem witness_cas : ∃ f, Fresh (one (member 0)) fCas 0 f (leBytes 16 (2 ^ 64)) ∧ ((f.kind = .cas && f.opcode = opCas) &&
    (member 0).osAllowed 0 opCas f.offset (leBytes 16 (2 ^ 64))) = true := fresh_of (by decide +kernel)

/-- A pitch with one READ outstanding to rank 1. -/
def reading : Pitch := { member 0 with osJobs := [{ id := 1, wq := 2, wqHead := 1, cookie := 5, op := 1, len := 4, dst := 1, localAddr := 0x1000, left := 2, reqs := [3] }] }
theorem witness_read_resp : ∃ f, Fresh (one reading) fReadResp 0 f (leBytes 8 3 ++ [1, 2]) ∧ (f.kind = .readResp && f.src = 1 &&
    (one reading).hostUp ((one reading).fetchPort 0 2)) = true := fresh_of (by decide +kernel)

/-- A dense stream of block 0 of bucket 0 that carries 64 zeros at SCALE 120 (09 R204). -/
def zeroStream (kind : Nat) : Stream := ⟨kind, 0x0A, 64, false, 0, 120, 0, List.range 64, List.replicate 64 0, true⟩
def streamLit (kind : Nat) : Bytes := (encodeStream (zeroStream kind) none).1

/-- A pitch with the bucket's run agreed, and with both blocks' contributions of every other rank there and QMAX that may overflow. -/
def reducing : Pitch := { member 0 with runs := [agreedRun] }
theorem witness_contrib : ∃ f, Fresh (one reducing) fContrib 0 f (streamLit kindContrib) ∧ (f.kind = .contrib && f.bucket = 0 &&
    ((one reducing).contribStreams 0 0 (streamLit kindContrib) = some [zeroStream kindContrib])) = true := fresh_of (by decide +kernel)
theorem witness_contrib_place : ContribPlace (one reducing) 0 0 (zeroStream kindContrib) ∧ reducing.size ≤ 65536 ∧
    ((one reducing).crec 0 0 0).count + 1 < reducing.size := by unfold ContribPlace; decide +kernel
theorem witness_contrib_overflow : let s := (one reducing).setCrec 0 0 0 ⟨2, 2 ^ 30, 0, 120⟩
    (s.crec 0 0 0).count + 1 = reducing.size ∧ reducing.runOf 0 = some agreedRun ∧ agreedRun.lr = none ∧ agreedRun.isLow reducing = false ∧
    agreedRun.agreedOf 0 = some ([120, 120], false) ∧ (s.crec 0 0 0).scale % 256 = ([120, 120] : List Nat).getD 0 0 + (s.crec 0 0 0).attempt ∧
    sumMax 0x0A < reducing.size * (max (s.crec 0 0 0).qmax 0 % 2 ^ 32) := by decide +kernel
theorem witness_retry : ∃ f, Fresh (one reducing) fRetry 0 f (retryPayload 0 1 7) ∧ (f.kind = .retry && f.bucket = 0 &&
    leAt (retryPayload 0 1 7) 5 2 = reducing.stepLo.toNat) = true := fresh_of (by decide +kernel)
theorem witness_retry_stale : let x := { reducing with time := { reducing.time with step := 100 } }
    x.stepUsable (leAt (retryPayload 0 1 7) 5 2) = false ∧ leAt (retryPayload 0 1 7) 5 2 ≠ x.stepLo.toNat := by decide +kernel
theorem witness_bcast : ∃ f, Fresh (one reducing) fBcast 0 f (streamLit kindBcast) ∧ (f.kind = .bcast && f.bucket = 0 &&
    (reducing.bcastStreams 0 (streamLit kindBcast) = some [zeroStream kindBcast])) = true := fresh_of (by decide +kernel)

/-- A LOWRANK bucket in the exchange of P. -/
def factoring : Pitch := { member 0 with eff := { buckets := [lowRec] }, runs := [lowRun 2] }
theorem witness_factor_sum : ∃ f, Fresh (one factoring) fFactor 0 f (leBytes 8 (120 * 2 ^ 32) ++ leBytes 256 1) ∧ (f.kind = .factorSum && f.bucket = 0 &&
    1 = (lowRun 2).factorBlocks factoring) = true := fresh_of (by decide +kernel)
theorem witness_factor_run : RunIs factoring 0 (lowRun 2) ∧ (lowRun 2).lr = some { stage := 2 } := ⟨⟨rfl, rfl⟩, rfl⟩

/-- The agreement record of bucket 0 and the count records of EXCH 9. -/
def record7 : Bytes := (⟨0, 7, 0, false, [120, 120], 0, []⟩ : AgreeRec).bytes
theorem witness_agree_up : ∃ f, Fresh (one (member 0)) fAgreeUp 0 f record7 ∧ (f.kind = .agreeUp && f.offset = 0 &&
    record7.length = agreeLen (leAt record7 8 4) (leAt record7 12 2) && (member 0).stepUsable (leAt record7 4 2) &&
    (agreeWith (member 0) f.bucket f.src record7).own.isNone) = true := fresh_of (by decide +kernel)
theorem witness_agree_combines : let x := { member 0 with agrees := [{ bucket := 0, round := 0, stepLo := 7, own := some record7, kids := [(2, record7)] }] }
    (agreeWith x 0 1 record7).own = some record7 ∧ (agreeWith x 0 1 record7).agreed = none ∧ (agreeWith x 0 1 record7).sent = false ∧
    (∀ c ∈ x.children, ∃ k ∈ (agreeWith x 0 1 record7).kids, k.1 = c) ∧ x.rank = 0 := by decide +kernel
theorem witness_agree_down : ∃ f, Fresh (one (member 1)) fAgreeDown 0 f record7 ∧ (f.kind = .agreeDown && f.offset = 0 && f.bucket = 0) = true :=
  fresh_of (by decide +kernel)
theorem witness_agree_stale : ({ member 0 with time := { (member 0).time with step := 100 } } : Pitch).stepUsable (leAt record7 4 2) = false := by
  decide +kernel
theorem witness_scan_up : ∃ f, Fresh (one (member 0)) fScanUp 0 f (countRecord 9 7 [3]) ∧ (f.kind = .scanUp && f.offset = 0 &&
    (countRecord 9 7 [3]).length = 16 + leAt (countRecord 9 7 [3]) 4 4 && (exchangeOf (member 0) (countRecord 9 7 [3])).own.isNone) = true :=
  fresh_of (by decide +kernel)
theorem witness_scan_combines : let x := { member 0 with exchanges := [{ exch := 9, stepLo := 7, own := some [2], kids := [(2, [1])] }] }
    let e := exchangeOf x (countRecord 9 7 [3])
    e.own = some [2] ∧ e.sentUp = false ∧ (∀ c ∈ x.children, ∃ k ∈ kidsWith e 1 (countRecord 9 7 [3]), k.1 = c) ∧ x.rank = 0 := by decide +kernel
/-- Rank 1 with its own counts. -/
def scanning : Pitch := { member 1 with exchanges := [{ exch := 9, stepLo := 7, own := some [2], sentUp := true }] }
theorem witness_scan_down : ∃ f, Fresh (one scanning) fScanDown 0 f (countRecord 9 7 [1, 3]) ∧ (f.kind = .scanDown && f.offset = 0 &&
    (exchangeOf scanning (countRecord 9 7 [1, 3])).own = some [2] && (exchangeOf scanning (countRecord 9 7 [1, 3])).totals.isNone) = true :=
  fresh_of (by decide +kernel)

theorem witness_norm_up : ∃ f, Fresh (one (member 0)) fNormUp 0 f (leBytes 80 1) ∧ (f.kind = .normUp && (member 0).rank = 0 &&
    (member 0).guard.normArrivals + 1 ≠ (member 0).size) = true := fresh_of (by decide +kernel)
theorem witness_norm_last : ({ member 0 with guard := { (member 0).guard with normArrivals := 2 } } : Pitch).guard.normArrivals + 1 = (member 0).size := by
  decide +kernel
theorem witness_norm_down : ∃ f, Fresh (one (member 1)) fNormDown 0 f (normDownPayload 7 1) ∧ (f.kind = .normDown &&
    (member 1).stepUsable (leAt (normDownPayload 7 1) 0 2) && leAt (normDownPayload 7 1) 0 2 = (member 1).stepLo.toNat) = true :=
  fresh_of (by decide +kernel)
theorem witness_norm_ahead : let x := { member 1 with time := { (member 1).time with step := 6 } }
    x.stepUsable (leAt (normDownPayload 7 1) 0 2) = true ∧ leAt (normDownPayload 7 1) 0 2 ≠ x.stepLo.toNat := by decide +kernel

/-- A pitch with one group barrier peg that has fired. -/
def fencing (r : Nat) : Pitch := { member r with pegs := [⟨0, 4, 1⟩], time := { (member r).time with barrier := some true, barriers := 1, nextPeg := 1 }
                                                 gbars := [{ stepLo := 7, ordinal := 0, fired := true, kids := if r = 0 then [2] else [], sentUp := r ≠ 0 }] }
theorem witness_arrival : ∃ f, Fresh (one (fencing 0)) fArrival 0 f (barrierPayload 7 0 0 0) ∧ (f.kind = .barrier && f.src ∈ (fencing 0).children &&
    (fencing 0).barrierOpen 7 0 && ((fencing 0).gbar 7 0).fired && !((fencing 0).gbar 7 0).sentUp &&
    decide (∀ c ∈ (fencing 0).children, c ∈ ((fencing 0).gbar 7 0).kids ∨ c = f.src)) = true := fresh_of (by decide +kernel)
theorem witness_barrier_release : ∃ f, Fresh (one (fencing 1)) fRelease 0 f (barrierPayload 7 0 1 5000) ∧ (f.kind = .barrier && f.src = treeParent (fencing 1).rank &&
    leAt (barrierPayload 7 0 1 5000) 4 1 = 1 && ((fencing 1).gbar (fencing 1).stepLo 0).sentUp && ((fencing 1).gbar (fencing 1).stepLo 0).release.isNone) = true :=
  fresh_of (by decide +kernel)

/-- A pitch whose dispatch of EXCH 9 has tokens of 2 and of 4 elements. -/
def trading (elems : Nat) : Pitch := { member 0 with exchanges := [{ exch := 9, stepLo := 7, wq := 2, own := some [1], elems := elems, hostFmt := 1, stride := 4, kept := 2, k := 1 }] }
def tokenData : Bytes := leBytes 4 0 ++ [0, 127, 0, 0] ++ leBytes 8 0 ++ [1, 2]
def resultData : Bytes := leBytes 4 0 ++ [0, 127, 0, 0] ++ [1, 2]
theorem witness_moe_token : ∃ f, Fresh (one (trading 2)) fToken 0 f tokenData ∧ (f.kind = .moeToken && f.bucket = 9 && f.offset = 0) = true :=
  fresh_of (by decide +kernel)
theorem witness_token_slots : let e := (trading 2).exchanges.headD { exch := 0, stepLo := 0 }
    let e4 := (trading 4).exchanges.headD { exch := 0, stepLo := 0 }
    (trading 2).dispatched 9 = some e ∧ SlotWhole e 0 tokenData ∧ ¬ SlotWhole e4 0 tokenData ∧ ResultWhole e 0 resultData ∧ ¬ ResultWhole e4 0 resultData ∧
    (0, 0) ∉ e.returned ∧ (one (trading 2)).hostUp ((one (trading 2)).fetchPort 0 2) = true ∧ (member 0).dispatched 9 = none := by
  unfold SlotWhole ResultWhole; decide +kernel
theorem witness_result : ∃ f, Fresh (one (trading 2)) fReturn 0 f resultData ∧ (f.kind = .moeReturn && f.bucket = 9 && f.offset = 0) = true :=
  fresh_of (by decide +kernel)

theorem witness_reserved_opcode : ∃ f, Fresh (one (member 0)) fOpcode 0 f [1] ∧ decide (f.kind = .reservedOpcode) = true := fresh_of (by decide +kernel)
theorem witness_reserved_target : ∃ f, Fresh (one (member 0)) fTarget 0 f [1] ∧ decide (f.kind = .reservedTarget) = true := fresh_of (by decide +kernel)
theorem witness_reserved_control : ∃ f, Received (one (member 0)) fCtrl 0 f [1] ∧ (f.kind = .reservedOpcode && !f.data) = true :=
  received_of (by decide +kernel)
theorem witness_damaged : ∃ f, Received (one (member 0)) fBad 0 f [1] ∧ (f.kind = .bcast && f.data && !(one (member 0)).fragmentOk 0 f [1]) = true :=
  received_of (by decide +kernel)
theorem witness_duplicate : let x := { member 0 with tx := { (member 0).tx with channels := [(1, { rcvNext := 1 })] } }
    ∃ f, Received (one x) fWrite 0 f [1, 2, 3, 4] ∧ (f.data && f.seq < (x.chan f.src).rcvNext) = true := received_of (by decide +kernel)
theorem witness_not_ready : let x := { member 0 with mode := .stopped }
    ∃ f, Received (one x) fContrib 0 f (streamLit kindContrib) ∧ (f.data && !f.kind.isOperation) = true := received_of (by decide +kernel)

/-- One frame to rank 1 is outstanding. -/
def waiting : Pitch := { member 0 with tx := { (member 0).tx with
  out := [{ frame := messageFrame 1 opWrite 0 tgRetry [1], seq := 0, sent := 0, txCount := 1, port := 0, entropy := 0, pathId := 0 }] } }
theorem witness_ack : ∃ f, Received (one waiting) fAck 0 f (leBytes 6 1 ++ List.replicate 50 0) ∧ (f.kind = .ack && f.src = 1) = true :=
  received_of (by decide +kernel)
theorem witness_nack : ∃ f, Received (one waiting) fNack 0 f (leBytes 6 0 ++ [BitVec.ofNat 8 nkDamaged] ++ List.replicate 9 0) ∧ (f.kind = .nack &&
    (waiting.tx.out.find? (fun o => o.frame.dst = f.src && o.seq = 0)).isSome) = true := received_of (by decide +kernel)
theorem witness_rto : (waiting.tx.out.find? (fun o => o.frame.dst = (1 : W16).toNat && o.seq = 0 && !o.lost)).isSome = true ∧ waiting.mode = .running := by
  decide +kernel
theorem witness_ack_timer : let x := { member 0 with tx := { (member 0).tx with channels := [(1, { ackTimer := some 0, lastTrig := some (0, 0, 0), rcvNext := 1 })] } }
    (x.chan (1 : W16).toNat).ackTimer = some 0 ∧ (x.chan (1 : W16).toNat).lastTrig = some (0, 0, 0) ∧ x.keys.current = some secret := by decide +kernel

/-- One frame of the drain window waits. -/
def sending : Pitch := { member 0 with
  eff := { base := [⟨1, 0, 1⟩, ⟨0xA, 0, hbmBase + 0x800000 + 0x10000 * 2 ^ 64⟩] }, tx := { (member 0).tx with txq := [messageFrame 1 opWrite 0 tgRetry [1]] } }
theorem witness_sends : Sends (one sending) 0 4 (messageFrame 1 opWrite 0 tgRetry [1]) secret := by
  refine ⟨rfl, rfl, ?_, rfl, ?_, rfl, ?_, .inl rfl, ?_, ?_, ?_, ?_⟩ <;> decide +kernel
theorem witness_begins : ((one sending).beginAt sending 4 (sending.chan 1) (sending.frameSize 0 1)).isSome = true ∧
    (pathPick (sending.chan 1) (pathsOf 4)).isSome = true := by decide +kernel
theorem witness_resend : let x := { waiting with tx := { waiting.tx with out := waiting.tx.out.map (fun o => { o with lost := true }) } }
    ∃ n : NetPort, ((one x).nextResend 0 n).isSome = true ∧ (one x).portUp n = true := by decide +kernel

/-! ## Membership -/

/-- A HEARTBEAT's first 64 bytes at step 7, N 3 (20 R427). -/
def beat (kind flags compare swap : Nat) : Bytes :=
  leBytes 1 kind ++ leBytes 1 flags ++ [0, 0] ++ leBytes 4 3 ++ leBytes 8 compare ++ leBytes 8 swap ++ leBytes 8 0 ++ leBytes 8 7 ++ leBytes 24 0
def rank2Dead : W64 := wordOf 2 2 actDead

theorem witness_beat : ∃ f, HeartbeatIn (one (member 0)) fBeat 0 f (beat hbBeat 0 1 0) ∧ (f.epoch = 1 && leAt (beat hbBeat 0 1 0) 4 4 = (member 0).memberN &&
    leAt (beat hbBeat 0 1 0) 48 16 = (member 0).rsig.toNat) = true := beat_of (by decide +kernel)
theorem witness_fence : ∃ f, Received (one (member 0)) fFence 0 f (leBytes 8 2) ∧ (f.kind = .fence && (member 0).member.record.epoch.toNat < leAt (leBytes 8 2) 0 4 &&
    f.src ≠ (member 0).rank && (member 0).startedAt.isNone) = true := received_of (by decide +kernel)
theorem witness_query_timeout : let x := { member 0 with member := { (member 0).member with queryAge := some (64, 2) } }
    x.member.queryAge = some (64, 2) ∧ up.fw.lease.frozen = false ∧ (64 : Nat) ≤ 64 ∧ x.mode = .running := by decide
theorem witness_death_rule : let x := { member 0 with member := { (member 0).member with silent := [(2, 128)], record := { (member 0).member.record with keeper := 1 } } }
    x.countedDead 2 = true ∧ 2 ∈ x.member.record.watch x.rank ∧ x.candidate false = some 1 ∧ 1 ≠ x.rank := by decide +kernel
theorem witness_proposal_timeout : let x := { member 0 with member := { (member 0).member with proposals := [⟨0, rank2Dead, 0, none, [], 256⟩] } }
    (∃ q ∈ x.member.proposals, 256 ≤ q.age) ∧ x.member.accepted = none ∧ ({ member 0 with member := { (member 0).member with accepted := some (rank2Dead, 256) } } : Pitch).member.accepted =
      some (rank2Dead, 256) := by decide +kernel

theorem witness_propose : ∃ f, HeartbeatIn (one (member 1)) fPropose 0 f (beat hbPropose 0 1 rank2Dead.toNat) ∧ (f.src < (member 1).rank &&
    f.src ≠ wordSubject (swapOf (beat hbPropose 0 1 rank2Dead.toNat)) && compareOf (beat hbPropose 0 1 rank2Dead.toNat) = (member 1).word &&
    (member 1).member.accepted.isNone) = true := beat_of (by decide +kernel)
theorem witness_propose_keeper : ∃ f, HeartbeatIn (one (member 0)) fProposeUp 0 f (beat hbPropose 0 1 rank2Dead.toNat) ∧ ((member 0).rank < f.src &&
    (member 0).member.record.mayPropose (swapOf (beat hbPropose 0 1 rank2Dead.toNat)) &&
    wordEpoch (swapOf (beat hbPropose 0 1 rank2Dead.toNat)) = wordEpoch (member 0).word + 1 && 2 ≤ (member 0).member.record.liveSet.length) = true :=
  beat_of (by decide +kernel)
/-- The keeper has that proposal pending. -/
def keeping : Pitch := { member 0 with member := { (member 0).member with proposals := [⟨(member 0).word, rank2Dead, 0, none, [(0, 0)], 0⟩] } }
theorem witness_vote : ∃ f, HeartbeatIn (one keeping) fVote 0 f (beat hbVote 1 1 rank2Dead.toNat) ∧ (keeping.member.record.live f.src &&
    leAt (beat hbVote 1 1 rank2Dead.toNat) 16 8 = rank2Dead.toNat &&
    keeping.carried ⟨keeping.word, rank2Dead, 0, none, [(0, 0), (1, 0)], 0⟩) = true := beat_of (by decide +kernel)
theorem witness_commit_in : ∃ f, HeartbeatIn (one (member 0)) fCommit 0 f (beat hbCommit 0 1 rank2Dead.toNat) ∧
    (wordEpoch (member 0).word < wordEpoch (swapOf (beat hbCommit 0 1 rank2Dead.toNat)) && compareOf (beat hbCommit 0 1 rank2Dead.toNat) = (member 0).word &&
    f.src ≠ (member 0).rank && (member 0).member.joining.isNone && (member 0).member.wish.isNone) = true := beat_of (by decide +kernel)
theorem witness_query : ∃ f, HeartbeatIn (one (member 0)) fQuery 0 f (beat hbQuery 0 1 0) ∧ decide (f.src = 1) = true := beat_of (by decide +kernel)
theorem witness_record_in : ∃ f, HeartbeatIn (one (member 0)) fRecord 0 f (beat hbRecord 0 1 0 ++ (member 1).member.record.bytes) ∧
    ((memberOf (cut (beat hbRecord 0 1 0 ++ (member 1).member.record.bytes) 64 192)).epoch.toNat ≤ (member 0).member.record.epoch.toNat &&
    (memberOf (cut (beat hbRecord 0 1 0 ++ (member 1).member.record.bytes) 64 192)).n ≠ (member 0).rank && f.src = 1) = true := beat_of (by decide +kernel)
theorem witness_join : ∃ f, HeartbeatIn (one (member 0)) fJoin 0 f (beat hbJoin 0 (wordOf 0 1 actDead).toNat 0) ∧
    (wordAction (compareOf (beat hbJoin 0 (wordOf 0 1 actDead).toNat 0)) = actDead && wordEpoch (member 0).word + 1 < 2 ^ 32 &&
    !(f.src ∈ (member 0).member.record.vacant)) = true := beat_of (by decide +kernel)

/-! ## Frames that reach no channel -/

/-- A frame of 14 bytes of Ethernet header and the bytes given, with its FCS. -/
def ether (ty : Nat) (d : Bytes) : Bytes := let f := List.replicate 12 0 ++ beBytes 2 ty ++ d; f ++ leBytes 4 (crc32 f)
theorem witness_no_pitch : up.parse ⟨0, ether 0x1234 [], false⟩ = .noPitch := by decide +kernel
/-- A frame without FCS is dropped and counted (12 R277). -/
theorem test_fcs : after (exec (.fcsFailedFrame ⟨0, List.replicate 18 0, false⟩) up) (fun t => t.netPorts[(0 : NetPort)].fcsDrops = 1) = true := by
  decide +kernel
theorem witness_mac_control : up.parse ⟨0, ether 0x8808 [], false⟩ = .macControl := by decide +kernel
theorem witness_fcs : up.parse ⟨0, List.replicate 18 0, false⟩ = .fcs := by decide +kernel

end Sys2Proof.Tests
end

