-- ==== Sys2Proof/Proofs/BitStream.lean ====
section
/-! PROOF. How a byte string and its bit stream hold each other's bits (00 R9). -/

namespace Sys2Proof.Machine

/-! ## Pieces of a list -/

theorem chunksGo_getD {α : Type} (n : Nat) (hn : 0 < n) (fuel i : Nat) (xs : List α) (h : xs.length ≤ fuel) :
    (chunksGo fuel n xs).getD i [] = cut xs (n * i) n := by
  induction fuel generalizing i xs with
  | zero => simp [chunksGo, cut, List.eq_nil_of_length_eq_zero (Nat.le_zero.mp h)]
  | succ fuel ih =>
    cases xs with
    | nil => simp [chunksGo, cut]
    | cons x xs =>
      cases i with
      | zero => simp [chunksGo, cut]
      | succ i =>
        have hd : ((x :: xs).drop n).length ≤ fuel := by simp at h ⊢; omega
        simp only [chunksGo, cut, List.isEmpty_cons, Bool.false_eq_true, if_false, List.getD_cons_succ, ih i _ hd,
          List.drop_drop, Nat.mul_succ, Nat.add_comm n]

/-- Piece i of a list cut into pieces of n. -/
theorem chunks_getD {α : Type} (n i : Nat) (hn : 0 < n) (xs : List α) :
    (chunks n xs).getD i [] = cut xs (n * i) n := by
  rw [chunks, max_eq_left hn]
  exact chunksGo_getD n hn _ i xs le_rfl

/-! ## Numbers and their bits -/

theorem testBit_natOfBits (bits : List Bool) (j : Nat) : (natOfBits bits).testBit j = bits.getD j false := by
  induction bits generalizing j with
  | nil => simp [natOfBits]
  | cons b bits ih =>
    cases j with
    | zero => cases b <;> simp [natOfBits, bit, Nat.testBit_zero, Nat.add_mod]
    | succ j =>
      have hdiv : (bit b + 2 * natOfBits bits) / 2 = natOfBits bits := by cases b <;> simp [bit]; omega
      rw [natOfBits, Nat.testBit_succ, hdiv, ih, List.getD_cons_succ]

@[simp] theorem length_bitsOfNat (w v : Nat) : (bitsOfNat w v).length = w := by
  induction w generalizing v with
  | zero => rfl
  | succ w ih => simp [bitsOfNat, ih]

theorem bitsOfNat_getD (w v j : Nat) (h : j < w) : (bitsOfNat w v).getD j false = v.testBit j := by
  induction w generalizing v j with
  | zero => omega
  | succ w ih =>
    cases j with
    | zero => simp [bitsOfNat, Nat.testBit_zero]
    | succ j => rw [bitsOfNat, List.getD_cons_succ, ih _ _ (by omega), Nat.testBit_succ]

/-! ## Bytes and their bits -/

/-- Byte i of a packed stream is the number of the stream's bits from 8 i on. -/
theorem bytesOfBits_getD (bits : List Bool) (i : Nat) :
    (bytesOfBits bits).getD i 0 = BitVec.ofNat 8 (natOfBits (cut bits (8 * i) 8)) := by
  rw [← chunks_getD 8 i (by decide), bytesOfBits]
  exact List.getD_map (chunks 8 bits) [] (fun c => BitVec.ofNat 8 (natOfBits c))

/-- Stream bit k stands at bit k mod 8 of byte k / 8. -/
theorem bytesOfBits_bit (bits : List Bool) (k : Nat) :
    ((bytesOfBits bits).getD (k / 8) 0).getLsbD (k % 8) = bits.getD k false := by
  have hlt : k % 8 < 8 := Nat.mod_lt k (by decide)
  rw [bytesOfBits_getD, BitVec.getLsbD_ofNat, testBit_natOfBits]
  simp [cut, List.getD_eq_getElem?_getD, hlt, Nat.div_add_mod]

/-- A field's bit j stands in the stream behind the bits before the field. -/
theorem field_getD (before after : List Bool) (w v j : Nat) (h : j < w) :
    (before ++ bitsOfNat w v ++ after).getD (before.length + j) false = v.testBit j := by
  rw [List.append_assoc, List.getD_append_right _ _ _ _ (by omega), Nat.add_sub_cancel_left,
    List.getD_append _ _ _ _ (by simpa using h), bitsOfNat_getD w v j h]

theorem bitsOfBytes_cons (b : Byte) (bs : Bytes) :
    bitsOfBytes (b :: bs) = (List.range 8).map (fun k => b.getLsbD k) ++ bitsOfBytes bs := List.flatMap_cons

/-- The reader takes stream bit k from bit k mod 8 of byte k / 8. -/
theorem bitsOfBytes_getD (bs : Bytes) (k : Nat) :
    (bitsOfBytes bs).getD k false = (bs.getD (k / 8) 0).getLsbD (k % 8) := by
  induction bs generalizing k with
  | nil => simp [bitsOfBytes]
  | cons b bs ih =>
    rw [bitsOfBytes_cons]
    by_cases hk : k < 8
    · rw [List.getD_append _ _ _ _ (by simpa using hk), Nat.div_eq_of_lt hk, Nat.mod_eq_of_lt hk]
      simp [List.getD_eq_getElem?_getD, hk]
    · obtain ⟨m, rfl⟩ := Nat.exists_eq_add_of_le' (Nat.le_of_not_lt hk)
      rw [List.getD_append_right _ _ _ _ (by simp), Nat.add_div_right m (by decide), Nat.add_mod_right,
        List.getD_cons_succ, ← ih]
      simp

/-- Settles O59: byte i of a packed stream is the number of bits 8 i to 8 i + 7, the bits of a number are its list's entries, and the
reader's list is those bits byte after byte. -/
theorem bitStreamOrder : Obligations.BitStreamOrder :=
  ⟨bytesOfBits_bit,
    fun before after w v j h => (bytesOfBits_bit _ _).trans (field_getD before after w v j h),
    bitsOfBytes_getD⟩

end Sys2Proof.Machine
end

