-- ==== Sys2Proof/Proofs/EmptyQueue.lean ====
section
/-! PROOF. What passes while no command waits (02 R44; notes/assumptions 2, 99). -/

namespace Sys2Proof.Machine

theorem step_of_empty {s : State} (h : s.pending = []) : step s = .next (idleTick s) := by simp [step, h]

theorem State.clockRuns_iff (s : State) : s.clockRuns = true ↔ s.held = false ∧ 4 ≤ s.glob.bootStage := by
  simp [State.clockRuns]

/-- A port whose data flit is empty sends nothing. -/
theorem HostPortSt.flush_of_empty {hp : HostPortSt} (h : hp.txPart = []) : hp.flush = hp := by simp [HostPortSt.flush, h]

@[simp] theorem HostPortSt.flush_txPart (hp : HostPortSt) : hp.flush.txPart = [] := by
  unfold HostPortSt.flush
  split
  · next h => exact List.isEmpty_iff.mp h
  · rfl

theorem idleTick_of_running {s : State} (h : s.clockRuns = true) :
    idleTick s = { s with cclk := s.cclk + 1, hostPorts := s.hostPorts.map HostPortSt.flush } := if_pos h

theorem idleTick_of_stopped {s : State} (h : ¬ s.clockRuns = true) : idleTick s = s := if_neg h

/-- An idle cycle changes the clock and the host ports alone. -/
theorem idleTick_rest (s : State) :
    idleTick s = { s with cclk := (idleTick s).cclk, hostPorts := (idleTick s).hostPorts } := by
  by_cases h : s.clockRuns = true
  · rw [idleTick_of_running h]
  · rw [idleTick_of_stopped h]

/-- Settles O2, by whether CCLK runs. -/
theorem emptyQueueTicks : Obligations.EmptyQueueTicks := by
  intro s hs
  refine ⟨idleTick s, step_of_empty hs, idleTick_rest s, fun hstop => ?_, fun hheld hboot => ?_⟩
  · refine idleTick_of_stopped fun hrun => ?_
    obtain ⟨hheld, hboot⟩ := s.clockRuns_iff.mp hrun
    rcases hstop with h | h
    · simp [hheld] at h
    · omega
  · rw [idleTick_of_running (s.clockRuns_iff.mpr ⟨hheld, hboot⟩)]
    refine ⟨rfl, fun h => ⟨?_, fun hempty => ?_⟩⟩
    · simp
    · simpa using HostPortSt.flush_of_empty hempty

end Sys2Proof.Machine
end

