-- ==== Sys2Proof/Proofs/RepairReport.lean ====
section
/-! PROOF. What the report of a repair changes: the count, the log and the notices to every bound pitch (23 R486; 18 R399). -/

namespace Sys2Proof.Machine

open Sys2Proof.Claims

/-! ## Notices -/

/-- From s to t pitch p was told something: of its state mailbox and queues changed, and no memory from the staging area on. -/
structure Told (p : PitchId) (s t : State) : Prop where
  rest : t = { s with pitches := t.pitches, mem := t.mem }
  others : ∀ q, q ≠ p → t.pitch q = s.pitch q
  own : PitchIs p t (s.pitch p)
  bytes : ∀ a, stagingBase ≤ a → t.byte a = s.byte a

theorem Told.refl (p : PitchId) (s : State) : Told p s s := ⟨rfl, fun _ _ => rfl, rfl, fun _ _ => rfl⟩

theorem Told.trans {p : PitchId} {r s t : State} (h : Told p r s) (k : Told p s t) : Told p r t where
  rest := by rw [k.rest, h.rest]
  others q hq := (k.others q hq).trans (h.others q hq)
  own := by
    have h1 := h.own
    have h2 := k.own
    rw [PitchIs] at h1 h2 ⊢
    rw [h2, h1]
  bytes a ha := (k.bytes a ha).trans (h.bytes a ha)

theorem Told.setPitch (s : State) (p : PitchId) (x : Pitch)
    (hx : x = { s.pitch p with mail := x.mail, queues := x.queues }) : Told p s (s.setPitch p x) :=
  ⟨rfl, fun q hq => State.pitch_setPitch_ne s p q x hq, by rw [PitchIs, State.pitch_setPitch]; exact hx, fun _ _ => rfl⟩

/-- The response ring of every pitch lies below the staging area. -/
theorem responseRing_below_staging (p : PitchId) : queueBase p.val + 0xC000 ≤ stagingBase := by
  have := p.isLt
  simp only [queueBase, stagingBase]
  omega

theorem Told.writeResp (s : State) (p : PitchId) (e : Bytes) (he : e.length = 32) : Told p s (s.writeResp p e) :=
  have frame := MailFrame.writeResp s p e he
  ⟨rfl, frame.others, by rw [PitchIs, State.writeResp_pitch]; rfl,
    fun a ha => frame.bytes a (.inr ((responseRing_below_staging p).trans ha))⟩

theorem State.notice_told (s : State) (p : PitchId) (code : Nat) (args : Bytes) : Told p s (s.notice p code args) := by
  unfold State.notice
  extract_lets x n e
  split
  · exact Told.refl p s
  · split
    · exact Told.setPitch s p _ rfl
    · refine (Told.setPitch s p _ rfl).trans (Told.writeResp _ p e ?_)
      simp [e, length_leBytes, length_padTo]

theorem State.repairNotice_told (s : State) (p : PitchId) (cell resource action : Nat) :
    Told p s (s.repairNotice p cell resource action) := by
  unfold State.repairNotice
  extract_lets x
  split
  · exact Told.refl p s
  · split
    · exact Told.setPitch s p _ rfl
    · exact (s.notice_told p _ _).trans (Told.setPitch _ p _ rfl)

/-- ntc.repair on every bound pitch changes mailboxes and queues, and no memory from the staging area on. -/
theorem State.repairAll_spec (s : State) (cell resource action : Nat) :
    (s.repairAll cell resource action = { s with
        pitches := (s.repairAll cell resource action).pitches, mem := (s.repairAll cell resource action).mem } ∧
      ∀ a, stagingBase ≤ a → (s.repairAll cell resource action).byte a = s.byte a) ∧
    ∀ p, PitchIs p (s.repairAll cell resource action) (s.pitch p) :=
  s.forPitches_rel (fun p s => s.repairNotice p cell resource action)
    (fun s t => t = { s with pitches := t.pitches, mem := t.mem } ∧ ∀ a, stagingBase ≤ a → t.byte a = s.byte a)
    (fun _ x y => y = { x with mail := y.mail, queues := y.queues })
    (fun _ => ⟨rfl, fun _ _ => rfl⟩)
    (fun _ _ _ ⟨hrest, hbytes⟩ ⟨krest, kbytes⟩ => ⟨by rw [krest, hrest], fun a ha => (kbytes a ha).trans (hbytes a ha)⟩)
    (fun p s => have told := s.repairNotice_told p cell resource action
      ⟨⟨told.rest, told.bytes⟩, told.others, told.own⟩)

/-! ## The report -/

/-- States that agree beside the log differ in the log and the health counts alone. -/
theorem beside_rest {s t : State} (h : beside t = beside s) :
    t = { s with health := t.health, flash := { s.flash with log := t.flash.log } } :=
  congrArg (fun u : State => { u with health := t.health, flash := { u.flash with log := t.flash.log } }) h

theorem beside_made {s t : State} (h : beside t = beside s) : t.health.made = s.health.made :=
  (congrArg (fun u : State => u.health.made) h :)

/-- A repair that was counted and logged, and then told or noted to be told, was reported, and no cluster changed by that. -/
theorem repaired_of_counted {resource : Nat} {s counted t : State}
    (hcounted : counted = { s with health := counted.health, flash := { s.flash with log := counted.flash.log } })
    (htold : t = { counted with pitches := t.pitches, mem := t.mem, health := t.health })
    (hmade : t.health.made = setAt s.health.made (resource - 1) (s.health.made.getD (resource - 1) 0 + 1))
    (hpitches : ∀ p, PitchIs p t (counted.pitch p)) (hbytes : ∀ a, stagingBase ≤ a → t.byte a = counted.byte a) :
    Repaired resource s t ∧ t.clusters = s.clusters := by
  refine ⟨⟨hmade, fun p => ?_, by rw [htold, hcounted], fun a ha => ?_⟩, by rw [htold, hcounted]⟩
  · have hp := hpitches p
    rw [hcounted] at hp
    rw [hp]
    rfl
  · rw [hbytes a ha, hcounted]
    rfl

/-- A repair that ends is counted under its resource, logged and told, and no cluster changes by that. -/
theorem State.repairDone_spec (s : State) (cell resource action unit left : Nat) :
    Repaired resource s (s.repairDone cell resource action unit left) ∧
    (s.repairDone cell resource action unit left).clusters = s.clusters := by
  unfold State.repairDone
  extract_lets +onlyGivenNames old hour h counted
  have hbeside : beside counted = beside { s with health := h } := (State.logEvent_spec _ logRepair _).1
  have hcounted : counted = { s with health := counted.health, flash := { s.flash with log := counted.flash.log } } :=
    beside_rest (s := { s with health := h }) hbeside
  have hmade : counted.health.made = setAt s.health.made (resource - 1) (s.health.made.getD (resource - 1) 0 + 1) :=
    beside_made hbeside
  clear_value counted
  split
  · obtain ⟨⟨hrest, hbytes⟩, hpitches⟩ := counted.repairAll_spec cell resource action
    generalize counted.repairAll cell resource action = told at hrest hbytes hpitches ⊢
    have hhealth : told.health = counted.health := (congrArg State.health hrest :)
    exact repaired_of_counted hcounted (by rw [hhealth]; exact hrest) (by rw [hhealth]; exact hmade) hpitches hbytes
  · exact repaired_of_counted hcounted rfl hmade (fun _ => rfl) (fun _ _ => rfl)

/-- What a repair changes before its report, in clusters and in health counts other than its own, belongs to the repair. -/
theorem repaired_of_prepared {resource : Nat} {s m t : State} (h : Repaired resource m t)
    (hm : m = { s with clusters := m.clusters, health := m.health }) (hmade : m.health.made = s.health.made) :
    Repaired resource s t where
  made := by rw [h.made, hmade]
  pitches p := by rw [h.pitches p, hm]; rfl
  rest := by rw [h.rest, hm]
  bytes a ha := by rw [h.bytes a ha, hm]; rfl

theorem repaired_power {resource : Nat} {s t : State} (h : Repaired resource s t) : t.power = s.power :=
  (congrArg State.power h.rest :)

end Sys2Proof.Machine
end

