-- ==== Sys2Proof/Proofs/SpareRotation.lean ====
section
/-! PROOF. The rotation of a cluster's spare slice (01 R20; 23 R483, R486; 13 R303; notes/assumptions 12, 18). -/

namespace Sys2Proof.Machine

open Sys2Proof.Claims

/-! ## Putting cells in a power state -/

/-- One slice's cell takes the power state, and every other cell stays. -/
theorem State.setCells_singleton (s : State) (k : Nat) (v : CellPower) (i : CellId) :
    (s.setCells [k] v).power.cells[i] = if i.val = k then v else s.power.cells[i] := by
  simp [State.setCells]

/-! ## The Sandgrain test -/

/-- An output of the generator has 128 bits. -/
theorem sandgrain_lt (k c : List W32) : sandgrain k c < 2 ^ 128 := by
  unfold sandgrain
  split
  next x0 x1 x2 x3 _ =>
    have h0 := (x0 + k.getD 0 0).isLt
    have h1 := (x1 + k.getD 1 0).isLt
    have h2 := (x2 + k.getD 2 0).isLt
    have h3 := (x3 + k.getD 3 0).isLt
    omega

/-- The test passes where each core gave the vector's output, as a word of 128 bits. -/
theorem sandgrainOk_iff (outs : List W128) :
    sandgrainOk outs = true ↔ ∀ v ∈ outs, v = BitVec.ofNat 128 sandVectorOutput := by
  have hlt : sandVectorOutput < 2 ^ 128 := sandgrain_lt _ _
  simp only [sandgrainOk, List.all_eq_true, decide_eq_true_eq, BitVec.toNat_eq, BitVec.toNat_ofNat, Nat.mod_eq_of_lt hlt]

theorem sandgrainOk_eq_false_iff (outs : List W128) :
    sandgrainOk outs = false ↔ ∃ v ∈ outs, v ≠ BitVec.ofNat 128 sandVectorOutput := by
  rw [← Bool.not_eq_true, sandgrainOk_iff]
  push Not
  rfl

/-! ## The rotation takes effect -/

/-- Before a peg boundary a requested rotation waits. -/
theorem State.rotationEffect_waits {s : State} {c : Fin 8} {k : Nat} (hk : s.clusters[c].rotation = some k)
    (hpeg : s.pegBoundary s.clusters[c].pegsThen = false) : s.rotationEffect c = s := by
  simp only [State.rotationEffect, hk, hpeg, Bool.not_false, Bool.or_true, if_true]

/-- The spare takes the place of the freed slice, which goes under test. -/
def Cluster.rotated (cl : Cluster) (k sp : Nat) : Cluster :=
  { cl with
    map := cl.map.map (fun e => if e = some k then some sp else e)
    spare := none, rotation := none, lastFreed := some k, testing := some (k, 0) }

/-- Behind a peg boundary the rotation takes effect at the next slice-slot boundary. -/
theorem State.rotationEffect_rotates {s : State} {c : Fin 8} {k sp : Nat} (hk : s.clusters[c].rotation = some k)
    (hbroken : s.clusters[c].broken = []) (hsp : s.clusters[c].spare = some sp) (hmap : some k ∈ s.clusters[c].map)
    (hpeg : s.pegBoundary s.clusters[c].pegsThen = true) :
    s.rotationEffect c =
      ((s.advanceTo (roundUp s.cclk slotLen)).setCluster c (s.clusters[c].rotated k sp)).setCells [sliceCell c.val sp] .run := by
  simp [State.rotationEffect, hk, hbroken, hsp, hmap, hpeg, Cluster.rotated, -Fin.getElem_fin]

/-! ## The freed slice's test ends -/

/-- The slice leaves the cluster for good: it counts as retired, takes one from the engine's spares, and its cell goes off. -/
def State.retireSlice (s : State) (c : Fin 8) (k : Nat) : State :=
  ((s.setCluster c { s.clusters[c] with testing := none, retired := addNew k s.clusters[c].retired }).takeSpare 1).setCells
    [sliceCell c.val k] .off

theorem State.retireSlice_clusters (s : State) (c : Fin 8) (k : Nat) : (s.retireSlice c k).clusters =
    s.clusters.set c { s.clusters[c] with testing := none, retired := addNew k s.clusters[c].retired } := rfl

theorem State.retireSlice_rest (s : State) (c : Fin 8) (k : Nat) : s.retireSlice c k = { s with
    power := (s.retireSlice c k).power, clusters := (s.retireSlice c k).clusters, health := (s.retireSlice c k).health } := rfl

theorem State.retireSlice_made (s : State) (c : Fin 8) (k : Nat) : (s.retireSlice c k).health.made = s.health.made := rfl

theorem State.retireSlice_cells (s : State) (c : Fin 8) (k : Nat) (i : CellId) :
    (s.retireSlice c k).power.cells[i] = if i.val = sliceCell c.val k then .off else s.power.cells[i] :=
  State.setCells_singleton _ _ _ i

section
variable {s : State} {c : Fin 8} {k failures : Nat}
  (htest : s.clusters[c].testing = some (k, failures)) (hcore : s.coreRuns (.cc c) = true)
include htest hcore

/-- A slice that passes becomes the spare and drowses. -/
theorem State.rotationTest_passes : s.rotationTest c true =
    (s.setCluster c { s.clusters[c] with spare := some k, testing := none }).setCells [sliceCell c.val k] .drowse := by
  simp [State.rotationTest, -Fin.getElem_fin, htest, hcore]

/-- The first failure repeats the test. -/
theorem State.rotationTest_repeats (hfirst : failures = 0) : s.rotationTest c false =
    s.setCluster c { s.clusters[c] with testing := some (k, 1) } := by
  simp [State.rotationTest, -Fin.getElem_fin, htest, hcore, hfirst]

/-- A second failure retires the slice, and that is reported as a repair. -/
theorem State.rotationTest_retires (hagain : failures ≠ 0) : s.rotationTest c false =
    (s.retireSlice c k).repairDone (sliceCell c.val k) 1 actRetired 0 0 := by
  simp [State.rotationTest, State.retireSlice, -Fin.getElem_fin, htest, hcore, hagain]

end

/-! ## The three commands -/

section
variable {s : State} (hup : s.held = false)
include hup

theorem exec_spareRotation (c : Fin 8) : exec (.spareRotation c) s = .next (if s.rotationDue c then s.setCluster c { s.clusters[c] with
    rotation := s.clusters[c].nextFreed, rotatedAt := some s.glob.mgmtTick, pegsThen := s.pegPlaces } else s) :=
  live_next s _ hup

theorem exec_rotationEffect (c : Fin 8) : exec (.rotationEffect c) s = .next (s.rotationEffect c) :=
  live_next s (fun s => s.rotationEffect c) hup

theorem exec_rotationBistComplete (c : Fin 8) (outs : List W128) (pass : Bool) :
    exec (.rotationBistComplete c outs pass) s = .next (s.rotationTest c (pass && sandgrainOk outs)) :=
  live_next s (fun s => s.rotationTest c (pass && sandgrainOk outs)) hup

end

/-- The report of a retired slice leaves what the retirement made of the cluster and its cells. -/
theorem State.retireSlice_repairDone (s t : State) (c : Fin 8) (k : Nat)
    (ht : t = (s.retireSlice c k).repairDone (sliceCell c.val k) 1 actRetired 0 0) :
    Repaired 1 { s with power := t.power } t ∧
    t.clusters = s.clusters.set c { s.clusters[c] with testing := none, retired := addNew k s.clusters[c].retired } ∧
    ∀ i : CellId, t.power.cells[i] = if i.val = sliceCell c.val k then .off else s.power.cells[i] := by
  obtain ⟨hrep, hclusters⟩ := State.repairDone_spec (s.retireSlice c k) (sliceCell c.val k) 1 actRetired 0 0
  rw [← ht] at hrep hclusters
  have hpower := repaired_power hrep
  refine ⟨repaired_of_prepared hrep ?_ (s.retireSlice_made c k), hclusters.trans (s.retireSlice_clusters c k), fun i => ?_⟩
  · rw [hpower]; exact s.retireSlice_rest c k
  · rw [hpower]; exact s.retireSlice_cells c k i

/-- Settles O56: one clause for each way the request, its effect and the end of the test can go. -/
theorem spareSlicesRotate : Obligations.SpareSlicesRotate := by
  intro s c hup
  refine ⟨fun hdue => ?_, fun hnot => ?_, fun k hk hpeg => ?_, fun k sp hk hbroken hsp hmap hpeg => ?_,
    fun k failures htest hcore => ⟨fun outs houts => ?_, fun outs pass hfail => ?_⟩⟩
  · rw [exec_spareRotation hup, if_pos hdue]; rfl
  · rw [exec_spareRotation hup, if_neg (by simp [hnot])]
  · rw [exec_rotationEffect hup, State.rotationEffect_waits hk hpeg]
  · refine ⟨_, exec_rotationEffect hup c, ?_⟩
    rw [State.rotationEffect_rotates hk hbroken hsp hmap hpeg]
    exact ⟨rfl, rfl, rfl, State.setCells_singleton _ _ _⟩
  · refine ⟨_, exec_rotationBistComplete hup c outs true, ?_⟩
    rw [(sandgrainOk_iff outs).mpr houts, Bool.and_self, State.rotationTest_passes htest hcore]
    exact ⟨rfl, rfl, State.setCells_singleton _ _ _⟩
  · have hno : (pass && sandgrainOk outs) = false :=
      Bool.and_eq_false_iff.mpr (hfail.imp_right (sandgrainOk_eq_false_iff outs).mpr)
    rw [exec_rotationBistComplete hup, hno]
    exact ⟨fun hfirst => by rw [State.rotationTest_repeats htest hcore hfirst]; rfl,
      fun hagain => ⟨_, rfl, s.retireSlice_repairDone _ c k (State.rotationTest_retires htest hcore hagain)⟩⟩

end Sys2Proof.Machine
end

