-- ==== Sys2Proof/Proofs/FrontOfQueue.lean ====
section
/-! PROOF. What a step runs, and memory where nothing has been written (02 R44, R50; notes/assumptions 1, 10). -/

namespace Sys2Proof.Machine

theorem step_of_front {s : State} {c : Instr} {rest : List Instr} (h : s.pending = c :: rest) :
    step s = exec c { s with pending := rest } := by simp [step, h]

/-- Settles O1: the branch of the step that finds a command at the front. -/
theorem stepRunsFront : Obligations.StepRunsFront := fun _ _ _ h => step_of_front h

/-- Settles O5: no cell of memory is listed at reset, and an unlisted byte reads 0. -/
theorem resetMemory : Obligations.ResetMemory := ⟨wf_nil, fun _ => rfl⟩

end Sys2Proof.Machine
end

