-- ==== Sys2Proof/Proofs/HeldDie.lean ====
section
/-! PROOF. A die held in reset: the commands that reach it, and what they change (02 R39, R41, R49; notes/assumptions 19). -/

namespace Sys2Proof.Machine

/-- The commands that reach a die held in reset: a power-on reset, the power core's rail fault, and the TAP's reset, IDCODE and
BYPASS (02 R39, R49, R50; notes/assumptions 19). -/
def actsWhileHeld : Instr → Bool
  | .powerOnReset _ | .railFault _ _ | .tapReset | .idcode | .bypass _ _ => true
  | _ => false

theorem exec_of_held {c : Instr} {s : State} (hc : actsWhileHeld c = false) (hs : s.held = true) : exec c s = .next s := by
  cases c
  case powerOnReset | railFault | tapReset | idcode | bypass => cases hc
  all_goals exact congrArg Host.Outcome.next (if_pos hs)

/-- A die held in reset retrains no link as the TAP leaves the pins. -/
theorem State.tapLoad_of_held {s : State} (hs : s.held = true) (ir : Byte) (pins : Bool) (out : TapOut) :
    s.tapLoad ir pins out = { s with tap := ⟨ir, out, pins⟩ } := by
  simp [State.tapLoad, hs]

/-- So the TAP's own commands change the TAP alone. -/
theorem tapLoad_next_of_held {s : State} (hs : s.held = true) (ir : Byte) (out : TapOut) :
    ∃ t, Host.Outcome.next (φ := Fault) (ρ := Refusal) (s.tapLoad ir false out) = .next t ∧ t = { s with tap := t.tap } :=
  ⟨_, rfl, by rw [State.tapLoad_of_held hs]⟩

/-- Settles O10: three of the five commands that reach a held die are the TAP's own. -/
theorem heldDieIgnoresCommands : Obligations.HeldDieIgnoresCommands := by
  refine ⟨fun c s hs hpor hrail => ?_, fun cause rail s hs => ⟨_, rfl, ?_, rfl⟩⟩
  · cases hc : actsWhileHeld c
    · exact ⟨s, exec_of_held hc hs, rfl⟩
    · cases c
      case powerOnReset env => exact absurd rfl (hpor env)
      case railFault cause rail => exact absurd rfl (hrail cause rail)
      case tapReset => exact tapLoad_next_of_held hs _ _
      case idcode => exact tapLoad_next_of_held hs _ _
      case bypass ir tdi =>
        have hrun : exec (.bypass ir tdi) s = .next (s.tapLoad irBypass false (.bypass tdi)) := by
          simp [exec, execBypass, hs]
        rw [hrun]
        exact tapLoad_next_of_held hs _ _
      all_goals cases hc
  · rw [← hs]

end Sys2Proof.Machine
end

