-- ==== Sys2Proof/Proofs/TestPort.lean ====
section
/-! PROOF. The test access port: what loading an instruction changes, and which instructions work when (02 R39; 22 R465, R466). -/

namespace Sys2Proof.Machine

/-- Computing the timing signatures again leaves the TAP. -/
theorem State.retime_tap (s : State) : s.retime.tap = s.tap := (congrArg State.tap s.retime_spec.1 :)

/-- The links that retrain as the TAP leaves the pins leave the TAP as it was loaded. -/
theorem State.tapLoad_tap (s : State) (ir : Byte) (pins : Bool) (out : TapOut) : (s.tapLoad ir pins out).tap = ⟨ir, out, pins⟩ := by
  unfold State.tapLoad
  extract_lets +onlyGivenNames was loaded
  split
  · have hlinks : Keeps (fun _ => True) False loaded
        ((List.finRange 8).foldl (fun s h => s.hostRetrain h s.hostPorts[h].modules s.hostPorts[h].rate) loaded) :=
      Keeps.foldl _ (fun x h hx => State.hostRetrain_keeps x h _ _ (fun _ => trivial) hx) (Keeps.refl _ _ loaded)
    exact (State.retime_tap _).trans (congrArg (fun g => g.2.2.2) (hlinks.guarded not_false) :)
  · rfl

/-- While the TAP does not hold the pins, loading an instruction changes the TAP alone. -/
theorem State.tapLoad_of_free {s : State} (hpins : s.tap.pins = false) (ir : Byte) (pins : Bool) (out : TapOut) :
    s.tapLoad ir pins out = { s with tap := ⟨ir, out, pins⟩ } := by
  simp [State.tapLoad, hpins]

/-- An instruction that drives no pins: what the TAP holds then, and that no more changes where it held no pins before. -/
theorem State.tapLoad_spec (s : State) (ir : Byte) (out : TapOut) :
    (s.tapLoad ir false out).tap = ⟨ir, out, false⟩ ∧
    (s.tap.pins = false → s.tapLoad ir false out = { s with tap := (s.tapLoad ir false out).tap }) :=
  ⟨s.tapLoad_tap ir false out, fun h => by rw [State.tapLoad_of_free h]⟩

/-- An instruction that takes the pins retrains no link. -/
theorem State.tapLoad_takesPins (s : State) (ir : Byte) (out : TapOut) :
    s.tapLoad ir true out = { s with tap := ⟨ir, out, true⟩ } := by
  simp [State.tapLoad]

theorem exec_bypass_of_refused {s : State} {ir : Byte} (h : s.tapAllows ir = false) (tdi : Bool) :
    exec (.bypass ir tdi) s = .next (s.tapLoad irBypass false (.bypass tdi)) := by
  simp [exec, execBypass, h]

/-- EXTEST and SAMPLE/PRELOAD may take the pins where the state is not SEALED and no pitch is bound (22 R465). -/
theorem State.pinsAllowed_iff (s : State) : s.pinsAllowed = true ↔ s.secCode ≠ 1 ∧ ∀ p, (s.pitch p).mode = .unbound := by
  simp [State.pinsAllowed, allPitches, Pitch.isBound]

/-- Refused, a boundary scan acts as BYPASS. -/
theorem State.boundaryScan_refused {s : State} {ir : Byte} (h : s.tapAllows ir = false) :
    s.boundaryScan ir = s.tapLoad irBypass false .none := by
  simp [State.boundaryScan, State.tapRun, h]

/-- Allowed, it captures the boundary and holds the pins. -/
theorem State.boundaryScan_allowed {s : State} {ir : Byte} (h : s.tapAllows ir = true) :
    s.boundaryScan ir = { s with free := s.free + 1, tap := ⟨ir, .boundary (Config.boundaryCapture s.free), true⟩ } := by
  simp only [State.boundaryScan, State.tapRun, h, if_true, State.draw]
  exact State.tapLoad_takesPins _ _ _

theorem State.tapAllows_extest (s : State) : s.tapAllows irExtest = s.pinsAllowed := rfl
theorem State.tapAllows_sample (s : State) : s.tapAllows irSample = s.pinsAllowed := rfl

theorem State.pinsAllowed_of_sealed {s : State} (h : s.secCode = 1) : s.pinsAllowed = false := by simp [State.pinsAllowed, h]

theorem exec_extest {s : State} (h : s.held = false) : exec .extest s = .next (s.boundaryScan irExtest) := live_next s (fun s => s.boundaryScan irExtest) h
theorem exec_samplePreload {s : State} (h : s.held = false) : exec .samplePreload s = .next (s.boundaryScan irSample) :=
  live_next s (fun s => s.boundaryScan irSample) h

/-- Settles O16: each instruction loads the TAP, and whether a boundary scan does or acts as BYPASS is the security state's. -/
theorem tapInstructions : Obligations.TapInstructions := by
  intro s
  refine ⟨⟨_, rfl, s.tapLoad_spec _ _⟩, ?_, fun ir tdi h => ?_, fun hup hsealed => ?_, fun hup hcode hunbound => ?_⟩
  · obtain ⟨htap, hrest⟩ := s.tapLoad_spec irIdcode (.idcode 0x13216963)
    exact ⟨_, 0x13216963#32, rfl, htap, rfl, by decide, by decide, by decide, by decide, hrest⟩
  · exact ⟨_, exec_bypass_of_refused h tdi, s.tapLoad_spec _ _⟩
  · have hno := State.pinsAllowed_of_sealed hsealed
    refine ⟨_, _, exec_extest hup, ?_, exec_samplePreload hup, ?_⟩
    · rw [State.boundaryScan_refused (s.tapAllows_extest.trans hno)]
      exact s.tapLoad_tap _ _ _
    · rw [State.boundaryScan_refused (s.tapAllows_sample.trans hno)]
      exact s.tapLoad_tap _ _ _
  · have hyes : s.pinsAllowed = true := s.pinsAllowed_iff.mpr ⟨fun h => by simp [h] at hcode, hunbound⟩
    rw [exec_extest hup, exec_samplePreload hup, State.boundaryScan_allowed (s.tapAllows_extest.trans hyes),
      State.boundaryScan_allowed (s.tapAllows_sample.trans hyes)]
    exact ⟨⟨_, _, rfl⟩, ⟨_, _, rfl⟩⟩

end Sys2Proof.Machine
end

