-- ==== Sys2Proof/Proofs/TimingSignature.lean ====
section
/-! PROOF. Computing the timing signatures again: which pitches change, and what their signature is then (16 R334, R336). -/

namespace Sys2Proof.Machine

open Sys2Proof.Claims

/-- What the timing signature of a pitch is made of beside the pitches. -/
structure SameTiming (s t : State) : Prop where
  fuses : t.fuses = s.fuses
  prov : t.prov = s.prov
  netPorts : t.netPorts = s.netPorts
  clusters : t.clusters = s.clusters
  divider : t.power.divider = s.power.divider
  device : t.power.device = s.power.device

theorem SigOnly.plan {x y : Pitch} (h : SigOnly x y) : y.plan = x.plan := (congrArg Pitch.plan h :)

theorem SigOnly.held {x y : Pitch} (h : SigOnly x y) : y.held = x.held := by simp only [Pitch.held, h.plan]

theorem SigOnly.committed {x y : Pitch} (h : SigOnly x y) : y.committed = x.committed := (congrArg Pitch.committed h :)

theorem SigOnly.schedString {x y : Pitch} (h : SigOnly x y) (p : Nat) : y.schedString p = x.schedString p :=
  (congrArg (fun z => z.schedString p) h :)

theorem SigOnly.refl (x : Pitch) : SigOnly x x := rfl

theorem SigOnly.of_eq {x y : Pitch} (h : y = x) : SigOnly x y := h ▸ SigOnly.refl x

theorem SigOnly.trans {x y z : Pitch} (h : SigOnly x y) (k : SigOnly y z) : SigOnly x z := by
  rw [SigOnly] at h k ⊢
  rw [k, h]

/-- The timing record does not read the signature, DEGRADED or the counters of any pitch. -/
theorem State.tsigRecord_congr {s t : State} (h : SameTiming s t) (hp : ∀ q, SigOnly (s.pitch q) (t.pitch q)) (p : PitchId) :
    t.tsigRecord p = s.tsigRecord p := by
  have hrsig : (t.pitch p).rsig = (s.pitch p).rsig := (congrArg Pitch.rsig (hp p) :)
  have hmap : (t.pitch p).tx.portMap = (s.pitch p).tx.portMap := (congrArg (fun z : Pitch => z.tx.portMap) (hp p) :)
  have hdrowses : t.drowses p = s.drowses p := by
    simp only [State.drowses, State.holdsAlone, (hp _).held, h.prov]
  simp only [State.tsigRecord, State.vco, State.activeSlices, State.linkBytes, hrsig, hmap, hdrowses, (hp p).plan,
    (hp p).schedString, h.fuses, h.netPorts, h.clusters, h.divider, h.device]

/-- The signature that a pitch takes is that of the state it is computed in. -/
theorem State.retimeOne_signs {s : State} {p : PitchId} (h : (s.pitch p).committed = true) :
    ((s.retimeOne p).pitch p).tsig = sigOf (s.tsigRecord p) := by
  unfold State.retimeOne
  simp only [h, Bool.not_true, Bool.false_eq_true, if_false]
  split
  · next heq => exact heq.symm
  · simp

theorem State.retimeOne_of_uncommitted {s : State} {p : PitchId} (h : (s.pitch p).committed = false) : s.retimeOne p = s := by
  simp [State.retimeOne, h]

/-- From s to t every pitch of ps had its timing signature computed again. -/
structure RetimedOf (ps : List PitchId) (s t : State) : Prop where
  rest : t = { s with pitches := t.pitches }
  sigOnly : ∀ q, SigOnly (s.pitch q) (t.pitch q)
  signed : ∀ q ∈ ps, (s.pitch q).committed = true → (t.pitch q).tsig = sigOf (s.tsigRecord q)
  others : ∀ q, q ∉ ps ∨ (s.pitch q).committed = false → t.pitch q = s.pitch q

theorem RetimedOf.sameTiming {ps : List PitchId} {s t : State} (h : RetimedOf ps s t) : SameTiming s t := by
  have hrest := h.rest
  constructor <;> rw [hrest]

theorem RetimedOf.tsigRecord {ps : List PitchId} {s t : State} (h : RetimedOf ps s t) (p : PitchId) :
    t.tsigRecord p = s.tsigRecord p := State.tsigRecord_congr h.sameTiming h.sigOnly p

theorem retimedOf_retimeOne (s : State) (p : PitchId) : RetimedOf [p] s (s.retimeOne p) := by
  obtain ⟨hrest, hothers, hsig⟩ := s.retimeOne_spec p
  refine ⟨hrest, fun q => ?_, fun q hq hc => ?_, fun q hq => ?_⟩
  · by_cases h : q = p
    · rw [h]; exact hsig
    · rw [hothers q h]; exact SigOnly.refl _
  · obtain rfl := List.mem_singleton.mp hq
    exact State.retimeOne_signs hc
  · by_cases h : q = p
    · subst h
      rw [State.retimeOne_of_uncommitted (hq.resolve_left (by simp))]
    · exact hothers q h

theorem retimedOf_foldl (ps : List PitchId) (hn : ps.Nodup) (s : State) :
    RetimedOf ps s (ps.foldl (fun s p => s.retimeOne p) s) := by
  induction ps generalizing s with
  | nil => exact ⟨rfl, fun _ => SigOnly.refl _, by simp, fun _ _ => rfl⟩
  | cons p ps ih =>
    obtain ⟨hp, hn⟩ := List.nodup_cons.mp hn
    have first := retimedOf_retimeOne s p
    have later := ih hn (s.retimeOne p)
    rw [List.foldl_cons]
    refine ⟨by rw [later.rest, first.rest], fun q => (first.sigOnly q).trans (later.sigOnly q), fun q hq hc => ?_, fun q hq => ?_⟩
    · rcases List.mem_cons.mp hq with rfl | hq
      · rw [later.others q (.inl hp)]
        exact first.signed q (by simp) hc
      · rw [later.signed q hq ((first.sigOnly q).committed.trans hc), first.tsigRecord q]
    · rcases hq with hq | hc
      · rw [List.mem_cons, not_or] at hq
        rw [later.others q (.inl hq.2), first.others q (.inl (by simpa using hq.1))]
      · rw [later.others q (.inr ((first.sigOnly q).committed.trans hc)), first.others q (.inr hc)]

/-- Computing the signatures again gives every committed pitch the signature of the state, and leaves what is not committed. -/
theorem State.retime_retimedOf (s : State) : RetimedOf allPitches s s.retime :=
  retimedOf_foldl allPitches (List.nodup_finRange 12) s

/-- The statements' word for it, from any state with the same pitches. -/
theorem State.retime_retimed {s m : State} (hm : m.pitches = s.pitches) : Retimed s m.retime := by
  intro p
  have h := m.retime_retimedOf
  rw [← State.pitch_of_pitches s m hm p, h.tsigRecord p]
  exact ⟨h.sigOnly p, h.signed p (List.mem_finRange p), fun hc => h.others p (.inr hc)⟩

/-- The power state of cells is no part of the timing record. -/
theorem retimed_setCells {s t : State} (h : Retimed s t) (cs : List Nat) (v : CellPower) : Retimed s (t.setCells cs v) := by
  intro p
  have hpitch : ∀ q, (t.setCells cs v).pitch q = t.pitch q := State.pitch_of_pitches t _ (by simp only [State.setCells])
  have hsame : SameTiming t (t.setCells cs v) := by constructor <;> simp only [State.setCells]
  rw [State.tsigRecord_congr hsame (fun q => SigOnly.of_eq (hpitch q)), hpitch]
  exact h p

end Sys2Proof.Machine
end

