-- ==== Sys2Proof/Proofs/PowerStates.lean ====
section
/-! PROOF. Power events, cell resets and the device power states (02 R43, R45, R48 to R50; 21 R446; 22 R474, R475). -/

namespace Sys2Proof.Machine

open Sys2Proof.Claims

/-! ## Sparse tables by key -/

/-- Leaving out keys leaves the others as they are. -/
theorem sfind_filter {α : Type} (m : Sparse α) (f : Nat → Bool) (k : Nat) :
    sfind (m.filter (fun e => f e.1)) k = if f k then sfind m k else none := by
  induction m with
  | nil => simp [sfind]
  | cons e m ih =>
    obtain ⟨j, x⟩ := e
    by_cases hj : j = k
    · subst hj
      cases hf : f j <;> simp [List.filter, hf, sfind, ih]
    · cases hf : f j <;> simp [List.filter, hf, sfind, ih, hj]

theorem sget_filter {α : Type} (m : Sparse α) (f : Nat → Bool) (k : Nat) (d : α) :
    sget (m.filter (fun e => f e.1)) k d = if f k then sget m k d else d := by
  rw [sget, sfind_filter]
  split <;> rfl

/-! ## Flash and rails -/

theorem Flash.finishMirror_of_complete {f : Flash} (h : f.journal = .complete) :
    f.finishMirror = { f with mirror := f.journaled, journal := .done } := if_pos h

theorem Flash.finishMirror_log (f : Flash) : f.finishMirror.log = f.log := by unfold Flash.finishMirror; split <;> rfl

/-- No journal is left in COMPLETE. -/
theorem Flash.finishMirror_journal (f : Flash) : f.finishMirror.journal ≠ .complete := by
  unfold Flash.finishMirror
  split
  · simp
  · next h => exact h

/-- A record of any type joins the log where the log has room. -/
theorem State.logRaw_log (s : State) (type : Nat) (body : Bytes) :
    (s.logRaw type body).flash.log = if s.flash.log.length < logRecords then s.flash.log ++ [s.logRecord type body] else s.flash.log := by
  unfold State.logRaw
  split <;> simp

theorem State.logRaw_length (s : State) (type : Nat) (body : Bytes) :
    (s.logRaw type body).flash.log.length = min (s.flash.log.length + 1) (max s.flash.log.length logRecords) := by
  rw [State.logRaw_log]
  split
  · next h => rw [List.length_append, List.length_singleton, max_eq_right h.le, min_eq_left h]
  · next h => rw [max_eq_left (Nat.le_of_not_lt h), min_eq_right (Nat.le_succ _)]

theorem logRaw_power (s : State) (type : Nat) (body : Bytes) : (s.logRaw type body).power = s.power := by
  unfold State.logRaw
  split <;> simp

theorem logRaw_hour (s : State) (type : Nat) (body : Bytes) : (s.logRaw type body).health.hour = s.health.hour := by
  unfold State.logRaw
  split <;> simp

/-- A rail fault holds the die with FAULT_N low; the first cause stands while VDD_AON stays in range (02 R49). -/
theorem exec_railFault (c : RailCause) (rail : Fin 8) (s : State) :
    exec (.railFault c rail) s = .next { s with held := true, power := { s.power with
      faultN := true
      railCause := if c = .outOfRange ∧ rail = 0 then none else if s.power.faultN then s.power.railCause else some (c, rail) } } := by
  simp [exec, execRailFault]

/-! ## Cell resets -/

/-- What a cell reset makes of the network port of its cell. -/
def NetPortSt.cellReset (q : NetPortSt) : NetPortSt :=
  { q.rebooted true with
    inService := !q.failed, link := if q.failed then .down else if q.laneGroup.isSome then .r400 else .r800 }

/-- A slice's reset leaves its staging bank as never written. -/
theorem State.resetCell_slice (s : State) {c : Nat} (h : c < 72) :
    s.resetCell c = s.erase (stagingBase + 2097152 * c) 2097152 := if_pos h

theorem State.resetCell_port (s : State) (n : NetPort) : s.resetCell (72 + n.val) = s.modPort n NetPortSt.cellReset := by
  have hn : Fin.ofNat 17 (72 + n.val - 72) = n := Fin.ext (by simp)
  have hlow : ¬ 72 + n.val < 72 := by omega
  have hport : 72 + n.val < 89 := by omega
  simp only [State.resetCell, hlow, hport, hn, if_true, if_false]
  rfl

theorem State.resetCell_other (s : State) {c : Nat} (h : 89 ≤ c) :
    s.resetCell c = { s with erg := s.erg.filter (fun e => decide (123 + e.1 % 8 ≠ c)) } := by
  have hlow : ¬ c < 72 := by omega
  have hport : ¬ c < 89 := by omega
  simp only [State.resetCell, hlow, hport, if_false]

/-- A cell is a slice, the cell of a network port, or another. -/
theorem cell_cases (c : Nat) : c < 72 ∨ (∃ n : NetPort, c = 72 + n.val) ∨ 89 ≤ c := by
  by_cases h : c < 72
  · exact .inl h
  · by_cases k : c < 89
    · exact .inr (.inl ⟨⟨c - 72, by omega⟩, by simp only []; omega⟩)
    · exact .inr (.inr (by omega))

/-- A cell's own reset touches memory, Erg registers and network ports alone. -/
theorem State.resetCell_rest (s : State) (c : Nat) : s.resetCell c = { s with
    mem := (s.resetCell c).mem, erg := (s.resetCell c).erg, netPorts := (s.resetCell c).netPorts } := by
  rcases cell_cases c with h | ⟨n, rfl⟩ | h
  · rw [s.resetCell_slice h]; rfl
  · rw [s.resetCell_port n]; rfl
  · rw [s.resetCell_other h]

theorem State.resetCell_power (s : State) (c : Nat) : (s.resetCell c).power = s.power :=
  (congrArg State.power (s.resetCell_rest c) :)

theorem State.resetCell_ergGet (s : State) (c g : Nat) :
    (s.resetCell c).ergGet g = if 123 + g % 8 = c then 0 else s.ergGet g := by
  rcases cell_cases c with h | ⟨n, rfl⟩ | h
  · rw [s.resetCell_slice h, if_neg (by omega)]; rfl
  · rw [s.resetCell_port n, if_neg (by omega)]; rfl
  · rw [s.resetCell_other h]
    exact (sget_filter s.erg (fun k => decide (123 + k % 8 ≠ c)) g 0).trans (by by_cases hg : 123 + g % 8 = c <;> simp [hg, State.ergGet])

theorem State.resetCell_byte (s : State) (c a : Nat) : (s.resetCell c).byte a =
    if c < 72 ∧ stagingBase + 2097152 * c ≤ a ∧ a < stagingBase + 2097152 * c + 2097152 then 0 else s.byte a := by
  rcases cell_cases c with h | ⟨n, rfl⟩ | h
  · rw [s.resetCell_slice h]
    split
    · next hin => exact memGet_memErase_in _ _ _ _ hin.2
    · next hout => exact memGet_memErase_out _ _ _ _ (by omega)
  · rw [s.resetCell_port n, if_neg (by omega)]; rfl
  · rw [s.resetCell_other h, if_neg (by omega)]; rfl

theorem State.resetCell_netPorts (s : State) (c : Nat) (n : NetPort) :
    (s.resetCell c).netPorts[n] = if 72 + n.val = c then (s.netPorts[n]).cellReset else s.netPorts[n] := by
  rcases cell_cases c with h | ⟨k, rfl⟩ | h
  · simp only [s.resetCell_slice h, show ¬ 72 + n.val = c by omega, if_false]; rfl
  · simp only [s.resetCell_port k, State.modPort, Fin.getElem_fin, Vector.getElem_set, Nat.add_right_inj, Fin.val_inj,
      eq_comm (a := n)]
    split
    · next hk => rw [hk]
    · rfl
  · simp only [s.resetCell_other h, show ¬ 72 + n.val = c by omega, if_false]

/-- A port keeps its own repairs over a reset of its cell. -/
theorem NetPortSt.cellReset_spec (q : NetPortSt) :
    q.cellReset.inService = !q.failed ∧ q.cellReset.failed = q.failed ∧ q.cellReset.decodersBad = q.decodersBad ∧
    (q.failed = false → q.cellReset.sparedTx = q.sparedTx ∧ q.cellReset.sparedRx = q.sparedRx ∧
      q.cellReset.laneGroup = q.laneGroup) := by
  cases hf : q.failed <;> simp [NetPortSt.cellReset, NetPortSt.rebooted, hf]

theorem State.setCells_run (s : State) (c : CellId) :
    s.setCells [c.val] .run = { s with power := { s.power with cells := s.power.cells.set c .run } } := by
  have hcells : (s.setCells [c.val] .run).power.cells = s.power.cells.set c .run := by
    ext i hi
    have := s.setCells_singleton c.val .run ⟨i, hi⟩
    simp only [Fin.getElem_fin] at this
    rw [this, Vector.getElem_set]
    simp only [eq_comm]
  rw [← hcells]
  rfl

theorem execCellReset_due {s : State} {c : CellId} {b : CellBist} (hup : s.held = false) (hoff : s.power.cells[c] = .off)
    (hneed : c.val ∈ s.neededCells) : exec (.cellReset c b) s = .next ((s.resetCell c.val).cellBist c.val b) := by
  simp [exec, execCellReset, live, hup, hoff, hneed, -Fin.getElem_fin]

theorem execCellReset_idle {s : State} {c : CellId} {b : CellBist} (hup : s.held = false)
    (h : s.power.cells[c] ≠ .off ∨ c.val ∉ s.neededCells) : exec (.cellReset c b) s = .next s := by
  have hno : ¬ (s.power.cells[c] = .off ∧ c.val ∈ s.neededCells) := by tauto
  simpa [exec, execCellReset, live, hup, -Fin.getElem_fin] using fun h1 h2 => absurd ⟨h1, h2⟩ hno

/-! ## PWR_WARN and droop -/

/-- PWR_WARN_N: the partial hour is closed, the warning noted, and a flash write in progress completes (02 R48). -/
theorem exec_pwrWarn {s : State} (hup : s.held = false) :
    exec .pwrWarn s = .next { s.partialHour with
      power := { s.partialHour.power with warned := true }, flash := s.partialHour.flash.finishMirror } :=
  live_next s (fun s => { s.partialHour with
      power := { s.partialHour.power with warned := true }, flash := s.partialHour.flash.finishMirror }) hup

/-- What PWR_WARN_N leaves of power state, flash log and hour. -/
theorem pwrWarn_spec {s : State} (hup : s.held = false) :
    ∃ t, exec .pwrWarn s = .next t ∧ t.power = { s.power with warned := true } ∧ t.flash.journal ≠ .complete ∧
      s.flash.log <+: t.flash.log ∧ t.flash.log.length = min (s.flash.log.length + 1) (max s.flash.log.length 131072) ∧
      t.health.hour.start = s.health.hour.start + (s.health.posSeconds - s.health.hour.start) ∧ t.health.hour.samples = 0 := by
  have hlog : s.partialHour.flash.finishMirror.log = (s.logRaw logHour _).flash.log := Flash.finishMirror_log _
  refine ⟨_, exec_pwrWarn hup, ?_, Flash.finishMirror_journal _, ?_, ?_, ?_, rfl⟩
  · exact congrArg (fun w : Power => { w with warned := true }) (logRaw_power s logHour _)
  · exact hlog ▸ (s.logRaw_spec logHour _).2
  · exact (congrArg List.length hlog).trans (s.logRaw_length logHour _)
  · exact congrArg (fun h : Hour => h.start + _) (logRaw_hour s logHour _)

/-- A stretch adds at most the half period of R45 to the time base. -/
theorem freeStretch_le (n m : Nat) : ((Config.freeStretch n % (m + 1) : Nat) : Int) ≤ (m : Int) := by
  have h : Config.freeStretch n % (m + 1) < m + 1 := Nat.mod_lt _ (Nat.succ_pos m)
  exact Int.ofNat_le.mpr (Nat.le_of_lt_succ h)

/-- A droop reading is kept where it is the detector's highest, and in the hour. -/
def State.noteDroop (s : State) (d : Fin 16) (mv : Nat) : State :=
  { s with
    power := { s.power with droopMax := s.power.droopMax.set d.val (max (s.power.droopMax.getD d.val 0) mv) }
    health := { s.health with hour := { s.health.hour with droop := max s.health.hour.droop mv } } }

/-- A stretch lengthens wall time by a free amount and is counted. -/
def State.stretched (s : State) : State :=
  { s with
    free := s.free + 1
    power := { s.power with droopStretch := s.power.droopStretch + 1 }
    ptp := { s.ptp with base := s.ptp.base + ((Config.freeStretch s.free % (s.stretchMost + 1) : Nat) : Int) }
    health := { s.health with hour := { s.health.hour with stretches := s.health.hour.stretches + 1 } } }

theorem exec_droopStretch {s : State} (hup : s.held = false) (d : Fin 16) (mv : Nat) :
    exec (.droopStretch d mv) s = .next (if mv < 50 then s.noteDroop d mv else (s.noteDroop d mv).stretched) :=
  live_next s (fun s => if mv < 50 then s.noteDroop d mv else (s.noteDroop d mv).stretched) hup

theorem droopStretch_spec {s : State} (hup : s.held = false) (d : Fin 16) (mv : Nat) :
    ∃ t, exec (.droopStretch d mv) s = .next t ∧ t.cclk = s.cclk ∧
      t.power = { s.power with droopMax := s.power.droopMax.set d.val (max (s.power.droopMax.getD d.val 0) mv)
                               droopStretch := if 50 ≤ mv then s.power.droopStretch + 1 else s.power.droopStretch } ∧
      t.ptp = { s.ptp with base := t.ptp.base } ∧ s.ptp.base ≤ t.ptp.base ∧
      t.ptp.base ≤ s.ptp.base + (if 50 ≤ mv then (s.stretchMost : Int) else 0) := by
  by_cases hmv : 50 ≤ mv
  · have hmost := freeStretch_le s.free s.stretchMost
    rw [exec_droopStretch hup, if_neg (by omega)]
    simp only [hmv, if_true]
    exact ⟨_, rfl, rfl, rfl, rfl, Int.le_add_of_nonneg_right (Int.natCast_nonneg _), Int.add_le_add_left hmost _⟩
  · rw [exec_droopStretch hup, if_pos (by omega)]
    simp only [hmv, if_false]
    exact ⟨_, rfl, rfl, rfl, rfl, le_rfl, le_of_eq (Int.add_zero _).symm⟩

/-! ## Cell resets as commands -/

/-- A cell that passes its BIST runs, with what its own reset restores. -/
theorem cellReset_pass (s : State) (c : CellId) : s.held = false → s.power.cells[c] = .off → c.val ∈ s.neededCells →
    ∃ t, exec (.cellReset c .pass) s = .next t ∧
      t = { s with power := { s.power with cells := s.power.cells.set c .run }, erg := t.erg, mem := t.mem, netPorts := t.netPorts } ∧
      (∀ g, t.ergGet g = if 123 + g % 8 = c.val then 0 else s.ergGet g) ∧
      (∀ a, t.byte a = if c.val < 72 ∧ stagingBase + 2097152 * c.val ≤ a ∧ a < stagingBase + 2097152 * c.val + 2097152 then 0
        else s.byte a) ∧
      ∀ n : NetPort, t.netPorts[n] = if 72 + n.val = c.val then (s.netPorts[n]).cellReset else s.netPorts[n] := by
  intro hup hoff hneed
  refine ⟨_, execCellReset_due hup hoff hneed, ?_⟩
  rw [State.cellBist, State.setCells_run, s.resetCell_power]
  refine ⟨?_, s.resetCell_ergGet c.val, s.resetCell_byte c.val, s.resetCell_netPorts c.val⟩
  rw [s.resetCell_rest]

/-- A cell beside the slices whose logic fails keeps its power state. -/
theorem cellReset_logic {s : State} {c : CellId} (hup : s.held = false) (hoff : s.power.cells[c] = .off) (hneed : c.val ∈ s.neededCells)
    (hc : 72 ≤ c.val) : ∃ t, exec (.cellReset c .logic) s = .next t ∧ t.power = s.power := by
  refine ⟨_, execCellReset_due hup hoff hneed, ?_⟩
  have hno : ¬ c.val / 9 < 8 := by omega
  simp only [State.cellBist, hno, dite_false]
  exact s.resetCell_power c.val

/-! ## The device power state -/

theorem dLowExit_spec {s : State} (hup : s.held = false) (hlow : s.power.device = 1) (hcall : s.power.callLow = false)
    (hclear : 16 ≤ s.power.clearEpochs) :
    ∃ t, exec .dLowExit s = .next t ∧ t = { s with power := { s.power with device := 0 }, pitches := t.pitches } ∧ Retimed s t := by
  have hrun : exec .dLowExit s = .next (State.retime { s with power := { s.power with device := 0 } }) := by
    simp [exec, execDLowExit, live, hup, hlow, hcall, hclear]
  exact ⟨_, hrun, (State.retime_retimedOf _).rest, State.retime_retimed rfl⟩

/-- The cells that D-RETAIN puts in DROWSE: those of R474 that are not OFF. -/
theorem State.setCells_retain (s t : State) (i : CellId) (ht : t.power.cells = s.power.cells) :
    (t.setCells (retainCells.filter (fun c => s.power.cells.toList.getD c .off ≠ .off)) .drowse).power.cells[i] =
      if i.val ∈ retainCells ∧ s.power.cells[i] ≠ .off then .drowse else s.power.cells[i] := by
  have hget : s.power.cells.toList.getD i.val .off = s.power.cells[i] := by simp [List.getD_eq_getElem?_getD]
  simp only [State.setCells, Fin.getElem_fin, Vector.getElem_ofFn, List.mem_filter, hget, ht, decide_eq_true_eq]

theorem dRetainEntry_spec {s : State} (hup : s.held = false) (hen : s.prov.retainEn = true) (hidle : 64 ≤ s.power.idleEpochs)
    (hnow : s.idleNow = true) :
    ∃ t, exec .dRetainEntry s = .next t ∧
      t = { s with power := { s.power with device := 2, idleEpochs := 0, cells := t.power.cells }, pitches := t.pitches } ∧
      Retimed s t ∧
      ∀ c : CellId, t.power.cells[c] = if c.val ∈ retainCells ∧ s.power.cells[c] ≠ .off then .drowse else s.power.cells[c] := by
  have hrest := (State.retime_retimedOf { s with power := { s.power with device := 2, idleEpochs := 0 } }).rest
  have hre := State.retime_retimed (s := s) (m := { s with power := { s.power with device := 2, idleEpochs := 0 } }) rfl
  generalize hm : State.retime { s with power := { s.power with device := 2, idleEpochs := 0 } } = m at hrest hre
  have hrun : exec .dRetainEntry s = .next (m.setCells (retainCells.filter (fun c => s.power.cells.toList.getD c .off ≠ .off)) .drowse) := by
    rw [← hm]
    simp [exec, execDRetainEntry, live, hup, hen, hidle, hnow]
  have hpower : m.power = { s.power with device := 2, idleEpochs := 0 } := (congrArg State.power hrest :)
  refine ⟨_, hrun, ?_, retimed_setCells hre _ _, fun c => State.setCells_retain s m c (by rw [hpower])⟩
  rw [State.setCells, hpower, hrest]

theorem State.le_planBoundary (s : State) : s.cclk ≤ s.planBoundary := by
  have := Nat.div_add_mod (s.cclk + planLen - 1) planLen
  have hlt := Nat.mod_lt (s.cclk + planLen - 1) (show 0 < planLen by decide)
  simp only [State.planBoundary, roundUp]
  rw [Nat.mul_comm] at this
  omega

/-- The time base is read from its base, CCLK, the divider and the grade. -/
theorem State.ptpNow_congr {s t : State} (hbase : t.ptp.base = s.ptp.base) (hcclk : t.cclk = s.cclk)
    (hdivider : t.power.divider = s.power.divider) (hfuses : t.fuses = s.fuses) : t.ptpNow = s.ptpNow := by
  simp only [State.ptpNow, State.vco, hbase, hcclk, hdivider, hfuses]

/-- A new divider is in force: the time base goes on from its value, and the signatures are computed again (22 R475). -/
theorem State.setDivider_spec {s : State} {d : Nat} (hd : s.power.divider ≠ d) :
    ∃ base, State.ptpNow { s with power := { s.power with divider := d }, ptp := { s.ptp with base := base } } = s.ptpNow ∧
      s.setDivider d = State.retime { s with power := { s.power with divider := d }, ptp := { s.ptp with base := base } } :=
  ⟨s.ptpNow - ((s.cclk * 655360 * d / s.vco : Nat) : Int), Int.sub_add_cancel _ _, if_neg hd⟩

theorem cclkDividerChange_spec {s : State} (hup : s.held = false) (hdue : s.power.divider ≠ s.dividerDue) :
    ∃ t, exec .cclkDividerChange s = .next t ∧ t.cclk = s.planBoundary ∧
      t.power = { s.power with divider := if s.power.device = 0 then 2 else 4 } ∧
      t.ptpNow = ({ s with cclk := s.planBoundary } : State).ptpNow ∧ t.mem = s.mem ∧ Retimed s t := by
  have hat : s.advanceTo s.planBoundary = { s with cclk := s.planBoundary } := by
    rw [State.advanceTo, max_eq_right s.le_planBoundary]
  obtain ⟨base, hbase, hset⟩ := State.setDivider_spec (s := { s with cclk := s.planBoundary }) hdue
  have hrun : exec .cclkDividerChange s = .next (({ s with cclk := s.planBoundary } : State).setDivider s.dividerDue) := by
    simp [exec, execCclkDividerChange, live, hup, hdue, hat]
  rw [hset] at hrun
  generalize hm : ({ s with
    cclk := s.planBoundary, power := { s.power with divider := s.dividerDue }, ptp := { s.ptp with base := base } } : State) = m at hrun
  have hre := State.retime_retimed (s := s) (m := m) (by rw [← hm])
  have hrest := m.retime_retimedOf.rest
  generalize m.retime = t at hrun hre hrest
  subst hm
  refine ⟨t, hrun, (congrArg State.cclk hrest :), (congrArg State.power hrest :), ?_, (congrArg State.mem hrest :), hre⟩
  rw [← hbase]
  exact State.ptpNow_congr (congrArg (fun t : State => t.ptp.base) hrest :) (congrArg State.cclk hrest :)
    (congrArg (fun t : State => t.power.divider) hrest :) (congrArg State.fuses hrest :)

/-- Settles O14: one clause for each event, from what the event's own operation does. -/
theorem powerStates : Obligations.PowerStates := by
  refine ⟨fun s hup => ⟨fun hready hj => ?_, pwrWarn_spec hup, fun c rail hlost => ?_, ?_, fun c hoff hneed => ⟨?_, ?_⟩,
    fun c b h => execCellReset_idle hup h, fun d mv => droopStretch_spec hup d mv⟩,
    fun s hup => ⟨fun h1 h2 h3 => dLowExit_spec hup h1 h2 h3, fun h1 h2 h3 => dRetainEntry_spec hup h1 h2 h3,
      fun h => cclkDividerChange_spec hup h⟩⟩
  · simp [exec, execMirrorJournalFinish, live, hup, hready, Flash.finishMirror_of_complete hj]
  · rw [exec_railFault, if_neg hlost]
  · rw [exec_railFault, if_pos ⟨rfl, rfl⟩]
  · obtain ⟨t, hrun, hrest, herg, hbyte, hports⟩ := cellReset_pass s c hup hoff hneed
    refine ⟨t, hrun, hrest, herg, hbyte, fun n => ⟨fun hn => ?_, fun hn => ?_⟩⟩
    · rw [hports n, if_neg hn]
    · rw [hports n, if_pos hn]
      exact NetPortSt.cellReset_spec _
  · exact cellReset_logic hup hoff hneed

end Sys2Proof.Machine
end

