-- ==== Sys2Proof/Proofs/SteadyPitch.lean ====
section
/-! PROOF. What the work of a pitch leaves alone: CCLK, the status page, the firmware complex, the security side of the die, and
which modules of the host ports work. -/

namespace Sys2Proof.Machine

/-- The part of the state that no write to a register of a window, no message between members and no repair of a port changes. -/
def steady (s : State) : Vector (BitVec 4) 8 × Global × Firmware × Nat × (Fuses × Prov × Security × Tap) :=
  (s.hostPorts.map HostPortSt.modules, s.glob, s.fw, s.cclk, s.guarded)

section
variable (s : State)

/-! ## Plain changes of other fields -/

@[simp] theorem steady_setPitch (p : PitchId) (x : Pitch) : steady (s.setPitch p x) = steady s := rfl
@[simp] theorem steady_modPitch (p : PitchId) (f : Pitch → Pitch) : steady (s.modPitch p f) = steady s := rfl
@[simp] theorem steady_count (p : PitchId) (c : PCtr) (n : Nat) : steady (s.count p c n) = steady s := rfl
@[simp] theorem steady_write (a : Nat) (bs : Bytes) : steady (s.write a bs) = steady s := rfl
@[simp] theorem steady_erase (a n : Nat) : steady (s.erase a n) = steady s := rfl
@[simp] theorem steady_ergClear (g n : Nat) : steady (s.ergClear g n) = steady s := rfl
@[simp] theorem steady_draw : steady s.draw.2 = steady s := rfl
@[simp] theorem steady_modPort (n : NetPort) (f : NetPortSt → NetPortSt) : steady (s.modPort n f) = steady s := rfl
@[simp] theorem steady_setCells (cs : List Nat) (v : CellPower) : steady (s.setCells cs v) = steady s := by
  simp only [steady, State.setCells, State.guarded]
@[simp] theorem steady_restGroups : steady s.restGroups = steady s := steady_setCells _ _ _
@[simp] theorem steady_dropIngestReads (p : PitchId) : steady (s.dropIngestReads p) = steady s := rfl

theorem steady_foldl {α : Type} {f : State → α → State} (h : ∀ s a, steady (f s a) = steady s) (xs : List α) (s : State) :
    steady (xs.foldl f s) = steady s := by
  induction xs generalizing s with
  | nil => rfl
  | cons x xs ih => rw [List.foldl_cons, ih, h]

theorem steady_forPitches {f : PitchId → State → State} (h : ∀ p s, steady (f p s) = steady s) :
    steady (s.forPitches f) = steady s := steady_foldl (fun s p => h p s) _ s

@[simp] theorem steady_eraseAll (rs : List (Nat × Nat)) : steady (s.eraseAll rs) = steady s :=
  steady_foldl (f := fun s (r : Nat × Nat) => s.erase r.1 r.2) (fun s r => steady_erase s r.1 r.2) rs s

@[simp] theorem steady_program (r : FlashRegion) (f : Flash) : steady (s.program r f) = steady s := by
  unfold State.program
  split <;> rfl

@[simp] theorem steady_setRetained (v : Vector (Option Retained) 12) : steady (s.setRetained v) = steady s :=
  steady_program s .mirror (s.flash.writeMirror v)

@[simp] theorem steady_modRetained (p : PitchId) (f : Retained → Retained) : steady (s.modRetained p f) = steady s :=
  steady_setRetained s _

@[simp] theorem steady_retain (p : PitchId) : steady (s.retain p) = steady s := by
  unfold State.retain
  extract_lets
  split <;> simp

@[simp] theorem steady_retainGuard (p : PitchId) : steady (s.retainGuard p) = steady s := steady_modRetained s _ _

/-- States that agree beside the log are steady. -/
theorem steady_of_beside {s t : State} (h : beside t = beside s) : steady t = steady s :=
  (congrArg steady h :)

@[simp] theorem steady_logEvent (type : Nat) (body : Bytes) : steady (s.logEvent type body) = steady s :=
  steady_of_beside (s.logEvent_spec type body).1

/-! ## Messages to hosts -/

@[simp] theorem HostPortSt.send_modules (hp : HostPortSt) (m : HostMsg) : (hp.send m).modules = hp.modules := by
  cases m <;> rfl

/-- Setting a host port to one with the same modules leaves which modules work. -/
theorem modules_set {v : Vector HostPortSt 8} {h : HostPort} {hp : HostPortSt} (hm : hp.modules = v[h].modules) :
    (v.set h hp).map HostPortSt.modules = v.map HostPortSt.modules := by
  refine Vector.ext fun i hi => ?_
  rw [Vector.getElem_map, Vector.getElem_map, Vector.getElem_set]
  split
  · next e => subst e; exact hm
  · rfl

@[simp] theorem steady_sendHost (h : HostPort) (m : HostMsg) : steady (s.sendHost h m) = steady s := by
  unfold State.sendHost
  split
  · rfl
  · exact congrArg (·, s.glob, s.fw, s.cclk, s.guarded) (modules_set (HostPortSt.send_modules _ _))

@[simp] theorem steady_sendBound (p : PitchId) (m : HostMsg) : steady (s.sendBound p m) = steady s :=
  steady_foldl (fun s h => steady_sendHost s h m) _ s

@[simp] theorem steady_hostStore (h : HostPort) (a : W64) (d : Bytes) : steady (s.hostStore h a d) = steady s :=
  steady_foldl (fun s _ => steady_sendHost s h _) _ s

/-! ## Completions, responses and notices -/

@[simp] theorem steady_putEntry (p : PitchId) (q : Nat) (mk : Bool → Bytes) : steady (s.putEntry p q mk) = steady s := by
  unfold State.putEntry
  extract_lets x
  split
  · split
    · rw [steady_sendBound]; rfl
    · rfl
  · rfl

@[simp] theorem steady_writeCpl (p : PitchId) (q : Nat) (e : Bytes) : steady (s.writeCpl p q e) = steady s :=
  steady_putEntry s p q _

@[simp] theorem steady_complete (p : PitchId) (kind status wq : Nat) (head : W16) (detail : Nat) (cookie : W64) :
    steady (s.complete p kind status wq head detail cookie) = steady s := by
  unfold State.complete
  extract_lets
  split
  · simp
  · split <;> simp

@[simp] theorem steady_flushHeldGo (p : PitchId) (q n : Nat) : steady (flushHeldGo p q n s) = steady s := by
  induction n generalizing s with
  | zero => rfl
  | succ n ih =>
    unfold flushHeldGo
    extract_lets
    split
    · split <;> simp [ih]
    · rfl

@[simp] theorem steady_flushHeld (p : PitchId) (q : Nat) : steady (s.flushHeld p q) = steady s := steady_flushHeldGo s p q _

@[simp] theorem steady_writeResp (p : PitchId) (e : Bytes) : steady (s.writeResp p e) = steady s := rfl

@[simp] theorem steady_postResponse (p : PitchId) (e : Bytes) : steady (s.postResponse p e) = steady s := by
  unfold State.postResponse
  extract_lets
  split <;> simp

@[simp] theorem steady_flushRespGo (p : PitchId) (n : Nat) : steady (flushRespGo p n s) = steady s := by
  induction n generalizing s with
  | zero => rfl
  | succ n ih =>
    unfold flushRespGo
    extract_lets
    split
    · split <;> simp [ih]
    · rfl

@[simp] theorem steady_flushResponses (p : PitchId) : steady (s.flushResponses p) = steady s := steady_flushRespGo s p _

@[simp] theorem steady_notice (p : PitchId) (code : Nat) (args : Bytes) : steady (s.notice p code args) = steady s := by
  unfold State.notice
  extract_lets
  split
  · rfl
  · split <;> simp

@[simp] theorem steady_lossScaleNotice (p : PitchId) (old : Int) : steady (s.lossScaleNotice p old) = steady s := by
  unfold State.lossScaleNotice
  extract_lets
  split <;> simp

@[simp] theorem steady_respond (p : PitchId) (op : W16) (fl : Nat) (q : W32) (tag : W16) (r : Refuse) (b : Bytes) :
    steady (s.respond p op fl q tag r b) = steady s := by
  unfold State.respond
  simp

@[simp] theorem steady_answerOwed (p : PitchId) (why : CmdWait) (r : Refuse) (b : Bytes) :
    steady (s.answerOwed p why r b) = steady s := by
  unfold State.answerOwed
  extract_lets +onlyGivenNames x due _ told
  exact steady_foldl (f := fun s (o : Owed) => s.respond p o.opcode o.flags o.seq o.tag r b)
    (fun s o => steady_respond s p _ _ _ _ r b) due told

@[simp] theorem steady_doorbell (h : HostPort) (p : PitchId) (d : Nat) (w : W32) : steady (s.doorbell h p d w) = steady s := by
  unfold State.doorbell
  extract_lets
  split
  · simp
  · split
    · simp
    · split
      · simp
      · split
        · split
          · rfl
          · split
            · split
              · rw [steady_flushResponses]; rfl
              · rw [steady_flushHeld]; rfl
            · simp
        · split
          · rfl
          · split <;> simp

/-! ## The step of a pitch -/

@[simp] theorem steady_spikeRun (p : PitchId) (kind : Nat) (lg : Int) : steady (s.spikeRun p kind lg).2 = steady s := by
  simp only [State.spikeRun]
  rw [apply_ite Prod.snd, apply_ite steady]
  simp only [steady_notice, steady_setPitch, ite_self]

@[simp] theorem steady_spikeMaybe (p : PitchId) (kind : Nat) (lg : Option Int) : steady (s.spikeMaybe p kind lg).2 = steady s := by
  cases lg with
  | none => rfl
  | some lg => exact steady_spikeRun s p kind lg

@[simp] theorem steady_guardProgress (p : PitchId) : steady (s.guardProgress p) = steady s := by
  unfold State.guardProgress
  split
  · rfl
  · split <;> simp

@[simp] theorem steady_takeNorm (p : PitchId) (sg : W640) : steady (s.takeNorm p sg) = steady s := by
  unfold State.takeNorm
  simp

@[simp] theorem steady_drowseWake (p : PitchId) : steady (s.drowseWake p) = steady s := by
  unfold State.drowseWake
  split
  · exact steady_setCells s _ _
  · rfl

@[simp] theorem steady_applyFuture (p : PitchId) (step : W64) : steady (s.applyFuture p step) = steady s := by
  unfold State.applyFuture
  extract_lets +onlyGivenNames x m
  split <;> simp

@[simp] theorem steady_ckptFinish (p : PitchId) (k : Nat) : steady (s.ckptFinish p k) = steady s := by
  unfold State.ckptFinish
  simp

@[simp] theorem steady_ckptOwed (p : PitchId) : steady (s.ckptOwed p) = steady s := by
  unfold State.ckptOwed
  extract_lets
  split
  · split <;> simp
  · rfl

@[simp] theorem steady_beginStep (p : PitchId) (step : W64) : steady (s.beginStep p step) = steady s := by
  unfold State.beginStep
  extract_lets +onlyGivenNames ready x _ t _ g _ lock _ y begun
  have hready : steady ready = steady s := by simp [ready]
  have hbegun : steady begun = steady s := by simp [begun, hready]
  split
  · rw [steady_takeNorm, hbegun]
  · exact hbegun

@[simp] theorem steady_stepSetOp (p : PitchId) (v : W64) : steady (s.stepSetOp p v) = steady s := by
  unfold State.stepSetOp
  extract_lets
  split
  · simp
  · split
    · simp
    · simp
    · split <;> simp

@[simp] theorem steady_cursorSetOp (p : PitchId) (v : W32) : steady (s.cursorSetOp p v) = steady s := by
  unfold State.cursorSetOp
  extract_lets
  repeat' split
  all_goals simp

@[simp] theorem steady_lossInOp (p : PitchId) (v : W32) : steady (s.lossInOp p v) = steady s := by
  unfold State.lossInOp
  extract_lets
  split <;> simp

/-- A write to a register of a window leaves what is steady. -/
@[simp] theorem steady_putRegister (h : HostPort) (p : PitchId) (reg v : Nat) : steady (s.putRegister h p reg v) = steady s := by
  unfold State.putRegister
  split
  case h_4 => split <;> simp
  all_goals simp

end

end Sys2Proof.Machine
end

