-- ==== Sys2Proof/Proofs/SteadyMembers.lean ====
section
/-! PROOF. What is steady over the work between members, and over a management epoch after its counts (20 R427 to R436; 02 R44). -/

namespace Sys2Proof.Machine

section
variable (s : State)

/-! ## Lock-step -/

@[simp] theorem steady_enqueueAll (p : PitchId) (fs : List TxFrame) : steady (s.enqueueAll p fs) = steady s := rfl

@[simp] theorem steady_lsMismatch (p : PitchId) (bucket block : Nat) (area : Byte) (off : Nat) :
    steady (s.lsMismatch p bucket block area off) = steady s := by
  unfold State.lsMismatch
  rw [steady_notice]
  rfl

@[simp] theorem steady_lsDifference (p : PitchId) : steady (s.lsDifference p) = steady s := by
  unfold State.lsDifference
  extract_lets +onlyGivenNames x
  split
  · simp only []
    split
    · rfl
    · split
      · simp
      · repeat' split
        all_goals simp
  · rfl

@[simp] theorem steady_lsDiffers (p : PitchId) (q : Pairing) (w : Nat) (own theirs : Bytes) :
    steady (s.lsDiffers p q w own theirs) = steady s := by
  unfold State.lsDiffers
  split
  · simp
  · extract_lets +onlyGivenNames k b j
    split <;> simp

@[simp] theorem steady_releaseOutputs (p : PitchId) (pick : Nat → Bool) : steady (s.releaseOutputs p pick) = steady s := by
  unfold State.releaseOutputs
  extract_lets +onlyGivenNames x due _ taken
  exact steady_foldl (f := fun s (o : Nat × HostPort × W64 × Bytes) => s.hostStore o.2.1 o.2.2.1 o.2.2.2)
    (fun s o => steady_hostStore s _ _ _) due taken

@[simp] theorem steady_lsCompareGo (p : PitchId) (q : Pairing) (n : Nat) : steady (lsCompareGo p q n s) = steady s := by
  induction n generalizing s with
  | zero => rfl
  | succ n ih =>
    unfold lsCompareGo
    extract_lets +onlyGivenNames x w
    split
    · split
      · rw [ih, steady_releaseOutputs, steady_setPitch]
      · exact steady_lsDiffers s p q w _ _
    · rfl

@[simp] theorem steady_lsSendGo (p : PitchId) (q : Pairing) (n : Nat) : steady (lsSendGo p q n s) = steady s := by
  induction n generalizing s with
  | zero => rfl
  | succ n ih =>
    unfold lsSendGo
    extract_lets +onlyGivenNames x w
    split
    · rfl
    · split
      · rw [ih, steady_setPitch]
      · rfl

@[simp] theorem steady_lsProgress (p : PitchId) : steady (s.lsProgress p) = steady s := by
  unfold State.lsProgress
  extract_lets +onlyGivenNames x
  split
  · rfl
  · split
    · split
      · rfl
      · rw [steady_releaseOutputs, steady_setPitch]
    · rw [steady_modPitch, steady_lsSendGo, steady_lsCompareGo]

@[simp] theorem steady_lsCut (p : PitchId) : steady (s.lsCut p) = steady s := by
  unfold State.lsCut
  extract_lets +onlyGivenNames x
  split
  · split
    · rw [steady_lsProgress, steady_setPitch]
    · rfl
  · rfl

/-! ## A step cut off, and faults -/

@[simp] theorem steady_cutStep (p : PitchId) : steady (s.cutStep p) = steady s := by
  unfold State.cutStep
  extract_lets +onlyGivenNames dropped x
  have hdropped : steady dropped = steady s := rfl
  split
  · rw [steady_setPitch, hdropped]
  · rw [steady_modPitch, steady_foldl (f := fun s (b : Nat × Nat) => s.write b.1 _) (fun s b => steady_write s _ _), steady_draw,
      hdropped]

@[simp] theorem steady_answerBroken (p : PitchId) : steady (s.answerBroken p) = steady s :=
  steady_foldl (f := fun s w => s.answerOwed p w ⟨eState, 0⟩ []) (fun s w => steady_answerOwed s p w _ _) _ s

@[simp] theorem steady_faultPitch (p : PitchId) : steady (s.faultPitch p) = steady s := by
  unfold State.faultPitch
  extract_lets +onlyGivenNames x
  split
  · simp
  · rfl

@[simp] theorem steady_abortDescriptors (p : PitchId) : steady (s.abortDescriptors p) = steady s := by
  unfold State.abortDescriptors
  extract_lets +onlyGivenNames x exchanged jobbed mine described
  have hexchanged : steady exchanged = steady s := by
    refine steady_foldl (fun s e => ?_) _ _
    rw [steady_foldl (fun s c => steady_complete s p 3 eAborted _ _ 0 _)]
    split <;> simp
  have hjobbed : steady jobbed = steady exchanged := steady_foldl (fun s j => steady_complete s p 4 eAborted _ _ 0 _) _ _
  have hdescribed : steady described = steady jobbed := steady_foldl (fun s j => steady_complete s p _ eAborted _ _ 0 _) _ _
  rw [steady_modPitch, hdescribed, hjobbed, hexchanged]

@[simp] theorem steady_clearCollective (p : PitchId) : steady (s.clearCollective p) = steady s := by
  unfold State.clearCollective
  simp

/-! ## Checkpoints restored -/

@[simp] theorem steady_restoreShardGo (p : PitchId) (img : Bytes) (n w : Nat) (bs : List Nat) (f k : Nat) :
    steady (restoreShardGo p img n w bs f k s) = steady s := by
  induction f generalizing k s with
  | zero => rfl
  | succ f ih =>
    unfold restoreShardGo
    split
    · rw [ih, steady_write]
    · rfl

@[simp] theorem steady_restoreSection (p : PitchId) (h d : Bytes) : steady (s.restoreSection p h d) = steady s := by
  unfold State.restoreSection
  extract_lets +onlyGivenNames x type b r
  split
  · rfl
  · split
    · extract_lets +onlyGivenNames n
      exact steady_foldl (f := fun s (e : Nat × Nat) => s.write (oresBlock r e.1).1 (cut d (n * e.2) n)) (fun s e => steady_write s _ _) _ s
    · split
      · rfl
      · split
        · exact steady_restoreShardGo s p d _ _ _ _ _
        · split <;> rfl

@[simp] theorem steady_restoreCkpt (p : PitchId) (h : Bytes) (ss : List (Bytes × Bytes)) :
    steady (s.restoreCkpt p h ss) = steady s := by
  unfold State.restoreCkpt
  rw [steady_lossScaleNotice, steady_modPitch,
    steady_foldl (f := fun s (e : Bytes × Bytes) => s.restoreSection p e.1 e.2) (fun s e => steady_restoreSection s p _ _)]

/-! ## Messages between members -/

@[simp] theorem steady_sendControl (p : PitchId) (port : NetPort) (dst op : Nat) (payload : Nat → Bytes) :
    steady (s.sendControl p port dst op payload) = steady s := by
  unfold State.sendControl
  split <;> rfl

@[simp] theorem steady_sendBeat (p : PitchId) (dst : Nat) (b : Beat) : steady (s.sendBeat p dst b) = steady s := by
  unfold State.sendBeat
  extract_lets +onlyGivenNames x
  split
  · rfl
  · exact steady_sendControl s p _ dst _ _

@[simp] theorem steady_sendBeats (p : PitchId) (dsts : List Nat) (b : Beat) : steady (s.sendBeats p dsts b) = steady s :=
  steady_foldl (f := fun s d => s.sendBeat p d b) (fun s d => steady_sendBeat s p d b) dsts s

@[simp] theorem steady_sendRecord (p : PitchId) (dst : Nat) (stale : Bool) : steady (s.sendRecord p dst stale) = steady s :=
  steady_sendBeat s p dst _

@[simp] theorem steady_cutForDeath (p : PitchId) : steady (s.cutForDeath p) = steady s := by
  unfold State.cutForDeath
  simp

@[simp] theorem steady_memberDeath (p : PitchId) (r : Nat) : steady (s.memberDeath p r) = steady s := by
  unfold State.memberDeath State.deadNotice
  simp

@[simp] theorem steady_rollback (p : PitchId) (r : Nat) (ck : W64) : steady (s.rollback p r ck) = steady s := by
  unfold State.rollback
  extract_lets +onlyGivenNames cut cleared
  have hcleared : steady cleared = steady s := by simp [cleared, cut]
  split
  · rw [steady_faultPitch, hcleared]
  · simp [State.deadNotice, hcleared]

@[simp] theorem steady_swapRecord (p : PitchId) (r : MemberRec) : steady (s.swapRecord p r) = steady s := by
  unfold State.swapRecord
  extract_lets +onlyGivenNames x dead mine
  split
  · simp
  · extract_lets +onlyGivenNames taken cut
    have hcut : steady cut = steady s := by
      simp only [cut]
      split <;> simp [taken]
    rw [steady_retain, steady_foldl (f := fun s v => s.memberDeath p v) (fun s v => steady_memberDeath s p v), hcut]

@[simp] theorem steady_followTakeover (p : PitchId) (r : MemberRec) (at' : W64) : steady (s.followTakeover p r at') = steady s := by
  unfold State.followTakeover
  split <;> simp

@[simp] theorem steady_holdChange (p : PitchId) (swap at' : W64) : steady (s.holdChange p swap at') = steady s := by
  unfold State.holdChange
  simp

@[simp] theorem steady_keeperCommit (p : PitchId) : steady (s.keeperCommit p) = steady s := by
  unfold State.keeperCommit
  extract_lets +onlyGivenNames x
  split
  · rfl
  · extract_lets +onlyGivenNames at' r send
    split <;> simp [send]

@[simp] theorem steady_keeperPropose (p : PitchId) (from' : Option Nat) (compare swap atOrCk : W64) (spare : Option Nat) :
    steady (s.keeperPropose p from' compare swap atOrCk spare) = steady s := by
  unfold State.keeperPropose
  extract_lets +onlyGivenNames x m answer
  have hanswer : ∀ s, steady (answer s) = steady s := by
    intro s
    simp only [answer]
    split <;> simp
  split
  · exact hanswer s
  · split
    · rfl
    · split
      · exact hanswer s
      · split
        · rw [hanswer, steady_count]
        · simp

@[simp] theorem steady_proposeChange (p : PitchId) (subject action : Nat) : steady (s.proposeChange p subject action) = steady s := by
  unfold State.proposeChange State.countProposal
  extract_lets +onlyGivenNames x m swap
  split
  · rfl
  · split
    · rw [steady_keeperPropose]
      split <;> rfl
    · simp

@[simp] theorem steady_pursue (p : PitchId) : steady (s.pursue p) = steady s := by
  unfold State.pursue
  extract_lets +onlyGivenNames x
  split
  · rfl
  · split
    · rfl
    · split <;> simp

@[simp] theorem steady_memberBeats (p : PitchId) : steady (s.memberBeats p) = steady s := by
  unfold State.memberBeats
  extract_lets +onlyGivenNames x m
  split
  · rfl
  · extract_lets +onlyGivenNames beaten
    have hbeaten : steady beaten = steady s := by simp [beaten]
    split
    · exact hbeaten
    · split <;> simp [hbeaten]

/-! ## The work of an epoch -/

theorem steady_of_pitches {s t : State} (h : t = { s with pitches := t.pitches }) : steady t = steady s := by
  rw [h]
  rfl

@[simp] theorem steady_retime : steady s.retime = steady s := steady_of_pitches s.retime_spec.1

@[simp] theorem steady_marginEpoch (slack : List Int) : steady (s.marginEpoch slack) = steady s := rfl

@[simp] theorem steady_thermalNotice (p : PitchId) (sensor deg state : Nat) :
    steady (s.thermalNotice p sensor deg state) = steady s := by
  unfold State.thermalNotice
  split <;> simp

@[simp] theorem steady_thermalEpoch : steady s.thermalEpoch = steady s := by
  unfold State.thermalEpoch
  extract_lets +onlyGivenNames w seen t new deg sensor hot set timed
  have htimed : steady timed = steady s := steady_retime set
  split
  · exact htimed
  · rw [steady_forPitches _ (fun p s => steady_thermalNotice s p sensor deg new), steady_logEvent, htimed]

@[simp] theorem steady_moveServo (n : NetPort) : steady (s.moveServo n) = steady s := by
  unfold State.moveServo
  split
  · rfl
  · extract_lets
    split <;> rfl

@[simp] theorem steady_failPort (n : NetPort) : steady (s.failPort n) = steady s := by
  unfold State.failPort
  simp

@[simp] theorem steady_portsEpoch (symbols : List (NetPort × Fin 9 × Bool × Nat)) (corrected uncorrected : List Nat) :
    steady (s.portsEpoch symbols corrected uncorrected) = steady s := by
  unfold State.portsEpoch
  split
  · rfl
  · extract_lets +onlyGivenNames cleared counted
    have hcounted : steady counted = steady s := steady_foldl (fun s e => steady_modPort s _ _) _ cleared
    rw [steady_foldl (fun s n => ?_), hcounted]
    extract_lets +onlyGivenNames bad fec q
    split
    · rw [steady_failPort]; rfl
    · rfl

end

end Sys2Proof.Machine
end

