-- ==== Sys2Proof/Proofs/EpochsAndClocks.lean ====
section
/-! PROOF. Thermal samples, hours, management epochs and the PTP time base (02 R41, R44; 12 R292, R293; 23 R479, R491). -/

namespace Sys2Proof.Machine

open Sys2Proof.Claims

theorem State.clockRuns_of_up {s : State} (hup : s.held = false) (hboot : 4 ≤ s.glob.bootStage) : s.clockRuns = true :=
  s.clockRuns_iff.mpr ⟨hup, hboot⟩

/-- Before boot stage 0x04 CCLK does not run. -/
theorem State.clockRuns_of_early {s : State} (h : s.glob.bootStage < 4) : s.clockRuns = false := by
  simp [State.clockRuns, h]

/-! ## Thermal samples -/

/-- The highest reading lies above a bound where some reading does. -/
theorem lt_foldl_max (b : Int) (ts : List Int) (t : Int) : b < ts.foldl max t ↔ b < t ∨ ∃ x ∈ ts, b < x := by
  induction ts generalizing t with
  | nil => simp
  | cons u ts ih => rw [List.foldl_cons, ih, lt_max_iff, or_assoc, List.exists_mem_cons_iff]

theorem lt_hottest {b : Int} {ts : List Int} (h : ts ≠ []) : b < hottest ts ↔ ∃ x ∈ ts, b < x := by
  cases ts with
  | nil => exact absurd rfl h
  | cons t ts => rw [hottest, lt_foldl_max, List.exists_mem_cons_iff]

/-- A reading for every sensor replaces them all. -/
theorem zipIdx_map_getD {α : Type} (old new : List α) (h : new.length = old.length) :
    old.zipIdx.map (fun t => new.getD t.2 t.1) = new := by
  refine List.ext_getElem (by simp [h]) fun i _ hi => ?_
  simp [List.getD_eq_getElem?_getD, hi]

/-- The temperatures as a full sample leaves them. -/
theorem State.sample_temps {s : State} {q : List Int} (h : q.length = s.power.temps.length) (d : List Nat) :
    (s.sample q d).power.temps = q := zipIdx_map_getD _ _ h

theorem exec_thermalSample {s : State} (hup : s.held = false) (hboot : 4 ≤ s.glob.bootStage) (q : List Int) (d : List Nat) :
    exec (.thermalSample q d) s = .next ((s.advanceTo ((s.cclk / 65536 + 1) * 65536)).sample q d).thermTrip := by
  have hrun := State.clockRuns_of_up hup hboot
  simp [exec, execThermalSample, live, hup, hrun]

/-- THERMTRIP holds the die and is noted, and changes nothing else. -/
theorem State.thermTrip_spec (s : State) :
    s.thermTrip = { s with
      held := s.held || decide (480 < hottest s.power.temps)
      power := { s.power with thermtrip := s.power.thermtrip || decide (480 < hottest s.power.temps) } } := by
  unfold State.thermTrip
  split
  · next h => simp [h]
  · next h => simp [h]

theorem thermalSample_spec {s : State} (hup : s.held = false) (q : List Int) (d : List Nat)
    (hwf : (Instr.thermalSample q d).wellFormed) (hboot : 4 ≤ s.glob.bootStage) (htemps : s.power.temps.length = 40) :
    ∃ t, exec (.thermalSample q d) s = .next t ∧ t.cclk = (s.cclk / 65536 + 1) * 65536 ∧ t.power.temps = q ∧
      (t.held = true ↔ ∃ x ∈ q, 480 < x) ∧ (t.power.thermtrip = true ↔ s.power.thermtrip = true ∨ ∃ x ∈ q, 480 < x) ∧
      t.pitches = s.pitches ∧ t.mem = s.mem ∧ t.guarded = s.guarded := by
  have hlen : q.length = 40 := by
    simp only [Instr.wellFormed, sensorsOk, Bool.and_eq_true, decide_eq_true_eq] at hwf
    exact hwf.1
  have hq : q ≠ [] := List.ne_nil_of_length_pos (by omega)
  have hsampled := State.sample_temps (s := s.advanceTo ((s.cclk / 65536 + 1) * 65536)) (q := q) (by rw [hlen]; exact htemps.symm) d
  have hcclk : max s.cclk ((s.cclk / 65536 + 1) * 65536) = (s.cclk / 65536 + 1) * 65536 := by omega
  refine ⟨_, exec_thermalSample hup hboot q d, ?_⟩
  rw [State.thermTrip_spec, hsampled, ← lt_hottest hq]
  exact ⟨hcclk, rfl, by simp [State.sample, State.advanceTo, hup], by simp [State.sample, State.advanceTo], rfl, rfl, rfl⟩

/-! ## The hour -/

@[simp] theorem length_satBytes (n v : Nat) : (satBytes n v).length = n := length_leBytes n _

/-- An HOUR record's body ends with the seconds it covers, the spares and the partial flag (23 R491). -/
theorem hourBody_eq (s : State) (seconds : Nat) (isPart : Bool) : ∃ (sums : Bytes) (spares : Nat), sums.length = 30 ∧
    s.hourBody seconds isPart = sums ++ satBytes 2 seconds ++ leBytes 1 spares ++ leBytes 1 (bit isPart) :=
  ⟨_, _, by simp [length_leBytes], rfl⟩

theorem cut_append_left {α : Type} {xs : List α} {i n : Nat} (h : i + n ≤ xs.length) (ys : List α) : cut (xs ++ ys) i n = cut xs i n := by
  rw [cut, cut, List.drop_append_of_le_length (by omega), List.take_append_of_le_length (by simp; omega)]

theorem cut_append_right {α : Type} {xs : List α} {i : Nat} (h : xs.length ≤ i) (ys : List α) (n : Nat) :
    cut (xs ++ ys) i n = cut ys (i - xs.length) n := by
  rw [cut, cut, List.drop_append, List.drop_eq_nil_of_le h, List.nil_append]

theorem cut_all {α : Type} (xs : List α) : cut xs 0 xs.length = xs := by simp [cut]

/-- Bytes of a record from its body (23 R491). -/
theorem cut_logRecord {body : Bytes} {i n : Nat} (s : State) (type : Nat) (hi : i + n ≤ body.length) (hbody : body.length ≤ 36) :
    cut (s.logRecord type body) (24 + i) n = cut body i n := by
  have hpad : padTo 36 body = body ++ List.replicate (36 - body.length) 0 := by
    rw [padTo, List.take_of_length_le (by simp; omega)]
  rw [State.logRecord, cut_append_left (by simp [length_leBytes, length_padTo]; omega), cut_append_right (by simp [length_leBytes]), hpad,
    cut_append_left (by simp [length_leBytes]; omega)]
  simp [length_leBytes]

theorem length_logRecord (s : State) (type : Nat) (body : Bytes) : (s.logRecord type body).length = 64 := by
  simp [State.logRecord, length_leBytes, length_padTo]

/-- The first byte of a record is its TYPE. -/
theorem leAt_logRecord_type (s : State) (type : Nat) (body : Bytes) : leAt (s.logRecord type body) 0 1 = type % 256 := by
  have hfirst : cut (s.logRecord type body) 0 1 = leBytes 1 type := by simp [State.logRecord, cut, leBytes]
  rw [leAt, hfirst, leNat_leBytes]
  rfl

/-- The HOUR record of a whole hour: its length and TYPE, the seconds it covers, and that it is not partial. -/
theorem hourRecord_fields (s : State) : ∃ r, s.logRecord logHour (s.hourBody 3600 false) = r ∧
    r.length = 64 ∧ leAt r 0 1 = 1 ∧ leAt r 54 2 = 3600 ∧ leAt r 57 1 = 0 := by
  obtain ⟨sums, spares, hsums, hbody⟩ := hourBody_eq s 3600 false
  have hsec : cut (s.hourBody 3600 false) 30 2 = satBytes 2 3600 := by
    rw [hbody, cut_append_left (by simp [hsums, length_leBytes]), cut_append_left (by simp [hsums]), cut_append_right (by simp [hsums]), hsums]
    exact cut_all (satBytes 2 3600)
  have hpart : cut (s.hourBody 3600 false) 33 1 = leBytes 1 (bit false) := by
    rw [hbody, cut_append_right (by simp [hsums, length_leBytes])]
    simp [hsums, cut, leBytes]
  have hlen : (s.hourBody 3600 false).length = 34 := by simp [hbody, hsums, length_leBytes]
  refine ⟨_, rfl, length_logRecord s _ _, leAt_logRecord_type s _ _, ?_, ?_⟩
  · rw [leAt, cut_logRecord (i := 30) s logHour (by omega) (by omega), hsec]
    decide
  · rw [leAt, cut_logRecord (i := 33) s logHour (by omega) (by omega), hpart]
    decide

theorem hourRecord_spec {s : State} (hup : s.held = false) (hdue : s.health.hour.start + 3600 ≤ s.health.posSeconds)
    (hroom : s.flash.log.length < 131072) :
    ∃ t, exec .hourRecord s = .next t ∧ t.health.hour = { start := s.health.hour.start + 3600 } ∧
      t = { s with flash := { s.flash with log := t.flash.log }, health := t.health } ∧
      ∃ r, t.flash.log = s.flash.log ++ [r] ∧ r.length = 64 ∧ leAt r 0 1 = 1 ∧ leAt r 54 2 = 3600 ∧ leAt r 57 1 = 0 := by
  have hrun : exec .hourRecord s = .next (s.closeHour 3600 false) := by
    simp [exec, execHourRecord, live, hup, hdue]
  obtain ⟨r, hr, hfields⟩ := hourRecord_fields s
  have hlogged : s.logRaw logHour (s.hourBody 3600 false) = { s with
      flash := { s.flash with log := s.flash.log ++ [r] }, health := { s.health with logWritten := s.health.logWritten + 1 } } := by
    have hlog : s.flash.log.length < logRecords := hroom
    simp [State.logRaw, hlog, hr]
  refine ⟨_, hrun, ?_⟩
  rw [State.closeHour, hlogged]
  exact ⟨rfl, rfl, r, rfl, hfields⟩

/-! ## The management epoch -/

/-- What the epoch's own counts leave of the clock, the lease and the security core: the part of the epoch ahead of the work that is
steady. -/
def State.epochCounted (s : State) : State :=
  ((({ s.advanceTo s.epochBoundary with glob := { s.glob with mgmtTick := s.glob.mgmtTick + 1 } } : State).clockEpoch.countEpoch).freeze).livenessEpoch

theorem State.epoch_steady (s : State) (env : EpochEnv) : steady (s.epoch env) = steady s.epochCounted := by
  unfold State.epoch
  extract_lets +onlyGivenNames advanced _ ticked counted members warmed ports
  have hcounted : counted = s.epochCounted := rfl
  clear_value counted
  have hmembers : steady members = steady counted := steady_forPitches _ (fun p s => steady_modPitch s p _)
  clear_value members
  have hwarmed : steady warmed = steady members := by simp [warmed]
  clear_value warmed
  have hports : steady ports = steady warmed := steady_portsEpoch _ _ _ _
  rw [steady_forPitches _ (fun p s => steady_memberBeats s p), ← hcounted, ← hmembers, ← hwarmed, ← hports]
  rfl

/-- The lease is FROZEN at the boundary at which a handover is due (21 R455). -/
theorem State.freeze_spec (s : State) :
    s.freeze.fw.lease = { s.fw.lease with frozen := s.fw.lease.frozen || s.fw.activating.isSome } ∧
    s.freeze.glob = s.glob ∧ s.freeze.cclk = s.cclk ∧ s.freeze.guarded = s.guarded := by
  unfold State.freeze
  cases hact : s.fw.activating <;> cases hfrozen : s.fw.lease.frozen <;> simp [State.guarded]
  all_goals rw [← hfrozen]

/-- The counts of an epoch: MGMT_TICK, the clock at the wrap, the age of the nonce and the epochs left of a session, and the lease. -/
theorem State.epochCounted_spec (s : State) :
    s.epochCounted.glob = { s.glob with mgmtTick := s.glob.mgmtTick + 1 } ∧
    s.epochCounted.cclk = max s.cclk s.epochBoundary ∧
    s.epochCounted.guarded =
      (s.fuses, s.prov, { s.sec with session := s.sec.session.map (· - 1), nonceAge := s.sec.nonceAge + 1 }, s.tap) ∧
    s.epochCounted.fw.lease = { s.fw.lease with
      renewAge := if s.fw.lease.holder.isSome then s.fw.lease.renewAge + 1 else s.fw.lease.renewAge
      frozen := s.fw.lease.frozen || s.fw.activating.isSome } := by
  obtain ⟨hlease, hglob, hcclk, hguarded⟩ := State.freeze_spec
    ({ s.advanceTo s.epochBoundary with glob := { s.glob with mgmtTick := s.glob.mgmtTick + 1 } } : State).clockEpoch.countEpoch
  exact ⟨hglob, hcclk, hguarded, hlease⟩

theorem mgmtEpoch_spec (env : EpochEnv) {s : State} (hup : s.held = false) (hboot : 4 ≤ s.glob.bootStage) :
    ∃ t, exec (.mgmtEpoch env) s = .next t ∧ t.glob.mgmtTick = s.glob.mgmtTick + 1 ∧
      t.cclk = max s.cclk ((s.glob.mgmtTick.toNat + 1) * 1048576) ∧
      t.sec = { s.sec with session := s.sec.session.map (· - 1), nonceAge := s.sec.nonceAge + 1 } ∧
      t.fw.lease = { s.fw.lease with
        renewAge := if s.fw.lease.holder.isSome then s.fw.lease.renewAge + 1 else s.fw.lease.renewAge
        frozen := s.fw.lease.frozen || s.fw.activating.isSome } ∧
      t.fuses = s.fuses ∧ t.prov = s.prov ∧ t.tap = s.tap := by
  have hrun : exec (.mgmtEpoch env) s = .next (s.epoch env) := by
    simp [exec, execMgmtEpoch, live, hup, State.clockRuns_of_up hup hboot]
  obtain ⟨hglob, hcclk, hguarded, hlease⟩ := State.epochCounted_spec s
  have hsteady := State.epoch_steady s env
  generalize s.epoch env = t at hrun hsteady
  simp only [steady, Prod.mk.injEq] at hsteady
  obtain ⟨-, hglob', hfw', hcclk', hguarded'⟩ := hsteady
  rw [hguarded] at hguarded'
  simp only [State.guarded, Prod.mk.injEq] at hguarded'
  obtain ⟨hfuses, hprov, hsec, htap⟩ := hguarded'
  exact ⟨t, hrun, by rw [hglob', hglob], by rw [hcclk', hcclk]; rfl, hsec, by rw [hfw', hlease], hfuses, hprov, htap⟩

/-- Before boot stage 0x04 no CCLK counts: no epoch, no sample and no pulse comes. -/
theorem epoch_sample_pulse_of_early {s : State} (h : s.glob.bootStage < 4) (env : EpochEnv) (q : List Int) (d : List Nat) :
    exec (.mgmtEpoch env) s = .next s ∧ exec (.thermalSample q d) s = .next s ∧ exec .ppsOutPulse s = .next s := by
  have hstill := State.clockRuns_of_early h
  simp [exec, execMgmtEpoch, execThermalSample, execPpsOutPulse, live, hstill]

/-! ## The PTP time base -/

theorem State.vco_pos (s : State) : 0 < s.vco := by
  unfold State.vco
  split <;> omega

theorem le_divUp_mul {n m : Nat} (hm : 0 < m) : n ≤ divUp n m * m := by
  have := Nat.div_add_mod (n + m - 1) m
  have := Nat.mod_lt (n + m - 1) hm
  rw [divUp, Nat.mul_comm]
  omega

/-- From `cclkAt` on the time base has reached its argument (12 R292). -/
theorem State.le_ptpNow_of_cclkAt_le {s : State} {c : Nat} (t : Nat) (hdiv : 1 ≤ s.power.divider) (hc : s.cclkAt t ≤ c) :
    (t : Int) * 65536 ≤ s.ptp.base + ((c * 655360 * s.power.divider / s.vco : Nat) : Int) := by
  have hneed : (((t : Int) * 65536 - s.ptp.base).toNat) ≤ c * 655360 * s.power.divider / s.vco := by
    rw [Nat.le_div_iff_mul_le s.vco_pos, Nat.mul_assoc c]
    exact (le_divUp_mul (by omega)).trans (Nat.mul_le_mul_right _ hc)
  omega

theorem ppsOutPulse_spec {s : State} (hup : s.held = false) (hboot : 4 ≤ s.glob.bootStage) :
    ∃ t, exec .ppsOutPulse s = .next t ∧ t = { s with cclk := t.cclk, power := { s.power with ppsOut := s.power.ppsOut + 1 } } ∧
      s.cclk ≤ t.cclk ∧ (0 ≤ s.ptpNow → 1 ≤ s.power.divider → (s.ptpNow / 65536 / 1000000000 + 1) * 1000000000 * 65536 ≤ t.ptpNow) := by
  have hrun : exec .ppsOutPulse s =
      .next { s with cclk := max s.cclk (s.cclkAt s.nextSecond), power := { s.power with ppsOut := s.power.ppsOut + 1 } } := by
    simp [exec, execPpsOutPulse, live, hup, State.clockRuns_of_up hup hboot, State.advanceTo]
  refine ⟨_, hrun, rfl, Nat.le_max_left _ _, fun hnow hdiv => ?_⟩
  have hsecond : (s.nextSecond : Int) = (s.ptpNow / 65536 / 1000000000 + 1) * 1000000000 := by
    rw [State.nextSecond]
    omega
  rw [← hsecond]
  exact State.le_ptpNow_of_cclkAt_le s.nextSecond hdiv (Nat.le_max_right _ _)

/-- A Sync of the port that the servo follows, in its domain: an offset estimate, and a Delay_Req that leaves. -/
theorem ptpMessage_sync {s : State} (hup : s.held = false) {n : NetPort} (t1 c : Int) (hservo : s.ptp.servo = n) (hdark : s.portDark n = false) :
    ∃ t, exec (.ptpMessage n (.sync s.prov.ptpDomain t1 c)) s = .next t ∧ t = { s with ptp := t.ptp, free := s.free + 1 } ∧
      t.ptp.offsets = ((s.ptpNow - (t1 + c) - s.ptp.delay) :: s.ptp.offsets).take 16 ∧ t.ptp.waits = true ∧
      t.ptp.sync = some (t1 + c, s.ptpNow) ∧ t.ptp.requests = s.ptp.requests ++ [(n, t.ptpNow)] ∧
      (t.ptp.locked = true ↔ t.ptp.offsets.length = 16 ∧ ∀ x ∈ t.ptp.offsets, x.natAbs < 2 * 65536) ∧
      t.ptp.unlocks = (if s.ptp.locked = true ∧ t.ptp.locked = false then s.ptp.unlocks + 1 else s.ptp.unlocks) := by
  let corrected := s.servoOffset (s.ptpNow - (t1 + c) - s.ptp.delay)
  have hrun : exec (.ptpMessage n (.sync s.prov.ptpDomain t1 c)) s = .next { corrected with ptp := { corrected.ptp with
      sync := some (t1 + c, s.ptpNow), requests := corrected.ptp.requests ++ [(n, corrected.ptpNow)], waits := true } } := by
    simp [exec, execPtpMessage, live, hup, State.ptpMessage, hservo, hdark, corrected]
  refine ⟨_, hrun, rfl, rfl, rfl, rfl, rfl, ?_, ?_⟩
  · simp [corrected, State.servoOffset]
  · change (if (s.ptp.locked && !corrected.ptp.locked) = true then s.ptp.unlocks + 1 else s.ptp.unlocks) =
      if s.ptp.locked = true ∧ corrected.ptp.locked = false then s.ptp.unlocks + 1 else s.ptp.unlocks
    simp only [Bool.and_eq_true, Bool.not_eq_true']

/-- A Delay_Resp to the last Delay_Req gives the path delay. -/
theorem ptpMessage_delayResp {s : State} (hup : s.held = false) {n m : NetPort} {t1 t2 t3 : Int} {old : List (NetPort × Int)}
    (hservo : s.ptp.servo = n) (hdark : s.portDark n = false) (hwaits : s.ptp.waits = true) (hsync : s.ptp.sync = some (t1, t2))
    (hsent : s.ptp.requests = old ++ [(m, t3)]) (t4 c : Int) :
    exec (.ptpMessage n (.delayResp s.prov.ptpDomain t4 c)) s =
      .next { s with ptp := { s.ptp with waits := false, delay := ((t2 - t1) + (t4 - c - t3)) / 2 } } := by
  simp [exec, execPtpMessage, live, hup, State.ptpMessage, hservo, hdark, hwaits, hsync, hsent]

/-- The servo hears its own port and its own domain only. -/
theorem ptpMessage_of_other_port {s : State} {n : NetPort} (h : s.ptp.servo ≠ n) (m : PtpMsg) : exec (.ptpMessage n m) s = .next s := by
  simp [exec, execPtpMessage, live, State.ptpMessage, h]

theorem ptpMessage_of_other_domain {s : State} (n : NetPort) {d : Fin 128} (h : d ≠ s.prov.ptpDomain) (t1 c : Int) :
    exec (.ptpMessage n (.sync d t1 c)) s = .next s ∧ exec (.ptpMessage n (.delayResp d t1 c)) s = .next s := by
  constructor
  · simp [exec, execPtpMessage, live, State.ptpMessage, h]
  · have hquiet : s.ptpMessage n (.delayResp d t1 c) = s := by
      simp only [State.ptpMessage]
      split
      · rfl
      · split
        · simp [h]
        · rfl
    simp [exec, execPtpMessage, live, hquiet]

/-- Settles O15, clause by clause: each event's own lemma; what an epoch leaves of clock, lease and security core is steady under the
rest of its work. -/
theorem epochsAndClocks : Obligations.EpochsAndClocks :=
  ⟨fun _ hup => ⟨fun q d => thermalSample_spec hup q d, hourRecord_spec hup⟩,
   fun env _ hup hboot => mgmtEpoch_spec env hup hboot,
   fun env q d _ hearly => epoch_sample_pulse_of_early hearly env q d,
   fun s hup => ⟨live_next s (fun s => { s with ptp := { s.ptp with lastIn := s.ptpNow } }) hup, ppsOutPulse_spec hup,
     fun _ t1 c hservo hdark => ptpMessage_sync hup t1 c hservo hdark,
     fun _ _ _ _ t4 c _ _ hservo hdark hwaits hsync hsent => ptpMessage_delayResp hup hservo hdark hwaits hsync hsent t4 c,
     fun _ m hother => ptpMessage_of_other_port hother m,
     fun n _ t1 c hother => ptpMessage_of_other_domain n hother t1 c⟩⟩

end Sys2Proof.Machine
end

