-- ==== Sys2Proof/Proofs/RegisterFlits.lean ====
section
/-! PROOF. Register flits: their answers come from the state before the flit, and a write acts on its register (17 R356 to R360). -/

namespace Sys2Proof.Machine

open Sys2Proof.Claims

/-- The state in which a message of n bytes has arrived on a host port: its flits have been counted. -/
def State.received (s : State) (h : HostPort) (n : Nat) : State :=
  { s with hostPorts := s.hostPorts.set h { s.hostPorts[h] with rxLast := s.hostPorts[h].rxLast + BitVec.ofNat 10 (divUp n 250) } }

/-- A port that is up and takes flits hands on what arrives. -/
theorem State.hostIn_of_takes {s : State} {h : HostPort} (htakes : Takes s h) (n : Nat) (f : State → State) :
    s.hostIn h n f = f (s.received h n) := by
  obtain ⟨hmodules, hdiscards⟩ := htakes
  have hopen : (!s.hostUp h || s.hostPorts[h].discarding) = false := by
    rw [hdiscards, Bool.or_false, Bool.not_eq_false', State.hostUp]
    exact decide_eq_true hmodules
  simp only [State.hostIn, hopen]
  rfl

theorem State.received_modules (s : State) (h : HostPort) (n : Nat) :
    (s.received h n).hostPorts.map HostPortSt.modules = s.hostPorts.map HostPortSt.modules := modules_set rfl

/-! ## What the working modules decide -/

theorem hostUp_congr {s t : State} (hm : t.hostPorts.map HostPortSt.modules = s.hostPorts.map HostPortSt.modules) (h : HostPort) :
    t.hostUp h = s.hostUp h := by
  have hport := congrArg (fun v : Vector (BitVec 4) 8 => v[h]) hm
  simp only [Fin.getElem_fin, Vector.getElem_map] at hport
  simp [State.hostUp, hport]

theorem modules_word (v : Vector HostPortSt 8) : v.toList.zipIdx.map (fun e => e.1.modules.toNat * 16 ^ e.2) =
    (v.map HostPortSt.modules).toList.zipIdx.map (fun e => e.1.toNat * 16 ^ e.2) := by
  rw [Vector.toList_map, List.zipIdx_map, List.map_map]
  rfl

/-- Of the host ports, the status page shows which modules work and nothing else. -/
theorem statusWord_congr {s t : State} (ht : t = { s with hostPorts := t.hostPorts })
    (hm : t.hostPorts.map HostPortSt.modules = s.hostPorts.map HostPortSt.modules) (h : HostPort) (off : Nat) :
    t.statusWord h off = s.statusWord h off := by
  have hid : t.engineId = s.engineId := by rw [ht]; rfl
  have hcaps : t.engineCaps = s.engineCaps := by rw [ht]; rfl
  have hglob : t.glob = s.glob := by rw [ht]
  have hptp : t.ptp = s.ptp := by rw [ht]
  have hnet : t.netPorts = s.netPorts := by rw [ht]
  unfold State.statusWord
  rw [modules_word, modules_word, hm, hid, hcaps, hglob, hptp, hnet]

/-- An answer depends on the host ports by their working modules only. -/
theorem answerEntry_congr {s t : State} (ht : t = { s with hostPorts := t.hostPorts })
    (hm : t.hostPorts.map HostPortSt.modules = s.hostPorts.map HostPortSt.modules) (h : HostPort) : t.answerEntry h = s.answerEntry h := by
  have hstatus : t.statusWord h = s.statusWord h := funext (statusWord_congr ht hm h)
  have hwindow : t.windowWord = s.windowWord := by rw [ht]; rfl
  have hentry : t.entryStatus = s.entryStatus := by rw [ht]; rfl
  have hready : t.glob = s.glob := by rw [ht]
  funext e
  simp only [State.answerEntry, State.registerRead, hstatus, hwindow, hentry, hready]

/-! ## What an entry changes -/

theorem State.countPartial_modules (s : State) (yes : Bool) :
    (s.countPartial yes).hostPorts.map HostPortSt.modules = s.hostPorts.map HostPortSt.modules := by
  unfold State.countPartial
  split <;> rfl

theorem State.windowPut_modules (s : State) (h : HostPort) (p : PitchId) (o n data : Nat) :
    (s.windowPut h p o n data).hostPorts.map HostPortSt.modules = s.hostPorts.map HostPortSt.modules := by
  unfold State.windowPut
  extract_lets regs
  split
  · rfl
  · rw [State.countPartial_modules]
    exact congrArg Prod.fst (steady_foldl (fun s (r : Nat × Nat) => steady_putRegister s h p r.1 _) regs s)

/-- No entry of a register flit changes which modules work. -/
theorem State.applyEntry_modules (s : State) (h : HostPort) (e : RegEntry) :
    (s.applyEntry h e).hostPorts.map HostPortSt.modules = s.hostPorts.map HostPortSt.modules := by
  simp only [State.applyEntry]
  split
  · split <;> rfl
  · split
    · rw [State.windowPut_modules]
      split <;> rfl
    · rw [State.countPartial_modules]
      split <;> rfl

/-- An entry that does not write changes the count of denied accesses alone. -/
theorem State.applyEntry_of_read {s : State} {e : RegEntry} (hop : e.op ≠ 3 ∧ e.op ≠ 4) (h : HostPort) :
    s.applyEntry h e = { s with glob := { s.glob with regDenied := (s.applyEntry h e).glob.regDenied } } := by
  obtain ⟨h3, h4⟩ := hop
  simp only [State.applyEntry, h3, h4, ne_eq, not_false_eq_true, decide_true, Bool.and_self, Bool.or_true, if_true]
  split <;> rfl

theorem applyEntries_modules (h : HostPort) (es : List RegEntry) (s : State) :
    (es.foldl (fun s e => s.applyEntry h e) s).hostPorts.map HostPortSt.modules = s.hostPorts.map HostPortSt.modules := by
  induction es generalizing s with
  | nil => rfl
  | cons e es ih => rw [List.foldl_cons, ih, State.applyEntry_modules]

theorem applyEntries_of_reads (h : HostPort) {es : List RegEntry} (hes : ∀ e ∈ es, e.op ≠ 3 ∧ e.op ≠ 4) (s : State) :
    es.foldl (fun s e => s.applyEntry h e) s =
      { s with glob := { s.glob with regDenied := (es.foldl (fun s e => s.applyEntry h e) s).glob.regDenied } } := by
  induction es generalizing s with
  | nil => rfl
  | cons e es ih =>
    rw [List.foldl_cons, ih (fun e he => hes e (List.mem_cons_of_mem _ he)), State.applyEntry_of_read (hes e List.mem_cons_self)]

/-! ## A register flit -/

/-- A register flit is answered as one message, each entry from the state before it. -/
theorem State.registerFlit_answer {s : State} {h : HostPort} (hup : s.hostUp h = true) (es : List RegEntry) :
    (s.registerFlit h es).hostOut.getLast? = some ⟨h, .regAnswer (es.map (s.answerEntry h))⟩ := by
  rw [State.registerFlit, State.sendHost_hostOut, hostUp_congr (applyEntries_modules h es s), if_pos hup, List.getLast?_concat]

theorem State.received_answer (s : State) (h : HostPort) (n : Nat) : (s.received h n).answerEntry h = s.answerEntry h :=
  answerEntry_congr rfl (s.received_modules h n) h

theorem State.received_hostUp {s : State} {h : HostPort} (hmodules : s.hostPorts[h].modules ≠ 0) (n : Nat) : (s.received h n).hostUp h = true := by
  rw [hostUp_congr (s.received_modules h n)]
  simpa [State.hostUp] using hmodules

theorem exec_registerWrite {s : State} {h : HostPort} (hup : s.held = false) (htakes : Takes s h) (es : List RegEntry) :
    exec (.registerWrite h es) s = .next ((s.received h 250).registerFlit h es) := by
  rw [show exec (.registerWrite h es) s = live s (fun s => s.hostIn h 250 (fun s => s.registerFlit h es)) from rfl, live_next _ _ hup,
    State.hostIn_of_takes htakes]

theorem registerWrite_answer {s : State} {h : HostPort} (hup : s.held = false) (htakes : Takes s h) (es : List RegEntry) :
    ∃ t, exec (.registerWrite h es) s = .next t ∧ t.hostOut.getLast? = some ⟨h, .regAnswer (es.map (s.answerEntry h))⟩ := by
  refine ⟨_, exec_registerWrite hup htakes es, ?_⟩
  rw [State.registerFlit_answer (State.received_hostUp htakes.1 250), State.received_answer]

/-- A flit of reads changes nothing beside its port and the count of denied accesses. -/
theorem registerWrite_reads {s : State} {h : HostPort} (hup : s.held = false) (htakes : Takes s h) {es : List RegEntry}
    (hes : ∀ e ∈ es, e.op ≠ 3 ∧ e.op ≠ 4) : ∃ t, exec (.registerWrite h es) s = .next t ∧
      t = { s with hostOut := s.hostOut ++ [⟨h, .regAnswer (es.map (s.answerEntry h))⟩], hostPorts := t.hostPorts,
                   glob := { s.glob with regDenied := t.glob.regDenied } } := by
  refine ⟨_, exec_registerWrite hup htakes es, ?_⟩
  have hsent : ((es.foldl (fun s e => s.applyEntry h e) (s.received h 250)).hostUp h) = true := by
    rw [hostUp_congr (applyEntries_modules h es _), State.received_hostUp htakes.1]
  have hread := applyEntries_of_reads h hes (s.received h 250)
  rw [State.registerFlit, State.received_answer]
  generalize es.foldl (fun s e => s.applyEntry h e) (s.received h 250) = read at hsent hread
  rw [State.sendHost, hsent, hread]
  rfl

/-! ## A write to a register of a window -/

/-- The window of a pitch is open to a port that it answers. -/
theorem windowOpen_of_answers {s : State} {h : HostPort} {p : PitchId} (hans : Answers s h p) : s.windowOpen h p = true := by
  obtain ⟨⟨-, hready⟩, -, hopen⟩ := hans
  rcases hopen with hunbound | hbound
  · simp [State.windowOpen, Pitch.isBound, hunbound]
  · simp [State.windowOpen, Pitch.boundTo, hbound]

section
variable {s : State} {h : HostPort} {p : PitchId} {off : Nat} (hopen : s.windowOpen h p = true) (hoff : off < 4096) (halign : off % 4 = 0)
include hopen hoff halign

/-- A 4-byte write at an aligned offset of a window acts on the window. -/
theorem State.applyEntry_window (v : W64) :
    s.applyEntry h ⟨3, BitVec.ofNat 48 (4096 * p.val + off), v⟩ = s.windowPut h p off 4 v.toNat := by
  have haddr : (BitVec.ofNat 48 (4096 * p.val + off)).toNat = 4096 * p.val + off := by
    rw [BitVec.toNat_ofNat]
    omega
  have hpitch : windowPitch (4096 * p.val + off) = some p := by
    have hdiv : (4096 * p.val + off) / 4096 = p.val := by omega
    simp [windowPitch, hdiv, p.isLt]
  have hrange : registerRange (4096 * p.val + off) = true := by
    simp only [registerRange, Bool.or_eq_true, decide_eq_true_eq]
    omega
  have hstatus : s.entryStatus h ⟨3, BitVec.ofNat 48 (4096 * p.val + off), v⟩ = 0 := by
    have haligned : (4096 * p.val + off) % 4 = 0 := by omega
    simp [State.entryStatus, haddr, haligned, hrange, hpitch, hopen]
  have hoffset : (4096 * p.val + off) % 4096 = off := by omega
  simp only [State.applyEntry, hstatus]
  simp [haddr, hpitch, hoffset]

end

/-- A 4-byte write of one whole register of a window is a write to that register. -/
theorem State.windowPut_one {s : State} {off : Nat} (hready : s.glob.engineReady = true) (hwhole : wholeRegs windowRegs off 4 = [(off, 4)])
    (hpart : partlyCovered windowRegs off 4 = false) (h : HostPort) (p : PitchId) (data : Nat) :
    s.windowPut h p off 4 data = s.putRegister h p off (data % 2 ^ 32) := by
  simp [State.windowPut, hready, hwhole, hpart, State.countPartial, writeValue]

/-- A register flit that writes one whole register of a window leaves the pitches and the memory as the write to it does. -/
theorem registerWrite_window {s : State} {h : HostPort} {p : PitchId} {off : Nat} (hans : Answers s h p) (hoff : off < 4096)
    (halign : off % 4 = 0) (hwhole : wholeRegs windowRegs off 4 = [(off, 4)]) (hpart : partlyCovered windowRegs off 4 = false) (v : W64) :
    ∃ t, exec (.registerWrite h [⟨3, BitVec.ofNat 48 (4096 * p.val + off), v⟩]) s = .next t ∧
      t.pitches = ((s.received h 250).putRegister h p off (v.toNat % 2 ^ 32)).pitches ∧
      t.mem = ((s.received h 250).putRegister h p off (v.toNat % 2 ^ 32)).mem := by
  have hopen : (s.received h 250).windowOpen h p = true := (windowOpen_of_answers hans :)
  obtain ⟨⟨hup, hready⟩, htakes, -⟩ := hans
  refine ⟨_, exec_registerWrite hup htakes _, ?_⟩
  rw [State.registerFlit, List.foldl_cons, List.foldl_nil, State.applyEntry_window hopen hoff halign,
    State.windowPut_one (s := s.received h 250) hready hwhole hpart]
  exact ⟨State.sendHost_pitches _ _ _, State.sendHost_mem _ _ _⟩

theorem sameBytes_of_mem {s t : State} (h : t.mem = s.mem) : SameBytes s t := fun a => by rw [State.byte, h]; rfl

/-- A write to a register that changes its pitch by f. -/
theorem registerWrite_modPitch {s : State} {h : HostPort} {p : PitchId} {off : Nat} (hans : Answers s h p) (hoff : off < 4096)
    (halign : off % 4 = 0) (hwhole : wholeRegs windowRegs off 4 = [(off, 4)]) (hpart : partlyCovered windowRegs off 4 = false) (v : W64)
    (f : Pitch → Pitch) (hput : ∀ r : State, r.putRegister h p off (v.toNat % 2 ^ 32) = r.modPitch p f) :
    ∃ t, exec (.registerWrite h [⟨3, BitVec.ofNat 48 (4096 * p.val + off), v⟩]) s = .next t ∧ t.pitch p = f (s.pitch p) ∧ SameBytes s t := by
  obtain ⟨t, hrun, hpitches, hmem⟩ := registerWrite_window hans hoff halign hwhole hpart v
  rw [hput] at hpitches hmem
  exact ⟨t, hrun, (State.pitch_of_pitches _ _ hpitches p).trans (State.pitch_modPitch _ _ _), sameBytes_of_mem hmem⟩

theorem ofNat_low32 {w : Nat} (hw : w ≤ 32) (v : W64) : BitVec.ofNat w (v.toNat % 2 ^ 32) = v.setWidth w := by
  apply BitVec.eq_of_toNat_eq
  rw [BitVec.toNat_ofNat, BitVec.toNat_setWidth, Nat.mod_mod_of_dvd _ (Nat.pow_dvd_pow 2 hw)]

/-- Writes to a window's NUM_FLAGS, UPD_LR and UPD_BC2, and to a register that is read-only (17 R363; 00 R12). -/
theorem registerWrite_registers {s : State} {h : HostPort} {p : PitchId} (hans : Answers s h p) (v : W64) :
    (∃ t, exec (.registerWrite h [⟨3, BitVec.ofNat 48 (4096 * p.val + 0x140), v⟩]) s = .next t ∧
      t.pitch p = { s.pitch p with numFlags := (s.pitch p).numFlags &&& ~~~(v.setWidth 6) } ∧ SameBytes s t) ∧
    (∃ t, exec (.registerWrite h [⟨3, BitVec.ofNat 48 (4096 * p.val + 0x18C), v⟩]) s = .next t ∧
      t.pitch p = { s.pitch p with guard := { (s.pitch p).guard with updLr := v.setWidth 32 } } ∧ SameBytes s t) ∧
    (∃ t, exec (.registerWrite h [⟨3, BitVec.ofNat 48 (4096 * p.val + 0x190), v⟩]) s = .next t ∧
      t.pitch p = { s.pitch p with guard := { (s.pitch p).guard with updBc2 := v.setWidth 32 } } ∧ SameBytes s t) ∧
    (∃ t, exec (.registerWrite h [⟨3, BitVec.ofNat 48 (4096 * p.val + 0x020), v⟩]) s = .next t ∧ t.pitches = s.pitches ∧
      SameBytes s t) := by
  refine ⟨?_, ?_, ?_, ?_⟩
  · exact registerWrite_modPitch hans (by decide) (by decide) (by decide) (by decide) v (fun x => x.clearFlags (v.setWidth 6))
      (fun r => by rw [← ofNat_low32 (by decide) v]; rfl)
  · exact registerWrite_modPitch hans (by decide) (by decide) (by decide) (by decide) v
      (fun x => { x with guard := { x.guard with updLr := v.setWidth 32 } }) (fun r => by rw [← ofNat_low32 (by decide) v]; rfl)
  · exact registerWrite_modPitch hans (by decide) (by decide) (by decide) (by decide) v
      (fun x => { x with guard := { x.guard with updBc2 := v.setWidth 32 } }) (fun r => by rw [← ofNat_low32 (by decide) v]; rfl)
  · obtain ⟨t, hrun, hpitches, hmem⟩ := registerWrite_window hans (off := 0x020) (by decide) (by decide) (by decide) (by decide) v
    exact ⟨t, hrun, hpitches, sameBytes_of_mem hmem⟩

end Sys2Proof.Machine
end

