-- ==== Sys2Proof/Proofs/HostLinks.lean ====
section
/-! PROOF. Flits as they arrive, link errors, replays and retrains (17 R356, R357; 02 R34, R35). -/

namespace Sys2Proof.Machine

open Sys2Proof.Claims

/-! ## A flit that arrives -/

theorem leAt_cut (f : Bytes) {i n j m : Nat} (h : j + m ≤ n) : leAt (cut f i n) j m = leAt f (i + j) m := by
  rw [leAt, leAt, cut, cut, cut, List.drop_take, List.take_take, List.drop_drop, Nat.min_eq_left (by omega)]

theorem leAt_two (f : Bytes) : leAt f 0 2 = leAt f 0 1 + 256 * leAt f 1 1 := by
  cases f with
  | nil => rfl
  | cons b f => cases f <;> simp [leAt, cut, leNat]

theorem leAt_one_lt (f : Bytes) (i : Nat) : leAt f i 1 < 256 := by
  rw [leAt, cut]
  cases f.drop i with
  | nil => decide
  | cons b f => simpa [leNat] using b.isLt

/-- FTYPE of a flit lies in bits [3:2] of its second byte (17 R357). -/
theorem ftype_eq (f : Bytes) : bitsOf (leAt f 0 2) 11 10 = leAt f 1 1 / 4 % 4 := by
  have hlow := leAt_one_lt f 0
  rw [bitsOf, leAt_two, Nat.shiftRight_eq_div_pow]
  omega

/-- MTYPE 0x00 ends a data flit, and nothing is left unfinished. -/
theorem messagesGo_of_padding (h : HostPort) (n : Nat) {bs : Bytes} {s : State} (hpad : leAt bs 0 1 = 0) :
    messagesGo h (n + 1) bs s = { s with hostPorts := s.hostPorts.set h { s.hostPorts[h] with rxPart := [] } } := by
  rw [messagesGo, if_pos (by simp [hpad])]

@[simp] theorem HostPortSt.send_discarding (hp : HostPortSt) (m : HostMsg) : (hp.send m).discarding = hp.discarding := by cases m <;> rfl
@[simp] theorem HostPortSt.send_rxLast (hp : HostPortSt) (m : HostMsg) : (hp.send m).rxLast = hp.rxLast := by cases m <;> rfl

section
variable {s : State} {h : HostPort} {f : Bytes} (hup : s.held = false) (hmodules : s.hostPorts[h].modules ≠ 0)
include hup hmodules

theorem exec_flit_good (hcrc : crc32c (f.take 252) = leAt f 252 4) (hseq : flitSeq f = s.hostPorts[h].rxLast + 1) :
    exec (.flitCrcError h f) s = .next (s.flitGood h f) := by
  have hopen : s.hostUp h = true := decide_eq_true hmodules
  simp [exec, execFlitCrcError, live, hup, hopen, flitOk, hcrc, hseq]

theorem exec_flit_bad (hbad : ¬ (crc32c (f.take 252) = leAt f 252 4 ∧ flitSeq f = s.hostPorts[h].rxLast + 1)) :
    exec (.flitCrcError h f) s = .next (s.flitNak h) := by
  have hopen : s.hostUp h = true := decide_eq_true hmodules
  have hcheck : (flitOk f && decide (flitSeq f = s.hostPorts[h].rxLast + 1)) = false := by
    simpa only [flitOk, ← Bool.decide_and, decide_eq_false_iff_not] using hbad
  simp only [exec, execFlitCrcError, live, hup, hopen, hcheck]
  rfl

/-- A good data flit whose first message has MTYPE 0x00 ends the discarding and does nothing else. -/
theorem flit_of_padding (hcrc : crc32c (f.take 252) = leAt f 252 4) (hseq : flitSeq f = s.hostPorts[h].rxLast + 1)
    (htype : leAt f 1 1 / 4 % 4 = 0) (hpad : leAt f 2 1 = 0) (hpart : s.hostPorts[h].rxPart = []) :
    ∃ t, exec (.flitCrcError h f) s = .next t ∧ t = { s with hostPorts := t.hostPorts } ∧
      t.hostPorts[h] = { s.hostPorts[h] with rxLast := flitSeq f, discarding := false } := by
  have hfirst : leAt (cut f 2 250) 0 1 = 0 := by rw [leAt_cut f (by decide), hpad]
  refine ⟨_, exec_flit_good hup hmodules hcrc hseq, ?_⟩
  simp only [State.flitGood, ftype_eq, htype, hpart, List.nil_append, messagesGo_of_padding h 250 hfirst]
  refine ⟨trivial, ?_⟩
  simp only [Fin.getElem_fin, Vector.getElem_set_self]

/-- A good register flit is answered from the state before it. -/
theorem flit_of_registers (hcrc : crc32c (f.take 252) = leAt f 252 4) (hseq : flitSeq f = s.hostPorts[h].rxLast + 1)
    (htype : leAt f 1 1 / 4 % 4 = 1) : ∃ t, exec (.flitCrcError h f) s = .next t ∧
      t.hostOut.getLast? = some ⟨h, .regAnswer ((flitEntries (cut f 2 250)).map (s.answerEntry h))⟩ := by
  let taken : State := { s with hostPorts := s.hostPorts.set h { s.hostPorts[h] with rxLast := flitSeq f, discarding := false } }
  have hsame : taken.hostPorts.map HostPortSt.modules = s.hostPorts.map HostPortSt.modules := modules_set rfl
  have htaken : taken.hostUp h = true := by
    rw [hostUp_congr hsame]
    exact decide_eq_true hmodules
  have hgood : s.flitGood h f = taken.registerFlit h (flitEntries (cut f 2 250)) := by
    simp only [State.flitGood, ftype_eq, htype, taken]
  refine ⟨_, exec_flit_good hup hmodules hcrc hseq, ?_⟩
  rw [hgood, State.registerFlit_answer htaken, answerEntry_congr rfl hsame]

/-- A bad flit is answered with LINK and NAK, and flits are discarded from it on. -/
theorem flit_bad_answered (hbad : ¬ (crc32c (f.take 252) = leAt f 252 4 ∧ flitSeq f = s.hostPorts[h].rxLast + 1))
    (htakes : s.hostPorts[h].discarding = false) :
    ∃ t, exec (.flitCrcError h f) s = .next t ∧ t = { s with hostPorts := t.hostPorts, hostOut := t.hostOut } ∧
      t.hostPorts[h].discarding = true ∧ t.hostPorts[h].rxLast = s.hostPorts[h].rxLast ∧
      t.hostOut = s.hostOut ++ [⟨h, .link s.hostPorts[h].rxLast true⟩] := by
  let quiet : State := { s with hostPorts := s.hostPorts.set h { s.hostPorts[h] with discarding := true, rxPart := [] } }
  have hquiet : quiet.hostUp h = true := by
    rw [hostUp_congr (modules_set rfl : quiet.hostPorts.map HostPortSt.modules = s.hostPorts.map HostPortSt.modules)]
    exact decide_eq_true hmodules
  have hnak : s.flitNak h = { s with
      hostPorts := quiet.hostPorts.set h (quiet.hostPorts[h].send (.link s.hostPorts[h].rxLast true))
      hostOut := s.hostOut ++ [⟨h, .link s.hostPorts[h].rxLast true⟩] } := by
    simp only [State.flitNak, htakes]
    change quiet.sendHost h _ = _
    rw [State.sendHost, hquiet]
    rfl
  have hport : quiet.hostPorts[h] = { s.hostPorts[h] with discarding := true, rxPart := [] } := by simp [quiet]
  refine ⟨_, exec_flit_bad hup hmodules hbad, by rw [hnak], by simp [hnak, hport], by simp [hnak, hport], by rw [hnak]⟩

/-- While flits are discarded a bad one does nothing. -/
theorem flit_bad_discarded (hbad : ¬ (crc32c (f.take 252) = leAt f 252 4 ∧ flitSeq f = s.hostPorts[h].rxLast + 1))
    (hdiscards : s.hostPorts[h].discarding = true) : exec (.flitCrcError h f) s = .next s := by
  rw [exec_flit_bad hup hmodules hbad, State.flitNak, hdiscards]
  rfl

end

/-! ## Replays -/

/-- A replay on a port that is up sends the kept flits of the retry buffer again; the port counts it where there are any. -/
theorem State.replay_of_up {s : State} {h : HostPort} (hup : s.hostUp h = true) (keep : Bytes → Bool) :
    s.replay h keep = { s with
      hostPorts := s.hostPorts.set h { s.hostPorts[h] with
        flitRetries := if s.hostPorts[h].retry.filter keep = [] then s.hostPorts[h].flitRetries else s.hostPorts[h].flitRetries + 1 }
      hostOut := s.hostOut ++ (s.hostPorts[h].retry.filter keep).map (fun f => ⟨h, .replayed f⟩) } := by
  by_cases hnone : s.hostPorts[h].retry.filter keep = []
  · have hself : s.hostPorts.set h s.hostPorts[h] = s.hostPorts := Vector.set_getElem_self _
    simp only [State.replay, hnone, List.isEmpty_nil, Bool.true_or, if_true, List.map_nil, List.append_nil]
    exact congrArg (fun v => { s with hostPorts := v }) hself.symm
  · have hsome : (s.hostPorts[h].retry.filter keep).isEmpty = false := List.isEmpty_eq_false_iff.mpr hnone
    simp only [State.replay, hsome, hup, Bool.not_true, Bool.or_self, if_neg hnone]
    rfl

/-- A replay of a port changes no port but in the count of replays. -/
theorem State.replay_port (s : State) (h : HostPort) (keep : Bytes → Bool) :
    (s.replay h keep).hostPorts[h] = { s.hostPorts[h] with flitRetries := (s.replay h keep).hostPorts[h].flitRetries } := by
  simp only [State.replay]
  split
  · rfl
  · simp

theorem linkNak_spec {s : State} {h : HostPort} (hup : s.held = false) (hmodules : s.hostPorts[h].modules ≠ 0) (ack : BitVec 10)
    (htakes : s.hostPorts[h].discarding = false) :
    ∃ t, exec (.linkNak h ack) s = .next t ∧ t = { s with hostPorts := t.hostPorts, hostOut := t.hostOut } ∧
      t.hostOut = s.hostOut ++ (s.hostPorts[h].retry.filter (fun f =>
        (s.hostPorts[h].txFseq - flitSeq f).toNat < (s.hostPorts[h].txFseq - ack).toNat && flitSeq f ≠ ack)).map
          (fun f => ⟨h, .replayed f⟩) ∧
      t.hostPorts[h].retry = s.hostPorts[h].retry ∧ t.hostPorts[h].txFseq = s.hostPorts[h].txFseq := by
  have hrun : exec (.linkNak h ack) s = .next ((s.received h 16).nakIn h ack) := by
    rw [show exec (.linkNak h ack) s = live s (fun s => s.hostIn h 16 (fun s => s.nakIn h ack)) from rfl, live_next _ _ hup,
      State.hostIn_of_takes ⟨hmodules, htakes⟩]
  have hport : (s.received h 16).hostPorts[h] = { s.hostPorts[h] with rxLast := s.hostPorts[h].rxLast + BitVec.ofNat 10 (divUp 16 250) } := by
    simp [State.received]
  refine ⟨_, hrun, ?_⟩
  rw [State.nakIn, State.replay_of_up (State.received_hostUp hmodules 16), hport]
  exact ⟨rfl, rfl, by simp, by simp⟩

/-! ## Retrains -/

/-- The pitches whose copies on a port pause count one pause each, and nothing else changes. -/
def State.paused (s : State) (h : HostPort) : State :=
  (allPitches.filter (fun p => s.dma.any (fun d => d.port = h && d.use.copies p))).foldl
    (fun s p => s.modPitch p (fun x => x.addOne .ndcTime 1)) s

theorem State.paused_spec (s : State) (h : HostPort) :
    s.paused h = { s with pitches := (s.paused h).pitches } ∧
    ∀ p, (s.paused h).pitch p =
      if (∃ d ∈ s.dma, d.port = h ∧ d.use.copies p = true) then (s.pitch p).addOne .ndcTime 1 else s.pitch p := by
  obtain ⟨hrest, hpitch⟩ := foldl_modPitch (fun _ x => x.addOne .ndcTime 1)
    (allPitches.filter (fun p => s.dma.any (fun d => d.port = h && d.use.copies p))) ((List.nodup_finRange 12).filter _) s
  refine ⟨hrest, fun p => (hpitch p).trans ?_⟩
  simp [allPitches]

theorem hostRetrain_eq (s : State) (h : HostPort) (m : BitVec 4) (r : HostRate) :
    s.hostRetrain h m r =
      if s.hostPorts[h].modules &&& m = s.hostPorts[h].modules
      then ((s.trained h (s.hostPorts[h].modules &&& m) r).replay h (fun _ => true)).paused h
      else (((s.trained h (s.hostPorts[h].modules &&& m) r).replay h (fun _ => true)).paused h).repairDone (89 + h.val) 9 actWithdrawn 0 0 :=
  rfl

theorem State.repairDone_hostPorts (s : State) (cell resource action unit left : Nat) :
    (s.repairDone cell resource action unit left).hostPorts = s.hostPorts := by
  have hrest := (s.repairDone_spec cell resource action unit left).1.rest
  generalize s.repairDone cell resource action unit left = t at hrest
  exact (congrArg State.hostPorts hrest :)

theorem State.paused_hostPorts (s : State) (h : HostPort) : (s.paused h).hostPorts = s.hostPorts := by
  have hrest := (s.paused_spec h).1
  generalize s.paused h = t at hrest
  exact (congrArg State.hostPorts hrest :)

/-- A retrain sets the rate, and keeps the modules that were sound and still are where the rate is allowed. -/
theorem retrain_port {s : State} (hup : s.held = false) (h : HostPort) (m : BitVec 4) (r : HostRate) :
    ∃ t, exec (.hostLinkRetrain h m r) s = .next t ∧ t.hostPorts[h].rate = r ∧
      t.hostPorts[h].modules = if s.rateAllowed r then s.hostPorts[h].modules &&& m else 0 := by
  have hports : (s.hostRetrain h m r).hostPorts = ((s.trained h (s.hostPorts[h].modules &&& m) r).replay h (fun _ => true)).hostPorts := by
    rw [hostRetrain_eq]
    split
    · rw [State.paused_hostPorts]
    · rw [State.repairDone_hostPorts, State.paused_hostPorts]
  refine ⟨_, live_next s (fun s => s.hostRetrain h m r) hup, ?_⟩
  rw [hports, State.replay_port]
  simp [State.trained]

/-- A retrain that loses no module: the retry buffer is sent again, and the pitches whose copies pause count it (02 R35). -/
theorem retrain_keeping {s : State} {h : HostPort} (hup : s.held = false) (hmodules : s.hostPorts[h].modules ≠ 0) {m : BitVec 4}
    {r : HostRate} (hrate : s.rateAllowed r = true) (hkeeps : s.hostPorts[h].modules &&& m = s.hostPorts[h].modules) :
    ∃ t, exec (.hostLinkRetrain h m r) s = .next t ∧
      t = { s with hostPorts := t.hostPorts, hostOut := t.hostOut, pitches := t.pitches } ∧
      t.hostOut = s.hostOut ++ s.hostPorts[h].retry.map (fun f => ⟨h, .replayed f⟩) ∧
      t.hostPorts[h] = { s.hostPorts[h] with
        rate := r, flitRetries := if s.hostPorts[h].retry = [] then s.hostPorts[h].flitRetries else s.hostPorts[h].flitRetries + 1 } ∧
      ∀ p, ((∃ d ∈ s.dma, d.port = h ∧ d.use.copies p = true) → t.pitch p = { s.pitch p with counters := (t.pitch p).counters } ∧
          (t.pitch p).counter .ndcTime = (s.pitch p).counter .ndcTime + 1) ∧
        ((∀ d ∈ s.dma, d.port ≠ h ∨ d.use.copies p = false) → t.pitch p = s.pitch p) := by
  have htrained : s.trained h s.hostPorts[h].modules r = { s with hostPorts := s.hostPorts.set h { s.hostPorts[h] with rate := r } } := by
    simp [State.trained, hrate]
  have hopen : (s.trained h s.hostPorts[h].modules r).hostUp h = true := by
    have hsame : (s.trained h s.hostPorts[h].modules r).hostPorts.map HostPortSt.modules = s.hostPorts.map HostPortSt.modules := by
      rw [htrained]
      exact modules_set rfl
    rw [hostUp_congr hsame]
    exact decide_eq_true hmodules
  let replayed : State := { s with
    hostPorts := s.hostPorts.set h { s.hostPorts[h] with
      rate := r, flitRetries := if s.hostPorts[h].retry = [] then s.hostPorts[h].flitRetries else s.hostPorts[h].flitRetries + 1 }
    hostOut := s.hostOut ++ s.hostPorts[h].retry.map (fun f => ⟨h, .replayed f⟩) }
  have hreplayed : (s.trained h s.hostPorts[h].modules r).replay h (fun _ => true) = replayed := by
    rw [State.replay_of_up hopen, htrained]
    simp [replayed]
  have hrun : exec (.hostLinkRetrain h m r) s = .next (replayed.paused h) := by
    rw [show exec (.hostLinkRetrain h m r) s = live s (fun s => s.hostRetrain h m r) from rfl, live_next _ _ hup, hostRetrain_eq,
      if_pos hkeeps, hkeeps, hreplayed]
  obtain ⟨hrest, hpitch⟩ := replayed.paused_spec h
  refine ⟨_, hrun, ?_⟩
  generalize replayed.paused h = t at hrest hpitch
  have hports : t.hostPorts = replayed.hostPorts := (congrArg State.hostPorts hrest :)
  have hout : t.hostOut = replayed.hostOut := (congrArg State.hostOut hrest :)
  refine ⟨by rw [hports, hout]; exact hrest, hout, by rw [hports]; simp [replayed], fun p => ⟨fun hcopies => ?_, fun hnone => ?_⟩⟩
  · have hpaused : t.pitch p = (s.pitch p).addOne .ndcTime 1 := (hpitch p).trans (if_pos hcopies)
    rw [hpaused]
    exact ⟨rfl, Pitch.counter_addOne _ _ _⟩
  · have hquiet : ¬ ∃ d ∈ s.dma, d.port = h ∧ d.use.copies p = true := by
      rintro ⟨d, hd, hport, hcopies⟩
      rcases hnone d hd with hother | hnot
      · exact hother hport
      · simp [hnot] at hcopies
    exact (hpitch p).trans (if_neg hquiet)

/-- Settles O19: flits as they arrive, replays and retrains here, register flits by what their entries change. -/
theorem linkErrorsAndRegisterReads : Obligations.LinkErrorsAndRegisterReads :=
  ⟨fun _ _ hup hmodules => ⟨fun _ hcrc hseq htype hpad hpart => flit_of_padding hup hmodules hcrc hseq htype hpad hpart,
     fun _ hcrc hseq htype => flit_of_registers hup hmodules hcrc hseq htype,
     fun _ hbad htakes => flit_bad_answered hup hmodules hbad htakes,
     fun _ hbad hdiscards => flit_bad_discarded hup hmodules hbad hdiscards,
     linkNak_spec hup hmodules, retrain_port hup _, fun _ _ hrate hkeeps => retrain_keeping hup hmodules hrate hkeeps⟩,
   fun _ _ hup htakes => ⟨registerWrite_answer hup htakes, fun _ hes => registerWrite_reads hup htakes hes,
     fun _ v hans => registerWrite_registers hans v⟩⟩

end Sys2Proof.Machine
end

