-- ==== Sys2Proof/Proofs/Resets.lean ====
section
/-! PROOF. Power-on, warm and debug resets and the boot that follows (02 R50, R52; 21 R448; 22 R464, R466). -/

namespace Sys2Proof.Machine

open Sys2Proof.Claims

/-! ## What the boot leaves -/

theorem bootKey_rma {s t : State} (h : bootKey t = bootKey s) : t.sec.rma = s.sec.rma := by
  simp only [bootKey, Prod.mk.injEq] at h
  tauto

/-- A boot outside RMA writes no memory. -/
theorem bootKey_mem {s t : State} (h : bootKey t = bootKey s) (hrma : s.sec.rma = false) : t.mem = s.mem := by
  have hsame := bootKey_rma h
  simp only [bootKey, Prod.mk.injEq, hsame, hrma] at h
  tauto

/-- What a reset has just set and the boot leaves is as R50 states. -/
theorem afterReset_of_bootKey {s r t : State} {warm : Bool} {cause : Nat} (h : bootKey t = bootKey (r.rebooted warm cause))
    (hfuses : r.fuses.sealFuse = s.fuses.sealFuse ∧ r.fuses.rma = s.fuses.rma)
    (hrest : r.hostOut = s.hostOut ∧ r.netOut = s.netOut ∧ r.pending = s.pending) : AfterReset cause s t := by
  obtain ⟨hseal, hrma⟩ := hfuses
  obtain ⟨hhost, hnet, hqueue⟩ := hrest
  simp only [bootKey, Prod.mk.injEq] at h
  obtain ⟨kpitches, kerg, khost, knet, kdma, -, klatched, -, ktap, kcclk, kheld, -, kpending, kready, kcause, ktick, klevel, ksession,
    krma, ksealed, -, -, -⟩ := h
  exact {
    unbound := fun p => by
      rw [State.pitch, kpitches]
      exact Vector.getElem_replicate _
    ready := kready, cause := kcause, tick := ktick, cclk := kcclk, erg := kerg, latched := klatched, dma := kdma
    level := ⟨klevel, ksession⟩
    security := ⟨ksealed.trans hseal, krma.trans hrma⟩
    tap := ktap, held := kheld
    told := ⟨khost.trans hhost, knet.trans hnet⟩
    queue := kpending.trans hqueue }

theorem blank_rebooted (s : State) (warm : Bool) (cause : Nat) : Blank (s.rebooted warm cause) := fun _ => Vector.getElem_replicate _

/-! ## RMA: HBM is zeroed -/

theorem State.bootRecord_glob (s : State) : s.bootRecord.glob = s.glob := by
  unfold State.bootRecord
  split
  extract_lets +onlyGivenNames logged
  have hlogged : steady logged = steady s := steady_logEvent s _ _
  clear_value logged
  exact congrArg (fun k => k.2.1) hlogged

theorem release_zeroes {s t : State} {env : BootEnv} (ht : t = s.release env) (hrma : s.sec.rma = true) (hstage : t.glob.bootStage = 8) :
    t.mem = [] := by
  unfold State.release at ht
  split at ht
  · rw [ht, State.bootRecord_glob] at hstage
    exact absurd hstage (by decide : (7 : Nat) ≠ 8)
  · have hacquired : (s.acquire .a).sec.rma = true := (bootKey_rma (boot_acquire s .a)).trans hrma
    rw [ht, State.loadRetained, if_pos hacquired]
    rfl

theorem bootImage_zeroes {s t : State} {env : BootEnv} (ht : t = s.bootImage env) (hrma : s.sec.rma = true)
    (hstage : t.glob.bootStage = 8) : t.mem = [] := by
  unfold State.bootImage at ht
  split at ht
  · rw [ht] at hstage
    exact absurd hstage (by decide : (4 : Nat) ≠ 8)
  · extract_lets +onlyGivenNames read at ht
    have hread : read.sec.rma = true := (bootKey_rma ((boot_readDirectory (s.stage 4) env).trans (boot_stage s 4))).trans hrma
    clear_value read
    split at ht
    · rw [ht, State.bootRecord_glob] at hstage
      exact absurd hstage (by decide : (5 : Nat) ≠ 8)
    · next b code _ =>
      have hkey : bootKey ((((read.bootStop 5 code).runImage b).settleBank b).identity.stage 6) = bootKey read :=
        (boot_stage _ 6).trans ((boot_identity _).trans ((boot_settleBank _ b).trans ((boot_runImage _ b).trans (boot_bootStop read 5 code))))
      exact release_zeroes ht ((bootKey_rma hkey).trans hread) hstage

/-- In RMA a boot that reaches stage 0x08 has zeroed HBM (22 R464). -/
theorem bootStages_zeroes {s t : State} (hblank : Blank s) {warm : Bool} {env : BootEnv} (ht : t = s.bootStages warm env)
    (hrma : s.sec.rma = true) (hstage : t.glob.bootStage = 8) : t.mem = [] := by
  unfold State.bootStages at ht
  split at ht
  · rw [ht] at hstage
    exact absurd hstage (by decide : (2 : Nat) ≠ 8)
  · extract_lets +onlyGivenNames fused at ht
    have hkey : bootKey fused = bootKey s := by
      refine (boot_stage _ 2).trans ?_
      split
      · rfl
      · exact boot_fuseRepairs s hblank
    clear_value fused
    split at ht
    · rw [ht] at hstage
      exact absurd hstage (by decide : (3 : Nat) ≠ 8)
    · have hthird : bootKey (fused.stage 3) = bootKey s := (boot_stage fused 3).trans hkey
      have htrained := (boot_train (fused.stage 3) (hblank.of hthird) env).trans hthird
      exact bootImage_zeroes ht ((bootKey_rma htrained).trans hrma) hstage

theorem byte_of_mem_nil {t : State} (h : t.mem = []) (a : Nat) : t.byte a = 0 := by rw [State.byte, h]; rfl

/-! ## Memory across a warm reset -/

/-- A warm reset keeps HBM and nothing else of the memory (02 R50). -/
theorem memGet_rebootMem (s : State) (a : Nat) : memGet (s.rebootMem true) a = if hbmBase ≤ a then s.byte a else 0 := by
  rw [State.rebootMem, if_pos rfl]
  split
  · next hin => exact memGet_filter s.mem (fun a => decide (hbmBase ≤ a)) a (decide_eq_true hin)
  · next hout =>
    refine memGet_absent _ _ fun c hc => ?_
    simp only [List.mem_filter, decide_eq_true_eq] at hc
    omega

/-- What cutting steps off does to the die: pitches, host reads, free values and memory change, memory in the accumulation buffers of
steps in progress alone (06 R148). -/
structure StepsCut (s t : State) : Prop where
  rest : t = { s with pitches := t.pitches, mem := t.mem, dma := t.dma, free := t.free }
  buffers : ∀ p, accBuffers (t.pitch p) ⊆ accBuffers (s.pitch p)
  bytes : ∀ a, (∀ p, ∀ b ∈ accBuffers (s.pitch p), a < b.1 ∨ b.1 + b.2 ≤ a) → t.byte a = s.byte a

theorem StepsCut.refl (s : State) : StepsCut s s := ⟨rfl, fun _ => List.Subset.refl _, fun _ _ => rfl⟩

theorem StepsCut.trans {s t u : State} (h : StepsCut s t) (k : StepsCut t u) : StepsCut s u where
  rest := by rw [k.rest, h.rest]
  buffers p := List.Subset.trans (k.buffers p) (h.buffers p)
  bytes a ha := (k.bytes a fun p b hb => ha p b (h.buffers p hb)).trans (h.bytes a ha)

/-- Writing runs changes no byte outside them, and nothing beside the memory. -/
theorem writeRuns_spec (data : Nat × Nat → Bytes) (runs : List (Nat × Nat)) (hlen : ∀ b, (data b).length = b.2) (s : State) :
    (runs.foldl (fun s b => s.write b.1 (data b)) s = { s with mem := (runs.foldl (fun s b => s.write b.1 (data b)) s).mem }) ∧
    ∀ a, (∀ b ∈ runs, a < b.1 ∨ b.1 + b.2 ≤ a) → (runs.foldl (fun s b => s.write b.1 (data b)) s).byte a = s.byte a := by
  induction runs generalizing s with
  | nil => exact ⟨rfl, fun _ _ => rfl⟩
  | cons r runs ih =>
    obtain ⟨hrest, hbytes⟩ := ih (s.write r.1 (data r))
    refine ⟨?_, fun a ha => ?_⟩
    · rw [List.foldl_cons, hrest]
      rfl
    · rw [List.foldl_cons, hbytes a fun b hb => ha b (List.mem_cons_of_mem _ hb)]
      exact s.byte_write_out _ _ _ (by rw [hlen]; exact ha r List.mem_cons_self)

/-- A pitch that is cut off has no accumulation buffers in use but those it had. -/
theorem accBuffers_cutOff (x : Pitch) (b : Bool) (hactive : x.time.state ≠ .idle) :
    accBuffers { x.cutOff with time := { x.cutOff.time with cut := b } } ⊆ accBuffers x := by
  have hold : accBuffers x = (x.eff.buckets.filter (fun r => bAccBase r ≠ 0)).map (fun r => (bAccBase r, 8 * bElements r)) := if_neg hactive
  rw [hold]
  unfold accBuffers
  split
  · exact List.nil_subset _
  · exact List.Subset.refl _

theorem State.cutStep_cut {s : State} {p : PitchId} (hactive : (s.pitch p).time.state ≠ .idle) : StepsCut s (s.cutStep p) := by
  have hbufs : accBuffers (s.pitch p) = ((s.pitch p).eff.buckets.filter (fun r => bAccBase r ≠ 0)).map (fun r => (bAccBase r, 8 * bElements r)) :=
    if_neg hactive
  unfold State.cutStep
  extract_lets +onlyGivenNames dropped x
  have hx : x = s.pitch p := rfl
  rw [hx, if_neg hactive]
  obtain ⟨hrest, hbytes⟩ := writeRuns_spec (fun b => (List.range b.2).map (fun i => Config.freeAccByte dropped.draw.1 (b.1 + i)))
    (accBuffers (s.pitch p)) (fun b => by simp) dropped.draw.2
  rw [hbufs] at hrest hbytes
  simp only
  generalize List.foldl _ dropped.draw.2 _ = written at hrest hbytes
  have hpitch : written.pitch = s.pitch := by rw [hrest]; rfl
  refine ⟨by rw [hrest]; rfl, fun q => ?_, fun a ha => ?_⟩
  · by_cases hq : q = p
    · subst hq
      rw [State.pitch_modPitch, hpitch]
      exact accBuffers_cutOff _ true hactive
    · rw [State.pitch_modPitch_ne _ _ _ _ hq, hpitch]
      exact List.Subset.refl _
  · exact hbytes a (hbufs ▸ ha p)

/-- Steps in progress are cut off before a warm reset (06 R148). -/
def State.stepsCut (s : State) : State := s.forPitches (fun p s => if (s.pitch p).time.state = .idle then s else s.cutStep p)

theorem State.stepsCut_spec (s : State) : StepsCut s s.stepsCut := by
  unfold State.stepsCut State.forPitches
  induction allPitches generalizing s with
  | nil => exact StepsCut.refl s
  | cons p ps ih =>
    rw [List.foldl_cons]
    refine StepsCut.trans ?_ (ih _)
    beta_reduce
    split
    · exact StepsCut.refl s
    · next hactive => exact State.cutStep_cut hactive

theorem boot_dropHolder (s : State) : bootKey s.dropHolder = bootKey s := by
  unfold State.dropHolder
  split
  · exact boot_setHolder s _ _
  · rfl

theorem State.rebooted_rma (s : State) (warm : Bool) (cause : Nat) : (s.rebooted warm cause).sec.rma = s.fuses.rma := rfl

/-- The second half of a warm reset, on the die whose steps have been cut off. -/
theorem warmStages_spec (s : State) (cause : Nat) (env : BootEnv) {t : State}
    (ht : t = (s.rebooted true cause).dropHolder.bootStages true env) :
    AfterReset cause s t ∧ (s.fuses.rma = false → ∀ a, t.byte a = if hbmBase ≤ a then s.byte a else 0) ∧
    (s.fuses.rma = true → t.glob.bootStage = 8 → ∀ a, t.byte a = 0) := by
  have hdropped := boot_dropHolder (s.rebooted true cause)
  have hblank : Blank (s.rebooted true cause).dropHolder := (blank_rebooted _ _ _).of hdropped
  have hkey : bootKey t = bootKey (s.rebooted true cause) := ht ▸ (boot_bootStages _ hblank true env).trans hdropped
  refine ⟨afterReset_of_bootKey hkey ⟨rfl, rfl⟩ ⟨rfl, rfl, rfl⟩, fun hrma a => ?_, fun hrma hstage a => ?_⟩
  · have hmem : t.mem = s.rebootMem true := bootKey_mem hkey ((s.rebooted_rma true cause).trans hrma)
    rw [State.byte, hmem, memGet_rebootMem]
  · have hsec : (s.rebooted true cause).dropHolder.sec.rma = true :=
      (bootKey_rma hdropped).trans ((s.rebooted_rma true cause).trans hrma)
    exact byte_of_mem_nil (bootStages_zeroes hblank ht hsec hstage) a

/-- What a reset leaves does not depend on whether steps were cut off before it. -/
theorem afterReset_of_stepsCut {cause : Nat} {s c t : State} (hcut : StepsCut s c) (h : AfterReset cause c t) : AfterReset cause s t := by
  have hrest := hcut.rest
  have hfuses : c.fuses = s.fuses := (congrArg State.fuses hrest :)
  have hhost : c.hostOut = s.hostOut := (congrArg State.hostOut hrest :)
  have hnet : c.netOut = s.netOut := (congrArg State.netOut hrest :)
  have hqueue : c.pending = s.pending := (congrArg State.pending hrest :)
  exact { h with security := hfuses ▸ h.security, told := hhost ▸ hnet ▸ h.told, queue := h.queue.trans hqueue }

/-- The memory after a warm reset, as the statements put it. -/
theorem warmBoot_memory (s : State) (cause : Nat) (env : BootEnv) : AfterReset cause s (s.warmBoot cause env) ∧
    (s.fuses.rma = false → HbmKept s (s.warmBoot cause env) ∧ ∀ a, a < hbmBase → (s.warmBoot cause env).byte a = 0) ∧
    (s.fuses.rma = true → (s.warmBoot cause env).glob.bootStage = 8 → ∀ a, (s.warmBoot cause env).byte a = 0) := by
  have hcut := s.stepsCut_spec
  obtain ⟨hafter, hbytes, hzero⟩ := warmStages_spec s.stepsCut cause env (t := s.warmBoot cause env) rfl
  have hfuses : s.stepsCut.fuses = s.fuses := (congrArg State.fuses hcut.rest :)
  rw [hfuses] at hbytes hzero
  refine ⟨afterReset_of_stepsCut hcut hafter, fun hrma => ⟨fun a ha hout => ?_, fun a ha => ?_⟩, hzero⟩
  · rw [hbytes hrma a, if_pos ha]
    exact hcut.bytes a hout
  · rw [hbytes hrma a, if_neg (by omega)]

/-! ## The power-on reset -/

/-- A power-on reset without the warm reset of R52. -/
theorem coldStages_spec (env : BootEnv) (s : State) {t : State}
    (ht : t = ((s.programBanks env).rebooted false s.powerOnCause).bootStages false env) :
    AfterReset s.powerOnCause s t ∧ (t.fuses.sealFuse = s.fuses.sealFuse ∧ t.fuses.rma = s.fuses.rma) ∧
    (s.fuses.rma = false ∨ t.glob.bootStage = 8 → t.mem = []) := by
  have hblank := blank_rebooted (s.programBanks env) false s.powerOnCause
  have hkey : bootKey t = bootKey ((s.programBanks env).rebooted false s.powerOnCause) := ht ▸ boot_bootStages _ hblank false env
  have hrma := (s.programBanks env).rebooted_rma false s.powerOnCause
  refine ⟨afterReset_of_bootKey hkey ⟨rfl, rfl⟩ ⟨rfl, rfl, rfl⟩, ?_, fun hzero => ?_⟩
  · simp only [bootKey, Prod.mk.injEq] at hkey
    tauto
  · cases hfuse : s.fuses.rma with
    | false => exact bootKey_mem hkey (hrma.trans hfuse)
    | true => exact bootStages_zeroes hblank ht (hrma.trans hfuse) (hzero.resolve_left (by simp [hfuse]))

/-- A pitch at its factory values has no step, and so no accumulation buffer in use. -/
theorem accBuffers_blank : accBuffers {} = [] := rfl

/-- The warm reset of R52, after a power-on reset that left the die blank. -/
theorem warmBoot_of_cold {c : Nat} {s cold : State} (hcold : AfterReset c s cold)
    (hfuses : cold.fuses.sealFuse = s.fuses.sealFuse ∧ cold.fuses.rma = s.fuses.rma) (hempty : s.fuses.rma = false → cold.mem = [])
    (cause : Nat) (env : BootEnv) : AfterReset cause s (cold.warmBoot cause env) ∧
    (s.fuses.rma = false ∨ (cold.warmBoot cause env).glob.bootStage = 8 → ∀ a, (cold.warmBoot cause env).byte a = 0) := by
  obtain ⟨hwarm, hkept, hzeroed⟩ := warmBoot_memory cold cause env
  generalize cold.warmBoot cause env = t at hwarm hkept hzeroed
  obtain ⟨hseal, hrma⟩ := hfuses
  rw [hrma] at hkept hzeroed
  refine ⟨{ hwarm with
    security := ⟨hwarm.security.1.trans hseal, hwarm.security.2.trans hrma⟩
    told := ⟨hwarm.told.1.trans hcold.told.1, hwarm.told.2.trans hcold.told.2⟩
    queue := hwarm.queue.trans hcold.queue }, fun hzero a => ?_⟩
  cases hfuse : s.fuses.rma with
  | true => exact hzeroed hfuse (hzero.resolve_left (by simp [hfuse])) a
  | false =>
    obtain ⟨hhbm, hlow⟩ := hkept hfuse
    by_cases ha : hbmBase ≤ a
    · have hnone : ∀ p, accBuffers (cold.pitch p) = [] := fun p => by rw [hcold.unbound p, accBuffers_blank]
      rw [hhbm a ha fun p b hb => absurd (hnone p ▸ hb) List.not_mem_nil]
      exact byte_of_mem_nil (hempty hfuse) a
    · exact hlow a (by omega)

theorem powerOnReset_spec (env : BootEnv) (s : State) : ∃ t, exec (.powerOnReset env) s = .next t ∧
    AfterReset (if env.wrstLow then 2 else if s.power.faultN && s.power.railCause.isSome then 4 else 1) s t ∧
    (s.fuses.rma = false ∨ t.glob.bootStage = 8 → ∀ a, t.byte a = 0) := by
  let cold : State := ((s.programBanks env).rebooted false s.powerOnCause).bootStages false env
  obtain ⟨hcold, hfuses, hempty⟩ := coldStages_spec env s (t := cold) rfl
  have hpower : s.powerOn env =
      if env.wrstLow then cold.warmBoot 2 { env with badRows := [], badPes := [], badDecoders := [] } else cold := rfl
  refine ⟨s.powerOn env, rfl, ?_⟩
  rw [hpower]
  clear_value cold
  cases env.wrstLow with
  | false => exact ⟨hcold, fun hzero => byte_of_mem_nil (hempty hzero)⟩
  | true => exact warmBoot_of_cold hcold hfuses (fun hrma => hempty (.inl hrma)) 2 _

/-! ## Warm and debug resets -/

theorem warmReset_short {s : State} (hup : s.held = false) (env : BootEnv) {ns : Nat} (hns : ns < 1000) :
    exec (.warmReset env ns) s = .next s := by
  simp [exec, execWarmReset, live, hup, hns]

theorem warmReset_long {s : State} (hup : s.held = false) (env : BootEnv) {ns : Nat} (hns : 1000 ≤ ns) :
    exec (.warmReset env ns) s = .next (s.warmBoot 2 env) := by
  simp [exec, execWarmReset, live, hup, Nat.not_lt.mpr hns]

/-- DBG_RESET at INVASIVE is a warm reset (22 R466). -/
theorem dbgReset_invasive {s : State} (hup : s.held = false) (env : BootEnv) (hlevel : s.sec.level = 2) :
    exec (.dbgReset env) s = .next (s.warmBoot 3 env) := by
  have hallowed : s.tapAllows irDbgReset = true := decide_eq_true hlevel
  simp [exec, execDbgReset, live, hup, State.tapRun, hallowed]

end Sys2Proof.Machine
end

