-- ==== Sys2Proof/Proofs/EngineReady.lean ====
section
/-! PROOF. ENGINE_READY: the pitches of the retained store come back, and the status page says so (02 R54; 19 R422; 21 R450). -/

namespace Sys2Proof.Machine

open Sys2Proof.Claims

/-- A pass over every pitch keeps what each of its steps keeps, and does to each pitch what its step does to it. -/
theorem State.forPitches_each {f : PitchId → State → State} {I : State → Prop} {R : PitchId → Pitch → Pitch → Prop}
    (h : ∀ p s, I s → I (f p s) ∧ (∀ q, q ≠ p → (f p s).pitch q = s.pitch q) ∧ R p (s.pitch p) ((f p s).pitch p)) {s : State} (hs : I s) :
    I (s.forPitches f) ∧ ∀ p, R p (s.pitch p) ((s.forPitches f).pitch p) := by
  have hlist : ∀ (ps : List PitchId), ps.Nodup → ∀ s, I s → I (ps.foldl (fun s p => f p s) s) ∧
      (∀ q ∈ ps, R q (s.pitch q) ((ps.foldl (fun s p => f p s) s).pitch q)) ∧
      ∀ q, q ∉ ps → (ps.foldl (fun s p => f p s) s).pitch q = s.pitch q := by
    intro ps
    induction ps with
    | nil => exact fun _ s hs => ⟨hs, by simp, fun _ _ => rfl⟩
    | cons p ps ih =>
      intro hnodup s hs
      obtain ⟨hp, hps⟩ := List.nodup_cons.1 hnodup
      obtain ⟨hinv, hothers, hown⟩ := h p s hs
      obtain ⟨kinv, kin, kout⟩ := ih hps (f p s) hinv
      refine ⟨kinv, fun q hq => ?_, fun q hq => ?_⟩
      · rw [List.foldl_cons]
        rcases List.mem_cons.1 hq with rfl | hq
        · rw [kout q hp]
          exact hown
        · have hne : q ≠ p := fun e => hp (e ▸ hq)
          simpa only [hothers q hne] using kin q hq
      · rw [List.foldl_cons, kout q fun hm => hq (List.mem_cons_of_mem _ hm), hothers q fun e => hq (e ▸ List.mem_cons_self)]
  obtain ⟨kinv, kin, -⟩ := hlist allPitches (List.nodup_finRange 12) s hs
  exact ⟨kinv, fun p => kin p (List.mem_finRange p)⟩

/-- States that differ in pitches and memory alone. -/
def PitchesAndMemory (s t : State) : Prop := t = { s with pitches := t.pitches, mem := t.mem }

/-! ## Restoring and signing -/

/-- The pitch as its retained image has it, or as it was where it has none. -/
def restoredFrom (kept : Option Retained) (warm : Bool) (x : Pitch) : Pitch :=
  match kept with
  | none => x
  | some r => r.pitch warm

theorem State.eraseAll_rest (rs : List (Nat × Nat)) (s : State) : s.eraseAll rs = { s with mem := (s.eraseAll rs).mem } := by
  unfold State.eraseAll
  induction rs generalizing s with
  | nil => rfl
  | cons r rs ih =>
    rw [List.foldl_cons, ih]
    rfl

/-- A pitch whose rings and mail begin anew. -/
def Pitch.freshRings (x : Pitch) : Pitch :=
  { x with
    queues := {}
    mail := { x.mail with waiting := [], cmdPorts := [], fetched := [], fetchAsked := false, fetchFailed := none, term := none, handover := none } }

theorem State.firstPass_eq (s : State) (p : PitchId) : ∃ rs, s.firstPass p = (s.setPitch p (s.pitch p).freshRings).eraseAll rs := ⟨_, rfl⟩

theorem Retained.pitch_freshRings (r : Retained) (warm : Bool) : (r.pitch warm).freshRings = r.pitch warm := rfl

/-- A pitch restored has fresh rings and mail already: beside it, restoring it changes memory alone. -/
theorem State.firstPass_restored (s : State) (p : PitchId) (r : Retained) (warm : Bool) :
    (s.setPitch p (r.pitch warm)).firstPass p =
      { s.setPitch p (r.pitch warm) with mem := ((s.setPitch p (r.pitch warm)).firstPass p).mem } := by
  obtain ⟨rs, hpass⟩ := (s.setPitch p (r.pitch warm)).firstPass_eq p
  have htwice : (s.setPitch p (r.pitch warm)).setPitch p (r.pitch warm) = s.setPitch p (r.pitch warm) := by simp [State.setPitch]
  rw [hpass, State.pitch_setPitch, Retained.pitch_freshRings, htwice]
  exact State.eraseAll_rest rs _

/-- Restoring a pitch with no port failed: it is as its image has it. -/
theorem State.restorePitch_spec {s : State} (hports : ∀ n : NetPort, s.netPorts[n].failed = false) (p : PitchId) :
    PitchesAndMemory s (s.restorePitch p) ∧ (∀ q, q ≠ p → (s.restorePitch p).pitch q = s.pitch q) ∧
    (s.restorePitch p).pitch p =
      restoredFrom s.retained[p] (decide (s.glob.resetCause = 2 ∨ s.glob.resetCause = 3)) (s.pitch p) := by
  unfold State.restorePitch
  cases hkept : s.retained[p] with
  | none => exact ⟨rfl, fun _ _ => rfl, rfl⟩
  | some r =>
    simp only [restoredFrom, Bool.decide_or]
    have hpass := s.firstPass_restored p r (decide (s.glob.resetCause = 2) || decide (s.glob.resetCause = 3))
    generalize (s.setPitch p (r.pitch (decide (s.glob.resetCause = 2) || decide (s.glob.resetCause = 3)))).firstPass p = passed at hpass ⊢
    have hnone : (List.finRange 17).filter (fun n => passed.netPorts[n].failed && passed.netPorts[n].replaced) = [] := by
      rw [List.filter_eq_nil_iff]
      intro n _
      rw [hpass]
      change ¬ (s.netPorts[n].failed && s.netPorts[n].replaced) = true
      rw [hports n]
      exact Bool.false_ne_true
    rw [hnone, List.foldl_nil]
    refine ⟨by rw [hpass]; rfl, fun q hq => ?_, ?_⟩
    · rw [hpass]
      exact State.pitch_setPitch_ne _ _ _ _ hq
    · rw [hpass]
      exact State.pitch_setPitch _ _ _

/-- Pitch p with its signatures computed anew, where it has a retained image. -/
def SignedFrom (kept : Option Retained) (p : PitchId) (x y : Pitch) : Prop :=
  (kept = none → y = x) ∧ (kept.isSome → y = { x with rsig := y.rsig, tsig := y.tsig } ∧ y.rsig = sigOf (y.rsigRecord p))

/-- A pitch's own signatures are no part of what its run signature covers. -/
theorem Pitch.rsigRecord_sigs (x : Pitch) (p : PitchId) (r t : W128) : ({ x with rsig := r, tsig := t } : Pitch).rsigRecord p = x.rsigRecord p := rfl

theorem State.signRestored_spec (s : State) (p : PitchId) :
    PitchesAndMemory s (s.signRestored p) ∧ (∀ q, q ≠ p → (s.signRestored p).pitch q = s.pitch q) ∧
    SignedFrom s.retained[p] p (s.pitch p) ((s.signRestored p).pitch p) := by
  unfold State.signRestored
  cases s.retained[p] with
  | none => exact ⟨rfl, fun _ _ => rfl, fun _ => rfl, by simp⟩
  | some r =>
    simp only [Option.isSome_some, if_true, State.resign]
    refine ⟨rfl, fun q hq => by simp [hq], by simp, fun _ => ?_⟩
    simp only [State.pitch_modPitch]
    exact ⟨trivial, congrArg sigOf (Pitch.rsigRecord_sigs _ p _ _).symm⟩

/-- Every pitch restored and signed. -/
def State.restored (s : State) : State :=
  (s.forPitches (fun p s => s.restorePitch p)).forPitches (fun p s => s.signRestored p)

theorem State.restored_spec {s : State} (hports : ∀ n : NetPort, s.netPorts[n].failed = false) :
    PitchesAndMemory s s.restored ∧ ∀ p, SignedFrom s.retained[p] p
      (restoredFrom s.retained[p] (decide (s.glob.resetCause = 2 ∨ s.glob.resetCause = 3)) (s.pitch p)) (s.restored.pitch p) := by
  obtain ⟨hrest, hpitch⟩ := State.forPitches_each (f := fun p s => s.restorePitch p) (I := PitchesAndMemory s)
    (R := fun p x y => y = restoredFrom s.retained[p] (decide (s.glob.resetCause = 2 ∨ s.glob.resetCause = 3)) x)
    (fun p t ht => by
      have hretained : t.retained = s.retained := (congrArg State.retained ht :)
      have hglob : t.glob = s.glob := (congrArg State.glob ht :)
      have hnet : t.netPorts = s.netPorts := (congrArg State.netPorts ht :)
      obtain ⟨hstep, hothers, hown⟩ := State.restorePitch_spec (s := t) (by rw [hnet]; exact hports) p
      rw [hretained, hglob] at hown
      exact ⟨hstep.trans (by rw [ht]), hothers, hown⟩) (s := s) rfl
  unfold State.restored
  generalize s.forPitches (fun p s => s.restorePitch p) = t at hrest hpitch
  have hretained : t.retained = s.retained := (congrArg State.retained hrest :)
  obtain ⟨ksigned, kpitch⟩ := State.forPitches_each (f := fun p s => s.signRestored p) (I := PitchesAndMemory s)
    (R := fun p x y => SignedFrom s.retained[p] p x y)
    (fun p u hu => by
      have kretained : u.retained = s.retained := (congrArg State.retained hu :)
      obtain ⟨hstep, hothers, hown⟩ := u.signRestored_spec p
      rw [kretained] at hown
      exact ⟨hstep.trans (by rw [hu]), hothers, hown⟩) hrest
  exact ⟨ksigned, fun p => hpitch p ▸ kpitch p⟩

/-! ## The rest of ENGINE_READY -/

/-- The BOOT record changes the log and what the power core keeps of a rail fault. -/
theorem State.bootRecord_rest (s : State) :
    s.bootRecord.pitches = s.pitches ∧ s.bootRecord.glob = s.glob ∧ s.bootRecord.fuses = s.fuses ∧ s.bootRecord.fw = s.fw ∧
    s.bootRecord.sec = s.sec ∧ s.bootRecord.latched = s.latched := by
  unfold State.bootRecord
  split
  extract_lets +onlyGivenNames logged
  have hrest : logged = { s with health := logged.health, flash := { s.flash with log := logged.flash.log } } :=
    beside_rest (State.logEvent_spec s logBoot _).1
  clear_value logged
  rw [hrest]
  exact ⟨rfl, rfl, rfl, rfl, rfl, rfl⟩

/-- What cells rest in or are switched off is no part of the pitches, of the status page or of the fuses. -/
theorem State.setCells_rest (s : State) (cs : List Nat) (v : CellPower) : s.setCells cs v = { s with power := (s.setCells cs v).power } := by
  simp only [State.setCells]

theorem State.restCells_rest (s : State) : ∃ w, s.restCells = { s with power := w } := by
  unfold State.restCells
  extract_lets +onlyGivenNames spares rested
  have hrested : rested = { s with power := rested.power } := by
    unfold rested State.restGroups
    rw [State.setCells_rest, State.setCells_rest s]
  clear_value rested
  split
  · exact ⟨_, by rw [State.setCells_rest, hrested]⟩
  · exact ⟨_, hrested⟩

theorem State.settleCells_rest (s : State) : ∃ w, s.settleCells = { s with power := w } := ⟨_, rfl⟩

/-- The anti-rollback fuses after ENGINE_READY (21 R450). -/
theorem State.blowRollback_spec (s : State) : s.blowRollback = { s with fuses := { s.fuses with
    rollback := if s.secCode = 1 then max s.fuses.rollback s.fw.imageRollback else s.fuses.rollback } } := by
  unfold State.blowRollback
  split
  · rfl
  · rfl

/-- The work after the pitches are back: the BOOT record, the anti-rollback fuses and the cells at rest. -/
def State.readied (s : State) : State := (s.bootRecord.blowRollback.settleCells).restCells

theorem State.readied_spec (s : State) : s.readied.pitches = s.pitches ∧ s.readied.glob = s.glob ∧ s.readied.latched = s.latched ∧
    s.readied.fuses = { s.fuses with rollback := if s.secCode = 1 then max s.fuses.rollback s.fw.imageRollback else s.fuses.rollback } := by
  obtain ⟨hpitches, hglob, hfuses, hfw, hsec, hlatched⟩ := s.bootRecord_rest
  have hcode : s.bootRecord.secCode = s.secCode := by rw [State.secCode, hsec]; rfl
  rw [State.readied]
  generalize s.bootRecord = told at hpitches hglob hfuses hfw hcode hlatched ⊢
  obtain ⟨v, hsettled⟩ := told.blowRollback.settleCells_rest
  obtain ⟨w, hrested⟩ := State.restCells_rest { told.blowRollback with power := v }
  rw [hsettled, hrested, State.blowRollback_spec, hcode, hfuses, hfw]
  exact ⟨hpitches, hglob, hlatched, rfl⟩

/-- With no repair of the boot to tell, none is told. -/
theorem State.tellRepairs_of_none {s : State} (h : s.health.untold = []) : s.tellRepairs = s := by
  rw [State.tellRepairs, h, List.foldl_nil, ← h]

/-- The status page says that the engine is ready. -/
def State.flagged (s : State) : State := { s with glob := { s.glob with engineReady := true, bootStage := 9 } }

theorem State.becomeReady_eq {s : State} (hready : s.glob.engineReady = false) (hstage : s.glob.bootStage = 8) : s.becomeReady =
    s.restored.flagged.tellRepairs.readied.latched.foldl State.judgeLatched { s.restored.flagged.tellRepairs.readied with latched := [] } := by
  have hguard : ¬ (s.glob.engineReady || decide (s.glob.bootStage ≠ 8)) = true := by simp [hready, hstage]
  rw [State.becomeReady, if_neg hguard]
  simp only [State.restored, State.flagged, State.readied]

/-- ENGINE_READY rises once stage 0x08 is passed (02 R54). -/
theorem engineReady_spec {s : State} (hup : s.held = false) (hready : s.glob.engineReady = false) (hstage : s.glob.bootStage = 8)
    (hlatched : s.latched = []) (huntold : s.health.untold = []) (hports : ∀ n : NetPort, s.netPorts[n].failed = false) :
    ∃ t, exec .engineReady s = .next t ∧ t.glob.engineReady = true ∧ t.glob.bootStage = 9 ∧
      t.fuses = { s.fuses with rollback := if s.secCode = 1 then max s.fuses.rollback s.fw.imageRollback else s.fuses.rollback } ∧
      ∀ p : PitchId,
        (s.retained[p] = none → t.pitch p = s.pitch p) ∧
        (∀ r, s.retained[p] = some r →
          t.pitch p = { r.pitch (decide (s.glob.resetCause = 2 ∨ s.glob.resetCause = 3)) with
            rsig := (t.pitch p).rsig, tsig := (t.pitch p).tsig } ∧ (t.pitch p).rsig = sigOf ((t.pitch p).rsigRecord p) ∧
          (t.pitch p).mode = .stopped) := by
  obtain ⟨hrest, hsigned⟩ := State.restored_spec hports
  have hrun : exec .engineReady s = .next s.becomeReady := live_next s State.becomeReady hup
  rw [State.becomeReady_eq hready hstage] at hrun
  generalize s.restored = back at hrest hsigned hrun
  have hback : back.flagged = { s with pitches := back.pitches, mem := back.mem, glob := { s.glob with engineReady := true, bootStage := 9 } } := by
    rw [State.flagged, hrest]
  rw [State.tellRepairs_of_none (by rw [hback]; exact huntold)] at hrun
  obtain ⟨hpitches, hglob, hlast, hfuses⟩ := back.flagged.readied_spec
  have hempty : back.flagged.readied.latched = [] := by rw [hlast, hback]; exact hlatched
  rw [hempty, List.foldl_nil] at hrun
  generalize back.flagged.readied = ready at hpitches hglob hfuses hrun
  refine ⟨_, hrun, (congrArg Global.engineReady hglob :), (congrArg Global.bootStage hglob :), ?_, fun p => ?_⟩
  · rw [hback] at hfuses
    exact hfuses
  · have hpitch : ({ ready with latched := [] } : State).pitch p = back.pitch p := State.pitch_of_pitches _ _ hpitches p
    rw [hpitch]
    obtain ⟨hnone, hsome⟩ := hsigned p
    refine ⟨fun hkept => ?_, fun r hkept => ?_⟩
    · rw [hnone hkept, hkept, restoredFrom]
    · rw [hkept] at hsome
      obtain ⟨hpage, hrsig⟩ := hsome rfl
      exact ⟨hpage, hrsig, (congrArg Pitch.mode hpage :)⟩

/-- ENGINE_READY rises once, and not before stage 0x08. -/
theorem engineReady_again {s : State} (h : s.glob.engineReady = true ∨ s.glob.bootStage ≠ 8) : exec .engineReady s = .next s := by
  have hquiet : s.becomeReady = s := if_pos (by simpa using h)
  simp [exec, execEngineReady, live, hquiet]

/-- Settles O13: the resets by what the boot after them leaves, ENGINE_READY by what it restores. -/
theorem resetsAndEngineReady : Obligations.ResetsAndEngineReady :=
  ⟨powerOnReset_spec,
   fun env s hup => ⟨fun _ hns => warmReset_short hup env hns, fun _ hns => ⟨_, warmReset_long hup env hns, warmBoot_memory s 2 env⟩,
     fun hlevel => ⟨_, dbgReset_invasive hup env hlevel, warmBoot_memory s 3 env⟩⟩,
   fun _ => engineReady_spec, fun _ => engineReady_again⟩

end Sys2Proof.Machine
end

