-- ==== Sys2Proof/Proofs/TableLoads.lean ====
section
/-! PROOF. peg.load, layermap.load and lockstep.pair: the table a command replaces, and the signatures computed anew (03 R59, R61;
14 R309; 16 R336, R349). -/

namespace Sys2Proof.Machine

open Sys2Proof.Claims

/-- A change of a pitch that neither reads nor writes its mailbox and its queues. -/
def BesideMail (f : Pitch → Pitch) : Prop :=
  ∀ (x : Pitch) (m : Mailbox) (q : Queues), f { x with mail := m, queues := q } = { f x with mail := m, queues := q }

/-- The pitch that a taken command leaves is the pitch before it, but for mailbox and queues. -/
theorem Taken.pitch_eq (s : State) (p : PitchId) :
    (Taken s p).pitch p = { s.pitch p with mail := ((Taken s p).pitch p).mail, queues := ((Taken s p).pitch p).queues } :=
  (Taken.spec s p).2.1

theorem Pitch.rsigRecord_mail (x : Pitch) (p : PitchId) (m : Mailbox) (q : Queues) :
    ({ x with mail := m, queues := q } : Pitch).rsigRecord p = x.rsigRecord p := rfl

/-- Signing a pitch changes its two signatures, and RSIG is that of the pitch as it then is. -/
theorem State.resign_spec (s : State) (p : PitchId) :
    MailFrame p s (s.resign p) ∧
    (s.resign p).pitch p = { s.pitch p with rsig := ((s.resign p).pitch p).rsig, tsig := ((s.resign p).pitch p).tsig } ∧
    ((s.resign p).pitch p).rsig = sigOf (((s.resign p).pitch p).rsigRecord p) := by
  refine ⟨(MailFrame.setPitch s p _).trans (MailFrame.setPitch _ p _), ?_, ?_⟩
  · simp only [State.resign, State.pitch_modPitch]
  · simp only [State.resign, State.pitch_modPitch]
    exact congrArg sigOf (Pitch.rsigRecord_sigs _ p _ _).symm

/-- The end of a command that ends OK: what its response leaves, seen from the state before it was taken off the ring. -/
theorem State.finish_ok {s m : State} {p : PitchId} (c : Cmd) (bs : Bytes) (fl : Nat) (hframe : MailFrame p s m)
    (hmail : (m.pitch p).mail = ((Taken s p).pitch p).mail) (hqueues : (m.pitch p).queues = ((Taken s p).pitch p).queues) :
    Answered p c 0 0 s (m.finish p c ⟨stOk, 0⟩ bs fl) ∧ MailFrame p s (m.finish p c ⟨stOk, 0⟩ bs fl) ∧
    PitchIs p (m.finish p c ⟨stOk, 0⟩ bs fl) (m.pitch p) := by
  obtain ⟨hend, hpitch, hseq, -, hhead, hcache⟩ := m.finish_spec p c ⟨stOk, 0⟩ bs fl
  obtain ⟨-, -, htaken, -, hpast⟩ := Taken.spec s p
  have hcount : (m.pitch p).mail.countSeq.nextSeq = (s.pitch p).mail.countSeq.nextSeq := by
    rw [hmail]
    simp [Taken, Pitch.popCommand, Pitch.setQptr, Mailbox.countSeq]
  refine ⟨⟨⟨hseq.trans hcount, hcache⟩, ?_⟩, hframe.trans hend, hpitch⟩
  rw [hhead, ← hpast, Pitch.qptr, hqueues]
  rfl

theorem State.settle_ok (s t : State) (p : PitchId) (c : Cmd) (flags : Nat) :
    s.settle p c flags (.ok t) = t.finish p c ⟨stOk, 0⟩ [] flags := by
  rw [Act.ok, State.settle.eq_def]
  simp only [Nat.zero_add, id]

/-- A command that changes its pitch beside the mailbox, signs it and ends OK. -/
theorem tableCommand_spec {s : State} {p : PitchId} {k : CmdSpec} {c : Cmd} {bs : Bytes} (h : Ready s p k c bs)
    {body : Cmd → HostPort → Bytes → State → Act} {f : Pitch → Pitch} (hf : BesideMail f)
    (hbody : body c (s.pitch p).cmdPort bs (Taken s p) = .ok (((Taken s p).modPitch p f).resign p)) :
    ∃ t, live s (fun s => s.command p k body) = .next t ∧
      AnsweredOk p c s t { f (s.pitch p) with rsig := (t.pitch p).rsig, tsig := (t.pitch p).tsig } ∧
      (t.pitch p).rsig = sigOf ((t.pitch p).rsigRecord p) := by
  obtain ⟨hresign, hsigned, hrsig⟩ := ((Taken s p).modPitch p f).resign_spec p
  have hrun : live s (fun s => s.command p k body) =
      .next ((((Taken s p).modPitch p f).resign p).finish p c ⟨stOk, 0⟩ [] (s.pitch p).handoverFlag) := by
    rw [live_next _ _ h.waits.up, State.command_spec h, hbody, State.settle_ok]
  generalize ((Taken s p).modPitch p f).resign p = m at hresign hsigned hrsig hrun
  have hm : m.pitch p = { f (s.pitch p) with
      mail := ((Taken s p).pitch p).mail, queues := ((Taken s p).pitch p).queues, rsig := (m.pitch p).rsig, tsig := (m.pitch p).tsig } := by
    rw [State.pitch_modPitch, Taken.pitch_eq s p, hf] at hsigned
    exact hsigned
  have hframe : MailFrame p s m := ((Taken.spec s p).1.trans (MailFrame.setPitch _ p _)).trans hresign
  obtain ⟨hanswer, hend, hpitch⟩ := State.finish_ok c [] (s.pitch p).handoverFlag hframe (congrArg Pitch.mail hm :)
    (congrArg Pitch.queues hm :)
  generalize m.finish p c ⟨stOk, 0⟩ [] (s.pitch p).handoverFlag = t at hrun hanswer hend hpitch
  rw [PitchIs] at hpitch
  have hrecord : (t.pitch p).rsigRecord p = (m.pitch p).rsigRecord p := by rw [hpitch, Pitch.rsigRecord_mail]
  refine ⟨t, hrun, ⟨hanswer, hend, ?_⟩, ?_⟩
  · rw [PitchIs, hpitch, hm]
  · rw [hrecord, ← hrsig, hpitch]

section
variable {s : State} {p : PitchId} {c : Cmd} {bs : Bytes}

theorem pegLoad_spec (h : Ready s p pegLoadSpec c bs) (hcheck : pegCheck (s.pitch p) p (c.arg 32 4) (c.arg 36 4) bs = none) :
    ∃ t, exec (.pegLoad p) s = .next t ∧ AnsweredOk p c s t { s.pitch p with
      pegs := (chunks 16 (bs.take (16 * c.arg 32 4))).map pegOf, budgets := (chunks 64 (bs.drop (16 * c.arg 32 4))).map budgetOf
      pegsLoaded := true, rsig := (t.pitch p).rsig, tsig := (t.pitch p).tsig } ∧
      (t.pitch p).rsig = sigOf ((t.pitch p).rsigRecord p) := by
  have htaken : pegCheck ((Taken s p).pitch p) p (c.arg 32 4) (c.arg 36 4) bs = none := by
    rw [Taken.pitch_eq]
    exact hcheck
  exact tableCommand_spec (body := pegLoadBody p) h (f := fun x => { x with
    pegs := (chunks 16 (bs.take (16 * c.arg 32 4))).map pegOf, budgets := (chunks 64 (bs.drop (16 * c.arg 32 4))).map budgetOf
    pegsLoaded := true }) (fun _ _ _ => rfl) (by rw [pegLoadBody, htaken])

theorem layermapLoad_spec (h : Ready s p layerLoadSpec c bs) (hcheck : layerCheck (s.pitch p) p (c.arg 32 4) bs = none) :
    ∃ t, exec (.layermapLoad p) s = .next t ∧ AnsweredOk p c s t { s.pitch p with
      layers := (chunks 32 bs).map layerOf, layersLoaded := true, rsig := (t.pitch p).rsig, tsig := (t.pitch p).tsig } ∧
      (t.pitch p).rsig = sigOf ((t.pitch p).rsigRecord p) := by
  have htaken : layerCheck ((Taken s p).pitch p) p (c.arg 32 4) bs = none := by
    rw [Taken.pitch_eq]
    exact hcheck
  exact tableCommand_spec (body := layerLoadBody p) h (f := fun x => { x with layers := (chunks 32 bs).map layerOf, layersLoaded := true })
    (fun _ _ _ => rfl) (by rw [layerLoadBody, htaken])

/-- A pairing that ends, or is in order and does not ask for FULL mode, replaces the record. -/
theorem lockstepPair_spec (h : Ready s p pairSpec c bs) {pairing : Option Pairing}
    (hbody : pairBody p c (s.pitch p).cmdPort bs (Taken s p) = .ok (((Taken s p).modPitch p (fun x => { x with pairing := pairing })).resign p)) :
    ∃ t, exec (.lockstepPair p) s = .next t ∧ AnsweredOk p c s t { s.pitch p with
      pairing := pairing, rsig := (t.pitch p).rsig, tsig := (t.pitch p).tsig } := by
  obtain ⟨t, hrun, hanswer, -⟩ := tableCommand_spec h (f := fun x => { x with pairing := pairing }) (fun _ _ _ => rfl) hbody
  exact ⟨t, hrun, hanswer⟩

theorem pairBody_ends {t : State} {h : HostPort} (hends : c.arg 32 2 = 0xFFFF) :
    pairBody p c h bs t = .ok ((t.modPitch p (fun x => { x with pairing := none })).resign p) := by
  simp [pairBody, hends]

theorem pairBody_digests {t : State} {h : HostPort} (hpartner : c.arg 32 2 ≠ 0xFFFF) (hmode : c.arg 34 1 = 0) (hleast : 1 ≤ c.arg 36 2)
    (hmost : c.arg 36 2 ≤ 126) (hplace : c.arg 40 8 % 2048 = 0) :
    pairBody p c h bs t = .ok ((t.modPitch p (fun x => { x with
      pairing := some ⟨c.arg 32 2, 0, c.arg 35 1 = 1, c.arg 36 2, c.arg 40 8⟩ })).resign p) := by
  have hsome : c.arg 36 2 ≠ 0 := by omega
  simp [pairBody, hpartner, hmode, hsome, hmost, hplace]

end

/-- Settles O29: each command changes its own table, and the shared end of the three signs the pitch and answers. -/
theorem tablesLoad : Obligations.TablesLoad := fun _ _ _ _ =>
  ⟨pegLoad_spec, layermapLoad_spec, fun h hends => lockstepPair_spec h (pairBody_ends hends),
    fun h hpartner hmode hleast hmost hplace => lockstepPair_spec h (pairBody_digests hpartner hmode hleast hmost hplace)⟩

end Sys2Proof.Machine
end

