-- ==== Sys2Proof/Proofs/CountersAndChannels.lean ====
section
/-! PROOF. Reading back what an update of a pitch wrote: counters, channels, and lists in which one entry is replaced. -/

namespace Sys2Proof.Machine

/-! ## Pitches -/

theorem State.setPitch_self (s : State) (p : PitchId) : s.setPitch p (s.pitch p) = s := by
  have hself : s.pitches.set p s.pitches[p] = s.pitches := Vector.set_getElem_self _
  exact congrArg (fun v => { s with pitches := v }) hself

/-! ## Counters -/

section
variable (x : Pitch) {c : PCtr} (htime : c ≠ .ndcTime) (hbits : c ≠ .ndcBits)
include htime hbits

/-- Counting under c counts n there, whatever NDC_TIME or NDC_BITS count of it. -/
theorem Pitch.counter_count (n : Nat) : (x.count c n).counter c = x.counter c + BitVec.ofNat 64 n := by
  unfold Pitch.count
  split
  · next h => simp [h]
  · extract_lets y
    split
    · rw [Pitch.counter_addOne_ne _ _ _ _ htime, Pitch.counter_addOne]
    · split
      · rw [Pitch.counter_addOne_ne _ _ _ _ hbits, Pitch.counter_addOne]
      · rw [Pitch.counter_addOne]

/-- Counting under another counter leaves c. -/
theorem Pitch.counter_count_ne {e : PCtr} (hne : c ≠ e) (n : Nat) : (x.count e n).counter c = x.counter c := by
  unfold Pitch.count
  split
  · rfl
  · extract_lets y
    have hy : y.counter c = x.counter c := Pitch.counter_addOne_ne _ _ _ _ hne
    split
    · rw [Pitch.counter_addOne_ne _ _ _ _ htime, hy]
    · split
      · rw [Pitch.counter_addOne_ne _ _ _ _ hbits, hy]
      · exact hy

end

/-! ## Lists in which one entry is replaced -/

theorem find?_upsert {α : Type} {p : α → Bool} {y : α} (hy : p y = true) (xs : List α) :
    (upsert p (fun _ => y) y xs).find? p = some y := by
  induction xs with
  | nil => simp [upsert, hy]
  | cons x xs ih =>
    unfold upsert
    split
    · simp [hy]
    · next hx => simp [hx, ih]

theorem mem_replaceFirst {α : Type} {p : α → Bool} {f : α → α} {x : α} (hx : ∀ y, p y = true → y = x) {xs : List α} (hmem : x ∈ xs)
    (hp : p x = true) : f x ∈ replaceFirst p f xs := by
  induction xs with
  | nil => simp at hmem
  | cons y ys ih =>
    unfold replaceFirst
    split
    · next h => simp [hx y h]
    · next h =>
      rcases List.mem_cons.mp hmem with rfl | htail
      · exact absurd hp h
      · exact List.mem_cons_of_mem _ (ih htail)

/-! ## Channels -/

@[simp] theorem Pitch.chan_setChan (x : Pitch) (r : Nat) (c : Channel) : (x.setChan r c).chan r = c := by
  simp only [Pitch.chan, Pitch.setChan]
  rw [find?_upsert (by simp)]
  rfl

theorem Pitch.chan_congr {x y : Pitch} (h : y.tx.channels = x.tx.channels) (r : Nat) : y.chan r = x.chan r := by
  rw [Pitch.chan, Pitch.chan, h]

end Sys2Proof.Machine
end

