-- ==== Sys2Proof/Proofs/FramesLeaving.lean ====
section
/-! PROOF. How a DATA frame leaves: the one that is ready is found, sent as new, or sent again (03 R67, R73; 11 R264, R266, R270;
12 R283). -/

namespace Sys2Proof.Machine

open Sys2Proof.Claims

theorem exec_frameTransmit {s t : State} (hup : s.held = false) {p : PitchId} {n : NetPort} (h : s.transmit p n = t) :
    exec (.frameTransmit p n) s = .next t :=
  h ▸ live_next s (fun s => s.transmit p n) hup

/-! ## Nothing to assign -/

theorem Pitch.assignPort_of_none {x : Pitch} {p : PitchId} {lp : Nat} (h : x.toAssign lp = none) (n : Nat) :
    Pitch.assignPort p lp n x = x := by
  cases n with
  | zero => rfl
  | succ n => simp [Pitch.assignPort, Pitch.assignNext, h]

theorem Pitch.assignAll_of_none {x : Pitch} (h : ∀ lp, x.toAssign lp = none) (p : PitchId) : x.assignAll p = x :=
  List.foldl_fixed' (fun lp => Pitch.assignPort_of_none (h lp) _) _

/-! ## The one frame that is ready -/

theorem TxFrame.lp_lt (f : TxFrame) : f.lp < 16 := Nat.mod_lt _ (by decide)

theorem Pitch.mem_lpsOn {x : Pitch} {n : NetPort} {lp : Nat} (hlp : lp < 16) (hmap : x.tx.portMap.toList.getD lp 0 = n) :
    lp ∈ x.lpsOn n := by
  refine List.mem_filter.mpr ⟨List.mem_map.mpr ⟨(lp + 15 * (sget x.tx.lastLp n.val 15 + 1)) % 16, ?_, ?_⟩, by simpa using hmap⟩
  · simp only [List.mem_range]
    omega
  · omega

section
variable {s : State} {p : PitchId} {n : NetPort} {f : TxFrame} {sec : Secret}

/-- The one frame that waits needs no window. -/
theorem toAssign_of_sends (h : Sends s p n f sec) (lp : Nat) : (s.pitch p).toAssign lp = none := by
  have hopen : (f.windowed && f.window.isNone) = false := by
    rcases h.window with hnone | ⟨w, hsome, -⟩
    · simp [hnone]
    · simp [hsome]
  simp [Pitch.toAssign, h.queue, hopen]

theorem lpReady_of_sends (h : Sends s p n f sec) (lp : Nat) : (s.pitch p).lpReady lp = if f.lp = lp then some f else none := by
  by_cases hlp : f.lp = lp
  · cases hw : f.windowed with
    | false => simp [Pitch.lpReady, Pitch.headOf, h.queue, hw, hlp]
    | true =>
      obtain ⟨w, hwindow, hopened⟩ := h.window.resolve_left (by simp [hw])
      simp [Pitch.lpReady, Pitch.headOf, h.queue, hw, hlp, Pitch.windowOk, hwindow, hopened]
  · simp [Pitch.lpReady, Pitch.headOf, h.queue, hlp]

/-- Of a list whose entries are all f, where there is one, a search finds f or nothing, and f comes first. -/
theorem find?_of_all {fs : List TxFrame} (hall : ∀ g ∈ fs, g = f) (hmem : f ∈ fs) (q : TxFrame → Bool) :
    fs.find? q = if q f then some f else none := by
  split
  · next hq =>
    obtain ⟨g, hg⟩ := Option.isSome_iff_exists.mp (List.find?_isSome.mpr ⟨f, hmem, hq⟩)
    rw [hg, hall g (List.mem_of_find?_eq_some hg)]
  · next hq => exact List.find?_eq_none.mpr fun g hg => by rwa [hall g hg]

theorem head?_of_all {fs : List TxFrame} (hall : ∀ g ∈ fs, g = f) (hmem : f ∈ fs) : fs.head? = some f := by
  obtain ⟨g, gs, rfl⟩ := List.exists_cons_of_ne_nil (List.ne_nil_of_mem hmem)
  rw [List.head?_cons, hall g List.mem_cons_self]

/-- FRAME_TRANSMIT sends the one frame that waits and is ready. -/
theorem transmit_of_sends (h : Sends s p n f sec) : s.transmit p n = s.sendNew p n f := by
  have hsame : s.modPitch p (fun x => x.assignAll p) = s := by
    rw [State.modPitch, Pitch.assignAll_of_none (toAssign_of_sends h), State.setPitch_self]
  have hstuck : (decide (f.dst ≠ (s.pitch p).rank) && (!(s.pitch p).seqRoom f || !(s.pitch p).storeRoom p f)) = false := by
    simp [Pitch.seqRoom, h.seqRoom, h.storeRoom]
  have hready : ∀ g, g ∈ ((s.pitch p).lpsOn n).filterMap (s.pitch p).lpReady ↔ g = f := by
    intro g
    simp only [List.mem_filterMap, lpReady_of_sends h, Option.ite_none_right_eq_some, Option.some.injEq]
    exact ⟨fun ⟨_, _, _, hg⟩ => hg.symm, fun hg => ⟨f.lp, Pitch.mem_lpsOn f.lp_lt h.place, rfl, hg.symm⟩⟩
  let free := (((s.pitch p).lpsOn n).filterMap (s.pitch p).lpReady).filter (s.pitch p).maySend |>.filter (fun f =>
    !(decide (f.dst ≠ (s.pitch p).rank) && (!(s.pitch p).seqRoom f || !(s.pitch p).storeRoom p f)) &&
      (decide (f.dst = (s.pitch p).rank) || s.portUp n && (s.pitch p).keys.current.isSome))
  have hwaits : (((((s.pitch p).lpsOn n).filterMap (s.pitch p).lpReady).filter (s.pitch p).maySend).filter
      (fun f => decide (f.dst ≠ (s.pitch p).rank) && (!(s.pitch p).seqRoom f || !(s.pitch p).storeRoom p f))) = [] := by
    refine List.filter_eq_nil_iff.mpr fun g hg => ?_
    rw [(hready g).mp (List.mem_of_mem_filter hg), hstuck]
    decide
  have hall : ∀ g ∈ free, g = f := fun g hg => (hready g).mp (List.mem_of_mem_filter (List.mem_of_mem_filter hg))
  have hmem : f ∈ free := by
    refine List.mem_filter.mpr ⟨List.mem_filter.mpr ⟨(hready f).mpr rfl, by simp [Pitch.maySend, h.running]⟩, ?_⟩
    rw [hstuck]
    simp [h.port, h.key]
  have hmode : ((decide ((s.pitch p).mode ≠ .running)) && (decide ((s.pitch p).mode ≠ .stopped))) = false := by simp [h.running]
  unfold State.transmit
  rw [hmode, if_neg (by decide), h.first, ite_self]
  simp only [hsame, hwaits, List.foldl_nil, State.setPitch_self]
  rw [find?_of_all hall hmem, head?_of_all hall hmem]
  cases f.windowed <;> simp [h.remote]

end

/-! ## What sending leaves of the pitch -/

theorem Pitch.count_tx (x : Pitch) (c : PCtr) (n : Nat) : (x.count c n).tx = x.tx := by rw [Pitch.count_rest]

/-- Noting the window of a frame changes the windows of its port and the counters. -/
theorem Pitch.noteWindow_tx (x : Pitch) (f : TxFrame) (stop : Nat) :
    ∃ lps, (x.noteWindow f stop).tx = { x.tx with lps := lps } := by
  unfold Pitch.noteWindow
  split
  · extract_lets l ended ovf
    split
    · rw [Pitch.count_rest]
      exact ⟨_, rfl⟩
    · exact ⟨_, rfl⟩
  · exact ⟨_, rfl⟩

theorem Pitch.osSent_tx (x : Pitch) (id seq op : Nat) : (x.osSent id seq op).tx = x.tx := by
  unfold Pitch.osSent
  split <;> split <;> simp [Pitch.count_tx]

/-- The channel after a frame of it has left, with its own sequence number or again. -/
def Channel.spent (c : Channel) (seq t0 left : Nat) (credits : Sparse Int) : Channel :=
  { c with nextSeq := seq, tokens := left, tokenAt := t0, credits := credits }

/-- The record of a frame that has left for the first time. -/
def Pitch.outFrame (x : Pitch) (p : PitchId) (n : NetPort) (f : TxFrame) (t0 ent : Nat) : OutFrame :=
  OutFrame.mk f (x.chan f.dst).nextSeq t0 1 n (ent % 16) (f.lp + 16 * (ent % 16)) ((x.storePlace p f).getD 0) false false 0

section
variable (x : Pitch) (p : PitchId) (n : NetPort) (f : TxFrame) (t0 left ent : Nat) (waited : Bool) (credits : Sparse Int) (stop : Nat)

/-- The pitch with the hold of its rate counted, where the frame waited for it. -/
def Pitch.rateHeld (x : Pitch) (waited : Bool) : Pitch := if waited then x.count .rateHolds else x

theorem Pitch.rateHeld_rest (x : Pitch) (waited : Bool) : x.rateHeld waited = { x with counters := (x.rateHeld waited).counters } := by
  unfold Pitch.rateHeld
  split
  · exact Pitch.count_rest _ _ _
  · rfl

/-- The pitch once a frame has left for the first time, in the run from t0 on. -/
def Pitch.sent : Pitch :=
  let c := x.chan f.dst
  let y := (x.rateHeld waited).setChan f.dst (c.spent (c.nextSeq + 1) t0 left credits)
  let z := { y with tx := { y.tx with
    txq := y.tx.txq.erase f
    out := y.tx.out ++ [OutFrame.mk f c.nextSeq t0 1 n (ent % 16) (f.lp + 16 * (ent % 16)) ((y.storePlace p f).getD 0) false false 0]
    lastLp := sset y.tx.lastLp n.val f.lp 15 } }
  let w := (z.noteWindow f stop).occupy n stop
  match f.use with | .oneSided id => w.osSent id c.nextSeq f.opcode.toNat | _ => w

theorem Pitch.sent_tx : ∃ lps lastLp busy, (x.sent p n f t0 left ent waited credits stop).tx =
    { (x.setChan f.dst ((x.chan f.dst).spent ((x.chan f.dst).nextSeq + 1) t0 left credits)).tx with
      txq := x.tx.txq.erase f, out := x.tx.out ++ [x.outFrame p n f t0 ent], lps := lps, lastLp := lastLp, busy := busy } := by
  have hlast : ∀ w : Pitch, (match f.use with
      | .oneSided id => w.osSent id (x.chan f.dst).nextSeq f.opcode.toNat
      | _ => w).tx = w.tx := by
    intro w
    split
    · exact Pitch.osSent_tx _ _ _ _
    · rfl
  unfold Pitch.sent
  rw [Pitch.rateHeld_rest]
  extract_lets c y tx z w
  obtain ⟨lps, hwindow⟩ := z.noteWindow_tx f stop
  have hw : w.tx = { z.tx with lps := lps, busy := sset z.tx.busy n.val stop 0 } := by
    simp only [w, Pitch.occupy, hwindow]
  exact ⟨lps, z.tx.lastLp, sset z.tx.busy n.val stop 0, (hlast w).trans hw⟩

theorem Pitch.sent_spec : (x.sent p n f t0 left ent waited credits stop).tx.txq = x.tx.txq.erase f ∧
    (x.sent p n f t0 left ent waited credits stop).tx.out = x.tx.out ++ [x.outFrame p n f t0 ent] ∧
    (x.sent p n f t0 left ent waited credits stop).chan f.dst =
      (x.chan f.dst).spent ((x.chan f.dst).nextSeq + 1) t0 left credits := by
  obtain ⟨lps, lastLp, busy, htx⟩ := x.sent_tx p n f t0 left ent waited credits stop
  refine ⟨by rw [htx], by rw [htx], ?_⟩
  rw [Pitch.chan_congr (congrArg Transport.channels htx :), Pitch.chan_setChan]

end

/-- State s with a transmission of frame f from t0 on. -/
def State.emitted (s : State) (p : PitchId) (n : NetPort) (f : TxFrame) (t0 seq ent pathId : Nat) (sec : Secret) : State :=
  { s with cclk := max s.cclk t0, netOut := s.netOut ++ [⟨n, t0, dataOut s p n f seq ent pathId sec⟩] }

theorem State.emitData_emitted {s : State} {p : PitchId} {sec : Secret} (h : (s.pitch p).keys.current = some sec) (n : NetPort)
    (f : TxFrame) (t0 seq ent pathId : Nat) :
    (s.advanceTo t0).emitData p n t0 ent pathId seq f = s.emitted p n f t0 seq ent pathId sec := by
  have hkey : ((s.advanceTo t0).pitch p).keys.current = some sec := h
  rw [State.emitData, hkey]
  rfl

/-- The first transmission, while the channel has sequence numbers left. -/
theorem sendNew_spec {s : State} {p : PitchId} {n : NetPort} {f : TxFrame} {sec : Secret} (h : Sends s p n f sec) {t0 left ent : Nat}
    {waited : Bool} {credits : Sparse Int}
    (hbegin : s.beginAt (s.pitch p) n ((s.pitch p).chan f.dst) ((s.pitch p).frameSize p f.payload.length) = some (t0, left, waited))
    (hpick : pathPick ((s.pitch p).chan f.dst) (pathsOf n.val) = some (ent, credits)) : ∃ stop, s.sendNew p n f =
      (s.emitted p n f t0 ((s.pitch p).chan f.dst).nextSeq ent (f.lp + 16 * (ent % 16)) sec).setPitch p
        ((s.pitch p).sent p n f t0 left ent waited credits stop) := by
  let stop := t0 + s.wireCclk n ((s.pitch p).frameSize p f.payload.length)
  have hsend : s.sendNew p n f =
      ((s.emitted p n f t0 ((s.pitch p).chan f.dst).nextSeq ent (f.lp + 16 * (ent % 16)) sec).setPitch p
        ((s.pitch p).sent p n f t0 left ent waited credits stop)).seqExhausted p f.dst := by
    simp only [State.sendNew, hbegin, hpick, State.emitData_emitted h.key]
    rfl
  obtain ⟨-, -, hchan⟩ := (s.pitch p).sent_spec p n f t0 left ent waited credits stop
  have hleft : ¬ 2 ^ 48 - 4096 ≤ ((s.pitch p).chan f.dst).nextSeq + 1 := by
    have := h.unspent
    omega
  refine ⟨stop, ?_⟩
  rw [hsend, State.seqExhausted, State.pitch_setPitch, hchan]
  exact if_neg hleft

/-- A frame that leaves anew: the clause of `Obligations.FramesLeave` for the frame that is ready. -/
theorem transmit_new {s : State} {p : PitchId} {n : NetPort} {f : TxFrame} {sec : Secret} (h : Sends s p n f sec) {t0 left ent : Nat}
    {waited : Bool} {credits : Sparse Int}
    (hbegin : s.beginAt (s.pitch p) n ((s.pitch p).chan f.dst) ((s.pitch p).frameSize p f.payload.length) = some (t0, left, waited))
    (hpick : pathPick ((s.pitch p).chan f.dst) (pathsOf n.val) = some (ent, credits)) :
    ∃ t, exec (.frameTransmit p n) s = .next t ∧ (∀ q, q ≠ p → t.pitch q = s.pitch q) ∧
      t = { s with pitches := t.pitches, netOut := t.netOut, cclk := t.cclk } ∧ t.cclk = max s.cclk t0 ∧
      t.netOut = s.netOut ++ [⟨n, t0, dataOut s p n f ((s.pitch p).chan f.dst).nextSeq ent (f.lp + 16 * (ent % 16)) sec⟩] ∧
      (t.pitch p).tx.txq = [] ∧ (t.pitch p).tx.out = (s.pitch p).tx.out ++ [(s.pitch p).outFrame p n f t0 ent] ∧
      ((t.pitch p).chan f.dst).nextSeq = ((s.pitch p).chan f.dst).nextSeq + 1 ∧ ((t.pitch p).chan f.dst).tokens = left := by
  obtain ⟨stop, hsend⟩ := sendNew_spec h hbegin hpick
  obtain ⟨htxq, hout, hchan⟩ := (s.pitch p).sent_spec p n f t0 left ent waited credits stop
  refine ⟨_, exec_frameTransmit h.up ((transmit_of_sends h).trans hsend),
    fun q hq => State.pitch_setPitch_ne _ _ _ _ hq, rfl, rfl, rfl, ?_⟩
  rw [State.pitch_setPitch, htxq, hout, hchan, h.queue]
  exact ⟨List.erase_cons_head _ _, rfl, rfl, rfl⟩

/-! ## A lost frame leaves again -/

theorem nextResend_mem {s : State} {p : PitchId} {n : NetPort} {o : OutFrame} {ent : Nat} {credits : Sparse Int}
    (h : s.nextResend p n = some (o, ent, credits)) : o ∈ (s.pitch p).tx.out := by
  obtain ⟨q, hq, hpath⟩ := List.exists_of_findSome?_eq_some h
  split at hpath
  · simp only [Option.ite_none_right_eq_some, Option.some.injEq, Prod.mk.injEq] at hpath
    obtain ⟨-, rfl, -⟩ := hpath
    exact List.mem_of_mem_filter (List.mem_of_mem_filter hq)
  · simp at hpath

/-- The record of an outstanding frame after it left again. -/
def OutFrame.again (o : OutFrame) (n : NetPort) (t0 ent : Nat) : OutFrame :=
  { o with sent := t0, txCount := o.txCount + 1, port := n, entropy := ent % 16, lost := false, damaged := false }

/-- The pitch with the resend of a damaged frame counted. -/
def Pitch.resendCounted (x : Pitch) (damaged : Bool) : Pitch := if damaged then x.count .streamResent else x

theorem Pitch.resendCounted_rest (x : Pitch) (damaged : Bool) :
    x.resendCounted damaged = { x with counters := (x.resendCounted damaged).counters } := by
  unfold Pitch.resendCounted
  split
  · exact Pitch.count_rest _ _ _
  · rfl

theorem Pitch.resendCounted_counter (x : Pitch) (waited damaged : Bool) : ((x.rateHeld waited).resendCounted damaged).counter .streamResent =
    x.counter .streamResent + (if damaged then 1 else 0) := by
  have hheld : (x.rateHeld waited).counter .streamResent = x.counter .streamResent := by
    cases waited
    · rfl
    · exact Pitch.counter_count_ne x (c := .streamResent) (e := .rateHolds) (by decide) (by decide) (by decide) 1
  cases damaged
  · simpa [Pitch.resendCounted] using hheld
  · rw [← hheld]
    exact Pitch.counter_count (x.rateHeld waited) (c := .streamResent) (by decide) (by decide) 1

/-- The pitch after a resend. -/
def Pitch.resent (x : Pitch) (n : NetPort) (o : OutFrame) (t0 left ent : Nat) (waited : Bool) (credits : Sparse Int) (stop : Nat) : Pitch :=
  let y := ((x.rateHeld waited).resendCounted o.damaged).setChan o.frame.dst
    ((x.chan o.frame.dst).spent (x.chan o.frame.dst).nextSeq t0 left credits)
  ({ y with tx := { y.tx with out := replaceFirst (fun q => q = o) (fun _ => o.again n t0 ent) y.tx.out } }).occupy n stop

theorem Pitch.resent_spec {x : Pitch} {o : OutFrame} (hmem : o ∈ x.tx.out) (n : NetPort) (t0 left ent : Nat) (waited : Bool)
    (credits : Sparse Int) (stop : Nat) :
    (x.resent n o t0 left ent waited credits stop).tx.txq = x.tx.txq ∧
    o.again n t0 ent ∈ (x.resent n o t0 left ent waited credits stop).tx.out ∧
    (x.resent n o t0 left ent waited credits stop).counter .streamResent = x.counter .streamResent + (if o.damaged then 1 else 0) := by
  have hcounter := x.resendCounted_counter waited o.damaged
  have htx : ((x.rateHeld waited).resendCounted o.damaged).tx = x.tx := by rw [Pitch.resendCounted_rest, Pitch.rateHeld_rest]
  unfold Pitch.resent
  generalize (x.rateHeld waited).resendCounted o.damaged = y at hcounter htx
  have hout : o.again n t0 ent ∈ replaceFirst (fun q => q = o) (fun _ => o.again n t0 ent) y.tx.out :=
    mem_replaceFirst (fun q hq => of_decide_eq_true hq) (htx ▸ hmem) (decide_eq_true rfl)
  exact ⟨(congrArg Transport.txq htx :), hout, hcounter⟩

/-- A lost frame whose turn it is leaves again: the clause of `Obligations.FramesLeave` for a resend. -/
theorem transmit_again {s : State} {p : PitchId} {n : NetPort} {o : OutFrame} {sec : Secret} (hup : s.held = false)
    (hmode : (s.pitch p).mode = .running) (hport : s.portUp n = true) (hkey : (s.pitch p).keys.current = some sec) {t0 left ent : Nat}
    {waited : Bool} {credits : Sparse Int} (hnext : s.nextResend p n = some (o, ent, credits))
    (hbegin : s.beginAt (s.pitch p) n ((s.pitch p).chan o.frame.dst) ((s.pitch p).frameSize p o.frame.payload.length) =
      some (t0, left, waited)) : ∃ stop, exec (.frameTransmit p n) s = .next ((s.emitted p n o.frame t0 o.seq ent o.pathId sec).setPitch p
        ((s.pitch p).resent n o t0 left ent waited credits stop)) := by
  refine ⟨t0 + s.wireCclk n ((s.pitch p).frameSize p o.frame.payload.length), exec_frameTransmit hup ?_⟩
  have hresend : s.transmit p n = s.resend p n o ent credits := by simp [State.transmit, hmode, hport, hkey, hnext]
  rw [hresend]
  simp only [State.resend, hbegin, State.emitData_emitted hkey]
  rfl

/-- Settles O41: the frame that is ready leaves as new, and a lost one whose turn it is leaves again. -/
theorem framesLeave : Obligations.FramesLeave := by
  refine fun s p n sec t0 left ent waited credits => ⟨fun f h hbegin hpick => transmit_new h hbegin hpick, ?_⟩
  intro o hup hmode hport hkey hnext hbegin
  obtain ⟨stop, hrun⟩ := transmit_again hup hmode hport hkey hnext hbegin
  obtain ⟨htxq, hout, hcounter⟩ := Pitch.resent_spec (nextResend_mem hnext) n t0 left ent waited credits stop
  refine ⟨_, hrun, fun q hq => State.pitch_setPitch_ne _ _ _ _ hq, rfl, rfl, rfl, ?_⟩
  rw [State.pitch_setPitch]
  exact ⟨htxq, ⟨_, hout, rfl, rfl, rfl, rfl⟩, hcounter⟩

end Sys2Proof.Machine
end

