-- ==== Sys2Proof/Proofs/PegsFiring.lean ====
section
/-! PROOF. Pegs: a due peg fires once and has its action (03 R60, R62, R64, R65, R71, R75). -/

namespace Sys2Proof.Machine

open Sys2Proof.Claims

/-! ## A due peg -/

theorem duePeg_of_due {s : State} {p : PitchId} {act : Byte} {g : Peg} (h : Due s p act g) : (s.pitch p).duePeg = some g := by
  simp [Pitch.duePeg, h.running, h.active, h.free, h.full, h.next, h.reached]

/-- A due peg fires: NEXT_PEG advances, then its action. -/
theorem firePeg_of_due {s : State} {p : PitchId} {act : Byte} {g : Peg} (h : Due s p act g) (f : Peg → State → State) :
    live s (fun s => s.firePeg p act f) = .next (f g (s.setPitch p (Fired (s.pitch p)))) := by
  rw [live_next _ _ h.up, State.firePeg, duePeg_of_due h]
  simp only [h.act, if_true]
  rfl

theorem onlyPitch_setPitch (s : State) (p : PitchId) (x : Pitch) : OnlyPitch p s (s.setPitch p x) :=
  ⟨rfl, fun _ hq => State.pitch_setPitch_ne _ _ _ _ hq⟩

theorem onlyPitch_trans {p : PitchId} {s t u : State} (h : OnlyPitch p s t) (h' : OnlyPitch p t u) : OnlyPitch p s u :=
  ⟨h'.1.trans (by rw [h.1]), fun q hq => (h'.2 q hq).trans (h.2 q hq)⟩

/-- A due peg whose action changes its pitch alone. -/
theorem firePeg_pitch {s : State} {p : PitchId} {act : Byte} {g : Peg} (h : Due s p act g) {f : Peg → State → State} {x : Pitch}
    (hf : f g (s.setPitch p (Fired (s.pitch p))) = (s.setPitch p (Fired (s.pitch p))).setPitch p x) :
    ∃ t, live s (fun s => s.firePeg p act f) = .next t ∧ OnlyPitch p s t ∧ t.pitch p = x := by
  refine ⟨_, firePeg_of_due h f, ?_, ?_⟩
  · rw [hf]
    exact onlyPitch_trans (onlyPitch_setPitch s p _) (onlyPitch_setPitch _ p x)
  · rw [hf, State.pitch_setPitch]

/-! ## START_STATS -/

theorem Pitch.counter_bucketFuse (x : Pitch) : (x.count .bucketFuse).counter .bucketFuse = x.counter .bucketFuse + 1 :=
  Pitch.counter_count x (c := .bucketFuse) (by decide) (by decide) 1

theorem Pitch.ndcBits_bucketFuse (x : Pitch) : (x.count .bucketFuse).counter .ndcBits = x.counter .ndcBits + 1 := by
  have hbits : x.count .bucketFuse = (x.addOne .bucketFuse 1).addOne .ndcBits 1 := rfl
  rw [hbits, Pitch.counter_addOne, Pitch.counter_addOne_ne _ _ _ _ (by decide)]
  rfl

section
variable {s : State} {p : PitchId} {g : Peg} {r : BucketRun}

theorem startStats_alone (h : Due s p 1 g) {fuse : Bool}
    (halone : fuse = false ∨ ∀ r ∈ (s.pitch p).runs, (s.pitch p).mayFuse p r g.arg0.toNat = false) :
    ∃ t, exec (.startStats p fuse) s = .next t ∧ OnlyPitch p s t ∧ t.pitch p = { Fired (s.pitch p) with
      runs := (s.pitch p).runs ++ [{ bucket := g.arg0.toNat, parts := [g.arg0.toNat], seq := (s.pitch p).time.nextPeg }] } := by
  have hnone : (Fired (s.pitch p)).runs.find? (fun r => fuse && (Fired (s.pitch p)).mayFuse p r g.arg0.toNat) = none := by
    refine List.find?_eq_none.mpr fun r hr => ?_
    rcases halone with hoff | hruns
    · simp [hoff]
    · have hkeeps : (Fired (s.pitch p)).mayFuse p r g.arg0.toNat = false := hruns r hr
      simp [hkeeps]
  refine firePeg_pitch h ?_
  simp only [State.startStatsPeg, State.pitch_setPitch, hnone]
  rfl

/-- The run that a bucket fuses with, where it is the only one. -/
theorem fusesWith (hone : (s.pitch p).runs = [r]) (hfuse : (s.pitch p).mayFuse p r g.arg0.toNat = true) :
    (Fired (s.pitch p)).runs.find? (fun r => true && (Fired (s.pitch p)).mayFuse p r g.arg0.toNat) = some r := by
  have hruns : (Fired (s.pitch p)).runs = [r] := hone
  have hmay : (Fired (s.pitch p)).mayFuse p r g.arg0.toNat = true := hfuse
  rw [hruns]
  simp [hmay]

theorem startStats_lowrank (h : Due s p 1 g) (hone : (s.pitch p).runs = [r]) (hfuse : (s.pitch p).mayFuse p r g.arg0.toNat = true)
    (hlow : r.isLow (s.pitch p) = true) :
    ∃ t, exec (.startStats p true) s = .next t ∧ OnlyPitch p s t ∧
      t.pitch p = { Fired (s.pitch p) with
        runs := [r, { bucket := g.arg0.toNat, parts := [g.arg0.toNat], seq := r.seq }], counters := (t.pitch p).counters } ∧
      (t.pitch p).counter .bucketFuse = (s.pitch p).counter .bucketFuse + 1 := by
  have hlow' : r.isLow (Fired (s.pitch p)) = true := hlow
  obtain ⟨t, hrun, honly, hpitch⟩ := firePeg_pitch h (f := fun g s => s.startStatsPeg p true g)
    (x := Pitch.count { Fired (s.pitch p) with
      runs := (Fired (s.pitch p)).runs ++ [{ bucket := g.arg0.toNat, parts := [g.arg0.toNat], seq := r.seq }] } .bucketFuse) (by
      simp only [State.startStatsPeg, State.pitch_setPitch, fusesWith hone hfuse, hlow', if_true])
  refine ⟨t, hrun, honly, ?_, ?_⟩
  · rw [hpitch, Pitch.count_rest]
    simp [Fired, hone]
  · rw [hpitch, Pitch.counter_bucketFuse]
    rfl

theorem startStats_fused (h : Due s p 1 g) (hone : (s.pitch p).runs = [r]) (hfuse : (s.pitch p).mayFuse p r g.arg0.toNat = true)
    (hlow : r.isLow (s.pitch p) = false) :
    ∃ t, exec (.startStats p true) s = .next t ∧ OnlyPitch p s t ∧
      t.pitch p = { Fired (s.pitch p) with runs := [{ r with parts := r.parts ++ [g.arg0.toNat] }], counters := (t.pitch p).counters } ∧
      (t.pitch p).counter .bucketFuse = (s.pitch p).counter .bucketFuse + 1 ∧
      (t.pitch p).counter .ndcBits = (s.pitch p).counter .ndcBits + 1 := by
  have hlow' : r.isLow (Fired (s.pitch p)) = false := hlow
  obtain ⟨t, hrun, honly, hpitch⟩ := firePeg_pitch h (f := fun g s => s.startStatsPeg p true g)
    (x := ((Fired (s.pitch p)).setRun { r with parts := r.parts ++ [g.arg0.toNat] }).count .bucketFuse) (by
      simp only [State.startStatsPeg, State.pitch_setPitch, fusesWith hone hfuse, hlow', Bool.false_eq_true, if_false])
  refine ⟨t, hrun, honly, ?_, ?_, ?_⟩
  · rw [hpitch, Pitch.count_rest]
    simp [Pitch.setRun, Fired, hone, replaceFirst]
  · rw [hpitch, Pitch.counter_bucketFuse]
    rfl
  · rw [hpitch, Pitch.ndcBits_bucketFuse]
    rfl

end

/-! ## Windows -/

theorem Pitch.endWindow_ended (x : Pitch) (now : Nat) : WindowEnded now x (x.endWindow now) := by
  refine ⟨fun hshut => by simp [Pitch.endWindow, hshut], fun hopen => ?_⟩
  have hshut : x.endWindow now = { x.count .winOverrun (x.tx.lps.toList.filter (Overruns now (x.tx.opened - 1))).length with
      time := { (x.count .winOverrun (x.tx.lps.toList.filter (Overruns now (x.tx.opened - 1))).length).time with windowOpen := false }
      tx := { (x.count .winOverrun (x.tx.lps.toList.filter (Overruns now (x.tx.opened - 1))).length).tx with
        lps := (x.count .winOverrun (x.tx.lps.toList.filter (Overruns now (x.tx.opened - 1))).length).tx.lps.map (fun l =>
          if Overruns now (x.tx.opened - 1) l then { l with overran := l.overran ++ [x.tx.opened - 1] } else l) } } := by
    simp only [Pitch.endWindow, hopen]
    rfl
  have hcount := Pitch.counter_count x (c := .winOverrun) (by decide) (by decide)
    (x.tx.lps.toList.filter (Overruns now (x.tx.opened - 1))).length
  rw [hshut]
  generalize (x.tx.lps.toList.filter (Overruns now (x.tx.opened - 1))).length = n at hcount ⊢
  refine ⟨?_, hcount⟩
  rw [Pitch.count_rest]

/-! ## BARRIER -/

theorem Pitch.gbar_key (x : Pitch) (lo : W16) (ord : Nat) : (x.gbar lo ord).stepLo = lo ∧ (x.gbar lo ord).ordinal = ord := by
  unfold Pitch.gbar
  cases hfind : x.gbars.find? (fun b => b.stepLo = lo && b.ordinal = ord) with
  | none => exact ⟨rfl, rfl⟩
  | some b => simpa using List.find?_some hfind

/-- The record of a group barrier reads back as it was set. -/
theorem Pitch.gbar_setGbar (x : Pitch) (b : GroupBarrier) : (x.setGbar b).gbar b.stepLo b.ordinal = b := by
  simp only [Pitch.gbar, Pitch.setGbar]
  rw [find?_upsert (by simp)]
  rfl

theorem Pitch.enqueues (fs : List TxFrame) (x : Pitch) : ∃ txq, fs.foldl Pitch.enqueue x = { x with tx := { x.tx with txq := txq } } := by
  induction fs generalizing x with
  | nil => exact ⟨x.tx.txq, rfl⟩
  | cons f fs ih => exact ih (x.enqueue f)

/-- A rank 0 of a group of one has no children in the barrier's tree. -/
theorem children_of_alone {x : Pitch} (hrank : x.rank = 0) (hsize : x.size ≤ 1) : x.children = [] := by
  refine List.filter_eq_nil_iff.mpr fun c hc => ?_
  obtain ⟨j, -, hj⟩ := List.mem_flatMap.mp hc
  obtain ⟨d, -, rfl⟩ := List.mem_map.mp hj
  have hpow : 0 < (d + 1) * 16 ^ j := Nat.mul_pos (Nat.succ_pos d) (by positivity)
  simp only [hrank, decide_eq_true_eq]
  omega

/-- Pitch y is x but for its group barriers and what it queues for sending. -/
def BarrierFrame (x y : Pitch) : Prop := y = { x with gbars := y.gbars, tx := { x.tx with txq := y.tx.txq } }

/-- What progress of a group barrier leaves: its record is fired as before, and for a rank 0 alone the release is fixed. -/
theorem State.barrierProgress_spec (s : State) (p : PitchId) (lo : W16) (ord : Nat) : ∃ y,
    s.barrierProgress p lo ord = s.setPitch p y ∧ BarrierFrame (s.pitch p) y ∧ (y.gbar lo ord).fired = ((s.pitch p).gbar lo ord).fired ∧
    (((s.pitch p).gbar lo ord).fired = true → (s.pitch p).rank = 0 → (s.pitch p).size ≤ 1 → ((s.pitch p).gbar lo ord).sentUp = false →
      (y.gbar lo ord).release = some (0, s.cclk + 1)) := by
  obtain ⟨hlo, hord⟩ := (s.pitch p).gbar_key lo ord
  have hset : ∀ (x : Pitch) (up : Bool) (at' : Option (Nat × Nat)),
      (x.setGbar { (s.pitch p).gbar lo ord with sentUp := up, release := at' }).gbar lo ord =
      { (s.pitch p).gbar lo ord with sentUp := up, release := at' } := by
    intro x up at'
    have hread := x.gbar_setGbar { (s.pitch p).gbar lo ord with sentUp := up, release := at' }
    rwa [hlo, hord] at hread
  unfold State.barrierProgress
  extract_lets x b y time y'
  split
  · split
    · next hrank =>
      refine ⟨_, rfl, rfl, ?_, fun _ hzero => absurd hzero hrank⟩
      exact (congrArg GroupBarrier.fired (hset x true b.release) :)
    · split
      · refine ⟨_, rfl, rfl, ?_, fun _ _ _ _ => ?_⟩
        · exact (congrArg GroupBarrier.fired (hset y true (some (0, s.cclk + 1))) :)
        · exact (congrArg GroupBarrier.release (hset y true (some (0, s.cclk + 1))) :)
      · next hsize =>
        obtain ⟨txq, htxq⟩ := Pitch.enqueues (x.children.map fun c => barrierFrame c lo ord 1 time) y'
        rw [List.foldl_map] at htxq
        refine ⟨_, congrArg (s.setPitch p) htxq, rfl, ?_, fun _ _ hone => absurd hone hsize⟩
        exact (congrArg GroupBarrier.fired (hset y true (some (time, s.cclk + 1))) :)
  · next hwait =>
    refine ⟨s.pitch p, (s.setPitch_self p).symm, rfl, rfl, fun hfired hrank hone hfresh => absurd ?_ hwait⟩
    have hnone : x.children = [] := children_of_alone hrank hone
    simp [b, x, hfired, hfresh, hnone]

section
variable {s : State} {p : PitchId} {g : Peg}

theorem barrier_package (h : Due s p 4 g) (hscope : g.arg0.getLsbD 0 = false) :
    ∃ t, exec (.barrier p) s = .next t ∧ OnlyPitch p s t ∧ t.pitch p = { s.pitch p with time := { (s.pitch p).time with
      nextPeg := (s.pitch p).time.nextPeg + 1, barrier := some false, barriers := (s.pitch p).time.barriers + 1 } } := by
  refine firePeg_pitch h ?_
  simp only [State.barrierPeg, hscope, State.pitch_setPitch]
  rfl

/-- The pitch at a scope-1 barrier, before what its fired peg moves on. -/
def Pitch.atBarrier (x : Pitch) : Pitch :=
  let y := { x with time := { x.time with nextPeg := x.time.nextPeg + 1, barrier := some true, barriers := x.time.barriers + 1 } }
  y.setGbar { x.gbar x.stepLo x.time.barriers with fired := true }

theorem Pitch.atBarrier_gbar (x : Pitch) :
    x.atBarrier.gbar x.stepLo x.time.barriers = { x.gbar x.stepLo x.time.barriers with fired := true } := by
  obtain ⟨hlo, hord⟩ := x.gbar_key x.stepLo x.time.barriers
  have hread := Pitch.gbar_setGbar
    { x with time := { x.time with nextPeg := x.time.nextPeg + 1, barrier := some true, barriers := x.time.barriers + 1 } }
    { x.gbar x.stepLo x.time.barriers with fired := true }
  rwa [hlo, hord] at hread

theorem barrier_group (h : Due s p 4 g) (hscope : g.arg0.getLsbD 0 = true) : ∃ t, exec (.barrier p) s = .next t ∧ OnlyPitch p s t ∧
    (t.pitch p).time = { (s.pitch p).time with
      nextPeg := (s.pitch p).time.nextPeg + 1, barrier := some true, barriers := (s.pitch p).time.barriers + 1 } ∧
    t.pitch p = { s.pitch p with time := (t.pitch p).time, gbars := (t.pitch p).gbars
                                 tx := { (s.pitch p).tx with txq := (t.pitch p).tx.txq } } ∧
    ((t.pitch p).gbar (s.pitch p).stepLo (s.pitch p).time.barriers).fired = true ∧
    ((s.pitch p).rank = 0 → (s.pitch p).size ≤ 1 → ((s.pitch p).gbar (s.pitch p).stepLo (s.pitch p).time.barriers).sentUp = false →
      ((t.pitch p).gbar (s.pitch p).stepLo (s.pitch p).time.barriers).release = some (0, s.cclk + 1)) := by
  let fired := s.setPitch p (Fired (s.pitch p))
  obtain ⟨y, hprogress, hframe, hfired, hrelease⟩ :=
    (fired.setPitch p (s.pitch p).atBarrier).barrierProgress_spec p (s.pitch p).stepLo (s.pitch p).time.barriers
  rw [State.pitch_setPitch, Pitch.atBarrier_gbar] at hfired hrelease
  rw [State.pitch_setPitch] at hframe
  obtain ⟨t, hrun, honly, hpitch⟩ := firePeg_pitch h (f := fun g s => s.barrierPeg p g) (x := y) (by
    simp only [State.barrierPeg, hscope, State.pitch_setPitch, if_true]
    refine Eq.trans hprogress ?_
    simp [fired, State.setPitch])
  rw [BarrierFrame] at hframe
  refine ⟨t, hrun, honly, ?_⟩
  rw [hpitch]
  exact ⟨by rw [hframe]; rfl, by rw [hframe]; rfl, hfired, fun hrank hsize hfresh => hrelease rfl hrank hsize hfresh⟩

/-! ## The other pegs -/

theorem openWindow_spec (h : Due s p 2 g) : ∃ t y, exec (.openWindow p) s = .next t ∧ OnlyPitch p s t ∧
    WindowEnded s.cclk (Fired (s.pitch p)) y ∧
    t.pitch p = { y with time := { y.time with windowOpen := true }, tx := { y.tx with opened := y.tx.opened + 1 } } := by
  obtain ⟨t, hrun, honly, hpitch⟩ := firePeg_pitch h (f := fun g s => s.openPeg p g) rfl
  refine ⟨t, _, hrun, honly, Pitch.endWindow_ended _ _, ?_⟩
  rw [hpitch, State.pitch_setPitch]
  rfl

theorem closeWindow_spec (h : Due s p 3 g) : ∃ t, exec (.closeWindow p) s = .next t ∧ OnlyPitch p s t ∧
    WindowEnded s.cclk (Fired (s.pitch p)) (t.pitch p) := by
  obtain ⟨t, hrun, honly, hpitch⟩ := firePeg_pitch h (f := fun g s => s.closePeg p g) rfl
  refine ⟨t, hrun, honly, ?_⟩
  rw [hpitch, State.pitch_setPitch]
  exact Pitch.endWindow_ended _ _

theorem checkpoint_spec (h : Due s p 5 g) : ∃ t, exec (.checkpoint p) s = .next t ∧ OnlyPitch p s t ∧
    t.pitch p = { s.pitch p with time := { (s.pitch p).time with nextPeg := (s.pitch p).time.nextPeg + 1, ckptArmed := true } } := by
  refine firePeg_pitch h ?_
  rw [State.checkpointPeg, State.modPitch, State.pitch_setPitch]
  rfl

theorem exportSnapshot_spec (h : Due s p 6 g) : ∃ t, exec (.exportSnapshot p) s = .next t ∧ OnlyPitch p s t ∧
    t.pitch p = { s.pitch p with time := { (s.pitch p).time with
      nextPeg := (s.pitch p).time.nextPeg + 1
      exports := if g.arg0.toNat ∈ (s.pitch p).time.exports then (s.pitch p).time.exports
                 else (s.pitch p).time.exports ++ [g.arg0.toNat] } } := by
  refine firePeg_pitch h ?_
  rw [State.exportPeg, State.modPitch, State.pitch_setPitch]
  rfl

theorem endStep_spec (h : Due s p 7 g) : ∃ t y, exec (.endStep p) s = .next t ∧ OnlyPitch p s t ∧
    WindowEnded s.cclk (Fired (s.pitch p)) y ∧ t.pitch p = { y with time := { y.time with state := .draining } } := by
  obtain ⟨t, hrun, honly, hpitch⟩ := firePeg_pitch h (f := fun g s => s.endPeg p g) rfl
  refine ⟨t, _, hrun, honly, Pitch.endWindow_ended _ _, ?_⟩
  rw [hpitch, State.pitch_setPitch]
  rfl

end

end Sys2Proof.Machine
end

