-- ==== Sys2Proof/Proofs/BarrierReleases.lean ====
section
/-! PROOF. Barrier releases, of a group and of the package (10 R247; 16 R345 to R348; 17 R376). -/

namespace Sys2Proof.Machine

open Sys2Proof.Claims

/-! ## A message to several host ports -/

/-- The host ports alone changed, and of them neither the modules that work nor anything but what has left. -/
def HostsTold (s t : State) (out : List HostOut) : Prop :=
  t = { s with hostOut := t.hostOut, hostPorts := t.hostPorts } ∧ t.hostOut = s.hostOut ++ out ∧
    t.hostPorts.map HostPortSt.modules = s.hostPorts.map HostPortSt.modules

theorem HostsTold.trans {s t u : State} {out out' : List HostOut} (h : HostsTold s t out) (h' : HostsTold t u out') :
    HostsTold s u (out ++ out') := by
  obtain ⟨hrest, hout, hmodules⟩ := h
  obtain ⟨hrest', hout', hmodules'⟩ := h'
  refine ⟨hrest'.trans (by rw [hrest]), ?_, hmodules'.trans hmodules⟩
  rw [hout', hout, List.append_assoc]

theorem State.sendHost_told (s : State) (h : HostPort) (m : HostMsg) :
    HostsTold s (s.sendHost h m) (([h].filter s.hostUp).map (⟨·, m⟩)) := by
  unfold State.sendHost
  cases hup : s.hostUp h with
  | false => exact ⟨rfl, by simp [hup], rfl⟩
  | true => exact ⟨rfl, by simp [hup], modules_set (HostPortSt.send_modules _ _)⟩

theorem HostsTold.hostUp {s t : State} {out : List HostOut} (h : HostsTold s t out) : t.hostUp = s.hostUp :=
  funext (hostUp_congr h.2.2)

/-- A message to each of several ports leaves on those that are up, in order. -/
theorem sendHosts_told (m : HostMsg) (hs : List HostPort) (s : State) :
    HostsTold s (hs.foldl (fun s h => s.sendHost h m) s) ((hs.filter s.hostUp).map (⟨·, m⟩)) := by
  induction hs generalizing s with
  | nil => exact ⟨rfl, (List.append_nil _).symm, rfl⟩
  | cons h hs ih =>
    have hfirst := s.sendHost_told h m
    have hrest := hfirst.trans (ih (s.sendHost h m))
    rw [hfirst.hostUp, ← List.map_append, ← List.filter_append] at hrest
    exact hrest

theorem State.sendBound_told (s : State) (p : PitchId) (m : HostMsg) :
    HostsTold s (s.sendBound p m) (((s.pitch p).ports.filter s.hostUp).map (⟨·, m⟩)) := sendHosts_told m _ s

/-! ## One release -/

/-- The pitch once its pegs go on. -/
def Pitch.unheld (x : Pitch) : Pitch := { x with time := { x.time with barrier := none } }

/-- What tells each bound port of pitch p that is up of its release. -/
def releaseOut (s : State) (p : PitchId) (group : Bool) : List HostOut :=
  ((s.pitch p).ports.filter s.hostUp).map (fun h => ⟨h, .release p group (s.pitch p).stepLo ((s.pitch p).time.barriers - 1)⟩)

theorem State.releaseBarrier_told (s : State) (p : PitchId) (group : Bool) :
    HostsTold (s.setPitch p (s.pitch p).unheld) (s.releaseBarrier p group) (releaseOut s p group) := by
  have htold := (s.setPitch p (s.pitch p).unheld).sendBound_told p (.release p group (s.pitch p).stepLo ((s.pitch p).time.barriers - 1))
  rw [State.pitch_setPitch] at htold
  exact htold

theorem HostsTold.pitch {s t : State} {out : List HostOut} (h : HostsTold s t out) (q : PitchId) : t.pitch q = s.pitch q := by
  rw [h.1]
  rfl

/-! ## Group barriers -/

/-- The pitch as its group barrier is released. -/
def Pitch.groupReleased (x : Pitch) (b : GroupBarrier) (unlocked : Bool) : Pitch :=
  let y := if unlocked then x.count .barUnlocked else x
  { y with gbars := y.gbars.filter (fun c => c.stepLo ≠ b.stepLo || c.ordinal ≠ b.ordinal) }

theorem Pitch.groupReleased_spec (x : Pitch) (b : GroupBarrier) (unlocked : Bool) :
    x.groupReleased b unlocked =
      { x with gbars := (x.groupReleased b unlocked).gbars, counters := (x.groupReleased b unlocked).counters } ∧
    (x.groupReleased b unlocked).counter .barUnlocked = x.counter .barUnlocked + (if unlocked then 1 else 0) := by
  cases unlocked with
  | false => exact ⟨rfl, (BitVec.add_zero _).symm⟩
  | true =>
    refine ⟨?_, Pitch.counter_count x (c := .barUnlocked) (by decide) (by decide) 1⟩
    simp only [Pitch.groupReleased, if_true]
    rw [Pitch.count_rest]

theorem barrierReleaseTime_spec {s : State} (hup : s.held = false) {p : PitchId} {time earliest : Nat}
    (hwaits : (s.pitch p).time.barrier = some true)
    (hrelease : ((s.pitch p).gbar (s.pitch p).stepLo ((s.pitch p).time.barriers - 1)).release = some (time, earliest)) :
    ∃ t, exec (.barrierReleaseTime p) s = .next t ∧
      t.cclk = max s.cclk (if (s.pitch p).size ≤ 1 then earliest else max earliest (s.cclkAt time)) ∧
      t = { s with cclk := t.cclk, pitches := t.pitches, hostOut := t.hostOut, hostPorts := t.hostPorts } ∧
      (∀ q, q ≠ p → t.pitch q = s.pitch q) ∧
      t.pitch p = { s.pitch p with time := { (s.pitch p).time with barrier := none }, gbars := (t.pitch p).gbars
                                   counters := (t.pitch p).counters } ∧
      (t.pitch p).counter .barUnlocked =
        (s.pitch p).counter .barUnlocked + (if 1 < (s.pitch p).size ∧ s.ptp.locked = false then 1 else 0) ∧
      t.hostOut = s.hostOut ++ ((s.pitch p).ports.filter s.hostUp).map (fun h =>
        ⟨h, .release p true (s.pitch p).stepLo ((s.pitch p).time.barriers - 1)⟩) := by
  let b := (s.pitch p).gbar (s.pitch p).stepLo ((s.pitch p).time.barriers - 1)
  let unlocked := decide (1 < (s.pitch p).size) && !s.ptp.locked
  let moment := if (s.pitch p).size ≤ 1 then earliest else max earliest (s.cclkAt time)
  obtain ⟨hrest, hcounter⟩ := (s.pitch p).groupReleased_spec b unlocked
  have hrun : exec (.barrierReleaseTime p) s =
      .next (((s.advanceTo moment).setPitch p ((s.pitch p).groupReleased b unlocked)).releaseBarrier p true) := by
    refine (live_next s (fun s => s.barrierReleaseTimeOp p) hup).trans ?_
    simp only [State.barrierReleaseTimeOp, hwaits, hrelease]
    rfl
  generalize (s.pitch p).groupReleased b unlocked = x at hrest hcounter hrun
  have htold := ((s.advanceTo moment).setPitch p x).releaseBarrier_told p true
  have hout : releaseOut ((s.advanceTo moment).setPitch p x) p true = releaseOut s p true := by
    rw [releaseOut, State.pitch_setPitch, hrest]
    rfl
  rw [hout, State.pitch_setPitch] at htold
  generalize ((s.advanceTo moment).setPitch p x).releaseBarrier p true = t at htold hrun
  have hpitch : t.pitch p = x.unheld := (htold.pitch p).trans (State.pitch_setPitch _ _ _)
  refine ⟨t, hrun, ?_, ?_, fun q hq => ?_, ?_, ?_, htold.2.1⟩
  · rw [htold.1]
    rfl
  · rw [htold.1]
    rfl
  · rw [htold.pitch, State.pitch_setPitch_ne _ _ _ _ hq, State.pitch_setPitch_ne _ _ _ _ hq]
    rfl
  · rw [hpitch, Pitch.unheld, hrest]
  · rw [hpitch]
    refine Eq.trans hcounter ?_
    simp [unlocked]

/-! ## Package barriers -/

/-- The release of several pitches, one after another. -/
theorem releaseBarriers_spec (ps : List PitchId) (hnodup : ps.Nodup) (s : State) :
    let t := ps.foldl (fun s p => s.releaseBarrier p false) s
    t = { s with pitches := t.pitches, hostOut := t.hostOut, hostPorts := t.hostPorts } ∧
    (∀ q, t.pitch q = if q ∈ ps then (s.pitch q).unheld else s.pitch q) ∧
    t.hostOut = s.hostOut ++ ps.flatMap (fun p => releaseOut s p false) := by
  induction ps generalizing s with
  | nil => exact ⟨rfl, fun q => by simp, by simp⟩
  | cons p ps ih =>
    obtain ⟨hp, hps⟩ := List.nodup_cons.mp hnodup
    have htold := s.releaseBarrier_told p false
    rw [List.foldl_cons]
    generalize s.releaseBarrier p false = u at htold
    have hu : ∀ q, u.pitch q = if q = p then (s.pitch q).unheld else s.pitch q := by
      intro q
      rw [htold.pitch]
      split
      · next h => rw [h, State.pitch_setPitch]
      · next h => rw [State.pitch_setPitch_ne _ _ _ _ h]
    have hothers : ∀ q ∈ ps, releaseOut u q false = releaseOut s q false := by
      intro q hq
      have hne : q ≠ p := fun e => hp (e ▸ hq)
      have hup : u.hostUp = s.hostUp := htold.hostUp
      rw [releaseOut, releaseOut, hu, if_neg hne, hup]
    obtain ⟨krest, kpitch, kout⟩ := ih hps u
    refine ⟨krest.trans (by rw [htold.1]; rfl), fun q => ?_, ?_⟩
    · rw [kpitch, hu]
      by_cases hq : q = p
      · simp [hq, hp]
      · simp [hq]
    · rw [kout, htold.2.1, List.append_assoc, List.flatMap_cons, List.flatMap_congr hothers]
      rfl

section
variable {s : State} (hup : s.held = false) {set : BitVec 12}
include hup

theorem packageRelease_all (hset : set ≠ 0)
    (hall : ∀ p : PitchId, set.getLsbD p.val = true → (s.pitch p).time.barrier = some false ∧ (s.pitch p).cfg p 0x12 = set.toNat) :
    ∃ t, exec (.packageBarrierRelease set) s = .next t ∧
      t = { s with cclk := s.cclk + 1, pitches := t.pitches, hostOut := t.hostOut, hostPorts := t.hostPorts } ∧
      (∀ p : PitchId, t.pitch p = if set.getLsbD p.val = true then
        { s.pitch p with time := { (s.pitch p).time with barrier := none } } else s.pitch p) ∧
      t.hostOut = s.hostOut ++ (allPitches.filter (fun p => set.getLsbD p.val)).flatMap (fun p =>
        ((s.pitch p).ports.filter s.hostUp).map (fun h => ⟨h, .release p false (s.pitch p).stepLo ((s.pitch p).time.barriers - 1)⟩)) := by
  let ps := allPitches.filter (fun p => set.getLsbD p.val)
  have hmem : ∀ p, p ∈ ps ↔ set.getLsbD p.val = true := fun p => by simp [ps, allPitches]
  have hsome : ps.isEmpty = false := by
    rw [Bool.eq_false_iff]
    intro hempty
    refine hset (BitVec.eq_of_getLsbD_eq fun i hi => ?_)
    have hout : (⟨i, hi⟩ : PitchId) ∉ ps := by rw [List.isEmpty_iff.mp hempty]; exact List.not_mem_nil
    rw [hmem] at hout
    simpa using hout
  have hguard : (!ps.isEmpty && ps.all (fun p => (s.pitch p).time.barrier = some false && (s.pitch p).cfg p 0x12 = set.toNat)) = true := by
    rw [hsome]
    refine List.all_eq_true.mpr fun p hp => ?_
    obtain ⟨hwaits, hnames⟩ := hall p ((hmem p).mp hp)
    simp [hwaits, hnames]
  have hrun : exec (.packageBarrierRelease set) s = .next (ps.foldl (fun s p => s.releaseBarrier p false) (s.advanceTo (s.cclk + 1))) :=
    (live_next s (fun s => s.packageReleaseOp set) hup).trans (congrArg Host.Outcome.next (if_pos hguard))
  obtain ⟨hrest, hpitch, hout⟩ := releaseBarriers_spec ps ((List.nodup_finRange 12).filter _) (s.advanceTo (s.cclk + 1))
  have hclock : max s.cclk (s.cclk + 1) = s.cclk + 1 := by omega
  refine ⟨_, hrun, hrest.trans ?_, fun p => ?_, hout⟩
  · rw [State.advanceTo, hclock]
  · rw [hpitch]
    simp only [hmem]
    rfl

theorem packageRelease_other {p : PitchId} (hp : set.getLsbD p.val = true)
    (hother : (s.pitch p).time.barrier ≠ some false ∨ (s.pitch p).cfg p 0x12 ≠ set.toNat) :
    exec (.packageBarrierRelease set) s = .next s := by
  refine (live_next s (fun s => s.packageReleaseOp set) hup).trans (congrArg Host.Outcome.next (if_neg fun hguard => ?_))
  rw [Bool.and_eq_true, List.all_eq_true] at hguard
  have hwaits := hguard.2 p (by simp [allPitches, hp])
  rw [Bool.and_eq_true, decide_eq_true_eq, decide_eq_true_eq] at hwaits
  exact hother.elim (· hwaits.1) (· hwaits.2)

end

/-- Settles O33: each peg by the action it has, each release by the ports it tells. -/
theorem pegsAndBarriers : Obligations.PegsAndBarriers :=
  ⟨fun _ _ _ => ⟨fun _ h => startStats_alone h, fun _ => startStats_lowrank, fun _ => startStats_fused, openWindow_spec, closeWindow_spec,
    barrier_package, barrier_group, checkpoint_spec, exportSnapshot_spec, endStep_spec⟩,
  fun _ hup => ⟨fun _ _ _ => barrierReleaseTime_spec hup, fun _ => packageRelease_all hup, fun _ _ => packageRelease_other hup⟩⟩

end Sys2Proof.Machine
end

