-- ==== Sys2Proof/Proofs/StepsBeginning.lean ====
section
/-! PROOF. The start of a step: what prepares it leaves its inputs, and what judges it leaves the rest of the pitch (03 R56; 14 R306,
R307, R312 to R314). -/

namespace Sys2Proof.Machine

open Sys2Proof.Claims

/-! ## Notices -/

theorem State.notice_frame (s : State) (p : PitchId) (code : Nat) (args : Bytes) : MailFrame p s (s.notice p code args) := by
  unfold State.notice
  extract_lets x n e
  split
  · exact MailFrame.refl p s
  · split
    · exact MailFrame.setPitch s p _
    · refine (MailFrame.setPitch s p _).trans (MailFrame.writeResp _ p e ?_)
      simp [e, length_leBytes, length_padTo]

/-! ## What the judging of a step leaves -/

/-- A pitch beside what the judging of its step changes: the norm, the verdict, the averages of the spike tests, counters, and what
passes between it and its hosts. -/
def Pitch.stepPart (x : Pitch) : Pitch :=
  { x with
    guard := { x.guard with norm := none, cf := 0, verdict := none, normEma := 0, normCount := 0, lossEma := 0, lossCount := 0 }
    counters := [], mail := {}, queues := {} }

/-- What the judging of pitch p's step leaves of it, and the Erg registers. -/
def stepKey (p : PitchId) (s : State) : Pitch × Sparse W640 := ((s.pitch p).stepPart, s.erg)

theorem Pitch.stepPart_count (x : Pitch) (c : PCtr) (n : Nat) : (x.count c n).stepPart = x.stepPart := by
  rw [Pitch.count_rest]
  rfl

section
variable (s : State) (p : PitchId)

/-- Setting the pitch to one with the same part for its step. -/
theorem stepKey_setPitch {x : Pitch} (h : x.stepPart = (s.pitch p).stepPart) : stepKey p (s.setPitch p x) = stepKey p s := by
  rw [stepKey, State.pitch_setPitch, h]
  rfl

theorem stepKey_modPitch (f : Pitch → Pitch) (h : ∀ x, (f x).stepPart = x.stepPart) : stepKey p (s.modPitch p f) = stepKey p s :=
  stepKey_setPitch s p (h (s.pitch p))

theorem stepKey_of_told {t : State} (h : Told p s t) : stepKey p t = stepKey p s := by
  have hown := h.own
  rw [PitchIs] at hown
  rw [stepKey, hown, h.rest]
  rfl

theorem stepKey_modRetained (f : Retained → Retained) : stepKey p (s.modRetained p f) = stepKey p s := rfl

theorem stepKey_notice (code : Nat) (args : Bytes) : stepKey p (s.notice p code args) = stepKey p s :=
  stepKey_of_told s p (s.notice_told p code args)

theorem stepKey_spikeRun (kind : Nat) (lg : Int) : stepKey p (s.spikeRun p kind lg).2 = stepKey p s := by
  have hcount : ∀ (y : Pitch) (c : PCtr), y.stepPart = (s.pitch p).stepPart → (y.count c).stepPart = (s.pitch p).stepPart :=
    fun y c hy => (y.stepPart_count c 1).trans hy
  by_cases hkind : kind = 0
  all_goals
    simp only [State.spikeRun, hkind, if_true, if_false]
    rw [apply_ite Prod.snd]
    split
    · exact (stepKey_notice _ p _ _).trans (stepKey_setPitch s p (hcount _ _ rfl))
    · exact stepKey_setPitch s p rfl

theorem stepKey_spikeMaybe (kind : Nat) (lg : Option Int) : stepKey p (s.spikeMaybe p kind lg).2 = stepKey p s := by
  cases lg with
  | none => rfl
  | some lg => exact stepKey_spikeRun s p kind lg

theorem stepKey_verdict (v : Option Nat) :
    stepKey p (s.modPitch p (fun x => { x with guard := { x.guard with verdict := v } })) = stepKey p s := stepKey_setPitch s p rfl

theorem stepKey_guardProgress : stepKey p (s.guardProgress p) = stepKey p s := by
  unfold State.guardProgress
  split
  · rfl
  · split
    · exact stepKey_verdict s p _
    · simp only [stepKey_verdict, stepKey_spikeMaybe]

theorem stepKey_takeNorm (sg : W640) : stepKey p (s.takeNorm p sg) = stepKey p s := by
  unfold State.takeNorm
  rw [stepKey_guardProgress]
  exact stepKey_modPitch s p _ fun _ => rfl

theorem stepKey_setCells (cs : List Nat) (v : CellPower) : stepKey p (s.setCells cs v) = stepKey p s := by
  rw [State.setCells_rest]
  generalize (s.setCells cs v).power = w
  rfl

theorem stepKey_drowseWake : stepKey p (s.drowseWake p) = stepKey p s := by
  unfold State.drowseWake
  split
  · exact stepKey_setCells s p _ _
  · rfl

end

/-! ## What the preparation of a step leaves -/

/-- A pitch beside that and what a checkpoint, a key rotation or a change of its group leaves. -/
def Pitch.stepInput (x : Pitch) : Pitch :=
  { x.stepPart with tx := {}, keys := {}, member := {}, ckSeq := 0, time := { x.time with ckptSlot := none } }

/-- What the preparation of a step leaves of pitch p, and the Erg registers. -/
def inputKey (p : PitchId) (s : State) : Pitch × Sparse W640 := ((s.pitch p).stepInput, s.erg)

theorem Pitch.stepInput_of_stepPart {x y : Pitch} (h : y.stepPart = x.stepPart) : y.stepInput = x.stepInput :=
  (congrArg (fun x : Pitch => { x with tx := {}, keys := {}, member := {}, ckSeq := 0, time := { x.time with ckptSlot := none } }) h :)

theorem Pitch.stepInput_count (x : Pitch) (c : PCtr) (n : Nat) : (x.count c n).stepInput = x.stepInput :=
  Pitch.stepInput_of_stepPart (x.stepPart_count c n)

section
variable (s : State) (p : PitchId)

theorem inputKey_setPitch {x : Pitch} (h : x.stepInput = (s.pitch p).stepInput) : inputKey p (s.setPitch p x) = inputKey p s := by
  rw [inputKey, State.pitch_setPitch, h]
  rfl

theorem inputKey_of_stepKey {t : State} (h : stepKey p t = stepKey p s) : inputKey p t = inputKey p s := by
  obtain ⟨hpart, herg⟩ := Prod.mk.inj h
  exact Prod.ext (Pitch.stepInput_of_stepPart hpart) herg

/-- What leaves the frame of an answer and the pitch beside its mailbox. -/
theorem stepKey_of_mail {t : State} (hframe : MailFrame p s t) (hpitch : PitchIs p t (s.pitch p)) : stepKey p t = stepKey p s := by
  rw [PitchIs] at hpitch
  rw [stepKey, hpitch, hframe.rest]
  rfl

theorem stepKey_respond (o : W16) (fl : Nat) (q : W32) (tag : W16) (r : Refuse) (b : Bytes) :
    stepKey p (s.respond p o fl q tag r b) = stepKey p s := by
  obtain ⟨hframe, hpitch, -⟩ := s.respond_spec p o fl q tag r b
  exact stepKey_of_mail s p hframe hpitch

theorem stepKey_foldl {α : Type} {f : State → α → State} (h : ∀ s a, stepKey p (f s a) = stepKey p s) (xs : List α) :
    stepKey p (xs.foldl f s) = stepKey p s := by
  induction xs generalizing s with
  | nil => rfl
  | cons x xs ih => rw [List.foldl_cons, ih, h]

theorem stepKey_answerOwed (why : CmdWait) (r : Refuse) (b : Bytes) : stepKey p (s.answerOwed p why r b) = stepKey p s := by
  unfold State.answerOwed
  extract_lets x due _ told
  rw [stepKey_foldl told p (f := fun s (o : Owed) => s.respond p o.opcode o.flags o.seq o.tag r b)
    (fun s o => stepKey_respond s p _ _ _ _ r b) due]
  exact stepKey_setPitch s p rfl

theorem stepKey_retain : stepKey p (s.retain p) = stepKey p s := by
  obtain ⟨hframe, hpitch⟩ := s.retain_spec p
  rw [stepKey, hpitch, hframe.rest]
  rfl

theorem Pitch.stepPart_countDelta (x : Pitch) (e : DirEntry) : (x.countDelta e).stepPart = x.stepPart :=
  x.stepPart_count _ 1

theorem Pitch.stepPart_countDeltas (es : List DirEntry) (x : Pitch) : (es.foldl Pitch.countDelta x).stepPart = x.stepPart := by
  induction es generalizing x with
  | nil => rfl
  | cons e es ih => rw [List.foldl_cons, ih, Pitch.stepPart_countDelta]

theorem inputKey_ckptFinish (k : Nat) : inputKey p (s.ckptFinish p k) = inputKey p s := by
  unfold State.ckptFinish
  extract_lets x a
  split
  extract_lets seq s1 s2 y _
  have hy : y.stepInput = x.stepInput :=
    Pitch.stepInput_of_stepPart ((Pitch.stepPart_countDeltas _ _).trans (x.stepPart_count .ckptMarks 1))
  exact inputKey_setPitch s2 p hy

theorem inputKey_ckptOwed : inputKey p (s.ckptOwed p) = inputKey p s := by
  unfold State.ckptOwed
  extract_lets x
  split
  · split
    · exact (inputKey_of_stepKey _ p ((stepKey_retain _ p).trans (stepKey_answerOwed _ p _ _ _))).trans (inputKey_ckptFinish s p _)
    · rfl
  · rfl

theorem Pitch.stepInput_rotateKeys (x : Pitch) (step : W64) : (x.rotateKeys step).stepInput = x.stepInput := by
  unfold Pitch.rotateKeys
  split
  · rw [Pitch.count_rest]
    rfl
  · rfl

theorem inputKey_rotateKeys (step : W64) : inputKey p (s.modPitch p (fun x => x.rotateKeys step)) = inputKey p s :=
  inputKey_setPitch s p ((s.pitch p).stepInput_rotateKeys step)

theorem inputKey_applyFuture (step : W64) : inputKey p (s.applyFuture p step) = inputKey p s := by
  unfold State.applyFuture
  extract_lets x m x' next s'
  split
  · rfl
  · rw [inputKey, State.eraseAll_rest]
    exact inputKey_setPitch s p rfl

/-! ## The start itself -/

/-- The state in which the step is set up: what a checkpoint owes is paid, keys and group are those of the step. -/
def State.prepared (step : W64) : State :=
  (((s.dropIngestReads p).ckptOwed p).modPitch p (fun x => x.rotateKeys step)).applyFuture p step

theorem inputKey_prepared (step : W64) : inputKey p (s.prepared p step) = inputKey p s := by
  rw [State.prepared, inputKey_applyFuture, inputKey_rotateKeys, inputKey_ckptOwed]
  rfl

end

/-- Pitch y has begun step v: its registers are those of x but for what a STEP_SET resets and latches (03 R56; 14 R312, R314). -/
structure Begun (v : W64) (x y : Pitch) : Prop where
  mode : y.mode = x.mode
  step : y.time.step = v
  cursor : y.time.cursor = 0
  state : y.time.state = .active
  nextPeg : y.time.nextPeg = 0
  barrier : y.time.barrier = none
  held : y.time.held = none
  boundary : y.time.boundary = false
  dropCause : y.time.dropCause = x.time.dropCause
  runs : y.runs = []
  ingests : y.ingests = []
  lrLatched : y.guard.lrLatched = x.guard.updLr
  bc2Latched : y.guard.bc2Latched = x.guard.updBc2
  lossSet : y.guard.lossSet = false
  lsStep : y.guard.lsStep = x.guard.lsExp
  lastVerdict : y.guard.lastVerdict = x.guard.lastVerdict
  numFlags : y.numFlags = x.numFlags
  eff : y.eff = x.eff

theorem Begun.of_stepPart {v : W64} {x y z : Pitch} (h : Begun v x y) (hz : z.stepPart = y.stepPart) : Begun v x z where
  mode := (congrArg Pitch.mode hz :).trans h.mode
  step := (congrArg (fun x => x.time.step) hz :).trans h.step
  cursor := (congrArg (fun x => x.time.cursor) hz :).trans h.cursor
  state := (congrArg (fun x => x.time.state) hz :).trans h.state
  nextPeg := (congrArg (fun x => x.time.nextPeg) hz :).trans h.nextPeg
  barrier := (congrArg (fun x => x.time.barrier) hz :).trans h.barrier
  held := (congrArg (fun x => x.time.held) hz :).trans h.held
  boundary := (congrArg (fun x => x.time.boundary) hz :).trans h.boundary
  dropCause := (congrArg (fun x => x.time.dropCause) hz :).trans h.dropCause
  runs := (congrArg Pitch.runs hz :).trans h.runs
  ingests := (congrArg Pitch.ingests hz :).trans h.ingests
  lrLatched := (congrArg (fun x => x.guard.lrLatched) hz :).trans h.lrLatched
  bc2Latched := (congrArg (fun x => x.guard.bc2Latched) hz :).trans h.bc2Latched
  lossSet := (congrArg (fun x => x.guard.lossSet) hz :).trans h.lossSet
  lsStep := (congrArg (fun x => x.guard.lsStep) hz :).trans h.lsStep
  lastVerdict := (congrArg (fun x => x.guard.lastVerdict) hz :).trans h.lastVerdict
  numFlags := (congrArg Pitch.numFlags hz :).trans h.numFlags
  eff := (congrArg Pitch.eff hz :).trans h.eff

theorem beginStep_spec (s : State) (p : PitchId) (v : W64) :
    Begun v (s.pitch p) ((s.beginStep p v).pitch p) ∧ (s.beginStep p v).erg = s.erg := by
  obtain ⟨hinput, herg⟩ := Prod.mk.inj (inputKey_prepared s p v)
  unfold State.beginStep
  extract_lets +onlyGivenNames ready x _ t _ g _ lock _ y begun
  have hx : x.stepInput = (s.pitch p).stepInput := hinput
  have hbegun : stepKey p begun = (y.stepPart, ready.erg) := by
    unfold begun
    rw [stepKey_drowseWake, stepKey_guardProgress, stepKey_modRetained, stepKey, State.pitch_setPitch]
    rfl
  have hy : Begun v (s.pitch p) y :=
    { mode := (congrArg Pitch.mode hx :), step := rfl, cursor := rfl, state := rfl, nextPeg := rfl, barrier := rfl, held := rfl
      boundary := rfl, dropCause := (congrArg (fun x => x.time.dropCause) hx :), runs := rfl, ingests := rfl
      lrLatched := (congrArg (fun x => x.guard.updLr) hx :), bc2Latched := (congrArg (fun x => x.guard.updBc2) hx :), lossSet := rfl
      lsStep := (congrArg (fun x => x.guard.lsExp) hx :), lastVerdict := (congrArg (fun x => x.guard.lastVerdict) hx :)
      numFlags := (congrArg Pitch.numFlags hx :), eff := (congrArg Pitch.eff hx :) }
  have hend : ∀ t : State, stepKey p t = stepKey p begun → Begun v (s.pitch p) (t.pitch p) ∧ t.erg = s.erg := by
    intro t ht
    obtain ⟨hpart, hregs⟩ := Prod.mk.inj (ht.trans hbegun)
    exact ⟨hy.of_stepPart hpart, hregs.trans herg⟩
  split
  · exact hend _ (stepKey_takeNorm _ p _)
  · exact hend _ rfl

end Sys2Proof.Machine
end

