-- ==== Sys2Proof/Proofs/TimeWrites.lean ====
section
/-! PROOF. Writes to the registers of progress time, and the cursor that stands still (03 R56 to R58, R77; 14 R312). -/

namespace Sys2Proof.Machine

open Sys2Proof.Claims

/-! ## A write to a register of a window that answers -/

/-- The write is taken, and answered OK on its port. -/
theorem exec_windowWrite {s : State} {h : HostPort} {p : PitchId} (hans : Answers s h p) (f : State → State) :
    live s (fun s => s.oneWrite h p (fun s => s.windowWrite h p f)) = .next ((f (s.received h 250)).sendHost h (.regAnswer [(0, 0)])) := by
  have hopen : (s.received h 250).windowOpen h p = true := (windowOpen_of_answers hans :)
  obtain ⟨⟨hup, hready⟩, htakes, -⟩ := hans
  have hengine : (s.received h 250).glob.engineReady = true := hready
  rw [live_next _ _ hup, State.oneWrite, State.hostIn_of_takes htakes, State.windowWrite, hengine, hopen]
  rfl

theorem hostUp_of_steady {s t : State} (h : steady t = steady s) (port : HostPort) : t.hostUp port = s.hostUp port :=
  hostUp_congr (congrArg Prod.fst h) port

theorem hostUp_after {s t : State} {h : HostPort} {p : PitchId} (hans : Answers s h p) (hsteady : steady t = steady (s.received h 250)) :
    t.hostUp h = true := by
  rw [hostUp_of_steady hsteady]
  exact State.received_hostUp hans.2.1.1 250

theorem hostPort_set_ne (v : Vector HostPortSt 8) {h k : HostPort} (x : HostPortSt) (hk : k ≠ h) : (v.set h x)[k] = v[k] :=
  Vector.getElem_set_ne h.isLt k.isLt (fun e => hk (Fin.ext e.symm))

/-- A write that changes its pitch alone. -/
theorem exec_windowWrite_pitch {s : State} {h : HostPort} {p : PitchId} (hans : Answers s h p) {f : State → State} {x : Pitch}
    (hf : f (s.received h 250) = (s.received h 250).setPitch p x) :
    ∃ t, live s (fun s => s.oneWrite h p (fun s => s.windowWrite h p f)) = .next t ∧ Wrote h 0 p s t ∧ t.pitch p = x := by
  refine ⟨_, exec_windowWrite hans f, ⟨?_, fun k hk => ?_, fun q hq => ?_⟩, ?_⟩
  all_goals rw [hf, State.sendHost, hostUp_after (t := (s.received h 250).setPitch p x) hans rfl]
  · rfl
  · exact (hostPort_set_ne _ _ hk).trans (hostPort_set_ne _ _ hk)
  · exact State.pitch_setPitch_ne _ _ _ _ hq
  · exact State.pitch_setPitch _ _ _

theorem timeDropped_dropTime (x : Pitch) (cause : Nat) : TimeDropped cause x (x.dropTime cause) := by
  have hcount := Pitch.counter_count x (c := .timeWriteDrops) (by decide) (by decide) 1
  refine ⟨?_, hcount⟩
  rw [Pitch.dropTime, Pitch.count_rest]

/-- A write that is discarded with its cause. -/
theorem exec_windowWrite_dropped {s : State} {h : HostPort} {p : PitchId} (hans : Answers s h p) {f : State → State} {cause : Nat}
    (hf : f (s.received h 250) = (s.received h 250).setPitch p ((s.pitch p).dropTime cause)) :
    ∃ t, live s (fun s => s.oneWrite h p (fun s => s.windowWrite h p f)) = .next t ∧ Wrote h 0 p s t ∧
      TimeDropped cause (s.pitch p) (t.pitch p) := by
  obtain ⟨t, hrun, hwrote, hpitch⟩ := exec_windowWrite_pitch hans hf
  exact ⟨t, hrun, hwrote, hpitch ▸ timeDropped_dropTime _ _⟩

theorem State.received_pitch (s : State) (h : HostPort) (n : Nat) (p : PitchId) : (s.received h n).pitch p = s.pitch p := rfl

/-! ## STEP_SET -/

section
variable {s : State} {h : HostPort} {p : PitchId} (hans : Answers s h p)
include hans

theorem stepSet_begins (hmode : (s.pitch p).mode = .running) (v : W64) (hidle : (s.pitch p).time.state = .idle) :
    ∃ t, exec (.stepSet h p v) s = .next t ∧ Begun v (s.pitch p) (t.pitch p) ∧ t.erg = s.erg ∧
      t.hostOut.getLast? = some ⟨h, .regAnswer [(0, 0)]⟩ := by
  obtain ⟨hbegun, herg⟩ := beginStep_spec (s.received h 250) p v
  have hset : (s.received h 250).stepSetOp p v = (s.received h 250).beginStep p v := by
    simp [State.stepSetOp, State.received_pitch, hmode, hidle]
  refine ⟨_, exec_windowWrite hans (fun s => s.stepSetOp p v), ?_, ?_, ?_⟩
  · rw [State.pitch_of_pitches _ _ (State.sendHost_pitches _ _ _), hset]
    exact hbegun
  · rw [State.sendHost_erg, hset]
    exact herg
  · rw [State.sendHost_hostOut, hostUp_after hans (steady_stepSetOp _ p v), if_pos rfl, List.getLast?_concat]

theorem stepSet_held (hmode : (s.pitch p).mode = .running) (v : W64) (hdrains : (s.pitch p).time.state = .draining)
    (hfree : (s.pitch p).time.held = none) : ∃ t, exec (.stepSet h p v) s = .next t ∧ Wrote h 0 p s t ∧
      t.pitch p = { s.pitch p with time := { (s.pitch p).time with held := some v } } :=
  exec_windowWrite_pitch hans (by simp [State.stepSetOp, State.received_pitch, hmode, hdrains, hfree])

theorem stepSet_notRunning (v : W64) (hmode : (s.pitch p).mode ≠ .running) :
    ∃ t, exec (.stepSet h p v) s = .next t ∧ Wrote h 0 p s t ∧ TimeDropped 2 (s.pitch p) (t.pitch p) :=
  exec_windowWrite_dropped hans (by simp [State.stepSetOp, State.received_pitch, hmode])

theorem stepSet_active (v : W64) (hmode : (s.pitch p).mode = .running) (hactive : (s.pitch p).time.state = .active) :
    ∃ t, exec (.stepSet h p v) s = .next t ∧ Wrote h 0 p s t ∧ TimeDropped 3 (s.pitch p) (t.pitch p) :=
  exec_windowWrite_dropped hans (by simp [State.stepSetOp, State.received_pitch, hmode, hactive])

theorem stepSet_twice (v : W64) (hmode : (s.pitch p).mode = .running) (hdrains : (s.pitch p).time.state = .draining)
    (hheld : (s.pitch p).time.held.isSome = true) :
    ∃ t, exec (.stepSet h p v) s = .next t ∧ Wrote h 0 p s t ∧ TimeDropped 4 (s.pitch p) (t.pitch p) :=
  exec_windowWrite_dropped hans (by simp [State.stepSetOp, State.received_pitch, hmode, hdrains, hheld])

/-! ## CURSOR_SET -/

theorem cursorSet_raises (v : W32) (hmode : (s.pitch p).mode = .running) (hstep : (s.pitch p).time.state ≠ .idle)
    (habove : (s.pitch p).time.cursor.toNat < v.toNat) : ∃ t, exec (.cursorSet h p v) s = .next t ∧ Wrote h 0 p s t ∧
      t.pitch p = { s.pitch p with time := { (s.pitch p).time with cursor := v, stillEpochs := 0, stallSent := false } } :=
  exec_windowWrite_pitch hans (by simp [State.cursorSetOp, State.received_pitch, hmode, hstep, habove])

theorem cursorSet_lower (v : W32) (hmode : (s.pitch p).mode = .running) (hstep : (s.pitch p).time.state ≠ .idle)
    (hbelow : v.toNat < (s.pitch p).time.cursor.toNat) :
    ∃ t, exec (.cursorSet h p v) s = .next t ∧ Wrote h 0 p s t ∧ TimeDropped 1 (s.pitch p) (t.pitch p) := by
  have hnotAbove : ¬ (s.pitch p).time.cursor.toNat < v.toNat := by omega
  have hne : v ≠ (s.pitch p).time.cursor := fun e => by simp [e] at hbelow
  exact exec_windowWrite_dropped hans (by simp [State.cursorSetOp, State.received_pitch, hmode, hstep, hnotAbove, hne])

theorem cursorSet_notRunning (v : W32) (hmode : (s.pitch p).mode ≠ .running) :
    ∃ t, exec (.cursorSet h p v) s = .next t ∧ Wrote h 0 p s t ∧ TimeDropped 2 (s.pitch p) (t.pitch p) :=
  exec_windowWrite_dropped hans (by simp [State.cursorSetOp, State.received_pitch, hmode])

theorem cursorSet_idle (v : W32) (hmode : (s.pitch p).mode = .running) (hidle : (s.pitch p).time.state = .idle) :
    ∃ t, exec (.cursorSet h p v) s = .next t ∧ Wrote h 0 p s t ∧ TimeDropped 5 (s.pitch p) (t.pitch p) :=
  exec_windowWrite_dropped hans (by simp [State.cursorSetOp, State.received_pitch, hmode, hidle])

/-! ## LOSS_IN -/

theorem lossIn_dropped (v : W32) (hclosed : (s.pitch p).time.state = .idle ∨ (s.pitch p).guard.verdict.isSome = true) :
    ∃ t, exec (.lossIn h p v) s = .next t ∧ Wrote h 0 p s t ∧ t.pitch p = { s.pitch p with counters := (t.pitch p).counters } ∧
      (t.pitch p).counter .lossWriteDrops = (s.pitch p).counter .lossWriteDrops + 1 := by
  have hdrop : (s.received h 250).lossInOp p v = (s.received h 250).setPitch p ((s.pitch p).count .lossWriteDrops) := by
    refine if_neg fun hopen => ?_
    simp only [State.received_pitch, Bool.and_eq_true, Option.isNone_iff_eq_none] at hopen
    obtain ⟨⟨-, hstep⟩, hnone⟩ := hopen
    exact hclosed.elim (fun hidle => by simp [hidle] at hstep) (by simp [hnone])
  obtain ⟨t, hrun, hwrote, hpitch⟩ := exec_windowWrite_pitch (f := fun s => s.lossInOp p v) hans hdrop
  refine ⟨t, hrun, hwrote, ?_, ?_⟩
  · rw [hpitch]
    exact Pitch.count_rest _ _ _
  · rw [hpitch]
    exact Pitch.counter_count (s.pitch p) (c := .lossWriteDrops) (by decide) (by decide) 1

theorem lossIn_taken (v : W32) (hmode : (s.pitch p).mode = .running) (hstep : (s.pitch p).time.state ≠ .idle)
    (hopen : (s.pitch p).guard.verdict = none) : ∃ t, exec (.lossIn h p v) s = .next t ∧ (t.pitch p).guard.lossIn = v ∧
      (t.pitch p).guard.lossSet = true ∧ (t.pitch p).time = (s.pitch p).time ∧ (t.pitch p).eff = (s.pitch p).eff := by
  let y : Pitch := { s.pitch p with guard := { (s.pitch p).guard with lossIn := v, lossSet := true } }
  let good := match val32 v with | .fin false m _ => decide (m ≠ 0) | _ => false
  have htake : (s.received h 250).lossInOp p v =
      ((s.received h 250).setPitch p (if good then y else y.count .lossInvalid)).guardProgress p :=
    if_pos (by simp [State.received_pitch, hmode, hstep, hopen])
  have hkey : stepKey p ((s.received h 250).lossInOp p v) = (y.stepPart, s.erg) := by
    rw [htake, stepKey_guardProgress, stepKey, State.pitch_setPitch]
    refine Prod.ext ?_ rfl
    cases good
    · exact y.stepPart_count .lossInvalid 1
    · rfl
  have hpart := (Prod.mk.inj hkey).1
  refine ⟨_, exec_windowWrite hans (fun s => s.lossInOp p v), ?_⟩
  rw [State.pitch_of_pitches _ _ (State.sendHost_pitches _ _ _)]
  exact ⟨(congrArg (fun x => x.guard.lossIn) hpart :), (congrArg (fun x => x.guard.lossSet) hpart :), (congrArg Pitch.time hpart :),
    (congrArg Pitch.eff hpart :)⟩

end

/-! ## CURSOR_STALL -/

theorem cursorStall_raised {s : State} (hup : s.held = false) {p : PitchId} (hmode : (s.pitch p).mode = .running)
    (hactive : (s.pitch p).time.state = .active) (hstill : 4096 ≤ (s.pitch p).time.stillEpochs)
    (hfirst : (s.pitch p).time.stallSent = false) :
    ∃ t, exec (.cursorStall p) s = .next t ∧ (t.pitch p).counter .cursorStalls = (s.pitch p).counter .cursorStalls + 1 ∧
      (t.pitch p).time = { (s.pitch p).time with stallSent := true } ∧ MailFrame p s t := by
  let x : Pitch := { (s.pitch p).count .cursorStalls with time := { (s.pitch p).time with stallSent := true } }
  let args := leBytes 4 (s.pitch p).time.cursor.toNat ++ leBytes 2 (s.pitch p).time.nextPeg
  have hrun : exec (.cursorStall p) s = .next ((s.setPitch p x).notice p ntcCursorStall args) := by
    refine (live_next s (fun s => s.cursorStallOp p) hup).trans (congrArg Host.Outcome.next (if_pos ?_))
    simp [hmode, hactive, hstill, hfirst]
  have hown := ((s.setPitch p x).notice_told p ntcCursorStall args).own
  rw [State.pitch_setPitch, PitchIs] at hown
  refine ⟨_, hrun, ?_, ?_, (MailFrame.setPitch s p x).trans (State.notice_frame _ p _ _)⟩
  · rw [hown]
    exact Pitch.counter_count (s.pitch p) (c := .cursorStalls) (by decide) (by decide) 1
  · rw [hown]

/-- Settles O20: each write by what it does to its pitch, the start of a step by what it resets and latches. -/
theorem stepAndCursorWrites : Obligations.StepAndCursorWrites := by
  refine ⟨fun s h p v hans hmode => ⟨fun hidle => ?_, stepSet_held hans hmode v⟩,
    fun _ _ _ v hans => ⟨stepSet_notRunning hans v, stepSet_active hans v, stepSet_twice hans v⟩,
    fun _ _ _ v hans => ⟨cursorSet_raises hans v, cursorSet_lower hans v, cursorSet_notRunning hans v, cursorSet_idle hans v⟩,
    fun _ _ _ v hans => ⟨lossIn_taken hans v, lossIn_dropped hans v, cursorStall_raised hans.1.1⟩⟩
  obtain ⟨t, hrun, hb, herg, hanswer⟩ := stepSet_begins hans hmode v hidle
  exact ⟨t, hrun, hb.mode.trans hmode, hb.step, hb.cursor, hb.state, hb.nextPeg, hb.barrier, hb.held, hb.boundary, hb.dropCause, hb.runs,
    hb.ingests, hb.lrLatched, hb.bc2Latched, hb.lossSet, hb.lsStep, hb.numFlags, hb.eff, herg, hanswer⟩

end Sys2Proof.Machine
end

