-- ==== Sys2Proof/Proofs/StepCompletion.lean ====
section
/-! PROOF. The completion of a step (03 R66; 14 R305, R308, R310, R313; 16 R344, R351). -/

namespace Sys2Proof.Machine

open Sys2Proof.Claims

/-! ## The last lock-step window -/

/-- Memory is as before, and pitch p but for its lock-step state and its counters. -/
structure LockMoved (p : PitchId) (s t : State) : Prop where
  mem : t.mem = s.mem
  own : t.pitch p = { s.pitch p with lock := (t.pitch p).lock, counters := (t.pitch p).counters }

theorem LockMoved.refl (p : PitchId) (s : State) : LockMoved p s s := ⟨rfl, rfl⟩

theorem LockMoved.trans {p : PitchId} {r s t : State} (h : LockMoved p r s) (k : LockMoved p s t) : LockMoved p r t :=
  ⟨k.mem.trans h.mem, by rw [k.own, h.own]⟩

theorem LockMoved.setPitch (s : State) (p : PitchId) {x : Pitch} (hx : x = { s.pitch p with lock := x.lock, counters := x.counters }) :
    LockMoved p s (s.setPitch p x) :=
  ⟨rfl, by rw [State.pitch_setPitch]; exact hx⟩

theorem LockMoved.foldl {α : Type} {p : PitchId} {f : State → α → State} (h : ∀ s a, LockMoved p s (f s a)) (xs : List α) (s : State) :
    LockMoved p s (xs.foldl f s) := by
  induction xs generalizing s with
  | nil => exact LockMoved.refl p s
  | cons x xs ih => exact (h s x).trans (ih (f s x))

theorem LockMoved.sendHost (s : State) (p : PitchId) (h : HostPort) (m : HostMsg) : LockMoved p s (s.sendHost h m) := by
  refine ⟨State.sendHost_mem s h m, ?_⟩
  rw [State.pitch_of_pitches _ _ (State.sendHost_pitches s h m)]

theorem LockMoved.releaseOutputs (s : State) (p : PitchId) (pick : Nat → Bool) : LockMoved p s (s.releaseOutputs p pick) :=
  (LockMoved.setPitch s p rfl).trans (LockMoved.foldl (fun t _ => LockMoved.foldl (fun t _ => LockMoved.sendHost t p _ _) _ t) _ _)

/-- With a suspended pairing everything held is released unchecked. -/
theorem LockMoved.lsProgress {s : State} {p : PitchId} {q : Pairing} (hpair : (s.pitch p).pairing = some q)
    (hsuspended : (s.pitch p).lsSuspended q = true) : LockMoved p s (s.lsProgress p) := by
  unfold State.lsProgress
  simp only [hpair, hsuspended, if_true]
  split
  · exact LockMoved.refl p s
  · refine (LockMoved.setPitch s p ?_).trans (LockMoved.releaseOutputs _ p _)
    rw [Pitch.count_rest]

theorem Pitch.closeLsWindow_rest (x : Pitch) (q : Pairing) : x.closeLsWindow q = { x with lock := (x.closeLsWindow q).lock } := by
  unfold Pitch.closeLsWindow
  split <;> rfl

/-- The pitch with its last window closed. -/
def Pitch.lsEnded (x : Pitch) (q : Pairing) : Pitch :=
  let y := x.closeLsWindow q
  { y with lock := { y.lock with lastClosed := true } }

theorem Pitch.lsEnded_rest (x : Pitch) (q : Pairing) : x.lsEnded q = { x with lock := (x.lsEnded q).lock } := by
  rw [Pitch.lsEnded, Pitch.closeLsWindow_rest]

/-- A suspended pairing is passed. -/
theorem lsPassed_of_suspended {x : Pitch} {q : Pairing} (hpair : x.pairing = some q) (hsuspended : x.lsSuspended q = true) :
    x.lsPassed = true := by
  simp [Pitch.lsPassed, hpair, hsuspended]

/-- Where the pairing of a step is over, its last window closes under a suspended pairing alone, and the pairing stays over. -/
theorem lsLast_spec {s : State} {p : PitchId} (hpassed : (s.pitch p).lsPassed = true) :
    LockMoved p s (s.lsLast p) ∧ ((s.lsLast p).pitch p).lsPassed = true := by
  have hidle : s.lsLast p = s → LockMoved p s (s.lsLast p) ∧ ((s.lsLast p).pitch p).lsPassed = true := by
    intro hsame
    rw [hsame]
    exact ⟨LockMoved.refl p s, hpassed⟩
  cases hpair : (s.pitch p).pairing with
  | none => exact hidle (by simp [State.lsLast, hpair])
  | some q =>
    by_cases hopen : ((s.pitch p).allOut && (s.pitch p).works && !(s.pitch p).lock.lastClosed) = true
    · have hsuspended : (s.pitch p).lsSuspended q = true := by
        simp only [Bool.and_eq_true, Bool.not_eq_true'] at hopen
        simpa [Pitch.lsPassed, hpair, hopen.2] using hpassed
      have hclosed : s.lsLast p = (s.setPitch p ((s.pitch p).lsEnded q)).lsProgress p := by
        simp only [State.lsLast, hpair, hopen, if_true]
        rfl
      have hset : LockMoved p s (s.setPitch p ((s.pitch p).lsEnded q)) := LockMoved.setPitch s p (by rw [Pitch.lsEnded_rest])
      have hmoved : LockMoved p s (s.lsLast p) := by
        rw [hclosed]
        refine hset.trans (LockMoved.lsProgress (q := q) ?_ ?_)
        · rw [State.pitch_setPitch, Pitch.lsEnded_rest]
          exact hpair
        · rw [State.pitch_setPitch, Pitch.lsEnded_rest]
          exact hsuspended
      refine ⟨hmoved, ?_⟩
      rw [hmoved.own]
      exact lsPassed_of_suspended hpair hsuspended
    · exact hidle (by simp only [State.lsLast, hpair, if_neg hopen])

theorem partFirst_congr {x y : Pitch} (heff : y.eff = x.eff) : partFirst y = partFirst x := by
  funext b bs
  induction bs with
  | nil => rfl
  | cons c cs ih => rw [partFirst, partFirst, ih, Pitch.bucketD, Pitch.bucketD, heff]

theorem partBlock_congr {x y : Pitch} (heff : y.eff = x.eff) : partBlock y = partBlock x := by
  funext bs
  induction bs with
  | nil => rfl
  | cons b bs ih =>
    cases bs with
    | nil => rfl
    | cons b' bs =>
      funext j
      have hstep : ∀ z : Pitch, partBlock z (b :: b' :: bs) j =
          if j < bBlocks (z.bucketD b) then (b, j) else partBlock z (b' :: bs) (j - bBlocks (z.bucketD b)) := fun _ => rfl
      rw [hstep, hstep, ih, Pitch.bucketD, Pitch.bucketD, heff]

section
variable (x : Pitch) (l : Lockstep) (c : Sparse W64)

theorem bucketPlaced_of_lock : Pitch.bucketPlaced { x with lock := l, counters := c } = x.bucketPlaced := by
  unfold Pitch.bucketPlaced BucketRun.partBlocks BucketRun.offset
  rw [partFirst_congr (x := x) (y := { x with lock := l, counters := c }) rfl]
  rfl

theorem bucketOut_of_lock : Pitch.bucketOut { x with lock := l, counters := c } = x.bucketOut := by
  unfold Pitch.bucketOut BucketRun.partBlocks BucketRun.offset
  rw [bucketPlaced_of_lock, partFirst_congr (x := x) (y := { x with lock := l, counters := c }) rfl]
  rfl

theorem updatesDone_of_lock : Pitch.updatesDone { x with lock := l, counters := c } = x.updatesDone := by
  unfold Pitch.updatesDone BucketRun.readyUpdate BucketRun.part
  rw [partBlock_congr (x := x) (y := { x with lock := l, counters := c }) rfl]
  rfl

/-- Of the lock-step state, the conditions of R66 name only that its part is over. -/
theorem mayComplete_of_lock (h : x.mayComplete = true) (hpassed : Pitch.lsPassed { x with lock := l, counters := c } = true) :
    Pitch.mayComplete { x with lock := l, counters := c } = true := by
  rw [Pitch.mayComplete, Pitch.stepOver, Bool.and_eq_true, Bool.and_eq_true, Bool.and_eq_true, Bool.and_eq_true] at h ⊢
  rw [bucketPlaced_of_lock, bucketOut_of_lock, updatesDone_of_lock]
  obtain ⟨⟨⟨⟨hover, -⟩, hfull⟩, hckpt⟩, hexports⟩ := h
  exact ⟨⟨⟨⟨hover, hpassed⟩, hfull⟩, hckpt⟩, hexports⟩

end

/-! ## What the end of a step leaves -/

/-- The part of a pitch that the notices and records of a step's end leave: all but lock-step state, counters, and the mailbox beside
the responses it owes. -/
def Pitch.endPart (x : Pitch) : Pitch := { x with lock := {}, counters := [], mail := { owed := x.mail.owed }, queues := {} }

theorem Pitch.endPart_count (x : Pitch) (c : PCtr) (n : Nat) : (x.count c n).endPart = x.endPart := by
  rw [Pitch.count_rest]
  rfl

theorem State.notice_owed (s : State) (p : PitchId) (code : Nat) (args : Bytes) :
    ((s.notice p code args).pitch p).mail.owed = (s.pitch p).mail.owed := by
  unfold State.notice
  extract_lets x n e
  split
  · rfl
  · split
    · rw [State.pitch_setPitch]
      rfl
    · rw [State.writeResp_pitch, State.pitch_setPitch]
      rfl

theorem endPart_notice (s : State) (p : PitchId) (code : Nat) (args : Bytes) :
    ((s.notice p code args).pitch p).endPart = (s.pitch p).endPart := by
  have hown := (s.notice_told p code args).own
  have howed := s.notice_owed p code args
  rw [PitchIs] at hown
  rw [Pitch.endPart, howed, hown]
  rfl

theorem endPart_stepDoneNotice (s : State) (p : PitchId) : ((s.stepDoneNotice p).pitch p).endPart = (s.pitch p).endPart :=
  endPart_notice s p _ _

/-- Memory is as before outside the queue memory of pitch p and the n bytes at a. -/
def BytesBut (p : PitchId) (a n : Nat) (s t : State) : Prop :=
  ∀ b, (b < queueBase p.val ∨ queueBase p.val + queueSize ≤ b) → (b < a ∨ a + n ≤ b) → t.byte b = s.byte b

section
variable {p : PitchId} {a n : Nat}

theorem BytesBut.refl (s : State) : BytesBut p a n s s := fun _ _ _ => rfl

theorem BytesBut.trans {r s t : State} (h : BytesBut p a n r s) (k : BytesBut p a n s t) : BytesBut p a n r t :=
  fun b hq hr => (k b hq hr).trans (h b hq hr)

theorem BytesBut.of_mem {s t : State} (h : t.mem = s.mem) : BytesBut p a n s t := fun b _ _ => by rw [State.byte, h, State.byte]

theorem BytesBut.of_frame {s t : State} (h : MailFrame p s t) : BytesBut p a n s t :=
  fun b hq _ => h.bytes b (by unfold queueSize at hq; omega)

end

/-! ## Statistics of the layers -/

/-- A layer's record takes the 384 bytes of its slot. -/
theorem Pitch.length_layerRecord (x : Pitch) (k : Nat) (norms : List W640) (h : norms.length = 4) : (x.layerRecord k norms).length = 384 := by
  have hregs : (norms.flatMap ergBytes).length = 4 * 80 := by
    rw [List.length_flatMap, ← h]
    simp only [ergBytes, length_leBytes, List.map_const', List.sum_replicate, smul_eq_mul]
  simp only [Pitch.layerRecord, List.length_append, length_leBytes, List.length_replicate, hregs]

theorem ergClears_rest (s : State) (reg : Nat → Option Nat) (bs : List Nat) :
    let t := bs.foldl (fun s b => match reg b with
      | some g => s.ergClear g 1
      | none => s) s
    t.pitches = s.pitches ∧ t.mem = s.mem := by
  induction bs generalizing s with
  | nil => exact ⟨rfl, rfl⟩
  | cons b bs ih =>
    rw [List.foldl_cons]
    split
    · exact ih (s.ergClear _ 1)
    · exact ih s

theorem settleLayer_spec (s : State) (p : PitchId) (k : Nat) (l : LayerRec) : (s.settleLayer p k l).pitches = s.pitches ∧
    BytesBut p ((s.pitch p).cfg p 0x111 + 384 * k) 384 s (s.settleLayer p k l) := by
  unfold State.settleLayer
  extract_lets x reg norms t
  obtain ⟨hpitches, hmem⟩ : t.pitches = s.pitches ∧ t.mem = s.mem := ergClears_rest s reg (List.range 4)
  have hlength := x.length_layerRecord k norms (by simp [norms])
  split
  · exact ⟨hpitches, BytesBut.of_mem hmem⟩
  · refine ⟨hpitches, (BytesBut.of_mem hmem).trans fun b _ hout => State.byte_write_out t _ b _ ?_⟩
    rw [hlength]
    exact hout

/-- The records of all layers lie one after another. -/
theorem settleLayers_spec (s : State) (p : PitchId) : ((s.settleLayers p).pitch p).endPart = (s.pitch p).endPart ∧
    BytesBut p ((s.pitch p).cfg p 0x111) (384 * (s.pitch p).layers.length) s (s.settleLayers p) := by
  have hfold : ∀ (es : List (LayerRec × Nat)) (u : State), u.pitches = s.pitches → (∀ e ∈ es, e.2 < (s.pitch p).layers.length) →
      (es.foldl (fun s e => s.settleLayer p e.2 e.1) u).pitches = s.pitches ∧
      BytesBut p ((s.pitch p).cfg p 0x111) (384 * (s.pitch p).layers.length) u (es.foldl (fun s e => s.settleLayer p e.2 e.1) u) := by
    intro es
    induction es with
    | nil => exact fun u hu _ => ⟨hu, BytesBut.refl u⟩
    | cons e es ih =>
      intro u hu hes
      obtain ⟨hpitches, hbytes⟩ := settleLayer_spec u p e.2 e.1
      obtain ⟨kpitches, kbytes⟩ := ih (u.settleLayer p e.2 e.1) (hpitches.trans hu) fun f hf => hes f (List.mem_cons_of_mem _ hf)
      have hlast := hes e List.mem_cons_self
      have hsame : u.pitch p = s.pitch p := State.pitch_of_pitches _ _ hu p
      rw [hsame] at hbytes
      refine ⟨kpitches, BytesBut.trans (fun b hq hout => hbytes b hq ?_) kbytes⟩
      omega
  obtain ⟨hpitches, hbytes⟩ := hfold (s.pitch p).layers.zipIdx s rfl fun e he => by
    simpa using List.snd_lt_of_mem_zipIdx he
  unfold State.settleLayers
  extract_lets x t total
  have ht : t.pitch p = s.pitch p := State.pitch_of_pitches _ _ hpitches p
  split
  · refine ⟨?_, hbytes.trans (BytesBut.of_frame ((MailFrame.setPitch t p _).trans (State.notice_frame _ p _ _)))⟩
    rw [endPart_notice, State.count, State.pitch_modPitch, Pitch.endPart_count, ht]
  · exact ⟨congrArg Pitch.endPart ht, hbytes⟩

/-! ## The loss scale -/

/-- The pitch with the loss scale of the next step. -/
def Pitch.rescaled (x : Pitch) (p : PitchId) : Pitch :=
  { x with guard := { x.guard with lsExp := (x.lossScaleNext p).1, clean := (x.lossScaleNext p).2.1 } }

theorem Pitch.endPart_counted (x : Pitch) (c : Option PCtr) (g : Guard → Guard) :
    (let y := match c with | some c => x.count c | none => x
     ({ y with guard := g y.guard } : Pitch)).endPart = ({ x with guard := g x.guard } : Pitch).endPart := by
  cases c with
  | none => rfl
  | some c =>
    simp only []
    rw [Pitch.count_rest]
    rfl

theorem lossScaleNotice_spec (s : State) (p : PitchId) (old : Int) :
    ((s.lossScaleNotice p old).pitch p).endPart = (s.pitch p).endPart ∧ MailFrame p s (s.lossScaleNotice p old) := by
  unfold State.lossScaleNotice
  extract_lets ls
  split
  · exact ⟨rfl, MailFrame.refl p s⟩
  · exact ⟨endPart_notice s p _ _, s.notice_frame p _ _⟩

theorem settleLossScale_spec (s : State) (p : PitchId) : ((s.settleLossScale p).pitch p).endPart = ((s.pitch p).rescaled p).endPart ∧
    MailFrame p s (s.settleLossScale p) := by
  unfold State.settleLossScale
  extract_lets x
  split
  next ls clean ctr hnext =>
  extract_lets y
  obtain ⟨hpart, hframe⟩ := lossScaleNotice_spec (s.setPitch p { y with guard := { y.guard with lsExp := ls, clean := clean } }) p x.guard.lsExp
  refine ⟨hpart.trans ?_, (MailFrame.setPitch s p _).trans hframe⟩
  have hrescaled : (s.pitch p).rescaled p = { x with guard := { x.guard with lsExp := ls, clean := clean } } := by
    rw [Pitch.rescaled, hnext]
  rw [State.pitch_setPitch, hrescaled]
  exact x.endPart_counted ctr (fun g => { g with lsExp := ls, clean := clean })

/-! ## The end of a step -/

/-- Pitch y is x with its step completed: STEP_STATE is IDLE at a step boundary, with the verdict and the next loss scale. -/
structure Ended (p : PitchId) (x y : Pitch) : Prop where
  state : y.time.state = .idle
  boundary : y.time.boundary = true
  step : y.time.step = x.time.step
  drainPending : y.time.drainPending = x.time.drainPending
  mode : y.mode = x.mode
  lastVerdict : y.guard.lastVerdict = x.guard.verdict.getD 0
  lsExp : y.guard.lsExp = (x.lossScaleNext p).1
  clean : y.guard.clean = (x.lossScaleNext p).2.1
  eff : y.eff = x.eff
  owed : y.mail.owed = x.mail.owed

theorem Ended.of_endPart {p : PitchId} {x y z : Pitch} (h : Ended p x y) (hz : z.endPart = y.endPart) : Ended p x z where
  state := (congrArg (fun x => x.time.state) hz :).trans h.state
  boundary := (congrArg (fun x => x.time.boundary) hz :).trans h.boundary
  step := (congrArg (fun x => x.time.step) hz :).trans h.step
  drainPending := (congrArg (fun x => x.time.drainPending) hz :).trans h.drainPending
  mode := (congrArg Pitch.mode hz :).trans h.mode
  lastVerdict := (congrArg (fun x => x.guard.lastVerdict) hz :).trans h.lastVerdict
  lsExp := (congrArg (fun x => x.guard.lsExp) hz :).trans h.lsExp
  clean := (congrArg (fun x => x.guard.clean) hz :).trans h.clean
  eff := (congrArg Pitch.eff hz :).trans h.eff
  owed := (congrArg (fun x => x.mail.owed) hz :).trans h.owed

theorem Ended.unheld {p : PitchId} {x y : Pitch} (h : Ended p x y) : Ended p x { y with time := { y.time with held := none } } :=
  ⟨h.state, h.boundary, h.step, h.drainPending, h.mode, h.lastVerdict, h.lsExp, h.clean, h.eff, h.owed⟩

/-- Only the part of a pitch that the records of a step's end leave decides how it ends. -/
theorem Ended.of_endPart_left {p : PitchId} {x x' y : Pitch} (h : Ended p x' y) (hx : x'.endPart = x.endPart) : Ended p x y where
  state := h.state
  boundary := h.boundary
  step := h.step.trans (congrArg (fun x => x.time.step) hx :)
  drainPending := h.drainPending.trans (congrArg (fun x => x.time.drainPending) hx :)
  mode := h.mode.trans (congrArg Pitch.mode hx :)
  lastVerdict := h.lastVerdict.trans (congrArg (fun x => x.guard.verdict.getD 0) hx :)
  lsExp := h.lsExp.trans (congrArg (fun x => (x.lossScaleNext p).1) hx :)
  clean := h.clean.trans (congrArg (fun x => (x.lossScaleNext p).2.1) hx :)
  eff := h.eff.trans (congrArg Pitch.eff hx :)
  owed := h.owed.trans (congrArg (fun x => x.mail.owed) hx :)

theorem Pitch.settleGuard_spec (z : Pitch) : ∃ c clipped norm, z.settleGuard =
    { z with counters := c, guard := { z.guard with lastVerdict := z.guard.verdict.getD 0, clipped := clipped, lastNorm := norm } } := by
  unfold Pitch.settleGuard
  extract_lets v y
  have hy : ∃ c, y = { z with counters := c } := by
    unfold y
    split
    · exact ⟨z.counters, rfl⟩
    · exact ⟨_, Pitch.count_rest z .stepsSkipped 1⟩
  obtain ⟨c, hy⟩ := hy
  clear_value y
  subst hy
  exact ⟨c, _, _, rfl⟩

/-- The pitch with its guard registers, its NDC and its collective state as the step ends. -/
theorem ended_settled {p : PitchId} {x z : Pitch} (hz : z.endPart = (x.rescaled p).endPart) :
    Ended p x z.settleGuard.settleStep.endCollectives := by
  obtain ⟨c, clipped, norm, hguard⟩ := z.settleGuard_spec
  rw [hguard]
  exact {
    state := rfl, boundary := rfl
    step := (congrArg (fun x => x.time.step) hz :)
    drainPending := (congrArg (fun x => x.time.drainPending) hz :)
    mode := (congrArg Pitch.mode hz :)
    lastVerdict := (congrArg (fun x => x.guard.verdict.getD 0) hz :)
    lsExp := (congrArg (fun x => x.guard.lsExp) hz :)
    clean := (congrArg (fun x => x.guard.clean) hz :)
    eff := (congrArg Pitch.eff hz :)
    owed := (congrArg (fun x => x.mail.owed) hz :) }

/-! ## STEP_COMPLETE -/

/-- The state at the step boundary, before what waited for it. -/
def State.settled (s : State) (p : PitchId) : State :=
  let s := (s.settleLayers p).settleLossScale p
  let s := s.modPitch p (fun x => x.settleGuard.settleStep.endCollectives)
  let s := (s.stepDoneNotice p).modPitch p (fun x => { x with time := { x.time with held := none } })
  (((s.leaveAtBoundary p).retain p).retainGuard p).drowseEntry p

theorem setCells_spec (s : State) (cs : List Nat) (v : CellPower) (p : PitchId) :
    (s.setCells cs v).pitch p = s.pitch p ∧ (s.setCells cs v).mem = s.mem := by
  rw [State.setCells_rest]
  generalize (s.setCells cs v).power = w
  exact ⟨rfl, rfl⟩

theorem retainGuard_spec (s : State) (p : PitchId) : (s.retainGuard p).pitch p = s.pitch p ∧ (s.retainGuard p).mem = s.mem := ⟨rfl, rfl⟩

theorem drowseEntry_spec (s : State) (p : PitchId) : (s.drowseEntry p).pitch p = s.pitch p ∧ (s.drowseEntry p).mem = s.mem := by
  unfold State.drowseEntry
  split
  · exact setCells_spec s _ _ p
  · exact ⟨rfl, rfl⟩

/-- At the boundary the step of pitch p has ended, and nothing but its queue memory and the records of its layers was written. -/
theorem settled_spec {s : State} {p : PitchId} (hstay : ∀ o ∈ (s.pitch p).mail.owed, o.why ≠ .leave) :
    Ended p (s.pitch p) ((s.settled p).pitch p) ∧
    BytesBut p ((s.pitch p).cfg p 0x111) (384 * (s.pitch p).layers.length) s (s.settled p) := by
  obtain ⟨hlayers, hbytes⟩ := settleLayers_spec s p
  obtain ⟨hscale, hframe⟩ := settleLossScale_spec (s.settleLayers p) p
  unfold State.settled
  extract_lets scaled ended told
  have hscaled : (scaled.pitch p).endPart = ((s.pitch p).rescaled p).endPart :=
    hscale.trans (congrArg (fun x => (Pitch.rescaled x p).endPart) hlayers :)
  have hended : Ended p (s.pitch p) (ended.pitch p) := by
    unfold ended
    rw [State.pitch_modPitch]
    exact ended_settled hscaled
  have htold : Ended p (s.pitch p) (told.pitch p) := by
    unfold told
    rw [State.pitch_modPitch]
    exact (hended.of_endPart (endPart_stepDoneNotice ended p)).unheld
  have hleaves : told.leaveAtBoundary p = told := by
    refine if_neg fun hany => ?_
    rw [htold.owed] at hany
    obtain ⟨o, ho, hwhy⟩ := List.any_eq_true.mp hany
    exact hstay o ho (of_decide_eq_true hwhy)
  obtain ⟨hretain, hpitch⟩ := told.retain_spec p
  obtain ⟨gpitch, gmem⟩ := retainGuard_spec (told.retain p) p
  obtain ⟨kpitch, kmem⟩ := drowseEntry_spec ((told.retain p).retainGuard p) p
  rw [hleaves]
  refine ⟨?_, ?_⟩
  · rw [kpitch, gpitch, hpitch]
    exact htold
  · have htoldFrame : MailFrame p scaled told :=
      ((MailFrame.setPitch scaled p _).trans (State.notice_frame _ p _ _)).trans (MailFrame.setPitch _ p _)
    have hframes : BytesBut p ((s.pitch p).cfg p 0x111) (384 * (s.pitch p).layers.length) (s.settleLayers p) (told.retain p) :=
      BytesBut.of_frame ((hframe.trans htoldFrame).trans hretain)
    exact (hbytes.trans hframes).trans (BytesBut.of_mem (kmem.trans gmem))

theorem stepComplete_eq {s : State} {p : PitchId} (h : (s.pitch p).mayComplete = true) (hpassed : (s.pitch p).lsPassed = true) :
    s.stepCompleteOp p = ((s.lsLast p).settled p).afterStep p (s.pitch p).time.held := by
  obtain ⟨hmoved, hstill⟩ := lsLast_spec hpassed
  have hown := hmoved.own
  have hmay : ((s.lsLast p).pitch p).mayComplete = true := by
    rw [hown] at hstill ⊢
    exact mayComplete_of_lock _ _ _ h hstill
  have hheld : ((s.lsLast p).pitch p).time.held = (s.pitch p).time.held := by rw [hown]
  unfold State.stepCompleteOp
  extract_lets s1
  rw [← hheld]
  exact if_neg (by simp [s1, hmay])

theorem afterStep_none {s : State} {p : PitchId} (h : (s.pitch p).time.drainPending = false) : s.afterStep p none = s := by
  unfold State.afterStep
  rw [h]
  rfl

theorem afterStep_some {s : State} {p : PitchId} (h : (s.pitch p).time.drainPending = false) (v : W64) :
    s.afterStep p (some v) = (s.advanceTo (s.cclk + 1)).beginStep p v := by
  unfold State.afterStep
  rw [h]
  rfl

section
variable {s : State} {p : PitchId} (hup : s.held = false) (hmay : (s.pitch p).mayComplete = true)
  (hstay : ∀ o ∈ (s.pitch p).mail.owed, o.why ≠ .leave) (hkeeps : (s.pitch p).time.drainPending = false)

include hmay in
theorem lsPassed_of_mayComplete : (s.pitch p).lsPassed = true := by
  simp only [Pitch.mayComplete, Pitch.stepOver, Bool.and_eq_true] at hmay
  exact hmay.1.1.1.2

include hmay in
theorem running_of_mayComplete : (s.pitch p).mode = .running := by
  simp only [Pitch.mayComplete, Pitch.stepOver, Bool.and_eq_true] at hmay
  exact of_decide_eq_true hmay.1.1.1.1.1.1.1.1.1.1.1

include hmay hstay in
/-- The completion up to the step boundary, seen from the state before it. -/
theorem boundary_spec : Ended p (s.pitch p) (((s.lsLast p).settled p).pitch p) ∧
    BytesBut p ((s.pitch p).cfg p 0x111) (384 * (s.pitch p).layers.length) s ((s.lsLast p).settled p) := by
  obtain ⟨hmoved, -⟩ := lsLast_spec (lsPassed_of_mayComplete hmay)
  have hown := hmoved.own
  have hpart : ((s.lsLast p).pitch p).endPart = (s.pitch p).endPart := by
    rw [hown]
    rfl
  have howed : ((s.lsLast p).pitch p).mail.owed = (s.pitch p).mail.owed := by rw [hown]
  have hbase : ((s.lsLast p).pitch p).cfg p 0x111 = (s.pitch p).cfg p 0x111 := by
    rw [hown]
    rfl
  have hlayers : ((s.lsLast p).pitch p).layers = (s.pitch p).layers := by rw [hown]
  obtain ⟨hended, hbytes⟩ := settled_spec (s := s.lsLast p) (p := p) (by rw [howed]; exact hstay)
  rw [hbase, hlayers] at hbytes
  exact ⟨hended.of_endPart_left hpart, (BytesBut.of_mem hmoved.mem).trans hbytes⟩

include hup hmay hstay hkeeps

theorem stepComplete_idle (hheld : (s.pitch p).time.held = none) : ∃ t, exec (.stepComplete p) s = .next t ∧ Ended p (s.pitch p) (t.pitch p) ∧
    (∀ q, q ≠ p → t.pitch q = s.pitch q) ∧ BytesBut p ((s.pitch p).cfg p 0x111) (384 * (s.pitch p).layers.length) s t := by
  have hop := stepComplete_eq hmay (lsPassed_of_mayComplete hmay)
  obtain ⟨hended, hbytes⟩ := boundary_spec hmay hstay
  rw [hheld, afterStep_none (hended.drainPending.trans hkeeps)] at hop
  have hkept := State.stepCompleteOp_keeps (A := (· = p)) (d := True) s p rfl (Keeps.refl _ _ s)
  rw [hop] at hkept
  refine ⟨(s.lsLast p).settled p, ?_, hended, hkept.others, hbytes⟩
  rw [← hop]
  exact live_next s (fun s => s.stepCompleteOp p) hup

theorem stepComplete_held {v : W64} (hheld : (s.pitch p).time.held = some v) : ∃ t x, exec (.stepComplete p) s = .next t ∧
    Ended p (s.pitch p) x ∧ Begun v x (t.pitch p) := by
  have hop := stepComplete_eq hmay (lsPassed_of_mayComplete hmay)
  obtain ⟨hended, -⟩ := boundary_spec hmay hstay
  rw [hheld, afterStep_some (hended.drainPending.trans hkeeps)] at hop
  generalize (s.lsLast p).settled p = u at hop hended
  refine ⟨(u.advanceTo (u.cclk + 1)).beginStep p v, u.pitch p, ?_, hended, (beginStep_spec (u.advanceTo (u.cclk + 1)) p v).1⟩
  rw [← hop]
  exact live_next s (fun s => s.stepCompleteOp p) hup

end

end Sys2Proof.Machine
end

