-- ==== Sys2Proof/Proofs/ReadingBack.lean ====
section
/-! PROOF. Reading back bytes that were written, and the check code of a header (01 R18; 09 R210). -/

namespace Sys2Proof.Machine

/-! ## Reads -/

theorem State.read_eq_map (s : State) (a n : Nat) : s.read a n = (List.range n).map (fun i => s.byte (a + i)) := by
  simp only [State.read, memRange, State.byte]
  refine List.map_congr_left fun i hi => ?_
  have hlt := List.mem_range.mp hi
  exact memGet_filter s.mem (fun k => decide (a ≤ k) && decide (k < a + n)) (a + i) (by simp [hlt])

theorem State.length_read (s : State) (a n : Nat) : (s.read a n).length = n := by simp [State.read_eq_map]

theorem State.read_getD {s : State} {a n i : Nat} (hi : i < n) (d : Byte) : (s.read a n).getD i d = s.byte (a + i) := by
  rw [State.read_eq_map, List.getD_eq_getElem _ _ (by simpa using hi)]
  simp

theorem State.read_congr {s t : State} {a n : Nat} (h : ∀ i, i < n → t.byte (a + i) = s.byte (a + i)) : t.read a n = s.read a n := by
  rw [State.read_eq_map, State.read_eq_map]
  exact List.map_congr_left fun i hi => h i (List.mem_range.mp hi)

/-- What was written reads back. -/
theorem State.read_write (s : State) (a : Nat) (bs : Bytes) : (s.write a bs).read a bs.length = bs := by
  rw [State.read_eq_map]
  refine List.ext_getElem (by simp) fun i hi hi' => ?_
  rw [List.getElem_map, List.getElem_range, State.byte_write_in s a i bs hi', List.getD_eq_getElem _ _ hi']

/-- A part of what was read is a read. -/
theorem State.cut_read (s : State) {a m i n : Nat} (h : i + n ≤ m) : cut (s.read a m) i n = s.read (a + i) n := by
  rw [State.read_eq_map, State.read_eq_map, cut]
  refine List.ext_getElem (by simp; omega) fun j hj hj' => ?_
  simp [Nat.add_assoc]

/-! ## CRC-32C -/

theorem crcShift_lt {p : Nat} (hp : p < 2 ^ 32) (n r : Nat) (hr : r < 2 ^ 32) : crcShift p n r < 2 ^ 32 := by
  induction n generalizing r with
  | zero => exact hr
  | succ n ih =>
    refine ih _ ?_
    split
    · exact Nat.xor_lt_two_pow (by omega) hp
    · omega

theorem crc32c_lt (bs : Bytes) : crc32c bs < 2 ^ 32 := by
  have hfold : ∀ r, r < 2 ^ 32 → bs.foldl (fun r b => crcShift 0x82F63B78 8 (r ^^^ b.toNat)) r < 2 ^ 32 := by
    induction bs with
    | nil => exact fun r hr => hr
    | cons b bs ih =>
      refine fun r hr => ih _ (crcShift_lt (by decide) 8 _ (Nat.xor_lt_two_pow hr ?_))
      have := b.isLt
      omega
  exact Nat.xor_lt_two_pow (hfold _ (by decide)) (by decide)

/-! ## A header of 252 bytes and its CRC -/

/-- The header with its check code. -/
def sealedHeader (h : Bytes) : Bytes := h ++ leBytes 4 (crc32c h)

section
variable {h : Bytes} (hlength : h.length = 252)
include hlength

theorem length_sealedHeader : (sealedHeader h).length = 256 := by
  rw [sealedHeader, List.length_append, length_leBytes, hlength]

theorem take_sealedHeader : (sealedHeader h).take 252 = h := List.take_left' hlength

theorem crc_sealedHeader : leAt (sealedHeader h) 252 4 = crc32c h := by
  have hcut : cut (sealedHeader h) 252 4 = leBytes 4 (crc32c h) := by
    rw [cut, sealedHeader, List.drop_left' hlength, List.take_of_length_le (length_leBytes 4 _).le]
  rw [leAt, hcut, leNat_leBytes]
  exact Nat.mod_eq_of_lt (crc32c_lt h)

theorem cut_sealedHeader {i n : Nat} (hn : i + n ≤ 252) : cut (sealedHeader h) i n = cut h i n := by
  rw [cut, cut, sealedHeader, List.drop_append_of_le_length (by omega), List.take_append_of_le_length (by rw [List.length_drop]; omega)]

/-- A sealed header written to memory is one there. -/
theorem read_sealedHeader {s : State} {a : Nat} (hread : s.read a 256 = sealedHeader h) {i n : Nat} (hn : i + n ≤ 252) :
    s.readLe (a + i) n = leAt h i n := by
  rw [State.readLe, ← s.cut_read (m := 256) (by omega), hread, cut_sealedHeader hlength hn, leAt]

theorem crc_of_sealedHeader {s : State} {a : Nat} (hread : s.read a 256 = sealedHeader h) :
    s.read a 252 = h ∧ s.readLe (a + 252) 4 = crc32c (s.read a 252) := by
  have hfirst : s.read a 252 = h := by
    have hcut := s.cut_read (a := a) (m := 256) (i := 0) (n := 252) (by omega)
    rw [hread, cut, List.drop_zero, take_sealedHeader hlength] at hcut
    exact hcut.symm
  refine ⟨hfirst, ?_⟩
  rw [hfirst, State.readLe, ← s.cut_read (m := 256) (by omega), hread, ← leAt, crc_sealedHeader hlength]

end

end Sys2Proof.Machine
end

