-- ==== Sys2Proof/Proofs/CheckpointWriting.lean ====
section
/-! PROOF. Checkpoints: STATE 1 first, then the sections and the full header (15 R324 to R326). -/

namespace Sys2Proof.Machine

open Sys2Proof.Claims

/-! ## STATE 1 -/

/-- The first 252 bytes of a header with STATE 1. -/
def begunHeader (b : Bytes) : Bytes := b.take 5 ++ [1] ++ b.drop 6

theorem length_begunHeader {b : Bytes} (h : b.length = 252) : (begunHeader b).length = 252 := by
  simp [begunHeader, h]

theorem begunHeader_state {b : Bytes} (h : b.length = 252) : leAt (begunHeader b) 5 1 = 1 := by
  have hcut : cut (begunHeader b) 5 1 = [1] := by
    rw [cut, begunHeader, List.append_assoc, List.drop_left' (by simp [h])]
    rfl
  rw [leAt, hcut]
  rfl

theorem begunHeader_getD {b : Bytes} (h : b.length = 252) {i : Nat} (hi : i ≠ 5) (d : Byte) : (begunHeader b).getD i d = b.getD i d := by
  have hprefix : (b.take 5 ++ [1] : Bytes).length = 6 := by simp [h]
  rw [List.getD_eq_getElem?_getD, List.getD_eq_getElem?_getD, begunHeader]
  rcases Nat.lt_or_gt_of_ne hi with hlow | hhigh
  · rw [List.append_assoc, List.getElem?_append_left (by simp [h]; omega), List.getElem?_take_of_lt hlow]
  · rw [List.getElem?_append_right (by omega), hprefix, List.getElem?_drop, Nat.add_sub_cancel' hhigh]

theorem State.ckptBegin_eq (s : State) (p : PitchId) : s.ckptBegin p =
    (s.write ((s.pitch p).ckptSlot p (s.targetSlot p)) (sealedHeader (begunHeader (s.read ((s.pitch p).ckptSlot p (s.targetSlot p)) 252)))).setPitch
      p { s.pitch p with time := { (s.pitch p).time with ckptSlot := some (s.targetSlot p) } } := rfl

section
variable {s : State} {p : PitchId} (hup : s.held = false)

theorem exec_checkpointWrite (hup : s.held = false) : exec (.checkpointWrite p) s = .next (s.checkpointWriteOp p) :=
  live_next s (fun s => s.checkpointWriteOp p) hup

include hup

/-- The first event of a checkpoint that is due writes STATE 1 in the header of the target slot. -/
theorem checkpointWrite_begins (hnone : ∀ o ∈ (s.pitch p).mail.owed, o.why ≠ .ckptNow) (hover : (s.pitch p).stepOver = true)
    (harmed : (s.pitch p).time.ckptArmed = true) (hdone : (s.pitch p).time.ckptDone = false) (hslot : (s.pitch p).time.ckptSlot = none) :
    ∃ t a, exec (.checkpointWrite p) s = .next t ∧ a = (s.pitch p).ckptSlot p (s.targetSlot p) ∧
      t.readLe (a + 5) 1 = 1 ∧ t.readLe (a + 252) 4 = crc32c (t.read a 252) ∧ SameOutside s t a 256 ∧
      (∀ i, i < 252 → i ≠ 5 → t.byte (a + i) = s.byte (a + i)) ∧
      t = { s with pitches := t.pitches, mem := t.mem } ∧ (∀ q, q ≠ p → t.pitch q = s.pitch q) ∧
      t.pitch p = { s.pitch p with time := { (s.pitch p).time with ckptSlot := some (s.targetSlot p) } } := by
  have howes : (s.pitch p).mail.owed.any (fun o => o.why = .ckptNow) = false :=
    List.any_eq_false.mpr fun o ho => by simpa using hnone o ho
  have hop : s.checkpointWriteOp p = s.ckptBegin p := by simp [State.checkpointWriteOp, howes, hover, harmed, hdone, hslot]
  have hrun := exec_checkpointWrite (p := p) hup
  rw [hop, State.ckptBegin_eq] at hrun
  generalize (s.pitch p).ckptSlot p (s.targetSlot p) = a at hrun ⊢
  have hb : (s.read a 252).length = 252 := s.length_read a 252
  have hh := length_begunHeader hb
  have hlength := length_sealedHeader hh
  have hread := s.read_write a (sealedHeader (begunHeader (s.read a 252)))
  rw [hlength] at hread
  refine ⟨_, a, hrun, rfl, ?_, (crc_of_sealedHeader hh hread).2, fun b hb => State.byte_write_out s a b _ (by rwa [hlength]),
    fun i hi hne => ?_, rfl, fun q hq => State.pitch_setPitch_ne _ _ _ _ hq, State.pitch_setPitch _ _ _⟩
  · exact (read_sealedHeader hh hread (i := 5) (n := 1) (by decide)).trans (begunHeader_state hb)
  · refine (State.byte_write_in s a i _ (by omega)).trans ?_
    rw [sealedHeader, List.getD_append _ _ _ _ (by omega), begunHeader_getD hb hne, State.read_getD hi]

end

/-! ## The sections and the full header -/

/-- The first 252 bytes of a complete header. -/
def Pitch.ckptHead (x : Pitch) (p : PitchId) (ckStep ckSeq content count : Nat) : Bytes :=
  [0x43, 0x4B, 0x50, 0x54, 1, 2] ++ leBytes 2 x.rank ++ leBytes 8 ckStep ++ leBytes 16 x.rsig.toNat
    ++ leBytes 4 x.member.record.epoch.toNat ++ leBytes 2 x.member.record.group.toNat ++ [0, 0] ++ leBytes 8 ckSeq
    ++ x.guardBytes p ++ leBytes 8 content ++ leBytes 4 count ++ List.replicate 128 0

theorem Pitch.ckptHeader_eq (x : Pitch) (p : PitchId) (ckStep ckSeq content count : Nat) :
    x.ckptHeader p ckStep ckSeq content count = sealedHeader (x.ckptHead p ckStep ckSeq content count) := rfl

theorem length_guardRecord (g : Guard) (ls : Int) (clean : W32) : (guardRecord g ls clean).length = 64 := by
  simp [guardRecord, length_leBytes]

theorem Pitch.length_guardBytes (x : Pitch) (p : PitchId) : (x.guardBytes p).length = 64 := by
  unfold Pitch.guardBytes
  split
  · exact length_guardRecord _ _ _
  · exact length_guardRecord _ _ _

section
variable (x : Pitch) (p : PitchId) (ckStep ckSeq content count : Nat)

theorem Pitch.length_ckptHead : (x.ckptHead p ckStep ckSeq content count).length = 252 := by
  simp only [Pitch.ckptHead, List.length_append, length_leBytes, Pitch.length_guardBytes, List.length_replicate, List.length_cons,
    List.length_nil]

theorem Pitch.ckptHead_magic : (x.ckptHead p ckStep ckSeq content count).take 5 = [0x43, 0x4B, 0x50, 0x54, 1] ∧
    leAt (x.ckptHead p ckStep ckSeq content count) 5 1 = 2 := by
  simp only [Pitch.ckptHead, List.append_assoc]
  exact ⟨rfl, rfl⟩

theorem Pitch.ckptHead_step : leAt (x.ckptHead p ckStep ckSeq content count) 8 8 = ckStep % 2 ^ 64 := by
  have hfirst : ([0x43, 0x4B, 0x50, 0x54, 1, 2] ++ leBytes 2 x.rank : Bytes).length = 8 := by simp [length_leBytes]
  have hcut : cut (x.ckptHead p ckStep ckSeq content count) 8 8 = leBytes 8 ckStep := by
    simp only [cut, Pitch.ckptHead, List.append_assoc]
    rw [← List.append_assoc, List.drop_left' hfirst, List.take_left' (length_leBytes 8 _)]
  rw [leAt, hcut, leNat_leBytes]
  norm_num

end

/-- A complete header in memory is that of a complete checkpoint. -/
theorem slotComplete_of_read {s : State} {a : Nat} {x : Pitch} {p : PitchId} {ckStep ckSeq content count : Nat}
    (hread : s.read a 256 = x.ckptHeader p ckStep ckSeq content count) :
    s.slotComplete a = true ∧ s.readLe (a + 8) 8 = ckStep % 2 ^ 64 := by
  have hlength := x.length_ckptHead p ckStep ckSeq content count
  obtain ⟨hmagic, hstate⟩ := x.ckptHead_magic p ckStep ckSeq content count
  rw [Pitch.ckptHeader_eq] at hread
  refine ⟨?_, (read_sealedHeader hlength hread (by decide)).trans (x.ckptHead_step p ckStep ckSeq content count)⟩
  have htake : (sealedHeader (x.ckptHead p ckStep ckSeq content count)).take 5 = [0x43, 0x4B, 0x50, 0x54, 1] := by
    rw [sealedHeader, List.take_append_of_le_length (by omega), hmagic]
  have hbyte : leAt (sealedHeader (x.ckptHead p ckStep ckSeq content count)) 5 1 = 2 := by
    rw [leAt, cut_sealedHeader hlength (by decide)]
    exact hstate
  rw [State.slotComplete, hread, htake, hbyte, crc_sealedHeader hlength, take_sealedHeader hlength]
  simp

/-- Counting the blocks of an image leaves every counter but those of blocks and of NDC. -/
theorem counter_countDeltas {c : PCtr} (hndc : c ≠ .ndcTime ∧ c ≠ .ndcBits) (hdelta : c ≠ .deltaZero ∧ c ≠ .deltaRaw ∧ c ≠ .deltaCoded)
    (es : List DirEntry) (x : Pitch) : (es.foldl Pitch.countDelta x).counter c = x.counter c ∧
    es.foldl Pitch.countDelta x = { x with counters := (es.foldl Pitch.countDelta x).counters } := by
  obtain ⟨hzero, hraw, hcoded⟩ := hdelta
  induction es generalizing x with
  | nil => exact ⟨rfl, rfl⟩
  | cons e es ih =>
    obtain ⟨hcounter, hrest⟩ := ih (x.countDelta e)
    refine ⟨hcounter.trans (Pitch.counter_count_ne x hndc.1 hndc.2 ?_ 1), hrest.trans ?_⟩
    · split
      · exact hzero
      · split
        · exact hraw
        · exact hcoded
    · rw [List.foldl_cons, Pitch.countDelta, Pitch.count_rest]

section
variable (s : State) (p : PitchId) (k : Nat)

/-- The state with the sections written, then the full header. -/
def State.ckptWritten : State :=
  let body := (s.ckptSections p (s.pitch p).time.step.toNat).1.flatten
  (s.write ((s.pitch p).ckptSlot p k + 256) body).write ((s.pitch p).ckptSlot p k)
    ((s.pitch p).ckptHeader p ((s.pitch p).time.step + 1).toNat ((s.pitch p).ckSeq + 1) body.length
      (s.ckptSections p (s.pitch p).time.step.toNat).1.length)

/-- The pitch with the checkpoint and its blocks counted. -/
def Pitch.ckptCounted (x : Pitch) (es : List DirEntry) : Pitch := es.foldl Pitch.countDelta (x.count .ckptMarks)

theorem State.ckptFinish_eq : s.ckptFinish p k = ((s.ckptWritten p k).setPitch p
    { (s.pitch p).ckptCounted (s.ckptSections p (s.pitch p).time.step.toNat).2 with
      ckSeq := (s.pitch p).ckSeq + 1
      time := { ((s.pitch p).ckptCounted (s.ckptSections p (s.pitch p).time.step.toNat).2).time with ckptSlot := none } }).modRetained p
        (fun r => { r with ckSeq := (s.pitch p).ckSeq + 1 }) := rfl

theorem Pitch.ckptCounted_spec (x : Pitch) (es : List DirEntry) : (x.ckptCounted es).counter .ckptMarks = x.counter .ckptMarks + 1 ∧
    x.ckptCounted es = { x with counters := (x.ckptCounted es).counters } := by
  obtain ⟨hcounter, hrest⟩ := counter_countDeltas (c := .ckptMarks) (by decide) (by decide) es (x.count .ckptMarks)
  refine ⟨hcounter.trans (Pitch.counter_count x (c := .ckptMarks) (by decide) (by decide) 1), hrest.trans ?_⟩
  rw [Pitch.count_rest]
  rfl

theorem ckptWritten_bytes : (s.ckptWritten p k).slotComplete ((s.pitch p).ckptSlot p k) = true ∧
    (s.ckptWritten p k).readLe ((s.pitch p).ckptSlot p k + 8) 8 = ((s.pitch p).time.step + 1).toNat ∧
    SameOutside s (s.ckptWritten p k) ((s.pitch p).ckptSlot p k) (ckptLen s p) := by
  unfold State.ckptWritten ckptLen
  extract_lets body
  generalize (s.ckptSections p (s.pitch p).time.step.toNat).1.length = count
  let head := (s.pitch p).ckptHeader p ((s.pitch p).time.step + 1).toNat ((s.pitch p).ckSeq + 1) body.length count
  have hhead : head.length = 256 := length_sealedHeader (Pitch.length_ckptHead _ _ _ _ _ _)
  have hread := (s.write ((s.pitch p).ckptSlot p k + 256) body).read_write ((s.pitch p).ckptSlot p k) head
  rw [hhead] at hread
  obtain ⟨hcomplete, hstep⟩ := slotComplete_of_read hread
  refine ⟨hcomplete, hstep.trans (Nat.mod_eq_of_lt (BitVec.isLt _)), fun b hb => ?_⟩
  have hout : b < (s.pitch p).ckptSlot p k ∨ (s.pitch p).ckptSlot p k + (256 + body.length) ≤ b := hb
  rw [State.byte_write_out _ _ b head (by omega), State.byte_write_out _ _ b body (by omega)]

/-- Writing the sections and the full header leaves a complete checkpoint in the slot, counted, and nothing else. -/
theorem ckptFinish_spec : CkptWritten s (s.ckptFinish p k) p k ∧ SameOutside s (s.ckptFinish p k) ((s.pitch p).ckptSlot p k) (ckptLen s p) ∧
    (∀ q, q ≠ p → (s.ckptFinish p k).pitch q = s.pitch q) ∧
    (s.ckptFinish p k).pitch p = { s.pitch p with
      time := { (s.pitch p).time with ckptSlot := none }, ckSeq := (s.pitch p).ckSeq + 1
      counters := ((s.ckptFinish p k).pitch p).counters } ∧
    s.ckptFinish p k = { s with pitches := (s.ckptFinish p k).pitches, mem := (s.ckptFinish p k).mem
                                retained := (s.ckptFinish p k).retained, flash := (s.ckptFinish p k).flash } := by
  obtain ⟨hcomplete, hstep, houtside⟩ := ckptWritten_bytes s p k
  obtain ⟨hcounter, hrest⟩ := (s.pitch p).ckptCounted_spec (s.ckptSections p (s.pitch p).time.step.toNat).2
  rw [State.ckptFinish_eq]
  generalize (s.pitch p).ckptCounted (s.ckptSections p (s.pitch p).time.step.toNat).2 = y at hcounter hrest ⊢
  have hrest' : s.ckptWritten p k = { s with mem := (s.ckptWritten p k).mem } := rfl
  generalize s.ckptWritten p k = u at hcomplete hstep houtside hrest' ⊢
  let z : Pitch := { y with ckSeq := (s.pitch p).ckSeq + 1, time := { y.time with ckptSlot := none } }
  have hpitch : ((u.setPitch p z).modRetained p (fun r => { r with ckSeq := (s.pitch p).ckSeq + 1 })).pitch p = z :=
    State.pitch_setPitch u p z
  refine ⟨⟨hcomplete, hstep, ?_, ?_⟩, houtside, fun q hq => ?_, ?_, ?_⟩
  · rw [hpitch]
  · rw [hpitch]
    exact hcounter
  · refine (State.pitch_setPitch_ne u p q z hq).trans ?_
    rw [hrest']
    rfl
  · rw [hpitch]
    unfold z
    rw [hrest]
  · rw [hrest']
    rfl

end

section
variable {s : State} {p : PitchId} (hup : s.held = false)
include hup

/-- The second event of a checkpoint that is due writes it. -/
theorem checkpointWrite_finishes (hnone : ∀ o ∈ (s.pitch p).mail.owed, o.why ≠ .ckptNow) (hover : (s.pitch p).stepOver = true)
    (harmed : (s.pitch p).time.ckptArmed = true) (hdone : (s.pitch p).time.ckptDone = false) {k : Nat}
    (hslot : (s.pitch p).time.ckptSlot = some k) :
    ∃ t, exec (.checkpointWrite p) s = .next t ∧ CkptWritten s t p k ∧ SameOutside s t ((s.pitch p).ckptSlot p k) (ckptLen s p) ∧
      (∀ q, q ≠ p → t.pitch q = s.pitch q) ∧
      t.pitch p = { s.pitch p with time := { (s.pitch p).time with ckptDone := true, ckptSlot := none }
                                   ckSeq := (t.pitch p).ckSeq, counters := (t.pitch p).counters } ∧
      t = { s with pitches := t.pitches, mem := t.mem, retained := t.retained, flash := t.flash } := by
  have howes : (s.pitch p).mail.owed.any (fun o => o.why = .ckptNow) = false :=
    List.any_eq_false.mpr fun o ho => by simpa using hnone o ho
  have hop : s.checkpointWriteOp p = (s.ckptFinish p k).modPitch p (fun x => { x with time := { x.time with ckptDone := true } }) := by
    simp [State.checkpointWriteOp, howes, hover, harmed, hdone, hslot]
  have hrun := exec_checkpointWrite (p := p) hup
  rw [hop] at hrun
  obtain ⟨⟨hcomplete, hstep, hseq, hcounter⟩, houtside, hothers, hpitch, hrest⟩ := ckptFinish_spec s p k
  generalize s.ckptFinish p k = u at hrun hcomplete hstep hseq hcounter houtside hothers hpitch hrest
  have hmarked : (u.modPitch p (fun x => { x with time := { x.time with ckptDone := true } })).pitch p =
      { u.pitch p with time := { (u.pitch p).time with ckptDone := true } } := State.pitch_modPitch _ _ _
  refine ⟨_, hrun, ⟨hcomplete, hstep, ?_, ?_⟩, houtside, fun q hq => (State.pitch_setPitch_ne u p q _ hq).trans (hothers q hq), ?_, ?_⟩
  · rw [hmarked]
    exact hseq
  · rw [hmarked]
    exact hcounter
  · rw [hmarked, hpitch]
  · rw [hrest]
    rfl

end

/-! ## A checkpoint that a command waits for -/

theorem padTo_self (bs : Bytes) : padTo bs.length bs = bs := by
  rw [padTo, Nat.sub_self, List.replicate_zero, List.append_nil, List.take_length]

/-- RESULT of a response that fills it. -/
theorem cut_responseBytes (x : Pitch) (op : W16) (fl : Nat) (q : W32) (tag : W16) (r : Refuse) {result : Bytes} (h : result.length = 16)
    (i n : Nat) : cut (responseBytes x op fl q tag r result) (16 + i) n = cut result i n := by
  have hprefix : (leBytes 2 op.toNat ++ leBytes 1 fl ++ leBytes 1 x.stateByte ++ leBytes 4 q.toNat ++ leBytes 2 tag.toNat ++
      leBytes 2 r.status ++ leBytes 4 r.detail).length = 16 := by simp [length_leBytes]
  have hpad : padTo 16 result = result := h ▸ padTo_self result
  rw [responseBytes, hpad, cut, ← List.drop_drop, List.drop_left' hprefix, ← cut]

theorem ckptResult_spec (x : Pitch) (seq : Nat) : (x.ckptResult seq).length = 16 ∧
    leAt (x.ckptResult seq) 0 8 = (x.time.step + 1).toNat ∧ leAt (x.ckptResult seq) 8 8 = seq % 2 ^ 64 := by
  have hfirst : cut (x.ckptResult seq) 0 8 = leBytes 8 (x.time.step + 1).toNat := List.take_left' (length_leBytes 8 _)
  have hlast : cut (x.ckptResult seq) 8 8 = leBytes 8 seq := by
    rw [cut, Pitch.ckptResult, List.drop_left' (length_leBytes 8 _), List.take_of_length_le (length_leBytes 8 _).le]
  refine ⟨by simp [Pitch.ckptResult, length_leBytes], ?_, ?_⟩
  · rw [leAt, hfirst, leNat_leBytes]
    exact Nat.mod_eq_of_lt (BitVec.isLt _)
  · rw [leAt, hlast, leNat_leBytes]
    norm_num

/-- The one command that waits is answered: its response is the newest of the cache, and nothing is owed any more. -/
theorem answerOwed_spec {u : State} {p : PitchId} {o : Owed} (howed : (u.pitch p).mail.owed = [o]) (r : Refuse) (b : Bytes) :
    ∃ y, MailFrame p u ((u.answerOwed p o.why r b).retain p) ∧ PitchIs p ((u.answerOwed p o.why r b).retain p) (u.pitch p) ∧
      (((u.answerOwed p o.why r b).retain p).pitch p).mail.owed = [] ∧
      (((u.answerOwed p o.why r b).retain p).pitch p).mail.cache.head? =
        some ⟨o.seq, o.opcode, responseBytes y o.opcode o.flags o.seq o.tag r b⟩ := by
  let x : Pitch := { u.pitch p with mail := { (u.pitch p).mail with owed := [] } }
  have hanswer : u.answerOwed p o.why r b = (u.setPitch p x).respond p o.opcode o.flags o.seq o.tag r b := by
    simp [State.answerOwed, howed, x]
  obtain ⟨hframe, hown, -, hempty, -, hcache⟩ := (u.setPitch p x).respond_spec p o.opcode o.flags o.seq o.tag r b
  rw [← hanswer] at hframe hown hempty hcache
  obtain ⟨kframe, kpitch⟩ := (u.answerOwed p o.why r b).retain_spec p
  refine ⟨(u.setPitch p x).pitch p, ((MailFrame.setPitch u p x).trans hframe).trans kframe, ?_, ?_, ?_⟩
  · rw [PitchIs, State.pitch_setPitch] at hown
    rw [PitchIs, kpitch, hown]
  · rw [kpitch, hempty, State.pitch_setPitch]
  · rw [kpitch, hcache]

/-- A complete checkpoint in HBM stays one while a response is written. -/
theorem ckptWritten_of_frame {s u t : State} {p : PitchId} {k : Nat} (h : CkptWritten s u p k) (hbase : hbmBase ≤ (s.pitch p).ckptBase p)
    (hframe : MailFrame p u t) (hpitch : PitchIs p t (u.pitch p)) : CkptWritten s t p k := by
  obtain ⟨hcomplete, hstep, hseq, hcounter⟩ := h
  have hslot : hbmBase ≤ (s.pitch p).ckptSlot p k := hbase.trans (Nat.le_add_right _ _)
  have hbytes : ∀ a, hbmBase ≤ a → t.byte a = u.byte a := fun a ha => hframe.bytes a (.inr (by
    have hp := p.isLt
    unfold hbmBase at ha
    unfold queueBase
    omega))
  have hread : ∀ i n, t.read ((s.pitch p).ckptSlot p k + i) n = u.read ((s.pitch p).ckptSlot p k + i) n := fun i n =>
    State.read_congr fun j _ => hbytes _ (by omega)
  rw [PitchIs] at hpitch
  refine ⟨?_, ?_, ?_, ?_⟩
  · have hhead : t.read ((s.pitch p).ckptSlot p k) 256 = u.read ((s.pitch p).ckptSlot p k) 256 := hread 0 256
    rw [State.slotComplete, hhead]
    exact hcomplete
  · rw [State.readLe, hread]
    exact hstep
  · rw [hpitch]
    exact hseq
  · rw [hpitch]
    exact hcounter

/-- A checkpoint that a command waits for is written, and the command answered. -/
theorem checkpointWrite_owed {s : State} {p : PitchId} (hup : s.held = false) {o : Owed} {k : Nat} (howed : (s.pitch p).mail.owed = [o])
    (hwhy : o.why = .ckptNow) (hslot : (s.pitch p).time.ckptSlot = some k) (hbase : hbmBase ≤ (s.pitch p).ckptBase p) :
    ∃ t, exec (.checkpointWrite p) s = .next t ∧ CkptWritten s t p k ∧ (t.pitch p).mail.owed = [] ∧
      (∃ e, (t.pitch p).mail.cache.head? = some ⟨o.seq, o.opcode, e⟩ ∧ leAt e 10 2 = 0 ∧
        leAt e 16 8 = ((s.pitch p).time.step + 1).toNat ∧ leAt e 24 8 = ((s.pitch p).ckSeq + 1) % 2 ^ 64) ∧
      PitchIs p t { s.pitch p with time := { (s.pitch p).time with ckptSlot := none }, ckSeq := (t.pitch p).ckSeq
                                   counters := (t.pitch p).counters } := by
  have hop : s.checkpointWriteOp p =
      ((s.ckptFinish p k).answerOwed p o.why ⟨stOk, 0⟩ ((s.pitch p).ckptResult ((s.pitch p).ckSeq + 1))).retain p := by
    simp [State.checkpointWriteOp, State.ckptOwed, howed, hwhy, hslot]
  have hrun := exec_checkpointWrite (p := p) hup
  rw [hop] at hrun
  obtain ⟨hwritten, -, -, hpitch, -⟩ := ckptFinish_spec s p k
  generalize s.ckptFinish p k = u at hrun hwritten hpitch
  have howes : (u.pitch p).mail.owed = [o] := by
    rw [hpitch]
    exact howed
  obtain ⟨hresult, hstep, hseq⟩ := ckptResult_spec (s.pitch p) ((s.pitch p).ckSeq + 1)
  generalize (s.pitch p).ckptResult ((s.pitch p).ckSeq + 1) = result at hrun hresult hstep hseq
  obtain ⟨y, hframe, hown, hempty, hcache⟩ := answerOwed_spec howes ⟨stOk, 0⟩ result
  obtain ⟨hstatus, -⟩ := status_responseBytes y o.opcode o.flags o.seq o.tag ⟨stOk, 0⟩ result
  have hresultAt : ∀ i n, leAt (responseBytes y o.opcode o.flags o.seq o.tag ⟨stOk, 0⟩ result) (16 + i) n = leAt result i n := by
    intro i n
    rw [leAt, cut_responseBytes _ _ _ _ _ _ hresult, leAt]
  refine ⟨_, hrun, ckptWritten_of_frame hwritten hbase hframe hown, hempty,
    ⟨_, hcache, hstatus, (hresultAt 0 8).trans hstep, (hresultAt 8 8).trans hseq⟩, ?_⟩
  rw [PitchIs] at hown ⊢
  rw [hown, hpitch]

end Sys2Proof.Machine
end

