-- ==== Sys2Proof/Proofs/SnapshotExports.lean ====
section
/-! PROOF. Snapshot exports: the image goes to host memory, or leaves as frames of the drain window (15 R318, R330). -/

namespace Sys2Proof.Machine

open Sys2Proof.Claims

/-! ## Writes to host memory -/

/-- A write to host memory leaves on its port, which is up, in pieces of 4,096 bytes. -/
theorem State.hostStore_told {s : State} {h : HostPort} (hup : s.hostUp h = true) (a : W64) (d : Bytes) :
    HostsTold s (s.hostStore h a d) (dmaWrites h a d) := by
  unfold State.hostStore dmaWrites
  generalize (chunks 4096 d).zipIdx = es
  induction es generalizing s with
  | nil => exact ⟨rfl, (List.append_nil _).symm, rfl⟩
  | cons e es ih =>
    have hfirst := s.sendHost_told h (.dmaWr (a + BitVec.ofNat 64 (4096 * e.2)) e.1)
    have hstill : (s.sendHost h (.dmaWr (a + BitVec.ofNat 64 (4096 * e.2)) e.1)).hostUp h = true := by rw [hfirst.hostUp, hup]
    have hall := hfirst.trans (ih hstill)
    simpa [hup] using hall

/-! ## The image -/

/-- The entries of the image's blocks. -/
def exportBlocks (s : State) (p : PitchId) (k : Nat) (parts : List Bytes) : List DirEntry :=
  let x := s.pitch p
  let v := x.snapDest p k
  let n := snapElems x.eff.buckets x.size v
  (makeImage (if bitOf v 1 then bitsOf v 7 3 else 1) n (bitsOf v 319 256) x.time.step.toNat (words16 (parts.getD 0 []))
    (if bitsOf v 255 192 = 0 then List.replicate n 0 else words16 (parts.getD 1 []))).2

/-- The pitch once its host bytes have become the image. -/
def Pitch.imageMade (x : Pitch) (k : Nat) (es : List DirEntry) : Pitch := (es.foldl Pitch.countDelta x).dropFetch (snapQueue k)

theorem Pitch.imageMade_spec (x : Pitch) (k : Nat) (es : List DirEntry) :
    (x.imageMade k es).counter .snapExports = x.counter .snapExports ∧
    x.imageMade k es = { x with counters := (x.imageMade k es).counters, queues := (x.imageMade k es).queues } := by
  obtain ⟨hcounter, hrest⟩ := counter_countDeltas (c := .snapExports) (by decide) (by decide) es x
  refine ⟨hcounter, ?_⟩
  rw [Pitch.imageMade, hrest]
  rfl

/-- With its bytes there, a snapshot makes its image and hands it on. -/
theorem exportRun_ready {s : State} {p : PitchId} {k : Nat} {parts : List Bytes}
    (hready : s.descFetch p (snapQueue k) (snapQueue k) (exportNeeds s p k) = .ready parts) :
    s.exportRun p k = (s.setPitch p ((s.pitch p).imageMade k (exportBlocks s p k parts))).exportImage p k ((s.pitch p).snapDest p k)
      (exportBytes s p k parts) := by
  unfold State.exportRun
  extract_lets x v n fmt src base
  rw [show s.descFetch p (snapQueue k) (snapQueue k) ([(src, 2 * n)] ++ baseRange base 0 n) = .ready parts from hready]
  rfl

theorem exec_snapshotExportWrite {s : State} {p : PitchId} (hup : s.held = false) {k : Fin 8} (hdue : (s.pitch p).exportDue k.val = true) :
    exec (.snapshotExportWrite p k) s = .next (s.exportRun p k.val) :=
  (live_next s _ hup).trans (congrArg Host.Outcome.next (if_pos hdue))

/-! ## To host memory -/

theorem exportDone_spec {u : State} {p : PitchId} {k : Nat} (hnone : ∀ o ∈ (u.pitch p).mail.owed, o.why ≠ .snapNow k) :
    ∃ y, u.exportDone p k = u.setPitch p y ∧ k ∈ y.time.exportsDone ∧ y.counter .snapExports = (u.pitch p).counter .snapExports + 1 := by
  have howes : ¬ (u.pitch p).mail.owed.any (fun o => o.why = .snapNow k) = true := by
    simpa using hnone
  refine ⟨{ (u.pitch p).count .snapExports with time := { ((u.pitch p).count .snapExports).time with
    exportsDone := addNew k ((u.pitch p).count .snapExports).time.exportsDone } }, ?_, ?_, ?_⟩
  · refine (if_neg howes).trans ?_
    simp [State.modPitch, State.count, State.setPitch, State.pitch]
  · simp only [addNew]
    split
    · assumption
    · simp
  · exact Pitch.counter_count (u.pitch p) (c := .snapExports) (by decide) (by decide) 1

/-- A snapshot whose destination is host memory is stored through the pitch's first port, and is then done. -/
theorem exportImage_host {s : State} {p : PitchId} {k v : Nat} (hhost : bitOf v 2 = false) (img : Bytes) :
    s.exportImage p k v img =
      (s.hostStore ((s.pitch p).ports.headD 0) (BitVec.ofNat 64 (bitsOf v 383 320)) img).exportDone p k := by
  have hport : s.fetchPort p (snapQueue k) = (s.pitch p).ports.headD 0 := if_neg (Nat.not_lt.mpr (Nat.le_add_right 2048 k))
  rw [← hport]
  unfold State.exportImage
  rw [if_neg (by simp [hhost])]
  rfl

theorem export_host {s : State} {p : PitchId} (hup : s.held = false) {k : Fin 8} {parts : List Bytes}
    (hdue : (s.pitch p).exportDue k.val = true)
    (hready : s.descFetch p (snapQueue k.val) (snapQueue k.val) (exportNeeds s p k.val) = .ready parts)
    (hhost : bitOf ((s.pitch p).snapDest p k.val) 2 = false) (hport : s.hostUp ((s.pitch p).ports.headD 0) = true)
    (hnone : ∀ o ∈ (s.pitch p).mail.owed, o.why ≠ .snapNow k.val) :
    ∃ t, exec (.snapshotExportWrite p k) s = .next t ∧ t = { s with pitches := t.pitches, hostOut := t.hostOut, hostPorts := t.hostPorts } ∧
      t.hostOut = s.hostOut ++ dmaWrites ((s.pitch p).ports.headD 0)
        (BitVec.ofNat 64 (bitsOf ((s.pitch p).snapDest p k.val) 383 320)) (exportBytes s p k.val parts) ∧
      k.val ∈ (t.pitch p).time.exportsDone ∧ (t.pitch p).counter .snapExports = (s.pitch p).counter .snapExports + 1 := by
  have hrun := exec_snapshotExportWrite hup hdue
  rw [exportRun_ready hready] at hrun
  obtain ⟨hcounter, hrest⟩ := (s.pitch p).imageMade_spec k.val (exportBlocks s p k.val parts)
  generalize (s.pitch p).imageMade k.val (exportBlocks s p k.val parts) = y at hrun hcounter hrest
  generalize exportBytes s p k.val parts = img at hrun ⊢
  generalize (s.pitch p).snapDest p k.val = v at hrun hhost ⊢
  have hports : y.ports = (s.pitch p).ports := by rw [hrest]; rfl
  have howed : y.mail.owed = (s.pitch p).mail.owed := by rw [hrest]
  have hleaves := exportImage_host (s := s.setPitch p y) (p := p) (k := k.val) hhost img
  rw [State.pitch_setPitch, hports] at hleaves
  have htold := State.hostStore_told (s := s.setPitch p y) hport (BitVec.ofNat 64 (bitsOf v 383 320)) img
  have hpitch := htold.pitch p
  generalize (s.setPitch p y).hostStore _ _ _ = u at hleaves htold hpitch
  rw [State.pitch_setPitch] at hpitch
  obtain ⟨z, hexport, hdone, hcount⟩ := exportDone_spec (u := u) (p := p) (k := k.val) (by rw [hpitch, howed]; exact hnone)
  obtain ⟨hothers, hout, -⟩ := htold
  refine ⟨u.setPitch p z, by rw [hrun, hleaves, hexport], ?_, hout, ?_, ?_⟩
  · rw [hothers]; rfl
  · rwa [State.pitch_setPitch]
  · rw [State.pitch_setPitch, hcount, hpitch, hcounter]

/-! ## To a rank of the group -/

theorem mem_insertBy {α : Type} (le : α → α → Bool) (x y : α) (ys : List α) (h : x = y ∨ x ∈ ys) : x ∈ insertBy le y ys := by
  induction ys with
  | nil => simpa [insertBy] using h
  | cons z zs ih =>
    unfold insertBy
    split
    · rcases h with h | h
      · exact List.mem_cons_of_mem _ (ih (.inl h))
      · rcases List.mem_cons.mp h with rfl | h
        · exact List.mem_cons_self
        · exact List.mem_cons_of_mem _ (ih (.inr h))
    · simpa using h

theorem Pitch.mem_enqueues (fs : List TxFrame) (x : Pitch) {f : TxFrame} (h : f ∈ fs ∨ f ∈ x.tx.txq) :
    f ∈ (fs.foldl Pitch.enqueue x).tx.txq := by
  induction fs generalizing x with
  | nil => simpa using h
  | cons g fs ih =>
    refine ih (x.enqueue g) ?_
    rcases h with h | h
    · rcases List.mem_cons.mp h with rfl | h
      · exact .inr (mem_insertBy _ _ _ _ (.inl rfl))
      · exact .inl h
    · exact .inr (mem_insertBy _ _ _ _ (.inr h))

/-- The frames of a snapshot, one for each 4,096 bytes of its image. -/
def exportFrames (k v : Nat) (img : Bytes) : List TxFrame :=
  (chunks 4096 img).zipIdx.map (fun e =>
    { dst := bitsOf v 47 32, opcode := BitVec.ofNat 8 opWrite, bucket := 0xFFFF, block := BitVec.ofNat 32 tgOneSided
      offset := BitVec.ofNat 64 (bitsOf v 383 320 + 4096 * e.2), payload := e.1, ackNow := e.2 + 1 = (chunks 4096 img).length
      windowed := true, planSeq := 0xFFFF, planBlock := tgOneSided, planIdx := e.2, use := .snapshot k, window := some none })

/-- A snapshot whose destination is a rank of the group is queued in frames, each of which counts for the drain window. -/
theorem exportImage_group {s : State} {p : PitchId} {k v : Nat} (hgroup : bitOf v 2 = true) (hrank : bitsOf v 47 32 < (s.pitch p).size)
    (img : Bytes) :
    s.exportImage p k v img = s.setPitch p
      ((exportFrames k v img).foldl Pitch.enqueue ((s.pitch p).count .winDrain (chunks 4096 img).length)) := by
  unfold State.exportImage
  rw [if_pos hgroup, if_neg (Nat.not_le.mpr hrank)]
  simp [State.enqueueAll, State.count, State.modPitch, State.setPitch, State.pitch, exportFrames]

theorem export_frames {s : State} {p : PitchId} (hup : s.held = false) {k : Fin 8} {parts : List Bytes}
    (hdue : (s.pitch p).exportDue k.val = true)
    (hready : s.descFetch p (snapQueue k.val) (snapQueue k.val) (exportNeeds s p k.val) = .ready parts)
    (hgroup : bitOf ((s.pitch p).snapDest p k.val) 2 = true) (hrank : bitsOf ((s.pitch p).snapDest p k.val) 47 32 < (s.pitch p).size) :
    ∃ t, exec (.snapshotExportWrite p k) s = .next t ∧ OnlyPitch p s t ∧
      t.pitch p = { s.pitch p with tx := { (s.pitch p).tx with txq := (t.pitch p).tx.txq }, queues := (t.pitch p).queues
                                   counters := (t.pitch p).counters } ∧
      ∀ e ∈ (chunks 4096 (exportBytes s p k.val parts)).zipIdx, ∃ f ∈ (t.pitch p).tx.txq, f.use = .snapshot k.val ∧ f.window = some none ∧
        f.dst = bitsOf ((s.pitch p).snapDest p k.val) 47 32 ∧ f.payload = e.1 ∧
        f.offset = BitVec.ofNat 64 (bitsOf ((s.pitch p).snapDest p k.val) 383 320 + 4096 * e.2) := by
  have hrun := exec_snapshotExportWrite hup hdue
  rw [exportRun_ready hready] at hrun
  obtain ⟨-, hrest⟩ := (s.pitch p).imageMade_spec k.val (exportBlocks s p k.val parts)
  generalize (s.pitch p).imageMade k.val (exportBlocks s p k.val parts) = y at hrun hrest
  generalize exportBytes s p k.val parts = img at hrun ⊢
  generalize (s.pitch p).snapDest p k.val = v at hrun hgroup hrank ⊢
  have hsize : y.size = (s.pitch p).size := by rw [hrest]; rfl
  rw [exportImage_group hgroup (by rw [State.pitch_setPitch, hsize]; exact hrank), State.pitch_setPitch] at hrun
  refine ⟨_, hrun, onlyPitch_trans (onlyPitch_setPitch s p y) (onlyPitch_setPitch _ p _), ?_, fun e he => ?_⟩
  · obtain ⟨txq, hframes⟩ := Pitch.enqueues (exportFrames k.val v img) (y.count .winDrain (chunks 4096 img).length)
    rw [State.pitch_setPitch, hframes, Pitch.count_rest, hrest]
  · rw [State.pitch_setPitch]
    exact ⟨_, Pitch.mem_enqueues _ _ (.inl (List.mem_map_of_mem he)), rfl, rfl, rfl, rfl, rfl⟩

/-- Settles O37: the completion of a step, the two events of a checkpoint, and the two ways of a snapshot. -/
theorem stepEndAndImages : Obligations.StepEndAndImages := by
  refine ⟨fun s p hup hmay hstay hkeeps => ⟨fun hheld => ?_, fun v hheld => ?_⟩, fun s p hup => ⟨fun hnone hover harmed hdone =>
    ⟨checkpointWrite_begins hup hnone hover harmed hdone, fun k hslot => checkpointWrite_finishes hup hnone hover harmed hdone hslot⟩,
    fun o k howed hwhy hslot hbase => checkpointWrite_owed hup howed hwhy hslot hbase,
    fun k parts hdue hready => ⟨export_host hup hdue hready, export_frames hup hdue hready⟩⟩⟩
  · obtain ⟨t, hrun, he, hothers, hbytes⟩ := stepComplete_idle hup hmay hstay hkeeps hheld
    have hrunning : (s.pitch p).mode = .running := running_of_mayComplete hmay
    exact ⟨t, hrun, he.state, he.boundary, he.step, he.mode.trans hrunning, he.lastVerdict, he.lsExp, he.clean, he.eff, hothers, hbytes⟩
  · obtain ⟨t, x, hrun, he, hb⟩ := stepComplete_held hup hmay hstay hkeeps hheld
    exact ⟨t, hrun, hb.state, hb.step, hb.held, hb.cursor, hb.lastVerdict.trans he.lastVerdict⟩

end Sys2Proof.Machine
end

