-- ==== Sys2Proof/Proofs/ErgSums.lean ====
section
/-! PROOF. Adds into an Erg register are the sum of signed integers modulo 2^640 (05 R105, R106). -/

namespace Sys2Proof.Machine

/-- Adds one after another leave the integer sum, reduced once to the signed range. -/
theorem toInt_foldl_ergAdd (a : W640) (xs : List W640) :
    (xs.foldl ergAdd a).toInt = (a.toInt + (xs.map BitVec.toInt).sum).bmod (2 ^ 640) := by
  induction xs generalizing a with
  | nil => simp [BitVec.toInt_bmod_cancel]
  | cons x xs ih =>
    rw [List.foldl_cons, ih, ergAdd, BitVec.toInt_add, Int.bmod_add_bmod, List.map_cons, List.sum_cons, Int.add_assoc]

/-- A signed sum within the range of R105 is its own residue. -/
theorem bmod_of_ergRange {z : Int} (hlow : -2 ^ 639 ≤ z) (hhigh : z < 2 ^ 639) : z.bmod (2 ^ 640) = z :=
  (BitVec.toInt_ofInt (n := 640) z).symm.trans (BitVec.toInt_ofInt_eq_self (by decide) hlow hhigh)

/-- Two adds into a register may change places. -/
theorem ergAdd_right_comm (a b c : W640) : ergAdd (ergAdd a b) c = ergAdd (ergAdd a c) b := add_right_comm a b c

/-- Settles O60: the register is the integer sum modulo 2^640, and the order does not matter since adds change places. -/
theorem ergAddsAreExact : Obligations.ErgAddsAreExact := by
  intro a xs
  refine ⟨toInt_foldl_ergAdd a xs, fun hlow hhigh => ?_, fun ys hperm => ?_⟩
  · rw [toInt_foldl_ergAdd, bmod_of_ergRange hlow hhigh]
  · have : RightCommutative ergAdd := ⟨ergAdd_right_comm⟩
    exact hperm.foldl_eq a

end Sys2Proof.Machine
end

