-- ==== Sys2Proof/Proofs/UnitRepairs.lean ====
section
/-! PROOF. Repairs of units: a spare row or column, the spare slice, or a slice withdrawn (08 R194; 23 R484, R486). -/

namespace Sys2Proof.Machine

open Sys2Proof.Claims

/-- A repair that was prepared in the clusters and the health counts is reported, and the clusters stay as prepared. -/
theorem State.repairDone_prepared {s m : State} (hm : m = { s with clusters := m.clusters, health := m.health })
    (hmade : m.health.made = s.health.made) (cell resource action unit left : Nat) :
    Repaired resource s (m.repairDone cell resource action unit left) ∧
    (m.repairDone cell resource action unit left).clusters = m.clusters :=
  have report := m.repairDone_spec cell resource action unit left
  ⟨repaired_of_prepared report.1 hm hmade, report.2⟩

/-- Signatures computed anew belong to the repair after which they are. -/
theorem Repaired.retime {resource : Nat} {s t : State} (h : Repaired resource s t) : Repaired resource s t.retime := by
  obtain ⟨hrest, hsig⟩ := t.retime_spec
  refine ⟨?_, fun q => ?_, ?_, fun a ha => ?_⟩
  · rw [hrest]; exact h.made
  · have hq := hsig q
    rw [SigOnly, h.pitches q] at hq
    rw [hq]
  · rw [hrest, h.rest]
  · have hmem : t.retime.mem = t.mem := (congrArg State.mem hrest :)
    rw [State.byte, hmem]
    exact h.bytes a ha

theorem State.retime_clusters (s : State) : s.retime.clusters = s.clusters := (congrArg State.clusters s.retime_spec.1 :)

/-- Where one cluster was set, it reads back and every other is as before. -/
theorem clusters_of_set {s t : State} {c : Fin 8} {cl : Cluster} (h : t.clusters = s.clusters.set c cl) :
    t.clusters[c] = cl ∧ ∀ d, d ≠ c → t.clusters[d] = s.clusters[d] := by
  rw [h]
  exact ⟨Vector.getElem_set_self _, fun d hd => Vector.getElem_set_ne _ _ (fun e => hd (Fin.ext e.symm))⟩

section
variable {s : State} {c : Fin 8} {k : Nat}

/-- A fault of one named PE takes a spare row, or behind two rows a spare column, of its array. -/
theorem State.peRepair_spec : Repaired (if sget s.clusters[c].peRepairs k 0 < 2 then 2 else 3) s (s.peRepair c k) ∧
    (s.peRepair c k).clusters = s.clusters.set c { s.clusters[c] with
      peRepairs := sput s.clusters[c].peRepairs k (sget s.clusters[c].peRepairs k 0 + 1)
      broken := s.clusters[c].broken.filter (· ≠ k) } := by
  unfold State.peRepair
  extract_lets cl used res left mended
  exact State.repairDone_prepared (s := s)
    (m := ((s.setCluster c mended).takeSpare res).holdRepair res (sliceCell c.val k) (used % 2)) rfl rfl
    (sliceCell c.val k) res actSoft (used % 2) left

/-- The spare slice takes the logical number of a slice that fails. -/
theorem State.repairSlice_spare {sp : Nat} (hspare : s.clusters[c].spare = some sp) : Repaired 1 s (s.repairSlice c k) ∧
    (s.repairSlice c k).clusters = s.clusters.set c { s.clusters[c] with
      map := s.clusters[c].map.map (fun e => if e = some k then some sp else e), spare := none
      broken := s.clusters[c].broken.filter (· ≠ k), retired := addNew k s.clusters[c].retired } := by
  unfold State.repairSlice
  simp only [hspare]
  exact State.repairDone_prepared (s := s) (m := ((s.setCluster c _).takeSpare 1).holdRepair 1 (sliceCell c.val k) 0) rfl rfl
    (sliceCell c.val k) 1 actSoft 0 0

/-- Without a spare, and with slices enough left, a slice that fails is withdrawn. -/
theorem State.repairSlice_withdrawn (hspare : s.clusters[c].spare = none) (henough : 56 < s.activeSlices) :
    Repaired 1 s (s.repairSlice c k) ∧
    (s.repairSlice c k).clusters = s.clusters.set c { s.clusters[c] with
      map := s.clusters[c].map.map (fun e => if e = some k then none else e)
      broken := s.clusters[c].broken.filter (· ≠ k), retired := addNew k s.clusters[c].retired } := by
  unfold State.repairSlice
  simp only [hspare, if_neg (Nat.not_le.mpr henough)]
  rw [State.retime_clusters]
  exact (State.repairDone_prepared (s := s) (m := s.setCluster c _) rfl rfl (sliceCell c.val k) 1 actWithdrawn 0 0).imp_left Repaired.retime

end

/-- A slice that is broken, in a cluster that is served, is repaired at the named PE or as a whole. -/
theorem exec_unitRepair {s : State} (hup : s.held = false) {c : Fin 8} {k : Fin 9} (hbroken : k.val ∈ s.clusters[c].broken)
    (hserved : s.clusterServes c = true) (namedPe : Bool) : exec (.unitRepair c k namedPe) s =
      .next (if namedPe && sget s.clusters[c].peRepairs k.val 0 < 4 then s.peRepair c k.val else s.repairSlice c k.val) := by
  refine (live_next s (fun s => s.unitRepair c k.val namedPe) hup).trans (congrArg Host.Outcome.next (if_neg ?_))
  rw [hserved]
  simp only [Bool.not_true, Bool.or_false, decide_eq_true_eq]
  exact not_not_intro hbroken

end Sys2Proof.Machine
end

