-- ==== Sys2Proof/Proofs/ArrayTiles.lean ====
section
/-! PROOF. A tile on the arrays with the outcome of its checks, and the repair of a unit (05 R113; 08 R191 to R194; notes/assumptions 16). -/

namespace Sys2Proof.Machine

open Sys2Proof.Claims

/-! ## What a tile changes -/

/-- From s to t work of pitch p changed that pitch, memory and Erg registers alone. -/
structure TileWork (p : PitchId) (s t : State) : Prop where
  rest : t = { s with pitches := t.pitches, mem := t.mem, erg := t.erg }
  others : ∀ q, q ≠ p → t.pitch q = s.pitch q

section
variable {p : PitchId} {s t u : State}

theorem TileWork.refl : TileWork p s s := ⟨rfl, fun _ _ => rfl⟩

theorem TileWork.trans (h : TileWork p s t) (k : TileWork p t u) : TileWork p s u :=
  ⟨by rw [k.rest, h.rest], fun q hq => (k.others q hq).trans (h.others q hq)⟩

theorem TileWork.modPitch (h : TileWork p s t) (f : Pitch → Pitch) : TileWork p s (t.modPitch p f) :=
  h.trans ⟨rfl, fun q hq => State.pitch_modPitch_ne t p q f hq⟩

theorem TileWork.raise (h : TileWork p s t) (f : BitVec 6) : TileWork p s (t.raise p f) := by
  unfold State.raise
  split
  · exact h
  · exact h.modPitch _

theorem TileWork.write (h : TileWork p s t) (a : Nat) (bs : Bytes) : TileWork p s (t.write a bs) :=
  h.trans ⟨rfl, fun _ _ => rfl⟩

theorem TileWork.ergAddTo (h : TileWork p s t) (g : Nat) (v : W640) : TileWork p s (t.ergAddTo g v) :=
  h.trans ⟨rfl, fun _ _ => rfl⟩

theorem TileWork.ergClear (h : TileWork p s t) (g n : Nat) : TileWork p s (t.ergClear g n) :=
  h.trans ⟨rfl, fun _ _ => rfl⟩

theorem TileWork.foldl {α : Type} {f : State → α → State} (hf : ∀ t a, TileWork p s t → TileWork p s (f t a)) (h : TileWork p s t)
    (as : List α) : TileWork p s (as.foldl f t) := by
  induction as generalizing t with
  | nil => exact h
  | cons a as ih => exact ih (hf t a h)

end

section
variable (s : State) (p : PitchId) (r : BucketRun)

theorem State.tileResiduals_work (t : Tile) (sums : List W640) : TileWork p s (s.tileResiduals p r t sums) :=
  TileWork.foldl (fun _ _ h => (h.raise _).write _ _) .refl _

theorem State.tileSpill_work (stage : Nat) (t : Tile) (sums : List W640) : TileWork p s (s.tileSpill p r stage t sums) := by
  unfold State.tileSpill
  extract_lets x h k base ents spilled outs fl cleared written
  have hspilled : TileWork p s spilled := TileWork.foldl (fun _ _ h => h.ergAddTo _ _) .refl _
  have hcleared : TileWork p s cleared := TileWork.foldl (fun _ _ h => h.ergClear _ _) hspilled _
  split
  · exact hspilled
  · exact (hcleared.write _ _).modPitch _

theorem State.runTile_work (l : LrRun) (t : Tile) : TileWork p s (s.runTile p r l t) := by
  unfold State.runTile
  extract_lets x fresh r'
  split
  next sums tails reps fl nf _ =>
    extract_lets y started
    have hstarted : TileWork p s started := TileWork.refl.modPitch fun _ => y.setRun r'
    split
    · exact hstarted.trans (State.tileResiduals_work _ p r' t sums)
    · exact hstarted.trans (State.tileSpill_work _ p r' l.stage t sums)

theorem State.stageEnd_work (bucket : Nat) : TileWork p s (s.stageEnd p bucket) := TileWork.refl.modPitch _

end

/-! ## What counting failed checks changes -/

/-- From s to t checks of pitch p were counted, at the pitch and for the engine: checksums and residues that failed, and replays. -/
structure ChecksCounted (p : PitchId) (sums residues replays : Nat) (s t : State) : Prop where
  rest : t = { s with pitches := t.pitches, health := t.health }
  others : ∀ q, q ≠ p → t.pitch q = s.pitch q
  own : t.pitch p = { s.pitch p with counters := (t.pitch p).counters }
  arrayCheckFail : (t.pitch p).counter .arrayCheckFail = (s.pitch p).counter .arrayCheckFail + BitVec.ofNat 64 sums
  residueFail : (t.pitch p).counter .residueFail = (s.pitch p).counter .residueFail + BitVec.ofNat 64 residues
  tileReplays : (t.pitch p).counter .tileReplays = (s.pitch p).counter .tileReplays + BitVec.ofNat 64 replays
  checksums : t.health.checksums = s.health.checksums + BitVec.ofNat 64 sums
  residues : t.health.residues = s.health.residues + BitVec.ofNat 64 residues

theorem ChecksCounted.trans {p : PitchId} {a b c a' b' c' : Nat} {s t u : State} (h : ChecksCounted p a b c s t)
    (k : ChecksCounted p a' b' c' t u) : ChecksCounted p (a + a') (b + b') (c + c') s u where
  rest := by rw [k.rest, h.rest]
  others q hq := (k.others q hq).trans (h.others q hq)
  own := by rw [k.own, h.own]
  arrayCheckFail := by rw [k.arrayCheckFail, h.arrayCheckFail, BitVec.ofNat_add, BitVec.add_assoc]
  residueFail := by rw [k.residueFail, h.residueFail, BitVec.ofNat_add, BitVec.add_assoc]
  tileReplays := by rw [k.tileReplays, h.tileReplays, BitVec.ofNat_add, BitVec.add_assoc]
  checksums := by rw [k.checksums, h.checksums, BitVec.ofNat_add, BitVec.add_assoc]
  residues := by rw [k.residues, h.residues, BitVec.ofNat_add, BitVec.add_assoc]

/-- A count is of its own counter, and leaves every other but NDC_TIME and NDC_BITS. -/
theorem Pitch.counter_count_of (x : Pitch) {c : PCtr} (htime : c ≠ .ndcTime) (hbits : c ≠ .ndcBits) (e : PCtr) (n : Nat) :
    (x.count e n).counter c = x.counter c + BitVec.ofNat 64 (if c = e then n else 0) := by
  split
  · next h => rw [← h, Pitch.counter_count x htime hbits]
  · next h => rw [Pitch.counter_count_ne x htime hbits h, BitVec.add_zero]

section
variable (s : State) (p : PitchId)

/-- A count at the pitch, of failed checks that the engine's health counts as well. -/
theorem State.count_checksCounted (e : PCtr) (n : Nat) (h : Health)
    (hsums : h.checksums = s.health.checksums + BitVec.ofNat 64 (if .arrayCheckFail = e then n else 0))
    (hresidues : h.residues = s.health.residues + BitVec.ofNat 64 (if .residueFail = e then n else 0)) :
    ChecksCounted p (if .arrayCheckFail = e then n else 0) (if .residueFail = e then n else 0) (if .tileReplays = e then n else 0) s
      { s.count p e n with health := h } where
  rest := rfl
  others q hq := s.pitch_count_ne p q e n hq
  own := by
    change (s.count p e n).pitch p = { s.pitch p with counters := ((s.count p e n).pitch p).counters }
    rw [State.pitch_count, ← Pitch.count_rest]
  arrayCheckFail := (congrArg (Pitch.counter · _) (s.pitch_count p e n)).trans (Pitch.counter_count_of _ (by decide) (by decide) e n)
  residueFail := (congrArg (Pitch.counter · _) (s.pitch_count p e n)).trans (Pitch.counter_count_of _ (by decide) (by decide) e n)
  tileReplays := (congrArg (Pitch.counter · _) (s.pitch_count p e n)).trans (Pitch.counter_count_of _ (by decide) (by decide) e n)
  checksums := hsums
  residues := hresidues

theorem State.count_replay : ChecksCounted p 0 0 1 s (s.count p .tileReplays) :=
  s.count_checksCounted p .tileReplays 1 s.health (BitVec.add_zero _).symm (BitVec.add_zero _).symm

theorem State.count_failedSum : ChecksCounted p 1 0 0 s ((s.count p .arrayCheckFail).countCatch false) :=
  s.count_checksCounted p .arrayCheckFail 1 _ rfl (BitVec.add_zero _).symm

/-- n residue catches of the engine. -/
theorem State.countCatches_spec (n : Nat) :
    ∃ h, (List.range n).foldl (fun s _ => s.countCatch true) s = { s with health := h } ∧ h.checksums = s.health.checksums ∧
      h.residues = s.health.residues + BitVec.ofNat 64 n := by
  induction n with
  | zero => exact ⟨s.health, rfl, rfl, (BitVec.add_zero _).symm⟩
  | succ n ih =>
    obtain ⟨h, hfold, hsums, hresidues⟩ := ih
    rw [List.range_succ, List.foldl_append, hfold]
    refine ⟨_, rfl, hsums, ?_⟩
    rw [BitVec.ofNat_add, ← BitVec.add_assoc, ← hresidues]
    rfl

/-- Adds that an Erg bank refused count as failed residues. -/
theorem State.refusedAdds_counted (n : Nat) : ChecksCounted p 0 n 0 s (s.refusedAdds p n) := by
  obtain ⟨h, hfold, hsums, hresidues⟩ := (s.count p .residueFail n).countCatches_spec n
  rw [State.refusedAdds, hfold]
  exact s.count_checksCounted p .residueFail n h (hsums.trans (BitVec.add_zero _).symm) hresidues

theorem State.count_failedResidue : ChecksCounted p 0 1 0 s ((s.count p .residueFail).countCatch true) := s.refusedAdds_counted p 1

/-- One failed check, counted by its kind. -/
theorem State.count_failed (residue : Bool) : ChecksCounted p (bit (!residue)) (bit residue) 0 s
    ((s.count p (if residue then .residueFail else .arrayCheckFail)).countCatch residue) := by
  cases residue
  · exact s.count_failedSum p
  · exact s.count_failedResidue p

end

/-! ## Checks counted within a stage -/

section
variable {s t : State} (p : PitchId) (bucket : Nat)

/-- The end of a stage reads no counter and counts nothing. -/
theorem State.stageEnd_own (h : t.pitch p = { s.pitch p with counters := (t.pitch p).counters }) :
    (t.stageEnd p bucket).pitch p = { (s.stageEnd p bucket).pitch p with counters := (t.pitch p).counters } := by
  simp only [State.stageEnd, State.pitch_modPitch]
  rw [h]
  generalize s.pitch p = x
  generalize (t.pitch p).counters = k
  have hhead (r : BucketRun) : r.head { x with counters := k } = r.head x := rfl
  cases x.runs.find? (fun r => r.bucket = bucket) with
  | none => simp only
  | some r =>
    cases hlr : r.lr with
    | none => simp only [hlr]
    | some l =>
      simp only [hlr, hhead]
      split_ifs <;> rfl

theorem State.stageEnd_counter (s : State) (e : PCtr) : ((s.stageEnd p bucket).pitch p).counter e = (s.pitch p).counter e := by
  rw [State.stageEnd_own (s := s) (t := s) p bucket rfl]
  rfl

/-- Checks counted before a stage ends are counted after it, and the stage ends alike. -/
theorem ChecksCounted.stageEnd {sums residues replays : Nat} (h : ChecksCounted p sums residues replays s t) :
    ChecksCounted p sums residues replays (s.stageEnd p bucket) (t.stageEnd p bucket) := by
  have hs := s.stageEnd_work p bucket
  have ht := t.stageEnd_work p bucket
  have hown := State.stageEnd_own p bucket h.own
  have hcounters : ((t.stageEnd p bucket).pitch p).counters = (t.pitch p).counters := by rw [hown]
  refine ⟨?_, fun q hq => ?_, by rw [hcounters]; exact hown, ?_, ?_, ?_, h.checksums, h.residues⟩
  · conv_lhs => rw [show t.stageEnd p bucket = { t with pitches := (t.stageEnd p bucket).pitches } from rfl, h.rest]
    rfl
  · rw [ht.others q hq, h.others q hq, hs.others q hq]
  · rw [State.stageEnd_counter, State.stageEnd_counter, h.arrayCheckFail]
  · rw [State.stageEnd_counter, State.stageEnd_counter, h.residueFail]
  · rw [State.stageEnd_counter, State.stageEnd_counter, h.tileReplays]

end

/-! ## Slices that take no work -/

/-- Clusters with the same maps give a tile to the same slice. -/
theorem State.tileSlice_congr {s t : State} (hfuses : t.fuses = s.fuses)
    (hmaps : t.clusters.toList.map Cluster.map = s.clusters.toList.map Cluster.map) (n : Nat) : t.tileSlice n = s.tileSlice n := by
  have hactive : t.activeSlices = s.activeSlices := by
    have hcounts := congrArg (List.map fun m : List (Option Nat) => (m.filter Option.isSome).length) hmaps
    simp only [List.map_map] at hcounts
    exact congrArg₂ (fun f ns => min f.active (sumOf ns)) hfuses hcounts
  have hlist : t.activeList = s.activeList := by
    have hpairs := congrArg (fun ms => ms.zipIdx.flatMap fun c : List (Option Nat) × Nat =>
      c.1.filterMap (fun t => t.map (fun k => (c.2, k)))) hmaps
    simp only [List.zipIdx_map, List.flatMap_map] at hpairs
    exact congrArg₂ List.take hactive hpairs
  rw [State.tileSlice, State.tileSlice, hactive, hlist]

theorem mem_addNew {α : Type} [DecidableEq α] (x : α) (xs : List α) : x ∈ addNew x xs := by
  unfold addNew
  split
  · assumption
  · simp

section
variable (s : State) (c : Fin 8) (k : Nat)

theorem State.breakSlice_cluster (d : Fin 8) : (s.breakSlice c.val k).clusters[d] =
    if d = c then { s.clusters[d] with broken := addNew k s.clusters[d].broken } else s.clusters[d] := by
  simp [State.breakSlice, Fin.ext_iff]

theorem State.breakSlice_broken : k ∈ (s.breakSlice c.val k).clusters[c].broken := by
  rw [State.breakSlice_cluster, if_pos rfl]
  exact mem_addNew k _

theorem State.breakSlice_maps :
    (s.breakSlice c.val k).clusters.toList.map Cluster.map = s.clusters.toList.map Cluster.map := by
  rw [← Vector.toList_map, ← Vector.toList_map]
  congr 1
  ext1 i hi
  rw [Vector.getElem_map, Vector.getElem_map]
  have hcluster := s.breakSlice_cluster c k ⟨i, hi⟩
  simp only [Fin.getElem_fin] at hcluster
  rw [hcluster]
  split <;> rfl

end

/-- The slice of a tile, once broken, takes no work. -/
theorem State.breakUnit_spec {s : State} {n k : Nat} {c : Fin 8} (h : s.tileSlice n = some (c.val, k)) :
    s.breakUnit n = s.breakSlice c.val k ∧ (s.breakUnit n).sliceWorks n = false := by
  have hbreak : s.breakUnit n = s.breakSlice c.val k := by simp [State.breakUnit, h]
  refine ⟨hbreak, ?_⟩
  have hslice : (s.breakSlice c.val k).tileSlice n = some (c.val, k) :=
    (State.tileSlice_congr (s := s) (t := s.breakSlice c.val k) rfl (s.breakSlice_maps c k) n).trans h
  have hbroken := s.breakSlice_broken c k
  rw [hbreak, State.sliceWorks, hslice]
  simpa using hbroken

/-! ## The command -/

section
variable {s : State} {p : PitchId} {bucket : Nat}

theorem exec_arrayTile (hup : s.held = false) (check : TileCheck) :
    exec (.arrayTile p bucket check) s = .next (s.arrayTile p bucket check) :=
  live_next s (fun s => s.arrayTile p bucket check) hup

section
variable {r : BucketRun} {l : LrRun} {tile : Tile} (hnext : (s.pitch p).nextTile p bucket = some (r, l, tile))
  (hworks : s.sliceWorks l.tiles = true)
include hnext hworks

theorem State.arrayTile_pass : s.arrayTile p bucket .pass = (s.runTile p r l tile).stageEnd p bucket := by
  simp [State.arrayTile, hnext, hworks]

theorem State.arrayTile_pass_work : TileWork p s (s.arrayTile p bucket .pass) := by
  rw [State.arrayTile_pass hnext hworks]
  exact (s.runTile_work p r l tile).trans (State.stageEnd_work _ p bucket)

/-- A failed checksum is counted, with its replay, beside what the tile does. -/
theorem State.arrayTile_checksum :
    ChecksCounted p 1 0 1 (s.arrayTile p bucket .pass) (s.arrayTile p bucket .checksum) := by
  simp only [State.arrayTile, hnext, hworks, Bool.not_true, Bool.false_eq_true, if_false]
  exact (((s.runTile p r l tile).count_failedSum p).trans (State.count_replay _ p)).stageEnd p bucket

/-- A failed residue is counted, with its replay, beside what the tile does. -/
theorem State.arrayTile_residue :
    ChecksCounted p 0 1 1 (s.arrayTile p bucket .pass) (s.arrayTile p bucket .residue) := by
  simp only [State.arrayTile, hnext, hworks, Bool.not_true, Bool.false_eq_true, if_false]
  exact (((s.runTile p r l tile).count_failedResidue p).trans (State.count_replay _ p)).stageEnd p bucket

/-- Refused adds are counted beside what the tile does. -/
theorem State.arrayTile_refused (n : Nat) :
    ChecksCounted p 0 n 0 (s.arrayTile p bucket .pass) (s.arrayTile p bucket (.refused n)) := by
  simp only [State.arrayTile, hnext, hworks, Bool.not_true, Bool.false_eq_true, if_false]
  exact ((s.runTile p r l tile).refusedAdds_counted p n).stageEnd p bucket

/-- Where the replay fails too, both failures are counted and the slice is broken. -/
theorem State.arrayTile_replayFails (first again : Bool) :
    ∃ m, ChecksCounted p (bit (!first) + bit (!again)) (bit first + bit again) 1 s m ∧
      s.arrayTile p bucket (.replayFails first again) = m.breakUnit l.tiles := by
  refine ⟨_, ((s.count_failed p first).trans (State.count_failed _ p again)).trans (State.count_replay _ p), ?_⟩
  simp only [State.arrayTile, hnext, hworks, Bool.not_true, Bool.false_eq_true, if_false]

end

/-- A tile whose slice takes no work waits, and without a tile there is nothing to do. -/
theorem State.arrayTile_waits {check : TileCheck}
    (h : ∀ r l t, (s.pitch p).nextTile p bucket = some (r, l, t) → s.sliceWorks l.tiles = false) : s.arrayTile p bucket check = s := by
  unfold State.arrayTile
  split
  · rfl
  · next r l t hnext => exact if_pos (by rw [h r l t hnext]; rfl)

end

/-- Settles O39: the replay of a tile by what its checks count beside the passing tile, a second failure by the slice it breaks, and a
repair by what is prepared before its report. -/
theorem tilesAndUnits : Obligations.TilesAndUnits := by
  refine ⟨fun s p bucket r l tile hup hnext hworks => ⟨?_, fun c k first again hslice => ?_⟩,
    fun s p bucket check hup hwaits => by rw [exec_arrayTile hup, State.arrayTile_waits hwaits],
    fun s c k hup hbroken hserved => ⟨fun hleft => ?_, fun sp hspare => ?_, fun hspare henough => ?_⟩⟩
  · have ht := State.arrayTile_pass_work hnext hworks
    have hu := State.arrayTile_checksum hnext hworks
    have hv := State.arrayTile_residue hnext hworks
    have hhealth : (s.arrayTile p bucket .pass).health = s.health := (congrArg State.health ht.rest :)
    refine ⟨_, _, _, exec_arrayTile hup _, exec_arrayTile hup _, exec_arrayTile hup _, ht.others, ht.rest,
      ⟨(congrArg State.mem hu.rest :), (congrArg State.erg hu.rest :), (congrArg State.mem hv.rest :), (congrArg State.erg hv.rest :)⟩,
      ⟨hu.own, hv.own⟩, ⟨hu.arrayCheckFail, hu.tileReplays, by rw [← hhealth]; exact hu.checksums⟩,
      ⟨hv.residueFail, hv.tileReplays, by rw [← hhealth]; exact hv.residues⟩, fun n => ?_⟩
    have hw := State.arrayTile_refused hnext hworks n
    exact ⟨_, exec_arrayTile hup _, (congrArg State.mem hw.rest :), (congrArg State.erg hw.rest :), hw.own, hw.residueFail,
      by rw [← hhealth]; exact hw.residues⟩
  · obtain ⟨m, hm, hrun⟩ := State.arrayTile_replayFails (bucket := bucket) hnext hworks first again
    have hclusters : m.clusters = s.clusters := (congrArg State.clusters hm.rest :)
    have hsame : m.tileSlice l.tiles = s.tileSlice l.tiles :=
      State.tileSlice_congr (congrArg State.fuses hm.rest :) (by rw [hclusters]) l.tiles
    obtain ⟨hbreak, hstops⟩ := State.breakUnit_spec (hsame.trans hslice)
    rw [hbreak] at hrun hstops
    have hothers (d : Fin 8) (hd : d ≠ c) : (m.breakSlice c.val k).clusters[d] = s.clusters[d] := by
      rw [State.breakSlice_cluster, if_neg hd, hclusters]
    exact ⟨_, (exec_arrayTile hup _).trans (congrArg Host.Outcome.next hrun), (congrArg State.mem hm.rest :),
      (congrArg State.erg hm.rest :), hm.own, hm.others, m.breakSlice_broken c k, hothers, hstops, hm.tileReplays, hm.residueFail,
      hm.arrayCheckFail, hm.residues.trans (congrArg _ (BitVec.ofNat_add _ _)), hm.checksums.trans (congrArg _ (BitVec.ofNat_add _ _))⟩
  · obtain ⟨hrepaired, hclusters⟩ := State.peRepair_spec (s := s) (c := c) (k := k.val)
    refine ⟨_, (exec_unitRepair hup hbroken hserved true).trans (congrArg Host.Outcome.next (if_pos ?_)), hrepaired,
      clusters_of_set hclusters⟩
    simpa using hleft
  · obtain ⟨hrepaired, hclusters⟩ := State.repairSlice_spare (k := k.val) hspare
    exact ⟨_, exec_unitRepair hup hbroken hserved false, hrepaired, clusters_of_set hclusters⟩
  · obtain ⟨hrepaired, hclusters⟩ := State.repairSlice_withdrawn (k := k.val) hspare henough
    exact ⟨_, exec_unitRepair hup hbroken hserved false, hrepaired, clusters_of_set hclusters⟩

end Sys2Proof.Machine
end

