-- ==== Sys2Proof/Proofs/WholePieces.lean ====
section
/-! PROOF. Lists and memory in pieces of equal length: FP32 words and runs of sparse tables. -/

namespace Sys2Proof.Machine

theorem length_chunksGo_mul {α : Type} {z : Nat} (hz : 0 < z) (n fuel : Nat) (xs : List α) (hlen : xs.length = z * n) (hfuel : n ≤ fuel) :
    (chunksGo fuel z xs).length = n := by
  induction fuel generalizing n xs with
  | zero => simp [chunksGo, Nat.le_zero.mp hfuel]
  | succ fuel ih =>
    cases n with
    | zero => simp [chunksGo, List.eq_nil_of_length_eq_zero (hlen.trans (Nat.mul_zero z))]
    | succ n =>
      have hne : xs.isEmpty = false := by
        cases xs with
        | nil => simp [Nat.mul_succ] at hlen; omega
        | cons => rfl
      have hrest : (xs.drop z).length = z * n := by rw [List.length_drop, hlen, Nat.mul_succ, Nat.add_sub_cancel]
      simp [chunksGo, hne, ih n _ hrest (Nat.le_of_succ_le_succ hfuel)]

/-- A list of n pieces' length is cut into n pieces. -/
theorem length_chunks_mul {α : Type} {z n : Nat} (hz : 0 < z) {xs : List α} (hlen : xs.length = z * n) : (chunks z xs).length = n := by
  rw [chunks, max_eq_left hz]
  exact length_chunksGo_mul hz n _ xs hlen (hlen ▸ Nat.le_mul_of_pos_left n hz)

theorem length_bytesWords {bs : Bytes} {n : Nat} (h : bs.length = 4 * n) : (bytesWords bs).length = n := by
  rw [bytesWords, List.length_map, length_chunks_mul (by decide) h]

theorem State.length_words (s : State) (a n : Nat) : (s.words a n).length = n := length_bytesWords (s.length_read a (4 * n))

theorem length_sgetRun {α : Type} (m : Sparse α) (lo n : Nat) (d : α) : (sgetRun m lo n d).length = n := by simp [sgetRun]

theorem State.length_runV (s : State) (p : PitchId) (r : BucketRun) (lo n : Nat) : (s.runV p r lo n).length = n := by
  unfold State.runV
  split
  · exact s.length_words _ n
  · exact length_sgetRun _ lo n 0

theorem State.length_stagedG (s : State) (p : PitchId) (i : Ingest) (lo n : Nat) : (s.stagedG p i lo n).length = n := by
  unfold State.stagedG
  split
  · exact s.length_words _ n
  · exact length_sgetRun _ lo n 0

theorem State.length_gradTerms (s : State) (p : PitchId) (b j : Nat) : (s.gradTerms p b j).length = bBlock ((s.pitch p).bucketD b) := by
  unfold State.gradTerms
  extract_lets x rec' n i
  split
  · rw [List.length_map, State.length_stagedG]
  · rw [List.length_map, length_chunks_mul (by decide) (s.length_read _ (8 * n))]

end Sys2Proof.Machine
end

