-- ==== Sys2Proof/Proofs/UnequalParts.lean ====
section
/-! PROOF. Phase S of a run whose parts differ in block size (03 R75; 06 R134): what the statement about phase S does not rule out. -/

namespace Sys2Proof.Machine

/-- v has no more values than a block of the part that the run's block belongs to. -/
theorem length_blockSums_le (s : State) (p : PitchId) (r : BucketRun) (j : Nat) :
    (Claims.blockSums s p r j).length ≤ bBlock ((s.pitch p).bucketD (r.part (s.pitch p) j).1) := by
  rw [Claims.blockSums, List.length_map, List.length_zipWith, State.length_gradTerms]
  exact Nat.min_le_left _ _

/-- A run of bucket 0, of one block of 128 elements, with bucket 1 of one block of 64 as its second part: that block is next. -/
def unequalRun : BucketRun := { bucket := 0, parts := [0, 1], seq := 0, spilled := true, statNext := 1 }

/-- An engine in whose pitch 0 phase S of that block may run. -/
def unequalState : State := State.reset.setPitch 0 {
  mode := .running, time := { state := .active }, planEff := Vector.replicate 32 2
  eff := { buckets := [BitVec.ofNat 1024 (128 + 2 ^ 32), BitVec.ofNat 1024 64] }
  ingests := [{ bucket := 0, complete := true }, { bucket := 1, complete := true }], runs := [unequalRun] }

theorem unequalState_may : unequalState.held = false ∧ (unequalState.pitch 0).nextStats = some unequalRun ∧
    unequalRun.mayStats (unequalState.pitch 0) 0 1 = true ∧ unequalState.sliceWorks 1 = true := by decide +kernel

theorem unequalState_blocks : bBlock (unequalRun.head (unequalState.pitch 0)) = 128 ∧
    bBlock ((unequalState.pitch 0).bucketD (unequalRun.part (unequalState.pitch 0) 1).1) = 64 := by decide +kernel

/-- Refutes O34: where a part's blocks are shorter than those of the run's first part, v of its block is shorter than the block that
the statement reads back. -/
theorem not_selectAndQuantise : ¬ Obligations.SelectAndQuantise := by
  rintro ⟨hstats, -⟩
  obtain ⟨hup, hnext, hmay, hworks⟩ := unequalState_may
  obtain ⟨hhead, hpart⟩ := unequalState_blocks
  obtain ⟨-, -, hblock, -⟩ := hstats unequalState 0 unequalRun 0 hup
  obtain ⟨t, r', -, -, -, -, -, -, -, -, -, hv, -⟩ := hblock 1 hnext rfl rfl hmay hworks
  have hlen := congrArg List.length hv
  rw [State.length_runV, hhead] at hlen
  have hshort := length_blockSums_le unequalState 0 unequalRun 1
  omega

end Sys2Proof.Machine
end

