-- ==== Sys2Proof/Proofs/PitchWork.lean ====
section
/-! PROOF. The frame `Within` of a pitch's work: what a step of it may touch adds up, and what the shared operations touch. -/

namespace Sys2Proof.Claims

open Sys2Proof.Machine

section
variable {p : PitchId} {rs rs' : List (Nat × Nat)} {s t u : State}

theorem Within.refl : Within p rs s s := ⟨rfl, fun _ _ => rfl, fun _ _ _ => rfl⟩

theorem Within.trans (h : Within p rs s t) (k : Within p rs t u) : Within p rs s u where
  rest := by rw [k.rest, h.rest]
  others q hq := (k.others q hq).trans (h.others q hq)
  bytes a hqueue hranges := (k.bytes a hqueue hranges).trans (h.bytes a hqueue hranges)

/-- Ranges may be added. -/
theorem Within.mono (h : Within p rs s t) (hsub : ∀ r ∈ rs, r ∈ rs') : Within p rs' s t :=
  ⟨h.rest, h.others, fun a hqueue hranges => h.bytes a hqueue fun r hr => hranges r (hsub r hr)⟩

theorem Within.setPitch (s : State) (x : Pitch) : Within p rs s (s.setPitch p x) :=
  ⟨rfl, fun q hq => State.pitch_setPitch_ne s p q x hq, fun _ _ _ => rfl⟩

theorem Within.modPitch (s : State) (f : Pitch → Pitch) : Within p rs s (s.modPitch p f) := Within.setPitch s _

theorem Within.write (s : State) {a n : Nat} {bs : Bytes} (hrange : (a, n) ∈ rs) (hlen : bs.length ≤ n) :
    Within p rs s (s.write a bs) :=
  ⟨rfl, fun _ _ => rfl, fun b _ hranges => State.byte_write_out s a b bs (by have := hranges _ hrange; dsimp only at this; omega)⟩

theorem Within.erase (s : State) {a n : Nat} (hrange : (a, n) ∈ rs) : Within p rs s (s.erase a n) :=
  ⟨rfl, fun _ _ => rfl, fun b _ hranges => memGet_memErase_out s.mem a n b (hranges _ hrange)⟩

theorem Within.ergAddTo (s : State) (g : Nat) (v : W640) : Within p rs s (s.ergAddTo g v) := ⟨rfl, fun _ _ => rfl, fun _ _ _ => rfl⟩

theorem Within.foldl {α : Type} {f : State → α → State} (hf : ∀ t a, Within p rs t (f t a)) (as : List α) (s : State) :
    Within p rs s (as.foldl f s) := by
  induction as generalizing s with
  | nil => exact Within.refl
  | cons a as ih => exact (hf s a).trans (ih (f s a))

/-- A notice writes in the response ring of its pitch. -/
theorem Within.notice (s : State) (code : Nat) (args : Bytes) : Within p rs s (s.notice p code args) := by
  have hframe := s.notice_frame p code args
  have htold := s.notice_told p code args
  refine ⟨by rw [htold.rest], hframe.others, fun a hqueue _ => hframe.bytes a ?_⟩
  simp only [queueSize] at hqueue
  omega

theorem Within.spikeMaybe (s : State) (kind : Nat) (lg : Option Int) : Within p rs s (s.spikeMaybe p kind lg).2 := by
  cases lg with
  | none => exact Within.refl
  | some lg =>
    by_cases hkind : kind = 0
    all_goals
      simp only [State.spikeMaybe, State.spikeRun, hkind, if_true, if_false]
      rw [apply_ite Prod.snd]
      split
      · exact (Within.setPitch s _).trans (Within.notice _ _ _)
      · exact Within.setPitch s _

theorem Within.guardProgress (s : State) : Within p rs s (s.guardProgress p) := by
  unfold State.guardProgress
  split
  · exact Within.refl
  · split
    · exact Within.modPitch s _
    · exact ((Within.spikeMaybe s 0 _).trans (Within.spikeMaybe _ 1 _)).trans (Within.modPitch _ _)

end

end Sys2Proof.Claims

namespace Sys2Proof.Machine

open Sys2Proof.Claims

/-! ## Judging the step leaves the runs, the queue of frames and the agreements -/

section
variable (s : State) (p : PitchId)

theorem State.guardProgress_stepPart : ((s.guardProgress p).pitch p).stepPart = (s.pitch p).stepPart :=
  congrArg Prod.fst (stepKey_guardProgress s p)

theorem State.guardProgress_runs : ((s.guardProgress p).pitch p).runs = (s.pitch p).runs := (congrArg Pitch.runs (s.guardProgress_stepPart p) :)

theorem State.guardProgress_tx : ((s.guardProgress p).pitch p).tx = (s.pitch p).tx := (congrArg Pitch.tx (s.guardProgress_stepPart p) :)

theorem State.guardProgress_agrees : ((s.guardProgress p).pitch p).agrees = (s.pitch p).agrees :=
  (congrArg Pitch.agrees (s.guardProgress_stepPart p) :)

theorem State.guardProgress_nonfinite : ((s.guardProgress p).pitch p).guard.nonfinite = (s.pitch p).guard.nonfinite :=
  (congrArg (fun x => x.guard.nonfinite) (s.guardProgress_stepPart p) :)

theorem State.guardProgress_erg : (s.guardProgress p).erg = s.erg := congrArg Prod.snd (stepKey_guardProgress s p)

theorem State.notice_runs (code : Nat) (args : Bytes) : ((s.notice p code args).pitch p).runs = (s.pitch p).runs := by
  have hown := (s.notice_told p code args).own
  rw [PitchIs] at hown
  rw [hown]

end

/-! ## Replacing a run -/

section
variable {x : Pitch} {r r' : BucketRun}
variable {b : Nat}

theorem Pitch.find_bucket (h : x.runs.find? (fun q => q.bucket = b) = some r) : r.bucket = b ∧ r ∈ x.runs :=
  ⟨by simpa using List.find?_some h, List.mem_of_find?_eq_some h⟩

end

/-! ## The checks of a block -/

/-- A slice that works lies in one of the eight clusters. -/
theorem State.tileSlice_of_works {s : State} {j : Nat} (h : s.sliceWorks j = true) :
    ∃ (c : Fin 8) (k : Nat), s.tileSlice j = some (c.val, k) := by
  unfold State.sliceWorks at h
  split at h
  next c k hslice =>
    have hmem : (c, k) ∈ s.activeList := List.mem_of_getElem? hslice
    obtain ⟨cluster, hcluster, hpair⟩ := List.mem_flatMap.mp (List.mem_of_mem_take hmem)
    obtain ⟨_, _, hslot⟩ := List.mem_filterMap.mp hpair
    have hc : cluster.2 = c := by
      obtain ⟨_, _, heq⟩ := Option.map_eq_some_iff.mp hslot
      exact congrArg Prod.fst heq
    have hlt := (List.mem_zipIdx' hcluster).1
    rw [Vector.length_toList, hc] at hlt
    exact ⟨⟨c, hlt⟩, k, hslice⟩
  next => simp at h

section
variable {s : State} {p : PitchId} {j : Nat} {cmd : BlockCheck → Instr} {work : State → State}
  (hrun : ∀ check, exec (cmd check) s = .next (s.checkedBlock p j check work)) (hworks : s.sliceWorks j = true)
include hrun hworks

theorem exec_checked_pass : exec (cmd .pass) s = .next (work s) := by
  rw [hrun, State.checkedBlock, hworks]
  rfl

/-- What a command does that works on a block with these checks, in a slice that takes work. -/
theorem blockChecked_of : BlockChecked s p j cmd (work s) := by
  have hcmd {check : BlockCheck} {u : State} (h : s.checkedBlock p j check work = u) : exec (cmd check) s = .next u := by rw [hrun, h]
  refine ⟨?_, fun n => ?_, ?_⟩
  · have hresidue : s.checkedBlock p j .residue work = (((work s).count p .residueFail).countCatch true).count p .tileReplays := by
      simp only [State.checkedBlock, hworks, Bool.not_true, Bool.false_eq_true, if_false]
      rfl
    have hcount : ChecksCounted p 0 1 1 (work s) ((((work s).count p .residueFail).countCatch true).count p .tileReplays) :=
      ((work s).count_failedResidue p).trans (State.count_replay _ p)
    exact ⟨_, hcmd hresidue, hcount.rest, hcount.own, hcount.others, hcount.residueFail, hcount.tileReplays, hcount.residues⟩
  · have hrefused : s.checkedBlock p j (.refused n) work = (work s).refusedAdds p n := by
      simp only [State.checkedBlock, hworks, Bool.not_true, Bool.false_eq_true, if_false]
    have hcount := (work s).refusedAdds_counted p n
    exact ⟨_, hcmd hrefused, hcount.rest, hcount.own, hcount.others, hcount.residueFail, hcount.residues⟩
  · have hfails : s.checkedBlock p j .replayFails work = ((s.refusedAdds p 2).count p .tileReplays).breakUnit j := by
      simp only [State.checkedBlock, hworks, Bool.not_true, Bool.false_eq_true, if_false]
      rfl
    have hcount : ChecksCounted p 0 2 1 s ((s.refusedAdds p 2).count p .tileReplays) :=
      (s.refusedAdds_counted p 2).trans (State.count_replay _ p)
    obtain ⟨c, k, hslice⟩ := State.tileSlice_of_works hworks
    have hslice' : ((s.refusedAdds p 2).count p .tileReplays).tileSlice j = some (c.val, k) := hslice
    obtain ⟨hbreak, hstops⟩ := State.breakUnit_spec hslice'
    refine ⟨_, hcmd hfails, ?_, ?_, ?_, ?_, ?_, hstops⟩
    · rw [hbreak]
      exact congrArg (fun t : State => t.breakSlice c.val k) hcount.rest
    all_goals simp only [hbreak]
    · exact hcount.own
    · exact hcount.others
    · exact hcount.residueFail
    · exact hcount.tileReplays
end

end Sys2Proof.Machine
end

