-- ==== Sys2Proof/Proofs/OutputMarks.lean ====
section
/-! PROOF. Phase O of a block marks it as done: what lock-step, the norms and the rows leave of the pitch's runs (06 R145; 16 R350 to R352). -/

namespace Sys2Proof.Machine

open Sys2Proof.Claims

/-! ## What lock-step leaves of the runs -/

section
variable (p : PitchId)

/-- The runs of the pitch are the same. -/
def SameRuns (s t : State) : Prop := (t.pitch p).runs = (s.pitch p).runs

variable {p} {s t u : State}

theorem SameRuns.refl : SameRuns p s s := Eq.refl (s.pitch p).runs

theorem SameRuns.trans (h : SameRuns p s t) (k : SameRuns p t u) : SameRuns p s u := Eq.trans k h

theorem SameRuns.foldl {α : Type} {f : State → α → State} (hf : ∀ t a, SameRuns p t (f t a)) (as : List α) (s : State) :
    SameRuns p s (as.foldl f s) := by
  induction as generalizing s with
  | nil => exact SameRuns.refl
  | cons a as ih => exact (hf s a).trans (ih (f s a))

theorem SameRuns.setPitch (s : State) {x : Pitch} (h : x.runs = (s.pitch p).runs) : SameRuns p s (s.setPitch p x) := by
  rw [SameRuns, State.pitch_setPitch, h]

theorem SameRuns.afterSetPitch {x : Pitch} (h : SameRuns p (s.setPitch p x) t) (hx : x.runs = (s.pitch p).runs) : SameRuns p s t :=
  (SameRuns.setPitch s hx).trans h

theorem SameRuns.notice (s : State) (code : Nat) (args : Bytes) : SameRuns p s (s.notice p code args) := s.notice_runs p code args

theorem SameRuns.hostStore (s : State) (h : HostPort) (a : W64) (d : Bytes) : SameRuns p s (s.hostStore h a d) :=
  SameRuns.foldl (fun t _ => congrArg Pitch.runs ((t.sendHost_told _ _).pitch p)) _ s

theorem SameRuns.enqueueAll (fs : List TxFrame) : SameRuns p s (s.enqueueAll p fs) := by
  obtain ⟨txq, hframes⟩ := Pitch.enqueues fs (s.pitch p)
  exact SameRuns.setPitch s (show (fs.foldl Pitch.enqueue (s.pitch p)).runs = _ by rw [hframes])

theorem Pitch.runs_count (x : Pitch) (c : PCtr) (n : Nat) : (x.count c n).runs = x.runs := by rw [Pitch.count_rest]

theorem SameRuns.hostOutput (s : State) (h : HostPort) (a : W64) (d : Bytes) : SameRuns p s (s.hostOutput p h a d) := by
  unfold State.hostOutput
  extract_lets x
  split
  · exact SameRuns.refl
  · split
    · exact SameRuns.setPitch s rfl
    · exact SameRuns.hostStore s h a d

theorem SameRuns.releaseOutputs (s : State) (pick : Nat → Bool) : SameRuns p s (s.releaseOutputs p pick) :=
  SameRuns.afterSetPitch (SameRuns.foldl (fun t _ => SameRuns.hostStore t _ _ _) _ _) rfl

/-- A pitch that has found a mismatch (16 R353). -/
def Pitch.lsMismatched (x : Pitch) : Pitch :=
  let y := x.count .lsMismatches
  { y with lock := { y.lock with held := true, mismatched := true, diff := none } }

theorem SameRuns.lsMismatch (s : State) (bucket block : Nat) (area : Byte) (off : Nat) :
    SameRuns p s (s.lsMismatch p bucket block area off) := by
  have hheld : ((s.modPitch p Pitch.lsMismatched).pitch p).runs = (s.pitch p).runs := by
    rw [State.pitch_modPitch]
    exact Pitch.runs_count _ _ _
  rw [SameRuns, State.lsMismatch, State.notice_runs]
  exact hheld

theorem SameRuns.lsDifference (s : State) : SameRuns p s (s.lsDifference p) := by
  unfold State.lsDifference
  extract_lets x
  split
  next w b k base hdiff hbase =>
    split
    split
    · exact SameRuns.refl
    · extract_lets mine n
      split
      · exact SameRuns.lsMismatch s.draw.2 _ _ _ _
      · split_ifs
        all_goals exact SameRuns.lsMismatch s _ _ _ _
  · exact SameRuns.refl

theorem SameRuns.lsDiffers (s : State) (q : Pairing) (w : Nat) (own theirs : Bytes) : SameRuns p s (s.lsDiffers p q w own theirs) := by
  unfold State.lsDiffers
  split
  · exact SameRuns.lsMismatch s _ _ _ _
  · extract_lets k b j
    split
    · split
      extract_lets frames
      refine SameRuns.trans (SameRuns.afterSetPitch (SameRuns.enqueueAll frames) ?_) (SameRuns.lsDifference _)
      rfl
    · exact SameRuns.lsMismatch s.draw.2 _ _ _ _

theorem SameRuns.lsCompareGo (q : Pairing) (n : Nat) (s : State) : SameRuns p s (lsCompareGo p q n s) := by
  induction n generalizing s with
  | zero => exact SameRuns.refl
  | succ n ih =>
    unfold Machine.lsCompareGo
    extract_lets x w
    split
    next a b hfirst hown htheirs =>
      split
      · exact ((SameRuns.releaseOutputs _ _).trans (ih _)).afterSetPitch (Pitch.runs_count _ _ _)
      · exact SameRuns.lsDiffers s q w _ _
    · exact SameRuns.refl

theorem SameRuns.lsSendGo (q : Pairing) (n : Nat) (s : State) : SameRuns p s (lsSendGo p q n s) := by
  induction n generalizing s with
  | zero => exact SameRuns.refl
  | succ n ih =>
    unfold Machine.lsSendGo
    extract_lets x w
    split
    · exact SameRuns.refl
    · split
      · exact (ih _).afterSetPitch rfl
      · exact SameRuns.refl

theorem SameRuns.lsProgress (s : State) : SameRuns p s (s.lsProgress p) := by
  unfold State.lsProgress
  extract_lets x
  split
  · exact SameRuns.refl
  next q _ =>
    split
    · split
      · exact SameRuns.refl
      · exact (SameRuns.releaseOutputs _ _).afterSetPitch (Pitch.runs_count _ _ _)
    · extract_lets compared sent
      have hsent : SameRuns p s sent := (SameRuns.lsCompareGo q _ s).trans (SameRuns.lsSendGo q _ _)
      exact hsent.trans (SameRuns.setPitch sent rfl)

theorem Pitch.runs_closeLsWindow (x : Pitch) (q : Pairing) : (x.closeLsWindow q).runs = x.runs := by rw [Pitch.closeLsWindow_rest]

theorem SameRuns.lsDigest (s : State) (b k : Nat) (out stream res : Bytes) : SameRuns p s (s.lsDigest p b k out stream res) := by
  unfold State.lsDigest
  extract_lets x
  split
  · exact SameRuns.refl
  next q _ =>
    extract_lets items d held y
    split
    · exact (SameRuns.lsProgress _).afterSetPitch (Pitch.runs_closeLsWindow y q)
    · exact SameRuns.setPitch s rfl

theorem SameRuns.lsLast (s : State) : SameRuns p s (s.lsLast p) := by
  unfold State.lsLast
  extract_lets x
  split
  next q _ =>
    split
    · exact (SameRuns.lsProgress _).afterSetPitch (Pitch.runs_closeLsWindow x q)
    · exact SameRuns.refl
  · exact SameRuns.refl

theorem SameRuns.addNorm (s : State) (n lo : Nat) (vs : List Val) : SameRuns p s (s.addNorm p n lo vs) := by
  refine SameRuns.foldl (fun t g => ?_) _ s
  split
  · exact SameRuns.refl
  · exact SameRuns.refl

end

/-! ## The block counts as done -/

theorem find?_replaceFirst {α : Type} {p : α → Bool} {f : α → α} {x : α} {xs : List α} (h : xs.find? p = some x) (hp : p (f x) = true) :
    (replaceFirst p f xs).find? p = some (f x) := by
  induction xs with
  | nil => simp at h
  | cons y ys ih =>
    unfold replaceFirst
    cases hy : p y with
    | true =>
      obtain rfl : y = x := by simpa [hy] using h
      simp [hp]
    | false => simpa [hy] using ih (by simpa [hy] using h)

theorem Pitch.find_setRun {x : Pitch} {r r' : BucketRun} {b : Nat} (h : x.runs.find? (fun q => q.bucket = b) = some r)
    (hb : r'.bucket = b) : (x.setRun r').runs.find? (fun q => q.bucket = b) = some r' := by
  subst hb
  exact find?_replaceFirst (f := fun _ => r') h (by simp)

/-- Phase O of block j of the run of bucket b is done. -/
def OutDone (p : PitchId) (b j : Nat) (s : State) : Prop :=
  ∃ r, (s.pitch p).runs.find? (fun q => q.bucket = b) = some r ∧ j ∈ r.outDone

section
variable {p : PitchId} {b j : Nat} {s t : State}

theorem OutDone.of_sameRuns (h : OutDone p b j s) (hruns : SameRuns p s t) : OutDone p b j t := by
  rw [SameRuns] at hruns
  rwa [OutDone, hruns]

/-- What the records of whole rows leave true: each moves the run's mark on, raises flags and counts, and writes to the host. -/
theorem rowSideGo_induction {P : State → Prop}
    (hmark : ∀ (t : State) (r : BucketRun) (x : Pitch) (side : Nat), (t.pitch p).runs.find? (fun q => q.bucket = b) = some r →
      x = { t.pitch p with numFlags := x.numFlags, counters := x.counters } → P t → P (t.setPitch p (x.setRun { r with sideDone := side })))
    (hout : ∀ (t : State) (h : HostPort) (a : W64) (d : Bytes), P t → P (t.hostOutput p h a d))
    (code : Nat → Nat) (n : Nat) (h : P s) : P (rowSideGo p b code n s) := by
  induction n generalizing s with
  | zero => exact h
  | succ n ih =>
    unfold rowSideGo
    extract_lets x
    split
    · exact h
    next r hfind =>
      split
      · exact h
      · split
        split
        split
        · exact ih (hmark s r x _ hfind rfl h)
        · split
          · exact h
          · extract_lets codes vals words
            split
            next bytes fl k _ =>
              extract_lets y t u
              have ht : P t := hmark s r ((x.raise fl).count .ergOutRetry k) _ hfind (by rw [Pitch.count_rest]; rfl) h
              refine ih ?_
              simp only [u]
              split
              · exact hout _ _ _ _ ht
              · exact ht

theorem OutDone.rowSideGo (code : Nat → Nat) (n : Nat) (h : OutDone p b j s) : OutDone p b j (rowSideGo p b code n s) := by
  refine rowSideGo_induction (fun t r x side hfind hx hdone => ?_) (fun t _ _ _ h => h.of_sameRuns (SameRuns.hostOutput _ _ _ _)) code n h
  obtain ⟨r', hfind', hdone⟩ := hdone
  obtain rfl : r = r' := Option.some.inj (hfind.symm.trans hfind')
  refine ⟨{ r with sideDone := side }, ?_, hdone⟩
  rw [State.pitch_setPitch]
  exact Pitch.find_setRun (by rw [hx]; exact hfind) (Pitch.find_bucket hfind).1

theorem OutDone.writeOutput {r r₀ : BucketRun} (hfind : (s.pitch p).runs.find? (fun q => q.bucket = r.bucket) = some r₀) (vs : List Val) :
    OutDone p r.bucket j (s.writeOutput p r j vs).1 := by
  unfold State.writeOutput
  extract_lets x
  split
  extract_lets rec' n out codes bytes y t u
  have hdone : OutDone p r.bucket j t := by
    refine ⟨{ r with outDone := r.outDone ++ [j] }, ?_, List.mem_append_right _ (List.mem_singleton_self j)⟩
    rw [State.pitch_setPitch]
    exact Pitch.find_setRun hfind rfl
  have hstored : SameRuns p t u := by
    simp only [u]
    split
    · exact SameRuns.hostOutput _ _ _ _
    · exact SameRuns.refl
  exact (hdone.of_sameRuns hstored).of_sameRuns (SameRuns.addNorm u _ _ _)

/-- Phase O of a block in terms of its three parts. -/
theorem State.outputBlock_parts (s : State) (p : PitchId) (r : BucketRun) (j : Nat) : ∃ vs code out res,
    s.outputBlock p r j =
      ((rowSideGo p r.bucket code (r.elements (s.pitch p) + 1) (s.writeOutput p r j vs).1).endOutput p r j out res).lsLast p ∧
    ∀ c, s.placedOf p r j = some c → vs = placedVals ((s.pitch p).bucketD (r.part (s.pitch p) j).1) c := by
  unfold State.outputBlock
  extract_lets x
  split
  next b k hpart =>
    extract_lets rec' z vs res
    split
    next t out hwrite =>
      refine ⟨vs, _, out, res, by rw [hwrite], fun c hc => ?_⟩
      have hb : r.part (s.pitch p) j = (b, k) := hpart
      simp only [vs, hc, hb, rec', x]

theorem State.outputBlock_done {r r₀ : BucketRun} (hfind : (s.pitch p).runs.find? (fun q => q.bucket = r.bucket) = some r₀) :
    OutDone p r.bucket j (s.outputBlock p r j) := by
  obtain ⟨vs, code, out, res, heq, -⟩ := s.outputBlock_parts p r j
  rw [heq]
  exact (((OutDone.writeOutput hfind vs).rowSideGo code _).of_sameRuns (SameRuns.lsDigest _ _ _ _ _ _)).of_sameRuns (SameRuns.lsLast _)

end

end Sys2Proof.Machine
end

