-- ==== Sys2Proof/Proofs/OutputBytes.lean ====
section
/-! PROOF. What phase O of a block touches, and the bytes that leave first (06 R145; 16 R352). -/

namespace Sys2Proof.Machine

open Sys2Proof.Claims

/-! ## What phase O touches -/

/-- Beside pitch p and what has left for the hosts only its queue memory and Erg registers changed, and its pairing stayed. -/
structure HostWithin (p : PitchId) (s t : State) : Prop where
  within : Within p [] { s with hostOut := t.hostOut, hostPorts := t.hostPorts } t
  pairing : (t.pitch p).pairing = (s.pitch p).pairing

section
variable {p : PitchId} {s t u : State}

theorem HostWithin.trans (h : HostWithin p s t) (k : HostWithin p t u) : HostWithin p s u where
  within := ⟨by rw [k.within.rest, h.within.rest], fun q hq => (k.within.others q hq).trans (h.within.others q hq),
    fun a hqueue hranges => (k.within.bytes a hqueue hranges).trans (h.within.bytes a hqueue hranges)⟩
  pairing := k.pairing.trans h.pairing

theorem HostWithin.refl : HostWithin p s s := ⟨Within.refl, rfl⟩

theorem HostWithin.setPitch (s : State) {x : Pitch} (hx : x.pairing = (s.pitch p).pairing) : HostWithin p s (s.setPitch p x) :=
  ⟨Within.setPitch s x, by rw [State.pitch_setPitch, hx]⟩

theorem HostWithin.foldl {α : Type} {f : State → α → State} (hf : ∀ t a, HostWithin p t (f t a)) (as : List α) (s : State) :
    HostWithin p s (as.foldl f s) := by
  induction as generalizing s with
  | nil => exact HostWithin.refl
  | cons a as ih => exact (hf s a).trans (ih (f s a))

theorem HostWithin.sendHost (s : State) (h : HostPort) (m : HostMsg) : HostWithin p s (s.sendHost h m) := by
  have htold := s.sendHost_told h m
  refine ⟨⟨by rw [htold.1], fun q _ => htold.pitch q, fun a _ _ => ?_⟩, congrArg Pitch.pairing (htold.pitch p)⟩
  rw [htold.1]

theorem HostWithin.hostOutput (s : State) (h : HostPort) (a : W64) (d : Bytes) : HostWithin p s (s.hostOutput p h a d) := by
  unfold State.hostOutput
  extract_lets x
  split
  · exact HostWithin.refl
  · split
    · exact HostWithin.setPitch s rfl
    · exact HostWithin.foldl (fun t _ => HostWithin.sendHost t _ _) _ s

theorem HostWithin.addNorm (s : State) (n lo : Nat) (vs : List Val) : HostWithin p s (s.addNorm p n lo vs) := by
  refine HostWithin.foldl (fun t g => ?_) _ s
  split
  · exact HostWithin.refl
  · exact ⟨Within.ergAddTo t _ _, rfl⟩

theorem HostWithin.rowSideGo (b : Nat) (code : Nat → Nat) (n : Nat) (s : State) : HostWithin p s (rowSideGo p b code n s) :=
  rowSideGo_induction (P := HostWithin p s)
    (fun t _ _ _ _ hx h => h.trans (HostWithin.setPitch t (congrArg Pitch.pairing hx :)))
    (fun t _ _ _ h => h.trans (HostWithin.hostOutput t _ _ _)) code n HostWithin.refl

theorem HostWithin.writeOutput (s : State) (r : BucketRun) (j : Nat) (vs : List Val) : HostWithin p s (s.writeOutput p r j vs).1 := by
  unfold State.writeOutput
  extract_lets x
  split
  extract_lets rec' n out codes bytes y t u
  have hstored : HostWithin p t u := by
    simp only [u]
    split
    · exact HostWithin.hostOutput _ _ _ _
    · exact HostWithin.refl
  have hset : HostWithin p s t := HostWithin.setPitch s rfl
  exact (hset.trans hstored).trans (HostWithin.addNorm u _ _ _)

/-- With no pairing phase O of a block ends with its rows. -/
theorem endOutput_unpaired {r : BucketRun} {j : Nat} {out res : Bytes} (h : (s.pitch p).pairing = none) :
    (s.endOutput p r j out res).lsLast p = s := by
  have hend : s.endOutput p r j out res = s := by simp [State.endOutput, State.lsDigest, h]
  rw [hend]
  simp [State.lsLast, h]

theorem State.outputBlock_unpaired {r : BucketRun} {j : Nat} (h : (s.pitch p).pairing = none) : HostWithin p s (s.outputBlock p r j) := by
  obtain ⟨vs, code, out, res, heq, -⟩ := s.outputBlock_parts p r j
  have hrows := (HostWithin.writeOutput (p := p) s r j vs).trans (HostWithin.rowSideGo r.bucket code (r.elements (s.pitch p) + 1) _)
  rw [heq, endOutput_unpaired (hrows.pairing.trans h)]
  exact hrows

/-- The bytes of the block's output leave first (06 R145). -/
theorem State.writeOutput_hostOut {r : BucketRun} {j : Nat} {vs : List Val} {g : IngestRange}
    (hheld : (s.pitch p).lock.held = false) (hholds : (s.pitch p).lsHolds = false) (hup : s.hostUp (s.copyPort p g.wq) = true)
    (hrange : ((s.pitch p).ingest (r.part (s.pitch p) j).1).outs.find? (fun g =>
      g.offset ≤ (r.part (s.pitch p) j).2 * bBlock ((s.pitch p).bucketD (r.part (s.pitch p) j).1) &&
      (r.part (s.pitch p) j).2 * bBlock ((s.pitch p).bucketD (r.part (s.pitch p) j).1) < g.offset + g.count) = some g) :
    s.hostOut ++ dmaWrites (s.copyPort p g.wq)
      (g.outAddr + BitVec.ofNat 64 (((r.part (s.pitch p) j).2 * bBlock ((s.pitch p).bucketD (r.part (s.pitch p) j).1) - g.offset) *
        (fmtBits (bOutFmt ((s.pitch p).bucketD (r.part (s.pitch p) j).1)) / 8)))
      (outBytes ((s.pitch p).bucketD (r.part (s.pitch p) j).1)
        (((s.pitch p).outCodes ((s.pitch p).bucketD (r.part (s.pitch p) j).1) vs).map Prod.fst)) <+:
      (s.writeOutput p r j vs).1.hostOut := by
  unfold State.writeOutput
  extract_lets x
  split
  next b k hpart =>
    have hb : r.part (s.pitch p) j = (b, k) := hpart
    extract_lets rec' n out codes bytes y t u
    rw [hb] at hrange ⊢
    have hport : t.copyPort p g.wq = s.copyPort p g.wq := by
      have hy : t.pitch p = y := s.pitch_setPitch p y
      unfold State.copyPort
      rw [hy]
      rfl
    have hu : u = t.hostStore (s.copyPort p g.wq) (g.outAddr + BitVec.ofNat 64 ((k * n - g.offset) * (fmtBits (bOutFmt rec') / 8))) bytes := by
      have hfound : (x.ingest b).outs.find? (fun g => g.offset ≤ k * n && k * n < g.offset + g.count) = some g := hrange
      have hy : t.pitch p = y := s.pitch_setPitch p y
      have hyheld : y.lock.held = false := hheld
      have hyholds : y.lsHolds = false := hholds
      simp only [u, hfound, State.hostOutput, hy, hyheld, hyholds, hport]
      rfl
    have hstored := (State.hostStore_told (s := t) (h := s.copyPort p g.wq) hup
      (g.outAddr + BitVec.ofNat 64 ((k * n - g.offset) * (fmtBits (bOutFmt rec') / 8))) bytes).2.1
    rw [← hu] at hstored
    have hnorm := (State.addNorm_keeps (A := fun _ => True) (d := True) u p 1 (bElemBase rec' + k * n) (codes.map (outVal rec')) trivial
      (Keeps.refl _ _ u)).hostOut
    rw [hstored] at hnorm
    exact hnorm

end

end Sys2Proof.Machine
end

