-- ==== Sys2Proof/Proofs/OutputAndUpdate.lean ====
section
/-! PROOF. The fused update, element by element (14 R315, R316), and phase O with the checks of its slice (06 R145; 08 R192 to R195). -/

namespace Sys2Proof.Machine

open Sys2Proof.Claims

/-! ## Bytes in pieces of equal length -/

theorem leBytes_leNat (bs : Bytes) : leBytes bs.length (leNat bs) = bs := by
  induction bs with
  | nil => rfl
  | cons b bs ih =>
    have hdiv : (b.toNat + 256 * leNat bs) / 256 = leNat bs := by have := b.isLt; omega
    have hhead : BitVec.ofNat 8 (b.toNat + 256 * leNat bs) = b := by
      apply BitVec.eq_of_toNat_eq
      rw [BitVec.toNat_ofNat]
      have := b.isLt
      omega
    rw [List.length_cons, leNat, leBytes, hdiv, hhead, ih]

theorem length_flatMap_range {α : Type} {f : Nat → List α} {z : Nat} (n : Nat) (hlen : ∀ i, i < n → (f i).length = z) :
    ((List.range n).flatMap f).length = z * n := by
  induction n with
  | zero => simp
  | succ n ih =>
    have hlast : ((List.range n).flatMap f).length = z * n := ih fun i hi => hlen i (by omega)
    rw [List.range_succ, List.flatMap_append, List.length_append, hlast, List.flatMap_singleton, hlen n (by omega), Nat.mul_succ]

theorem cut_flatMap_range {α : Type} {f : Nat → List α} {z i n : Nat} (hlen : ∀ i, i < n → (f i).length = z) (hi : i < n) :
    cut ((List.range n).flatMap f) (z * i) z = f i := by
  obtain ⟨k, rfl⟩ := Nat.exists_eq_add_of_lt hi
  have hbefore : ((List.range i).flatMap f).length = z * i := length_flatMap_range i fun j hj => hlen j (by omega)
  rw [cut, Nat.add_assoc, List.range_add, List.flatMap_append, ← hbefore, List.drop_left, List.range_succ_eq_map]
  simp only [List.map_cons, List.flatMap_cons, Nat.add_zero]
  rw [List.take_left' (hlen i (by omega))]

/-- What was written in pieces reads back piece by piece. -/
theorem State.read_write_piece (s : State) {f : Nat → Bytes} {a z i n : Nat} (hlen : ∀ i, i < n → (f i).length = z) (hi : i < n) :
    (s.write a ((List.range n).flatMap f)).read (a + z * i) z = f i := by
  have hin : z * i + z ≤ z * n := by
    rw [← Nat.mul_succ]
    exact Nat.mul_le_mul_left z hi
  have hread := s.read_write a ((List.range n).flatMap f)
  rw [length_flatMap_range n hlen] at hread
  rw [← State.cut_read _ hin, hread, cut_flatMap_range hlen hi]

/-! ## The fused update of a block (14 R315, R316) -/

section
variable (s : State) (p : PitchId) (r : BucketRun) (j : Nat)

/-- Where the weights of block j of a run begin. -/
def weightAddr : Nat :=
  let x := s.pitch p
  x.cfg p 0x10F + 2 * (x.shard (r.part x j).1 (r.part x j).2 * bBlock (x.bucketD (r.part x j).1))

/-- Where its optimiser state begins. -/
def stateAddr : Nat :=
  let x := s.pitch p
  x.cfg p 0x110 + 8 * (x.shard (r.part x j).1 (r.part x j).2 * bBlock (x.bucketD (r.part x j).1))

/-- The weight bytes that the update leaves of element i. -/
def weightPiece (i : Nat) : Bytes :=
  match elemUpdate s p r j i with
  | some (c, _, _) => leBytes 2 c
  | none => s.read (weightAddr s p r j + 2 * i) 2

/-- The bytes of optimiser state that it leaves. -/
def statePiece (i : Nat) : Bytes :=
  match elemUpdate s p r j i with
  | some (_, m, v) => leBytes 4 m.toNat ++ leBytes 4 v.toNat
  | none => s.read (stateAddr s p r j + 8 * i) 8

theorem length_weightPiece (i : Nat) : (weightPiece s p r j i).length = 2 := by
  unfold weightPiece
  split
  · exact length_leBytes 2 _
  · exact s.length_read _ 2

theorem length_statePiece (i : Nat) : (statePiece s p r j i).length = 8 := by
  unfold statePiece
  split
  · rw [List.length_append, length_leBytes, length_leBytes]
  · exact s.length_read _ 8

theorem SameRuns.modPitch (f : Pitch → Pitch) (h : (f (s.pitch p)).runs = (s.pitch p).runs) : SameRuns p s (s.modPitch p f) :=
  SameRuns.setPitch s h

theorem leAt_read {a m i n : Nat} (h : i + n ≤ m) : leAt (s.read a m) i n = s.readLe (a + i) n := by
  rw [leAt, State.cut_read _ h, State.readLe]

/-- Piece i of what was read. -/
theorem chunks_read {a z i n : Nat} (hz : 0 < z) (hi : i < n) : (chunks z (s.read a (z * n))).getD i [] = s.read (a + z * i) z := by
  rw [chunks_getD z i hz, State.cut_read]
  rw [← Nat.mul_succ]
  exact Nat.mul_le_mul_left z hi

theorem Within.addNorm (n lo : Nat) (vs : List Val) : Within p [] s (s.addNorm p n lo vs) := by
  refine Within.foldl (fun t g => ?_) _ s
  split
  · exact Within.refl
  · exact Within.ergAddTo t _ _

/-- The update writes its pieces; what follows is beside memory of the pitch's regions. -/
theorem State.updateBlock_parts {n : Nat} (hn : n = bBlock ((s.pitch p).bucketD (r.part (s.pitch p) j).1)) :
    ∃ (y : Pitch) (u : State), y.runs = ((s.pitch p).setRun { r with updDone := r.updDone ++ [j] }).runs ∧
      u = ((s.setPitch p y).write (weightAddr s p r j) ((List.range n).flatMap (weightPiece s p r j))).write (stateAddr s p r j)
        ((List.range n).flatMap (statePiece s p r j)) ∧
      Within p [] u (s.updateBlock p r j (s.blockValues p r j)) ∧ SameRuns p u (s.updateBlock p r j (s.blockValues p r j)) := by
  subst hn
  unfold State.updateBlock
  extract_lets x zero
  split
  next b k hpart =>
    extract_lets rec' n slot wa oa ws os lo res bad wBytes oBytes news diffs y u v t
    have hb : r.part (s.pitch p) j = (b, k) := hpart
    have hn : bBlock ((s.pitch p).bucketD (r.part (s.pitch p) j).1) = n := by rw [hb]
    have hwa : weightAddr s p r j = wa := by simp only [weightAddr, hb, wa, slot, n, rec', x]
    have hoa : stateAddr s p r j = oa := by simp only [stateAddr, hb, oa, slot, n, rec', x]
    have hw {i : Nat} (hi : i < n) : ws.getD i 0 = s.readLe (wa + 2 * i) 2 := by
      change ((chunks 2 (s.read wa (2 * n))).map leNat).getD i (leNat []) = _
      rw [List.getD_map, chunks_read s (by decide) hi, State.readLe]
    have ho {i : Nat} (hi : i < n) : os.getD i [] = s.read (oa + 8 * i) 8 := chunks_read s (by decide) hi
    have hres {i : Nat} (hi : i < n) : (res.getD i (none, 0, 0)).1 = elemUpdate s p r j i := by
      simp only [res]
      rw [List.getD_eq_getElem _ _ (by simpa using hi), List.getElem_map, List.getElem_range, hw hi, ho hi,
        leAt_read s (by decide), leAt_read s (by decide)]
      simp only [elemUpdate, hb]
      rfl
    have hwBytes : wBytes = (List.range n).flatMap (weightPiece s p r j) := by
      refine List.flatMap_congr fun i hi => ?_
      have hi := List.mem_range.mp hi
      have hbytes : leBytes 2 (s.readLe (wa + 2 * i) 2) = s.read (wa + 2 * i) 2 := by
        have hback := leBytes_leNat (s.read (wa + 2 * i) 2)
        rwa [s.length_read] at hback
      cases hnew : elemUpdate s p r j i with
      | some e => simp only [hres hi, weightPiece, hnew]
      | none => simp only [hres hi, weightPiece, hnew, hwa, hw hi, hbytes]
    have hoBytes : oBytes = (List.range n).flatMap (statePiece s p r j) := by
      refine List.flatMap_congr fun i hi => ?_
      have hi := List.mem_range.mp hi
      cases hnew : elemUpdate s p r j i with
      | some e => simp only [hres hi, statePiece, hnew]
      | none => simp only [hres hi, statePiece, hnew, hoa, ho hi]
    have hnorms : Within p [] (((s.setPitch p y).write wa wBytes).write oa oBytes) v :=
      (Within.addNorm _ p 2 lo news).trans (Within.addNorm u p 3 lo diffs)
    have hruns : SameRuns p (((s.setPitch p y).write wa wBytes).write oa oBytes) v :=
      (SameRuns.addNorm _ 2 lo news).trans (SameRuns.addNorm u 3 lo diffs)
    refine ⟨y, ((s.setPitch p y).write wa wBytes).write oa oBytes, ?_, ?_, ?_⟩
    · simp only [y, Pitch.setRun, Pitch.runs_count]
      rfl
    · rw [hn, hwa, hoa, hwBytes, hoBytes]
    · clear_value v
      split
      · split
        · exact ⟨hnorms.trans (Within.modPitch v _), hruns.trans (SameRuns.modPitch v p _ rfl)⟩
        · have ht : SameRuns p v t := SameRuns.modPitch v p _ rfl
          exact ⟨(hnorms.trans (Within.modPitch v _)).trans (Within.notice t _ _), (hruns.trans ht).trans (SameRuns.notice t _ _)⟩
      · exact ⟨hnorms, hruns⟩
end

/-- Queue memory lies below HBM. -/
theorem queue_below_hbm (p : PitchId) {a : Nat} (ha : hbmBase ≤ a) : queueBase p.val + queueSize ≤ a := by
  have := p.isLt
  simp only [queueBase, queueSize, hbmBase] at ha ⊢
  omega

theorem exec_fusedUpdateBlock {s : State} {p : PitchId} {r : BucketRun} {j : Nat} (hup : s.held = false)
    (hfind : (s.pitch p).runs.find? (fun q => q.bucket = r.bucket) = some r) (hready : r.readyUpdate (s.pitch p) j = true)
    (hbanks : r.updateBanks (s.pitch p) p j = true) :
    exec (.fusedUpdateBlock p r.bucket j) s = .next (s.updateBlock p r j (s.blockValues p r j)) := by
  change execFusedUpdateBlock p r.bucket j s = _
  rw [execFusedUpdateBlock, live_next s _ hup]
  simp [hfind, hready, hbanks]

/-- The fused update of a block replaces weight and state of each element whose update is finite, and leaves the others. -/
theorem fusedUpdate_replaces {s : State} {p : PitchId} {r : BucketRun} {j n wa oa : Nat} (hup : s.held = false)
    (hfind : (s.pitch p).runs.find? (fun q => q.bucket = r.bucket) = some r) (hready : r.readyUpdate (s.pitch p) j = true)
    (hbanks : r.updateBanks (s.pitch p) p j = true) (hn : n = bBlock ((s.pitch p).bucketD (r.part (s.pitch p) j).1))
    (hwa : wa = weightAddr s p r j) (hoa : oa = stateAddr s p r j) (hwhigh : hbmBase ≤ wa) (hohigh : hbmBase ≤ oa)
    (hapart : wa + 2 * n ≤ oa ∨ oa + 8 * n ≤ wa) :
    ∃ t, exec (.fusedUpdateBlock p r.bucket j) s = .next t ∧ Within p [(wa, 2 * n), (oa, 8 * n)] s t ∧
      (∃ r' ∈ (t.pitch p).runs, r'.bucket = r.bucket ∧ j ∈ r'.updDone) ∧
      ∀ i, i < n → t.read (wa + 2 * i) 2 = weightPiece s p r j i ∧ t.read (oa + 8 * i) 8 = statePiece s p r j i := by
  obtain ⟨y, u, hyruns, hu, hwithin, hruns⟩ := s.updateBlock_parts p r j hn
  rw [← hwa, ← hoa] at hu
  have hwlen : ((List.range n).flatMap (weightPiece s p r j)).length = 2 * n :=
    length_flatMap_range n fun i _ => length_weightPiece s p r j i
  have holen : ((List.range n).flatMap (statePiece s p r j)).length = 8 * n :=
    length_flatMap_range n fun i _ => length_statePiece s p r j i
  have hwrites : Within p [(wa, 2 * n), (oa, 8 * n)] s u := by
    rw [hu]
    exact ((Within.setPitch s y).trans (Within.write _ (by simp) hwlen.le)).trans (Within.write _ (by simp) holen.le)
  refine ⟨_, exec_fusedUpdateBlock hup hfind hready hbanks, hwrites.trans (hwithin.mono (by simp)), ?_, fun i hi => ?_⟩
  · refine ⟨{ r with updDone := r.updDone ++ [j] }, ?_, rfl, List.mem_append_right _ (List.mem_singleton_self j)⟩
    have huruns : (u.pitch p).runs = ((s.pitch p).setRun { r with updDone := r.updDone ++ [j] }).runs := by
      rw [hu, ← hyruns]
      exact congrArg Pitch.runs (s.pitch_setPitch p y)
    rw [SameRuns] at hruns
    rw [hruns, huruns]
    exact (Pitch.find_bucket (Pitch.find_setRun (r' := { r with updDone := r.updDone ++ [j] }) hfind rfl)).2
  · have hhigh {a z : Nat} (ha : hbmBase ≤ a) : (s.updateBlock p r j (s.blockValues p r j)).read a z = u.read a z :=
      State.read_congr fun k _ => hwithin.bytes _ (.inr (queue_below_hbm p (by omega))) (by simp)
    rw [hhigh (by omega), hhigh (by omega), hu]
    refine ⟨?_, State.read_write_piece _ (fun i _ => length_statePiece s p r j i) hi⟩
    refine (State.read_congr fun k hk => State.byte_write_out _ _ _ _ (by omega)).trans ?_
    exact State.read_write_piece _ (fun i _ => length_weightPiece s p r j i) hi

/-! ## Phase O of a block -/

section
variable {s : State} {p : PitchId} {r : BucketRun} {j : Nat} (hup : s.held = false) (hnext : (s.pitch p).nextOutput = some (r, j))
include hnext

/-- The block that phase O takes next belongs to a run of the pitch, and nothing holds phase O. -/
theorem nextOutput_spec : (s.pitch p).lock.held = false ∧ r ∈ (s.pitch p).runs := by
  unfold Pitch.nextOutput at hnext
  split at hnext
  next houtputs =>
    obtain ⟨q, hq, hblock⟩ := List.exists_of_findSome?_eq_some hnext
    split at hblock
    · simp at hblock
    · obtain ⟨_, _, heq⟩ := Option.map_eq_some_iff.mp hblock
      obtain ⟨rfl, rfl⟩ := heq
      simp only [Pitch.outputs, Bool.and_eq_true, Bool.not_eq_true'] at houtputs
      exact ⟨houtputs.2, hq⟩
  next => simp at hnext

theorem exists_find_bucket : ∃ r₀, (s.pitch p).runs.find? (fun q => q.bucket = r.bucket) = some r₀ := by
  obtain ⟨-, hmem⟩ := nextOutput_spec hnext
  exact Option.isSome_iff_exists.mp (List.find?_isSome.mpr ⟨r, hmem, by simp⟩)

include hup

theorem exec_outputBlock (check : BlockCheck) : exec (.outputBlock p r.bucket j check) s = .next
    (if (s.pitch p).normBanks p (r.part (s.pitch p) j).1 (r.part (s.pitch p) j).2 1 then
      (if (s.pitch p).lsRoom then s.checkedBlock p j check (fun s => s.outputBlock p r j) else s.lsWait p)
    else s) := by
  change execOutputBlock p r.bucket j check s = _
  rw [execOutputBlock, live_next s _ hup]
  simp [hnext]

/-- Phase O of the next block in a slice that takes work, with everything it writes (06 R145). -/
theorem outputBlock_outputs (hbanks : (s.pitch p).normBanks p (r.part (s.pitch p) j).1 (r.part (s.pitch p) j).2 1 = true)
    (hroom : (s.pitch p).lsRoom = true) (hworks : s.sliceWorks j = true) :
    exec (.outputBlock p r.bucket j .pass) s = .next (s.outputBlock p r j) ∧
      BlockChecked s p j (.outputBlock p r.bucket j) (s.outputBlock p r j) := by
  have hrun (check : BlockCheck) : exec (.outputBlock p r.bucket j check) s =
      .next (s.checkedBlock p j check (fun s => s.outputBlock p r j)) := by
    rw [exec_outputBlock hup hnext, if_pos hbanks, if_pos hroom]
  exact ⟨exec_checked_pass (work := fun s => s.outputBlock p r j) hrun hworks,
    blockChecked_of (work := fun s => s.outputBlock p r j) hrun hworks⟩

end

/-- What leaves for the host leaves first (06 R145). -/
theorem State.outputBlock_hostOut {s : State} {p : PitchId} {r : BucketRun} {j : Nat} {g : IngestRange} {c : Placed}
    (hheld : (s.pitch p).lock.held = false) (hholds : (s.pitch p).lsHolds = false) (hplaced : s.placedOf p r j = some c)
    (hup : s.hostUp (s.copyPort p g.wq) = true)
    (hrange : ((s.pitch p).ingest (r.part (s.pitch p) j).1).outs.find? (fun g =>
      g.offset ≤ (r.part (s.pitch p) j).2 * bBlock ((s.pitch p).bucketD (r.part (s.pitch p) j).1) &&
      (r.part (s.pitch p) j).2 * bBlock ((s.pitch p).bucketD (r.part (s.pitch p) j).1) < g.offset + g.count) = some g) :
    s.hostOut ++ dmaWrites (s.copyPort p g.wq)
      (g.outAddr + BitVec.ofNat 64 (((r.part (s.pitch p) j).2 * bBlock ((s.pitch p).bucketD (r.part (s.pitch p) j).1) - g.offset) *
        (fmtBits (bOutFmt ((s.pitch p).bucketD (r.part (s.pitch p) j).1)) / 8)))
      (outBytes ((s.pitch p).bucketD (r.part (s.pitch p) j).1)
        (((s.pitch p).outCodes ((s.pitch p).bucketD (r.part (s.pitch p) j).1)
          (placedVals ((s.pitch p).bucketD (r.part (s.pitch p) j).1) c)).map Prod.fst)) <+: (s.outputBlock p r j).hostOut := by
  obtain ⟨vs, code, out, res, heq, hvs⟩ := s.outputBlock_parts p r j
  have hfirst := State.writeOutput_hostOut (vs := vs) hheld hholds hup hrange
  rw [hvs c hplaced] at hfirst
  refine hfirst.trans ?_
  rw [heq, hvs c hplaced]
  generalize (s.writeOutput p r j _).1 = t
  have hrows := rowSideGo_keeps (A := (· = p)) p r.bucket code (r.elements (s.pitch p) + 1) t rfl (Keeps.refl _ True t)
  have hend := State.endOutput_keeps (A := (· = p)) _ p r j out res rfl hrows
  exact (State.lsLast_keeps (A := (· = p)) _ p rfl hend).hostOut

/-- A first wait is counted and marked. -/
theorem State.lsWait_spec (s : State) {p : PitchId} (hwait : (s.pitch p).lock.waiting = false) : OnlyPitch p s (s.lsWait p) ∧
    ((s.lsWait p).pitch p).counter .lsWaits = (s.pitch p).counter .lsWaits + 1 ∧
    (s.lsWait p).pitch p = { s.pitch p with
      lock := { (s.pitch p).lock with waiting := true }, counters := ((s.lsWait p).pitch p).counters } := by
  let y := (s.pitch p).count .lsWaits
  have heq : s.lsWait p = s.setPitch p { y with lock := { y.lock with waiting := true } } := by
    simp only [State.lsWait, hwait, Bool.false_eq_true, if_false, y]
  rw [heq, State.pitch_setPitch]
  refine ⟨onlyPitch_setPitch s p _, (Pitch.counter_count (s.pitch p) (c := .lsWaits) (by decide) (by decide) 1 :), ?_⟩
  simp only [y]
  rw [Pitch.count_rest]

/-- Settles O36: phase O of a block ends with its mark and its bytes on their way; the fused update writes element by element. -/
theorem outputAndUpdate : Obligations.OutputAndUpdate := by
  intro s p r j hup
  refine ⟨fun hnext hbanks hroom hworks => ?_, fun hnext hroom hworks check => ?_, fun hnext hbanks hroom hwait check => ?_, ?_⟩
  · obtain ⟨hheld, -⟩ := nextOutput_spec hnext
    obtain ⟨hpass, hchecks⟩ := outputBlock_outputs hup hnext hbanks hroom hworks
    obtain ⟨r₀, hfind⟩ := exists_find_bucket hnext
    obtain ⟨r', hfind', hdone⟩ := State.outputBlock_done (j := j) hfind
    obtain ⟨hbucket, hmem⟩ := Pitch.find_bucket hfind'
    have hothers := (State.outputBlock_keeps (A := (· = p)) (d := True) s p r j rfl (Keeps.refl _ _ s)).others
    exact ⟨_, hpass, hchecks, ⟨r', hmem, hbucket, hdone⟩, hothers, fun g c hholds hplaced hport hrange =>
      State.outputBlock_hostOut hheld hholds hplaced hport hrange, fun hpair => (State.outputBlock_unpaired hpair).within⟩
  · rw [exec_outputBlock hup hnext, if_pos hroom]
    simp [State.checkedBlock, hworks]
  · rw [exec_outputBlock hup hnext, if_pos hbanks, if_neg (by simp [hroom])]
    exact ⟨_, rfl, s.lsWait_spec hwait⟩
  · rintro rec' n wa oa hfind hready hbanks rfl rfl rfl rfl hwhigh hohigh hapart
    obtain ⟨t, hrun, hwithin, hdone, hpieces⟩ :=
      fusedUpdate_replaces hup hfind hready hbanks rfl rfl rfl hwhigh hohigh hapart
    refine ⟨t, hrun, hwithin, hdone, fun i hi => ?_⟩
    obtain ⟨hweight, hstate⟩ := hpieces i hi
    exact ⟨fun c m v hnew => ⟨hweight.trans (by rw [weightPiece, hnew]), hstate.trans (by rw [statePiece, hnew])⟩,
      fun hnone => ⟨hweight.trans (by rw [weightPiece, hnone]; rfl), hstate.trans (by rw [statePiece, hnone]; rfl)⟩⟩

end Sys2Proof.Machine
end

