-- ==== Sys2Proof/Proofs/PackerFrames.lean ====
section
/-! PROOF. What the Packer and the assignment of windows change of a pitch: its queue of frames, its counters and one run (03 R70;
09 R208, R209). -/

namespace Sys2Proof.Machine

open Sys2Proof.Claims

/-! ## Frames and windows -/

/-- Of the pitch only transmission and counters changed. -/
def TxMoved (x y : Pitch) : Prop := y = { x with tx := y.tx, counters := y.counters }

section
variable {x y z : Pitch}

theorem TxMoved.refl : TxMoved x x := rfl

theorem TxMoved.trans (h : TxMoved x y) (k : TxMoved y z) : TxMoved x z := by
  rw [TxMoved] at h k ⊢
  rw [k, h]

theorem TxMoved.foldl {α : Type} {f : Pitch → α → Pitch} (hf : ∀ x a, TxMoved x (f x a)) (as : List α) (x : Pitch) : TxMoved x (as.foldl f x) := by
  induction as generalizing x with
  | nil => exact TxMoved.refl
  | cons a as ih => exact (hf x a).trans (ih (f x a))

theorem TxMoved.count (x : Pitch) (c : PCtr) (n : Nat) : TxMoved x (x.count c n) := by
  rw [TxMoved, Pitch.count_rest]

theorem TxMoved.assignNext {p : PitchId} {lp : Nat} (h : x.assignNext p lp = some y) : TxMoved x y := by
  unfold Pitch.assignNext at h
  split at h
  · simp at h
  · split at h
    · simp at h
    · extract_lets es at h
      split at h
      extract_lets w at h
      obtain rfl := Option.some.inj h
      have hcount : TxMoved x w := (((TxMoved.count x .winDefer _).trans (TxMoved.count _ .winOversize _)).trans
        (TxMoved.count _ .winDrain _)).trans (z := w) rfl
      exact hcount.trans rfl

theorem TxMoved.assignAll (x : Pitch) (p : PitchId) : TxMoved x (x.assignAll p) := by
  refine TxMoved.foldl (fun x lp => ?_) _ x
  generalize x.tx.txq.length = n
  induction n generalizing x with
  | zero => exact TxMoved.refl
  | succ n ih =>
    unfold Pitch.assignPort
    split
    next y hnext => exact (TxMoved.assignNext hnext).trans (ih y)
    · exact TxMoved.refl

theorem TxMoved.enqueues (fs : List TxFrame) (x : Pitch) : TxMoved x (fs.foldl Pitch.enqueue x) :=
  TxMoved.foldl (f := Pitch.enqueue) (fun _ _ => rfl) fs x

theorem TxMoved.closePayload (x : Pitch) (r : BucketRun) (o : OpenPayload) (last : Bool) : TxMoved x (x.closePayload r o last) := by
  have hopen : TxMoved x { x with tx := { x.tx with nextRing := x.tx.nextRing + 1 } } := rfl
  exact hopen.trans (TxMoved.enqueues _ _)

end

/-! ## The run whose streams are packed -/

/-- Of the run only its open payloads and its broadcast streams changed. -/
def StreamsMoved (r r' : BucketRun) : Prop := r' = { r with payloads := r'.payloads, bstreams := r'.bstreams, bnext := r'.bnext }

theorem StreamsMoved.trans {r r' r'' : BucketRun} (h : StreamsMoved r r') (k : StreamsMoved r' r'') : StreamsMoved r r'' := by
  rw [StreamsMoved] at h k ⊢
  rw [k, h]

theorem Pitch.joinPayload_moved {x z : Pitch} {r r' : BucketRun} {b dest kind index : Nat} {bytes : Bytes} {slot : RingSlot} {last : Bool}
    (h : x.joinPayload r b dest kind index bytes slot last = (z, r')) : TxMoved x z ∧ StreamsMoved r r' := by
  unfold Pitch.joinPayload at h
  extract_lets same fresh rest at h
  split at h
  next y o hopen =>
    have hy : TxMoved x y := by
      split at hopen
      · obtain ⟨rfl, -⟩ := Prod.mk.inj hopen
        exact TxMoved.refl
      · split at hopen
        · obtain ⟨rfl, -⟩ := Prod.mk.inj hopen
          exact TxMoved.refl
        · obtain ⟨rfl, -⟩ := Prod.mk.inj hopen
          exact TxMoved.closePayload x r _ false
    split at h
    · obtain ⟨rfl, rfl⟩ := Prod.mk.inj h
      exact ⟨hy.trans (TxMoved.closePayload y r _ true), rfl⟩
    · obtain ⟨rfl, rfl⟩ := Prod.mk.inj h
      exact ⟨hy, rfl⟩

theorem groupBcast_moved (n : Nat) (x : Pitch) (r : BucketRun) :
    TxMoved x (groupBcast n x r).1 ∧ StreamsMoved r (groupBcast n x r).2 := by
  induction n generalizing x r with
  | zero => exact ⟨rfl, rfl⟩
  | succ n ih =>
    unfold groupBcast
    split
    · exact ⟨rfl, rfl⟩
    · split
      · exact ⟨rfl, rfl⟩
      · split
        extract_lets last r'
        split
        next y r'' hjoin =>
          obtain ⟨hx, hr⟩ := Pitch.joinPayload_moved hjoin
          obtain ⟨hx', hr'⟩ := ih y r''
          have hopen : StreamsMoved r r' := rfl
          exact ⟨hx.trans hx', (hopen.trans hr).trans hr'⟩

/-- From x to y a stream of run r was packed: it is now r', and beside it transmission and counters alone changed. -/
structure RunPacked (r : BucketRun) (x y : Pitch) (r' : BucketRun) : Prop where
  rest : y = { x with runs := y.runs, tx := y.tx, counters := y.counters }
  run : StreamsMoved r r'
  runs : y.runs = (x.setRun r').runs

theorem RunPacked.of_txMoved {r r' : BucketRun} {x y : Pitch} (h : TxMoved x y) (hr : StreamsMoved r r') : RunPacked r x (y.setRun r') r' := by
  rw [TxMoved] at h
  refine ⟨?_, hr, ?_⟩
  · rw [h]; rfl
  · rw [h]; rfl

theorem Pitch.groupStream_packed (x : Pitch) (r : BucketRun) (j kind : Nat) (bytes : Bytes) (slot : RingSlot) :
    ∃ r', RunPacked r x (x.groupStream r j kind bytes slot) r' := by
  unfold Pitch.groupStream
  extract_lets y r' low repeated
  have hy : TxMoved x y := TxMoved.count x _ 1
  split
  · split
    next z r'' hgroup =>
      have hmoved := groupBcast_moved (r'.bstreams.length + 1) y r'
      rw [hgroup] at hmoved
      have hopen : StreamsMoved r r' := rfl
      exact ⟨r'', RunPacked.of_txMoved (hy.trans hmoved.1) (hopen.trans hmoved.2)⟩
  · split
    extract_lets blocks dest
    split
    · exact ⟨r, RunPacked.of_txMoved (hy.trans (TxMoved.closePayload y r _ true)) rfl⟩
    · split
      next z r'' hjoin =>
        have hmoved := Pitch.joinPayload_moved hjoin
        exact ⟨r'', RunPacked.of_txMoved (hy.trans hmoved.1) hmoved.2⟩

/-- A stream that reaches the Packer lies in the free slot of the ring or waits, and of the pitch its run and transmission changed. -/
theorem State.toPacker_packed (s : State) (p : PitchId) (r : BucketRun) (j kind : Nat) (bytes : Bytes) :
    ∃ (y : Pitch) (r' : BucketRun), RunPacked r (s.pitch p) y r' ∧ (s.toPacker p r j kind bytes = s.setPitch p y ∨
      ∃ off, (s.pitch p).ringPlace p (r.slot (s.pitch p) kind) = some off ∧
        s.toPacker p r j kind bytes = (s.write ((s.pitch p).ringBase p + off) bytes).setPitch p y) := by
  unfold State.toPacker
  extract_lets x
  split
  next off hplace =>
    obtain ⟨r', hpacked⟩ := x.groupStream_packed r j kind bytes ⟨off, r.slot x kind, bytes.length⟩
    have hassign := TxMoved.assignAll (x.groupStream r j kind bytes ⟨off, r.slot x kind, bytes.length⟩) p
    refine ⟨_, r', ?_, .inr ⟨off, ?_, rfl⟩⟩
    · obtain ⟨hrest, hrun, hruns⟩ := hpacked
      rw [TxMoved] at hassign
      refine ⟨?_, hrun, ?_⟩
      · rw [hassign, hrest]
      · rw [hassign]; exact hruns
    · split at hplace
      · exact hplace
      · simp at hplace
  · refine ⟨_, r, ?_, .inl rfl⟩
    have hlater : TxMoved (x.setRun r) (x.packLater r j kind bytes) := (TxMoved.count (x.setRun r) .packRingStalls 1).trans rfl
    rw [TxMoved] at hlater
    exact ⟨by rw [hlater]; rfl, rfl, by rw [hlater]⟩

end Sys2Proof.Machine
end

