-- ==== Sys2Proof/Proofs/OwnerBroadcast.lean ====
section
/-! PROOF. Phase G at the owner: the broadcast of a complete block is packed, placed and counted (06 R142 to R144; 10 R230). -/

namespace Sys2Proof.Machine

open Sys2Proof.Claims

/-! ## Placing (06 R144) -/

section
variable {s : State} {p : PitchId} {r : BucketRun} {b j : Nat} {q : Placed}

/-- Where the placed broadcast of block j of a run lies in the spill region, and how long it is. -/
def spillRange (x : Pitch) (p : PitchId) (r : BucketRun) (j : Nat) (q : Placed) : List (Nat × Nat) :=
  if r.home then
    [(x.spillAddr p (j * bBlock (r.head x)), (placedBytes (bBcast (r.head x)) (bBlock (r.head x)) (r.part x j).2 q).length)]
  else []

/-- The pitch once the broadcast is placed over v of its block. -/
def Pitch.placed (x : Pitch) (r : BucketRun) (j : Nat) (q : Placed) : Pitch :=
  let y := x.setRun { r with placed := r.placed ++ [(j, q)] }
  if q.scale = 0xFF then y.reportNonfinite else y

variable (hfind : (s.pitch p).runs.find? (fun q => q.bucket = b) = some r)
include hfind

theorem State.place_eq : s.place p b j q =
    (if r.home then (s.setPitch p ((s.pitch p).placed r j q)).write ((s.pitch p).spillAddr p (j * bBlock (r.head (s.pitch p))))
        (placedBytes (bBcast (r.head (s.pitch p))) (bBlock (r.head (s.pitch p))) (r.part (s.pitch p) j).2 q)
      else s.setPitch p ((s.pitch p).placed r j q)).guardProgress p := by
  simp only [State.place, hfind]
  rfl

theorem State.place_within : Within p (spillRange (s.pitch p) p r j q) s (s.place p b j q) := by
  rw [State.place_eq hfind, spillRange]
  refine Within.trans ?_ (Within.guardProgress _)
  split
  · exact (Within.setPitch s _).trans (Within.write _ (List.mem_singleton_self _) le_rfl)
  · exact Within.setPitch s _

theorem State.place_stepPart : ((s.place p b j q).pitch p).stepPart = ((s.pitch p).placed r j q).stepPart := by
  rw [State.place_eq hfind, State.guardProgress_stepPart]
  split
  · exact congrArg Pitch.stepPart (s.pitch_setPitch p _)
  · rw [State.pitch_setPitch]

theorem Pitch.placed_find : ((s.pitch p).placed r j q).runs.find? (fun q => q.bucket = b) =
    some { r with placed := r.placed ++ [(j, q)] } := by
  have hset := Pitch.find_setRun (r' := { r with placed := r.placed ++ [(j, q)] }) hfind (Pitch.find_bucket hfind).1
  unfold Pitch.placed
  extract_lets y
  split
  · exact hset
  · exact hset

theorem State.place_find : ((s.place p b j q).pitch p).runs.find? (fun q => q.bucket = b) =
    some { r with placed := r.placed ++ [(j, q)] } := by
  have hruns : ((s.place p b j q).pitch p).runs = ((s.pitch p).placed r j q).runs := (congrArg Pitch.runs (State.place_stepPart hfind) :)
  rw [hruns]
  exact Pitch.placed_find hfind

end

/-! ## The stream of a broadcast -/

theorem flatMap_replaceFirst {α β : Type} {p : α → Bool} {f : α → α} {g : α → List β} {xs : List α}
    (h : ∀ x, xs.find? p = some x → g (f x) = g x) : (replaceFirst p f xs).flatMap g = xs.flatMap g := by
  induction xs with
  | nil => rfl
  | cons x xs ih =>
    unfold replaceFirst
    cases hx : p x with
    | true => simp [h x (by simp [hx])]
    | false => simp [ih fun y hy => h y (by simpa [hx] using hy)]

/-- A change of a run that leaves its slots leaves the ring. -/
theorem Pitch.ringUsed_setRun {x : Pitch} {r r' : BucketRun} (hfind : x.runs.find? (fun q => q.bucket = r'.bucket) = some r)
    (hpayloads : r'.payloads = r.payloads) (hstreams : r'.bstreams = r.bstreams) : (x.setRun r').ringUsed = x.ringUsed := by
  unfold Pitch.ringUsed
  have hslots := flatMap_replaceFirst (f := fun _ => r')
    (g := fun r : BucketRun => r.payloads.flatMap OpenPayload.ring ++ r.bstreams.map (fun b => b.2.2))
    (fun q hq => by obtain rfl := Option.some.inj (hq.symm.trans hfind); rw [hpayloads, hstreams])
  extract_lets slots slots'
  have heq : slots = slots' := congrArg (· ++ _ ++ _) hslots
  rw [heq]

/-- The slot of the pack ring that a broadcast stream of the run takes. -/
def ringRange (x : Pitch) (p : PitchId) (r : BucketRun) (len : Nat) : List (Nat × Nat) :=
  match x.ringPlace p (r.slot x kindBcast) with
  | some off => [(x.ringBase p + off, len)]
  | none => []

/-- Beside its runs, its transmission, its flags and its counters the pitch is as before. -/
def RunMoved (x y : Pitch) : Prop := y = { x with numFlags := y.numFlags, runs := y.runs, tx := y.tx, counters := y.counters }

/-- Of the pitch only its flags and counters changed. -/
def FlagsMoved (x y : Pitch) : Prop := y = { x with numFlags := y.numFlags, counters := y.counters }

theorem FlagsMoved.trans {x y z : Pitch} (h : FlagsMoved x y) (k : FlagsMoved y z) : FlagsMoved x z := by
  rw [FlagsMoved] at h k ⊢
  rw [k, h]

theorem FlagsMoved.raise (x : Pitch) (f : BitVec 6) : FlagsMoved x (x.raise f) := rfl

theorem FlagsMoved.count (x : Pitch) (c : PCtr) (n : Nat) : FlagsMoved x (x.count c n) := by
  rw [FlagsMoved, Pitch.count_rest]

theorem FlagsMoved.noteQuant (x : Pitch) (qs : List Quant) : FlagsMoved x (x.noteQuant qs) :=
  ((FlagsMoved.raise x _).trans (FlagsMoved.count _ _ _)).trans (FlagsMoved.count _ _ _)

/-- Block j of the run has gone through phase G. -/
def BucketRun.broadcasted (r : BucketRun) (j : Nat) : BucketRun := { r with gDone := r.gDone ++ [j] }

/-- Phase G of block j of a run has sent its stream to the Packer. -/
def State.packBroadcast (s : State) (p : PitchId) (y : Pitch) (r : BucketRun) (j : Nat) (bytes : Bytes) : State :=
  (s.setPitch p (y.setRun (r.broadcasted j))).toPacker p (r.broadcasted j) j kindBcast bytes

theorem State.packBroadcast_spec {s : State} {p : PitchId} {y : Pitch} {r : BucketRun} {b : Nat}
    (hfind : (s.pitch p).runs.find? (fun q => q.bucket = b) = some r)
    (hy : FlagsMoved (s.pitch p) y) (j : Nat) (bytes : Bytes) :
    Within p (ringRange (s.pitch p) p r bytes.length) s (s.packBroadcast p y r j bytes) ∧
    RunMoved (s.pitch p) ((s.packBroadcast p y r j bytes).pitch p) ∧
    ∃ r', ((s.packBroadcast p y r j bytes).pitch p).runs.find? (fun q => q.bucket = b) = some r' ∧ StreamsMoved (r.broadcasted j) r' := by
  obtain ⟨hb, -⟩ := Pitch.find_bucket hfind
  rw [FlagsMoved] at hy
  have hyfind : y.runs.find? (fun q => q.bucket = b) = some r := by rw [hy]; exact hfind
  have hslot : (r.broadcasted j).slot (y.setRun (r.broadcasted j)) kindBcast = r.slot (s.pitch p) kindBcast := by rw [hy]; rfl
  have hplace : (y.setRun (r.broadcasted j)).ringPlace p (r.slot (s.pitch p) kindBcast) =
      (s.pitch p).ringPlace p (r.slot (s.pitch p) kindBcast) := by
    have hused : (y.setRun (r.broadcasted j)).ringUsed = y.ringUsed := Pitch.ringUsed_setRun (r := r) (by subst hb; exact hyfind) rfl rfl
    rw [Pitch.ringPlace, hused, hy]
    rfl
  have hbase : (y.setRun (r.broadcasted j)).ringBase p = (s.pitch p).ringBase p := by rw [hy]; rfl
  obtain ⟨z, r', ⟨hrest, hrun, hruns⟩, hway⟩ :=
    (s.setPitch p (y.setRun (r.broadcasted j))).toPacker_packed p (r.broadcasted j) j kindBcast bytes
  rw [State.pitch_setPitch] at hrest hruns hway
  have hset : Within p (ringRange (s.pitch p) p r bytes.length) s (s.setPitch p (y.setRun (r.broadcasted j))) := Within.setPitch s _
  have hz : (s.packBroadcast p y r j bytes).pitch p = z := by
    rcases hway with heq | ⟨off, -, heq⟩
    all_goals rw [State.packBroadcast, heq, State.pitch_setPitch]
  rw [hz]
  refine ⟨?_, ?_, r', ?_, hrun⟩
  · rcases hway with heq | ⟨off, hoff, heq⟩
    · rw [State.packBroadcast, heq]
      exact hset.trans (Within.setPitch _ _)
    · rw [hslot, hplace] at hoff
      rw [State.packBroadcast, heq, hbase]
      refine hset.trans ((Within.write _ ?_ le_rfl).trans (Within.setPitch _ _))
      rw [ringRange, hoff]
      exact List.mem_singleton_self _
  · rw [RunMoved, hrest, hy]
    rfl
  · have hr' : r'.bucket = b := by rw [hrun]; exact hb
    rw [hruns]
    exact Pitch.find_setRun (Pitch.find_setRun hyfind (r' := r.broadcasted j) hb) hr'

/-! ## Phase G of a block (06 R142) -/

theorem Within.clearBlock (s : State) (p : PitchId) (b k : Nat) (c : CRec) : Within p [((s.pitch p).redAddr b k 0,
    sumBytes (bWire ((s.pitch p).bucketD b)) * bBlock ((s.pitch p).bucketD b)), ((s.pitch p).crecAddr p b k, 16)] s (s.clearBlock p b k c) := by
  have hrecord : (leBytes 4 c.count ++ leBytes 4 c.qmax ++ leBytes 1 c.attempt ++ leBytes 1 c.scale ++ List.replicate 6 (0 : Byte)).length ≤ 16 := by
    simp [length_leBytes]
  have herase := Within.erase (p := p) s (List.mem_cons_self (a := ((s.pitch p).redAddr b k 0,
    sumBytes (bWire ((s.pitch p).bucketD b)) * bBlock ((s.pitch p).bucketD b))) (l := [((s.pitch p).crecAddr p b k, 16)]))
  exact herase.trans (Within.write _ (List.mem_cons_of_mem _ (List.mem_singleton_self _)) hrecord)

theorem State.length_sums (s : State) (p : PitchId) (b k : Nat) : (s.sums p b k).length = bBlock ((s.pitch p).bucketD b) := by
  have hz : 0 < sumBytes (bWire ((s.pitch p).bucketD b)) := by
    unfold sumBytes
    split <;> decide
  rw [State.sums, List.length_map, length_chunks_mul hz (s.length_read _ _)]

theorem length_flatMap_leBytes {α : Type} (f : α → Nat) (z : Nat) (xs : List α) : (xs.flatMap fun x => leBytes z (f x)).length = z * xs.length := by
  induction xs with
  | nil => simp
  | cons x xs ih => rw [List.flatMap_cons, List.length_append, length_leBytes, ih, List.length_cons, Nat.mul_succ, Nat.add_comm]

theorem Within.normBlock (s : State) (p : PitchId) (vs : List Val) (rs : List (Nat × Nat)) : Within p rs s (s.normBlock p vs) :=
  Within.ergAddTo s _ _

section
variable {s : State} {p : PitchId} {r : BucketRun} {j b k : Nat}
  (hfind : (s.pitch p).runs.find? (fun q => q.bucket = r.bucket) = some r) (hpart : r.part (s.pitch p) j = (b, k))
include hfind hpart

/-- Phase G in its parts: the block is cleared, its stream packed, what its values leave is written, and its broadcast placed. -/
theorem State.requantiseBlock_parts : ∃ (y : Pitch) (v : State), FlagsMoved (s.pitch p) y ∧
    Within p [(bOresBase ((s.pitch p).bucketD b) + resSize (bResFmt ((s.pitch p).bucketD b)) * (k * bBlock ((s.pitch p).bucketD b)),
        resSize (bResFmt ((s.pitch p).bucketD b)) * bBlock ((s.pitch p).bucketD b))]
      ((s.clearBlock p b k {}).packBroadcast p y r j (broadcastStream s p r j)) v ∧
    v.pitch p = ((s.clearBlock p b k {}).packBroadcast p y r j (broadcastStream s p r j)).pitch p ∧
    s.requantiseBlock p r j = v.place p r.bucket j (broadcastOf s p b k) := by
  unfold State.requantiseBlock
  extract_lets x r₁
  split
  next b' k' hpart' =>
    obtain ⟨rfl, rfl⟩ := Prod.mk.inj (hpart.symm.trans hpart')
    extract_lets rec' n c e xs mode rnds cleared
    split
    next hraise =>
      have hraised : raisedOf s p b k = none := hraise
      have hstream : broadcastStream s p r j = (encodeStream ⟨kindBcast, bBcast (r.head x), bBlock (r.head x), bSparse (r.head x), (r.part x j).2,
          0xFF, 0, [], [], false⟩ none).1 := by
        simp only [broadcastStream, hpart, hraised, x]
      refine ⟨((s.pitch p).raise fOF).count .bcastNonfinite, _, (FlagsMoved.raise _ _).trans (FlagsMoved.count _ _ _), Within.refl, rfl, ?_⟩
      have hfind' : (cleared.pitch p).runs.find? (fun q => q.bucket = r.bucket) = some r := hfind
      rw [State.broadcastNonfinite, broadcastOf, hraised, hstream]
      simp only [hfind']
      rfl
    next e2 qs hraise =>
      have hraised : raisedOf s p b k = some (e2, qs) := hraise
      extract_lets codes ds res scale y u v
      have hstream : broadcastStream s p r j = bcastStream rec' k scale codes := by
        simp only [broadcastStream, hpart, hraised]
        rfl
      have hplaced : broadcastOf s p b k = ⟨scale, placedCodes rec' codes⟩ := by rw [broadcastOf, hraised]
      have hu : u = (cleared.packBroadcast p y r j (broadcastStream s p r j)).write (bOresBase rec' + resSize (bResFmt rec') * (k * n))
          (res.flatMap fun q => leBytes (resSize (bResFmt rec')) q.1) := by
        rw [hstream]
        rfl
      have hlen : (res.flatMap fun q => leBytes (resSize (bResFmt rec')) q.1).length ≤ resSize (bResFmt rec') * n := by
        rw [length_flatMap_leBytes (fun q : Nat × BitVec 6 => q.1)]
        refine Nat.mul_le_mul_left _ ?_
        simp only [res, ds, xs, List.length_map, List.length_zipWith, State.exactBlock, s.length_sums p b k]
        exact (min_le_left _ _).trans (min_le_left _ _)
      have hwritten : Within p [(bOresBase rec' + resSize (bResFmt rec') * (k * n), resSize (bResFmt rec') * n)]
          (cleared.packBroadcast p y r j (broadcastStream s p r j)) u := by
        rw [hu]
        exact Within.write _ (List.mem_singleton_self _) hlen
      have hupitch : u.pitch p = (cleared.packBroadcast p y r j (broadcastStream s p r j)).pitch p := by rw [hu]; rfl
      have hy : FlagsMoved x y := ((FlagsMoved.noteQuant x qs).trans (FlagsMoved.raise _ _)).trans (FlagsMoved.count _ _ _)
      refine ⟨y, v, hy, hwritten.trans ?_, ?_, by rw [hplaced]⟩
      · simp only [v]
        split
        · exact Within.normBlock u p _ _
        · exact Within.refl
      · refine Eq.trans ?_ hupitch
        simp only [v]
        split <;> rfl

end

theorem spillRange_congr {x y : Pitch} {p : PitchId} {r r' : BucketRun} {j : Nat} {q : Placed} (hx : RunMoved x y)
    (hhome : r'.home = r.home) (hbucket : r'.bucket = r.bucket) (hparts : r'.parts = r.parts) :
    spillRange y p r' j q = spillRange x p r j q := by
  obtain ⟨f, rs, tx, cs, rfl⟩ : ∃ f rs tx cs, y = { x with numFlags := f, runs := rs, tx := tx, counters := cs } := ⟨_, _, _, _, hx⟩
  simp only [spillRange, BucketRun.head, BucketRun.part, hhome, hbucket, hparts]
  rw [partBlock_congr (x := x) (y := { x with numFlags := f, runs := rs, tx := tx, counters := cs }) rfl]
  rfl

/-- Phase G of a complete block at its owner (06 R142 to R144). -/
theorem requantiseBlock_places {s : State} {p : PitchId} {bucket j : Nat} {r : BucketRun} (hup : s.held = false)
    (hfind : (s.pitch p).runs.find? (fun q => q.bucket = bucket) = some r) (hready : s.readyG p r j = true) :
    ∃ t r', exec (.requantiseBlock p bucket j) s = .next t ∧ r' ∈ (t.pitch p).runs ∧ r'.bucket = bucket ∧ r'.parts = r.parts ∧
      j ∈ r'.gDone ∧ r'.placed = r.placed ++ [(j, broadcastOf s p (r.part (s.pitch p) j).1 (r.part (s.pitch p) j).2)] ∧
      Within p (ownerRanges s p r j) s t := by
  obtain ⟨hbucket, -⟩ := Pitch.find_bucket hfind
  have hrun : exec (.requantiseBlock p bucket j) s = .next (s.requantiseBlock p r j) := by
    change execRequantiseBlock p bucket j s = _
    rw [execRequantiseBlock, live_next s _ hup]
    simp [hfind, hready]
  subst hbucket
  rcases hpart : r.part (s.pitch p) j with ⟨b, k⟩
  obtain ⟨y, v, hy, hresiduals, hpitch, heq⟩ := State.requantiseBlock_parts hfind hpart
  obtain ⟨hring, hmoved, r', hfind', hstreams⟩ := State.packBroadcast_spec
    (s := s.clearBlock p b k {}) hfind hy j (broadcastStream s p r j)
  rw [← hpitch] at hmoved hfind'
  have hstreams : r' = { r.broadcasted j with payloads := r'.payloads, bstreams := r'.bstreams, bnext := r'.bnext } := hstreams
  have hparts' : r'.parts = r.parts := by rw [hstreams]; rfl
  have hplace := State.place_within (j := j) (q := broadcastOf s p b k) hfind'
  have hspill : spillRange (v.pitch p) p r' j (broadcastOf s p b k) =
      spillRange (s.pitch p) p r j (broadcastOf s p b k) :=
    spillRange_congr hmoved (by rw [hstreams]; rfl) (by rw [hstreams]; rfl) hparts'
  rw [hspill] at hplace
  refine ⟨_, _, hrun, heq ▸ (Pitch.find_bucket (State.place_find hfind')).2, ?_, ?_, ?_, ?_, ?_⟩
  · rw [hstreams]; rfl
  · exact hparts'
  · rw [hstreams]
    exact List.mem_append_right _ (List.mem_singleton_self j)
  · rw [hstreams]; rfl
  · rw [heq]
    have hparts : ownerRanges s p r j = [((s.pitch p).redAddr b k 0,
          sumBytes (bWire ((s.pitch p).bucketD b)) * bBlock ((s.pitch p).bucketD b)),
        ((s.pitch p).crecAddr p b k, 16)] ++
        [(bOresBase ((s.pitch p).bucketD b) + resSize (bResFmt ((s.pitch p).bucketD b)) *
            (k * bBlock ((s.pitch p).bucketD b)),
          resSize (bResFmt ((s.pitch p).bucketD b)) * bBlock ((s.pitch p).bucketD b))] ++
        ringRange (s.pitch p) p r (broadcastStream s p r j).length ++
        spillRange (s.pitch p) p r j (broadcastOf s p b k) := by
      simp only [ownerRanges, hpart, ringRange, spillRange] <;> rfl
    rw [hparts]
    have hclear := Within.clearBlock s p b k {}
    have hring' := hring.mono (rs' := ownerRanges s p r j) fun e he => hparts ▸ List.mem_append_left _ (List.mem_append_right _ he)
    have hplace' := hplace.mono (rs' := ownerRanges s p r j) fun e he => hparts ▸ List.mem_append_right _ he
    rw [hparts] at hring' hplace'
    exact (((hclear.mono (by simp)).trans hring').trans (hresiduals.mono (by simp))).trans hplace'

end Sys2Proof.Machine
end

