-- ==== Sys2Proof/Proofs/OwnerRecords.lean ====
section
/-! PROOF. What an owner sends of a step: NORM_LOCAL (10 R235) and its own agreement records (10 R228), with phase G. -/

namespace Sys2Proof.Machine

open Sys2Proof.Claims

/-! ## NORM_LOCAL (10 R235) -/

theorem State.ergClear_get (s : State) (g k : Nat) : (s.ergClear g 1).ergGet k = if k = g then 0 else s.ergGet k := by
  have hget : (s.ergClear g 1).ergGet k = if decide (k < g) || decide (g + 1 ≤ k) then s.ergGet k else 0 :=
    sget_filter s.erg (fun i => decide (i < g) || decide (g + 1 ≤ i)) k 0
  rw [hget]
  by_cases h : k = g
  · simp [h]
  · rw [if_pos (by simp; omega), if_neg h]

theorem State.ergAddTo_get (s : State) (g : Nat) (v : W640) (k : Nat) :
    (s.ergAddTo g v).ergGet k = if k = g then ergAdd (s.ergGet g) v else s.ergGet k := by
  split
  next h => rw [h]; exact sget_sset _ _ _ _
  next h => exact sget_sset_ne _ _ _ _ _ _ h

section
variable {s : State} {p : PitchId} (hup : s.held = false) (hready : (s.pitch p).normReady = true)
include hup hready

theorem exec_normLocalSend : exec (.normLocalSend p) s = .next (s.normSend p) := by
  change execNormLocalSend p s = _
  rw [execNormLocalSend, live_next s _ hup, if_pos hready]

/-- Any other rank sends the register to rank 0, and clears it. -/
theorem normLocalSend_leaves (hrank : (s.pitch p).rank ≠ 0) :
    ∃ t, exec (.normLocalSend p) s = .next t ∧ (∀ q, q ≠ p → t.pitch q = s.pitch q) ∧ t = { s with pitches := t.pitches, erg := t.erg } ∧
      t.pitch p = { s.pitch p with guard := { (s.pitch p).guard with normSent := true }
                                   tx := { (s.pitch p).tx with txq := (t.pitch p).tx.txq } } ∧
      messageFrame 0 opErg 0 tgNormUp (ergBytes (s.ergGet ((s.pitch p).erg p ((s.pitch p).normLocal p)))) ∈ (t.pitch p).tx.txq ∧
      ∀ g, t.ergGet g = if g = (s.pitch p).erg p ((s.pitch p).normLocal p) then 0 else s.ergGet g := by
  let g := (s.pitch p).erg p ((s.pitch p).normLocal p)
  let x : Pitch := { s.pitch p with guard := { (s.pitch p).guard with normSent := true } }
  have hsend : s.normSend p =
      ((s.ergClear g 1).setPitch p x).enqueueAll p [messageFrame 0 opErg 0 tgNormUp (ergBytes (s.ergGet g))] := by
    simp only [State.normSend, hrank, if_false, g, x]
  refine ⟨_, exec_normLocalSend hup hready, ?_⟩
  rw [hsend, State.enqueueAll, State.pitch_modPitch, State.pitch_setPitch]
  refine ⟨fun q hq => ?_, rfl, rfl, Pitch.mem_enqueues _ x (.inl (List.mem_singleton_self _)), s.ergClear_get g⟩
  rw [State.pitch_modPitch_ne _ p q _ hq, State.pitch_setPitch_ne _ p q _ hq]
  rfl

/-- Rank 0 adds its own register to NORM_GLOBAL, and waits for the other ranks. -/
theorem normLocalSend_arrives (hrank : (s.pitch p).rank = 0) (hwait : (s.pitch p).guard.normArrivals + 1 ≠ (s.pitch p).size)
    (hregs : (s.pitch p).normLocal p ≠ (s.pitch p).normGlobal p) :
    ∃ t, exec (.normLocalSend p) s = .next t ∧ OnlyPitch p { s with erg := t.erg } t ∧
      t.pitch p = { s.pitch p with guard := { (s.pitch p).guard with
        normSent := true, normArrivals := (s.pitch p).guard.normArrivals + 1 } } ∧
      t.ergGet ((s.pitch p).erg p ((s.pitch p).normLocal p)) = 0 ∧
      t.ergGet ((s.pitch p).erg p ((s.pitch p).normGlobal p)) =
        ergAdd (s.ergGet ((s.pitch p).erg p ((s.pitch p).normGlobal p))) (s.ergGet ((s.pitch p).erg p ((s.pitch p).normLocal p))) := by
  let g := (s.pitch p).erg p ((s.pitch p).normLocal p)
  let k := (s.pitch p).erg p ((s.pitch p).normGlobal p)
  have hapart : g ≠ k := fun h => hregs (Nat.add_left_cancel h)
  let x : Pitch := { s.pitch p with guard := { (s.pitch p).guard with normSent := true } }
  let y : Pitch := { x with guard := { x.guard with normArrivals := x.guard.normArrivals + 1 } }
  have hsend : s.normSend p = (((s.ergClear g 1).setPitch p x).ergAddTo k (s.ergGet g)).setPitch p y := by
    have hx : ((s.ergClear g 1).setPitch p x).pitch p = x := State.pitch_setPitch _ p x
    have harrive : ((s.ergClear g 1).setPitch p x).normArrive p (s.ergGet g) =
        (((s.ergClear g 1).setPitch p x).ergAddTo k (s.ergGet g)).setPitch p y := by
      have hwait' : ¬ x.guard.normArrivals + 1 = x.size := hwait
      simp only [State.normArrive, hx, if_neg hwait']
      rfl
    simp only [State.normSend, hrank, if_true]
    exact harrive
  refine ⟨_, exec_normLocalSend hup hready, ?_⟩
  rw [hsend]
  refine ⟨?_, State.pitch_setPitch _ p y, ?_, ?_⟩
  · exact ⟨rfl, fun q hq => (State.pitch_setPitch_ne _ p q _ hq).trans (State.pitch_setPitch_ne (s.ergClear g 1) p q x hq)⟩
  · exact (State.ergAddTo_get _ k _ g).trans ((if_neg hapart).trans ((s.ergClear_get g g).trans (if_pos rfl)))
  · refine (State.ergAddTo_get _ k _ k).trans ((if_pos rfl).trans ?_)
    exact congrArg (ergAdd · (s.ergGet g)) ((s.ergClear_get g k).trans (if_neg (Ne.symm hapart)))

end

/-! ## The agreement of a bucket (10 R228) -/

theorem Pitch.agree_setAgree (x : Pitch) (a : Agree) : (x.setAgree a).agree a.bucket a.round a.stepLo = a := by
  simp only [Pitch.agree, Pitch.setAgree]
  rw [find?_upsert (by simp)]
  rfl

/-- An agreement is filed under its bucket, round and step. -/
theorem Pitch.agree_key (x : Pitch) (b round : Nat) (lo : W16) :
    (x.agree b round lo).bucket = b ∧ (x.agree b round lo).round = round ∧ (x.agree b round lo).stepLo = lo := by
  unfold Pitch.agree
  cases hfind : x.agrees.find? (fun a => a.bucket = b && a.round = round && a.stepLo = lo) with
  | none => exact ⟨rfl, rfl, rfl⟩
  | some a =>
    have hkey := List.find?_some hfind
    simp only [Bool.and_eq_true, decide_eq_true_eq] at hkey
    obtain ⟨⟨hb, hround⟩, hlo⟩ := hkey
    exact ⟨hb, hround, hlo⟩

theorem Pitch.agrees_bucketNonfinite (x : Pitch) : x.bucketNonfinite.agrees = x.agrees := by
  have hcount : (x.count .nonfiniteBuckets).agrees = x.agrees := by rw [Pitch.count_rest]
  exact hcount

section

/-- Applying an agreed record touches the pitch's work alone, and no agreement. -/
theorem State.applyAgreed_spec (s : State) (p : PitchId) (a : AgreeRec) :
    Within p [] s (s.applyAgreed p a) ∧ ((s.applyAgreed p a).pitch p).agrees = (s.pitch p).agrees := by
  unfold State.applyAgreed
  extract_lets x
  split
  · exact ⟨Within.refl, rfl⟩
  next r _ =>
    extract_lets r₁ y₁ y
    refine ⟨(Within.setPitch s y).trans (Within.guardProgress _), ?_⟩
    rw [State.guardProgress_agrees, State.pitch_setPitch]
    have hset (q : BucketRun) : (x.setRun q).agrees = x.agrees := rfl
    have hstop (q : BucketRun) : (x.lrStop q).agrees = x.agrees := Pitch.agrees_bucketNonfinite _
    have hnonfinite : y₁.bucketNonfinite.agrees = x.agrees := Pitch.agrees_bucketNonfinite _
    simp only [y, apply_ite Pitch.agrees, hstop, hnonfinite, hset, y₁, ite_self, x]

/-- Frames to several ranks join the pitch's queue and leave its agreements. -/
theorem State.enqueues_spec {α : Type} (s : State) (p : PitchId) (fs : α → List TxFrame) (as : List α) :
    Within p [] s (as.foldl (fun s c => s.enqueueAll p (fs c)) s) ∧
    ((as.foldl (fun s c => s.enqueueAll p (fs c)) s).pitch p).agrees = (s.pitch p).agrees := by
  induction as generalizing s with
  | nil => exact ⟨Within.refl, rfl⟩
  | cons c as ih =>
    obtain ⟨hrest, hagrees⟩ := ih (s.enqueueAll p (fs c))
    refine ⟨(Within.modPitch s _).trans hrest, hagrees.trans ?_⟩
    obtain ⟨txq, hframes⟩ := Pitch.enqueues (fs c) (s.pitch p)
    rw [State.enqueueAll, State.pitch_modPitch, hframes]

/-- What rank 0 agrees it files. -/
theorem State.agreeDone_spec (s : State) (p : PitchId) (a : Agree) (bytes : Bytes) :
    Within p [] s (s.agreeDone p a bytes) ∧
    ((s.agreeDone p a bytes).pitch p).agree a.bucket a.round a.stepLo = { a with agreed := some bytes, sent := true } := by
  unfold State.agreeDone
  extract_lets filed sent
  have hfiled : Within p [] s filed := Within.modPitch s _
  have hagree : (filed.pitch p).agree a.bucket a.round a.stepLo = { a with agreed := some bytes, sent := true } := by
    rw [State.pitch_modPitch]
    exact Pitch.agree_setAgree (s.pitch p) { a with agreed := some bytes, sent := true }
  obtain ⟨hsent, hagrees⟩ : Within p [] filed sent ∧ (sent.pitch p).agrees = (filed.pitch p).agrees := filed.enqueues_spec p _ _
  have hkept (t : State) (h : (t.pitch p).agrees = (sent.pitch p).agrees) :
      (t.pitch p).agree a.bucket a.round a.stepLo = { a with agreed := some bytes, sent := true } := by
    rw [← hagree, Pitch.agree, Pitch.agree, h, hagrees]
  split
  · obtain ⟨happlied, hsame⟩ := sent.applyAgreed_spec p (agreeOf bytes)
    exact ⟨(hfiled.trans hsent).trans happlied, hkept _ hsame⟩
  · exact ⟨hfiled.trans hsent, hkept _ rfl⟩

/-- An agreement with the own record: it is filed, and goes on once every child's record is there. -/
theorem State.agreeProgress_spec {s : State} {p : PitchId} {a : Agree} {own : Bytes} (hown : a.own = some own) :
    Within p [] s (s.agreeProgress p a) ∧ (((s.agreeProgress p a).pitch p).agree a.bucket a.round a.stepLo).own = some own ∧
    (a.agreed = none → a.sent = false → (∀ c ∈ (s.pitch p).children, ∃ k ∈ a.kids, k.1 = c) →
      (((s.agreeProgress p a).pitch p).agree a.bucket a.round a.stepLo).sent = true ∧
      ((s.pitch p).rank = 0 →
        (((s.agreeProgress p a).pitch p).agree a.bucket a.round a.stepLo).agreed = some (combinedRecord a own)) ∧
      ((s.pitch p).rank ≠ 0 → ∀ f ∈ recordFrames (treeParent (s.pitch p).rank) a.bucket tgAgreeUp (combinedRecord a own),
        f ∈ ((s.agreeProgress p a).pitch p).tx.txq)) := by
  have hfiled : ((s.setPitch p ((s.pitch p).setAgree a)).pitch p).agree a.bucket a.round a.stepLo = a := by
    rw [State.pitch_setPitch]
    exact Pitch.agree_setAgree _ a
  unfold State.agreeProgress
  extract_lets x
  split
  next hnone => exact absurd (hown.symm.trans hnone) (by simp)
  next own' hown' =>
  obtain rfl := Option.some.inj (hown.symm.trans hown')
  split
  next happly =>
    obtain ⟨happlied, hsame⟩ := (s.setPitch p (x.setAgree a)).applyAgreed_spec p (agreeOf (a.agreed.getD []))
    refine ⟨(Within.setPitch s _).trans happlied, ?_, fun hnone => ?_⟩
    · rw [Pitch.agree, hsame]
      exact (congrArg Agree.own hfiled).trans hown
    · simp [hnone] at happly
  · split
    next hwait =>
      refine ⟨Within.setPitch s _, (congrArg Agree.own hfiled).trans hown, fun _ hsent hall => ?_⟩
      have hthere : x.children.all (fun c => a.kids.any (fun k => k.1 = c)) = true := by
        simpa using fun c hc => by simpa using hall c hc
      simp [hsent, hthere] at hwait
    · extract_lets all
      split
      next hrank =>
        obtain ⟨hdone, hagree⟩ := s.agreeDone_spec p a all
        rw [hagree]
        exact ⟨hdone, hown, fun _ _ _ => ⟨rfl, fun _ => rfl, fun hne => absurd hrank hne⟩⟩
      next hrank =>
        have hsent : (((s.setPitch p (x.setAgree { a with sent := true })).enqueueAll p
            (recordFrames (treeParent x.rank) a.bucket tgAgreeUp all)).pitch p).agree a.bucket a.round a.stepLo = { a with sent := true } := by
          obtain ⟨txq, hframes⟩ := Pitch.enqueues (recordFrames (treeParent x.rank) a.bucket tgAgreeUp all)
            (x.setAgree { a with sent := true })
          rw [State.enqueueAll, State.pitch_modPitch, State.pitch_setPitch, hframes]
          exact Pitch.agree_setAgree x { a with sent := true }
        rw [hsent]
        refine ⟨(Within.setPitch s _).trans (Within.modPitch _ _), hown, fun _ _ _ => ⟨rfl, fun hzero => absurd hzero hrank, fun _ f hf => ?_⟩⟩
        rw [State.enqueueAll, State.pitch_modPitch]
        exact Pitch.mem_enqueues _ _ (.inl hf)

end

/-- The own record of a bucket enters its agreement (10 R228). -/
theorem agreementRecordReady_files {s : State} {p : PitchId} {b round floors : Nat} {own : AgreeRec} (hup : s.held = false)
    (hrecord : s.ownRecord p b round = some (own, floors)) (hworks : (s.pitch p).works = true)
    (hfresh : ((s.pitch p).agree b round (s.pitch p).stepLo).own = none) :
    exec (.agreementRecordReady p b round) s = .next ((s.count p .scaleFloor floors).agreeProgress p
      { (s.pitch p).agree b round (s.pitch p).stepLo with own := some own.bytes }) := by
  change execAgreementRecordReady p b round s = _
  rw [execAgreementRecordReady, live_next s _ hup]
  simp [hrecord, hworks, hfresh]

/-- Settles O35: phase G places and counts a block, NORM_LOCAL leaves or arrives, and the own record enters its agreement. -/
theorem ownerPhase : Obligations.OwnerPhase := by
  intro s p hup
  refine ⟨fun bucket j r hfind hready => requantiseBlock_places hup hfind hready, fun hready hrank => normLocalSend_leaves hup hready hrank,
    fun hready hrank hwait hregs => normLocalSend_arrives hup hready hrank hwait hregs, fun b round floors own hrecord hworks hfresh => ?_⟩
  obtain ⟨hb, hround, hlo⟩ := (s.pitch p).agree_key b round (s.pitch p).stepLo
  have hrun := agreementRecordReady_files hup hrecord hworks hfresh
  generalize (s.pitch p).agree b round (s.pitch p).stepLo = a at hb hround hlo hrun ⊢
  obtain ⟨hwithin, hown, hgo⟩ := State.agreeProgress_spec (s := s.count p .scaleFloor floors) (p := p)
    (a := { a with own := some own.bytes }) rfl
  subst hb hround
  rw [← hlo]
  have hcount : (s.count p .scaleFloor floors).pitch p =
      { s.pitch p with counters := ((s.count p .scaleFloor floors).pitch p).counters } := by
    rw [State.pitch_count, ← Pitch.count_rest]
  have hrank : ((s.count p .scaleFloor floors).pitch p).rank = (s.pitch p).rank := by rw [hcount]; rfl
  have hchildren : ((s.count p .scaleFloor floors).pitch p).children = (s.pitch p).children := by rw [hcount]; rfl
  rw [hrank, hchildren] at hgo
  have hcounted : Within p [] s (s.count p .scaleFloor floors) := Within.modPitch s _
  exact ⟨_, hrun, hcounted.trans hwithin, hown, hgo⟩

end Sys2Proof.Machine
end

