-- ==== Sys2Proof/Proofs/AcceptedFrames.lean ====
section
/-! PROOF. A frame that is new and whole is accepted: its number counts as seen, it acts, and an acknowledgement may leave (11 R258,
R267, R268). -/

namespace Sys2Proof.Machine

open Sys2Proof.Claims

/-! ## The sequence number (R267) -/

theorem advanceRcv_keeps {q : Nat} (n : Nat) {c : Channel} (h : q < c.rcvNext ∨ q ∈ c.accepted) :
    q < (advanceRcv n c).rcvNext ∨ q ∈ (advanceRcv n c).accepted := by
  induction n generalizing c with
  | zero => exact h
  | succ n ih =>
    unfold advanceRcv
    split
    · refine ih ?_
      rcases h with h | h
      · exact .inl (Nat.lt_succ_of_lt h)
      · by_cases hq : q = c.rcvNext
        · exact .inl (hq ▸ Nat.lt_succ_self _)
        · exact .inr ((List.mem_erase_of_ne hq).mpr h)
    · exact h

/-- An accepted number counts as seen. -/
theorem Channel.accept_seen (c : Channel) (q : Nat) : q < (c.accept q).rcvNext ∨ (c.accept q).marked q = true := by
  have hmem : q ∈ addNew q c.accepted := mem_addNew q _
  rcases advanceRcv_keeps (addNew q c.accepted).length (c := { c with accepted := addNew q c.accepted }) (.inr hmem) with h | h
  · exact .inl h
  · exact .inr (List.any_eq_true.mpr ⟨q, h, by simp⟩)

/-! ## Acknowledgements (R268) -/

/-- Of the pitch only its channels changed. -/
def ChannelsMoved (x y : Pitch) : Prop := y = { x with tx := { x.tx with channels := y.tx.channels } }

theorem ChannelsMoved.trans {x y z : Pitch} (h : ChannelsMoved x y) (k : ChannelsMoved y z) : ChannelsMoved x z := by
  rw [ChannelsMoved] at h k ⊢
  rw [k, h]

theorem ChannelsMoved.setChan (x : Pitch) (r : Nat) (c : Channel) : ChannelsMoved x (x.setChan r c) := rfl

/-- From s to t pitch p may have acknowledged frames of rank r: its channels changed, of the one to r neither RCV_NEXT nor the bitmap,
and frames may have left. -/
structure Acknowledged (p : PitchId) (r : Nat) (s t : State) : Prop where
  rest : t = { s with pitches := t.pitches, netOut := t.netOut }
  others : ∀ q, q ≠ p → t.pitch q = s.pitch q
  left : s.netOut <+: t.netOut
  own : ChannelsMoved (s.pitch p) (t.pitch p)
  rcvNext : ((t.pitch p).chan r).rcvNext = ((s.pitch p).chan r).rcvNext
  accepted : ((t.pitch p).chan r).accepted = ((s.pitch p).chan r).accepted

section
variable {p : PitchId} {r : Nat} {s t u : State}

theorem Acknowledged.refl : Acknowledged p r s s := ⟨rfl, fun _ _ => rfl, List.prefix_refl _, rfl, rfl, rfl⟩

theorem Acknowledged.trans (h : Acknowledged p r s t) (k : Acknowledged p r t u) : Acknowledged p r s u where
  rest := by rw [k.rest, h.rest]
  others q hq := (k.others q hq).trans (h.others q hq)
  left := h.left.trans k.left
  own := h.own.trans k.own
  rcvNext := k.rcvNext.trans h.rcvNext
  accepted := k.accepted.trans h.accepted

theorem Acknowledged.setChan (s : State) {c : Channel} (hnext : c.rcvNext = ((s.pitch p).chan r).rcvNext)
    (haccepted : c.accepted = ((s.pitch p).chan r).accepted) : Acknowledged p r s (s.setPitch p ((s.pitch p).setChan r c)) := by
  refine ⟨rfl, fun q hq => State.pitch_setPitch_ne s p q _ hq, List.prefix_refl _, ?_, ?_, ?_⟩
  · rw [State.pitch_setPitch]; rfl
  · rw [State.pitch_setPitch, Pitch.chan_setChan, hnext]
  · rw [State.pitch_setPitch, Pitch.chan_setChan, haccepted]

theorem Acknowledged.sendControl (s : State) (port : NetPort) (op : Nat) (payload : Nat → Bytes) :
    Acknowledged p r s (s.sendControl p port r op payload) := by
  unfold State.sendControl
  split
  · unfold State.sendControlAs
    extract_lets x c n start head cxt t
    have hleft : Acknowledged p r s t := ⟨rfl, fun _ _ => rfl, List.prefix_append _ _, rfl, rfl, rfl⟩
    exact hleft.trans (Acknowledged.setChan t rfl rfl)
  · exact Acknowledged.refl

theorem Acknowledged.sendAck (s : State) (kind : Nat) : Acknowledged p r s (s.sendAck p r kind) := by
  unfold State.sendAck
  extract_lets c
  split
  · exact Acknowledged.refl
  · exact (Acknowledged.sendControl s _ opAck _).trans (Acknowledged.setChan _ rfl rfl)

theorem Acknowledged.ackNote (s : State) (q : Nat) (port : NetPort) (now : Bool) : Acknowledged p r s (s.ackNote p r q port now) := by
  unfold State.ackNote
  extract_lets c c' t
  have hnoted : Acknowledged p r s t := Acknowledged.setChan s rfl rfl
  split
  · exact hnoted.trans (Acknowledged.sendAck t 0)
  · exact hnoted

theorem Acknowledged.seen (h : Acknowledged p r s t) {q : Nat} (hseen : Seen (s.pitch p) r q) : Seen (t.pitch p) r q := by
  rw [Seen, Channel.marked, h.rcvNext, h.accepted]
  exact hseen

end

/-! ## The frame acts -/

/-- The state in which an accepted frame acts: its number is noted. -/
def State.noted (s : State) (p : PitchId) (f : Frame) : State :=
  s.modPitch p (fun x => x.setChan f.src ((x.chan f.src).accept f.seq))

section
variable {s : State} {rx : Rx} {p : PitchId} {f : Frame} {d : Bytes}

theorem State.noted_pitch (s : State) (p : PitchId) (f : Frame) :
    (s.noted p f).pitch p = (s.pitch p).setChan f.src (((s.pitch p).chan f.src).accept f.seq) := State.pitch_modPitch _ _ _

theorem State.noted_moved (s : State) (p : PitchId) (f : Frame) : ChannelsMoved (s.pitch p) ((s.noted p f).pitch p) := by
  rw [State.noted_pitch]
  exact ChannelsMoved.setChan _ _ _

theorem State.noted_seen (s : State) (p : PitchId) (f : Frame) : Seen ((s.noted p f).pitch p) f.src f.seq := by
  rw [State.noted_pitch, Seen, Pitch.chan_setChan]
  exact Channel.accept_seen _ _

theorem State.noted_within (s : State) (p : PitchId) (f : Frame) (rs : List (Nat × Nat)) : Within p rs s (s.noted p f) :=
  Within.modPitch s _

/-- A new and whole frame of a kind goes on to act, and then may be acknowledged. -/
theorem fresh_receives (h : Fresh s rx p f d) (act : PitchId → Frame → Bytes → State → State) :
    ∃ t, s.receiveKind rx f.kind act = t ∧ Acknowledged p f.src (act p f d (s.noted p f)) t := by
  obtain ⟨⟨-, hparsed, hanswering, hheader, hepoch, hcrc, hopened⟩, hdata, hrunning, hnew, hwindow, hwhole, hsteady⟩ := h
  have hscreen : s.screen p f rx.port = (s, some d) := by
    have hmode : ¬ ((s.pitch p).mode = .fenced ∨ (s.pitch p).mode = .faulted) := by simp [hrunning]
    simp [State.screen, hmode, hheader, hepoch, hcrc, Pitch.tryKeys, hepoch ▸ hopened]
  have hframe : s.receiveKind rx f.kind act = s.acceptFrame p f rx.port (act p f d) := by
    have hdup : ¬ (f.seq < ((s.pitch p).chan f.src).rcvNext ∨ ((s.pitch p).chan f.src).marked f.seq = true) := hnew
    simp [State.receiveKind, State.receive, hparsed, hscreen, hdata, State.dataFrame, hdup, Nat.not_le.mpr hwindow, hrunning, hwhole, hsteady,
      hanswering]
  refine ⟨_, hframe, ?_⟩
  unfold State.acceptFrame
  extract_lets u
  split
  · exact Acknowledged.ackNote u f.seq rx.port f.ackNow
  · exact Acknowledged.refl

/-- A frame whose action stays within its pitch and leaves the channels alone is accepted. -/
theorem accepted_of {rs : List (Nat × Nat)} {u t : State} (hwork : Within p rs (s.noted p f) u)
    (hchannels : (u.pitch p).tx.channels = ((s.noted p f).pitch p).tx.channels) (hack : Acknowledged p f.src u t) : Accepted p f s t where
  seen := by
    refine hack.seen ?_
    have hseen := s.noted_seen p f
    rw [Seen, Channel.marked] at hseen ⊢
    rw [Pitch.chan_congr hchannels]
    exact hseen
  others q hq := (hack.others q hq).trans ((hwork.others q hq).trans (State.pitch_modPitch_ne s p q _ hq))
  left := by
    have hleft := hack.left
    rwa [hwork.rest] at hleft
  rest := by rw [hack.rest, hwork.rest]; rfl

end

end Sys2Proof.Machine
end

