-- ==== Sys2Proof/Proofs/ReductionWords.lean ====
section
/-! PROOF. Reduction words and completion records in memory: what is read after contributions were added, counted or cleared
(01 R16; 06 R140; 10 R230). -/

namespace Sys2Proof.Machine

open Sys2Proof.Claims

/-! ## Two's complement -/

theorem ofTwos_emod (n c : Nat) : ofTwos n c % (2 ^ n : Nat) = (c : Int) % (2 ^ n : Nat) := by
  unfold ofTwos
  split
  · rw [Int.sub_emod_right, Int.natCast_emod, Int.emod_emod]
  · rw [Int.natCast_emod, Int.emod_emod]

/-- A code and the number it stands for give the same sum. -/
theorem toTwos_ofTwos_add (n c : Nat) (q : Int) : toTwos n (ofTwos n c + q) = toTwos n (c + q) := by
  rw [toTwos, toTwos, Int.add_emod, ofTwos_emod, ← Int.add_emod]

theorem ofTwos_mod (n c : Nat) : ofTwos n (c % 2 ^ n) = ofTwos n c := by
  rw [ofTwos, ofTwos, Nat.mod_mod]

theorem ofTwos_zero (n : Nat) : ofTwos n 0 = 0 := by simp [ofTwos]

/-! ## Little-endian fields -/

theorem leNat_append (a b : Bytes) : leNat (a ++ b) = leNat a + 256 ^ a.length * leNat b := by
  induction a with
  | nil => simp [leNat]
  | cons x a ih =>
    rw [List.cons_append, leNat, ih, leNat, List.length_cons]
    ring

theorem leNat_zeros (n : Nat) : leNat (List.replicate n (0 : Byte)) = 0 := by
  induction n with
  | zero => rfl
  | succ n ih => rw [List.replicate_succ, leNat, ih]; rfl

/-! ## The completion record (10 R230) -/

/-- The bytes of a completion record. -/
def CRec.bytes (c : CRec) : Bytes :=
  leBytes 4 c.count ++ leBytes 4 c.qmax ++ leBytes 1 c.attempt ++ leBytes 1 c.scale ++ List.replicate 6 0

theorem CRec.length_bytes (c : CRec) : c.bytes.length = 16 := by simp [CRec.bytes, length_leBytes]

/-- A completion record as its bytes hold it. -/
def CRec.stored (c : CRec) : CRec := ⟨c.count % 2 ^ 32, c.qmax % 2 ^ 32, c.attempt % 256, c.scale % 256⟩

theorem CRec.leNat_bytes (c : CRec) : leNat c.bytes =
    c.count % 2 ^ 32 + 2 ^ 32 * (c.qmax % 2 ^ 32) + 2 ^ 64 * (c.attempt % 256) + 2 ^ 72 * (c.scale % 256) := by
  simp only [CRec.bytes, leNat_append, leNat_leBytes, leNat_zeros, List.length_append, length_leBytes]
  norm_num

theorem bitsOf_crec (a b c d : Nat) (ha : a < 2 ^ 32) (hb : b < 2 ^ 32) (hc : c < 256) (hd : d < 256) :
    let v := a + 2 ^ 32 * b + 2 ^ 64 * c + 2 ^ 72 * d
    bitsOf v 31 0 = a ∧ bitsOf v 63 32 = b ∧ bitsOf v 71 64 = c ∧ bitsOf v 79 72 = d := by
  simp only [bitsOf, Nat.shiftRight_eq_div_pow]
  norm_num
  omega

section
variable (s : State) (p : PitchId) (b k : Nat)

theorem State.crec_setCrec (c : CRec) : (s.setCrec p b k c).crec p b k = c.stored := by
  have hread : (s.setCrec p b k c).readLe ((s.pitch p).crecAddr p b k) 16 = leNat c.bytes := by
    have hback := s.read_write ((s.pitch p).crecAddr p b k) c.bytes
    rw [c.length_bytes] at hback
    exact congrArg leNat hback
  have hfields := bitsOf_crec (c.count % 2 ^ 32) (c.qmax % 2 ^ 32) (c.attempt % 256) (c.scale % 256) (Nat.mod_lt _ (by decide))
    (Nat.mod_lt _ (by decide)) (Nat.mod_lt _ (by decide)) (Nat.mod_lt _ (by decide))
  rw [← c.leNat_bytes, ← hread] at hfields
  obtain ⟨hcount, hqmax, hattempt, hscale⟩ := hfields
  change CRec.mk _ _ _ _ = _
  rw [CRec.stored]
  exact congr (congr (congr (congrArg CRec.mk hcount) hqmax) hattempt) hscale

/-- The fields of a completion record fit their bytes. -/
theorem State.crec_stored : (s.crec p b k).stored = s.crec p b k := by
  simp [CRec.stored, State.crec, bitsOf]

end

/-! ## Words (06 R140) -/

theorem sumBytes_pos (w : Nat) : 0 < sumBytes w := by
  unfold sumBytes
  split <;> decide

section
variable {s : State} {p : PitchId} {b k : Nat}

/-- The signed sum of element i of a block. -/
theorem State.sums_getD {i : Nat} (hi : i < bBlock ((s.pitch p).bucketD b)) : (s.sums p b k).getD i 0 =
    ofTwos (8 * sumBytes (bWire ((s.pitch p).bucketD b)))
      (s.readLe ((s.pitch p).redAddr b k 0 + sumBytes (bWire ((s.pitch p).bucketD b)) * i) (sumBytes (bWire ((s.pitch p).bucketD b)))) := by
  have hlen : i < (chunks (sumBytes (bWire ((s.pitch p).bucketD b))) (s.read ((s.pitch p).redAddr b k 0)
      (sumBytes (bWire ((s.pitch p).bucketD b)) * bBlock ((s.pitch p).bucketD b)))).length := by
    rw [length_chunks_mul (sumBytes_pos _) (s.length_read _ _)]
    exact hi
  have hpiece := chunks_read s (a := (s.pitch p).redAddr b k 0) (sumBytes_pos (bWire ((s.pitch p).bucketD b))) hi
  rw [List.getD_eq_getElem _ _ hlen] at hpiece
  simp only [State.sums]
  rw [List.getD_eq_getElem _ _ (by simpa using hlen), List.getElem_map, hpiece]
  rfl

/-- The bytes that adding leaves of word i. -/
def addedWord (s : State) (a z : Nat) (qs : List Int) (i : Nat) : Bytes :=
  leBytes z (toTwos (8 * z) ((s.readLe (a + z * i) z : Int) + qs.getD i 0))

theorem State.addWords_eq (s : State) {a z : Nat} (hz : 0 < z) (qs : List Int) :
    s.addWords a z qs = s.write a ((List.range qs.length).flatMap (addedWord s a z qs)) := by
  rw [State.addWords, List.flatMap_def]
  congr 2
  have hlen : (chunks z (s.read a (z * qs.length))).length = qs.length := length_chunks_mul hz (s.length_read _ _)
  refine List.ext_getElem (by simp [hlen]) fun i hi hi' => ?_
  have hi : i < qs.length := by simpa using hi'
  have hpiece := chunks_read s (a := a) hz hi
  rw [List.getD_eq_getElem _ _ (by rw [hlen]; exact hi)] at hpiece
  rw [List.getElem_zipWith, List.getElem_map, List.getElem_range, hpiece, addedWord, List.getD_eq_getElem _ _ hi]
  rfl

theorem length_addedWord (s : State) (a z : Nat) (qs : List Int) (i : Nat) : (addedWord s a z qs i).length = z := length_leBytes z _

theorem State.length_addedWords (s : State) (a z : Nat) (qs : List Int) :
    ((List.range qs.length).flatMap (addedWord s a z qs)).length = z * qs.length :=
  length_flatMap_range _ fun i _ => length_addedWord s a z qs i

/-- Word i after the adds, as a signed sum. -/
theorem ofTwos_addWords (s : State) {a z i : Nat} (hz : 0 < z) {qs : List Int} (hi : i < qs.length) :
    ofTwos (8 * z) ((s.addWords a z qs).readLe (a + z * i) z) =
      ofTwos (8 * z) (toTwos (8 * z) (ofTwos (8 * z) (s.readLe (a + z * i) z) + qs.getD i 0)) := by
  rw [State.addWords_eq s hz, State.readLe, State.read_write_piece s (fun i _ => length_addedWord s a z qs i) hi, addedWord,
    leNat_leBytes, toTwos_ofTwos_add]
  have hpow : 256 ^ z = 2 ^ (8 * z) := by rw [Nat.pow_mul]
  rw [hpow, ofTwos_mod]

end

end Sys2Proof.Machine
end

