-- ==== Sys2Proof/Proofs/Contributions.lean ====
section
/-! PROOF. A contribution at the owner and a RETRY at a member (06 R141; 10 R231, R232). -/

namespace Sys2Proof.Machine

open Sys2Proof.Claims

/-! ## What follows from the effective configuration -/

section
variable {x y : Pitch} {p : PitchId}

theorem RunMoved.refl : RunMoved x x := rfl

theorem RunMoved.trans {z : Pitch} (h : RunMoved x y) (k : RunMoved y z) : RunMoved x z := by
  rw [RunMoved] at h k ⊢
  rw [k, h]

theorem ChannelsMoved.runMoved (h : ChannelsMoved x y) : RunMoved x y := by
  rw [ChannelsMoved] at h
  rw [RunMoved, h]

theorem TxMoved.runMoved (h : TxMoved x y) : RunMoved x y := by
  rw [TxMoved] at h
  rw [RunMoved, h]

theorem RunMoved.setRun (x : Pitch) (r : BucketRun) : RunMoved x (x.setRun r) := rfl

theorem RunMoved.exists (h : RunMoved x y) : ∃ f rs tx cs, y = { x with numFlags := f, runs := rs, tx := tx, counters := cs } :=
  ⟨_, _, _, _, h⟩

variable (h : RunMoved x y)
include h

theorem RunMoved.crecAddr : y.crecAddr p = x.crecAddr p := by
  obtain ⟨f, rs, tx, cs, rfl⟩ := h.exists
  rfl

theorem RunMoved.redAddr : y.redAddr = x.redAddr := by
  obtain ⟨f, rs, tx, cs, rfl⟩ := h.exists
  rfl

theorem RunMoved.eff : y.eff = x.eff := by
  obtain ⟨f, rs, tx, cs, rfl⟩ := h.exists
  rfl

theorem RunMoved.bucketD : y.bucketD = x.bucketD := by
  obtain ⟨f, rs, tx, cs, rfl⟩ := h.exists
  rfl

theorem RunMoved.size : y.size = x.size := by
  obtain ⟨f, rs, tx, cs, rfl⟩ := h.exists
  rfl

theorem RunMoved.others : y.others = x.others := by
  obtain ⟨f, rs, tx, cs, rfl⟩ := h.exists
  rfl

theorem RunMoved.stepLo : y.stepLo = x.stepLo := by
  obtain ⟨f, rs, tx, cs, rfl⟩ := h.exists
  rfl

end

section
variable {s t : State} {p : PitchId} (hx : RunMoved (s.pitch p) (t.pitch p)) (hmem : t.mem = s.mem)
include hx hmem

theorem State.crec_congr (b k : Nat) : t.crec p b k = s.crec p b k := by
  simp only [State.crec, State.readLe, State.read, hx.crecAddr, hmem]

theorem State.sums_congr (b k : Nat) : t.sums p b k = s.sums p b k := by
  simp only [State.sums, State.read, hx.redAddr, hx.bucketD, hmem]

end

/-! ## Adding one contribution (10 R231) -/

section
variable (s : State) (p : PitchId) (b : Nat) (st : Stream)

/-- The completion record once the contribution is counted. -/
def countedRec : CRec :=
  let c := s.crec p b st.index
  { c with count := c.count + 1, qmax := max c.qmax st.qmax, scale := if c.count = 0 then st.scale else c.scale }

/-- The owner's memory once the contribution is added and counted. -/
def State.contributed : State :=
  (s.addWords ((s.pitch p).redAddr b st.index 0) (sumBytes st.fmt) (streamUnits st)).setCrec p b st.index (countedRec s p b st)

theorem length_streamUnits : (streamUnits st).length = st.block := by simp [streamUnits]

theorem State.contributed_pitch : (s.contributed p b st).pitch p = s.pitch p := rfl

theorem State.contributed_crec : (s.contributed p b st).crec p b st.index = (countedRec s p b st).stored := State.crec_setCrec _ p b st.index _

theorem State.contributed_byte {a : Nat} (hrec : a < (s.pitch p).crecAddr p b st.index ∨ (s.pitch p).crecAddr p b st.index + 16 ≤ a)
    (hwords : a < (s.pitch p).redAddr b st.index 0 ∨ (s.pitch p).redAddr b st.index 0 + sumBytes st.fmt * st.block ≤ a) :
    (s.contributed p b st).byte a = s.byte a := by
  have hlen := s.length_addedWords ((s.pitch p).redAddr b st.index 0) (sumBytes st.fmt) (streamUnits st)
  rw [length_streamUnits] at hlen
  have hrecord := (countedRec s p b st).length_bytes
  refine (State.byte_write_out _ _ a (countedRec s p b st).bytes (by rw [hrecord]; exact hrec)).trans ?_
  rw [State.addWords_eq s (sumBytes_pos st.fmt)]
  exact State.byte_write_out s _ a _ (by rw [length_streamUnits, hlen]; exact hwords)

variable {s p b st} (hplace : ContribPlace s p b st)
include hplace

/-- The record is counted from what it was: the words lie apart from it. -/
theorem State.applyContrib_eq : s.applyContrib p b st =
    if (countedRec s p b st).count = (s.pitch p).size then (s.contributed p b st).ownerTest p b st.index else s.contributed p b st := by
  obtain ⟨hfmt, hblock, hapart⟩ := hplace
  have hlen := s.length_addedWords ((s.pitch p).redAddr b st.index 0) (sumBytes st.fmt) (streamUnits st)
  rw [length_streamUnits] at hlen
  have hsame : (s.addWords ((s.pitch p).redAddr b st.index 0) (sumBytes st.fmt) (streamUnits st)).crec p b st.index = s.crec p b st.index := by
    have hread : (s.addWords ((s.pitch p).redAddr b st.index 0) (sumBytes st.fmt) (streamUnits st)).readLe
        ((s.pitch p).crecAddr p b st.index) 16 = s.readLe ((s.pitch p).crecAddr p b st.index) 16 := by
      refine congrArg leNat (State.read_congr fun i hi => ?_)
      rw [State.addWords_eq s (sumBytes_pos st.fmt)]
      exact State.byte_write_out s _ _ _ (by rw [length_streamUnits, hlen]; omega)
    exact congrArg (fun v => (⟨bitsOf v 31 0, bitsOf v 63 32, bitsOf v 71 64, bitsOf v 79 72⟩ : CRec)) hread
  simp only [State.applyContrib, hsame]
  rfl

/-- Each sum took its contribution, modulo its width. -/
theorem State.contributed_sums {i : Nat} (hi : i < st.block) : ((s.contributed p b st).sums p b st.index).getD i 0 =
    ofTwos (8 * sumBytes st.fmt) (toTwos (8 * sumBytes st.fmt) ((s.sums p b st.index).getD i 0 + (streamUnits st).getD i 0)) := by
  obtain ⟨hfmt, hblock, hapart⟩ := hplace
  have hin : sumBytes st.fmt * i + sumBytes st.fmt ≤ sumBytes st.fmt * st.block := by
    rw [← Nat.mul_succ]
    exact Nat.mul_le_mul_left _ hi
  have hrecord : (s.contributed p b st).readLe ((s.pitch p).redAddr b st.index 0 + sumBytes st.fmt * i) (sumBytes st.fmt) =
      (s.addWords ((s.pitch p).redAddr b st.index 0) (sumBytes st.fmt) (streamUnits st)).readLe
        ((s.pitch p).redAddr b st.index 0 + sumBytes st.fmt * i) (sumBytes st.fmt) := by
    have hlen := (countedRec s p b st).length_bytes
    exact congrArg leNat (State.read_congr fun k hk => State.byte_write_out _ _ _ (countedRec s p b st).bytes (by
      rw [hlen]
      change _ < (s.pitch p).crecAddr p b st.index ∨ (s.pitch p).crecAddr p b st.index + 16 ≤ _
      omega))
  rw [State.sums_getD (by rw [State.contributed_pitch, ← hblock]; exact hi), State.sums_getD (by rw [← hblock]; exact hi),
    State.contributed_pitch, ← hfmt, hrecord, ofTwos_addWords s (sumBytes_pos st.fmt) (by rw [length_streamUnits]; exact hi)]

end

end Sys2Proof.Machine
end

