-- ==== Sys2Proof/Proofs/ContributionFrames.lean ====
section
/-! PROOF. CONTRIB and RETRY frames: a block that is complete and may have overflowed is cleared and asked for again (06 R141; 10 R231,
R232, R248). -/

namespace Sys2Proof.Machine

open Sys2Proof.Claims

/-! ## A block is cleared (06 R140) -/

section
variable {s : State} {p : PitchId} {b k : Nat} (c : CRec)

theorem State.clearBlock_crec : (s.clearBlock p b k c).crec p b k = c.stored := State.crec_setCrec _ p b k c

theorem State.clearBlock_byte {a : Nat} (hrec : a < (s.pitch p).crecAddr p b k ∨ (s.pitch p).crecAddr p b k + 16 ≤ a)
    (hwords : a < (s.pitch p).redAddr b k 0 ∨
      (s.pitch p).redAddr b k 0 + sumBytes (bWire ((s.pitch p).bucketD b)) * bBlock ((s.pitch p).bucketD b) ≤ a) :
    (s.clearBlock p b k c).byte a = s.byte a := by
  have hlen := c.length_bytes
  exact (State.byte_write_out _ _ a c.bytes (by rw [hlen]; exact hrec)).trans (memGet_memErase_out s.mem _ _ a hwords)

theorem State.clearBlock_sums {i : Nat} (hapart : (s.pitch p).crecAddr p b k + 16 ≤ (s.pitch p).redAddr b k 0 ∨
      (s.pitch p).redAddr b k 0 + sumBytes (bWire ((s.pitch p).bucketD b)) * bBlock ((s.pitch p).bucketD b) ≤ (s.pitch p).crecAddr p b k)
    (hi : i < bBlock ((s.pitch p).bucketD b)) : ((s.clearBlock p b k c).sums p b k).getD i 0 = 0 := by
  have hz := sumBytes_pos (bWire ((s.pitch p).bucketD b))
  have hin : sumBytes (bWire ((s.pitch p).bucketD b)) * i + sumBytes (bWire ((s.pitch p).bucketD b)) ≤
      sumBytes (bWire ((s.pitch p).bucketD b)) * bBlock ((s.pitch p).bucketD b) := by
    rw [← Nat.mul_succ]
    exact Nat.mul_le_mul_left _ hi
  have hzero : (s.clearBlock p b k c).read ((s.pitch p).redAddr b k 0 + sumBytes (bWire ((s.pitch p).bucketD b)) * i)
      (sumBytes (bWire ((s.pitch p).bucketD b))) = List.replicate (sumBytes (bWire ((s.pitch p).bucketD b))) 0 := by
    have hlen := c.length_bytes
    rw [State.read_eq_map]
    refine List.eq_replicate_iff.mpr ⟨by simp, fun x hx => ?_⟩
    obtain ⟨m, hm, rfl⟩ := List.mem_map.mp hx
    have hm := List.mem_range.mp hm
    refine (State.byte_write_out _ _ _ c.bytes ?_).trans (memGet_memErase_in s.mem _ _ _ (by omega))
    rw [hlen]
    change _ < (s.pitch p).crecAddr p b k ∨ (s.pitch p).crecAddr p b k + 16 ≤ _
    omega
  have hpitch : (s.clearBlock p b k c).pitch p = s.pitch p := rfl
  rw [State.sums_getD (by rw [hpitch]; exact hi), hpitch, State.readLe, hzero, leNat_zeros, ofTwos_zero]

end

/-! ## A block is asked for again (10 R232) -/

theorem RunMoved.count (x : Pitch) (c : PCtr) (n : Nat) : RunMoved x (x.count c n) := (TxMoved.count x c n).runMoved

/-- Noting that a block is to be sent again leaves the channels and the frames. -/
theorem Pitch.memberRetry_spec (x : Pitch) (b k a : Nat) : RunMoved x (x.memberRetry b k a) ∧ (x.memberRetry b k a).tx = x.tx ∧
    (x.memberRetry b k a).counter .fxRetry = x.counter .fxRetry := by
  have hcount : (x.count .memberRetries).tx = x.tx ∧ (x.count .memberRetries).counter .fxRetry = x.counter .fxRetry :=
    ⟨by rw [Pitch.count_rest], Pitch.counter_count_ne x (by decide) (by decide) (by decide) 1⟩
  unfold Pitch.memberRetry
  split
  · exact ⟨rfl, rfl, rfl⟩
  · extract_lets y j
    have hy : RunMoved x y := RunMoved.count x _ 1
    split
    · exact ⟨hy.trans (RunMoved.setRun y _), hcount⟩
    · exact ⟨hy.trans (RunMoved.setRun y _), hcount⟩

/-- The RETRY frames of a block. -/
def retryFrames (x : Pitch) (b k a : Nat) : List TxFrame :=
  x.others.map fun m => messageFrame m opWrite b tgRetry (retryPayload k a x.stepLo)

/-- The owner has cleared a block and asks for it at the next attempt. -/
def State.askedAgain (s : State) (p : PitchId) (b k a : Nat) : State :=
  (((s.count p .fxRetry).clearBlock p b k { attempt := a }).enqueueAll p (retryFrames (s.pitch p) b k a)).modPitch p
    (fun x => x.memberRetry b k a)

section
variable {s : State} {p : PitchId} {b k : Nat}

/-- The tests at completion, where the sum may have overflowed and another attempt is left (06 R141). -/
theorem State.ownerTest_overflow {r : BucketRun} {codes : List Nat} {nf : Bool} (hrun : (s.pitch p).runOf b = some r) (hlr : r.lr = none)
    (hagreed : r.agreedOf b = some (codes, nf)) (hscale : (s.crec p b k).scale = codes.getD k 0 + (s.crec p b k).attempt)
    (hlast : codes.getD k 0 + (s.crec p b k).attempt + 1 ≤ 254)
    (hover : sumMax (bWire ((s.pitch p).bucketD b)) < (s.pitch p).size * (s.crec p b k).qmax) :
    s.ownerTest p b k = s.askedAgain p b k ((s.crec p b k).attempt + 1) := by
  unfold State.ownerTest
  have hmore : ¬ 254 < codes.getD k 0 + ((s.crec p b k).attempt + 1) := by omega
  simp only [hrun, hlr, hagreed, hscale, Nat.not_le.mpr hover, hmore, ne_eq, not_true_eq_false, if_false]
  rfl

variable (s p b k) (a : Nat)

/-- The pitch of the owner that asks again. -/
theorem State.askedAgain_pitch : (s.askedAgain p b k a).pitch p =
    ((retryFrames (s.pitch p) b k a).foldl Pitch.enqueue ((s.pitch p).count .fxRetry)).memberRetry b k a := by
  simp only [State.askedAgain, State.enqueueAll, State.pitch_modPitch]
  have hcleared : ((s.count p .fxRetry).clearBlock p b k { attempt := a }).pitch p = (s.pitch p).count .fxRetry := s.pitch_count p .fxRetry 1
  rw [hcleared]

theorem State.askedAgain_moved : RunMoved (s.pitch p) ((s.askedAgain p b k a).pitch p) := by
  rw [State.askedAgain_pitch]
  exact ((RunMoved.count _ _ 1).trans (TxMoved.enqueues _ _).runMoved).trans (Pitch.memberRetry_spec _ b k a).1

theorem State.askedAgain_queued : Queued p (retryFrames (s.pitch p) b k a) (s.askedAgain p b k a) := by
  intro f hf
  rw [State.askedAgain_pitch, (Pitch.memberRetry_spec _ b k a).2.1]
  exact Pitch.mem_enqueues _ _ (.inl hf)

theorem State.askedAgain_counter : ((s.askedAgain p b k a).pitch p).counter .fxRetry = (s.pitch p).counter .fxRetry + 1 := by
  obtain ⟨txq, hframes⟩ := Pitch.enqueues (retryFrames (s.pitch p) b k a) ((s.pitch p).count .fxRetry)
  rw [State.askedAgain_pitch, (Pitch.memberRetry_spec _ b k a).2.2, hframes]
  exact Pitch.counter_count (s.pitch p) (by decide) (by decide) 1

theorem State.askedAgain_channels : ((s.askedAgain p b k a).pitch p).tx.channels = (s.pitch p).tx.channels := by
  obtain ⟨txq, hframes⟩ := Pitch.enqueues (retryFrames (s.pitch p) b k a) ((s.pitch p).count .fxRetry)
  rw [State.askedAgain_pitch, (Pitch.memberRetry_spec _ b k a).2.1, hframes, Pitch.count_rest]

/-- Its memory is as after the clearing. -/
theorem State.askedAgain_mem : (s.askedAgain p b k a).mem = (s.clearBlock p b k { attempt := a }).mem := by
  have hmoved : RunMoved (s.pitch p) ((s.count p .fxRetry).pitch p) := by
    rw [State.pitch_count]
    exact RunMoved.count _ _ 1
  have hclear (u : State) (y : Pitch) (hy : u.pitch p = y) (c : CRec) : (u.clearBlock p b k c).mem =
      memPut (memErase u.mem (y.redAddr b k 0) (sumBytes (bWire (y.bucketD b)) * bBlock (y.bucketD b))) (y.crecAddr p b k) c.bytes := by
    subst hy
    rfl
  rw [hclear s _ rfl, ← hmoved.redAddr, ← hmoved.bucketD, ← hmoved.crecAddr]
  exact hclear (s.count p .fxRetry) _ rfl { attempt := a }

theorem State.askedAgain_byte {m : Nat} (hrec : m < (s.pitch p).crecAddr p b k ∨ (s.pitch p).crecAddr p b k + 16 ≤ m)
    (hwords : m < (s.pitch p).redAddr b k 0 ∨
      (s.pitch p).redAddr b k 0 + sumBytes (bWire ((s.pitch p).bucketD b)) * bBlock ((s.pitch p).bucketD b) ≤ m) :
    (s.askedAgain p b k a).byte m = s.byte m := by
  rw [State.byte, State.askedAgain_mem]
  exact State.clearBlock_byte _ hrec hwords

theorem State.askedAgain_others {q : PitchId} (hq : q ≠ p) : (s.askedAgain p b k a).pitch q = s.pitch q :=
  ((State.pitch_modPitch_ne _ p q _ hq).trans (State.pitch_modPitch_ne _ p q _ hq)).trans (s.pitch_count_ne p q .fxRetry 1 hq)

end

/-! ## CONTRIB frames (10 R231) -/

section
variable {s : State} {rx : Rx} {p : PitchId} {f : Frame} {d : Bytes} {st : Stream}

theorem State.noted_runMoved (s : State) (p : PitchId) (f : Frame) : RunMoved (s.pitch p) ((s.noted p f).pitch p) :=
  (s.noted_moved p f).runMoved

theorem State.noted_runs (s : State) (p : PitchId) (f : Frame) : ((s.noted p f).pitch p).runs = (s.pitch p).runs := by
  rw [State.noted_pitch]
  rfl

theorem State.noted_crec (s : State) (p : PitchId) (f : Frame) (b k : Nat) : (s.noted p f).crec p b k = s.crec p b k :=
  State.crec_congr (s.noted_runMoved p f) rfl b k

theorem State.noted_contribStreams (s : State) (p : PitchId) (f : Frame) (b : Nat) :
    (s.noted p f).contribStreams p b = s.contribStreams p b := by
  funext payload
  simp only [State.contribStreams, State.noted_crec]
  rw [State.noted_pitch]
  rfl

/-- A CONTRIB frame of one stream adds it. -/
theorem contribStream_acts (h : Fresh s rx p f d) (hkind : f.kind = .contrib) (hst : s.contribStreams p f.bucket d = some [st]) :
    ∃ t, exec (.contribStream rx) s = .next t ∧ Acknowledged p f.src ((s.noted p f).applyContrib p f.bucket st) t := by
  obtain ⟨t, hrun, hack⟩ := fresh_receives h (fun p f d s => s.contribFrame p f.bucket d)
  have hframe : (s.noted p f).contribFrame p f.bucket d = (s.noted p f).applyContrib p f.bucket st := by
    rw [State.contribFrame, State.noted_contribStreams, hst]
    rfl
  rw [hframe] at hack
  rw [hkind] at hrun
  have hexec : exec (.contribStream rx) s = .next (s.receiveKind rx .contrib fun p f d s => s.contribFrame p f.bucket d) :=
    live_next s (fun s => s.receiveKind rx .contrib fun p f d s => s.contribFrame p f.bucket d) h.up
  exact ⟨t, hexec.trans (congrArg Host.Outcome.next hrun), hack⟩

theorem contribPlace_noted {b : Nat} (h : ContribPlace s p b st) (f : Frame) : ContribPlace (s.noted p f) p b st := by
  rw [ContribPlace, (s.noted_runMoved p f).bucketD, (s.noted_runMoved p f).crecAddr, (s.noted_runMoved p f).redAddr]
  exact h

/-- A contribution that does not complete its block. -/
theorem contribStream_adds (h : Fresh s rx p f d) (hkind : f.kind = .contrib) (hst : s.contribStreams p f.bucket d = some [st])
    (hplace : ContribPlace s p f.bucket st) (hsize : (s.pitch p).size ≤ 65536)
    (hmore : (s.crec p f.bucket st.index).count + 1 < (s.pitch p).size) :
    ∃ t, exec (.contribStream rx) s = .next t ∧ Accepted p f s t ∧ ContribFrame p f.bucket st s t ∧ t.erg = s.erg ∧
      t.crec p f.bucket st.index = ⟨(s.crec p f.bucket st.index).count + 1,
        max (s.crec p f.bucket st.index).qmax st.qmax % 2 ^ 32, (s.crec p f.bucket st.index).attempt,
        (if (s.crec p f.bucket st.index).count = 0 then st.scale else (s.crec p f.bucket st.index).scale) % 256⟩ ∧
      ∀ i, i < st.block → (t.sums p f.bucket st.index).getD i 0 =
        ofTwos (8 * sumBytes st.fmt) (toTwos (8 * sumBytes st.fmt)
          ((s.sums p f.bucket st.index).getD i 0 + (streamUnits st).getD i 0)) := by
  obtain ⟨t, hrun, hack⟩ := contribStream_acts h hkind hst
  have hnoted := s.noted_runMoved p f
  have hcrec := s.noted_crec p f f.bucket st.index
  rw [State.applyContrib_eq (contribPlace_noted hplace f), if_neg (by rw [countedRec, hcrec, hnoted.size]; exact hmore.ne)] at hack
  have hmem : t.mem = ((s.noted p f).contributed p f.bucket st).mem := by rw [hack.rest]
  have hbytes : ContribFrame p f.bucket st s t := by
    intro a hrec hwords
    rw [State.byte, hmem]
    exact State.contributed_byte _ p f.bucket st (by rw [hnoted.crecAddr]; exact hrec) (by rw [hnoted.redAddr]; exact hwords)
  have hwithin : Within p [((s.pitch p).crecAddr p f.bucket st.index, 16), ((s.pitch p).redAddr f.bucket st.index 0, sumBytes st.fmt * st.block)]
      (s.noted p f) ((s.noted p f).contributed p f.bucket st) := by
    refine ⟨rfl, fun _ _ => rfl, fun a _ hranges => ?_⟩
    simp only [List.mem_cons, List.not_mem_nil, or_false, forall_eq_or_imp, forall_eq] at hranges
    exact State.contributed_byte _ p f.bucket st (by rw [hnoted.crecAddr]; exact hranges.1) (by rw [hnoted.redAddr]; exact hranges.2)
  refine ⟨t, hrun, accepted_of hwithin rfl hack, hbytes, by rw [hack.rest]; rfl, ?_, fun i hi => ?_⟩
  · have hstored := s.crec_stored p f.bucket st.index
    rw [CRec.stored] at hstored
    rw [State.crec_congr hack.own.runMoved hmem, State.contributed_crec, CRec.stored, countedRec, hcrec]
    have hcount : ((s.crec p f.bucket st.index).count + 1) % 2 ^ 32 = (s.crec p f.bucket st.index).count + 1 := Nat.mod_eq_of_lt (by omega)
    have hattempt := congrArg CRec.attempt hstored
    simp only at hattempt
    simp only [hcount, hattempt]
  · rw [State.sums_congr hack.own.runMoved hmem, State.contributed_sums (contribPlace_noted hplace f) hi, State.sums_congr hnoted rfl]

end

end Sys2Proof.Machine
end

