-- ==== Sys2Proof/Proofs/Retries.lean ====
section
/-! PROOF. A block that may have overflowed is cleared and asked for again, and RETRY frames (06 R141; 10 R231, R232, R248). -/

namespace Sys2Proof.Machine

open Sys2Proof.Claims

/-! ## What an acknowledgement leaves -/

section
variable {p : PitchId} {r : Nat} {u t : State} (h : Acknowledged p r u t)
include h

theorem Acknowledged.mem : t.mem = u.mem := by rw [h.rest]

theorem Acknowledged.counter (c : PCtr) : (t.pitch p).counter c = (u.pitch p).counter c := by
  have hown := h.own
  rw [ChannelsMoved] at hown
  rw [hown]
  rfl

theorem Acknowledged.runs : (t.pitch p).runs = (u.pitch p).runs := by
  have hown := h.own
  rw [ChannelsMoved] at hown
  rw [hown]

theorem Acknowledged.frames : (t.pitch p).tx.txq = (u.pitch p).tx.txq := by
  have hown := h.own
  rw [ChannelsMoved] at hown
  rw [hown]

end

/-! ## CONTRIB frames that complete a block (10 R231) -/

section
variable {s : State} {rx : Rx} {p : PitchId} {f : Frame} {d : Bytes} {st : Stream}

/-- The record of a complete block. -/
theorem State.contributed_full {b : Nat} (hsize : (s.pitch p).size ≤ 65536) (hfull : (s.crec p b st.index).count + 1 = (s.pitch p).size) :
    (s.contributed p b st).crec p b st.index = ⟨(s.pitch p).size, max (s.crec p b st.index).qmax st.qmax % 2 ^ 32,
      (s.crec p b st.index).attempt, (if (s.crec p b st.index).count = 0 then st.scale else (s.crec p b st.index).scale) % 256⟩ := by
  have hattempt := congrArg CRec.attempt (s.crec_stored p b st.index)
  simp only [CRec.stored] at hattempt
  have hcount : (s.pitch p).size % 2 ^ 32 = (s.pitch p).size := Nat.mod_eq_of_lt (by omega)
  rw [State.contributed_crec, CRec.stored, countedRec]
  simp only [hfull, hcount, hattempt]

/-- A contribution that completes a block whose sum may have overflowed, while another attempt is left. -/
theorem State.applyContrib_overflow {b : Nat} {r : BucketRun} {codes : List Nat} {nf : Bool} (hplace : ContribPlace s p b st)
    (hsize : (s.pitch p).size ≤ 65536) (hfull : (s.crec p b st.index).count + 1 = (s.pitch p).size)
    (hrun : (s.pitch p).runOf b = some r) (hlr : r.lr = none) (hagreed : r.agreedOf b = some (codes, nf))
    (hscale : (if (s.crec p b st.index).count = 0 then st.scale else (s.crec p b st.index).scale) % 256 =
      codes.getD st.index 0 + (s.crec p b st.index).attempt)
    (hlast : codes.getD st.index 0 + (s.crec p b st.index).attempt + 1 ≤ 254)
    (hover : sumMax st.fmt < (s.pitch p).size * (max (s.crec p b st.index).qmax st.qmax % 2 ^ 32)) :
    s.applyContrib p b st = (s.contributed p b st).askedAgain p b st.index ((s.crec p b st.index).attempt + 1) := by
  have hrec := State.contributed_full hsize hfull
  have hasks := State.ownerTest_overflow (s := s.contributed p b st) (k := st.index) (r := r) (codes := codes) (nf := nf) hrun hlr hagreed
  rw [hrec, State.contributed_pitch, ← hplace.1] at hasks
  rw [State.applyContrib_eq hplace, if_pos (by rw [countedRec]; exact hfull)]
  exact hasks hscale hlast hover

section
variable {b : Nat} (hplace : ContribPlace s p b st)
include hplace

/-- A block is cleared within its words and its record. -/
theorem State.cleared_byte (a : Nat) {m : Nat} (hrec : m < (s.pitch p).crecAddr p b st.index ∨ (s.pitch p).crecAddr p b st.index + 16 ≤ m)
    (hsums : m < (s.pitch p).redAddr b st.index 0 ∨ (s.pitch p).redAddr b st.index 0 + sumBytes st.fmt * st.block ≤ m) :
    ((s.contributed p b st).askedAgain p b st.index a).byte m = s.byte m := by
  have hasked := State.askedAgain_byte (s.contributed p b st) p b st.index a (m := m)
  rw [State.contributed_pitch, ← hplace.1, ← hplace.2.1] at hasked
  exact (hasked hrec hsums).trans (State.contributed_byte s p b st hrec hsums)

/-- The record and the sums of a block that is asked for again. -/
theorem State.cleared_block {a : Nat} (ha : a < 256) {t : State} (hmoved : RunMoved (s.pitch p) (t.pitch p))
    (hmem : t.mem = ((s.contributed p b st).askedAgain p b st.index a).mem) :
    t.crec p b st.index = ⟨0, 0, a, 0⟩ ∧ ∀ i, i < st.block → (t.sums p b st.index).getD i 0 = 0 := by
  obtain ⟨hfmt, hblock, hapart⟩ := hplace
  rw [State.askedAgain_mem] at hmem
  constructor
  · have hattempt : a % 256 = a := Nat.mod_eq_of_lt ha
    rw [State.crec_congr (s := (s.contributed p b st).clearBlock p b st.index { attempt := a }) hmoved hmem, State.clearBlock_crec, CRec.stored]
    simp only [hattempt, Nat.zero_mod]
  · intro i hi
    rw [State.sums_congr (s := (s.contributed p b st).clearBlock p b st.index { attempt := a }) hmoved hmem]
    refine State.clearBlock_sums _ ?_ (by rw [State.contributed_pitch, ← hblock]; exact hi)
    rw [State.contributed_pitch, ← hfmt, ← hblock]
    exact hapart

end

/-- A CONTRIB frame that completes such a block clears it and asks for it again. -/
theorem contribStream_asksAgain (h : Fresh s rx p f d) (hkind : f.kind = .contrib) (hst : s.contribStreams p f.bucket d = some [st])
    (hplace : ContribPlace s p f.bucket st) (hsize : (s.pitch p).size ≤ 65536) {r : BucketRun} {codes : List Nat} {nf : Bool}
    (hfull : (s.crec p f.bucket st.index).count + 1 = (s.pitch p).size)
    (hrun : (s.pitch p).runOf f.bucket = some r) (hlr : r.lr = none) (hagreed : r.agreedOf f.bucket = some (codes, nf))
    (hscale : (if (s.crec p f.bucket st.index).count = 0 then st.scale else (s.crec p f.bucket st.index).scale) % 256 =
      codes.getD st.index 0 + (s.crec p f.bucket st.index).attempt)
    (hlast : codes.getD st.index 0 + (s.crec p f.bucket st.index).attempt + 1 ≤ 254)
    (hover : sumMax st.fmt < (s.pitch p).size * (max (s.crec p f.bucket st.index).qmax st.qmax % 2 ^ 32)) :
    ∃ t, exec (.contribStream rx) s = .next t ∧ Accepted p f s t ∧ ContribFrame p f.bucket st s t ∧ t.erg = s.erg ∧
      (t.pitch p).counter .fxRetry = (s.pitch p).counter .fxRetry + 1 ∧
      t.crec p f.bucket st.index = ⟨0, 0, (s.crec p f.bucket st.index).attempt + 1, 0⟩ ∧
      (∀ i, i < st.block → (t.sums p f.bucket st.index).getD i 0 = 0) ∧
      Queued p (retryFrames (s.pitch p) f.bucket st.index ((s.crec p f.bucket st.index).attempt + 1)) t := by
  obtain ⟨t, hrunFrame, hack⟩ := contribStream_acts h hkind hst
  have hnoted := s.noted_runMoved p f
  have hcrec := s.noted_crec p f f.bucket st.index
  have hplace' := contribPlace_noted hplace f
  have hact := State.applyContrib_overflow (r := r) (codes := codes) (nf := nf) hplace' (by rw [hnoted.size]; exact hsize)
    (by rw [hcrec, hnoted.size]; exact hfull) (by rw [Pitch.runOf, s.noted_runs]; exact hrun) hlr hagreed
    (by rw [hcrec]; exact hscale) (by rw [hcrec]; exact hlast) (by rw [hcrec, hnoted.size]; exact hover)
  rw [hact, hcrec] at hack
  have ha : (s.crec p f.bucket st.index).attempt + 1 < 256 := by omega
  generalize (s.crec p f.bucket st.index).attempt + 1 = a at hack ha ⊢
  set u := (s.noted p f).contributed p f.bucket st
  have hframe {m : Nat} (hrec : m < (s.pitch p).crecAddr p f.bucket st.index ∨ (s.pitch p).crecAddr p f.bucket st.index + 16 ≤ m)
      (hsums : m < (s.pitch p).redAddr f.bucket st.index 0 ∨ (s.pitch p).redAddr f.bucket st.index 0 + sumBytes st.fmt * st.block ≤ m) :
      (u.askedAgain p f.bucket st.index a).byte m = s.byte m :=
    State.cleared_byte hplace' a (by rw [hnoted.crecAddr]; exact hrec) (by rw [hnoted.redAddr]; exact hsums)
  have hwithin : Within p [((s.pitch p).crecAddr p f.bucket st.index, 16), ((s.pitch p).redAddr f.bucket st.index 0, sumBytes st.fmt * st.block)]
      (s.noted p f) (u.askedAgain p f.bucket st.index a) := by
    refine ⟨rfl, fun q hq => State.askedAgain_others u p f.bucket st.index a hq, fun m _ hranges => ?_⟩
    simp only [List.mem_cons, List.not_mem_nil, or_false, forall_eq_or_imp, forall_eq] at hranges
    exact hframe hranges.1 hranges.2
  obtain ⟨hrecord, hzeros⟩ := State.cleared_block hplace' ha
    ((State.askedAgain_moved u p f.bucket st.index a).trans hack.own.runMoved) hack.mem
  refine ⟨t, hrunFrame, accepted_of hwithin (State.askedAgain_channels u p f.bucket st.index a) hack, fun m hrec hsums => ?_,
    by rw [hack.rest]; rfl, ?_, hrecord, hzeros, fun g hg => ?_⟩
  · rw [State.byte, hack.mem]
    exact hframe hrec hsums
  · rw [hack.counter, State.askedAgain_counter, State.contributed_pitch, State.noted_pitch]
    rfl
  · rw [hack.frames]
    refine State.askedAgain_queued u p f.bucket st.index a g ?_
    rw [retryFrames, State.contributed_pitch, hnoted.others, hnoted.stepLo]
    exact hg

end

/-! ## RETRY frames (10 R232) -/

/-- Where an element is to be replaced, the new one is there. -/
theorem mem_replaceFirst_new {α : Type} {p : α → Bool} (y : α) {xs : List α} (h : ∃ x ∈ xs, p x = true) : y ∈ replaceFirst p (fun _ => y) xs := by
  induction xs with
  | nil => simp at h
  | cons x xs ih =>
    rw [replaceFirst]
    split
    · exact List.mem_cons_self
    · rename_i hx
      obtain ⟨z, hz, hpz⟩ := h
      rcases List.mem_cons.mp hz with rfl | hz
      · exact absurd hpz hx
      · exact List.mem_cons_of_mem _ (ih ⟨z, hz, hpz⟩)

theorem Pitch.mem_setRun {x : Pitch} {r : BucketRun} {b : Nat} (hrun : x.runOf b = some r) {r' : BucketRun} (hbucket : r'.bucket = r.bucket) :
    r' ∈ (x.setRun r').runs :=
  mem_replaceFirst_new r' ⟨r, List.mem_of_find?_eq_some hrun, by simp [hbucket]⟩

/-- The run of a bucket whose block is to be sent again at attempt a. -/
def retriedRun (r : BucketRun) (j a : Nat) : BucketRun := { r with attempts := sput r.attempts j a, retry := addNew j r.retry }

section
variable {s : State} {rx : Rx} {p : PitchId} {f : Frame} {d : Bytes}

/-- The member of a run that is not LOWRANK notes that a block is to be sent again. -/
theorem Pitch.memberRetry_run {x : Pitch} {b : Nat} {r : BucketRun} (hrun : x.runOf b = some r) (hlr : r.lr = none) (k a : Nat) :
    x.memberRetry b k a = (x.count .memberRetries).setRun (retriedRun r (r.offset x b + k) a) := by
  have hoffset : r.offset (x.count .memberRetries) b = r.offset x b := by
    rw [BucketRun.offset, partFirst_congr (RunMoved.count x .memberRetries 1).eff, BucketRun.offset]
  unfold Pitch.memberRetry
  simp only [retriedRun, hrun, hlr, hoffset]

theorem retry_acts (h : Fresh s rx p f d) (hkind : f.kind = .retry) :
    ∃ t, exec (.retry rx) s = .next t ∧ Acknowledged p f.src ((s.noted p f).retryFrame p f.bucket d) t := by
  obtain ⟨t, hrun, hack⟩ := fresh_receives h (fun p f d s => s.retryFrame p f.bucket d)
  rw [hkind] at hrun
  have hexec : exec (.retry rx) s = .next (s.receiveKind rx .retry fun p f d s => s.retryFrame p f.bucket d) :=
    live_next s (fun s => s.receiveKind rx .retry fun p f d s => s.retryFrame p f.bucket d) h.up
  exact ⟨t, hexec.trans (congrArg Host.Outcome.next hrun), hack⟩

/-- A frame whose action changes its pitch alone, and not the channels, is accepted. -/
theorem acceptedQuietly_of {g : Pitch → Pitch} {t : State} (hchannels : (g ((s.noted p f).pitch p)).tx.channels = ((s.noted p f).pitch p).tx.channels)
    (hack : Acknowledged p f.src ((s.noted p f).modPitch p g) t) : AcceptedQuietly p f s t :=
  ⟨accepted_of (Within.modPitch (rs := []) (s.noted p f) g) (by rw [State.pitch_modPitch]; exact hchannels) hack, by rw [hack.rest]; rfl⟩

/-- A RETRY of this step is noted by the member. -/
theorem retry_noted (h : Fresh s rx p f d) (hkind : f.kind = .retry) {r : BucketRun} (hstep : leAt d 5 2 = (s.pitch p).stepLo.toNat)
    (hrun : (s.pitch p).runOf f.bucket = some r) (hlr : r.lr = none) :
    ∃ t r', exec (.retry rx) s = .next t ∧ AcceptedQuietly p f s t ∧ r' ∈ (t.pitch p).runs ∧
      (t.pitch p).counter .memberRetries = (s.pitch p).counter .memberRetries + 1 ∧
      r' = retriedRun r (r.offset (s.pitch p) f.bucket + leAt d 0 4) (leAt d 4 1) := by
  obtain ⟨t, hexec, hack⟩ := retry_acts h hkind
  have hnoted := s.noted_runMoved p f
  have hact : (s.noted p f).retryFrame p f.bucket d = (s.noted p f).modPitch p fun x => x.memberRetry f.bucket (leAt d 0 4) (leAt d 4 1) := by
    rw [State.retryFrame, hnoted.stepLo, if_pos hstep]
  rw [hact] at hack
  have hrun' : ((s.noted p f).pitch p).runOf f.bucket = some r := by rw [Pitch.runOf, s.noted_runs]; exact hrun
  have hoffset : r.offset ((s.noted p f).pitch p) f.bucket = r.offset (s.pitch p) f.bucket := by
    rw [BucketRun.offset, partFirst_congr hnoted.eff, BucketRun.offset]
  have hmember := Pitch.memberRetry_run hrun' hlr (leAt d 0 4) (leAt d 4 1)
  rw [hoffset] at hmember
  refine ⟨t, _, hexec, acceptedQuietly_of ?_ hack, ?_, ?_, rfl⟩
  · rw [(Pitch.memberRetry_spec _ f.bucket (leAt d 0 4) (leAt d 4 1)).2.1]
  · rw [hack.runs, State.pitch_modPitch, hmember]
    exact Pitch.mem_setRun (b := f.bucket) (hrun'.symm ▸ rfl : _ = some r) rfl
  · rw [hack.counter, State.pitch_modPitch, hmember]
    refine (Pitch.counter_count ((s.noted p f).pitch p) (c := .memberRetries) (by decide) (by decide) 1).trans ?_
    rw [State.noted_pitch]
    rfl

/-- A RETRY of a step that is over is counted. -/
theorem retry_stale (h : Fresh s rx p f d) (hkind : f.kind = .retry) (hover : (s.pitch p).stepUsable (leAt d 5 2) = false)
    (hstep : leAt d 5 2 ≠ (s.pitch p).stepLo.toNat) :
    ∃ t, exec (.retry rx) s = .next t ∧ AcceptedQuietly p f s t ∧
      (t.pitch p).counter .collStale = (s.pitch p).counter .collStale + 1 := by
  obtain ⟨t, hexec, hack⟩ := retry_acts h hkind
  have husable : ((s.noted p f).pitch p).stepUsable (leAt d 5 2) = false := by
    rw [State.noted_pitch]
    exact hover
  have hact : (s.noted p f).retryFrame p f.bucket d = (s.noted p f).modPitch p fun x => x.count .collStale := by
    rw [State.retryFrame, (s.noted_runMoved p f).stepLo, if_neg hstep, husable]
    rfl
  rw [hact] at hack
  refine ⟨t, hexec, acceptedQuietly_of ?_ hack, ?_⟩
  · rw [Pitch.count_rest]
  · rw [hack.counter, State.pitch_modPitch]
    refine (Pitch.counter_count ((s.noted p f).pitch p) (c := .collStale) (by decide) (by decide) 1).trans ?_
    rw [State.noted_pitch]
    rfl

end

/-! ## O43 -/

/-- Settles O43: a contribution is counted where it does not complete its block, a complete block that may have overflowed is asked for
again, and a RETRY is noted or counted as stale. -/
theorem contributionsAdd : Obligations.ContributionsAdd := by
  unfold Obligations.ContributionsAdd
  intro s rx p f d h
  refine ⟨fun hkind st hst hplace hsize => ⟨contribStream_adds h hkind hst hplace hsize, ?_⟩, fun hkind => ⟨?_, retry_stale h hkind⟩⟩
  · intro r codes nf hfull hrun hlr _ hagreed hscale hlast hover
    exact contribStream_asksAgain h hkind hst hplace hsize hfull hrun hlr hagreed hscale hlast hover
  · intro r hstep hrun hlr
    exact retry_noted h hkind hstep hrun hlr

end Sys2Proof.Machine
end

