-- ==== Sys2Proof/Proofs/PlacedBroadcasts.lean ====
section
/-! PROOF. Broadcast frames are placed over v, and factor sums reach the work region (06 R144; 08 R183; 10 R233). -/

namespace Sys2Proof.Machine

open Sys2Proof.Claims

/-! ## What follows from the effective configuration -/

section
variable {x y : Pitch} (h : RunMoved x y)
include h

theorem RunMoved.head (r : BucketRun) : r.head y = r.head x := by rw [BucketRun.head, h.bucketD, BucketRun.head]

theorem RunMoved.offset (r : BucketRun) (b : Nat) : r.offset y b = r.offset x b := by
  rw [BucketRun.offset, partFirst_congr h.eff, BucketRun.offset]

theorem RunMoved.factorWords (r : BucketRun) : r.factorWords y = r.factorWords x := by
  rw [BucketRun.factorWords, h.head, BucketRun.factorWords]

theorem RunMoved.factorBlocks (r : BucketRun) : r.factorBlocks y = r.factorBlocks x := by
  rw [BucketRun.factorBlocks, h.head, h.factorWords, BucketRun.factorBlocks]

end

/-! ## The action of an accepted frame -/

section
variable {s t u : State} {p : PitchId} {f : Frame} {rs : List (Nat × Nat)}

/-- What an accepted frame does within its pitch, it does beside its acknowledgement. -/
theorem Acknowledged.within (hack : Acknowledged p f.src u t) (hwork : Within p rs (s.noted p f) u) :
    Within p rs { s with netOut := t.netOut } t where
  rest := by rw [hack.rest, hwork.rest]; rfl
  others q hq := (hack.others q hq).trans ((hwork.others q hq).trans (State.pitch_modPitch_ne s p q _ hq))
  bytes a hqueue hranges := by
    have hmem : t.mem = u.mem := by rw [hack.rest]
    rw [State.byte, hmem]
    exact hwork.bytes a hqueue hranges

theorem Acknowledged.nonfinite (hack : Acknowledged p f.src u t) : (t.pitch p).guard.nonfinite = (u.pitch p).guard.nonfinite := by
  have hown := hack.own
  rw [ChannelsMoved] at hown
  rw [hown]

end

/-! ## Broadcast frames (06 R144) -/

/-- What a broadcast stream places over its block. -/
def streamPlaced (st : Stream) : Placed := ⟨st.scale, if st.scale = 0xFF then [] else fullCodes st⟩

theorem Pitch.placed_tx (x : Pitch) (r : BucketRun) (j : Nat) (q : Placed) : (x.placed r j q).tx = x.tx := by
  unfold Pitch.placed
  extract_lets y
  split <;> rfl

theorem Pitch.placed_nonfinite (x : Pitch) (r : BucketRun) (j : Nat) {q : Placed} (h : q.scale = 0xFF) :
    (x.placed r j q).guard.nonfinite = true := by
  unfold Pitch.placed
  rw [if_pos h]
  rfl

section
variable {s : State} {p : PitchId} {r : BucketRun} {b j : Nat} {q : Placed}
  (hfind : (s.pitch p).runs.find? (fun q => q.bucket = b) = some r)
include hfind

theorem State.place_tx : ((s.place p b j q).pitch p).tx = (s.pitch p).tx :=
  (congrArg Pitch.tx (State.place_stepPart hfind) : _).trans (Pitch.placed_tx _ r j q)

theorem State.place_erg : (s.place p b j q).erg = s.erg := by
  rw [State.place_eq hfind, State.guardProgress_erg]
  split <;> rfl

theorem State.place_nonfinite (h : q.scale = 0xFF) : ((s.place p b j q).pitch p).guard.nonfinite = true := by
  rw [State.place_eq hfind, State.guardProgress_nonfinite]
  have hplaced := Pitch.placed_nonfinite (s.pitch p) r j h
  split
  · exact (congrArg (fun x => x.guard.nonfinite) (s.pitch_setPitch p _)).trans hplaced
  · rw [State.pitch_setPitch]
    exact hplaced

/-- A block of a run that lies in the spill region is read back as it was placed. -/
theorem State.place_read (hhome : r.home = true) (hspill : hbmBase ≤ (s.pitch p).spillAddr p (j * bBlock (r.head (s.pitch p)))) :
    (s.place p b j q).read ((s.pitch p).spillAddr p (j * bBlock (r.head (s.pitch p))))
      (placedBytes (bBcast (r.head (s.pitch p))) (bBlock (r.head (s.pitch p))) (r.part (s.pitch p) j).2 q).length =
    placedBytes (bBcast (r.head (s.pitch p))) (bBlock (r.head (s.pitch p))) (r.part (s.pitch p) j).2 q := by
  rw [State.place_eq hfind, if_pos hhome]
  refine (State.read_congr fun i _ => ?_).trans (State.read_write (s.setPitch p ((s.pitch p).placed r j q)) _ _)
  exact (Within.guardProgress (rs := []) _).bytes _ (.inr (queue_below_hbm p (by omega))) (by simp)

end

section
variable {s : State} {rx : Rx} {p : PitchId} {f : Frame} {d : Bytes}

theorem State.noted_bcastStreams (s : State) (p : PitchId) (f : Frame) (b : Nat) (d : Bytes) :
    ((s.noted p f).pitch p).bcastStreams b d = (s.pitch p).bcastStreams b d := by
  rw [State.noted_pitch]
  rfl

theorem bcastStream_acts (h : Fresh s rx p f d) (hkind : f.kind = .bcast) :
    ∃ t, exec (.bcastStream rx) s = .next t ∧ Acknowledged p f.src ((s.noted p f).bcastFrame p f.bucket d) t := by
  obtain ⟨t, hrun, hack⟩ := fresh_receives h (fun p f d s => s.bcastFrame p f.bucket d)
  rw [hkind] at hrun
  have hexec : exec (.bcastStream rx) s = .next (s.receiveKind rx .bcast fun p f d s => s.bcastFrame p f.bucket d) :=
    live_next s (fun s => s.receiveKind rx .bcast fun p f d s => s.bcastFrame p f.bucket d) h.up
  exact ⟨t, hexec.trans (congrArg Host.Outcome.next hrun), hack⟩

/-- A broadcast frame of one stream places it over its block. -/
theorem State.bcastFrame_place {st : Stream} {r : BucketRun} {b : Nat} (hst : (s.pitch p).bcastStreams b d = some [st])
    (hrun : (s.pitch p).runOf b = some r) :
    s.bcastFrame p b d = s.place p r.bucket (r.offset (s.pitch p) b + st.index) (streamPlaced st) := by
  simp only [State.bcastFrame, hst, List.foldl_cons, List.foldl_nil, hrun]
  rfl

theorem bcastStream_places (h : Fresh s rx p f d) (hkind : f.kind = .bcast) {st : Stream} {r : BucketRun}
    (hst : (s.pitch p).bcastStreams f.bucket d = some [st]) (hrun : (s.pitch p).runOf f.bucket = some r)
    (hfind : (s.pitch p).runs.find? (fun q => q.bucket = r.bucket) = some r) :
    ∃ t, exec (.bcastStream rx) s = .next t ∧ Accepted p f s t ∧ t.erg = s.erg ∧
      { r with placed := r.placed ++ [(r.offset (s.pitch p) f.bucket + st.index, streamPlaced st)] } ∈ (t.pitch p).runs ∧
      (st.scale = 0xFF → (t.pitch p).guard.nonfinite = true) ∧
      Within p (spillRange (s.pitch p) p r (r.offset (s.pitch p) f.bucket + st.index) (streamPlaced st)) { s with netOut := t.netOut } t ∧
      (r.home = true → hbmBase ≤ (s.pitch p).spillAddr p ((r.offset (s.pitch p) f.bucket + st.index) * bBlock (r.head (s.pitch p))) →
        ∀ rg ∈ spillRange (s.pitch p) p r (r.offset (s.pitch p) f.bucket + st.index) (streamPlaced st),
          t.read rg.1 rg.2 = placedBytes (bBcast (r.head (s.pitch p))) (bBlock (r.head (s.pitch p)))
            (r.part (s.pitch p) (r.offset (s.pitch p) f.bucket + st.index)).2 (streamPlaced st)) := by
  obtain ⟨t, hexec, hack⟩ := bcastStream_acts h hkind
  have hnoted := s.noted_runMoved p f
  have hfind' : ((s.noted p f).pitch p).runs.find? (fun q => q.bucket = r.bucket) = some r := by rw [s.noted_runs]; exact hfind
  rw [State.bcastFrame_place (r := r) ((s.noted_bcastStreams p f f.bucket d).trans hst) (by rw [Pitch.runOf, s.noted_runs]; exact hrun),
    hnoted.offset] at hack
  generalize r.offset (s.pitch p) f.bucket + st.index = j at hack ⊢
  have hspill := spillRange_congr (p := p) (j := j) (q := streamPlaced st) hnoted (rfl : r.home = r.home) rfl rfl
  have hwithin := State.place_within (j := j) (q := streamPlaced st) hfind'
  rw [hspill] at hwithin
  refine ⟨t, hexec, accepted_of hwithin (congrArg (fun x => x.channels) (State.place_tx hfind')) hack, ?_, ?_, fun hscale => ?_, hack.within hwithin,
    fun hhome hbase rg hrg => ?_⟩
  · rw [hack.rest]
    exact State.place_erg hfind'
  · rw [hack.runs]
    exact (Pitch.find_bucket (State.place_find hfind')).2
  · rw [hack.nonfinite]
    exact State.place_nonfinite hfind' hscale
  · have hpart : r.part ((s.noted p f).pitch p) j = r.part (s.pitch p) j := by
      rw [BucketRun.part, partBlock_congr hnoted.eff, BucketRun.part]
    have haddr : ((s.noted p f).pitch p).spillAddr p = (s.pitch p).spillAddr p := by rw [State.noted_pitch]; rfl
    have hread := State.place_read (j := j) (q := streamPlaced st) hfind' hhome (by rw [haddr, hnoted.head]; exact hbase)
    rw [haddr, hnoted.head, hpart] at hread
    rw [spillRange, if_pos hhome, List.mem_singleton] at hrg
    rw [hrg]
    refine Eq.trans (State.read_congr fun i _ => ?_) hread
    rw [State.byte, State.byte, hack.mem]

end

/-! ## Factor sums (08 R183; 10 R233) -/

/-- The words that a factor block's sums come to. -/
def factorKept (x : Pitch) (r : BucketRun) (f scale : Nat) (sums : List Int) : List W32 :=
  (sums.take (min (bBlock (r.head x)) (r.factorWords x - f * bBlock (r.head x)))).map
    (fun q => (to32 (.fin (q < 0) q.natAbs ((scale : Int) - 127 + gridOff (bWire (r.head x))))).1)

/-- The LOWRANK state of a run once the sums of block f have arrived as these words. -/
def LrRun.arrive (l : LrRun) (f : Nat) (ws : List W32) : LrRun :=
  { l with arrived := l.arrived ++ [f], bad := l.bad || ws.any (fun w => !finite32 w) }

/-- It at the start of the next stage. -/
def LrRun.nextStage (l : LrRun) : LrRun :=
  { l with stage := l.stage + 1, tiles := 0, nf := false, agreed := none, quantNext := 0, attempts := [], retry := [], arrived := [] }

/-- Where a factor block's sums lie. -/
def factorAddr (x : Pitch) (r : BucketRun) (l : LrRun) (f : Nat) : Nat :=
  (if l.stage = 2 then lrPBase (r.head x) else lrQeBase (r.head x)) + 4 * f * bBlock (r.head x)

/-- The sums of a factor block have arrived. -/
def State.sumsArrived (s : State) (p : PitchId) (r : BucketRun) (l : LrRun) (f : Nat) (fl : BitVec 6) (ws : List W32) : State :=
  (s.setPitch p (((s.pitch p).raise fl).setRun { r with lr := some (l.arrive f ws) })).write (factorAddr (s.pitch p) r l f) (wordBytes ws)

section
variable {s : State} {p : PitchId} {b f scale : Nat} {sums : List Int} {r : BucketRun} {l : LrRun}
  (hrun : (s.pitch p).runOf b = some r) (hlr : r.lr = some l) (hstage : l.stage = 2 ∨ l.stage = 5) (hnew : f ∉ l.arrived)
  (hscale : scale ≠ 0xFF)
include hrun hlr hstage hnew hscale

/-- The last block of an exchange begins the next stage, unless the bucket is bad. -/
theorem State.factorArrive_eq : ∃ fl stopped, s.factorArrive p b f scale sums =
    if l.arrived.length + 1 = r.factorBlocks (s.pitch p) then
      if (l.arrive f (factorKept (s.pitch p) r f scale sums)).bad then stopped
      else ((s.sumsArrived p r l f fl (factorKept (s.pitch p) r f scale sums)).modPitch p
        (fun x => x.setRun { r with lr := some (l.arrive f (factorKept (s.pitch p) r f scale sums)).nextStage })).guardProgress p
    else s.sumsArrived p r l f fl (factorKept (s.pitch p) r f scale sums) := by
  have hacts : ¬ (((l.stage ≠ 2 && l.stage ≠ 5) || f ∈ l.arrived) = true) := by
    rcases hstage with h | h <;> simp [h, hnew]
  unfold State.factorArrive
  extract_lets x
  split
  next h => simp [x, hrun] at h
  next r' hrun' =>
    obtain rfl := Option.some.inj (hrun.symm.trans hrun')
    split
    next h => simp [hlr] at h
    next l' hlr' =>
      obtain rfl := Option.some.inj (hlr.symm.trans hlr')
      rw [if_neg hacts]
      extract_lets h n base vals keep fl bad arrived done l₁ s₁ s₂ next
      have hwords : keep.map Prod.fst = factorKept x r f scale sums := by
        rw [factorKept]
        simp only [keep, vals, List.map_take, List.map_map]
        rfl
      have hbad : bad = (l.bad || (factorKept x r f scale sums).any (fun w => !finite32 w)) := by
        rw [← hwords, List.any_map]
        simp only [bad, decide_eq_false hscale, Bool.or_false]
        rfl
      have hl : l₁ = l.arrive f (factorKept x r f scale sums) := by
        simp only [l₁, LrRun.arrive, hbad, arrived]
      have hs : s₂ = s.sumsArrived p r l f fl (factorKept x r f scale sums) := by
        simp only [s₂, s₁, if_neg hscale, hwords, hl]
        rfl
      have hdone : done ↔ l.arrived.length + 1 = r.factorBlocks x := by simp [done, arrived]
      refine ⟨fl, (s₂.modPitch p (fun x => match x.runOf b with | some r => x.lrStop r | none => x)).guardProgress p, ?_⟩
      rw [← hs, ← hl]
      by_cases hlast : l.arrived.length + 1 = r.factorBlocks x
      · rw [if_pos hlast, if_neg (by simp [hdone.mpr hlast])]
        rfl
      · rw [if_neg hlast, if_pos (by simp [mt hdone.mp hlast])]

end

section
variable {s : State} {p : PitchId} {r : BucketRun} {l : LrRun} {f : Nat} {fl : BitVec 6} {ws : List W32}

theorem State.sumsArrived_pitch : (s.sumsArrived p r l f fl ws).pitch p =
    ((s.pitch p).raise fl).setRun { r with lr := some (l.arrive f ws) } := s.pitch_setPitch p _

theorem State.sumsArrived_within : Within p [(factorAddr (s.pitch p) r l f, (wordBytes ws).length)] s (s.sumsArrived p r l f fl ws) :=
  (Within.setPitch s _).trans (Within.write _ (List.mem_singleton_self _) le_rfl)

/-- The run of the bucket once the sums have arrived. -/
theorem State.sumsArrived_find {b : Nat} (hfind : (s.pitch p).runs.find? (fun q => q.bucket = b) = some r) :
    ((s.sumsArrived p r l f fl ws).pitch p).runs.find? (fun q => q.bucket = b) = some { r with lr := some (l.arrive f ws) } := by
  rw [State.sumsArrived_pitch]
  exact Pitch.find_setRun (x := (s.pitch p).raise fl) hfind (Pitch.find_bucket hfind).1

end

/-! ## Factor frames (10 R233) -/

section
variable {s : State} {rx : Rx} {p : PitchId} {f : Frame} {d : Bytes} {r : BucketRun} {l : LrRun}

/-- The sums of a FACTOR_SUM frame. -/
def frameSums (d : Bytes) : List Int := (chunks 4 (d.drop 8)).map (fun c => ofTwos 32 (leNat c))

/-- A FACTOR_SUM frame of an exchange under way: its sums arrive, and the last ones begin the next stage. -/
theorem factorSum_acts (h : Fresh s rx p f d) (hkind : f.kind = .factorSum) (hrun : (s.pitch p).runOf f.bucket = some r)
    (hlr : r.lr = some l) (hstage : l.stage = 2 ∨ l.stage = 5) (hnew : leAt d 0 4 ∉ l.arrived) (hscale : leAt d 4 1 ≠ 0xFF) :
    ∃ t fl stopped ws, exec (.factorSum rx) s = .next t ∧ ws = factorKept (s.pitch p) r (leAt d 0 4) (leAt d 4 1) (frameSums d) ∧
      Acknowledged p f.src (if l.arrived.length + 1 = r.factorBlocks (s.pitch p) then
        if (l.arrive (leAt d 0 4) ws).bad then stopped
        else (((s.noted p f).sumsArrived p r l (leAt d 0 4) fl ws).modPitch p
          (fun x => x.setRun { r with lr := some (l.arrive (leAt d 0 4) ws).nextStage })).guardProgress p
        else (s.noted p f).sumsArrived p r l (leAt d 0 4) fl ws) t := by
  obtain ⟨t, hframe, hack⟩ := fresh_receives h (fun p f d s => s.factorFrameIn p f.bucket d)
  rw [hkind] at hframe
  have hexec : exec (.factorSum rx) s = .next (s.receiveKind rx .factorSum fun p f d s => s.factorFrameIn p f.bucket d) :=
    live_next s (fun s => s.receiveKind rx .factorSum fun p f d s => s.factorFrameIn p f.bucket d) h.up
  have hnoted := s.noted_runMoved p f
  obtain ⟨fl, stopped, heq⟩ := State.factorArrive_eq (s := s.noted p f) (p := p) (b := f.bucket) (sums := frameSums d)
    (by rw [Pitch.runOf, s.noted_runs]; exact hrun) hlr hstage hnew hscale
  have hkept : factorKept ((s.noted p f).pitch p) r (leAt d 0 4) (leAt d 4 1) (frameSums d) =
      factorKept (s.pitch p) r (leAt d 0 4) (leAt d 4 1) (frameSums d) := by
    rw [factorKept, hnoted.head, hnoted.factorWords, factorKept]
  rw [hkept, hnoted.factorBlocks] at heq
  refine ⟨t, fl, stopped, _, hexec.trans (congrArg Host.Outcome.next hframe), rfl, ?_⟩
  rw [← heq]
  exact hack

theorem factorAddr_noted (f : Frame) (n : Nat) : factorAddr ((s.noted p f).pitch p) r l n = factorAddr (s.pitch p) r l n := by
  rw [factorAddr, (s.noted_runMoved p f).head, factorAddr]

/-- The sums of a block that is not the exchange's last. -/
theorem factorSum_more (h : Fresh s rx p f d) (hkind : f.kind = .factorSum) (hrun : RunIs (s.pitch p) f.bucket r)
    (hlr : r.lr = some l) (hstage : l.stage = 2 ∨ l.stage = 5) (hnew : leAt d 0 4 ∉ l.arrived) (hscale : leAt d 4 1 ≠ 0xFF)
    (hmore : l.arrived.length + 1 < r.factorBlocks (s.pitch p)) :
    ∃ t r' l', exec (.factorSum rx) s = .next t ∧ Accepted p f s t ∧ r' ∈ (t.pitch p).runs ∧ r'.bucket = f.bucket ∧
      r'.lr = some l' ∧ l'.arrived = l.arrived ++ [leAt d 0 4] ∧ l'.stage = l.stage ∧
      t = { s with pitches := t.pitches, mem := t.mem, netOut := t.netOut } ∧
      t.mem = (s.write (factorAddr (s.pitch p) r l (leAt d 0 4))
        (wordBytes (factorKept (s.pitch p) r (leAt d 0 4) (leAt d 4 1) (frameSums d)))).mem := by
  obtain ⟨hfind, hrunOf⟩ := hrun
  obtain ⟨t, fl, stopped, ws, hexec, rfl, hack⟩ := factorSum_acts h hkind hrunOf hlr hstage hnew hscale
  rw [if_neg hmore.ne] at hack
  have hfound := State.sumsArrived_find (s := s.noted p f) (l := l) (f := leAt d 0 4) (fl := fl)
    (ws := factorKept (s.pitch p) r (leAt d 0 4) (leAt d 4 1) (frameSums d)) (by rw [s.noted_runs]; exact hfind)
  obtain ⟨hbucket, hmem⟩ := Pitch.find_bucket hfound
  refine ⟨t, _, l.arrive (leAt d 0 4) _, hexec, accepted_of State.sumsArrived_within ?_ hack, ?_, hbucket, rfl, rfl, rfl, ?_, ?_⟩
  · rw [State.sumsArrived_pitch]
    rfl
  · rw [hack.runs]
    exact hmem
  · rw [hack.rest]
    rfl
  · rw [hack.mem, State.sumsArrived, factorAddr_noted]
    rfl

/-- The exchange's last block begins the next stage where nothing was bad. -/
theorem factorSum_last (h : Fresh s rx p f d) (hkind : f.kind = .factorSum) (hrun : RunIs (s.pitch p) f.bucket r)
    (hlr : r.lr = some l) (hstage : l.stage = 2 ∨ l.stage = 5) (hnew : leAt d 0 4 ∉ l.arrived) (hscale : leAt d 4 1 ≠ 0xFF)
    (hlast : l.arrived.length + 1 = r.factorBlocks (s.pitch p)) (hgood : l.bad = false)
    (hfinite : ∀ w ∈ factorKept (s.pitch p) r (leAt d 0 4) (leAt d 4 1) (frameSums d), finite32 w = true) :
    ∃ t, exec (.factorSum rx) s = .next t ∧ Accepted p f s t ∧ StageIs (t.pitch p) f.bucket (l.stage + 1) := by
  obtain ⟨hfind, hrunOf⟩ := hrun
  obtain ⟨t, fl, stopped, ws, hexec, hws, hack⟩ := factorSum_acts h hkind hrunOf hlr hstage hnew hscale
  rw [← hws] at hfinite
  have hfine : ¬ (l.arrive (leAt d 0 4) ws).bad = true := by
    simp only [LrRun.arrive, hgood, Bool.false_or, List.any_eq_true, not_exists, not_and]
    intro w hw
    simp [hfinite w hw]
  rw [if_pos hlast, if_neg hfine] at hack
  have hfound := State.sumsArrived_find (s := s.noted p f) (l := l) (f := leAt d 0 4) (fl := fl) (ws := ws)
    (by rw [s.noted_runs]; exact hfind)
  obtain ⟨hbucket, -⟩ := Pitch.find_bucket hfound
  have hnext := Pitch.find_setRun (r' := { r with lr := some (l.arrive (leAt d 0 4) ws).nextStage }) hfound hbucket
  have hwithin := (State.sumsArrived_within (s := s.noted p f) (p := p) (r := r) (l := l) (f := leAt d 0 4) (fl := fl) (ws := ws)).trans
    ((Within.modPitch _ (fun x => x.setRun { r with lr := some (l.arrive (leAt d 0 4) ws).nextStage })).trans (Within.guardProgress _))
  refine ⟨t, hexec, accepted_of hwithin ?_ hack, { r with lr := some (l.arrive (leAt d 0 4) ws).nextStage }, ?_, hbucket, _, rfl, rfl⟩
  · rw [State.guardProgress_tx, State.pitch_modPitch, State.sumsArrived_pitch]
    rfl
  · rw [hack.runs, State.guardProgress_runs, State.pitch_modPitch]
    exact (Pitch.find_bucket hnext).2

end

/-! ## O44 -/

/-- Settles O44: a broadcast frame places its stream, and a FACTOR_SUM frame its sums. -/
theorem broadcastsArePlaced : Obligations.BroadcastsArePlaced := by
  unfold Obligations.BroadcastsArePlaced
  intro s rx p f d h
  refine ⟨fun hkind st r a bs hst hrun hfind ha hbs => ?_, fun hkind r l sums base keep hrun hlr hstage hnew hscale hsums hbase hkeep => ?_⟩
  · obtain ⟨t, hexec, haccepted, herg, hmem, hnonfinite, hwithin, hread⟩ := bcastStream_places h hkind hst hrun hfind
    have hrange : spillRange (s.pitch p) p r (r.offset (s.pitch p) f.bucket + st.index) (streamPlaced st) =
        if r.home then [(a, bs.length)] else [] := by
      rw [ha, hbs]
      rfl
    rw [hrange] at hwithin hread
    refine ⟨t, _, hexec, haccepted, herg, hmem, rfl, hnonfinite, hwithin, fun hhome hhbm => ?_⟩
    rw [if_pos hhome, ← ha] at hread
    exact (hread hhome hhbm _ (List.mem_singleton_self _)).trans hbs.symm
  · have hkept : keep = factorKept (s.pitch p) r (leAt d 0 4) (leAt d 4 1) (frameSums d) := by
      rw [hkeep, hsums]
      rfl
    have haddr : base + 4 * leAt d 0 4 * bBlock (r.head (s.pitch p)) = factorAddr (s.pitch p) r l (leAt d 0 4) := by
      rw [hbase]
      rfl
    rw [hkept, haddr]
    exact ⟨factorSum_more h hkind hrun hlr hstage hnew hscale, factorSum_last h hkind hrun hlr hstage hnew hscale⟩

end Sys2Proof.Machine
end

