-- ==== Sys2Proof/Proofs/Completions.lean ====
section
/-! PROOF. A completion that is written at once (17 R370, R371). -/

namespace Sys2Proof.Machine

open Sys2Proof.Claims

/-! ## What a completion takes from its pitch -/

section
variable {x y : Pitch} (heff : y.eff = x.eff)
include heff

theorem Pitch.queueRec_congr (q : Nat) : y.queueRec q = x.queueRec q := by rw [Pitch.queueRec, heff, Pitch.queueRec]

theorem Pitch.ring_congr (q : Nat) : y.ring q = x.ring q := by
  simp only [Pitch.ring, Pitch.queueRec_congr heff]

theorem Pitch.entryAddr_congr (p : PitchId) (q : Nat) : y.entryAddr p q = x.entryAddr p q := by
  funext k
  rw [Pitch.entryAddr, Pitch.ring_congr heff, Pitch.entryAddr]

theorem Pitch.hasRoom_congr {q : Nat} (hptr : y.qptr q = x.qptr q) : y.hasRoom q = x.hasRoom q := by
  simp only [Pitch.hasRoom, Pitch.ring_congr heff, hptr]

theorem cplRoom_congr {wq : Nat} (hptr : y.qptr (qCq (x.queueRec wq)) = x.qptr (qCq (x.queueRec wq)))
    (hheld : y.queues.held = x.queues.held) (h : CplRoom x wq) : CplRoom y wq := by
  rw [CplRoom, Pitch.queueRec_congr heff, Pitch.hasRoom_congr heff hptr, hheld]
  exact h

end

/-- A completion written from a later state counts from an earlier one with the same memory, configuration and step. -/
theorem cplWritten_congr {p : PitchId} {kind status wq detail : Nat} {head : W16} {cookie : W64} {s u t : State}
    (heff : (u.pitch p).eff = (s.pitch p).eff)
    (hptr : (u.pitch p).qptr (qCq ((s.pitch p).queueRec wq)) = (s.pitch p).qptr (qCq ((s.pitch p).queueRec wq)))
    (hstep : (u.pitch p).time = (s.pitch p).time) (hmem : u.mem = s.mem)
    (h : CplWritten p kind status wq head detail cookie u t) : CplWritten p kind status wq head detail cookie s t := by
  obtain ⟨a, r, haddr, hring, htail, hread, hout⟩ := h
  rw [Pitch.queueRec_congr heff] at haddr hring htail hread
  rw [Pitch.entryAddr_congr heff, hptr] at haddr
  rw [Pitch.ring_congr heff] at hring
  rw [hptr] at htail hread
  rw [hstep] at hread
  refine ⟨a, r, haddr, hring, htail, hread, fun b hb => (hout b hb).trans ?_⟩
  rw [State.byte, hmem, State.byte]

/-! ## The entry -/

/-- A completion entry with PHASE and STEP. -/
def cplEntry (kind status wq : Nat) (head : W16) (detail : Nat) (cookie : W64) (phase : Bool) (step : Nat) : Bytes :=
  [BitVec.ofNat 8 kind, BitVec.ofNat 8 (bit phase)] ++ leBytes 2 status ++ leBytes 2 wq ++ leBytes 2 head.toNat ++ leBytes 4 detail ++
    leBytes 4 0 ++ leBytes 8 step ++ List.replicate 32 0 ++ leBytes 8 cookie.toNat

theorem length_cplEntry (kind status wq : Nat) (head : W16) (detail : Nat) (cookie : W64) (phase : Bool) (step : Nat) :
    (cplEntry kind status wq head detail cookie phase step).length = 64 := by
  simp [cplEntry, length_leBytes]

/-- PHASE and STEP are filled in as the entry is written. -/
theorem cplEntry_eq (kind status wq : Nat) (head : W16) (detail : Nat) (cookie : W64) (phase : Bool) (step : Nat) :
    [(completionBytes kind status wq head detail cookie).headD 0, BitVec.ofNat 8 (bit phase)] ++
      cut (completionBytes kind status wq head detail cookie) 2 14 ++ leBytes 8 step ++
      (completionBytes kind status wq head detail cookie).drop 24 = cplEntry kind status wq head detail cookie phase step := by
  simp [completionBytes, cplEntry, cut, leBytes]

section
variable {s : State} {p : PitchId} {q : Nat}

/-- An entry at the tail of a ring, and what tells the host of it. -/
theorem State.putEntry_spec {r : Nat × Nat × Nat} {a : Nat} (hring : (s.pitch p).ring q = some r)
    (haddr : (s.pitch p).entryAddr p q ((s.pitch p).qptr q).tail = some a) (mk : Bool → Bytes) :
    ∃ out ports, s.putEntry p q mk =
      { (s.write a (mk (phaseOf r.2.1 ((s.pitch p).qptr q).tail))).setPitch p
          ((s.pitch p).setQptr q { (s.pitch p).qptr q with tail := ((s.pitch p).qptr q).tail + 1 }) with
        hostOut := out, hostPorts := ports } := by
  unfold State.putEntry
  simp only [hring, haddr]
  split
  · exact ⟨_, _, (State.sendBound_told _ p _).1⟩
  · exact ⟨_, _, rfl⟩

/-- A completion whose queue has room is written at once. -/
theorem State.complete_spec {wq : Nat} (hroom : CplRoom (s.pitch p) wq) (kind status : Nat) (head : W16) (detail : Nat) (cookie : W64) :
    ∃ out ports a r, (s.pitch p).ring (qCq ((s.pitch p).queueRec wq)) = some r ∧
      (s.pitch p).entryAddr p (qCq ((s.pitch p).queueRec wq)) ((s.pitch p).qptr (qCq ((s.pitch p).queueRec wq))).tail = some a ∧
      s.complete p kind status wq head detail cookie =
      { (s.write a (cplEntry kind status wq head detail cookie
          (phaseOf r.2.1 ((s.pitch p).qptr (qCq ((s.pitch p).queueRec wq))).tail) (s.pitch p).time.step.toNat)).setPitch p
          ((s.pitch p).setQptr (qCq ((s.pitch p).queueRec wq)) { (s.pitch p).qptr (qCq ((s.pitch p).queueRec wq)) with
            tail := ((s.pitch p).qptr (qCq ((s.pitch p).queueRec wq))).tail + 1 }) with
        hostOut := out, hostPorts := ports } := by
  obtain ⟨hspace, hheld, -⟩ := hroom
  have hwrite : ((s.pitch p).hasRoom (qCq ((s.pitch p).queueRec wq)) &&
      !((s.pitch p).queues.held.any fun h => decide (h.1 = qCq ((s.pitch p).queueRec wq)))) = true := by
    rw [hspace, Bool.true_and, Bool.not_eq_true', List.any_eq_false]
    intro h hmem
    simp [hheld h hmem]
  obtain ⟨r, hring⟩ : ∃ r, (s.pitch p).ring (qCq ((s.pitch p).queueRec wq)) = some r := by
    cases hring : (s.pitch p).ring (qCq ((s.pitch p).queueRec wq)) with
    | none => simp [Pitch.hasRoom, hring] at hspace
    | some r => exact ⟨r, rfl⟩
  have haddr : (s.pitch p).entryAddr p (qCq ((s.pitch p).queueRec wq)) ((s.pitch p).qptr (qCq ((s.pitch p).queueRec wq))).tail =
      some (queueBase p.val + r.1 + r.2.2 * (((s.pitch p).qptr (qCq ((s.pitch p).queueRec wq))).tail.toNat % r.2.1)) := by
    rw [Pitch.entryAddr, hring]
    rfl
  unfold State.complete
  extract_lets x cq e
  rw [if_pos hwrite]
  obtain ⟨out, ports, hput⟩ := State.putEntry_spec hring haddr (fun ph =>
    [e.headD 0, BitVec.ofNat 8 (bit ph)] ++ cut e 2 14 ++ leBytes 8 (s.pitch p).time.step.toNat ++ e.drop 24)
  refine ⟨out, ports, _, r, hring, haddr, ?_⟩
  rw [State.writeCpl, hput, cplEntry_eq]

/-- What a completion that is written at once changes: its entry, the tail of its queue, and what tells the host. -/
theorem State.complete_writes {wq : Nat} (hroom : CplRoom (s.pitch p) wq) (kind status : Nat) (head : W16) (detail : Nat) (cookie : W64) :
    CplWritten p kind status wq head detail cookie s (s.complete p kind status wq head detail cookie) ∧
    (∀ r, r ≠ p → (s.complete p kind status wq head detail cookie).pitch r = s.pitch r) ∧
    ∃ v, (s.complete p kind status wq head detail cookie).pitch p = (s.pitch p).setQptr (qCq ((s.pitch p).queueRec wq)) v := by
  obtain ⟨out, ports, a, r, hring, haddr, heq⟩ := State.complete_spec hroom kind status head detail cookie
  have hpitch : (s.complete p kind status wq head detail cookie).pitch p = _ :=
    (congrArg (fun t : State => t.pitch p) heq).trans (State.pitch_setPitch _ p _)
  have hmem : (s.complete p kind status wq head detail cookie).mem = _ := congrArg State.mem heq
  have hlen := length_cplEntry kind status wq head detail cookie
    (phaseOf r.2.1 ((s.pitch p).qptr (qCq ((s.pitch p).queueRec wq))).tail) (s.pitch p).time.step.toNat
  refine ⟨⟨a, r, haddr, hring, ?_, ?_, fun b hb => ?_⟩, fun q hq => ?_, _, hpitch⟩
  · rw [hpitch, Pitch.qptr_setQptr]
  · have hback := s.read_write a (cplEntry kind status wq head detail cookie
      (phaseOf r.2.1 ((s.pitch p).qptr (qCq ((s.pitch p).queueRec wq))).tail) (s.pitch p).time.step.toNat)
    rw [hlen] at hback
    refine Eq.trans (State.read_congr fun i _ => ?_) hback
    rw [State.byte, hmem]
    rfl
  · rw [State.byte, hmem]
    exact State.byte_write_out s a b _ (by rw [hlen]; exact hb)
  · rw [heq]
    exact State.pitch_setPitch_ne _ p q _ hq

end

end Sys2Proof.Machine
end

