-- ==== Sys2Proof/Proofs/TakenDescriptors.lean ====
section
/-! PROOF. A descriptor leaves its queue and is acted on, or waits for its host bytes (17 R356, R365, R366, R368). -/

namespace Sys2Proof.Machine

open Sys2Proof.Claims

/-! ## The descriptor leaves its queue -/

/-- The descriptor at the head of queue q has left it. -/
def State.popped (s : State) (p : PitchId) (q : Nat) : State := s.modPitch p (fun x => x.popDesc q)

/-- It has left it, and the host bytes asked for it are no longer needed. -/
def State.begun (s : State) (p : PitchId) (q : Nat) : State := (s.popped p q).modPitch p (fun x => x.dropJob (s.pitch p).descKey)

/-- The descriptor that has left queue q. -/
def poppedJob (s : State) (p : PitchId) (q : Nat) (d : Bytes) : DescJob := ⟨(s.pitch p).descKey, q, headAfter s p q, d⟩

section
variable {s t : State} {p : PitchId} {q : Nat} {d : Bytes}

theorem State.popped_pitch (s : State) (p : PitchId) (q : Nat) : (s.popped p q).pitch p = (s.pitch p).popDesc q := State.pitch_modPitch _ _ _

theorem State.begun_pitch (s : State) (p : PitchId) (q : Nat) :
    (s.begun p q).pitch p = ((s.pitch p).popDesc q).dropJob (s.pitch p).descKey := by
  rw [State.begun, State.pitch_modPitch, State.popped_pitch]

theorem Pitch.popDesc_rest (x : Pitch) (q : Nat) : ∃ qs, x.popDesc q = { x with queues := qs, nextJob := x.nextJob + 1 } := by
  generalize hv : ({ x.qptr q with head := (x.qptr q).head + 1 } : QPtr) = v
  unfold Pitch.popDesc
  rw [hv]
  exact ⟨_, rfl⟩

/-- Beside the queues and the number of the next job the pitch is as before. -/
theorem State.begun_rest (s : State) (p : PitchId) (q : Nat) :
    ∃ qs, (s.begun p q).pitch p = { s.pitch p with queues := qs, nextJob := (s.pitch p).nextJob + 1 } := by
  obtain ⟨qs, hpop⟩ := (s.pitch p).popDesc_rest q
  rw [State.begun_pitch, hpop]
  exact ⟨_, rfl⟩

theorem State.begun_others {r : PitchId} (hr : r ≠ p) : (s.begun p q).pitch r = s.pitch r :=
  (State.pitch_modPitch_ne _ p r _ hr).trans (State.pitch_modPitch_ne s p r _ hr)

theorem Pitch.qptr_congr {x y : Pitch} (h : y.queues.ptrs = x.queues.ptrs) (c : Nat) : y.qptr c = x.qptr c := by
  rw [Pitch.qptr, h, Pitch.qptr]

/-- Of the pointers only the head of the descriptor's queue moved. -/
theorem Pitch.ptrs_popDesc (x : Pitch) (q : Nat) : (x.popDesc q).queues.ptrs =
    (x.setQptr q { x.qptr q with head := (x.qptr q).head + 1 }).queues.ptrs := rfl

theorem Pitch.ptrs_dropJob (x : Pitch) (key : Nat) : (x.dropJob key).queues.ptrs = x.queues.ptrs := rfl

theorem Pitch.qptr_begun (x : Pitch) (q key c : Nat) : ((x.popDesc q).dropJob key).qptr c =
    (x.setQptr q { x.qptr q with head := (x.qptr q).head + 1 }).qptr c :=
  Pitch.qptr_congr ((Pitch.ptrs_dropJob _ key).trans (Pitch.ptrs_popDesc x q)) c

theorem State.begun_qptr (s : State) (p : PitchId) (q : Nat) : ((s.begun p q).pitch p).qptr q = { (s.pitch p).qptr q with head := headAfter s p q } := by
  rw [State.begun_pitch, Pitch.qptr_begun, Pitch.qptr_setQptr]
  rfl

theorem State.begun_qptr_ne (s : State) (p : PitchId) {q c : Nat} (h : c ≠ q) : ((s.begun p q).pitch p).qptr c = (s.pitch p).qptr c := by
  rw [State.begun_pitch, Pitch.qptr_begun, Pitch.qptr_setQptr_ne _ _ _ _ h]

/-- A pitch with the same queues as when the work on the descriptor began leaves it taken. -/
theorem descTaken_of (hqueues : (t.pitch p).queues = ((s.begun p q).pitch p).queues) (hothers : ∀ r, r ≠ p → t.pitch r = s.pitch r) :
    DescTaken p q s t := by
  refine ⟨?_, hothers⟩
  have hptr := s.begun_qptr p q
  rw [Pitch.qptr] at hptr ⊢
  rw [hqueues, hptr]

/-- A descriptor whose tests it passes is worked on. -/
theorem descriptor_runs (h : DescAt s p q d) {mine : Bytes → Bool} (hmine : mine d = true) {check : Bytes → Check} (hcheck : check d = none)
    (work : DescWork) : s.descriptor p q mine check work = (s.popped p q).runDesc p work (poppedJob s p q d) := by
  have hturn : (mine d && !(s.pitch p).descStalled d && decide (s.turn p = some q)) = true := by simp [hmine, h.steady, h.turn]
  unfold State.descriptor
  simp only [h.head, if_pos hturn, hcheck]
  rfl

/-- Work that is done at once is done once the descriptor has left its queue. -/
theorem State.runDesc_take {work : DescWork} {f : State → State} (hwork : work (poppedJob s p q d) (s.popped p q) = .take f) :
    (s.popped p q).runDesc p work (poppedJob s p q d) = f (s.begun p q) := by
  rw [State.runDesc, hwork]
  rfl

/-- A completion of queue q written once the work on its descriptor has begun. -/
theorem State.begun_completes {u : State} (hroom : CplRoom (s.pitch p) q) (hmem : u.mem = s.mem)
    (heff : (u.pitch p).eff = (s.pitch p).eff) (htime : (u.pitch p).time = (s.pitch p).time)
    (hqueues : (u.pitch p).queues = ((s.begun p q).pitch p).queues) (hothers : ∀ r, r ≠ p → u.pitch r = s.pitch r)
    (kind status : Nat) (head : W16) (detail : Nat) (cookie : W64) :
    DescTaken p q s (u.complete p kind status q head detail cookie) ∧
    CplWritten p kind status q head detail cookie s (u.complete p kind status q head detail cookie) ∧
    ∃ c v, (u.complete p kind status q head detail cookie).pitch p = (u.pitch p).setQptr c v := by
  have hqptr (c : Nat) : (u.pitch p).qptr c = ((s.begun p q).pitch p).qptr c := by rw [Pitch.qptr, hqueues, Pitch.qptr]
  have hptr : (u.pitch p).qptr (qCq ((s.pitch p).queueRec q)) = (s.pitch p).qptr (qCq ((s.pitch p).queueRec q)) :=
    (hqptr _).trans (s.begun_qptr_ne p hroom.2.2)
  have hheld : (u.pitch p).queues.held = (s.pitch p).queues.held := by
    rw [hqueues, State.begun_pitch]
    rfl
  obtain ⟨hwritten, hbeside, v, hpitch⟩ := State.complete_writes (cplRoom_congr heff hptr hheld hroom) kind status head detail cookie
  refine ⟨⟨?_, fun r hr => (hbeside r hr).trans (hothers r hr)⟩, cplWritten_congr heff hptr htime hmem hwritten, _, v, hpitch⟩
  rw [hpitch, Pitch.qptr_setQptr_ne _ _ _ _ (by rw [Pitch.queueRec_congr heff]; exact hroom.2.2.symm), hqptr, State.begun_qptr]

end

/-! ## Its host bytes (17 R365, R368) -/

/-- The ranges of host memory that have not come under a key. -/
def missingRanges (x : Pitch) (key : Nat) (rs : List (Nat × Nat)) : List (Nat × Nat) :=
  rs.filter (fun r => !isEngine r.1 && !(List.range r.2).all (fun i => (sfind (x.descBytes key) (r.1 + i)).isSome))

/-- The bytes of a range of a descriptor. -/
def State.rangeBytes (s : State) (p : PitchId) (key : Nat) (r : Nat × Nat) : Bytes :=
  if isEngine r.1 then s.read (engineAddr r.1) r.2 else (List.range r.2).map (fun i => sget ((s.pitch p).descBytes key) (r.1 + i) 0)

section
variable {s t u : State} {p : PitchId} {q key : Nat} {rs : List (Nat × Nat)}

theorem State.descFetch_eq (s : State) (p : PitchId) (q key : Nat) (rs : List (Nat × Nat)) : s.descFetch p q key rs =
    if key ∈ (s.pitch p).queues.fetchBad then .failed
    else if (missingRanges (s.pitch p) key rs).isEmpty then .ready (rs.map (s.rangeBytes p key))
    else if s.dma.any (fun d => d.use = .descriptor p key) then .wait s
    else .wait ((missingRanges (s.pitch p) key rs).foldl
      (fun s r => s.askHost (s.fetchPort p q) (BitVec.ofNat 64 r.1) r.2 (.descriptor p key)) s) := rfl

theorem State.length_rangeBytes (s : State) (p : PitchId) (key : Nat) (r : Nat × Nat) : (s.rangeBytes p key r).length = r.2 := by
  rw [State.rangeBytes]
  split
  · exact s.length_read _ _
  · simp

/-- Bytes that are there are those of the ranges in order. -/
theorem State.descFetch_ready {parts : List Bytes} (h : s.descFetch p q key rs = .ready parts) :
    key ∉ (s.pitch p).queues.fetchBad ∧ (missingRanges (s.pitch p) key rs).isEmpty = true ∧ parts = rs.map (s.rangeBytes p key) := by
  rw [State.descFetch_eq] at h
  split at h
  · cases h
  next hgood =>
    split at h
    next hall => exact ⟨hgood, hall, (DescFetch.ready.inj h).symm⟩
    · split at h <;> cases h

/-- Bytes that are there stay there while the descriptor leaves its queue. -/
theorem State.popped_ready {parts : List Bytes} (h : s.descFetch p q key rs = .ready parts) (c : Nat) :
    (s.popped p c).descFetch p q key rs = .ready parts := by
  obtain ⟨hgood, hall, hparts⟩ := State.descFetch_ready h
  have hfetched (k : Nat) : ((s.popped p c).pitch p).descBytes k = (s.pitch p).descBytes k := by rw [State.popped_pitch]; rfl
  have hmissing : missingRanges ((s.popped p c).pitch p) key rs = missingRanges (s.pitch p) key rs := by
    simp only [missingRanges, hfetched]
  have hbytes : (s.popped p c).rangeBytes p key = s.rangeBytes p key := by
    funext r
    rw [State.rangeBytes, hfetched, State.rangeBytes]
    rfl
  have hgood' : key ∉ ((s.popped p c).pitch p).queues.fetchBad := by rw [State.popped_pitch]; exact hgood
  rw [State.descFetch_eq, if_neg hgood', hmissing, if_pos hall, hbytes, hparts]

end

/-! ## Reads asked of the hosts (17 R356) -/

/-- From s to t n bytes were asked of the hosts for such uses. -/
structure Asked (use : DmaUse → Prop) (n : Nat) (s t : State) : Prop where
  rest : t = { s with dma := t.dma, dmaTag := t.dmaTag, hostOut := t.hostOut, hostPorts := t.hostPorts }
  told : s.hostOut <+: t.hostOut
  reads : ∃ rs : List DmaReq, t.dma = s.dma ++ rs ∧ sumOf (rs.map DmaReq.len) = n ∧ ∀ r ∈ rs, use r.use

theorem sumOf_append (as bs : List Nat) : sumOf (as ++ bs) = sumOf as + sumOf bs := by
  simp only [sumOf, ← List.sum_eq_foldl, List.sum_append]

theorem sumOf_cons (a : Nat) (as : List Nat) : sumOf (a :: as) = a + sumOf as := by
  simp only [sumOf, ← List.sum_eq_foldl, List.sum_cons]

section
variable {use use' : DmaUse → Prop} {n m : Nat} {s t u : State}

theorem Asked.refl : Asked use 0 s s := ⟨rfl, List.prefix_refl _, [], (List.append_nil _).symm, rfl, by simp⟩

theorem Asked.mono (h : Asked use n s t) (huse : ∀ a, use a → use' a) : Asked use' n s t where
  rest := h.rest
  told := h.told
  reads := by
    obtain ⟨rs, hdma, hsum, hall⟩ := h.reads
    exact ⟨rs, hdma, hsum, fun r hr => huse _ (hall r hr)⟩

/-- Reads one after another. -/
theorem Asked.trans (h : Asked use n s t) (k : Asked use m t u) : Asked use (n + m) s u where
  rest := by rw [k.rest, h.rest]
  told := h.told.trans k.told
  reads := by
    obtain ⟨rs, hdma, hsum, huse⟩ := h.reads
    obtain ⟨rs', hdma', hsum', huse'⟩ := k.reads
    refine ⟨rs ++ rs', by rw [hdma', hdma, List.append_assoc], ?_, fun r hr => ?_⟩
    · rw [List.map_append, sumOf_append, hsum, hsum']
    · rcases List.mem_append.mp hr with hr | hr
      · exact huse r hr
      · exact huse' r hr

theorem Asked.pitch (h : Asked use n s t) (r : PitchId) : t.pitch r = s.pitch r := by
  rw [h.rest]
  rfl

/-- What was asked for follows what was asked for before. -/
theorem Asked.sum (h : Asked use n s t) : s.dma <+: t.dma ∧ sumOf ((t.dma.drop s.dma.length).map DmaReq.len) = n := by
  obtain ⟨rs, hdma, hsum, -⟩ := h.reads
  rw [hdma, List.drop_left]
  exact ⟨List.prefix_append _ _, hsum⟩

/-- Piece k of a read of n bytes. -/
def State.askPiece (s : State) (h : HostPort) (a : W64) (n : Nat) (use : DmaUse) (k : Nat) : State :=
  let len := min 4096 (n - 4096 * k)
  let at' : W64 := a + BitVec.ofNat 64 (4096 * k)
  let s := { s with dma := s.dma ++ [DmaReq.mk h s.dmaTag at' len (4096 * k) use], dmaTag := s.dmaTag + 1 }
  s.sendHost h (.dmaRd len (s.dmaTag - 1) at')

theorem State.askHost_eq (s : State) (h : HostPort) (a : W64) (n : Nat) (use : DmaUse) :
    s.askHost h a n use = (List.range (divUp n 4096)).foldl (fun s k => s.askPiece h a n use k) s := rfl

theorem Asked.askPiece (s : State) (h : HostPort) (a : W64) (n : Nat) (use : DmaUse) (k : Nat) :
    Asked (· = use) (min 4096 (n - 4096 * k)) s (s.askPiece h a n use k) := by
  unfold State.askPiece
  extract_lets len at' u
  obtain ⟨hrest, hout, -⟩ := u.sendHost_told h (.dmaRd len (u.dmaTag - 1) at')
  refine ⟨?_, ?_, [DmaReq.mk h s.dmaTag at' len (4096 * k) use], by rw [State.sendHost_dma], by simp [sumOf, len], by simp⟩
  · rw [hrest]
  · rw [hout]
    exact List.prefix_append _ _

theorem Asked.askPieces (s : State) (h : HostPort) (a : W64) (n : Nat) (use : DmaUse) (m : Nat) :
    Asked (· = use) (min n (4096 * m)) s ((List.range m).foldl (fun s k => s.askPiece h a n use k) s) := by
  induction m with
  | zero => simpa using Asked.refl
  | succ m ih =>
    have hnext := ih.trans (Asked.askPiece _ h a n use m)
    have hsum : min n (4096 * m) + min 4096 (n - 4096 * m) = min n (4096 * (m + 1)) := by omega
    rw [hsum] at hnext
    rw [List.range_succ, List.foldl_append]
    exact hnext

/-- The reads for n bytes ask for n bytes. -/
theorem Asked.askHost (s : State) (h : HostPort) (a : W64) (n : Nat) (use : DmaUse) : Asked (· = use) n s (s.askHost h a n use) := by
  have hall : min n (4096 * divUp n 4096) = n := by
    simp only [divUp]
    omega
  have hasked := Asked.askPieces s h a n use (divUp n 4096)
  rwa [hall] at hasked

end

/-! ## A descriptor that waits (17 R368; notes/assumptions 35) -/

section
variable {s : State} {p : PitchId} {q key : Nat} {rs : List (Nat × Nat)} {d : Bytes}

/-- Ranges asked for one after another. -/
theorem Asked.ranges (q : Nat) (rs : List (Nat × Nat)) (s : State) : Asked (· = .descriptor p key) (sumOf (rs.map Prod.snd)) s
    (rs.foldl (fun s r => s.askHost (s.fetchPort p q) (BitVec.ofNat 64 r.1) r.2 (.descriptor p key)) s) := by
  induction rs generalizing s with
  | nil => exact Asked.refl
  | cons r rs ih =>
    rw [List.map_cons, sumOf_cons]
    exact (Asked.askHost s _ _ r.2 _).trans (ih _)

/-- A range that has not come has bytes. -/
theorem missing_pos {x : Pitch} {r : Nat × Nat} (h : r ∈ missingRanges x key rs) : 0 < r.2 := by
  rw [missingRanges, List.mem_filter] at h
  rcases Nat.eq_zero_or_pos r.2 with h0 | h0
  · simp [h0] at h
  · exact h0

/-- Bytes that have not come are asked for as the descriptor leaves its queue. -/
theorem State.popped_waits (hwait : ∃ u, s.descFetch p q key rs = .wait u) (hnone : ∀ r ∈ s.dma, r.use ≠ .descriptor p key) (c : Nat) :
    ∃ t n, (s.popped p c).descFetch p q key rs = .wait t ∧ 0 < n ∧ Asked (· = .descriptor p key) n (s.popped p c) t := by
  obtain ⟨u, hwait⟩ := hwait
  rw [State.descFetch_eq] at hwait
  split at hwait
  · cases hwait
  next hgood =>
    split at hwait
    · cases hwait
    next hmissing =>
      have hgood' : key ∉ ((s.popped p c).pitch p).queues.fetchBad := by rw [State.popped_pitch]; exact hgood
      have hsame : missingRanges ((s.popped p c).pitch p) key rs = missingRanges (s.pitch p) key rs := by
        rw [State.popped_pitch]
        rfl
      have hasked : ¬ ((s.popped p c).dma.any (fun d => d.use = .descriptor p key)) = true := by
        rw [Bool.not_eq_true, List.any_eq_false]
        intro r hr
        simpa using hnone r hr
      rw [State.descFetch_eq, if_neg hgood', hsame, if_neg hmissing, if_neg hasked]
      refine ⟨_, _, rfl, ?_, Asked.ranges q _ _⟩
      cases hm : missingRanges (s.pitch p) key rs with
      | nil => simp [hm] at hmissing
      | cons r ms =>
        have hpos := missing_pos (hm ▸ List.mem_cons_self : r ∈ missingRanges (s.pitch p) key rs)
        rw [List.map_cons, sumOf_cons]
        omega

theorem upsert_new {α : Type} {f : α → Bool} {g : α → α} {y : α} {xs : List α} (h : ∀ x ∈ xs, f x = false) : upsert f g y xs = xs ++ [y] := by
  induction xs with
  | nil => rfl
  | cons x xs ih =>
    rw [upsert, h x List.mem_cons_self, List.cons_append, ih fun z hz => h z (List.mem_cons_of_mem _ hz)]
    rfl

/-- A descriptor joins those that wait for host bytes. -/
def Pitch.addJob (x : Pitch) (j : DescJob) : Pitch :=
  { x with queues := { x.queues with jobs := upsert (fun k => k.key = j.key) (fun _ => j) j x.queues.jobs } }

theorem Pitch.ptrs_addJob (x : Pitch) (j : DescJob) : (x.addJob j).queues.ptrs = x.queues.ptrs := rfl

theorem Pitch.addJob_popDesc (x : Pitch) (q : Nat) (j : DescJob) :
    (x.popDesc q).addJob j = { x with queues := ((x.popDesc q).addJob j).queues, nextJob := x.nextJob + 1 } := by
  obtain ⟨v, hpop⟩ := x.popDesc_rest q
  rw [hpop]
  rfl

/-- The head of its queue once a descriptor has left it and waits. -/
theorem Pitch.head_addJob (x : Pitch) (q : Nat) (j : DescJob) : (((x.popDesc q).addJob j).qptr q).head = (x.qptr q).head + 1 := by
  rw [Pitch.qptr_congr ((Pitch.ptrs_addJob _ j).trans (Pitch.ptrs_popDesc x q)), Pitch.qptr_setQptr]

/-- A descriptor whose bytes have been asked for waits for them. -/
theorem descWaits_of {work : DescWork} {t : State} {n : Nat} (hwork : work (poppedJob s p q d) (s.popped p q) = .wait t)
    (hn : 0 < n) (hasked : Asked (· = .descriptor p (s.pitch p).descKey) n (s.popped p q) t)
    (hjobs : ∀ j ∈ (s.pitch p).queues.jobs, j.key ≠ (s.pitch p).descKey) :
    DescWaits p q d s ((s.popped p q).runDesc p work (poppedJob s p q d)) := by
  have hrun : (s.popped p q).runDesc p work (poppedJob s p q d) =
      t.modPitch p fun x => x.addJob (poppedJob s p q d) := by
    rw [State.runDesc, hwork]
    rfl
  have hpitches := hasked.pitch
  have hnew : upsert (fun k => decide (k.key = (s.pitch p).descKey)) (fun _ => poppedJob s p q d) (poppedJob s p q d) (s.pitch p).queues.jobs =
      (s.pitch p).queues.jobs ++ [poppedJob s p q d] := upsert_new fun j hj => by simp [hjobs j hj]
  obtain ⟨rs, hdma, hsum, huse⟩ := hasked.reads
  rw [hrun]
  refine ⟨⟨?_, fun r hr => ?_⟩, ?_, ?_, ?_, ?_, hasked.told, ?_⟩
  · rw [State.pitch_modPitch, hpitches, State.popped_pitch]
    exact Pitch.head_addJob (s.pitch p) q _
  · rw [State.pitch_modPitch_ne _ p r _ hr, hpitches]
    exact State.pitch_modPitch_ne s p r _ hr
  · rw [State.pitch_modPitch, hpitches, State.popped_pitch]
    exact hnew
  · rw [hasked.rest]
    rfl
  · rw [State.pitch_modPitch, hpitches, State.popped_pitch]
    exact Pitch.addJob_popDesc _ q _
  · have hprefix : s.dma <+: t.dma := ⟨rs, hdma.symm⟩
    exact hprefix
  · cases rs with
    | nil => simp [sumOf] at hsum; omega
    | cons r rs =>
      refine ⟨r, ?_, huse r List.mem_cons_self⟩
      change r ∈ t.dma
      rw [hdma]
      exact List.mem_append_right _ List.mem_cons_self

end

end Sys2Proof.Machine
end

