-- ==== Sys2Proof/Proofs/IngestDescriptors.lean ====
section
/-! PROOF. An ingest descriptor's range joins its bucket and its bytes are asked of the host (06 R131; 17 R356). -/

namespace Sys2Proof.Machine

open Sys2Proof.Claims

section
variable {s : State} {p : PitchId} {q : Nat} {d : Bytes}

/-- The record of a bucket is the bucket's. -/
theorem Pitch.ingest_bucket (x : Pitch) (b : Nat) : (x.ingest b).bucket = b := by
  rw [Pitch.ingest]
  cases h : x.ingests.find? (fun i => i.bucket = b) with
  | none => rfl
  | some i => simpa using List.find?_some h

/-- Accepting a range: it joins its bucket, and its bytes are asked for. -/
theorem State.ingestAccept_spec (s : State) (p : PitchId) (q : Nat) (d : Bytes) (head : W16) :
    ∃ i, i.bucket = leAt d 8 4 ∧ i.ranges = ((s.pitch p).ingest (leAt d 8 4)).ranges ++ [ingestRange d q head] ∧ i.openMb = leAt d 6 2 ∧
      Asked (fun _ => True) ((ingestRange d q 0).count * fmtBits (ingestRange d q 0).hostFmt / 8 +
        (if (ingestRange d q 0).mx then (ingestRange d q 0).count / 32 else 0))
        (s.setPitch p ((s.pitch p).setIngest i)) (s.ingestAccept p q d head) := by
  unfold State.ingestAccept
  extract_lets x b r last i ranges cover i₂ s₁ port s₂
  have hdata : Asked (fun _ => True) (r.count * fmtBits r.hostFmt / 8) s₁ s₂ := (Asked.askHost s₁ _ _ _ _).mono fun _ _ => trivial
  refine ⟨i₂, Pitch.ingest_bucket x b, rfl, rfl, ?_⟩
  have hsame : (ingestRange d q 0).mx = r.mx := rfl
  rw [hsame]
  cases hmx : r.mx with
  | true => exact hdata.trans ((Asked.askHost s₂ _ _ _ _).mono fun _ _ => trivial)
  | false => exact hdata

/-- An ingest descriptor that passes its tests. -/
theorem ingestDescriptor_joins (h : DescAt s p q d) (hkind : descKind d = 1) (hcheck : (s.pitch p).ingestCheck d = none) :
    ∃ t i, exec (.ingestDescriptor p q) s = .next t ∧ DescTaken p q s t ∧
      t = { s with pitches := t.pitches, dma := t.dma, dmaTag := t.dmaTag, hostOut := t.hostOut, hostPorts := t.hostPorts } ∧
      (t.pitch p).ingests.find? (fun j => j.bucket = leAt d 8 4) = some i ∧
      i.ranges = ((s.pitch p).ingest (leAt d 8 4)).ranges ++ [ingestRange d q (headAfter s p q)] ∧ i.openMb = leAt d 6 2 ∧
      s.dma <+: t.dma ∧ s.hostOut <+: t.hostOut ∧
      sumOf ((t.dma.drop s.dma.length).map DmaReq.len) = (ingestRange d q 0).count * fmtBits (ingestRange d q 0).hostFmt / 8 +
        (if (ingestRange d q 0).mx then (ingestRange d q 0).count / 32 else 0) := by
  have hrun : exec (.ingestDescriptor p q) s = .next ((s.begun p q).ingestAccept p q d (headAfter s p q)) := by
    change execIngestDescriptor p q s = _
    rw [execIngestDescriptor, live_next s _ h.up, descriptor_runs h (by simp [hkind]) hcheck, State.runDesc_take (f := fun s' => s'.ingestAccept p q d (headAfter s p q)) rfl]
  obtain ⟨i, hbucket, hranges, hmb, hasked⟩ := (s.begun p q).ingestAccept_spec p q d (headAfter s p q)
  have hpitch : ((s.begun p q).ingestAccept p q d (headAfter s p q)).pitch p = ((s.begun p q).pitch p).setIngest i := by
    rw [hasked.pitch, State.pitch_setPitch]
  have hingests : ((s.begun p q).pitch p).ingest (leAt d 8 4) = (s.pitch p).ingest (leAt d 8 4) := by
    obtain ⟨qs, hrest⟩ := s.begun_rest p q
    rw [hrest]
    rfl
  rw [hingests] at hranges
  obtain ⟨hprefix, hsum⟩ := hasked.sum
  refine ⟨_, i, hrun, descTaken_of ?_ fun r hr => ?_, ?_, ?_, hranges, hmb, hprefix, hasked.told, hsum⟩
  · rw [hpitch]
    rfl
  · rw [hasked.pitch, State.pitch_setPitch_ne _ p r _ hr, State.begun_others hr]
  · rw [hasked.rest]
    rfl
  · rw [hpitch, ← hbucket]
    exact find?_upsert (p := fun j : Ingest => decide (j.bucket = i.bucket)) (by simp) _

end

end Sys2Proof.Machine
end

