-- ==== Sys2Proof/Proofs/WindowedFrames.lean ====
section
/-! PROOF. Frames that join the queue and take their windows (03 R70). -/

namespace Sys2Proof.Machine

open Sys2Proof.Claims

/-! ## Windows leave the frames as they are -/

/-- A frame without its window. -/
def TxFrame.unassigned (f : TxFrame) : TxFrame := { f with window := none }

/-- But for their windows the frames are the same. -/
theorem unassigned_fields {f g : TxFrame} (h : g.unassigned = f.unassigned) :
    g.dst = f.dst ∧ g.opcode = f.opcode ∧ g.offset = f.offset ∧ g.payload = f.payload ∧ g.use = f.use :=
  ⟨(congrArg TxFrame.dst h :), (congrArg TxFrame.opcode h :), (congrArg TxFrame.offset h :), (congrArg TxFrame.payload h :),
    (congrArg TxFrame.use h :)⟩

/-- The frames of a pitch without their windows. -/
def Pitch.unassigned (x : Pitch) : List TxFrame := x.tx.txq.map TxFrame.unassigned

theorem map_replaceFirst {α β : Type} {c : α → Bool} {f : α → α} {g : α → β} (hf : ∀ x, g (f x) = g x) (xs : List α) :
    (replaceFirst c f xs).map g = xs.map g := by
  induction xs with
  | nil => rfl
  | cons x xs ih =>
    unfold replaceFirst
    split
    · simp [hf x]
    · simp [ih]

section
variable {x y : Pitch} {p : PitchId}

theorem Pitch.unassigned_assignNext {lp : Nat} (h : x.assignNext p lp = some y) : y.unassigned = x.unassigned := by
  unfold Pitch.assignNext at h
  split at h
  · simp at h
  · split at h
    · simp at h
    · extract_lets es at h
      split at h
      extract_lets w at h
      obtain rfl := Option.some.inj h
      have htx : w.tx.txq = x.tx.txq := by
        change (Pitch.setLpWin _ _ _).tx.txq = _
        rw [Pitch.setLpWin, Pitch.count_tx, Pitch.count_tx, Pitch.count_tx]
      rw [Pitch.unassigned, Pitch.unassigned, ← htx]
      refine map_replaceFirst ?_ _
      intro g
      rfl

theorem Pitch.unassigned_assignPort (lp n : Nat) (x : Pitch) : (Pitch.assignPort p lp n x).unassigned = x.unassigned := by
  induction n generalizing x with
  | zero => rfl
  | succ n ih =>
    unfold Pitch.assignPort
    split
    next y hnext => rw [ih y, Pitch.unassigned_assignNext hnext]
    · rfl

theorem Pitch.unassigned_assignAll (x : Pitch) (p : PitchId) : (x.assignAll p).unassigned = x.unassigned := by
  unfold Pitch.assignAll
  generalize List.range 16 = lps
  induction lps generalizing x with
  | nil => rfl
  | cons lp lps ih => exact (ih _).trans (Pitch.unassigned_assignPort lp _ x)

end

/-! ## Frames that join the queue -/

theorem length_insertBy {α : Type} (le : α → α → Bool) (x : α) (ys : List α) : (insertBy le x ys).length = ys.length + 1 := by
  induction ys with
  | nil => rfl
  | cons y ys ih =>
    unfold insertBy
    split
    · simp [ih]
    · simp

theorem Pitch.length_enqueues (fs : List TxFrame) (x : Pitch) : (fs.foldl Pitch.enqueue x).tx.txq.length = x.tx.txq.length + fs.length := by
  induction fs generalizing x with
  | nil => rfl
  | cons f fs ih =>
    have hone : (x.enqueue f).tx.txq.length = x.tx.txq.length + 1 := length_insertBy _ f _
    rw [List.foldl_cons, ih, hone, List.length_cons]
    omega

/-- From s to t these frames joined the queue of pitch p. -/
structure FramesJoined (p : PitchId) (fs : List TxFrame) (s t : State) : Prop where
  rest : t = { s with pitches := t.pitches }
  others : ∀ r, r ≠ p → t.pitch r = s.pitch r
  own : TxMoved (s.pitch p) (t.pitch p)
  length : (t.pitch p).tx.txq.length = (s.pitch p).tx.txq.length + fs.length
  joined : ∀ f ∈ fs, ∃ g ∈ (t.pitch p).tx.txq, g.unassigned = f.unassigned

theorem FramesJoined.refl (p : PitchId) (s : State) : FramesJoined p [] s s := ⟨rfl, fun _ _ => rfl, TxMoved.refl, rfl, by simp⟩

theorem FramesJoined.enqueueAll (s : State) (p : PitchId) (fs : List TxFrame) : FramesJoined p fs s (s.enqueueAll p fs) := by
  refine ⟨rfl, fun r hr => State.pitch_modPitch_ne s p r _ hr, ?_, ?_, fun f hf => ⟨f, ?_, rfl⟩⟩
  · rw [State.enqueueAll, State.pitch_modPitch]
    exact TxMoved.enqueues fs _
  · rw [State.enqueueAll, State.pitch_modPitch]
    exact Pitch.length_enqueues fs _
  · rw [State.enqueueAll, State.pitch_modPitch]
    exact Pitch.mem_enqueues fs _ (.inl hf)

theorem FramesJoined.sendWindowed (s : State) (p : PitchId) (fs : List TxFrame) : FramesJoined p fs s (s.sendWindowed p fs) := by
  obtain ⟨hrest, hothers, hown, hlength, hjoined⟩ := FramesJoined.enqueueAll s p fs
  have hpitch : (s.sendWindowed p fs).pitch p = ((s.enqueueAll p fs).pitch p).assignAll p := State.pitch_modPitch _ _ _
  have hsame := Pitch.unassigned_assignAll ((s.enqueueAll p fs).pitch p) p
  rw [← hpitch] at hsame
  refine ⟨?_, fun r hr => (State.pitch_modPitch_ne _ p r _ hr).trans (hothers r hr), ?_, ?_, fun f hf => ?_⟩
  · rw [State.sendWindowed, hrest]
    rfl
  · rw [hpitch]
    exact hown.trans (TxMoved.assignAll _ p)
  · have hcount := congrArg List.length hsame
    simp only [Pitch.unassigned, List.length_map] at hcount
    rw [hcount, hlength]
  · obtain ⟨g, hg, hfg⟩ := hjoined f hf
    have hmem : g.unassigned ∈ ((s.sendWindowed p fs).pitch p).unassigned := by
      rw [hsame]
      exact List.mem_map_of_mem hg
    obtain ⟨k, hk, hkg⟩ := List.mem_map.mp hmem
    exact ⟨k, hk, hkg.trans hfg⟩

section
variable {x y : Pitch} (h : TxMoved x y)
include h

theorem TxMoved.queues : y.queues = x.queues := by rw [h]

theorem TxMoved.eff : y.eff = x.eff := by rw [h]

theorem TxMoved.time : y.time = x.time := by rw [h]

theorem TxMoved.osJobs : y.osJobs = x.osJobs := by rw [h]

theorem TxMoved.exchanges : y.exchanges = x.exchanges := by rw [h]

end

end Sys2Proof.Machine
end

