-- ==== Sys2Proof/Proofs/OneSidedDescriptors.lean ====
section
/-! PROOF. A one-sided descriptor is cut into frames, and one of no bytes completes at once (10 R244). -/

namespace Sys2Proof.Machine

open Sys2Proof.Claims

/-- The operation of a one-sided descriptor. -/
def osJobOf (x : Pitch) (q : Nat) (d : Bytes) (head : W16) (data : Bytes) : OsJob :=
  { id := x.nextJob, wq := q, wqHead := head, cookie := descCookie d, op := osOp d, len := osLen d
    localAddr := BitVec.ofNat 64 (leAt d 24 8), dst := leAt d 2 2, left := (osPieces d data).length }

/-- Its frame for one piece. -/
def osFrame (x : Pitch) (d data : Bytes) (e : (Nat × Bytes) × Nat) : TxFrame :=
  { dst := leAt d 2 2, opcode := BitVec.ofNat 8 (osOpcode (osOp d)), bucket := BitVec.ofNat 32 (leAt d 6 2), block := BitVec.ofNat 32 tgOneSided
    offset := BitVec.ofNat 64 e.1.1, payload := e.1.2, ackNow := e.2 + 1 = (osPieces d data).length, windowed := true
    planSeq := leAt d 6 2, planBlock := tgOneSided, planIdx := e.2, use := .oneSided x.nextJob }

/-- The frames it is cut into. -/
def osFrames (x : Pitch) (d data : Bytes) : List TxFrame := (osPieces d data).zipIdx.map (osFrame x d data)

/-- The operation is noted. -/
def Pitch.addOsJob (x : Pitch) (j : OsJob) : Pitch := { x with osJobs := x.osJobs ++ [j], nextJob := x.nextJob + 1 }

/-- It has ended. -/
def Pitch.dropOsJob (j : OsJob) (x : Pitch) : Pitch := { x with osJobs := x.osJobs.filter (fun k => k.id ≠ j.id) }

theorem length_osFrames (x : Pitch) (d data : Bytes) : (osFrames x d data).length = (osPieces d data).length := by simp [osFrames]

/-- Every piece has its frame. -/
theorem osFrame_mem (x : Pitch) {d data : Bytes} {e : Nat × Bytes} (h : e ∈ osPieces d data) : ∃ f ∈ osFrames x d data, f.dst = leAt d 2 2 ∧
    f.opcode = BitVec.ofNat 8 (osOpcode (osOp d)) ∧ f.offset = BitVec.ofNat 64 e.1 ∧ f.payload = e.2 ∧ f.use = .oneSided x.nextJob := by
  obtain ⟨i, hi, rfl⟩ := List.mem_iff_getElem.mp h
  have hmem : ((osPieces d data)[i], i) ∈ (osPieces d data).zipIdx := by
    rw [List.mem_zipIdx_iff_getElem?]
    exact List.getElem?_eq_getElem hi
  exact ⟨_, List.mem_map_of_mem hmem, rfl, rfl, rfl, rfl, rfl⟩

section
variable {s : State} {p : PitchId} {q : Nat} {d : Bytes}

/-- The frames of an operation have joined the queue. -/
def State.osQueued (s : State) (p : PitchId) (q : Nat) (d : Bytes) (head : W16) (data : Bytes) : State :=
  (s.setPitch p ((s.pitch p).addOsJob (osJobOf (s.pitch p) q d head data))).sendWindowed p (osFrames (s.pitch p) d data)

theorem State.osAccept_eq (s : State) (p : PitchId) (q : Nat) (d : Bytes) (head : W16) (data : Bytes) : s.osAccept p q d head data =
    if (osFrames (s.pitch p) d data).isEmpty then
      (s.osQueued p q d head data).osComplete p (osJobOf (s.pitch p) q d head data) stOk
    else s.osQueued p q d head data := rfl

theorem oneSided_runs (h : DescAt s p q d) (hkind : descKind d = 4) (hcheck : (s.pitch p).osCheck p d = none) :
    exec (.oneSidedDescriptor p q) s = .next ((s.popped p q).runDesc p (osWork p) (poppedJob s p q d)) := by
  change execOneSidedDescriptor p q s = _
  rw [execOneSidedDescriptor, live_next s _ h.up, descriptor_runs h (by simp [hkind]) hcheck]

/-- A one-sided descriptor whose bytes are there. -/
theorem oneSided_takes (h : DescAt s p q d) (hkind : descKind d = 4) (hcheck : (s.pitch p).osCheck p d = none) {parts : List Bytes}
    (hready : s.descFetch p q (s.pitch p).descKey (osNeeds d) = .ready parts) :
    exec (.oneSidedDescriptor p q) s = .next ((s.begun p q).osAccept p q d (headAfter s p q) (parts.getD 0 [])) := by
  have hwork : osWork p (poppedJob s p q d) (s.popped p q) =
      .take (fun s' => s'.osAccept p q d (headAfter s p q) (parts.getD 0 [])) := by
    have hfetch := State.popped_ready hready q
    unfold osWork
    simp only [poppedJob, hfetch]
  rw [oneSided_runs h hkind hcheck, State.runDesc_take hwork]

theorem begun_osQueued (s : State) (p : PitchId) (q : Nat) (d : Bytes) (data : Bytes) :
    FramesJoined p (osFrames ((s.begun p q).pitch p) d data)
      ((s.begun p q).setPitch p (((s.begun p q).pitch p).addOsJob (osJobOf ((s.begun p q).pitch p) q d (headAfter s p q) data)))
      ((s.begun p q).osQueued p q d (headAfter s p q) data) := FramesJoined.sendWindowed _ p _

/-- What the frames of an operation leave as they find it. -/
theorem osQueued_rest (s : State) (p : PitchId) (q : Nat) (d : Bytes) (data : Bytes) :
    (s.begun p q).osQueued p q d (headAfter s p q) data =
      { s with pitches := ((s.begun p q).osQueued p q d (headAfter s p q) data).pitches } ∧
    (∀ r, r ≠ p → ((s.begun p q).osQueued p q d (headAfter s p q) data).pitch r = s.pitch r) ∧
    TxMoved (((s.begun p q).pitch p).addOsJob (osJobOf ((s.begun p q).pitch p) q d (headAfter s p q) data))
      (((s.begun p q).osQueued p q d (headAfter s p q) data).pitch p) ∧
    (((s.begun p q).osQueued p q d (headAfter s p q) data).pitch p).tx.txq.length =
      (s.pitch p).tx.txq.length + (osPieces d data).length := by
  obtain ⟨hrest, hothers, hown, hlength, -⟩ := begun_osQueued s p q d data
  rw [State.pitch_setPitch] at hown hlength
  rw [length_osFrames] at hlength
  obtain ⟨qs, hbegun⟩ := s.begun_rest p q
  refine ⟨?_, fun r hr => ?_, hown, ?_⟩
  · rw [hrest]
    rfl
  · rw [hothers r hr, State.pitch_setPitch_ne _ p r _ hr, State.begun_others hr]
  · rw [hlength, hbegun]
    rfl

/-- A descriptor with bytes is cut into frames. -/
theorem oneSided_cuts (h : DescAt s p q d) (hkind : descKind d = 4) (hcheck : (s.pitch p).osCheck p d = none) {parts : List Bytes}
    {data : Bytes} (hready : s.descFetch p q (s.pitch p).descKey (osNeeds d) = .ready parts) (hdata : data = parts.getD 0 [])
    (hpieces : osPieces d data ≠ []) :
    ∃ t j, exec (.oneSidedDescriptor p q) s = .next t ∧ DescTaken p q s t ∧ t = { s with pitches := t.pitches } ∧
      (t.pitch p).osJobs = (s.pitch p).osJobs ++ [j] ∧ j.id = (s.pitch p).nextJob + 1 ∧ j.left = (osPieces d data).length ∧
      j.wq = q ∧ j.wqHead = headAfter s p q ∧ j.cookie = descCookie d ∧
      (t.pitch p).tx.txq.length = (s.pitch p).tx.txq.length + (osPieces d data).length ∧
      ∀ e ∈ osPieces d data, ∃ g ∈ (t.pitch p).tx.txq, g.dst = leAt d 2 2 ∧ g.opcode = BitVec.ofNat 8 (osOpcode (osOp d)) ∧
        g.offset = BitVec.ofNat 64 e.1 ∧ g.payload = e.2 ∧ g.use = .oneSided ((s.pitch p).nextJob + 1) := by
  have hframes : ¬ (osFrames ((s.begun p q).pitch p) d data).isEmpty = true := by
    rw [List.isEmpty_iff_length_eq_zero, length_osFrames]
    exact fun hlen => hpieces (List.length_eq_zero_iff.mp hlen)
  have hrun := oneSided_takes h hkind hcheck hready
  rw [← hdata, State.osAccept_eq, if_neg hframes] at hrun
  obtain ⟨hrest, hothers, hown, hlength⟩ := osQueued_rest s p q d data
  have hjoined := (begun_osQueued s p q d data).joined
  obtain ⟨qs, hbegun⟩ := s.begun_rest p q
  have hnext : ((s.begun p q).pitch p).nextJob = (s.pitch p).nextJob + 1 := by rw [hbegun]
  refine ⟨_, osJobOf ((s.begun p q).pitch p) q d (headAfter s p q) data, hrun, descTaken_of hown.queues hothers, hrest, ?_, hnext, rfl,
    rfl, rfl, rfl, hlength, fun e he => ?_⟩
  · rw [hown.osJobs]
    have hjobs : ((s.begun p q).pitch p).osJobs = (s.pitch p).osJobs := by rw [hbegun]
    rw [Pitch.addOsJob, hjobs]
  · obtain ⟨f, hf, hdst, hopcode, hoffset, hpayload, huse⟩ := osFrame_mem ((s.begun p q).pitch p) he
    obtain ⟨g, hg, hgf⟩ := hjoined f hf
    obtain ⟨hgdst, hgopcode, hgoffset, hgpayload, hguse⟩ := unassigned_fields hgf
    exact ⟨g, hg, hgdst.trans hdst, hgopcode.trans hopcode, hgoffset.trans hoffset, hgpayload.trans hpayload,
      (hguse.trans huse).trans (by rw [hnext])⟩

/-- A descriptor of no bytes completes at once. -/
theorem oneSided_empty (h : DescAt s p q d) (hkind : descKind d = 4) (hcheck : (s.pitch p).osCheck p d = none) {parts : List Bytes}
    {data : Bytes} (hready : s.descFetch p q (s.pitch p).descKey (osNeeds d) = .ready parts) (hdata : data = parts.getD 0 [])
    (hpieces : osPieces d data = []) (hroom : CplRoom (s.pitch p) q) :
    ∃ t, exec (.oneSidedDescriptor p q) s = .next t ∧ DescTaken p q s t ∧ CplWritten p 4 stOk q (headAfter s p q) 0 (descCookie d) s t ∧
      (t.pitch p).tx.txq.length = (s.pitch p).tx.txq.length := by
  have hframes : (osFrames ((s.begun p q).pitch p) d data).isEmpty = true := by
    rw [List.isEmpty_iff_length_eq_zero, length_osFrames, hpieces]
    rfl
  have hrun := oneSided_takes h hkind hcheck hready
  rw [← hdata, State.osAccept_eq, if_pos hframes] at hrun
  obtain ⟨hrest, hothers, hown, hlength⟩ := osQueued_rest s p q d data
  rw [hpieces] at hlength
  obtain ⟨qs, hbegun⟩ := s.begun_rest p q
  generalize (s.begun p q).osQueued p q d (headAfter s p q) data = u at hrun hrest hothers hown hlength
  have heff : (u.pitch p).eff = (s.pitch p).eff := hown.eff.trans (by rw [hbegun]; rfl)
  have htime : (u.pitch p).time = (s.pitch p).time := hown.time.trans (by rw [hbegun]; rfl)
  have hpitch := State.pitch_modPitch u p (Pitch.dropOsJob (osJobOf ((s.begun p q).pitch p) q d (headAfter s p q) data))
  have hdone : u.osComplete p (osJobOf ((s.begun p q).pitch p) q d (headAfter s p q) data) stOk =
      (u.modPitch p (Pitch.dropOsJob (osJobOf ((s.begun p q).pitch p) q d (headAfter s p q) data))).complete p 4 stOk q (headAfter s p q) 0
        (descCookie d) := rfl
  rw [hdone] at hrun
  obtain ⟨htaken, hwritten, c, v, hafter⟩ := State.begun_completes (s := s) (p := p) (q := q)
    (u := u.modPitch p (Pitch.dropOsJob (osJobOf ((s.begun p q).pitch p) q d (headAfter s p q) data)))
    hroom (by rw [hrest]; rfl) (by rw [hpitch]; exact heff) (by rw [hpitch]; exact htime) (by rw [hpitch]; exact hown.queues)
    (fun r hr => (State.pitch_modPitch_ne u p r _ hr).trans (hothers r hr)) 4 stOk (headAfter s p q) 0 (descCookie d)
  refine ⟨_, hrun, htaken, hwritten, ?_⟩
  rw [hafter, hpitch]
  exact hlength

end

/-! ## One-sided descriptors that wait -/

section
variable {s : State} {p : PitchId} {q : Nat} {d : Bytes}

/-- A one-sided descriptor whose bytes have not come waits for them. -/
theorem oneSided_waits (h : DescAt s p q d) (hkind : descKind d = 4) (hcheck : (s.pitch p).osCheck p d = none)
    (hjobs : ∀ j ∈ (s.pitch p).queues.jobs, j.key ≠ (s.pitch p).descKey) (hreads : ∀ r ∈ s.dma, r.use ≠ .descriptor p (s.pitch p).descKey)
    (hwait : ∃ u, s.descFetch p q (s.pitch p).descKey (osNeeds d) = .wait u) :
    ∃ t, exec (.oneSidedDescriptor p q) s = .next t ∧ DescWaits p q d s t := by
  obtain ⟨t, n, hfetch, hn, hasked⟩ := State.popped_waits hwait hreads q
  have hwork : osWork p (poppedJob s p q d) (s.popped p q) = .wait t := by
    unfold osWork
    simp only [poppedJob, hfetch]
  exact ⟨_, oneSided_runs h hkind hcheck, descWaits_of hwork hn hasked hjobs⟩

end

end Sys2Proof.Machine
end

