-- ==== Sys2Proof/Proofs/Exchanges.lean ====
section
/-! PROOF. The exchange of a dispatch: its record, its frames, and what tells the host (10 R237 to R242). -/

namespace Sys2Proof.Machine

open Sys2Proof.Claims

/-! ## Tests -/

/-- Tests that are all passed are each passed. -/
theorem firstOf_none {cs : List Check} (h : firstOf cs = none) {c : Check} (hc : c ∈ cs) : c = none := by
  induction cs with
  | nil => simp at hc
  | cons a cs ih =>
    cases a with
    | some r => simp [firstOf] at h
    | none =>
      rcases List.mem_cons.mp hc with rfl | hc
      · rfl
      · exact ih h hc

theorem need_none {ok : Bool} {status detail : Nat} (h : need ok status detail = none) : ok = true := by
  cases ok with
  | true => rfl
  | false => simp [need] at h

/-! ## The record of an exchange -/

theorem find?_upsert_of {α : Type} {c r : α → Bool} {y : α} (hy : r y = true) (hsub : ∀ x, r x = true → c x = true) (xs : List α) :
    (upsert c (fun _ => y) y xs).find? r = some y := by
  induction xs with
  | nil => simp [upsert, hy]
  | cons x xs ih =>
    unfold upsert
    split
    · simp [hy]
    next hx =>
      have hr : ¬ r x = true := fun h => hx (hsub x h)
      simp [hr, ih]

/-- The exchange of this step that was set is the one that is found. -/
theorem Pitch.dispatched_setExchange {x : Pitch} {e : Exchange} (hown : e.own.isSome = true) (hstep : e.stepLo = x.stepLo) :
    (x.setExchange e).dispatched e.exch = some e := by
  have hlo : (x.setExchange e).stepLo = x.stepLo := rfl
  rw [Pitch.dispatched, hlo, ← hstep]
  refine find?_upsert_of (by simp [hown]) (fun c hc => ?_) _
  simp only [Bool.and_eq_true, decide_eq_true_eq] at hc ⊢
  exact hc.1

theorem Pitch.dispatched_congr {x y : Pitch} (hexchanges : y.exchanges = x.exchanges) (htime : y.time = x.time) (exch : W16) :
    y.dispatched exch = x.dispatched exch := by
  rw [Pitch.dispatched, Pitch.stepLo, hexchanges, htime]
  rfl

theorem Pitch.dispatched_some {x : Pitch} {exch : W16} {e : Exchange} (h : x.dispatched exch = some e) :
    e.exch = exch ∧ e.stepLo = x.stepLo ∧ e.own.isSome = true := by
  have hfound := List.find?_some h
  simp only [Bool.and_eq_true, decide_eq_true_eq] at hfound
  exact ⟨hfound.1.1, hfound.1.2, hfound.2⟩

theorem Pitch.exchange_key (x : Pitch) (exch lo : W16) : (x.exchange exch lo).exch = exch ∧ (x.exchange exch lo).stepLo = lo := by
  rw [Pitch.exchange]
  cases h : x.exchanges.find? (fun e => e.exch = exch && e.stepLo = lo) with
  | none => exact ⟨rfl, rfl⟩
  | some e => simpa using List.find?_some h

/-! ## What tells the host -/

/-- From s to t only messages to the hosts left. -/
def HostsMoved (s t : State) : Prop := t = { s with hostOut := t.hostOut, hostPorts := t.hostPorts }

section
variable {s t u : State}

theorem HostsMoved.refl : HostsMoved s s := rfl

theorem HostsMoved.trans (h : HostsMoved s t) (k : HostsMoved t u) : HostsMoved s u := by
  rw [HostsMoved] at h k ⊢
  rw [k, h]

theorem HostsMoved.foldl {α : Type} {f : State → α → State} (hf : ∀ t a, HostsMoved t (f t a)) (as : List α) (s : State) : HostsMoved s (as.foldl f s) := by
  induction as generalizing s with
  | nil => exact HostsMoved.refl
  | cons a as ih => exact (hf s a).trans (ih (f s a))

theorem HostsMoved.sendHost (s : State) (h : HostPort) (m : HostMsg) : HostsMoved s (s.sendHost h m) := (s.sendHost_told h m).1

theorem HostsMoved.hostStore (s : State) (h : HostPort) (a : W64) (d : Bytes) : HostsMoved s (s.hostStore h a d) := by
  unfold State.hostStore
  exact HostsMoved.foldl (fun t e => HostsMoved.sendHost t h _) _ s

theorem HostsMoved.descStore (s : State) (p : PitchId) (q a : Nat) (d : Bytes) : HostsMoved s (s.descStore p q a d) :=
  HostsMoved.hostStore s _ _ d

theorem HostsMoved.pitch (h : HostsMoved s t) (r : PitchId) : t.pitch r = s.pitch r := by
  rw [h]
  rfl

end

/-! ## From a dispatch to its tokens (10 R239, R240) -/

/-- From s to t the exchange of a dispatch went on: its record may hold more of what the tree and the slots tell, frames joined the
queue, and results went to the host. -/
structure Dispatching (p : PitchId) (e : Exchange) (s t : State) : Prop where
  rest : t = { s with pitches := t.pitches, hostOut := t.hostOut, hostPorts := t.hostPorts }
  others : ∀ r, r ≠ p → t.pitch r = s.pitch r
  queues : (t.pitch p).queues = (s.pitch p).queues
  found : ∃ e', (t.pitch p).dispatched e.exch = some e' ∧
    e' = { e with sentUp := e'.sentUp, below := e'.below, totals := e'.totals, kept := e'.kept, frames := e'.frames }

/-- What follows after the record was set leaves it. -/
theorem dispatching_of {s t u : State} {p : PitchId} {e e' : Exchange} {x : Pitch} {fs : List TxFrame} (hx : x.queues = (s.pitch p).queues)
    (hown : e'.own.isSome = true) (hstep : e'.stepLo = x.stepLo)
    (hsame : e' = { e with sentUp := e'.sentUp, below := e'.below, totals := e'.totals, kept := e'.kept, frames := e'.frames })
    (hframes : FramesJoined p fs (s.setPitch p (x.setExchange e')) t) (htold : HostsMoved t u) : Dispatching p e s u := by
  have hexch : e'.exch = e.exch := by rw [hsame]
  have hframesOwn := hframes.own
  rw [State.pitch_setPitch] at hframesOwn
  refine ⟨?_, fun r hr => ?_, ?_, e', ?_, hsame⟩
  · rw [htold, hframes.rest]
    rfl
  · rw [htold.pitch, hframes.others r hr, State.pitch_setPitch_ne _ p r _ hr]
  · rw [htold.pitch, hframesOwn.queues]
    exact hx
  · rw [htold.pitch, Pitch.dispatched_congr hframesOwn.exchanges hframesOwn.time, ← hexch]
    exact Pitch.dispatched_setExchange hown hstep

theorem FlagsMoved.refl (x : Pitch) : FlagsMoved x x := rfl

theorem FlagsMoved.noteToken (x : Pitch) (floor : Bool) (qs : List Quant) : FlagsMoved x (x.noteToken floor qs) :=
  (FlagsMoved.noteQuant x qs).trans (FlagsMoved.count _ _ _)

/-- A walk over entries that notes flags and counts alone. -/
theorem FlagsMoved.foldl {α β : Type} {f : Pitch × β → α → Pitch × β} (hf : ∀ c a, FlagsMoved c.1 (f c a).1) (as : List α) (c : Pitch × β) :
    FlagsMoved c.1 (as.foldl f c).1 := by
  induction as generalizing c with
  | nil => exact FlagsMoved.refl c.1
  | cons a as ih => exact (hf c a).trans (ih (f c a))

section
variable {x y : Pitch} (h : FlagsMoved x y)
include h

theorem FlagsMoved.queues : y.queues = x.queues := by rw [h]

theorem FlagsMoved.stepLo : y.stepLo = x.stepLo := by
  rw [h]
  rfl

end

section
variable {p : PitchId} {e : Exchange}

/-- The slots are assigned (10 R240). -/
theorem Dispatching.assignSlots (s : State) (hown : e.own.isSome = true) (hstep : e.stepLo = (s.pitch p).stepLo) :
    Dispatching p e s (s.assignSlots p e) := by
  unfold State.assignSlots
  extract_lets x tab totals cap entries tb step
  have hnotes (c : Pitch × List TxFrame) (a : Nat × Nat × Nat × Nat) : FlagsMoved c.1 (step c a).1 := by
    simp only [step]
    split
    · exact FlagsMoved.noteToken c.1 _ _
    · exact FlagsMoved.refl c.1
  split
  next kept dropped hpart =>
    split
    next y frames hfold =>
      extract_lets marked mine n fills z e₁ s₁ s₂ bits s₃
      have hy := FlagsMoved.foldl hnotes kept (x, [])
      rw [hfold] at hy
      have hz : FlagsMoved x z := (hy.trans (FlagsMoved.count y _ _)).trans (FlagsMoved.count _ _ _)
      have htold : HostsMoved s₁ (s₃.descStore p e₁.wq (e₁.recvAddr.toNat + n * e₁.stride * tb) (padTo (roundUp (4 * n) 8) (fills.flatMap (leBytes 4)))) :=
        ((HostsMoved.foldl (fun t a => HostsMoved.descStore t _ _ _ _) dropped s₁).trans (HostsMoved.descStore s₂ _ _ _ _)).trans
          (HostsMoved.descStore s₃ _ _ _ _)
      exact dispatching_of (x := z) (e' := e₁) hz.queues hown (hstep.trans hz.stepLo.symm) rfl (FramesJoined.sendWindowed _ p marked) htold

/-- An exchange that goes on after frames have joined the queue. -/
theorem Dispatching.after {s t u : State} {x : Pitch} {fs : List TxFrame} (hx : x.queues = (s.pitch p).queues)
    (hframes : FramesJoined p fs (s.setPitch p x) t) (h : Dispatching p e t u) : Dispatching p e s u := by
  have hown := hframes.own
  rw [State.pitch_setPitch] at hown
  refine ⟨?_, fun r hr => ?_, ?_, h.found⟩
  · rw [h.rest, hframes.rest]
    rfl
  · rw [h.others r hr, hframes.others r hr, State.pitch_setPitch_ne _ p r _ hr]
  · rw [h.queues, hown.queues, hx]

/-- The record may hold more of what the tree tells. -/
theorem Dispatching.of_more {s t : State} {e₀ : Exchange} (h : Dispatching p e s t)
    (hsame : e = { e₀ with sentUp := e.sentUp, below := e.below, totals := e.totals }) : Dispatching p e₀ s t := by
  obtain ⟨e', hfound, he'⟩ := h.found
  have hexch : e.exch = e₀.exch := by rw [hsame]
  refine ⟨h.rest, h.others, h.queues, e', hexch ▸ hfound, ?_⟩
  rw [he', hsame]

/-- T and P(k) are there (10 R239). -/
theorem Dispatching.scanDone (s : State) (hown : e.own.isSome = true) (hstep : e.stepLo = (s.pitch p).stepLo) :
    Dispatching p e s (s.scanDone p e) := by
  unfold State.scanDone
  extract_lets x own below totals
  split
  next frames acc hfold =>
    have hframes := FramesJoined.enqueueAll (s.setPitch p (x.setExchange e)) p frames
    have hmoved := hframes.own
    rw [State.pitch_setPitch] at hmoved
    have hlo : (((s.setPitch p (x.setExchange e)).enqueueAll p frames).pitch p).stepLo = (s.pitch p).stepLo := by
      rw [Pitch.stepLo, hmoved.time]
      rfl
    exact Dispatching.after (x := x.setExchange e) rfl hframes (Dispatching.assignSlots _ hown (hstep.trans hlo.symm))

/-- The own vector is there (10 R239). -/
theorem Dispatching.scanProgress (s : State) (hown : e.own.isSome = true) (hstep : e.stepLo = (s.pitch p).stepLo) :
    Dispatching p e s (s.scanProgress p e) := by
  have hset (e' : Exchange) (hsame : e' = { e with sentUp := e'.sentUp, below := e'.below, totals := e'.totals, kept := e'.kept, frames := e'.frames })
      {fs : List TxFrame} {t : State} (hframes : FramesJoined p fs (s.setPitch p ((s.pitch p).setExchange e')) t) : Dispatching p e s t :=
    dispatching_of rfl (by rw [hsame]; exact hown) (by rw [hsame]; exact hstep) hsame hframes HostsMoved.refl
  unfold State.scanProgress
  extract_lets x
  split
  next hnone => simp [hnone] at hown
  next own hsome =>
    split
    · exact hset e rfl (FramesJoined.refl p _)
    · extract_lets sum
      split
      · have hdone := Dispatching.scanDone (p := p)
          (e := { e with sentUp := true, below := some (List.replicate own.length 0), totals := some sum }) s hown hstep
        exact hdone.of_more rfl
      · exact hset { e with sentUp := true } rfl (FramesJoined.enqueueAll _ p _)

end

end Sys2Proof.Machine
end

