-- ==== Sys2Proof/Proofs/ExchangeDescriptors.lean ====
section
/-! PROOF. Dispatch and combine descriptors, and the completion of a dispatch (10 R238, R242, R243). -/

namespace Sys2Proof.Machine

open Sys2Proof.Claims

/-! ## Fields of a descriptor -/

theorem leNat_lt (bs : Bytes) : leNat bs < 256 ^ bs.length := by
  induction bs with
  | nil => simp [leNat]
  | cons b bs ih =>
    have hb := b.isLt
    rw [leNat, List.length_cons, pow_succ]
    omega

theorem leAt_lt (bs : Bytes) (off : Nat) : leAt bs off 2 < 65536 := by
  have hlen : (cut bs off 2).length ≤ 2 := List.length_take_le _ _
  exact (leNat_lt _).trans_le (Nat.pow_le_pow_right (by decide) hlen)

theorem eq_ofNat_iff (v : W16) (bs : Bytes) (off : Nat) : v = BitVec.ofNat 16 (leAt bs off 2) ↔ v.toNat = leAt bs off 2 := by
  have hlt := leAt_lt bs off
  rw [← BitVec.toNat_inj, BitVec.toNat_ofNat, Nat.mod_eq_of_lt hlt]

/-- A descriptor of the step says so. -/
theorem stepIs_stepLo {x : Pitch} {d : Bytes} (h : x.stepIs d = true) : x.stepLo = BitVec.ofNat 16 (leAt d 4 2) := by
  simp only [Pitch.stepIs, Bool.and_eq_true, decide_eq_true_eq] at h
  rw [eq_ofNat_iff, Pitch.stepLo, BitVec.toNat_setWidth, h.2]

section
variable {s : State} {p : PitchId} {q : Nat} {d : Bytes}

/-! ## Dispatch descriptors (R238) -/

/-- The exchange as a dispatch begins it. -/
def dispatchOf (x : Pitch) (p : PitchId) (q : Nat) (head : W16) (d routes tokens : Bytes) : Exchange :=
  { x.exchange (BitVec.ofNat 16 (leAt d 6 2)) (BitVec.ofNat 16 (leAt d 4 2)) with
    wq := q, wqHead := head, cookie := descCookie d, k := leAt d 1 1 % 8 + 1, hostFmt := leAt d 2 1 % 32, tokens := leAt d 8 4
    elems := leAt d 12 2, stride := leAt d 14 2, seq := leAt d 16 2, recvAddr := BitVec.ofNat 64 (leAt d 40 8)
    retAddr := BitVec.ofNat 64 (leAt d 48 8), routes := (chunks 2 routes).map leNat, tokenData := tokens
    own := some ((List.range (x.experts p)).map (fun e => (((chunks 2 routes).map leNat).filter (· = e)).length)) }

theorem State.dispatchAccept_eq (s : State) (p : PitchId) (q : Nat) (head : W16) (d routes tokens : Bytes) :
    ∃ bad, s.dispatchAccept p q head d routes tokens =
      (s.setPitch p ((s.pitch p).count .moeBadRoute bad)).scanProgress p (dispatchOf (s.pitch p) p q head d routes tokens) := ⟨_, rfl⟩

/-- A dispatch counts its entries by expert. -/
theorem State.dispatchAccept_spec (hlo : (s.pitch p).stepLo = BitVec.ofNat 16 (leAt d 4 2)) (head : W16) (routes tokens : Bytes) :
    Dispatching p (dispatchOf (s.pitch p) p q head d routes tokens) s (s.dispatchAccept p q head d routes tokens) := by
  obtain ⟨bad, heq⟩ := s.dispatchAccept_eq p q head d routes tokens
  have hkey := (s.pitch p).exchange_key (BitVec.ofNat 16 (leAt d 6 2)) (BitVec.ofNat 16 (leAt d 4 2))
  have hcount : ((s.pitch p).count .moeBadRoute bad).queues = (s.pitch p).queues ∧
      ((s.pitch p).count .moeBadRoute bad).stepLo = (s.pitch p).stepLo := by
    rw [Pitch.count_rest]
    exact ⟨rfl, rfl⟩
  rw [heq]
  refine Dispatching.after hcount.1 (FramesJoined.refl p _) (Dispatching.scanProgress _ rfl ?_)
  rw [State.pitch_setPitch, hcount.2, hlo]
  exact hkey.2

theorem dispatchCheck_step (h : s.dispatchCheck p d = none) : (s.pitch p).stepIs d = true := by
  unfold State.dispatchCheck at h
  extract_lets at h
  exact need_none (firstOf_none h (by simp only [List.mem_cons]; tauto))

theorem dispatch_runs (h : DescAt s p q d) (hkind : descKind d = 2) (hcheck : s.dispatchCheck p d = none) :
    exec (.dispatchDescriptor p q) s = .next ((s.popped p q).runDesc p (dispatchWork p) (poppedJob s p q d)) := by
  change execDispatchDescriptor p q s = _
  rw [execDispatchDescriptor, live_next s _ h.up, descriptor_runs h (by simp [hkind]) hcheck]

/-- A dispatch whose bytes are there. -/
theorem dispatch_counts (h : DescAt s p q d) (hkind : descKind d = 2) (hcheck : s.dispatchCheck p d = none) {parts : List Bytes}
    (hready : s.descFetch p q (s.pitch p).descKey (dispatchNeeds d) = .ready parts) :
    ∃ t e, exec (.dispatchDescriptor p q) s = .next t ∧ DescTaken p q s t ∧ t.mem = s.mem ∧ t.erg = s.erg ∧
      (t.pitch p).dispatched (BitVec.ofNat 16 (leAt d 6 2)) = some e ∧ e.wq = q ∧ e.wqHead = headAfter s p q ∧
      e.cookie = descCookie d ∧ e.tokens = leAt d 8 4 ∧ e.k = leAt d 1 1 % 8 + 1 ∧ e.elems = leAt d 12 2 ∧
      e.routes = (chunks 2 (parts.getD 0 [])).map leNat ∧ e.tokenData = parts.getD 1 [] ∧
      e.own = some ((List.range ((s.pitch p).experts p)).map (fun k => (e.routes.filter (· = k)).length)) := by
  have hwork : dispatchWork p (poppedJob s p q d) (s.popped p q) =
      .take (fun s' => s'.dispatchAccept p q (headAfter s p q) d (parts.getD 0 []) (parts.getD 1 [])) := by
    have hfetch := State.popped_ready hready q
    unfold dispatchWork
    simp only [poppedJob, hfetch]
  have hrun := dispatch_runs h hkind hcheck
  rw [State.runDesc_take hwork] at hrun
  obtain ⟨qs, hbegun⟩ := s.begun_rest p q
  have hlo : ((s.begun p q).pitch p).stepLo = BitVec.ofNat 16 (leAt d 4 2) := by
    rw [hbegun]
    exact stepIs_stepLo (dispatchCheck_step hcheck)
  have hspec := State.dispatchAccept_spec (q := q) hlo (headAfter s p q) (parts.getD 0 []) (parts.getD 1 [])
  have hexperts : ((s.begun p q).pitch p).experts p = (s.pitch p).experts p := by
    rw [hbegun]
    rfl
  obtain ⟨hrest, hothers, hqueues, e, hfound, he⟩ := hspec
  have hexch : (dispatchOf ((s.begun p q).pitch p) p q (headAfter s p q) d (parts.getD 0 []) (parts.getD 1 [])).exch =
      BitVec.ofNat 16 (leAt d 6 2) := (((s.begun p q).pitch p).exchange_key _ _).1
  rw [hexch] at hfound
  refine ⟨_, e, hrun, descTaken_of hqueues fun r hr => (hothers r hr).trans (State.begun_others hr), ?_, ?_, hfound, ?_⟩
  · rw [hrest]
    rfl
  · rw [hrest]
    rfl
  · rw [he, ← hexperts]
    exact ⟨rfl, rfl, rfl, rfl, rfl, rfl, rfl, rfl, rfl⟩

/-- A dispatch whose bytes have not come waits for them. -/
theorem dispatch_waits (h : DescAt s p q d) (hkind : descKind d = 2) (hcheck : s.dispatchCheck p d = none)
    (hjobs : ∀ j ∈ (s.pitch p).queues.jobs, j.key ≠ (s.pitch p).descKey) (hreads : ∀ r ∈ s.dma, r.use ≠ .descriptor p (s.pitch p).descKey)
    (hwait : ∃ u, s.descFetch p q (s.pitch p).descKey (dispatchNeeds d) = .wait u) :
    ∃ t, exec (.dispatchDescriptor p q) s = .next t ∧ DescWaits p q d s t := by
  obtain ⟨t, n, hfetch, hn, hasked⟩ := State.popped_waits hwait hreads q
  have hwork : dispatchWork p (poppedJob s p q d) (s.popped p q) = .wait t := by
    unfold dispatchWork
    simp only [poppedJob, hfetch]
  exact ⟨_, dispatch_runs h hkind hcheck, descWaits_of hwork hn hasked hjobs⟩

end

end Sys2Proof.Machine
end

