-- ==== Sys2Proof/Proofs/CombineDescriptors.lean ====
section
/-! PROOF. A combine returns every filled slot, and a dispatch completes (10 R242, R243). -/

namespace Sys2Proof.Machine

open Sys2Proof.Claims

/-! ## Frames of results -/

theorem chunks_ne_nil {α : Type} (n : Nat) {xs : List α} (h : xs ≠ []) : chunks n xs ≠ [] := by
  cases xs with
  | nil => exact absurd rfl h
  | cons x xs =>
    rw [chunks, List.length_cons, chunksGo]
    simp

theorem length_markLast (fs : List TxFrame) : (markLast fs).length = fs.length := by
  induction fs with
  | nil => rfl
  | cons f fs ih => rw [markLast, List.length_cons, ih, List.length_cons]

/-- A token that has bytes has codes. -/
theorem tokenQuant_ne_nil (fmt : Nat) {bytes : Bytes} (h : bytes ≠ []) : (tokenQuant fmt bytes).2.2 ≠ [] := by
  simp only [tokenQuant]
  intro hnil
  simp only [List.map_eq_nil_iff] at hnil
  exact chunks_ne_nil _ h hnil

theorem tokenFrames_ne_nil (dst target : Nat) (exch : W16) (seq idx : Nat) (header : Bytes) {codes : List Nat} (use : TxUse) (h : codes ≠ []) :
    tokenFrames dst target exch seq idx header codes use ≠ [] := by
  have hchunks := chunks_ne_nil 4080 h
  rw [tokenFrames, ne_eq, List.map_eq_nil_iff, ← List.length_eq_zero_iff, List.length_zipIdx, List.length_eq_zero_iff]
  exact hchunks

section
variable {s : State} {p : PitchId} {q : Nat} {d : Bytes} {e : Exchange}

/-! ## Combine descriptors (R243) -/

/-- Quantising one filled slot. -/
def combineStep (q : Nat) (head : W16) (d : Bytes) (e : Exchange) (acc : Pitch × List TxFrame) (t : (Nat × Nat × Nat × Nat × Nat) × Bytes) :
    Pitch × List TxFrame :=
  (acc.1.noteToken (tokenQuant (leAt d 2 1 % 32) t.2).2.1 (tokenQuant (leAt d 2 1 % 32) t.2).2.2,
    acc.2 ++ tokenFrames t.1.2.2.1 tgMoeReturn e.exch (leAt d 16 2) acc.2.length
      (leBytes 4 t.1.2.2.2.2 ++ leBytes 1 t.1.2.2.2.1 ++ leBytes 1 ((tokenQuant (leAt d 2 1 % 32) t.2).1 + 127).toNat ++ [0, 0])
      ((tokenQuant (leAt d 2 1 % 32) t.2).2.2.map Quant.code) (.moeReturn e.exch q head))

/-- Quantising the filled slots. -/
def combineFold (x : Pitch) (q : Nat) (head : W16) (d : Bytes) (e : Exchange) (outs : List Bytes) : Pitch × List TxFrame :=
  (e.slots.zip outs).foldl (combineStep q head d e) (x, [])

theorem combineFold_moved (x : Pitch) (q : Nat) (head : W16) (d : Bytes) (e : Exchange) (outs : List Bytes) :
    FlagsMoved x (combineFold x q head d e outs).1 :=
  FlagsMoved.foldl (f := combineStep q head d e) (fun c _ => FlagsMoved.noteToken c.1 _ _) _ (x, [])

/-- A filled slot with bytes is returned. -/
theorem combineFold_ne_nil (x : Pitch) (q : Nat) (head : W16) (d : Bytes) {e : Exchange} {outs : List Bytes} (hslots : e.slots ≠ [])
    (hlen : outs.length = e.slots.length) (houts : ∀ o ∈ outs, o ≠ []) : (combineFold x q head d e outs).2 ≠ [] := by
  have hstep (c : Pitch × List TxFrame) (t : (Nat × Nat × Nat × Nat × Nat) × Bytes) (ht : t.2 ≠ []) : (combineStep q head d e c t).2 ≠ [] := by
    have hcodes : (tokenQuant (leAt d 2 1 % 32) t.2).2.2.map Quant.code ≠ [] := by
      rw [ne_eq, List.map_eq_nil_iff]
      exact tokenQuant_ne_nil _ ht
    exact List.append_ne_nil_of_right_ne_nil _ (tokenFrames_ne_nil _ _ _ _ _ _ _ hcodes)
  have hkeep (ts : List ((Nat × Nat × Nat × Nat × Nat) × Bytes)) (c : Pitch × List TxFrame) (hc : c.2 ≠ []) :
      (ts.foldl (combineStep q head d e) c).2 ≠ [] := by
    induction ts generalizing c with
    | nil => exact hc
    | cons t ts ih => exact ih _ (List.append_ne_nil_of_left_ne_nil hc _)
  rw [combineFold]
  cases hs : e.slots with
  | nil => exact absurd hs hslots
  | cons t ts =>
    cases ho : outs with
    | nil => simp [hs, ho] at hlen
    | cons o os =>
      rw [List.zip_cons_cons, List.foldl_cons]
      exact hkeep _ _ (hstep (x, []) (t, o) (houts o (ho ▸ List.mem_cons_self)))

theorem State.combineAccept_eq (s : State) (p : PitchId) (q : Nat) (head : W16) (d : Bytes) (e : Exchange) (outs : List Bytes) :
    s.combineAccept p q head d e outs =
      if (markLast (combineFold (s.pitch p) q head d e outs).2).isEmpty then
        (s.setPitch p (combineFold (s.pitch p) q head d e outs).1).complete p 3 stOk q head 0 (descCookie d)
      else (s.setPitch p ((combineFold (s.pitch p) q head d e outs).1.setExchange { e with
          combines := e.combines ++ [(q, head, descCookie d, (markLast (combineFold (s.pitch p) q head d e outs).2).length)] })).sendWindowed p
        (markLast (combineFold (s.pitch p) q head d e outs).2) := rfl

/-- A combine that passes its tests is of the step, in a host format. -/
theorem combineCheck_passed {x : Pitch} (h : x.combineCheck d = none) : x.stepIs d = true ∧ fmtHost (leAt d 2 1 % 32) false = true := by
  unfold Pitch.combineCheck at h
  extract_lets at h
  exact ⟨need_none (firstOf_none h (by simp only [List.mem_cons]; tauto)), need_none (firstOf_none h (by simp only [List.mem_cons]; tauto))⟩

/-- The exchange of a combine is the dispatched one. -/
theorem combine_finds {x : Pitch} (hstep : x.stepLo = BitVec.ofNat 16 (leAt d 4 2)) :
    x.exchanges.find? (fun e => e.exch.toNat = leAt d 6 2 && e.stepLo.toNat = leAt d 4 2 && e.own.isSome) =
      x.dispatched (BitVec.ofNat 16 (leAt d 6 2)) := by
  rw [Pitch.dispatched, hstep]
  congr 1
  funext e
  rw [Bool.eq_iff_iff]
  simp only [Bool.and_eq_true, decide_eq_true_eq, eq_ofNat_iff]

/-- A combine whose bytes are there. -/
theorem combine_takes (h : DescAt s p q d) (hkind : descKind d = 3) (hcheck : (s.pitch p).combineCheck d = none)
    (hfound : (s.pitch p).dispatched (BitVec.ofNat 16 (leAt d 6 2)) = some e) {outs : List Bytes}
    (hready : s.descFetch p q (s.pitch p).descKey (combineNeeds d e) = .ready outs) :
    exec (.combineDescriptor p q) s = .next ((s.begun p q).combineAccept p q (headAfter s p q) d e outs) := by
  have hwork : combineWork p (poppedJob s p q d) (s.popped p q) =
      .take (fun s' => s'.combineAccept p q (headAfter s p q) d e outs) := by
    have hfetch := State.popped_ready hready q
    have hexchange : ((s.popped p q).pitch p).exchanges.find? (fun e =>
        e.exch.toNat = leAt d 6 2 && e.stepLo.toNat = leAt d 4 2 && e.own.isSome) = some e := by
      obtain ⟨qs, hpop⟩ := (s.pitch p).popDesc_rest q
      rw [State.popped_pitch, hpop]
      exact (combine_finds (stepIs_stepLo (combineCheck_passed hcheck).1)).trans hfound
    unfold combineWork
    split
    next hnone => exact absurd (hnone.symm.trans hexchange) (by simp)
    next e' hsome =>
      obtain rfl := Option.some.inj (hsome.symm.trans hexchange)
      split
      next hfailed => exact absurd (hfailed.symm.trans hfetch) (by simp)
      next hwaits => exact absurd (hwaits.symm.trans hfetch) (by simp)
      next outs' hthere =>
        obtain rfl := DescFetch.ready.inj (hthere.symm.trans hfetch)
        rfl
  change execCombineDescriptor p q s = _
  rw [execCombineDescriptor, live_next s _ h.up, descriptor_runs h (by simp [hkind]) hcheck, State.runDesc_take hwork]

/-- A combine without filled slots completes at once. -/
theorem combine_empty (h : DescAt s p q d) (hkind : descKind d = 3) (hcheck : (s.pitch p).combineCheck d = none)
    (hfound : (s.pitch p).dispatched (BitVec.ofNat 16 (leAt d 6 2)) = some e) {outs : List Bytes}
    (hready : s.descFetch p q (s.pitch p).descKey (combineNeeds d e) = .ready outs) (hslots : e.slots = []) (hroom : CplRoom (s.pitch p) q) :
    ∃ t, exec (.combineDescriptor p q) s = .next t ∧ DescTaken p q s t ∧
      CplWritten p 3 stOk q (headAfter s p q) 0 (descCookie d) s t := by
  have hfold : combineFold ((s.begun p q).pitch p) q (headAfter s p q) d e outs = ((s.begun p q).pitch p, []) := by
    rw [combineFold, hslots]
    rfl
  have hrun := combine_takes h hkind hcheck hfound hready
  rw [State.combineAccept_eq, hfold, if_pos (by rfl)] at hrun
  obtain ⟨qs, hbegun⟩ := s.begun_rest p q
  obtain ⟨htaken, hwritten, -⟩ := State.begun_completes (s := s) (p := p) (q := q)
    (u := (s.begun p q).setPitch p ((s.begun p q).pitch p)) hroom rfl (by rw [State.pitch_setPitch, hbegun])
    (by rw [State.pitch_setPitch, hbegun]) (by rw [State.pitch_setPitch])
    (fun r hr => (State.pitch_setPitch_ne _ p r _ hr).trans (State.begun_others hr)) 3 stOk (headAfter s p q) 0 (descCookie d)
  exact ⟨_, hrun, htaken, hwritten⟩

/-- A combine returns every filled slot. -/
theorem combine_returns (h : DescAt s p q d) (hkind : descKind d = 3) (hcheck : (s.pitch p).combineCheck d = none)
    (hfound : (s.pitch p).dispatched (BitVec.ofNat 16 (leAt d 6 2)) = some e) {outs : List Bytes}
    (hready : s.descFetch p q (s.pitch p).descKey (combineNeeds d e) = .ready outs) (hslots : e.slots ≠ []) (helems : 1 ≤ e.elems) :
    ∃ t e' n, exec (.combineDescriptor p q) s = .next t ∧ DescTaken p q s t ∧ t = { s with pitches := t.pitches } ∧
      (t.pitch p).dispatched (BitVec.ofNat 16 (leAt d 6 2)) = some e' ∧
      e' = { e with combines := e.combines ++ [(q, headAfter s p q, descCookie d, n)] } ∧ 1 ≤ n ∧
      (t.pitch p).tx.txq.length = (s.pitch p).tx.txq.length + n := by
  obtain ⟨-, -, hparts⟩ := State.descFetch_ready hready
  obtain ⟨hstep, hfmt⟩ := combineCheck_passed hcheck
  obtain ⟨hexch, hlo, hown⟩ := Pitch.dispatched_some hfound
  have hbytes : 0 < e.elems * elemBytes (leAt d 2 1 % 32) := by
    have hle : leAt d 2 1 % 32 ≤ 2 := by simpa [fmtHost] using hfmt
    have hpos : ∀ f, f ≤ 2 → 0 < elemBytes f := by decide
    exact Nat.mul_pos helems (hpos _ hle)
  have houts : ∀ o ∈ outs, o ≠ [] := by
    intro o ho
    rw [hparts] at ho
    obtain ⟨r, hr, rfl⟩ := List.mem_map.mp ho
    obtain ⟨t, -, rfl⟩ := List.mem_map.mp hr
    rw [← List.length_pos_iff_ne_nil, State.length_rangeBytes]
    exact hbytes
  have hlen : outs.length = e.slots.length := by simp [hparts, combineNeeds]
  obtain ⟨qs, hbegun⟩ := s.begun_rest p q
  have hmoved := combineFold_moved ((s.begun p q).pitch p) q (headAfter s p q) d e outs
  have hframes := combineFold_ne_nil ((s.begun p q).pitch p) q (headAfter s p q) d hslots hlen houts
  have hrun := combine_takes h hkind hcheck hfound hready
  rw [State.combineAccept_eq] at hrun
  generalize combineFold ((s.begun p q).pitch p) q (headAfter s p q) d e outs = fold at hrun hmoved hframes
  have hpos : 0 < (markLast fold.2).length := by
    rw [length_markLast]
    exact List.length_pos_iff_ne_nil.mpr hframes
  rw [if_neg (by rw [List.isEmpty_iff_length_eq_zero]; omega)] at hrun
  generalize markLast fold.2 = frames at hrun hpos
  obtain ⟨hrest, hothers, hframesOwn, hlength, -⟩ := FramesJoined.sendWindowed ((s.begun p q).setPitch p
    (fold.1.setExchange { e with combines := e.combines ++ [(q, headAfter s p q, descCookie d, frames.length)] })) p frames
  rw [State.pitch_setPitch] at hframesOwn hlength
  have htx : fold.1.tx = (s.pitch p).tx := by
    rw [hmoved, hbegun]
  have hfoldLo : fold.1.stepLo = (s.pitch p).stepLo := by
    rw [hmoved.stepLo, hbegun]
    rfl
  refine ⟨_, { e with combines := e.combines ++ [(q, headAfter s p q, descCookie d, frames.length)] }, frames.length, hrun,
    descTaken_of ?_ fun r hr => ?_, ?_, ?_, rfl, hpos, ?_⟩
  · rw [hframesOwn.queues]
    exact hmoved.queues
  · rw [hothers r hr, State.pitch_setPitch_ne _ p r _ hr, State.begun_others hr]
  · rw [hrest]
    rfl
  · rw [Pitch.dispatched_congr hframesOwn.exchanges hframesOwn.time, ← hexch]
    exact Pitch.dispatched_setExchange hown (hlo.trans hfoldLo.symm)
  · rw [hlength]
    exact congrArg (fun tx : Transport => tx.txq.length + frames.length) htx

/-! ## A dispatch completes (R242) -/

/-- A dispatch completes once T is there, its frames are acknowledged and its slots filled. -/
theorem dispatchComplete_completes {exch : W16} (hup : s.held = false) (hfound : (s.pitch p).dispatched exch = some e)
    (hworks : (s.pitch p).works = true) (hopen : e.complete = false) (htotals : e.totals.isSome = true) (hacked : e.acked = e.frames)
    (hkept : e.kept ≠ 0) (hroom : CplRoom (s.pitch p) e.wq)
    (hslots : ∀ f ∈ s.filledSlots p e, ∃ v ∈ e.slots, v.1 = f.1 ∧ v.2.1 = f.2) :
    ∃ t, exec (.dispatchComplete p exch) s = .next t ∧ (∀ r, r ≠ p → t.pitch r = s.pitch r) ∧
      (t.pitch p).dispatched exch = some { e with complete := true } ∧ CplWritten p 2 stOk e.wq e.wqHead 0 e.cookie s t := by
  obtain ⟨hexch, hlo, hown⟩ := Pitch.dispatched_some hfound
  have hfilled : (s.filledSlots p e).all (fun f => e.slots.any (fun t => t.1 = f.1 && t.2.1 = f.2)) = true := by
    refine List.all_eq_true.mpr fun f hf => List.any_eq_true.mpr ?_
    obtain ⟨v, hv, hplace, hslot⟩ := hslots f hf
    exact ⟨v, hv, by simp [hplace, hslot]⟩
  have hdone : s.dispatchDone p exch =
      (s.setPitch p ((s.pitch p).setExchange { e with complete := true })).complete p 2 stOk e.wq e.wqHead 0 e.cookie := by
    simp only [State.dispatchDone, hfound, hworks, hopen, htotals, hacked, hfilled, if_neg hkept]
    rfl
  have hrun : exec (.dispatchComplete p exch) s = .next (s.dispatchDone p exch) := by
    change execDispatchComplete p exch s = _
    rw [execDispatchComplete, live_next s _ hup]
  rw [hdone] at hrun
  have hpitch := s.pitch_setPitch p ((s.pitch p).setExchange { e with complete := true })
  obtain ⟨hwritten, hothers, v, hafter⟩ := State.complete_writes
    (s := s.setPitch p ((s.pitch p).setExchange { e with complete := true })) (p := p) (wq := e.wq) (by rw [hpitch]; exact hroom) 2 stOk e.wqHead 0 e.cookie
  refine ⟨_, hrun, fun r hr => (hothers r hr).trans (State.pitch_setPitch_ne s p r _ hr), ?_, ?_⟩
  · have hset : ((s.pitch p).setExchange { e with complete := true }).dispatched exch = some { e with complete := true } := by
      rw [← hexch]
      exact Pitch.dispatched_setExchange (e := { e with complete := true }) hown hlo
    rw [hafter, hpitch]
    exact (Pitch.dispatched_congr (x := (s.pitch p).setExchange { e with complete := true }) rfl rfl exch).trans hset
  · exact cplWritten_congr (u := s.setPitch p ((s.pitch p).setExchange { e with complete := true })) (by rw [hpitch]; rfl)
      (by rw [hpitch]; rfl) (by rw [hpitch]; rfl) rfl hwritten

end

/-! ## O53 -/

/-- Settles O53: each kind of descriptor acts once its bytes are there, or waits for them, and a dispatch completes. -/
theorem descriptorsAct : Obligations.DescriptorsAct := by
  unfold Obligations.DescriptorsAct
  intro s p q d
  refine ⟨fun h => ⟨ingestDescriptor_joins h, ?_, ?_, ?_, ?_⟩, ?_⟩
  · intro hkind hcheck parts hready
    exact dispatch_counts h hkind hcheck hready
  · intro hkind hcheck e outs hfound hready
    exact ⟨combine_empty h hkind hcheck hfound hready, combine_returns h hkind hcheck hfound hready⟩
  · intro hkind hcheck parts data hready hdata
    exact ⟨oneSided_cuts h hkind hcheck hready hdata, oneSided_empty h hkind hcheck hready hdata⟩
  · intro hjobs hreads
    exact ⟨fun hkind hcheck => dispatch_waits h hkind hcheck hjobs hreads, fun hkind hcheck => oneSided_waits h hkind hcheck hjobs hreads⟩
  · intro hup exch e hfound hworks hopen htotals hacked hkept hroom hslots
    exact dispatchComplete_completes hup hfound hworks hopen htotals hacked hkept hroom hslots

end Sys2Proof.Machine
end

