-- ==== Sys2Proof/Proofs/LowrankTiles.lean ====
section
/-! PROOF. The tiles of a LOWRANK stage, run one after another until the stage ends (08 R179, R182, R187). -/

namespace Sys2Proof.Machine

open Sys2Proof.Claims

/-! ## The one run of a bucket -/

/-- Where two tests find the same entry first, the second finds what the first has it replaced by. -/
theorem find?_replaceFirst_same {α : Type} {f g : α → Bool} {x y : α} {xs : List α} (hf : xs.find? f = some x) (hg : xs.find? g = some x)
    (hy : g y = true) : (replaceFirst f (fun _ => y) xs).find? g = some y := by
  induction xs with
  | nil => simp at hf
  | cons z zs ih =>
    have hgx := List.find?_some hg
    have hfx := List.find?_some hf
    unfold replaceFirst
    cases hfz : f z with
    | true => simp [hy]
    | false =>
      have hgz : g z = false := by
        by_contra hgz
        rw [Bool.not_eq_false] at hgz
        obtain rfl : z = x := by simpa [hgz] using hg
        simp [hfx] at hfz
      simpa [hgz] using ih (by simpa [hfz] using hf) (by simpa [hgz] using hg)

theorem runIs_setRun {x : Pitch} {b : Nat} {r r' : BucketRun} (h : RunIs x b r) (hbucket : r'.bucket = r.bucket)
    (hparts : r'.parts = r.parts) : RunIs (x.setRun r') b r' := by
  obtain ⟨hfind, hrun⟩ := h
  obtain ⟨rfl, -⟩ := Pitch.find_bucket hfind
  refine ⟨Pitch.find_setRun hfind hbucket, ?_⟩
  have hmem : decide (r.bucket ∈ r'.parts) = true := by
    rw [hparts]
    exact List.find?_some (p := fun q : BucketRun => decide (r.bucket ∈ q.parts)) hrun
  have hset := find?_replaceFirst_same (f := fun q : BucketRun => q.bucket = r.bucket) hfind hrun hmem
  rw [← hbucket] at hset ⊢
  exact hset

theorem FlagsMoved.runMoved {x y : Pitch} (h : FlagsMoved x y) : RunMoved x y := by
  rw [FlagsMoved] at h
  rw [RunMoved, h]

theorem FlagsMoved.runs {x y : Pitch} (h : FlagsMoved x y) : y.runs = x.runs := by rw [h]

theorem RunMoved.works {x y : Pitch} (h : RunMoved x y) : y.works = x.works := by
  obtain ⟨f, rs, tx, cs, rfl⟩ := h.exists
  rfl

/-! ## Where a bucket stands in its stages -/

/-- Since pitch x the run r of the bucket has come to this stage, with so many of its tiles done; of the pitch only runs,
transmission, flags and counters moved. -/
structure LowAt (x : Pitch) (bucket : Nat) (r : BucketRun) (stage tiles : Nat) (y : Pitch) : Prop where
  moved : RunMoved x y
  run : ∃ l, RunIs y bucket { r with lr := some l } ∧ l.stage = stage ∧ l.tiles = tiles

section
variable {x y z : Pitch} {bucket stage tiles : Nat} {r : BucketRun}

theorem LowAt.start {l : LrRun} (hrun : RunIs x bucket r) (hlr : r.lr = some l) : LowAt x bucket r l.stage l.tiles x :=
  ⟨RunMoved.refl, l, by rw [← hlr]; exact hrun, rfl, rfl⟩

theorem LowAt.flagsMoved (h : LowAt x bucket r stage tiles y) (hz : FlagsMoved y z) : LowAt x bucket r stage tiles z := by
  obtain ⟨hmoved, l, hrun, hstage, htiles⟩ := h
  refine ⟨hmoved.trans hz.runMoved, l, ?_, hstage, htiles⟩
  rw [RunIs, Pitch.runOf, hz.runs]
  exact hrun

theorem LowAt.setRun (h : LowAt x bucket r stage tiles y) (l : LrRun) :
    LowAt x bucket r l.stage l.tiles (y.setRun { r with lr := some l }) := by
  obtain ⟨hmoved, l₀, hrun, -, -⟩ := h
  exact ⟨hmoved.trans (RunMoved.setRun _ _), l, runIs_setRun hrun rfl rfl, rfl, rfl⟩

theorem LowAt.stageIs (h : LowAt x bucket r stage tiles y) : StageIs y bucket stage := by
  obtain ⟨-, l, hrun, hstage, -⟩ := h
  obtain ⟨hbucket, hmem⟩ := Pitch.find_bucket hrun.1
  exact ⟨_, hmem, hbucket, l, rfl, hstage⟩

theorem LowAt.find (h : LowAt x bucket r stage tiles y) :
    ∃ l, y.runs.find? (fun q => q.bucket = bucket) = some { r with lr := some l } ∧ l.stage = stage ∧ l.tiles = tiles := by
  obtain ⟨-, l, hrun, hstage, htiles⟩ := h
  exact ⟨l, hrun.1, hstage, htiles⟩

end

/-! ## One tile -/

section
variable (s : State) (p : PitchId) (r : BucketRun)

theorem State.raise_moved (f : BitVec 6) : FlagsMoved (s.pitch p) ((s.raise p f).pitch p) := by
  unfold State.raise
  split
  · exact FlagsMoved.refl _
  · rw [State.pitch_modPitch]
    exact FlagsMoved.raise _ _

/-- The residuals of a tile raise flags at the pitch. -/
theorem State.tileResiduals_moved (t : Tile) (sums : List W640) : FlagsMoved (s.pitch p) ((s.tileResiduals p r t sums).pitch p) := by
  unfold State.tileResiduals
  extract_lets x h n z
  refine List.foldlRecOn (motive := fun u : State => FlagsMoved (s.pitch p) (u.pitch p)) _ _ (FlagsMoved.refl _) fun u hu e _ => ?_
  exact hu.trans (u.raise_moved p _)

theorem State.pitch_foldl {α : Type} {f : State → α → State} (hf : ∀ t a, (f t a).pitch p = t.pitch p) (as : List α) :
    (as.foldl f s).pitch p = s.pitch p :=
  List.foldlRecOn (motive := fun u : State => u.pitch p = s.pitch p) as f rfl fun u hu a _ => (hf u a).trans hu

theorem State.pitch_ergAddTo (g : Nat) (v : W640) : (s.ergAddTo g v).pitch p = s.pitch p :=
  s.pitch_of_pitches _ (State.ergAddTo_pitches s g v) p

/-- The spill of a tile's sums leaves the stage of its run and the count of its tiles. -/
theorem LowAt.tileSpill {x : Pitch} {bucket stage tiles st : Nat} {r₀ : BucketRun} {t : Tile} {sums : List W640}
    (h : LowAt x bucket r₀ stage tiles (s.pitch p)) (hbucket : r.bucket = bucket) :
    LowAt x bucket r₀ stage tiles ((s.tileSpill p r st t sums).pitch p) := by
  unfold State.tileSpill
  extract_lets x₀ h₀ k base ents spilled outs fl cleared written
  have hspilled : spilled.pitch p = s.pitch p := State.pitch_foldl s p (fun _ _ => State.pitch_ergAddTo _ p _ _) ents
  have hcleared : cleared.pitch p = spilled.pitch p :=
    State.pitch_foldl spilled p (fun _ _ => State.pitch_ergClear _ _ _ p) outs
  have hwritten : written.pitch p = s.pitch p := hcleared.trans hspilled
  clear_value written cleared spilled
  split
  · rwa [hspilled]
  · rw [State.pitch_modPitch, hwritten]
    extract_lets y
    have hy : LowAt x bucket r₀ stage tiles y := h.flagsMoved ((FlagsMoved.raise _ _).trans (FlagsMoved.count _ _ _))
    obtain ⟨-, l, ⟨-, hrun⟩, hstage, htiles⟩ := h
    subst hbucket hstage htiles
    rw [hrun]
    exact hy.setRun { l with nf := l.nf || outs.any (fun o => o.2.2.1 ≠ 0) }

/-- A tile counts as done. -/
theorem LowAt.runTile {x : Pitch} {bucket stage tiles : Nat} {l : LrRun} {t : Tile}
    (h : LowAt x bucket r stage tiles (s.pitch p)) (hrun : RunIs (s.pitch p) bucket { r with lr := some l }) :
    LowAt x bucket r l.stage (l.tiles + 1) ((s.runTile p { r with lr := some l } l t).pitch p) := by
  unfold State.runTile
  extract_lets x₀ fresh r'
  split
  next sums tails reps fl nf _ =>
    extract_lets y started
    have hy : FlagsMoved (s.pitch p) y := ((((FlagsMoved.raise _ _).trans (FlagsMoved.count _ _ _)).trans (FlagsMoved.count _ _ _)).trans
      (FlagsMoved.count _ _ _)).trans (FlagsMoved.count _ _ _)
    have hstarted : LowAt x bucket r l.stage (l.tiles + 1) (started.pitch p) := by
      rw [State.pitch_setPitch]
      exact (h.flagsMoved hy).setRun { l with tiles := l.tiles + 1 }
    split
    · exact hstarted.flagsMoved (State.tileResiduals_moved _ _ _ _ _)
    · exact LowAt.tileSpill _ _ _ hstarted (Pitch.find_bucket hrun.1).1

end

/-! ## The tiles of a stage -/

theorem TileWork.sliceWorks {p : PitchId} {s t : State} (h : TileWork p s t) : t.sliceWorks = s.sliceWorks := by
  rw [h.rest]
  rfl

/-- What lets the tiles of a stage run: the pitch works, holds the banks, and the stage runs on the arrays for this run. -/
structure ArrayStage (x : Pitch) (p : PitchId) (r : BucketRun) (stage : Nat) : Prop where
  works : x.works = true
  banks : LrBanks x p r
  runs : stage = 4 ∨ stage = 6 ∨ (stage = 1 ∧ r.nf = false)

section
variable {x y : Pitch} {p : PitchId} {bucket stage tiles : Nat} {r : BucketRun}

theorem LowAt.nextTile (h : LowAt x bucket r stage tiles y) (hgo : ArrayStage x p r stage) :
    ∃ l, RunIs y bucket { r with lr := some l } ∧ l.stage = stage ∧ l.tiles = tiles ∧
      y.nextTile p bucket = ((tilePlan (r.head x) stage)[tiles]?).map (fun t => ({ r with lr := some l }, l, t)) := by
  obtain ⟨hmoved, l, hrun, hstage, htiles⟩ := h
  obtain ⟨hworks, hbanks, hruns⟩ := hgo
  obtain ⟨f, rs, tx, cs, rfl⟩ := hmoved.exists
  refine ⟨l, hrun, hstage, htiles, ?_⟩
  have hmay : (x.works && x.hasBanks p ((List.range (bLrErgCount (r.head x))).map (bLrErgBase (r.head x) + ·)) &&
      (l.stage = 4 || l.stage = 6 || (l.stage = 1 && !r.nf))) = true := by
    rw [LrBanks] at hbanks
    rcases hruns with h | h | ⟨h, hnf⟩ <;> simp [*]
  subst hstage htiles
  rw [Pitch.nextTile, hrun.1]
  exact if_pos hmay

/-- Stage 1 of a run with NF set has no tile. -/
theorem LowAt.nextTile_nf (h : LowAt x bucket r 1 tiles y) (hnf : r.nf = true) : y.nextTile p bucket = none := by
  obtain ⟨l, hfind, hstage, -⟩ := h.find
  simp [Pitch.nextTile, hfind, hnf, hstage]

/-- The tiles left of a stage are all run where every slice takes work. -/
theorem runTiles_done (hgo : ArrayStage x p r stage) (n : Nat) {s : State} {tiles : Nat} (hworks : ∀ n, s.sliceWorks n = true)
    (h : LowAt x bucket r stage tiles (s.pitch p)) (hn : (tilePlan (r.head x) stage).length ≤ tiles + n) :
    ∃ k, (tilePlan (r.head x) stage).length ≤ k ∧ LowAt x bucket r stage k ((runTiles p bucket stage n s).pitch p) := by
  induction n generalizing s tiles with
  | zero => exact ⟨tiles, hn, h⟩
  | succ n ih =>
    obtain ⟨l, hrun, hstage, htiles, hnext⟩ := h.nextTile hgo
    unfold runTiles
    cases htile : (tilePlan (r.head x) stage)[tiles]? with
    | none =>
      rw [hnext, htile]
      exact ⟨tiles, List.getElem?_eq_none_iff.mp htile, h⟩
    | some t =>
      rw [hnext, htile]
      simp only [Option.map_some, hstage, hworks, decide_true, Bool.and_self, if_true]
      have hdone := h.runTile s p r (t := t) hrun
      rw [hstage, htiles] at hdone
      exact ih (by rw [(s.runTile_work p _ l t).sliceWorks]; exact hworks) hdone (by omega)

theorem runTiles_work (n : Nat) (s : State) : TileWork p s (runTiles p bucket stage n s) := by
  induction n generalizing s with
  | zero => exact TileWork.refl
  | succ n ih =>
    unfold runTiles
    split
    · split
      · exact (s.runTile_work p _ _ _).trans (ih _)
      · exact TileWork.refl
    · exact TileWork.refl

/-- Without a tile nothing is run. -/
theorem runTiles_none {s : State} (h : (s.pitch p).nextTile p bucket = none) (n : Nat) : runTiles p bucket stage n s = s := by
  cases n with
  | zero => rfl
  | succ n => rw [runTiles, h]

/-- Stages 1 and 4 end with their last tile; stage 1 of a run with NF set has none. -/
theorem LowAt.stageEnd {s : State} (h : LowAt x bucket r stage tiles (s.pitch p)) (hstage : stage = 1 ∨ stage = 4)
    (hover : (stage = 1 ∧ r.nf = true) ∨ (tilePlan (r.head x) stage).length ≤ tiles) :
    LowAt x bucket r (stage + 1) 0 ((s.stageEnd p bucket).pitch p) := by
  have hhead := h.moved.head r
  obtain ⟨l, hfind, rfl, rfl⟩ := h.find
  have hnext := h.setRun { l with stage := l.stage + 1, tiles := 0 }
  have hover : ((l.stage = 1 || l.stage = 4) && ((l.stage = 1 && r.nf) ||
      (tilePlan (r.head (s.pitch p)) l.stage).length ≤ l.tiles)) = true := by
    rw [hhead]
    rcases hover with ⟨h, hnf⟩ | h
    · simp [h, hnf]
    · rcases hstage with hl | hl <;> rw [hl] at h <;> simp [hl, h]
  have hend : (s.stageEnd p bucket).pitch p =
      (s.pitch p).setRun { r with lr := some { l with stage := l.stage + 1, tiles := 0 } } := by
    rw [State.stageEnd, State.pitch_modPitch, hfind]
    exact if_pos hover
  rwa [hend]

/-- Stage 6 goes on after its tiles. -/
theorem LowAt.stageEnd_six {s : State} (h : LowAt x bucket r 6 tiles (s.pitch p)) : LowAt x bucket r 6 tiles ((s.stageEnd p bucket).pitch p) := by
  obtain ⟨l, hfind, hstage, -⟩ := h.find
  rw [State.stageEnd, State.pitch_modPitch, hfind]
  simpa [hstage] using h

end

theorem State.stageTiles_work (s : State) (p : PitchId) (bucket stage : Nat) : TileWork p s (s.stageTiles p bucket stage) := by
  unfold State.stageTiles
  extract_lets x
  split
  · split
    · exact (runTiles_work _ s).trans (State.stageEnd_work _ p bucket)
    · exact TileWork.refl
  · exact TileWork.refl

section
variable {s : State} {p : PitchId} {bucket : Nat} {r : BucketRun} {l : LrRun} (hrun : RunIs (s.pitch p) bucket r) (hlr : r.lr = some l)
  (hworks : (s.pitch p).works = true)

include hrun hlr hworks

theorem State.stageTiles_eq : s.stageTiles p bucket l.stage =
    (runTiles p bucket l.stage (tilePlan (r.head (s.pitch p)) l.stage).length s).stageEnd p bucket := by
  simp [State.stageTiles, hrun.1, BucketRun.lrStage, hlr, hworks]

/-- Stage 1 of a run with NF set ends without a tile. -/
theorem State.stageTiles_nf (hstage : l.stage = 1) (hnf : r.nf = true) :
    s.stageTiles p bucket l.stage = s.stageEnd p bucket ∧ LowAt (s.pitch p) bucket r (l.stage + 1) 0 ((s.stageEnd p bucket).pitch p) := by
  have hstart := LowAt.start hrun hlr
  refine ⟨?_, hstart.stageEnd (.inl hstage) (.inl ⟨hstage, hnf⟩)⟩
  rw [State.stageTiles_eq hrun hlr hworks, runTiles_none]
  rw [hstage] at hstart
  exact hstart.nextTile_nf hnf

variable (hslices : ∀ n, s.sliceWorks n = true) (hbanks : LrBanks (s.pitch p) p r)
include hslices hbanks

/-- Stages 1 and 4 run the tiles they have left and end. -/
theorem State.stageTiles_ends (hstage : l.stage = 1 ∨ l.stage = 4) :
    LowAt (s.pitch p) bucket r (l.stage + 1) 0 ((s.stageTiles p bucket l.stage).pitch p) := by
  by_cases hnf : l.stage = 1 ∧ r.nf = true
  · obtain ⟨heq, hend⟩ := State.stageTiles_nf hrun hlr hworks hnf.1 hnf.2
    rwa [heq]
  · have hgo : ArrayStage (s.pitch p) p r l.stage := ⟨hworks, hbanks, by
      rcases hstage with h | h
      · exact .inr (.inr ⟨h, by simpa [h] using hnf⟩)
      · exact .inl h⟩
    rw [State.stageTiles_eq hrun hlr hworks]
    obtain ⟨k, hk, hdone⟩ := runTiles_done hgo _ hslices (LowAt.start hrun hlr) (Nat.le_add_left _ _)
    exact hdone.stageEnd hstage (.inr hk)

/-- Stage 6 runs the tiles it has left. -/
theorem State.stageTiles_six (hstage : l.stage = 6) : ∃ k, (tilePlan (r.head (s.pitch p)) 6).length ≤ k ∧
    LowAt (s.pitch p) bucket r 6 k ((s.stageTiles p bucket 6).pitch p) := by
  have hgo : ArrayStage (s.pitch p) p r l.stage := ⟨hworks, hbanks, .inr (.inl hstage)⟩
  obtain ⟨k, hk, hdone⟩ := runTiles_done hgo _ hslices (LowAt.start hrun hlr) (Nat.le_add_left _ _)
  have heq := State.stageTiles_eq hrun hlr hworks
  rw [hstage] at hk hdone heq
  rw [heq]
  exact ⟨k, hk, hdone.stageEnd_six⟩

end

end Sys2Proof.Machine
end

