-- ==== Sys2Proof/Proofs/LowrankFactors.lean ====
section
/-! PROOF. Orthonormalising P, and quantising a factor block for its exchange (08 R180, R181, R185). -/

namespace Sys2Proof.Machine

open Sys2Proof.Claims

/-! ## Stage 3 (08 R181, R185) -/

section
variable {s : State} {p : PitchId} {bucket : Nat} {r : BucketRun} {l : LrRun}

/-- The pitch once orthonormalising has raised its flags and counted. -/
def Pitch.orthoNoted (x : Pitch) (o : Ortho) : Pitch := ((x.raise o.flags).count .ergOutRetry o.reps).count .lrDegenerate o.degen

theorem FlagsMoved.orthoNoted (x : Pitch) (o : Ortho) : FlagsMoved x (x.orthoNoted o) :=
  ((FlagsMoved.raise x _).trans (FlagsMoved.count _ _ _)).trans (FlagsMoved.count _ _ _)

theorem Pitch.counter_orthoNoted (x : Pitch) (o : Ortho) {c : PCtr} (htime : c ≠ .ndcTime) (hbits : c ≠ .ndcBits)
    (hretry : c ≠ .ergOutRetry) :
    (x.orthoNoted o).counter c = x.counter c + BitVec.ofNat 64 (if c = .lrDegenerate then o.degen else 0) := by
  rw [Pitch.orthoNoted, Pitch.counter_count_of _ htime hbits, Pitch.counter_count_ne _ htime hbits hretry]
  rfl

theorem Pitch.counter_lrStop (x : Pitch) (r : BucketRun) :
    (x.lrStop r).counter .nonfiniteBuckets = x.counter .nonfiniteBuckets + 1 :=
  Pitch.counter_count (x.setRun _) (c := .nonfiniteBuckets) (by decide) (by decide) 1

/-- The verdict of a step with a non-finite bucket counts nothing. -/
theorem State.guardProgress_counters (h : (s.pitch p).guard.nonfinite = true) :
    ((s.guardProgress p).pitch p).counters = (s.pitch p).counters := by
  unfold State.guardProgress
  split
  · rfl
  · rw [State.pitch_modPitch]

/-- The rows of the orthonormal columns, as they are written back over P. -/
def orthoBytes (x : Pitch) (r : BucketRun) (o : Ortho) : Bytes :=
  wordBytes ((List.range (bLrM (r.head x))).flatMap (fun i => o.cols.map (fun c => c.getD i 0)))

theorem State.orthonormalise_eq (s : State) (p : PitchId) (r : BucketRun) (l : LrRun) : s.orthonormalise p r l =
    if (orthoOf s p r).bad then (s.setPitch p (((s.pitch p).orthoNoted (orthoOf s p r)).lrStop r)).guardProgress p
    else (s.setPitch p (((s.pitch p).orthoNoted (orthoOf s p r)).setRun { r with lr := some { l with stage := 4, tiles := 0 } })).write
      (lrPBase (r.head (s.pitch p))) (orthoBytes (s.pitch p) r (orthoOf s p r)) := rfl

section
variable (hup : s.held = false) (hfind : (s.pitch p).runs.find? (fun q => q.bucket = bucket) = some r)
  (hlr : r.lr = some l) (hworks : (s.pitch p).works = true) (hstage : l.stage = 3)
include hup hfind hlr hworks hstage

theorem exec_orthonormaliseStage : exec (.orthonormaliseStage p bucket) s = .next (s.orthonormalise p r l) := by
  change execOrthonormaliseStage p bucket s = _
  rw [execOrthonormaliseStage, live_next s _ hup]
  simp [hfind, hlr, hworks, hstage]

/-- Stage 3 writes the orthonormal columns over P and counts those that it zeroed. -/
theorem orthonormaliseStage_good (hgood : (orthoOf s p r).bad = false) : ∃ t, exec (.orthonormaliseStage p bucket) s = .next t ∧
    StageIs (t.pitch p) bucket 4 ∧ t = { s with pitches := t.pitches, mem := t.mem } ∧ (∀ q, q ≠ p → t.pitch q = s.pitch q) ∧
    t.mem = (s.write (lrPBase (r.head (s.pitch p))) (orthoBytes (s.pitch p) r (orthoOf s p r))).mem ∧
    (t.pitch p).counter .lrDegenerate = (s.pitch p).counter .lrDegenerate + BitVec.ofNat 64 (orthoOf s p r).degen := by
  refine ⟨_, exec_orthonormaliseStage hup hfind hlr hworks hstage, ?_⟩
  rw [State.orthonormalise_eq, hgood, if_neg Bool.false_ne_true, State.pitch_write, State.pitch_setPitch]
  have hnoted := FlagsMoved.orthoNoted (s.pitch p) (orthoOf s p r)
  have hset := Pitch.find_setRun (x := (s.pitch p).orthoNoted (orthoOf s p r)) (r' := { r with lr := some { l with stage := 4, tiles := 0 } })
    (by rw [hnoted.runs]; exact hfind) (Pitch.find_bucket hfind).1
  obtain ⟨hbucket, hmem⟩ := Pitch.find_bucket hset
  refine ⟨⟨_, hmem, hbucket, _, rfl, rfl⟩, rfl, fun q hq => State.pitch_setPitch_ne s p q _ hq, rfl, ?_⟩
  exact (s.pitch p).counter_orthoNoted _ (c := .lrDegenerate) (by decide) (by decide) (by decide)

/-- A norm or dot product out of range stops the bucket. -/
theorem orthonormaliseStage_bad (hbad : (orthoOf s p r).bad = true) : ∃ t, exec (.orthonormaliseStage p bucket) s = .next t ∧
    StageIs (t.pitch p) bucket lrNonfinite ∧ Within p [] s t ∧ (t.pitch p).guard.nonfinite = true ∧
    (t.pitch p).counter .nonfiniteBuckets = (s.pitch p).counter .nonfiniteBuckets + 1 := by
  refine ⟨_, exec_orthonormaliseStage hup hfind hlr hworks hstage, ?_⟩
  rw [State.orthonormalise_eq, hbad, if_pos rfl]
  have hnoted := FlagsMoved.orthoNoted (s.pitch p) (orthoOf s p r)
  have hset := Pitch.find_setRun (x := (s.pitch p).orthoNoted (orthoOf s p r))
    (r' := { r with lr := r.lr.map (fun l => { l with stage := lrNonfinite }) })
    (by rw [hnoted.runs]; exact hfind) (Pitch.find_bucket hfind).1
  obtain ⟨hbucket, hmem⟩ := Pitch.find_bucket hset
  refine ⟨⟨_, ?_, hbucket, _, by rw [hlr]; rfl, rfl⟩, (Within.setPitch s _).trans (Within.guardProgress _), ?_, ?_⟩
  · rw [State.guardProgress_runs, State.pitch_setPitch, Pitch.lrStop, Pitch.bucketNonfinite, Pitch.reportNonfinite, Pitch.runs_count]
    exact hmem
  · rw [State.guardProgress_nonfinite, State.pitch_setPitch]
    rfl
  · have hcounters := State.guardProgress_counters (s := s.setPitch p (((s.pitch p).orthoNoted (orthoOf s p r)).lrStop r)) (p := p)
      (by rw [State.pitch_setPitch]; rfl)
    rw [Pitch.counter, hcounters, State.pitch_setPitch, ← Pitch.counter, Pitch.counter_lrStop,
      Pitch.counter_orthoNoted _ _ (by decide) (by decide) (by decide)]
    exact congrArg (· + 1) (BitVec.add_zero _)

end

/-! ## A factor block (08 R180) -/

theorem BucketRun.nextFactor_spec {x : Pitch} {f : Nat} (h : r.nextFactor x = some (l, f)) : r.lr = some l ∧ x.tx.packWait = [] := by
  unfold BucketRun.nextFactor at h
  split at h
  · simp at h
  next l' hlr =>
    split at h
    next hmay =>
      have hwait : x.tx.packWait = [] := by
        simp only [Pitch.packerWaits, Bool.and_eq_true, Bool.not_not, List.isEmpty_iff] at hmay
        exact hmay.2
      split at h
      · obtain ⟨rfl, -⟩ := Prod.mk.inj (Option.some.inj h)
        exact ⟨hlr, hwait⟩
      · split at h
        · obtain ⟨rfl, -⟩ := Prod.mk.inj (Option.some.inj h)
          exact ⟨hlr, hwait⟩
        · simp at h
    next => simp at h

section
variable {j kind off : Nat} {bytes : Bytes}

/-- Of the pitch a stream that reaches the Packer changes its run, transmission and counters. -/
theorem State.toPacker_pitch (s : State) (p : PitchId) (r : BucketRun) (j kind : Nat) (bytes : Bytes) :
    ∃ r', RunPacked r (s.pitch p) ((s.toPacker p r j kind bytes).pitch p) r' := by
  obtain ⟨y, r', hpacked, heq | ⟨off, -, heq⟩⟩ := s.toPacker_packed p r j kind bytes
  all_goals
    rw [heq, State.pitch_setPitch]
    exact ⟨r', hpacked⟩

/-- A Packer that does not wait writes a stream in the free slot of the ring. -/
theorem State.toPacker_writes (hwait : (s.pitch p).tx.packWait = []) (hplace : (s.pitch p).ringPlace p (r.slot (s.pitch p) kind) = some off) :
    OnlyPitch p (s.write ((s.pitch p).ringBase p + off) bytes) (s.toPacker p r j kind bytes) := by
  have heq : s.toPacker p r j kind bytes = s.packStream p r j kind bytes off := by
    simp [State.toPacker, hwait, hplace]
  rw [heq]
  exact onlyPitch_setPitch _ p _

/-- Without a free slot the stream waits. -/
theorem State.toPacker_waits (hplace : (s.pitch p).ringPlace p (r.slot (s.pitch p) kind) = none) :
    OnlyPitch p s (s.toPacker p r j kind bytes) := by
  have heq : s.toPacker p r j kind bytes = s.setPitch p ((s.pitch p).packLater r j kind bytes) := by
    simp [State.toPacker, hplace]
  rw [heq]
  exact onlyPitch_setPitch _ p _

end

/-- A run whose factor block f has been quantised. -/
def BucketRun.quantised (r : BucketRun) (l : LrRun) (f : Nat) : BucketRun :=
  { r with lr := some { l with quantNext := max l.quantNext (f + 1), retry := l.retry.filter (· ≠ f) } }

theorem State.factorQuantise_eq (s : State) (p : PitchId) (r : BucketRun) (l : LrRun) (f : Nat) : ∃ y, FlagsMoved (s.pitch p) y ∧
    s.factorQuantise p r l f =
      (s.setPitch p (y.setRun (r.quantised l f))).toPacker p (r.quantised l f) f kindContrib (factorStream s p r l f) := by
  unfold State.factorQuantise
  extract_lets x h n w words scale qs codes qmax st r'
  have hstream : (encodeStream st none).1 = factorStream s p r l f := by
    simp only [factorStream, st, qmax, codes, qs, List.map_map]
    rfl
  exact ⟨x.noteQuant qs, FlagsMoved.noteQuant x qs, by rw [hstream]; rfl⟩

section
variable {f : Nat} {y : Pitch} (hfind : (s.pitch p).runs.find? (fun q => q.bucket = bucket) = some r) (hy : FlagsMoved (s.pitch p) y)
include hfind hy

/-- Noting a quantised block leaves the free slot of the ring. -/
theorem ringPlace_quantised : (y.setRun (r.quantised l f)).ringPlace p ((r.quantised l f).slot (y.setRun (r.quantised l f)) kindContrib) =
    (s.pitch p).ringPlace p (r.slot (s.pitch p) kindContrib) := by
  obtain ⟨rfl, -⟩ := Pitch.find_bucket hfind
  have hused : (y.setRun (r.quantised l f)).ringUsed = y.ringUsed :=
    Pitch.ringUsed_setRun (r := r) (by rw [hy.runs]; exact hfind) rfl rfl
  rw [FlagsMoved] at hy
  rw [Pitch.ringPlace, hused, hy]
  rfl

theorem find_quantised :
    (y.setRun (r.quantised l f)).runs.find? (fun q => q.bucket = bucket) = some (r.quantised l f) :=
  Pitch.find_setRun (by rw [hy.runs]; exact hfind) (Pitch.find_bucket hfind).1

end

section
variable {f : Nat} (hfind : (s.pitch p).runs.find? (fun q => q.bucket = bucket) = some r)
include hfind

/-- Without a free slot the stream waits. -/
theorem State.factorQuantise_waits (hplace : (s.pitch p).ringPlace p (r.slot (s.pitch p) kindContrib) = none) :
    OnlyPitch p s (s.factorQuantise p r l f) := by
  obtain ⟨y, hy, heq⟩ := s.factorQuantise_eq p r l f
  have hpitch : (s.setPitch p (y.setRun (r.quantised l f))).pitch p = y.setRun (r.quantised l f) := s.pitch_setPitch p _
  rw [heq]
  exact onlyPitch_trans (onlyPitch_setPitch s p _)
    (State.toPacker_waits (by rw [hpitch, ringPlace_quantised hfind hy]; exact hplace))

/-- The run has the block quantised; beside it the pitch's transmission, flags and counters alone changed. -/
theorem State.factorQuantise_pitch :
    (∃ r' ∈ ((s.factorQuantise p r l f).pitch p).runs, r'.bucket = bucket ∧ r'.lr = (r.quantised l f).lr) ∧
    RunMoved (s.pitch p) ((s.factorQuantise p r l f).pitch p) := by
  obtain ⟨y, hy, heq⟩ := s.factorQuantise_eq p r l f
  obtain ⟨r', hrest, hrun, hruns⟩ := (s.setPitch p (y.setRun (r.quantised l f))).toPacker_pitch p (r.quantised l f) f kindContrib
    (factorStream s p r l f)
  rw [← heq, State.pitch_setPitch] at hrest hruns
  rw [StreamsMoved] at hrun
  have hquantised := find_quantised (l := l) (f := f) hfind hy
  have hset := Pitch.find_setRun (r' := r') hquantised (by rw [hrun]; exact (Pitch.find_bucket hquantised).1)
  rw [← hruns] at hset
  obtain ⟨hbucket, hmem⟩ := Pitch.find_bucket hset
  refine ⟨⟨r', hmem, hbucket, by rw [hrun]⟩, ?_⟩
  rw [FlagsMoved] at hy
  rw [RunMoved, hrest, hy]
  rfl

variable (hnext : r.nextFactor (s.pitch p) = some (l, f))
include hnext

/-- The block's stream is written in the free slot of the ring. -/
theorem State.factorQuantise_writes {off : Nat} (hplace : (s.pitch p).ringPlace p (r.slot (s.pitch p) kindContrib) = some off) :
    OnlyPitch p (s.write ((s.pitch p).ringBase p + off) (factorStream s p r l f)) (s.factorQuantise p r l f) := by
  obtain ⟨y, hy, heq⟩ := s.factorQuantise_eq p r l f
  have hpitch : (s.setPitch p (y.setRun (r.quantised l f))).pitch p = y.setRun (r.quantised l f) := s.pitch_setPitch p _
  have hbase : (y.setRun (r.quantised l f)).ringBase p = (s.pitch p).ringBase p := by
    rw [FlagsMoved] at hy
    rw [hy]
    rfl
  have hwait : (y.setRun (r.quantised l f)).tx.packWait = [] := by
    rw [FlagsMoved] at hy
    rw [hy]
    exact (BucketRun.nextFactor_spec hnext).2
  have hwrites := State.toPacker_writes (s := s.setPitch p (y.setRun (r.quantised l f))) (p := p) (r := r.quantised l f) (j := f)
    (bytes := factorStream s p r l f) (by rw [hpitch]; exact hwait) (by rw [hpitch, ringPlace_quantised hfind hy]; exact hplace)
  rw [hpitch, hbase] at hwrites
  rw [heq]
  exact onlyPitch_trans (onlyPitch_setPitch (s.write _ _) p (y.setRun (r.quantised l f))) hwrites

theorem exec_factorExchangeQuantise (hup : s.held = false) :
    exec (.factorExchangeQuantise p bucket f) s = .next (s.factorQuantise p r l f) := by
  change execFactorExchangeQuantise p bucket f s = _
  rw [execFactorExchangeQuantise, live_next s _ hup]
  simp [hfind, hnext]

end

end

end Sys2Proof.Machine
end

