-- ==== Sys2Proof/Proofs/LowrankOutput.lean ====
section
/-! PROOF. Stage 6 of a LOWRANK bucket: its output, block after block, for a pitch without a pairing (08 R183; 06 R145). -/

namespace Sys2Proof.Machine

open Sys2Proof.Claims

/-! ## What phase O leaves of a pitch without a pairing -/

section
variable {s : State} {p : PitchId}

theorem State.addNorm_pitch (s : State) (p : PitchId) (n lo : Nat) (vs : List Val) (q : PitchId) :
    (s.addNorm p n lo vs).pitch q = s.pitch q := by
  refine State.pitch_foldl s q (fun t g => ?_) _
  split
  · rfl
  · exact t.pitch_ergAddTo q _ _

theorem State.hostOutput_pitch (h : (s.pitch p).pairing = none) (port : HostPort) (a : W64) (d : Bytes) :
    (s.hostOutput p port a d).pitch p = s.pitch p := by
  unfold State.hostOutput
  extract_lets x
  split
  · rfl
  · rw [if_neg (by simp [Pitch.lsHolds, x, h])]
    exact State.pitch_foldl s p (fun t _ => t.pitch_sendHost _ _ p) _

theorem State.endOutput_unpaired (h : (s.pitch p).pairing = none) (r : BucketRun) (j : Nat) (out res : Bytes) :
    s.endOutput p r j out res = s := by
  simp [State.endOutput, State.lsDigest, h]

theorem State.lsLast_unpaired (h : (s.pitch p).pairing = none) : s.lsLast p = s := by
  simp [State.lsLast, h]

end

/-! ## Blocks in order -/

/-- Since pitch x the run of the bucket, of these parts, has come to n blocks of output; of the pitch only runs, transmission, flags
and counters moved. -/
structure OutputAt (x : Pitch) (bucket : Nat) (parts : List Nat) (n : Nat) (y : Pitch) : Prop where
  moved : RunMoved x y
  run : ∃ r, y.runs.find? (fun q => q.bucket = bucket) = some r ∧ r.parts = parts ∧ r.outDone.length = n

section
variable {x y z : Pitch} {p : PitchId} {bucket n : Nat} {parts : List Nat} {s : State}

theorem OutputAt.setRun {r r' : BucketRun} (hmoved : RunMoved x y) (hz : FlagsMoved y z)
    (hfind : y.runs.find? (fun q => q.bucket = bucket) = some r) (hbucket : r'.bucket = bucket) (hparts : r'.parts = parts)
    (hdone : r'.outDone.length = n) : OutputAt x bucket parts n (z.setRun r') :=
  ⟨(hmoved.trans hz.runMoved).trans (RunMoved.setRun _ _), r', Pitch.find_setRun (by rw [hz.runs]; exact hfind) hbucket, hparts, hdone⟩

theorem OutputAt.pairing (h : OutputAt x bucket parts n y) (hx : x.pairing = none) : y.pairing = none := by
  obtain ⟨f, rs, tx, cs, rfl⟩ := h.moved.exists
  exact hx

theorem OutputAt.hostOutput (h : OutputAt x bucket parts n (s.pitch p)) (hx : x.pairing = none) (port : HostPort) (a : W64) (d : Bytes) :
    OutputAt x bucket parts n ((s.hostOutput p port a d).pitch p) := by
  rwa [State.hostOutput_pitch (h.pairing hx)]

/-- The records of whole rows leave the blocks that are done. -/
theorem OutputAt.rowSideGo (h : OutputAt x bucket parts n (s.pitch p)) (hx : x.pairing = none) (code : Nat → Nat) (fuel : Nat) :
    OutputAt x bucket parts n ((rowSideGo p bucket code fuel s).pitch p) := by
  refine rowSideGo_induction (P := fun t => OutputAt x bucket parts n (t.pitch p)) (fun t r y side hfind hy ht => ?_)
    (fun t port a d ht => ht.hostOutput hx port a d) code fuel h
  obtain ⟨hmoved, r', hfind', hparts, hdone⟩ := ht
  obtain rfl := Option.some.inj (hfind.symm.trans hfind')
  rw [State.pitch_setPitch]
  exact OutputAt.setRun hmoved hy hfind (Pitch.find_bucket hfind).1 hparts hdone

/-- The output of the next block. -/
theorem OutputAt.writeOutput {r : BucketRun} (hmoved : RunMoved x (s.pitch p)) (hx : x.pairing = none)
    (hfind : (s.pitch p).runs.find? (fun q => q.bucket = bucket) = some r) (j : Nat) (vs : List Val) :
    OutputAt x bucket r.parts (r.outDone.length + 1) ((s.writeOutput p r j vs).1.pitch p) := by
  unfold State.writeOutput
  extract_lets x₀
  split
  extract_lets rec' n out codes bytes y t u
  have ht : OutputAt x bucket r.parts (r.outDone.length + 1) (t.pitch p) := by
    rw [State.pitch_setPitch]
    exact OutputAt.setRun hmoved (FlagsMoved.raise _ _) hfind (Pitch.find_bucket hfind).1 rfl (by simp)
  rw [State.addNorm_pitch]
  simp only [u]
  split
  · exact ht.hostOutput hx _ _ _
  · exact ht

/-- Where phase O may not go on, nothing is written. -/
theorem lrOutputGo_stops (h : (s.pitch p).outputs = false) (fuel : Nat) : lrOutputGo p bucket fuel s = s := by
  cases fuel with
  | zero => rfl
  | succ fuel =>
    unfold lrOutputGo
    extract_lets x
    split
    · rfl
    · simp [x, h]

/-- A block of the output: its values are written, and rows that are whole. -/
theorem lrOutputGo_next {r : BucketRun} (hfind : (s.pitch p).runs.find? (fun q => q.bucket = bucket) = some r)
    (hleft : r.outDone.length < r.blocks (s.pitch p)) (hpairing : (s.pitch p).pairing = none) (hgo : (s.pitch p).outputs = true)
    (fuel : Nat) : ∃ vs code rows out res, lrOutputGo p bucket (fuel + 1) s = lrOutputGo p bucket fuel
      ((rowSideGo p bucket code rows (s.writeOutput p r r.outDone.length vs).1).endOutput p r r.outDone.length out res) := by
  have hroom : (s.pitch p).lsRoom = true := by simp [Pitch.lsRoom, hpairing]
  rw [lrOutputGo]
  simp only [hfind, hgo, hroom, Bool.not_true, Bool.or_false, Bool.false_eq_true, if_false, decide_eq_true_eq, if_neg (Nat.not_le.mpr hleft)]
  exact ⟨_, _, _, _, _, rfl⟩

theorem RunMoved.outputs (h : RunMoved x y) : y.outputs = x.outputs := by
  obtain ⟨f, rs, tx, cs, rfl⟩ := h.exists
  rfl

theorem RunMoved.skipKnown (h : RunMoved x y) : y.skipKnown = x.skipKnown := by
  obtain ⟨f, rs, tx, cs, rfl⟩ := h.exists
  rfl

theorem RunMoved.blocks (h : RunMoved x y) (r : BucketRun) : r.blocks y = r.blocks x := by
  rw [BucketRun.blocks, h.bucketD, BucketRun.blocks]

/-- A pitch that may output writes every block that is left. -/
theorem lrOutputGo_done {r₀ : BucketRun} (hx : x.pairing = none) (hgo : x.outputs = true) (fuel : Nat) {n : Nat} {s : State}
    (h : OutputAt x bucket r₀.parts n (s.pitch p)) (hn : n ≤ r₀.blocks x) (hfuel : r₀.blocks x ≤ n + fuel) :
    OutputAt x bucket r₀.parts (r₀.blocks x) ((lrOutputGo p bucket fuel s).pitch p) := by
  induction fuel generalizing n s with
  | zero =>
    obtain rfl : n = r₀.blocks x := by omega
    exact h
  | succ fuel ih =>
    have hpairing := h.pairing hx
    obtain ⟨hmoved, r, hfind, hparts, rfl⟩ := h
    have hblocks : r.blocks (s.pitch p) = r₀.blocks x := by
      rw [hmoved.blocks, BucketRun.blocks, hparts, BucketRun.blocks]
    rcases hn.eq_or_lt with heq | hlt
    · have hover : lrOutputGo p bucket (fuel + 1) s = s := by
        simp [lrOutputGo, hfind, hblocks, heq]
      rw [hover, ← heq]
      exact ⟨hmoved, r, hfind, hparts, rfl⟩
    · obtain ⟨vs, code, rows, out, res, hnext⟩ := lrOutputGo_next hfind (by rwa [hblocks]) hpairing (by rw [hmoved.outputs]; exact hgo) fuel
      have hwritten := (OutputAt.writeOutput hmoved hx hfind r.outDone.length vs).rowSideGo hx code rows
      rw [hnext, State.endOutput_unpaired (hwritten.pairing hx)]
      rw [hparts] at hwritten
      exact ih hwritten hlt (by omega)

end

/-! ## Stage 6 (08 R183) -/

/-- The next Q is written and valid, at the pitch and in its retained image. -/
def State.nextQ (s : State) (p : PitchId) (bucket : Nat) (r : BucketRun) : State :=
  let h := r.head (s.pitch p)
  ((s.write (bLrQBase h) (s.read (lrQeBase h) (4 * bLrQWords h))).setPitch p
    { s.pitch p with qValid := addNew bucket (s.pitch p).qValid }).modRetained p (fun m => { m with qValid := addNew bucket m.qValid })

theorem State.nextQ_pitch (s : State) (p : PitchId) (bucket : Nat) (r : BucketRun) :
    (s.nextQ p bucket r).pitch p = { s.pitch p with qValid := addNew bucket (s.pitch p).qValid } :=
  State.pitch_setPitch _ p _

section
variable {s t u : State} {p : PitchId} {bucket : Nat} {r r' : BucketRun} {l : LrRun}

/-- Stage 6 after its tiles: the next Q, the output, and the end of the bucket. -/
theorem State.reconstruct_eq (ht : s.stageTiles p bucket 6 = t) (hfind : (t.pitch p).runs.find? (fun q => q.bucket = bucket) = some r)
    (hlr : r.lr = some l) (hstage : l.stage = 6) (hworks : (t.pitch p).works = true)
    (htiles : (tilePlan (r.head (t.pitch p)) 6).length ≤ l.tiles)
    (hu : lrOutputGo p bucket (r.blocks (t.pitch p) + 1) (t.nextQ p bucket r) = u)
    (hfind' : (u.pitch p).runs.find? (fun q => q.bucket = bucket) = some r')
    (hover : (u.pitch p).skipKnown = true ∨ r'.outDone.length = r'.blocks (u.pitch p)) :
    s.reconstruct p bucket =
      (u.setPitch p ((u.pitch p).setRun { r' with lr := some { l with stage := lrDone } })).lsLast p := by
  have hgo : ¬ ((l.stage ≠ 6 || !(t.pitch p).works || l.tiles < (tilePlan (r.head (t.pitch p)) 6).length) = true) := by
    simp [hstage, hworks, htiles]
  have hdone : ((u.pitch p).skipKnown || r'.outDone.length = r'.blocks (u.pitch p)) = true := by simpa using hover
  rw [State.reconstruct]
  simp only [ht, hfind, hlr]
  rw [if_neg hgo]
  simp only [State.nextQ] at hu
  simp only [hu, hfind', hdone, if_true]

/-- Output ends with every block written, or with none where the step is known to be skipped. -/
theorem lrOutputGo_over (hpairing : (s.pitch p).pairing = none) (hworks : (s.pitch p).works = true)
    (hgo : (s.pitch p).skipKnown = true ∨ (s.pitch p).lock.held = false)
    (hfind : (s.pitch p).runs.find? (fun q => q.bucket = bucket) = some r) (hleft : r.outDone.length ≤ r.blocks (s.pitch p)) :
    ∃ u n, lrOutputGo p bucket (r.blocks (s.pitch p) + 1) s = u ∧ OutputAt (s.pitch p) bucket r.parts n (u.pitch p) ∧
      ((s.pitch p).skipKnown = true ∨ n = r.blocks (s.pitch p)) ∧ ((s.pitch p).skipKnown = true → u = s) := by
  have hstart : OutputAt (s.pitch p) bucket r.parts r.outDone.length (s.pitch p) := ⟨RunMoved.refl, r, hfind, rfl, rfl⟩
  cases hskip : (s.pitch p).skipKnown with
  | true => exact ⟨s, _, lrOutputGo_stops (by simp [Pitch.outputs, hskip]) _, hstart, .inl rfl, fun _ => rfl⟩
  | false =>
    have houtputs : (s.pitch p).outputs = true := by simpa [Pitch.outputs, hworks, hskip] using hgo
    exact ⟨_, _, rfl, lrOutputGo_done hpairing houtputs _ hstart hleft (by omega), .inr rfl, by simp⟩

/-- Stage 6 after its tiles ends the bucket, with the next Q valid; a step known to be skipped outputs nothing. -/
theorem State.reconstruct_tiled (ht : s.stageTiles p bucket 6 = t) (hfind : (t.pitch p).runs.find? (fun q => q.bucket = bucket) = some r)
    (hlr : r.lr = some l) (hstage : l.stage = 6) (hworks : (t.pitch p).works = true)
    (htiles : (tilePlan (r.head (t.pitch p)) 6).length ≤ l.tiles) (hpairing : (t.pitch p).pairing = none)
    (hleft : r.outDone.length ≤ r.blocks (t.pitch p)) (hgo : (t.pitch p).skipKnown = true ∨ (t.pitch p).lock.held = false) :
    StageIs ((s.reconstruct p bucket).pitch p) bucket lrDone ∧ bucket ∈ ((s.reconstruct p bucket).pitch p).qValid ∧
      ((t.pitch p).skipKnown = true → (s.reconstruct p bucket).hostOut = t.hostOut) := by
  have hv := t.nextQ_pitch p bucket r
  obtain ⟨u, n, hu, ⟨hmoved, r', hfind', hparts, hdone⟩, hn, hnone⟩ := lrOutputGo_over (s := t.nextQ p bucket r) (p := p)
    (by rw [hv]; exact hpairing) (by rw [hv]; exact hworks) (by rw [hv]; exact hgo) (by rw [hv]; exact hfind) (by rw [hv]; exact hleft)
  have hover : (u.pitch p).skipKnown = true ∨ r'.outDone.length = r'.blocks (u.pitch p) := by
    rw [hmoved.skipKnown, hdone, hmoved.blocks, BucketRun.blocks, hparts]
    exact hn
  have hupairing : (u.pitch p).pairing = none := by
    rw [hmoved, hv]
    exact hpairing
  have hvalid : (u.pitch p).qValid = addNew bucket (t.pitch p).qValid := by rw [hmoved, hv]
  have heq := State.reconstruct_eq ht hfind hlr hstage hworks htiles (by rw [← hu, hv]; rfl) hfind' hover
  obtain ⟨hbucket, hmem⟩ := Pitch.find_bucket
    (Pitch.find_setRun (r' := { r' with lr := some { l with stage := lrDone } }) hfind' (Pitch.find_bucket hfind').1)
  rw [heq, State.lsLast_unpaired (by rw [State.pitch_setPitch]; exact hupairing), State.pitch_setPitch]
  refine ⟨⟨_, hmem, hbucket, _, rfl, rfl⟩, ?_, fun hskip => ?_⟩
  · exact (hvalid.symm ▸ mem_addNew bucket _ : bucket ∈ (u.pitch p).qValid)
  · rw [hnone (by rw [hv]; exact hskip)]
    rfl

/-- Stage 6 of a bucket whose every slice takes work, for a pitch without a pairing. -/
theorem State.reconstruct_spec (hrun : RunIs (s.pitch p) bucket r) (hlr : r.lr = some l) (hworks : (s.pitch p).works = true)
    (hslices : ∀ n, s.sliceWorks n = true) (hbanks : LrBanks (s.pitch p) p r) (hstage : l.stage = 6)
    (hpairing : (s.pitch p).pairing = none) (hleft : r.outDone.length ≤ r.blocks (s.pitch p))
    (hgo : (s.pitch p).skipKnown = true ∨ (s.pitch p).lock.held = false) :
    StageIs ((s.reconstruct p bucket).pitch p) bucket lrDone ∧ bucket ∈ ((s.reconstruct p bucket).pitch p).qValid ∧
      ((s.pitch p).skipKnown = true → (s.reconstruct p bucket).hostOut = s.hostOut) := by
  obtain ⟨k, hk, hlow⟩ := State.stageTiles_six hrun hlr hworks hslices hbanks hstage
  obtain ⟨l', hfind, hstage', htiles⟩ := hlow.find
  have hmoved := hlow.moved
  have hhead : BucketRun.head { r with lr := some l' } ((s.stageTiles p bucket 6).pitch p) = r.head (s.pitch p) := hmoved.head r
  have hhosts : (s.stageTiles p bucket 6).hostOut = s.hostOut := (congrArg State.hostOut (s.stageTiles_work p bucket 6).rest :)
  have htiled := State.reconstruct_tiled rfl hfind rfl hstage' (hmoved.works.trans hworks) (by rw [hhead, htiles]; exact hk)
    (by rw [hmoved]; exact hpairing) (hleft.trans_eq (hmoved.blocks r).symm) (by rw [hmoved.skipKnown, hmoved]; exact hgo)
  rwa [hmoved.skipKnown, hhosts] at htiled

end

end Sys2Proof.Machine
end

