-- ==== Sys2Proof/Proofs/LowrankStages.lean ====
section
/-! PROOF. The stages of a LOWRANK bucket as commands (08 R176 to R185; notes/assumptions 32). -/

namespace Sys2Proof.Machine

open Sys2Proof.Claims

section
variable {s : State} {p : PitchId} {bucket : Nat}

theorem exec_projectStage (hup : s.held = false) : exec (.projectStage p bucket) s = .next (s.stageTiles p bucket 1) :=
  live_next s (fun s => s.stageTiles p bucket 1) hup

theorem exec_backProjectStage (hup : s.held = false) : exec (.backProjectStage p bucket) s = .next (s.stageTiles p bucket 4) :=
  live_next s (fun s => s.stageTiles p bucket 4) hup

theorem exec_reconstructStage (hup : s.held = false) : exec (.reconstructStage p bucket) s = .next (s.reconstruct p bucket) :=
  live_next s (fun s => s.reconstruct p bucket) hup

end

/-- Settles O38: stages 1 and 4 tile by tile up to their end, stage 3 and a factor block from what their commands write, and stage 6 by
its output block after block. -/
theorem lowrankStages : Obligations.LowrankStages := by
  intro s p bucket r l hup hrun hlr hworks
  refine ⟨fun hslices hbanks hstage => ?_, fun hslices hbanks hstage => ?_,
    fun hstage hgood => orthonormaliseStage_good hup hrun.1 hlr hworks hstage hgood,
    fun hstage hbad => orthonormaliseStage_bad hup hrun.1 hlr hworks hstage hbad, fun f hnext => ?_,
    fun hslices hbanks hstage hpairing hleft hgo => ?_⟩
  · have hends := State.stageTiles_ends hrun hlr hworks hslices hbanks (.inl hstage)
    rw [hstage] at hends
    refine ⟨_, exec_projectStage hup, hends.stageIs, (s.stageTiles_work p bucket 1).others, fun hnf => ?_⟩
    obtain ⟨hend, -⟩ := State.stageTiles_nf hrun hlr hworks hstage hnf
    rw [hstage] at hend
    rw [hend]
    exact ⟨rfl, rfl⟩
  · have hends := State.stageTiles_ends hrun hlr hworks hslices hbanks (.inr hstage)
    rw [hstage] at hends
    exact ⟨_, exec_backProjectStage hup, hends.stageIs, (s.stageTiles_work p bucket 4).others⟩
  · obtain ⟨hquantised, hmoved⟩ := State.factorQuantise_pitch (l := l) (f := f) hrun.1
    refine ⟨_, exec_factorExchangeQuantise hrun.1 hnext hup, ?_, hquantised, hmoved⟩
    split
    next off hplace => exact State.factorQuantise_writes hrun.1 hnext hplace
    next hplace => exact State.factorQuantise_waits hrun.1 hplace
  · obtain ⟨hdone, hvalid, hout⟩ := State.reconstruct_spec hrun hlr hworks hslices hbanks hstage hpairing hleft hgo
    have hothers := (State.reconstruct_keeps (A := (· = p)) (d := True) s p bucket rfl (Keeps.refl _ _ s)).others
    exact ⟨_, exec_reconstructStage hup, hdone, hvalid, hothers, hout⟩

end Sys2Proof.Machine
end

