-- ==== Sys2Proof/Proofs/FrameActions.lean ====
section
/-! PROOF. What an accepted frame's action may touch, and how a frame with contents of its command's kind goes on to act (11 R258, R267). -/

namespace Sys2Proof.Machine

open Sys2Proof.Claims

/-! ## What an accepted frame's action may touch -/

/-- From s to t a frame of rank r to pitch p acted: of the channel to r neither RCV_NEXT nor the bitmap changed, no other pitch did, and
beside p nothing but memory, registers and what has left. -/
structure FrameWork (p : PitchId) (r : Nat) (s t : State) : Prop where
  rest : t = { s with pitches := t.pitches, mem := t.mem, erg := t.erg, netOut := t.netOut, hostOut := t.hostOut
                      hostPorts := t.hostPorts, free := t.free, health := t.health }
  others : ∀ q, q ≠ p → t.pitch q = s.pitch q
  left : s.netOut <+: t.netOut
  rcvNext : ((t.pitch p).chan r).rcvNext = ((s.pitch p).chan r).rcvNext
  accepted : ((t.pitch p).chan r).accepted = ((s.pitch p).chan r).accepted

section
variable {p : PitchId} {r : Nat} {s t u : State}

theorem FrameWork.refl : FrameWork p r s s := ⟨rfl, fun _ _ => rfl, List.prefix_refl _, rfl, rfl⟩

theorem FrameWork.trans (h : FrameWork p r s t) (k : FrameWork p r t u) : FrameWork p r s u where
  rest := by rw [k.rest, h.rest]
  others q hq := (k.others q hq).trans (h.others q hq)
  left := h.left.trans k.left
  rcvNext := k.rcvNext.trans h.rcvNext
  accepted := k.accepted.trans h.accepted

theorem Acknowledged.work (h : Acknowledged p r s t) : FrameWork p r s t :=
  ⟨by rw [h.rest], h.others, h.left, h.rcvNext, h.accepted⟩

/-- Work within a pitch that leaves its channels. -/
theorem FrameWork.of_within {rs : List (Nat × Nat)} (h : Within p rs s t) (hchannels : (t.pitch p).tx.channels = (s.pitch p).tx.channels) :
    FrameWork p r s t :=
  ⟨by rw [h.rest], h.others, by rw [h.rest], by rw [Pitch.chan_congr hchannels], by rw [Pitch.chan_congr hchannels]⟩

theorem FrameWork.setPitch (s : State) {x : Pitch} (h : x.tx.channels = (s.pitch p).tx.channels) : FrameWork p r s (s.setPitch p x) :=
  FrameWork.of_within (rs := []) (Within.setPitch s x) (by rw [State.pitch_setPitch]; exact h)

theorem FrameWork.count (s : State) (c : PCtr) (n : Nat) : FrameWork p r s (s.count p c n) :=
  FrameWork.setPitch s (by rw [Pitch.count_tx])

theorem FrameWork.enqueueAll (s : State) (fs : List TxFrame) : FrameWork p r s (s.enqueueAll p fs) := by
  obtain ⟨txq, hframes⟩ := Pitch.enqueues fs (s.pitch p)
  exact FrameWork.setPitch s (show (fs.foldl Pitch.enqueue (s.pitch p)).tx.channels = _ by rw [hframes])

theorem FrameWork.write (s : State) (a : Nat) (bs : Bytes) : FrameWork p r s (s.write a bs) :=
  ⟨rfl, fun _ _ => rfl, List.prefix_refl _, rfl, rfl⟩

theorem FrameWork.draw (s : State) : FrameWork p r s s.draw.2 := ⟨rfl, fun _ _ => rfl, List.prefix_refl _, rfl, rfl⟩

theorem HostsMoved.work (h : HostsMoved s t) : FrameWork p r s t :=
  ⟨by rw [h], fun q _ => h.pitch q, by rw [h], by rw [h.pitch], by rw [h.pitch]⟩

theorem FrameWork.sendNack (s : State) (q reason detail : Nat) (port : NetPort) : FrameWork p r s (s.sendNack p r q reason detail port) :=
  (Acknowledged.sendControl s port opNack _).work.trans (FrameWork.count _ _ _)

/-- A notice changes the pitch's mailbox and its queue pointers. -/
theorem FrameWork.notice (s : State) (code : Nat) (args : Bytes) : FrameWork p r s (s.notice p code args) := by
  have hown := (s.notice_told p code args).own
  rw [PitchIs] at hown
  exact FrameWork.of_within (rs := []) (Within.notice s code args) (by rw [hown])

end

/-! ## What channels leave -/

/-- What does not depend on the channels stays where only they changed. -/
theorem ChannelsMoved.keeps {x y : Pitch} (h : ChannelsMoved x y) {α : Type} (g : Pitch → α)
    (hg : ∀ x cs, g { x with tx := { x.tx with channels := cs } } = g x) : g y = g x := by
  rw [ChannelsMoved] at h
  rw [h, hg]

theorem Acknowledged.keeps {p : PitchId} {r : Nat} {u t : State} (h : Acknowledged p r u t) {α : Type} (g : Pitch → α)
    (hg : ∀ x cs, g { x with tx := { x.tx with channels := cs } } = g x) : g (t.pitch p) = g (u.pitch p) := h.own.keeps g hg

theorem State.noted_keeps (s : State) (p : PitchId) (f : Frame) {α : Type} (g : Pitch → α)
    (hg : ∀ x cs, g { x with tx := { x.tx with channels := cs } } = g x) : g ((s.noted p f).pitch p) = g (s.pitch p) :=
  (s.noted_moved p f).keeps g hg

/-- A notice counts nothing. -/
theorem PitchIs.counter {p : PitchId} {t : State} {x : Pitch} (h : PitchIs p t x) (c : PCtr) : (t.pitch p).counter c = x.counter c := by
  rw [PitchIs] at h
  rw [h]
  rfl

/-! ## Frames that wait to be sent -/

theorem queued_enqueueAll (s : State) (p : PitchId) (fs : List TxFrame) : Queued p fs (s.enqueueAll p fs) := fun g hg => by
  rw [State.enqueueAll, State.pitch_modPitch]
  exact Pitch.mem_enqueues fs _ (.inl hg)

theorem queued_congr {p : PitchId} {fs : List TxFrame} {u t : State} (htxq : (t.pitch p).tx.txq = (u.pitch p).tx.txq)
    (h : Queued p fs u) : Queued p fs t := fun g hg => htxq ▸ h g hg

theorem Acknowledged.queued {p : PitchId} {r : Nat} {fs : List TxFrame} {u t : State} (hack : Acknowledged p r u t) (h : Queued p fs u) :
    Queued p fs t := queued_congr hack.frames h

/-! ## Frames that act -/

section
variable {s : State} {rx : Rx} {p : PitchId} {f : Frame} {d : Bytes}

/-- A frame that passes steps 1 to 4 of R258 goes on with its payload. -/
theorem screen_of_received (h : Received s rx p f d) : s.screen p f rx.port = (s, some d) := by
  obtain ⟨-, -, hanswering, hheader, hepoch, hcrc, hopened⟩ := h
  have hmode : ¬ ((s.pitch p).mode = .fenced ∨ (s.pitch p).mode = .faulted) := by
    simpa [Pitch.answering, not_or] using hanswering
  simp [State.screen, hmode, hheader, hepoch, hcrc, Pitch.tryKeys, hepoch ▸ hopened]

/-- A frame whose contents are its command's is received as any frame of the kind. -/
theorem receive_of_content (h : Received s rx p f d) {content : Bytes → Bool} (hcontent : content d = true)
    (act : PitchId → Frame → Bytes → State → State) :
    s.receive rx (fun k => k = f.kind) content act = s.receiveKind rx f.kind act := by
  simp [State.receiveKind, State.receive, h.parsed, screen_of_received h, hcontent]

/-- The command of a new and whole frame runs its action, and then the frame may be acknowledged. -/
theorem fresh_acts (h : Fresh s rx p f d) {c : Instr} {content : Bytes → Bool} {act : PitchId → Frame → Bytes → State → State}
    (hcontent : content d = true)
    (hexec : exec c s = .next (if s.held then s else s.receive rx (fun k => k = f.kind) content act)) :
    ∃ t, exec c s = .next t ∧ Acknowledged p f.src (act p f d (s.noted p f)) t := by
  obtain ⟨t, hrun, hack⟩ := fresh_receives h act
  rw [if_neg (by simp [h.up]), receive_of_content h.toReceived hcontent, hrun] at hexec
  exact ⟨t, hexec, hack⟩

/-- A frame whose action is a frame's work is accepted. -/
theorem FrameWork.accepts {u t : State} (hwork : FrameWork p f.src (s.noted p f) u) (hack : Acknowledged p f.src u t) : Accepted p f s t := by
  have hall := hwork.trans hack.work
  have hseen := s.noted_seen p f
  refine ⟨?_, fun q hq => (hall.others q hq).trans (State.pitch_modPitch_ne s p q _ hq), hall.left, by rw [hall.rest]; rfl⟩
  rw [Seen, Channel.marked] at hseen ⊢
  rw [hall.rcvNext, hall.accepted]
  exact hseen

/-- Beside what has left on the network, one that changed only its pitch is accepted quietly. -/
theorem FrameWork.acceptsQuietly {u t : State} (hwork : FrameWork p f.src (s.noted p f) u) (hack : Acknowledged p f.src u t)
    (hquiet : u = { s.noted p f with pitches := u.pitches, netOut := u.netOut }) : AcceptedQuietly p f s t :=
  ⟨hwork.accepts hack, by rw [hack.rest, hquiet]; rfl⟩

/-- A frame that is dropped and counted is accepted quietly. -/
theorem counted_quietly {c : PCtr} {n : Nat} {t : State} (htime : c ≠ .ndcTime) (hbits : c ≠ .ndcBits)
    (hack : Acknowledged p f.src ((s.noted p f).count p c n) t) :
    AcceptedQuietly p f s t ∧ (t.pitch p).counter c = (s.pitch p).counter c + BitVec.ofNat 64 n := by
  refine ⟨(FrameWork.count _ c n).acceptsQuietly hack rfl, ?_⟩
  rw [hack.counter, State.pitch_count, Pitch.counter_count _ htime hbits, State.noted_pitch]
  rfl

/-- A frame that is answered with NACK is accepted quietly, and the NACK is counted. -/
theorem nacked_quietly {u t : State} {q reason detail : Nat} {port : NetPort} (hwork : FrameWork p f.src (s.noted p f) u)
    (hquiet : u = { s.noted p f with pitches := u.pitches, netOut := u.netOut })
    (hack : Acknowledged p f.src (u.sendNack p f.src q reason detail port) t) :
    AcceptedQuietly p f s t ∧ (t.pitch p).counter .nackSent = (u.pitch p).counter .nackSent + 1 ∧
      ∀ c, c ≠ .ndcTime → c ≠ .ndcBits → c ≠ .nackSent → (t.pitch p).counter c = (u.pitch p).counter c := by
  have hsent := Acknowledged.sendControl (p := p) (r := f.src) u port opNack
    (fun _ => leBytes 6 q ++ leBytes 1 reason ++ [0] ++ leBytes 4 detail ++ leBytes 4 0)
  refine ⟨(hwork.trans (FrameWork.sendNack u q reason detail port)).acceptsQuietly hack ?_, ?_, fun c htime hbits hc => ?_⟩
  · rw [State.sendNack, State.count, State.modPitch, hsent.rest, hquiet]
    rfl
  · rw [hack.counter, State.sendNack, State.pitch_count, Pitch.counter_count _ (by decide) (by decide), hsent.counter]
    rfl
  · rw [hack.counter, State.sendNack, State.pitch_count, Pitch.counter_count_ne _ htime hbits hc, hsent.counter]

end

end Sys2Proof.Machine
end

