-- ==== Sys2Proof/Proofs/RefusedFrames.lean ====
section
/-! PROOF. Frames that reach no channel: exceptions, contradicting lengths, failed checks and reserved kinds (10 R226; 11 R255 to R257,
R259; 12 R277, R284). -/

namespace Sys2Proof.Machine

open Sys2Proof.Claims

section
variable {s : State} {rx : Rx}

/-- A frame that the parser takes for an exception. -/
theorem nonCxtFrame_exception (hup : s.held = false) {p : PitchId} {reason : Nat} (hparse : s.parse rx = .exception p reason) :
    exec (.nonCxtFrame rx) s = .next (s.exceptFrame p reason rx) := by
  change execNonCxtFrame rx s = _
  rw [execNonCxtFrame, live_next s _ hup, hparse]

/-- A frame whose lengths contradict one another. -/
theorem nonCxtFrame_lengthDrop (hup : s.held = false) {p : PitchId} (hparse : s.parse rx = .length p) :
    exec (.nonCxtFrame rx) s = .next (s.lengthDrop p) := by
  change execNonCxtFrame rx s = _
  rw [execNonCxtFrame, live_next s _ hup, hparse]

/-! ## Exceptions (R256) -/

theorem State.length_excEntry (s : State) (reason : Nat) (rx : Rx) : (s.excEntry reason rx).length = 64 := by
  simp [State.excEntry, length_leBytes, length_padTo]

/-- An exception whose queue has room is written at its tail and counted, and firmware has one more entry to read. -/
theorem State.exceptFrame_writes {p : PitchId} {reason a : Nat} {r : Nat × Nat × Nat}
    (hroom : (s.pitch p).hasRoom ((s.pitch p).cfg p 0xC) = true) (hring : (s.pitch p).ring ((s.pitch p).cfg p 0xC) = some r)
    (haddr : (s.pitch p).entryAddr p ((s.pitch p).cfg p 0xC) ((s.pitch p).qptr ((s.pitch p).cfg p 0xC)).tail = some a) :
    ∃ out ports, s.exceptFrame p reason rx =
      { (s.write a (s.excEntry reason rx)).setPitch p (((s.pitch p).setQptr ((s.pitch p).cfg p 0xC)
          { (s.pitch p).qptr ((s.pitch p).cfg p 0xC) with tail := ((s.pitch p).qptr ((s.pitch p).cfg p 0xC)).tail + 1 }).count .excPackets) with
        hostOut := out, hostPorts := ports
        fw := { s.fw with excUnread := sput s.fw.excUnread p.val (sget s.fw.excUnread p.val 0 + 1) } } := by
  obtain ⟨out, ports, hput⟩ := State.putEntry_spec hring haddr (fun _ => s.excEntry reason rx)
  refine ⟨out, ports, ?_⟩
  simp only [State.exceptFrame, if_pos hroom, hput]
  simp [State.count, State.modPitch, State.setPitch, State.pitch]

theorem nonCxtFrame_excepts (hup : s.held = false) {p : PitchId} {reason a : Nat} {r : Nat × Nat × Nat} (hparse : s.parse rx = .exception p reason)
    (hroom : (s.pitch p).hasRoom ((s.pitch p).cfg p 0xC) = true) (hring : (s.pitch p).ring ((s.pitch p).cfg p 0xC) = some r)
    (haddr : (s.pitch p).entryAddr p ((s.pitch p).cfg p 0xC) ((s.pitch p).qptr ((s.pitch p).cfg p 0xC)).tail = some a) :
    ∃ t, exec (.nonCxtFrame rx) s = .next t ∧ t.read a 64 = s.excEntry reason rx ∧ SameOutside s t a 64 ∧
      ((t.pitch p).qptr ((s.pitch p).cfg p 0xC)).tail = ((s.pitch p).qptr ((s.pitch p).cfg p 0xC)).tail + 1 ∧
      (t.pitch p).counter .excPackets = (s.pitch p).counter .excPackets + 1 ∧
      sget t.fw.excUnread p.val 0 = sget s.fw.excUnread p.val 0 + 1 ∧ (∀ q, q ≠ p → t.pitch q = s.pitch q) ∧
      t = { s with pitches := t.pitches, mem := t.mem, hostOut := t.hostOut, hostPorts := t.hostPorts
                   fw := { s.fw with excUnread := t.fw.excUnread } } := by
  obtain ⟨out, ports, hframe⟩ := State.exceptFrame_writes (rx := rx) (reason := reason) hroom hring haddr
  have hrun := (nonCxtFrame_exception hup hparse).trans (congrArg Host.Outcome.next hframe)
  have hlen := s.length_excEntry reason rx
  generalize (s.pitch p).cfg p 0xC = q at hrun ⊢
  refine ⟨_, hrun, ?_, fun b hb => ?_, ?_, ?_, ?_, fun r hr => State.pitch_setPitch_ne _ p r _ hr, rfl⟩
  · have hback := s.read_write a (s.excEntry reason rx)
    rwa [hlen] at hback
  · exact State.byte_write_out s a b _ (by rw [hlen]; exact hb)
  · refine (congrArg (fun x : Pitch => (x.qptr q).tail) (State.pitch_setPitch _ p _)).trans ?_
    rw [Pitch.count_rest]
    exact congrArg QPtr.tail ((s.pitch p).qptr_setQptr q _)
  · refine (congrArg (fun x : Pitch => x.counter .excPackets) (State.pitch_setPitch _ p _)).trans ?_
    exact Pitch.counter_count _ (c := .excPackets) (by decide) (by decide) 1
  · exact congrArg (Option.getD · 0) (sfind_sput_self _ _ _)

/-! ## Lengths that contradict one another (R257) -/

/-- What follows the count of a length drop changes the pitch's mailbox and queue pointers alone. -/
theorem State.lengthDrop_told (s : State) (p : PitchId) : Told p (s.count p .lenDrops) (s.lengthDrop p) := by
  unfold State.lengthDrop
  extract_lets u
  split
  · exact (State.notice_told u p _ _).trans (Told.setPitch _ p _ rfl)
  · exact Told.setPitch u p _ rfl

theorem nonCxtFrame_length (hup : s.held = false) {p : PitchId} (hparse : s.parse rx = .length p) :
    ∃ t, exec (.nonCxtFrame rx) s = .next t ∧ (∀ q, q ≠ p → t.pitch q = s.pitch q) ∧
      (t.pitch p).counter .lenDrops = (s.pitch p).counter .lenDrops + 1 ∧ t.erg = s.erg ∧
      t.pitch p = { s.pitch p with mail := (t.pitch p).mail, queues := (t.pitch p).queues, counters := (t.pitch p).counters } := by
  obtain ⟨hrest, hothers, hown, -⟩ := s.lengthDrop_told p
  rw [State.pitch_count] at hown
  refine ⟨_, nonCxtFrame_lengthDrop hup hparse, fun q hq => (hothers q hq).trans (State.pitch_count_ne s p q _ _ hq), ?_,
    by rw [hrest]; rfl, ?_⟩
  · rw [hown.counter]
    exact Pitch.counter_count _ (c := .lenDrops) (by decide) (by decide) 1
  · rw [PitchIs] at hown
    rw [hown, Pitch.count_rest]

end

/-! ## Reserved kinds (10 R226; 11 R259) -/

section
variable {s : State} {rx : Rx} {p : PitchId} {f : Frame} {d : Bytes}

theorem reservedOpcode_refused (h : Fresh s rx p f d) (hkind : f.kind = .reservedOpcode) :
    ∃ t, exec (.reservedOpcodeFrame rx) s = .next t ∧ AcceptedQuietly p f s t ∧
      (t.pitch p).counter .nackSent = (s.pitch p).counter .nackSent + 1 := by
  obtain ⟨t, hrun, hack⟩ := fresh_acts h (c := .reservedOpcodeFrame rx) (content := fun _ => true)
    (act := fun p f _ s => if f.data then s.sendNack p f.src f.seq nkOpcode 0 rx.port else s.count p .misdirected) rfl (by rw [hkind]; rfl)
  rw [if_pos h.data] at hack
  obtain ⟨hquiet, hcount, -⟩ := nacked_quietly FrameWork.refl rfl hack
  rw [State.noted_pitch] at hcount
  exact ⟨t, hrun, hquiet, hcount⟩

theorem reservedTarget_refused (h : Fresh s rx p f d) (hkind : f.kind = .reservedTarget) :
    ∃ t, exec (.reservedTargetFrame rx) s = .next t ∧ AcceptedQuietly p f s t ∧
      (t.pitch p).counter .nackSent = (s.pitch p).counter .nackSent + 1 := by
  obtain ⟨t, hrun, hack⟩ := fresh_acts h (c := .reservedTargetFrame rx) (content := fun _ => true)
    (act := fun p f _ s => s.sendNack p f.src f.seq nkTarget 0 rx.port) rfl (by rw [hkind]; rfl)
  obtain ⟨hquiet, hcount, -⟩ := nacked_quietly FrameWork.refl rfl hack
  rw [State.noted_pitch] at hcount
  exact ⟨t, hrun, hquiet, hcount⟩

/-- A CONTROL frame of a reserved opcode is dropped and counted. -/
theorem reservedControl_dropped (h : Received s rx p f d) (hkind : f.kind = .reservedOpcode) (hdata : f.data = false) :
    exec (.reservedOpcodeFrame rx) s = .next (s.count p .misdirected) := by
  change execReservedOpcodeFrame rx s = _
  rw [execReservedOpcodeFrame, live_next s _ h.up]
  simp [State.receiveKind, State.receive, h.parsed, hkind, screen_of_received h, hdata]

end

/-! ## O58 -/

/-- Settles O58: by the parser's answer the frame is queued as an exception, dropped or counted on its port; a reserved one is answered
with NACK, or dropped as CONTROL. -/
theorem framesRefused : Obligations.FramesRefused := by
  unfold Obligations.FramesRefused
  intro s rx hup
  refine ⟨fun p reason hparse => ⟨fun hroom => ?_, fun a r hroom hring haddr => nonCxtFrame_excepts hup hparse hroom hring haddr⟩,
    fun p hparse => nonCxtFrame_length hup hparse, fun hparse => ?_, fun hparse => ?_, fun hparse => ?_, fun hparse => ?_, fun hparse => ?_,
    fun p f d h => ⟨reservedOpcode_refused h, reservedTarget_refused h⟩, fun p f d h hkind hdata => reservedControl_dropped h hkind hdata⟩
  · rw [nonCxtFrame_exception hup hparse, State.exceptFrame, if_neg (by simp [hroom])]
  · change execNonCxtFrame rx s = _
    rw [execNonCxtFrame, live_next s _ hup, hparse]
  · change execMacControlFrame rx s = _
    rw [execMacControlFrame, live_next s _ hup, hparse]
    rfl
  all_goals
    change execFcsFailedFrame rx s = _
    rw [execFcsFailedFrame, live_next s _ hup, hparse]
    rfl

end Sys2Proof.Machine
end

