-- ==== Sys2Proof/Proofs/NormMessages.lean ====
section
/-! PROOF. NORM_UP at rank 0 and NORM_DOWN at the others (10 R235, R236, R248). -/

namespace Sys2Proof.Machine

open Sys2Proof.Claims

/-! ## Judging the step leaves its norm -/

/-- The norm of pitch p's step and its clipping factor. -/
def normKey (p : PitchId) (s : State) : Option W640 × W32 := ((s.pitch p).guard.norm, (s.pitch p).guard.cf)

section
variable (s : State) (p : PitchId)

theorem normKey_setPitch {x : Pitch} (hnorm : x.guard.norm = (s.pitch p).guard.norm) (hcf : x.guard.cf = (s.pitch p).guard.cf) :
    normKey p (s.setPitch p x) = normKey p s := by
  rw [normKey, State.pitch_setPitch, hnorm, hcf]
  rfl

theorem normKey_notice (code : Nat) (args : Bytes) : normKey p (s.notice p code args) = normKey p s := by
  have hown := (s.notice_told p code args).own
  rw [PitchIs] at hown
  rw [normKey, hown]
  rfl

theorem normKey_spikeRun (kind : Nat) (lg : Int) : normKey p (s.spikeRun p kind lg).2 = normKey p s := by
  have hcount (y : Pitch) (c : PCtr) : (y.count c).guard = y.guard := by rw [Pitch.count_rest]
  by_cases hkind : kind = 0
  all_goals
    simp only [State.spikeRun, hkind, if_true, if_false]
    rw [apply_ite Prod.snd]
    split
    · exact (normKey_notice _ p _ _).trans (normKey_setPitch s p (by rw [hcount]) (by rw [hcount]))
    · exact normKey_setPitch s p rfl rfl

theorem normKey_spikeMaybe (kind : Nat) (lg : Option Int) : normKey p (s.spikeMaybe p kind lg).2 = normKey p s := by
  cases lg with
  | none => rfl
  | some lg => exact normKey_spikeRun s p kind lg

theorem normKey_verdict (v : Option Nat) :
    normKey p (s.modPitch p (fun x => { x with guard := { x.guard with verdict := v } })) = normKey p s := normKey_setPitch s p rfl rfl

theorem normKey_guardProgress : normKey p (s.guardProgress p) = normKey p s := by
  unfold State.guardProgress
  split
  · rfl
  · split
    · exact normKey_verdict s p _
    · simp only [normKey_verdict, normKey_spikeMaybe]

/-! ## The Guard takes the norm (R312, R314) -/

theorem normKey_takeNorm (sg : W640) : normKey p (s.takeNorm p sg) =
    (some sg, clipFactor sg (BitVec.ofNat 32 ((s.pitch p).cfg p 0x109)) (s.pitch p).normDivisor) := by
  rw [State.takeNorm, normKey_guardProgress, normKey, State.pitch_modPitch]

theorem takeNorm_norm (sg : W640) : ((s.takeNorm p sg).pitch p).guard.norm = some sg := (congrArg Prod.fst (normKey_takeNorm s p sg) :)

theorem takeNorm_cf (sg : W640) : ((s.takeNorm p sg).pitch p).guard.cf =
    clipFactor sg (BitVec.ofNat 32 ((s.pitch p).cfg p 0x109)) (s.pitch p).normDivisor := (congrArg Prod.snd (normKey_takeNorm s p sg) :)

theorem takeNorm_stepPart (sg : W640) : ((s.takeNorm p sg).pitch p).stepPart = (s.pitch p).stepPart := congrArg Prod.fst (stepKey_takeNorm s p sg)

theorem takeNorm_erg (sg : W640) : (s.takeNorm p sg).erg = s.erg := congrArg Prod.snd (stepKey_takeNorm s p sg)

theorem takeNorm_tx (sg : W640) : ((s.takeNorm p sg).pitch p).tx = (s.pitch p).tx := (congrArg Pitch.tx (takeNorm_stepPart s p sg) :)

theorem takeNorm_arrivals (sg : W640) : ((s.takeNorm p sg).pitch p).guard.normArrivals = (s.pitch p).guard.normArrivals :=
  (congrArg (fun x => x.guard.normArrivals) (takeNorm_stepPart s p sg) :)

theorem takeNorm_work (sg : W640) (r : Nat) : FrameWork p r s (s.takeNorm p sg) :=
  FrameWork.of_within (rs := []) ((Within.modPitch s _).trans (Within.guardProgress _)) (by rw [takeNorm_tx])

/-! ## The norm goes down the tree (R236) -/

/-- The frames that carry the norm of a step to the children. -/
def normFrames (x : Pitch) (lo : W16) (sg : W640) : List TxFrame :=
  x.children.map (fun c => messageFrame c opWrite 0 tgNormDown (normDownPayload lo sg))

theorem State.forwardNorm_pitch (lo : W16) (sg : W640) : ∃ txq, (s.forwardNorm p lo sg).pitch p = { s.pitch p with tx := { (s.pitch p).tx with txq := txq } } := by
  obtain ⟨txq, hframes⟩ := Pitch.enqueues (normFrames (s.pitch p) lo sg) (s.pitch p)
  have hpitch : (s.forwardNorm p lo sg).pitch p = (normFrames (s.pitch p) lo sg).foldl Pitch.enqueue (s.pitch p) := by
    rw [State.forwardNorm, State.enqueueAll, State.pitch_modPitch]
    rfl
  exact ⟨txq, hpitch.trans hframes⟩

theorem forwardNorm_queued (lo : W16) (sg : W640) : Queued p (normFrames (s.pitch p) lo sg) (s.forwardNorm p lo sg) := queued_enqueueAll s p _

end

/-! ## NORM_UP (R235) -/

section
variable {s : State} {rx : Rx} {p : PitchId} {f : Frame} {d : Bytes}

/-- Registers of the pitch in which an accepted frame acts are those of the pitch it came to. -/
theorem noted_normGlobal (s : State) (p : PitchId) (f : Frame) :
    ((s.noted p f).pitch p).erg p (((s.noted p f).pitch p).normGlobal p) = (s.pitch p).erg p ((s.pitch p).normGlobal p) :=
  s.noted_keeps p f (fun x => x.erg p (x.normGlobal p)) fun _ _ => rfl

theorem normUp_acts (h : Fresh s rx p f d) (hkind : f.kind = .normUp) (hrank : (s.pitch p).rank = 0) :
    ∃ t, exec (.normUp rx) s = .next t ∧ Acknowledged p f.src ((s.noted p f).normArrive p (ergOfBytes (d.take 80))) t := by
  obtain ⟨t, hrun, hack⟩ := fresh_acts h (c := .normUp rx) (content := fun _ => true)
    (act := fun p _ d s => if (s.pitch p).rank = 0 then s.normUpFrame p d else s) rfl (by rw [hkind]; rfl)
  rw [if_pos ((s.noted_keeps p f Pitch.rank fun _ _ => rfl).trans hrank)] at hack
  exact ⟨t, hrun, hack⟩

/-- One more arrival, while others are to come. -/
theorem normUp_adds (h : Fresh s rx p f d) (hkind : f.kind = .normUp) (hrank : (s.pitch p).rank = 0)
    (hwait : (s.pitch p).guard.normArrivals + 1 ≠ (s.pitch p).size) :
    ∃ t, exec (.normUp rx) s = .next t ∧ Accepted p f s t ∧ t.mem = s.mem ∧
      (t.pitch p).guard = { (s.pitch p).guard with normArrivals := (s.pitch p).guard.normArrivals + 1 } ∧
      ∀ k, t.ergGet k = if k = (s.pitch p).erg p ((s.pitch p).normGlobal p) then
        ergAdd (s.ergGet ((s.pitch p).erg p ((s.pitch p).normGlobal p))) (ergOfBytes (d.take 80)) else s.ergGet k := by
  obtain ⟨t, hrun, hack⟩ := normUp_acts h hkind hrank
  have hguard := s.noted_keeps p f Pitch.guard fun _ _ => rfl
  have hsize := s.noted_keeps p f Pitch.size fun _ _ => rfl
  simp only [State.normArrive, noted_normGlobal, hguard, hsize, if_neg hwait] at hack
  generalize (s.pitch p).erg p ((s.pitch p).normGlobal p) = g at hack ⊢
  have hwork := FrameWork.of_within (r := f.src) (rs := []) ((Within.ergAddTo (p := p) (s.noted p f) g (ergOfBytes (d.take 80))).trans
    (Within.setPitch _ { (s.noted p f).pitch p with guard := { (s.pitch p).guard with normArrivals := (s.pitch p).guard.normArrivals + 1 } }))
    (by rw [State.pitch_setPitch])
  refine ⟨t, hrun, hwork.accepts hack, by rw [hack.rest]; rfl, ?_, fun k => ?_⟩
  · rw [hack.keeps Pitch.guard fun _ _ => rfl, State.pitch_setPitch]
  · rw [State.ergGet, hack.rest]
    exact State.ergAddTo_get (s.noted p f) g _ k

/-- The last arrival: the exact sum goes down the tree and to the Guard, and the register is cleared. -/
theorem normUp_ends (h : Fresh s rx p f d) (hkind : f.kind = .normUp) (hrank : (s.pitch p).rank = 0) {g : Nat} {sum : W640}
    (hg : g = (s.pitch p).erg p ((s.pitch p).normGlobal p)) (hsum : sum = ergAdd (s.ergGet g) (ergOfBytes (d.take 80)))
    (hlast : (s.pitch p).guard.normArrivals + 1 = (s.pitch p).size) :
    ∃ t, exec (.normUp rx) s = .next t ∧ Accepted p f s t ∧ (t.pitch p).guard.normArrivals = 0 ∧
      (t.pitch p).guard.norm = some sum ∧ (∀ k, t.ergGet k = if k = g then 0 else s.ergGet k) ∧
      Queued p (normFrames (s.pitch p) (s.pitch p).stepLo sum) t := by
  obtain ⟨t, hrun, hack⟩ := normUp_acts h hkind hrank
  have hguard := s.noted_keeps p f Pitch.guard fun _ _ => rfl
  have hsize := s.noted_keeps p f Pitch.size fun _ _ => rfl
  have hlo := s.noted_keeps p f Pitch.stepLo fun _ _ => rfl
  have hchildren := s.noted_keeps p f Pitch.children fun _ _ => rfl
  have hget : ((s.noted p f).ergAddTo g (ergOfBytes (d.take 80))).ergGet g = sum := by
    rw [State.ergAddTo_get, if_pos rfl, hsum]
    rfl
  simp only [State.normArrive, noted_normGlobal, hguard, hsize, if_pos hlast, hlo, ← hg, hget] at hack
  let x : Pitch := { (s.noted p f).pitch p with guard := { (s.pitch p).guard with normArrivals := 0 } }
  let added := (s.noted p f).ergAddTo g (ergOfBytes (d.take 80))
  let cleared := (added.ergClear g 1).setPitch p x
  let sent := cleared.forwardNorm p (s.pitch p).stepLo sum
  change Acknowledged p f.src (sent.takeNorm p sum) t at hack
  have hx : cleared.pitch p = x := State.pitch_setPitch _ p x
  obtain ⟨txq, hsent⟩ := cleared.forwardNorm_pitch p (s.pitch p).stepLo sum
  rw [hx] at hsent
  have hwork : FrameWork p f.src (s.noted p f) (sent.takeNorm p sum) := by
    have hcleared : Within p [] (s.noted p f) cleared :=
      ⟨rfl, fun q hq => State.pitch_setPitch_ne _ p q x hq, fun _ _ _ => rfl⟩
    exact (FrameWork.of_within hcleared (by rw [hx])).trans ((FrameWork.enqueueAll cleared _).trans (takeNorm_work sent p sum f.src))
  refine ⟨t, hrun, hwork.accepts hack, ?_, ?_, fun k => ?_, ?_⟩
  · rw [hack.keeps Pitch.guard fun _ _ => rfl, takeNorm_arrivals, show sent.pitch p = _ from hsent]
  · rw [hack.keeps Pitch.guard fun _ _ => rfl, takeNorm_norm]
  · rw [State.ergGet, hack.rest]
    change sget (sent.takeNorm p sum).erg k 0 = _
    rw [takeNorm_erg]
    refine (State.ergClear_get added g k).trans ?_
    split
    · rfl
    next hk => rw [State.ergAddTo_get, if_neg hk]; rfl
  · have hframes := forwardNorm_queued cleared p (s.pitch p).stepLo sum
    rw [normFrames, hx, show x.children = (s.pitch p).children from hchildren] at hframes
    exact hack.queued (queued_congr (by rw [takeNorm_tx]) hframes)

/-! ## NORM_DOWN (R236, R248) -/

theorem normDown_acts (h : Fresh s rx p f d) (hkind : f.kind = .normDown) :
    ∃ t, exec (.normDown rx) s = .next t ∧ Acknowledged p f.src ((s.noted p f).normDownFrame p d) t :=
  fresh_acts h (c := .normDown rx) (content := fun _ => true) (act := fun p _ d s => s.normDownFrame p d) rfl (by rw [hkind]; rfl)

theorem normDown_stale (h : Fresh s rx p f d) (hkind : f.kind = .normDown) (hover : (s.pitch p).stepUsable (leAt d 0 2) = false) :
    ∃ t, exec (.normDown rx) s = .next t ∧ AcceptedQuietly p f s t ∧
      (t.pitch p).counter .collStale = (s.pitch p).counter .collStale + 1 := by
  obtain ⟨t, hrun, hack⟩ := normDown_acts h hkind
  have husable := (s.noted_keeps p f (fun x => x.stepUsable (leAt d 0 2)) fun _ _ => rfl).trans hover
  simp only [State.normDownFrame, husable, Bool.not_false, if_true] at hack
  exact ⟨t, hrun, counted_quietly (n := 1) (by decide) (by decide) hack⟩

/-- The norm of this step goes to the Guard, that of the next is held; either is forwarded. -/
theorem normDown_forwards (h : Fresh s rx p f d) (hkind : f.kind = .normDown) (hgood : (s.pitch p).stepUsable (leAt d 0 2) = true) :
    ∃ t, exec (.normDown rx) s = .next t ∧ Accepted p f s t ∧ t.erg = s.erg ∧
      Queued p (normFrames (s.pitch p) (BitVec.ofNat 16 (leAt d 0 2)) (ergOfBytes (cut d 8 80))) t ∧
      (leAt d 0 2 = (s.pitch p).stepLo.toNat → (t.pitch p).guard.norm = some (ergOfBytes (cut d 8 80)) ∧
        (t.pitch p).guard.cf = clipFactor (ergOfBytes (cut d 8 80)) (BitVec.ofNat 32 ((s.pitch p).cfg p 0x109)) (s.pitch p).normDivisor) ∧
      (leAt d 0 2 ≠ (s.pitch p).stepLo.toNat → (t.pitch p).guard =
        { (s.pitch p).guard with normAhead := some (ergOfBytes (cut d 8 80)) }) := by
  obtain ⟨t, hrun, hack⟩ := normDown_acts h hkind
  have husable := (s.noted_keeps p f (fun x => x.stepUsable (leAt d 0 2)) fun _ _ => rfl).trans hgood
  have hlo := s.noted_keeps p f Pitch.stepLo fun _ _ => rfl
  have hchildren := s.noted_keeps p f Pitch.children fun _ _ => rfl
  simp only [State.normDownFrame, husable, hlo, Bool.not_true, Bool.false_eq_true, if_false] at hack
  generalize ergOfBytes (cut d 8 80) = sg at hack ⊢
  let sent := (s.noted p f).forwardNorm p (BitVec.ofNat 16 (leAt d 0 2)) sg
  have hsentWork : FrameWork p f.src (s.noted p f) sent := FrameWork.enqueueAll _ _
  obtain ⟨txq, hsent⟩ := (s.noted p f).forwardNorm_pitch p (BitVec.ofNat 16 (leAt d 0 2)) sg
  have hframes := forwardNorm_queued (s.noted p f) p (BitVec.ofNat 16 (leAt d 0 2)) sg
  rw [normFrames, hchildren] at hframes
  refine ⟨t, hrun, ?_⟩
  split at hack
  next hthis =>
    refine ⟨(hsentWork.trans (takeNorm_work sent p sg f.src)).accepts hack, ?_,
      hack.queued (queued_congr (by rw [takeNorm_tx]) hframes), fun _ => ⟨?_, ?_⟩, fun hne => absurd hthis hne⟩
    · rw [hack.rest]
      exact takeNorm_erg sent p sg
    · rw [hack.keeps Pitch.guard fun _ _ => rfl, takeNorm_norm]
    · rw [hack.keeps Pitch.guard fun _ _ => rfl, takeNorm_cf, hsent, ← s.noted_keeps p f (fun x => x.cfg p 0x109) fun _ _ => rfl,
        ← s.noted_keeps p f Pitch.normDivisor fun _ _ => rfl]
      rfl
  next hnext =>
    refine ⟨(hsentWork.trans (FrameWork.setPitch sent (by rfl))).accepts hack, by rw [hack.rest]; rfl, hack.queued (queued_congr ?_ hframes),
      fun heq => absurd heq hnext, fun _ => ?_⟩
    · rw [State.pitch_modPitch]
    · rw [hack.keeps Pitch.guard fun _ _ => rfl, State.pitch_modPitch, hsent, ← s.noted_keeps p f Pitch.guard fun _ _ => rfl]

end

end Sys2Proof.Machine
end

