-- ==== Sys2Proof/Proofs/BarrierMessages.lean ====
section
/-! PROOF. Barrier arrivals go up the tree, and releases come down it (10 R247; 16 R346, R347). -/

namespace Sys2Proof.Machine

open Sys2Proof.Claims

/-! ## The record of a group barrier -/

theorem Pitch.gbar_congr {x y : Pitch} (h : y.gbars = x.gbars) (lo : W16) (ord : Nat) : y.gbar lo ord = x.gbar lo ord := by
  rw [Pitch.gbar, h, Pitch.gbar]

/-- The record reads back under the key it was found by, whatever of its progress was set. -/
theorem Pitch.gbar_set_progress (x z : Pitch) (lo : W16) (ord : Nat) (kids : List Nat) (up : Bool) (at' : Option (Nat × Nat)) :
    (z.setGbar { x.gbar lo ord with kids := kids, sentUp := up, release := at' }).gbar lo ord =
      { x.gbar lo ord with kids := kids, sentUp := up, release := at' } := by
  obtain ⟨hlo, hord⟩ := x.gbar_key lo ord
  have hread := z.gbar_setGbar { x.gbar lo ord with kids := kids, sentUp := up, release := at' }
  rwa [hlo, hord] at hread

/-- The pitch with these frames waiting. -/
def Pitch.withFrames (x : Pitch) (txq : List TxFrame) : Pitch := { x with tx := { x.tx with txq := txq } }

/-- Records of group barriers and frames that wait are all that progress may change. -/
theorem barrierFrame_set (x : Pitch) (b c : GroupBarrier) (txq : List TxFrame) : BarrierFrame x (((x.setGbar b).setGbar c).withFrames txq) := rfl

/-- What progress of a group barrier does: its record keeps the own peg and the children; once both are there it is on its way up, or rank
0 fixes the release. -/
theorem State.barrierProgress_moves (s : State) (p : PitchId) (lo : W16) (ord : Nat) : ∃ y up rel,
    s.barrierProgress p lo ord = s.setPitch p y ∧ BarrierFrame (s.pitch p) y ∧
    y.gbar lo ord = { (s.pitch p).gbar lo ord with sentUp := up, release := rel } ∧
    (((s.pitch p).gbar lo ord).fired = true → ((s.pitch p).gbar lo ord).sentUp = false →
      (∀ c ∈ (s.pitch p).children, c ∈ ((s.pitch p).gbar lo ord).kids) → up = true ∧
      ((s.pitch p).rank ≠ 0 → barrierFrame (treeParent (s.pitch p).rank) lo ord 0 0 ∈ y.tx.txq) ∧
      ((s.pitch p).rank = 0 → 1 < (s.pitch p).size → rel = some (s.ptpNs + (s.pitch p).cfg p 0x11, s.cclk + 1) ∧
        ∀ c ∈ (s.pitch p).children, barrierFrame c lo ord 1 (s.ptpNs + (s.pitch p).cfg p 0x11) ∈ y.tx.txq)) := by
  have hset (z : Pitch) (up : Bool) (rel : Option (Nat × Nat)) := (s.pitch p).gbar_set_progress z lo ord ((s.pitch p).gbar lo ord).kids up rel
  unfold State.barrierProgress
  extract_lets x b y time y'
  split
  · split
    next hrank =>
      exact ⟨_, true, b.release, rfl, rfl, hset x true b.release,
        fun _ _ _ => ⟨rfl, fun _ => mem_insertBy _ _ _ _ (.inl rfl), fun hzero => absurd hzero hrank⟩⟩
    next hrank =>
      split
      next hone =>
        exact ⟨_, true, some (0, s.cclk + 1), rfl, rfl, hset y true _,
          fun _ _ _ => ⟨rfl, fun hne => absurd hne hrank, fun _ hsize => absurd hsize (Nat.not_lt.mpr hone)⟩⟩
      next hsize =>
        obtain ⟨txq, htxq⟩ := Pitch.enqueues (x.children.map fun c => barrierFrame c lo ord 1 time) y'
        have hmem (c : Nat) (hc : c ∈ x.children) :
            barrierFrame c lo ord 1 time ∈ ((x.children.map fun c => barrierFrame c lo ord 1 time).foldl Pitch.enqueue y').tx.txq :=
          Pitch.mem_enqueues _ _ (.inl (List.mem_map_of_mem hc))
        rw [List.foldl_map] at htxq hmem
        rw [htxq] at hmem ⊢
        exact ⟨y'.withFrames txq, true, some (time, s.cclk + 1), rfl, barrierFrame_set x _ _ txq,
          (Pitch.gbar_congr (x := y') rfl lo ord).trans (hset y true _),
          fun _ _ _ => ⟨rfl, fun hne => absurd hne hrank, fun _ _ => ⟨rfl, hmem⟩⟩⟩
  next hwait =>
    refine ⟨s.pitch p, b.sentUp, b.release, (s.setPitch_self p).symm, rfl, rfl, fun hfired hfresh hall => absurd ?_ hwait⟩
    have hthere : x.children.all (fun c => decide (c ∈ b.kids)) = true := by simpa using hall
    simp [b, x, hfired, hfresh] at hthere ⊢
    exact hthere

section
variable {s : State} {rx : Rx} {p : PitchId} {f : Frame} {d : Bytes}

/-! ## Arrivals (R247) -/

theorem barrierArrival_acts (h : Fresh s rx p f d) (hkind : f.kind = .barrier) (hup : leAt d 4 1 = 0) :
    ∃ t, exec (.barrierArrival rx) s = .next t ∧ Acknowledged p f.src ((s.noted p f).barrierArrive p f.src d) t :=
  fresh_acts h (c := .barrierArrival rx) (content := fun d => leAt d 4 1 ≠ 1) (act := fun p f d s => s.barrierArrive p f.src d)
    (by simp [hup]) (by rw [hkind]; rfl)

/-- An arrival from a rank that is no child is dropped and counted. -/
theorem barrierArrival_stale (h : Fresh s rx p f d) (hkind : f.kind = .barrier) (hup : leAt d 4 1 = 0) (hchild : f.src ∉ (s.pitch p).children) :
    ∃ t, exec (.barrierArrival rx) s = .next t ∧ AcceptedQuietly p f s t ∧
      (t.pitch p).counter .collStale = (s.pitch p).counter .collStale + 1 := by
  obtain ⟨t, hrun, hack⟩ := barrierArrival_acts h hkind hup
  have hchildren := s.noted_keeps p f Pitch.children fun _ _ => rfl
  rw [State.barrierArrive, if_neg (by simp [hchildren, hchild])] at hack
  exact ⟨t, hrun, counted_quietly (n := 1) (by decide) (by decide) hack⟩

/-- The pitch once a child's arrival is noted. -/
def Pitch.kidArrived (x : Pitch) (lo : W16) (ord src : Nat) : Pitch :=
  x.setGbar { x.gbar lo ord with kids := addNew src (x.gbar lo ord).kids }

theorem Pitch.kidArrived_gbar (x : Pitch) (lo : W16) (ord src : Nat) :
    (x.kidArrived lo ord src).gbar lo ord = { x.gbar lo ord with kids := addNew src (x.gbar lo ord).kids } :=
  x.gbar_set_progress x lo ord _ (x.gbar lo ord).sentUp (x.gbar lo ord).release

/-- An arrival that a barrier waits for is noted, and the barrier may move on. -/
theorem State.barrierArrive_open {src : Nat} (hup : leAt d 4 1 = 0) (hchild : src ∈ (s.pitch p).children)
    (hopen : (s.pitch p).barrierOpen (leAt d 0 2) (leAt d 2 2) = true) : s.barrierArrive p src d =
    (s.setPitch p ((s.pitch p).kidArrived (BitVec.ofNat 16 (leAt d 0 2)) (leAt d 2 2) src)).barrierProgress p
      (BitVec.ofNat 16 (leAt d 0 2)) (leAt d 2 2) := by
  unfold State.barrierArrive
  extract_lets x lo ord b
  have hlo : b.stepLo = BitVec.ofNat 16 lo := (x.gbar_key (BitVec.ofNat 16 lo) ord).1
  rw [if_pos (by simp only [hup, x, lo, ord, hopen, hchild, decide_true, Bool.and_true])]
  exact congrArg (State.barrierProgress (s.setPitch p (x.kidArrived (BitVec.ofNat 16 lo) ord src)) p · ord) hlo

theorem barrierArrival_notes (h : Fresh s rx p f d) (hkind : f.kind = .barrier) (hup : leAt d 4 1 = 0) {lo : W16} {ord : Nat}
    (hlo : lo = BitVec.ofNat 16 (leAt d 0 2)) (hord : ord = leAt d 2 2) (hchild : f.src ∈ (s.pitch p).children)
    (hopen : (s.pitch p).barrierOpen (leAt d 0 2) ord = true) :
    ∃ t, exec (.barrierArrival rx) s = .next t ∧ AcceptedQuietly p f s t ∧ f.src ∈ ((t.pitch p).gbar lo ord).kids ∧
      (((s.pitch p).gbar lo ord).fired = true → ((s.pitch p).gbar lo ord).sentUp = false →
        (∀ c ∈ (s.pitch p).children, c ∈ ((s.pitch p).gbar lo ord).kids ∨ c = f.src) →
        ((t.pitch p).gbar lo ord).sentUp = true ∧
        ((s.pitch p).rank ≠ 0 → Queued p [barrierFrame (treeParent (s.pitch p).rank) lo ord 0 0] t) ∧
        ((s.pitch p).rank = 0 → 1 < (s.pitch p).size →
          ((t.pitch p).gbar lo ord).release = some (s.ptpNs + (s.pitch p).cfg p 0x11, s.cclk + 1) ∧
          Queued p ((s.pitch p).children.map (fun c => barrierFrame c lo ord 1 (s.ptpNs + (s.pitch p).cfg p 0x11))) t)) := by
  obtain ⟨t, hrun, hack⟩ := barrierArrival_acts h hkind hup
  have hx (g : Pitch → Nat) (hg : ∀ x cs, g { x with tx := { x.tx with channels := cs } } = g x) := s.noted_keeps p f g hg
  have hchildren := s.noted_keeps p f Pitch.children fun _ _ => rfl
  have hgbar := s.noted_keeps p f (fun x => x.gbar lo ord) fun _ _ => rfl
  rw [State.barrierArrive_open hup (hchildren ▸ hchild) ((s.noted_keeps p f (fun x => x.barrierOpen _ _) fun _ _ => rfl).trans (hord ▸ hopen)),
    ← hlo, ← hord] at hack
  let y := ((s.noted p f).pitch p).kidArrived lo ord f.src
  obtain ⟨z, up, rel, hmoved, hframe, hz, hgo⟩ := ((s.noted p f).setPitch p y).barrierProgress_moves p lo ord
  rw [hmoved] at hack
  rw [State.pitch_setPitch] at hframe hz hgo
  have hy : y.gbar lo ord = { (s.pitch p).gbar lo ord with kids := addNew f.src ((s.pitch p).gbar lo ord).kids } := by
    rw [← hgbar]
    exact Pitch.kidArrived_gbar _ lo ord f.src
  rw [hy] at hz hgo
  have hgone : ((s.noted p f).setPitch p y).setPitch p z = (s.noted p f).modPitch p fun _ => z := by simp [State.modPitch, State.setPitch]
  rw [hgone] at hack
  have htgbar : (t.pitch p).gbar lo ord = z.gbar lo ord := by
    rw [hack.keeps (fun x => x.gbar lo ord) fun _ _ => rfl, State.pitch_modPitch]
  have htxq : (t.pitch p).tx.txq = z.tx.txq := by rw [hack.frames, State.pitch_modPitch]
  rw [BarrierFrame] at hframe
  refine ⟨t, hrun, acceptedQuietly_of (by rw [hframe]; rfl) hack, by rw [htgbar, hz]; exact mem_addNew _ _, fun hfired hfresh hall => ?_⟩
  have hcomplete : ∀ c ∈ y.children, c ∈ addNew f.src ((s.pitch p).gbar lo ord).kids := fun c hc => by
    rcases hall c (hchildren ▸ hc) with hkid | rfl
    · unfold addNew
      split
      · exact hkid
      · exact List.mem_append_left _ hkid
    · exact mem_addNew _ _
  obtain ⟨hsent, hparent, hrelease⟩ := hgo hfired hfresh hcomplete
  have hrank : y.rank = (s.pitch p).rank := hx Pitch.rank fun _ _ => rfl
  have hsize : y.size = (s.pitch p).size := hx Pitch.size fun _ _ => rfl
  have hdelay : y.cfg p 0x11 = (s.pitch p).cfg p 0x11 := hx (fun x => x.cfg p 0x11) fun _ _ => rfl
  have hkids : y.children = (s.pitch p).children := hchildren
  rw [hrank] at hparent hrelease
  rw [hsize, hdelay, hkids] at hrelease
  rw [htgbar, hz]
  refine ⟨hsent, fun hne g hg => ?_, fun hzero hmany => ⟨(hrelease hzero hmany).1, fun g hg => ?_⟩⟩
  · rw [List.mem_singleton.mp hg, htxq]
    exact hparent hne
  · obtain ⟨c, hc, rfl⟩ := List.mem_map.mp hg
    rw [htxq]
    exact (hrelease hzero hmany).2 c hc

/-! ## Releases (R346, R347) -/

/-- A release that comes late is counted. -/
def Pitch.lateCounted (x : Pitch) (late : Bool) : Pitch := if late then x.count .barLate else x

theorem Pitch.lateCounted_rest (x : Pitch) (late : Bool) : x.lateCounted late = { x with counters := (x.lateCounted late).counters } := by
  unfold Pitch.lateCounted
  split
  · exact Pitch.count_rest x _ _
  · rfl

theorem Pitch.lateCounted_counter (x : Pitch) (late : Bool) :
    (x.lateCounted late).counter .barLate = x.counter .barLate + (if late then 1 else 0) := by
  cases late with
  | true => exact Pitch.counter_count x (c := .barLate) (by decide) (by decide) 1
  | false => exact (BitVec.add_zero _).symm

/-- The pitch once a release is noted: it is counted where it is late, fixed for its barrier, and on its way to the children. -/
def Pitch.releaseNoted (x : Pitch) (ord time cclk : Nat) (late : Bool) : Pitch :=
  (x.children.map (fun c => barrierFrame c x.stepLo ord 1 time)).foldl Pitch.enqueue
    ((x.lateCounted late).setGbar { x.gbar x.stepLo ord with release := some (time, cclk + 1) })

theorem State.barrierReleased_due {src : Nat} (hrank : (s.pitch p).rank ≠ 0) (hsrc : src = treeParent (s.pitch p).rank)
    (hlo : leAt d 0 2 = (s.pitch p).stepLo.toNat) (hfired : ((s.pitch p).gbar (s.pitch p).stepLo (leAt d 2 2)).fired = true)
    (hsent : ((s.pitch p).gbar (s.pitch p).stepLo (leAt d 2 2)).sentUp = true)
    (hrelease : ((s.pitch p).gbar (s.pitch p).stepLo (leAt d 2 2)).release = none) : s.barrierReleased p src d =
    s.modPitch p (fun x => x.releaseNoted (leAt d 2 2) (leAt d 8 8) s.cclk (decide (((leAt d 8 8 : Nat) : Int) * 65536 ≤ s.ptpNow))) := by
  unfold State.barrierReleased
  extract_lets x lo ord time b z z'
  have hb : b = x.gbar x.stepLo ord := by rw [show b = x.gbar (BitVec.ofNat 16 lo) ord from rfl, show lo = _ from hlo, BitVec.ofNat_toNat, BitVec.setWidth_eq]
  have hblo : b.stepLo = x.stepLo := by rw [hb, (x.gbar_key x.stepLo ord).1]
  have hz : z = x.lateCounted (decide (((leAt d 8 8 : Nat) : Int) * 65536 ≤ s.ptpNow)) := by simp [z, Pitch.lateCounted, time]
  have hchildren : z'.children = x.children := by
    change z.children = x.children
    rw [hz, Pitch.lateCounted_rest]
    rfl
  rw [if_pos (by simp [hrank, hsrc, x, lo, hlo, hb, ord, hfired, hsent, hrelease]), hchildren, hblo, State.modPitch, Pitch.releaseNoted, List.foldl_map]
  simp only [z', hz, hb, ord, time, x]

theorem Pitch.releaseNoted_spec (x : Pitch) (ord time cclk : Nat) (late : Bool) :
    (x.releaseNoted ord time cclk late).gbar x.stepLo ord = { x.gbar x.stepLo ord with release := some (time, cclk + 1) } ∧
    (∀ g ∈ x.children.map (fun c => barrierFrame c x.stepLo ord 1 time), g ∈ (x.releaseNoted ord time cclk late).tx.txq) ∧
    (x.releaseNoted ord time cclk late).counter .barLate = x.counter .barLate + (if late then 1 else 0) ∧
    (x.releaseNoted ord time cclk late).tx.channels = x.tx.channels := by
  let noted := (x.lateCounted late).setGbar { x.gbar x.stepLo ord with release := some (time, cclk + 1) }
  obtain ⟨txq, hframes⟩ := Pitch.enqueues (x.children.map fun c => barrierFrame c x.stepLo ord 1 time) noted
  have hnoted : x.releaseNoted ord time cclk late = { noted with tx := { noted.tx with txq := txq } } := hframes
  refine ⟨?_, fun g hg => Pitch.mem_enqueues _ noted (.inl hg), ?_, ?_⟩
  · rw [hnoted]
    exact x.gbar_set_progress (x.lateCounted late) x.stepLo ord (x.gbar x.stepLo ord).kids (x.gbar x.stepLo ord).sentUp _
  · rw [hnoted]
    exact x.lateCounted_counter late
  · rw [hnoted]
    change (x.lateCounted late).tx.channels = _
    rw [Pitch.lateCounted_rest]

theorem barrierRelease_forwards (h : Fresh s rx p f d) (hkind : f.kind = .barrier) (hdown : leAt d 4 1 = 1)
    (hrank : (s.pitch p).rank ≠ 0) (hsrc : f.src = treeParent (s.pitch p).rank) (hlo : leAt d 0 2 = (s.pitch p).stepLo.toNat)
    (hfired : ((s.pitch p).gbar (s.pitch p).stepLo (leAt d 2 2)).fired = true)
    (hsent : ((s.pitch p).gbar (s.pitch p).stepLo (leAt d 2 2)).sentUp = true)
    (hrelease : ((s.pitch p).gbar (s.pitch p).stepLo (leAt d 2 2)).release = none) :
    ∃ t, exec (.barrierRelease rx) s = .next t ∧ AcceptedQuietly p f s t ∧
      ((t.pitch p).gbar (s.pitch p).stepLo (leAt d 2 2)).release = some (leAt d 8 8, s.cclk + 1) ∧
      Queued p ((s.pitch p).children.map (fun c => barrierFrame c (s.pitch p).stepLo (leAt d 2 2) 1 (leAt d 8 8))) t ∧
      (t.pitch p).counter .barLate =
        (s.pitch p).counter .barLate + (if ((leAt d 8 8 : Nat) : Int) * 65536 ≤ s.ptpNow then 1 else 0) := by
  obtain ⟨t, hrun, hack⟩ := fresh_acts h (c := .barrierRelease rx) (content := fun d => leAt d 4 1 = 1)
    (act := fun p f d s => s.barrierReleased p f.src d) (by simp [hdown]) (by rw [hkind]; rfl)
  let u := s.noted p f
  have hstep : (u.pitch p).stepLo = (s.pitch p).stepLo := s.noted_keeps p f Pitch.stepLo fun _ _ => rfl
  have hurank : (u.pitch p).rank = (s.pitch p).rank := s.noted_keeps p f Pitch.rank fun _ _ => rfl
  have hchildren : (u.pitch p).children = (s.pitch p).children := s.noted_keeps p f Pitch.children fun _ _ => rfl
  have hgbar : (u.pitch p).gbar (s.pitch p).stepLo (leAt d 2 2) = (s.pitch p).gbar (s.pitch p).stepLo (leAt d 2 2) :=
    s.noted_keeps p f (fun x => x.gbar _ _) fun _ _ => rfl
  have hcount : (u.pitch p).counter .barLate = (s.pitch p).counter .barLate := s.noted_keeps p f (fun x => x.counter _) fun _ _ => rfl
  have hdue := State.barrierReleased_due (s := u) (p := p) (d := d) (src := f.src) (by rw [hurank]; exact hrank) (by rw [hurank]; exact hsrc)
    (by rw [hstep]; exact hlo) (by rw [hstep, hgbar]; exact hfired) (by rw [hstep, hgbar]; exact hsent) (by rw [hstep, hgbar]; exact hrelease)
  replace hack : Acknowledged p f.src (u.barrierReleased p f.src d) t := hack
  obtain ⟨hread, hqueued, hlate, hchannels⟩ := (u.pitch p).releaseNoted_spec (leAt d 2 2) (leAt d 8 8) u.cclk
    (decide (((leAt d 8 8 : Nat) : Int) * 65536 ≤ u.ptpNow))
  rw [hdue, State.modPitch] at hack
  rw [hstep] at hread hqueued
  rw [hchildren] at hqueued
  rw [hcount] at hlate
  generalize (u.pitch p).releaseNoted (leAt d 2 2) (leAt d 8 8) u.cclk (decide (((leAt d 8 8 : Nat) : Int) * 65536 ≤ u.ptpNow)) = y at *
  refine ⟨t, hrun, (FrameWork.setPitch u hchannels).acceptsQuietly hack rfl, ?_, fun g hg => ?_, ?_⟩
  · rw [hack.keeps (fun x => x.gbar _ _) fun _ _ => rfl, State.pitch_setPitch, hread]
    rfl
  · rw [hack.frames, State.pitch_setPitch]
    exact hqueued g hg
  · rw [hack.counter, State.pitch_setPitch, hlate]
    simp only [decide_eq_true_eq]
    rfl

end

/-! ## O46 -/

/-- Settles O46: NORM_UP is added at rank 0 and the N-th ends the collective, NORM_DOWN is forwarded and handed on, arrivals go up the
tree once complete, and a release comes down it unchanged. -/
theorem normsAndBarriers : Obligations.NormsAndBarriers := by
  unfold Obligations.NormsAndBarriers
  intro s rx p f d h
  refine ⟨fun hkind hrank g sum hg hsum => ⟨fun hwait => ?_, fun hlast => normUp_ends h hkind hrank hg hsum hlast⟩,
    fun hkind => ⟨fun hgood => normDown_forwards h hkind hgood, fun hover => normDown_stale h hkind hover⟩, ?_,
    fun hkind hup hchild => barrierArrival_stale h hkind hup hchild, ?_⟩
  · subst hg hsum
    exact normUp_adds h hkind hrank hwait
  · intro hkind hup lo ord b hlo hord hb hchild hopen
    subst hb
    exact barrierArrival_notes h hkind hup hlo hord hchild hopen
  · intro hkind hdown b hb hrank hsrc hlo hfired hsent hrelease
    subst hb
    exact barrierRelease_forwards h hkind hdown hrank hsrc hlo hfired hsent hrelease

end Sys2Proof.Machine
end

