-- ==== Sys2Proof/Proofs/OneSidedTargets.lean ====
section
/-! PROOF. What one-sided operations do at their destination (10 R245; 11 R260 to R263). -/

namespace Sys2Proof.Machine

open Sys2Proof.Claims

/-! ## Memory and registers -/

/-- From s to t only memory and registers changed. -/
def OnlyStored (s t : State) : Prop := t = { s with mem := t.mem, erg := t.erg }

theorem OnlyStored.of_erg {s t : State} (h : t = { s with erg := t.erg }) : OnlyStored s t := by rw [OnlyStored, h]

theorem OnlyStored.work {p : PitchId} {r : Nat} {s t : State} (h : OnlyStored s t) : FrameWork p r s t := by
  rw [OnlyStored] at h
  rw [h]
  exact ⟨rfl, fun _ _ => rfl, List.prefix_refl _, rfl, rfl⟩

/-! ## Adds, word by word -/

section
variable (s : State) (a : Nat) {z : Nat} {d : Bytes} {i : Nat}

/-- The words that an add at a writes. -/
def addedWords (s : State) (a z : Nat) (d : Bytes) (i : Nat) : Bytes := addedWord s a z ((chunks z d).map fun c => (leNat c : Int)) i

theorem length_addedWords (z : Nat) (d : Bytes) (i : Nat) : (addedWords s a z d i).length = z := by
  rw [addedWords, addedWord, length_leBytes]

theorem addWords_chunks (hz : 0 < z) (hlen : d.length % z = 0) : s.addWords a z ((chunks z d).map fun c => (leNat c : Int)) =
    s.write a ((List.range (d.length / z)).flatMap (addedWords s a z d)) := by
  have hwhole : d.length = z * (d.length / z) := (Nat.mul_div_cancel' (Nat.dvd_of_mod_eq_zero hlen)).symm
  rw [State.addWords_eq s hz, List.length_map, length_chunks_mul hz hwhole]
  rfl

theorem addWords_outside (hz : 0 < z) (hlen : d.length % z = 0) :
    SameOutside s (s.addWords a z ((chunks z d).map fun c => (leNat c : Int))) a d.length := fun b hb => by
  rw [addWords_chunks s a hz hlen]
  refine State.byte_write_out s a b _ ?_
  rwa [length_flatMap_range (z := z) _ (fun i _ => length_addedWords s a z d i), Nat.mul_div_cancel' (Nat.dvd_of_mod_eq_zero hlen)]

/-- Word i is the old word and the addend, modulo the word. -/
theorem addWords_word (hz : 0 < z) (hlen : d.length % z = 0) (hi : z * i < d.length) :
    (s.addWords a z ((chunks z d).map fun c => (leNat c : Int))).readLe (a + z * i) z =
      (s.readLe (a + z * i) z + leAt d (z * i) z) % 2 ^ (8 * z) := by
  have hwhole : d.length = z * (d.length / z) := (Nat.mul_div_cancel' (Nat.dvd_of_mod_eq_zero hlen)).symm
  have hin : i < d.length / z := by
    rw [hwhole] at hi
    exact Nat.lt_of_mul_lt_mul_left hi
  have hchunk : i < (chunks z d).length := by rwa [length_chunks_mul hz hwhole]
  have haddend : ((chunks z d).map fun c => (leNat c : Int)).getD i 0 = (leAt d (z * i) z : Nat) := by
    have hcut := chunks_getD z i hz d
    rw [List.getD_eq_getElem _ _ hchunk] at hcut
    rw [List.getD_eq_getElem _ _ (by simpa using hchunk), List.getElem_map, hcut]
    rfl
  rw [State.readLe, addWords_chunks s a hz hlen, State.read_write_piece s (fun i _ => length_addedWords s a z d i) hin, addedWords, addedWord,
    haddend, leNat_leBytes, toTwos]
  norm_cast
  rw [show 256 ^ z = 2 ^ (8 * z) by rw [Nat.pow_mul], Nat.mod_mod]

end

/-! ## Adds into Erg registers -/

/-- One step of an ADD_ERG640 (R260). -/
def ergStep (p : PitchId) (reg : Nat) (s : State) (e : Bytes × Nat) : State := s.ergAddTo ((s.pitch p).erg p (reg + e.2)) (ergOfBytes e.1)

theorem State.osErg_eq (s : State) (p : PitchId) (reg : Nat) (d : Bytes) : s.osErg p reg d = (chunks 80 d).zipIdx.foldl (ergStep p reg) s := rfl

theorem ergSteps_rest (p : PitchId) (reg : Nat) (es : List (Bytes × Nat)) (s : State) :
    es.foldl (ergStep p reg) s = { s with erg := (es.foldl (ergStep p reg) s).erg } := by
  induction es generalizing s with
  | nil => rfl
  | cons e es ih =>
    rw [List.foldl_cons, ih]
    rfl

theorem State.osErg_rest (s : State) (p : PitchId) (reg : Nat) (d : Bytes) : s.osErg p reg d = { s with erg := (s.osErg p reg d).erg } :=
  ergSteps_rest p reg _ s

/-- Operand m + i of the list goes to register reg + m + i, and no other register changes. -/
theorem ergSteps_get (p : PitchId) (reg : Nat) (cs : List Bytes) (m : Nat) (s : State) (k : Nat) :
    ((cs.zipIdx m).foldl (ergStep p reg) s).ergGet k =
      if (s.pitch p).erg p (reg + m) ≤ k ∧ k < (s.pitch p).erg p (reg + m) + cs.length then
        ergAdd (s.ergGet k) (ergOfBytes (cs.getD (k - (s.pitch p).erg p (reg + m)) [])) else s.ergGet k := by
  induction cs generalizing m s with
  | nil =>
    rw [if_neg (by simp)]
    rfl
  | cons c cs ih =>
    have hnext : (s.pitch p).erg p (reg + (m + 1)) = (s.pitch p).erg p (reg + m) + 1 := by
      simp only [Pitch.erg]
      omega
    simp only [List.zipIdx_cons, List.foldl_cons, ih, ergStep]
    rw [State.ergAddTo_get, show (s.ergAddTo _ _).pitch p = s.pitch p from rfl, hnext,
      List.length_cons]
    rcases Nat.lt_trichotomy k ((s.pitch p).erg p (reg + m)) with hlt | rfl | hgt
    · rw [if_neg (by omega), if_neg (by omega), if_neg (by omega)]
    · rw [if_neg (by omega), if_pos rfl, if_pos (by omega), Nat.sub_self, List.getD_cons_zero]
    · rw [if_neg (by omega : ¬ k = _)]
      obtain ⟨i, rfl⟩ := Nat.exists_eq_add_of_lt hgt
      rw [show (s.pitch p).erg p (reg + m) + i + 1 - (s.pitch p).erg p (reg + m) = i + 1 by omega,
        show (s.pitch p).erg p (reg + m) + i + 1 - ((s.pitch p).erg p (reg + m) + 1) = i by omega, List.getD_cons_succ]
      refine if_congr ?_ rfl rfl
      omega

/-- Register reg + i gets operand i of an ADD_ERG640. -/
theorem osErg_adds (s : State) (p : PitchId) (reg : Nat) {d : Bytes} (hlen : d.length % 80 = 0) {i : Nat} (hi : 80 * i < d.length) :
    (s.osErg p reg d).ergGet ((s.pitch p).erg p (reg + i)) =
      ergAdd (s.ergGet ((s.pitch p).erg p (reg + i))) (ergOfBytes (cut d (80 * i) 80)) := by
  have hcount : (chunks 80 d).length = d.length / 80 := length_chunks_mul (by decide) (by omega)
  have hplace : (s.pitch p).erg p (reg + i) = (s.pitch p).erg p (reg + 0) + i := by
    simp only [Pitch.erg]
    omega
  rw [State.osErg_eq, ergSteps_get, hcount, if_pos (by omega), hplace, Nat.add_sub_cancel_left, chunks_getD 80 i (by decide)]

theorem osErg_outside (s : State) (p : PitchId) (reg : Nat) {d : Bytes} (hlen : d.length % 80 = 0) {k : Nat}
    (hk : k < (s.pitch p).erg p reg ∨ (s.pitch p).erg p (reg + d.length / 80) ≤ k) : (s.osErg p reg d).ergGet k = s.ergGet k := by
  have hcount : (chunks 80 d).length = d.length / 80 := length_chunks_mul (by decide) (by omega)
  have hend : (s.pitch p).erg p (reg + d.length / 80) = (s.pitch p).erg p reg + d.length / 80 := by
    simp only [Pitch.erg]
    omega
  rw [State.osErg_eq, ergSteps_get, hcount, Nat.add_zero, if_neg (by omega)]

/-! ## An operation is applied (R245) -/

theorem State.osCas_stored (s : State) (p : PitchId) (off : Nat) (d : Bytes) : OnlyStored s (s.osCas p off d) := by
  unfold State.osCas
  extract_lets a
  split <;> rfl

theorem State.osCas_erg (s : State) (p : PitchId) (off : Nat) (d : Bytes) : (s.osCas p off d).erg = s.erg := by
  unfold State.osCas
  extract_lets a
  split <;> rfl

theorem State.osEffect_stored (s : State) (p : PitchId) (op off : Nat) (d : Bytes) : OnlyStored s (s.osEffect p op off d) := by
  unfold State.osEffect
  split_ifs
  · rfl
  · rfl
  · rfl
  · exact OnlyStored.of_erg (s.osErg_rest p off d)
  · exact s.osCas_stored p off d
  · rfl

/-- An operation that is served has its effect, and answers what it returns. -/
theorem State.osServe_spec (s : State) (p : PitchId) (src seq bucket op off : Nat) (d : Bytes) :
    FrameWork p src s (s.osServe p src seq bucket op off d) ∧
    (∃ ps fr, s.osServe p src seq bucket op off d = { s.osEffect p op off d with pitches := ps, free := fr }) ∧
    ∀ data, s.osReturn p op off d = some data →
      ∃ n, Queued p [readResp src bucket seq (readOffset op n) data] (s.osServe p src seq bucket op off d) := by
  unfold State.osServe
  have hwork : FrameWork p src s (s.osEffect p op off d) := (s.osEffect_stored p op off d).work
  cases hret : s.osReturn p op off d with
  | none => exact ⟨hwork, ⟨_, _, rfl⟩, fun data hdata => absurd hdata (by simp)⟩
  | some ret =>
    refine ⟨hwork.trans ((FrameWork.draw _).trans (FrameWork.enqueueAll _ _)), ⟨_, _, rfl⟩, fun data hdata => ?_⟩
    obtain rfl := Option.some.inj hdata
    exact ⟨_, queued_enqueueAll _ p _⟩

section
variable {s : State} {rx : Rx} {p : PitchId} {f : Frame} {d : Bytes} {c : Instr} {op : Nat}

theorem osServe_write (src seq bucket off : Nat) (d : Bytes) : s.osServe p src seq bucket opWrite off d = s.osWrite p off d := rfl

/-- Where no partner is paired, a WRITE to the region is no lock-step record and no difference bytes. -/
theorem osWriteFrame_unpaired (port : NetPort) (hop : f.opcode = opWrite) (hpair : (s.pitch p).pairing = none) :
    s.osWriteFrame p f port d = s.osFrame p f port d := by
  unfold State.osWriteFrame State.osFrame
  split
  next hallowed =>
    rw [hop, osServe_write]
    have hkept : ((s.osWrite p f.offset d).pitch p).pairing = none := hpair
    simp [Pitch.isLsRecord, State.lsDiffFrame, hkept]
  next hrefused => simp [hrefused]

/-- The command of a one-sided frame serves the operation or refuses it. -/
theorem oneSided_acts (h : Fresh s rx p f d) (hrow : osRow rx f.kind = some (c, op)) (hop : f.opcode = op)
    (hpair : (s.pitch p).pairing = none) :
    ∃ t, exec c s = .next t ∧ Acknowledged p f.src ((s.noted p f).osFrame p f rx.port d) t := by
  have hkind (k : FrameKind) (hk : f.kind = k) (hexec : exec c s = live s (fun s => s.oneSidedIn rx k)) :
      ∃ t, exec c s = .next t ∧ Acknowledged p f.src ((s.noted p f).osFrame p f rx.port d) t :=
    fresh_acts h (content := fun _ => true) (act := fun p f d s => s.osFrame p f rx.port d) rfl (by rw [hexec, hk]; rfl)
  unfold osRow at hrow
  split at hrow
  next hk =>
    obtain ⟨rfl, rfl⟩ := Prod.mk.inj (Option.some.inj hrow)
    obtain ⟨t, hrun, hack⟩ := fresh_acts h (c := .oneSidedWrite rx) (content := fun d => !s.lsFrameIs rx d)
      (act := fun p f d s => s.osWriteFrame p f rx.port d) (by simp [State.lsFrameIs, h.parsed, Pitch.isLsRecord, hpair]) (by rw [hk]; rfl)
    rw [osWriteFrame_unpaired rx.port hop ((s.noted_keeps p f Pitch.pairing fun _ _ => rfl).trans hpair)] at hack
    exact ⟨t, hrun, hack⟩
  case h_7 => exact absurd hrow (by simp)
  all_goals
    next hk =>
      obtain ⟨rfl, -⟩ := Prod.mk.inj (Option.some.inj hrow)
      exact hkind _ hk rfl

theorem osAllowed_noted (op : Nat) : ((s.noted p f).pitch p).osAllowed p op f.offset d = (s.pitch p).osAllowed p op f.offset d :=
  s.noted_keeps p f (fun x => x.osAllowed p op f.offset d) fun _ _ => rfl

/-- An operation outside the region is refused with RANGE. -/
theorem oneSided_refused (h : Fresh s rx p f d) (hrow : osRow rx f.kind = some (c, op)) (hop : f.opcode = op)
    (hpair : (s.pitch p).pairing = none) (hrefused : (s.pitch p).osAllowed p op f.offset d = false) :
    ∃ t, exec c s = .next t ∧ AcceptedQuietly p f s t ∧
      (t.pitch p).counter .onesidedRefused = (s.pitch p).counter .onesidedRefused + 1 ∧
      (t.pitch p).counter .nackSent = (s.pitch p).counter .nackSent + 1 := by
  obtain ⟨t, hrun, hack⟩ := oneSided_acts h hrow hop hpair
  rw [State.osFrame, if_neg (by rw [osAllowed_noted, hop, hrefused]; simp)] at hack
  obtain ⟨hquiet, hnack, hothers⟩ := nacked_quietly (FrameWork.count (s.noted p f) .onesidedRefused 1) rfl hack
  refine ⟨t, hrun, hquiet, ?_, ?_⟩
  · rw [hothers .onesidedRefused (by decide) (by decide) (by decide), State.pitch_count, Pitch.counter_count _ (by decide) (by decide),
      s.noted_keeps p f (fun x => x.counter _) fun _ _ => rfl]
    rfl
  · rw [hnack, State.pitch_count, Pitch.counter_count_ne _ (by decide) (by decide) (by decide),
      s.noted_keeps p f (fun x => x.counter _) fun _ _ => rfl]

/-- One within the region has its effect on the state in which the frame acts, and answers what it returns. -/
theorem oneSided_served (h : Fresh s rx p f d) (hrow : osRow rx f.kind = some (c, op)) (hop : f.opcode = op)
    (hpair : (s.pitch p).pairing = none) (hallowed : (s.pitch p).osAllowed p op f.offset d = true) :
    ∃ t, exec c s = .next t ∧ Accepted p f s t ∧ t.hostOut = s.hostOut ∧
      t.mem = ((s.noted p f).osEffect p op f.offset d).mem ∧ t.erg = ((s.noted p f).osEffect p op f.offset d).erg ∧
      ∀ data, (s.noted p f).osReturn p op f.offset d = some data →
        ∃ n, Queued p [readResp f.src f.bucket f.seq (readOffset op n) data] t := by
  obtain ⟨t, hrun, hack⟩ := oneSided_acts h hrow hop hpair
  rw [State.osFrame, if_pos (by rw [osAllowed_noted, hop, hallowed]), hop] at hack
  obtain ⟨hwork, ⟨ps, fr, hserved⟩, hanswer⟩ := (s.noted p f).osServe_spec p f.src f.seq f.bucket op f.offset d
  refine ⟨t, hrun, hwork.accepts hack, ?_, by rw [hack.rest, hserved], by rw [hack.rest, hserved], fun data hdata => ?_⟩
  · rw [hack.rest, hserved, State.osEffect_stored]
    rfl
  · obtain ⟨n, hn⟩ := hanswer data hdata
    exact ⟨n, hack.queued hn⟩

/-! ## What each operation leaves -/

theorem readLe_mem {s t : State} (h : t.mem = s.mem) (a n : Nat) : t.readLe a n = s.readLe a n := by
  rw [State.readLe, State.read, h]
  rfl

theorem ergGet_erg {s t : State} (h : t.erg = s.erg) (g : Nat) : t.ergGet g = s.ergGet g := by
  rw [State.ergGet, h]
  rfl

theorem SameOutside.of_mem {s t u : State} {a n : Nat} (h : SameOutside s u a n) (hmem : t.mem = u.mem) : SameOutside s t a n := fun b hb => by
  rw [State.byte, hmem]
  exact h b hb

section
variable {t : State} {a : Nat} (ha : ((s.noted p f).pitch p).osBase p + f.offset = a)
include ha

theorem osWrite_leaves (hmem : t.mem = ((s.noted p f).osWrite p f.offset d).mem) : t.read a d.length = d ∧ SameOutside s t a d.length := by
  rw [State.osWrite, ha] at hmem
  refine ⟨?_, SameOutside.of_mem (u := s.write a d) (fun b hb => State.byte_write_out s a b d hb) hmem⟩
  rw [State.read, hmem]
  exact State.read_write s a d

theorem osAdd_leaves {z : Nat} (hz : 0 < z) (hmem : t.mem = ((s.noted p f).osAdd p z f.offset d).mem) (hlen : d.length % z = 0) :
    SameOutside s t a d.length ∧ ∀ i, z * i < d.length → t.readLe (a + z * i) z = (s.readLe (a + z * i) z + leAt d (z * i) z) % 2 ^ (8 * z) := by
  rw [State.osAdd, ha] at hmem
  refine ⟨SameOutside.of_mem (addWords_outside s a hz hlen) hmem, fun i hi => ?_⟩
  rw [← addWords_word s a hz hlen hi]
  exact readLe_mem hmem _ _

theorem osCas_leaves (hmem : t.mem = ((s.noted p f).osCas p f.offset d).mem) (hlen : d.length = 16) :
    t.read a 8 = (if s.read a 8 = d.take 8 then cut d 8 8 else s.read a 8) ∧ SameOutside s t a 8 := by
  have hswap : (cut d 8 8).length = 8 := by simp [cut, hlen]
  rw [State.osCas, ha] at hmem
  replace hmem : t.mem = (if s.read a 8 = d.take 8 then s.write a (cut d 8 8) else s).mem := by
    rw [hmem, apply_ite State.mem, apply_ite State.mem]
    rfl
  split at hmem
  next heq =>
    refine ⟨?_, SameOutside.of_mem (u := s.write a (cut d 8 8)) (fun b hb => State.byte_write_out s a b _ (by rwa [hswap])) hmem⟩
    rw [if_pos heq, State.read, hmem]
    have hback := State.read_write s a (cut d 8 8)
    rwa [hswap] at hback
  next hne =>
    rw [if_neg hne, State.read, hmem]
    exact ⟨rfl, SameOutside.of_mem (fun _ _ => rfl) hmem⟩

end
end

/-! ## O48 -/

/-- Settles O48: the operation is served or refused as the region decides, and each opcode's effect is that of its own rule. -/
theorem oneSidedFrames : Obligations.OneSidedFrames := by
  unfold Obligations.OneSidedFrames
  intro s rx p f d c op a h hrow hpair ha hop
  refine ⟨fun hrefused => oneSided_refused h hrow hop hpair hrefused, fun hallowed => ?_⟩
  obtain ⟨t, hrun, hacc, hhost, hmem, herg, hanswer⟩ := oneSided_served h hrow hop hpair hallowed
  have hbase : ((s.noted p f).pitch p).osBase p + f.offset = a := by rw [s.noted_keeps p f (fun x => x.osBase p) fun _ _ => rfl, ha]
  have hreg (k : Nat) : ((s.noted p f).pitch p).erg p k = (s.pitch p).erg p k := s.noted_keeps p f (fun x => x.erg p k) fun _ _ => rfl
  refine ⟨t, hrun, hacc, hhost, ?_, ?_, ?_, ?_, ?_, ?_⟩
  · rintro rfl
    obtain ⟨hread, houtside⟩ := osWrite_leaves hbase hmem
    exact ⟨hread, houtside, herg⟩
  · rintro rfl hlen
    obtain ⟨houtside, hwords⟩ := osAdd_leaves hbase (z := 4) (by decide) hmem hlen
    exact ⟨houtside, herg, hwords⟩
  · rintro rfl hlen
    obtain ⟨houtside, hwords⟩ := osAdd_leaves hbase (z := 8) (by decide) hmem hlen
    exact ⟨houtside, herg, hwords⟩
  · rintro rfl hlen
    replace herg : t.erg = ((s.noted p f).osErg p f.offset d).erg := herg
    refine ⟨hmem.trans (congrArg State.mem ((s.noted p f).osErg_rest p f.offset d) :), fun i hi => ?_, fun g hg => ?_⟩
    · rw [ergGet_erg herg, ← hreg, osErg_adds _ p f.offset hlen hi]
      rfl
    · rw [ergGet_erg herg, osErg_outside _ p f.offset hlen (by rwa [hreg, hreg])]
      rfl
  · rintro rfl
    refine ⟨hmem, herg, ?_⟩
    have hreturn : (s.noted p f).osReturn p opReadReq f.offset d = some (s.read a (leAt d 0 4)) := by
      rw [State.osReturn, if_pos rfl, State.osRead, hbase]
      rfl
    exact hanswer _ hreturn
  · rintro rfl hlen
    obtain ⟨hread, houtside⟩ := osCas_leaves hbase hmem hlen
    have hreturn : (s.noted p f).osReturn p opCas f.offset d = some (s.read a 8) := by
      rw [State.osReturn, if_neg (by decide), if_pos rfl, State.osRead, hbase]
      rfl
    obtain ⟨n, hqueued⟩ := hanswer _ hreturn
    exact ⟨herg.trans ((s.noted p f).osCas_erg p f.offset d), hread, houtside, hqueued⟩

end Sys2Proof.Machine
end

