-- ==== Sys2Proof/Proofs/ExpertFrames.lean ====
section
/-! PROOF. Expert tokens and results arrive, and responses to one-sided operations (10 R241 to R243; 11 R262). -/

namespace Sys2Proof.Machine

open Sys2Proof.Claims

/-! ## A completion, whether written or held (17 R371) -/

/-- From s to t a completion of pitch p was written or held, or had no queue. -/
structure Completed (p : PitchId) (s t : State) : Prop where
  rest : t = { s with pitches := t.pitches, mem := t.mem, hostOut := t.hostOut, hostPorts := t.hostPorts }
  others : ∀ q, q ≠ p → t.pitch q = s.pitch q
  left : s.hostOut <+: t.hostOut
  own : t.pitch p = { s.pitch p with queues := (t.pitch p).queues, counters := (t.pitch p).counters }

theorem Completed.refl {p : PitchId} {s : State} : Completed p s s := ⟨rfl, fun _ _ => rfl, List.prefix_refl _, rfl⟩

theorem Completed.work {p : PitchId} {r : Nat} {s t : State} (h : Completed p s t) : FrameWork p r s t :=
  ⟨by rw [h.rest], h.others, by rw [h.rest], by rw [h.own]; rfl, by rw [h.own]; rfl⟩

theorem Completed.told {p : PitchId} {s t u : State} {out : List HostOut} (h : Completed p s t) (htold : HostsTold t u out) : Completed p s u where
  rest := by rw [htold.1, h.rest]
  others q hq := (htold.pitch q).trans (h.others q hq)
  left := h.left.trans (htold.2.1 ▸ List.prefix_append _ _)
  own := by rw [htold.pitch]; exact h.own

/-- An entry is written and the tail of its queue moves. -/
theorem Completed.entry (s : State) (p : PitchId) (a : Nat) (bs : Bytes) (q : Nat) (v : QPtr) :
    Completed p s ((s.write a bs).setPitch p ((s.pitch p).setQptr q v)) := by
  refine ⟨rfl, fun r hr => State.pitch_setPitch_ne _ p r _ hr, List.prefix_refl _, ?_⟩
  rw [State.pitch_setPitch]
  rfl

theorem Completed.putEntry (s : State) (p : PitchId) (q : Nat) (mk : Bool → Bytes) : Completed p s (s.putEntry p q mk) := by
  unfold State.putEntry
  extract_lets x
  split
  next r a hring haddr =>
    extract_lets u
    have hu : Completed p s u := Completed.entry s p a _ q _
    split
    · exact hu.told (u.sendBound_told p _)
    · exact hu
  next => exact Completed.refl

theorem Completed.complete (s : State) (p : PitchId) (kind status wq : Nat) (head : W16) (detail : Nat) (cookie : W64) :
    Completed p s (s.complete p kind status wq head detail cookie) := by
  unfold State.complete
  extract_lets x cq e
  split
  · exact Completed.putEntry s p cq _
  · split
    · exact Completed.refl
    · refine ⟨rfl, fun r hr => State.pitch_modPitch_ne s p r _ hr, List.prefix_refl _, ?_⟩
      rw [State.pitch_modPitch, Pitch.count_rest]

/-! ## Writes of a descriptor to its host port -/

/-- The port a descriptor's results leave on depends on the configuration, the bound ports and which of them work. -/
theorem State.fetchPort_congr {s t : State} {p : PitchId} (heff : (t.pitch p).eff = (s.pitch p).eff)
    (hbind : (t.pitch p).binding = (s.pitch p).binding) (hmodules : t.hostPorts.map HostPortSt.modules = s.hostPorts.map HostPortSt.modules)
    (q : Nat) : t.fetchPort p q = s.fetchPort p q := by
  have hup (k : Nat) : (t.hostPorts.toList.getD k {}).modules = (s.hostPorts.toList.getD k {}).modules := by
    have hlist : t.hostPorts.toList.map HostPortSt.modules = s.hostPorts.toList.map HostPortSt.modules := by
      rw [← Vector.toList_map, hmodules, Vector.toList_map]
    have hget := congrArg (fun ms => ms.getD k (HostPortSt.modules {})) hlist
    rwa [List.getD_map, List.getD_map] at hget
  simp only [State.fetchPort, State.copyPort, Pitch.queueRec_congr heff, Pitch.ports, hbind, hup]

theorem State.descStore_told {s : State} {p : PitchId} {q : Nat} (hup : s.hostUp (s.fetchPort p q) = true) (a : Nat) (d : Bytes) :
    HostsTold s (s.descStore p q a d) (dmaWrites (s.fetchPort p q) (BitVec.ofNat 64 a) d) := State.hostStore_told hup _ d

/-! ## Token fragments (R241) -/

theorem FlagsMoved.noteCodes (x : Pitch) (fl : BitVec 6) (n : Nat) : FlagsMoved x (x.noteCodes fl n) :=
  (FlagsMoved.raise x fl).trans (FlagsMoved.count _ _ _)

theorem sumOf_snd (fs : List (Nat × Nat × Nat × Nat)) : sumOf ((fs.map (fun f => f.2.2)).map Prod.snd) = sumOf (fs.map (fun f => f.2.2.2)) := by
  rw [List.map_map]
  rfl

section
variable {s : State} {p : PitchId} {e : Exchange} {exch src off : Nat} {d : Bytes}

/-- A fragment that leaves its slot open is noted and placed. -/
theorem State.tokenFrame_part (hfound : (s.pitch p).dispatched (BitVec.ofNat 16 exch) = some e) (hpart : ¬ SlotWhole e off d) :
    ∃ y, FlagsMoved (s.pitch p) y ∧ s.tokenFrame p exch src off d =
      (s.setPitch p (y.setExchange { e with slotFrags := e.slotFrags ++ [(leAt d 4 1, leAt d 0 4, off, (d.drop 16).length)] })).descStore p e.wq
        (e.recvAddr.toNat + (leAt d 4 1 * e.stride + leAt d 0 4) * e.tokenBytes + off * elemBytes e.hostFmt)
        (codeElems e.hostFmt (leAt d 5 1) (d.drop 16)).1 := by
  refine ⟨_, FlagsMoved.noteCodes _ (codeElems e.hostFmt (leAt d 5 1) (d.drop 16)).2.1 (codeElems e.hostFmt (leAt d 5 1) (d.drop 16)).2.2, ?_⟩
  rw [SlotWhole, ← sumOf_snd] at hpart
  simp only [State.tokenFrame, hfound, fragsWhole, hpart, decide_false, Bool.false_eq_true, if_false]
  rfl

/-- One that completes its slot is placed, and the slot's map entry follows. -/
theorem State.tokenFrame_whole (hfound : (s.pitch p).dispatched (BitVec.ofNat 16 exch) = some e) (hwhole : SlotWhole e off d) :
    ∃ y u, FlagsMoved (s.pitch p) y ∧ u = (s.setPitch p (y.setExchange { e with
        slotFrags := (e.slotFrags ++ [(leAt d 4 1, leAt d 0 4, off, (d.drop 16).length)]).filter (fun f => f.1 ≠ leAt d 4 1 || f.2.1 ≠ leAt d 0 4)
        slots := e.slots ++ [(leAt d 4 1, leAt d 0 4, src, leAt d 6 1, leAt d 8 4)] })).descStore p e.wq
      (e.recvAddr.toNat + (leAt d 4 1 * e.stride + leAt d 0 4) * e.tokenBytes + off * elemBytes e.hostFmt)
      (codeElems e.hostFmt (leAt d 5 1) (d.drop 16)).1 ∧
    s.tokenFrame p exch src off d = u.descStore p e.wq
      (e.recvAddr.toNat + localCount (u.expertTable p) (s.pitch p).rank * e.stride * e.tokenBytes +
        roundUp (4 * localCount (u.expertTable p) (s.pitch p).rank) 8 + 8 * (leAt d 4 1 * e.stride + leAt d 0 4))
      (leBytes 2 src ++ leBytes 1 (leAt d 6 1) ++ [0] ++ leBytes 4 (leAt d 8 4)) := by
  refine ⟨_, _, FlagsMoved.noteCodes _ (codeElems e.hostFmt (leAt d 5 1) (d.drop 16)).2.1 (codeElems e.hostFmt (leAt d 5 1) (d.drop 16)).2.2,
    rfl, ?_⟩
  rw [SlotWhole, ← sumOf_snd] at hwhole
  simp only [State.tokenFrame, hfound, fragsWhole, hwhole, decide_true, if_true]
  rfl

end

/-! ## A dispatch's record is set in a frame's action -/

/-- From s to u the pitch's exchange went on to e', beside flags and counts. -/
structure ExchangeSet (p : PitchId) (e' : Exchange) (s u : State) : Prop where
  rest : u = { s with pitches := u.pitches }
  others : ∀ q, q ≠ p → u.pitch q = s.pitch q
  own : ∃ y, FlagsMoved (s.pitch p) y ∧ u.pitch p = y.setExchange e'

section
variable {s u w v t : State} {p : PitchId} {e e' : Exchange} {f : Frame} {exch : W16} {out : List HostOut}

theorem ExchangeSet.of_setPitch {y : Pitch} (hy : FlagsMoved (s.pitch p) y) (e' : Exchange) :
    ExchangeSet p e' s (s.setPitch p (y.setExchange e')) :=
  ⟨rfl, fun q hq => State.pitch_setPitch_ne s p q _ hq, y, hy, State.pitch_setPitch s p _⟩

/-- Beside the exchanges, the pitch keeps what neither flags, counts nor exchanges tell. -/
theorem ExchangeSet.keeps (h : ExchangeSet p e' s u) {α : Type} (g : Pitch → α)
    (hg : ∀ x fl cs es, g { x with numFlags := fl, counters := cs, exchanges := es } = g x) : g (u.pitch p) = g (s.pitch p) := by
  obtain ⟨y, hy, hown⟩ := h.own
  have hform : u.pitch p = { s.pitch p with numFlags := y.numFlags, counters := y.counters, exchanges := (u.pitch p).exchanges } := by
    rw [FlagsMoved] at hy
    rw [hown, hy]
    rfl
  rw [hform, hg]

theorem ExchangeSet.work (h : ExchangeSet p e' s u) (r : Nat) : FrameWork p r s u :=
  FrameWork.of_within (rs := []) ⟨by rw [h.rest], h.others, fun _ _ _ => by rw [h.rest]; rfl⟩ (h.keeps (fun x => x.tx.channels) fun _ _ _ _ => rfl)

theorem ExchangeSet.fetchPort (h : ExchangeSet p e' s u) (q : Nat) : u.fetchPort p q = s.fetchPort p q :=
  State.fetchPort_congr (h.keeps Pitch.eff fun _ _ _ _ => rfl) (h.keeps Pitch.binding fun _ _ _ _ => rfl) (by rw [h.rest]) q

theorem ExchangeSet.hostUp (h : ExchangeSet p e' s u) : u.hostUp = s.hostUp := by
  rw [h.rest]
  rfl

theorem ExchangeSet.dispatched (h : ExchangeSet p e' s u) (hfound : (s.pitch p).dispatched exch = some e)
    (hexch : e'.exch = e.exch) (hstep : e'.stepLo = e.stepLo) (hown : e'.own = e.own) : (u.pitch p).dispatched exch = some e' := by
  obtain ⟨hkey, hlo, hsome⟩ := Pitch.dispatched_some hfound
  obtain ⟨y, hy, hset⟩ := h.own
  rw [hset, ← hkey, ← hexch]
  exact Pitch.dispatched_setExchange (by rw [hown, hsome]) (by rw [hstep, hlo, hy.stepLo])

/-- The frame's pitch keeps these where its channels alone change. -/
theorem State.noted_fetchPort (s : State) (p : PitchId) (f : Frame) (q : Nat) : (s.noted p f).fetchPort p q = s.fetchPort p q :=
  State.fetchPort_congr (s.noted_keeps p f Pitch.eff fun _ _ => rfl) (s.noted_keeps p f Pitch.binding fun _ _ => rfl) rfl q

theorem State.noted_expertTable (s : State) (p : PitchId) (f : Frame) : (s.noted p f).expertTable p = s.expertTable p := by
  have hcfg (k : Nat) : ((s.noted p f).pitch p).cfg p k = (s.pitch p).cfg p k := s.noted_keeps p f (fun x => x.cfg p k) fun _ _ => rfl
  simp only [State.expertTable, Pitch.experts, hcfg]
  rfl

theorem ExchangeSet.expertTable (h : ExchangeSet p e' s u) : u.expertTable p = s.expertTable p := by
  have hcfg (k : Nat) : (u.pitch p).cfg p k = (s.pitch p).cfg p k := h.keeps (fun x => x.cfg p k) fun _ _ _ _ => rfl
  simp only [State.expertTable, Pitch.experts, hcfg]
  rw [h.rest]
  rfl

theorem HostsTold.work (h : HostsTold s t out) (r : Nat) : FrameWork p r s t := HostsMoved.work h.1

theorem HostsTold.fetchPort (h : HostsTold s t out) (q : Nat) : t.fetchPort p q = s.fetchPort p q :=
  State.fetchPort_congr (by rw [h.pitch]) (by rw [h.pitch]) h.2.2 q

theorem HostsTold.expertTable (h : HostsTold s t out) : t.expertTable p = s.expertTable p := by
  rw [h.1]
  rfl

/-- A frame sets the record of a dispatch and writes to the host. -/
theorem exchange_accepts (hset : ExchangeSet p e' (s.noted p f) u) (htold : HostsTold u w out) (hack : Acknowledged p f.src w t) :
    Accepted p f s t ∧ t.mem = s.mem ∧ t.erg = s.erg ∧ t.hostOut = s.hostOut ++ out := by
  refine ⟨((hset.work f.src).trans (htold.work f.src)).accepts hack, ?_, ?_, ?_⟩
  · rw [hack.rest, htold.1, hset.rest]; rfl
  · rw [hack.rest, htold.1, hset.rest]; rfl
  · rw [hack.rest]
    change w.hostOut = _
    rw [htold.2.1, hset.rest]
    rfl

theorem exchange_dispatched (hfound : (s.pitch p).dispatched exch = some e) (hset : ExchangeSet p e' (s.noted p f) u)
    (htold : HostsTold u w out) (hdone : Completed p w v) (hack : Acknowledged p f.src v t) (hexch : e'.exch = e.exch)
    (hstep : e'.stepLo = e.stepLo) (hown : e'.own = e.own) : (t.pitch p).dispatched exch = some e' := by
  rw [hack.keeps (fun x => x.dispatched exch) fun _ _ => rfl, hdone.own]
  refine (Pitch.dispatched_congr (x := w.pitch p) rfl rfl exch).trans ?_
  rw [htold.pitch]
  exact hset.dispatched ((s.noted_keeps p f (fun x => x.dispatched exch) fun _ _ => rfl).trans hfound) hexch hstep hown

/-- The same where a completion may follow. -/
theorem exchange_completes (hset : ExchangeSet p e' (s.noted p f) u) (htold : HostsTold u w out) (hdone : Completed p w v)
    (hack : Acknowledged p f.src v t) : Accepted p f s t ∧ t.erg = s.erg ∧ s.hostOut ++ out <+: t.hostOut := by
  refine ⟨((hset.work f.src).trans ((htold.work f.src).trans hdone.work)).accepts hack, ?_, ?_⟩
  · rw [hack.rest, hdone.rest, htold.1, hset.rest]; rfl
  · have hleft := hdone.left
    rw [htold.2.1, hset.rest] at hleft
    rw [hack.rest]
    exact hleft

/-- Before it the frame left the memory, and of its pitch what a completion takes. -/
theorem exchange_leaves (hset : ExchangeSet p e' (s.noted p f) u) (htold : HostsTold u w out) :
    w.mem = s.mem ∧ (w.pitch p).eff = (s.pitch p).eff ∧ (w.pitch p).queues = (s.pitch p).queues ∧ (w.pitch p).time = (s.pitch p).time := by
  rw [htold.pitch]
  refine ⟨by rw [htold.1, hset.rest]; rfl, ?_, ?_, ?_⟩
  · exact (hset.keeps Pitch.eff fun _ _ _ _ => rfl).trans (s.noted_keeps p f Pitch.eff fun _ _ => rfl)
  · exact (hset.keeps Pitch.queues fun _ _ _ _ => rfl).trans (s.noted_keeps p f Pitch.queues fun _ _ => rfl)
  · exact (hset.keeps Pitch.time fun _ _ _ _ => rfl).trans (s.noted_keeps p f Pitch.time fun _ _ => rfl)

end

section
variable {s : State} {rx : Rx} {p : PitchId} {f : Frame} {d : Bytes} {e : Exchange}

theorem moeToken_acts (h : Fresh s rx p f d) (hkind : f.kind = .moeToken) :
    ∃ t, exec (.moeToken rx) s = .next t ∧ Acknowledged p f.src ((s.noted p f).tokenFrame p f.bucket f.src f.offset d) t :=
  fresh_acts h (c := .moeToken rx) (content := fun _ => true) (act := fun p f d s => s.tokenFrame p f.bucket f.src f.offset d) rfl
    (by rw [hkind]; rfl)

theorem noted_dispatched (s : State) (p : PitchId) (f : Frame) (exch : W16) :
    ((s.noted p f).pitch p).dispatched exch = (s.pitch p).dispatched exch := s.noted_keeps p f (fun x => x.dispatched exch) fun _ _ => rfl

theorem moeToken_stale (h : Fresh s rx p f d) (hkind : f.kind = .moeToken)
    (hnone : (s.pitch p).dispatched (BitVec.ofNat 16 f.bucket) = none) :
    ∃ t, exec (.moeToken rx) s = .next t ∧ AcceptedQuietly p f s t ∧
      (t.pitch p).counter .collStale = (s.pitch p).counter .collStale + 1 := by
  obtain ⟨t, hrun, hack⟩ := moeToken_acts h hkind
  simp only [State.tokenFrame, noted_dispatched, hnone] at hack
  exact ⟨t, hrun, counted_quietly (n := 1) (by decide) (by decide) hack⟩

theorem moeToken_part (h : Fresh s rx p f d) (hkind : f.kind = .moeToken)
    (hfound : (s.pitch p).dispatched (BitVec.ofNat 16 f.bucket) = some e) (hup : s.hostUp (s.fetchPort p e.wq) = true)
    (hpart : ¬ SlotWhole e f.offset d) :
    ∃ t, exec (.moeToken rx) s = .next t ∧ Accepted p f s t ∧ t.mem = s.mem ∧ t.erg = s.erg ∧
      t.hostOut = s.hostOut ++ dmaWrites (s.fetchPort p e.wq) (tokenAt e f.offset d) (codeElems e.hostFmt (leAt d 5 1) (d.drop 16)).1 ∧
      (t.pitch p).dispatched (BitVec.ofNat 16 f.bucket) =
        some { e with slotFrags := e.slotFrags ++ [(leAt d 4 1, leAt d 0 4, f.offset, (d.drop 16).length)] } := by
  obtain ⟨t, hrun, hack⟩ := moeToken_acts h hkind
  obtain ⟨y, hy, hact⟩ := State.tokenFrame_part (s := s.noted p f) (src := f.src) (by rw [noted_dispatched, hfound]) hpart
  rw [hact] at hack
  have hset := ExchangeSet.of_setPitch hy { e with slotFrags := e.slotFrags ++ [(leAt d 4 1, leAt d 0 4, f.offset, (d.drop 16).length)] }
  have hport := (hset.fetchPort e.wq).trans (s.noted_fetchPort p f e.wq)
  have htold := State.descStore_told (q := e.wq) (by rw [hport, hset.hostUp]; exact hup)
    (e.recvAddr.toNat + (leAt d 4 1 * e.stride + leAt d 0 4) * e.tokenBytes + f.offset * elemBytes e.hostFmt)
    (codeElems e.hostFmt (leAt d 5 1) (d.drop 16)).1
  obtain ⟨hacc, hmem, herg, hhost⟩ := exchange_accepts hset htold hack
  rw [hport] at hhost
  exact ⟨t, hrun, hacc, hmem, herg, hhost, exchange_dispatched hfound hset htold Completed.refl hack rfl rfl rfl⟩

theorem moeToken_whole (h : Fresh s rx p f d) (hkind : f.kind = .moeToken)
    (hfound : (s.pitch p).dispatched (BitVec.ofNat 16 f.bucket) = some e) (hup : s.hostUp (s.fetchPort p e.wq) = true)
    (hwhole : SlotWhole e f.offset d) :
    ∃ t e', exec (.moeToken rx) s = .next t ∧ Accepted p f s t ∧ t.mem = s.mem ∧ t.erg = s.erg ∧
      t.hostOut = s.hostOut ++ dmaWrites (s.fetchPort p e.wq) (tokenAt e f.offset d) (codeElems e.hostFmt (leAt d 5 1) (d.drop 16)).1 ++
        dmaWrites (s.fetchPort p e.wq) (BitVec.ofNat 64 (e.recvAddr.toNat +
            localCount (s.expertTable p) (s.pitch p).rank * e.stride * e.tokenBytes +
            roundUp (4 * localCount (s.expertTable p) (s.pitch p).rank) 8 + 8 * (leAt d 4 1 * e.stride + leAt d 0 4)))
          (leBytes 2 f.src ++ leBytes 1 (leAt d 6 1) ++ [0] ++ leBytes 4 (leAt d 8 4)) ∧
      (t.pitch p).dispatched (BitVec.ofNat 16 f.bucket) = some e' ∧
      e'.slots = e.slots ++ [(leAt d 4 1, leAt d 0 4, f.src, leAt d 6 1, leAt d 8 4)] := by
  obtain ⟨t, hrun, hack⟩ := moeToken_acts h hkind
  obtain ⟨y, u, hy, hu, hact⟩ := State.tokenFrame_whole (s := s.noted p f) (src := f.src) (by rw [noted_dispatched, hfound]) hwhole
  rw [hact] at hack
  have hset := ExchangeSet.of_setPitch hy { e with
    slotFrags := (e.slotFrags ++ [(leAt d 4 1, leAt d 0 4, f.offset, (d.drop 16).length)]).filter (fun f => f.1 ≠ leAt d 4 1 || f.2.1 ≠ leAt d 0 4)
    slots := e.slots ++ [(leAt d 4 1, leAt d 0 4, f.src, leAt d 6 1, leAt d 8 4)] }
  have hport := (hset.fetchPort e.wq).trans (s.noted_fetchPort p f e.wq)
  have htold := State.descStore_told (q := e.wq) (by rw [hport, hset.hostUp]; exact hup)
    (e.recvAddr.toNat + (leAt d 4 1 * e.stride + leAt d 0 4) * e.tokenBytes + f.offset * elemBytes e.hostFmt)
    (codeElems e.hostFmt (leAt d 5 1) (d.drop 16)).1
  rw [← hu] at htold
  have hport' := (htold.fetchPort (p := p) e.wq).trans hport
  have htable : u.expertTable p = s.expertTable p := htold.expertTable.trans (hset.expertTable.trans (s.noted_expertTable p f))
  have hrank := s.noted_keeps p f Pitch.rank fun _ _ => rfl
  rw [htable, hrank] at hack
  have hboth := htold.trans (State.descStore_told (q := e.wq) (by rw [hport', htold.hostUp, hset.hostUp]; exact hup)
    (e.recvAddr.toNat + localCount (s.expertTable p) (s.pitch p).rank * e.stride * e.tokenBytes +
      roundUp (4 * localCount (s.expertTable p) (s.pitch p).rank) 8 + 8 * (leAt d 4 1 * e.stride + leAt d 0 4))
    (leBytes 2 f.src ++ leBytes 1 (leAt d 6 1) ++ [0] ++ leBytes 4 (leAt d 8 4)))
  obtain ⟨hacc, hmem, herg, hhost⟩ := exchange_accepts hset hboth hack
  rw [hport, hport', ← List.append_assoc] at hhost
  exact ⟨t, _, hrun, hacc, hmem, herg, hhost, exchange_dispatched hfound hset hboth Completed.refl hack rfl rfl rfl, rfl⟩

/-! ## Result fragments (R243) -/

/-- Whether a fragment completes its result, as the model tests it. -/
def resultWhole (e : Exchange) (off : Nat) (d : Bytes) : Bool :=
  fragsWhole (((e.retFrags ++ [(leAt d 0 4, leAt d 4 1, off, (d.drop 8).length)]).filter
    (fun f => f.1 = leAt d 0 4 && f.2.1 = leAt d 4 1)).map (fun f => f.2.2)) e.elems

theorem resultWhole_iff {off : Nat} : resultWhole e off d = true ↔ ResultWhole e off d := by
  rw [resultWhole, fragsWhole, sumOf_snd, decide_eq_true_eq, ResultWhole]

/-- The record of a dispatch once a result fragment is noted. -/
def Exchange.resultNoted (e : Exchange) (off : Nat) (d : Bytes) : Exchange :=
  { e with
    retFrags := if resultWhole e off d then
        (e.retFrags ++ [(leAt d 0 4, leAt d 4 1, off, (d.drop 8).length)]).filter (fun f => f.1 ≠ leAt d 0 4 || f.2.1 ≠ leAt d 4 1)
      else e.retFrags ++ [(leAt d 0 4, leAt d 4 1, off, (d.drop 8).length)]
    returned := if resultWhole e off d && (leAt d 0 4, leAt d 4 1) ∉ e.returned then e.returned ++ [(leAt d 0 4, leAt d 4 1)]
      else e.returned }

/-- A result fragment is noted and placed, and the last kept entry completes the dispatch. -/
theorem State.returnFrame_some {exch off : Nat} (hfound : (s.pitch p).dispatched (BitVec.ofNat 16 exch) = some e) :
    ∃ y u, FlagsMoved (s.pitch p) y ∧ u = (s.setPitch p (y.setExchange (e.resultNoted off d))).descStore p e.wq
        (e.retAddr.toNat + (leAt d 0 4 * e.k + leAt d 4 1) * e.tokenBytes + off * elemBytes e.hostFmt)
        (codeElems e.hostFmt (leAt d 5 1) (d.drop 8)).1 ∧
      s.returnFrame p exch off d =
        if (resultWhole e off d && (leAt d 0 4, leAt d 4 1) ∉ e.returned) && (e.resultNoted off d).returned.length = e.kept then
          u.complete p 2 stMoeReturned e.wq e.wqHead 0 e.cookie else u := by
  refine ⟨_, _, FlagsMoved.noteCodes _ (codeElems e.hostFmt (leAt d 5 1) (d.drop 8)).2.1 (codeElems e.hostFmt (leAt d 5 1) (d.drop 8)).2.2,
    rfl, ?_⟩
  simp only [State.returnFrame, hfound]
  rfl

theorem moeReturn_acts (h : Fresh s rx p f d) (hkind : f.kind = .moeReturn) :
    ∃ t, exec (.moeReturn rx) s = .next t ∧ Acknowledged p f.src ((s.noted p f).returnFrame p f.bucket f.offset d) t :=
  fresh_acts h (c := .moeReturn rx) (content := fun _ => true) (act := fun p f d s => s.returnFrame p f.bucket f.offset d) rfl
    (by rw [hkind]; rfl)

theorem moeReturn_stale (h : Fresh s rx p f d) (hkind : f.kind = .moeReturn)
    (hnone : (s.pitch p).dispatched (BitVec.ofNat 16 f.bucket) = none) :
    ∃ t, exec (.moeReturn rx) s = .next t ∧ AcceptedQuietly p f s t ∧
      (t.pitch p).counter .collStale = (s.pitch p).counter .collStale + 1 := by
  obtain ⟨t, hrun, hack⟩ := moeReturn_acts h hkind
  simp only [State.returnFrame, noted_dispatched, hnone] at hack
  exact ⟨t, hrun, counted_quietly (n := 1) (by decide) (by decide) hack⟩

/-- A completion that follows an action is one from the state in which the frame came. -/
theorem cplWritten_acted {u w t : State} {kind status wq detail : Nat} {head : W16} {cookie : W64} (hmem : w.mem = s.mem)
    (heff : (w.pitch p).eff = (s.pitch p).eff) (hqueues : (w.pitch p).queues = (s.pitch p).queues) (htime : (w.pitch p).time = (s.pitch p).time)
    (hroom : CplRoom (s.pitch p) wq) (hack : Acknowledged p f.src u t) (hu : u = w.complete p kind status wq head detail cookie) :
    CplWritten p kind status wq head detail cookie s t := by
  have hptr (c : Nat) : (w.pitch p).qptr c = (s.pitch p).qptr c := by rw [Pitch.qptr, hqueues, Pitch.qptr]
  obtain ⟨hwritten, -⟩ := State.complete_writes (cplRoom_congr heff (hptr _) (by rw [hqueues]) hroom) kind status head detail cookie
  obtain ⟨a, r, haddr, hring, htail, hread, hout⟩ := cplWritten_congr heff (hptr _) htime hmem (hu ▸ hwritten)
  refine ⟨a, r, haddr, hring, (hack.keeps (fun x => (x.qptr _).tail) fun _ _ => rfl).trans htail, ?_, fun b hb => ?_⟩
  · rw [State.read, hack.mem]
    exact hread
  · rw [State.byte, hack.mem]
    exact hout b hb

/-- A result fragment is the last of the kept entries. -/
def resultLast (e : Exchange) (off : Nat) (d : Bytes) : Bool :=
  (resultWhole e off d && (leAt d 0 4, leAt d 4 1) ∉ e.returned) && (e.resultNoted off d).returned.length = e.kept

theorem moeReturn_notes (h : Fresh s rx p f d) (hkind : f.kind = .moeReturn)
    (hfound : (s.pitch p).dispatched (BitVec.ofNat 16 f.bucket) = some e) (hup : s.hostUp (s.fetchPort p e.wq) = true) :
    ∃ t, exec (.moeReturn rx) s = .next t ∧ Accepted p f s t ∧ t.erg = s.erg ∧
      s.hostOut ++ dmaWrites (s.fetchPort p e.wq)
        (BitVec.ofNat 64 (e.retAddr.toNat + (leAt d 0 4 * e.k + leAt d 4 1) * e.tokenBytes + f.offset * elemBytes e.hostFmt))
        (codeElems e.hostFmt (leAt d 5 1) (d.drop 8)).1 <+: t.hostOut ∧
      (t.pitch p).dispatched (BitVec.ofNat 16 f.bucket) = some (e.resultNoted f.offset d) ∧
      (resultLast e f.offset d = false → t.mem = s.mem) ∧
      (resultLast e f.offset d = true → CplRoom (s.pitch p) e.wq → CplWritten p 2 stMoeReturned e.wq e.wqHead 0 e.cookie s t) := by
  obtain ⟨t, hrun, hack⟩ := moeReturn_acts h hkind
  obtain ⟨y, w, hy, hw, hact⟩ := State.returnFrame_some (s := s.noted p f) (d := d) (off := f.offset) (by rw [noted_dispatched, hfound])
  have hset := ExchangeSet.of_setPitch hy (e.resultNoted f.offset d)
  have hport := (hset.fetchPort e.wq).trans (s.noted_fetchPort p f e.wq)
  have htold := State.descStore_told (q := e.wq) (by rw [hport, hset.hostUp]; exact hup)
    (e.retAddr.toNat + (leAt d 0 4 * e.k + leAt d 4 1) * e.tokenBytes + f.offset * elemBytes e.hostFmt)
    (codeElems e.hostFmt (leAt d 5 1) (d.drop 8)).1
  rw [← hw, hport] at htold
  have hdone : Completed p w ((s.noted p f).returnFrame p f.bucket f.offset d) := by
    rw [hact]
    split
    · exact Completed.complete w p 2 stMoeReturned e.wq e.wqHead 0 e.cookie
    · exact Completed.refl
  obtain ⟨hacc, herg, hhost⟩ := exchange_completes hset htold hdone hack
  obtain ⟨hmem, heff, hqueues, htime⟩ := exchange_leaves hset htold
  refine ⟨t, hrun, hacc, herg, hhost, exchange_dispatched hfound hset htold hdone hack rfl rfl rfl, fun hmore => ?_, fun hlast hroom => ?_⟩
  · have hsame : (s.noted p f).returnFrame p f.bucket f.offset d = w := hact.trans (if_neg (Bool.not_eq_true _ ▸ hmore))
    rw [hack.mem, hsame, hmem]
  · exact cplWritten_acted hmem heff hqueues htime hroom hack (hact.trans (if_pos hlast))

theorem resultLast_whole {off : Nat} (hwhole : ResultWhole e off d) (hnew : (leAt d 0 4, leAt d 4 1) ∉ e.returned) :
    (e.resultNoted off d).returned = e.returned ++ [(leAt d 0 4, leAt d 4 1)] ∧
    (resultLast e off d = true ↔ e.returned.length + 1 = e.kept) := by
  have hreturned : (e.resultNoted off d).returned = e.returned ++ [(leAt d 0 4, leAt d 4 1)] := by
    rw [Exchange.resultNoted]
    simp [resultWhole_iff.mpr hwhole, hnew]
  refine ⟨hreturned, ?_⟩
  rw [resultLast, hreturned]
  simp [resultWhole_iff.mpr hwhole, hnew]

theorem resultLast_part {off : Nat} (hpart : ¬ ResultWhole e off d) : resultLast e off d = false ∧
    e.resultNoted off d = { e with retFrags := e.retFrags ++ [(leAt d 0 4, leAt d 4 1, off, (d.drop 8).length)] } := by
  have hopen : resultWhole e off d = false := Bool.eq_false_iff.mpr fun hwhole => hpart (resultWhole_iff.mp hwhole)
  simp [resultLast, Exchange.resultNoted, hopen]

/-! ## Responses (R262) -/

theorem readResp_acts (h : Fresh s rx p f d) (hkind : f.kind = .readResp) :
    ∃ t, exec (.readResp rx) s = .next t ∧ Acknowledged p f.src ((s.noted p f).osResponse p f.src f.offset d) t :=
  fresh_acts h (c := .readResp rx) (content := fun _ => true) (act := fun p f d s => s.osResponse p f.src f.offset d) rfl
    (by rw [hkind]; rfl)

theorem noted_osJobs (s : State) (p : PitchId) (f : Frame) : ((s.noted p f).pitch p).osJobs = (s.pitch p).osJobs :=
  s.noted_keeps p f Pitch.osJobs fun _ _ => rfl

/-- A response to no request is dropped. -/
theorem readResp_unasked (h : Fresh s rx p f d) (hkind : f.kind = .readResp)
    (hnone : ∀ j ∈ (s.pitch p).osJobs, ¬ (j.dst = f.src ∧ leAt d 0 6 ∈ j.reqs)) :
    ∃ t, exec (.readResp rx) s = .next t ∧ AcceptedQuietly p f s t := by
  obtain ⟨t, hrun, hack⟩ := readResp_acts h hkind
  have hfind : (s.pitch p).osJobs.find? (fun j => j.dst = f.src && leAt d 0 6 ∈ j.reqs) = none :=
    List.find?_eq_none.mpr fun j hj hmatch => hnone j hj (by simpa using hmatch)
  simp only [State.osResponse, noted_osJobs, hfind] at hack
  exact ⟨t, hrun, FrameWork.refl.acceptsQuietly hack rfl⟩

/-- The operation of a request once its response has come. -/
def OsJob.responded (j : OsJob) (seq : Nat) : OsJob := { j with reqs := j.reqs.erase seq }

/-- The pitch with these operations in flight. -/
def Pitch.withJobs (x : Pitch) (js : List OsJob) : Pitch := { x with osJobs := js }

theorem State.osPart_one {j : OsJob} (hjobs : (s.pitch p).osJobs = [j]) : s.osPart p j.id =
    if j.left ≤ 1 then (s.setPitch p ((s.pitch p).withJobs [])).complete p 4 stOk j.wq j.wqHead 0 j.cookie
    else s.setPitch p ((s.pitch p).withJobs [{ j with left := j.left - 1 }]) := by
  have hfind : (s.pitch p).osJob j.id = some j := by rw [Pitch.osJob, hjobs]; simp
  unfold State.osPart
  rw [hfind]
  dsimp only
  refine if_congr Iff.rfl ?_ ?_
  · rw [State.osComplete, State.modPitch, hjobs]
    simp [Pitch.withJobs]
  · rw [State.modPitch, hjobs]
    simp [Pitch.withJobs]

/-- A response to the one operation in flight is placed. -/
theorem State.osResponse_one {j : OsJob} {src off : Nat} (hjobs : (s.pitch p).osJobs = [j]) (hdst : j.dst = src) (hreq : leAt d 0 6 ∈ j.reqs) :
    s.osResponse p src off d =
      ((s.setPitch p ((s.pitch p).withJobs [j.responded (leAt d 0 6)])).descStore p j.wq (j.localAddr.toNat + off) (d.drop 8)).osPart p j.id := by
  have hfind : (s.pitch p).osJobs.find? (fun j => j.dst = src && leAt d 0 6 ∈ j.reqs) = some j := by rw [hjobs]; simp [hdst, hreq]
  unfold State.osResponse
  extract_lets seq
  rw [hfind]
  dsimp only
  rw [State.osPlace, State.modPitch, hjobs]
  simp [Pitch.withJobs, OsJob.responded, seq]

theorem State.withJobs_fetchPort (s : State) (p : PitchId) (js : List OsJob) (q : Nat) :
    (s.setPitch p ((s.pitch p).withJobs js)).fetchPort p q = s.fetchPort p q := by
  have hpitch := s.pitch_setPitch p ((s.pitch p).withJobs js)
  have hports : (s.setPitch p ((s.pitch p).withJobs js)).hostPorts = s.hostPorts := rfl
  exact State.fetchPort_congr (by rw [hpitch, Pitch.withJobs]) (by rw [hpitch, Pitch.withJobs]) (by rw [hports]) q

/-- The pitch's operations are set, and what the frame writes leaves for the host. -/
theorem jobs_leave (s : State) (p : PitchId) (f : Frame) {js : List OsJob} {w : State} {out : List HostOut}
    (htold : HostsTold ((s.noted p f).setPitch p (((s.noted p f).pitch p).withJobs js)) w out) :
    w.pitch p = ((s.noted p f).pitch p).withJobs js ∧ w.mem = s.mem ∧ w.erg = s.erg ∧ w.hostOut = s.hostOut ++ out ∧
      FrameWork p f.src (s.noted p f) w := by
  refine ⟨by rw [htold.pitch, State.pitch_setPitch], by rw [htold.1]; rfl, by rw [htold.1]; rfl, htold.2.1,
    (FrameWork.setPitch _ (by rfl)).trans (htold.work f.src)⟩

theorem readResp_answers (h : Fresh s rx p f d) (hkind : f.kind = .readResp) {j : OsJob} (hjobs : (s.pitch p).osJobs = [j])
    (hdst : j.dst = f.src) (hreq : leAt d 0 6 ∈ j.reqs) (hup : s.hostUp (s.fetchPort p j.wq) = true) :
    ∃ t, exec (.readResp rx) s = .next t ∧ Accepted p f s t ∧ t.erg = s.erg ∧
      s.hostOut ++ dmaWrites (s.fetchPort p j.wq) (BitVec.ofNat 64 (j.localAddr.toNat + f.offset)) (d.drop 8) <+: t.hostOut ∧
      (1 < j.left → t.mem = s.mem ∧ (t.pitch p).osJobs = [{ j with reqs := j.reqs.erase (leAt d 0 6), left := j.left - 1 }]) ∧
      (j.left ≤ 1 → (t.pitch p).osJobs = [] ∧
        (CplRoom (s.pitch p) j.wq → CplWritten p 4 stOk j.wq j.wqHead 0 j.cookie s t)) := by
  obtain ⟨t, hrun, hack⟩ := readResp_acts h hkind
  rw [State.osResponse_one ((noted_osJobs s p f).trans hjobs) hdst hreq] at hack
  let u := (s.noted p f).setPitch p (((s.noted p f).pitch p).withJobs [j.responded (leAt d 0 6)])
  have hport : u.fetchPort p j.wq = s.fetchPort p j.wq := (State.withJobs_fetchPort _ p _ _).trans (s.noted_fetchPort p f j.wq)
  have htold : HostsTold u (u.descStore p j.wq (j.localAddr.toNat + f.offset) (d.drop 8)) _ :=
    State.descStore_told (by rw [hport]; exact hup) _ _
  rw [hport] at htold
  change Acknowledged p f.src ((u.descStore p j.wq (j.localAddr.toNat + f.offset) (d.drop 8)).osPart p j.id) t at hack
  generalize u.descStore p j.wq (j.localAddr.toNat + f.offset) (d.drop 8) = w at hack htold
  obtain ⟨hpitch, hmem, herg, hhost, hwork⟩ := jobs_leave s p f htold
  have hwjobs : (w.pitch p).osJobs = [j.responded (leAt d 0 6)] := by rw [hpitch]; rfl
  have hpart : w.osPart p j.id = if j.left ≤ 1 then (w.setPitch p ((w.pitch p).withJobs [])).complete p 4 stOk j.wq j.wqHead 0 j.cookie
      else w.setPitch p ((w.pitch p).withJobs [{ j.responded (leAt d 0 6) with left := j.left - 1 }]) := State.osPart_one hwjobs
  rw [hpart] at hack
  have hset (js : List OsJob) : FrameWork p f.src (s.noted p f) (w.setPitch p ((w.pitch p).withJobs js)) :=
    hwork.trans (FrameWork.setPitch w (by rfl))
  refine ⟨t, hrun, ?_⟩
  split at hack
  next hlast =>
    have hdone := Completed.complete (w.setPitch p ((w.pitch p).withJobs [])) p 4 stOk j.wq j.wqHead 0 j.cookie
    have hwritten (hroom : CplRoom (s.pitch p) j.wq) : CplWritten p 4 stOk j.wq j.wqHead 0 j.cookie s t := by
      refine cplWritten_acted (w := w.setPitch p ((w.pitch p).withJobs [])) hmem ?_ ?_ ?_ hroom hack rfl
      all_goals rw [State.pitch_setPitch, hpitch]
      · exact s.noted_keeps p f Pitch.eff fun _ _ => rfl
      · exact s.noted_keeps p f Pitch.queues fun _ _ => rfl
      · exact s.noted_keeps p f Pitch.time fun _ _ => rfl
    generalize State.complete (w.setPitch p ((w.pitch p).withJobs [])) p 4 stOk j.wq j.wqHead 0 j.cookie = v at hack hdone
    obtain ⟨hrest, -, hleft, hown⟩ := id hdone
    rw [State.pitch_setPitch] at hown
    refine ⟨((hset []).trans hdone.work).accepts hack, ?_, ?_, fun hmore => absurd hlast (Nat.not_le.mpr hmore), fun _ => ⟨?_, hwritten⟩⟩
    · rw [hack.rest, hrest]
      exact herg
    · rw [hack.rest, ← hhost]
      exact hleft
    · rw [hack.keeps Pitch.osJobs fun _ _ => rfl, hown]
      rfl
  next hmore =>
    refine ⟨(hset _).accepts hack, ?_, ?_, fun _ => ⟨?_, ?_⟩, fun hlast => absurd hlast hmore⟩
    · rw [hack.rest]
      exact herg
    · rw [hack.rest, ← hhost]
      exact List.prefix_refl _
    · rw [hack.mem]
      exact hmem
    · rw [hack.keeps Pitch.osJobs fun _ _ => rfl, State.pitch_setPitch]
      rfl

end

end Sys2Proof.Machine
end

