-- ==== Sys2Proof/Proofs/LockstepRecords.lean ====
section
/-! PROOF. The partner's lock-step records, window by window (16 R351 to R353). -/

namespace Sys2Proof.Machine

open Sys2Proof.Claims

/-! ## Steps of the pairing's progress -/

/-- The pitch without its records that were compared and sent. -/
def Pitch.lsTrimmed (x : Pitch) : Pitch :=
  { x with lock := { x.lock with own := x.lock.own.filter (fun r => x.lock.compared ≤ r.1 || x.lock.sent ≤ r.1) } }

/-- The pitch once the records of window w were found equal, but for the outputs that they release. -/
def Pitch.lsCompared (x : Pitch) (w : Nat) (keys : List (Nat × Nat)) : Pitch :=
  { x.count .lsWindows with lock := { (x.count .lsWindows).lock with
      compared := w + 1
      partner := (x.count .lsWindows).lock.partner.filter (fun r => r.1 ≠ w)
      bytes := (x.count .lsWindows).lock.bytes.filter (fun e => (e.1, e.2.1) ∉ keys) } }

section
variable {s : State} {p : PitchId} {q : Pairing}

/-- No record is sent where the next one is not there. -/
theorem lsSendGo_none (n : Nat) (hnone : (s.pitch p).lock.own.find? (fun r => r.1 = (s.pitch p).lock.sent) = none) :
    lsSendGo p q n s = s := by
  cases n with
  | zero => rfl
  | succ n =>
    unfold lsSendGo
    extract_lets x w
    rw [show x.lock.own.find? (fun r => r.1 = w) = none from hnone]

/-- A window whose own record is not there waits. -/
theorem lsCompareGo_waits (n : Nat) (hnone : (s.pitch p).lock.own.find? (fun r => r.1 = (s.pitch p).lock.compared) = none) :
    lsCompareGo p q n s = s := by
  cases n with
  | zero => rfl
  | succ n =>
    unfold lsCompareGo
    extract_lets x w
    rw [show x.lock.own.find? (fun r => r.1 = w) = none from hnone]
    split
    next h _ => exact absurd h (by simp)
    · rfl

section
variable {own theirs : Nat × Bytes} (hmatched : (s.pitch p).lock.mismatched = false)
    (hown : (s.pitch p).lock.own.find? (fun r => r.1 = (s.pitch p).lock.compared) = some own)
    (htheirs : (s.pitch p).lock.partner.find? (fun r => r.1 = (s.pitch p).lock.compared) = some theirs)
include hmatched hown htheirs

/-- Equal records release the window's outputs, and the next window is looked at. -/
theorem lsCompareGo_equal (n : Nat) (heq : cut own.2 12 3 = cut theirs.2 12 3 ∧ own.2.drop 16 = theirs.2.drop 16) :
    ∃ keys, lsCompareGo p q (n + 1) s = lsCompareGo p q n
      ((s.setPitch p ((s.pitch p).lsCompared (s.pitch p).lock.compared keys)).releaseOutputs p (fun v => v = (s.pitch p).lock.compared)) := by
  refine ⟨(List.range (leAt own.2 12 2)).map (fun k => (leAt own.2 (32 + 16 * k) 4, leAt own.2 (36 + 16 * k) 4)), ?_⟩
  rw [lsCompareGo]
  simp only [hmatched, hown, htheirs, heq.1, heq.2, decide_true, Bool.and_self, if_true]
  rfl

theorem lsCompareGo_differ (n : Nat) (hne : ¬ (cut own.2 12 3 = cut theirs.2 12 3 ∧ own.2.drop 16 = theirs.2.drop 16)) :
    lsCompareGo p q (n + 1) s = s.lsDiffers p q (s.pitch p).lock.compared own.2 theirs.2 := by
  rw [lsCompareGo]
  simp only [hmatched, hown, htheirs]
  exact if_neg (by simpa using hne)

end

/-- A pairing in force compares, sends what is next, and forgets what is done. -/
theorem State.lsProgress_paired (hpair : (s.pitch p).pairing = some q) (hforce : (s.pitch p).lsSuspended q = false) {v : State}
    (hv : lsCompareGo p q ((s.pitch p).lock.own.length + 1) s = v)
    (hnone : (v.pitch p).lock.own.find? (fun r => r.1 = (v.pitch p).lock.sent) = none) : s.lsProgress p = v.modPitch p Pitch.lsTrimmed := by
  simp only [State.lsProgress, hpair, hforce, Bool.false_eq_true, if_false, hv, lsSendGo_none 8 hnone]
  rfl

end

/-! ## What a window's outcome leaves -/

section
variable (s : State) (p : PitchId)

/-- Outputs that are released leave for the host. -/
theorem State.releaseOutputs_spec (pick : Nat → Bool) (r : Nat) : FrameWork p r s (s.releaseOutputs p pick) ∧
    ∃ outs, (s.releaseOutputs p pick).pitch p = { s.pitch p with lock := { (s.pitch p).lock with outputs := outs } } := by
  unfold State.releaseOutputs
  extract_lets x due lock u
  have hmoved : HostsMoved u (due.foldl (fun s o => s.hostStore o.2.1 o.2.2.1 o.2.2.2) u) :=
    HostsMoved.foldl (f := fun t (o : Nat × HostPort × W64 × Bytes) => t.hostStore o.2.1 o.2.2.1 o.2.2.2)
      (fun t o => HostsMoved.hostStore t o.2.1 o.2.2.1 o.2.2.2) due u
  have hset : FrameWork p r s u := FrameWork.setPitch s rfl
  have hall : FrameWork p r s (due.foldl (fun s o => s.hostStore o.2.1 o.2.2.1 o.2.2.2) u) := hset.trans hmoved.work
  refine ⟨hall, x.lock.outputs.filter (fun o => !pick o.1), ?_⟩
  rw [hmoved.pitch]
  exact State.pitch_setPitch s p _

theorem Pitch.lsMismatched_counter (x : Pitch) : x.lsMismatched.counter .lsMismatches = x.counter .lsMismatches + 1 :=
  Pitch.counter_count x (c := .lsMismatches) (by decide) (by decide) 1

/-- A mismatch is noted, counted and told. -/
theorem State.lsMismatch_spec (bucket block : Nat) (area : Byte) (off : Nat) (r : Nat) :
    FrameWork p r s (s.lsMismatch p bucket block area off) ∧ PitchIs p (s.lsMismatch p bucket block area off) (s.pitch p).lsMismatched := by
  unfold State.lsMismatch
  extract_lets u h hour v
  have hu : u.pitch p = (s.pitch p).lsMismatched := State.pitch_modPitch s p _
  have hchannels : (s.pitch p).lsMismatched.tx.channels = (s.pitch p).tx.channels := by
    rw [Pitch.lsMismatched, Pitch.count_rest]
  have hset : FrameWork p r s u := FrameWork.setPitch s hchannels
  have hv : FrameWork p r u v := ⟨rfl, fun _ _ => rfl, List.prefix_refl _, rfl, rfl⟩
  have htold := (v.notice_told p ntcLockstep (leBytes 4 bucket ++ leBytes 4 block ++ [area] ++ [0, 0, 0] ++ leBytes 4 off)).own
  rw [show v.pitch p = u.pitch p from rfl, hu] at htold
  exact ⟨hset.trans (hv.trans (FrameWork.notice v _ _)), htold⟩

/-- Records that differ where nothing is held are a mismatch at once. -/
theorem State.lsDiffers_spec {q : Pairing} (hfree : q.hold = false) (w : Nat) (own theirs : Bytes) (r : Nat) :
    FrameWork p r s (s.lsDiffers p q w own theirs) ∧ PitchIs p (s.lsDiffers p q w own theirs) (s.pitch p).lsMismatched := by
  unfold State.lsDiffers
  split
  · exact s.lsMismatch_spec p _ _ _ _ r
  · extract_lets k b j
    rw [if_neg (by simp [hfree])]
    obtain ⟨hwork, hown⟩ := s.draw.2.lsMismatch_spec p b j (Config.freeArea s.draw.1) 0xFFFFFFFF r
    exact ⟨(FrameWork.draw s).trans hwork, hown⟩

end

theorem Pitch.lsCompared_lock (x : Pitch) (w : Nat) (keys : List (Nat × Nat)) : (x.lsCompared w keys).lock = { x.lock with
    compared := w + 1, partner := x.lock.partner.filter (fun r => r.1 ≠ w)
    bytes := x.lock.bytes.filter (fun e => (e.1, e.2.1) ∉ keys) } := by
  rw [Pitch.lsCompared, Pitch.count_rest]

theorem Pitch.lsCompared_counter (x : Pitch) (w : Nat) (keys : List (Nat × Nat)) :
    (x.lsCompared w keys).counter .lsWindows = x.counter .lsWindows + 1 :=
  Pitch.counter_count x (c := .lsWindows) (by decide) (by decide) 1

/-- Where the two records of one window are all there is, and are equal, that window is compared and none after it. -/
theorem lsCompareGo_lone {s : State} {p : PitchId} {q : Pairing} (r : Nat) {w : Nat} {own theirs : Bytes}
    (hmatched : (s.pitch p).lock.mismatched = false) (hown : (s.pitch p).lock.own = [(w, own)])
    (hpartner : (s.pitch p).lock.partner = [(w, theirs)]) (hnext : (s.pitch p).lock.compared = w)
    (heq : cut own 12 3 = cut theirs 12 3 ∧ own.drop 16 = theirs.drop 16) :
    ∃ u bytes outs, lsCompareGo p q 2 s = u ∧ FrameWork p r s u ∧
      (u.pitch p).lock = { (s.pitch p).lock with compared := w + 1, partner := [], bytes := bytes, outputs := outs } ∧
      (u.pitch p).counter .lsWindows = (s.pitch p).counter .lsWindows + 1 := by
  obtain ⟨keys, hgo⟩ := lsCompareGo_equal (q := q) (own := (w, own)) (theirs := (w, theirs)) hmatched (by simp [hown, hnext])
    (by simp [hpartner, hnext]) 1 heq
  rw [hnext] at hgo
  obtain ⟨bytes, hlock⟩ : ∃ bytes, ((s.pitch p).lsCompared w keys).lock =
      { (s.pitch p).lock with compared := w + 1, partner := [], bytes := bytes } := by
    rw [Pitch.lsCompared_lock, hpartner, List.filter_cons_of_neg (by simp), List.filter_nil]
    exact ⟨_, rfl⟩
  have hchannels : ((s.pitch p).lsCompared w keys).tx.channels = (s.pitch p).tx.channels := by rw [Pitch.lsCompared, Pitch.count_tx]
  have hcount := (s.pitch p).lsCompared_counter w keys
  generalize (s.pitch p).lsCompared w keys = x at hgo hlock hchannels hcount
  obtain ⟨hreleased, outs, hpitch⟩ := (s.setPitch p x).releaseOutputs_spec p (fun n => n = w) r
  have hwork := (FrameWork.setPitch s hchannels).trans hreleased
  generalize (s.setPitch p x).releaseOutputs p (fun n => n = w) = u at hgo hwork hpitch
  rw [State.pitch_setPitch] at hpitch
  have hulock : (u.pitch p).lock = { (s.pitch p).lock with compared := w + 1, partner := [], bytes := bytes, outputs := outs } := by
    rw [hpitch, hlock]
  have hucount : (u.pitch p).counter .lsWindows = x.counter .lsWindows := by
    rw [hpitch]
    rfl
  have hstop : lsCompareGo p q 1 u = u := lsCompareGo_waits 1 (by simp [hulock, hown])
  exact ⟨u, bytes, outs, hgo.trans hstop, hwork, hulock, hucount.trans hcount⟩

/-! ## A record arrives -/

/-- The pitch once the partner's record d of window w lies in its slot at off. -/
def Pitch.lsRecordNoted (x : Pitch) (off w : Nat) (d : Bytes) : Pitch :=
  { x with lock := { x.lock with base := some (off - 2048 * (w % 4)), partner := [(w, d)] } }

section
variable {s : State} {rx : Rx} {p : PitchId} {f : Frame} {d : Bytes}

/-- A record of the window that is compared next is placed and copied, and the pairing moves on. -/
theorem osWriteFrame_record (port : NetPort) (hop : f.opcode = opWrite) (hallowed : (s.pitch p).osAllowed p opWrite f.offset d = true)
    (hrecord : (s.pitch p).isLsRecord f.src f.offset d = true) (hstep : leAt d 0 8 = (s.pitch p).time.step.toNat)
    (hnext : (s.pitch p).lock.compared = leAt d 8 4) (hpartner : (s.pitch p).lock.partner = []) :
    s.osWriteFrame p f port d =
      ((s.osWrite p f.offset d).setPitch p ((s.pitch p).lsRecordNoted f.offset (leAt d 8 4) d)).lsProgress p := by
  have hserved : s.osFrame p f port d = s.osWrite p f.offset d := by rw [State.osFrame, hop, if_pos hallowed, osServe_write]
  have hsame : (s.osWrite p f.offset d).pitch p = s.pitch p := rfl
  unfold State.osWriteFrame
  rw [hserved, hop, hallowed]
  simp [hsame, hrecord, State.lsRecordFrame, hstep, hnext, hpartner, Pitch.lsRecordNoted]

/-- The command of a record runs so. -/
theorem lockstepRecord_acts (h : Fresh s rx p f d) (hkind : f.kind = .osWrite) (hop : f.opcode = opWrite)
    (hallowed : (s.pitch p).osAllowed p opWrite f.offset d = true) (hrecord : (s.pitch p).isLsRecord f.src f.offset d = true)
    (hstep : leAt d 0 8 = (s.pitch p).time.step.toNat) (hnext : (s.pitch p).lock.compared = leAt d 8 4)
    (hpartner : (s.pitch p).lock.partner = []) :
    ∃ t, exec (.lockstepRecord rx) s = .next t ∧ Acknowledged p f.src ((((s.noted p f).osWrite p f.offset d).setPitch p
      (((s.noted p f).pitch p).lsRecordNoted f.offset (leAt d 8 4) d)).lsProgress p) t := by
  obtain ⟨t, hrun, hack⟩ := fresh_acts h (c := .lockstepRecord rx) (content := fun d => s.lsFrameIs rx d)
    (act := fun p f d s => s.osWriteFrame p f rx.port d) (by simp [State.lsFrameIs, h.parsed, hrecord]) (by rw [hkind]; rfl)
  have hlock := s.noted_keeps p f Pitch.lock fun _ _ => rfl
  rw [osWriteFrame_record rx.port hop ((osAllowed_noted opWrite).trans hallowed)
    ((s.noted_keeps p f (fun x => x.isLsRecord f.src f.offset d) fun _ _ => rfl).trans hrecord)
    (by rw [s.noted_keeps p f Pitch.time fun _ _ => rfl]; exact hstep) (by rw [hlock]; exact hnext) (by rw [hlock]; exact hpartner)] at hack
  exact ⟨t, hrun, hack⟩

/-- The pairing of a record is in force. -/
theorem lsInForce {q : Pairing} (hpair : (s.pitch p).pairing = some q) (hrecord : (s.pitch p).isLsRecord f.src f.offset d = true) :
    (s.pitch p).lsSuspended q = false := by
  simp only [Pitch.isLsRecord, hpair, Bool.and_eq_true, Bool.not_eq_true'] at hrecord
  tauto

/-- What the pairing finds once a record of window w was placed at a and copied. -/
structure RecordPlaced (p : PitchId) (q : Pairing) (f : Frame) (d : Bytes) (s v : State) : Prop where
  work : FrameWork p f.src (s.noted p f) v
  hostOut : v.hostOut = s.hostOut
  mem : v.mem = (s.write ((s.pitch p).osBase p + f.offset) d).mem
  pairing : (v.pitch p).pairing = some q
  force : (v.pitch p).lsSuspended q = false
  lock : (v.pitch p).lock = { (s.pitch p).lock with base := some (f.offset - 2048 * (leAt d 8 4 % 4)), partner := [(leAt d 8 4, d)] }
  counter : ∀ c, (v.pitch p).counter c = (s.pitch p).counter c

/-- Both records of the window are there. -/
theorem RecordPlaced.lone {q : Pairing} {v : State} (hv : RecordPlaced p q f d s v) {own : Bytes} (hown : (s.pitch p).lock.own = [(leAt d 8 4, own)])
    (hnext : (s.pitch p).lock.compared = leAt d 8 4) (hsent : (s.pitch p).lock.sent = leAt d 8 4 + 1)
    (hmatched : (s.pitch p).lock.mismatched = false) :
    (v.pitch p).lock.own = [(leAt d 8 4, own)] ∧ (v.pitch p).lock.partner = [(leAt d 8 4, d)] ∧
      (v.pitch p).lock.compared = leAt d 8 4 ∧ (v.pitch p).lock.sent = leAt d 8 4 + 1 ∧ (v.pitch p).lock.mismatched = false := by
  rw [hv.lock]
  exact ⟨hown, rfl, hnext, hsent, hmatched⟩

section
variable {q : Pairing} (h : Fresh s rx p f d) (hkind : f.kind = .osWrite) (hpair : (s.pitch p).pairing = some q)
    (hrecord : (s.pitch p).isLsRecord f.src f.offset d = true) (hallowed : (s.pitch p).osAllowed p opWrite f.offset d = true)
    (hop : f.opcode = opWrite) (hstep : leAt d 0 8 = (s.pitch p).time.step.toNat) (hpartner : (s.pitch p).lock.partner = [])
    (hmatched : (s.pitch p).lock.mismatched = false) (hnext : (s.pitch p).lock.compared = leAt d 8 4)
include h hkind hpair hrecord hallowed hop hstep hpartner hnext

/-- The record is placed and copied, and the pairing moves on from there. -/
theorem lockstepRecord_places : ∃ t v, exec (.lockstepRecord rx) s = .next t ∧ RecordPlaced p q f d s v ∧
    Acknowledged p f.src (v.lsProgress p) t := by
  obtain ⟨t, hrun, hack⟩ := lockstepRecord_acts h hkind hop hallowed hrecord hstep hnext hpartner
  refine ⟨t, _, hrun, ?_, hack⟩
  have hown := State.pitch_setPitch ((s.noted p f).osWrite p f.offset d) p (((s.noted p f).pitch p).lsRecordNoted f.offset (leAt d 8 4) d)
  have hbase := s.noted_keeps p f (fun x => x.osBase p) fun _ _ => rfl
  refine ⟨(FrameWork.write (s.noted p f) _ d).trans (FrameWork.setPitch _ (by rfl)), rfl, ?_, ?_, ?_, ?_, fun c => ?_⟩
  · change ((s.noted p f).write (((s.noted p f).pitch p).osBase p + f.offset) d).mem = _
    rw [hbase]
    rfl
  · rw [hown]
    exact (s.noted_keeps p f Pitch.pairing fun _ _ => rfl).trans hpair
  · rw [hown]
    exact (s.noted_keeps p f (fun x => x.lsSuspended q) fun _ _ => rfl).trans (lsInForce hpair hrecord)
  · rw [hown, Pitch.lsRecordNoted, s.noted_keeps p f Pitch.lock fun _ _ => rfl]
  · rw [hown]
    exact s.noted_keeps p f (fun x => x.counter c) fun _ _ => rfl

/-- Without the own record the partner's waits. -/
theorem lockstepRecord_waits {a : Nat} (ha : a = (s.pitch p).osBase p + f.offset) (hown : (s.pitch p).lock.own = []) :
    ∃ t, exec (.lockstepRecord rx) s = .next t ∧ Accepted p f s t ∧ t.hostOut = s.hostOut ∧
      t.read a d.length = d ∧ SameOutside s t a d.length ∧
      (t.pitch p).lock = { (s.pitch p).lock with base := some (f.offset - 2048 * (leAt d 8 4 % 4)), partner := [(leAt d 8 4, d)] } := by
  obtain ⟨t, v, hrun, hv, hack⟩ := lockstepRecord_places h hkind hpair hrecord hallowed hop hstep hpartner hnext
  have hnone (w : Nat) : (v.pitch p).lock.own.find? (fun r => r.1 = w) = none := by
    rw [hv.lock, show _ = ([] : List (Nat × Bytes)) from hown]
    rfl
  rw [State.lsProgress_paired hv.pairing hv.force (lsCompareGo_waits _ (hnone _)) (hnone _), State.modPitch] at hack
  have hmem : t.mem = (s.write a d).mem := by rw [hack.mem, ha]; exact hv.mem
  refine ⟨t, hrun, (hv.work.trans (FrameWork.setPitch v (by rfl))).accepts hack, ?_, ?_, SameOutside.of_mem (u := s.write a d) ?_ hmem, ?_⟩
  · rw [hack.rest]
    exact hv.hostOut
  · rw [State.read, hmem]
    exact State.read_write s a d
  · exact fun b hb => State.byte_write_out s a b d hb
  · rw [hack.keeps Pitch.lock fun _ _ => rfl, State.pitch_setPitch, Pitch.lsTrimmed, hv.lock]
    simp [hown]

include hmatched

/-- An equal own record releases the window. -/
theorem lockstepRecord_equal {own : Bytes} (hown : (s.pitch p).lock.own = [(leAt d 8 4, own)]) (hsent : (s.pitch p).lock.sent = leAt d 8 4 + 1)
    (heq : cut own 12 3 = cut d 12 3 ∧ own.drop 16 = d.drop 16) :
    ∃ t, exec (.lockstepRecord rx) s = .next t ∧ Accepted p f s t ∧ (t.pitch p).lock.compared = leAt d 8 4 + 1 ∧
      (t.pitch p).lock.partner = [] ∧ (t.pitch p).lock.own = [] ∧
      (t.pitch p).counter .lsWindows = (s.pitch p).counter .lsWindows + 1 := by
  obtain ⟨t, v, hrun, hv, hack⟩ := lockstepRecord_places h hkind hpair hrecord hallowed hop hstep hpartner hnext
  obtain ⟨hvown, hvpartner, hvnext, hvsent, hvmatched⟩ := hv.lone hown hnext hsent hmatched
  obtain ⟨u, bytes, outs, hgo, hcompared, hulock, hucount⟩ := lsCompareGo_lone (q := q) f.src hvmatched hvown hvpartner hvnext heq
  rw [hv.counter] at hucount
  rw [State.lsProgress_paired (v := u) hv.pairing hv.force (by rw [hvown]; exact hgo) (by simp [hulock, hvown, hvsent]), State.modPitch] at hack
  have htlock : (t.pitch p).lock = (u.pitch p).lsTrimmed.lock := by rw [hack.keeps Pitch.lock fun _ _ => rfl, State.pitch_setPitch]
  refine ⟨t, hrun, ?_⟩
  rw [htlock, Pitch.lsTrimmed, hulock]
  refine ⟨((hv.work.trans hcompared).trans (FrameWork.setPitch u (by rfl))).accepts hack, rfl, rfl, by simp [hvown, hvsent], ?_⟩
  rw [hack.counter, State.pitch_setPitch, ← hucount]
  rfl

/-- One that differs is a mismatch at once where nothing is held. -/
theorem lockstepRecord_differ {own : Bytes} (hown : (s.pitch p).lock.own = [(leAt d 8 4, own)]) (hsent : (s.pitch p).lock.sent = leAt d 8 4 + 1)
    (hfree : q.hold = false) (hne : ¬ (cut own 12 3 = cut d 12 3 ∧ own.drop 16 = d.drop 16)) :
    ∃ t, exec (.lockstepRecord rx) s = .next t ∧ Accepted p f s t ∧ (t.pitch p).lock.held = true ∧
      (t.pitch p).lock.mismatched = true ∧ (t.pitch p).counter .lsMismatches = (s.pitch p).counter .lsMismatches + 1 := by
  obtain ⟨t, v, hrun, hv, hack⟩ := lockstepRecord_places h hkind hpair hrecord hallowed hop hstep hpartner hnext
  obtain ⟨hvown, hvpartner, hvnext, hvsent, hvmatched⟩ := hv.lone hown hnext hsent hmatched
  have hgo := lsCompareGo_differ (q := q) (own := (leAt d 8 4, own)) (theirs := (leAt d 8 4, d)) hvmatched (by simp [hvown, hvnext])
    (by simp [hvpartner, hvnext]) 1 hne
  obtain ⟨hdiffers, hpitch⟩ := v.lsDiffers_spec p hfree (v.pitch p).lock.compared own d f.src
  change lsCompareGo p q (1 + 1) v = v.lsDiffers p q (v.pitch p).lock.compared own d at hgo
  generalize v.lsDiffers p q (v.pitch p).lock.compared own d = u at hgo hdiffers hpitch
  have hucount : (u.pitch p).counter .lsMismatches = (s.pitch p).counter .lsMismatches + 1 := by
    rw [hpitch.counter, Pitch.lsMismatched_counter, hv.counter]
  rw [PitchIs] at hpitch
  have hulock : (u.pitch p).lock = { (v.pitch p).lock with held := true, mismatched := true, diff := none } := by
    rw [hpitch, Pitch.lsMismatched, Pitch.count_rest]
  rw [State.lsProgress_paired (v := u) hv.pairing hv.force (by rw [hvown]; exact hgo) (by simp [hulock, hvown, hvsent]), State.modPitch] at hack
  have htlock : (t.pitch p).lock = (u.pitch p).lsTrimmed.lock := by rw [hack.keeps Pitch.lock fun _ _ => rfl, State.pitch_setPitch]
  refine ⟨t, hrun, ?_⟩
  rw [htlock, Pitch.lsTrimmed, hulock]
  refine ⟨((hv.work.trans hdiffers).trans (FrameWork.setPitch u (by rfl))).accepts hack, rfl, rfl, ?_⟩
  rw [hack.counter, State.pitch_setPitch, ← hucount]
  rfl

end

end

/-! ## O47 -/

/-- Settles O47: fragments are placed and noted by their dispatch, responses by their operation, and records by their window. -/
theorem tokensResultsAndRecords : Obligations.TokensResultsAndRecords := by
  unfold Obligations.TokensResultsAndRecords
  refine ⟨fun s rx p f d h => ⟨fun hkind => ⟨moeToken_stale h hkind, fun e hfound hup => ⟨moeToken_part h hkind hfound hup,
      moeToken_whole h hkind hfound hup⟩⟩, fun hkind => ⟨moeReturn_stale h hkind, fun e hfound hup => ?_⟩⟩,
    fun s rx p f d h => ⟨fun hkind => ⟨readResp_unasked h hkind, fun j hjobs hdst hreq hup => readResp_answers h hkind hjobs hdst hreq hup⟩, ?_⟩⟩
  · obtain ⟨t, hrun, hacc, herg, hhost, hnoted, hmore, hlast⟩ := moeReturn_notes h hkind hfound hup
    refine ⟨t, hrun, hacc, herg, hhost, fun hpart => ?_, fun hwhole hnew => ?_⟩
    · obtain ⟨hopen, hsame⟩ := resultLast_part hpart
      exact ⟨hmore hopen, hnoted.trans (congrArg some hsame)⟩
    · obtain ⟨hreturned, hiff⟩ := resultLast_whole hwhole hnew
      exact ⟨⟨_, hnoted, hreturned⟩, fun hne => hmore (Bool.eq_false_iff.mpr (mt hiff.mp hne)), fun heq hroom => hlast (hiff.mpr heq) hroom⟩
  · intro hkind q a w hpair hrecord hallowed hop ha hw hstep hpartner hmatched hnext
    subst hw
    exact ⟨fun hown => lockstepRecord_waits h hkind hpair hrecord hallowed hop hstep hpartner hnext ha hown,
      fun own hown hsent hcut hdrop => lockstepRecord_equal h hkind hpair hrecord hallowed hop hstep hpartner hmatched hnext hown hsent ⟨hcut, hdrop⟩,
      fun own hown hsent hfree hne => lockstepRecord_differ h hkind hpair hrecord hallowed hop hstep hpartner hmatched hnext hown hsent hfree hne⟩

end Sys2Proof.Machine
end

