-- ==== Sys2Proof/Proofs/AgreementFrames.lean ====
section
/-! PROOF. Agreement records travel the tree (10 R228, R229, R248). -/

namespace Sys2Proof.Machine

open Sys2Proof.Claims

/-! ## Frames that wait go on waiting -/

/-- From s to t frames may have joined pitch p's queue, none has left it, and the channels are as before. -/
structure Waiting (p : PitchId) (s t : State) : Prop where
  channels : (t.pitch p).tx.channels = (s.pitch p).tx.channels
  kept : ∀ g ∈ (s.pitch p).tx.txq, g ∈ (t.pitch p).tx.txq

section
variable {p : PitchId} {s t u : State}

theorem Waiting.refl : Waiting p s s := ⟨rfl, fun _ hg => hg⟩

theorem Waiting.trans (h : Waiting p s t) (k : Waiting p t u) : Waiting p s u :=
  ⟨k.channels.trans h.channels, fun g hg => k.kept g (h.kept g hg)⟩

theorem Waiting.of_tx (h : (t.pitch p).tx = (s.pitch p).tx) : Waiting p s t := ⟨by rw [h], fun g hg => by rwa [h]⟩

theorem Waiting.queued {fs : List TxFrame} (h : Waiting p s t) (hs : Queued p fs s) : Queued p fs t := fun g hg => h.kept g (hs g hg)

theorem Waiting.enqueueAll (s : State) (p : PitchId) (fs : List TxFrame) : Waiting p s (s.enqueueAll p fs) := by
  obtain ⟨txq, hframes⟩ := Pitch.enqueues fs (s.pitch p)
  have hpitch : (s.enqueueAll p fs).pitch p = fs.foldl Pitch.enqueue (s.pitch p) := State.pitch_modPitch s p _
  refine ⟨by rw [hpitch, hframes], fun g hg => ?_⟩
  rw [hpitch]
  exact Pitch.mem_enqueues fs _ (.inr hg)

/-- Frames to each of several ranks wait. -/
theorem enqueues_queued {α : Type} (p : PitchId) (fs : α → List TxFrame) (as : List α) (s : State) :
    Waiting p s (as.foldl (fun s c => s.enqueueAll p (fs c)) s) ∧
    ∀ c ∈ as, Queued p (fs c) (as.foldl (fun s c => s.enqueueAll p (fs c)) s) := by
  induction as generalizing s with
  | nil => exact ⟨Waiting.refl, fun c hc => absurd hc (List.not_mem_nil)⟩
  | cons a as ih =>
    obtain ⟨hwait, hqueued⟩ := ih (s.enqueueAll p (fs a))
    refine ⟨(Waiting.enqueueAll s p (fs a)).trans hwait, fun c hc => ?_⟩
    rcases List.mem_cons.mp hc with rfl | hc
    · exact hwait.queued (queued_enqueueAll s p (fs c))
    · exact hqueued c hc

theorem TxMoved.runs {x y : Pitch} (h : TxMoved x y) : y.runs = x.runs := by rw [h]

/-- Of the pitch only its queue changes with them. -/
theorem enqueues_moved {α : Type} (p : PitchId) (fs : α → List TxFrame) (as : List α) (s : State) :
    TxMoved (s.pitch p) ((as.foldl (fun s c => s.enqueueAll p (fs c)) s).pitch p) := by
  induction as generalizing s with
  | nil => exact TxMoved.refl
  | cons a as ih =>
    have hfirst : (s.enqueueAll p (fs a)).pitch p = (fs a).foldl Pitch.enqueue (s.pitch p) := State.pitch_modPitch s p _
    have hmoved := TxMoved.enqueues (fs a) (s.pitch p)
    rw [← hfirst] at hmoved
    exact hmoved.trans (ih (s.enqueueAll p (fs a)))

end

/-! ## An agreed record is applied (R229) -/

theorem Pitch.bucketNonfinite_tx (x : Pitch) : x.bucketNonfinite.tx = x.tx := (Pitch.count_tx x .nonfiniteBuckets 1 : _)

theorem Pitch.bucketNonfinite_runs (x : Pitch) : x.bucketNonfinite.runs = x.runs := (Pitch.runs_count x .nonfiniteBuckets 1 : _)

theorem State.applyAgreed_tx (s : State) (p : PitchId) (a : AgreeRec) : ((s.applyAgreed p a).pitch p).tx = (s.pitch p).tx := by
  unfold State.applyAgreed
  extract_lets x
  split
  · rfl
  next r _ =>
    extract_lets r₁ y₁ y
    have hset (q : BucketRun) : (x.setRun q).tx = x.tx := rfl
    have hstop (q : BucketRun) : (x.lrStop q).tx = x.tx := Pitch.bucketNonfinite_tx _
    have hnonfinite : y₁.bucketNonfinite.tx = x.tx := Pitch.bucketNonfinite_tx _
    rw [State.guardProgress_tx, State.pitch_setPitch]
    simp only [y, apply_ite Pitch.tx, hstop, hnonfinite, hset, y₁, ite_self, x]

/-- A record of round 0 that is new gives its bucket's run the agreed exponents. -/
theorem State.applyAgreed_run {s : State} {p : PitchId} {a : AgreeRec} {r : BucketRun} (hround : a.round = 0)
    (hrun : (s.pitch p).runOf a.bucket = some r) (hnew : r.agreedOf a.bucket = none) :
    ∃ r' ∈ ((s.applyAgreed p a).pitch p).runs, r'.bucket = r.bucket ∧ r'.agreed = r.agreed ++ [(a.bucket, a.codes, a.nf)] := by
  unfold State.applyAgreed
  extract_lets x
  split
  next hnone => exact absurd (hrun.symm.trans hnone) (by simp)
  next q hq =>
    obtain rfl : r = q := Option.some.inj (hrun.symm.trans hq)
    extract_lets r₁ y₁ y
    have hy : y.runs = y₁.runs := by
      simp only [y, hround, hnew, Option.isSome_none, if_true, Bool.false_eq_true, if_false]
      split
      · exact y₁.bucketNonfinite_runs
      · rfl
    refine ⟨r₁, ?_, rfl, rfl⟩
    rw [State.guardProgress_runs, State.pitch_setPitch, hy]
    exact Pitch.mem_setRun hrun rfl

/-! ## A whole record goes on (R228) -/

section
variable (s : State) (p : PitchId) (a : Agree)

/-- An agreed record is filed and goes to each child; then a record of this step is applied where the own one is there. -/
theorem State.agreeDone_sends (bytes : Bytes) : Waiting p s (s.agreeDone p a bytes) ∧
    ∀ c ∈ (s.pitch p).children, Queued p (recordFrames c a.bucket tgAgreeDown bytes) (s.agreeDone p a bytes) := by
  unfold State.agreeDone
  extract_lets filed sent
  have hfiled : filed.pitch p = (s.pitch p).setAgree { a with agreed := some bytes, sent := true } := State.pitch_modPitch s p _
  obtain ⟨hsent, hqueued⟩ : Waiting p filed sent ∧ ∀ c ∈ (filed.pitch p).children, Queued p (recordFrames c a.bucket tgAgreeDown bytes) sent :=
    enqueues_queued p (fun c => recordFrames c a.bucket tgAgreeDown bytes) _ filed
  have hstart : Waiting p s filed := Waiting.of_tx (by rw [hfiled]; rfl)
  rw [hfiled] at hqueued
  split
  · have happlied : Waiting p sent (sent.applyAgreed p (agreeOf bytes)) := Waiting.of_tx (sent.applyAgreed_tx p _)
    exact ⟨(hstart.trans hsent).trans happlied, fun c hc => happlied.queued (hqueued c hc)⟩
  · exact ⟨hstart.trans hsent, hqueued⟩

/-- An agreement of this step with the own record applies what is agreed, before which its runs are as they were. -/
theorem State.agreeDone_applies (bytes : Bytes) (hstep : a.stepLo = (s.pitch p).stepLo) (hown : a.own.isSome = true) :
    ∃ u : State, s.agreeDone p a bytes = u.applyAgreed p (agreeOf bytes) ∧ (u.pitch p).runs = (s.pitch p).runs := by
  unfold State.agreeDone
  extract_lets filed sent
  have hfiled : filed.pitch p = (s.pitch p).setAgree { a with agreed := some bytes, sent := true } := State.pitch_modPitch s p _
  have hsent : TxMoved (filed.pitch p) (sent.pitch p) := enqueues_moved p (fun c => recordFrames c a.bucket tgAgreeDown bytes) _ filed
  have htime := hsent.time
  have hruns := hsent.runs
  rw [hfiled] at htime hruns
  have hlo : (sent.pitch p).stepLo = (s.pitch p).stepLo := by
    rw [Pitch.stepLo, htime]
    rfl
  exact ⟨sent, if_pos (by simp [hlo, hstep, hown]), hruns⟩

/-- Whatever an agreement does, the frames that wait go on waiting. -/
theorem State.agreeProgress_waiting : Waiting p s (s.agreeProgress p a) := by
  have hset (b : Agree) : Waiting p s (s.setPitch p ((s.pitch p).setAgree b)) := Waiting.of_tx (by rw [State.pitch_setPitch]; rfl)
  unfold State.agreeProgress
  extract_lets x
  split
  · exact hset a
  · split
    · exact (hset a).trans (Waiting.of_tx (State.applyAgreed_tx _ p _))
    · split
      · exact hset a
      · extract_lets all
        split
        · exact (s.agreeDone_sends p a all).1
        · exact (hset _).trans (Waiting.enqueueAll _ p _)

theorem State.agreeProgress_within : Within p [] s (s.agreeProgress p a) := by
  cases hown : a.own with
  | some own => exact (State.agreeProgress_spec hown).1
  | none =>
    rw [State.agreeProgress, hown]
    exact Within.setPitch s _

/-- Without the own record the agreement is filed and waits. -/
theorem State.agreeProgress_unowned (hown : a.own = none) : s.agreeProgress p a = s.setPitch p ((s.pitch p).setAgree a) := by
  rw [State.agreeProgress, hown]

/-- With every record there rank 0 sends the combined one down. -/
theorem State.agreeProgress_root {own : Bytes} (hown : a.own = some own) (hagreed : a.agreed = none) (hsent : a.sent = false)
    (hall : ∀ c ∈ (s.pitch p).children, ∃ k ∈ a.kids, k.1 = c) (hrank : (s.pitch p).rank = 0) :
    s.agreeProgress p a = s.agreeDone p a (combinedRecord a own) := by
  have hthere : (s.pitch p).children.all (fun c => a.kids.any (fun k => k.1 = c)) = true := by simpa using hall
  simp [State.agreeProgress, hown, hagreed, hsent, hthere, hrank, combinedRecord]

end

/-! ## A record of one frame (R228, R248) -/

/-- A record that one frame carries is whole at once. -/
theorem Pitch.assemble_whole (x : Pitch) (src b : Nat) (down : Bool) {d : Bytes} {len : Bytes → Nat} (hlen : len d = d.length)
    (hpos : 0 < d.length) (hmax : d.length ≤ 4096) :
    x.assemble src b down 0 d len = (x.setAssembly { x.assembly src b down with frags := [] }, some d) := by
  have hfind : (upsert (fun f : Nat × Bytes => decide (f.1 = 0)) (fun _ => (0, d)) (0, d) (x.assembly src b down).frags).find?
      (fun f => f.1 = 0) = some (0, d) := find?_upsert (by simp) _
  have hone : divUp d.length 4096 = 1 := by
    rw [divUp]
    omega
  unfold Pitch.assemble
  extract_lets a frags
  replace hfind : frags.find? (fun f => f.1 = 0) = some (0, d) := hfind
  clear_value frags
  simp [hlen, hone, hfind, allSome]

theorem agreeLen_pos (codes listN : Nat) : 0 < agreeLen codes listN := by
  rw [agreeLen]
  omega

section
variable {s : State} {rx : Rx} {p : PitchId} {f : Frame} {d : Bytes} {b src : Nat}

/-- The pitch once a record of rank src that needed no other frame has come. -/
def Pitch.recordWhole (x : Pitch) (src b : Nat) (down : Bool) : Pitch := x.setAssembly { x.assembly src b down with frags := [] }

theorem State.agreeFragment_whole {down : Bool} (hlen : d.length = agreeLen (leAt d 8 4) (leAt d 12 2)) (hmax : d.length ≤ 4096)
    (hgood : (s.pitch p).stepUsable (leAt d 4 2) = true) : s.agreeFragment p b down src 0 d =
      if down then (s.setPitch p ((s.pitch p).recordWhole src b down)).agreeDone p
        ((s.pitch p).agree b (agreeOf d).round (BitVec.ofNat 16 (agreeOf d).stepLo)) d
      else (s.setPitch p ((s.pitch p).recordWhole src b down)).agreeProgress p (agreeWith (s.pitch p) b src d) := by
  have hwhole := (s.pitch p).assemble_whole src b down (len := fun h => agreeLen (leAt h 8 4) (leAt h 12 2)) hlen.symm
    (hlen ▸ agreeLen_pos _ _) hmax
  unfold State.agreeFragment
  simp only [hgood, Bool.not_true, Bool.and_false, Bool.false_eq_true, if_false, Assembly.staleAt, ne_eq, not_true, decide_false, Bool.false_and,
    hwhole]
  rfl

/-- The state in which a record that has come goes on. -/
def recordCame (s : State) (p : PitchId) (f : Frame) (b : Nat) (down : Bool) : State :=
  (s.noted p f).setPitch p (((s.noted p f).pitch p).recordWhole f.src b down)

/-- What depends neither on the channels nor on the records that are on their way is as it was. -/
theorem recordCame_keeps (s : State) (p : PitchId) (f : Frame) (b : Nat) (down : Bool) {α : Type} (g : Pitch → α)
    (hg : ∀ x cs, g { x with tx := { x.tx with channels := cs } } = g x) (hg' : ∀ x as, g { x with assemblies := as } = g x) :
    g ((recordCame s p f b down).pitch p) = g (s.pitch p) := by
  rw [recordCame, State.pitch_setPitch]
  exact (hg' _ _).trans (s.noted_keeps p f g hg)

theorem recordCame_work (s : State) (p : PitchId) (f : Frame) (b : Nat) (down : Bool) : FrameWork p f.src (s.noted p f) (recordCame s p f b down) :=
  FrameWork.setPitch _ rfl

/-- The agreement of a record that arrives is filed under the record's own key. -/
theorem agreeWith_key (x : Pitch) (b src : Nat) (d : Bytes) : (agreeWith x b src d).bucket = b ∧
    (agreeWith x b src d).round = (agreeOf d).round ∧ (agreeWith x b src d).stepLo = BitVec.ofNat 16 (agreeOf d).stepLo :=
  x.agree_key b (agreeOf d).round (BitVec.ofNat 16 (agreeOf d).stepLo)

theorem agreeUp_acts (h : Fresh s rx p f d) (hkind : f.kind = .agreeUp) :
    ∃ t, exec (.agreeUp rx) s = .next t ∧ Acknowledged p f.src ((s.noted p f).agreeFragment p f.bucket false f.src f.offset d) t :=
  fresh_acts h (c := .agreeUp rx) (content := fun _ => true) (act := fun p f d s => s.agreeFragment p f.bucket false f.src f.offset d) rfl
    (by rw [hkind]; rfl)

theorem agreeDown_acts (h : Fresh s rx p f d) (hkind : f.kind = .agreeDown) :
    ∃ t, exec (.agreeDown rx) s = .next t ∧ Acknowledged p f.src ((s.noted p f).agreeFragment p f.bucket true f.src f.offset d) t :=
  fresh_acts h (c := .agreeDown rx) (content := fun _ => true) (act := fun p f d s => s.agreeFragment p f.bucket true f.src f.offset d) rfl
    (by rw [hkind]; rfl)

theorem noted_stepUsable (s : State) (p : PitchId) (f : Frame) (lo : Nat) : ((s.noted p f).pitch p).stepUsable lo = (s.pitch p).stepUsable lo :=
  s.noted_keeps p f (fun x => x.stepUsable lo) fun _ _ => rfl

/-! ## AGREE_UP -/

/-- A child's record is filed, and the combined one goes on once the own one and every child's are there. -/
theorem agreeUp_goes (h : Fresh s rx p f d) (hoff : f.offset = 0) (hmax : d.length ≤ 4096) (hkind : f.kind = .agreeUp)
    (hlen : d.length = agreeLen (leAt d 8 4) (leAt d 12 2)) (hgood : (s.pitch p).stepUsable (leAt d 4 2) = true) :
    ∃ t, exec (.agreeUp rx) s = .next t ∧ Accepted p f s t ∧
      ((agreeWith (s.pitch p) f.bucket f.src d).own = none →
        (t.pitch p).agree f.bucket (agreeOf d).round (BitVec.ofNat 16 (agreeOf d).stepLo) = agreeWith (s.pitch p) f.bucket f.src d) ∧
      (∀ own, (agreeWith (s.pitch p) f.bucket f.src d).own = some own → (agreeWith (s.pitch p) f.bucket f.src d).agreed = none →
        (agreeWith (s.pitch p) f.bucket f.src d).sent = false →
        (∀ c ∈ (s.pitch p).children, ∃ k ∈ (agreeWith (s.pitch p) f.bucket f.src d).kids, k.1 = c) →
        ((s.pitch p).rank ≠ 0 → Queued p (recordFrames (treeParent (s.pitch p).rank) f.bucket tgAgreeUp
          (combinedRecord (agreeWith (s.pitch p) f.bucket f.src d) own)) t) ∧
        ((s.pitch p).rank = 0 → ∀ c ∈ (s.pitch p).children, Queued p (recordFrames c f.bucket tgAgreeDown
          (combinedRecord (agreeWith (s.pitch p) f.bucket f.src d) own)) t)) := by
  obtain ⟨t, hrun, hack⟩ := agreeUp_acts h hkind
  rw [hoff, State.agreeFragment_whole hlen hmax ((noted_stepUsable s p f _).trans hgood), if_neg (by simp),
    s.noted_keeps p f (fun x => agreeWith x f.bucket f.src d) fun _ _ => rfl] at hack
  obtain ⟨hb, hround, hlo⟩ := agreeWith_key (s.pitch p) f.bucket f.src d
  generalize agreeWith (s.pitch p) f.bucket f.src d = a at hack hb hround hlo ⊢
  change Acknowledged p f.src ((recordCame s p f f.bucket false).agreeProgress p a) t at hack
  have hchildren : ((recordCame s p f f.bucket false).pitch p).children = (s.pitch p).children :=
    recordCame_keeps s p f f.bucket false Pitch.children (fun _ _ => rfl) fun _ _ => rfl
  have hrank : ((recordCame s p f f.bucket false).pitch p).rank = (s.pitch p).rank :=
    recordCame_keeps s p f f.bucket false Pitch.rank (fun _ _ => rfl) fun _ _ => rfl
  have hwork := recordCame_work s p f f.bucket false
  generalize recordCame s p f f.bucket false = u at hack hchildren hrank hwork
  have hall := FrameWork.of_within (r := f.src) (u.agreeProgress_within p a) (u.agreeProgress_waiting p a).channels
  refine ⟨t, hrun, (hwork.trans hall).accepts hack, fun hown => ?_, fun own hown hagreed hsent hkids => ⟨fun hne => ?_, fun hzero c hc => ?_⟩⟩
  · rw [hack.keeps (fun x => x.agree _ _ _) fun _ _ => rfl, u.agreeProgress_unowned p a hown, State.pitch_setPitch, ← hb, ← hround, ← hlo]
    exact Pitch.agree_setAgree _ a
  · have hspec := ((State.agreeProgress_spec (s := u) (p := p) hown).2.2 hagreed hsent (by rwa [hchildren])).2.2 (by rwa [hrank])
    rw [hrank, hb] at hspec
    exact hack.queued hspec
  · rw [u.agreeProgress_root p a hown hagreed hsent (by rwa [hchildren]) (by rwa [hrank])] at hack
    rw [← hb]
    exact hack.queued ((u.agreeDone_sends p a _).2 c (by rwa [hchildren]))

/-! ## AGREE_DOWN -/

/-- The first fragment of a record names the bucket that its frame names. -/
theorem fragOk_bucket {x : Pitch} {down : Bool} (h : x.fragOk b down src 0 d = true) : (agreeOf d).bucket = b := by
  have hfits (round : Nat) (hround : (match x.agreeShape b round with
      | none => false
      | some (n, k) => decide (0 < agreeLen n k) && decide (d.length = min 4096 (agreeLen n k - 0)) &&
          (decide ((0 : Nat) ≠ 0) || (decide (leAt d 0 4 = b) && decide (leAt d 6 1 = round) && decide (leAt d 8 4 = n) &&
            decide (leAt d 12 2 = k)))) = true) : leAt d 0 4 = b := by
    split at hround
    · exact absurd hround (by simp)
    · simp only [ne_eq, not_true, decide_false, Bool.false_or, Bool.and_eq_true, decide_eq_true_eq] at hround
      tauto
  simp only [Pitch.fragOk, Bool.and_eq_true, Bool.or_eq_true] at h
  rcases h.2 with (h0 | h2) | h5
  · exact hfits 0 h0
  · exact hfits 2 h2
  · exact hfits 5 h5

/-- The agreed record is filed, goes to the children, and gives the run of its bucket what is agreed. -/
theorem agreeDown_goes (h : Fresh s rx p f d) (hoff : f.offset = 0) (hmax : d.length ≤ 4096) (hkind : f.kind = .agreeDown)
    (hlen : d.length = agreeLen (leAt d 8 4) (leAt d 12 2)) (hgood : (s.pitch p).stepUsable (leAt d 4 2) = true) :
    ∃ t, exec (.agreeDown rx) s = .next t ∧ Accepted p f s t ∧
      ((t.pitch p).agree f.bucket (agreeOf d).round (BitVec.ofNat 16 (agreeOf d).stepLo)).agreed = some d ∧
      (∀ c ∈ (s.pitch p).children, Queued p (recordFrames c f.bucket tgAgreeDown d) t) ∧
      (∀ r, (agreeOf d).round = 0 → BitVec.ofNat 16 (agreeOf d).stepLo = (s.pitch p).stepLo →
        ((s.pitch p).agree f.bucket 0 (s.pitch p).stepLo).own.isSome = true → (s.pitch p).runOf f.bucket = some r →
        r.agreedOf f.bucket = none →
        ∃ r' ∈ (t.pitch p).runs, r'.bucket = r.bucket ∧ r'.agreed = r.agreed ++ [(f.bucket, (agreeOf d).codes, (agreeOf d).nf)]) := by
  obtain ⟨t, hrun, hack⟩ := agreeDown_acts h hkind
  have hbucket : (agreeOf d).bucket = f.bucket := by
    have hwhole := h.whole
    rw [State.fragmentOk] at hwhole
    simp only [hkind, hoff] at hwhole
    exact fragOk_bucket hwhole
  rw [hoff, State.agreeFragment_whole hlen hmax ((noted_stepUsable s p f _).trans hgood), if_pos rfl,
    s.noted_keeps p f (fun x => x.agree f.bucket (agreeOf d).round (BitVec.ofNat 16 (agreeOf d).stepLo)) fun _ _ => rfl] at hack
  change Acknowledged p f.src ((recordCame s p f f.bucket true).agreeDone p _ d) t at hack
  have hchildren : ((recordCame s p f f.bucket true).pitch p).children = (s.pitch p).children :=
    recordCame_keeps s p f f.bucket true Pitch.children (fun _ _ => rfl) fun _ _ => rfl
  have hstep : ((recordCame s p f f.bucket true).pitch p).stepLo = (s.pitch p).stepLo :=
    recordCame_keeps s p f f.bucket true Pitch.stepLo (fun _ _ => rfl) fun _ _ => rfl
  have hruns : ((recordCame s p f f.bucket true).pitch p).runs = (s.pitch p).runs :=
    recordCame_keeps s p f f.bucket true Pitch.runs (fun _ _ => rfl) fun _ _ => rfl
  have hwork := recordCame_work s p f f.bucket true
  generalize recordCame s p f f.bucket true = u at hack hchildren hstep hruns hwork
  obtain ⟨hb, hround, hlo⟩ := (s.pitch p).agree_key f.bucket (agreeOf d).round (BitVec.ofNat 16 (agreeOf d).stepLo)
  have hown (hzero : (agreeOf d).round = 0) (hthis : BitVec.ofNat 16 (agreeOf d).stepLo = (s.pitch p).stepLo)
      (hown : ((s.pitch p).agree f.bucket 0 (s.pitch p).stepLo).own.isSome = true) :
      ((s.pitch p).agree f.bucket (agreeOf d).round (BitVec.ofNat 16 (agreeOf d).stepLo)).own.isSome = true := by rwa [hzero, hthis]
  generalize (s.pitch p).agree f.bucket (agreeOf d).round (BitVec.ofNat 16 (agreeOf d).stepLo) = a at hack hb hround hlo hown
  obtain ⟨hwithin, hfiled⟩ := u.agreeDone_spec p a d
  obtain ⟨hwaiting, hqueued⟩ := u.agreeDone_sends p a d
  rw [hb, hround, hlo] at hfiled
  rw [hchildren, hb] at hqueued
  refine ⟨t, hrun, (hwork.trans (FrameWork.of_within hwithin hwaiting.channels)).accepts hack, ?_, fun c hc => hack.queued (hqueued c hc),
    fun r hzero hthis hhave hrunOf hnew => ?_⟩
  · rw [hack.keeps (fun x => x.agree _ _ _) fun _ _ => rfl, hfiled]
  · obtain ⟨v, hv, hvruns⟩ := u.agreeDone_applies p a d (by rw [hlo, hthis, hstep]) (hown hzero hthis hhave)
    have hvrun : (v.pitch p).runOf f.bucket = some r := by
      rw [← hrunOf, Pitch.runOf, hvruns, hruns]
      rfl
    obtain ⟨r', hmem, hsame, hagreed⟩ := State.applyAgreed_run (a := agreeOf d) hzero (hbucket ▸ hvrun) (hbucket ▸ hnew)
    rw [hbucket] at hagreed
    rw [← hv, ← hack.runs] at hmem
    exact ⟨r', hmem, hsame, hagreed⟩

/-! ## A record of a step that is over (R248) -/

/-- The fragments of a record that have come, beyond its first. -/
def laterFragments (a : Assembly) : Nat := (a.frags.filter (fun e => e.1 ≠ 0)).length

/-- It is dropped, and each of its frames that has come is counted. -/
theorem agreeFragment_stale {down : Bool} {t : State} (hover : (s.pitch p).stepUsable (leAt d 4 2) = false)
    (hack : Acknowledged p f.src ((s.noted p f).agreeFragment p f.bucket down f.src 0 d) t) :
    AcceptedQuietly p f s t ∧ (t.pitch p).counter .collStale =
      (s.pitch p).counter .collStale + BitVec.ofNat 64 (1 + laterFragments ((s.pitch p).assembly f.src f.bucket down)) := by
  have hassembly := s.noted_keeps p f (fun x => x.assembly f.src f.bucket down) fun _ _ => rfl
  have husable := (noted_stepUsable s p f (leAt d 4 2)).trans hover
  simp only [State.agreeFragment, hassembly, husable, decide_true, Bool.not_false, Bool.and_self, if_true] at hack
  unfold State.staleRecord at hack
  have hcount := FrameWork.count (p := p) (r := f.src) (s.noted p f) .collStale
    (1 + laterFragments ((s.pitch p).assembly f.src f.bucket down))
  refine ⟨(hcount.trans (FrameWork.setPitch _ (by rfl))).acceptsQuietly hack rfl, ?_⟩
  rw [hack.counter, State.pitch_modPitch]
  change (((s.noted p f).count p .collStale (1 + laterFragments ((s.pitch p).assembly f.src f.bucket down))).pitch p).counter .collStale = _
  rw [State.pitch_count, Pitch.counter_count _ (by decide) (by decide), s.noted_keeps p f (fun x => x.counter _) fun _ _ => rfl]

theorem agree_stale (h : Fresh s rx p f d) (hoff : f.offset = 0) (hkind : f.kind = .agreeUp ∨ f.kind = .agreeDown)
    (hover : (s.pitch p).stepUsable (leAt d 4 2) = false) :
    ∃ t, exec (if f.kind = .agreeUp then .agreeUp rx else .agreeDown rx) s = .next t ∧ AcceptedQuietly p f s t ∧
      (t.pitch p).counter .collStale = (s.pitch p).counter .collStale +
        BitVec.ofNat 64 (1 + laterFragments ((s.pitch p).assembly f.src f.bucket (decide (f.kind = .agreeDown)))) := by
  rcases hkind with hkind | hkind
  · obtain ⟨t, hrun, hack⟩ := agreeUp_acts h hkind
    rw [hoff] at hack
    refine ⟨t, by rwa [if_pos hkind], ?_⟩
    rw [hkind]
    exact agreeFragment_stale hover hack
  · obtain ⟨t, hrun, hack⟩ := agreeDown_acts h hkind
    rw [hoff] at hack
    refine ⟨t, by rwa [if_neg (by rw [hkind]; decide)], ?_⟩
    rw [hkind]
    exact agreeFragment_stale hover hack

end

end Sys2Proof.Machine
end

