-- ==== Sys2Proof/Proofs/CountFrames.lean ====
section
/-! PROOF. Count vectors of expert exchanges travel the tree (10 R239). -/

namespace Sys2Proof.Machine

open Sys2Proof.Claims

/-! ## Messages wait whatever windows are assigned (03 R70) -/

/-- From x to y the channels are as before, and every frame outside the windows that waited waits. -/
structure MessagesKept (x y : Pitch) : Prop where
  channels : y.tx.channels = x.tx.channels
  kept : ∀ g ∈ x.tx.txq, g.windowed = false → g ∈ y.tx.txq

section
variable {x y z : Pitch} {p : PitchId}

theorem MessagesKept.refl : MessagesKept x x := ⟨rfl, fun _ hg _ => hg⟩

theorem MessagesKept.trans (h : MessagesKept x y) (k : MessagesKept y z) : MessagesKept x z :=
  ⟨k.channels.trans h.channels, fun g hg hfree => k.kept g (h.kept g hg hfree) hfree⟩

theorem MessagesKept.of_tx (h : y.tx = x.tx) : MessagesKept x y := ⟨by rw [h], fun g hg _ => by rwa [h]⟩

theorem MessagesKept.enqueues (fs : List TxFrame) (x : Pitch) : MessagesKept x (fs.foldl Pitch.enqueue x) := by
  obtain ⟨txq, hframes⟩ := Pitch.enqueues fs x
  exact ⟨by rw [hframes], fun g hg _ => Pitch.mem_enqueues fs x (.inr hg)⟩

/-- An element that is not the one replaced stays. -/
theorem mem_replaceFirst_other {α : Type} {c : α → Bool} {f : α → α} {a : α} (ha : c a = false) {xs : List α} (h : a ∈ xs) :
    a ∈ replaceFirst c f xs := by
  induction xs with
  | nil => exact h
  | cons x xs ih =>
    unfold replaceFirst
    rcases List.mem_cons.mp h with rfl | h
    · rw [if_neg (by simp [ha])]
      exact List.mem_cons_self
    · split
      · exact List.mem_cons_of_mem _ h
      · exact List.mem_cons_of_mem _ (ih h)

theorem MessagesKept.assignNext {lp : Nat} (h : x.assignNext p lp = some y) : MessagesKept x y := by
  unfold Pitch.assignNext at h
  split at h
  · simp at h
  next f hf =>
    have hwindowed : f.windowed = true := by
      have hmatch := List.find?_some hf
      simp only [Bool.and_eq_true] at hmatch
      exact hmatch.1.1
    split at h
    · simp at h
    · extract_lets es at h
      split at h
      extract_lets w at h
      obtain rfl := Option.some.inj h
      have hcount : w.tx.txq = x.tx.txq ∧ w.tx.channels = x.tx.channels := by
        change (Pitch.setLpWin _ _ _).tx.txq = _ ∧ (Pitch.setLpWin _ _ _).tx.channels = _
        rw [Pitch.setLpWin, Pitch.count_tx, Pitch.count_tx, Pitch.count_tx]
        exact ⟨rfl, rfl⟩
      refine ⟨hcount.2, fun g hg hfree => ?_⟩
      have hother : decide (g = f) = false := decide_eq_false fun heq => by simp [heq, hwindowed] at hfree
      have hmem : g ∈ w.tx.txq := by rwa [hcount.1]
      exact mem_replaceFirst_other (c := fun k => decide (k = f)) hother hmem

theorem MessagesKept.assignPort (lp n : Nat) (x : Pitch) : MessagesKept x (Pitch.assignPort p lp n x) := by
  induction n generalizing x with
  | zero => exact MessagesKept.refl
  | succ n ih =>
    unfold Pitch.assignPort
    split
    next y hnext => exact (MessagesKept.assignNext hnext).trans (ih y)
    · exact MessagesKept.refl

theorem MessagesKept.assignAll (x : Pitch) (p : PitchId) : MessagesKept x (x.assignAll p) := by
  unfold Pitch.assignAll
  generalize List.range 16 = lps
  induction lps generalizing x with
  | nil => exact MessagesKept.refl
  | cons lp lps ih => exact (MessagesKept.assignPort lp _ x).trans (ih _)

/-- Frames of records are outside the windows. -/
theorem recordFrames_windowed {dst b target : Nat} {bs : Bytes} {g : TxFrame} (h : g ∈ recordFrames dst b target bs) : g.windowed = false := by
  obtain ⟨e, -, rfl⟩ := List.mem_map.mp h
  rfl

end

section
variable {p : PitchId} {s t : State}

theorem MessagesKept.queued {dst b target : Nat} {bs : Bytes} (h : MessagesKept (s.pitch p) (t.pitch p))
    (hs : Queued p (recordFrames dst b target bs) s) : Queued p (recordFrames dst b target bs) t :=
  fun g hg => h.kept g (hs g hg) (recordFrames_windowed hg)

theorem MessagesKept.enqueueAll (s : State) (p : PitchId) (fs : List TxFrame) : MessagesKept (s.pitch p) ((s.enqueueAll p fs).pitch p) := by
  rw [State.enqueueAll, State.pitch_modPitch]
  exact MessagesKept.enqueues fs _

theorem MessagesKept.sendWindowed (s : State) (p : PitchId) (fs : List TxFrame) : MessagesKept (s.pitch p) ((s.sendWindowed p fs).pitch p) := by
  rw [State.sendWindowed, State.pitch_modPitch]
  exact (MessagesKept.enqueueAll s p fs).trans (MessagesKept.assignAll _ p)

/-- Frames that joined are a frame's work where the channels stayed. -/
theorem FramesJoined.work {fs : List TxFrame} {r : Nat} (h : FramesJoined p fs s t) (hkept : MessagesKept (s.pitch p) (t.pitch p)) :
    FrameWork p r s t :=
  FrameWork.of_within (rs := []) ⟨by rw [h.rest], h.others, fun _ _ _ => by rw [h.rest]; rfl⟩ hkept.channels

end

/-! ## The record of an exchange -/

theorem Pitch.exchange_setExchange (x : Pitch) (e : Exchange) : (x.setExchange e).exchange e.exch e.stepLo = e := by
  rw [Pitch.exchange, Pitch.setExchange, find?_upsert (by simp)]
  rfl

theorem Pitch.exchange_congr {x y : Pitch} (h : y.exchanges = x.exchanges) (exch lo : W16) : y.exchange exch lo = x.exchange exch lo := by
  rw [Pitch.exchange, h, Pitch.exchange]

/-! ## The slots are assigned (R240) -/

section
variable (s : State) (p : PitchId) (e : Exchange)

/-- Flags and counts are noted, the record keeps the numbers of entries and frames, the frames of the tokens join, and results leave. -/
theorem State.assignSlots_parts : ∃ z k fr marked, FlagsMoved (s.pitch p) z ∧
    HostsMoved ((s.setPitch p (z.setExchange { e with kept := k, frames := fr })).sendWindowed p marked) (s.assignSlots p e) := by
  unfold State.assignSlots
  extract_lets x tab totals cap entries tb step
  have hnotes (c : Pitch × List TxFrame) (a : Nat × Nat × Nat × Nat) : FlagsMoved c.1 (step c a).1 := by
    simp only [step]
    split
    · exact FlagsMoved.noteToken c.1 _ _
    · exact FlagsMoved.refl c.1
  split
  next kept dropped hpart =>
    split
    next y frames hfold =>
      extract_lets marked mine n fills z e₁ s₁ s₂ bits s₃
      have hy := FlagsMoved.foldl hnotes kept (x, [])
      rw [hfold] at hy
      have hz : FlagsMoved x z := (hy.trans (FlagsMoved.count y _ _)).trans (FlagsMoved.count _ _ _)
      exact ⟨z, kept.length, marked.length, marked, hz,
        ((HostsMoved.foldl (fun t a => HostsMoved.descStore t _ _ _ _) dropped s₁).trans (HostsMoved.descStore s₂ _ _ _ _)).trans
          (HostsMoved.descStore s₃ _ _ _ _)⟩

/-- What assigning the slots is to the frame that brought it about. -/
theorem State.assignSlots_spec (r : Nat) : FrameWork p r s (s.assignSlots p e) ∧ MessagesKept (s.pitch p) ((s.assignSlots p e).pitch p) ∧
    ∃ k fr, ((s.assignSlots p e).pitch p).exchange e.exch e.stepLo = { e with kept := k, frames := fr } := by
  obtain ⟨z, k, fr, marked, hz, hhosts⟩ := s.assignSlots_parts p e
  have hset : (s.setPitch p (z.setExchange { e with kept := k, frames := fr })).pitch p = z.setExchange { e with kept := k, frames := fr } :=
    State.pitch_setPitch s p _
  have htx : (z.setExchange { e with kept := k, frames := fr }).tx = (s.pitch p).tx := by
    rw [FlagsMoved] at hz
    rw [hz]
    rfl
  have hjoined := FramesJoined.sendWindowed (s.setPitch p (z.setExchange { e with kept := k, frames := fr })) p marked
  have hkept := MessagesKept.sendWindowed (s.setPitch p (z.setExchange { e with kept := k, frames := fr })) p marked
  have hstart : MessagesKept (s.pitch p) ((s.setPitch p (z.setExchange { e with kept := k, frames := fr })).pitch p) :=
    MessagesKept.of_tx (by rw [hset, htx])
  refine ⟨(FrameWork.setPitch s (by rw [htx])).trans ((hjoined.work hkept).trans hhosts.work), ?_, k, fr, ?_⟩
  · rw [hhosts.pitch]
    exact hstart.trans hkept
  · rw [hhosts.pitch, Pitch.exchange_congr hjoined.own.exchanges, hset]
    exact z.exchange_setExchange { e with kept := k, frames := fr }

end

/-! ## T and P(k) go to the children (R239) -/

/-- A walk that gathers frames keeps what it has gathered, and gathers each element's at its first place. -/
theorem mem_gathered {α β γ : Type} [DecidableEq α] {fs : α → β → List γ} {g : β → α → β} (as : List α) (acc : List γ × β) :
    (∀ c ∈ acc.1, c ∈ (as.foldl (fun acc a => (acc.1 ++ fs a acc.2, g acc.2 a)) acc).1) ∧
    ∀ a ∈ as, ∀ c ∈ fs a ((as.takeWhile (· ≠ a)).foldl g acc.2), c ∈ (as.foldl (fun acc a => (acc.1 ++ fs a acc.2, g acc.2 a)) acc).1 := by
  induction as generalizing acc with
  | nil => exact ⟨fun c hc => hc, fun a ha => absurd ha List.not_mem_nil⟩
  | cons b as ih =>
    obtain ⟨hkept, hfound⟩ := ih (acc.1 ++ fs b acc.2, g acc.2 b)
    refine ⟨fun c hc => hkept c (List.mem_append_left _ hc), fun a ha c hc => ?_⟩
    by_cases hab : b = a
    · rw [List.takeWhile_cons_of_neg (by simp [hab])] at hc
      exact hkept c (List.mem_append_right _ (hab ▸ hc))
    · rw [List.takeWhile_cons_of_pos (by simp [hab])] at hc
      exact hfound a ((List.mem_cons.mp ha).resolve_left fun h => hab h.symm) c hc

section
variable (s : State) (p : PitchId) (e : Exchange)

/-- The frames that a rank sends its children once it has T and P(k). -/
def scanDownFrames (x : Pitch) (e : Exchange) : List TxFrame :=
  (x.children.foldl (fun (acc : List TxFrame × List Nat) c =>
    (acc.1 ++ recordFrames c e.exch.toNat tgScanDown (countRecord e.exch e.stepLo (acc.2 ++ e.totals.getD [])),
      addVec acc.2 (match e.kids.find? (fun v => v.1 = c) with | some v => v.2 | none => [])))
    ([], addVec (e.below.getD []) (e.own.getD []))).1

theorem State.scanDone_eq : s.scanDone p e =
    ((s.setPitch p ((s.pitch p).setExchange e)).enqueueAll p (scanDownFrames (s.pitch p) e)).assignSlots p e := rfl

theorem mem_scanDownFrames (x : Pitch) {c : Nat} (hc : c ∈ x.children) {g : TxFrame}
    (hg : g ∈ recordFrames c e.exch.toNat tgScanDown (countRecord e.exch e.stepLo
      (childBelow e (e.below.getD []) (e.own.getD []) x.children c ++ e.totals.getD []))) : g ∈ scanDownFrames x e :=
  (mem_gathered (fs := fun c below => recordFrames c e.exch.toNat tgScanDown (countRecord e.exch e.stepLo (below ++ e.totals.getD [])))
    (g := fun below c => addVec below (match e.kids.find? (fun v => v.1 = c) with | some v => v.2 | none => []))
    x.children ([], addVec (e.below.getD []) (e.own.getD []))).2 c hc g hg

theorem State.scanDone_spec (r : Nat) : FrameWork p r s (s.scanDone p e) ∧
    (∃ k fr, ((s.scanDone p e).pitch p).exchange e.exch e.stepLo = { e with kept := k, frames := fr }) ∧
    ∀ c ∈ (s.pitch p).children, Queued p (recordFrames c e.exch.toNat tgScanDown (countRecord e.exch e.stepLo
      (childBelow e (e.below.getD []) (e.own.getD []) (s.pitch p).children c ++ e.totals.getD []))) (s.scanDone p e) := by
  rw [State.scanDone_eq]
  obtain ⟨hwork, hkept, hexchange⟩ := State.assignSlots_spec
    ((s.setPitch p ((s.pitch p).setExchange e)).enqueueAll p (scanDownFrames (s.pitch p) e)) p e r
  have hset : FrameWork p r s (s.setPitch p ((s.pitch p).setExchange e)) := FrameWork.setPitch s rfl
  refine ⟨hset.trans ((FrameWork.enqueueAll _ _).trans hwork), hexchange, fun c hc => hkept.queued fun g hg => ?_⟩
  exact queued_enqueueAll _ p _ g (mem_scanDownFrames e _ hc hg)

end

/-! ## Count vectors come (R239) -/

section
variable (s : State) (p : PitchId) (e : Exchange)

/-- A child's vector is noted, and the sum goes on once the own vector and every child's are there. -/
theorem State.scanProgress_spec (r : Nat) : FrameWork p r s (s.scanProgress p e) ∧
    (e.own = none → ((s.scanProgress p e).pitch p).exchange e.exch e.stepLo = e) ∧
    (∀ own, e.own = some own → e.sentUp = false → (∀ c ∈ (s.pitch p).children, ∃ k ∈ e.kids, k.1 = c) →
      ((s.pitch p).rank ≠ 0 → Queued p (recordFrames (treeParent (s.pitch p).rank) e.exch.toNat tgScanUp
        (countRecord e.exch e.stepLo (e.kids.foldl (fun a k => addVec a k.2) own))) (s.scanProgress p e)) ∧
      ((s.pitch p).rank = 0 → (((s.scanProgress p e).pitch p).exchange e.exch e.stepLo).totals =
        some (e.kids.foldl (fun a k => addVec a k.2) own))) := by
  have hset (e' : Exchange) : FrameWork p r s (s.setPitch p ((s.pitch p).setExchange e')) := FrameWork.setPitch s rfl
  unfold State.scanProgress
  extract_lets x
  split
  next hnone =>
    refine ⟨hset e, fun _ => ?_, fun own hown => absurd (hnone.symm.trans hown) (by simp)⟩
    rw [State.pitch_setPitch]
    exact Pitch.exchange_setExchange _ e
  next own hown =>
    split
    next hwait =>
      refine ⟨hset e, fun hnone => absurd (hown.symm.trans hnone) (by simp), fun _ _ hopen hall => absurd hwait ?_⟩
      have hthere : x.children.all (fun c => e.kids.any (fun k => k.1 = c)) = true := by simpa using hall
      simp [hopen, hthere]
    · extract_lets sum
      split
      next hrank =>
        obtain ⟨hwork, ⟨k, fr, hexchange⟩, -⟩ := s.scanDone_spec p
          { e with sentUp := true, below := some (List.replicate own.length 0), totals := some sum } r
        refine ⟨hwork, fun hnone => absurd (hown.symm.trans hnone) (by simp), fun own' hown' _ _ => ⟨fun hne => absurd hrank hne, fun _ => ?_⟩⟩
        obtain rfl : own = own' := Option.some.inj (hown.symm.trans hown')
        exact congrArg Exchange.totals hexchange
      next hrank =>
        refine ⟨(hset _).trans (FrameWork.enqueueAll _ _), fun hnone => absurd (hown.symm.trans hnone) (by simp), fun own' hown' _ _ =>
          ⟨fun _ => ?_, fun hzero => absurd hzero hrank⟩⟩
        obtain rfl : own = own' := Option.some.inj (hown.symm.trans hown')
        exact queued_enqueueAll _ p _

end

section
variable {s : State} {rx : Rx} {p : PitchId} {f : Frame} {d : Bytes}

/-- A vector that one frame carries is whole at once. -/
theorem State.scanFragment_whole {exch src : Nat} {down : Bool} (hlen : d.length = 16 + leAt d 4 4) (hmax : d.length ≤ 4096)
    (hgood : (s.pitch p).stepUsable (leAt d 2 2) = true) : s.scanFragment p exch down src 0 d =
      if down then
        if (exchangeOf (s.pitch p) d).totals.isSome then s.setPitch p ((s.pitch p).recordWhole src (2 ^ 32 + exch) down)
        else (s.setPitch p ((s.pitch p).recordWhole src (2 ^ 32 + exch) down)).scanDone p { exchangeOf (s.pitch p) d with
          below := some ((countVec d).take ((countVec d).length / 2)), totals := some ((countVec d).drop ((countVec d).length / 2)) }
      else (s.setPitch p ((s.pitch p).recordWhole src (2 ^ 32 + exch) down)).scanProgress p
        { exchangeOf (s.pitch p) d with kids := kidsWith (exchangeOf (s.pitch p) d) src d } := by
  have hwhole := (s.pitch p).assemble_whole src (2 ^ 32 + exch) down (len := fun h => 16 + leAt h 4 4) hlen.symm (by omega) hmax
  unfold State.scanFragment
  simp only [hgood, Bool.not_true, Bool.and_false, Bool.false_eq_true, if_false, Assembly.staleAt, ne_eq, not_true, decide_false, Bool.false_and,
    hwhole]
  rfl

theorem exchangeOf_key (x : Pitch) (d : Bytes) :
    (exchangeOf x d).exch = BitVec.ofNat 16 (leAt d 0 2) ∧ (exchangeOf x d).stepLo = BitVec.ofNat 16 (leAt d 2 2) := x.exchange_key _ _

/-- An exchange that was filed reads back. -/
theorem exchangeOf_filed {x y : Pitch} {e : Exchange} (h : y.exchange (exchangeOf x d).exch (exchangeOf x d).stepLo = e) :
    exchangeOf y d = e := by
  obtain ⟨hexch, hlo⟩ := exchangeOf_key x d
  rw [hexch, hlo] at h
  exact h

/-- SCAN_UP (R239). -/
theorem scanUp_goes (h : Fresh s rx p f d) (hoff : f.offset = 0) (hmax : d.length ≤ 4096) (hkind : f.kind = .scanUp)
    (hlen : d.length = 16 + leAt d 4 4) (hgood : (s.pitch p).stepUsable (leAt d 2 2) = true) :
    ∃ t, exec (.scanUp rx) s = .next t ∧ Accepted p f s t ∧
      ((exchangeOf (s.pitch p) d).own = none →
        exchangeOf (t.pitch p) d = { exchangeOf (s.pitch p) d with kids := kidsWith (exchangeOf (s.pitch p) d) f.src d }) ∧
      (∀ own, (exchangeOf (s.pitch p) d).own = some own → (exchangeOf (s.pitch p) d).sentUp = false →
        (∀ c ∈ (s.pitch p).children, ∃ k ∈ kidsWith (exchangeOf (s.pitch p) d) f.src d, k.1 = c) →
        ((s.pitch p).rank ≠ 0 → Queued p (recordFrames (treeParent (s.pitch p).rank) (exchangeOf (s.pitch p) d).exch.toNat tgScanUp
          (countRecord (exchangeOf (s.pitch p) d).exch (exchangeOf (s.pitch p) d).stepLo
            ((kidsWith (exchangeOf (s.pitch p) d) f.src d).foldl (fun a k => addVec a k.2) own))) t) ∧
        ((s.pitch p).rank = 0 → (exchangeOf (t.pitch p) d).totals =
          some ((kidsWith (exchangeOf (s.pitch p) d) f.src d).foldl (fun a k => addVec a k.2) own))) := by
  obtain ⟨t, hrun, hack⟩ := fresh_acts h (c := .scanUp rx) (content := fun _ => true)
    (act := fun p f d s => s.scanFragment p f.bucket false f.src f.offset d) rfl (by rw [hkind]; rfl)
  rw [hoff, State.scanFragment_whole hlen hmax ((noted_stepUsable s p f _).trans hgood), if_neg (by simp),
    s.noted_keeps p f (fun x => exchangeOf x d) fun _ _ => rfl] at hack
  change Acknowledged p f.src ((recordCame s p f (2 ^ 32 + f.bucket) false).scanProgress p
    { exchangeOf (s.pitch p) d with kids := kidsWith (exchangeOf (s.pitch p) d) f.src d }) t at hack
  have hchildren : ((recordCame s p f (2 ^ 32 + f.bucket) false).pitch p).children = (s.pitch p).children :=
    recordCame_keeps s p f _ false Pitch.children (fun _ _ => rfl) fun _ _ => rfl
  have hrank : ((recordCame s p f (2 ^ 32 + f.bucket) false).pitch p).rank = (s.pitch p).rank :=
    recordCame_keeps s p f _ false Pitch.rank (fun _ _ => rfl) fun _ _ => rfl
  have hwork := recordCame_work s p f (2 ^ 32 + f.bucket) false
  generalize recordCame s p f (2 ^ 32 + f.bucket) false = u at hack hchildren hrank hwork
  obtain ⟨hprogress, hwaits, hgoes⟩ := u.scanProgress_spec p
    { exchangeOf (s.pitch p) d with kids := kidsWith (exchangeOf (s.pitch p) d) f.src d } f.src
  rw [hchildren, hrank] at hgoes
  have hsame (exch lo : W16) := hack.keeps (fun x => x.exchange exch lo) fun _ _ => rfl
  refine ⟨t, hrun, (hwork.trans hprogress).accepts hack, fun hown => exchangeOf_filed ((hsame _ _).trans (hwaits hown)),
    fun own hown hopen hall => ⟨fun hne => ?_, fun hzero => ?_⟩⟩
  · exact hack.queued ((hgoes own hown hopen hall).1 hne)
  · rw [exchangeOf_filed (x := s.pitch p) (hsame _ _)]
    exact (hgoes own hown hopen hall).2 hzero

/-- SCAN_DOWN (R239). -/
theorem scanDown_goes (h : Fresh s rx p f d) (hoff : f.offset = 0) (hmax : d.length ≤ 4096) (hkind : f.kind = .scanDown)
    (hlen : d.length = 16 + leAt d 4 4) (hgood : (s.pitch p).stepUsable (leAt d 2 2) = true) {own : List Nat}
    (hown : (exchangeOf (s.pitch p) d).own = some own) (hopen : (exchangeOf (s.pitch p) d).totals = none) :
    ∃ t, exec (.scanDown rx) s = .next t ∧ Accepted p f s t ∧
      (exchangeOf (t.pitch p) d).below = some ((countVec d).take ((countVec d).length / 2)) ∧
      (exchangeOf (t.pitch p) d).totals = some ((countVec d).drop ((countVec d).length / 2)) ∧
      ∀ c ∈ (s.pitch p).children, Queued p (recordFrames c (exchangeOf (s.pitch p) d).exch.toNat tgScanDown
        (countRecord (exchangeOf (s.pitch p) d).exch (exchangeOf (s.pitch p) d).stepLo
          (childBelow (exchangeOf (s.pitch p) d) ((countVec d).take ((countVec d).length / 2)) own (s.pitch p).children c ++
            (countVec d).drop ((countVec d).length / 2)))) t := by
  obtain ⟨t, hrun, hack⟩ := fresh_acts h (c := .scanDown rx) (content := fun _ => true)
    (act := fun p f d s => s.scanFragment p f.bucket true f.src f.offset d) rfl (by rw [hkind]; rfl)
  rw [hoff, State.scanFragment_whole hlen hmax ((noted_stepUsable s p f _).trans hgood), if_pos rfl,
    s.noted_keeps p f (fun x => exchangeOf x d) fun _ _ => rfl, if_neg (by simp [hopen])] at hack
  let e : Exchange := { exchangeOf (s.pitch p) d with
    below := some ((countVec d).take ((countVec d).length / 2)), totals := some ((countVec d).drop ((countVec d).length / 2)) }
  change Acknowledged p f.src ((recordCame s p f (2 ^ 32 + f.bucket) true).scanDone p e) t at hack
  have hchildren : ((recordCame s p f (2 ^ 32 + f.bucket) true).pitch p).children = (s.pitch p).children :=
    recordCame_keeps s p f _ true Pitch.children (fun _ _ => rfl) fun _ _ => rfl
  have hwork := recordCame_work s p f (2 ^ 32 + f.bucket) true
  generalize recordCame s p f (2 ^ 32 + f.bucket) true = u at hack hchildren hwork
  obtain ⟨hdone, ⟨k, fr, hexchange⟩, hqueued⟩ := u.scanDone_spec p e f.src
  rw [hchildren, show e.own.getD [] = own from congrArg (Option.getD · []) hown] at hqueued
  have hfiled : exchangeOf (t.pitch p) d = { e with kept := k, frames := fr } :=
    exchangeOf_filed (x := s.pitch p) ((hack.keeps (fun x => x.exchange _ _) fun _ _ => rfl).trans hexchange)
  exact ⟨t, hrun, (hwork.trans hdone).accepts hack, congrArg Exchange.below hfiled, congrArg Exchange.totals hfiled,
    fun c hc => hack.queued (hqueued c hc)⟩

end

/-! ## O45 -/

/-- Settles O45: a record of one frame goes on as its collective's rule says, and one of a step that is over is dropped and counted. -/
theorem treeRecords : Obligations.TreeRecords := by
  unfold Obligations.TreeRecords
  intro s rx p f d h hoff hmax
  exact ⟨fun hkind hlen hgood => agreeUp_goes h hoff hmax hkind hlen hgood,
    fun hkind hlen hgood => agreeDown_goes h hoff hmax hkind hlen hgood,
    fun hkind hover => agree_stale h hoff hkind hover,
    fun hkind hlen hgood => scanUp_goes h hoff hmax hkind hlen hgood,
    fun hkind hlen hgood own hown hopen => scanDown_goes h hoff hmax hkind hlen hgood hown hopen⟩

end Sys2Proof.Machine
end
